-- ==== Sys2Proof/Word.lean ====
section
/-! DEFINITION. The word types of the Zixon Z9 and their plainest arithmetic. -/

namespace Sys2Proof

/-- One byte of any memory. -/
abbrev Byte := BitVec 8
/-- One lane of a vector register (R10: 32 bits per lane). -/
abbrev Word := BitVec 32
/-- A scalar register (R10: 64 bits). -/
abbrev DWord := BitVec 64
/-- One bit per lane of the widest warp (R8: 32·k lanes, k at most 32). -/
abbrev LaneMask := BitVec 1024

/-- Bits [hi:lo] of a natural number (R33 `Bits`). -/
def bits (x hi lo : Nat) : Nat := (x >>> lo) % 2 ^ (hi + 1 - lo)

/-- Bit `i` of a natural number. -/
def bit (x i : Nat) : Bool := x.testBit i

/-- The least integer not below `a / b` (R33 `Ceil`). -/
def ceilDiv (a b : Nat) : Nat := (a + b - 1) / b

end Sys2Proof
end

