-- ==== Sys2Proof/Config.lean ====
section
/-! DEFINITION. What the spec leaves open: free values without a body, and the constants of the device. -/

namespace Sys2Proof.Config

/-- Value number `n` of those the spec leaves open: pod read data, completion data, device answers (log 18). -/
opaque free : Nat → Nat
/-- Byte `a` of HBM after start number `epoch`, when the start keeps no contents (R421, log 7). -/
opaque hbmByte (epoch a : Nat) : Byte
/-- Byte `a` of host memory before any write seen here (log 18). -/
opaque hostByte (a : Nat) : Byte
/-- Byte `a` of the pod as a read of a command processor finds it on another device at access `n` (R405, log 18). -/
opaque podByte (n a : Nat) : Byte
/-- How a link or the host answers request number `n`: a class-13 cause, or anything else for success (R408, log 18). -/
opaque linkAnswer (n : Nat) : Nat
/-- The set of a line within its slice, which the spec does not give (R369, log 19). -/
opaque l2Set (line : Nat) : Nat
/-- Whether the output buffer of a slice is full at access `n` (R371, log 20). -/
opaque logFull (n : Nat) : Bool
/-- Whether a system debugger is attached at notice number `n`, which no rule of the spec decides (R343, log 36). -/
opaque debugger (n : Nat) : Bool
/-- A word of the handover block whose encoding the spec does not give, at writing number `n` (R418, log 84). -/
opaque handoverWord (n i : Nat) : Nat
/-- What a register of the firmware-private blocks reads, whose layout the spec does not give (R391, log 83). -/
opaque privateRegister (off : Nat) : Nat
/-- A count of a command processor's own cycles or instructions, whose rate the spec does not give (R409, log 85). -/
opaque hartCount (hart csr n : Nat) : Nat
/-- The speed and width to which the host link has trained: link status of R389's table (log 83). -/
opaque hostLink : Nat
/-- The default route of an injection port to a destination (R375, log 21). -/
opaque defaultRoute (port dest : Nat) : Nat
/-- The HSS signature of an attestation report under an identity leaf (R414, R415, log 22). -/
opaque hssSign (leaf n report : Nat) : Nat
/-- The firmware version that `sysc` 0 returns (R343, log 23). -/
opaque fwVersion : DWord
/-- The part number that IDENTIFY returns (R397, log 23). -/
opaque partId : Nat
/-- Whether start step `step` of try `n` fails (R420, R422, log 24). -/
opaque stepFails (step n : Nat) : Bool
/-- The vendor key hash in fuses (R413, log 24). -/
opaque vendorKeyHash : Nat

/-- Whether word 3 of a trace record that overwrites one counts the overwrites, or holds TASKNO and INFO: R431 says both (log 56). -/
opaque traceCounts : Bool
/-- The bytes of a dump section whose contents the spec names without their layout, by type and contents: length and value (R428, log 43). -/
opaque dumpLayout (ty : Nat) (contents : List (List Nat)) : Nat × Nat
/-- The DATA of a pending entry that holds the operands of lanes: lane, address, operand and expected value of each (R429, log 43). -/
opaque pendOperands (lanes : List (Nat × Nat × Nat × Nat)) : Nat

/-- Cores of the device (R1). -/
def cores : Nat := 160
/-- Warp slots of a core (R24). -/
def warpSlots : Nat := 32
/-- Entries of a release FIFO (R157) and its greatest number of markers (R367). -/
def fifoEntries : Nat := 64
/-- The greatest number of release markers (R367). -/
def fifoMarkers : Nat := 8
/-- Entries of a release FIFO on their way to their homes at once (R367). -/
def fifoInFlight : Nat := 32
/-- Depth of the copy queue (R177). -/
def copyQueue : Nat := 64
/-- Depth of the tile-engine queue (R177). -/
def tileQueue : Nat := 16
/-- Enqueue-buffer entries of a core (R239). -/
def enqueueBuffer : Nat := 4
/-- Bytes of HBM (R386). -/
def hbmBytes : Nat := 0x80_0000_0000
/-- The base of register space (R386). -/
def regBase : Nat := 0x3F00_0000_0000
/-- Cycles of 2 ms at 2.25 GHz, the ageing period (R305). -/
def agePeriod : Nat := 4_500_000
/-- Entries of a slice's tile-lock table, transactions of an entry, pinnable ways of a set (R369). -/
def lockEntries : Nat := 128
/-- Transactions of one lock entry (R369). -/
def lockShare : Nat := 16
/-- Ways of one set that may be pinned (R369). -/
def pinnableWays : Nat := 12
/-- Entries of a slice's monitor table (R370). -/
def monitorEntries : Nat := 256

end Sys2Proof.Config
end

