-- ==== Sys2Proof/Machine/Crypto.lean ====
section
/-! DEFINITION. SHA-256 and the verification of an HSS signature, which R70 and R413 take from RFC 8554 with n = m = 32
(PRESUMED from that standard, log 22). A number holds bytes, first byte lowest; the standard's own numbers are big-endian. -/

namespace Sys2Proof.Machine

/-- The bytes of a number. -/
def bytesOf (n x : Nat) : List Nat := (List.range n).map fun i => x / 256 ^ i % 256
/-- The number that holds some bytes. -/
def ofBytes (xs : List Nat) : Nat := xs.foldr (fun b n => b + 256 * n) 0
/-- A big-endian number of `n` bytes. -/
def beBytes (n x : Nat) : List Nat := (bytesOf n x).reverse
/-- The number that some bytes are, read big-endian. -/
def beNat (xs : List Nat) : Nat := xs.foldl (fun n b => 256 * n + b) 0

/-! ## SHA-256 -/

/-- The whole part of the `k`-th root of `x`, below `2 ^ n`. -/
def rootOf (k x : Nat) : Nat → Nat
  | 0 => 0
  | n + 1 =>
    let r := rootOf k (x / 2 ^ k) n * 2
    if (r + 1) ^ k ≤ x then r + 1 else r

/-- The first primes. -/
def primesTo (n : Nat) : List Nat := (List.range n).filter fun p => decide (2 ≤ p) && (List.range p).all fun d => decide (d < 2) || p % d ≠ 0

/-- The first 32 bits of the fraction of the `k`-th root of a prime: the constants of SHA-256. -/
def rootBits (k p : Nat) : Word := BitVec.ofNat 32 (rootOf k (p * 2 ^ (32 * k)) 40)

/-- The round constants and the first hash value. -/
def shaRounds : List Word := (primesTo 312).map (rootBits 3)
def shaStart : List Word := (primesTo 20).map (rootBits 2)

/-- Rotations of a word by three distances, combined. -/
def rot3 (x : Word) (a b c : Nat) : Word := x.rotateRight a ^^^ x.rotateRight b ^^^ x.rotateRight c

/-- The message schedule, latest word first, after `n` more words. -/
def shaSchedule : Nat → List Word → List Word
  | 0, w => w
  | n + 1, w =>
    let at' := fun (i : Nat) => (w[i]?).getD 0
    let s1 := (at' 1).rotateRight 17 ^^^ (at' 1).rotateRight 19 ^^^ (at' 1) >>> 10
    let s0 := (at' 14).rotateRight 7 ^^^ (at' 14).rotateRight 18 ^^^ (at' 14) >>> 3
    shaSchedule n ((s1 + at' 6 + s0 + at' 15) :: w)

/-- One round on the eight working words. -/
def shaRound (h : List Word) (kw : Word × Word) : List Word := match h with
  | [a, b, c, d, e, f, g, z] =>
    let t := z + rot3 e 6 11 25 + ((e &&& f) ^^^ (~~~e &&& g)) + kw.1 + kw.2
    [t + rot3 a 2 13 22 + ((a &&& b) ^^^ (a &&& c) ^^^ (b &&& c)), a, b, c, d + t, e, f, g]
  | _ => h

/-- One block of 64 bytes. -/
def shaBlock (h : List Word) (block : List Nat) : List Word :=
  let first := (List.range 16).map fun i => BitVec.ofNat 32 (beNat ((block.drop (4 * i)).take 4))
  let sched := (shaSchedule 48 first.reverse).reverse
  List.zipWith (· + ·) h ((shaRounds.zip sched).foldl shaRound h)

/-- The hash of the blocks of a padded message. -/
def shaBlocks : Nat → List Word → List Nat → List Word
  | 0, h, _ => h
  | n + 1, h, xs => shaBlocks n (shaBlock h (xs.take 64)) (xs.drop 64)

/-- SHA-256 of some bytes. -/
def sha256 (xs : List Nat) : List Nat :=
  let pad := xs ++ [128] ++ List.replicate ((119 - xs.length % 64) % 64) 0 ++ beBytes 8 (8 * xs.length)
  (shaBlocks (pad.length / 64) shaStart pad).flatMap fun w => beBytes 4 w.toNat

/-- SHA-256 of `len` bytes held in a number, as such a number. -/
def shaOf (len x : Nat) : Nat := ofBytes (sha256 (bytesOf len x))

/-! ## HSS signatures -/

/-- The bits of a Winternitz digit by one-time type, with n = 32: none is another type. -/
def otsWidth (ty : Nat) : Option Nat := if 1 ≤ ty ∧ ty ≤ 4 then some (2 ^ (ty - 1)) else none
/-- The height of a tree by tree type, with m = 32: none is another type. -/
def treeHeight (ty : Nat) : Option Nat := if 5 ≤ ty ∧ ty ≤ 9 then some (5 * (ty - 4)) else none
/-- How many digits a message hash takes, and how many its checksum. -/
def hashDigits (w : Nat) : Nat := 256 / w
def sumDigits (w : Nat) : Nat := match w with | 1 => 9 | 2 => 5 | 4 => 3 | _ => 2
/-- Digit `i` of `w` bits of some bytes, from the highest bit of the first. -/
def digitOf (w : Nat) (xs : List Nat) (i : Nat) : Nat := (xs[i * w / 8]?).getD 0 / 2 ^ (8 - w - i * w % 8) % 2 ^ w

/-- The chain of hashes of digit `i`, `n` more of them from step `j`. -/
def chainOf (pre : List Nat) (i : Nat) : Nat → Nat → List Nat → List Nat
  | 0, _, x => x
  | n + 1, j, x => chainOf pre i n (j + 1) (sha256 (pre ++ beBytes 2 i ++ [j] ++ x))

/-- The public key that a one-time signature answers for a message: `c` its randomiser, `y` its hashes, `pre` the tree's name and leaf. -/
def otsKey (w : Nat) (pre c y msg : List Nat) : List Nat :=
  let q := sha256 (pre ++ [0x81, 0x81] ++ c ++ msg)
  let sum := ((List.range (hashDigits w)).map fun i => 2 ^ w - 1 - digitOf w q i).sum
  let all := q ++ beBytes 2 (sum * 2 ^ (16 - w * sumDigits w))
  sha256 (pre ++ [0x80, 0x80] ++ (List.range (hashDigits w + sumDigits w)).flatMap fun i =>
    let a := digitOf w all i
    chainOf pre i (2 ^ w - 1 - a) a ((y.drop (32 * i)).take 32))

/-- The root of a tree from a node and its path. -/
def rootFrom (name : List Nat) : Nat → Nat → List Nat → List Nat → List Nat
  | 0, _, x, _ => x
  | n + 1, node, x, path =>
    let p := path.take 32
    let pair := if node % 2 = 1 then p ++ x else x ++ p
    rootFrom name n (node / 2) (sha256 (name ++ beBytes 4 (node / 2) ++ [0x83, 0x83] ++ pair)) (path.drop 32)

/-- The bytes of a tree's signature, when both its types are of n = m = 32. -/
def lmsLength (sig : List Nat) : Option Nat := match otsWidth (beNat ((sig.drop 4).take 4)) with
  | none => none
  | some w =>
    let at' := 40 + 32 * (hashDigits w + sumDigits w)
    (treeHeight (beNat ((sig.drop at').take 4))).map fun h => at' + 4 + 32 * h

/-- Whether a tree's signature of exactly these bytes verifies under the tree's public key of 56 bytes. -/
def lmsVerify (key sig msg : List Nat) : Bool :=
  let q := beNat (sig.take 4)
  let ots := beNat ((key.drop 4).take 4)
  let name := (key.drop 8).take 16
  match treeHeight (beNat (key.take 4)), otsWidth ots with
  | some h, some w =>
    let n := hashDigits w + sumDigits w
    let rest := sig.drop (40 + 32 * n)
    decide (key.length = 56) && lmsLength sig = some sig.length && beNat ((sig.drop 4).take 4) = ots && rest.take 4 = key.take 4 && decide (q < 2 ^ h) &&
      rootFrom name h (2 ^ h + q) (sha256 (name ++ beBytes 4 (2 ^ h + q) ++ [0x82, 0x82] ++
        otsKey w (name ++ beBytes 4 q) ((sig.drop 8).take 32) ((sig.drop 40).take (32 * n)) msg)) (rest.drop 4) = key.drop 24
  | _, _ => false

/-- Verify the levels of a signature: `n` more signed keys, then the message. -/
def hssLevels : Nat → List Nat → List Nat → List Nat → Bool
  | 0, key, sig, msg => lmsVerify key sig msg
  | n + 1, key, sig, msg => match lmsLength sig with
    | none => false
    | some k =>
      let next := (sig.drop k).take 56
      lmsVerify key (sig.take k) next && hssLevels n next (sig.drop (k + 56)) msg

/-- Whether an HSS signature verifies under a public key. -/
def hssVerify (key sig msg : List Nat) : Bool :=
  let levels := beNat (key.take 4)
  decide (key.length = 60) && decide (1 ≤ levels) && decide (levels ≤ 8) && beNat (sig.take 4) + 1 = levels &&
    hssLevels (levels - 1) (key.drop 4) (sig.drop 4) msg

/-- The bytes of a two-level signature of LMS_SHA256_M32_H10 with LMOTS_SHA256_N32_W8 (R414). -/
def identitySigLen : Nat := 4 + 2 * (4 + 36 + 34 * 32 + 4 + 10 * 32) + 56

end Sys2Proof.Machine
end

