-- ==== Sys2Proof/Syntax.lean ====
section
/-! DEFINITION. The instructions and machine events of the Z9: one constructor of `Instr` per row of the table. -/

namespace Sys2Proof

/-- A guard field: [3] negate, [2:0] predicate index (R43, R48, R53, R54). -/
structure Guard where
  neg : Bool
  idx : Fin 8
  deriving DecidableEq, Repr

/-- The rounding modes (R90), in code order. -/
inductive RM where
  | rne | rtz | rdn | rup
  deriving DecidableEq, Repr

/-- The type codes 0 to 11 (R46), in code order. -/
inductive Ty where
  | i32 | n32 | f32 | bf16 | f16 | i16 | n16 | i8 | n8 | e4m3 | e5m2 | lg6
  deriving DecidableEq, Repr

/-- Access sizes (R49), in code order. -/
inductive Size where
  | b8 | b16 | b32 | b64 | b128
  deriving DecidableEq, Repr

/-- Scopes from narrowest to widest (R6, R49), in code order. -/
inductive Scope where
  | w | c | k | d | p | s
  deriving DecidableEq, Repr

/-- The latches and lane specials of R44, operand codes 0xC0 to 0xCC in order. -/
inductive Special where
  | lva | lvf | lvx | lmd | lcs | lane | lbase | lword | wordix | zero | ones | width | ticklo
  deriving DecidableEq, Repr

/-- A source operand of the V or M slot (R44), or a predicate index where the opcode takes one. -/
inductive Src where
  | v (r : Fin 128)
  | s (r : Fin 64)
  | sp (x : Special)
  | p (i : Fin 8)
  deriving DecidableEq, Repr

/-- A destination of the V slot (R45): vector register, scalar register, or predicate index. -/
inductive Dst where
  | v (r : Fin 128)
  | s (r : Fin 64)
  | p (i : Fin 8)
  deriving DecidableEq, Repr

/-- A V-slot operation (R43). `imm` is IMM16 in format VI; unused sources are `v 0`. -/
structure VOp where
  guard : Guard
  dst : Dst
  a : Src
  b : Src
  c : Src
  imm : Option (BitVec 16)
  ty : Ty
  rm : RM
  sat : Bool
  sub : Fin 16
  deriving DecidableEq, Repr

/-- An M-slot operation (R48). `index = none` is code 0xFF; `flag = none` is FE = 0. -/
structure MOp where
  guard : Guard
  data : Src
  base : Fin 64
  index : Option (Fin 128)
  off : BitVec 16
  size : Size
  scope : Scope
  flag : Option (Fin 16)
  deriving DecidableEq, Repr

/-- An X-slot operation of format XT (R50). `msz` and `nsz` give 16, 32 or 64. -/
structure XTOp where
  flag : Fin 16
  acc : Fin 8
  sa : Fin 16
  sb : Fin 16
  kst : Fin 256
  msz : Fin 3
  nsz : Fin 3
  deriving DecidableEq, Repr

/-- An X-slot operation of format XC (R51); LL and GT keep their own fields (R51, R52). -/
structure XCOp where
  flag : Fin 16
  dstb : Fin 64
  srcb : Fin 64
  ll : BitVec 8
  arw : Fin 64
  scope : Scope
  gt : BitVec 4
  deriving DecidableEq, Repr

/-- A C-slot operation of format CB (R53). -/
structure CBOp where
  guard : Guard
  off : BitVec 24
  var : Guard
  sreg : Fin 64
  deriving DecidableEq, Repr

/-- A C-slot operation of format CS (R54). `imm = none` is I = 0. -/
structure CSOp where
  guard : Guard
  d : Fin 64
  a : Fin 64
  b : Fin 64
  imm : Option (BitVec 18)
  sub : Fin 16
  deriving DecidableEq, Repr

/-- `wait` in format CW (R55). -/
structure CWOp where
  mask : BitVec 16
  codes : BitVec 18
  e : BitVec 6
  deriving DecidableEq, Repr

/-- Where one block of a gang is put: the core, the core offset of its allocation, the resident warp slot and
the trap save area of each of its warps (R24, R302, R333, R359: choices of the hardware and the firmware). -/
structure Placement where
  core : Nat
  base : Nat
  slots : List Nat
  tsas : List Nat
  deriving DecidableEq, Repr

/-- What a request of another device asks (R404, R406); `tileCommit` is the vendor-defined message that commits a tile. -/
inductive PodKind where
  | read | write | atomic (op : Nat) | tileRow (tag : Nat) | tileCommit (tag : Nat)
  deriving DecidableEq, Repr

/-- An inbound UALink request (R404, R407): `mask` has one bit per byte of `data`. -/
structure PodRequest where
  src : Nat
  kind : PodKind
  addr : Nat
  len : Nat
  data : Nat
  mask : Nat
  deriving DecidableEq, Repr

/-- A place where an uncorrectable error strikes or a scrub looks (R382, R385). -/
inductive ErrSite where
  | hbm (line : Nat)
  | l2 (line : Nat) (dirty : Bool)
  | l2Tags (slice : Nat)
  | scratch (block off : Nat)
  | l1 (core line : Nat)
  | icache (core line : Nat)
  | tlb (core entry : Nat)
  | warpState (core slot : Nat)
  | acc (core tile elem : Nat)
  | grinder (line : Nat)
  | path (core seq : Nat)
  deriving DecidableEq, Repr

/-- One constructor per row of the table: the V, M, X and C slot operations, then the machine's own steps. -/
inductive Instr where
  | vadd (o : VOp)
  | vsub (o : VOp)
  | vmul (o : VOp)
  | vmulh (o : VOp)
  | vmad (o : VOp)
  | vmin (o : VOp)
  | vmax (o : VOp)
  | vand (o : VOp)
  | vor (o : VOp)
  | vxor (o : VOp)
  | vshl (o : VOp)
  | vshr (o : VOp)
  | vsar (o : VOp)
  | vrot (o : VOp)
  | vclz (o : VOp)
  | vpopc (o : VOp)
  | vbrev (o : VOp)
  | vbfe (o : VOp)
  | vbfi (o : VOp)
  | vsel (o : VOp)
  | vmov (o : VOp)
  | vmovi (o : VOp)
  | vmoviHi (o : VOp)
  | vcmp (o : VOp)
  | vclml (o : VOp)
  | vclmh (o : VOp)
  | vfadd (o : VOp)
  | vfsub (o : VOp)
  | vfmul (o : VOp)
  | vfma (o : VOp)
  | vfmin (o : VOp)
  | vfmax (o : VOp)
  | vfcmp (o : VOp)
  | vfclass (o : VOp)
  | vfrcp (o : VOp)
  | vfrsq (o : VOp)
  | vfex2 (o : VOp)
  | vflg2 (o : VOp)
  | vfsinpi (o : VOp)
  | vfcospi (o : VOp)
  | vhadd (o : VOp)
  | vhmul (o : VOp)
  | vhfma (o : VOp)
  | vhdot (o : VOp)
  | vcvt (o : VOp)
  | vpack (o : VOp)
  | vunpack (o : VOp)
  | vscale (o : VOp)
  | vshfl (o : VOp)
  | vbcast (o : VOp)
  | vredadd (o : VOp)
  | vredmin (o : VOp)
  | vredmax (o : VOp)
  | vany (o : VOp)
  | vall (o : VOp)
  | vballot (o : VOp)
  | vpand (o : VOp)
  | vpor (o : VOp)
  | vpxor (o : VOp)
  | vpandn (o : VOp)
  | vpnot (o : VOp)
  | ldSp (o : MOp)
  | stSp (o : MOp)
  | casSp (o : MOp)
  | atomSpAdd (o : MOp)
  | atomSpAnd (o : MOp)
  | atomSpOr (o : MOp)
  | atomSpXor (o : MOp)
  | atomSpXchg (o : MOp)
  | atomSpMinI (o : MOp)
  | atomSpMaxI (o : MOp)
  | atomSpMinN (o : MOp)
  | atomSpMaxN (o : MOp)
  | ldc (o : MOp)
  | ldG (o : MOp)
  | ldGAcq (o : MOp)
  | stG (o : MOp)
  | stGRel (o : MOp)
  | casG (o : MOp)
  | atomGAdd (o : MOp)
  | atomGAnd (o : MOp)
  | atomGOr (o : MOp)
  | atomGXor (o : MOp)
  | atomGXchg (o : MOp)
  | atomGMinI (o : MOp)
  | atomGMaxI (o : MOp)
  | atomGMinN (o : MOp)
  | atomGMaxN (o : MOp)
  | atomGFadd (o : MOp)
  | redGAdd (o : MOp)
  | redGAnd (o : MOp)
  | redGOr (o : MOp)
  | redGXor (o : MOp)
  | redGMinI (o : MOp)
  | redGMaxI (o : MOp)
  | redGMinN (o : MOp)
  | redGMaxN (o : MOp)
  | redGFadd (o : MOp)
  | sld (o : MOp)
  | sdset (o : MOp)
  | sdget (o : MOp)
  | vspill (o : MOp)
  | vfill (o : MOp)
  | fenceAcq (o : MOp)
  | fenceRel (o : MOp)
  | fence (o : MOp)
  | l1inv (o : MOp)
  | arrive (o : MOp)
  | pfd (o : MOp)
  | cpa (o : XCOp)
  | cpb (o : XCOp)
  | cp2d (o : XCOp)
  | cpm (o : XCOp)
  | tld (o : XCOp)
  | tst (o : XCOp)
  | tstac (o : XCOp)
  | tdrain (o : XCOp)
  | tzero (o : XTOp)
  | tsave (o : XCOp)
  | tload (o : XCOp)
  | sadv (o : XTOp)
  | sreset (o : XTOp)
  | tmmaBf16 (o : XTOp)
  | tmmaF16 (o : XTOp)
  | tmmaE4m3 (o : XTOp)
  | tmmaE5m2 (o : XTOp)
  | tmmaE4m3e5m2 (o : XTOp)
  | tmmaE5m2e4m3 (o : XTOp)
  | tmmaI8 (o : XTOp)
  | tmmaN8 (o : XTOp)
  | tmmaI8n8 (o : XTOp)
  | tmmaLg6 (o : XTOp)
  | tmmasE4m3 (o : XTOp)
  | tmmasE5m2 (o : XTOp)
  | tmmasE4m3e5m2 (o : XTOp)
  | tmmasE5m2e4m3 (o : XTOp)
  | tmmasI8 (o : XTOp)
  | tmmasLg6 (o : XTOp)
  | gredAdd (o : XCOp)
  | gredMin (o : XCOp)
  | gredMax (o : XCOp)
  | xtile (o : XCOp)
  | addS (o : CSOp)
  | subS (o : CSOp)
  | mulS (o : CSOp)
  | mulhS (o : CSOp)
  | andS (o : CSOp)
  | orS (o : CSOp)
  | xorS (o : CSOp)
  | shl (o : CSOp)
  | shr (o : CSOp)
  | sar (o : CSOp)
  | minS (o : CSOp)
  | maxS (o : CSOp)
  | mov (o : CSOp)
  | movi (o : CSOp)
  | movhi (o : CSOp)
  | cmp (o : CSOp)
  | sel (o : CSOp)
  | clz (o : CSOp)
  | popc (o : CSOp)
  | lea (o : CSOp)
  | br (o : CBOp)
  | brAny (o : CBOp)
  | brAll (o : CBOp)
  | brU (o : CBOp)
  | jmp (o : CBOp)
  | jmpr (o : CBOp)
  | call (o : CBOp)
  | ret (o : CBOp)
  | loop (o : CBOp)
  | lpop (o : CSOp)
  | wait (o : CWOp)
  | ftest (o : CSOp)
  | bar (o : CSOp)
  | cbar (o : CSOp)
  | await (o : CSOp)
  | ainit (o : CSOp)
  | mwait (o : CSOp)
  | lexit (o : CSOp)
  | mget (o : CSOp)
  | mset (o : CSOp)
  | tsub (o : CSOp)
  | targ (o : CSOp)
  | trap (o : CSOp)
  | sysc (o : CSOp)
  | hret (o : CSOp)
  | brk (o : CSOp)
  | exit (o : CSOp)
  | yield (o : CSOp)
  | nop (o : CSOp)
  | ipf (o : CSOp)
  | icinvC (o : CSOp)
  | icinvD (o : CSOp)
  | gsr (o : CSOp)
  | ssr (o : CSOp)
  | bundleIssue (core : Nat) (slot : Nat)
  | resultLand (core : Nat) (slot : Nat)
  | freezeEnd (core : Nat) (slot : Nat)
  | asyncResultLand (core : Nat) (op : Nat) (part : Option Nat)
  | acceptance (core : Nat) (slot : Nat)
  | warpSwap (core : Nat) (out : Nat) (inn : Nat)
  | starvationSwap (core : Nat) (out : Nat) (inn : Nat)
  | warpSlotFree (core : Nat) (slot : Nat)
  | tileGrantRelease (core : Nat)
  | holdEnd (core : Nat) (slot : Nat)
  | barrierTimeout (core : Nat) (slot : Nat)
  | mwaitTimeout (core : Nat) (slot : Nat)
  | mwaitPoll (core : Nat) (slot : Nat)
  | syscReply (core : Nat) (slot : Nat)
  | version (core : Nat) (slot : Nat)
  | resolve (core : Nat) (slot : Nat)
  | migrateWait (core : Nat) (slot : Nat)
  | killTask (core : Nat) (slot : Nat)
  | logSvc (core : Nat) (slot : Nat)
  | debugNotify (core : Nat) (slot : Nat)
  | trapEntry (core : Nat) (slot : Nat)
  | fifoEntryPerform (core : Nat) (seq : Nat)
  | releaseComplete (core : Nat) (seq : Nat)
  | acquireComplete (core : Nat) (op : Nat)
  | l1Fill (core : Nat) (line : Nat)
  | tlbWalk (core : Nat) (asid : Nat) (view : Nat) (va : Nat)
  | xOpComplete (core : Nat) (op : Nat) (part : Option Nat)
  | copyStart (core : Nat) (op : Nat)
  | tileFillBegin (core : Nat)
  | tamperGrant (core : Nat)
  | engineIdle (core : Nat)
  | multicastDeliver (core : Nat) (op : Nat) (rank : Nat)
  | tileLockRequest (tx : Nat) (line : Nat)
  | tileLockGrant (tx : Nat) (line : Nat)
  | tileLockRetry (tx : Nat)
  | tileTransactionPerform (tx : Nat)
  | grinderOperation (stack : Nat) (idx : Nat)
  | cardAdmit (queue : Nat)
  | enqueueApply (core : Nat) (idx : Nat)
  | doorbell (func : Nat) (idx : Nat) (value : Nat)
  | taskDeal (card : Nat)
  | gangPlace (task : Nat) (places : List Placement)
  | clusterReserve (task : Nat) (cluster : Nat)
  | priorityAge (card : Nat)
  | taskComplete (task : Nat)
  | cardComplete (card : Nat)
  | preemptRequest (block : Nat)
  | blockContextSave (block : Nat) (area : Nat)
  | blockResume (gang : Nat) (places : List Placement)
  | scratchClear (core : Nat) (idx : Nat)
  | bankSnapshot (core : Nat)
  | bcctlClr (core : Nat)
  | demandFill (core : Nat) (slot : Nat)
  | icacheFill (core : Nat) (asid : Nat) (line : Nat)
  | logdropRead (slice : Nat)
  | logctlWrite (slice : Nat) (value : Nat)
  | routeTableWrite (port : Nat) (dest : Nat) (value : Nat)
  | specLaunch (card : Nat)
  | draftWritten (card : Nat)
  | pbufCopyDone (card : Nat)
  | shadowFill (core : Nat) (slot : Nat)
  | producerCommit (card : Nat)
  | specCommit (card : Nat)
  | specSquash (card : Nat)
  | shootdownComplete (idx : Nat)
  | identify (func : Nat)
  | podSet (func : Nat)
  | aspaceSet (func : Nat)
  | shootdown (func : Nat)
  | queueSet (func : Nat)
  | queueState (func : Nat)
  | rcbRefresh (func : Nat)
  | faultReply (func : Nat)
  | killDomain (func : Nat)
  | debugHalt (func : Nat)
  | debugStop (func : Nat)
  | debugStopped (queue : Nat)
  | attest (func : Nat)
  | objLoad (func : Nat)
  | objUnload (func : Nat)
  | specPool (func : Nat)
  | dumpSet (func : Nat)
  | traceSet (func : Nat)
  | fwLoad (func : Nat)
  | fwSwap (func : Nat)
  | diag (func : Nat)
  | msSet (func : Nat)
  | quiesceAck (cp : Nat)
  | fwSwapTimeout
  | heartbeatPet (cp : Nat)
  | hxdoorqRead (cp : Nat)
  | hxmboxqRead (cp : Nat)
  | fstatusWrite (func : Nat) (value : Nat)
  | evtdropRead (func : Nat)
  | errorCounterRead (idx : Nat)
  | registerWrite (off : Nat) (value : Nat)
  | hostBar2Access (write : Bool) (off : Nat) (n : Nat) (value : Nat)
  | machineTimerInterrupt (cp : Nat)
  | hostWriteAck (core : Nat) (seq : Nat)
  | hostTimeout (core : Nat) (op : Nat)
  | ualinkInboundRequest (port : Nat) (req : PodRequest)
  | xtileCommit (port : Nat) (buf : Nat)
  | xtileReassemblyTimeout (port : Nat) (buf : Nat)
  | linkTimeout (core : Nat) (op : Nat)
  | portDown (port : Nat)
  | correctableError (row : Nat)
  | uncorrectableError (site : ErrSite)
  | scrub (site : ErrSite)
  | coldStart
  | warmStart
  | vfFlr (func : Nat)
  | rung1 (cp : Nat)
  | rung2 (domain : Nat) (code : Nat)
  | rung3 (code : Nat)
  | rung4 (code : Nat)
  | rung5 (code : Nat)
  | eventSlotFreed (func : Nat)
  deriving DecidableEq, Repr

end Sys2Proof
end

