-- ==== Sys2Proof/Machine/Forms.lean ====
section
/-! DEFINITION. The encoding forms: which fields each opcode uses and which values it accepts
(R110, R117, R124, R128, R135, R137, R138, R186, R213). -/

namespace Sys2Proof

/-- How a source or destination field of the V slot is used. -/
inductive FieldUse where
  | unused | reg | scalar | pred
  deriving DecidableEq, Repr

/-- The VI column of R110. -/
inductive ViUse where
  | no | yes | required
  deriving DecidableEq, Repr

/-- One row of the V-slot tables. `subs = []` means SUB is unused. -/
structure VForm where
  dst : FieldUse
  a : FieldUse
  b : FieldUse
  c : FieldUse
  types : List Ty
  rm : Bool
  sat : Bool
  vi : ViUse
  subs : List Nat
  deriving DecidableEq, Repr

/-- How DATA is used by an M-slot row (R138, R140, R141). -/
inductive DataUse where
  | none | dest | source | inPlace | cas | vecDest | scalarSrc | scalarDest | vecOne
  deriving DecidableEq, Repr

/-- Which address fields an M-slot row uses (R138). `fixedIndex` is `arrive`: INDEX must be 0xFF. -/
inductive AddrUse where
  | none | full | offOnly | baseOff | fixedIndex
  deriving DecidableEq, Repr

/-- The FE column of R138. -/
inductive FeUse where
  | no | yes | opt
  deriving DecidableEq, Repr

/-- One row of R138. `sizes = []` means SIZE is unused; `offMax` bounds OFF where it names a stream (R166). -/
structure MForm where
  data : DataUse
  addr : AddrUse
  sizes : List Size
  scope : Bool
  fe : FeUse
  guard : Bool
  offMax : Nat
  deriving DecidableEq, Repr

/-- Which XT fields a row of R186 uses. -/
structure XTForm where
  acc : Bool
  sa : Bool
  sb : Bool
  kst : Bool
  shape : Bool
  deriving DecidableEq, Repr

/-- How LL is used (R51, R52, R186). -/
inductive LLUse where
  | vecPair | scalar | scalarPair | stream | streamOrSp | accRound | acc
  deriving DecidableEq, Repr

/-- How GT is used (R51, R186). -/
inductive GTUse where
  | unused | guard | types (l : List Ty)
  deriving DecidableEq, Repr

/-- One XC row of R186. `scopes = []` means SCOPE is unused. -/
structure XCForm where
  dstb : Bool
  srcb : Bool
  ll : LLUse
  arw : Bool
  scopes : List Scope
  gt : GTUse
  deriving DecidableEq, Repr

/-- One CB row of R213. -/
structure CBForm where
  guard : Bool
  off : Bool
  offPos : Bool
  var : Bool
  sreg : Bool
  deriving DecidableEq, Repr

/-- How a six-bit D or A field is used (R54, R213). -/
inductive SixUse where
  | unused | reg | pred | flag | evenPair
  deriving DecidableEq, Repr

/-- How I, B and IMM18 are used: `reg` and `none` where the row names "I 0", `regQuiet` and `quiet` where it does
not name I at all. -/
inductive ImmUse where
  | reg | regQuiet | imm | either | none | quiet | immOrA
  deriving DecidableEq, Repr

/-- One CS row of R213. `subs = []` means SUB is unused; `immMax` is the greatest accepted IMM18. -/
structure CSForm where
  guard : Bool
  d : SixUse
  a : SixUse
  imm : ImmUse
  immMax : Nat
  subs : List Nat
  deriving DecidableEq, Repr

/-- All sixteen SUB codes. -/
def allSubs : List Nat := [0, 1, 2, 3, 4, 5, 6, 7, 8, 9, 10, 11, 12, 13, 14, 15]

/-- The integer types `vadd` accepts (R117). -/
def intTypes : List Ty := [.i32, .n32, .i16, .n16, .i8, .n8]

/-- A V-slot row with a vector destination. -/
def vrow (a b c : FieldUse) (types : List Ty) (rm sat : Bool) (vi : ViUse) (subs : List Nat) : VForm :=
  ⟨.reg, a, b, c, types, rm, sat, vi, subs⟩

/-- The V-slot forms, by opcode; `vmovi.hi` has key 0x116 (opcode 0x16, SUB 1). -/
def vForms : List (List Nat × VForm) := [
  ([0x01, 0x02, 0x03], vrow .reg .reg .unused intTypes false true .yes []),
  ([0x04], vrow .reg .reg .unused [.i32, .n32] false false .yes []),
  ([0x05], vrow .reg .reg .reg intTypes false true .no []),
  ([0x06, 0x07], vrow .reg .reg .unused intTypes false false .yes []),
  ([0x08, 0x09, 0x0A, 0x0B, 0x0C, 0x0D, 0x0E], vrow .reg .reg .unused [.n32] false false .yes []),
  ([0x0F, 0x10, 0x11], vrow .reg .unused .unused [.n32] false false .no []),
  ([0x12], vrow .reg .reg .unused [.i32, .n32] false false .yes []),
  ([0x13], vrow .reg .reg .reg [.n32] false false .no []),
  ([0x14], vrow .reg .reg .pred [.n32] false false .no []),
  ([0x15], vrow .reg .unused .unused [.n32] false false .no []),
  ([0x16], vrow .unused .reg .unused [.i32, .n32, .f32, .bf16, .f16] false false .required [0]),
  ([0x116], vrow .reg .reg .unused [.n32] false false .required [1]),
  ([0x17], ⟨.pred, .reg, .reg, .unused, intTypes, false, false, .yes, [0, 1, 2, 3, 4, 5]⟩),
  ([0x18, 0x19], vrow .reg .reg .unused [.n32] false false .yes []),
  ([0x20, 0x21, 0x22], vrow .reg .reg .unused [.f32] true true .yes []),
  ([0x23], vrow .reg .reg .reg [.f32] true true .no []),
  ([0x24, 0x25], vrow .reg .reg .unused [.f32] false false .yes []),
  ([0x26], ⟨.pred, .reg, .reg, .unused, [.f32], false, false, .yes, [0, 1, 2, 3, 4, 5, 6, 7]⟩),
  ([0x27], ⟨.pred, .reg, .reg, .unused, [.n32], false, false, .yes, []⟩),
  ([0x30, 0x31, 0x32, 0x33, 0x34, 0x35], vrow .reg .unused .unused [.f32] true true .no []),
  ([0x40, 0x41], vrow .reg .reg .unused [.bf16, .f16] true true .yes []),
  ([0x42, 0x43], vrow .reg .reg .reg [.bf16, .f16] true true .no []),
  ([0x50],
    vrow .reg .unused .unused [.i32, .n32, .f32, .bf16, .f16, .i16, .n16, .i8, .n8] true true .no [0, 1, 2, 3, 4, 5, 6, 7, 8]),
  ([0x51], vrow .reg .reg .reg [.bf16, .f16, .e4m3, .e5m2, .lg6] true true .no [0, 1]),
  ([0x52], vrow .reg .unused .unused [.bf16, .f16, .e4m3, .e5m2, .lg6] false false .no [0, 1, 2, 3]),
  ([0x53], vrow .reg .reg .unused [.f32] true true .no [0, 1]),
  ([0x60], vrow .reg .reg .unused [.n32] false false .yes [0, 1, 2, 3]),
  ([0x61], vrow .reg .scalar .unused [.n32] false false .yes []),
  ([0x70], ⟨.scalar, .reg, .unused, .unused, [.i32, .f32], true, true, .no, []⟩),
  ([0x71, 0x72], ⟨.scalar, .reg, .unused, .unused, [.i32, .n32, .f32], false, false, .no, []⟩),
  ([0x73, 0x74], ⟨.pred, .pred, .unused, .unused, [.n32], false, false, .no, []⟩),
  ([0x75], ⟨.scalar, .pred, .unused, .unused, [.n32], false, false, .no, allSubs⟩),
  ([0x80, 0x81, 0x82, 0x83], ⟨.pred, .pred, .pred, .unused, [], false, false, .no, []⟩),
  ([0x84], ⟨.pred, .pred, .unused, .unused, [], false, false, .no, []⟩)]

/-- The form of a key. -/
def vForm (k : Nat) : Option VForm := (vForms.find? fun r => r.1.contains k).map (·.2)

/-- Every access size (R138 "8–128"). -/
def allSizes : List Size := [.b8, .b16, .b32, .b64, .b128]

/-- The M-slot forms, by opcode (R57, R138). -/
def mForms : List (List Nat × MForm) := [
  ([0x01], ⟨.dest, .full, allSizes, false, .no, true, 0xFFFF⟩),
  ([0x02], ⟨.source, .full, allSizes, false, .no, true, 0xFFFF⟩),
  ([0x03], ⟨.cas, .full, [.b32, .b64], false, .no, true, 0xFFFF⟩),
  ([0x08, 0x09, 0x0A, 0x0B, 0x0C, 0x0D, 0x0E, 0x0F, 0x10], ⟨.inPlace, .full, [.b32, .b64], false, .no, true, 0xFFFF⟩),
  ([0x20], ⟨.dest, .full, allSizes, false, .no, true, 0xFFFF⟩),
  ([0x21], ⟨.dest, .full, allSizes, false, .yes, true, 0xFFFF⟩),
  ([0x22], ⟨.dest, .full, allSizes, true, .yes, true, 0xFFFF⟩),
  ([0x23], ⟨.source, .full, allSizes, false, .opt, true, 0xFFFF⟩),
  ([0x24], ⟨.source, .full, allSizes, true, .opt, true, 0xFFFF⟩),
  ([0x25], ⟨.cas, .full, [.b32, .b64], true, .yes, true, 0xFFFF⟩),
  ([0x28, 0x29, 0x2A, 0x2B, 0x2C, 0x2D, 0x2E, 0x2F, 0x30], ⟨.inPlace, .full, [.b32, .b64], true, .yes, true, 0xFFFF⟩),
  ([0x31], ⟨.inPlace, .full, [.b32], true, .yes, true, 0xFFFF⟩),
  ([0x38, 0x39, 0x3A, 0x3B, 0x3C, 0x3D, 0x3E, 0x3F], ⟨.source, .full, [.b32, .b64], true, .opt, true, 0xFFFF⟩),
  ([0x40], ⟨.source, .full, [.b32], true, .opt, true, 0xFFFF⟩),
  ([0x50], ⟨.vecDest, .offOnly, [.b32, .b64, .b128], false, .no, true, 15⟩),
  ([0x51], ⟨.scalarSrc, .offOnly, [], false, .no, false, 63⟩),
  ([0x52], ⟨.scalarDest, .offOnly, [], false, .no, false, 63⟩),
  ([0x60], ⟨.vecOne, .baseOff, [], false, .opt, false, 0xFFFF⟩),
  ([0x61], ⟨.vecOne, .baseOff, [], false, .yes, false, 0xFFFF⟩),
  ([0x70, 0x71, 0x72], ⟨.none, .none, [], true, .opt, false, 0⟩),
  ([0x73], ⟨.none, .none, [], false, .no, false, 0⟩),
  ([0x74], ⟨.scalarSrc, .fixedIndex, [], false, .no, true, 0xFFFF⟩),
  ([0x75], ⟨.none, .full, [], false, .no, true, 0xFFFF⟩)]

/-- The form of a key. -/
def mForm (k : Nat) : Option MForm := (mForms.find? fun r => r.1.contains k).map (·.2)

/-- The XT forms, by opcode (R58, R186). -/
def xtForms : List (List Nat × XTForm) := [
  ([0x14], ⟨true, false, false, false, false⟩),
  ([0x17], ⟨false, true, false, true, false⟩),
  ([0x18], ⟨false, true, false, false, false⟩),
  ([0x20, 0x21, 0x22, 0x23, 0x24, 0x25, 0x26, 0x27, 0x28, 0x29, 0x30, 0x31, 0x32, 0x33, 0x34, 0x35],
    ⟨true, true, true, true, true⟩)]

/-- The form of a key. -/
def xtForm (k : Nat) : Option XTForm := (xtForms.find? fun r => r.1.contains k).map (·.2)

/-- The destination types of `tdrain` and `tstac` (R202). -/
def drainTypes : List Ty := [.i32, .n32, .f32, .bf16, .f16, .e4m3, .e5m2, .lg6]

/-- The XC forms, by opcode (R58, R186). -/
def xcForms : List (List Nat × XCForm) := [
  ([0x01], ⟨true, true, .vecPair, true, [], .guard⟩),
  ([0x02, 0x04], ⟨true, true, .scalar, true, [], .unused⟩),
  ([0x03], ⟨true, true, .scalarPair, true, [], .unused⟩),
  ([0x10], ⟨false, true, .stream, true, [.c, .k, .d], .unused⟩),
  ([0x11], ⟨true, false, .streamOrSp, false, [.c, .k, .d], .unused⟩),
  ([0x12], ⟨true, true, .accRound, false, [.c, .k, .d], .types drainTypes⟩),
  ([0x13], ⟨true, true, .accRound, true, [], .types drainTypes⟩),
  ([0x15], ⟨true, false, .acc, false, [], .unused⟩),
  ([0x16], ⟨false, true, .acc, false, [], .unused⟩),
  ([0x40, 0x41, 0x42], ⟨true, true, .scalar, false, [], .types [.i32, .n32, .f32, .bf16]⟩),
  ([0x50], ⟨true, false, .streamOrSp, false, [.p], .unused⟩)]

/-- The form of a key. -/
def xcForm (k : Nat) : Option XCForm := (xcForms.find? fun r => r.1.contains k).map (·.2)

/-- The CB forms, by opcode (R59, R213). -/
def cbForms : List (List Nat × CBForm) := [
  ([0x20, 0x26], ⟨true, true, false, false, false⟩),
  ([0x21, 0x22, 0x23], ⟨true, true, false, true, false⟩),
  ([0x24], ⟨false, true, false, false, false⟩),
  ([0x25], ⟨true, false, false, false, true⟩),
  ([0x27], ⟨true, false, false, false, false⟩),
  ([0x30], ⟨true, true, true, false, true⟩)]

/-- The form of a key. -/
def cbForm (k : Nat) : Option CBForm := (cbForms.find? fun r => r.1.contains k).map (·.2)

/-- The greatest IMM18. -/
def imm18Max : Nat := 0x3FFFF

/-- The CS forms, by opcode (R59, R213); `icinv.d` has key 0x177 (opcode 0x77, SUB 3). -/
def csForms : List (List Nat × CSForm) := [
  ([0x01, 0x02, 0x03, 0x05, 0x06, 0x07], ⟨true, .reg, .reg, .either, imm18Max, [0]⟩),
  ([0x04, 0x0B, 0x0C], ⟨true, .reg, .reg, .either, imm18Max, [0, 1]⟩),
  ([0x08, 0x09, 0x0A], ⟨true, .reg, .reg, .either, 63, []⟩),
  ([0x0D], ⟨true, .reg, .reg, .none, 0, []⟩),
  ([0x0E], ⟨true, .reg, .unused, .imm, imm18Max, []⟩),
  ([0x0F], ⟨true, .reg, .reg, .imm, 0xFFFF, [0, 1, 2, 3]⟩),
  ([0x10], ⟨true, .pred, .reg, .either, imm18Max, [0, 1, 2, 3, 4, 5, 6, 7, 8, 9]⟩),
  ([0x11], ⟨true, .reg, .reg, .either, imm18Max, allSubs⟩),
  ([0x12, 0x13], ⟨true, .reg, .reg, .none, 0, []⟩),
  ([0x14], ⟨true, .reg, .reg, .either, imm18Max, allSubs⟩),
  ([0x31], ⟨true, .unused, .unused, .quiet, 0, []⟩),
  ([0x33], ⟨true, .pred, .flag, .imm, 63, [0, 1]⟩),
  ([0x40, 0x41], ⟨true, .pred, .reg, .reg, 0, allSubs⟩),
  ([0x42], ⟨true, .unused, .reg, .reg, 0, []⟩),
  ([0x43], ⟨true, .unused, .reg, .either, imm18Max, []⟩),
  ([0x44], ⟨true, .pred, .evenPair, .regQuiet, 0, [0, 1, 2, 3, 4, 5, 8, 9, 10, 11, 12, 13]⟩),
  ([0x50], ⟨true, .unused, .pred, .quiet, 0, [0, 1]⟩),
  ([0x51], ⟨true, .reg, .unused, .imm, 16, []⟩),
  ([0x52], ⟨true, .unused, .reg, .imm, 15, []⟩),
  ([0x60], ⟨true, .unused, .reg, .reg, 0, []⟩),
  ([0x61], ⟨true, .reg, .pred, .quiet, 0, []⟩),
  ([0x70], ⟨true, .unused, .unused, .imm, 47, []⟩),
  ([0x71], ⟨true, .unused, .unused, .imm, 1023, []⟩),
  ([0x72, 0x74, 0x75], ⟨true, .unused, .unused, .quiet, 0, []⟩),
  ([0x73], ⟨true, .unused, .unused, .imm, 31, []⟩),
  ([0x76], ⟨true, .unused, .reg, .immOrA, imm18Max, allSubs⟩),
  ([0x77], ⟨true, .unused, .unused, .quiet, 0, [1]⟩),
  ([0x177], ⟨true, .unused, .unused, .quiet, 0, [3]⟩),
  ([0x78], ⟨true, .reg, .unused, .imm, 0x0B, []⟩),
  ([0x79], ⟨true, .unused, .reg, .imm, 0x0B, []⟩),
  ([0x7A], ⟨false, .unused, .unused, .quiet, 0, []⟩)]

/-- The form of a key. -/
def csForm (k : Nat) : Option CSForm := (csForms.find? fun r => r.1.contains k).map (·.2)

end Sys2Proof
end

