-- ==== Sys2Proof/Machine/Fields.lean ====
section
/-! DEFINITION. The slot format, key and fields of every instruction, and the check of each field of each format: used as its
form states, zero where its form leaves it out (R40, R42, R56 to R59, R110, R138, R186, R213). -/

namespace Sys2Proof

/-- Which slot format an instruction has, with its key in the opcode map and its fields; `event` for a machine step. -/
inductive SlotOp where
  | v (key : Nat) (o : VOp)
  | m (key : Nat) (o : MOp)
  | xt (key : Nat) (o : XTOp)
  | xc (key : Nat) (o : XCOp)
  | cb (key : Nat) (o : CBOp)
  | cs (key : Nat) (o : CSOp)
  | cw (o : CWOp)
  | event
  deriving DecidableEq, Repr

/-- The slot format, opcode key and fields of an instruction (R56 to R59). -/
def slotOp : Instr → SlotOp
  | .vadd o => .v 0x01 o
  | .vsub o => .v 0x02 o
  | .vmul o => .v 0x03 o
  | .vmulh o => .v 0x04 o
  | .vmad o => .v 0x05 o
  | .vmin o => .v 0x06 o
  | .vmax o => .v 0x07 o
  | .vand o => .v 0x08 o
  | .vor o => .v 0x09 o
  | .vxor o => .v 0x0A o
  | .vshl o => .v 0x0B o
  | .vshr o => .v 0x0C o
  | .vsar o => .v 0x0D o
  | .vrot o => .v 0x0E o
  | .vclz o => .v 0x0F o
  | .vpopc o => .v 0x10 o
  | .vbrev o => .v 0x11 o
  | .vbfe o => .v 0x12 o
  | .vbfi o => .v 0x13 o
  | .vsel o => .v 0x14 o
  | .vmov o => .v 0x15 o
  | .vmovi o => .v 0x16 o
  | .vmoviHi o => .v 0x116 o
  | .vcmp o => .v 0x17 o
  | .vclml o => .v 0x18 o
  | .vclmh o => .v 0x19 o
  | .vfadd o => .v 0x20 o
  | .vfsub o => .v 0x21 o
  | .vfmul o => .v 0x22 o
  | .vfma o => .v 0x23 o
  | .vfmin o => .v 0x24 o
  | .vfmax o => .v 0x25 o
  | .vfcmp o => .v 0x26 o
  | .vfclass o => .v 0x27 o
  | .vfrcp o => .v 0x30 o
  | .vfrsq o => .v 0x31 o
  | .vfex2 o => .v 0x32 o
  | .vflg2 o => .v 0x33 o
  | .vfsinpi o => .v 0x34 o
  | .vfcospi o => .v 0x35 o
  | .vhadd o => .v 0x40 o
  | .vhmul o => .v 0x41 o
  | .vhfma o => .v 0x42 o
  | .vhdot o => .v 0x43 o
  | .vcvt o => .v 0x50 o
  | .vpack o => .v 0x51 o
  | .vunpack o => .v 0x52 o
  | .vscale o => .v 0x53 o
  | .vshfl o => .v 0x60 o
  | .vbcast o => .v 0x61 o
  | .vredadd o => .v 0x70 o
  | .vredmin o => .v 0x71 o
  | .vredmax o => .v 0x72 o
  | .vany o => .v 0x73 o
  | .vall o => .v 0x74 o
  | .vballot o => .v 0x75 o
  | .vpand o => .v 0x80 o
  | .vpor o => .v 0x81 o
  | .vpxor o => .v 0x82 o
  | .vpandn o => .v 0x83 o
  | .vpnot o => .v 0x84 o
  | .ldSp o => .m 0x01 o
  | .stSp o => .m 0x02 o
  | .casSp o => .m 0x03 o
  | .atomSpAdd o => .m 0x08 o
  | .atomSpAnd o => .m 0x09 o
  | .atomSpOr o => .m 0x0A o
  | .atomSpXor o => .m 0x0B o
  | .atomSpXchg o => .m 0x0C o
  | .atomSpMinI o => .m 0x0D o
  | .atomSpMaxI o => .m 0x0E o
  | .atomSpMinN o => .m 0x0F o
  | .atomSpMaxN o => .m 0x10 o
  | .ldc o => .m 0x20 o
  | .ldG o => .m 0x21 o
  | .ldGAcq o => .m 0x22 o
  | .stG o => .m 0x23 o
  | .stGRel o => .m 0x24 o
  | .casG o => .m 0x25 o
  | .atomGAdd o => .m 0x28 o
  | .atomGAnd o => .m 0x29 o
  | .atomGOr o => .m 0x2A o
  | .atomGXor o => .m 0x2B o
  | .atomGXchg o => .m 0x2C o
  | .atomGMinI o => .m 0x2D o
  | .atomGMaxI o => .m 0x2E o
  | .atomGMinN o => .m 0x2F o
  | .atomGMaxN o => .m 0x30 o
  | .atomGFadd o => .m 0x31 o
  | .redGAdd o => .m 0x38 o
  | .redGAnd o => .m 0x39 o
  | .redGOr o => .m 0x3A o
  | .redGXor o => .m 0x3B o
  | .redGMinI o => .m 0x3C o
  | .redGMaxI o => .m 0x3D o
  | .redGMinN o => .m 0x3E o
  | .redGMaxN o => .m 0x3F o
  | .redGFadd o => .m 0x40 o
  | .sld o => .m 0x50 o
  | .sdset o => .m 0x51 o
  | .sdget o => .m 0x52 o
  | .vspill o => .m 0x60 o
  | .vfill o => .m 0x61 o
  | .fenceAcq o => .m 0x70 o
  | .fenceRel o => .m 0x71 o
  | .fence o => .m 0x72 o
  | .l1inv o => .m 0x73 o
  | .arrive o => .m 0x74 o
  | .pfd o => .m 0x75 o
  | .cpa o => .xc 0x01 o
  | .cpb o => .xc 0x02 o
  | .cp2d o => .xc 0x03 o
  | .cpm o => .xc 0x04 o
  | .tld o => .xc 0x10 o
  | .tst o => .xc 0x11 o
  | .tstac o => .xc 0x12 o
  | .tdrain o => .xc 0x13 o
  | .tzero o => .xt 0x14 o
  | .tsave o => .xc 0x15 o
  | .tload o => .xc 0x16 o
  | .sadv o => .xt 0x17 o
  | .sreset o => .xt 0x18 o
  | .tmmaBf16 o => .xt 0x20 o
  | .tmmaF16 o => .xt 0x21 o
  | .tmmaE4m3 o => .xt 0x22 o
  | .tmmaE5m2 o => .xt 0x23 o
  | .tmmaE4m3e5m2 o => .xt 0x24 o
  | .tmmaE5m2e4m3 o => .xt 0x25 o
  | .tmmaI8 o => .xt 0x26 o
  | .tmmaN8 o => .xt 0x27 o
  | .tmmaI8n8 o => .xt 0x28 o
  | .tmmaLg6 o => .xt 0x29 o
  | .tmmasE4m3 o => .xt 0x30 o
  | .tmmasE5m2 o => .xt 0x31 o
  | .tmmasE4m3e5m2 o => .xt 0x32 o
  | .tmmasE5m2e4m3 o => .xt 0x33 o
  | .tmmasI8 o => .xt 0x34 o
  | .tmmasLg6 o => .xt 0x35 o
  | .gredAdd o => .xc 0x40 o
  | .gredMin o => .xc 0x41 o
  | .gredMax o => .xc 0x42 o
  | .xtile o => .xc 0x50 o
  | .addS o => .cs 0x01 o
  | .subS o => .cs 0x02 o
  | .mulS o => .cs 0x03 o
  | .mulhS o => .cs 0x04 o
  | .andS o => .cs 0x05 o
  | .orS o => .cs 0x06 o
  | .xorS o => .cs 0x07 o
  | .shl o => .cs 0x08 o
  | .shr o => .cs 0x09 o
  | .sar o => .cs 0x0A o
  | .minS o => .cs 0x0B o
  | .maxS o => .cs 0x0C o
  | .mov o => .cs 0x0D o
  | .movi o => .cs 0x0E o
  | .movhi o => .cs 0x0F o
  | .cmp o => .cs 0x10 o
  | .sel o => .cs 0x11 o
  | .clz o => .cs 0x12 o
  | .popc o => .cs 0x13 o
  | .lea o => .cs 0x14 o
  | .br o => .cb 0x20 o
  | .brAny o => .cb 0x21 o
  | .brAll o => .cb 0x22 o
  | .brU o => .cb 0x23 o
  | .jmp o => .cb 0x24 o
  | .jmpr o => .cb 0x25 o
  | .call o => .cb 0x26 o
  | .ret o => .cb 0x27 o
  | .loop o => .cb 0x30 o
  | .lpop o => .cs 0x31 o
  | .wait o => .cw o
  | .ftest o => .cs 0x33 o
  | .bar o => .cs 0x40 o
  | .cbar o => .cs 0x41 o
  | .await o => .cs 0x42 o
  | .ainit o => .cs 0x43 o
  | .mwait o => .cs 0x44 o
  | .lexit o => .cs 0x50 o
  | .mget o => .cs 0x51 o
  | .mset o => .cs 0x52 o
  | .tsub o => .cs 0x60 o
  | .targ o => .cs 0x61 o
  | .trap o => .cs 0x70 o
  | .sysc o => .cs 0x71 o
  | .hret o => .cs 0x72 o
  | .brk o => .cs 0x73 o
  | .exit o => .cs 0x74 o
  | .yield o => .cs 0x75 o
  | .nop o => .cs 0x7A o
  | .ipf o => .cs 0x76 o
  | .icinvC o => .cs 0x77 o
  | .icinvD o => .cs 0x177 o
  | .gsr o => .cs 0x78 o
  | .ssr o => .cs 0x79 o
  | .bundleIssue _ _ => .event
  | .resultLand _ _ => .event
  | .freezeEnd _ _ => .event
  | .asyncResultLand _ _ _ => .event
  | .acceptance _ _ => .event
  | .warpSwap _ _ _ => .event
  | .starvationSwap _ _ _ => .event
  | .warpSlotFree _ _ => .event
  | .tileGrantRelease _ => .event
  | .holdEnd _ _ => .event
  | .barrierTimeout _ _ => .event
  | .mwaitTimeout _ _ => .event
  | .mwaitPoll _ _ => .event
  | .syscReply _ _ => .event
  | .version _ _ => .event
  | .resolve _ _ => .event
  | .migrateWait _ _ => .event
  | .killTask _ _ => .event
  | .logSvc _ _ => .event
  | .debugNotify _ _ => .event
  | .trapEntry _ _ => .event
  | .fifoEntryPerform _ _ => .event
  | .releaseComplete _ _ => .event
  | .acquireComplete _ _ => .event
  | .l1Fill _ _ => .event
  | .tlbWalk _ _ _ _ => .event
  | .xOpComplete _ _ _ => .event
  | .copyStart _ _ => .event
  | .tileFillBegin _ => .event
  | .tamperGrant _ => .event
  | .engineIdle _ => .event
  | .multicastDeliver _ _ _ => .event
  | .tileLockRequest _ _ => .event
  | .tileLockGrant _ _ => .event
  | .tileLockRetry _ => .event
  | .tileTransactionPerform _ => .event
  | .grinderOperation _ _ => .event
  | .cardAdmit _ => .event
  | .enqueueApply _ _ => .event
  | .doorbell _ _ _ => .event
  | .taskDeal _ => .event
  | .gangPlace _ _ => .event
  | .clusterReserve _ _ => .event
  | .priorityAge _ => .event
  | .taskComplete _ => .event
  | .cardComplete _ => .event
  | .preemptRequest _ => .event
  | .blockContextSave _ _ => .event
  | .blockResume _ _ => .event
  | .scratchClear _ _ => .event
  | .bankSnapshot _ => .event
  | .bcctlClr _ => .event
  | .demandFill _ _ => .event
  | .icacheFill _ _ _ => .event
  | .logdropRead _ => .event
  | .logctlWrite _ _ => .event
  | .routeTableWrite _ _ _ => .event
  | .specLaunch _ => .event
  | .draftWritten _ => .event
  | .pbufCopyDone _ => .event
  | .shadowFill _ _ => .event
  | .producerCommit _ => .event
  | .specCommit _ => .event
  | .specSquash _ => .event
  | .shootdownComplete _ => .event
  | .identify _ => .event
  | .podSet _ => .event
  | .aspaceSet _ => .event
  | .shootdown _ => .event
  | .queueSet _ => .event
  | .queueState _ => .event
  | .rcbRefresh _ => .event
  | .faultReply _ => .event
  | .killDomain _ => .event
  | .debugHalt _ => .event
  | .debugStop _ => .event
  | .debugStopped _ => .event
  | .attest _ => .event
  | .objLoad _ => .event
  | .objUnload _ => .event
  | .specPool _ => .event
  | .dumpSet _ => .event
  | .traceSet _ => .event
  | .fwLoad _ => .event
  | .fwSwap _ => .event
  | .diag _ => .event
  | .msSet _ => .event
  | .quiesceAck _ => .event
  | .fwSwapTimeout => .event
  | .heartbeatPet _ => .event
  | .hxdoorqRead _ => .event
  | .hxmboxqRead _ => .event
  | .fstatusWrite _ _ => .event
  | .evtdropRead _ => .event
  | .errorCounterRead _ => .event
  | .registerWrite _ _ => .event
  | .hostBar2Access _ _ _ _ => .event
  | .machineTimerInterrupt _ => .event
  | .hostWriteAck _ _ => .event
  | .hostTimeout _ _ => .event
  | .ualinkInboundRequest _ _ => .event
  | .xtileCommit _ _ => .event
  | .xtileReassemblyTimeout _ _ => .event
  | .linkTimeout _ _ => .event
  | .portDown _ => .event
  | .correctableError _ => .event
  | .uncorrectableError _ => .event
  | .scrub _ => .event
  | .coldStart => .event
  | .warmStart => .event
  | .vfFlr _ => .event
  | .rung1 _ => .event
  | .rung2 _ _ => .event
  | .rung3 _ => .event
  | .rung4 _ => .event
  | .rung5 _ => .event
  | .eventSlotFreed _ => .event

/-- The constructors of format V, by opcode key. -/
def mkVTable : List (Nat × (VOp → Instr)) := [
  (0x01, .vadd),
  (0x02, .vsub),
  (0x03, .vmul),
  (0x04, .vmulh),
  (0x05, .vmad),
  (0x06, .vmin),
  (0x07, .vmax),
  (0x08, .vand),
  (0x09, .vor),
  (0x0A, .vxor),
  (0x0B, .vshl),
  (0x0C, .vshr),
  (0x0D, .vsar),
  (0x0E, .vrot),
  (0x0F, .vclz),
  (0x10, .vpopc),
  (0x11, .vbrev),
  (0x12, .vbfe),
  (0x13, .vbfi),
  (0x14, .vsel),
  (0x15, .vmov),
  (0x16, .vmovi),
  (0x116, .vmoviHi),
  (0x17, .vcmp),
  (0x18, .vclml),
  (0x19, .vclmh),
  (0x20, .vfadd),
  (0x21, .vfsub),
  (0x22, .vfmul),
  (0x23, .vfma),
  (0x24, .vfmin),
  (0x25, .vfmax),
  (0x26, .vfcmp),
  (0x27, .vfclass),
  (0x30, .vfrcp),
  (0x31, .vfrsq),
  (0x32, .vfex2),
  (0x33, .vflg2),
  (0x34, .vfsinpi),
  (0x35, .vfcospi),
  (0x40, .vhadd),
  (0x41, .vhmul),
  (0x42, .vhfma),
  (0x43, .vhdot),
  (0x50, .vcvt),
  (0x51, .vpack),
  (0x52, .vunpack),
  (0x53, .vscale),
  (0x60, .vshfl),
  (0x61, .vbcast),
  (0x70, .vredadd),
  (0x71, .vredmin),
  (0x72, .vredmax),
  (0x73, .vany),
  (0x74, .vall),
  (0x75, .vballot),
  (0x80, .vpand),
  (0x81, .vpor),
  (0x82, .vpxor),
  (0x83, .vpandn),
  (0x84, .vpnot)]

/-- The instruction of a key. -/
def mkV (key : Nat) (o : VOp) : Option Instr := (mkVTable.find? fun r => r.1 == key).map fun r => r.2 o

/-- The constructors of format M, by opcode key. -/
def mkMTable : List (Nat × (MOp → Instr)) := [
  (0x01, .ldSp),
  (0x02, .stSp),
  (0x03, .casSp),
  (0x08, .atomSpAdd),
  (0x09, .atomSpAnd),
  (0x0A, .atomSpOr),
  (0x0B, .atomSpXor),
  (0x0C, .atomSpXchg),
  (0x0D, .atomSpMinI),
  (0x0E, .atomSpMaxI),
  (0x0F, .atomSpMinN),
  (0x10, .atomSpMaxN),
  (0x20, .ldc),
  (0x21, .ldG),
  (0x22, .ldGAcq),
  (0x23, .stG),
  (0x24, .stGRel),
  (0x25, .casG),
  (0x28, .atomGAdd),
  (0x29, .atomGAnd),
  (0x2A, .atomGOr),
  (0x2B, .atomGXor),
  (0x2C, .atomGXchg),
  (0x2D, .atomGMinI),
  (0x2E, .atomGMaxI),
  (0x2F, .atomGMinN),
  (0x30, .atomGMaxN),
  (0x31, .atomGFadd),
  (0x38, .redGAdd),
  (0x39, .redGAnd),
  (0x3A, .redGOr),
  (0x3B, .redGXor),
  (0x3C, .redGMinI),
  (0x3D, .redGMaxI),
  (0x3E, .redGMinN),
  (0x3F, .redGMaxN),
  (0x40, .redGFadd),
  (0x50, .sld),
  (0x51, .sdset),
  (0x52, .sdget),
  (0x60, .vspill),
  (0x61, .vfill),
  (0x70, .fenceAcq),
  (0x71, .fenceRel),
  (0x72, .fence),
  (0x73, .l1inv),
  (0x74, .arrive),
  (0x75, .pfd)]

/-- The instruction of a key. -/
def mkM (key : Nat) (o : MOp) : Option Instr := (mkMTable.find? fun r => r.1 == key).map fun r => r.2 o

/-- The constructors of format XT, by opcode key. -/
def mkXTTable : List (Nat × (XTOp → Instr)) := [
  (0x14, .tzero),
  (0x17, .sadv),
  (0x18, .sreset),
  (0x20, .tmmaBf16),
  (0x21, .tmmaF16),
  (0x22, .tmmaE4m3),
  (0x23, .tmmaE5m2),
  (0x24, .tmmaE4m3e5m2),
  (0x25, .tmmaE5m2e4m3),
  (0x26, .tmmaI8),
  (0x27, .tmmaN8),
  (0x28, .tmmaI8n8),
  (0x29, .tmmaLg6),
  (0x30, .tmmasE4m3),
  (0x31, .tmmasE5m2),
  (0x32, .tmmasE4m3e5m2),
  (0x33, .tmmasE5m2e4m3),
  (0x34, .tmmasI8),
  (0x35, .tmmasLg6)]

/-- The instruction of a key. -/
def mkXT (key : Nat) (o : XTOp) : Option Instr := (mkXTTable.find? fun r => r.1 == key).map fun r => r.2 o

/-- The constructors of format XC, by opcode key. -/
def mkXCTable : List (Nat × (XCOp → Instr)) := [
  (0x01, .cpa),
  (0x02, .cpb),
  (0x03, .cp2d),
  (0x04, .cpm),
  (0x10, .tld),
  (0x11, .tst),
  (0x12, .tstac),
  (0x13, .tdrain),
  (0x15, .tsave),
  (0x16, .tload),
  (0x40, .gredAdd),
  (0x41, .gredMin),
  (0x42, .gredMax),
  (0x50, .xtile)]

/-- The instruction of a key. -/
def mkXC (key : Nat) (o : XCOp) : Option Instr := (mkXCTable.find? fun r => r.1 == key).map fun r => r.2 o

/-- The constructors of format CB, by opcode key. -/
def mkCBTable : List (Nat × (CBOp → Instr)) := [
  (0x20, .br),
  (0x21, .brAny),
  (0x22, .brAll),
  (0x23, .brU),
  (0x24, .jmp),
  (0x25, .jmpr),
  (0x26, .call),
  (0x27, .ret),
  (0x30, .loop)]

/-- The instruction of a key. -/
def mkCB (key : Nat) (o : CBOp) : Option Instr := (mkCBTable.find? fun r => r.1 == key).map fun r => r.2 o

/-- The constructors of format CS, by opcode key. -/
def mkCSTable : List (Nat × (CSOp → Instr)) := [
  (0x01, .addS),
  (0x02, .subS),
  (0x03, .mulS),
  (0x04, .mulhS),
  (0x05, .andS),
  (0x06, .orS),
  (0x07, .xorS),
  (0x08, .shl),
  (0x09, .shr),
  (0x0A, .sar),
  (0x0B, .minS),
  (0x0C, .maxS),
  (0x0D, .mov),
  (0x0E, .movi),
  (0x0F, .movhi),
  (0x10, .cmp),
  (0x11, .sel),
  (0x12, .clz),
  (0x13, .popc),
  (0x14, .lea),
  (0x31, .lpop),
  (0x33, .ftest),
  (0x40, .bar),
  (0x41, .cbar),
  (0x42, .await),
  (0x43, .ainit),
  (0x44, .mwait),
  (0x50, .lexit),
  (0x51, .mget),
  (0x52, .mset),
  (0x60, .tsub),
  (0x61, .targ),
  (0x70, .trap),
  (0x71, .sysc),
  (0x72, .hret),
  (0x73, .brk),
  (0x74, .exit),
  (0x75, .yield),
  (0x7A, .nop),
  (0x76, .ipf),
  (0x77, .icinvC),
  (0x177, .icinvD),
  (0x78, .gsr),
  (0x79, .ssr)]

/-- The instruction of a key. -/
def mkCS (key : Nat) (o : CSOp) : Option Instr := (mkCSTable.find? fun r => r.1 == key).map fun r => r.2 o

/-- The zero guard: not negated, index 0. -/
def guard0 : Guard := ⟨false, 0⟩

/-- A V-slot source agrees with how its form uses it (R44, R121). `scalar` is the SRCB of `vbcast` (R134). -/
def srcOk (u : FieldUse) (x : Src) : Bool :=
  match u, x with
  | .unused, x => x = .v 0
  | .reg, .p _ => false
  | .reg, _ => true
  | .scalar, .s _ => true
  | .scalar, .sp .lcs => true
  | .scalar, _ => false
  | .pred, .p _ => true
  | .pred, _ => false

/-- A V-slot destination agrees with its form (R45, R112). -/
def dstOk (u : FieldUse) (x : Dst) : Bool :=
  match u, x with
  | .reg, .v _ => true
  | .scalar, .s _ => true
  | .pred, .p _ => true
  | _, _ => false

/-- SRCC of `vpack` is used only by the 8-bit and lg6 types (R130). -/
def packUsesC (ty : Ty) : Bool := ty = .e4m3 || ty = .e5m2 || ty = .lg6

/-- SUB is accepted: `vpack` and `vunpack` limit it by type (R130, R131). -/
def vSubOk (key : Nat) (f : VForm) (o : VOp) : Bool :=
  if key = 0x51 then if packUsesC o.ty then o.sub.val ≤ 1 else o.sub = 0
  else if key = 0x52 then if o.ty = .bf16 ∨ o.ty = .f16 then o.sub.val ≤ 1 else o.sub.val ≤ 3
  else if f.subs = [] then o.sub = 0 else f.subs.contains o.sub.val

/-- How a V-slot operation uses source C; `vpack` does not for the 16-bit types (R130). -/
def vUseC (key : Nat) (f : VForm) (ty : Ty) : FieldUse :=
  if key = 0x51 ∧ ¬ packUsesC ty then .unused else f.c

/-- IMM16 is accepted (R47, R110, R127). -/
def vImmOk (key : Nat) (f : VForm) (o : VOp) : Bool :=
  match o.imm, f.vi with
  | some i, .yes => if key = 0x27 then i.toNat < 512 else true
  | some _, .required => true
  | none, .no => true
  | none, .yes => true
  | _, _ => false

/-- A well-formed V-slot operation of the form of `key`. -/
def vWf (key : Nat) (o : VOp) : Bool :=
  match vForm key with
  | none => false
  | some f =>
    dstOk f.dst o.dst && srcOk f.a o.a &&
    (if o.imm.isSome then o.b = .v 0 && o.c = .v 0 else srcOk f.b o.b && srcOk (vUseC key f o.ty) o.c) &&
    (if f.types = [] then o.ty = .i32 else f.types.contains o.ty) &&
    (f.rm && !(key = 0x70 && o.ty = .i32) || o.rm = .rne) &&
    (f.sat && !(key = 0x70 && o.ty = .f32) || !o.sat) &&
    vImmOk key f o && vSubOk key f o

/-- Registers a size takes: two for 64 bits, four for 128, one otherwise (R49). -/
def Size.regs : Size → Nat
  | .b64 => 2
  | .b128 => 4
  | _ => 1

/-- Bytes of a size (R49). -/
def Size.bytes : Size → Nat
  | .b8 => 1
  | .b16 => 2
  | .b32 => 4
  | .b64 => 8
  | .b128 => 16

/-- The alignment a vector DATA register needs (R49, R140). -/
def dataAlign (u : DataUse) (z : Size) : Nat :=
  match u with
  | .cas => 2 * z.regs
  | .vecOne => 1
  | _ => z.regs

/-- DATA is accepted (R140, R141, R166, R172, R173). -/
def dataOk (f : MForm) (o : MOp) : Bool :=
  match f.data, o.data with
  | .none, x => x = .v 0
  | .dest, .v r => r.val % o.size.regs = 0
  | .dest, .s _ => o.index = none && (o.size = .b32 || o.size = .b64)
  | .source, .v r => r.val % o.size.regs = 0
  | .source, .s _ => o.size != .b128
  | .source, .sp _ => o.size != .b64 && o.size != .b128
  | .inPlace, .v r => r.val % o.size.regs = 0
  | .cas, .v r => r.val % (2 * o.size.regs) = 0
  | .vecDest, .v r => r.val % o.size.regs = 0
  | .vecOne, .v _ => true
  | .scalarSrc, .s _ => true
  | .scalarDest, .s _ => true
  | _, _ => false

/-- The address fields are used as the row states (R138). -/
def addrOk (f : MForm) (o : MOp) : Bool :=
  match f.addr with
  | .none => o.base = 0 && o.index = some 0 && o.off = 0
  | .full => true
  | .offOnly => o.base = 0 && o.index = some 0 && o.off.toNat ≤ f.offMax
  | .baseOff => o.index = some 0
  | .fixedIndex => o.index = none

/-- A well-formed M-slot operation of the form of `key`. -/
def mWf (key : Nat) (o : MOp) : Bool :=
  match mForm key with
  | none => false
  | some f =>
    (if f.sizes = [] then o.size = .b8 else f.sizes.contains o.size) && dataOk f o && addrOk f o &&
    (if f.scope then o.scope != .w else o.scope = .w) &&
    (match f.fe with
     | .no => o.flag = none
     | .yes => o.flag.isSome
     | .opt => true) &&
    (f.guard || o.guard = guard0)

/-- A well-formed XT operation of the form of `key`. -/
def xtWf (key : Nat) (o : XTOp) : Bool :=
  match xtForm key with
  | none => false
  | some f =>
    (f.acc || o.acc = 0) && (f.sa || o.sa = 0) && (f.sb || o.sb = 0) && (f.kst || o.kst = 0) &&
    (f.shape || (o.msz = 0 && o.nsz = 0))

/-- LL is accepted (R52, R186). -/
def llOk (u : LLUse) (ll : BitVec 8) : Bool :=
  let x := ll.toNat
  match u with
  | .vecPair => x < 128 && x % 2 = 0
  | .scalar => 128 ≤ x && x < 192
  | .scalarPair => 128 ≤ x && x < 192 && x % 2 = 0
  | .stream => x < 16
  | .streamOrSp => x < 16 || (64 ≤ x && x < 80)
  | .accRound => x % 16 < 8 && x < 64
  | .acc => x < 8

/-- The type of a code, if any (R46). -/
def tyOfCode : Nat → Option Ty
  | 0 => some .i32
  | 1 => some .n32
  | 2 => some .f32
  | 3 => some .bf16
  | 4 => some .f16
  | 5 => some .i16
  | 6 => some .n16
  | 7 => some .i8
  | 8 => some .n8
  | 9 => some .e4m3
  | 10 => some .e5m2
  | 11 => some .lg6
  | _ => none

/-- The code of a type (R46). -/
def Ty.code : Ty → Nat
  | .i32 => 0
  | .n32 => 1
  | .f32 => 2
  | .bf16 => 3
  | .f16 => 4
  | .i16 => 5
  | .n16 => 6
  | .i8 => 7
  | .n8 => 8
  | .e4m3 => 9
  | .e5m2 => 10
  | .lg6 => 11

/-- GT is accepted (R51, R186, R202, R211). -/
def gtOk (u : GTUse) (gt : BitVec 4) : Bool :=
  match u with
  | .unused => gt = 0
  | .guard => true
  | .types l => match tyOfCode gt.toNat with
    | some t => l.contains t
    | none => false

/-- `tst` and `xtile` use SRCB only when LL[6] = 1 (R186). -/
def srcbUsed (f : XCForm) (o : XCOp) : Bool := f.srcb || (f.ll = .streamOrSp && o.ll.getLsbD 6)

/-- A well-formed XC operation of the form of `key`. -/
def xcWf (key : Nat) (o : XCOp) : Bool :=
  match xcForm key with
  | none => false
  | some f =>
    (f.dstb || o.dstb = 0) && (srcbUsed f o || o.srcb = 0) && llOk f.ll o.ll && (f.arw || o.arw = 0) &&
    (if f.scopes = [] then o.scope = .w else f.scopes.contains o.scope) && gtOk f.gt o.gt

/-- A well-formed CB operation of the form of `key`; `loop` needs OFF ≥ 1 (R213). -/
def cbWf (key : Nat) (o : CBOp) : Bool :=
  match cbForm key with
  | none => false
  | some f =>
    (f.guard || o.guard = guard0) && (f.off || o.off = 0) && (!f.offPos || (1 ≤ o.off.toNat && o.off.toNat < 2 ^ 23)) &&
    (f.var || o.var = guard0) && (f.sreg || o.sreg = 0)

/-- A six-bit D or A field is accepted (R54, R213, R234). -/
def sixOk (u : SixUse) (x : Fin 64) : Bool :=
  match u with
  | .unused => x = 0
  | .reg => true
  | .pred => x.val < 8
  | .flag => x.val < 16
  | .evenPair => x.val % 2 = 0 && 2 ≤ x.val

/-- I, B and IMM18 are accepted (R54, R213). -/
def immOk (f : CSForm) (o : CSOp) : Bool :=
  match f.imm, o.imm with
  | .reg, none => true
  | .regQuiet, none => true
  | .either, none => true
  | .none, none => o.b = 0
  | .quiet, none => o.b = 0
  | .immOrA, none => o.b = 0
  | .imm, some i => o.b = 0 && i.toNat ≤ f.immMax
  | .either, some i => o.b = 0 && i.toNat ≤ f.immMax
  | .immOrA, some _ => o.b = 0 && o.a = 0
  | _, _ => false

/-- A well-formed CS operation of the form of `key`. -/
def csWf (key : Nat) (o : CSOp) : Bool :=
  match csForm key with
  | none => false
  | some f =>
    (f.guard || o.guard = guard0) && sixOk f.d o.d && sixOk f.a o.a && immOk f o &&
    (if f.subs = [] then o.sub = 0 else f.subs.contains o.sub.val)

/-- How many bits of a 16-bit mask are set below position `n`. -/
def setBits (m : BitVec 16) (n : Nat) : Nat := ((List.range n).filter fun i => m.getLsbD i).length

/-- A well-formed `wait`: codes beyond the named flags are 00, and E is 0 unless some code is 11 (R55). -/
def cwWf (o : CWOp) : Bool :=
  let n := min (setBits o.mask 16) 9
  let code := fun j => bits o.codes.toNat (2 * j + 1) (2 * j)
  ((List.range 9).all fun j => j < n || code j = 0) && (o.e = 0 || (List.range 9).any fun j => code j = 3)

end Sys2Proof
end

