-- ==== Sys2Proof/WellFormed.lean ====
section
/-! DEFINITION. Which instructions are well formed: every field used as its form states, every other field zero
(R40, R42, R110, R138, R186, R213). The check of each slot format stands in Sys2Proof/Machine/Fields.lean. -/

namespace Sys2Proof

/-- A well-formed instruction: what `encode` can write and the decoder accepts. Machine steps are not encoded. -/
def wellFormed (i : Instr) : Bool :=
  match slotOp i with
  | .v key o => vWf key o
  | .m key o => mWf key o
  | .xt key o => xtWf key o
  | .xc key o => xcWf key o
  | .cb key o => cbWf key o
  | .cs key o => csWf key o
  | .cw o => cwWf o
  | .event => true

end Sys2Proof
end

