-- ==== Sys2Proof/Decode.lean ====
section
/-! DEFINITION. Decoding a 256-bit bundle and its slots, and the encoder written from the same layouts (R34 to R59). -/

namespace Sys2Proof

/-- Fields of the given widths, lowest first, of a number. -/
def unpack : List Nat → Nat → List Nat
  | [], _ => []
  | w :: ws, x => x % 2 ^ w :: unpack ws (x / 2 ^ w)

/-- The number whose fields, lowest first, have the given widths and values. -/
def pack : List (Nat × Nat) → Nat
  | [] => 0
  | (w, v) :: fs => v % 2 ^ w + 2 ^ w * pack fs

/-- Field widths of V3 and VI: OPC GUARD DST SRCA SRCB SRCC TYPE RM SAT I SUB reserved (R43). -/
def vWidths : List Nat := [8, 4, 8, 8, 8, 8, 4, 2, 1, 1, 4, 8]
/-- Field widths of MA: OPC GUARD DATA BASE INDEX OFF SIZE SCOPE FLAG FE reserved (R48). -/
def mWidths : List Nat := [8, 4, 8, 6, 8, 16, 3, 3, 4, 1, 3]
/-- Field widths of XT: OPC FLAG ACC SA SB KST MSZ NSZ reserved (R50). -/
def xtWidths : List Nat := [8, 4, 3, 4, 4, 8, 2, 2, 13]
/-- Field widths of XC: OPC FLAG DSTB SRCB LL ARW SCOPE GT reserved (R51). -/
def xcWidths : List Nat := [8, 4, 6, 6, 8, 6, 3, 4, 3]
/-- Field widths of CB: OPC GUARD OFF VAR SREG reserved (R53). -/
def cbWidths : List Nat := [8, 4, 24, 4, 6, 2]
/-- Field widths of CS: OPC GUARD D A IMM18 I SUB reserved (R54). -/
def csWidths : List Nat := [8, 4, 6, 6, 18, 1, 4, 1]
/-- Field widths of CW: OPC MASK codes E (R55). -/
def cwWidths : List Nat := [8, 16, 18, 6]

/-- The static decode failures of a slot, in the order R40 looks for them. -/
inductive SlotErr where
  | opcode | reserved | operand
  deriving DecidableEq, Repr

/-- A slot of a decoded bundle. -/
inductive SlotD where
  | absent
  | bad (e : SlotErr)
  | ok (i : Instr)
  deriving DecidableEq, Repr

/-- Keep an instruction that the form accepts, and refuse the rest as ILLEGAL_OPERAND (R40). -/
def accept (good : Bool) (i : Option Instr) : SlotD :=
  match good, i with
  | true, some i => .ok i
  | _, _ => .bad .operand

/-- A guard field. -/
def guardOf (x : Nat) : Guard := ⟨x.testBit 3, Fin.ofNat 8 x⟩
/-- The code of a guard field. -/
def Guard.code (g : Guard) : Nat := (if g.neg then 8 else 0) + g.idx.val

/-- The rounding mode of a code (R90). -/
def rmOf (x : Nat) : RM := match x with | 0 => .rne | 1 => .rtz | 2 => .rdn | _ => .rup
/-- The code of a rounding mode (R90). -/
def RM.code : RM → Nat | .rne => 0 | .rtz => 1 | .rdn => 2 | .rup => 3

/-- The special operand of a code from 0xC0 (R44). -/
def specialOf : Nat → Option Special
  | 0 => some .lva | 1 => some .lvf | 2 => some .lvx | 3 => some .lmd | 4 => some .lcs
  | 5 => some .lane | 6 => some .lbase | 7 => some .lword | 8 => some .wordix | 9 => some .zero
  | 10 => some .ones | 11 => some .width | 12 => some .ticklo | _ => none
/-- The code of a special operand, less 0xC0 (R44). -/
def Special.code : Special → Nat
  | .lva => 0 | .lvf => 1 | .lvx => 2 | .lmd => 3 | .lcs => 4 | .lane => 5 | .lbase => 6 | .lword => 7
  | .wordix => 8 | .zero => 9 | .ones => 10 | .width => 11 | .ticklo => 12

/-- A source operand code (R44), or a predicate index, by its use. -/
def srcOf (u : FieldUse) (x : Nat) : Option Src :=
  match u with
  | .unused => some (.v 0)
  | .pred => if x < 8 then some (.p (Fin.ofNat 8 x)) else none
  | _ => if x < 128 then some (.v (Fin.ofNat 128 x)) else if x < 192 then some (.s (Fin.ofNat 64 (x - 128)))
         else (specialOf (x - 192)).map .sp
/-- The code of a source operand. -/
def Src.code : Src → Nat
  | .v r => r.val | .s r => 128 + r.val | .sp x => 192 + x.code | .p i => i.val

/-- A destination code (R45), by its use. -/
def dstOf (u : FieldUse) (x : Nat) : Option Dst :=
  match u with
  | .scalar => if 128 ≤ x ∧ x < 192 then some (.s (Fin.ofNat 64 (x - 128))) else none
  | .pred => if x < 8 then some (.p (Fin.ofNat 8 x)) else none
  | _ => if x < 128 then some (.v (Fin.ofNat 128 x)) else none
/-- The code of a destination. -/
def Dst.code : Dst → Nat | .v r => r.val | .s r => 128 + r.val | .p i => i.val

/-- The size of a code (R49). -/
def sizeOf' : Nat → Option Size
  | 0 => some .b8 | 1 => some .b16 | 2 => some .b32 | 3 => some .b64 | 4 => some .b128 | _ => none
/-- The code of a size (R49). -/
def Size.code : Size → Nat | .b8 => 0 | .b16 => 1 | .b32 => 2 | .b64 => 3 | .b128 => 4
/-- The scope of a code (R49). -/
def scopeOf : Nat → Option Scope
  | 0 => some .w | 1 => some .c | 2 => some .k | 3 => some .d | 4 => some .p | 5 => some .s | _ => none
/-- The code of a scope (R49). -/
def Scope.code : Scope → Nat | .w => 0 | .c => 1 | .k => 2 | .d => 3 | .p => 4 | .s => 5

/-- The key of a V-slot opcode: `vmovi` with SUB 1 is `vmovi.hi` (R121). -/
def vKey (opc sub : Nat) : Nat := if opc = 0x16 ∧ sub = 1 then 0x116 else opc
/-- The key of a CS opcode: `icinv` with SUB 3 is `icinv.d` (R213). -/
def csKey (opc sub : Nat) : Nat := if opc = 0x77 ∧ sub = 3 then 0x177 else opc

/-- Decode a V slot (R43 to R47, R110). -/
def decodeV (x : Nat) : SlotD :=
  match unpack vWidths x with
  | [opc, g, d, a, b, c, ty, rm, sat, i, sub, res] =>
    let key := vKey opc sub
    match vForm key with
    | none => .bad .opcode
    | some f =>
      let uc := match tyOfCode ty with | some t => vUseC key f t | none => f.c
      let rmOff := !f.rm || (key = 0x70 && ty = 0)
      let satOff := !f.sat || (key = 0x70 && ty = 2)
      if res ≠ 0 ∨ (f.a = .unused ∧ a ≠ 0) ∨ (i = 0 ∧ ((f.b = .unused ∧ b ≠ 0) ∨ (uc = .unused ∧ c ≠ 0))) ∨
          (f.types = [] ∧ ty ≠ 0) ∨ (rmOff ∧ rm ≠ 0) ∨ (satOff ∧ sat ≠ 0) ∨ (f.subs = [] ∧ sub ≠ 0) then .bad .reserved
      else
        match tyOfCode ty, dstOf f.dst d, srcOf f.a a, (if i = 0 then srcOf f.b b else some (.v 0)),
            (if i = 0 then srcOf uc c else some (.v 0)) with
        | some t, some d, some a', some b', some c' =>
          let o : VOp := ⟨guardOf g, d, a', b', c', if i = 0 then none else some (BitVec.ofNat 16 (b + 256 * c)), t,
            rmOf rm, sat = 1, Fin.ofNat 16 sub⟩
          accept (vWf key o) (mkV key o)
        | _, _, _, _, _ => .bad .operand
  | _ => .bad .opcode

/-- Decode an M slot (R48, R49, R138). -/
def decodeM (x : Nat) : SlotD :=
  match unpack mWidths x with
  | [opc, g, d, base, ix, off, sz, sc, fl, fe, res] =>
    match mForm opc with
    | none => .bad .opcode
    | some f =>
      if res ≠ 0 ∨ (f.data = .none ∧ d ≠ 0) ∨ ((f.addr = .none ∨ f.addr = .offOnly) ∧ base ≠ 0) ∨
          ((f.addr = .none ∨ f.addr = .offOnly ∨ f.addr = .baseOff) ∧ ix ≠ 0) ∨ (f.addr = .none ∧ off ≠ 0) ∨
          (f.sizes = [] ∧ sz ≠ 0) ∨ (f.scope = false ∧ sc ≠ 0) ∨ (f.fe = .no ∧ fe ≠ 0) ∨ (fe = 0 ∧ fl ≠ 0) ∨
          (f.guard = false ∧ g ≠ 0) then .bad .reserved
      else
        match srcOf (if f.data = .none then .unused else .reg) d, sizeOf' sz, scopeOf sc,
            (if ix = 255 then some none else if ix < 128 then some (some (Fin.ofNat 128 ix)) else none) with
        | some d', some z, some s, some ix' =>
          let o : MOp := ⟨guardOf g, d', Fin.ofNat 64 base, ix', BitVec.ofNat 16 off, z, s,
            if fe = 0 then none else some (Fin.ofNat 16 fl)⟩
          accept (mWf opc o) (mkM opc o)
        | _, _, _, _ => .bad .operand
  | _ => .bad .opcode

/-- Decode an XT slot (R50, R186). -/
def decodeXT (x : Nat) : SlotD :=
  match unpack xtWidths x with
  | [opc, fl, acc, sa, sb, kst, msz, nsz, res] =>
    match xtForm opc with
    | none => .bad .opcode
    | some f =>
      if res ≠ 0 ∨ (f.acc = false ∧ acc ≠ 0) ∨ (f.sa = false ∧ sa ≠ 0) ∨ (f.sb = false ∧ sb ≠ 0) ∨
          (f.kst = false ∧ kst ≠ 0) ∨ (f.shape = false ∧ (msz ≠ 0 ∨ nsz ≠ 0)) then .bad .reserved
      else if msz = 3 ∨ nsz = 3 then .bad .operand
      else
        let o : XTOp := ⟨Fin.ofNat 16 fl, Fin.ofNat 8 acc, Fin.ofNat 16 sa, Fin.ofNat 16 sb, Fin.ofNat 256 kst,
          Fin.ofNat 3 msz, Fin.ofNat 3 nsz⟩
        accept (xtWf opc o) (mkXT opc o)
  | _ => .bad .opcode

/-- Decode an XC slot (R51, R52, R186). -/
def decodeXC (x : Nat) : SlotD :=
  match unpack xcWidths x with
  | [opc, fl, db, sb, ll, arw, sc, gt, res] =>
    match xcForm opc with
    | none => .bad .opcode
    | some f =>
      let useS := f.srcb || (f.ll = .streamOrSp && ll.testBit 6)
      if res ≠ 0 ∨ (f.dstb = false ∧ db ≠ 0) ∨ (useS = false ∧ sb ≠ 0) ∨ (f.arw = false ∧ arw ≠ 0) ∨
          (f.scopes = [] ∧ sc ≠ 0) ∨ (f.gt = .unused ∧ gt ≠ 0) then .bad .reserved
      else
        match scopeOf sc with
        | some s =>
          let o : XCOp := ⟨Fin.ofNat 16 fl, Fin.ofNat 64 db, Fin.ofNat 64 sb, BitVec.ofNat 8 ll, Fin.ofNat 64 arw, s,
            BitVec.ofNat 4 gt⟩
          accept (xcWf opc o) (mkXC opc o)
        | none => .bad .operand
  | _ => .bad .opcode

/-- Decode an X slot: the opcode map tells the format (R58). -/
def decodeX (x : Nat) : SlotD := if (xtForm (x % 256)).isSome then decodeXT x else decodeXC x

/-- Decode a CB slot (R53, R213); the row of `jmp` names GUARD, with the one value 0, so another is an illegal operand. -/
def decodeCB (x : Nat) : SlotD :=
  match unpack cbWidths x with
  | [opc, g, off, var, sr, res] =>
    match cbForm opc with
    | none => .bad .opcode
    | some f =>
      if res ≠ 0 ∨ (f.off = false ∧ off ≠ 0) ∨ (f.var = false ∧ var ≠ 0) ∨
          (f.sreg = false ∧ sr ≠ 0) then .bad .reserved
      else
        let o : CBOp := ⟨guardOf g, BitVec.ofNat 24 off, guardOf var, Fin.ofNat 64 sr⟩
        accept (cbWf opc o) (mkCB opc o)
  | _ => .bad .opcode

/-- The bits of IMM18 that a CS form leaves unused with I = 0 (R54). -/
def immUnused (u : ImmUse) (imm : Nat) : Nat :=
  match u with
  | .reg | .regQuiet | .either => imm / 64
  | _ => imm

/-- Decode a CS slot (R54, R213); the row of `nop` names GUARD, with the one value 0, so another is an illegal operand. -/
def decodeCS (x : Nat) : SlotD :=
  match unpack csWidths x with
  | [opc, g, d, a, imm, i, sub, res] =>
    let key := csKey opc sub
    match csForm key with
    | none => .bad .opcode
    | some f =>
      if res ≠ 0 ∨ (f.d = .unused ∧ d ≠ 0) ∨ (f.a = .unused ∧ a ≠ 0) ∨
          (f.imm = .immOrA ∧ i = 1 ∧ a ≠ 0) ∨ ((f.imm = .quiet ∨ f.imm = .regQuiet) ∧ i ≠ 0) ∨
          (i = 0 ∧ immUnused f.imm imm ≠ 0) ∨ (f.subs = [] ∧ sub ≠ 0) then .bad .reserved
      else
        let o : CSOp := ⟨guardOf g, Fin.ofNat 64 d, Fin.ofNat 64 a, if i = 0 then Fin.ofNat 64 imm else 0,
          if i = 0 then none else some (BitVec.ofNat 18 imm), Fin.ofNat 16 sub⟩
        accept (csWf key o) (mkCS key o)
  | _ => .bad .opcode

/-- Decode a CW slot: any breach of R55 is RESERVED_BITS. -/
def decodeCW (x : Nat) : SlotD :=
  match unpack cwWidths x with
  | [_, mask, codes, e] =>
    let o : CWOp := ⟨BitVec.ofNat 16 mask, BitVec.ofNat 18 codes, BitVec.ofNat 6 e⟩
    if cwWf o then .ok (.wait o) else .bad .reserved
  | _ => .bad .opcode

/-- Decode a C slot: the opcode map tells the format (R59). -/
def decodeC (x : Nat) : SlotD :=
  if x % 256 = 0x32 then decodeCW x else if (cbForm (x % 256)).isSome then decodeCB x else decodeCS x

/-- The header of a bundle (R35); `gap` is GAP + 1. -/
structure Header where
  gap : Nat
  d : Bool
  f : Bool
  l : Bool
  y : Bool
  deriving DecidableEq, Repr

/-- A decoded bundle: `illegal` is the check of R35 and R36 on reserved header bits and absent slots. -/
structure Bundle where
  hdr : Header
  illegal : Bool
  v : SlotD
  m : SlotD
  x : SlotD
  c : SlotD
  deriving DecidableEq, Repr

/-- Decode the 256 bits of a bundle, as a little-endian number (R34 to R36): total on any bits. -/
def decodeBundle (w : Nat) : Bundle :=
  match unpack [6, 1, 1, 1, 1, 1, 1, 1, 1, 18, 64, 64, 48, 48] w with
  | [gap, d, f, l, pv, pm, px, pc, y, res, v, m, x, c] =>
    { hdr := ⟨gap + 1, d = 1, f = 1, l = 1, y = 1⟩
      illegal := decide (res ≠ 0 ∨ (pv = 0 ∧ v ≠ 0) ∨ (pm = 0 ∧ m ≠ 0) ∨ (px = 0 ∧ x ≠ 0) ∨ (pc = 0 ∧ c ≠ 0))
      v := if pv = 0 then .absent else decodeV v
      m := if pm = 0 then .absent else decodeM m
      x := if px = 0 then .absent else decodeX x
      c := if pc = 0 then .absent else decodeC c }
  | _ => ⟨⟨1, false, false, false, false⟩, true, .absent, .absent, .absent, .absent⟩

/-- The number of the slot that runs an instruction (R34): 0 V, 1 M, 2 X, 3 C; none for a machine step. -/
def slotNum (i : Instr) : Option Nat :=
  match slotOp i with
  | .v .. => some 0
  | .m .. => some 1
  | .xt .. => some 2
  | .xc .. => some 2
  | .cb .. => some 3
  | .cs .. => some 3
  | .cw .. => some 3
  | .event => none

/-- The bits of one slot instruction (R43 to R55); machine steps have none. -/
def encode (i : Instr) : Nat :=
  match slotOp i with
  | .v key o =>
    let (b, c) := match o.imm with
      | none => (o.b.code, o.c.code)
      | some i => (i.toNat % 256, i.toNat / 256)
    pack [(8, key % 256), (4, o.guard.code), (8, o.dst.code), (8, o.a.code), (8, b), (8, c), (4, o.ty.code), (2, o.rm.code),
      (1, if o.sat then 1 else 0), (1, if o.imm.isSome then 1 else 0), (4, o.sub.val), (8, 0)]
  | .m key o =>
    pack [(8, key), (4, o.guard.code), (8, o.data.code), (6, o.base.val),
      (8, match o.index with | none => 255 | some r => r.val), (16, o.off.toNat), (3, o.size.code), (3, o.scope.code),
      (4, match o.flag with | none => 0 | some f => f.val), (1, if o.flag.isSome then 1 else 0), (3, 0)]
  | .xt key o =>
    pack [(8, key), (4, o.flag.val), (3, o.acc.val), (4, o.sa.val), (4, o.sb.val), (8, o.kst.val), (2, o.msz.val),
      (2, o.nsz.val), (13, 0)]
  | .xc key o =>
    pack [(8, key), (4, o.flag.val), (6, o.dstb.val), (6, o.srcb.val), (8, o.ll.toNat), (6, o.arw.val), (3, o.scope.code),
      (4, o.gt.toNat), (3, 0)]
  | .cb key o => pack [(8, key), (4, o.guard.code), (24, o.off.toNat), (4, o.var.code), (6, o.sreg.val), (2, 0)]
  | .cs key o =>
    pack [(8, key % 256), (4, o.guard.code), (6, o.d.val), (6, o.a.val),
      (18, match o.imm with | none => o.b.val | some i => i.toNat), (1, if o.imm.isSome then 1 else 0), (4, o.sub.val), (1, 0)]
  | .cw o => pack [(8, 0x32), (16, o.mask.toNat), (18, o.codes.toNat), (6, o.e.toNat)]
  | .event => 0

/-- Decode the bits of slot `n` (R34). -/
def decodeSlot (n x : Nat) : SlotD :=
  match n with
  | 0 => decodeV x
  | 1 => decodeM x
  | 2 => decodeX x
  | _ => decodeC x

/-- The bits of a slot of a bundle: those of the instruction in it, or zero (R36). -/
def slotBits : Option Instr → Nat
  | none => 0
  | some i => encode i

/-- The 256 bits of a bundle with the given header and slots (R34, R35). -/
def encodeBundle (h : Header) (v m x c : Option Instr) : Nat :=
  let b := fun (p : Bool) => if p then 1 else 0
  pack [(6, h.gap - 1), (1, b h.d), (1, b h.f), (1, b h.l), (1, b v.isSome), (1, b m.isSome), (1, b x.isSome), (1, b c.isSome),
    (1, b h.y), (18, 0), (64, slotBits v), (64, slotBits m), (48, slotBits x), (48, slotBits c)]

/-- What one instruction a bundle stands for: its only slot's, or the issue of the whole bundle by core 0, slot 0. -/
def soleInstr (b : Bundle) : Option Instr :=
  if b.illegal then none
  else match b.v, b.m, b.x, b.c with
    | .ok i, .absent, .absent, .absent => some i
    | .absent, .ok i, .absent, .absent => some i
    | .absent, .absent, .ok i, .absent => some i
    | .absent, .absent, .absent, .ok i => some i
    | .bad _, _, _, _ => none
    | _, .bad _, _, _ => none
    | _, _, .bad _, _ => none
    | _, _, _, .bad _ => none
    | _, _, _, _ => some (.bundleIssue 0 0)

/-- The instruction the decoder reads from `nbits` bits of a bundle, the bits above them zero. -/
def decodeTableWord (nbits w : Nat) : Option Instr := soleInstr (decodeBundle (w % 2 ^ nbits))

end Sys2Proof
end

