-- ==== Sys2Proof/Machine/State.lean ====
section
/-! DEFINITION. The whole state of one Z9, as plain data, and its state after reset. INVENTORY.md lists each field with the
rule that names it. -/

namespace Sys2Proof.Machine

/-- Values by key, keys strictly rising. -/
abbrev FMap (β : Type) := List (Nat × β)

/-! ## Memory -/

/-- Device memory: the bytes that differ from what an unlisted address reads as, addresses strictly rising. `epoch` 0 is
the scrubbed memory of R420, which reads 0; after a start that keeps nothing (R421) unlisted bytes are free values. -/
structure Memory where
  cells : List Host.Cell
  epoch : Nat
  deriving DecidableEq, Repr

/-- The three kinds of home a leaf names (R350, R386, R388, R394). -/
inductive Space where
  | hbm | host | pod
  deriving DecidableEq, Repr

/-- A physical address; for `pod`, bits [53:46] are the device id (R388). -/
structure Pa where
  space : Space
  addr : Nat
  deriving DecidableEq, Repr

/-- A valid leaf that passed its walk (R350 to R352): the page at `va`, `size` bytes, and its attributes. -/
structure TlbEntry where
  asid : Nat
  view : Nat
  va : Nat
  size : Nat
  pa : Pa
  ms : Bool
  u : Bool
  x : Bool
  w : Bool
  r : Bool
  deriving DecidableEq, Repr

/-! ## Warps -/

/-- One level of the loop stack (R223). -/
structure LoopLevel where
  start : DWord
  stop : DWord
  count : BitVec 32
  first : Bool
  deriving DecidableEq, Repr

/-- Where a result lands (R31, R45, R169, R247): a register, a predicate, a stream word or a special register. -/
inductive Dest where
  | v (r : Nat)
  | s (r : Nat)
  | vp (i : Nat)
  | sp (i : Nat)
  | sd (n w : Nat)
  | sr (i : Nat)
  deriving DecidableEq, Repr

/-- The latches of R19 and `none`, in the UNIT order of R336. -/
inductive Unit' where
  | lva | lvf | lvx | lmd | lcs | none
  deriving DecidableEq, Repr

/-- A fixed-latency result in flight (R18): it lands at the end of tick `land`. `lanes` holds its active lanes in ascending
order (a predicate value is 0 or 1); `scalar` is the value of a scalar destination; `evs` are the event classes of each lane,
one bit per class (R31, R108); `addr` is the issuing bundle; `dec` marks an
asynchronous result, with the flag that falls with it (R144). `want` holds the lanes of an `ldc` whose lines are still to come, each with the
address of its `wn` bytes, and `seq` its place in program order (R21, R154, R162). -/
structure Landing where
  slot : Nat
  tick : Nat
  land : Nat
  dest : Dest
  unit : Unit'
  lanes : FMap Word
  scalar : DWord
  evs : FMap (BitVec 8)
  addr : DWord
  dec : Option (Option Nat)
  want : List (Nat × Pa) := []
  wn : Nat := 0
  seq : Nat := 0
  deriving DecidableEq, Repr

/-- Why a warp's timeline stands (R21, R145, R216, R366). -/
inductive Stop where
  /-- the timeline runs -/
  | run
  /-- frozen: L1 lines are on their way, or an acquire is open (R21, R154, R162) -/
  | l1
  /-- frozen until a cycle: bank passes or lookups (R146, R151) -/
  | until (cycle : Nat)
  /-- frozen: a flag counter has no room (R21) -/
  | flag
  /-- an acceptance wait (R145, R164, R178) -/
  | accept
  /-- the next bundle is not in the fetch buffer (R366) -/
  | fetch
  /-- held before its own bundle by `wait`, `await` or `mwait` (R216); the `mwait` timeout, the poll interval, the cycle of the
  next poll and whether a monitor is registered (R235, R236) -/
  | before (timeout : Option Nat) (interval : Nat) (poll : Nat) (armed : Bool)
  /-- a hold before the bundle ended; `mwait` ended with this predicate (R216, R235) -/
  | mdone (pred : Bool)
  /-- a trap waits for its entry (R331) or for the commit of its card (R322) -/
  | trap
  /-- stopped for pre-emption (R344) -/
  | stopped
  /-- exited or killed (R30) -/
  | ended
  deriving DecidableEq, Repr

/-- A hold before the successor (R216). -/
inductive Hold where
  | bar (cluster : Bool) (id : Nat) (dest : Nat) (deadline : Option Nat)
  | icinv (left : List Nat)
  | sysc (n : Nat) (reply : Option (DWord × DWord))
  /-- the barrier of interrupted code released or timed out while its handler runs: the predicate, written when the handler returns (R229, R330) -/
  | barDone (dest : Nat) (pred : Bool)
  /-- the barrier became unreachable (R230) -/
  | barTrap
  deriving DecidableEq, Repr

/-- A trap taken but not yet entered (R329, R331). -/
structure Trap where
  cause : Nat
  slot : Nat
  faddr : DWord
  info : Nat
  tn : Nat
  rpc : DWord
  tib : Nat
  replay : Nat
  brt : Option DWord
  defer : Bool
  epc : DWord
  deriving DecidableEq, Repr

/-- A deferred cause and the bundle of the operation that failed; `tick` is the first tick that sees the operation's flag decrement and `cycle` the
cycle of that decrement, which a tick that begins in it does not see (R22, R179, R328). -/
structure Deferred where
  cause : Nat
  slot : Nat
  addr : DWord
  seq : Nat
  tick : Nat := 0
  cycle : Nat := 0
  deriving DecidableEq, Repr

/-- What the C slot decided for the successor (R224): nothing, a taken branch and whether it unwinds the loop stack, or a
successor already set (`hret`, R339). -/
inductive Ctl where
  | none
  | branch (target : DWord) (unwind : Bool)
  | done
  deriving DecidableEq, Repr

/-- The state of one resident warp (R10, R12, R14). `kept` and `keptRetire` are a hold and retiring lanes of the interrupted code
while the handler runs (R216, R330); `stretched` says that the bundle due has had its bank stretch (R20), and `keptStretch` that the
interrupted one had (R329). `notBefore` is the first cycle in which the timeline may move again after a swap or the end of a hold (R25,
R216); `ended` keeps a hold before the bundle that has ended, with its predicate, while something else stops the timeline (R215); `holdNext` says
that the hold stands before the successor of the bundle due, whose slots are replayed (R330); `awaits` is the arrival word and GEN an `await`
waits for (R233). `pendEv` holds the events of completed X-slot operations: the tick that records them, the cycle of the completion, the classes and
the bundle (R31, R179); `fell` the flags that fell in the cycle of the last completion, with that cycle (R22); `issuedAt` is the cycle in which the last
bundle issued (R25, R38); `inTick` says that the timeline froze inside an empty tick, which has therefore begun (R21, R22). `first` is the place in program order at which the warp began in its slot, which tells it from earlier warps of the slot; `nextWant` is the line that a
next-line fill has asked the instruction cache for (R366). -/
structure Warp where
  block : Nat
  windex : Nat
  role : Nat
  k : Nat
  budget : Nat
  lbase : Nat
  laneLimit : Nat
  position : Option Nat
  moved : Nat
  vregs : FMap Word
  sregs : FMap DWord
  vpred : BitVec 8192
  spred : BitVec 8
  flags : FMap Nat
  incs : FMap Nat
  loops : List LoopLevel
  mask : LaneMask
  entryMask : LaneMask
  retire : LaneMask
  pc : DWord
  gap : Nat
  ctl : Ctl
  tick : Nat
  tickStart : Nat
  due : Nat
  opened : Bool
  flight : List Landing
  landed : List Landing
  fel : DWord
  fes : DWord
  fen : DWord
  tsa : DWord
  cause : DWord
  epc : DWord
  imask : DWord
  priv : Bool
  stop : Stop
  since : Nat
  hold : Option Hold
  kept : Option Hold
  keptRetire : LaneMask
  deferred : List Deferred
  pendEv : List (Nat × Nat × BitVec 8 × DWord)
  trap : Option Trap
  replay : Option Nat
  brt : Option DWord
  halt : Bool
  step : Bool
  stretched : Bool
  yielded : Bool
  preempt : Bool
  fetch : FMap Nat
  lastLine : Option Nat
  seq : Nat
  keptStretch : Bool := false
  notBefore : Nat := 0
  ended : Option Bool := none
  holdNext : Bool := false
  awaits : Option (Nat × Nat) := none
  first : Nat := 0
  notified : Bool := false
  nextWant : Option Nat := none
  fell : List (Nat × Nat) := []
  issuedAt : Nat := 0
  inTick : Bool := false
  deriving DecidableEq, Repr

/-! ## The engines and queues of a core -/

/-- The atomic operations of R152, `fadd` of R160, compare-and-swap and plain writes. -/
inductive AtomicOp where
  | add | and | or | xor | xchg | minI | maxI | minN | maxN | fadd | cas
  deriving DecidableEq, Repr

/-- One lane of a global access: its address, bytes, operand and, for CAS, the expected value. -/
structure LaneAcc where
  lane : Nat
  pa : Pa
  ms : Bool
  n : Nat
  x : Nat
  e : Nat
  deriving DecidableEq, Repr

/-- What an asynchronous M operation is (R144, R161, R162). -/
inductive AsyncKind where
  | load | atomic | fill | fence
  deriving DecidableEq, Repr

/-- An asynchronous M operation of a warp that has not landed (R144). `todo` are lane reads not yet performed, `got` the values
read, `acq` the scope of an acquire, `rel` the release marker a full fence still waits for, `since` the cycle of its acceptance (R408). -/
structure AsyncOp where
  id : Nat
  slot : Nat
  seq : Nat
  tick : Nat
  kind : AsyncKind
  flag : Option Nat
  dest : Dest
  n : Nat
  acq : Option Scope
  rel : Option Nat
  todo : List LaneAcc
  got : FMap Nat
  err : Option Nat
  addr : DWord
  dead : Bool
  since : Nat := 0
  deriving DecidableEq, Repr

/-- An entry of the release FIFO: what one operation writes to one line (R157, R367). `lanes` and `bytes` are what is still to be performed of it, `whole`
says that it covers the line (R384), `since` is the cycle of its acceptance (R408), and `begun` says that some event of it has been performed (R426). -/
structure FifoEntry where
  seq : Nat
  op : Nat
  slot : Nat
  wseq : Nat
  line : Pa
  ms : Bool
  kind : Option AtomicOp
  spill : Bool
  bytes : List Host.Cell
  lanes : List LaneAcc
  sent : Bool
  whole : Bool := false
  since : Nat := 0
  begun : Bool := false
  deriving DecidableEq, Repr

/-- A release marker (R161). -/
structure Marker where
  seq : Nat
  slot : Nat
  wseq : Nat
  scope : Scope
  op : Option Nat
  flag : Option Nat
  deriving DecidableEq, Repr

/-- A posted operation whose flag falls when its last line is performed, and the cause that a line of it has met (R159, R328, R408). -/
structure Posted where
  id : Nat
  slot : Nat
  flag : Nat
  addr : DWord
  wseq : Nat
  err : Option Nat := none
  deriving DecidableEq, Repr

/-- A place an engine step reads or writes: scratchpad of a block, global memory, or an accumulator element. -/
inductive Loc where
  | sp (block off : Nat)
  | glob (pa : Pa) (ms : Bool)
  | acc (tile elem : Nat)
  | nowhere
  deriving DecidableEq, Repr

/-- One unit of a copy (R180, R187 to R190, R204, R211): `n` bytes from `src` to `dst`, padded with zeros to `m` bytes;
`bad` when its source failed (R384). -/
structure CopyUnit where
  src : Loc
  dst : Loc
  n : Nat
  m : Nat
  data : Option Nat
  done : Bool
  bad : Bool := false
  deriving DecidableEq, Repr

/-- A stream descriptor as an operation captured it (R169, R192 to R197). -/
structure StreamCap where
  n : Nat
  w0 : DWord
  w1 : DWord
  w3 : DWord
  deriving DecidableEq, Repr

/-- How far an X operation is (R184): `sent` is an `xtile` on its way to another device, whose answer is still to come (R201); `written` one whose
scratchpad step holds its banks until `finish` (R361). -/
inductive XStage where
  | queued | started | performed | sent | written
  deriving DecidableEq, Repr

/-- An X-slot operation in its queue (R177 to R185): `instr` is the slot, the scalars are those captured at issue, `operands` the two
words of each active lane of `cpa`, `live` the summary word then (R347), `begun` the cycle in which it started (R424). -/
structure XOp where
  id : Nat
  slot : Nat
  block : Nat
  wseq : Nat
  instr : Instr
  flag : Nat
  dst : DWord
  src : DWord
  len : DWord
  len2 : DWord
  arrive : Option Nat
  sa : StreamCap
  sb : StreamCap
  stage : XStage
  tile : Bool
  units : List CopyUnit
  operands : FMap Nat
  claimA : List Nat
  claimB : List Nat
  tx : Option Nat
  ranks : List Nat
  finish : Nat
  steps : Nat
  evs : BitVec 8
  err : Option Nat
  addr : DWord
  dead : Bool
  live : Nat := 0
  begun : Nat := 0
  deriving DecidableEq, Repr

/-- The tile engine's pace (R208, R209, R380, R381). -/
inductive Ramp where
  /-- idle: a start needs a grant -/
  | idle
  /-- a grant is requested since this cycle -/
  | requested (cycle : Nat)
  /-- granted or streaming: the ramp level in quarters (1 to 4), the cycles done at it, and the cycle of the last streaming step -/
  | moving (level : Nat) (at' : Nat) (last : Nat)
  /-- filler: the same, and the cycle in which the queue emptied -/
  | filler (level : Nat) (at' : Nat) (last : Nat) (empty : Nat)
  deriving DecidableEq, Repr

/-- A line of the read-only L1 (R154): its bytes as a number, first byte lowest, or the cause its fill met (R384, R408). -/
structure L1Line where
  pa : Pa
  data : Nat
  err : Option Nat
  deriving DecidableEq, Repr

/-- A line of the instruction cache or a fetch buffer (R365, R366). -/
structure ILine where
  asid : Nat
  va : Nat
  data : Nat
  deriving DecidableEq, Repr

/-- An enqueue of `tsub` waiting in the core, or with its card; `core` holds its release marker, and `slot` and `wseq` tell its warp (R239, R290,
R293, R319); `kept` says that the scheduler holds it for a card that is complete, so that it takes no entry of the core's buffer (R239, R308). -/
structure Enqueue where
  queue : Nat
  card : DWord
  marker : Option Nat
  core : Nat := 0
  slot : Nat := 0
  wseq : Nat := 0
  kept : Bool := false
  deriving DecidableEq, Repr

/-- The bank-conflict control registers and the last snapshot (R363, R364); `pend` is a pop whose snapshot is due: its cycle, slot and depth. -/
structure BankCtl where
  en : Bool
  snapen : Bool
  snapdepth : Nat
  cycle : Nat
  seq : Nat
  slot : Nat
  depth : Nat
  pend : Option (Nat × Nat × Nat)
  deriving DecidableEq, Repr

/-- The state of one core (R10, R11, R24, R154, R157, R177, R239, R352, R363, R365). `issued` is the last cycle in which a bundle issued, and the
highest vector pipe that issued in it (R150); `clearing` holds the areas that blocks left, by base, bytes and the first cycle in which
each can be clear (R360); `held` gives the first cycle in which each scratchpad bank in use is free (R361), and `waits`, by counter
(128 q + b), the first cycle in which no access of requester q waits at bank b any longer (R362). -/
structure CoreSt where
  warps : FMap Warp
  split : Option Nat
  clearing : List (Nat × Nat × Nat)
  grantee : Option Nat
  streams : FMap DWord
  released : List (Nat × Nat)
  accs : FMap (BitVec 128)
  ops : List AsyncOp
  fifo : List FifoEntry
  markers : List Marker
  posted : List Posted
  xops : List XOp
  ramp : Ramp
  l1 : List L1Line
  l1want : List Pa
  icache : List ILine
  iwant : List (Nat × Nat)
  tlb : List TlbEntry
  enq : List Enqueue
  counters : FMap Nat
  snapshot : FMap Nat
  bank : BankCtl
  next : Nat
  cycle0 : Nat
  issued : Option (Nat × Nat) := none
  held : FMap Nat := []
  waits : FMap Nat := []
  deriving DecidableEq, Repr

/-! ## Blocks, tasks and cards -/

/-- A barrier (R228): the arrivals (by warp identity core·32 + slot), form and count when fixed, and the generation. -/
structure Barrier where
  arrived : List Nat
  form : Option (Option Nat)
  gen : Nat
  deriving DecidableEq, Repr

/-- A resident block (R8, R9, R359): its scratchpad holds the bytes that are not zero; `warps` are its resident slots, and every FIFO
entry of its warps that are gone has an acceptance number below `last`. `gone` names those warps by core, slot, and the first and the last of their
places in program order (R290). -/
structure Block where
  core : Nat
  base : Nat
  size : Nat
  grank : Nat
  task : Nat
  warps : List Nat
  sp : List Host.Cell
  bars : FMap Barrier
  preempt : Bool
  last : Nat
  gone : List (Nat × Nat × Nat × Nat) := []
  deriving DecidableEq, Repr

/-- A block of a pre-empted gang, as its context holds it (R345 to R348). -/
structure SavedBlock where
  block : Block
  area : Nat
  warps : FMap Warp
  xops : List XOp
  streams : FMap DWord
  accs : FMap (BitVec 128)
  grant : Bool
  restart : Bool
  formerCore : Nat
  deriving DecidableEq, Repr

/-- A task and its gang (R8, R298): the chunk, the cursor of `targ`, the cluster barriers and the blocks. `lastTake` is the cycle, GRANK and
vector pipe of the last take of `targ` (R240). -/
structure Task where
  card : Nat
  number : Nat
  first : Nat
  count : Nat
  taken : Nat
  cluster : Bool
  blocks : List Nat
  cbars : FMap Barrier
  placed : Bool
  saved : List SavedBlock
  killed : Bool
  squashed : Bool
  ready : Nat
  handler : DWord
  fdom : Nat
  lastTake : Option (Nat × Nat × Nat) := none
  deriving DecidableEq, Repr

/-- A role of a kernel descriptor (R68). -/
structure Role where
  entry : Nat
  role : Nat
  k : Nat
  budget : Nat
  warps : Nat
  deriving DecidableEq, Repr

/-- The fields of a kernel descriptor that a card uses (R68). -/
structure Kernel where
  scratch : Nat
  split : Nat
  cluster : Bool
  streams : Nat
  tile : Bool
  recomp : Nat
  restart : Option Nat
  roles : List Role
  deriving DecidableEq, Repr

/-- A footprint of an admitted card (R295). -/
structure Footprint where
  base : Nat
  bytes : Nat
  rd : Bool
  wr : Bool
  pred : Bool
  predictor : Nat
  reln : Nat
  outl : Nat
  abs : Nat
  vrd : Nat
  deriving DecidableEq, Repr

/-- The speculation states of R317; `plain` is a card that is not speculative. -/
inductive Spec where
  | plain | drafting | running | committed
  deriving DecidableEq, Repr

/-- A shadow page of a speculative card (R316). -/
structure Shadow where
  va : Nat
  size : Nat
  page : Nat
  real : Nat
  deriving DecidableEq, Repr

/-- A draft in use (R313): region descriptor, version, predictor and the pages that hold it. -/
structure Draft where
  vrd : Nat
  version : Nat
  predictor : Nat
  page : Nat
  bytes : Nat
  die : Nat
  written : Bool
  deriving DecidableEq, Repr

/-- A card in a scheduler's window (R294, R300, R317). `edges` are the cards that it waits for; `drafts` gives the draft
version of each footprint that reads one, and `passed` those that have passed; `chained` its chained sources; `banned` the (VRD, VERSION) pairs of R318; `aged` the whole periods of R305; `finished` says
that its regions have flipped (R311), and `failed` that a squash is due (R318). -/
structure Card where
  id : Nat
  addr : DWord
  queue : Nat
  seq : Nat
  die : Nat
  rcb : Nat
  domain : Nat
  asid : Nat
  kernel : Kernel
  kdesc : Nat
  code : DWord
  bothDies : Bool
  lanes : Nat
  scratch : Nat
  split : Nat
  argBase : DWord
  argStride : Nat
  argCount : Nat
  chMin : Nat
  chMax : Nat
  doneAddr : DWord
  doneVal : DWord
  doneFlags : Nat
  msix : Nat
  user : List DWord
  fps : List Footprint
  edges : List Nat
  dealt : Nat
  tasksDealt : Nat
  readyAt : Nat
  aged : Nat
  spec : Spec
  depth : Nat
  drafts : FMap Nat
  chained : List Nat
  passed : List Nat
  banned : List (Nat × Nat)
  views : FMap Nat
  shadows : List Shadow
  ringCopy : Bool
  buffered : List Enqueue
  finished : Bool
  failed : Bool
  deriving DecidableEq, Repr

/-- One override of a view (R312, R355). -/
structure Override where
  die : Nat
  view : Nat
  va : Nat
  size : Nat
  page : Nat
  deriving DecidableEq, Repr

/-- The scheduler's copy of an RCB (R287, R288). -/
structure Rcb where
  parent : Nat
  ovr : Nat
  prio : Nat
  spec : Bool
  det : Bool
  tsig : Bool
  depth : Nat
  cores : Nat
  cards : Nat
  spbytes : Nat
  fdom : Nat
  aspace : Nat
  handler : DWord
  tkey : Nat
  owner : Nat
  deriving DecidableEq, Repr

/-! ## Tile transactions, monitors and logs -/

/-- The phase of one line's lock (R263, R265). -/
inductive LockPhase where
  | wanted | granted | queued | denied | closed
  deriving DecidableEq, Repr

/-- A tile transaction (R263 to R265): requester `req`, the X operation it serves, and the phase of each line; `stamped` says that it has
its timestamp, and `lens` gives the bytes of each row of a port's tile (R268, R406). -/
structure Tx where
  id : Nat
  ts : Nat
  req : Nat
  store : Bool
  core : Nat
  op : Nat
  port : Option (Nat × Nat)
  lines : FMap LockPhase
  rows : List (Pa × Nat)
  attempt : Nat
  resume : Nat
  lens : List Nat := []
  stamped : Bool := false
  deriving DecidableEq, Repr

/-- A monitor entry (R235, R370), with the cycle in which its timeout passes. -/
structure Monitor where
  core : Nat
  slot : Nat
  pa : Nat
  n : Nat
  cond : Nat
  v : DWord
  deadline : Option Nat := none
  deriving DecidableEq, Repr

/-- The access-log registers of a slice (R371). -/
structure SliceLog where
  full : Bool
  wrap : Bool
  en : Bool
  base : Nat
  size : Nat
  wp : Nat
  lo : Nat
  hi : Nat
  ops : Nat
  reqmask : Nat
  reqmatch : Nat
  drop : Nat
  deriving DecidableEq, Repr

/-- A shootdown in progress (R353). -/
structure Shoot where
  id : Nat
  func : Option Nat
  asid : Nat
  view : Option Nat
  va : Nat
  bytes : Nat
  waitOps : List (Nat × Nat)
  waitTx : List Nat
  deriving DecidableEq, Repr

/-! ## Host side, firmware and management -/

/-- An event for a function's event area (R402, R403). -/
structure Event where
  kind : Nat
  fdom : Nat
  aspace : Nat
  words : List DWord
  warp : Option (Nat × Nat)
  deriving DecidableEq, Repr

/-- A function block with its mailbox, doorbells and events (R391, R392, R396, R402), and what the model holds of its PCI Express configuration:
MSI-X pending bits, base addresses, the size of BAR2 as a power of two in MiB, D3hot, the AER status, and the other words of its capability structures
that software writes, by offset (R389, R390; log 83). -/
structure Func where
  fstatus : Nat
  status : Nat
  busy : Bool
  dropped : Nat
  evtbase : Nat
  data : Nat
  doors : FMap Nat
  held : List Event
  next : Nat
  msix : FMap Nat
  asked : FMap (Nat × Nat)
  pba : Nat := 0
  bars : FMap Nat := []
  barSize : Nat := 19
  d3hot : Bool := false
  aer : Nat := 0
  caps : FMap Nat := []
  deriving DecidableEq, Repr

/-- A command processor (R409 to R411): `csrs` holds the standard CSRs that differ from their reset value, `mode` the privilege mode (3 is M, 1 is
S, 0 is U). -/
structure Cp where
  csrs : FMap Nat
  mie : Nat
  mip : Nat
  doors : List Nat
  mbox : List Nat
  req : Bool
  ack : Bool
  beat : Nat
  timecmp : Nat
  mode : Nat := 3
  pc : Nat := 0
  deriving DecidableEq, Repr

/-- A loaded object (R399). -/
structure Obj where
  handle : Nat
  asid : Nat
  base : Nat
  kernels : Nat
  nkernels : Nat
  code : Nat
  func : Nat
  deriving DecidableEq, Repr

/-- A speculation pool page set of a die (R313): base, bytes and the pages taken. -/
structure Pool where
  base : Nat
  bytes : Nat
  taken : List (Nat × Nat)
  deriving DecidableEq, Repr

/-- A tile being reassembled at a port (R406). -/
structure Reasm where
  src : Nat
  tag : Nat
  rows : List (Nat × Nat × Nat)
  since : Nat
  deriving DecidableEq, Repr

/-- A request that a link carries to another device: the port it leaves through and the core it comes from, 0 for the command processors and the
management core (R404, R405). -/
structure LinkMsg where
  dst : Nat
  port : Nat
  core : Nat
  req : PodRequest
  deriving DecidableEq, Repr

/-- The answer of a port to an inbound request: the asking device, a class-13 cause or 0, and data read (R406 to R408). -/
structure PodReply where
  dst : Nat
  cause : Nat
  data : Nat
  deriving DecidableEq, Repr

/-- A firmware image in a slot (R412, R417). -/
structure Image where
  kind : Nat
  secver : Nat
  raise : Bool
  hash : Nat
  addr : Nat
  entry : Nat
  deriving DecidableEq, Repr

/-- The starts of the device (R420 to R422) and the firmware swap (R417): `leaf` and `svc` are the fuses, `images` by 4 × slot + kind,
`req` a warm start asked for and its PRESERVE, `ident` whether this session has an identity leaf, `warm` that the
start under way is a warm one. -/
structure Boot where
  step : Nat
  fail : Nat
  tries : Nat
  safe : Bool
  ready : Bool
  starts : Nat
  leaf : Nat
  reports : Nat
  svc : Nat
  slot : Nat
  clean : Bool
  images : FMap Image
  swapping : Option Nat
  swapFunc : Nat
  since : Nat
  req : Option Bool
  ident : Bool
  warm : Bool
  deriving DecidableEq, Repr

/-- What DUMP_SET designates (R397, R426). -/
structure DumpSet where
  addr : Nat
  bytes : Nat
  sections : Nat
  ranges : List (Nat × Nat)
  deriving DecidableEq, Repr

/-- What TRACE_SET names, and the records written (R431). -/
structure TraceSet where
  base : Nat
  bytes : Nat
  kinds : Nat
  written : Nat
  deriving DecidableEq, Repr

/-- The trap save area of an escalated warp, kept for a dump (R341). -/
structure KeptArea where
  core : Nat
  asid : Nat
  view : Nat
  tsa : Nat
  words : Nat
  deriving DecidableEq, Repr

/-- What the handover block names (R418): the running slot, the root RCBs, the next slot and the held events of each function, the commands and
services not answered, the settings, and the ladder. -/
structure Handover where
  slot : Nat
  roots : List Nat
  events : FMap (Nat × List Event)
  mbox : List Nat
  sysc : List (Nat × Nat)
  dump : Option DumpSet
  trace : Option (Nat × Nat × Nat)
  pools : FMap (Nat × Nat)
  rung : FMap Nat
  deriving DecidableEq, Repr

/-- Where firmware keeps its structures in HBM, and `slots`, the virtual address from which it assigns trap save areas (R291, R333, R398,
R400, R401, R412, R418; log 8). -/
structure FwBases where
  queues : Nat
  aspaces : Nat
  msmap : Nat
  rcbs : Nat
  rcbNext : Nat
  handover : Nat
  faultLog : Nat
  faultNext : Nat
  slots : Nat
  images : Nat
  deriving DecidableEq, Repr

/-- The whole device. `stamps` holds the cycle of each requester's last tile timestamp (R264), and `reset0` the cycle of the last device
reset, from which the device tile clock counts (R264, R373); `l2` gives the lines that each L2 slice holds, true for a dirty one (R368),
`rung1` holds the commands that rung 1 has issued again, by command processor, with the cycle of each (R424), `queues` are the queues that firmware has set up since the last loss of all work (R291, R421, R424), `l2tlb` is the L2 TLB of each die and `walks` its walker's queue, by core, address space, view and address (R352), and `tamperAt` the cycle in which each
cluster's Tamper pointer last advanced (R380). -/
structure State where
  cycle : Nat
  agenda : List (Nat × Instr)
  cur : Option (Nat × Nat)
  turn : Nat
  fresh : Nat
  hbm : Memory
  host : List Host.Cell
  poison : FMap Nat
  faulty : List ErrSite
  cores : FMap CoreSt
  blocks : FMap Block
  tasks : FMap Task
  cards : List Card
  nextId : Nat
  overrides : List Override
  drafts : List Draft
  pools : FMap Pool
  reserved : FMap (Nat × Nat)
  rcbs : FMap Rcb
  txs : List Tx
  starved : FMap (List Nat)
  monitors : List Monitor
  tampers : FMap Nat
  grants : FMap (Nat × Nat)
  slices : FMap SliceLog
  shoots : List Shoot
  funcs : FMap Func
  msi : List (Nat × Nat)
  cps : FMap Cp
  bar2 : Nat
  busData : DWord
  counters : FMap Nat
  routes : FMap Nat
  boot : Boot
  devid : Nat
  podallow : Nat
  ports : FMap Bool
  reasm : FMap Reasm
  linkOut : List LinkMsg
  replies : List PodReply
  objs : List Obj
  dump : Option DumpSet
  trace : Option TraceSet
  debugStops : FMap Nat
  rung : FMap Nat
  fw : FwBases
  stamps : FMap Nat := []
  reset0 : Nat := 0
  l2tlb : FMap (List TlbEntry) := []
  walks : FMap (List (Nat × Nat × Nat × Nat)) := []
  l2 : FMap (FMap Bool) := []
  tamperAt : FMap Nat := []
  areas : List KeptArea := []
  hand : Option Handover := none
  queues : List Nat := []
  rung1 : FMap Nat := []
  deriving DecidableEq, Repr

/-- Why the machine stops with a fault. -/
inductive Fault where
  /-- Raised by `exec` of a slot instruction when no warp is issuing: the spec gives a slot instruction no meaning outside the
  issue of a warp's bundle. Safe: no step of the machine reaches it. -/
  | noIssuingWarp
  deriving DecidableEq, Repr

/-- Why an instruction is refused. -/
inductive Refusal where
  /-- The instruction has no meaning in the model yet; raised by its arm of `exec`. Safe: the machine stops. -/
  | notModelled (mnemonic : String)
  deriving DecidableEq, Repr

/-- The outcome of an instruction. -/
abbrev Out := Host.Outcome State Fault Refusal

/-! ## Reset -/

/-- Bank-conflict control at reset: counting off (R363). -/
def BankCtl.reset : BankCtl := ⟨false, false, 0, 0, 0, 0, 0, none⟩

/-- A core at reset: nothing resident, every structure empty. -/
def CoreSt.reset : CoreSt :=
  { warps := [], split := none, clearing := [], grantee := none, streams := [], released := [], accs := [], ops := [], fifo := [],
    markers := [], posted := [], xops := [], ramp := .idle, l1 := [], l1want := [], icache := [], iwant := [], tlb := [],
    enq := [], counters := [], snapshot := [], bank := BankCtl.reset, next := 0, cycle0 := 0 }

/-- A function block at reset (R392; the PCI Express registers by that standard, log 83). -/
def Func.reset : Func :=
  { fstatus := 0, status := 0, busy := false, dropped := 0, evtbase := 0, data := 0, doors := [], held := [], next := 0, msix := [], asked := [] }

/-- A command processor at reset (R410, R411; log 9). -/
def Cp.reset : Cp := { csrs := [], mie := 0, mip := 0, doors := [], mbox := [], req := false, ack := false, beat := 0, timecmp := 0 }

/-- The access log of a slice at reset (R371). -/
def SliceLog.reset : SliceLog := ⟨false, false, false, 0, 0, 0, 0, 0, 0, 0, 0, 0⟩

/-- The boot state at reset: no step made (R392, R420). -/
def Boot.reset : Boot := ⟨0, 0, 0, false, false, 0, 0, 0, 0, 0, false, [], none, 0, 0, none, false, false⟩

/-- The firmware's structures at reset (log 8). -/
def FwBases.reset : FwBases :=
  { queues := 0x7F_F000_0000, aspaces := 0x7F_F010_0000, msmap := 0x7F_F020_0000, rcbs := 0x7F_F040_0000,
    rcbNext := 0x7F_F040_0000, handover := 0x7F_F080_0000, faultLog := 0x7F_F090_0000, faultNext := 0, slots := 0x7F_F100_0000,
    images := 0x7F_F200_0000 }

/-- The device right after reset. -/
def State.reset : State :=
  { cycle := 0, agenda := [], cur := none, turn := 0, fresh := 0, hbm := ⟨[], 0⟩, host := [], poison := [], faulty := [], cores := [], blocks := [],
    tasks := [], cards := [], nextId := 0, overrides := [], drafts := [], pools := [], reserved := [], rcbs := [], txs := [],
    starved := [], monitors := [], tampers := [], grants := [], slices := [], shoots := [], funcs := [], msi := [],
    cps := [], bar2 := 0, busData := 0, counters := [], routes := [], boot := Boot.reset, devid := 0, podallow := 0, ports := [],
    reasm := [], linkOut := [], replies := [], objs := [], dump := none, trace := none, debugStops := [], rung := [],
    fw := FwBases.reset }

end Sys2Proof.Machine
end

