-- ==== Sys2Proof/Machine/Maps.lean ====
section
/-! DEFINITION. Sorted maps and the canonical list of bytes: the operations every memory of the model goes through. -/

namespace Sys2Proof.Machine

/-! ## Values by key -/

/-- The value at a key: that of its first entry. -/
def FMap.find {β : Type} : FMap β → Nat → Option β
  | [], _ => none
  | (k', v) :: m, k => if k' = k then some v else FMap.find m k

/-- The value at a key, or `d`. -/
def FMap.getD {β : Type} (m : FMap β) (k : Nat) (d : β) : β := (FMap.find m k).getD d

/-- The map without a key. -/
def FMap.erase {β : Type} (m : FMap β) (k : Nat) : FMap β := m.filter fun p => p.1 ≠ k

/-- The map with a value at a key: in place where the key is there, else before the first greater key. -/
def FMap.set {β : Type} : FMap β → Nat → β → FMap β
  | [], k, v => [(k, v)]
  | (k', v') :: m, k, v =>
    if k' = k then (k, v) :: m
    else if k < k' && (FMap.find m k).isNone then (k, v) :: (k', v') :: m
    else (k', v') :: FMap.set m k v

/-- Set a value, keeping no entry that equals the default. -/
def FMap.put {β : Type} [DecidableEq β] (m : FMap β) (k : Nat) (v d : β) : FMap β :=
  if v = d then FMap.erase m k else FMap.set m k v

/-- Change the value at a key, if there is one. -/
def FMap.adjust {β : Type} (m : FMap β) (k : Nat) (f : β → β) : FMap β :=
  match FMap.find m k with
  | some v => FMap.set m k (f v)
  | none => m

/-- Keys strictly rise. -/
def FMap.ordered {β : Type} : FMap β → Bool
  | [] => true
  | [_] => true
  | (a, _) :: (b, y) :: m => decide (a < b) && FMap.ordered ((b, y) :: m)

/-! ## Bytes -/

/-- The byte at an address; `d` is what an unlisted address reads as. -/
def byteAt (d : Nat → Byte) (l : List Host.Cell) (a : Nat) : Byte := (FMap.find l a).getD (d a)

/-- Write one byte, keeping the canonical form. -/
def putByte (d : Nat → Byte) (l : List Host.Cell) (a : Nat) (b : Byte) : List Host.Cell :=
  if b = d a then FMap.erase l a else FMap.set l a b

/-- `n` bytes from an address as one little-endian number (R3). -/
def getBytes (d : Nat → Byte) (l : List Host.Cell) (a : Nat) : Nat → Nat
  | 0 => 0
  | n + 1 => (byteAt d l a).toNat + 256 * getBytes d l (a + 1) n

/-- Write the low `n` bytes of a number at an address, little-endian (R3). -/
def putBytes (d : Nat → Byte) (l : List Host.Cell) (a : Nat) : Nat → Nat → List Host.Cell
  | 0, _ => l
  | n + 1, v => putBytes d (putByte d l a (BitVec.ofNat 8 v)) (a + 1) n (v / 256)

/-- Write listed bytes in order. -/
def putCells (d : Nat → Byte) (l : List Host.Cell) : List Host.Cell → List Host.Cell
  | [] => l
  | (a, b) :: cs => putCells d (putByte d l a b) cs

/-- The canonical form of a list of bytes: addresses strictly rise, and no entry equals what an unlisted address reads as. -/
def cellsWf (d : Nat → Byte) (l : List Host.Cell) : Bool := FMap.ordered l && l.all fun c => c.2 != d c.1

/-- The byte of scratchpad that nothing has written (R360). -/
def zeroByte : Nat → Byte := fun _ => 0

/-- What an unlisted byte of device memory reads as (R420, R421). -/
def Memory.dflt (m : Memory) (a : Nat) : Byte := if m.epoch = 0 then 0 else Config.hbmByte m.epoch a

/-- One byte of device memory. -/
def Memory.byte (m : Memory) (a : Nat) : Byte := byteAt m.dflt m.cells a

/-- Bytes of device memory as a number. -/
def Memory.get (m : Memory) (a n : Nat) : Nat := getBytes m.dflt m.cells a n

/-- Write bytes of device memory. -/
def Memory.put (m : Memory) (a n v : Nat) : Memory := { m with cells := putBytes m.dflt m.cells a n v }

/-- Write listed bytes of device memory. -/
def Memory.putCells (m : Memory) (cs : List Host.Cell) : Memory :=
  { m with cells := Sys2Proof.Machine.putCells m.dflt m.cells cs }

/-- Device memory has its canonical form. -/
def Memory.wf (m : Memory) : Bool := cellsWf m.dflt m.cells

end Sys2Proof.Machine
end

