-- ==== Sys2Proof/Machine/Access.lean ====
section
/-! DEFINITION. Reading and writing the parts of the state: cores, warps, blocks, tasks, cards, functions. -/

namespace Sys2Proof.Machine

/-- A core; one with nothing listed is as at reset. -/
def State.core (s : State) (c : Nat) : CoreSt := FMap.getD s.cores c CoreSt.reset
/-- Write a core. -/
def State.setCore (s : State) (c : Nat) (x : CoreSt) : State := { s with cores := FMap.set s.cores c x }
/-- Change a core. -/
def State.modCore (s : State) (c : Nat) (f : CoreSt → CoreSt) : State := s.setCore c (f (s.core c))
/-- A resident warp. -/
def State.warp? (s : State) (c k : Nat) : Option Warp := FMap.find (s.core c).warps k
/-- Write a resident warp. -/
def State.setWarp (s : State) (c k : Nat) (w : Warp) : State := s.modCore c fun x => { x with warps := FMap.set x.warps k w }
/-- Change a resident warp, if there is one. -/
def State.modWarp (s : State) (c k : Nat) (f : Warp → Warp) : State :=
  match s.warp? c k with
  | some w => s.setWarp c k (f w)
  | none => s
/-- The die of a core (R374). -/
def dieOf (c : Nat) : Nat := c / 80
/-- The cluster of a core (R15). -/
def clusterOf (c : Nat) : Nat := c / 8
/-- The identity of a warp among all warps. -/
def warpId (c k : Nat) : Nat := c * 32 + k

/-- A block. -/
def State.block? (s : State) (b : Nat) : Option Block := FMap.find s.blocks b
/-- Change a block. -/
def State.modBlock (s : State) (b : Nat) (f : Block → Block) : State := { s with blocks := FMap.adjust s.blocks b f }
/-- Change a task. -/
def State.modTask (s : State) (t : Nat) (f : Task → Task) : State := { s with tasks := FMap.adjust s.tasks t f }
/-- A card by its identity. -/
def State.card? (s : State) (i : Nat) : Option Card := s.cards.find? (·.id = i)
/-- Change a card. -/
def State.modCard (s : State) (i : Nat) (f : Card → Card) : State :=
  { s with cards := s.cards.map fun c => if c.id = i then f c else c }
/-- The card of a block. -/
def State.cardOfBlock (s : State) (b : Nat) : Option Card :=
  (s.block? b).bind fun x => (FMap.find s.tasks x.task).bind fun t => s.card? t.card

/-- A function block; one with nothing listed is as at reset. -/
def State.func (s : State) (f : Nat) : Func := FMap.getD s.funcs f Func.reset
/-- Change a function block. -/
def State.modFunc (s : State) (f : Nat) (g : Func → Func) : State := { s with funcs := FMap.set s.funcs f (g (s.func f)) }
/-- A command processor. -/
def State.cp (s : State) (n : Nat) : Cp := FMap.getD s.cps n Cp.reset
/-- Change a command processor. -/
def State.modCp (s : State) (n : Nat) (g : Cp → Cp) : State := { s with cps := FMap.set s.cps n (g (s.cp n)) }
/-- Change every command processor. -/
def State.modCps (s : State) (g : Cp → Cp) : State := (List.range 8).foldl (fun s n => s.modCp n g) s
/-- The access log of a slice. -/
def State.slice (s : State) (i : Nat) : SliceLog := FMap.getD s.slices i SliceLog.reset
/-- Change the access log of a slice. -/
def State.modSlice (s : State) (i : Nat) (g : SliceLog → SliceLog) : State := { s with slices := FMap.set s.slices i (g (s.slice i)) }
/-- Count one event in an SMC counter, which saturates (R434). -/
def State.count (s : State) (i : Nat) : State :=
  let n := FMap.getD s.counters i 0
  { s with counters := FMap.set s.counters i (min (n + 1) (2 ^ 64 - 1)) }
/-- A value the spec leaves open: the next of `Config.free`. -/
def State.freeVal (s : State) : Nat × State := (Config.free s.fresh, { s with fresh := s.fresh + 1 })
/-- The reset value of a word of an MSI-X table: every vector is masked (PCI Express, log 83). -/
def msixReset (i : Nat) : Nat := i % 2 * 2 ^ 32
/-- The word of the MSI-X capability: bit 31 enables MSI-X, bit 30 masks every vector of the function (R389; PCI Express, log 83). -/
def Func.msixControl (x : Func) : Nat := FMap.getD x.caps 0x50 0
/-- Whether a vector of a function is masked: by its own bit, by the function's, or because MSI-X is not enabled or the function is in D3hot (R389,
R391). -/
def Func.masked (x : Func) (v : Nat) : Bool :=
  bit (FMap.getD x.msix (2 * v + 1) (msixReset 1)) 32 || bit x.msixControl 30 || !bit x.msixControl 31 || x.d3hot
/-- Whether the host reaches a function's block: a VF in D3hot answers no access; the PF's offsets are also those of the command processors
(R389 to R391; log 83). -/
def State.reaches (s : State) (f : Nat) : Bool := f = 0 || !(s.func f).d3hot
/-- Signal an MSI-X vector of a function (R395); a masked one is pending (R391). -/
def State.signal (s : State) (f v : Nat) : State :=
  if (s.func f).masked v then s.modFunc f fun x => { x with pba := x.pba ||| 2 ^ v } else { s with msi := s.msi ++ [(f, v)] }
/-- The scheduler event of a die's command processors (R410; which events raise it is the model's choice, log 85). -/
def State.schedEvent (s : State) (die : Nat) : State :=
  (List.range 4).foldl (fun s j => s.modCp (4 * (die % 2) + j) fun p => { p with mip := p.mip ||| 2 ^ 18 }) s
/-- Set bits of FSTATUS (R392). -/
def State.setStatus (s : State) (f bit : Nat) : State :=
  s.modFunc f fun x => { x with fstatus := x.fstatus ||| 2 ^ bit }
/-- Whether command-processor firmware serves: it is ready and not paused for a swap (R417). -/
def State.serving (s : State) : Bool := s.boot.ready && s.boot.swapping.isNone
/-- No driver's answer is awaited for a warp any more. -/
def State.forget (s : State) (c k : Nat) : State :=
  { s with funcs := s.funcs.map fun p => (p.1, { p.2 with
      asked := p.2.asked.filter fun q => q.2 ≠ (c, k)
      held := p.2.held.map fun e => if e.warp = some (c, k) then { e with warp := none } else e }) }
/-- A fresh identity for a card, task, block, transaction or operation. -/
def State.newId (s : State) : Nat × State := (s.nextId, { s with nextId := s.nextId + 1 })

/-- Lanes of a warp's width (R8). -/
def Warp.width (w : Warp) : Nat := 32 * w.k
/-- The summary word: bit i is 1 exactly when mask word i is nonzero (R12). -/
def summaryOf (m : LaneMask) (k : Nat) : Nat :=
  (List.range k).foldl (fun a i => a + if bits m.toNat (32 * i + 31) (32 * i) ≠ 0 then 2 ^ i else 0) 0
/-- The summary word of a warp. -/
def Warp.summary (w : Warp) : Nat := summaryOf w.mask w.k
/-- The cycles one tick takes: the set bits of the summary word, at least one (R17). -/
def Warp.tickCycles (w : Warp) : Nat := max 1 ((List.range w.k).filter fun i => w.summary.testBit i).length
/-- A scalar register; s0 reads 0 (R10). -/
def Warp.s (w : Warp) (r : Nat) : DWord := if r = 0 then 0 else FMap.getD w.sregs r 0
/-- Write a scalar register; s0 ignores writes (R10). -/
def Warp.setS (w : Warp) (r : Nat) (x : DWord) : Warp := if r = 0 then w else { w with sregs := FMap.put w.sregs r x 0 }
/-- One lane of a vector register. -/
def Warp.v (w : Warp) (r l : Nat) : Word := FMap.getD w.vregs (r * 1024 + l) 0
/-- Write one lane of a vector register. -/
def Warp.setV (w : Warp) (r l : Nat) (x : Word) : Warp := { w with vregs := FMap.put w.vregs (r * 1024 + l) x 0 }
/-- One lane of a lane predicate; vp0 is true (R10). -/
def Warp.vp (w : Warp) (i l : Nat) : Bool := i = 0 || w.vpred.getLsbD (1024 * i + l)
/-- Write one lane of a lane predicate; vp0 ignores writes (R10). -/
def Warp.setVp (w : Warp) (i l : Nat) (b : Bool) : Warp :=
  if i = 0 then w
  else
    let bit := BitVec.ofNat 8192 (2 ^ (1024 * i + l))
    { w with vpred := if b then w.vpred ||| bit else w.vpred &&& ~~~bit }
/-- A scalar predicate; sp0 is true (R10). -/
def Warp.sp (w : Warp) (i : Nat) : Bool := i = 0 || w.spred.getLsbD i
/-- Write a scalar predicate; sp0 ignores writes (R10). -/
def Warp.setSp (w : Warp) (i : Nat) (b : Bool) : Warp :=
  if i = 0 then w
  else { w with spred := if b then w.spred ||| BitVec.ofNat 8 (2 ^ i) else w.spred &&& ~~~ BitVec.ofNat 8 (2 ^ i) }
/-- A completion flag (R10). -/
def Warp.flag (w : Warp) (f : Nat) : Nat := FMap.getD w.flags f 0
/-- Whether lane `l` is live (R12). -/
def Warp.live (w : Warp) (l : Nat) : Bool := w.mask.getLsbD l
/-- The lanes of the width that are live, ascending. -/
def Warp.liveLanes (w : Warp) : List Nat := (List.range w.width).filter fun l => w.live l
/-- The guard of a V- or M-slot operation in a lane (R29, R33). -/
def Warp.guardV (w : Warp) (g : Guard) (l : Nat) : Bool := w.vp g.idx.val l != g.neg
/-- The guard of a C-slot operation (R212). -/
def Warp.guardS (w : Warp) (g : Guard) : Bool := w.sp g.idx.val != g.neg
/-- The active lanes under a guard, ascending (R29, R33 `Lanes`). -/
def Warp.lanesOf (w : Warp) (g : Guard) : List Nat := w.liveLanes.filter fun l => w.guardV g l

/-- Sign-extend the low `n` bits of a number to an integer (R33). -/
def signExt (x n : Nat) : Int := if x % 2 ^ n < 2 ^ (n - 1) then (x % 2 ^ n : Nat) else (x % 2 ^ n : Nat) - (2 ^ n : Nat)
/-- An integer as a number of `n` bits. -/
def toBits (x : Int) (n : Nat) : Nat := (x % (2 ^ n : Nat)).toNat
/-- Whether bits [63:52] equal bit 51 (R349). -/
def canonical (a : Nat) : Bool := bits a 63 52 = (if bit a 51 then 0xFFF else 0)

end Sys2Proof.Machine
end

