-- ==== Sys2Proof/Machine/Streams.lean ====
section
/-! DEFINITION. Stream descriptors and their ring pointers (R192 to R197). -/

namespace Sys2Proof.Machine

/-- A descriptor word of a core's streams (R166, R192). -/
def CoreSt.strm (x : CoreSt) (n w : Nat) : DWord := FMap.getD x.streams (n * 4 + w) 0
/-- Write a descriptor word. -/
def CoreSt.setStrm (x : CoreSt) (n w : Nat) (v : DWord) : CoreSt := { x with streams := FMap.put x.streams (n * 4 + w) v 0 }

/-- The fields of words 0, 1 and 3 of a descriptor (R192, R193, R195). -/
structure Desc where
  base : Nat
  len : Nat
  rows : Nat
  rb : Nat
  fmt : Nat
  s : Nat
  scs : Nat
  scb : Nat
  stride : Nat
  deriving DecidableEq, Repr

/-- Read the fields of words 0, 1 and 3. -/
def descOf (w0 w1 w3 : Nat) : Desc :=
  { base := bits w0 23 0, len := bits w0 29 24 + 1, rows := bits w0 37 32 + 1, rb := 16 * (bits w0 41 38 + 1), fmt := bits w0 45 42,
    s := match bits w1 41 40 with | 0 => 0 | 1 => 16 | 2 => 32 | _ => 64,
    scs := bits w1 39 24, scb := bits w1 23 0, stride := bits w3 31 0 }

/-- The descriptor of a stream as it is now. -/
def CoreSt.desc (x : CoreSt) (n : Nat) : Desc := descOf (x.strm n 0).toNat (x.strm n 1).toNat (x.strm n 3).toNat
/-- The fields an operation captured (R169). -/
def StreamCap.desc (a : StreamCap) : Desc := descOf a.w0.toNat a.w1.toNat a.w3.toNat
/-- Capture a descriptor. -/
def CoreSt.capture (x : CoreSt) (n : Nat) : StreamCap := ⟨n, x.strm n 0, x.strm n 1, x.strm n 3⟩

/-- The pointers of word 2 (R194). -/
def ptrFree (w2 : Nat) : Nat := bits w2 6 0
def ptrHead (w2 : Nat) : Nat := bits w2 14 8
def ptrTail (w2 : Nat) : Nat := bits w2 22 16
def ptrRsv (w2 : Nat) : Nat := bits w2 30 24
/-- Word 2 from its pointers. -/
def mkPtrs (free head tail rsv : Nat) : DWord := BitVec.ofNat 64 (free % 128 + head % 128 * 2 ^ 8 + tail % 128 * 2 ^ 16 + rsv % 128 * 2 ^ 24)

/-- `Dist` of R197. -/
def dist (len x y : Nat) : Nat := if x / 64 = y / 64 then y % 64 - x % 64 else len - x % 64 + y % 64
/-- `Advance` of R197. -/
def ringAdvance (len p n : Nat) : Nat :=
  let i := p % 64 + n
  if len ≤ i then (1 - p / 64 % 2) * 64 + (i - len) else p / 64 % 2 * 64 + i
/-- The pointer `n` slots on, and those before it: the slots a claim of `n` tiles takes. -/
def ringSlots (len p : Nat) : Nat → List Nat
  | 0 => []
  | n + 1 => p :: ringSlots len (ringAdvance len p 1) n

/-! The moves take LEN as the operation captured it (R169, R197). -/

/-- Tiles present and unclaimed (R194). -/
def CoreSt.present (x : CoreSt) (n len : Nat) : Nat :=
  let w := (x.strm n 2).toNat
  dist len (ptrHead w) (ptrTail w)

/-- Whether a push may reserve a slot (R197). -/
def CoreSt.ringRoom (x : CoreSt) (n len : Nat) : Bool :=
  let w := (x.strm n 2).toNat
  decide (dist len (ptrFree w) (ptrRsv w) < len)

/-- Claim `c` tiles (R197): the pointers of the claimed slots and the core. -/
def CoreSt.claim (x : CoreSt) (n len c : Nat) : List Nat × CoreSt :=
  let w := (x.strm n 2).toNat
  (ringSlots len (ptrHead w) c, x.setStrm n 2 (mkPtrs (ptrFree w) (ringAdvance len (ptrHead w) c) (ptrTail w) (ptrRsv w)))

/-- Reserve a slot for a push (R197): its pointer and the core. -/
def CoreSt.reserve (x : CoreSt) (n len : Nat) : Nat × CoreSt :=
  let w := (x.strm n 2).toNat
  (ptrRsv w, x.setStrm n 2 (mkPtrs (ptrFree w) (ptrHead w) (ptrTail w) (ringAdvance len (ptrRsv w) 1)))

/-- Complete the oldest push (R197). -/
def CoreSt.pushed (x : CoreSt) (n len : Nat) : CoreSt :=
  let w := (x.strm n 2).toNat
  x.setStrm n 2 (mkPtrs (ptrFree w) (ptrHead w) (ringAdvance len (ptrTail w) 1) (ptrRsv w))

/-- Advance FREE over released slots in ring order (R197). -/
def CoreSt.freeUp (n len : Nat) : Nat → CoreSt → CoreSt
  | 0, x => x
  | fuel + 1, x =>
    let w := (x.strm n 2).toNat
    if x.released.contains (n, ptrFree w) then
      CoreSt.freeUp n len fuel
        ({ x with released := x.released.erase (n, ptrFree w) }.setStrm n 2
          (mkPtrs (ringAdvance len (ptrFree w) 1) (ptrHead w) (ptrTail w) (ptrRsv w)))
    else x

/-- Release claimed slots (R197). -/
def CoreSt.release (x : CoreSt) (n len : Nat) (ps : List Nat) : CoreSt :=
  CoreSt.freeUp n len 64 { x with released := x.released ++ ps.map fun p => (n, p) }

/-- What releases the slot that an `sld` claimed: its pointer and the LEN captured at issue. -/
def slotRelease (len : Nat) (ps : List Nat) : DWord := BitVec.ofNat 64 (ps.headD 0 + 128 * len)

/-- A stream landing at the end of a tick: word `w` below 4 is written (R169); `w` = 4 releases the slot that an `sld` claimed (R197). -/
def CoreSt.streamLand (x : CoreSt) (n w : Nat) (v : DWord) : CoreSt :=
  if w < 4 then x.setStrm n w v else x.release n (v.toNat / 128) [v.toNat % 128]

/-- The byte offset of a ring slot (R192). -/
def Desc.slotOff (d : Desc) (p : Nat) : Nat := d.base + p % 64 * (d.rows * d.rb)
/-- The bytes of a tile (R192). -/
def Desc.tileBytes (d : Desc) : Nat := d.rows * d.rb

/-- Whether the pointers of word 2 fit a ring length and the order HEAD ≤ TAIL ≤ HEAD + LEN (R194, R196). -/
def ptrsOk (len w2 : Nat) : Bool :=
  let h := ptrHead w2
  let t := ptrTail w2
  decide (ptrFree w2 % 64 < len) && decide (h % 64 < len) && decide (t % 64 < len) && decide (ptrRsv w2 % 64 < len) &&
  ptrFree w2 = h && ptrRsv w2 = t && (if h / 64 = t / 64 then decide (h % 64 ≤ t % 64) else decide (t % 64 ≤ h % 64))

/-- Whether `sdset` accepts a value for word `w` of a stream in an allocation of `size` bytes (R196). -/
def CoreSt.sdsetOk (x : CoreSt) (size n w v : Nat) : Bool :=
  match w with
  | 0 =>
    let d := descOf v 0 0
    let w2 := (x.strm n 2).toNat
    bits v 63 46 = 0 && bits v 31 30 = 0 && decide (d.fmt ≤ 11) && d.base % 16 = 0 && (d.fmt ≠ 11 || d.rb % 48 = 0) &&
    decide (d.base + d.len * d.tileBytes ≤ size) && [ptrFree w2, ptrHead w2, ptrTail w2, ptrRsv w2].all fun p => decide (p % 64 < d.len)
  | 1 => bits v 63 42 = 0 && bits v 39 24 % 16 = 0 && bits v 23 0 % 16 = 0
  | 2 => bits v 63 31 = 0 && bits v 23 23 = 0 && bits v 15 15 = 0 && bits v 7 7 = 0 && ptrsOk (x.desc n).len v
  | _ => bits v 63 32 = 0 && bits v 31 0 % 16 = 0

end Sys2Proof.Machine
end

