-- ==== Sys2Proof/Machine/FloatOps.lean ====
section
/-! DEFINITION. Number formats and arithmetic: one rounding function, one set of NaN rules, one accumulator element
(R82 to R108). Every value is an exact binary number until it is rounded once. -/

namespace Sys2Proof.Fp

/-- A value of a floating-point format: NaN, a signed infinity, or a signed exact `m · 2^e`. -/
inductive Val where
  | nan
  | inf (neg : Bool)
  | fin (neg : Bool) (m : Nat) (e : Int)
  deriving DecidableEq, Repr

/-- A format of R85: exponent bits, fraction bits, bias; `ieee` is false for e4m3. -/
structure Fmt where
  eb : Nat
  p : Nat
  bias : Nat
  ieee : Bool
  deriving DecidableEq, Repr

def f32 : Fmt := ⟨8, 23, 127, true⟩
def bf16 : Fmt := ⟨8, 7, 127, true⟩
def f16 : Fmt := ⟨5, 10, 15, true⟩
def e5m2 : Fmt := ⟨5, 2, 15, true⟩
def e4m3 : Fmt := ⟨4, 3, 7, false⟩

/-- Event classes as bits (R31, R108). -/
def evInvalid : BitVec 8 := 1
def evDivZero : BitVec 8 := 2
def evOverflow : BitVec 8 := 4
def evUnderflow : BitVec 8 := 8
def evIntSat : BitVec 8 := 16
def evConvSat : BitVec 8 := 32
def evWindow : BitVec 8 := 64
def evInexact : BitVec 8 := 128

/-- The canonical NaN of a format (R85, R86). -/
def Fmt.nan (f : Fmt) : Nat := if f.ieee then (2 ^ f.eb - 1) * 2 ^ f.p + 2 ^ (f.p - 1) else 0x7F
/-- The sign bit of a format. -/
def Fmt.sign (f : Fmt) (neg : Bool) : Nat := if neg then 2 ^ (f.eb + f.p) else 0
/-- The infinity of an IEEE-like format. -/
def Fmt.inf (f : Fmt) (neg : Bool) : Nat := f.sign neg + (2 ^ f.eb - 1) * 2 ^ f.p
/-- The greatest finite magnitude's code (R85). -/
def Fmt.max (f : Fmt) (neg : Bool) : Nat := f.sign neg + if f.ieee then (2 ^ f.eb - 1) * 2 ^ f.p - 1 else 0x7E
/-- The exponent of the least normal number. -/
def Fmt.emin (f : Fmt) : Int := 1 - (f.bias : Int)
/-- The greatest finite magnitude as `m · 2^e`. -/
def Fmt.maxMant (f : Fmt) : Nat := if f.ieee then 2 ^ (f.p + 1) - 1 else 14
/-- The exponent of the greatest finite magnitude's last fraction bit. -/
def Fmt.maxExp (f : Fmt) : Int := (if f.ieee then (f.bias : Int) else 8) - f.p

/-- The value of a code (R85). -/
def decode (f : Fmt) (x : Nat) : Val :=
  let neg := x.testBit (f.eb + f.p)
  let e := (x / 2 ^ f.p) % 2 ^ f.eb
  let m := x % 2 ^ f.p
  if e = 2 ^ f.eb - 1 ∧ f.ieee then if m = 0 then .inf neg else .nan
  else if e = 2 ^ f.eb - 1 ∧ m = 2 ^ f.p - 1 then .nan
  else if e = 0 then .fin neg m (f.emin - f.p)
  else .fin neg (2 ^ f.p + m) ((e : Int) - f.bias - f.p)

/-- Bits of a positive number. -/
def bitLen (m : Nat) : Nat := if m = 0 then 0 else m.log2 + 1

/-- Whether a magnitude `n` with a remainder rounds away from zero (R90); `cmp` compares the remainder with one half. -/
def roundUp (rm : RM) (neg : Bool) (odd : Bool) (cmp : Ordering) : Bool :=
  match rm with
  | .rne => cmp = .gt || (cmp = .eq && odd)
  | .rtz => false
  | .rdn => neg
  | .rup => !neg

/-- `m · 2^e` in units of `2^q`, rounded, and whether a remainder was dropped (R91 step 2). -/
def toUnits (rm : RM) (neg : Bool) (m : Nat) (e q : Int) : Nat × Bool :=
  if q ≤ e then (m * 2 ^ (e - q).toNat, false)
  else
    let d := (q - e).toNat
    if bitLen m + 2 ≤ d then (if m = 0 then 0 else if roundUp rm neg false .lt then 1 else 0, m != 0)
    else
      let n := m / 2 ^ d
      let r := m % 2 ^ d
      if r = 0 then (n, false)
      else (if roundUp rm neg (n % 2 = 1) (compare r (2 ^ (d - 1))) then n + 1 else n, true)

/-- How SAT acts on an overflow (R94). -/
inductive Sat where
  | none | arith | conv
  deriving DecidableEq, Repr

/-- The result of an overflow (R91 step 3, R92, R94). -/
def overflow (f : Fmt) (rm : RM) (sat : Sat) (neg : Bool) : Nat × BitVec 8 :=
  if !f.ieee then (f.max neg, evConvSat ||| evInexact)
  else
    match sat with
    | .arith => (f.max neg, evOverflow ||| evInexact)
    | .conv => (f.max neg, evConvSat ||| evInexact)
    | .none =>
      let big := match rm with
        | .rne => true
        | .rtz => false
        | .rdn => neg
        | .rup => !neg
      (if big then f.inf neg else f.max neg, evOverflow ||| evInexact)

/-- The code of `n · 2^q`, a magnitude already rounded to the format. -/
def encodeMag (f : Fmt) (n : Nat) (q : Int) : Nat :=
  if n < 2 ^ f.p then n
  else
    let (n, q) := if n = 2 ^ (f.p + 1) then (2 ^ f.p, q + 1) else (n, q)
    ((q + f.p + f.bias).toNat) * 2 ^ f.p + (n - 2 ^ f.p)

/-- `Round` of a nonzero exact value into f32, bf16, f16, e5m2 or e4m3 (R91, R92). -/
def round (f : Fmt) (rm : RM) (sat : Sat) (neg : Bool) (m : Nat) (e : Int) : Nat × BitVec 8 :=
  let top := e + bitLen m - 1
  if top > f.maxExp + f.p + 1 then overflow f rm sat neg
  else
    let q := max top f.emin - f.p
    let (n, inexact) := toUnits rm neg m e q
    let tooBig := if q ≤ f.maxExp then n > f.maxMant * 2 ^ (f.maxExp - q).toNat else true
    if tooBig then overflow f rm sat neg
    else
      (f.sign neg + encodeMag f n q,
        (if inexact then evInexact else 0) ||| (if inexact ∧ top < f.emin then evUnderflow else 0))

/-- The lg6 constants (R88). -/
def lgc : Nat → Nat
  | 0 => 524288
  | 1 => 623487
  | 2 => 741455
  | _ => 881744

/-- The magnitude of lg6 code `m` (1 to 32) in units of 2^-23 (R87, R93). -/
def lgMag (m : Nat) : Nat := if m = 0 then 0 else lgc (m % 4) * 2 ^ (m / 4)

/-- The value of an lg6 code (R87). -/
def decodeLg (x : Nat) : Val :=
  let m := x % 32
  if m = 0 then if x.testBit 5 then .nan else .fin false 0 0
  else .fin (x.testBit 5) (lgMag m) (-23)

/-- `Round` of an exact value into lg6 (R93). -/
def roundLg (rm : RM) (neg : Bool) (m : Nat) (e : Int) : Nat × BitVec 8 :=
  if m = 0 then (0, 0)
  else if e + bitLen m > 6 then ((if neg then 0x3F else 0x1F), evConvSat ||| evInexact)
  else if e + bitLen m < -40 then
    (if (match rm with | .rdn => neg | .rup => !neg | _ => false) then (if neg then 0x21 else 0x01) else 0, evUnderflow ||| evInexact)
  else
    let u := if -23 ≤ e then 0 else (-23 - e).toNat
    let x := if -23 ≤ e then m * 2 ^ (e + 23).toNat else m
    let at' := fun c => lgMag c * 2 ^ u
    let below := ((List.range 33).filter fun c => at' c ≤ x).foldl max 0
    let exact := at' below = x
    let c := if exact || below = 32 then below
      else
        let up : Bool := match rm with
          | .rne => compare (2 * x) (at' below + at' (below + 1)) = .gt ||
              (compare (2 * x) (at' below + at' (below + 1)) = .eq && below % 2 = 1)
          | .rtz => false
          | .rdn => neg
          | .rup => !neg
        if up then below + 1 else below
    let ev := (if exact && c != 32 then 0 else evInexact) ||| (if !exact && x < at' 1 then evUnderflow else 0)
    if c = 32 then ((if neg then 0x3F else 0x1F), evConvSat ||| evInexact)
    else if c = 0 then (0, ev)
    else ((if neg then 32 else 0) + c, ev)

/-- Convert a value into a floating-point format (R99, R101, R106). -/
def convert (f : Fmt) (rm : RM) (sat : Sat) (v : Val) : Nat × BitVec 8 :=
  match v with
  | .nan => (f.nan, 0)
  | .inf neg => if f.ieee then (f.inf neg, 0) else (f.max neg, evConvSat ||| evInexact)
  | .fin neg m e => if m = 0 then (f.sign neg, 0) else round f rm sat neg m e

/-- Convert a value into lg6 (R93). -/
def convertLg (rm : RM) (v : Val) : Nat × BitVec 8 :=
  match v with
  | .nan => (0x20, 0)
  | .inf neg => ((if neg then 0x3F else 0x1F), evConvSat ||| evInexact)
  | .fin neg m e => roundLg rm neg m e

/-- The least and greatest values of an integer of `w` bits. -/
def intRange (w : Nat) (signed : Bool) : Int × Int :=
  if signed then (-(2 ^ (w - 1) : Nat), (2 ^ (w - 1) : Nat) - 1) else (0, (2 ^ w : Nat) - 1)

/-- Clamp an integer to a type (R33 `Sat`). -/
def clamp (w : Nat) (signed : Bool) (x : Int) : Int :=
  let (lo, hi) := intRange w signed
  if x < lo then lo else if hi < x then hi else x

/-- Convert a value to an integer of `w` bits (R99): NaN gives 0 and invalid; the rest rounds, then clamps. A result that differs from its input is
inexact, as the rule's last sentence says; its example of −0.3 in RNE has nothing recorded, which the model reads as said of the other classes
(DEDUCED, log 94). -/
def toInt (rm : RM) (w : Nat) (signed : Bool) (v : Val) : Int × BitVec 8 :=
  let (lo, hi) := intRange w signed
  match v with
  | .nan => (0, evInvalid)
  | .inf neg => (if neg then lo else hi, evConvSat ||| evInexact)
  | .fin neg m e =>
    if m != 0 && 70 < e + bitLen m then (if neg then lo else hi, evConvSat ||| evInexact)
    else
      let (n, inexact) := toUnits rm neg m e 0
      let x : Int := if neg then -(n : Int) else n
      let y := clamp w signed x
      (y, if y ≠ x then evConvSat ||| evInexact else if inexact then evInexact else 0)

/-- An integer as an exact value. -/
def ofInt (x : Int) : Val := .fin (x < 0) x.natAbs 0

/-! ## Sums and products -/

/-- The exact integer of a finite term in units of `2^q`. -/
def termUnits (q : Int) : Val → Int
  | .fin neg m e => let n := (m : Int) * 2 ^ (e - q).toNat; if neg then -n else n
  | _ => 0

/-- The least exponent of finite nonzero terms. -/
def leastExp : List Val → Int → Int
  | [], q => q
  | .fin _ m e :: ts, q => leastExp ts (if m = 0 then q else min e q)
  | _ :: ts, q => leastExp ts q

/-- Whether a term is a finite zero of a sign. -/
def isZero (neg : Bool) : Val → Bool
  | .fin n m _ => m = 0 && n == neg
  | _ => false

/-- Whether a term is an infinity of a sign. -/
def isInf (neg : Bool) : Val → Bool
  | .inf n => n == neg
  | _ => false

/-- The exact sum of terms, none of them NaN, as a value (R95): opposite infinities are NaN; an exact zero is +0, or −0 in RDN,
unless every term is a zero of one sign. -/
def sum (rm : RM) (ts : List Val) : Val :=
  if ts.any (isInf false) && ts.any (isInf true) then .nan
  else if ts.any (isInf false) then .inf false
  else if ts.any (isInf true) then .inf true
  else if ts.all (isZero true) then .fin true 0 0
  else if ts.all (isZero false) then .fin false 0 0
  else
    let q := leastExp ts 1024
    let x : Int := ts.foldl (fun acc t => acc + match t with | .fin _ 0 _ => 0 | t => termUnits q t) 0
    if x = 0 then .fin (rm = .rdn) 0 0 else .fin (x < 0) x.natAbs q

/-- The exact product of two values, neither NaN (R95, R96): `none` for 0 × Inf. -/
def mul (a b : Val) : Option Val :=
  match a, b with
  | .inf s, .inf t => some (.inf (s != t))
  | .inf s, .fin t m _ => if m = 0 then none else some (.inf (s != t))
  | .fin s m _, .inf t => if m = 0 then none else some (.inf (s != t))
  | .fin s m e, .fin t n f => some (.fin (s != t) (m * n) (e + f))
  | _, _ => some .nan

/-- Whether a value is NaN. -/
def Val.isNan (v : Val) : Bool := v = .nan

/-- Round a value that an arithmetic rule formed; `bad` marks an invalid case of R96. -/
def arith (f : Fmt) (rm : RM) (sat : Bool) (v : Val) : Nat × BitVec 8 :=
  convert f rm (if sat then .arith else .none) v

/-- A sum of products and addends, rounded once (R95, R96, R98): products are pairs, `c` the plain addends. -/
def sumOfProducts (f : Fmt) (rm : RM) (sat : Bool) (ps : List (Val × Val)) (c : List Val) : Nat × BitVec 8 :=
  if ps.any (fun p => p.1.isNan || p.2.isNan) || c.any Val.isNan then (f.nan, 0)
  else
    let ts := ps.map fun p => mul p.1 p.2
    if ts.any (·.isNone) then (f.nan, evInvalid)
    else
      let v := sum rm (ts.filterMap id ++ c)
      if v.isNan then (f.nan, evInvalid) else arith f rm sat v

/-- The negation of a value. -/
def Val.neg : Val → Val
  | .nan => .nan
  | .inf n => .inf !n
  | .fin n m e => .fin (!n) m e

def add (f : Fmt) (rm : RM) (sat : Bool) (a b : Nat) : Nat × BitVec 8 := sumOfProducts f rm sat [] [decode f a, decode f b]
def sub (f : Fmt) (rm : RM) (sat : Bool) (a b : Nat) : Nat × BitVec 8 := sumOfProducts f rm sat [] [decode f a, (decode f b).neg]
def fma (f : Fmt) (rm : RM) (sat : Bool) (a b c : Nat) : Nat × BitVec 8 :=
  sumOfProducts f rm sat [(decode f a, decode f b)] [decode f c]

/-- A product rounded once; its zero takes the exclusive OR of the signs (R95). -/
def mulRound (f : Fmt) (rm : RM) (sat : Bool) (a b : Nat) : Nat × BitVec 8 :=
  let x := decode f a
  let y := decode f b
  if x.isNan || y.isNan then (f.nan, 0)
  else match mul x y with
    | none => (f.nan, evInvalid)
    | some v => arith f rm sat v

/-- `vhdot`: a0·b0 + a1·b1 + c into f32, rounded once (R98). -/
def dot (f : Fmt) (rm : RM) (sat : Bool) (a0 b0 a1 b1 c : Nat) : Nat × BitVec 8 :=
  sumOfProducts f32 rm sat [(decode f a0, decode f b0), (decode f a1, decode f b1)] [decode f32 c]

/-- Compare two values that are not NaN, −0 below +0 when `zeros` (R96), equal otherwise (R126). -/
def cmp (zeros : Bool) (a b : Val) : Ordering :=
  let key : Val → Int × Int := fun v => match v with
    | .nan => (0, 0)
    | .inf true => (-2, 0)
    | .inf false => (2, 0)
    | .fin neg m _ => if m = 0 then (0, if zeros && neg then -1 else 0) else if neg then (-1, 0) else (1, 0)
  let ka := key a
  let kb := key b
  if ka ≠ kb then if ka.1 < kb.1 ∨ (ka.1 = kb.1 ∧ ka.2 < kb.2) then .lt else .gt
  else
    match a, b with
    | .fin _ _ _, .fin _ _ _ =>
      let q := leastExp [a, b] 1024
      compare (termUnits q a) (termUnits q b)
    | _, _ => .eq

/-- `vfmin` and `vfmax` (R96): the other operand when exactly one is NaN, the canonical NaN when both are. -/
def minMax (f : Fmt) (isMin : Bool) (a b : Nat) : Nat :=
  let x := decode f a
  let y := decode f b
  if x.isNan then if y.isNan then f.nan else b
  else if y.isNan then a
  else match cmp true x y with
    | .lt => if isMin then a else b
    | .gt => if isMin then b else a
    | .eq => a

/-- f32 addition on lanes, with its events. -/
def f32Add (rm : RM) (sat : Bool) (a b : Word) : Word × BitVec 8 :=
  let (x, e) := add f32 rm sat a.toNat b.toNat
  (BitVec.ofNat 32 x, e)

/-! ## The special functions (R97), by fixed-point series with a sticky last bit (log 25) -/

/-- Fraction bits of the series. -/
def prec : Nat := 400
/-- π in units of 2^-400. -/
def piFix : Nat := 0x3243F6A8885A308D313198A2E03707344A4093822299F31D0082EFA98EC4E6C89452821E638D01377BE5466CF34E90C6CC0AC
/-- ln 2 in units of 2^-400. -/
def ln2Fix : Nat := 0xB17217F7D1CF79ABC9E3B39803F2F6AF40F343267298B62D8A0D175B8BAAFA2BE7B876206DEBAC98559552FB4AFA1B10ED2E

/-- The integer square root, bit by bit from bit `k`. -/
def isqrt (x : Nat) : Nat → Nat → Nat
  | 0, r => r
  | k + 1, r => let t := r + 2 ^ k; isqrt x k (if t * t ≤ x then t else r)

/-- `Σ y^i / i!` from term `t` (fixed point), at most `n` terms. -/
def expSeries (y : Nat) : Nat → Nat → Nat → Nat
  | 0, _, _ => 0
  | n + 1, i, t => t + expSeries y n (i + 1) (t * y / 2 ^ prec / i)

/-- `Σ z^(2i+1) / (2i+1)` from power `t` (fixed point), at most `n` terms. -/
def atanhSeries (z2 : Nat) : Nat → Nat → Nat → Nat
  | 0, _, _ => 0
  | n + 1, i, t => t / (2 * i + 1) + atanhSeries z2 n (i + 1) (t * z2 / 2 ^ prec)

/-- The alternating series of sine (from `t = y`, `i = 1`) or cosine (from `t = 1`, `i = 0`): terms `y^i / i!`. -/
def trigSeries (y2 : Nat) : Nat → Nat → Int → Int
  | 0, _, _ => 0
  | n + 1, i, t => t + trigSeries y2 n (i + 2) (-(t * y2 / 2 ^ prec / ((i + 1) * (i + 2))))

/-- A fixed-point magnitude with a sticky bit: strictly between `x` and `x + 1` units. -/
def sticky (neg : Bool) (x : Nat) : Val := .fin neg (2 * x + 1) (-(prec : Int) - 1)

/-- A dyadic magnitude in units of 2^-400; every f32 exponent is above −400. -/
def toFix (m : Nat) (e : Int) : Nat := m * 2 ^ (e + prec).toNat

/-- Round the exact or sticky value of a special function. -/
def sfuRound (rm : RM) (sat : Bool) (v : Val) : Nat × BitVec 8 := arith f32 rm sat v

/-- `vfrcp` (R97). -/
def rcp (rm : RM) (sat : Bool) (x : Nat) : Nat × BitVec 8 :=
  match decode f32 x with
  | .nan => (f32.nan, 0)
  | .inf n => (f32.sign n, 0)
  | .fin n m e =>
    if m = 0 then (f32.inf n, evDivZero)
    else
      let q := 2 ^ 128 / m
      sfuRound rm sat (.fin n (2 * q + if 2 ^ 128 % m = 0 then 0 else 1) (-129 - e))

/-- `vfrsq` (R97). -/
def rsq (rm : RM) (sat : Bool) (x : Nat) : Nat × BitVec 8 :=
  match decode f32 x with
  | .nan => (f32.nan, 0)
  | .inf n => if n then (f32.nan, evInvalid) else (0, 0)
  | .fin n m e =>
    if m = 0 then (f32.inf n, evDivZero)
    else if n then (f32.nan, evInvalid)
    else
      let (m, e) := if e % 2 = 0 then (m, e) else (2 * m, e - 1)
      let q := isqrt (2 ^ 192 / m) 97 0
      sfuRound rm sat (.fin false (2 * q + if q * q * m = 2 ^ 192 then 0 else 1) (-97 - e / 2))

/-- `vfex2` (R97). -/
def ex2 (rm : RM) (sat : Bool) (x : Nat) : Nat × BitVec 8 :=
  match decode f32 x with
  | .nan => (f32.nan, 0)
  | .inf n => (if n then 0 else f32.inf false, 0)
  | .fin n m e =>
    if m = 0 then (0x3F80_0000, 0)
    else if 12 ≤ e + bitLen m then sfuRound rm sat (.fin false 3 (if n then -5000 else 5000))
    else
      let v : Int := if n then -(toFix m e : Int) else toFix m e
      let k := v / 2 ^ prec
      let f := (v % 2 ^ prec).toNat
      if f = 0 then sfuRound rm sat (.fin false 1 k)
      else
        let y := expSeries (f * ln2Fix / 2 ^ prec) 90 1 (2 ^ prec)
        sfuRound rm sat (.fin false (2 * y + 1) (k - prec - 1))

/-- `vflg2` (R97). -/
def lg2 (rm : RM) (sat : Bool) (x : Nat) : Nat × BitVec 8 :=
  match decode f32 x with
  | .nan => (f32.nan, 0)
  | .inf n => if n then (f32.nan, evInvalid) else (f32.inf false, 0)
  | .fin n m e =>
    if m = 0 then (f32.inf true, evDivZero)
    else if n then (f32.nan, evInvalid)
    else
      let k : Int := e + (m.log2 : Int)
      let d := m - 2 ^ m.log2
      if d = 0 then if k = 0 then (0, 0) else sfuRound rm sat (ofInt k)
      else
        let z := d * 2 ^ prec / (m + 2 ^ m.log2)
        let ln := 2 * atanhSeries (z * z / 2 ^ prec) 140 0 z
        let v : Int := k * 2 ^ prec + (ln * 2 ^ prec / ln2Fix : Nat)
        sfuRound rm sat (sticky (v < 0) (if v < 0 then v.natAbs - 1 else v.toNat))

/-- sin(π r) or cos(π r) for a fixed-point r in [0, 1/2], neither end of the result exact. -/
def trig (cos : Bool) (r : Nat) : Nat :=
  let y := r * piFix / 2 ^ prec
  let y2 := y * y / 2 ^ prec
  (if cos then trigSeries y2 60 0 (2 ^ prec : Nat) else trigSeries y2 60 1 (y : Nat)).toNat

/-- `vfsinpi` (R97). -/
def sinpi (rm : RM) (sat : Bool) (x : Nat) : Nat × BitVec 8 :=
  match decode f32 x with
  | .nan => (f32.nan, 0)
  | .inf _ => (f32.nan, evInvalid)
  | .fin n m e =>
    if m = 0 then (f32.sign n, 0)
    else if 0 ≤ e then (f32.sign n, 0)
    else
      let t := toFix m e % (2 * 2 ^ prec)
      let half := 2 ^ (prec - 1)
      let s := n != (2 ^ prec ≤ t : Bool)
      let r := t % 2 ^ prec
      if r = 0 then (f32.sign n, 0)
      else if r = half then sfuRound rm sat (.fin s 1 0)
      else
        let a := if r < half then r else 2 ^ prec - r
        sfuRound rm sat (sticky s (trig false a))

/-- `vfcospi` (R97). -/
def cospi (rm : RM) (sat : Bool) (x : Nat) : Nat × BitVec 8 :=
  match decode f32 x with
  | .nan => (f32.nan, 0)
  | .inf _ => (f32.nan, evInvalid)
  | .fin _ m e =>
    if 1 ≤ e then (0x3F80_0000, 0)
    else
      let t := if m = 0 then 0 else toFix m e % (2 * 2 ^ prec)
      let half := 2 ^ (prec - 1)
      let s : Bool := half < t ∧ t < 3 * half
      let r := t % 2 ^ prec
      if r = 0 then sfuRound rm sat (.fin (t != 0) 1 0)
      else if r = half then (0, 0)
      else
        let a := if r < half then r else 2 ^ prec - r
        sfuRound rm sat (sticky s (trig true a))

/-! ## The accumulator element (R101 to R106) -/

/-- The fields of an ACC element: SPEC code, anchor, value (R101). -/
structure Acc where
  spec : Nat
  a : Int
  m : Int
  deriving DecidableEq, Repr

/-- ACC zero (R11, R101). -/
def Acc.zero : Acc := ⟨0, 0, 0⟩
/-- Unpack an element; a reserved SPEC code is treated as NaN (R101). -/
def Acc.ofBits (x : BitVec 128) : Acc :=
  let n := x.toNat
  let spec := n / 2 ^ 125
  let a : Nat := (n / 2 ^ 114) % 2 ^ 11
  let m : Nat := n % 2 ^ 114
  ⟨if spec = 0 ∨ spec = 1 ∨ spec = 2 then spec else 4, if a < 1024 then (a : Int) else (a : Int) - 2048,
    if m < 2 ^ 113 then (m : Int) else (m : Int) - 2 ^ 114⟩
/-- Pack an element. The anchor keeps the 11 bits of its field: what becomes of one that must rise above 1,023 no rule says (DESIGN CHOICE, R101, R103,
log 93). -/
def Acc.toBits (x : Acc) : BitVec 128 :=
  BitVec.ofNat 128 (x.spec * 2 ^ 125 + (x.a % 2048).toNat * 2 ^ 114 + (x.m % 2 ^ 114).toNat)

/-- `RoundOdd` of `s · 2^e / 2^a`, and whether it is exact (R103). -/
def roundOdd (s : Int) (e a : Int) : Int × Bool :=
  if a ≤ e then (s * 2 ^ (e - a).toNat, true)
  else
    let d := (2 : Int) ^ (a - e).toNat
    let q := s / d
    if s % d = 0 then (q, true) else (if q % 2 = 0 then q + 1 else q, false)

/-- Raise the anchor from `a` while the sum does not fit; two raises are enough from the anchor `accAdd` starts at. -/
def fitAnchor (s e : Int) : Nat → Int → Int
  | 0, a => a
  | n + 1, a =>
    let r := (roundOdd s e a).1
    if r < -(2 ^ 113) ∨ 2 ^ 113 - 1 < r then fitAnchor s e n (a + 1) else a

/-- `AccAdd` (R103) of a finite contribution `s · 2^e`. No anchor below the sum's bit length less 114 can fit, so the search
starts there. -/
def accAdd (x : Acc) (c : Int) (e : Int) : Acc × BitVec 8 :=
  let q := min x.a e
  let s := x.m * 2 ^ (x.a - q).toNat + c * 2 ^ (e - q).toNat
  let floor := if x.m = 0 then -1024 else x.a
  let start := if s = 0 then floor else max floor (q + bitLen s.natAbs - 114)
  let a := fitAnchor s q 3 start
  let (m, exact) := roundOdd s q a
  ({ x with a := a, m := m }, if exact then 0 else evWindow)

/-- `SpecUpdate` (R103) for a NaN or infinite contribution. -/
def specUpdate (x : Acc) (v : Val) : Acc × BitVec 8 :=
  match v with
  | .nan => ({ x with spec := 4 }, 0)
  | .inf neg =>
    if x.spec = 4 then (x, 0)
    else if x.spec = (if neg then 1 else 2) then ({ x with spec := 4 }, evInvalid)
    else ({ x with spec := if neg then 2 else 1 }, 0)
  | .fin .. => (x, 0)

/-- Add a contribution of any kind to an element (R103). -/
def contribute (x : Acc) (v : Val) : Acc × BitVec 8 :=
  match v with
  | .fin neg m e => accAdd x (if neg then -(m : Int) else m) e
  | v => specUpdate x v

/-- The exact product of two tile elements by their formats, with the event of 0 × Inf (R102). -/
def product (ta tb : Ty) (a b : Nat) : Val × BitVec 8 :=
  match ta with
  | .lg6 =>
    let ma := a % 32
    let mb := b % 32
    if (decodeLg a).isNan || (decodeLg b).isNan then (.nan, 0)
    else if ma = 0 ∨ mb = 0 then (.fin false 0 0, 0)
    else
      let t : Int := (ma : Int) - 16 + ((mb : Int) - 16)
      (.fin (a.testBit 5 != b.testBit 5) (lgc (t % 4).toNat) (t / 4 - 19), 0)
  | .i8 | .n8 =>
    let x : Int := if ta = .i8 ∧ 128 ≤ a then (a : Int) - 256 else a
    let y : Int := if tb = .i8 ∧ 128 ≤ b then (b : Int) - 256 else (b : Int)
    (ofInt (x * y), 0)
  | _ =>
    let fm : Ty → Fmt := fun t => match t with
      | .f16 => f16
      | .e4m3 => e4m3
      | .e5m2 => e5m2
      | _ => bf16
    let x := decode (fm ta) a
    let y := decode (fm tb) b
    if x.isNan || y.isNan then (.nan, 0)
    else match mul x y with
      | none => (.nan, evInvalid)
      | some v => (v, 0)

/-- The value of an element as `tdrain` and `tstac` convert it (R106). -/
def Acc.val (x : Acc) : Val :=
  if x.spec = 4 then .nan
  else if x.spec = 1 then .inf false
  else if x.spec = 2 then .inf true
  else .fin (x.m < 0) x.m.natAbs x.a

/-- Convert a value into any type of R202, as the bits of that type (R99, R106). -/
def toTy (ty : Ty) (rm : RM) (sat : Sat) (v : Val) : Nat × BitVec 8 :=
  let i : Nat → Bool → Nat × BitVec 8 := fun w signed =>
    let r := toInt rm w signed v
    ((r.1 % (2 ^ w : Int)).toNat, r.2)
  match ty with
  | .i32 => i 32 true
  | .n32 => i 32 false
  | .i16 => i 16 true
  | .n16 => i 16 false
  | .i8 => i 8 true
  | .n8 => i 8 false
  | .f32 => convert f32 rm sat v
  | .bf16 => convert bf16 rm sat v
  | .f16 => convert f16 rm sat v
  | .e5m2 => convert e5m2 rm sat v
  | .e4m3 => convert e4m3 rm sat v
  | .lg6 => convertLg rm v

/-- The value of the bits of a floating-point type, or of an integer of its width. -/
def ofTy (ty : Ty) (x : Nat) : Val :=
  match ty with
  | .f32 => decode f32 x
  | .bf16 => decode bf16 (x % 65536)
  | .f16 => decode f16 (x % 65536)
  | .e5m2 => decode e5m2 (x % 256)
  | .e4m3 => decode e4m3 (x % 256)
  | .lg6 => decodeLg (x % 64)
  | .n32 => ofInt x
  | .n16 => ofInt ((x % 65536 : Nat) : Int)
  | .n8 => ofInt ((x % 256 : Nat) : Int)
  | .i32 => ofInt (if x < 2 ^ 31 then x else (x : Int) - 2 ^ 32)
  | .i16 => let y := x % 65536; ofInt (if y < 2 ^ 15 then (y : Int) else (y : Int) - 2 ^ 16)
  | .i8 => let y := x % 256; ofInt (if y < 2 ^ 7 then (y : Int) else (y : Int) - 2 ^ 8)

end Sys2Proof.Fp
end

