-- ==== Sys2Proof/Machine/Fabric.lean ====
section
/-! DEFINITION. Performing accesses at their homes: reads, writes and atomics, monitors, the slice access log, poison, and the
records and events that firmware writes (R157 to R165, R235, R249, R371, R384, R387, R402, R431). -/

namespace Sys2Proof.Machine

/-! ## Where a byte lives -/

/-- The device address of a local home: HBM, or a pod address that names this device (R388). -/
def State.localAddr (s : State) (pa : Pa) : Option Nat :=
  match pa.space with
  | .hbm => some pa.addr
  | .host => none
  | .pod => if pa.addr / 2 ^ 46 = s.devid then some (pa.addr % 2 ^ 46) else none

/-- An address with this device's own pod addresses made local (R388). -/
def State.norm (s : State) (pa : Pa) : Pa :=
  match pa.space, s.localAddr pa with
  | .pod, some a => ⟨.hbm, a⟩
  | _, _ => pa

/-! ## Links (R388, R405, R408) -/

/-- Whether a port is up. -/
def State.portUp (s : State) (p : Nat) : Bool := FMap.getD s.ports p true
/-- The port that traffic of core `c` to device `d` leaves through (R405). -/
def State.portOf (s : State) (c d : Nat) : Option Nat := (List.range 18).findSome? fun i =>
  let p := (d + c + i) % 18
  if s.portUp p then some p else none
/-- The cause that a request to a pod address meets before it leaves (R405, R408). -/
def State.linkCause (s : State) (pa : Pa) : Option Nat :=
  match pa.space with
  | .pod => if 144 ≤ pa.addr / 2 ^ 46 then some 0x342 else if (s.portOf 0 (pa.addr / 2 ^ 46)).isNone then some 0x340 else none
  | _ => none
/-- The core whose traffic a requester's is (R264, R372, R405). -/
def coreOf (req : Nat) : Nat := if req < 320 then req / 2 else if 352 ≤ req then req - 352 else 0
/-- A link carries a request to the device that a pod address names (R405). -/
def State.sendPod (s : State) (req : Nat) (pa : Pa) (kind : PodKind) (a n data mask : Nat) : State :=
  let d := pa.addr / 2 ^ 46
  { s with linkOut := s.linkOut ++ [⟨d, (s.portOf (coreOf req) d).getD 0, coreOf req, ⟨s.devid, kind, a, n, data, mask⟩⟩] }
/-- The aligned 64, 128 or 256 bytes that a read of another device asks for (R404). -/
def podRead (a n : Nat) : Nat × Nat :=
  if a / 64 = (a + n - 1) / 64 then (a / 64 * 64, 64) else if a / 128 = (a + n - 1) / 128 then (a / 128 * 128, 128) else (a / 256 * 256, 256)
/-- The next answer of a link, and the state after it: a cause of R408 that the answer to a read or atomic may carry. -/
def State.linkReply (s : State) (pa : Pa) : Option Nat × State :=
  let a := Config.linkAnswer s.fresh
  let ok := match pa.space with
    | .host => a = 0x347 || a = 0x348
    | .pod => a = 0x342 || a = 0x343 || a = 0x344 || a = 0x345
    | .hbm => false
  (if ok then some a else none, { s with fresh := s.fresh + 1 })

/-- The 128-byte line of an address. -/
def Pa.line (p : Pa) : Pa := { p with addr := p.addr / 128 * 128 }
/-- An address some bytes on. -/
def Pa.plus (p : Pa) (n : Nat) : Pa := { p with addr := p.addr + n }

/-- The stack of an HBM address (R377). -/
def stackOf (p : Nat) : Nat := let u := bits p 38 8; (bits u 2 0 ^^^ bits u 5 3) ^^^ bits u 8 6
/-- The pseudo-channel within its stack of an HBM address, and its 256-byte unit within that channel (R377); nothing shows either (log 70). -/
def hbmChannel (p : Nat) : Nat := bits p 38 8 / 8 % 160
def hbmPlace (p : Nat) : Nat := bits p 38 8 / 8 / 160
/-- The home slice of an HBM address, counted over both dies (R368, R377). -/
def sliceOf (p : Nat) : Nat :=
  32 * (stackOf p / 4) +
    (((((bits p 11 7 ^^^ bits p 16 12) ^^^ bits p 21 17) ^^^ bits p 26 22) ^^^ bits p 31 27) ^^^ bits p 36 32 ^^^ bits p 38 37)

/-- Bytes of an address range that are backed by HBM (R386, R387). -/
def backed (a n : Nat) : Nat := min n (Config.hbmBytes - a)

/-- Device memory at device scope; an unbacked byte reads 0 (R387). -/
def State.devGet (s : State) (a n : Nat) : Nat := s.hbm.get a (backed a n)
/-- Write device memory; unbacked bytes are discarded (R387). -/
def State.devPut (s : State) (a n v : Nat) : State := { s with hbm := s.hbm.put a (backed a n) v }
/-- One byte of host memory. -/
def State.hostGet (s : State) (a n : Nat) : Nat := getBytes Config.hostByte s.host a n
/-- Write host memory. -/
def State.hostPut (s : State) (a n v : Nat) : State := { s with host := putBytes Config.hostByte s.host a n v }

/-! ## Monitors -/

/-- The condition of an `mwait` (R33 `Cond`, R234): SUB[2:0] on `n`-byte values. -/
def mwaitCond (cond n x v : Nat) : Bool :=
  let w := 8 * n
  let v := v % 2 ^ w
  match cond with
  | 0 => x = v
  | 1 => x ≠ v
  | 2 => signExt x w < signExt v w
  | 3 => signExt v w ≤ signExt x w
  | 4 => x < v
  | _ => v ≤ x

/-- Invalidate a core's read-only L1 as a whole: lines and outstanding fills (R155, R156). -/
def State.l1Invalidate (s : State) (c : Nat) : State := s.modCore c fun x => { x with l1 := [], l1want := [] }

/-- End an `mwait` hold with a predicate; completion by value is an acquire at `.d` (R235). -/
def State.endMwait (s : State) (c k : Nat) (pred : Bool) : State :=
  let s := s.modWarp c k fun w => { w with stop := .mdone pred, since := s.cycle, notBefore := s.cycle + 1 }
  s.l1Invalidate c

/-- Whether the timeout of a monitor is still to pass: a write in the cycle in which it falls wins (R235). -/
def Monitor.open (m : Monitor) (now : Nat) : Bool := match m.deadline with
  | some t => decide (now ≤ t)
  | none => true

/-- Evaluate the monitors of the bytes just written (R235, R269): once per write event. -/
def State.evalMonitors (s : State) (a n : Nat) : State :=
  let hit := fun (m : Monitor) => m.open s.cycle && decide (m.pa < a + n) && decide (a < m.pa + m.n) &&
    mwaitCond m.cond m.n (s.devGet m.pa m.n) m.v.toNat
  let (go, stay) := s.monitors.partition hit
  go.foldl (fun s m => s.endMwait m.core m.slot true) { s with monitors := stay }

/-! ## The slice access log -/

/-- The device tile clock: core cycles since device reset (R264). -/
def State.clock (s : State) : Nat := s.cycle - s.reset0

/-- LOGSIZE values that enable logging (R371). -/
def logSizeOk (n : Nat) : Bool := n % 4096 = 0 && 4096 ≤ n && n ≤ 2 ^ 30

/-- The memory-side map bit of the 64 KiB of an HBM address; the map has none for others (R401). -/
def State.msBit (s : State) (a : Nat) : Bool := decide (a < Config.hbmBytes) && bit (s.devGet (s.fw.msmap + a / 65536 / 8) 1) (a / 65536 % 8)

/-- The OP code of an access: one that goes past the L2 to a Grinder is no slice's and has none (R163, R368, R371). -/
def slotCode (ms : Bool) (op : Nat) : Nat := if ms then 16 else op

/-- Write the record of an access to bytes of one line at its slice, if the slice logs it (R371 to R373). -/
def State.logRecord (s : State) (a n op req : Nat) (hit : Bool) : State :=
  let i := sliceOf a
  let l := s.slice i
  if l.en && logSizeOk l.size && decide (l.lo ≤ a) && decide (a ≤ l.hi) && bit l.ops op && (req &&& l.reqmask) = l.reqmatch then
    if Config.logFull s.fresh then
      { s with fresh := s.fresh + 1 }.modSlice i fun l => { l with drop := l.drop + 1 }
    else
      let s := { s with fresh := s.fresh + 1 }
      let at' := l.base / 4096 * 4096 + 32 * (l.wp % (l.size / 32))
      let w1 := a % 2 ^ 46 + (req % 512) * 2 ^ 48 + hit.toNat * 2 ^ 57 + op * 2 ^ 58
      let w2 := n % 128 + (i % 32) * 2 ^ 8 + (i / 32) * 2 ^ 14
      let s := (s.devPut at' 32 (s.clock % 2 ^ 64 + w1 * 2 ^ 64 + w2 * 2 ^ 128 + (l.wp % 2 ^ 32) * 2 ^ 192)).evalMonitors at' 32
      let full := !l.wrap && decide (l.size / 32 ≤ l.wp + 1)
      s.modSlice i fun l => { l with wp := l.wp + 1, full := l.full || full, en := l.en && !full }
  else s

/-! ## The lines of the L2 slices (R368, R369) -/

/-- The set of a line in its slice: one of the 2,048 of 4 MiB in 16 ways (R368; log 19). -/
def l2SetOf (line : Nat) : Nat := Config.l2Set line % 2048

/-- Whether a line is in its slice: `some` of whether it is dirty. -/
def State.l2Find (s : State) (line : Nat) : Option Bool := FMap.find (FMap.getD s.l2 (sliceOf (128 * line)) []) line

/-- Whether a line has a reservation and so is not evicted (R369). -/
def State.pinned (s : State) (line : Nat) : Bool := s.txs.any fun t => FMap.find t.lines line = some .granted

/-- Take a line out of its slice; a dirty one is written back to HBM (R368). -/
def State.l2Drop (s : State) (line req : Nat) : State :=
  match s.l2Find line with
  | none => s
  | some dirty =>
    let k := sliceOf (128 * line)
    let s := { s with l2 := FMap.set s.l2 k (FMap.erase (FMap.getD s.l2 k []) line) }
    if dirty then s.logRecord (128 * line) 128 10 req true else s

/-- Take every line that meets `p` out of the slices. -/
def State.l2DropAll (s : State) (p : Nat → Bool) (req : Nat) : State :=
  (s.l2.flatMap fun x => (x.2.map (·.1)).filter p).foldl (fun s l => s.l2Drop l req) s

/-- Make room for a line in its set: where 16 lines of the set are held, one that is not pinned goes, which is open (R368, R369; log 20). -/
def State.l2Room (s : State) (line req : Nat) : State :=
  let held := FMap.getD s.l2 (sliceOf (128 * line)) []
  if held.length < 16 then s
  else
    let set := (held.map (·.1)).filter fun l => l2SetOf l = l2SetOf line
    if set.length < 16 then s
    else
      let free := set.filter fun l => !s.pinned l
      let (v, s) := s.freeVal
      match free[v % free.length]? with
      | some l => s.l2Drop l req
      | none => s

/-- Bring the line of an access into its slice, which a write makes dirty; whether it was there (R368, R373). -/
def State.l2Touch (s : State) (line op req : Nat) : Bool × State :=
  let k := sliceOf (128 * line)
  let dirty := op = 1 || op = 2 || op = 3
  match s.l2Find line with
  | some d => (true, if dirty && !d then { s with l2 := FMap.set s.l2 k (FMap.set (FMap.getD s.l2 k []) line true) } else s)
  | none =>
    let s := (s.l2Room line req).logRecord (128 * line) 128 11 req false
    (false, { s with l2 := FMap.set s.l2 k (FMap.set (FMap.getD s.l2 k []) line dirty) })

/-- An access to bytes of one line at its slice: the line is brought in, and the access is logged (R368, R371). No slice performs an access to a
memory-side line, whoever makes it (R163, R378). -/
def State.logLine (s : State) (a n op req : Nat) : State :=
  if op < 16 && !s.msBit a then
    if a < Config.hbmBytes then
      let (hit, s) := s.l2Touch (a / 128) op req
      s.logRecord a n op req hit
    else s.logRecord a n op req false
  else s

/-- The pieces of a byte range by 128-byte lines: what each slice performs of an access (R368, R373). -/
def lineSpans (a n : Nat) : List (Nat × Nat) :=
  if n = 0 then []
  else (List.range ((a + n - 1) / 128 + 1 - a / 128)).map fun i =>
    let lo := max a (128 * (a / 128 + i))
    (lo, min (a + n) (128 * (a / 128 + i) + 128) - lo)

/-- Log an access at the slices of its lines. -/
def State.logAccess (s : State) (a n op req : Nat) : State := (lineSpans a n).foldl (fun s p => s.logLine p.1 p.2 op req) s

/-- A 64-bit field of a structure in device memory. -/
def State.fld (s : State) (a off n : Nat) : Nat := s.devGet (a + off) n

/-! ## Poison -/

/-- The class-11 cause a read of these bytes meets, if any line of it is poisoned (R382 to R384). -/
def State.poisonOf (s : State) (a n : Nat) : Option Nat :=
  (List.range (if n = 0 then 0 else (a + n - 1) / 128 + 1 - a / 128)).findSome? fun i => FMap.find s.poison (a / 128 + i)

/-- After a read has met a poisoned line, later readers find it poisoned earlier (R383; log 30). -/
def State.metPoison (s : State) (a : Nat) : State := { s with poison := FMap.adjust s.poison (a / 128) fun _ => 0x2C2 }

/-- A write of bytes clears the poison of every line that it covers whole (R384). -/
def State.clearPoison (s : State) (a n : Nat) : State :=
  { s with poison := s.poison.filter fun p => decide (p.1 < (a + 127) / 128) || decide ((a + n) / 128 ≤ p.1) }

/-! ## Accesses of other agents -/

/-- Count the aligned 16-byte units of an access that touch an unbacked byte: what R248 does not divide into events (R387; of the Cupping Unit's too,
log 89). -/
def State.countUnits (s : State) (a n : Nat) : State :=
  if a + n ≤ Config.hbmBytes then s
  else (List.range (if n = 0 then 0 else (a + n - 1) / 16 + 1 - a / 16)).foldl (fun s i =>
    if Config.hbmBytes < (a / 16 + i + 1) * 16 then s.count 16 else s) s

/-- A write that an agent other than a warp, an engine or a link makes in device memory: it is logged under its requester number, counted where
nothing backs it, and wakes monitors; lines that it covers whole are free of poison (R235, R371, R372, R384, R387). -/
def State.agentPut (s : State) (req a n v : Nat) : State :=
  ((((s.devPut a n v).clearPoison a n).countUnits a n).logAccess a n 1 req).evalMonitors a n
/-- The same of firmware on the command processors; no rule says which of them serves what, so its number is free (R372; log 79). -/
def State.cpPut (s : State) (a n v : Nat) : State :=
  let (x, s) := s.freeVal
  s.agentPut (338 + x % 8) a n v
/-- Write a field of a structure in device memory, as firmware does. -/
def State.setFld (s : State) (a off n v : Nat) : State := s.cpPut (a + off) n v
/-- A read that firmware makes of device memory: it is counted and logged (R368, R371, R372, R387; log 79). -/
def State.cpRead (s : State) (a n : Nat) : State :=
  let (x, s) := s.freeVal
  (s.countUnits a n).logAccess a n 0 (338 + x % 8)

/-! ## Events of R248 at their homes -/

/-- Read `n` bytes at the home (R249; a link carries aligned reads, R404): the value, the class-11 cause it meets, and the state. Remote pod data and
completions of links are free values. -/
def State.homeGet (s : State) (pa : Pa) (n op req : Nat) : Nat × Option Nat × State :=
  match s.localAddr pa with
  | some a =>
    let x := s.devGet a n
    let e := s.poisonOf a n
    let s := (if backed a n < n then s.count 16 else s).logAccess a n op req
    (x, e, if e.isSome then s.metPoison a else s)
  | none =>
    match pa.space, s.linkCause pa with
    | _, some e => (0, some e, s)
    | .host, none =>
      let (e, s) := s.linkReply pa
      (s.hostGet pa.addr n, e, s)
    | _, none =>
      let (v, s) := s.freeVal
      let (e, s) := s.linkReply pa
      let r := podRead (pa.addr % 2 ^ 46) n
      (v % 2 ^ (8 * n), e, s.sendPod req pa .read r.1 r.2 0 0)

/-- Write `n` bytes at the home as one event (R249, R387), with its monitors. -/
def State.homePut (s : State) (pa : Pa) (n v op req : Nat) : State :=
  match s.localAddr pa with
  | some a =>
    let s := if backed a n < n then s.count 16 else s
    let s := ((s.devPut a n v).clearPoison a n).logAccess a n op req
    s.evalMonitors a n
  | none =>
    match pa.space with
    | .host => s.hostPut pa.addr n v
    | _ => s.sendPod req pa .write (pa.addr % 2 ^ 46) n v (2 ^ n - 1)

/-- Count each event, given by its bytes, that touches an unbacked byte (R387). -/
def State.countUnbacked (s : State) (xs : List (Pa × Nat)) : State :=
  xs.foldl (fun s p => match s.localAddr p.1 with
    | some a => if backed a p.2 < p.2 then s.count 16 else s
    | none => s) s

/-- Write listed bytes of one line at the home. -/
def State.homePutCells (s : State) (line : Pa) (cs : List Host.Cell) (op req : Nat) : State :=
  match s.localAddr line with
  | some a =>
    let off := fun (c : Host.Cell) => (a + (c.1 - line.addr), c.2)
    let good := (cs.map off).filter fun c => decide (c.1 < Config.hbmBytes)
    let s := { s with hbm := s.hbm.putCells good }
    let s := (if cs.length = 128 then s.clearPoison a 128 else s).logAccess a cs.length op req
    s.evalMonitors a 128
  | none =>
    match line.space with
    | .host => { s with host := putCells Config.hostByte s.host cs }
    | _ =>
      let data := cs.foldl (fun d c => d + c.2.toNat * 256 ^ (c.1 - line.addr)) 0
      let mask := cs.foldl (fun m c => m ||| 2 ^ (c.1 - line.addr)) 0
      s.sendPod req line .write (line.addr % 2 ^ 46) 128 data mask

/-- The new value of an atomic on `n` bytes (R33 `NewValue`, R152, R153, R160); `e` is the expected value of a CAS. -/
def newValue (op : AtomicOp) (n old x e : Nat) : Nat :=
  let w := 8 * n
  match op with
  | .add => (old + x) % 2 ^ w
  | .and => old &&& x
  | .or => old ||| x
  | .xor => old ^^^ x
  | .xchg => x
  | .minI => if signExt x w < signExt old w then x else old
  | .maxI => if signExt old w < signExt x w then x else old
  | .minN => min old x
  | .maxN => max old x
  | .fadd => (Fp.f32Add .rne false (BitVec.ofNat 32 old) (BitVec.ofNat 32 x)).1.toNat
  | .cas => if old = e then x else old

/-- The operations an atomic request of a link may carry (R404), by number. -/
def linkAtomics : List AtomicOp := [.add, .and, .or, .xor, .xchg, .minI, .maxI, .minN, .maxN, .fadd, .cas]
/-- The number of an atomic in a link request. -/
def atomicIndex (op : AtomicOp) : Nat := linkAtomics.idxOf op

/-- Perform one lane of an atomic at its home as one step (R160, R33 `Perform`): the old value, the cause met, the state. -/
def State.homeAtomic (s : State) (op : AtomicOp) (a : LaneAcc) (code req : Nat) : Nat × Option Nat × State :=
  match s.localAddr a.pa with
  | some d =>
    let old := s.devGet d a.n
    match s.poisonOf d a.n with
    | some e => (old, some e, (s.metPoison d).logAccess d a.n code req)
    | none =>
      let s := if backed d a.n < a.n then s.count 16 else s
      let s := (s.devPut d a.n (newValue op a.n old a.x a.e)).logAccess d a.n code req
      (old, none, s.evalMonitors d a.n)
  | none =>
    match s.linkCause a.pa with
    | some e => (0, some e, s)
    | none =>
      let (v, s) := s.freeVal
      let (e, s) := s.linkReply a.pa
      (v % 2 ^ (8 * a.n), e, s.sendPod req a.pa (.atomic (atomicIndex op)) (a.pa.addr % 2 ^ 46) a.n a.x a.e)

/-! ## Events, traces and fault logs of the firmware -/

/-- The address-space entry's owner function (R398). -/
def State.ownerOf (s : State) (asid : Nat) : Nat := bits (s.devGet (s.fw.aspaces + 16 * asid + 8) 8) 6 0

/-- Word 0 of an event slot (R402). -/
def Event.word0 (e : Event) : Nat := 2 ^ 63 + (e.fdom % 2 ^ 16) * 2 ^ 32 + (e.aspace % 2 ^ 16) * 2 ^ 16 + e.kind % 256

/-- The bytes of an event slot: word 0, then the payload words (R402). An eighth word of a DEBUG event, its core and slot, lies in the bits of word 0
that R402 gives no field (log 57). -/
def Event.image (e : Event) : Nat :=
  e.word0 + ((e.words[7]?).getD 0).toNat + (e.words.take 7).foldr (fun w acc => (w.toNat + 2 ^ 64 * acc)) 0 * 2 ^ 64

/-- Whether the next slot of the event area is free (R402). -/
def State.slotFree (s : State) (f : Nat) : Bool :=
  let x := s.func f
  bit x.evtbase 0 && !bit (s.hostGet (x.evtbase / 2 ^ 14 * 2 ^ 14 + 64 * x.next) 8) 63

/-- Write an event into the next slot, set EVENT and signal vector 1 (R395, R402). -/
def State.writeEvent (s : State) (f : Nat) (e : Event) : State :=
  let x := s.func f
  let s := s.hostPut (x.evtbase / 2 ^ 14 * 2 ^ 14 + 64 * x.next) 64 e.image
  let asked := match e.warp with
    | some w => FMap.set x.asked x.next w
    | none => x.asked
  let s := s.modFunc f fun x => { x with next := (x.next + 1) % 256, asked := asked }
  (s.setStatus f 1).signal f 1

/-- Post an event: written, held while no slot is free or firmware is paused, or dropped beyond 1,024 held unless it is a FAULT event (R402). -/
def State.postEvent (s : State) (f : Nat) (e : Event) : State :=
  let x := s.func f
  if x.held = [] && s.slotFree f && s.boot.swapping.isNone then s.writeEvent f e
  else if x.held.length < 1024 || e.kind = 2 || e.kind = 3 then s.modFunc f fun x => { x with held := x.held ++ [e] }
  else s.modFunc f fun x => { x with dropped := x.dropped + 1 }

/-- Write a trace record when its kind is traced (R431, R432). What word 3 of a record holds that overwrites one is open: R431 says that it counts the
overwrites, and that it holds TASKNO and INFO (log 56). -/
def State.traceRec (s : State) (kind engine core queue seq taskno info : Nat) : State :=
  match s.trace with
  | none => s
  | some t =>
    if bit t.kinds kind && 32 ≤ t.bytes then
      let a := t.base + 32 * (t.written % (t.bytes / 32))
      let w1 := kind % 256 + (engine % 512) * 2 ^ 8 + (core % 256) * 2 ^ 24 + (queue % 4096) * 2 ^ 32
      let lost := t.written + 1 - t.bytes / 32
      let w3 := if 0 < lost && Config.traceCounts then lost % 2 ^ 64 else taskno % 2 ^ 32 + (info % 2 ^ 32) * 2 ^ 32
      let s := s.agentPut 346 a 32 (s.clock % 2 ^ 64 + w1 * 2 ^ 64 + (seq % 2 ^ 64) * 2 ^ 128 + w3 * 2 ^ 192)
      { s with trace := some { t with written := t.written + 1 } }
    else s

/-- Add a 64-byte record to firmware's fault log (R341, R343). -/
def State.faultRecord (s : State) (words : List DWord) : State :=
  let v := words.foldr (fun w acc => w.toNat + 2 ^ 64 * acc) 0
  let s := s.cpPut (s.fw.faultLog + 64 * (s.fw.faultNext % 4096)) 64 v
  { s with fw := { s.fw with faultNext := s.fw.faultNext + 1 } }

/-- The number of an event's function, from an address space. -/
def State.postFor (s : State) (asid : Nat) (e : Event) : State := s.postEvent (s.ownerOf asid) e

end Sys2Proof.Machine
end

