-- ==== Sys2Proof/Machine/Translate.lean ====
section
/-! DEFINITION. Translation: table walks, leaf checks, views and their overrides, the TLB (R349 to R357). -/

namespace Sys2Proof.Machine

/-- The kinds of access a walk checks (R351). -/
inductive AccKind where
  | read | write | rmw | fetch
  deriving DecidableEq, Repr

/-- The failures of a translation (R147, R351). -/
inductive XErr where
  | noncanonical | notMapped | priv | read | write | exec | migrating | table
  deriving DecidableEq, Repr

/-- The class-4 cause of a failed data translation (R147, R325). -/
def XErr.dataCause : XErr → Nat
  | .noncanonical => 0x100
  | .notMapped => 0x101
  | .priv => 0x102
  | .read => 0x103
  | .write => 0x104
  | .exec => 0x103
  | .migrating => 0x105
  | .table => 0x106

/-- The class-3 cause of a failed fetch translation (R325). -/
def XErr.fetchCause : XErr → Nat
  | .noncanonical => 0x0C0
  | .notMapped => 0x0C1
  | .priv => 0x0C2
  | .migrating => 0x0C4
  | .table => 0x0C5
  | _ => 0x0C3

/-- INFO[1:0] of an access (R334). -/
def AccKind.info : AccKind → Nat
  | .read => 0
  | .write => 1
  | .rmw => 2
  | .fetch => 3

/-- Whether a failure or a page is that of an access of this kind; `xlate` returns failures as sums. -/
abbrev XRes (α : Type) := Except XErr α

/-- Entry index and page size of a level (R349). -/
def levelIndex (va lv : Nat) : Nat :=
  match lv with
  | 0 => bits va 51 39
  | 1 => bits va 38 30
  | 2 => bits va 29 21
  | _ => bits va 20 16

/-- The page size of a leaf at a level (R349). -/
def levelSize : Nat → Nat
  | 1 => 2 ^ 30
  | 2 => 2 ^ 21
  | _ => 2 ^ 16

/-- The alignment of the table an entry at a level names (R349). -/
def nextAlign : Nat → Nat
  | 0 => 4096
  | 1 => 4096
  | _ => 256

/-- The malformed-entry test of R350. -/
def State.malformed (s : State) (e lv : Nat) : Bool :=
  let leaf := bit e 1
  let addr := bits e 53 8 * 256
  let mt := bits e 61 60
  bits e 59 54 ≠ 0 || bits e 7 6 ≠ 0 || (leaf && lv = 0) || (!leaf && lv = 3) ||
  (!leaf && (bits e 63 60 ≠ 0 || bits e 5 2 ≠ 0 || addr % nextAlign lv ≠ 0 || bits e 53 46 ≠ 0)) ||
  (leaf && (addr % levelSize lv ≠ 0 || mt = 3 || (bit e 62 && mt ≠ 0) || (mt = 0 && bits e 53 46 ≠ 0) ||
    (mt = 0 && (List.range (levelSize lv / 65536)).any fun i =>
      decide (addr + 65536 * i < Config.hbmBytes) && s.msBit (addr + 65536 * i) != bit e 62)))

/-- Whether an entry of the TLB covers an address. -/
def TlbEntry.covers (t : TlbEntry) (asid view va : Nat) : Bool :=
  t.asid = asid && t.view = view && decide (t.va ≤ va) && decide (va < t.va + t.size)

/-- The leaf of an address, with MIG beside it, found by walking the tables from level `lv` (R351). -/
def State.walkFrom (s : State) (asid va : Nat) : Nat → Nat → Nat → XRes (TlbEntry × Bool)
  | 0, _, _ => .error .table
  | fuel + 1, lv, tb =>
    let e := s.devGet (tb + 8 * levelIndex va lv) 8
    if !bit e 0 then .error .notMapped
    else if s.malformed e lv then .error .table
    else if !bit e 1 then s.walkFrom asid va fuel (lv + 1) (bits e 53 8 * 256)
    else
      let space := match bits e 61 60 with
        | 0 => Space.hbm
        | 1 => .host
        | _ => .pod
      let size := levelSize lv
      .ok ({ asid := asid, view := 0, va := va % 2 ^ 52 / size * size, size := size, pa := ⟨space, bits e 53 8 * 256⟩, ms := bit e 62,
             u := bit e 5, x := bit e 4, w := bit e 3, r := bit e 2 }, bit e 63)

/-- The table entries that a walk reads, from level `lv` on (R351). -/
def State.walkReads (s : State) (va : Nat) : Nat → Nat → Nat → List Nat
  | 0, _, _ => []
  | fuel + 1, lv, tb =>
    let a := tb + 8 * levelIndex va lv
    let e := s.devGet a 8
    a :: if !bit e 0 || s.malformed e lv || bit e 1 then [] else s.walkReads va fuel (lv + 1) (bits e 53 8 * 256)

/-- The level-0 table of an address space; none when its entry is invalid (R349, R398). -/
def State.root (s : State) (asid : Nat) : Option Nat :=
  let w0 := s.devGet (s.fw.aspaces + 16 * asid) 8
  let w1 := s.devGet (s.fw.aspaces + 16 * asid + 8) 8
  if bit w1 7 && w0 ≠ 0 then some w0 else none

/-- The leaf checks of R351 in their order. -/
def leafCheck (t : TlbEntry) (mig : Bool) (priv : Bool) (acc : AccKind) : XRes TlbEntry :=
  if !priv && !t.u then .error .priv
  else if acc = .fetch && (!t.x || t.ms) then .error .exec
  else if (acc = .read || acc = .rmw) && !t.r then .error .read
  else if (acc = .write || acc = .rmw) && !t.w then .error .write
  else if mig then .error .migrating
  else .ok t

/-- The override of a view for an address (R312, R355). -/
def State.override (s : State) (die view va : Nat) : Option Override :=
  if view = 0 then none
  else s.overrides.find? fun o => o.die = die && o.view = view && decide (o.va ≤ va) && decide (va < o.va + o.size)

/-- `Walk` of R351 for an address in an address space and view: the page, or the failure. -/
def State.walk (s : State) (die asid view va : Nat) (acc : AccKind) (priv : Bool) : XRes TlbEntry :=
  if !canonical va then .error .noncanonical
  else
    match s.root asid with
    | none => .error .notMapped
    | some tb =>
      match s.walkFrom asid (va % 2 ^ 52) 4 0 tb with
      | .error e => .error e
      | .ok (t, mig) =>
        match leafCheck t mig priv acc with
        | .error e => .error e
        | .ok t =>
          match s.override die view (va % 2 ^ 52) with
          | some o => if t.pa.space = .hbm && !t.ms then
                        .ok (if o.va ≤ t.va then { t with view := view, pa := ⟨.hbm, o.page + (t.va - o.va)⟩ }
                             else { t with view := view, va := o.va, size := o.size, pa := ⟨.hbm, o.page⟩ })
                      else .ok { t with view := view }
          | none => .ok { t with view := view }

/-- The entry of a core's TLB, or of its die's L2 TLB, that covers an address (R352). -/
def State.tlbFind (s : State) (c asid view va : Nat) : Option TlbEntry :=
  ((s.core c).tlb.find? fun t => t.covers asid view (va % 2 ^ 52)).or
    ((FMap.getD s.l2tlb (dieOf c) []).find? fun t => t.covers asid view (va % 2 ^ 52))

/-- Translate for a core: an entry that covers the address, else a walk made now (R352; log 11). -/
def State.xlate (s : State) (c asid view va : Nat) (acc : AccKind) (priv : Bool) : XRes TlbEntry :=
  if !canonical va then .error .noncanonical
  else
    match s.tlbFind c asid view va with
    | some t => leafCheck t false priv acc
    | none => s.walk (dieOf c) asid view va acc priv

/-- The set of an L1 TLB that holds a page: the spec gives 8 ways of 1,024 entries and no index (R352; log 11). -/
def TlbEntry.set (t : TlbEntry) : Nat := t.va / t.size % 128

/-- Put an entry into its set of 8 ways; the oldest makes room (log 11). -/
def tlbPut (t : TlbEntry) (xs : List TlbEntry) : List TlbEntry :=
  t :: ((xs.filter fun u => u.set = t.set).take 7 ++ xs.filter fun u => u.set != t.set)

/-- Keep a translation in a core's TLB of 1,024 entries, and in its die's of 16,384 (R352). -/
def State.learn (s : State) (c : Nat) (t : TlbEntry) : State :=
  let s := if (s.core c).tlb.any fun u => u.covers t.asid t.view t.va then s else s.modCore c fun x => { x with tlb := tlbPut t x.tlb }
  let d := dieOf c
  let l2 := FMap.getD s.l2tlb d []
  if l2.any fun u => u.covers t.asid t.view t.va then s else { s with l2tlb := FMap.set s.l2tlb d ((t :: l2).take 16384) }

/-- The request for a walk of an address, by its smallest page (R349, R352). -/
def walkKey (c asid view va : Nat) : Nat × Nat × Nat × Nat := (c, asid, view, va / 65536 * 65536)
/-- The walks that a core's die has been asked for, in the order of the requests (R352). -/
def State.walkQueue (s : State) (c : Nat) : List (Nat × Nat × Nat × Nat) := FMap.getD s.walks (dieOf c) []
/-- Walks at once (R352). -/
def walkLimit : Nat := 64
/-- Ask for a walk, behind those asked for before (R352). -/
def State.askWalk (s : State) (c asid view va : Nat) : State :=
  let q := s.walkQueue c
  if q.contains (walkKey c asid view va) then s else { s with walks := FMap.set s.walks (dieOf c) (q ++ [walkKey c asid view va]) }
/-- A walk is over. -/
def State.endWalk (s : State) (c asid view va : Nat) : State :=
  let q := s.walkQueue c
  if q.contains (walkKey c asid view va) then
    { s with walks := FMap.put s.walks (dieOf c) (q.filter fun x => x != walkKey c asid view va) [] }
  else s

/-- Forget translations, of every core and die, that a test names; a die is named by its first core. -/
def State.dropTlb (s : State) (p : Nat → TlbEntry → Bool) : State :=
  { s with cores := s.cores.map fun (x : Nat × CoreSt) => (x.1, { x.2 with tlb := x.2.tlb.filter fun t => !p x.1 t })
           l2tlb := s.l2tlb.map fun x => (x.1, x.2.filter fun t => !p (80 * x.1) t) }

/-- The physical address of a translated address. -/
def TlbEntry.paOf (t : TlbEntry) (va : Nat) : Pa := t.pa.plus (va % 2 ^ 52 - t.va)
/-- The first virtual address past the page that holds `va`. -/
def TlbEntry.pastPage (t : TlbEntry) (va : Nat) : Nat := (va + (t.va + t.size - va % 2 ^ 52)) % 2 ^ 64

/-- Whether an access to a page goes to the Grinder: attribute MS, or a pod address of this device in a memory-side region
(R163, R401). -/
def State.msOf (s : State) (t : TlbEntry) (pa : Pa) : Bool :=
  t.ms || (pa.space = .pod && match s.localAddr pa with | some a => s.msBit a | none => false)

/-- Whether a page is remote: host memory, or a pod address of another device. -/
def State.remote (s : State) (pa : Pa) : Bool := (s.localAddr pa).isNone

/-- The address space and view a block's warps run in (R312, R349). -/
def State.ctxOf (s : State) (b c : Nat) : Nat × Nat :=
  match s.cardOfBlock b with
  | some card => (card.asid, FMap.getD card.views (dieOf c) 0)
  | none => (0, 0)

/-- Whether a card still runs speculatively (R164, R317). -/
def Card.speculating (c : Card) : Bool := c.spec = .drafting || c.spec = .running

/-- Whether a block's writes go to shadow pages (R274). -/
def State.speculating (s : State) (b : Nat) : Bool :=
  match s.cardOfBlock b with
  | some c => c.speculating
  | none => false

/-- Whether a write in a speculative view must first take a shadow page (R316): the page has no shadow of this card and is not
mapped to the next buffer of a region that the card produces. -/
def State.needsShadow (s : State) (b c va : Nat) : Bool :=
  match s.cardOfBlock b with
  | some card =>
    card.speculating &&
      !(card.shadows.any fun h => decide (h.va ≤ va % 2 ^ 52) && decide (va % 2 ^ 52 < h.va + h.size)) &&
      !(s.overrides.any fun o => o.die = dieOf c && FMap.find card.views o.die = some o.view && decide (o.va ≤ va % 2 ^ 52) &&
        decide (va % 2 ^ 52 < o.va + o.size) && card.fps.any fun f => f.pred && f.wr && f.base % 2 ^ 52 = o.va)
  | none => false

/-- Read bytes of an address space as a firmware or scheduler agent does, by a walk in the normal view; none on a failure. What another device
holds is a free value (R405; log 18). -/
def State.vaGet (s : State) (asid va n : Nat) : Option Nat :=
  match s.walk 0 asid 0 va .read true, s.walk 0 asid 0 (va + (n - 1)) .read true with
  | .ok t, .ok t' =>
    let size := t.va + t.size - va % 2 ^ 52
    let get := fun (pa : Pa) n => match s.localAddr pa with
      | some a => s.devGet a n
      | none => if pa.space = .pod then getBytes (Config.podByte s.fresh) [] pa.addr n else s.hostGet pa.addr n
    if (s.linkCause t.pa).isSome || (s.linkCause t'.pa).isSome then none
    else if n ≤ size then some (get (t.paOf va) n)
    else some (get (t.paOf va) size + 256 ^ size * get (t'.paOf (va + size)) (n - size))
  | _, _ => none

end Sys2Proof.Machine
end

