-- ==== Sys2Proof/Machine/Operands.lean ====
section
/-! DEFINITION. What an operand of a slot stands for: registers, latches, specials, immediates, lane addresses
(R19, R44, R47, R54, R139, R140). -/

namespace Sys2Proof.Machine

/-- Whether a landing delivers through a latch in the tick a bundle issues: it lands at the end of that tick and did not issue
in it (R19). -/
def Warp.delivers (w : Warp) (u : Unit') (x : Landing) : Bool := x.unit = u && x.land = w.tick && decide (x.tick < w.tick)

/-- The later-issued of the deliveries of a latch that satisfy a condition. -/
def Warp.latest (w : Warp) (u : Unit') (p : Landing → Bool) : Option Landing :=
  (w.flight.filter fun x => w.delivers u x && p x).foldl (fun best x => match best with
    | none => some x
    | some b => if b.tick ≤ x.tick then some x else some b) none

/-- A lane of a vector latch: the later-issued result active in that lane, else 0 (R19). -/
def Warp.latch (w : Warp) (u : Unit') (l : Nat) : Word :=
  match w.latest u fun x => (FMap.find x.lanes l).isSome with
  | some x => FMap.getD x.lanes l 0
  | none => 0

/-- `lcs`: the later-issued scalar, whole (R19). -/
def Warp.lcs (w : Warp) : DWord := match w.latest .lcs fun _ => true with | some x => x.scalar | none => 0

/-- A latch or lane special in a lane (R44). -/
def Warp.special (w : Warp) (x : Special) (l : Nat) : Word :=
  match x with
  | .lva => w.latch .lva l
  | .lvf => w.latch .lvf l
  | .lvx => w.latch .lvx l
  | .lmd => w.latch .lmd l
  | .lcs => w.lcs.setWidth 32
  | .lane => BitVec.ofNat 32 l
  | .lbase => BitVec.ofNat 32 w.lbase
  | .lword => BitVec.ofNat 32 (l % 32)
  | .wordix => BitVec.ofNat 32 (l / 32)
  | .zero => 0
  | .ones => BitVec.allOnes 32
  | .width => BitVec.ofNat 32 w.width
  | .ticklo => BitVec.ofNat 32 w.tick

/-- `Src` of R33: a source operand in a lane, as of the issue tick. -/
def Warp.src (w : Warp) (x : Src) (l : Nat) : Word :=
  match x with
  | .v r => w.v r.val l
  | .s r => (w.s r.val).setWidth 32
  | .sp x => w.special x l
  | .p i => if w.vp i.val l then 1 else 0

/-- A predicate operand in a lane. -/
def Warp.srcPred (w : Warp) (x : Src) (l : Nat) : Bool :=
  match x with
  | .p i => w.vp i.val l
  | _ => false

/-- IMM16 widened to 32 bits by the type (R47). -/
def widen (ty : Ty) (i : BitVec 16) : Word :=
  match ty with
  | .i32 | .i16 => i.signExtend 32
  | .f32 => i.setWidth 32 <<< 16
  | .bf16 | .f16 => i ++ i
  | _ => i.setWidth 32

/-- Source B of a V-slot operation in a lane: IMM16 as R47 widens it, or the operand. -/
def Warp.srcB (w : Warp) (o : VOp) (l : Nat) : Word :=
  match o.imm with
  | some i => widen o.ty i
  | none => w.src o.b l

/-- IMM18 as a 64-bit value, sign-extended (R54). -/
def immS (i : BitVec 18) : DWord := i.signExtend 64

/-- The B operand of a CS operation (R54, R217). -/
def Warp.csB (w : Warp) (o : CSOp) : DWord :=
  match o.imm with
  | some i => immS i
  | none => w.s o.b.val

/-- IMM18 of a CS operation, unsigned; 0 when there is none. -/
def csN (o : CSOp) : Nat := match o.imm with | some i => i.toNat | none => 0

/-- `MemAddr` of R139: base, index and offset added modulo 2^64. -/
def Warp.memAddr (w : Warp) (o : MOp) (l : Nat) : Nat :=
  let ix : DWord := match o.index with
    | none => 0
    | some r => (w.v r.val l).signExtend 64
  (w.s o.base.val + ix + o.off.signExtend 64).toNat

/-- A scratchpad address read as a signed offset (R139). -/
def signed64 (a : Nat) : Int := signExt a 64

/-- The first register of DATA. -/
def mReg (o : MOp) : Nat :=
  match o.data with
  | .v r => r.val
  | .s r => r.val
  | _ => 0

/-- `n` words of consecutive vector registers in a lane, as a number (R140). -/
def Warp.vgroup (w : Warp) (r l : Nat) : Nat → Nat
  | 0 => 0
  | n + 1 => (w.v r l).toNat + 2 ^ 32 * w.vgroup (r + 1) l n

/-- `DataIn` of R33: the data operand of an M-slot store, atomic or reduction in a lane (R140). -/
def Warp.dataIn (w : Warp) (o : MOp) (l : Nat) : Nat :=
  match o.data with
  | .v r => (w.vgroup r.val l o.size.regs) % 2 ^ (8 * o.size.bytes)
  | .s r => (w.s r.val).toNat % 2 ^ (8 * o.size.bytes)
  | x => (w.src x l).toNat % 2 ^ (8 * o.size.bytes)

/-- The expected and new values of a CAS group in a lane (R140). -/
def Warp.casIn (w : Warp) (o : MOp) (l : Nat) : Nat × Nat :=
  let n := o.size.regs
  (w.vgroup (mReg o) l n, w.vgroup (mReg o + n) l n)

/-- Which source fields of a V-slot operation are used and hold vector registers. -/
def vSources (key : Nat) (o : VOp) : List Nat :=
  match vForm key with
  | none => []
  | some f =>
    let reg := fun (u : FieldUse) (x : Src) => match u, x with
      | .reg, .v r => [r.val]
      | _, _ => []
    reg f.a o.a ++ (if o.imm.isSome then [] else reg f.b o.b ++ reg (vUseC key f o.ty) o.c)

/-- The extra ticks a bank stretch takes (R20): distinct registers beyond the first in the most-used bank. -/
def stretchOf (rs : List Nat) : Nat :=
  let d := rs.dedup
  ([0, 1, 2, 3].map fun b => (d.filter fun r => r % 4 = b).length - 1).foldl max 0

/-- The greatest vector register a slot operation names, plus one (R13, R40, R49). -/
def topReg (i : Instr) : Nat :=
  match slotOp i with
  | .v key o =>
    let d := match o.dst with | .v r => r.val + 1 | _ => 0
    (vSources key o).foldl (fun m r => max m (r + 1)) d
  | .m key o =>
    match mForm key with
    | none => 0
    | some f =>
      let n := match f.data with
        | .cas => 2 * o.size.regs
        | .vecOne => 1
        | _ => o.size.regs
      let d := match o.data with | .v r => if f.data = .none then 0 else r.val + n | _ => 0
      let ix := match f.addr, o.index with
        | .full, some r => r.val + 1
        | _, _ => 0
      max d ix
  | .xc key o => if key = 1 then o.ll.toNat + 2 else 0
  | _ => 0

/-- Whether a slot operation needs privilege H: `hret`, and `ssr` to an RO or H field (R14, R40, R59). -/
def needsH (i : Instr) : Bool × Bool :=
  match i with
  | .hret _ => (true, false)
  | .ssr o => (csN o = 8 || csN o = 10, !([4, 5, 6, 8, 10].contains (csN o)))
  | _ => (false, false)

/-- Whether the present privilege allows a slot operation (R14, R40). -/
def Warp.allowed (w : Warp) (i : Instr) : Bool := let (h, never) := needsH i; !never && (w.priv || !h)

end Sys2Proof.Machine
end

