-- ==== Sys2Proof/Machine/Flags.lean ====
section
/-! DEFINITION. Completion flags, the first-event log and its events (R22, R31, R108). -/

namespace Sys2Proof.Machine

/-- A flag increment by an issue: bundles of later ticks see it (R22). -/
def Warp.incFlag (w : Warp) (f : Nat) : Warp :=
  { w with flags := FMap.put w.flags f (w.flag f + 1) 0, incs := FMap.put w.incs f (FMap.getD w.incs f 0 + 1) 0 }

/-- A flag decrement that lands with its data at the end of a tick (R144), or undoes an increment (R184). -/
def Warp.decFlag (w : Warp) (f : Nat) : Warp := { w with flags := FMap.put w.flags f (w.flag f - 1) 0 }

/-- A flag decrement by a completion in cycle `now`: a tick that begins in that cycle does not see it (R22). -/
def Warp.fallFlag (w : Warp) (now f : Nat) : Warp := { w.decFlag f with fell := (f, now) :: w.fell.filter fun p => p.2 = now }

/-- How often a flag fell in or after the cycle in which the present tick began (R22). -/
def Warp.fallen (w : Warp) (f : Nat) : Nat := (w.fell.filter fun p => p.1 = f && decide (w.tickStart ≤ p.2)).length

/-- A flag as a bundle of this tick sees it: increments of the same tick, and decrements of the cycle in which it began, are not seen (R22). -/
def Warp.seen (w : Warp) (f : Nat) : Nat := w.flag f + w.fallen f - FMap.getD w.incs f 0

/-- Whether a flag has room for more increments (R21). -/
def Warp.room (w : Warp) (f n : Nat) : Bool := decide (w.flag f + n ≤ 63)

/-- The classes of an event set that are recorded: inexact only while `sr.fen`[0] is 1 (R31, R108). -/
def Warp.recorded (w : Warp) (ev : BitVec 8) : BitVec 8 := if w.fen.getLsbD 0 then ev else ev &&& 0x7F

/-- The lowest class of an event set (R108). -/
def lowestClass (ev : BitVec 8) : Nat := ((List.range 8).find? fun i => ev.getLsbD i).getD 0

/-- Record one result's events: SEEN always, and the log when it is empty (R31). -/
def Warp.recordEvent (w : Warp) (slot : Nat) (ev : BitVec 8) (addr : DWord) : Warp :=
  let ev := w.recorded ev
  if ev = 0 then w
  else
    let w := { w with fes := w.fes ||| ev.setWidth 64 }
    if w.fel.getLsbD 63 then w
    else { w with fel := BitVec.ofNat 64 (2 ^ 63 + lowestClass ev * 2 ^ 60 + slot % 4 * 2 ^ 58 + bits addr.toNat 51 5) }

/-- The events that become visible in a tick, lowest slot first, then lowest lane (R31). Of two events of one slot and one lane, the one
later in the list stands first: DESIGN CHOICE, R31 does not order them (log 74). -/
def insertEvent (e : Nat × Nat × BitVec 8 × DWord) : List (Nat × Nat × BitVec 8 × DWord) → List (Nat × Nat × BitVec 8 × DWord)
  | [] => [e]
  | x :: xs => if e.1 < x.1 ∨ (e.1 = x.1 ∧ e.2.1 < x.2.1) then e :: x :: xs else x :: insertEvent e xs

/-- Record the events of landed results, each lane's own, in the order of R31; of one slot and one lane, the first of the list handed to
`insertEvent` is put in last and so stands behind: the later-issued result is recorded first (DESIGN CHOICE, log 74). -/
def Warp.recordAll (w : Warp) (xs : List Landing) : Warp :=
  let evs := xs.flatMap fun x => x.evs.map fun p => (x.slot, p.1, p.2, x.addr)
  (evs.foldr insertEvent []).foldl (fun w e => w.recordEvent e.1 e.2.2.1 e.2.2.2) w

/-- The first tick that sees a decrement: the present one, or the next when it has begun (R22). -/
def Warp.seesAt (w : Warp) (begun : Bool) : Nat := if begun then w.tick + 1 else w.tick

/-- Events of an X-slot operation that completed in cycle `now`: recorded at the first tick that sees its flag decrement (R22, R31, R108, R179). -/
def Warp.laterEvent (w : Warp) (begun : Bool) (now : Nat) (ev : BitVec 8) (addr : DWord) : Warp :=
  if ev = 0 then w else { w with pendEv := w.pendEv ++ [(w.seesAt begun, now, ev, addr)] }

/-- The tick that begins in cycle `now` sees none of the decrements of that cycle: their events and causes wait for the next one (R22, R31, R328). -/
def Warp.unsee (w : Warp) (now : Nat) : Warp :=
  { w with pendEv := w.pendEv.map fun e => if e.1 = w.tick ∧ e.2.1 = now then (w.tick + 1, e.2) else e
           deferred := w.deferred.map fun d => if d.tick = w.tick ∧ d.cycle = now then { d with tick := w.tick + 1 } else d }

/-- The deferred causes that the present tick sees, when it begins in cycle `now` (R328). -/
def Warp.deferredNow (w : Warp) (now : Nat) : List Deferred :=
  w.deferred.filter fun d => decide (d.tick < w.tick) || (d.tick = w.tick && decide (d.cycle < now))

end Sys2Proof.Machine
end

