-- ==== Sys2Proof/Machine/Timeline.lean ====
section
/-! DEFINITION. The timeline: scheduling a result, landing the results of a tick, and the end of a tick (R16 to R18, R30 to R32). -/

namespace Sys2Proof.Machine

/-- Put a landing among others: slot order V < M < X < C, then issue tick, then the order given (R18, R32). -/
def insertLanding (x : Landing) : List Landing → List Landing
  | [] => [x]
  | y :: ys => if x.slot < y.slot ∨ (x.slot = y.slot ∧ x.tick < y.tick) then x :: y :: ys else y :: insertLanding x ys

/-- The landings of one tick in the order in which later ones win (R18, R32). -/
def landingOrder (xs : List Landing) : List Landing := xs.foldl (fun acc x => insertLanding x acc) []

/-- Write a result to its register or predicate, lane by lane (R18, R32). An `ssr` in H of `sr.tsa` stores all 64 bits: what it does with a value that is
not 256-byte aligned is the model's choice, the spec being silent (DESIGN CHOICE, R14, log 87). -/
def Warp.land (w : Warp) (x : Landing) : Warp :=
  match x.dest with
  | .v r => x.lanes.foldl (fun w p => w.setV r p.1 p.2) w
  | .vp i => x.lanes.foldl (fun w p => w.setVp i p.1 (p.2 != 0)) w
  | .s r => w.setS r x.scalar
  | .sp i => w.setSp i (x.scalar.getLsbD 0)
  | .sr 4 => { w with fel := x.scalar &&& 0xFC00_7FFF_FFFF_FFFF }
  | .sr 5 => { w with fes := w.fes &&& ~~~(x.scalar &&& 0xFF) }
  | .sr 6 => { w with fen := x.scalar &&& 1 }
  | .sr 8 => { w with tsa := x.scalar }
  | .sr 10 => { w with epc := x.scalar }
  | .sr _ => w
  | .sd _ _ => w

/-- Whether a landing writes a special register: those take effect before the events of their tick (R31). -/
def Landing.isSr (x : Landing) : Bool := match x.dest with | .sr _ => true | _ => false

/-- The end of a tick for the warp's own state: `ssr` writes, results in order, their events and flags, the retired lanes; the
next tick begins in cycle `now` (R16, R18, R22, R30 to R32, R237). -/
def Warp.endTick (w : Warp) (now : Nat) : Warp :=
  let (here, rest) := w.flight.partition fun x => x.land ≤ w.tick
  let order := landingOrder here
  let w := (order.filter Landing.isSr).foldl Warp.land w
  let w := (order.filter fun x => !x.isSr).foldl Warp.land w
  let w := w.recordAll order
  let (evs, later) := w.pendEv.partition fun e => e.1 ≤ w.tick
  let w := evs.foldl (fun w e => w.recordEvent 2 e.2.2.1 e.2.2.2) w
  let w := order.foldl (fun w x => match x.dec with | some (some f) => w.decFlag f | _ => w) w
  { w with flight := rest, landed := order.filter fun x => 1 ≤ x.slot, pendEv := later, mask := w.mask &&& ~~~w.retire, retire := 0,
           incs := [], tick := w.tick + 1, tickStart := now, opened := false, inTick := false }

/-- Schedule a result: it lands at the end of tick `land` (R33 `LandAt`). -/
def Warp.push (w : Warp) (x : Landing) : Warp := { w with flight := w.flight ++ [x] }

/-- A landing of a vector result with latency `lat` from the issue tick (R18). -/
def Warp.vecLanding (w : Warp) (slot lat : Nat) (dest : Dest) (u : Unit') (lanes : FMap Word) (evs : FMap (BitVec 8)) : Landing :=
  { slot := slot, tick := w.tick, land := w.tick + lat - 1, dest := dest, unit := u, lanes := lanes, scalar := 0,
    evs := evs.filter fun e => e.2 != 0, addr := w.pc, dec := none }

/-- A landing of a scalar result with latency `lat` from the issue tick (R18, R33 `LandScalar`). -/
def Warp.scalarLanding (w : Warp) (slot lat : Nat) (dest : Dest) (u : Unit') (x : DWord) (ev : BitVec 8) : Landing :=
  { slot := slot, tick := w.tick, land := w.tick + lat - 1, dest := dest, unit := u, lanes := [], scalar := x,
    evs := if ev = 0 then [] else [(0, ev)], addr := w.pc, dec := none }

/-- Results that R18 or R32 already overwrote: a scalar or lane that a later-issued M-slot result or a C-slot result of the
last tick wrote (R144). -/
def Warp.displaced (w : Warp) (x : Landing) : Landing :=
  let later := w.landed.filter fun y => y.dest = x.dest && (1 < y.slot || decide (x.tick < y.tick))
  match x.dest with
  | .s _ => if later = [] then x else { x with dest := .sr 255 }
  | _ => { x with lanes := x.lanes.filter fun p => !later.any fun y => (FMap.find y.lanes p.1).isSome }

/-- Land an asynchronous result: at the end of the tick that has begun, or at once when the timeline stopped at the end of the last one, among
whose results it then counts (R144). -/
def Warp.landAsync (w : Warp) (begun : Bool) (xs : List Landing) : Warp :=
  if begun then { w with flight := w.flight ++ xs.map fun x => { x with land := w.tick } }
  else
    let w := xs.foldl (fun w x => { w.land (w.displaced x) with landed := w.landed ++ [x] }) w
    xs.foldl (fun w x => match x.dec with | some (some f) => w.decFlag f | _ => w) w

/-- Whether a result that lands by the end of the present tick has lanes still to come: the timeline freezes (R21). -/
def Warp.unready (w : Warp) : Bool := w.flight.any fun x => decide (x.land ≤ w.tick) && x.want != []

/-- Stop the timeline for a reason; a hold that has ended stays ended (R215). -/
def Warp.pause (w : Warp) (st : Stop) : Warp :=
  { w with stop := st, ended := match w.stop with
      | .mdone p => some p
      | .run => none
      | _ => w.ended }

/-- The timeline moves again, from where it stopped (R21, R215). -/
def Warp.moveOn (w : Warp) : Warp :=
  { w with ended := none, stop := match w.ended with
      | some p => .mdone p
      | none => .run }

/-- Drop whatever is still to land: a warp that ends discards its results in flight (R30). -/
def Warp.discard (w : Warp) : Warp := { w with flight := [], pendEv := [], fell := [] }

end Sys2Proof.Machine
end

