-- ==== Sys2Proof/Machine/Ops.lean ====
section
/-! DEFINITION. The shared operations: barriers, the end of a warp, the successor of a bundle, taking an exception and returning
from one (R30, R224, R228 to R231, R328 to R342). -/

namespace Sys2Proof.Machine

/-! ## Regions and identities -/

/-- The effective value of an RCB field: its own when its override bit is 1, else the parent's, over at most 8 levels (R288). -/
def State.rcbEff {α : Type} (s : State) (bitNo : Nat) (get : Rcb → α) (dflt : α) : Nat → Nat → α
  | 0, _ => dflt
  | n + 1, a =>
    match FMap.find s.rcbs a with
    | none => dflt
    | some r => if bit r.ovr bitNo then get r else s.rcbEff bitNo get dflt n r.parent

/-- The path of RCB addresses from a region to its root (R289). -/
def State.rcbPath (s : State) : Nat → Nat → List Nat
  | 0, _ => []
  | n + 1, a =>
    match FMap.find s.rcbs a with
    | none => []
    | some r => a :: if r.parent = 0 then [] else s.rcbPath n r.parent

/-- The task of a warp. -/
def State.taskOf (s : State) (w : Warp) : Option Task := (s.block? w.block).bind fun b => FMap.find s.tasks b.task

/-- `sr.wid` (R15). -/
def State.wid (s : State) (c k : Nat) (w : Warp) : DWord :=
  let rank := match s.block? w.block with | some b => b.grank | none => 0
  BitVec.ofNat 64 (c * 2 ^ 40 + clusterOf c * 2 ^ 32 + rank * 2 ^ 24 + w.role * 2 ^ 16 + w.windex * 2 ^ 8 + k)

/-! ## Barriers (R228 to R231) -/

/-- The warps a barrier counts: those of the block, or of every block of the gang. -/
def State.partOf (s : State) (cluster : Bool) (b : Nat) : List (Nat × Nat) :=
  match s.block? b with
  | none => []
  | some x =>
    if cluster then
      match FMap.find s.tasks x.task with
      | some t => t.blocks.flatMap fun i => match s.block? i with
        | some y => y.warps.map fun k => (y.core, k)
        | none => []
      | none => []
    else x.warps.map fun k => (x.core, k)

/-- Whether a warp has not ended. -/
def State.alive (s : State) (p : Nat × Nat) : Bool :=
  match s.warp? p.1 p.2 with
  | some w => w.stop != .ended
  | none => false

/-- An empty barrier. -/
def Barrier.empty : Barrier := ⟨[], none, 0⟩

/-- A barrier of a block, or of its gang. -/
def State.barrier (s : State) (cluster : Bool) (b id : Nat) : Barrier :=
  match s.block? b with
  | none => Barrier.empty
  | some x =>
    if cluster then match FMap.find s.tasks x.task with
      | some t => FMap.getD t.cbars id Barrier.empty
      | none => Barrier.empty
    else FMap.getD x.bars id Barrier.empty

/-- Write a barrier. -/
def State.setBarrier (s : State) (cluster : Bool) (b id : Nat) (v : Barrier) : State :=
  match s.block? b with
  | none => s
  | some x =>
    if cluster then s.modTask x.task fun t => { t with cbars := FMap.set t.cbars id v }
    else s.modBlock b fun x => { x with bars := FMap.set x.bars id v }

/-- Whether a hold is that of an arrival at a barrier: its predicate. -/
def Hold.at? (cluster : Bool) (id : Nat) : Option Hold → Option Nat
  | some (.bar cl i d _) => if cl = cluster ∧ i = id then some d else none
  | _ => none

/-- The hold of an arrival ends in cycle `now`: its predicate is written, and the warp goes on, or stays stopped where a pre-emption found it (R216,
R229, R344). The predicate of interrupted code is written when its handler returns (R330). -/
def Warp.endBar (w : Warp) (now d : Nat) (kept p : Bool) : Warp :=
  if kept then { w with kept := some (.barDone d p) }
  else { w with hold := none, notBefore := now + 1, since := now
                stop := if w.preempt && !w.opened && w.tick = w.due && w.stop = Stop.run then .stopped else w.stop }.setSp d p

/-- A barrier released with its predicate 1, or became unreachable, for one warp (R229, R230). -/
def Warp.freeBar (w : Warp) (now : Nat) (cluster : Bool) (id : Nat) (ok : Bool) : Warp :=
  let go := fun (kept : Bool) (d : Nat) (w : Warp) => if ok then w.endBar now d kept true
    else if kept then { w with kept := some .barTrap } else { w with hold := some .barTrap, notBefore := now + 1 }
  let w := match Hold.at? cluster id w.hold with
    | some d => go false d w
    | none => w
  match Hold.at? cluster id w.kept with
  | some d => go true d w
  | none => w

/-- The warps that have arrived at a barrier, each still of the block, or of its gang. -/
def State.arrivedOf (s : State) (cluster : Bool) (b id : Nat) : List (Nat × Nat) :=
  ((s.barrier cluster b id).arrived.map fun i => (i / 32, i % 32)).filter fun p => match s.warp? p.1 p.2 with
    | none => false
    | some w => w.block = b || (cluster && (s.block? w.block).map Block.task = (s.block? b).map Block.task)

/-- Release every holding warp of a barrier, or trap it when the barrier is unreachable, and empty the barrier (R229, R230);
a cluster release advances its Tamper's pointer, by one in a cycle however many release (R231, R380). -/
def State.clearBarrier (s : State) (cluster : Bool) (b id : Nat) (ok : Bool) : State :=
  let v := s.barrier cluster b id
  let s := (s.arrivedOf cluster b id).foldl (fun s p => s.modWarp p.1 p.2 fun w => w.freeBar s.cycle cluster id ok) s
  let s := s.setBarrier cluster b id ⟨[], none, (v.gen + 1) % 2 ^ 32⟩
  match cluster && ok, s.block? b with
  | true, some x =>
    let k := clusterOf x.core
    if FMap.find s.tamperAt k = some s.cycle then s
    else { s with tampers := FMap.set s.tampers k ((FMap.getD s.tampers k 0 + 1) % 8), tamperAt := FMap.set s.tamperAt k s.cycle }
  | _, _ => s

/-- Check one barrier after an arrival, exit, kill or withdrawal (R228, R230). -/
def State.checkBarrier (s : State) (cluster : Bool) (b id : Nat) : State :=
  let v := s.barrier cluster b id
  let ws := s.partOf cluster b
  let inSet := fun (p : Nat × Nat) => v.arrived.contains (warpId p.1 p.2)
  match v.form with
  | none => s
  | some none =>
    if v.arrived != [] && ws.all fun p => inSet p || !s.alive p then s.clearBarrier cluster b id true else s
  | some (some n) =>
    let live := (ws.filter fun p => !inSet p && s.alive p).length
    if n ≤ v.arrived.length then s.clearBarrier cluster b id true
    else if v.arrived.length + live < n then s.clearBarrier cluster b id false
    else s

/-- Check every barrier of a block and its gang. -/
def State.checkBarriers (s : State) (b : Nat) : State :=
  (List.range 16).foldl (fun s i => (s.checkBarrier false b i).checkBarrier true b i) s

/-- Take a warp out of the arrival sets, when it is killed or withdraws (R229, R230): an emptied generation loses its form. -/
def State.unarrive (s : State) (c k b : Nat) (p : Bool → Nat → Barrier → Bool) : State :=
  [false, true].foldl (fun s cl => (List.range 16).foldl (fun s i =>
    let v := s.barrier cl b i
    if v.arrived.contains (warpId c k) && p cl i v then
      let left := v.arrived.filter (· ≠ warpId c k)
      s.setBarrier cl b i { v with arrived := left, form := if left = [] then none else v.form }
    else s) s) s

/-- The stream writes and releases among landings take effect (R169, R197). -/
def State.streamLandings (s : State) (c : Nat) (xs : List Landing) : State :=
  let ws := xs.filterMap fun x => match x.dest with
    | .sd n w => some (n, w, x.scalar)
    | _ => none
  if ws = [] then s else s.modCore c fun y => ws.foldl (fun y p => y.streamLand p.1 p.2.1 p.2.2) y

/-! ## The end of a warp (R30) -/

/-- The barrier arrivals of a warp whose timeouts passed before the present cycle: whether it stands behind a handler, the barrier and the
predicate. -/
def lapsed (now : Nat) (w : Warp) : List (Bool × Bool × Nat × Nat) :=
  let of := fun (kept : Bool) (h : Option Hold) => match h with
    | some (.bar cl i d (some t)) => if t < now then [(kept, cl, i, d)] else []
    | _ => []
  of false w.hold ++ of true w.kept

/-- Withdraw an arrival whose timeout has passed: the predicate becomes 0 and the warp goes on (R229, R230). -/
def State.withdraw (s : State) (c k : Nat) (w : Warp) (x : Bool × Bool × Nat × Nat) : State :=
  let s := s.unarrive c k w.block fun cl i _ => cl = x.2.1 && i = x.2.2.1
  s.modWarp c k fun w => w.endBar s.cycle x.2.2.2 x.1 false

/-- Withdraw the arrivals at a barrier whose timeouts passed before the present cycle; one that passes in it still counts (R229). -/
def State.lapse (s : State) (cluster : Bool) (b id : Nat) : State :=
  (s.arrivedOf cluster b id).foldl (fun s p => match s.warp? p.1 p.2 with
    | none => s
    | some w => match (lapsed s.cycle w).find? fun x => x.2.1 = cluster && x.2.2.1 = id with
      | some x => s.withdraw p.1 p.2 w x
      | none => s) s

/-- The same at every barrier of a block and its gang. -/
def State.lapseAll (s : State) (b : Nat) : State := (List.range 16).foldl (fun s i => (s.lapse false b i).lapse true b i) s

/-- End a warp: it issues no further bundle, its results in flight are discarded, its monitor is freed, and barriers see it gone. A
killed warp also leaves the explicit barriers it had arrived at (R230). -/
def State.endWarp (s : State) (c k : Nat) (killed : Bool) : State :=
  match s.warp? c k with
  | none => s
  | some w =>
    if w.stop = .ended then s
    else
      let s := s.lapseAll w.block
      let s := s.streamLandings c (w.flight.filter fun x => match x.dest with | .sd _ n => n = 4 | _ => false)
      let s := s.setWarp c k { w.discard with stop := .ended, since := s.cycle, hold := none, kept := none, trap := none, mask := 0,
                                              retire := 0, opened := false, deferred := [], ended := none, awaits := none }
      let s := { s with monitors := s.monitors.filter fun m => !(m.core = c && m.slot = k) }
      let s := s.modCore c fun x => { x with ops := x.ops.map fun o => if o.slot = k then { o with dead := true } else o }
      let s := if killed then s.unarrive c k w.block fun _ _ v => match v.form with | some (some _) => true | _ => false else s
      (s.forget c k).checkBarriers w.block

/-- Kill every warp of a block. -/
def State.killBlock (s : State) (b : Nat) : State :=
  match s.block? b with
  | none => s
  | some x => x.warps.foldl (fun s k => s.endWarp x.core k true) s

/-- The pace of the tile engine once an operation has left its queue in cycle `now`: an emptied queue is followed by filler, and a request that nothing
waits for is withdrawn (R381). -/
def CoreSt.settleRamp (x : CoreSt) (now : Nat) : CoreSt :=
  if x.xops.any (·.tile) then x
  else { x with ramp := match x.ramp with
    | .moving level at' last => .filler level at' last now
    | .requested _ => .idle
    | r => r }

/-- Drop the engine operations of a block that have not started, undoing their flag increments (R184, R318). -/
def State.dropQueued (s : State) (b : Nat) : State :=
  match s.block? b with
  | none => s
  | some x =>
    let gone := (s.core x.core).xops.filter fun o => o.block = b && o.stage = .queued
    let s := s.modCore x.core fun y => ({ y with xops := y.xops.filter fun o => !(o.block = b && o.stage = .queued) } : CoreSt).settleRamp s.cycle
    let lost := s.txs.filter fun t => gone.any fun o => o.tx = some t.id
    let s := { s with txs := s.txs.filter fun t => !lost.any fun u => u.id = t.id
                      starved := (s.starved.map fun p => (p.1, p.2.filter fun r => !lost.any fun u => u.ts = r)).filter fun p => p.2 != [] }
    gone.foldl (fun s o => s.modWarp x.core o.slot fun w => w.decFlag o.flag) s

/-- Kill a task: every warp of its gang (R343, R318). -/
def State.killTask (s : State) (t : Nat) : State :=
  match FMap.find s.tasks t with
  | none => s
  | some x =>
    let s := x.blocks.foldl (fun s b => (s.killBlock b).dropQueued b) s
    s.modTask t fun x => { x with killed := true, saved := [] }

/-! ## The successor of a bundle (R224) -/

/-- Unwind the levels that a taken branch leaves, innermost first. -/
def unwind (tgt : DWord) : List LoopLevel → List LoopLevel
  | [] => []
  | l :: ls => if tgt < l.start ∨ l.stop < tgt then unwind tgt ls else l :: ls

/-- The loop step at a bundle that took no branch: the levels that end here, and the next address. -/
def loopStep (b : DWord) : List LoopLevel → List LoopLevel × DWord
  | [] => ([], b + 32)
  | l :: ls =>
    if b = l.stop then
      if l.count.toNat > 1 then ({ l with first := false, count := l.count - 1 } :: ls, l.start) else loopStep b ls
    else (l :: ls, b + 32)

/-- `Successor` of R224: the loop stack and the next address. -/
def successor (b : DWord) (ctl : Ctl) (loops : List LoopLevel) : List LoopLevel × DWord :=
  match ctl with
  | .branch tgt u => (if u then unwind tgt loops else loops, tgt)
  | _ => loopStep b loops

/-- The snapshot of a pop made before cycle `now`, which the core takes in the cycle after the pop: the counters copied, and BCSNAP (R364). -/
def CoreSt.takeSnapshot (x : CoreSt) (now : Nat) : CoreSt :=
  match x.bank.pend with
  | some (t, k, d) =>
    if t < now then
      { x with snapshot := x.counters
               bank := { x.bank with cycle := (t + 1 - x.cycle0) % 2 ^ 32, seq := (x.bank.seq + 1) % 2 ^ 16, slot := k, depth := d, pend := none } }
    else x
  | none => x

/-- Note a pop that takes a snapshot of the bank-conflict counters; pops of one cycle take one, which names the lowest slot (R364). -/
def State.notePop (s : State) (c k before after : Nat) : State :=
  s.modCore c fun x =>
    if after < before && x.bank.snapen && decide (after ≤ min x.bank.snapdepth 3) then
      let x := x.takeSnapshot s.cycle
      match x.bank.pend with
      | some (_, j, d) => { x with bank := { x.bank with pend := if j ≤ k then some (s.cycle, j, d) else some (s.cycle, k, after) } }
      | none => { x with bank := { x.bank with pend := some (s.cycle, k, after) } }
    else x

/-- Choose the successor of the bundle just issued: the loop step and the tick at which the next bundle is due (R16, R224). -/
def State.advance (s : State) (c k : Nat) : State :=
  match s.warp? c k with
  | none => s
  | some w =>
    match w.ctl with
    | .done => s.setWarp c k { w with ctl := .none }
    | ctl =>
      let (loops, pc) := successor w.pc ctl w.loops
      let s := s.setWarp c k { w with loops := loops, pc := pc, due := w.tick + w.gap, ctl := .none, replay := none, brt := none,
                                      stretched := false, holdNext := w.holdNext && w.priv }
      s.notePop c k w.loops.length loops.length

/-- The end of the present tick of a warp, with the stream words that land at it (R16, R169). -/
def State.endTick (s : State) (c k : Nat) : State :=
  match s.warp? c k with
  | none => s
  | some w =>
    let s := s.streamLandings c (w.flight.filter fun x => x.land ≤ w.tick)
    let w' := w.endTick s.cycle
    let s := s.setWarp c k w'
    if w'.mask = 0 then s.endWarp c k false else s

/-! ## Taking an exception -/

/-- The DEST code of a record (R336). -/
def Dest.code : Dest → Option Nat
  | .v r => some r
  | .s r => some (0x80 + r)
  | .vp i => some (0xC0 + i)
  | .sp i => some (0xC8 + i)
  | _ => none

/-- The UNIT code of a record (R336). -/
def Unit'.code : Unit' → Nat
  | .lva => 0
  | .lvf => 1
  | .lvx => 2
  | .lmd => 3
  | .lcs => 4
  | .none => 5

/-- Whether a later landing of the same tick overwrites `x` (R18, R32). -/
def Landing.beats (y x : Landing) : Bool :=
  y.dest = x.dest && y.land = x.land && (decide (x.slot < y.slot) || (x.slot = y.slot && decide (x.tick < y.tick)))

/-- The results in flight as the records save them: lanes that R18 or R32 would overwrite are cleared (R331). -/
def Warp.savable (w : Warp) : List Landing :=
  w.flight.map fun x => { x with lanes := x.lanes.filter fun p => !w.flight.any fun y => y.beats x && (FMap.find y.lanes p.1).isSome }

/-- The words of a record header: word 0, the scalar value at byte 8, EADDR at byte 16 (R336). -/
def recordHeader (x : Landing) (tn nw : Nat) : Nat × Nat × Nat :=
  let ev := x.evs.foldl (fun e p => e ||| p.2) (0 : BitVec 8)
  (((Dest.code x.dest).getD 0) + x.unit.code * 2 ^ 8 + x.slot % 4 * 2 ^ 11 + (x.land - tn) % 32 * 2 ^ 16 + nw * 2 ^ 24 +
      ev.toNat * 2 ^ 32, x.scalar.toNat, if ev = 0 then 0 else bits x.addr.toNat 51 5)

/-- One block of a vector or predicate record: the active bits of a mask word and its lane values (R336). -/
def recordBlock (x : Landing) (i : Nat) : Nat :=
  let lanes := (List.range 32).map fun j => FMap.find x.lanes (32 * i + j)
  let act := (lanes.zipIdx).foldl (fun a p => a + if p.1.isSome then 2 ^ p.2 else 0) 0
  let vals := lanes.foldr (fun v a => (v.getD 0).toNat + 2 ^ 32 * a) 0
  act + vals * 2 ^ 256

/-- The records of the results in flight, as (offset, bytes, value), and the end of the last one (R334, R336). -/
def recordFields (sum : List Nat) (tn : Nat) : List Landing → Nat → List (Nat × Nat × Nat)
  | [], _ => []
  | x :: xs, at' =>
    match x.dest with
    | .s _ | .sp _ =>
      let (h, v, e) := recordHeader x tn 0
      (at', 32, h + v * 2 ^ 64 + e * 2 ^ 128) :: recordFields sum tn xs (at' + 32)
    | _ =>
      let (h, _, e) := recordHeader x tn sum.length
      (at', 32, h + e * 2 ^ 128) ::
        (sum.zipIdx.map fun p => (at' + 32 + 160 * p.2, 160, recordBlock x p.1)) ++
        recordFields sum tn xs (at' + 32 + 160 * sum.length)

/-- Put a record among others: ascending offset, then as it was issued, by tick and slot: results come to `flight` in that order, and those of records
come back in theirs (R334). -/
def insertRecord (x : Landing) : List Landing → List Landing
  | [] => [x]
  | y :: ys => if x.land < y.land then x :: y :: ys else y :: insertRecord x ys

/-- The results in flight that records hold, in the order of an area (R331, R334, R336). -/
def Warp.records (w : Warp) : List Landing :=
  (w.savable.filter fun x => (Dest.code x.dest).isSome).foldl (fun acc x => insertRecord x acc) []

/-- Whether some lane of a record lands (R339). -/
def Landing.lands (x : Landing) : Bool := match x.dest with
  | .s _ => true
  | .sp _ => true
  | _ => x.lanes != []

/-- A result as its record keeps it: its lanes, and the classes of all of them together (R336). -/
def Landing.asRecord (x : Landing) : Landing :=
  let ev := x.evs.foldl (fun e p => e ||| p.2) (0 : BitVec 8)
  { x with evs := if ev = 0 then [] else [(0, ev)] }

/-- The lane predicates of an area: vp0 is stored with a one for each lane of the width (R334, R449). -/
def Warp.vpredImage (w : Warp) : Nat := w.vpred.toNat / 2 ^ 1024 * 2 ^ 1024 + (2 ^ w.width - 1)

/-- The trap save area of a warp (R334 to R336), as (offset, bytes, value); `priv` is IMASK[32], `imask` the summary word. -/
def Warp.areaFields (w : Warp) (t : Trap) (imask : Nat) (privBit : Bool) (snapshot : Bool) : List (Nat × Nat × Nat) :=
  let recs := w.records
  let sum := (List.range w.k).filter fun i => w.summary.testBit i
  let head := 1 + t.tib % 64 * 2 ^ 16 + t.cause % 1024 * 2 ^ 30 + t.slot % 4 * 2 ^ 40 + (if t.defer then 2 ^ 42 else 0) +
    t.replay % 16 * 2 ^ 44 + recs.length * 2 ^ 48
  let map := recs.foldl (fun m x => m ||| 2 ^ ((x.land - t.tn) % 32)) 0
  let flags := (List.range 16).foldr (fun f a => w.flag f + 64 * a) 0
  let outer := w.loops.reverse
  let level := fun (i : Nat) (l : LoopLevel) =>
    (0x060 + 24 * i, 24, l.start.toNat + l.stop.toNat * 2 ^ 64 + (l.count.toNat + if l.first then 2 ^ 32 else 0) * 2 ^ 128)
  let empty := (List.range 4).map fun i => (0x060 + 24 * i, 24, 0)
  [(0x000, 8, head), (0x008, 8, t.rpc.toNat), (0x010, 8, t.faddr.toNat),
   (0x018, 8, match t.brt with | some b => 1 + bits b.toNat 51 5 * 32 | none => 0),
   (0x020, 8, imask + if privBit then 2 ^ 32 else 0), (0x028, 8, t.tn), (0x030, 8, t.info), (0x038, 8, 0), (0x040, 8, map),
   (0x048, 16, if snapshot then flags else 0), (0x058, 8, 0)] ++
  empty ++ (outer.zipIdx.map fun p => level p.2 p.1) ++
  [(0x0C0, 8, outer.length + (w.spred ||| 1).toNat * 2 ^ 8), (0x0C8, 8, w.fel.toNat), (0x0D0, 8, w.fes.toNat), (0x0D8, 40, 0),
   (0x100, 512, (List.range 64).foldr (fun r a => (w.s r).toNat + 2 ^ 64 * a) 0), (0x300, 128, w.mask.toNat),
   (0x380, 1024, w.vpredImage), (0x780, 128, 0)] ++
  recordFields sum t.tn recs 0x800

/-- Write fields at an address of a translation context; none when a page cannot be written (R333). Two translations suffice for a
field, which touches at most two pages. -/
def State.putFields (s : State) (c asid view : Nat) (priv : Bool) (base : Nat) : List (Nat × Nat × Nat) → Option State
  | [] => some s
  | (off, n, v) :: fs =>
    match s.xlate c asid view (base + off) .write priv, s.xlate c asid view (base + off + (n - 1)) .write priv with
    | .ok t, .ok u =>
      let room := t.va + t.size - (base + off) % 2 ^ 52
      let s := s.learn c t
      let s := if n ≤ room then s.homePut (t.paOf (base + off)) n v 1 (352 + c)
        else (s.homePut (t.paOf (base + off)) room v 1 (352 + c)).homePut (u.paOf (base + off + room)) (n - room) (v / 256 ^ room) 1 (352 + c)
      s.putFields c asid view priv base fs
    | _, _ => none

/-- A fault inside the handler escalates to CP firmware: the warp is killed, a record is written, the area is kept for a dump, and ESCALATED is posted
(R341). -/
def State.escalate (s : State) (c k cause : Nat) : State :=
  match s.warp? c k with
  | none => s
  | some w =>
    let fdom := match s.taskOf w with | some t => t.fdom | none => 0
    let (asid, view) := s.ctxOf w.block c
    let wid := s.wid c k w
    let words : List DWord := [BitVec.ofNat 64 cause, BitVec.ofNat 64 c, BitVec.ofNat 64 k, wid, w.tsa]
    let words' := ((List.range w.k).filter fun i => (summaryOf (if w.priv then w.entryMask else w.mask) w.k).testBit i).length
    let s := s.faultRecord (BitVec.ofNat 64 fdom :: words)
    let s := { s with areas := s.areas ++ [(⟨c, asid, view, w.tsa.toNat, words'⟩ : KeptArea)] }
    (s.postFor asid ⟨5, fdom, asid, words, none⟩).endWarp c k true

/-- A free active position of a core (R24). -/
def freePosition (xs : FMap Warp) : Option Nat := (List.range 8).find? fun i => !xs.any fun p => p.2.position = some i

/-- Trap entry (R331): the area is written, `sr.cause`, `sr.epc` and `sr.imask` set, the loop stack and latches emptied, privilege H
entered, s1 to s3 loaded, the L1 invalidated, and the handler's first bundle is due at Tn. A warp that its held trap took out of the active set takes a
position that is free (R322; log 75). -/
def State.enterTrap (s : State) (c k : Nat) (w : Warp) (t : Trap) : State :=
  let (asid, view) := s.ctxOf w.block c
  match s.putFields c asid view true w.tsa.toNat (w.areaFields t w.summary false true) with
  | none => s.escalate c k t.cause
  | some s =>
    let handler := match s.taskOf w with | some x => x.handler | none => 0
    let w := { w with cause := BitVec.ofNat 64 t.cause, epc := t.epc, imask := BitVec.ofNat 64 w.summary, loops := [], flight := [],
                      landed := [], priv := true, entryMask := w.mask, trap := none, stop := .run, since := s.cycle, hold := none,
                      kept := w.hold, fetch := [], lastLine := none, replay := none, brt := none, step := false, stretched := false,
                      keptStretch := w.stretched, pc := handler, due := t.tn, tick := t.tn, opened := false, ctl := .none, incs := [], inTick := false,
                      awaits := none, position := w.position.or (freePosition (s.core c).warps) }
    let w := ((w.setS 1 (BitVec.ofNat 64 t.cause)).setS 2 t.faddr).setS 3 w.tsa
    let s := (s.setWarp c k w).l1Invalidate c
    match s.cardOfBlock w.block, s.taskOf w with
    | some d, some x => s.traceRec 12 (352 + c) c d.queue d.seq x.number t.cause
    | _, _ => s.traceRec 12 (352 + c) c 0 0 0 t.cause

/-- Whether a warp waits for asynchronous results, or for lines of an `ldc` that a record must hold (R21, R148, R331). -/
def State.asyncOpen (s : State) (c k : Nat) : Bool :=
  (s.core c).ops.any (fun o => o.slot = k && o.kind != .fence && !o.dead) ||
    match s.warp? c k with
    | some w => w.flight.any fun x => x.want != []
    | none => false

/-- The special-register and stream writes of the trapped tick: no record can hold them, so they take effect at entry (log 31);
asynchronous results that arrived in it land, as at the end of tick Tn − 1 (R331). -/
def State.flushSr (s : State) (c k : Nat) : State :=
  match s.warp? c k with
  | none => s
  | some w =>
    let s := s.streamLandings c w.flight
    let (arrived, rest) := w.flight.partition fun x => x.dec.isSome
    let w := { w with opened := false, flight := rest.filter fun x => (Dest.code x.dest).isSome }.landAsync false arrived
    s.setWarp c k ((rest.filter Landing.isSr).foldl Warp.land w)

/-- Enter a pending trap when nothing it waits for is left: no asynchronous result in flight, no speculation (R322, R331). -/
def State.tryEnter (s : State) (c k : Nat) : State :=
  match s.warp? c k with
  | none => s
  | some w =>
    match w.trap with
    | none => s
    | some t => if s.asyncOpen c k || s.speculating w.block then s else s.enterTrap c k w t

/-- The pending warp that takes an active position left free: a ready one first, then the one pending longest, at no cost in cycles. DESIGN
CHOICE: R25 and R26 give swaps only, and no rule fills a position that an ended, saved or trap-holding warp leaves (log 75). -/
def nextPending (xs : FMap Warp) (ready : Warp → Bool) : Option Nat :=
  let pend := xs.filter fun p => p.2.position.isNone && p.2.stop != .ended && p.2.stop != .trap
  let pool := if pend.any fun p => ready p.2 then pend.filter fun p => ready p.2 else pend
  (pool.foldl (fun (b : Option (Nat × Nat)) p => match b with
    | some (m, _) => if p.2.moved < m then some (p.2.moved, p.1) else b
    | none => some (p.2.moved, p.1)) none).map (·.2)

/-- The slots that issue from the bundle due, whose hold stands before it (R216, R330): a hold that the replayed bundle itself started stands
before its successor. -/
def Warp.holdHere (w : Warp) : Option Hold := if w.holdNext && !w.priv then none else w.hold

/-- Whether a hold stands before the bundle due (R216). -/
def Warp.heldNow (w : Warp) : Bool :=
  match w.holdHere with
  | none => false
  | some .barTrap => w.preempt
  | some _ => true

/-- Whether a pending warp is ready: no wait, freeze or barrier holds it; a hold before the successor holds nothing in the ticks before it (R25,
R216). -/
def Warp.ready (w : Warp) : Bool :=
  w.position.isNone && match w.stop with
    | .run => !w.heldNow || w.opened || decide (w.tick < w.due)
    | .mdone _ => true
    | _ => false

/-- Give the position of a warp that holds a trap to a pending warp: a held trap is swapped out of the active set (R322). -/
def State.swapHeld (s : State) (c k : Nat) : State :=
  match s.warp? c k with
  | none => s
  | some w =>
    if !s.speculating w.block || w.position.isNone then s
    else
      let s := s.setWarp c k { w with position := none, moved := s.cycle }
      match nextPending (s.core c).warps Warp.ready with
      | some j => s.modWarp c j fun v => { v with position := w.position, moved := s.cycle, since := s.cycle }
      | none => s

/-- Take a trap (R328, R331): in privilege H it escalates (R332, R341); otherwise the timeline stops and the entry follows at once when
nothing holds it. -/
def State.takeTrap (s : State) (c k : Nat) (t : Trap) : State :=
  match s.warp? c k with
  | none => s
  | some w =>
    if w.priv then s.escalate c k t.cause
    else
      let s := s.flushSr c k
      let s := { s with monitors := s.monitors.filter fun m => !(m.core = c && m.slot = k) }
      let s := s.modWarp c k fun w => { w with trap := some t, stop := .trap, since := s.cycle, opened := false, retire := 0, ended := none,
                                               awaits := none, inTick := false, keptRetire := w.keptRetire ||| w.retire }
      (s.swapHeld c k).tryEnter c k

/-- The present slots of the bundle at an address, as REPLAY bits; all four when it cannot be read (R329, R335). -/
def State.presentAt (s : State) (c : Nat) (w : Warp) (a : DWord) : Nat :=
  let (asid, view) := s.ctxOf w.block c
  match s.xlate c asid view a.toNat .fetch w.priv with
  | .error _ => 15
  | .ok t =>
    let pa := t.paOf a.toNat
    let h := match s.localAddr pa with
      | some x => s.devGet x 4
      | none => s.hostGet pa.addr 4
    bits h 12 9

/-- The values of R329 for a trap taken before its bundle takes effect: fetch, decode, C-slot issue check, HALT_REQUEST; `present`
are the bundle's slots. -/
def trapBefore (w : Warp) (cause slot : Nat) (faddr : DWord) (info present : Nat) : Trap :=
  { cause := cause, slot := slot, faddr := faddr, info := info, tn := w.tick, rpc := w.pc, tib := 0,
    replay := w.replay.getD present, brt := w.brt, defer := false, epc := w.pc }

/-- A fetch cause: SLOT 0 and REPLAY 1111, and the bundle issues whole once fetched (R329, R442). INFO is that of an access in classes 3 and 4, and 0 for
any other cause (R334). -/
def trapFetch (w : Warp) (cause : Nat) : Trap :=
  { trapBefore w cause 0 w.pc (if cause / 64 = 3 then 3 else 0) 15 with replay := 15 }

/-- A trap at the end of the tick of a bundle that is closed: it resumes at the successor (R215, R329, R342). -/
def State.trapClosed (s : State) (c k cause : Nat) (info : Nat) : State :=
  match s.warp? c k with
  | none => s
  | some w =>
    let s := s.endTick c k
    let t : Trap := { cause := cause, slot := 3, faddr := 0, info := info, tn := w.tick + 1, rpc := w.pc, tib := w.gap - 1,
                      replay := s.presentAt c w w.pc, brt := none, defer := false, epc := w.pc }
    if s.alive (c, k) then s.takeTrap c k t else s

/-- A trap after every other slot of its bundle has taken effect (R215, R329). -/
def State.trapAfter (s : State) (c k cause : Nat) (info : Nat) : State := (s.advance c k).trapClosed c k cause info

/-! ## Returning from an exception -/

/-- A 64-bit word of an area image held as a number. -/
def word (x off : Nat) : Nat := (x / 2 ^ (8 * off)) % 2 ^ 64

/-- Read bytes of a translation context; none when a page cannot be read. -/
def State.getFields (s : State) (c asid view : Nat) (priv : Bool) (base n : Nat) : Option Nat :=
  match s.xlate c asid view base .read priv, s.xlate c asid view (base + (n - 1)) .read priv with
  | .ok t, .ok u =>
    let room := t.va + t.size - base % 2 ^ 52
    let get := fun (pa : Pa) n => (s.homeGet pa n 0 (352 + c)).1
    if n ≤ room then some (get (t.paOf base) n)
    else some (get (t.paOf base) room + 256 ^ room * get (u.paOf (base + room)) (n - room))
  | _, _ => none

/-- The destination of a DEST code (R336). -/
def destOfCode (d : Nat) : Option Dest :=
  if d < 0x80 then some (.v d) else if d < 0xC0 then some (.s (d - 0x80)) else if d < 0xC8 then some (.vp (d - 0xC0))
  else if d < 0xD0 then some (.sp (d - 0xC8)) else none

/-- The latch of a UNIT code (R336). -/
def unitOfCode : Nat → Option Unit'
  | 0 => some .lva
  | 1 => some .lvf
  | 2 => some .lvx
  | 3 => some .lmd
  | 4 => some .lcs
  | 5 => some .none
  | _ => none

/-- Whether the latch and slot of a record agree with its destination (R19, R336, R341): vector results of the V slot pass through their unit's
latch and those of the M slot through `lmd` or none; V-slot reductions through `lcs`; predicates and other scalars through none. -/
def recordKind (d : Dest) (u : Unit') (slot : Nat) : Bool :=
  match d with
  | .v _ => (slot = 0 && (u = .lva || u = .lvf || u = .lvx)) || (slot = 1 && (u = .lmd || u = .none))
  | .s _ => (slot = 0 && u = .lcs) || ((slot = 1 || slot = 3) && u = .none)
  | .vp _ => slot = 0 && u = .none
  | .sp _ => (slot = 0 || slot = 3) && u = .none
  | _ => false

/-- Parse one record at an offset of an image (R336, R341): the landing relative to Tn = 0, and the record's bytes. -/
def parseRecord (img at' : Nat) (sum : List Nat) : Option (Landing × Nat) :=
  let h := word img at'
  let w1 := word img (at' + 8)
  let w2 := word img (at' + 16)
  let w3 := word img (at' + 24)
  let off := bits h 20 16
  let nw := bits h 29 24
  let ev := BitVec.ofNat 8 (bits h 39 32)
  let clean := bits h 15 13 = 0 && bits h 23 21 = 0 && bits h 31 30 = 0 && bits h 63 40 = 0 && bits w2 63 47 = 0 && w3 = 0
  match destOfCode (h % 256), unitOfCode (bits h 10 8) with
  | some d, some u =>
    let scalar := match d with | .s _ => true | .sp _ => true | _ => false
    if !clean || 19 < off || (ev = 0 && w2 ≠ 0) || !recordKind d u (bits h 12 11) then none
    else
      let l : Landing := { slot := bits h 12 11, tick := 0, land := off, dest := d, unit := u, lanes := [], scalar := BitVec.ofNat 64 w1,
                           evs := if ev = 0 then [] else [(0, ev)], addr := BitVec.ofNat 64 (bits w2 46 0 * 32), dec := none }
      if scalar then if nw = 0 then some (l, 32) else none
      else if nw ≠ sum.length || w1 ≠ 0 then none
      else
        let lanes := sum.zipIdx.flatMap fun p =>
          let b := at' + 32 + 160 * p.2
          let act := word img b % 2 ^ 32
          (List.range 32).filterMap fun j =>
            if bit act j then some (32 * p.1 + j, BitVec.ofNat 32 ((img / 2 ^ (8 * (b + 32 + 4 * j))) % 2 ^ 32)) else none
        some ({ l with lanes := lanes }, 32 + 160 * nw)
  | _, _ => none

/-- Parse the records of an area (R334). -/
def parseRecords (img : Nat) (sum : List Nat) : Nat → Nat → Option (List Landing)
  | 0, _ => some []
  | n + 1, at' =>
    match parseRecord img at' sum with
    | none => none
    | some (l, len) => (parseRecords img sum n (at' + len)).map (l :: ·)

/-- A code address: canonical with bits [4:0] zero (R341). -/
def codeAddr (a : Nat) : Bool := canonical a && a % 32 = 0

/-- The `Valid` test of R341 on the fixed part of an area. -/
def areaValid (img : Nat) (epc : DWord) : Bool :=
  let h := word img 0
  let brt := word img 0x18
  h % 65536 = 1 && bits h 29 22 = 0 && bits h 63 56 = 0 && decide (bits h 55 48 ≤ 89) && decide (bits h 21 16 ≤ 63) &&
  codeAddr (word img 8) && codeAddr epc.toNat && bits brt 4 1 = 0 && bits brt 63 52 = 0 &&
  word img 0x38 = 0 && word img 0x58 = 0 && bits (word img 0x40) 63 32 = 0 && bits (word img 0x20) 63 33 = 0 &&
  decide (bits (word img 0xC0) 2 0 ≤ 4) && bits (word img 0xC0) 7 3 = 0 && bits (word img 0xC0) 63 16 = 0 &&
  bits (word img 0xC8) 57 47 = 0 && bits (word img 0xD0) 63 8 = 0 &&
  (img / 2 ^ (8 * 0xD8)) % 2 ^ 320 = 0 && (img / 2 ^ (8 * 0x780)) % 2 ^ 1024 = 0

/-- The loop stack of an area, innermost first (R334). -/
def areaLoops (img : Nat) : List LoopLevel :=
  ((List.range (bits (word img 0xC0) 2 0)).map fun i =>
    let a := 0x60 + 24 * i
    { start := BitVec.ofNat 64 (word img a), stop := BitVec.ofNat 64 (word img (a + 8)),
      count := BitVec.ofNat 32 (word img (a + 16)), first := bit (word img (a + 16)) 32 : LoopLevel }).reverse

/-- The bytes of a record of destination code `d` for a summary of `n` words: a header alone for a scalar (R336). -/
def recordBytes (n d : Nat) : Nat :=
  match destOfCode d with
  | some (.v _) => 32 + 160 * n
  | some (.vp _) => 32 + 160 * n
  | _ => 32

/-- `n` records read one after another from an offset of an area: their bytes and image; none when one cannot be read. -/
def State.readRecords (s : State) (c asid view tsa words : Nat) : Nat → Nat → Option (Nat × Nat)
  | 0, _ => some (0, 0)
  | n + 1, at' =>
    match s.getFields c asid view true (tsa + at') 32 with
    | none => none
    | some h =>
      let len := recordBytes words (h % 256)
      match s.getFields c asid view true (tsa + at') len, s.readRecords c asid view tsa words n (at' + len) with
      | some r, some rest => some (len + rest.1, r + 2 ^ (8 * len) * rest.2)
      | _, _ => none

/-- The area at an address, its bytes and image, or none when it cannot be read: the fixed part, then its records. -/
def State.areaImage (s : State) (c asid view : Nat) (tsa : Nat) (words : Nat) : Option (Nat × Nat) :=
  match s.getFields c asid view true tsa 2048 with
  | none => none
  | some head =>
    (s.readRecords c asid view tsa words (bits (word head 0) 55 48) 2048).map fun r => (2048 + r.1, head + 2 ^ (8 * 2048) * r.2)

/-- The image of the area at `sr.tsa`, or none when it cannot be read. -/
def State.readArea (s : State) (c asid view : Nat) (tsa : Nat) (words : Nat) : Option Nat :=
  (s.areaImage c asid view tsa words).map (·.2)

/-- `Hret` of R339 for a warp whose stores to the area are performed: restore the saved state and re-enter the timeline at Tn, or
escalate when the area is not valid, or end the warp when every lane is retired. -/
def State.hret (s : State) (c k : Nat) (w : Warp) : State :=
  let (asid, view) := s.ctxOf w.block c
  let sum := (List.range w.k).filter fun i => (summaryOf w.entryMask w.k).testBit i
  match s.readArea c asid view w.tsa.toNat sum.length with
  | none => s.escalate c k 0
  | some img =>
    match areaValid img w.epc, parseRecords img sum (bits (word img 0) 55 48) 0x800 with
    | true, some recs =>
      let mask : LaneMask := BitVec.ofNat 1024 ((img / 2 ^ (8 * 0x300)) % 2 ^ 1024) &&& w.entryMask
      let w1 := (List.range 63).foldl (fun w i => w.setS (i + 1) (BitVec.ofNat 64 (word img (0x100 + 8 * (i + 1))))) w
      let w1 := { w1 with
        spred := BitVec.ofNat 8 (2 * bits (word img 0xC0) 15 9), vpred := BitVec.ofNat 8192 ((img / 2 ^ (8 * 0x400)) % 2 ^ 7168 * 2 ^ 1024),
        fel := BitVec.ofNat 64 (word img 0xC8), fes := BitVec.ofNat 64 (word img 0xD0), loops := areaLoops img, mask := mask }
      if mask = 0 then (s.setWarp c k w1).endWarp c k false
      else
        let tn := w.tick + w.gap
        let live := recs.map fun x => { x with land := tn + x.land, lanes := x.lanes.filter fun p => mask.getLsbD p.1 }
        let lands := live.filter Landing.lands
        let h := word img 0
        let same : Bool := w.epc.toNat = word img 8
        let brt := word img 0x18
        let w2 := { w1 with
          priv := false, flight := w.flight ++ lands, pc := w.epc, due := tn + (if same then bits h 21 16 else 0),
          replay := if same then some (bits h 47 44) else none,
          brt := if same && bit brt 0 then some (BitVec.ofNat 64 (bits brt 51 5 * 32 + if bit brt 51 then 0xFFF0_0000_0000_0000 else 0)) else none,
          step := bit h 43, hold := match w.kept with
            | some (.barDone _ _) => none
            | h => h
          kept := none, holdNext := w.holdNext && same, fetch := [],
          stretched := same && w.keptStretch, keptStretch := false, lastLine := none, ctl := .done }
        s.setWarp c k (match w.kept with
          | some (.barDone d p) => w2.setSp d p
          | _ => w2)
    | _, _ => s.escalate c k 0

end Sys2Proof.Machine
end

