-- ==== Sys2Proof/Machine/VOps.lean ====
section
/-! DEFINITION. The shared operations of the V slot: how a lane-wise or scalar result is formed, and scheduled to land
(R109, R113, R116, R118). -/

namespace Sys2Proof.Machine

/-- Where a V-slot operation lands (R45, R112). -/
def vDest (o : VOp) (scalarPred : Bool) : Dest :=
  match o.dst with
  | .v r => .v r.val
  | .s r => .s r.val
  | .p i => if scalarPred then .sp i.val else .vp i.val

/-- Land a value and its events in each active lane (R29, R33 `LandAt`, R116). -/
def Warp.landV (w : Warp) (o : VOp) (lat : Nat) (u : Unit') (f : Nat → Word × BitVec 8) : Warp :=
  let rs := (w.lanesOf o.guard).map fun l => (l, f l)
  w.push (w.vecLanding 0 lat (vDest o false) u (rs.map fun r => (r.1, r.2.1)) (rs.map fun r => (r.1, r.2.2)))

/-- Land one scalar (R135). -/
def Warp.landVS (w : Warp) (o : VOp) (u : Unit') (x : DWord × BitVec 8) : Warp :=
  w.push (w.scalarLanding 0 6 (vDest o false) u x.1 x.2)

/-- Land one scalar predicate (R112, R135). -/
def Warp.landVP (w : Warp) (o : VOp) (b : Bool) : Warp :=
  w.push (w.scalarLanding 0 6 (vDest o true) .none (if b then 1 else 0) 0)

/-- Width and signedness of an integer type (R83); 32 unsigned bits for any other. -/
def intTy : Ty → Nat × Bool
  | .i32 => (32, true)
  | .i16 => (16, true)
  | .n16 => (16, false)
  | .i8 => (8, true)
  | .n8 => (8, false)
  | _ => (32, false)

/-- Whether a type is an integer type (R83). -/
def isInt : Ty → Bool
  | .i32 | .n32 | .i16 | .n16 | .i8 | .n8 => true
  | _ => false

/-- `IntVal` of R118: a lane value read as an integer of a type. -/
def intVal (ty : Ty) (x : Word) : Int :=
  let (n, signed) := intTy ty
  if signed then signExt x.toNat n else (x.toNat % 2 ^ n : Nat)

/-- An integer reduced to a type's width and extended to a lane (R83, R84). -/
def intWrap (ty : Ty) (x : Int) : Word :=
  let (n, signed) := intTy ty
  if signed then BitVec.ofNat 32 (toBits (signExt (toBits x n) n) 32) else BitVec.ofNat 32 (toBits x n)

/-- The nearest value of a type (R33 `Sat`). -/
def satTo (ty : Ty) (x : Int) : Int := Fp.clamp (intTy ty).1 (intTy ty).2 x

/-- `IntOut` of R118: an exact integer written as a lane value. -/
def intOut (ty : Ty) (sat : Bool) (x : Int) : Word × BitVec 8 :=
  if sat && satTo ty x != x then (intWrap ty (satTo ty x), Fp.evIntSat) else (intWrap ty x, 0)

/-- An integer operation of two or three sources (R118). -/
def Warp.intV (w : Warp) (o : VOp) (lat : Nat) (f : Int → Int → Int → Int) : Warp :=
  w.landV o lat .lva fun l =>
    intOut o.ty o.sat (f (intVal o.ty (w.src o.a l)) (intVal o.ty (w.srcB o l)) (intVal o.ty (w.src o.c l)))

/-- An operation on raw 32-bit lanes (R119 to R123). -/
def Warp.rawV (w : Warp) (o : VOp) (lat : Nat) (f : Word → Word → Word → Word) : Warp :=
  w.landV o lat .lva fun l => (f (w.src o.a l) (w.srcB o l) (w.src o.c l), 0)

/-- A lane predicate of two sources (R122, R126, R127). -/
def Warp.predV (w : Warp) (o : VOp) (f : Word → Word → Bool) : Warp :=
  w.landV o 2 .none fun l => (if f (w.src o.a l) (w.srcB o l) then 1 else 0, 0)

/-- A lane predicate of two lane predicates (R137). -/
def Warp.predP (w : Warp) (o : VOp) (f : Bool → Bool → Bool) : Warp :=
  w.landV o 2 .none fun l => (if f (w.srcPred o.a l) (w.srcPred o.b l) then 1 else 0, 0)

/-- An f32 operation (R125); the latency and latch of R113. -/
def Warp.fpV (w : Warp) (o : VOp) (lat : Nat) (u : Unit') (f : Nat → Nat → Nat → Nat × BitVec 8) : Warp :=
  w.landV o lat u fun l =>
    let r := f (w.src o.a l).toNat (w.srcB o l).toNat (w.src o.c l).toNat
    (BitVec.ofNat 32 r.1, r.2)

/-- The 16-bit format of a packed type (R98). -/
def halfFmt (ty : Ty) : Fp.Fmt := if ty = .f16 then Fp.f16 else Fp.bf16

/-- A packed operation, element by element (R98, R128). Which class the log takes when the two elements of a lane raise different ones is the model's
choice: the lowest (DESIGN CHOICE, R108, R128, log 87). -/
def Warp.packedV (w : Warp) (o : VOp) (f : Fp.Fmt → Nat → Nat → Nat → Nat × BitVec 8) : Warp :=
  w.fpV o 4 .lvf fun a b c =>
    let lo := f (halfFmt o.ty) (a % 65536) (b % 65536) (c % 65536)
    let hi := f (halfFmt o.ty) (a / 65536) (b / 65536) (c / 65536)
    (lo.1 + 65536 * hi.1, lo.2 ||| hi.2)

/-- The active lanes' values of source A (R135). -/
def Warp.activeA (w : Warp) (o : VOp) : List (Nat × Word) := (w.lanesOf o.guard).map fun l => (l, w.src o.a l)

/-- One level of the reduction tree (R107): node j combines nodes 2j and 2j + 1; an absent node passes the other through. -/
def treeLevel {α : Type} (f : α → α → α) : List (Option α) → List (Option α)
  | [] => []
  | [x] => [x]
  | x :: y :: xs =>
    (match x, y with
     | some a, some b => some (f a b)
     | some a, none => some a
     | none, b => b) :: treeLevel f xs

/-- Levels of the reduction tree. -/
def treeLevels {α : Type} (f : α → α → α) : Nat → List (Option α) → List (Option α)
  | 0, xs => xs
  | n + 1, xs => treeLevels f n (treeLevel f xs)

/-- The root of the reduction tree of R107 over the lane positions; absent leaves past the width change nothing. -/
def treeRoot {α : Type} (f : α → α → α) (xs : List (Option α)) : Option α :=
  match treeLevels f 10 xs with
  | x :: _ => x
  | [] => none

end Sys2Proof.Machine
end

