-- ==== Sys2Proof/Machine/MOps.lean ====
section
/-! DEFINITION. The shared operations of the M slot: lanes and checks (R139 to R142, R147), bank passes (R151, R362), acceptance
into the release FIFO (R145, R157, R367) and asynchronous results (R144). -/

namespace Sys2Proof.Machine

/-- A failed check of a slot: the cause, the faulting address and INFO (R147, R334). -/
structure Fail where
  cause : Nat
  faddr : Nat
  info : Nat
  deriving DecidableEq, Repr

/-- Why an issue waits (R21, R145): L1 lines to fetch, acceptance, or translations that the core's TLB does not hold, by address; a miss
freezes a fixed-latency operation and delays the acceptance of the others. -/
inductive Wait where
  | l1 (want : List Pa)
  | accept
  | tlb (freeze : Bool) (vas : List Nat)
  deriving DecidableEq, Repr

/-- Apply a function to a resident warp. -/
def State.onWarp (s : State) (c k : Nat) (f : Warp → State) : State :=
  match s.warp? c k with
  | some w => f w
  | none => s

/-- Whether DATA is a scalar destination (R141). -/
def scalarData (o : MOp) : Bool := match o.data with | .s _ => true | _ => false

/-- The lanes an M operation accesses with their addresses; a scalar-destination load makes one access (R141, R142). -/
def Warp.accs (w : Warp) (o : MOp) (load : Bool) : List (Nat × Nat) :=
  let ls := w.lanesOf o.guard
  (if load && scalarData o then ls.take 1 else ls).map fun l => (l, w.memAddr o l)

/-- The allocation bytes of a warp's block (R359). -/
def State.allocOf (s : State) (w : Warp) : Nat := match s.block? w.block with | some b => b.size | none => 0

/-! ## Checks (R147) -/

/-- Alignment and bounds of scratchpad lanes (R139, R147). -/
def spFail (size n : Nat) (xs : List (Nat × Nat)) : Option Fail :=
  xs.findSome? fun p =>
    if p.2 % n ≠ 0 then some ⟨0x140, p.2, 0⟩
    else if 0 ≤ signed64 p.2 ∧ signed64 p.2 + n ≤ size then none
    else some ⟨0x141, p.2, 0⟩

/-- What a global access forbids of its target (R147 check 5). -/
inductive Target where
  | any | noMs | noHost
  deriving DecidableEq, Repr

/-- The checks of one global address of `n` bytes aligned to `al` (R147): the second page only of an access that reaches one,
whose fault names its first byte (R449). -/
def State.globFail1 (s : State) (c : Nat) (w : Warp) (acc : AccKind) (tg : Target) (n al a : Nat) : Option Fail :=
  let (asid, view) := s.ctxOf w.block c
  if !canonical a then some ⟨0x100, a, acc.info⟩
  else if a % al ≠ 0 then some ⟨0x140, a, 0⟩
  else
    match s.xlate c asid view a acc w.priv with
    | .error e => some ⟨e.dataCause, a, acc.info⟩
    | .ok t =>
      let second : Option Fail :=
        if (a + (n - 1)) % 2 ^ 52 < t.va + t.size ∧ t.va ≤ (a + (n - 1)) % 2 ^ 52 then none
        else match s.xlate c asid view (t.pastPage a) acc w.priv with
          | .error e => some ⟨e.dataCause, t.pastPage a, acc.info + 4⟩
          | .ok _ => none
      match second with
      | some f => some f
      | none =>
        match tg with
        | .any => none
        | .noMs => if s.msOf t (t.paOf a) then some ⟨0x144, a, 0⟩ else none
        | .noHost => if t.pa.space = .host then some ⟨0x145, a, 0⟩ else none

/-- The checks of global lanes, in ascending order (R147). -/
def State.globFail (s : State) (c k : Nat) (acc : AccKind) (tg : Target) (n : Nat) (xs : List (Nat × Nat)) : Option Fail :=
  match s.warp? c k with
  | none => none
  | some w => xs.findSome? fun p => s.globFail1 c w acc tg n n p.2

/-! ## Translation of the lanes of an operation that passed its checks -/

/-- A global place: physical address, whether it goes to the Grinder, the page's size, and whether its leaf holds a pod address. -/
structure Place where
  pa : Pa
  ms : Bool
  size : Nat
  pod : Bool
  deriving DecidableEq, Repr

/-- Translate one address; an operation that passed its checks always succeeds. -/
def State.place (s : State) (c : Nat) (w : Warp) (acc : AccKind) (a : Nat) : Option (Place × TlbEntry) :=
  let (asid, view) := s.ctxOf w.block c
  match s.xlate c asid view a acc w.priv with
  | .ok t => some (⟨s.norm (t.paOf a), s.msOf t (t.paOf a), t.size, t.pa.space = .pod⟩, t)
  | .error _ => none

/-- The places of the lanes that translate. -/
def State.placesOf (s : State) (c : Nat) (w : Warp) (acc : AccKind) (xs : List (Nat × Nat)) : List (Nat × Place) :=
  xs.filterMap fun p => (s.place c w acc p.2).map fun q => (p.1, q.1)

/-- Translate every lane, keeping the translations in the TLB (R145, R352). -/
def State.places (s : State) (c : Nat) (w : Warp) (acc : AccKind) (xs : List (Nat × Nat)) : List (Nat × Place) × State :=
  (s.placesOf c w acc xs, xs.foldl (fun r p => match s.place c w acc p.2 with
    | some (_, t) => r.learn c t
    | none => r) s)

/-- The addresses among these whose translations the core's TLB does not hold (R145, R352). -/
def State.tlbMisses (s : State) (c : Nat) (w : Warp) (acc : AccKind) (xs : List (Nat × Nat)) : List Nat :=
  xs.filterMap fun p => match s.place c w acc p.2 with
    | some (_, t) => if (s.core c).tlb.any fun u => u.covers t.asid t.view t.va then none else some p.2
    | none => none

/-- The wait of an operation for its translations (R21, R145, R352). -/
def State.tlbWait (s : State) (c k : Nat) (freeze : Bool) (acc : AccKind) (xs : Warp → List (Nat × Nat)) : Option Wait :=
  match s.warp? c k with
  | none => none
  | some w => match s.tlbMisses c w acc (xs w) with
    | [] => none
    | vs => some (.tlb freeze vs)

/-- The first wait of two. -/
def firstWait (a b : Option Wait) : Option Wait := match a with
  | some w => some w
  | none => b

/-- The pages a set of addresses touches (R146). -/
def State.pagesOf (s : State) (c : Nat) (w : Warp) (acc : AccKind) (xs : List (Nat × Nat)) : List Nat :=
  (xs.filterMap fun p => (s.place c w acc p.2).map fun q => q.2.va).eraseDups

/-! ## Scratchpad steps -/

/-- `SpRead` (R33): `n` bytes at a block offset. -/
def Block.get (b : Block) (off n : Nat) : Nat := getBytes zeroByte b.sp off n
/-- `SpWrite` (R33). -/
def Block.put (b : Block) (off n v : Nat) : Block := { b with sp := putBytes zeroByte b.sp off n v }
/-- Read a block's scratchpad. -/
def State.spGet (s : State) (b off n : Nat) : Nat := match s.block? b with | some x => x.get off n | none => 0
/-- Whether a scratchpad write covers a whole word that an uncorrectable error struck (R382; log 35). -/
def coversWord (b off n : Nat) : ErrSite → Bool
  | .scratch b' o => b' = b && decide (off ≤ o / 8 * 8) && decide (o / 8 * 8 + 8 ≤ off + n)
  | _ => false
/-- Write a block's scratchpad; a word written whole is good again. -/
def State.spPut (s : State) (b off n v : Nat) : State :=
  { s.modBlock b fun x => x.put off n v with faulty := s.faulty.filter fun e => !coversWord b off n e }
/-- Whether a scratchpad read meets a word that an uncorrectable error struck (R382). -/
def State.spFaulty (s : State) (b off n : Nat) : Bool :=
  s.faulty.any fun e => match e with
    | .scratch b' o => b' = b && decide (off < o / 8 * 8 + 8) && decide (o / 8 * 8 < off + n)
    | _ => false

/-- The 16-byte words that scratchpad accesses touch (R151). -/
def spWords (n : Nat) (xs : List (Nat × Nat)) : List Nat :=
  (xs.flatMap fun p => if n = 0 then [] else (List.range ((p.2 + n - 1) / 16 + 1 - p.2 / 16)).map fun i => p.2 / 16 + i).eraseDups

/-- How many words of each bank are touched (R151). -/
def bankLoad (ws : List Nat) (b : Nat) : Nat := (ws.filter fun x => x % 128 = b).length

/-- `P` of R151: the passes that touched words need. -/
def passes (ws : List Nat) : Nat := (ws.map fun x => bankLoad ws (x % 128)).foldl max 1

/-- Cycles for which a bank of a core is still held by earlier accesses (R361). -/
def State.bankHeld (s : State) (c b : Nat) : Nat := FMap.getD (s.core c).held b 0 - s.cycle

/-- Cycles until the last word that an operation touches is served: the passes of R151, behind the accesses that hold its banks (R361). -/
def State.bankCycles (s : State) (c : Nat) (ws : List Nat) : Nat :=
  max (passes ws) ((ws.map fun x => s.bankHeld c (x % 128) + bankLoad ws (x % 128)).foldl max 0)

/-- Cycles that an M operation freezes its warp beyond its tick: for its own passes (R151), and for banks that other requesters hold (R21, R361). -/
def Warp.passFreeze (w : Warp) (s : State) (c : Nat) (ws : List Nat) : Nat := s.bankCycles c ws - w.tickCycles

/-- One step of requester `q` on scratchpad words: each bank is held for as many cycles as it has words there, behind those that hold it already (R361);
until the last of them is served, an access of the requester waits at the bank while it serves another (R362). -/
def State.bankCount (s : State) (c q : Nat) (ws : List Nat) : State :=
  let banks := (ws.map (· % 128)).eraseDups
  let served := fun (b : Nat) => s.cycle + s.bankHeld c b + bankLoad ws b
  s.modCore c fun x =>
    { x with
      waits := (banks.filter fun b => decide (s.cycle + 1 < served b)).foldl (fun m b =>
          FMap.set m (128 * q + b) (max (served b - 1) (FMap.getD m (128 * q + b) 0))) x.waits
      held := banks.foldl (fun m b => FMap.set m b (served b)) (x.held.filter fun p => decide (s.cycle < p.2)) }

/-- The bank-conflict counters of a core over cycle `now`: while EN is 1 the counter of each requester and bank where an access waits for another rises
by one, and stops at its highest value (R362, R363). -/
def CoreSt.passBanks (x : CoreSt) (now : Nat) : CoreSt :=
  let x := x.takeSnapshot now
  if x.waits = [] then x
  else
    { x with
      counters := if x.bank.en then (x.waits.filter fun p => decide (now < p.2)).foldl (fun m p =>
          FMap.put m p.1 (min (2 ^ 32 - 1) (FMap.getD m p.1 0 + 1)) 0) x.counters
        else x.counters
      waits := x.waits.filter fun p => decide (now + 1 < p.2) }

/-- A cycle passes, and the banks count it (R362). -/
def State.passCycle (s : State) : State :=
  { s with cycle := s.cycle + 1, cores := s.cores.map fun p => (p.1, p.2.passBanks s.cycle) }

/-- The matrix row of a warp's M slot: its vector pipe (R24, R362). -/
def Warp.pipe (w : Warp) : Nat := (w.position.getD 0) / 2 % 4

/-! ## Landing M-slot results -/

/-- Word `i` of a value. -/
def wordAt (x i : Nat) : Word := BitVec.ofNat 32 (x / 2 ^ (32 * i))

/-- The landings of lane values in the registers of DATA, or in a scalar (R140, R141, R143): `lmd` delivers the first word. -/
def Warp.mLandings (w : Warp) (o : MOp) (lat n : Nat) (vals : List (Nat × Nat)) : List Landing :=
  match o.data with
  | .s r => vals.map fun p => w.scalarLanding 1 lat (.s r.val) .none (BitVec.ofNat 64 p.2) 0
  | _ => (List.range ((n + 3) / 4)).map fun i =>
      w.vecLanding 1 lat (.v (mReg o + i)) (if i = 0 then .lmd else .none) (vals.map fun p => (p.1, wordAt p.2 i)) []

/-- The same for lanes some of whose bytes are still to come from the L1, by place (R21, R154). -/
def Warp.lateLandings (w : Warp) (o : MOp) (lat n : Nat) (vals : List (Nat × Nat)) (late : List (Nat × Pa)) : List Landing :=
  match o.data with
  | .s r => (vals.map fun p => w.scalarLanding 1 lat (.s r.val) .none (BitVec.ofNat 64 p.2) 0) ++
      late.map fun p => { w.scalarLanding 1 lat (.s r.val) .none 0 0 with want := [p], wn := n, seq := w.seq }
  | _ => (w.mLandings o lat n vals).zipIdx.map fun x =>
      { x.1 with want := late.map fun p => (p.1, p.2.plus (4 * x.2)), wn := min n 4, seq := w.seq }

/-- Schedule landings. -/
def Warp.pushAll (w : Warp) (xs : List Landing) : Warp := { w with flight := w.flight ++ xs }

/-! ## Acceptance (R145) -/

/-- Whether a card may not yet make this write (R164): memory-side, pod, host, or a 1 GiB page outside its write footprints; or
its page has no shadow yet (R316). -/
def State.writeHeld (s : State) (c : Nat) (w : Warp) (p : Place) (va : Nat) : Bool :=
  s.speculating w.block &&
    (p.ms || p.pod || p.pa.space != .hbm ||
      (p.size = 2 ^ 30 && match s.cardOfBlock w.block with
        | some card => !(card.fps.any fun f => f.wr && decide (f.base ≤ va) && decide (va < f.base + f.bytes))
        | none => false) ||
      s.needsShadow w.block c va)

/-- Whether a write of these lanes must wait for acceptance (R145, R164, R367). -/
def State.writeWaits (s : State) (c k : Nat) (acc : AccKind) (xs : List (Nat × Nat)) : Bool :=
  match s.warp? c k with
  | none => false
  | some w =>
    (xs != [] && decide (Config.fifoEntries ≤ (s.core c).fifo.length)) ||
    xs.any fun p => match s.place c w acc p.2 with
      | some (q, _) => s.writeHeld c w q p.2
      | none => false

/-- Whether a release or fence must wait for acceptance: the marker limit, or speculation at `.p` and `.s` (R161, R164, R367). -/
def State.releaseWaits (s : State) (c k : Nat) (marker : Bool) (sc : Scope) : Bool :=
  match s.warp? c k with
  | none => false
  | some w =>
    (marker && decide (Config.fifoMarkers ≤ (s.core c).markers.length)) ||
      ((sc = .p || sc = .s) && s.speculating w.block)

/-- Whether two program-order positions of a slot are of one warp, as far as its resident warp tells them apart from earlier ones (R30). -/
def CoreSt.kin (x : CoreSt) (k a b : Nat) : Bool :=
  match FMap.find x.warps k with
  | some w => decide (w.first ≤ a) == decide (w.first ≤ b)
  | none => true

/-- Whether a warp has an acquire that has not completed, before program-order position `seq` (R162). -/
def State.acquireOpen (s : State) (c k seq : Nat) : Bool :=
  (s.core c).ops.any fun o => o.slot = k && o.acq.isSome && decide (o.seq < seq) && (s.core c).kin k o.seq seq

/-- The program-order position of a warp's next operation, and the warp after taking it. -/
def State.takeSeq (s : State) (c k : Nat) : Nat × State :=
  match s.warp? c k with
  | some w => (w.seq, s.setWarp c k { w with seq := w.seq + 1 })
  | none => (0, s)

/-- The next acceptance number of a core (R157). -/
def State.takeNum (s : State) (c : Nat) : Nat × State :=
  ((s.core c).next, s.modCore c fun x => { x with next := x.next + 1 })

/-- Increment a flag at issue (R22). -/
def State.flagInc (s : State) (c k : Nat) (f : Option (Fin 16)) : State :=
  match f with
  | some f => s.modWarp c k fun w => w.incFlag f.val
  | none => s

/-- Remove the lines of places from a core's L1 (R155). -/
def State.dropLines (s : State) (c : Nat) (ps : List Pa) : State :=
  let ls := ps.map Pa.line
  s.modCore c fun x => { x with l1 := x.l1.filter fun l => !ls.contains l.pa }

/-- Put a lane's bytes among a line's cells: later lanes win (R142). -/
def cellsPut (cs : List Host.Cell) (a n v : Nat) : List Host.Cell :=
  (List.range n).foldl (fun cs i => FMap.set cs (a + i) (BitVec.ofNat 8 (v / 256 ^ i))) cs

/-- Enter a plain write of pieces into the release FIFO, one entry for each line, in the order of first touch (R157, R159);
`lanes` keeps its events of R248, numbered through the operation (R252). -/
def State.enterWrites (s : State) (c k op wseq : Nat) (spill : Bool) (xs : List (Place × Nat × Nat)) : State :=
  let lines := (xs.map fun x => x.1.pa.line).eraseDups
  lines.foldl (fun s line =>
    let mine := xs.zipIdx.filter fun x => x.1.1.pa.line = line
    let bytes := mine.foldl (fun cs x => cellsPut cs x.1.1.pa.addr x.1.2.1 x.1.2.2) []
    let (n, s) := s.takeNum c
    let e : FifoEntry := { seq := n, op := op, slot := k, wseq := wseq, line := line, ms := mine.any fun x => x.1.1.ms, kind := none,
                           spill := spill, bytes := bytes, lanes := mine.map fun x => ⟨x.2, x.1.1.pa, x.1.1.ms, x.1.2.1, x.1.2.2, 0⟩,
                           sent := false, whole := bytes.length = 128, since := s.cycle }
    s.modCore c fun x => { x with fifo := x.fifo ++ [e] }) (s.dropLines c lines)

/-- Enter atomic lanes into the release FIFO, one entry for each line (R157, R160). -/
def State.enterAtomics (s : State) (c k op wseq : Nat) (kind : AtomicOp) (xs : List LaneAcc) : State :=
  let lines := (xs.map fun x => x.pa.line).eraseDups
  lines.foldl (fun s line =>
    let mine := xs.filter fun x => x.pa.line = line
    let (n, s) := s.takeNum c
    let e : FifoEntry := { seq := n, op := op, slot := k, wseq := wseq, line := line, ms := mine.any fun x => x.ms, kind := some kind,
                           spill := false, bytes := [], lanes := mine, sent := false, since := s.cycle }
    s.modCore c fun x => { x with fifo := x.fifo ++ [e] }) (s.dropLines c lines)

/-- A posted operation with a flag: the flag rises at issue and falls when its last line is performed; with no line it falls at
its completion, behind its release when it has one (R142, R159, R161). -/
def State.postFlag (s : State) (c k op : Nat) (f : Option (Fin 16)) (lines : Bool) (rel : Option Nat) : State :=
  match f with
  | none => s
  | some f =>
    let s := s.flagInc c k (some f)
    let (addr, seq) := match s.warp? c k with
      | some w => (w.pc, w.seq)
      | none => (0, 0)
    if lines then s.modCore c fun x => { x with posted := x.posted ++ [⟨op, k, f.val, addr, seq, none⟩] }
    else
      let (n, s) := s.takeNum c
      s.modCore c fun x => { x with ops := x.ops ++ [
        { id := n, slot := k, seq := seq, tick := 0, kind := .fence, flag := some f.val, dest := .sr 255, n := 0, acq := none,
          rel := rel, todo := [], got := [], err := none, addr := 0, dead := false }] }

/-- Place a release marker behind every entry (R161). -/
def State.placeMarker (s : State) (c k wseq : Nat) (sc : Scope) (op : Option Nat) (f : Option Nat) : Nat × State :=
  let (n, s) := s.takeNum c
  (n, s.modCore c fun x => { x with markers := x.markers ++ [⟨n, k, wseq, sc, op, f⟩] })

/-- Start an asynchronous operation (R144). -/
def State.startAsync (s : State) (c k wseq : Nat) (kind : AsyncKind) (o : MOp) (n : Nat) (acq : Option Scope) (rel : Option Nat)
    (todo : List LaneAcc) : Nat × State :=
  let (num, s) := s.takeNum c
  match s.warp? c k with
  | none => (num, s)
  | some w =>
    let dest : Dest := match o.data with
      | .s r => .s r.val
      | _ => .v (mReg o)
    let a : AsyncOp := { id := num, slot := k, seq := wseq, tick := w.tick, kind := kind, flag := o.flag.map (·.val), dest := dest, n := n,
                         acq := acq, rel := rel, todo := todo, got := [], err := none, addr := w.pc, dead := false, since := s.cycle }
    (num, (s.flagInc c k o.flag).modCore c fun x => { x with ops := x.ops ++ [a] })

end Sys2Proof.Machine
end

