-- ==== Sys2Proof/Machine/MScratch.lean ====
section
/-! DEFINITION. The M slot's scratchpad, stream and arrival operations (R149 to R153, R166 to R172). -/

namespace Sys2Proof.Machine

/-! ## Loads, stores and atomics -/

/-- The checks of a scratchpad access (R147). -/
def spCheck (o : MOp) (load : Bool) (c k : Nat) (s : State) : Option Fail :=
  match s.warp? c k with
  | none => none
  | some w => spFail (s.allocOf w) o.size.bytes (w.accs o load)

/-- The words a scratchpad access touches (R151). -/
def spTouch (o : MOp) (load : Bool) (w : Warp) : List Nat := spWords o.size.bytes (w.accs o load)

/-- `ld.sp` (R149). -/
def effLdSp (o : MOp) (c k : Nat) (s : State) : State :=
  s.onWarp c k fun w =>
    let vals := (w.accs o true).map fun p => (p.1, s.spGet w.block p.2 o.size.bytes)
    (s.setWarp c k (w.pushAll (w.mLandings o 8 o.size.bytes vals))).bankCount c w.pipe (spTouch o true w)

/-- `st.sp` (R149, R142). -/
def effStSp (o : MOp) (c k : Nat) (s : State) : State :=
  s.onWarp c k fun w =>
    ((w.accs o false).foldl (fun s p => s.spPut w.block p.2 o.size.bytes (w.dataIn o p.1)) s).bankCount c w.pipe (spTouch o false w)

/-- One atomic on scratchpad lanes in ascending order, landing the old values (R152, R153). -/
def spAtomic (op : AtomicOp) (o : MOp) (x e : Warp → Nat → Nat) (c k : Nat) (s : State) : State :=
  s.onWarp c k fun w =>
    let n := o.size.bytes
    let r := (w.accs o false).foldl (fun (r : List (Nat × Nat) × State) p =>
      let old := r.2.spGet w.block p.2 n
      (r.1 ++ [(p.1, old)], r.2.spPut w.block p.2 n (newValue op n old (x w p.1) (e w p.1)))) ([], s)
    (r.2.modWarp c k fun w => w.pushAll (w.mLandings o 10 n r.1)).bankCount c w.pipe (spTouch o false w)

/-- `atom.sp.op` (R152). -/
def atomSp (op : AtomicOp) (o : MOp) (c k : Nat) (s : State) : State :=
  spAtomic op o (fun w l => w.dataIn o l) (fun _ _ => 0) c k s

/-- `cas.sp` (R153). -/
def effCasSp (o : MOp) (c k : Nat) (s : State) : State :=
  spAtomic .cas o (fun w l => (w.casIn o l).2) (fun w l => (w.casIn o l).1) c k s
/-- `atom.sp.add` (R152). -/
def effAtomSpAdd (o : MOp) (c k : Nat) (s : State) : State := atomSp .add o c k s
/-- `atom.sp.and` (R152). -/
def effAtomSpAnd (o : MOp) (c k : Nat) (s : State) : State := atomSp .and o c k s
/-- `atom.sp.or` (R152). -/
def effAtomSpOr (o : MOp) (c k : Nat) (s : State) : State := atomSp .or o c k s
/-- `atom.sp.xor` (R152). -/
def effAtomSpXor (o : MOp) (c k : Nat) (s : State) : State := atomSp .xor o c k s
/-- `atom.sp.xchg` (R152). -/
def effAtomSpXchg (o : MOp) (c k : Nat) (s : State) : State := atomSp .xchg o c k s
/-- `atom.sp.min.i` (R152). -/
def effAtomSpMinI (o : MOp) (c k : Nat) (s : State) : State := atomSp .minI o c k s
/-- `atom.sp.max.i` (R152). -/
def effAtomSpMaxI (o : MOp) (c k : Nat) (s : State) : State := atomSp .maxI o c k s
/-- `atom.sp.min.n` (R152). -/
def effAtomSpMinN (o : MOp) (c k : Nat) (s : State) : State := atomSp .minN o c k s
/-- `atom.sp.max.n` (R152). -/
def effAtomSpMaxN (o : MOp) (c k : Nat) (s : State) : State := atomSp .maxN o c k s

/-! ## Streams -/

/-- The stream an M-slot stream instruction names (R166). -/
def mStream (o : MOp) : Nat := o.off.toNat % 16
/-- The descriptor word that `sdset` and `sdget` name (R166). -/
def mStreamWord (o : MOp) : Nat := o.off.toNat / 16 % 4

/-- Whether the block of a warp holds the tile-engine grant of its core (R11). -/
def State.hasGrant (s : State) (c : Nat) (w : Warp) : Bool := (s.core c).grantee = some w.block

/-- RING_MISUSE without the grant (R166). -/
def grantCheck (c k : Nat) (s : State) : Option Fail :=
  match s.warp? c k with
  | none => none
  | some w => if s.hasGrant c w then none else some ⟨0x142, 0, 0⟩

/-- The checks of `sld` (R166, R167). -/
def chkSld (o : MOp) (c k : Nat) (s : State) : Option Fail :=
  match grantCheck c k s with
  | some f => some f
  | none => if (s.core c).present (mStream o) ((s.core c).desc (mStream o)).len = 0 then some ⟨0x143, 0, 0⟩ else none

/-- The checks of `sdset` (R166, R169, R196). -/
def chkSdset (o : MOp) (c k : Nat) (s : State) : Option Fail :=
  match grantCheck c k s, s.warp? c k with
  | some f, _ => some f
  | none, none => none
  | none, some w =>
    if (s.core c).sdsetOk (s.allocOf w) (mStream o) (mStreamWord o) (w.s (mReg o)).toNat then none else some ⟨0x142, 0, 0⟩

/-- The head tile's place: its offset and its bytes (R167). -/
def State.headTile (s : State) (c n : Nat) : Nat × Nat :=
  let x := s.core c
  ((x.desc n).slotOff (ptrHead (x.strm n 2).toNat), (x.desc n).tileBytes)

/-- The offsets `sld` reads, for the lanes whose bytes lie within the tile (R167). -/
def sldAccs (s : State) (o : MOp) (c : Nat) (w : Warp) : List (Nat × Nat) :=
  let t := s.headTile c (mStream o)
  let n := o.size.bytes
  ((w.lanesOf o.guard).filter fun l => decide (n * l + n ≤ t.2)).map fun l => (l, t.1 + n * l)

/-- `sld` (R167, R197): the head advances at issue and the slot is released at the landing. -/
def effSld (o : MOp) (c k : Nat) (s : State) : State :=
  s.onWarp c k fun w =>
    let n := o.size.bytes
    let at' := sldAccs s o c w
    let vals := (w.lanesOf o.guard).map fun l => (l, match at'.find? (·.1 = l) with
      | some p => s.spGet w.block p.2 n
      | none => 0)
    let len := ((s.core c).desc (mStream o)).len
    let cl := (s.core c).claim (mStream o) len 1
    let rel := w.scalarLanding 1 8 (.sd (mStream o) 4) .none (slotRelease len cl.1) 0
    (s.setCore c cl.2 |>.setWarp c k (w.pushAll (w.mLandings o 8 n vals ++ [rel]))).bankCount c w.pipe (spWords n at')

/-- `sdset`: the word changes at the end of its tick (R169). -/
def effSdset (o : MOp) (c k : Nat) (s : State) : State :=
  s.modWarp c k fun w => w.push (w.scalarLanding 1 1 (.sd (mStream o) (mStreamWord o)) .none (w.s (mReg o)) 0)

/-- `sdget` (R169). -/
def effSdget (o : MOp) (c k : Nat) (s : State) : State :=
  s.modWarp c k fun w => w.push (w.scalarLanding 1 8 (.s (mReg o)) .none ((s.core c).strm (mStream o) (mStreamWord o)) 0)

/-! ## Arrival words -/

/-- `ArriveAdd` of R171 on the words of R170. -/
def arriveAdd (x n : Nat) : Nat :=
  let target := x % 2 ^ 32
  let count := (bits x 63 32 + n) % 2 ^ 32
  let gen := bits x 95 64
  let hit := target ≠ 0 ∧ target ≤ count
  target + (if hit then count - target else count) * 2 ^ 32 + (if hit then (gen + 1) % 2 ^ 32 else gen) * 2 ^ 64 + x / 2 ^ 96 * 2 ^ 96

/-- Whether the GEN of an arrival word has left the value that an `await` of the warp waits for (R233). -/
def Warp.woken (w : Warp) (off gen : Nat) : Bool :=
  !w.preempt && match w.stop, w.awaits with
    | .before _ _ _ _, some (a, g) => a = off && gen != g
    | _, _ => false

/-- The holds of `await` on an arrival word that its new GEN ends, in the same step as the update (R181, R233). -/
def State.wakeAwaits (s : State) (b off : Nat) : State :=
  match s.block? b with
  | none => s
  | some x => x.warps.foldl (fun s k => s.modWarp x.core k fun w =>
      if w.woken off (bits (x.get off 16) 95 64) then { w with stop := .mdone true, since := s.cycle, notBefore := s.cycle + 1, awaits := none }
      else w) s

/-- An arrival update of a block's word, as one step (R171). -/
def State.arriveUpdate (s : State) (b off n : Nat) : State :=
  (s.spPut b off 16 (arriveAdd (s.spGet b off 16) n)).wakeAwaits b off

/-- The address of `arrive`, `vspill` and `vfill`: BASE + OFF (R138, R172, R173). -/
def Warp.baseOff (w : Warp) (o : MOp) : Nat := (w.s o.base.val + o.off.signExtend 64).toNat

/-- The checks of `arrive` (R172). -/
def chkArrive (o : MOp) (c k : Nat) (s : State) : Option Fail :=
  match s.warp? c k with
  | none => none
  | some w => spFail (s.allocOf w) 16 ((w.lanesOf o.guard).take 1 |>.map fun l => (l, w.baseOff o))

/-- `arrive` (R172). -/
def effArrive (o : MOp) (c k : Nat) (s : State) : State :=
  s.onWarp c k fun w =>
    if w.lanesOf o.guard = [] then s
    else (s.arriveUpdate w.block (w.baseOff o) ((w.s (mReg o)).toNat % 2 ^ 32)).bankCount c w.pipe (spWords 16 [(0, w.baseOff o)])

end Sys2Proof.Machine
end

