-- ==== Sys2Proof/Machine/MGlobal.lean ====
section
/-! DEFINITION. The M slot's read-only L1, global, spill, fence and prefetch operations (R154 to R165, R173 to R176). -/

namespace Sys2Proof.Machine

/-! ## Loads -/

/-- The checks of a global load (R147). -/
def ldCheck (tg : Target) (o : MOp) (c k : Nat) (s : State) : Option Fail :=
  match s.warp? c k with
  | none => none
  | some w => s.globFail c k .read tg o.size.bytes (w.accs o true)

/-- The checks of a global write or atomic (R147, R160). -/
def writeCheck (acc : AccKind) (tg : Target) (o : MOp) (c k : Nat) (s : State) : Option Fail :=
  match s.warp? c k with
  | none => none
  | some w => s.globFail c k acc tg o.size.bytes (w.accs o false)

/-- The distinct L1 lines `ldc` reads (R154). -/
def ldcLines (o : MOp) (c k : Nat) (s : State) : List Pa :=
  match s.warp? c k with
  | none => []
  | some w => ((s.places c w .read (w.accs o true)).1.map fun p => p.2.pa.line).eraseDups

/-- The lines that the L1 does not hold (R154). -/
def CoreSt.l1Miss (x : CoreSt) (ls : List Pa) : List Pa := ls.filter fun l => !x.l1.any fun y => y.pa = l

/-- Whether the fill of a line may fail: one of a host or pod page, or a poisoned one. An `ldc` raises that cause as a check of its own bundle
(R384, R408), so it stands before its issue until such a line has come; other misses are waited for at its landing tick (R21; log 76). -/
def State.mayFail (s : State) (l : Pa) : Bool := match s.localAddr l with
  | some a => (s.poisonOf a 128).isSome
  | none => true

/-- The wait of `ldc`: its translations, then lines whose fill may fail (R21, R352, R384, R408). -/
def ldcWait (o : MOp) (c k : Nat) (s : State) : Option Wait :=
  firstWait (s.tlbWait c k true .read fun w => w.accs o true)
    (match ((s.core c).l1Miss (ldcLines o c k s)).filter s.mayFail with
     | [] => none
     | miss => some (.l1 miss))

/-- Bytes of a line the L1 holds. -/
def CoreSt.l1Get (x : CoreSt) (pa : Pa) (n : Nat) : Nat :=
  match x.l1.find? fun l => l.pa = pa.line with
  | some l => l.data / 256 ^ (pa.addr % 128) % 256 ^ n
  | none => 0

/-- `ldc`: lanes whose lines hit have their bytes; the other lines are asked for, and behind an open acquire of the warp every lane waits
(R154, R162). -/
def effLdc (o : MOp) (c k : Nat) (s : State) : State :=
  s.onWarp c k fun w =>
    let (ps, s) := s.places c w .read (w.accs o true)
    let x := s.core c
    let (hit, late) := ps.partition fun p => !s.acquireOpen c k w.seq && x.l1.any fun y => y.pa = p.2.pa.line
    let vals := hit.map fun p => (p.1, x.l1Get p.2.pa o.size.bytes)
    let miss := (x.l1Miss (late.map fun p => p.2.pa.line)).eraseDups.filter fun l => !x.l1want.contains l
    let s := if late = [] then s else ((s.takeSeq c k).2.takeNum c).2
    (s.modCore c fun x => { x with l1want := x.l1want ++ miss }).modWarp c k fun v =>
      v.pushAll (w.lateLandings o 20 o.size.bytes vals (late.map fun p => (p.1, p.2.pa)))

/-- The lookups of `ldc` beyond the cycles of its tick (R146). -/
def ldcFreeze (o : MOp) (c k : Nat) (s : State) : Nat :=
  match s.warp? c k with
  | none => 0
  | some w => (s.pagesOf c w .read (w.accs o true)).length - w.tickCycles

/-- The acceptance wait of a global load: its translations (R145). The core's memory request path always has an entry for it: no rule gives the
number of its entries (DESIGN CHOICE, log 77). -/
def ldWait (o : MOp) (c k : Nat) (s : State) : Option Wait := s.tlbWait c k false .read fun w => w.accs o true

/-- A global load, asynchronous, with or without acquire (R158, R162). -/
def ldGlobal (o : MOp) (acq : Option Scope) (c k : Nat) (s : State) : State :=
  s.onWarp c k fun w =>
    let (ps, s) := s.places c w .read (w.accs o true)
    let (q, s) := s.takeSeq c k
    (s.startAsync c k q .load o o.size.bytes acq none (ps.map fun p => ⟨p.1, p.2.pa, p.2.ms, o.size.bytes, 0, 0⟩)).2

/-- `ld.g` (R158). -/
def effLdG (o : MOp) (c k : Nat) (s : State) : State := ldGlobal o none c k s
/-- `ld.g.acq` (R162). -/
def effLdGAcq (o : MOp) (c k : Nat) (s : State) : State := ldGlobal o (some o.scope) c k s

/-! ## Stores -/

/-- The acceptance wait of a global write (R145, R164). -/
def storeWait (acc : AccKind) (o : MOp) (c k : Nat) (s : State) : Option Wait :=
  match s.warp? c k with
  | none => none
  | some w => firstWait (s.tlbWait c k false acc fun w => w.accs o false) (if s.writeWaits c k acc (w.accs o false) then some .accept else none)

/-- The lanes of a store enter the release FIFO (R159). -/
def storeEnter (o : MOp) (rel : Option Nat) (c k : Nat) (s : State) : State :=
  s.onWarp c k fun w =>
    let (ps, s) := s.places c w .write (w.accs o false)
    let (q, s) := s.takeSeq c k
    let (num, s) := s.takeNum c
    let s := s.postFlag c k num o.flag (ps != []) rel
    s.enterWrites c k num q false (ps.map fun p => (p.2, o.size.bytes, w.dataIn o p.1))

/-- `st.g` (R159). -/
def effStG (o : MOp) (c k : Nat) (s : State) : State := storeEnter o none c k s

/-- `st.g.rel`: the marker, then the store behind it (R161). -/
def effStGRel (o : MOp) (c k : Nat) (s : State) : State :=
  let (q, s) := s.takeSeq c k
  let (m, s) := s.placeMarker c k q o.scope none none
  storeEnter o (some m) c k s

/-- The acceptance wait of `st.g.rel` (R145, R161, R164). -/
def relWait (o : MOp) (c k : Nat) (s : State) : Option Wait :=
  if s.releaseWaits c k true o.scope then some .accept else storeWait .write o c k s

/-! ## Atomics -/

/-- The lanes of an atomic with their operands. -/
def atomLanes (o : MOp) (w : Warp) (x e : Nat → Nat) (ps : List (Nat × Place)) : List LaneAcc :=
  ps.map fun p => ⟨p.1, p.2.pa, p.2.ms, o.size.bytes, x p.1, e p.1⟩

/-- An atomic that returns its old values (R160, R165). -/
def atomReturn (op : AtomicOp) (o : MOp) (x e : Warp → Nat → Nat) (c k : Nat) (s : State) : State :=
  s.onWarp c k fun w =>
    let (ps, s) := s.places c w .rmw (w.accs o false)
    let (q, s) := s.takeSeq c k
    let (num, s) := s.startAsync c k q .atomic o o.size.bytes none none []
    s.enterAtomics c k num q op (atomLanes o w (x w) (e w) ps)

/-- `atom.g.op` (R160). -/
def atomG (op : AtomicOp) (o : MOp) (c k : Nat) (s : State) : State :=
  atomReturn op o (fun w l => w.dataIn o l) (fun _ _ => 0) c k s

/-- `red.g.op` (R160). -/
def redG (op : AtomicOp) (o : MOp) (c k : Nat) (s : State) : State :=
  s.onWarp c k fun w =>
    let (ps, s) := s.places c w .write (w.accs o false)
    let (q, s) := s.takeSeq c k
    let (num, s) := s.takeNum c
    let s := s.postFlag c k num o.flag (ps != []) none
    s.enterAtomics c k num q op (atomLanes o w (w.dataIn o) (fun _ => 0) ps)

/-- `cas.g` (R160). -/
def effCasG (o : MOp) (c k : Nat) (s : State) : State :=
  atomReturn .cas o (fun w l => (w.casIn o l).2) (fun w l => (w.casIn o l).1) c k s
/-- `atom.g.add` (R160). -/
def effAtomGAdd (o : MOp) (c k : Nat) (s : State) : State := atomG .add o c k s
/-- `atom.g.and` (R160). -/
def effAtomGAnd (o : MOp) (c k : Nat) (s : State) : State := atomG .and o c k s
/-- `atom.g.or` (R160). -/
def effAtomGOr (o : MOp) (c k : Nat) (s : State) : State := atomG .or o c k s
/-- `atom.g.xor` (R160). -/
def effAtomGXor (o : MOp) (c k : Nat) (s : State) : State := atomG .xor o c k s
/-- `atom.g.xchg` (R160). -/
def effAtomGXchg (o : MOp) (c k : Nat) (s : State) : State := atomG .xchg o c k s
/-- `atom.g.min.i` (R160). -/
def effAtomGMinI (o : MOp) (c k : Nat) (s : State) : State := atomG .minI o c k s
/-- `atom.g.max.i` (R160). -/
def effAtomGMaxI (o : MOp) (c k : Nat) (s : State) : State := atomG .maxI o c k s
/-- `atom.g.min.n` (R160). -/
def effAtomGMinN (o : MOp) (c k : Nat) (s : State) : State := atomG .minN o c k s
/-- `atom.g.max.n` (R160). -/
def effAtomGMaxN (o : MOp) (c k : Nat) (s : State) : State := atomG .maxN o c k s
/-- `atom.g.fadd` (R160). -/
def effAtomGFadd (o : MOp) (c k : Nat) (s : State) : State := atomG .fadd o c k s
/-- `red.g.add` (R160). -/
def effRedGAdd (o : MOp) (c k : Nat) (s : State) : State := redG .add o c k s
/-- `red.g.and` (R160). -/
def effRedGAnd (o : MOp) (c k : Nat) (s : State) : State := redG .and o c k s
/-- `red.g.or` (R160). -/
def effRedGOr (o : MOp) (c k : Nat) (s : State) : State := redG .or o c k s
/-- `red.g.xor` (R160). -/
def effRedGXor (o : MOp) (c k : Nat) (s : State) : State := redG .xor o c k s
/-- `red.g.min.i` (R160). -/
def effRedGMinI (o : MOp) (c k : Nat) (s : State) : State := redG .minI o c k s
/-- `red.g.max.i` (R160). -/
def effRedGMaxI (o : MOp) (c k : Nat) (s : State) : State := redG .maxI o c k s
/-- `red.g.min.n` (R160). -/
def effRedGMinN (o : MOp) (c k : Nat) (s : State) : State := redG .minN o c k s
/-- `red.g.max.n` (R160). -/
def effRedGMaxN (o : MOp) (c k : Nat) (s : State) : State := redG .maxN o c k s
/-- `red.g.fadd` (R160). -/
def effRedGFadd (o : MOp) (c k : Nat) (s : State) : State := redG .fadd o c k s

/-! ## Fences -/

/-- `fence.rel` (R161). -/
def effFenceRel (o : MOp) (c k : Nat) (s : State) : State :=
  let (q, s) := s.takeSeq c k
  ((s.flagInc c k o.flag).placeMarker c k q o.scope none (o.flag.map (·.val))).2
/-- `fence.acq` (R162). -/
def effFenceAcq (o : MOp) (c k : Nat) (s : State) : State :=
  let (q, s) := s.takeSeq c k
  (s.startAsync c k q .fence o 0 (some o.scope) none []).2
/-- `fence`: a release followed by an acquire (R162). -/
def effFence (o : MOp) (c k : Nat) (s : State) : State :=
  let (q, s) := s.takeSeq c k
  let (m, s) := s.placeMarker c k q o.scope none none
  (s.startAsync c k q .fence o 0 (some o.scope) (some m) []).2
/-- The acceptance wait of a fence (R145, R164, R367). -/
def fenceWait (marker : Bool) (o : MOp) (c k : Nat) (s : State) : Option Wait :=
  if s.releaseWaits c k marker o.scope then some .accept else none

/-- `l1inv` (R156). -/
def effL1inv (_ : MOp) (c _ : Nat) (s : State) : State := s.l1Invalidate c

/-! ## Spill and fill -/

/-- The pieces of a span of bytes, one for each 128-byte line: offset in the span and length. -/
def pieces (a n : Nat) : List (Nat × Nat) :=
  if n = 0 then []
  else (List.range ((a + n - 1) / 128 + 1 - a / 128)).map fun i =>
    let lo := max a ((a / 128 + i) * 128)
    let hi := min (a + n) ((a / 128 + i + 1) * 128)
    (lo - a, hi - lo)

/-- The events of a span of bytes: its aligned 16-byte units, by offset in the span and length (R248). -/
def units16 (n : Nat) : List (Nat × Nat) := (List.range ((n + 15) / 16)).map fun i => (16 * i, min 16 (n - 16 * i))

/-- The reserved bytes of a spill slot (R173). -/
def Warp.slotBytes (w : Warp) : Nat := 32 + 4 * w.width

/-- The checks of `vspill` and `vfill` over the whole reserved slot (R173, R175). -/
def spanCheck (acc : AccKind) (o : MOp) (c k : Nat) (s : State) : Option Fail :=
  match s.warp? c k with
  | none => none
  | some w => s.globFail1 c w acc .any w.slotBytes 32 (w.baseOff o)

/-- Whether signed deltas fit in `n` bits (R173). -/
def fitsIn (n : Nat) (ds : List Int) : Bool := ds.all fun d => decide (-(2 ^ (n - 1) : Int) ≤ d ∧ d < 2 ^ (n - 1))

/-- The format byte and the written bytes of a spill slot, as a length and a number (R173). -/
def Warp.spillImage (w : Warp) (r : Nat) : Nat × Nat :=
  let v := (List.range w.width).map fun l => w.v r l
  let v0 := w.v r 0
  let ds := (v.drop 1).map fun x => signExt (x - v0).toNat 32
  let packed := fun (n : Nat) => ds.foldr (fun d acc => toBits d n + 2 ^ n * acc) 0
  let small := fun (f n : Nat) => (32 + (ds.length * n + 7) / 8, f + v0.toNat * 2 ^ 32 + packed n * 2 ^ 256)
  if ds.all (· = 0) then (32, v0.toNat * 2 ^ 32)
  else if fitsIn 4 ds then small 1 4
  else if fitsIn 8 ds then small 2 8
  else if fitsIn 16 ds then small 3 16
  else (32 + 4 * w.width, 4 + v.foldr (fun x acc => x.toNat + 2 ^ 32 * acc) 0 * 2 ^ 256)

/-- Rebuild a lane from a slot image (R174): reserved formats give 0. -/
def fillLane (img l : Nat) : Nat :=
  let v0 := img / 2 ^ 32 % 2 ^ 32
  let pay := img / 2 ^ 256
  let delta := fun (n : Nat) => if l = 0 then v0 else toBits ((v0 : Int) + signExt (pay / 2 ^ (n * (l - 1))) n) 32
  match img % 256 with
  | 0 => v0
  | 1 => delta 4
  | 2 => delta 8
  | 3 => delta 16
  | 4 => pay / 2 ^ (32 * l) % 2 ^ 32
  | _ => 0

/-- The bytes of a slot that its format uses, for a width of `n` lanes (R173). -/
def fillBytes (f n : Nat) : Nat :=
  match f with
  | 1 => 32 + (4 * (n - 1) + 7) / 8
  | 2 => 32 + (n - 1)
  | 3 => 32 + 2 * (n - 1)
  | 4 => 32 + 4 * n
  | _ => 32

/-- `vspill` (R173 to R175). -/
def effVspill (o : MOp) (c k : Nat) (s : State) : State :=
  s.onWarp c k fun w =>
    let (n, img) := w.spillImage (mReg o)
    let ea := w.baseOff o
    let ps := units16 n
    let (ts, s) := s.places c w .write (ps.map fun p => (p.1, (ea + p.1) % 2 ^ 64))
    let (q, s) := s.takeSeq c k
    let (num, s) := s.takeNum c
    let s := s.postFlag c k num o.flag true none
    s.enterWrites c k num q true ((ps.zip ts).map fun p => (p.2.2, p.1.2, img / 256 ^ p.1.1 % 256 ^ p.1.2))

/-- The acceptance wait of `vspill` over its whole slot (R145, R164, R175). -/
def spillWait (o : MOp) (c k : Nat) (s : State) : Option Wait :=
  match s.warp? c k with
  | none => none
  | some w =>
    let ea := w.baseOff o
    let xs := (pieces ea w.slotBytes).map fun p => (p.1, (ea + p.1) % 2 ^ 64)
    firstWait (s.tlbWait c k false .write fun _ => xs) (if s.writeWaits c k .write xs then some .accept else none)

/-- The acceptance wait of `vfill`: the translations of its slot (R145). -/
def fillWait (o : MOp) (c k : Nat) (s : State) : Option Wait :=
  s.tlbWait c k false .read fun w => (pieces (w.baseOff o) w.slotBytes).map fun p => (p.1, (w.baseOff o + p.1) % 2 ^ 64)

/-- `vfill` (R174): the slot is read in units of 16 bytes, its header first (R248). -/
def effVfill (o : MOp) (c k : Nat) (s : State) : State :=
  s.onWarp c k fun w =>
    let ea := w.baseOff o
    let ps := units16 w.slotBytes
    let (ts, s) := s.places c w .read (ps.map fun p => (p.1, (ea + p.1) % 2 ^ 64))
    let (q, s) := s.takeSeq c k
    (s.startAsync c k q .fill o w.width none none ((ps.zip ts).map fun p => ⟨p.1.1, p.2.2.pa, p.2.2.ms, p.1.2, 0, 0⟩)).2

/-! ## Prefetch -/

/-- The lanes of a `pfd` that can be translated without a walk: a TLB of the core or its die holds the page (R176; log 88). -/
def pfdLanes (o : MOp) (c : Nat) (s : State) (w : Warp) : List (Nat × Nat) :=
  (w.accs o false).filter fun p => (s.tlbFind c (s.ctxOf w.block c).1 (s.ctxOf w.block c).2 p.2).isSome

/-- The acceptance wait of `pfd`: translations of these lanes that are not yet in the L1 TLB; never a walk (R145, R176). -/
def pfdWait (o : MOp) (c k : Nat) (s : State) : Option Wait := s.tlbWait c k false .read (pfdLanes o c s)

/-- `pfd`: the lines that can be translated and are not memory-side are asked for (R176). -/
def effPfd (o : MOp) (c k : Nat) (s : State) : State :=
  s.onWarp c k fun w =>
    let ok := (pfdLanes o c s w).filterMap fun p => match s.place c w .read p.2 with
      | some (q, _) => if q.ms then none else some q.pa.line
      | none => none
    s.modCore c fun x => { x with l1want := x.l1want ++ (ok.eraseDups.filter fun l => !x.l1want.contains l && !x.l1.any fun y => y.pa = l) }

end Sys2Proof.Machine
end

