-- ==== Sys2Proof/Machine/XOps.lean ====
section
/-! DEFINITION. The shared operations of the X slot: the checks of R182, the ranges of an operation, and its place in a queue
(R177 to R185, R198). -/

namespace Sys2Proof.Machine

/-! ## Checks -/

/-- The first failure of checks made in order (R182). -/
def firstFail : List (Option Fail) → Option Fail
  | [] => none
  | some f :: _ => some f
  | none :: fs => firstFail fs

/-- A failure when a condition holds. -/
def failIf (b : Bool) (cause : Nat) (faddr : Nat) : Option Fail := if b then some ⟨cause, faddr, 0⟩ else none

/-- RING_MISUSE when the block lacks the grant (R182). -/
def grantFail (s : State) (c : Nat) (w : Warp) : Option Fail := failIf (!s.hasGrant c w) 0x142 0
/-- MISALIGNED. -/
def alignFail (a n : Nat) : Option Fail := failIf (a % n != 0) 0x140 a
/-- SP_BOUNDS of a range from a 64-bit offset, read as signed; an empty range touches nothing (R179, R186). -/
def spRange (size off n : Nat) : Option Fail :=
  failIf (n != 0 && !(decide (0 ≤ signed64 off) && decide (signed64 off + n ≤ size))) 0x141 off
/-- The arrival word's alignment (R170). -/
def arwAlign (w : Warp) (arw : Nat) : Option Fail := if arw = 0 then none else alignFail (w.s arw).toNat 16
/-- The arrival word's bounds (R182). -/
def arwRange (size : Nat) (w : Warp) (arw : Nat) : Option Fail := if arw = 0 then none else spRange size (w.s arw).toNat 16

/-- What an X-slot operation forbids of a global target (R183). -/
inductive XTarget where
  | any
  /-- a tile transfer: no host memory, no memory-side page, no pod address -/
  | tile
  /-- `xtile`: device memory of this or another device, not memory-side here -/
  | xtile
  /-- `gred`: memory-side pages of this device -/
  | gred
  deriving DecidableEq, Repr

/-- The target restriction of a page (R198, R201, R211). -/
def State.targetFail (s : State) (tg : XTarget) (a : Nat) (t : TlbEntry) : Option Fail :=
  match tg with
  | .any => none
  | .tile => failIf (t.pa.space != .hbm || s.msOf t (t.paOf a)) 0x183 a
  | .xtile => failIf (t.pa.space = .host || s.msOf t (t.paOf a)) 0x183 a
  | .gred => failIf (t.pa.space != .hbm || !t.ms) 0x184 a

/-- The pages of a range beyond its first one, from the byte `next` on, by their first bytes: the first that fails to translate stops it. R198 has at
most one; a tile on a large page may run over several smaller ones behind it, and each is looked at (DEDUCED, log 95). -/
def State.pagesBehind (s : State) (c asid view : Nat) (acc : AccKind) (priv : Bool) : Nat → Nat → Nat → Except Fail (List (Nat × TlbEntry))
  | 0, _, _ => .ok []
  | k + 1, next, left =>
    match s.xlate c asid view next acc priv with
    | .error e => .error ⟨e.dataCause, next, acc.info + 4⟩
    | .ok t =>
      let here := t.va + t.size - next % 2 ^ 52
      if left ≤ here then .ok [(next, t)]
      else (s.pagesBehind c asid view acc priv k ((next + here) % 2 ^ 64) (left - here)).map ((next, t) :: ·)

/-- The checks of a global range (R182 step 4): `tileSpan` when its limit is the page of its lower end; `overlap` when rows of a tile
overlap. A fault of the higher page names that page's first byte (R449). -/
def State.rangeFail (s : State) (c : Nat) (w : Warp) (acc : AccKind) (tg : XTarget) (tileSpan overlap : Bool) (a n : Nat) :
    Option Fail :=
  if n = 0 then none
  else
    let (asid, view) := s.ctxOf w.block c
    let hi := (a + (n - 1)) % 2 ^ 64
    if !canonical a then some ⟨0x100, a, acc.info⟩
    else if !tileSpan && 65536 < n then some ⟨0x148, a, 0⟩
    else
      match s.xlate c asid view a acc w.priv with
      | .error e => some ⟨e.dataCause, a, acc.info⟩
      | .ok t =>
        if tileSpan && (overlap || decide (t.size < n)) then some ⟨0x148, a, 0⟩
        else if t.va ≤ hi % 2 ^ 52 ∧ hi % 2 ^ 52 < t.va + t.size ∧ a ≤ hi then s.targetFail tg a t
        else
          let next := t.pastPage a
          match s.pagesBehind c asid view acc w.priv (n / 65536 + 1) next (n - (t.va + t.size - a % 2 ^ 52)) with
          | .error f => some f
          | .ok ts => firstFail (s.targetFail tg a t :: ts.map fun p => s.targetFail tg p.1 p.2)

/-- Keep the translations of a range's two ends (R178). -/
def State.learnRange (s : State) (c : Nat) (w : Warp) (acc : AccKind) (a n : Nat) : State :=
  if n = 0 then s else (s.places c w acc [(0, a), (1, (a + (n - 1)) % 2 ^ 64)]).2

/-- The place of a global byte of an operation that passed its checks. -/
def State.globLoc (s : State) (c : Nat) (w : Warp) (acc : AccKind) (a : Nat) : Loc :=
  match s.place c w acc (a % 2 ^ 64) with
  | some (q, _) => .glob q.pa q.ms
  | none => .nowhere

/-! ## Speculation holds (R185, R316) -/

/-- Whether a range of global writes must wait: `all` for an operation that is never buffered. -/
def State.xHeld (s : State) (c k : Nat) (all : Bool) (ranges : List (Nat × Nat)) : Bool :=
  match s.warp? c k with
  | none => false
  | some w =>
    s.speculating w.block && (all || ranges.any fun r => r.2 != 0 &&
      [r.1, (r.1 + (r.2 - 1)) % 2 ^ 64].any fun a => match s.place c w .write a with
        | some (q, _) => s.writeHeld c w q a
        | none => false)

/-- Whether the queue of an operation is full (R177, R178). -/
def State.queueFull (s : State) (c : Nat) (tile : Bool) : Bool :=
  let n := ((s.core c).xops.filter fun x => x.tile = tile && x.stage = .queued && x.tx.isNone).length
  decide ((if tile then Config.tileQueue else Config.copyQueue) ≤ n)

/-- The acceptance wait of an X-slot operation (R178, R185): for the translations of the two ends of each global range, for a place in its queue, and
for what speculation holds back of its writes. -/
def State.xWait (s : State) (c k : Nat) (tile all : Bool) (ranges : List (Nat × Nat)) (reads : List (Nat × Nat) := []) : Option Wait :=
  let ends := fun (rs : List (Nat × Nat)) => (rs.filter fun r => r.2 != 0).flatMap fun r => [(0, r.1), (1, (r.1 + (r.2 - 1)) % 2 ^ 64)]
  firstWait (s.tlbWait c k false .read fun _ => ends reads)
    (firstWait (s.tlbWait c k false .write fun _ => ends ranges) (if s.queueFull c tile || s.xHeld c k all ranges then some .accept else none))

/-! ## Issue -/

/-- What an X-slot operation captures at issue beside its own fields. -/
structure XIssue where
  flag : Fin 16
  dst : DWord := 0
  src : DWord := 0
  len : DWord := 0
  len2 : DWord := 0
  arrive : Option Nat := none
  sa : Nat := 0
  sb : Nat := 0
  tile : Bool := false
  units : List CopyUnit := []
  operands : FMap Nat := []
  ranks : List Nat := []
  steps : Nat := 1
  deriving DecidableEq, Repr

/-- The filler's end: three rates of four cycles (R381). -/
def fillerCycles : Nat := 12

/-- A tile-engine operation accepted while the engine is idle asks its Tamper for a grant (R209, R380). One accepted in filler cycle `now − empty` needs
none: the engine goes on from the rate of that cycle (R381, R454); in the cycle in which the queue emptied, from where the ramp stands. -/
def CoreSt.requestGrant (x : CoreSt) (now : Nat) : CoreSt :=
  match x.ramp with
  | .idle => { x with ramp := .requested now }
  | .filler level at' last empty =>
    { x with ramp := if now ≤ empty then .moving level at' last
             else if empty + fillerCycles < now then .requested now
             else .moving (3 - (now - empty - 1) / 4) 0 last }
  | _ => x

/-- Enter an accepted operation into its queue and increment its flag (R178). A queued operation keeps its acceptance cycle in
`finish`. -/
def State.enqueueX (s : State) (c k : Nat) (i : Instr) (a : XIssue) : State :=
  match s.warp? c k with
  | none => s
  | some w =>
    let (n, s) := s.takeNum c
    let (q, s) := s.takeSeq c k
    let y := s.core c
    let o : XOp := { id := n, slot := k, block := w.block, wseq := q, instr := i, flag := a.flag.val, dst := a.dst, src := a.src, len := a.len,
                     len2 := a.len2, arrive := a.arrive, sa := y.capture a.sa, sb := y.capture a.sb, stage := .queued, tile := a.tile,
                     units := a.units, operands := a.operands, claimA := [], claimB := [], tx := none, ranks := a.ranks, finish := s.cycle, steps := a.steps,
                     evs := 0, err := none, addr := w.pc, dead := false, live := w.summary }
    let s := if a.tile then s.modCore c fun y => y.requestGrant s.cycle else s
    (s.flagInc c k (some a.flag)).modCore c fun y => { y with xops := y.xops ++ [o] }

/-- The arrival word of an operation: none when ARW is s0 (R181). -/
def arwOf (w : Warp) (arw : Fin 64) : Option Nat := if arw.val = 0 then none else some (w.s arw.val).toNat

end Sys2Proof.Machine
end

