-- ==== Sys2Proof/Machine/XCopy.lean ====
section
/-! DEFINITION. The X slot's copies: `cpa`, `cpb`, `cp2d`, `cpm` and `gred` (R187 to R191, R211): their checks, waits and issue. -/

namespace Sys2Proof.Machine

/-- The scalar that LL names (R51). -/
def llS (o : XCOp) : Nat := o.ll.toNat % 64
/-- The guard in GT (R51). -/
def gtGuard (o : XCOp) : Guard := guardOf o.gt.toNat

/-- Sign-extended address arithmetic modulo 2^64. -/
def addr64 (x : Int) : Nat := toBits x 64

/-! ## `cpa` -/

/-- The operands of one `cpa` lane: lane, source address, destination offset, valid bytes, and the raw second word (R187). -/
def Warp.cpaLanes (w : Warp) (o : XCOp) : List (Nat × Nat × Nat × Nat × Nat) :=
  (w.lanesOf (gtGuard o)).map fun l =>
    let y := (w.v (o.ll.toNat + 1) l).toNat
    (l, (w.s o.srcb.val + (w.v o.ll.toNat l).signExtend 64).toNat, (w.s o.dstb.val + BitVec.ofNat 64 (bits y 23 0)).toNat, bits y 29 24, y)

/-- The checks of `cpa` (R182, R187). -/
def chkCpa (o : XCOp) (c k : Nat) (s : State) : Option Fail :=
  match s.warp? c k with
  | none => none
  | some w =>
    let ls := w.cpaLanes o
    let size := s.allocOf w
    firstFail [
      ls.findSome? fun x => failIf (decide (32 < x.2.2.2.1) || bits x.2.2.2.2 31 30 != 0) 0x147 0,
      ls.findSome? fun x => firstFail [alignFail x.2.2.1 16, spRange size x.2.2.1 32],
      arwAlign w o.arw.val, arwRange size w o.arw.val,
      ls.findSome? fun x => s.rangeFail c w .read .any false false x.2.1 x.2.2.2.1]

/-- The aligned 16-byte pieces of a byte range, as offset and length (R248). -/
def pieces16 (a n : Nat) : List (Nat × Nat) :=
  if n = 0 then []
  else (List.range ((a + n - 1) / 16 + 1 - a / 16)).map fun i =>
    let lo := max a ((a / 16 + i) * 16)
    let hi := min (a + n) ((a / 16 + i + 1) * 16)
    (lo - a, hi - lo)

/-- The units of one `cpa` lane: its global reads, then the 32-byte scratchpad write that gathers them (R187, R248). -/
def cpaUnits (s : State) (c : Nat) (w : Warp) (x : Nat × Nat × Nat × Nat × Nat) : List CopyUnit :=
  ((pieces16 x.2.1 x.2.2.2.1).map fun p =>
    { src := s.globLoc c w .read (x.2.1 + p.1), dst := .nowhere, n := p.2, m := 0, data := none, done := false : CopyUnit }) ++
  [{ src := .nowhere, dst := .sp w.block x.2.2.1, n := x.2.2.2.1, m := 32, data := none, done := false }]

/-- The wait of `cpa`. -/
def waitCpa (o : XCOp) (c k : Nat) (s : State) : Option Wait :=
  match s.warp? c k with
  | none => none
  | some w => s.xWait c k false false [] ((w.cpaLanes o).map fun x => (x.2.1, x.2.2.2.1))

/-- `cpa` (R187). -/
def effCpa (o : XCOp) (c k : Nat) (s : State) : State :=
  s.onWarp c k fun w =>
    let ls := w.cpaLanes o
    let s := ls.foldl (fun s x => s.learnRange c w .read x.2.1 x.2.2.2.1) s
    s.enqueueX c k (.cpa o) { flag := o.flag, dst := w.s o.dstb.val, src := w.s o.srcb.val, arrive := arwOf w o.arw, units := ls.flatMap (cpaUnits s c w)
                              operands := ls.map fun x => (x.1, (w.v o.ll.toNat x.1).toNat + x.2.2.2.2 * 2 ^ 32) }

/-! ## `cpb` and `cp2d` -/

/-- A row copy: bytes of a row, rows, direction, bases and strides (R188, R189). -/
structure CopyGeo where
  b : Nat
  r : Nat
  dir : Nat
  src : Nat
  dst : Nat
  ss : Int
  ds : Int
  deriving DecidableEq, Repr

/-- The geometry of `cpb` (R188). -/
def geoCpb (o : XCOp) (w : Warp) : CopyGeo :=
  let x := (w.s (llS o)).toNat
  { b := bits x 16 0, r := 1, dir := bits x 19 18, src := (w.s o.srcb.val).toNat, dst := (w.s o.dstb.val).toNat, ss := 0, ds := 0 }

/-- The geometry of `cp2d` (R189). -/
def geoCp2d (o : XCOp) (w : Warp) : CopyGeo :=
  let x := (w.s (llS o)).toNat
  let y := (w.s (llS o + 1)).toNat
  { b := bits x 16 0, r := bits x 31 20 + 1, dir := bits x 19 18, src := (w.s o.srcb.val).toNat, dst := (w.s o.dstb.val).toNat,
    ss := signExt (bits y 31 0) 32, ds := signExt (bits y 63 32) 32 }

/-- Whether a direction reads global memory, and whether it writes it (R188). -/
def CopyGeo.srcGlob (g : CopyGeo) : Bool := g.dir = 0 || g.dir = 3
def CopyGeo.dstGlob (g : CopyGeo) : Bool := g.dir = 1 || g.dir = 3

/-- The lowest byte of a side and its span (R189). -/
def sideSpan (base : Nat) (stride : Int) (g : CopyGeo) : Nat × Nat :=
  let d := stride * (g.r - 1 : Nat)
  (addr64 (base + min 0 d), if g.b = 0 then 0 else d.natAbs + g.b)

/-- The checks of a row copy after its operand values (R182). -/
def copyFail (s : State) (c : Nat) (w : Warp) (arw : Nat) (g : CopyGeo) : Option Fail :=
  let size := s.allocOf w
  let a := sideSpan g.src g.ss g
  let b := sideSpan g.dst g.ds g
  firstFail [
    alignFail g.src 16, alignFail g.dst 16, failIf (g.ss % 16 != 0) 0x140 g.src, failIf (g.ds % 16 != 0) 0x140 g.dst, arwAlign w arw,
    if g.srcGlob then none else spRange size a.1 a.2, if g.dstGlob then none else spRange size b.1 b.2, arwRange size w arw,
    if g.srcGlob then s.rangeFail c w .read .any false false a.1 a.2 else none,
    if g.dstGlob then s.rangeFail c w .write .any false false b.1 b.2 else none]

/-- The units of a row copy (R188, R189): one for each 16 bytes. -/
def copyUnits (s : State) (c : Nat) (w : Warp) (g : CopyGeo) : List CopyUnit :=
  (List.range g.r).flatMap fun (r : Nat) => (List.range (g.b / 16)).map fun (i : Nat) =>
    let sa := addr64 ((g.src : Int) + g.ss * r + 16 * i)
    let da := addr64 ((g.dst : Int) + g.ds * r + 16 * i)
    { src := if g.srcGlob then s.globLoc c w .read sa else .sp w.block sa
      dst := if g.dstGlob then s.globLoc c w .write da else .sp w.block da
      n := 16, m := 16, data := none, done := false }

/-- The ranges a row copy writes in global memory. -/
def copyRanges (g : CopyGeo) : List (Nat × Nat) := if g.dstGlob then [sideSpan g.dst g.ds g] else []

/-- The ranges a row copy reads in global memory. -/
def copyReads (g : CopyGeo) : List (Nat × Nat) := if g.srcGlob then [sideSpan g.src g.ss g] else []

/-- Issue a row copy. -/
def copyIssue (s : State) (c k : Nat) (i : Instr) (o : XCOp) (w : Warp) (g : CopyGeo) : State :=
  let a := sideSpan g.src g.ss g
  let b := sideSpan g.dst g.ds g
  let s := if g.srcGlob then s.learnRange c w .read a.1 a.2 else s
  let s := if g.dstGlob then s.learnRange c w .write b.1 b.2 else s
  s.enqueueX c k i { flag := o.flag, dst := w.s o.dstb.val, src := w.s o.srcb.val, len := w.s (llS o), len2 := w.s (llS o + 1),
                     arrive := if g.dstGlob then none else arwOf w o.arw, units := copyUnits s c w g }

/-- The checks of `cpb` (R188). -/
def chkCpb (o : XCOp) (c k : Nat) (s : State) : Option Fail :=
  match s.warp? c k with
  | none => none
  | some w =>
    let x := (w.s (llS o)).toNat
    let g := geoCpb o w
    firstFail [
      failIf (bits x 17 17 != 0 || bits x 63 20 != 0 || decide (65536 < g.b) || g.b % 16 != 0) 0x147 0,
      failIf (g.dstGlob && o.arw.val != 0) 0x147 0,
      copyFail s c w o.arw.val g]
/-- The wait of `cpb`. -/
def waitCpb (o : XCOp) (c k : Nat) (s : State) : Option Wait :=
  match s.warp? c k with
  | none => none
  | some w => s.xWait c k false false (copyRanges (geoCpb o w)) (copyReads (geoCpb o w))
/-- `cpb` (R188). -/
def effCpb (o : XCOp) (c k : Nat) (s : State) : State := s.onWarp c k fun w => copyIssue s c k (.cpb o) o w (geoCpb o w)

/-- The checks of `cp2d` (R189). -/
def chkCp2d (o : XCOp) (c k : Nat) (s : State) : Option Fail :=
  match s.warp? c k with
  | none => none
  | some w =>
    let x := (w.s (llS o)).toNat
    let g := geoCp2d o w
    firstFail [
      failIf (bits x 17 17 != 0 || bits x 63 32 != 0 || decide (65536 < g.b) || decide (g.b < 16) || g.b % 16 != 0 ||
        decide (65536 < g.r * g.b)) 0x147 0,
      failIf (g.dstGlob && o.arw.val != 0) 0x147 0,
      copyFail s c w o.arw.val g]
/-- The wait of `cp2d`. -/
def waitCp2d (o : XCOp) (c k : Nat) (s : State) : Option Wait :=
  match s.warp? c k with
  | none => none
  | some w => s.xWait c k false false (copyRanges (geoCp2d o w)) (copyReads (geoCp2d o w))
/-- `cp2d` (R189). -/
def effCp2d (o : XCOp) (c k : Nat) (s : State) : State := s.onWarp c k fun w => copyIssue s c k (.cp2d o) o w (geoCp2d o w)

/-! ## `cpm` -/

/-- Whether a block is one of a cluster gang (R8, R190). -/
def State.inCluster (s : State) (w : Warp) : Bool := match s.taskOf w with | some t => t.cluster | none => false

/-- The checks of `cpm` (R190). -/
def chkCpm (o : XCOp) (c k : Nat) (s : State) : Option Fail :=
  match s.warp? c k with
  | none => none
  | some w =>
    let x := (w.s (llS o)).toNat
    let n := bits x 16 0
    let size := s.allocOf w
    let src := (w.s o.srcb.val).toNat
    let dst := (w.s o.dstb.val).toNat
    firstFail [
      failIf (bits x 31 24 = 0 || decide (n < 16) || decide (65536 < n) || n % 16 != 0 || bits x 23 17 != 0 || bits x 63 32 != 0) 0x147 0,
      failIf (!s.inCluster w) 0x185 0,
      alignFail src 16, alignFail dst 16, arwAlign w o.arw.val, spRange size dst n, arwRange size w o.arw.val,
      s.rangeFail c w .read .any false false src n]
/-- The wait of `cpm`. -/
def waitCpm (o : XCOp) (c k : Nat) (s : State) : Option Wait :=
  match s.warp? c k with
  | none => none
  | some w => s.xWait c k false false [] [((w.s o.srcb.val).toNat, bits (w.s (llS o)).toNat 16 0)]
/-- `cpm` (R190): the global reads; each named block is served by its delivery. -/
def effCpm (o : XCOp) (c k : Nat) (s : State) : State :=
  s.onWarp c k fun w =>
    let x := (w.s (llS o)).toNat
    let n := bits x 16 0
    let src := (w.s o.srcb.val).toNat
    let s := s.learnRange c w .read src n
    s.enqueueX c k (.cpm o) { flag := o.flag, dst := w.s o.dstb.val, src := w.s o.srcb.val, len := w.s (llS o), arrive := arwOf w o.arw,
                              units := (List.range (n / 16)).map fun i => { src := s.globLoc c w .read (src + 16 * i), dst := .nowhere,
                                                                            n := 16, m := 0, data := none, done := false },
                              ranks := (List.range 8).filter fun g => bit x (24 + g) }

/-! ## `gred` -/

/-- The checks of `gred` (R182, R211). -/
def chkGred (o : XCOp) (c k : Nat) (s : State) : Option Fail :=
  match s.warp? c k with
  | none => none
  | some w =>
    let x := (w.s (llS o)).toNat
    let n := bits x 16 0
    let src := (w.s o.srcb.val).toNat
    let dst := (w.s o.dstb.val).toNat
    firstFail [
      failIf (bits x 63 17 != 0 || decide (n < 32) || decide (65536 < n) || n % 32 != 0) 0x147 0,
      alignFail src 32, alignFail dst 32, spRange (s.allocOf w) src n,
      s.rangeFail c w .write .gred false false dst n]
/-- The wait of `gred` (R185). -/
def waitGred (o : XCOp) (c k : Nat) (s : State) : Option Wait :=
  match s.warp? c k with
  | none => none
  | some w => s.xWait c k false true [((w.s o.dstb.val).toNat, bits (w.s (llS o)).toNat 16 0)]

/-- A Grinder reduction: one unit for each 32-byte block (R211). -/
def gred (i : Instr) (o : XCOp) (c k : Nat) (s : State) : State :=
  s.onWarp c k fun w =>
    let n := bits (w.s (llS o)).toNat 16 0
    let src := (w.s o.srcb.val).toNat
    let dst := (w.s o.dstb.val).toNat
    let s := s.learnRange c w .write dst n
    let units := (List.range (n / 32)).map fun (j : Nat) =>
      { src := .sp w.block (addr64 ((src : Int) + 32 * j)), dst := s.globLoc c w .write (dst + 32 * j), n := 32, m := 32,
        data := none, done := false : CopyUnit }
    s.enqueueX c k i { flag := o.flag, dst := w.s o.dstb.val, src := w.s o.srcb.val, len := w.s (llS o), units := units }

/-- `gred.add` (R211). -/
def effGredAdd (o : XCOp) (c k : Nat) (s : State) : State := gred (.gredAdd o) o c k s
/-- `gred.min` (R211). -/
def effGredMin (o : XCOp) (c k : Nat) (s : State) : State := gred (.gredMin o) o c k s
/-- `gred.max` (R211). -/
def effGredMax (o : XCOp) (c k : Nat) (s : State) : State := gred (.gredMax o) o c k s

end Sys2Proof.Machine
end

