-- ==== Sys2Proof/Machine/XTile.lean ====
section
/-! DEFINITION. The X slot's tile transfers and tile-engine operations (R198 to R210): their checks, waits and issue. -/

namespace Sys2Proof.Machine

/-- The stream that LL names (R51). -/
def llStream (o : XCOp) : Nat := o.ll.toNat % 16
/-- The accumulator that LL names (R52). -/
def llAcc (o : XCOp) : Nat := o.ll.toNat % 8
/-- Whether the source is scratchpad bytes and not the ring (R200). -/
def fromSp (o : XCOp) : Bool := o.ll.getLsbD 6
/-- The rounding mode of a tile selector (R52). -/
def llRm (o : XCOp) : RM := rmOf (o.ll.toNat / 16 % 4)

/-! ## Tile transfers -/

/-- The span of a tile of rows (R198). -/
def tileSpan (rows rb stride : Nat) : Nat := (rows - 1) * stride + rb

/-- A byte range cut where a page may end, as offsets and lengths (R349). -/
def pagePieces (a n : Nat) : List (Nat × Nat) :=
  let k := 65536 - a % 65536
  if n ≤ k then [(0, n)] else [(0, k), (k, n - k)]

/-- The pieces of a tile in global memory, row by row, as places and lengths (R198). -/
def State.tilePieces (s : State) (c : Nat) (w : Warp) (acc : AccKind) (rows rb stride a : Nat) : List (Loc × Nat) :=
  (List.range rows).flatMap fun (r : Nat) =>
    (pagePieces (a + r * stride) rb).map fun p => (s.globLoc c w acc (a + r * stride + p.1), p.2)

/-- The units of a tile store: what each piece receives. -/
def storeUnits (ps : List (Loc × Nat)) : List CopyUnit :=
  ps.map fun p => { src := .nowhere, dst := p.1, n := p.2, m := p.2, data := none, done := false }

/-- The checks of a tile's global side (R182, R198); every row of an `xtile` keeps out of memory-side regions (R201, R401). -/
def State.tileFail (s : State) (c : Nat) (w : Warp) (acc : AccKind) (tg : XTarget) (rows rb stride a : Nat) : Option Fail :=
  firstFail [s.rangeFail c w acc tg true (decide (1 < rows) && decide (stride < rb)) a (tileSpan rows rb stride),
    failIf (tg = .xtile && (s.tilePieces c w acc rows rb stride a).any fun p => match p.1 with
      | .glob _ ms => ms
      | _ => false) 0x183 a]

/-- The checks of `tld` (R199). -/
def chkTld (o : XCOp) (c k : Nat) (s : State) : Option Fail :=
  match s.warp? c k with
  | none => none
  | some w =>
    let d := (s.core c).desc (llStream o)
    let a := (w.s o.srcb.val).toNat
    firstFail [grantFail s c w, alignFail a 16, arwAlign w o.arw.val, arwRange (s.allocOf w) w o.arw.val,
      s.tileFail c w .read .tile d.rows d.rb d.stride a]
/-- The wait of `tld`. -/
def waitTld (o : XCOp) (c k : Nat) (s : State) : Option Wait :=
  match s.warp? c k with
  | none => none
  | some w => let d := (s.core c).desc (llStream o); s.xWait c k false false [] [((w.s o.srcb.val).toNat, tileSpan d.rows d.rb d.stride)]
/-- `tld` (R199). -/
def effTld (o : XCOp) (c k : Nat) (s : State) : State :=
  s.onWarp c k fun w =>
    let d := (s.core c).desc (llStream o)
    let a := (w.s o.srcb.val).toNat
    let s := s.learnRange c w .read a (tileSpan d.rows d.rb d.stride)
    s.enqueueX c k (.tld o) { flag := o.flag, src := w.s o.srcb.val, arrive := arwOf w o.arw, sa := llStream o,
                              units := (s.tilePieces c w .read d.rows d.rb d.stride a).map fun p =>
                                { src := p.1, dst := .nowhere, n := p.2, m := 0, data := none, done := false } }

/-- The checks of `tst` and `xtile` (R200, R201). -/
def storeTileFail (tg : XTarget) (o : XCOp) (c k : Nat) (s : State) : Option Fail :=
  match s.warp? c k with
  | none => none
  | some w =>
    let d := (s.core c).desc (llStream o)
    let a := (w.s o.dstb.val).toNat
    let b := (w.s o.srcb.val).toNat
    firstFail [grantFail s c w, alignFail a 16, if fromSp o then alignFail b 16 else none,
      if fromSp o then spRange (s.allocOf w) b d.tileBytes else none,
      s.tileFail c w .write tg d.rows d.rb d.stride a]

/-- The global range that a tile store writes. -/
def tstRange (s : State) (o : XCOp) (c k : Nat) : List (Nat × Nat) :=
  match s.warp? c k with
  | none => []
  | some w => let d := (s.core c).desc (llStream o); [((w.s o.dstb.val).toNat, tileSpan d.rows d.rb d.stride)]

/-- Issue a tile store. -/
def storeTile (i : Instr) (o : XCOp) (c k : Nat) (s : State) : State :=
  s.onWarp c k fun w =>
    let s := (tstRange s o c k).foldl (fun s r => s.learnRange c w .write r.1 r.2) s
    let d := (s.core c).desc (llStream o)
    s.enqueueX c k i { flag := o.flag, dst := w.s o.dstb.val, src := w.s o.srcb.val, sa := llStream o,
                       units := storeUnits (s.tilePieces c w .write d.rows d.rb d.stride (w.s o.dstb.val).toNat) }

/-- The checks of `tst`. -/
def chkTst (o : XCOp) (c k : Nat) (s : State) : Option Fail := storeTileFail .tile o c k s
/-- The wait of `tst`. -/
def waitTst (o : XCOp) (c k : Nat) (s : State) : Option Wait := s.xWait c k false false (tstRange s o c k)
/-- `tst` (R200). -/
def effTst (o : XCOp) (c k : Nat) (s : State) : State := storeTile (.tst o) o c k s
/-- The checks of `xtile`. -/
def chkXtile (o : XCOp) (c k : Nat) (s : State) : Option Fail := storeTileFail .xtile o c k s
/-- The wait of `xtile` (R185). -/
def waitXtile (o : XCOp) (c k : Nat) (s : State) : Option Wait := s.xWait c k false true (tstRange s o c k)
/-- `xtile` (R201). -/
def effXtile (o : XCOp) (c k : Nat) (s : State) : State := storeTile (.xtile o) o c k s

/-! ## Draining -/

/-- The fields of a tile-shape scalar (R202): rows, columns, row stride. -/
def shapeOf (x : Nat) : Nat × Nat × Nat := (bits x 6 0, bits x 14 8, bits x 63 32)
/-- The destination type in GT (R202). -/
def gtTy (o : XCOp) : Ty := (tyOfCode o.gt.toNat).getD .i32
/-- The bytes of a row of `cols` elements (R202). -/
def rowLen (ty : Ty) (cols : Nat) : Nat :=
  match ty with
  | .lg6 => 3 * cols / 4
  | .bf16 | .f16 | .i16 | .n16 => 2 * cols
  | .i8 | .n8 | .e4m3 | .e5m2 => cols
  | _ => 4 * cols

/-- TILE_SHAPE of a tile-shape scalar (R202). -/
def shapeFail (ty : Ty) (x : Nat) : Option Fail :=
  let (r, n, d) := shapeOf x
  failIf (bits x 7 7 != 0 || bits x 31 15 != 0 || decide (r < 1) || decide (64 < r) || decide (n < 4) || decide (64 < n) || n % 4 != 0 ||
    (decide (1 < r) && decide (d < rowLen ty n))) 0x181 0

/-- The checks of `tdrain` (R202, R203). -/
def chkTdrain (o : XCOp) (c k : Nat) (s : State) : Option Fail :=
  match s.warp? c k with
  | none => none
  | some w =>
    let q := (w.s o.srcb.val).toNat
    let (r, n, d) := shapeOf q
    let a := (w.s o.dstb.val).toNat
    let size := s.allocOf w
    firstFail [grantFail s c w, shapeFail (gtTy o) q, alignFail a 16, failIf (d % 16 != 0) 0x140 a, arwAlign w o.arw.val,
      spRange size a (tileSpan r (rowLen (gtTy o) n) d), arwRange size w o.arw.val]
/-- The wait of `tdrain`. -/
def waitTdrain (_ : XCOp) (c k : Nat) (s : State) : Option Wait := s.xWait c k true false []
/-- `tdrain` (R203). -/
def effTdrain (o : XCOp) (c k : Nat) (s : State) : State :=
  s.onWarp c k fun w =>
    s.enqueueX c k (.tdrain o) { flag := o.flag, dst := w.s o.dstb.val, src := w.s o.srcb.val, arrive := arwOf w o.arw, tile := true,
                                 steps := ceilDiv (shapeOf (w.s o.srcb.val).toNat).1 16 }

/-- The global range of `tstac`. -/
def tstacRange (o : XCOp) (w : Warp) : Nat × Nat :=
  let (r, n, d) := shapeOf (w.s o.srcb.val).toNat
  ((w.s o.dstb.val).toNat, tileSpan r (rowLen (gtTy o) n) d)

/-- The checks of `tstac` (R202, R203). -/
def chkTstac (o : XCOp) (c k : Nat) (s : State) : Option Fail :=
  match s.warp? c k with
  | none => none
  | some w =>
    let q := (w.s o.srcb.val).toNat
    let (r, n, d) := shapeOf q
    let a := (w.s o.dstb.val).toNat
    firstFail [grantFail s c w, shapeFail (gtTy o) q, alignFail a 16, failIf (d % 16 != 0) 0x140 a,
      s.tileFail c w .write .tile r (rowLen (gtTy o) n) d a]
/-- The wait of `tstac`. -/
def waitTstac (o : XCOp) (c k : Nat) (s : State) : Option Wait :=
  match s.warp? c k with
  | none => none
  | some w => s.xWait c k true false [tstacRange o w]
/-- `tstac` (R203). -/
def effTstac (o : XCOp) (c k : Nat) (s : State) : State :=
  s.onWarp c k fun w =>
    let r := tstacRange o w
    let s := s.learnRange c w .write r.1 r.2
    let (m, n, d) := shapeOf (w.s o.srcb.val).toNat
    s.enqueueX c k (.tstac o) { flag := o.flag, dst := w.s o.dstb.val, src := w.s o.srcb.val, tile := true,
                                units := storeUnits (s.tilePieces c w .write m (rowLen (gtTy o) n) d r.1),
                                steps := ceilDiv (shapeOf (w.s o.srcb.val).toNat).1 16 }

/-! ## Accumulators raw -/

/-- The bytes of an accumulator (R204). -/
def accBytes : Nat := 65536

/-- The checks of `tsave` and `tload` (R204). -/
def rawFail (acc : AccKind) (base : Fin 64) (c k : Nat) (s : State) : Option Fail :=
  match s.warp? c k with
  | none => none
  | some w =>
    let a := (w.s base.val).toNat
    firstFail [grantFail s c w, alignFail a 128, s.rangeFail c w acc .any false false a accBytes]

/-- The checks of `tsave`. -/
def chkTsave (o : XCOp) (c k : Nat) (s : State) : Option Fail := rawFail .write o.dstb c k s
/-- The wait of `tsave`. -/
def waitTsave (o : XCOp) (c k : Nat) (s : State) : Option Wait :=
  match s.warp? c k with
  | none => none
  | some w => s.xWait c k true false [((w.s o.dstb.val).toNat, accBytes)]
/-- `tsave` (R204). -/
def effTsave (o : XCOp) (c k : Nat) (s : State) : State :=
  s.onWarp c k fun w =>
    let a := (w.s o.dstb.val).toNat
    let s := s.learnRange c w .write a accBytes
    s.enqueueX c k (.tsave o) { flag := o.flag, dst := w.s o.dstb.val, tile := true, steps := 4,
                                units := (List.range 4096).map fun (i : Nat) =>
                                  { src := .acc (llAcc o) i, dst := s.globLoc c w .write (a + 16 * i), n := 16, m := 16, data := none,
                                    done := false } }
/-- The checks of `tload`. -/
def chkTload (o : XCOp) (c k : Nat) (s : State) : Option Fail := rawFail .read o.srcb c k s
/-- The wait of `tload`. -/
def waitTload (o : XCOp) (c k : Nat) (s : State) : Option Wait :=
  match s.warp? c k with
  | none => none
  | some w => s.xWait c k true false [] [((w.s o.srcb.val).toNat, accBytes)]
/-- `tload` (R204). -/
def effTload (o : XCOp) (c k : Nat) (s : State) : State :=
  s.onWarp c k fun w =>
    let a := (w.s o.srcb.val).toNat
    let s := s.learnRange c w .read a accBytes
    s.enqueueX c k (.tload o) { flag := o.flag, src := w.s o.srcb.val, tile := true, steps := 4,
                                units := (List.range 4096).map fun (i : Nat) =>
                                  { src := s.globLoc c w .read (a + 16 * i), dst := .acc (llAcc o) i, n := 16, m := 16, data := none,
                                    done := false } }

/-! ## Tile compute and streams -/

/-- The check of an XT operation that names a stream or an accumulator (R182). -/
def xtGrant (c k : Nat) (s : State) : Option Fail :=
  match s.warp? c k with
  | none => none
  | some w => grantFail s c w
/-- The wait of an XT operation. -/
def xtWait (_ : XTOp) (c k : Nat) (s : State) : Option Wait := s.xWait c k true false []

/-- `tzero` (R204). -/
def effTzero (o : XTOp) (c k : Nat) (s : State) : State := s.enqueueX c k (.tzero o) { flag := o.flag, tile := true }
/-- `sreset` (R210). -/
def effSreset (o : XTOp) (c k : Nat) (s : State) : State :=
  s.enqueueX c k (.sreset o) { flag := o.flag, sa := o.sa.val, tile := true }
/-- The checks of `sadv` (R210). -/
def chkSadv (o : XTOp) (c k : Nat) (s : State) : Option Fail :=
  firstFail [xtGrant c k s, failIf (decide (((s.core c).desc o.sa.val).len < o.kst.val + 1)) 0x181 0]
/-- `sadv` (R210). -/
def effSadv (o : XTOp) (c k : Nat) (s : State) : State :=
  s.enqueueX c k (.sadv o) { flag := o.flag, sa := o.sa.val, tile := true }

/-- The K-step of an A format (R205). -/
def kStep (ty : Ty) : Nat := match ty with | .bf16 | .f16 => 2 | .lg6 => 8 | _ => 4
/-- The row elements of a stream in a format (R205). -/
def rowElems (ty : Ty) (rb : Nat) : Nat := match ty with | .bf16 | .f16 => rb / 2 | .lg6 => 4 * rb / 3 | _ => rb
/-- M, N and K of a tile operation (R50, R205). -/
def tileM (o : XTOp) : Nat := 16 * 2 ^ o.msz.val
def tileN (o : XTOp) : Nat := 16 * 2 ^ o.nsz.val
def tileK (o : XTOp) (ta : Ty) : Nat := (o.kst.val + 1) * kStep ta

/-- The scale checks of `tmmas` for one stream (R207). -/
def scaleBad (size : Nat) (d : Desc) (e : Nat) : Bool :=
  d.s = 0 || e % d.s != 0 || decide (d.scs < d.rows * (e / d.s)) || decide (size < d.scb + d.len * d.scs)

/-- The checks of `tmma` and `tmmas` (R205, R207). -/
def tmmaFail (ta tb : Ty) (scaled : Bool) (o : XTOp) (c k : Nat) (s : State) : Option Fail :=
  match s.warp? c k with
  | none => none
  | some w =>
    let a := (s.core c).desc o.sa.val
    let b := (s.core c).desc o.sb.val
    let e := rowElems ta a.rb
    let kk := tileK o ta
    let n := kk / e
    let same : Bool := o.sa = o.sb
    let size := s.allocOf w
    firstFail [grantFail s c w,
      failIf (a.fmt != ta.code || b.fmt != tb.code) 0x180 0,
      failIf (a.rows != tileM o || b.rows != tileN o || e != rowElems tb b.rb || kk % e != 0 ||
        (if same then decide (a.len < 2 * n) else decide (a.len < n) || decide (b.len < n))) 0x181 0,
      failIf (scaled && (scaleBad size a e || scaleBad size b e || a.s != b.s)) 0x182 0]

/-- Issue a tile multiplication (R205). -/
def tmma (i : Instr) (o : XTOp) (c k : Nat) (s : State) : State :=
  s.enqueueX c k i { flag := o.flag, sa := o.sa.val, sb := o.sb.val, tile := true, steps := o.kst.val + 1 }

/-- The formats of a tile multiplication and whether it is scaled (R205, R207). -/
def tileTypes : Instr → Option (Ty × Ty × Bool)
  | .tmmaBf16 _ => some (.bf16, .bf16, false)
  | .tmmaF16 _ => some (.f16, .f16, false)
  | .tmmaE4m3 _ => some (.e4m3, .e4m3, false)
  | .tmmaE5m2 _ => some (.e5m2, .e5m2, false)
  | .tmmaE4m3e5m2 _ => some (.e4m3, .e5m2, false)
  | .tmmaE5m2e4m3 _ => some (.e5m2, .e4m3, false)
  | .tmmaI8 _ => some (.i8, .i8, false)
  | .tmmaN8 _ => some (.n8, .n8, false)
  | .tmmaI8n8 _ => some (.i8, .n8, false)
  | .tmmaLg6 _ => some (.lg6, .lg6, false)
  | .tmmasE4m3 _ => some (.e4m3, .e4m3, true)
  | .tmmasE5m2 _ => some (.e5m2, .e5m2, true)
  | .tmmasE4m3e5m2 _ => some (.e4m3, .e5m2, true)
  | .tmmasE5m2e4m3 _ => some (.e5m2, .e4m3, true)
  | .tmmasI8 _ => some (.i8, .i8, true)
  | .tmmasLg6 _ => some (.lg6, .lg6, true)
  | _ => none

/-- The checks of a tile multiplication by its variant. -/
def chkTmma (i : Instr) (o : XTOp) (c k : Nat) (s : State) : Option Fail :=
  match tileTypes i with
  | some (ta, tb, sc) => tmmaFail ta tb sc o c k s
  | none => none

/-- `tmma.bf16` (R206). -/
def effTmmaBf16 (o : XTOp) (c k : Nat) (s : State) : State := tmma (.tmmaBf16 o) o c k s
/-- `tmma.f16` (R206). -/
def effTmmaF16 (o : XTOp) (c k : Nat) (s : State) : State := tmma (.tmmaF16 o) o c k s
/-- `tmma.e4m3` (R206). -/
def effTmmaE4m3 (o : XTOp) (c k : Nat) (s : State) : State := tmma (.tmmaE4m3 o) o c k s
/-- `tmma.e5m2` (R206). -/
def effTmmaE5m2 (o : XTOp) (c k : Nat) (s : State) : State := tmma (.tmmaE5m2 o) o c k s
/-- `tmma.e4m3e5m2` (R206). -/
def effTmmaE4m3e5m2 (o : XTOp) (c k : Nat) (s : State) : State := tmma (.tmmaE4m3e5m2 o) o c k s
/-- `tmma.e5m2e4m3` (R206). -/
def effTmmaE5m2e4m3 (o : XTOp) (c k : Nat) (s : State) : State := tmma (.tmmaE5m2e4m3 o) o c k s
/-- `tmma.i8` (R206). -/
def effTmmaI8 (o : XTOp) (c k : Nat) (s : State) : State := tmma (.tmmaI8 o) o c k s
/-- `tmma.n8` (R206). -/
def effTmmaN8 (o : XTOp) (c k : Nat) (s : State) : State := tmma (.tmmaN8 o) o c k s
/-- `tmma.i8n8` (R206). -/
def effTmmaI8n8 (o : XTOp) (c k : Nat) (s : State) : State := tmma (.tmmaI8n8 o) o c k s
/-- `tmma.lg6` (R206). -/
def effTmmaLg6 (o : XTOp) (c k : Nat) (s : State) : State := tmma (.tmmaLg6 o) o c k s
/-- `tmmas.e4m3` (R207). -/
def effTmmasE4m3 (o : XTOp) (c k : Nat) (s : State) : State := tmma (.tmmasE4m3 o) o c k s
/-- `tmmas.e5m2` (R207). -/
def effTmmasE5m2 (o : XTOp) (c k : Nat) (s : State) : State := tmma (.tmmasE5m2 o) o c k s
/-- `tmmas.e4m3e5m2` (R207). -/
def effTmmasE4m3e5m2 (o : XTOp) (c k : Nat) (s : State) : State := tmma (.tmmasE4m3e5m2 o) o c k s
/-- `tmmas.e5m2e4m3` (R207). -/
def effTmmasE5m2e4m3 (o : XTOp) (c k : Nat) (s : State) : State := tmma (.tmmasE5m2e4m3 o) o c k s
/-- `tmmas.i8` (R207). -/
def effTmmasI8 (o : XTOp) (c k : Nat) (s : State) : State := tmma (.tmmasI8 o) o c k s
/-- `tmmas.lg6` (R207). -/
def effTmmasLg6 (o : XTOp) (c k : Nat) (s : State) : State := tmma (.tmmasLg6 o) o c k s

end Sys2Proof.Machine
end

