-- ==== Sys2Proof/Machine/COps.lean ====
section
/-! DEFINITION. The shared operations of the C slot: guards, landings at the end of the issue tick, branch targets and their checks
(R212, R214, R215, R220, R221). -/

namespace Sys2Proof.Machine

/-- Land a scalar at the end of the issue tick (R212). -/
def Warp.landC (w : Warp) (d : Nat) (x : DWord) : Warp := w.push (w.scalarLanding 3 1 (.s d) .none x 0)
/-- Land a scalar predicate at the end of the issue tick (R212). -/
def Warp.landCp (w : Warp) (d : Nat) (b : Bool) : Warp := w.push (w.scalarLanding 3 1 (.sp d) .none (if b then 1 else 0) 0)

/-- A scalar ALU operation of A and B under its guard (R212, R217). -/
def Warp.aluS (w : Warp) (o : CSOp) (f : DWord → DWord → DWord) : Warp :=
  if w.guardS o.guard then w.landC o.d.val (f (w.s o.a.val) (w.csB o)) else w

/-- A check made only under a true guard (R212). -/
def guardedCheck (g : Guard) (c k : Nat) (s : State) (f : Warp → Option Fail) : Option Fail :=
  match s.warp? c k with
  | none => none
  | some w => if w.guardS g then f w else none

/-- An effect made only under a true guard (R212). -/
def guardedEff (g : Guard) (c k : Nat) (s : State) (f : Warp → State) : State :=
  s.onWarp c k fun w => if w.guardS g then f w else s

/-- The target of a CB operation with OFF (R53, R221). -/
def cbTarget (w : Warp) (o : CBOp) : DWord := w.pc + (o.off.signExtend 64) * 32

/-- The checks of a taken target (R221). -/
def targetFail (t : DWord) : Option Fail :=
  if t.toNat % 32 ≠ 0 then some ⟨0x083, t.toNat, 0⟩ else if !canonical t.toNat then some ⟨0x084, t.toNat, 0⟩ else none

/-- Take a branch (R39, R224). -/
def Warp.branch (w : Warp) (t : DWord) (u : Bool) : Warp := { w with ctl := .branch t u }

end Sys2Proof.Machine
end

