-- ==== Sys2Proof/Machine/VInt.lean ====
section
/-! DEFINITION. The V slot's integer, logic and bit operations (R117 to R123). -/

namespace Sys2Proof.Machine

/-- `vadd` (R118). -/
def effVadd (o : VOp) (w : Warp) : Warp := w.intV o 2 fun a b _ => a + b
/-- `vsub` (R118). -/
def effVsub (o : VOp) (w : Warp) : Warp := w.intV o 2 fun a b _ => a - b
/-- `vmul` (R118). -/
def effVmul (o : VOp) (w : Warp) : Warp := w.intV o 4 fun a b _ => a * b
/-- `vmulh`: the high half of the 64-bit product (R118). -/
def effVmulh (o : VOp) (w : Warp) : Warp := w.intV o 4 fun a b _ => Int.fdiv (a * b) (2 ^ 32)
/-- `vmad` (R118). -/
def effVmad (o : VOp) (w : Warp) : Warp := w.intV o 4 fun a b c => a * b + c
/-- `vmin` (R118). -/
def effVmin (o : VOp) (w : Warp) : Warp := w.intV o 2 fun a b _ => min a b
/-- `vmax` (R118). -/
def effVmax (o : VOp) (w : Warp) : Warp := w.intV o 2 fun a b _ => max a b
/-- `vand` (R119). -/
def effVand (o : VOp) (w : Warp) : Warp := w.rawV o 2 fun a b _ => a &&& b
/-- `vor` (R119). -/
def effVor (o : VOp) (w : Warp) : Warp := w.rawV o 2 fun a b _ => a ||| b
/-- `vxor` (R119). -/
def effVxor (o : VOp) (w : Warp) : Warp := w.rawV o 2 fun a b _ => a ^^^ b

/-- The shift count: bits [4:0] (R119). -/
def shiftN (b : Word) : Nat := b.toNat % 32

/-- `vshl` (R119). -/
def effVshl (o : VOp) (w : Warp) : Warp := w.rawV o 2 fun a b _ => a <<< shiftN b
/-- `vshr` (R119). -/
def effVshr (o : VOp) (w : Warp) : Warp := w.rawV o 2 fun a b _ => a >>> shiftN b
/-- `vsar` (R119). -/
def effVsar (o : VOp) (w : Warp) : Warp := w.rawV o 2 fun a b _ => a.sshiftRight (shiftN b)
/-- `vrot` (R119). -/
def effVrot (o : VOp) (w : Warp) : Warp := w.rawV o 2 fun a b _ => a.rotateLeft (shiftN b)

/-- The number of leading zeros of an `n`-bit value; `n` when it is 0 (R119). -/
def clzN (n x : Nat) : Nat := if x = 0 then n else n - 1 - x.log2
/-- The number of set bits among the low `n` (R119). -/
def popcN (n x : Nat) : Nat := ((List.range n).filter fun i => x.testBit i).length
/-- The bits of a word reversed (R119). -/
def brev (x : Word) : Word :=
  BitVec.ofNat 32 ((List.range 32).foldl (fun a i => a + if x.getLsbD i then 2 ^ (31 - i) else 0) 0)

/-- `vclz` (R119). -/
def effVclz (o : VOp) (w : Warp) : Warp := w.rawV o 2 fun a _ _ => BitVec.ofNat 32 (clzN 32 a.toNat)
/-- `vpopc` (R119). -/
def effVpopc (o : VOp) (w : Warp) : Warp := w.rawV o 2 fun a _ _ => BitVec.ofNat 32 (popcN 32 a.toNat)
/-- `vbrev` (R119). -/
def effVbrev (o : VOp) (w : Warp) : Warp := w.rawV o 2 fun a _ _ => brev a

/-- The position and length of a field (R120). -/
def fieldOf (x : Word) : Nat × Nat :=
  let pos := x.toNat % 32
  (pos, min (bits x.toNat 13 8) (32 - pos))

/-- `vbfe` on values (R120). -/
def bfe (signed : Bool) (a b : Word) : Word :=
  let (pos, len) := fieldOf b
  if len = 0 then 0
  else
    let x := a.toNat / 2 ^ pos % 2 ^ len
    if signed then BitVec.ofNat 32 (toBits (signExt x len) 32) else BitVec.ofNat 32 x

/-- `vbfi` on values (R120). -/
def bfi (a b c : Word) : Word :=
  let (pos, len) := fieldOf c
  let m := BitVec.ofNat 32 ((2 ^ len - 1) * 2 ^ pos)
  (b &&& ~~~m) ||| ((a <<< pos) &&& m)

/-- `vbfe` (R120). -/
def effVbfe (o : VOp) (w : Warp) : Warp := w.rawV o 2 fun a b _ => bfe (o.ty = .i32) a b
/-- `vbfi` (R120). -/
def effVbfi (o : VOp) (w : Warp) : Warp := w.rawV o 2 bfi
/-- `vsel` (R121). -/
def effVsel (o : VOp) (w : Warp) : Warp :=
  w.landV o 2 .lva fun l => (if w.srcPred o.c l then w.src o.a l else w.src o.b l, 0)
/-- `vmov` (R121). -/
def effVmov (o : VOp) (w : Warp) : Warp := w.rawV o 2 fun a _ _ => a
/-- `vmovi` (R121). -/
def effVmovi (o : VOp) (w : Warp) : Warp := w.rawV o 2 fun _ b _ => b
/-- `vmovi.hi` (R121). -/
def effVmoviHi (o : VOp) (w : Warp) : Warp :=
  w.landV o 2 .lva fun l => ((o.imm.getD 0) ++ (w.src o.a l).setWidth 16, 0)

/-- The conditions of R122 by SUB. -/
def cmpInt (cc : Nat) (a b : Int) : Bool :=
  match cc with
  | 0 => a = b
  | 1 => a ≠ b
  | 2 => a < b
  | 3 => a ≤ b
  | 4 => b < a
  | _ => b ≤ a

/-- `vcmp` (R122). -/
def effVcmp (o : VOp) (w : Warp) : Warp := w.predV o fun a b => cmpInt o.sub.val (intVal o.ty a) (intVal o.ty b)

/-- The carry-less product of two words (R123). -/
def clmul (a b : Word) : Nat :=
  (List.range 32).foldl (fun p i => if b.getLsbD i then p ^^^ (a.toNat * 2 ^ i) else p) 0

/-- `vclml` (R123). -/
def effVclml (o : VOp) (w : Warp) : Warp := w.rawV o 4 fun a b _ => BitVec.ofNat 32 (clmul a b)
/-- `vclmh` (R123). -/
def effVclmh (o : VOp) (w : Warp) : Warp := w.rawV o 4 fun a b _ => BitVec.ofNat 32 (clmul a b / 2 ^ 32)

end Sys2Proof.Machine
end

