-- ==== Sys2Proof/Machine/CScalar.lean ====
section
/-! DEFINITION. The C slot's scalar arithmetic (R217 to R219) and its simple flag and mask reads (R227, R238). -/

namespace Sys2Proof.Machine

/-- `add` (R217). -/
def effAddS (o : CSOp) (w : Warp) : Warp := w.aluS o fun a b => a + b
/-- `sub` (R217). -/
def effSubS (o : CSOp) (w : Warp) : Warp := w.aluS o fun a b => a - b
/-- `mul` (R217). -/
def effMulS (o : CSOp) (w : Warp) : Warp := w.aluS o fun a b => a * b
/-- `mulh` and `mulh.n` (R217). -/
def effMulhS (o : CSOp) (w : Warp) : Warp :=
  w.aluS o fun a b =>
    if o.sub.val = 0 then BitVec.ofInt 64 (Int.fdiv (a.toInt * b.toInt) (2 ^ 64)) else BitVec.ofNat 64 (a.toNat * b.toNat / 2 ^ 64)
/-- `and` (R217). -/
def effAndS (o : CSOp) (w : Warp) : Warp := w.aluS o fun a b => a &&& b
/-- `or` (R217). -/
def effOrS (o : CSOp) (w : Warp) : Warp := w.aluS o fun a b => a ||| b
/-- `xor` (R217). -/
def effXorS (o : CSOp) (w : Warp) : Warp := w.aluS o fun a b => a ^^^ b
/-- `shl` (R217). -/
def effShl (o : CSOp) (w : Warp) : Warp := w.aluS o fun a b => a <<< (b.toNat % 64)
/-- `shr` (R217). -/
def effShr (o : CSOp) (w : Warp) : Warp := w.aluS o fun a b => a >>> (b.toNat % 64)
/-- `sar` (R217). -/
def effSar (o : CSOp) (w : Warp) : Warp := w.aluS o fun a b => a.sshiftRight (b.toNat % 64)
/-- `min` and `min.n` (R217). -/
def effMinS (o : CSOp) (w : Warp) : Warp :=
  w.aluS o fun a b => if o.sub.val = 0 then (if a.slt b then a else b) else (if a < b then a else b)
/-- `max` and `max.n` (R217). -/
def effMaxS (o : CSOp) (w : Warp) : Warp :=
  w.aluS o fun a b => if o.sub.val = 0 then (if a.slt b then b else a) else (if a < b then b else a)
/-- `mov` (R218). -/
def effMov (o : CSOp) (w : Warp) : Warp := w.aluS o fun a _ => a
/-- `movi` (R218). -/
def effMovi (o : CSOp) (w : Warp) : Warp := w.aluS o fun _ b => b
/-- Replace 16 bits of a scalar (R218). -/
def putHalf (a : DWord) (n : Nat) (x : DWord) : DWord :=
  let m : DWord := 0xFFFF <<< (16 * n)
  (a &&& ~~~m) ||| ((x <<< (16 * n)) &&& m)
/-- `movhi` (R218). -/
def effMovhi (o : CSOp) (w : Warp) : Warp := w.aluS o fun a b => putHalf a (o.sub.val % 4) b

/-- The conditions of R219 by SUB. -/
def cmpS (cc : Nat) (a b : DWord) : Bool :=
  match cc with
  | 0 => a = b
  | 1 => a ≠ b
  | 2 => a.slt b
  | 3 => a.sle b
  | 4 => b.slt a
  | 5 => b.sle a
  | 6 => a < b
  | 7 => a ≤ b
  | 8 => b < a
  | _ => b ≤ a

/-- `cmp` (R219). -/
def effCmp (o : CSOp) (w : Warp) : Warp :=
  if w.guardS o.guard then w.landCp (o.d.val % 8) (cmpS o.sub.val (w.s o.a.val) (w.csB o)) else w
/-- `sel` (R218). -/
def effSel (o : CSOp) (w : Warp) : Warp :=
  w.aluS o fun a b => if w.guardS (guardOf o.sub.val) then a else b
/-- `clz` (R217). -/
def effClz (o : CSOp) (w : Warp) : Warp := w.aluS o fun a _ => BitVec.ofNat 64 (clzN 64 a.toNat)
/-- `popc` (R217). -/
def effPopc (o : CSOp) (w : Warp) : Warp := w.aluS o fun a _ => BitVec.ofNat 64 (popcN 64 a.toNat)
/-- `lea` (R217). -/
def effLea (o : CSOp) (w : Warp) : Warp := w.aluS o fun a b => a + (b <<< o.sub.val)

/-- `ftest` (R227). -/
def effFtest (o : CSOp) (w : Warp) : Warp :=
  if w.guardS o.guard then
    let le := decide (w.seen o.a.val ≤ csN o)
    w.landCp (o.d.val % 8) (if o.sub.val = 0 then le else !le)
  else w

/-- `mget` (R238). -/
def effMget (o : CSOp) (w : Warp) : Warp :=
  w.aluS o fun _ _ =>
    if csN o = 16 then BitVec.ofNat 64 w.summary else BitVec.ofNat 64 (bits w.mask.toNat (64 * csN o + 63) (64 * csN o))

end Sys2Proof.Machine
end

