-- ==== Sys2Proof/Machine/CBranch.lean ====
section
/-! DEFINITION. The C slot's branches, calls and loops (R220 to R225). -/

namespace Sys2Proof.Machine

/-- VAR in every live lane: whether some lane is true, and whether every lane is (R220). -/
def Warp.vote (w : Warp) (v : Guard) : Bool × Bool := (w.liveLanes.any fun l => w.guardV v l, w.liveLanes.all fun l => w.guardV v l)

/-- The checks of a branch taken on a condition (R215, R221). -/
def brCheck (g : Guard) (c k : Nat) (s : State) (taken : Warp → Bool) (t : Warp → DWord) : Option Fail :=
  guardedCheck g c k s fun w => if taken w then targetFail (t w) else none

/-- A branch taken on a condition. -/
def brEff (g : Guard) (w : Warp) (taken : Bool) (t : DWord) (u : Bool) : Warp := if w.guardS g && taken then w.branch t u else w

/-- The checks of `br`. -/
def chkBr (o : CBOp) (c k : Nat) (s : State) : Option Fail := brCheck o.guard c k s (fun _ => true) fun w => cbTarget w o
/-- `br` (R220). -/
def effBr (o : CBOp) (w : Warp) : Warp := brEff o.guard w true (cbTarget w o) true
/-- The checks of `br.any`. -/
def chkBrAny (o : CBOp) (c k : Nat) (s : State) : Option Fail := brCheck o.guard c k s (fun w => (w.vote o.var).1) fun w => cbTarget w o
/-- `br.any` (R220). -/
def effBrAny (o : CBOp) (w : Warp) : Warp := brEff o.guard w (w.vote o.var).1 (cbTarget w o) true
/-- The checks of `br.all`. -/
def chkBrAll (o : CBOp) (c k : Nat) (s : State) : Option Fail := brCheck o.guard c k s (fun w => (w.vote o.var).2) fun w => cbTarget w o
/-- `br.all` (R220). -/
def effBrAll (o : CBOp) (w : Warp) : Warp := brEff o.guard w (w.vote o.var).2 (cbTarget w o) true
/-- The checks of `br.u` (R28, R220). -/
def chkBrU (o : CBOp) (c k : Nat) (s : State) : Option Fail :=
  guardedCheck o.guard c k s fun w =>
    let (some', all') := w.vote o.var
    if some' && !all' then some ⟨0x080, 0, 0⟩ else if all' then targetFail (cbTarget w o) else none
/-- `br.u` (R220). -/
def effBrU (o : CBOp) (w : Warp) : Warp := brEff o.guard w (w.vote o.var).2 (cbTarget w o) true
/-- The checks of `jmp`. -/
def chkJmp (o : CBOp) (c k : Nat) (s : State) : Option Fail := brCheck o.guard c k s (fun _ => true) fun w => cbTarget w o
/-- `jmp` (R220). -/
def effJmp (o : CBOp) (w : Warp) : Warp := brEff o.guard w true (cbTarget w o) true
/-- The checks of `jmpr`. -/
def chkJmpr (o : CBOp) (c k : Nat) (s : State) : Option Fail := brCheck o.guard c k s (fun _ => true) fun w => w.s o.sreg.val
/-- `jmpr` (R221). -/
def effJmpr (o : CBOp) (w : Warp) : Warp := brEff o.guard w true (w.s o.sreg.val) true
/-- The checks of `call`. -/
def chkCall (o : CBOp) (c k : Nat) (s : State) : Option Fail := brCheck o.guard c k s (fun _ => true) fun w => cbTarget w o
/-- `call` (R222). -/
def effCall (o : CBOp) (w : Warp) : Warp :=
  if w.guardS o.guard then (w.landC 63 (w.pc + 32)).branch (cbTarget w o) false else w
/-- The checks of `ret`. -/
def chkRet (o : CBOp) (c k : Nat) (s : State) : Option Fail := brCheck o.guard c k s (fun _ => true) fun w => w.s 63
/-- `ret` (R222). -/
def effRet (o : CBOp) (w : Warp) : Warp := brEff o.guard w true (w.s 63) false

/-- The count of a `loop` (R223). -/
def loopCount (o : CBOp) (w : Warp) : BitVec 32 := (w.s o.sreg.val).setWidth 32

/-- The checks of `loop` (R221, R223). -/
def chkLoop (o : CBOp) (c k : Nat) (s : State) : Option Fail :=
  guardedCheck o.guard c k s fun w =>
    if loopCount o w = 0 then targetFail (cbTarget w o + 32)
    else if 4 ≤ w.loops.length then some ⟨0x081, 0, 0⟩
    else match w.loops with
      | l :: _ => if l.stop = w.pc then some ⟨0x085, 0, 0⟩ else none
      | [] => none
/-- `loop` (R223). -/
def effLoop (o : CBOp) (w : Warp) : Warp :=
  if !w.guardS o.guard then w
  else if loopCount o w = 0 then w.branch (cbTarget w o + 32) true
  else { w with loops := ⟨w.pc + 32, cbTarget w o, loopCount o w, true⟩ :: w.loops }

/-- The checks of `lpop` (R225). -/
def chkLpop (o : CSOp) (c k : Nat) (s : State) : Option Fail :=
  guardedCheck o.guard c k s fun w => if w.loops = [] then some ⟨0x082, 0, 0⟩ else none
/-- `lpop` (R225); the pop may take a bank-conflict snapshot (R364). -/
def effLpop (o : CSOp) (c k : Nat) (s : State) : State :=
  guardedEff o.guard c k s fun w =>
    (s.setWarp c k { w with loops := w.loops.tail }).notePop c k w.loops.length (w.loops.length - 1)

end Sys2Proof.Machine
end

