-- ==== Sys2Proof/Machine/CSync.lean ====
section
/-! DEFINITION. The C slot's waits, barriers, arrival words, monitors, lanes and tasks (R226 to R240). -/

namespace Sys2Proof.Machine

/-! ## `wait` -/

/-- The flags MASK names, ascending. -/
def maskFlags (o : CWOp) : List Nat := (List.range 16).filter fun i => o.mask.getLsbD i
/-- The threshold of the `j`-th named flag (R55). -/
def threshold (o : CWOp) (j : Nat) : Nat :=
  if 9 ≤ j then 0
  else match bits o.codes.toNat (2 * j + 1) (2 * j) with
    | 0 => 0
    | 1 => 1
    | 2 => 2
    | _ => o.e.toNat
/-- The condition of `wait` (R226). -/
def waitMet (o : CWOp) (w : Warp) : Bool := (maskFlags o).zipIdx.all fun p => decide (w.seen p.1 ≤ threshold o p.2)

/-- Hold a warp before its own bundle (R216). -/
def Warp.holdBefore (w : Warp) (now : Nat) : Warp :=
  match w.stop with
  | .before .. => w
  | _ => { w with stop := .before none 0 0 false, since := now, ended := none, awaits := none }

/-- Hold while a condition is unmet: whether the warp holds, and the state. -/
def State.holdWhile (s : State) (c k : Nat) (met : Warp → Bool) : Bool × State :=
  match s.warp? c k with
  | none => (false, s)
  | some w => if met w then (false, s) else (true, s.setWarp c k (w.holdBefore s.cycle))

/-- The hold of `wait` (R226). -/
def holdWait (o : CWOp) (c k : Nat) (s : State) : Bool × State := s.holdWhile c k (waitMet o)
/-- `wait` has no effect beyond its hold (R226). -/
def effWait (_ : CWOp) (w : Warp) : Warp := w

/-! ## Barriers -/

/-- The form an arrival names: all, or an explicit count (R228). -/
def barForm (o : CSOp) (w : Warp) : Option Nat :=
  let n := (w.s o.a.val).toNat % 2 ^ 32
  if o.a.val = 0 ∨ n = 0 then none else some n
/-- The deadline an arrival names (R228). -/
def barDeadline (o : CSOp) (w : Warp) (now : Nat) : Option Nat :=
  let t := (w.s o.b.val).toNat % 2 ^ 32
  if o.b.val = 0 ∨ t = 0 then none else some (now + t)

/-- BARRIER_MISMATCH (R230). -/
def barCheck (cluster : Bool) (o : CSOp) (s : State) (w : Warp) : Option Fail :=
  match ((s.lapse cluster w.block o.sub.val).barrier cluster w.block o.sub.val).form with
  | none => none
  | some f => if f = barForm o w then none else some ⟨0x1C1, 0, 0⟩

/-- An arrival: the set, form and hold of R228 to R230, once the arrivals whose timeouts have passed are withdrawn. -/
def barArrive (cluster : Bool) (o : CSOp) (c k : Nat) (s : State) : State :=
  guardedEff o.guard c k s fun w =>
    let s := s.lapse cluster w.block o.sub.val
    let w := (s.warp? c k).getD w
    let v := s.barrier cluster w.block o.sub.val
    let s := s.setBarrier cluster w.block o.sub.val { v with arrived := v.arrived ++ [warpId c k], form := some (barForm o w) }
    let s := s.setWarp c k { w with hold := some (.bar cluster o.sub.val (o.d.val % 8) (barDeadline o w s.cycle)), since := s.cycle }
    s.checkBarrier cluster w.block o.sub.val

/-- The checks of `bar`. -/
def chkBar (o : CSOp) (c k : Nat) (s : State) : Option Fail := guardedCheck o.guard c k s fun w => barCheck false o s w
/-- `bar` (R228). -/
def effBar (o : CSOp) (c k : Nat) (s : State) : State := barArrive false o c k s
/-- The checks of `cbar` (R231). -/
def chkCbar (o : CSOp) (c k : Nat) (s : State) : Option Fail :=
  guardedCheck o.guard c k s fun w => if !s.inCluster w then some ⟨0x1C2, 0, 0⟩ else barCheck true o s w
/-- `cbar` (R231). -/
def effCbar (o : CSOp) (c k : Nat) (s : State) : State := barArrive true o c k s

/-! ## Arrival words -/

/-- The alignment and bounds of an arrival word in A (R232). -/
def awordFail (o : CSOp) (s : State) (w : Warp) : Option Fail := spFail (s.allocOf w) 16 [(0, (w.s o.a.val).toNat)]

/-- The checks of `ainit`. -/
def chkAinit (o : CSOp) (c k : Nat) (s : State) : Option Fail := guardedCheck o.guard c k s fun w => awordFail o s w
/-- `ainit` (R232): the target is a register or IMM18 zero-extended (R213). -/
def effAinit (o : CSOp) (c k : Nat) (s : State) : State :=
  guardedEff o.guard c k s fun w =>
    let t := match o.imm with
      | some i => i.toNat
      | none => (w.s o.b.val).toNat % 2 ^ 32
    let a := (w.s o.a.val).toNat
    (s.spPut w.block a 16 t).bankCount c w.pipe (spWords 16 [(0, a)])

/-- The checks of `await`. -/
def chkAwait (o : CSOp) (c k : Nat) (s : State) : Option Fail := guardedCheck o.guard c k s fun w => awordFail o s w
/-- The condition of `await` (R233). -/
def awaitMet (o : CSOp) (s : State) (w : Warp) : Bool :=
  !w.guardS o.guard || bits (s.spGet w.block (w.s o.a.val).toNat 16) 95 64 != (w.s o.b.val).toNat % 2 ^ 32
/-- The hold of `await` (R233), which notes the word and the GEN it waits for; its read of the word is an access of its vector pipe (R361, R362). -/
def holdAwait (o : CSOp) (c k : Nat) (s : State) : Bool × State :=
  let (held, t) := s.holdWhile c k (awaitMet o s)
  (held, guardedEff o.guard c k t fun w =>
    (if held then t.modWarp c k fun w => { w with awaits := some ((w.s o.a.val).toNat, (w.s o.b.val).toNat % 2 ^ 32) } else t).bankCount c w.pipe
      (spWords 16 [(0, (w.s o.a.val).toNat)]))
/-- `await` has no effect beyond its hold (R233). -/
def effAwait (_ : CSOp) (w : Warp) : Warp := w

/-! ## Monitors -/

/-- The bytes of `mwait` (R234). -/
def mwaitN (o : CSOp) : Nat := if o.sub.val / 8 = 1 then 8 else 4

/-- The checks of `mwait` (R234). -/
def chkMwait (o : CSOp) (c k : Nat) (s : State) : Option Fail :=
  guardedCheck o.guard c k s fun w => s.globFail1 c w .read .any (mwaitN o) (mwaitN o) (w.s o.a.val).toNat

/-- Whether an address may use a monitor: HBM of this device and not memory-side (R236). -/
def mayMonitor (p : Place) : Bool := p.pa.space = .hbm && !p.ms && !p.pod

/-- Whether the core's FIFO still holds a write of a line that entered before acceptance number `n`. -/
def CoreSt.fifoWrites (x : CoreSt) (line : Pa) (n : Nat) : Bool := x.fifo.any fun e => e.line = line && decide (e.seq < n)

/-- Whether a home read of a warp stands behind an acquire of its own that is open, or a load of the same bytes that is not performed (R162,
R251). -/
def State.readsFirst (s : State) (c k : Nat) (w : Warp) (pa : Pa) (n : Nat) : Bool :=
  s.acquireOpen c k w.seq || (s.core c).ops.any fun o => o.slot = k && !o.dead && o.todo.any fun a =>
    a.pa.space = pa.space && decide (a.pa.addr < pa.addr + n) && decide (pa.addr < a.pa.addr + a.n)

/-- One read of `mwait` at the home (R235, R236, R250): the hold ends with 1 when the condition holds; else the warp registers where it
may, and otherwise waits for its next poll. -/
def mwaitRead (o : CSOp) (c k : Nat) (s : State) (dl : Option Nat) (interval : Nat) : State :=
  s.onWarp c k fun w =>
    match s.place c w .read (w.s o.a.val).toNat with
    | none => s
    | some (p, t) =>
      let s := s.learn c t
      let hold := fun (s : State) (interval poll : Nat) (armed : Bool) =>
        s.modWarp c k fun w => { w with stop := .before dl interval poll armed, ended := none, awaits := none,
                                        since := match w.stop with | .before .. => w.since | _ => s.cycle }
      if (s.core c).fifoWrites p.pa.line (s.core c).next || s.readsFirst c k w p.pa (mwaitN o) then hold s interval s.cycle false
      else
        let n := mwaitN o
        let (x, _, s) := s.homeGet p.pa n 0 (352 + c)
        if mwaitCond (o.sub.val % 8) n x (w.s o.b.val).toNat then s.endMwait c k true
        else
          let slice := sliceOf p.pa.addr
          let used := (s.monitors.filter fun m => sliceOf m.pa = slice).length
          if mayMonitor p && decide (used < Config.monitorEntries) then
            let s := s.logAccess p.pa.addr n 9 (352 + c)
            hold { s with monitors := s.monitors ++ [⟨c, k, p.pa.addr, n, o.sub.val % 8, w.s o.b.val, dl⟩] } interval 0 true
          else hold s (min (2 * interval) 65536) (s.cycle + interval) false

/-- The hold of `mwait` (R234 to R236): it begins with a first read. -/
def holdMwait (o : CSOp) (c k : Nat) (s : State) : Bool × State :=
  match s.warp? c k with
  | none => (false, s)
  | some w =>
    if !w.guardS o.guard then (false, s)
    else match w.stop with
      | .mdone _ => (false, s)
      | .before .. => (true, s)
      | _ =>
        let t := (w.s (o.a.val + 1)).toNat
        let s := mwaitRead o c k s (if t = 0 then none else some (s.cycle + t)) 256
        match s.warp? c k with
        | some w => (match w.stop with | .mdone _ => false | _ => true, s)
        | none => (false, s)

/-- `mwait` at its issue: the predicate with which its hold ended (R235). -/
def effMwait (o : CSOp) (c k : Nat) (s : State) : State :=
  guardedEff o.guard c k s fun w =>
    let b := match w.stop with
      | .mdone b => b
      | _ => true
    s.setWarp c k ({ w with stop := .run }.landCp (o.d.val % 8) b)

/-! ## Lanes -/

/-- `lexit` (R237): the lanes leave at the end of the tick. -/
def effLexit (o : CSOp) (w : Warp) : Warp :=
  if w.guardS o.guard then
    let g : Guard := ⟨o.sub.val % 2 = 1, Fin.ofNat 8 o.a.val⟩
    { w with retire := w.retire ||| BitVec.ofNat 1024 ((w.liveLanes.filter fun l => w.guardV g l).foldl (fun m l => m + 2 ^ l) 0) }
  else w

/-- `mset` (R238): lanes whose bit is 0 leave at the end of the tick. -/
def effMset (o : CSOp) (w : Warp) : Warp :=
  if w.guardS o.guard then
    let x := (w.s o.a.val).toNat
    { w with retire := w.retire ||| BitVec.ofNat 1024 ((2 ^ 64 - 1 - x) * 2 ^ (64 * csN o)) }
  else w

/-! ## Tasks -/

/-- The address of a queue descriptor (R291). -/
def State.qAddr (s : State) (q : Nat) : Nat := s.fw.queues + 64 * q

/-- Whether a task may feed a queue: one that is set up, whose owner is the task's region or a descendant (R239, R293). -/
def State.mayFeed (s : State) (w : Warp) (q : Nat) : Bool :=
  match s.cardOfBlock w.block with
  | some card => s.queues.contains q && (s.rcbPath 8 (s.fld (s.qAddr q) 0x10 8)).contains card.rcb
  | none => false

/-- The checks of `tsub` in the order of R239. -/
def chkTsub (o : CSOp) (c k : Nat) (s : State) : Option Fail :=
  guardedCheck o.guard c k s fun w =>
    let q := (w.s o.a.val).toNat
    firstFail [alignFail (w.s o.b.val).toNat 64, failIf (q / 4096 != 0) 0x200 0, failIf (!s.mayFeed w (q % 4096)) 0x200 0]

/-- Whether the enqueues of a block's task are held with its card: it runs speculatively, or some held before its commit are still to be released,
which go first (R239, R293, R319). -/
def State.buffers (s : State) (b : Nat) : Bool :=
  match s.cardOfBlock b with
  | some card => card.speculating || card.buffered != []
  | none => false

/-- The acceptance wait of `tsub` (R239, R293). -/
def waitTsub (o : CSOp) (c k : Nat) (s : State) : Option Wait :=
  match s.warp? c k with
  | none => none
  | some w =>
    if !w.guardS o.guard then none
    else if s.buffers w.block then
      match s.cardOfBlock w.block with
      | some card => if 64 ≤ card.buffered.length || Config.fifoMarkers ≤ (s.core c).markers.length then some .accept else none
      | none => none
    else if Config.enqueueBuffer ≤ ((s.core c).enq.filter fun e => !e.kept).length || Config.fifoMarkers ≤ (s.core c).markers.length then some .accept else none

/-- `tsub` (R239): a release at `.d`, then the enqueue; buffered with its card while the task is speculative, its release marker with it. -/
def effTsub (o : CSOp) (c k : Nat) (s : State) : State :=
  guardedEff o.guard c k s fun w =>
    let q := (w.s o.a.val).toNat % 4096
    let card := w.s o.b.val
    let held := s.buffers w.block
    let (n, s) := s.takeSeq c k
    let (m, s) := s.placeMarker c k n .d none none
    if held then
      match s.cardOfBlock w.block with
      | some x => s.modCard x.id fun x => { x with buffered := x.buffered ++ [⟨q, card, some m, c, k, n, false⟩] }
      | none => s
    else s.modCore c fun x => { x with enq := x.enq ++ [⟨q, card, some m, c, k, n, false⟩] }

/-- `targ` (R240, R299): the next record of the task's chunk. -/
def effTarg (o : CSOp) (c k : Nat) (s : State) : State :=
  guardedEff o.guard c k s fun w =>
    match s.block? w.block with
    | none => s
    | some b =>
      match FMap.find s.tasks b.task with
      | none => s
      | some t =>
        if t.taken < t.count then
          let x := match s.card? t.card with
            | some card => card.argBase + BitVec.ofNat 64 (card.argStride * (t.first + t.taken))
            | none => 0
          (s.modTask b.task fun t => { t with taken := t.taken + 1, lastTake := some (s.cycle, b.grank, w.pipe) }).setWarp c k ((w.landC o.d.val x).landCp (o.a.val % 8) true)
        else s.setWarp c k ((w.landC o.d.val 0).landCp (o.a.val % 8) false)

end Sys2Proof.Machine
end

