-- ==== Sys2Proof/Machine/CSys.lean ====
section
/-! DEFINITION. The C slot's traps, return, end, instruction memory and special registers (R241 to R247). -/

namespace Sys2Proof.Machine

/-! ## Traps and the end of a warp -/

/-- `trap` (R241): taken after the other slots of its bundle; in privilege H it escalates. -/
def effTrap (o : CSOp) (c k : Nat) (s : State) : State := guardedEff o.guard c k s fun _ => s.trapAfter c k (0x240 + csN o) 0
/-- `brk` (R241). -/
def effBrk (o : CSOp) (c k : Nat) (s : State) : State := guardedEff o.guard c k s fun _ => s.trapAfter c k (0x280 + csN o) 0
/-- `sysc` (R242): in U, SYSCALL_USER; in H, the successor is held until firmware replies. -/
def effSysc (o : CSOp) (c k : Nat) (s : State) : State :=
  guardedEff o.guard c k s fun w =>
    if w.priv then s.setWarp c k { w with hold := some (.sysc (csN o) none), since := s.cycle }
    else s.trapAfter c k 0x270 (csN o)
/-- `hret` waits until the warp's stores are performed (R339). -/
def waitHret (o : CSOp) (c k : Nat) (s : State) : Option Wait :=
  match s.warp? c k with
  | none => none
  | some w => if w.guardS o.guard && (s.core c).fifo.any fun e => e.slot = k then some .accept else none
/-- `hret` (R243, R339). -/
def effHret (o : CSOp) (c k : Nat) (s : State) : State := guardedEff o.guard c k s fun w => s.hret c k w
/-- `exit` (R30, R243): in privilege H it kills the warp. -/
def effExit (o : CSOp) (c k : Nat) (s : State) : State := guardedEff o.guard c k s fun w => s.endWarp c k w.priv
/-- `yield` (R243). -/
def effYield (o : CSOp) (w : Warp) : Warp := if w.guardS o.guard then { w with yielded := true } else w
/-- `nop` (R243). -/
def effNop (_ : CSOp) (w : Warp) : Warp := w

/-! ## Instruction memory -/

/-- The first line `ipf` names (R244). -/
def ipfLine (o : CSOp) (w : Warp) : Nat :=
  let a : DWord := match o.imm with
    | some i => w.pc + immS i * 32
    | none => w.s o.a.val
  a.toNat / 128 * 128
/-- `ipf` (R244): the lines are asked for. -/
def effIpf (o : CSOp) (c k : Nat) (s : State) : State :=
  guardedEff o.guard c k s fun w =>
    let asid := (s.ctxOf w.block c).1
    let ls := (List.range (o.sub.val + 1)).map fun i => (asid, ipfLine o w + 128 * i)
    s.modCore c fun x => { x with iwant := x.iwant ++ ls.filter fun l => !x.iwant.contains l }

/-- Invalidate a core's instruction cache and its warps' fetch buffers, and the fills asked for (R246). -/
def State.icInvalidate (s : State) (c : Nat) : State :=
  s.modCore c fun x => { x with icache := [], iwant := [], warps := x.warps.map fun p => (p.1, { p.2 with fetch := [], lastLine := none }) }

/-- Hold the successor until every listed core has invalidated (R246). -/
def icinvHold (o : CSOp) (c k : Nat) (s : State) (cores : List Nat) : State :=
  guardedEff o.guard c k s fun w => s.setWarp c k { w with hold := some (.icinv cores), since := s.cycle }
/-- `icinv.c` (R246). -/
def effIcinvC (o : CSOp) (c k : Nat) (s : State) : State := icinvHold o c k s [c]
/-- `icinv.d` (R246): every core that holds anything. -/
def effIcinvD (o : CSOp) (c k : Nat) (s : State) : State := icinvHold o c k s (s.cores.map (·.1))

/-! ## Special registers -/

/-- `sr.shape` (R14). -/
def State.shape (s : State) (w : Warp) : Nat :=
  (w.k - 1) + (w.budget / 8 - 1) * 2 ^ 8 + s.allocOf w / 1024 * 2 ^ 16 + w.laneLimit * 2 ^ 32

/-- A special register as of the issue tick (R14, R247). -/
def State.readSr (s : State) (c k : Nat) (w : Warp) (i : Nat) : DWord :=
  match i with
  | 0 => s.wid c k w
  | 1 => BitVec.ofNat 64 (s.shape w)
  | 2 => BitVec.ofNat 64 w.tick
  | 3 => BitVec.ofNat 64 (w.tickStart - (s.core c).cycle0)
  | 4 => w.fel
  | 5 => w.fes
  | 6 => w.fen
  | 7 => BitVec.ofNat 64 w.loops.length
  | 8 => w.tsa
  | 9 => w.cause
  | 10 => w.epc
  | 11 => w.imask
  | _ => 0

/-- `gsr` (R247). -/
def effGsr (o : CSOp) (c k : Nat) (s : State) : State :=
  guardedEff o.guard c k s fun w => s.setWarp c k (w.landC o.d.val (s.readSr c k w (csN o)))
/-- `ssr` (R247): the write applies at the end of the tick. -/
def effSsr (o : CSOp) (w : Warp) : Warp :=
  if w.guardS o.guard then w.push (w.scalarLanding 3 1 (.sr (csN o)) .none (w.s o.a.val) 0) else w

end Sys2Proof.Machine
end

