-- ==== Sys2Proof/Machine/VFloat.lean ====
section
/-! DEFINITION. The V slot's f32, special-function, packed, conversion and scaling operations (R124 to R132). -/

namespace Sys2Proof.Machine

/-- `vfadd` (R95, R125). -/
def effVfadd (o : VOp) (w : Warp) : Warp := w.fpV o 4 .lvf fun a b _ => Fp.add Fp.f32 o.rm o.sat a b
/-- `vfsub` (R95, R125). -/
def effVfsub (o : VOp) (w : Warp) : Warp := w.fpV o 4 .lvf fun a b _ => Fp.sub Fp.f32 o.rm o.sat a b
/-- `vfmul` (R95, R125). -/
def effVfmul (o : VOp) (w : Warp) : Warp := w.fpV o 4 .lvf fun a b _ => Fp.mulRound Fp.f32 o.rm o.sat a b
/-- `vfma` (R95, R125). -/
def effVfma (o : VOp) (w : Warp) : Warp := w.fpV o 4 .lvf fun a b c => Fp.fma Fp.f32 o.rm o.sat a b c
/-- `vfmin` (R96, R125). -/
def effVfmin (o : VOp) (w : Warp) : Warp := w.fpV o 4 .lvf fun a b _ => (Fp.minMax Fp.f32 true a b, 0)
/-- `vfmax` (R96, R125). -/
def effVfmax (o : VOp) (w : Warp) : Warp := w.fpV o 4 .lvf fun a b _ => (Fp.minMax Fp.f32 false a b, 0)

/-- The conditions of R126 by SUB. -/
def cmpF32 (cc : Nat) (a b : Word) : Bool :=
  let x := Fp.decode Fp.f32 a.toNat
  let y := Fp.decode Fp.f32 b.toNat
  let un := x.isNan || y.isNan
  let c := Fp.cmp false x y
  match cc with
  | 0 => !un && c = .eq
  | 1 => un || c != .eq
  | 2 => !un && c = .lt
  | 3 => !un && c != .gt
  | 4 => !un && c = .gt
  | 5 => !un && c != .lt
  | 6 => un
  | _ => !un

/-- `vfcmp` (R126). -/
def effVfcmp (o : VOp) (w : Warp) : Warp := w.predV o (cmpF32 o.sub.val)

/-- The class of an f32 value (R127). -/
def classF32 (a : Word) : Nat :=
  match Fp.decode Fp.f32 a.toNat with
  | .nan => 8
  | .inf neg => if neg then 0 else 7
  | .fin neg m _ =>
    if m = 0 then (if neg then 3 else 4)
    else if m < 2 ^ 23 then (if neg then 2 else 5)
    else if neg then 1 else 6

/-- `vfclass` (R127). -/
def effVfclass (o : VOp) (w : Warp) : Warp := w.predV o fun a m => m.getLsbD (classF32 a)

/-- `vfrcp` (R97). -/
def effVfrcp (o : VOp) (w : Warp) : Warp := w.fpV o 8 .lvx fun a _ _ => Fp.rcp o.rm o.sat a
/-- `vfrsq` (R97). -/
def effVfrsq (o : VOp) (w : Warp) : Warp := w.fpV o 8 .lvx fun a _ _ => Fp.rsq o.rm o.sat a
/-- `vfex2` (R97). -/
def effVfex2 (o : VOp) (w : Warp) : Warp := w.fpV o 8 .lvx fun a _ _ => Fp.ex2 o.rm o.sat a
/-- `vflg2` (R97). -/
def effVflg2 (o : VOp) (w : Warp) : Warp := w.fpV o 8 .lvx fun a _ _ => Fp.lg2 o.rm o.sat a
/-- `vfsinpi` (R97). -/
def effVfsinpi (o : VOp) (w : Warp) : Warp := w.fpV o 8 .lvx fun a _ _ => Fp.sinpi o.rm o.sat a
/-- `vfcospi` (R97). -/
def effVfcospi (o : VOp) (w : Warp) : Warp := w.fpV o 8 .lvx fun a _ _ => Fp.cospi o.rm o.sat a

/-- `vhadd` (R128). -/
def effVhadd (o : VOp) (w : Warp) : Warp := w.packedV o fun f a b _ => Fp.add f o.rm o.sat a b
/-- `vhmul` (R128). -/
def effVhmul (o : VOp) (w : Warp) : Warp := w.packedV o fun f a b _ => Fp.mulRound f o.rm o.sat a b
/-- `vhfma` (R128). -/
def effVhfma (o : VOp) (w : Warp) : Warp := w.packedV o fun f a b c => Fp.fma f o.rm o.sat a b c
/-- `vhdot` (R98, R128). -/
def effVhdot (o : VOp) (w : Warp) : Warp :=
  w.fpV o 4 .lvf fun a b c => Fp.dot (halfFmt o.ty) o.rm o.sat (a % 65536) (b % 65536) (a / 65536) (b / 65536) c

/-- `vcvt` of one value (R99, R129). -/
def cvt (src dst : Ty) (rm : RM) (sat : Bool) (a : Word) : Word × BitVec 8 :=
  if isInt src && isInt dst then
    let x := intVal src a
    if sat && satTo dst x != x then (intWrap dst (satTo dst x), Fp.evConvSat ||| Fp.evInexact) else (intWrap dst x, 0)
  else
    let v := if isInt src then Fp.ofInt (intVal src a) else Fp.ofTy src a.toNat
    if isInt dst then
      let r := Fp.toInt rm (intTy dst).1 (intTy dst).2 v
      (intWrap dst r.1, r.2)
    else
      let r := Fp.toTy dst rm (if sat then .conv else .none) v
      (BitVec.ofNat 32 r.1, r.2)

/-- `vcvt` (R129). -/
def effVcvt (o : VOp) (w : Warp) : Warp :=
  w.landV o 3 .lvx fun l => cvt ((tyOfCode o.sub.val).getD .i32) o.ty o.rm o.sat (w.src o.a l)

/-- `vpack` of one lane (R130). -/
def vpack (ty : Ty) (sub : Nat) (rm : RM) (sat : Bool) (a b c : Nat) : Nat × BitVec 8 :=
  let f := Fp.toTy ty rm (if sat then .conv else .none)
  let x := f (Fp.decode Fp.f32 a)
  let y := f (Fp.decode Fp.f32 b)
  let ev := x.2 ||| y.2
  match ty with
  | .e4m3 | .e5m2 =>
    let n := x.1 + 256 * y.1
    (if sub = 0 then c / 65536 * 65536 + n else c % 65536 + 65536 * n, ev)
  | .lg6 =>
    let n := x.1 + 64 * y.1
    let c := c % 2 ^ 24
    (if sub = 0 then c / 4096 * 4096 + n else c % 4096 + 4096 * n, ev)
  | _ => (x.1 + 65536 * y.1, ev)

/-- `vpack` (R130). -/
def effVpack (o : VOp) (w : Warp) : Warp := w.fpV o 3 .lvx (vpack o.ty o.sub.val o.rm o.sat)

/-- `vunpack` of one lane (R131). -/
def vunpack (ty : Ty) (n : Nat) (a : Nat) : Nat :=
  let x := match ty with
    | .e4m3 | .e5m2 => a / 2 ^ (8 * n) % 256
    | .lg6 => a / 2 ^ (6 * n) % 64
    | _ => a / 2 ^ (16 * n) % 65536
  (Fp.convert Fp.f32 .rne .none (Fp.ofTy ty x)).1

/-- `vunpack` (R131). -/
def effVunpack (o : VOp) (w : Warp) : Warp := w.fpV o 3 .lvx fun a _ _ => (vunpack o.ty o.sub.val a, 0)

/-- `vscale` of one lane (R132). -/
def vscale (e8 : Bool) (rm : RM) (sat : Bool) (a b : Nat) : Nat × BitVec 8 :=
  if e8 && b % 256 = 255 then (Fp.f32.nan, 0)
  else
    let n : Int := if e8 then (b % 256 : Nat) - 127 else signExt b 32
    match Fp.decode Fp.f32 a with
    | .fin neg m e => Fp.arith Fp.f32 rm sat (.fin neg m (e + n))
    | v => Fp.arith Fp.f32 rm sat v

/-- `vscale` (R132). -/
def effVscale (o : VOp) (w : Warp) : Warp := w.fpV o 3 .lvx fun a b _ => vscale (o.sub.val = 1) o.rm o.sat a b

end Sys2Proof.Machine
end

