-- ==== Sys2Proof/Machine/VLane.lean ====
section
/-! DEFINITION. The V slot's lane movement, reductions to scalar and predicate logic (R133 to R137). -/

namespace Sys2Proof.Machine

/-- The source lane of `vshfl` (R133). -/
def shflLane (sub l k : Nat) : Int :=
  match sub with
  | 0 => k
  | 1 => (l : Int) - k
  | 2 => (l : Int) + k
  | _ => (l ^^^ k : Nat)

/-- `k` of `vshfl`: B as unsigned, or IMM16 zero-extended (R133). -/
def Warp.unsignedB (w : Warp) (o : VOp) (l : Nat) : Nat :=
  match o.imm with
  | some i => i.toNat
  | none => (w.src o.b l).toNat

/-- `vshfl` (R133). -/
def effVshfl (o : VOp) (w : Warp) : Warp :=
  w.landV o 3 .lvx fun l =>
    let t := shflLane o.sub.val l (w.unsignedB o l)
    (w.src o.a (if 0 ≤ t ∧ t < w.width then t.toNat else l), 0)

/-- `vbcast` (R134). -/
def effVbcast (o : VOp) (w : Warp) : Warp :=
  let t := w.unsignedB o 0
  w.landV o 3 .lvx fun _ => (if t < w.width then w.src o.a t else 0, 0)

/-- The leaves of the reduction tree: a lane's value when it is active (R107). -/
def Warp.leaves (w : Warp) (o : VOp) : List (Option (Word × BitVec 8)) :=
  (List.range w.width).map fun l => if w.live l && w.guardV o.guard l then some (w.src o.a l, 0) else none

/-- A value as a unit writes it: an f32 NaN is the canonical one (R86). -/
def canonicalF32 (ty : Ty) (x : Word) : Word := if ty = .f32 && (Fp.decode Fp.f32 x.toNat).isNan then BitVec.ofNat 32 Fp.f32.nan else x

/-- `vredadd`: the sum over the tree of R107, with its events; the one active lane's NaN, which meets no addition, is written as R86 says.
The events of all nodes are lane 0's, of which the log takes the lowest class: which class it takes when nodes raise different ones is the model's choice
(DESIGN CHOICE, R107, R136, log 87). -/
def Warp.redadd (w : Warp) (o : VOp) : Word × BitVec 8 :=
  let node : Word × BitVec 8 → Word × BitVec 8 → Word × BitVec 8 := fun x y =>
    let r := if o.ty = .f32 then Fp.f32Add o.rm false x.1 y.1 else intOut .i32 o.sat (intVal .i32 x.1 + intVal .i32 y.1)
    (r.1, x.2 ||| y.2 ||| r.2)
  let root := (treeRoot node (w.leaves o)).getD (0, 0)
  (canonicalF32 o.ty root.1, root.2)

/-- A 32-bit result in a scalar register: sign-extended for `.i32`, else zero-extended (R135). -/
def toScalar (ty : Ty) (x : Word) : DWord := if ty = .i32 then x.signExtend 64 else x.setWidth 64

/-- `vredadd` (R107, R136). -/
def effVredadd (o : VOp) (w : Warp) : Warp := let r := w.redadd o; w.landVS o .lcs (toScalar o.ty r.1, r.2)

/-- `vredmin` and `vredmax` over the active values (R96, R136). -/
def Warp.redmm (w : Warp) (o : VOp) (isMin : Bool) : Word :=
  let xs := (w.activeA o).map (·.2)
  match o.ty with
  | .f32 =>
    match xs with
    | [] => if isMin then 0x7F80_0000 else 0xFF80_0000
    | x :: xs =>
      let y := xs.foldl (fun m x => Fp.minMax Fp.f32 isMin m x.toNat) x.toNat
      BitVec.ofNat 32 (if (Fp.decode Fp.f32 y).isNan then Fp.f32.nan else y)
  | ty =>
    let lo := if ty = .i32 then 0x8000_0000 else 0
    let hi := if ty = .i32 then 0x7FFF_FFFF else 0xFFFF_FFFF
    let better : Word → Word → Bool := fun m x => if isMin then intVal ty x < intVal ty m else intVal ty m < intVal ty x
    xs.foldl (fun m x => if better m x then x else m) (if isMin then hi else lo)

/-- `vredmin` (R136). -/
def effVredmin (o : VOp) (w : Warp) : Warp := w.landVS o .lcs (toScalar o.ty (w.redmm o true), 0)
/-- `vredmax` (R136). -/
def effVredmax (o : VOp) (w : Warp) : Warp := w.landVS o .lcs (toScalar o.ty (w.redmm o false), 0)

/-- `vany` (R136). -/
def effVany (o : VOp) (w : Warp) : Warp := w.landVP o ((w.lanesOf o.guard).any fun l => w.srcPred o.a l)
/-- `vall` (R136). -/
def effVall (o : VOp) (w : Warp) : Warp := w.landVP o ((w.lanesOf o.guard).all fun l => w.srcPred o.a l)
/-- `vballot` (R136). -/
def effVballot (o : VOp) (w : Warp) : Warp :=
  let on := (w.lanesOf o.guard).filter fun l => l / 64 = o.sub.val && w.srcPred o.a l
  w.landVS o .lcs (BitVec.ofNat 64 (on.foldl (fun x l => x + 2 ^ (l % 64)) 0), 0)

/-- `vpand` (R137). -/
def effVpand (o : VOp) (w : Warp) : Warp := w.predP o fun a b => a && b
/-- `vpor` (R137). -/
def effVpor (o : VOp) (w : Warp) : Warp := w.predP o fun a b => a || b
/-- `vpxor` (R137). -/
def effVpxor (o : VOp) (w : Warp) : Warp := w.predP o fun a b => a != b
/-- `vpandn` (R137). -/
def effVpandn (o : VOp) (w : Warp) : Warp := w.predP o fun a b => a && !b
/-- `vpnot` (R137). -/
def effVpnot (o : VOp) (w : Warp) : Warp := w.predP o fun a _ => !a

end Sys2Proof.Machine
end

