-- ==== Sys2Proof/Machine/Slots.lean ====
section
/-! DEFINITION. What each slot instruction is made of: its issue checks, its waits, its hold, its further freeze and its effect. -/

namespace Sys2Proof.Machine

/-- The parts of a slot instruction for the warp in a slot of a core (R21, R145, R215, R216): the flag it increments, its issue
checks, its wait, its hold before its own bundle, the cycles it freezes beyond its tick, and its effect. -/
structure SlotFn where
  flag : Option Nat
  check : Nat → Nat → State → Option Fail
  wait : Nat → Nat → State → Option Wait
  hold : Option (Nat → Nat → State → Bool × State)
  freeze : Nat → Nat → State → Nat
  eff : Nat → Nat → State → State

/-- An effect on the warp alone. -/
def wFn (f : Warp → Warp) (c k : Nat) (s : State) : State := s.modWarp c k f
/-- A V-slot operation. -/
def vFn (f : Warp → Warp) : SlotFn := ⟨none, fun _ _ _ => none, fun _ _ _ => none, none, fun _ _ _ => 0, wFn f⟩
/-- An M-slot operation. -/
def mFn (o : MOp) (chk : Nat → Nat → State → Option Fail) (wt : Nat → Nat → State → Option Wait) (fr : Nat → Nat → State → Nat)
    (eff : Nat → Nat → State → State) : SlotFn := ⟨o.flag.map (·.val), chk, wt, none, fr, eff⟩
/-- An M-slot operation that names no flag. -/
def mFn0 (chk : Nat → Nat → State → Option Fail) (wt : Nat → Nat → State → Option Wait) (fr : Nat → Nat → State → Nat)
    (eff : Nat → Nat → State → State) : SlotFn := ⟨none, chk, wt, none, fr, eff⟩
/-- An X-slot operation. -/
def xFn (f : Fin 16) (chk : Nat → Nat → State → Option Fail) (wt : Nat → Nat → State → Option Wait)
    (eff : Nat → Nat → State → State) : SlotFn := ⟨some f.val, chk, wt, none, fun _ _ _ => 0, eff⟩
/-- A C-slot operation. -/
def cFn (chk : Nat → Nat → State → Option Fail) (eff : Nat → Nat → State → State) : SlotFn :=
  ⟨none, chk, fun _ _ _ => none, none, fun _ _ _ => 0, eff⟩
/-- A C-slot operation that may wait for acceptance. -/
def cwFn (chk : Nat → Nat → State → Option Fail) (wt : Nat → Nat → State → Option Wait) (eff : Nat → Nat → State → State) : SlotFn :=
  ⟨none, chk, wt, none, fun _ _ _ => 0, eff⟩
/-- A C-slot operation that holds before its own bundle. -/
def holdFn (chk : Nat → Nat → State → Option Fail) (h : Nat → Nat → State → Bool × State) (eff : Nat → Nat → State → State) : SlotFn :=
  ⟨none, chk, fun _ _ _ => none, some h, fun _ _ _ => 0, eff⟩

/-! ## Uncorrectable errors as checks of a bundle (R382, R384) -/

/-- UE_SCRATCH for reads of a warp's scratchpad. -/
def scratchFail (s : State) (w : Warp) (n : Nat) (xs : List (Nat × Nat)) : Option Fail :=
  xs.findSome? fun p => if s.spFaulty w.block p.2 n then some ⟨0x2C3, p.2, 0⟩ else none

/-- The checks of a scratchpad operation that reads. -/
def spReadCheck (o : MOp) (load : Bool) (c k : Nat) (s : State) : Option Fail :=
  match spCheck o load c k s, s.warp? c k with
  | some f, _ => some f
  | none, some w => scratchFail s w o.size.bytes (w.accs o load)
  | none, none => none
/-- The checks of `sld`. -/
def sldCheck (o : MOp) (c k : Nat) (s : State) : Option Fail :=
  match chkSld o c k s, s.warp? c k with
  | some f, _ => some f
  | none, some w => scratchFail s w o.size.bytes (sldAccs s o c w)
  | none, none => none
/-- The checks of `arrive`. -/
def arriveCheck (o : MOp) (c k : Nat) (s : State) : Option Fail :=
  match chkArrive o c k s, s.warp? c k with
  | some f, _ => some f
  | none, some w => if w.lanesOf o.guard = [] then none else scratchFail s w 16 [(0, w.baseOff o)]
  | none, none => none
/-- The checks of `await`. -/
def awaitCheck (o : CSOp) (c k : Nat) (s : State) : Option Fail :=
  match chkAwait o c k s with
  | some f => some f
  | none => guardedCheck o.guard c k s fun w => scratchFail s w 16 [(0, (w.s o.a.val).toNat)]
/-- The checks of `ldc`: a line whose fill failed raises its cause (R384, R408). -/
def ldcCheck (o : MOp) (c k : Nat) (s : State) : Option Fail :=
  match ldCheck .noMs o c k s, s.warp? c k with
  | some f, _ => some f
  | none, some w => (w.accs o true).findSome? fun p => match s.place c w .read p.2 with
      | some (q, _) => match (s.core c).l1.find? fun x => x.pa = q.pa.line with
        | some x => x.err.map fun e => ⟨e, p.2, 0⟩
        | none => none
      | none => none
  | none, none => none

/-! ## Freezes beyond the tick (R151) -/

/-- The passes of a scratchpad operation. -/
def spFreeze (o : MOp) (load : Bool) (c k : Nat) (s : State) : Nat :=
  match s.warp? c k with
  | some w => w.passFreeze s c (spTouch o load w)
  | none => 0
/-- The passes of `sld`. -/
def sldFreeze (o : MOp) (c k : Nat) (s : State) : Nat :=
  match s.warp? c k with
  | some w => w.passFreeze s c (spWords o.size.bytes (sldAccs s o c w))
  | none => 0
/-- The passes of `arrive`. -/
def arriveFreeze (o : MOp) (c k : Nat) (s : State) : Nat :=
  match s.warp? c k with
  | some w => w.passFreeze s c (spWords 16 [(0, w.baseOff o)])
  | none => 0

/-! ## The table -/

/-- The parts of every slot instruction; none for a step of the machine. -/
def slotFn (i : Instr) : Option SlotFn :=
  match i with
  | .vadd o => some (vFn (effVadd o))
  | .vsub o => some (vFn (effVsub o))
  | .vmul o => some (vFn (effVmul o))
  | .vmulh o => some (vFn (effVmulh o))
  | .vmad o => some (vFn (effVmad o))
  | .vmin o => some (vFn (effVmin o))
  | .vmax o => some (vFn (effVmax o))
  | .vand o => some (vFn (effVand o))
  | .vor o => some (vFn (effVor o))
  | .vxor o => some (vFn (effVxor o))
  | .vshl o => some (vFn (effVshl o))
  | .vshr o => some (vFn (effVshr o))
  | .vsar o => some (vFn (effVsar o))
  | .vrot o => some (vFn (effVrot o))
  | .vclz o => some (vFn (effVclz o))
  | .vpopc o => some (vFn (effVpopc o))
  | .vbrev o => some (vFn (effVbrev o))
  | .vbfe o => some (vFn (effVbfe o))
  | .vbfi o => some (vFn (effVbfi o))
  | .vsel o => some (vFn (effVsel o))
  | .vmov o => some (vFn (effVmov o))
  | .vmovi o => some (vFn (effVmovi o))
  | .vmoviHi o => some (vFn (effVmoviHi o))
  | .vcmp o => some (vFn (effVcmp o))
  | .vclml o => some (vFn (effVclml o))
  | .vclmh o => some (vFn (effVclmh o))
  | .vfadd o => some (vFn (effVfadd o))
  | .vfsub o => some (vFn (effVfsub o))
  | .vfmul o => some (vFn (effVfmul o))
  | .vfma o => some (vFn (effVfma o))
  | .vfmin o => some (vFn (effVfmin o))
  | .vfmax o => some (vFn (effVfmax o))
  | .vfcmp o => some (vFn (effVfcmp o))
  | .vfclass o => some (vFn (effVfclass o))
  | .vfrcp o => some (vFn (effVfrcp o))
  | .vfrsq o => some (vFn (effVfrsq o))
  | .vfex2 o => some (vFn (effVfex2 o))
  | .vflg2 o => some (vFn (effVflg2 o))
  | .vfsinpi o => some (vFn (effVfsinpi o))
  | .vfcospi o => some (vFn (effVfcospi o))
  | .vhadd o => some (vFn (effVhadd o))
  | .vhmul o => some (vFn (effVhmul o))
  | .vhfma o => some (vFn (effVhfma o))
  | .vhdot o => some (vFn (effVhdot o))
  | .vcvt o => some (vFn (effVcvt o))
  | .vpack o => some (vFn (effVpack o))
  | .vunpack o => some (vFn (effVunpack o))
  | .vscale o => some (vFn (effVscale o))
  | .vshfl o => some (vFn (effVshfl o))
  | .vbcast o => some (vFn (effVbcast o))
  | .vredadd o => some (vFn (effVredadd o))
  | .vredmin o => some (vFn (effVredmin o))
  | .vredmax o => some (vFn (effVredmax o))
  | .vany o => some (vFn (effVany o))
  | .vall o => some (vFn (effVall o))
  | .vballot o => some (vFn (effVballot o))
  | .vpand o => some (vFn (effVpand o))
  | .vpor o => some (vFn (effVpor o))
  | .vpxor o => some (vFn (effVpxor o))
  | .vpandn o => some (vFn (effVpandn o))
  | .vpnot o => some (vFn (effVpnot o))
  | .ldSp o => some (mFn0 (spReadCheck o true) (fun _ _ _ => none) (spFreeze o true) (effLdSp o))
  | .stSp o => some (mFn0 (spCheck o false) (fun _ _ _ => none) (spFreeze o false) (effStSp o))
  | .casSp o => some (mFn0 (spReadCheck o false) (fun _ _ _ => none) (spFreeze o false) (effCasSp o))
  | .atomSpAdd o => some (mFn0 (spReadCheck o false) (fun _ _ _ => none) (spFreeze o false) (effAtomSpAdd o))
  | .atomSpAnd o => some (mFn0 (spReadCheck o false) (fun _ _ _ => none) (spFreeze o false) (effAtomSpAnd o))
  | .atomSpOr o => some (mFn0 (spReadCheck o false) (fun _ _ _ => none) (spFreeze o false) (effAtomSpOr o))
  | .atomSpXor o => some (mFn0 (spReadCheck o false) (fun _ _ _ => none) (spFreeze o false) (effAtomSpXor o))
  | .atomSpXchg o => some (mFn0 (spReadCheck o false) (fun _ _ _ => none) (spFreeze o false) (effAtomSpXchg o))
  | .atomSpMinI o => some (mFn0 (spReadCheck o false) (fun _ _ _ => none) (spFreeze o false) (effAtomSpMinI o))
  | .atomSpMaxI o => some (mFn0 (spReadCheck o false) (fun _ _ _ => none) (spFreeze o false) (effAtomSpMaxI o))
  | .atomSpMinN o => some (mFn0 (spReadCheck o false) (fun _ _ _ => none) (spFreeze o false) (effAtomSpMinN o))
  | .atomSpMaxN o => some (mFn0 (spReadCheck o false) (fun _ _ _ => none) (spFreeze o false) (effAtomSpMaxN o))
  | .ldc o => some (mFn0 (ldcCheck o) (ldcWait o) (ldcFreeze o) (effLdc o))
  | .ldG o => some (mFn o (ldCheck .any o) (ldWait o) (fun _ _ _ => 0) (effLdG o))
  | .ldGAcq o => some (mFn o (ldCheck .any o) (ldWait o) (fun _ _ _ => 0) (effLdGAcq o))
  | .stG o => some (mFn o (writeCheck .write .any o) (storeWait .write o) (fun _ _ _ => 0) (effStG o))
  | .stGRel o => some (mFn o (writeCheck .write .any o) (relWait o) (fun _ _ _ => 0) (effStGRel o))
  | .casG o => some (mFn o (writeCheck .rmw .noHost o) (storeWait .rmw o) (fun _ _ _ => 0) (effCasG o))
  | .atomGAdd o => some (mFn o (writeCheck .rmw .noHost o) (storeWait .rmw o) (fun _ _ _ => 0) (effAtomGAdd o))
  | .atomGAnd o => some (mFn o (writeCheck .rmw .noHost o) (storeWait .rmw o) (fun _ _ _ => 0) (effAtomGAnd o))
  | .atomGOr o => some (mFn o (writeCheck .rmw .noHost o) (storeWait .rmw o) (fun _ _ _ => 0) (effAtomGOr o))
  | .atomGXor o => some (mFn o (writeCheck .rmw .noHost o) (storeWait .rmw o) (fun _ _ _ => 0) (effAtomGXor o))
  | .atomGXchg o => some (mFn o (writeCheck .rmw .noHost o) (storeWait .rmw o) (fun _ _ _ => 0) (effAtomGXchg o))
  | .atomGMinI o => some (mFn o (writeCheck .rmw .noHost o) (storeWait .rmw o) (fun _ _ _ => 0) (effAtomGMinI o))
  | .atomGMaxI o => some (mFn o (writeCheck .rmw .noHost o) (storeWait .rmw o) (fun _ _ _ => 0) (effAtomGMaxI o))
  | .atomGMinN o => some (mFn o (writeCheck .rmw .noHost o) (storeWait .rmw o) (fun _ _ _ => 0) (effAtomGMinN o))
  | .atomGMaxN o => some (mFn o (writeCheck .rmw .noHost o) (storeWait .rmw o) (fun _ _ _ => 0) (effAtomGMaxN o))
  | .atomGFadd o => some (mFn o (writeCheck .rmw .noHost o) (storeWait .rmw o) (fun _ _ _ => 0) (effAtomGFadd o))
  | .redGAdd o => some (mFn o (writeCheck .write .noHost o) (storeWait .write o) (fun _ _ _ => 0) (effRedGAdd o))
  | .redGAnd o => some (mFn o (writeCheck .write .noHost o) (storeWait .write o) (fun _ _ _ => 0) (effRedGAnd o))
  | .redGOr o => some (mFn o (writeCheck .write .noHost o) (storeWait .write o) (fun _ _ _ => 0) (effRedGOr o))
  | .redGXor o => some (mFn o (writeCheck .write .noHost o) (storeWait .write o) (fun _ _ _ => 0) (effRedGXor o))
  | .redGMinI o => some (mFn o (writeCheck .write .noHost o) (storeWait .write o) (fun _ _ _ => 0) (effRedGMinI o))
  | .redGMaxI o => some (mFn o (writeCheck .write .noHost o) (storeWait .write o) (fun _ _ _ => 0) (effRedGMaxI o))
  | .redGMinN o => some (mFn o (writeCheck .write .noHost o) (storeWait .write o) (fun _ _ _ => 0) (effRedGMinN o))
  | .redGMaxN o => some (mFn o (writeCheck .write .noHost o) (storeWait .write o) (fun _ _ _ => 0) (effRedGMaxN o))
  | .redGFadd o => some (mFn o (writeCheck .write .noHost o) (storeWait .write o) (fun _ _ _ => 0) (effRedGFadd o))
  | .sld o => some (mFn0 (sldCheck o) (fun _ _ _ => none) (sldFreeze o) (effSld o))
  | .sdset o => some (mFn0 (chkSdset o) (fun _ _ _ => none) (fun _ _ _ => 0) (effSdset o))
  | .sdget o => some (mFn0 (grantCheck) (fun _ _ _ => none) (fun _ _ _ => 0) (effSdget o))
  | .vspill o => some (mFn o (spanCheck .write o) (spillWait o) (fun _ _ _ => 0) (effVspill o))
  | .vfill o => some (mFn o (spanCheck .read o) (fillWait o) (fun _ _ _ => 0) (effVfill o))
  | .fenceAcq o => some (mFn o (fun _ _ _ => none) (fenceWait false o) (fun _ _ _ => 0) (effFenceAcq o))
  | .fenceRel o => some (mFn o (fun _ _ _ => none) (fenceWait true o) (fun _ _ _ => 0) (effFenceRel o))
  | .fence o => some (mFn o (fun _ _ _ => none) (fenceWait true o) (fun _ _ _ => 0) (effFence o))
  | .l1inv o => some (mFn0 (fun _ _ _ => none) (fun _ _ _ => none) (fun _ _ _ => 0) (effL1inv o))
  | .arrive o => some (mFn0 (arriveCheck o) (fun _ _ _ => none) (arriveFreeze o) (effArrive o))
  | .pfd o => some (mFn0 (fun _ _ _ => none) (pfdWait o) (fun _ _ _ => 0) (effPfd o))
  | .cpa o => some (xFn o.flag (chkCpa o) (waitCpa o) (effCpa o))
  | .cpb o => some (xFn o.flag (chkCpb o) (waitCpb o) (effCpb o))
  | .cp2d o => some (xFn o.flag (chkCp2d o) (waitCp2d o) (effCp2d o))
  | .cpm o => some (xFn o.flag (chkCpm o) (waitCpm o) (effCpm o))
  | .tld o => some (xFn o.flag (chkTld o) (waitTld o) (effTld o))
  | .tst o => some (xFn o.flag (chkTst o) (waitTst o) (effTst o))
  | .tstac o => some (xFn o.flag (chkTstac o) (waitTstac o) (effTstac o))
  | .tdrain o => some (xFn o.flag (chkTdrain o) (waitTdrain o) (effTdrain o))
  | .tzero o => some (xFn o.flag (xtGrant) (xtWait o) (effTzero o))
  | .tsave o => some (xFn o.flag (chkTsave o) (waitTsave o) (effTsave o))
  | .tload o => some (xFn o.flag (chkTload o) (waitTload o) (effTload o))
  | .sadv o => some (xFn o.flag (chkSadv o) (xtWait o) (effSadv o))
  | .sreset o => some (xFn o.flag (xtGrant) (xtWait o) (effSreset o))
  | .tmmaBf16 o => some (xFn o.flag (chkTmma (.tmmaBf16 o) o) (xtWait o) (effTmmaBf16 o))
  | .tmmaF16 o => some (xFn o.flag (chkTmma (.tmmaF16 o) o) (xtWait o) (effTmmaF16 o))
  | .tmmaE4m3 o => some (xFn o.flag (chkTmma (.tmmaE4m3 o) o) (xtWait o) (effTmmaE4m3 o))
  | .tmmaE5m2 o => some (xFn o.flag (chkTmma (.tmmaE5m2 o) o) (xtWait o) (effTmmaE5m2 o))
  | .tmmaE4m3e5m2 o => some (xFn o.flag (chkTmma (.tmmaE4m3e5m2 o) o) (xtWait o) (effTmmaE4m3e5m2 o))
  | .tmmaE5m2e4m3 o => some (xFn o.flag (chkTmma (.tmmaE5m2e4m3 o) o) (xtWait o) (effTmmaE5m2e4m3 o))
  | .tmmaI8 o => some (xFn o.flag (chkTmma (.tmmaI8 o) o) (xtWait o) (effTmmaI8 o))
  | .tmmaN8 o => some (xFn o.flag (chkTmma (.tmmaN8 o) o) (xtWait o) (effTmmaN8 o))
  | .tmmaI8n8 o => some (xFn o.flag (chkTmma (.tmmaI8n8 o) o) (xtWait o) (effTmmaI8n8 o))
  | .tmmaLg6 o => some (xFn o.flag (chkTmma (.tmmaLg6 o) o) (xtWait o) (effTmmaLg6 o))
  | .tmmasE4m3 o => some (xFn o.flag (chkTmma (.tmmasE4m3 o) o) (xtWait o) (effTmmasE4m3 o))
  | .tmmasE5m2 o => some (xFn o.flag (chkTmma (.tmmasE5m2 o) o) (xtWait o) (effTmmasE5m2 o))
  | .tmmasE4m3e5m2 o => some (xFn o.flag (chkTmma (.tmmasE4m3e5m2 o) o) (xtWait o) (effTmmasE4m3e5m2 o))
  | .tmmasE5m2e4m3 o => some (xFn o.flag (chkTmma (.tmmasE5m2e4m3 o) o) (xtWait o) (effTmmasE5m2e4m3 o))
  | .tmmasI8 o => some (xFn o.flag (chkTmma (.tmmasI8 o) o) (xtWait o) (effTmmasI8 o))
  | .tmmasLg6 o => some (xFn o.flag (chkTmma (.tmmasLg6 o) o) (xtWait o) (effTmmasLg6 o))
  | .gredAdd o => some (xFn o.flag (chkGred o) (waitGred o) (effGredAdd o))
  | .gredMin o => some (xFn o.flag (chkGred o) (waitGred o) (effGredMin o))
  | .gredMax o => some (xFn o.flag (chkGred o) (waitGred o) (effGredMax o))
  | .xtile o => some (xFn o.flag (chkXtile o) (waitXtile o) (effXtile o))
  | .addS o => some (cFn (fun _ _ _ => none) (wFn (effAddS o)))
  | .subS o => some (cFn (fun _ _ _ => none) (wFn (effSubS o)))
  | .mulS o => some (cFn (fun _ _ _ => none) (wFn (effMulS o)))
  | .mulhS o => some (cFn (fun _ _ _ => none) (wFn (effMulhS o)))
  | .andS o => some (cFn (fun _ _ _ => none) (wFn (effAndS o)))
  | .orS o => some (cFn (fun _ _ _ => none) (wFn (effOrS o)))
  | .xorS o => some (cFn (fun _ _ _ => none) (wFn (effXorS o)))
  | .shl o => some (cFn (fun _ _ _ => none) (wFn (effShl o)))
  | .shr o => some (cFn (fun _ _ _ => none) (wFn (effShr o)))
  | .sar o => some (cFn (fun _ _ _ => none) (wFn (effSar o)))
  | .minS o => some (cFn (fun _ _ _ => none) (wFn (effMinS o)))
  | .maxS o => some (cFn (fun _ _ _ => none) (wFn (effMaxS o)))
  | .mov o => some (cFn (fun _ _ _ => none) (wFn (effMov o)))
  | .movi o => some (cFn (fun _ _ _ => none) (wFn (effMovi o)))
  | .movhi o => some (cFn (fun _ _ _ => none) (wFn (effMovhi o)))
  | .cmp o => some (cFn (fun _ _ _ => none) (wFn (effCmp o)))
  | .sel o => some (cFn (fun _ _ _ => none) (wFn (effSel o)))
  | .clz o => some (cFn (fun _ _ _ => none) (wFn (effClz o)))
  | .popc o => some (cFn (fun _ _ _ => none) (wFn (effPopc o)))
  | .lea o => some (cFn (fun _ _ _ => none) (wFn (effLea o)))
  | .br o => some (cFn (chkBr o) (wFn (effBr o)))
  | .brAny o => some (cFn (chkBrAny o) (wFn (effBrAny o)))
  | .brAll o => some (cFn (chkBrAll o) (wFn (effBrAll o)))
  | .brU o => some (cFn (chkBrU o) (wFn (effBrU o)))
  | .jmp o => some (cFn (chkJmp o) (wFn (effJmp o)))
  | .jmpr o => some (cFn (chkJmpr o) (wFn (effJmpr o)))
  | .call o => some (cFn (chkCall o) (wFn (effCall o)))
  | .ret o => some (cFn (chkRet o) (wFn (effRet o)))
  | .loop o => some (cFn (chkLoop o) (wFn (effLoop o)))
  | .lpop o => some (cFn (chkLpop o) (effLpop o))
  | .wait o => some (holdFn (fun _ _ _ => none) (holdWait o) (wFn (effWait o)))
  | .ftest o => some (cFn (fun _ _ _ => none) (wFn (effFtest o)))
  | .bar o => some (cFn (chkBar o) (effBar o))
  | .cbar o => some (cFn (chkCbar o) (effCbar o))
  | .await o => some (holdFn (awaitCheck o) (holdAwait o) (wFn (effAwait o)))
  | .ainit o => some (cFn (chkAinit o) (effAinit o))
  | .mwait o => some (holdFn (chkMwait o) (holdMwait o) (effMwait o))
  | .lexit o => some (cFn (fun _ _ _ => none) (wFn (effLexit o)))
  | .mget o => some (cFn (fun _ _ _ => none) (wFn (effMget o)))
  | .mset o => some (cFn (fun _ _ _ => none) (wFn (effMset o)))
  | .tsub o => some (cwFn (chkTsub o) (waitTsub o) (effTsub o))
  | .targ o => some (cFn (fun _ _ _ => none) (effTarg o))
  | .trap o => some (cFn (fun _ _ _ => none) (effTrap o))
  | .sysc o => some (cFn (fun _ _ _ => none) (effSysc o))
  | .hret o => some (cwFn (fun _ _ _ => none) (waitHret o) (effHret o))
  | .brk o => some (cFn (fun _ _ _ => none) (effBrk o))
  | .exit o => some (cFn (fun _ _ _ => none) (effExit o))
  | .yield o => some (cFn (fun _ _ _ => none) (wFn (effYield o)))
  | .nop o => some (cFn (fun _ _ _ => none) (wFn (effNop o)))
  | .ipf o => some (cFn (fun _ _ _ => none) (effIpf o))
  | .icinvC o => some (cFn (fun _ _ _ => none) (effIcinvC o))
  | .icinvD o => some (cFn (fun _ _ _ => none) (effIcinvD o))
  | .gsr o => some (cFn (fun _ _ _ => none) (effGsr o))
  | .ssr o => some (cFn (fun _ _ _ => none) (wFn (effSsr o)))
  | _ => none

end Sys2Proof.Machine
end

