-- ==== Sys2Proof/Machine/Issue.lean ====
section
/-! DEFINITION. The issue of a bundle: decode checks, drain points, stretches, holds, issue checks, waits, the effects of the slots
and the successor (R16 to R23, R34 to R41, R215, R216, R328 to R330, R342). -/

namespace Sys2Proof.Machine

/-! ## The bundle due -/

/-- The slots of a bundle that issue. -/
structure SlotOps where
  v : Option Instr
  m : Option Instr
  x : Option Instr
  c : Option Instr
  deriving DecidableEq, Repr

/-- The 256 bits of the bundle at the pc, when its line is in the fetch buffer (R366). -/
def Warp.fetched (w : Warp) : Option Nat :=
  (FMap.find w.fetch (w.pc.toNat / 128 * 128)).map fun d => d / 2 ^ (8 * (w.pc.toNat % 128)) % 2 ^ 256

/-- The failure of one instruction against the warp's budget and privilege (R13, R40): its cause in slot `n`. -/
def opFail (w : Warp) (i : Instr) (n : Nat) : Option Nat :=
  if w.budget < topReg i then some (0x04D + n) else if !w.allowed i then some (0x051 + n) else none

/-- Whether a slot is to issue: in REPLAY after a return, else every slot (R338, R339). -/
def Warp.replays (w : Warp) (n : Nat) : Bool := (w.replay.getD 15).testBit n

/-- The decode failure of one slot (R40, R41). -/
def slotFail (w : Warp) (n : Nat) (d : SlotD) : Option (Nat × Nat) :=
  match d with
  | .absent => none
  | .bad .opcode => some (0x041 + n, n)
  | .bad .reserved => some (0x049 + n, n)
  | .bad .operand => some (0x045 + n, n)
  | .ok i => (opFail w i n).map fun e => (e, n)

/-- The decode checks of a bundle in their order: cause and slot (R40). After a return they are made of the slots that issue; a bundle with
REPLAY 0 is an empty tick and none is made (R338). -/
def decodeFail (w : Warp) (b : Bundle) : Option (Nat × Nat) :=
  let chk := fun (n : Nat) (d : SlotD) => if w.replays n then slotFail w n d else none
  if w.replay = some 0 then none
  else if b.illegal then some (0x040, 0)
  else [chk 0 b.v, chk 1 b.m, chk 2 b.x, chk 3 b.c].findSome? id

/-- The present slots as REPLAY bits (R335). -/
def presentOf (b : Bundle) : Nat :=
  let p := fun (d : SlotD) (n : Nat) => if d = .absent then 0 else n
  p b.v 1 + p b.m 2 + p b.x 4 + p b.c 8

/-- Whether F or L makes the slots no-ops on this iteration (R37). -/
def Warp.suppressed (w : Warp) (h : Header) : Bool :=
  match w.loops with
  | [] => false
  | l :: _ => (h.f && !l.first) || (h.l && l.count != 1)

/-- The slot that issues: present, not suppressed, and in REPLAY after a return (R37, R338). -/
def opOf (on : Bool) (d : SlotD) : Option Instr :=
  match d with
  | .ok i => if on then some i else none
  | _ => none

/-- The slots of a bundle that issue now. -/
def Warp.opsOf (w : Warp) (b : Bundle) : SlotOps :=
  let on := fun (n : Nat) => !w.suppressed b.hdr && w.replays n
  ⟨opOf (on 0) b.v, opOf (on 1) b.m, opOf (on 2) b.x, opOf (on 3) b.c⟩

/-- The stretch of the V slot (R20). -/
def stretchTicks (v : Option Instr) : Nat :=
  match v with
  | none => 0
  | some i => match slotOp i with
    | .v key o => stretchOf (vSources key o)
    | _ => 0

/-! ## Parts of the slots -/

/-- The issue check of a slot. -/
def chkOf (i : Option Instr) (c k : Nat) (s : State) : Option Fail := (i.bind slotFn).bind fun f => f.check c k s
/-- The wait of a slot. -/
def waitOf (i : Option Instr) (c k : Nat) (s : State) : Option Wait := (i.bind slotFn).bind fun f => f.wait c k s
/-- The effect of a slot. -/
def effOf (i : Option Instr) (c k : Nat) (s : State) : State :=
  match i.bind slotFn with
  | some f => f.eff c k s
  | none => s
/-- The further freeze of a slot. -/
def freezeOf (i : Option Instr) (c k : Nat) (s : State) : Nat :=
  match i.bind slotFn with
  | some f => f.freeze c k s
  | none => 0
/-- The flags that slots increment (R21, R22). -/
def flagsOf (is : List (Option Instr)) : List Nat := is.filterMap fun i => (i.bind slotFn).bind (·.flag)
/-- The hold of a slot before its own bundle. -/
def holdOf (i : Option Instr) : Option (Nat → Nat → State → Bool × State) := (i.bind slotFn).bind (·.hold)

/-- Whether every flag has room for the increments of a bundle (R21). -/
def flagRoom (w : Warp) (fs : List Nat) : Bool := fs.all fun f => w.room f (fs.filter (· = f)).length

/-- Whether the C slot does not take effect beside a fault of the M or X slot (R330). -/
def lateC : Instr → Bool
  | .trap _ => true
  | .brk _ => true
  | .sysc _ => true
  | .hret _ => true
  | .exit _ => true
  | _ => false

/-! ## Waiting -/

/-- Stand still for a reason, the bundle not issued. -/
def Warp.stand (w : Warp) (now : Nat) (st : Stop) : Warp :=
  { w.pause st with since := if w.stop = st then w.since else now, opened := false, ctl := .none }

/-- The warp waits (R21, R145), and what it lacks is asked for (R154, R352). -/
def State.stall (s : State) (c k : Nat) (wt : Wait) : State :=
  match wt with
  | .l1 want =>
    (s.modCore c fun x => { x with l1want := x.l1want ++ want.filter fun l => !x.l1want.contains l }).modWarp c k fun w =>
      w.stand s.cycle .l1
  | .accept => s.modWarp c k fun w => w.stand s.cycle .accept
  | .tlb freeze vs => s.onWarp c k fun w =>
    let (asid, view) := s.ctxOf w.block c
    (vs.foldl (fun s va => s.askWalk c asid view va) s).setWarp c k (w.stand s.cycle (if freeze then .l1 else .accept))

/-! ## The effects of the slots -/

/-- Take the lowest failing check with its slot. -/
def lowestFail (m x c : Option Fail) : Option (Fail × Nat) :=
  match m, x, c with
  | some f, _, _ => some (f, 1)
  | none, some f, _ => some (f, 2)
  | none, none, some f => some (f, 3)
  | none, none, none => none

/-- A trap of the bundle at the pc before any of its slots takes effect (R215, R329). -/
def State.failWhole (s : State) (c k : Nat) (present : Nat) (f : Fail) (slot : Nat) : State :=
  s.onWarp c k fun w => s.takeTrap c k (trapBefore w f.cause slot (BitVec.ofNat 64 f.faddr) f.info present)

/-- A trap of the M or X slot after the other slots took effect (R330): REPLAY names the slots that did not, and BRT keeps a branch. -/
def State.failSlots (s : State) (c k : Nat) (replay : Nat) (f : Fail) (slot : Nat) : State :=
  s.onWarp c k fun w =>
    let brt := match w.ctl with
      | .branch t _ => some t
      | _ => none
    (s.setWarp c k { w with holdNext := w.hold.isSome && !w.priv || w.holdNext }).takeTrap c k
                   { cause := f.cause, slot := slot, faddr := BitVec.ofNat 64 f.faddr, info := f.info, tn := w.tick, rpc := w.pc, tib := 0,
                     replay := replay, brt := brt, defer := false, epc := w.pc }

/-- The slots that take effect, in order V, M, X, C; after a hold that has ended the timeline runs again, and the warp freezes for the
cycles its M slot needs beyond the tick (R151, R216), which begin when its cycles are over (R25). -/
def State.effects (s : State) (c k : Nat) (v m x cc : Option Instr) (held : Bool) : State :=
  let fr := freezeOf m c k s
  let s := effOf cc c k (effOf x c k (effOf m c k (effOf v c k s)))
  let s := if held then s.modWarp c k fun w => match w.stop with
      | .mdone _ => { w with stop := .run }
      | _ => w
    else s
  if fr = 0 then s
  else s.modWarp c k fun w => if w.opened && w.stop = .run then { w.pause (.until (s.cycle + w.tickCycles + fr)) with since := s.cycle + w.tickCycles }
    else w

/-- The issue checks, waits and effects of the slots once no hold stands before them (R21, R145, R215, R330). -/
def State.runChecked (s : State) (c k present : Nat) (o : SlotOps) (held : Bool) : State :=
  let fm := chkOf o.m c k s
  let fx := chkOf o.x c k s
  let fc := if held then none else chkOf o.c c k s
  let fault := fm.isSome || fx.isSome
  match fault, fc with
  | false, some f => s.failWhole c k present f 3
  | _, _ =>
    let m := if fm.isSome then none else o.m
    let x := if fx.isSome then none else o.x
    let cc := if fc.isSome || (fault && o.c.any lateC) then none else o.c
    match [waitOf m c k s, waitOf x c k s, waitOf cc c k s].findSome? id with
    | some wt => s.stall c k wt
    | none =>
      s.onWarp c k fun w =>
        if !flagRoom w (flagsOf [m, x]) then s.setWarp c k (w.stand s.cycle .flag)
        else
          let t := s.effects c k o.v m x cc held
          match lowestFail fm fx none with
          | none => t
          | some (f, n) =>
            t.failSlots c k ((if fm.isSome then 2 else 0) + (if fx.isSome then 4 else 0) + (if o.c.isSome && cc.isNone then 8 else 0)) f n

/-- Whether the C slot holds its own bundle: an `await` or `mwait` whose guard is false has no effect (R212, R216). -/
def Warp.holds (w : Warp) (i : Option Instr) : Bool :=
  match i with
  | some (.await o) => w.guardS o.guard
  | some (.mwait o) => w.guardS o.guard
  | _ => true

/-- The slots of an opened bundle: a hold before the bundle first, with every issue check made when it is first due (R215, R216). -/
def State.runSlots (s : State) (c k present : Nat) (o : SlotOps) : State :=
  s.onWarp c k fun w =>
    let done := match w.stop with
      | .mdone _ => true
      | _ => false
    match if w.holds o.c then holdOf o.c else none with
    | none => s.runChecked c k present o false
    | some h =>
      if done then s.runChecked c k present o true
      else match lowestFail (chkOf o.m c k s) (chkOf o.x c k s) (chkOf o.c c k s) with
        | some (f, n) => s.failWhole c k present f n
        | none =>
          let (held, s') := h c k s
          if held then s'.modWarp c k fun w => { w with opened := false, ctl := .none } else s'.runChecked c k present o true

/-! ## One slot alone -/

/-- A bundle with one slot. -/
def onlySlot (i : Instr) : SlotOps :=
  match slotNum i with
  | some 0 => ⟨some i, none, none, none⟩
  | some 1 => ⟨none, some i, none, none⟩
  | some 2 => ⟨none, none, some i, none⟩
  | _ => ⟨none, none, none, some i⟩

/-- The meaning of a slot instruction: its parts run, for the warp that is issuing, as the only slot of an opened bundle. The decode
checks that depend on the warp come first (R13, R40). -/
def runSlot (i : Instr) (n : Nat) (s : State) : Out :=
  match s.cur with
  | none => .fault .noIssuingWarp
  | some (c, k) =>
    match s.warp? c k with
    | none => .fault .noIssuingWarp
    | some w =>
      match opFail w i n with
      | some e => .next (s.failWhole c k (2 ^ n) ⟨e, 0, 0⟩ n)
      | none => .next (s.runSlots c k (2 ^ n) (onlySlot i))

/-! ## Fetch buffers -/

/-- A line of the instruction cache (R365). -/
def CoreSt.icFind (x : CoreSt) (asid va : Nat) : Option Nat := (x.icache.find? fun l => l.asid = asid && l.va = va).map (·.data)
/-- The set of a line (R365). -/
def icSet (va : Nat) : Nat := bits va 14 7
/-- Make a line the most recently used of its set, and keep 8 ways (R365). -/
def CoreSt.icPut (x : CoreSt) (asid va d : Nat) : CoreSt :=
  let rest := x.icache.filter fun l => !(l.asid = asid && l.va = va)
  let mine := (rest.filter fun l => icSet l.va = icSet va).take 7
  { x with icache := ⟨asid, va, d⟩ :: (mine ++ rest.filter fun l => icSet l.va ≠ icSet va) }
/-- Put a line into the fetch-buffer slot that does not hold the line of the last issued bundle (R366). -/
def Warp.fetchPut (w : Warp) (line d : Nat) : Warp :=
  let keep := match w.lastLine with
    | some l => w.fetch.filter fun p => p.1 = l
    | none => w.fetch.take 1
  { w with fetch := FMap.set keep line d }

/-- The next-line fill of the first bundle taken from a line (R354, R366): from the instruction cache at once, else asked for, to be put into the
other slot when it comes; a line that the warp may not fetch is dropped. -/
def State.nextLine (s : State) (c k : Nat) : State :=
  s.onWarp c k fun w =>
    let line := w.pc.toNat / 128 * 128
    if w.lastLine = some line then s
    else
      let w := { w with lastLine := some line }
      let nxt := (line + 128) % 2 ^ 64
      let (asid, view) := s.ctxOf w.block c
      let ok := match s.xlate c asid view nxt .fetch w.priv with
        | .ok _ => true
        | .error _ => false
      if (FMap.find w.fetch nxt).isSome || !ok then s.setWarp c k w
      else match (s.core c).icFind asid nxt with
        | some d => (s.modCore c fun x => x.icPut asid nxt d).setWarp c k (w.fetchPut nxt d)
        | none =>
          (s.modCore c fun x => { x with iwant := if x.iwant.contains (asid, nxt) then x.iwant else x.iwant ++ [(asid, nxt)] }).setWarp c k
            { w with nextWant := some nxt }

/-! ## Opening and closing a bundle -/

/-- Whether a branch kept in BRT unwinds the loop stack: that of a call or return does not (R222, R224). -/
def brtUnwinds : SlotD → Bool
  | .ok (.call _) => false
  | .ok (.ret _) => false
  | _ => true

/-- The tick opens: the bundle issues in it (R16). -/
def State.openBundle (s : State) (c k : Nat) (b : Bundle) : State :=
  let s := s.nextLine c k
  let s := s.modCore c fun x => { x with issued := match FMap.find x.warps k with
    | some w => some (s.cycle, w.pipe)
    | none => x.issued }
  { s with cur := some (c, k) }.modWarp c k fun w =>
    { w.unsee s.cycle with
      opened := true, gap := b.hdr.gap, tickStart := s.cycle, issuedAt := s.cycle, yielded := b.hdr.y
      ctl := match w.brt with
        | some t => .branch t (brtUnwinds b.c)
        | none => .none
      retire := if w.priv then w.retire else w.retire ||| w.keptRetire
      keptRetire := if w.priv then w.keptRetire else 0 }

/-- The bundle closes: the successor is chosen, and a single-stepped bundle is followed by STEP (R224, R342). -/
def State.closeBundle (s : State) (c k : Nat) (stepped : Bool) : State :=
  s.onWarp c k fun w =>
    if !w.opened then s
    else
      let s := s.advance c k
      if stepped then (s.modWarp c k fun w => { w with step := false }).trapClosed c k 0x2A0 0 else s

/-! ## The issue -/

/-- The tick after the last result in flight (R23). -/
def Warp.drained (w : Warp) : Nat := w.flight.foldl (fun t x => max t (x.land + 1)) w.tick

/-- Whether the bundle due is a replay of one that has issued: it issues at Tn + TIB, its drain behind it (R329, R339). -/
def Warp.reissues (w : Warp) (present : Nat) : Bool :=
  match w.replay with
  | some r => r != present
  | none => false

/-- Issue the bundle that is due and fetched (R23, R40, R20, R328). -/
def State.issueFetched (s : State) (c k : Nat) (w : Warp) (b : Bundle) : State :=
  let present := presentOf b
  if b.hdr.d && w.flight != [] && !w.reissues present then s.setWarp c k { w with due := w.drained }
  else if b.hdr.d && w.halt && !w.priv then
    s.setWarp c k { w with halt := false } |>.failWhole c k present ⟨0x2A1, 0, 0⟩ 0
  else if b.hdr.d && w.preempt then s.setWarp c k (w.stand s.cycle .stopped)
  else match decodeFail w b with
    | some (e, n) => s.failWhole c k present ⟨e, 0, 0⟩ n
    | none =>
      let o := w.opsOf b
      let st := stretchTicks o.v
      if w.unready then s.setWarp c k (w.stand s.cycle .l1)
      else if st ≠ 0 && !w.stretched then s.setWarp c k { w with due := w.due + st, stretched := true }
      else ((s.openBundle c k b).runSlots c k present o).closeBundle c k w.step

/-- The earliest-issued deferred cause (R328). -/
def firstDeferred : List Deferred → Option Deferred
  | [] => none
  | d :: ds => match firstDeferred ds with
    | some e => if e.seq < d.seq then some e else some d
    | none => some d

/-- Take a deferred cause at the present tick, of those that it sees (R328, R329). -/
def State.takeDeferred (s : State) (c k now : Nat) : State :=
  s.onWarp c k fun w =>
    match firstDeferred (w.deferredNow now) with
    | none => s
    | some d =>
      let s := s.setWarp c k { w with deferred := w.deferred.erase d }
      s.takeTrap c k { cause := d.cause, slot := d.slot, faddr := 0, info := 0, tn := w.tick, rpc := w.pc, tib := w.due - w.tick,
                       replay := w.replay.getD (s.presentAt c w w.pc), brt := w.brt, defer := true, epc := d.addr }

/-- Issue the bundle due, or take what comes before it (R328): a deferred cause, the end of a hold, the fetch. -/
def State.issue (s : State) (c k : Nat) : State :=
  s.onWarp c k fun w =>
    if w.deferredNow s.cycle != [] then s.takeDeferred c k s.cycle
    else match w.holdHere with
      | some .barTrap => s.setWarp c k { w with hold := none } |>.failWhole c k (s.presentAt c w w.pc) ⟨0x1C0, 0, 0⟩ 3
      | _ =>
        match w.fetched with
        | none => s.setWarp c k (w.stand s.cycle .fetch)
        | some x => s.issueFetched c k w (decodeBundle x)

end Sys2Proof.Machine
end

