-- ==== Sys2Proof/Machine/Warps.lean ====
section
/-! DEFINITION. The steps of a warp that are no slot instruction: issue, landing, freezes, holds and their ends, swaps, freeing,
the services of `sysc`, trap entry, fetch fills and bank snapshots (R11, R16 to R30, R216, R229 to R242, R331, R343, R362 to R366). -/

namespace Sys2Proof.Machine

/-- A step of the machine that has its effect when it may happen, and leaves the state alone when it may not (log 3). -/
def event (can : Bool) (s t : State) : Out := .next (if can then t else s)

/-- Apply a test to a resident warp. -/
def State.testWarp (s : State) (c k : Nat) (p : Warp → Bool) : Bool :=
  match s.warp? c k with
  | some w => p w
  | none => false

/-- Whether the timeline of a warp runs: active, with nothing that stands in its way. -/
def Warp.running (w : Warp) : Bool :=
  w.position.isSome && w.trap.isNone && match w.stop with
    | .run => true
    | .mdone _ => true
    | _ => false

/-! ## Issue and landing -/

/-- The other warp of a warp's vector pipe: active positions 2p and 2p + 1 belong to pipe p (R24). -/
def State.pipePartner (s : State) (c k : Nat) (w : Warp) : Option Warp :=
  match w.position with
  | none => none
  | some q => ((s.core c).warps.find? fun p => p.1 ≠ k && p.2.position = some (q ^^^ 1)).map (·.2)

/-- Whether a warp can take or is taking a tick of its pipe (R24). -/
def Warp.ticking (w : Warp) (now : Nat) : Bool :=
  w.running && decide (w.notBefore ≤ now) && (w.opened || decide (w.tick < w.due) || !w.heldNow)

/-- Whether the next tick of a pipe is a warp's: its partner can take none, or is between ticks and took the last one (R24; log 10). -/
def State.pipeTurn (s : State) (c k : Nat) (w : Warp) : Bool :=
  match s.pipePartner c k w with
  | none => true
  | some p => !p.ticking s.cycle || (!p.opened && (decide (w.tickStart < p.tickStart) ||
      (w.tickStart = p.tickStart && decide (w.position.getD 0 < p.position.getD 0))))

/-- The cycle in which an empty tick of a warp begins: its last one and the last one of its partner are over (R17, R24). -/
def State.pipeStart (s : State) (c k : Nat) (w : Warp) : Nat :=
  match s.pipePartner c k w with
  | none => w.tickStart
  | some p => max w.tickStart p.tickStart

/-- The slots of the bundle due, when its line is fetched. -/
def Warp.dueOps (w : Warp) : Option SlotOps := w.fetched.map fun x => w.opsOf (decodeBundle x)
/-- The C slot of the bundle due. -/
def Warp.dueC (w : Warp) : Option Instr := w.dueOps.bind (·.c)

/-- Whether a bundle may still issue in the present cycle: pipes issue in ascending order within one (R150), and so do takes of `targ`, by GRANK
and then pipe (R240). -/
def State.inOrder (s : State) (c : Nat) (w : Warp) : Bool :=
  (match (s.core c).issued with
   | some (n, p) => n != s.cycle || decide (p < w.pipe)
   | none => true) &&
  match w.dueC, s.block? w.block with
  | some (.targ _), some b => match (FMap.find s.tasks b.task).bind (·.lastTake) with
    | some (n, g, p) => n != s.cycle || decide (g < b.grank) || (g = b.grank && decide (p < w.pipe))
    | none => true
  | _, _ => true

/-- Whether the bundle of a warp may issue: its timeline runs, its tick has come, the pipe is its own and nothing holds it. -/
def canBundleIssue (c k : Nat) (s : State) : Bool :=
  s.testWarp c k fun w => w.running && !w.opened && w.tick = w.due && decide (w.notBefore ≤ s.cycle) && !w.heldNow && s.pipeTurn c k w &&
    s.inOrder c w

/-- BUNDLE_ISSUE (R16). -/
def execBundleIssue (c k : Nat) (s : State) : Out := event (canBundleIssue c k s) s (s.issue c k)

/-- Whether the present tick of a warp may end: its cycles are over, and it has issued or is an empty tick of its own (R16, R17, R24). -/
def canResultLand (c k : Nat) (s : State) : Bool :=
  s.testWarp c k fun w => w.running && decide (w.notBefore ≤ s.cycle) &&
    ((w.opened && decide (w.tickStart + w.tickCycles ≤ s.cycle)) ||
      (!w.opened && decide (w.tick < w.due) && s.pipeTurn c k w && decide (s.pipeStart c k w + w.tickCycles ≤ s.cycle)))

/-- Whether a tick of a warp has begun: its bundle's, or an empty one whose turn has come or in which it froze; the timeline of a warp that is
swapped out, or is being swapped in, stands (R16, R21, R22, R24, R25). -/
def State.begun (s : State) (c k : Nat) (w : Warp) : Bool :=
  w.opened || (w.trap.isNone && decide (w.tick < w.due) &&
    (w.inTick || (w.running && decide (w.notBefore ≤ s.cycle) && s.pipeTurn c k w)))

/-- The end of a tick; an empty tick first takes a deferred cause that it sees, and a result that lands in it and is not there yet freezes the timeline
(R18, R21, R328). -/
def doResultLand (c k : Nat) (s : State) : State :=
  s.onWarp c k fun w =>
    let start := s.pipeStart c k w
    if !w.opened && w.deferredNow start != [] then s.takeDeferred c k start
    else if w.unready then s.setWarp c k { w.pause .l1 with since := s.cycle, inTick := !w.opened }
    else if w.opened then s.endTick c k
    else (s.setWarp c k (w.unsee start)).endTick c k

/-- RESULT_LAND (R18). -/
def execResultLand (c k : Nat) (s : State) : Out := event (canResultLand c k s) s (doResultLand c k s)

/-! ## Freezes and waits -/

/-- Whether the cause of a freeze is gone (R21). -/
def freezeOver (c k : Nat) (s : State) (w : Warp) : Bool :=
  match w.stop with
  | .until n => decide (n ≤ s.cycle)
  | .l1 => !w.unready && (w.opened || decide (w.tick < w.due) || match w.dueOps with
    | none => true
    | some o => match waitOf o.m c k s with
      | some (.l1 miss) => miss != [] && !miss.any fun l => (s.core c).l1want.contains l
      | some (.tlb _ _) => false
      | _ => true)
  | .flag => match w.dueOps with
    | none => true
    | some o => flagRoom w (flagsOf [o.m, o.x])
  | _ => false

/-- Whether a freeze may end. -/
def canFreezeEnd (c k : Nat) (s : State) : Bool := s.testWarp c k (freezeOver c k s)
/-- The timeline resumes. -/
def resume (c k : Nat) (s : State) : State := s.modWarp c k fun w => { w.moveOn with since := s.cycle }
/-- FREEZE_END (R21). -/
def execFreezeEnd (c k : Nat) (s : State) : Out := event (canFreezeEnd c k s) s (resume c k s)

/-- Whether an acceptance wait is over (R145, R178). -/
def canAcceptance (c k : Nat) (s : State) : Bool :=
  s.testWarp c k fun w => w.stop = .accept && match w.dueOps with
    | none => true
    | some o => (waitOf o.m c k s).isNone && (waitOf o.x c k s).isNone && (waitOf o.c c k s).isNone
/-- ACCEPTANCE (R145): the bundle may issue. -/
def execAcceptance (c k : Nat) (s : State) : Out := event (canAcceptance c k s) s (resume c k s)

/-! ## The active set (R24 to R26) -/

/-- The first cycle in which a warp is eligible to leave the active set, if any: a bundle that yields makes it so from its issue, and the wait of a hold
before the successor begins with the successor's tick (R25, R38, R216, R243). -/
def Warp.eligibleFrom (w : Warp) : Option Nat :=
  let late := some (w.since + 65)
  if w.yielded then some w.issuedAt
  else match w.stop with
    | .run => if w.heldNow && w.tick = w.due && !w.opened then some (max w.since w.tickStart + 65) else none
    | .mdone _ => none
    | .before _ interval _ _ => if interval = 0 then late else some w.since
    | .ended => some w.since
    | .stopped => some w.since
    | _ => late

/-- Whether `p` goes before `q`: the earlier cycle, then the lower slot (R25). -/
def earlier (a i b j : Nat) : Bool := decide (a < b) || (a = b && decide (i ≤ j))

/-- Whether a ready pending warp has been pending longest. -/
def longestPending (x : CoreSt) (k : Nat) (w : Warp) : Bool :=
  w.ready && x.warps.all fun p => !p.2.ready || earlier w.moved k p.2.moved p.1

/-- Give the position of `out` to `inn`; the swap takes 4 cycles of the pipe, in which the timeline of `inn` does not move (R25). -/
def State.swap (s : State) (c out inn : Nat) : State :=
  match s.warp? c out, s.warp? c inn with
  | some a, some b =>
    (s.setWarp c out { a with position := none, moved := s.cycle, yielded := false }).setWarp c inn
      { b with position := a.position, moved := s.cycle, since := s.cycle, notBefore := s.cycle + 4 }
  | _, _ => s

/-- Whether a warp stands where a swap may take it: between ticks, or frozen in one (R21, R25). -/
def Warp.swappable (w : Warp) : Bool := !w.opened || w.stop != .run
/-- Whether a warp is at a bundle boundary: its next bundle is due and has not issued, or its timeline stands between ticks (R26). -/
def Warp.atBoundary (w : Warp) : Bool := !w.opened && (decide (w.due ≤ w.tick) || w.stop = .trap || w.stop = .ended)

/-- Whether the swap of R25 may happen: the warp eligible longest and the ready warp pending longest. -/
def canWarpSwap (c out inn : Nat) (s : State) : Bool :=
  let x := s.core c
  match FMap.find x.warps out, FMap.find x.warps inn with
  | some a, some b =>
    let first := match a.eligibleFrom with
      | some e => a.position.isSome && decide (e ≤ s.cycle) && x.warps.all fun p => match p.2.eligibleFrom with
          | some f => p.2.position.isNone || earlier e out f p.1
          | none => true
      | none => false
    first && a.swappable && longestPending x inn b
  | _, _ => false
/-- WARP_SWAP (R25). -/
def execWarpSwap (c out inn : Nat) (s : State) : Out := event (canWarpSwap c out inn s) s (s.swap c out inn)

/-- Whether the swap of R26 may happen: pending for 16,384 cycles, against the warp active longest, at its bundle boundary. -/
def canStarvationSwap (c out inn : Nat) (s : State) : Bool :=
  let x := s.core c
  match FMap.find x.warps out, FMap.find x.warps inn with
  | some a, some b =>
    longestPending x inn b && decide (b.moved + 16384 ≤ s.cycle) && a.position.isSome && a.atBoundary &&
      x.warps.all fun p => p.2.position.isNone || earlier a.moved out p.2.moved p.1
  | _, _ => false
/-- STARVATION_SWAP (R26). -/
def execStarvationSwap (c out inn : Nat) (s : State) : Out := event (canStarvationSwap c out inn s) s (s.swap c out inn)

/-! ## Freeing -/

/-- Whether every flag of a warp is 0. -/
def Warp.flagsZero (w : Warp) : Bool := w.flags = []

/-- Whether a slot may be freed: the warp has ended and its flags are 0 (R30). -/
def canWarpSlotFree (c k : Nat) (s : State) : Bool := s.testWarp c k fun w => w.stop = .ended && w.flagsZero

/-- Take a warp out of its slot; a pending warp takes the position it leaves. -/
def State.vacate (s : State) (c k : Nat) : State :=
  s.onWarp c k fun w =>
    let left := FMap.erase (s.core c).warps k
    let left := match w.position, nextPending left Warp.ready with
      | some _, some j => FMap.adjust left j fun v => { v with position := w.position, moved := s.cycle, since := s.cycle }
      | _, _ => left
    s.modCore c fun x => { x with warps := left, next := max x.next w.seq }

/-- Free a slot. -/
def doWarpSlotFree (c k : Nat) (s : State) : State :=
  s.onWarp c k fun w => (s.vacate c k).modBlock w.block fun b => { b with warps := b.warps.erase k, last := (s.core c).next, gone := (c, k, w.first, w.seq) :: b.gone }
/-- WARP_SLOT_FREE (R30). -/
def execWarpSlotFree (c k : Nat) (s : State) : Out := event (canWarpSlotFree c k s) s (doWarpSlotFree c k s)

/-- Whether every warp of a block has ended; with `quiet`, and its flags are 0 too (R11, R304). -/
def State.blockOver (s : State) (b : Block) (quiet : Bool) : Bool :=
  b.warps.all fun k => match s.warp? b.core k with
    | none => true
    | some w => w.stop = .ended && (!quiet || w.flagsZero)

/-- Whether the tile-engine grant of a core may be released (R11): its block is over and none of its operations is left. -/
def canTileGrantRelease (c : Nat) (s : State) : Bool :=
  match (s.core c).grantee with
  | none => false
  | some g =>
    !((s.core c).xops.any fun o => o.block = g) && match s.block? g with
      | none => true
      | some b => s.blockOver b (match FMap.find s.tasks b.task with | some t => !t.killed | none => false)
/-- TILE_GRANT_RELEASE (R11). -/
def execTileGrantRelease (c : Nat) (s : State) : Out :=
  event (canTileGrantRelease c s) s (s.modCore c fun x => { x with grantee := none, released := [] })

/-! ## Holds -/

/-- Whether the hold of a warp may end: `wait` or `await` whose condition holds for a tick that begins after this cycle, or `icinv` with cores left,
which a pre-emption does not stop (R22, R216, R246). -/
def canHoldEnd (c k : Nat) (s : State) : Bool :=
  s.testWarp c k fun w => match w.stop, w.hold with
    | .before _ interval _ _, _ => !w.preempt && interval = 0 && match w.dueC with
      | some i => match holdOf (some i) with
        | some h => !(h c k (s.setWarp c k { w with tickStart := s.cycle + 1 })).1
        | none => true
      | none => true
    | .run, some (.icinv _) => true
    | _, _ => false

/-- End a hold: the bundle issues in a later tick; `icinv` invalidates one core after another (R216, R246). -/
def doHoldEnd (c k : Nat) (s : State) : State :=
  s.onWarp c k fun w => match w.hold, w.stop with
    | _, .before .. => s.setWarp c k { w with stop := .mdone true, since := s.cycle, notBefore := s.cycle + 1, awaits := none }
    | some (.icinv (x :: rest)), _ =>
      (s.icInvalidate x).modWarp c k fun w =>
        { w with hold := if rest = [] then none else some (.icinv rest), since := s.cycle, notBefore := s.cycle + 1 }
    | some (.icinv []), _ => s.setWarp c k { w with hold := none, since := s.cycle, notBefore := s.cycle + 1 }
    | _, _ => s
/-- HOLD_END (R216). -/
def execHoldEnd (c k : Nat) (s : State) : Out := event (canHoldEnd c k s) s (doHoldEnd c k s)

/-- Whether a barrier timeout has passed: the cycle in which it falls is over, since an arrival in it still wins (R229). -/
def canBarrierTimeout (c k : Nat) (s : State) : Bool := s.testWarp c k fun w => !w.preempt && lapsed s.cycle w != []
/-- Withdraw the arrival: the predicate becomes 0 and the warp continues (R229, R230). -/
def doBarrierTimeout (c k : Nat) (s : State) : State :=
  s.onWarp c k fun w => match lapsed s.cycle w with
    | [] => s
    | x :: _ => (s.withdraw c k w x).checkBarrier x.2.1 w.block x.2.2.1
/-- BARRIER_TIMEOUT (R229). -/
def execBarrierTimeout (c k : Nat) (s : State) : Out := event (canBarrierTimeout c k s) s (doBarrierTimeout c k s)

/-- The `mwait` that holds a warp: its fields, timeout, interval, next poll and whether a monitor is registered. -/
def Warp.mwaiting (w : Warp) : Option (CSOp × Option Nat × Nat × Nat × Bool) :=
  match w.stop, w.dueC with
  | .before dl interval poll armed, some (.mwait o) => some (o, dl, interval, poll, armed)
  | _, _ => none

/-- Whether the timeout of an `mwait` has passed. A registered warp waits out the cycle in which it falls, whose writes still win (R235); a
polling one reads in that cycle (R236). -/
def canMwaitTimeout (c k : Nat) (s : State) : Bool :=
  s.testWarp c k fun w => match w.mwaiting with
    | some (_, some t, _, _, armed) => !w.preempt && (decide (t < s.cycle) || (!armed && t = s.cycle))
    | _ => false
/-- The timeout of an `mwait`: a polling warp reads once more in the cycle in which it falls, and a value that satisfies wins (R235, R236). -/
def doMwaitTimeout (c k : Nat) (s : State) : State :=
  s.onWarp c k fun w => match w.mwaiting with
    | some (o, dl, interval, _, armed) =>
      let t := if armed || dl != some s.cycle then s else mwaitRead o c k s dl interval
      let t := { t with monitors := t.monitors.filter fun m => !(m.core = c && m.slot = k) }
      t.onWarp c k fun w => match w.stop with
        | .mdone _ => t
        | _ => t.endMwait c k false
    | none => s
/-- MWAIT_TIMEOUT (R235). -/
def execMwaitTimeout (c k : Nat) (s : State) : Out := event (canMwaitTimeout c k s) s (doMwaitTimeout c k s)

/-- Whether the poll of an `mwait` is due (R236). -/
def canMwaitPoll (c k : Nat) (s : State) : Bool :=
  s.testWarp c k fun w => match w.mwaiting with
    | some (_, dl, _, poll, armed) => !w.preempt && !armed && decide (poll ≤ s.cycle) && match dl with
      | some t => decide (s.cycle ≤ t)
      | none => true
    | none => false
/-- Poll once. -/
def doMwaitPoll (c k : Nat) (s : State) : State :=
  s.onWarp c k fun w => match w.mwaiting with
    | some (o, dl, interval, _, _) => mwaitRead o c k s dl interval
    | none => s
/-- MWAIT_POLL (R236). -/
def execMwaitPoll (c k : Nat) (s : State) : Out := event (canMwaitPoll c k s) s (doMwaitPoll c k s)

/-! ## Firmware services (R242, R343) -/

/-- The service a warp waits for, while firmware has not answered. -/
def Warp.asking (w : Warp) (n : Nat) : Bool := w.hold = some (.sysc n none) && w.stop = .run

/-- Give the reply of a service. -/
def State.reply (s : State) (c k : Nat) (r : DWord × DWord) : State :=
  s.modWarp c k fun w => match w.hold with
    | some (.sysc n _) => { w with hold := some (.sysc n (some r)) }
    | _ => w

/-- Give the code of a service that leaves s2 open: its value is free (log 18). -/
def State.replyCode (s : State) (c k code : Nat) : State :=
  let (v, s) := s.freeVal
  s.reply c k (BitVec.ofNat 64 code, BitVec.ofNat 64 v)

/-- The unknown-service reply. -/
def unknownReply : DWord × DWord := (BitVec.allOnes 64, 0)

/-- Whether MIGRATE_WAIT may be answered: the page's MIG bit is clear and no shootdown covers it (R343, R356). -/
def State.migrated (s : State) (c : Nat) (w : Warp) (va : Nat) : Bool :=
  let (asid, view) := s.ctxOf w.block c
  (match s.walk (dieOf c) asid view va .read true with | .error .migrating => false | _ => true) &&
    !s.shoots.any fun h => h.asid = asid && decide (h.va ≤ va) && decide (va < h.va + h.bytes)

/-- Whether firmware's reply may land: the ticks of the bundle have run (R242). -/
def canSyscReply (c k : Nat) (s : State) : Bool :=
  s.testWarp c k fun w => w.stop = .run && !w.opened && w.tick = w.due && match w.hold with
    | some (.sysc 2 (some _)) => s.migrated c w (w.s 1).toNat
    | some (.sysc _ (some _)) => true
    | some (.sysc n none) => decide (6 ≤ n) && s.boot.swapping.isNone
    | _ => false
/-- The reply lands in s1 and s2 and the hold ends (R242). -/
def doSyscReply (c k : Nat) (s : State) : State :=
  s.modWarp c k fun w => match w.hold with
    | some (.sysc _ r) => let p := r.getD unknownReply; { ((w.setS 1 p.1).setS 2 p.2) with hold := none, since := s.cycle, notBefore := s.cycle + 1 }
    | _ => w
/-- SYSC_REPLY (R242). -/
def execSyscReply (c k : Nat) (s : State) : Out := event (canSyscReply c k s) s (doSyscReply c k s)

/-- Whether a warp asks for a service and firmware is not paused (R417). -/
def canService (n c k : Nat) (s : State) : Bool := s.boot.swapping.isNone && s.testWarp c k fun w => w.asking n
/-- VERSION (R343). -/
def execVersion (c k : Nat) (s : State) : Out := event (canService 0 c k s) s (s.reply c k (0, Config.fwVersion))

/-- The region's fault domain and the address space of a warp, as events name them (R402). -/
def State.eventOf (s : State) (c k kind : Nat) (words : List DWord) (asks : Bool) : Event :=
  match s.warp? c k with
  | none => ⟨kind, 0, 0, words, none⟩
  | some w =>
    let fdom := match s.taskOf w with
      | some t => t.fdom
      | none => 0
    ⟨kind, fdom, (s.ctxOf w.block c).1, words, if asks then some (c, k) else none⟩

/-- Whether an event of a warp is already posted or held for its driver. -/
def State.asked (s : State) (c k : Nat) : Bool :=
  s.funcs.any fun p => p.2.held.any (fun e => e.warp = some (c, k)) || p.2.asked.any fun q => q.2 = (c, k)

/-- Pass a service to the host driver's fault queue (R343, R403). -/
def State.askDriver (s : State) (c k kind : Nat) (words : List DWord) : State :=
  let e := s.eventOf c k kind words true
  s.postFor e.aspace e

/-- RESOLVE (R343): the driver answers by FAULT_REPLY. -/
def execResolve (c k : Nat) (s : State) : Out :=
  event (canService 1 c k s && !s.asked c k) s (s.onWarp c k fun w => s.askDriver c k 2 [w.s 1, w.s 2])
/-- MIGRATE_WAIT (R343). -/
def execMigrateWait (c k : Nat) (s : State) : Out :=
  event (canService 2 c k s && !s.asked c k) s (s.onWarp c k fun w => s.askDriver c k 3 [w.s 1])
/-- KILL_TASK (R343): every warp of the task is killed. -/
def execKillTask (c k : Nat) (s : State) : Out :=
  event (canService 3 c k s) s (s.onWarp c k fun w => match s.block? w.block with
    | some b => s.killTask b.task
    | none => s)
/-- LOG (R343): a record in the fault log and a LOG event. -/
def execLogSvc (c k : Nat) (s : State) : Out :=
  event (canService 4 c k s) s (s.onWarp c k fun w =>
    let ws := (List.range 7).map fun i => w.s (i + 1)
    let e := s.eventOf c k 4 ws false
    ((s.faultRecord (BitVec.ofNat 64 e.fdom :: ws)).postFor e.aspace e).replyCode c k 0)
/-- The core and slot of a DEBUG event, in the bits of its word 0 that R402 gives no field (log 57). -/
def debugPlace (c k : Nat) : DWord := BitVec.ofNat 64 (c % 256 * 2 ^ 48 + k % 32 * 2 ^ 8)
/-- DEBUG_NOTIFY (R343): a DEBUG event with s1 to s7. The warp is released at once when no system debugger is attached; else the next DEBUG_NOTIFY of
the same request is the debugger's release (log 36). -/
def execDebugNotify (c k : Nat) (s : State) : Out :=
  event (canService 5 c k s) s (s.onWarp c k fun w =>
    if w.notified then (s.modWarp c k fun w => { w with notified := false }).replyCode c k 0
    else
      let e := s.eventOf c k 7 ((List.range 7).map (fun i => w.s (i + 1)) ++ [debugPlace c k]) false
      let s := { s.postFor e.aspace e with fresh := s.fresh + 1 }
      if Config.debugger s.fresh then s.modWarp c k fun w => { w with notified := true } else s.replyCode c k 0)

/-! ## Trap entry -/

/-- Whether a trap may be entered: no asynchronous result in flight, no speculation (R322, R331). -/
def canTrapEntry (c k : Nat) (s : State) : Bool :=
  s.testWarp c k fun w => w.trap.isSome && !s.asyncOpen c k && !s.speculating w.block
/-- TRAP_ENTRY (R331). -/
def execTrapEntry (c k : Nat) (s : State) : Out := event (canTrapEntry c k s) s (s.tryEnter c k)

/-! ## Fetch -/

/-- Whether a warp waits for the line of its next bundle, active or pending (R25, R366). -/
def canDemandFill (c k : Nat) (s : State) : Bool := s.testWarp c k fun w => w.stop = .fetch
/-- Look the line up: translate, take it from the instruction cache or ask for it, or raise the fetch cause (R354, R366). -/
def doDemandFill (c k : Nat) (s : State) : State :=
  s.onWarp c k fun w =>
    let (asid, view) := s.ctxOf w.block c
    let line := w.pc.toNat / 128 * 128
    match s.xlate c asid view w.pc.toNat .fetch w.priv with
    | .error e => s.takeTrap c k (trapFetch w e.fetchCause)
    | .ok t =>
      let s := s.learn c t
      match (s.core c).icFind asid line with
      | some d =>
        (s.modCore c fun x => x.icPut asid line d).setWarp c k { (w.fetchPut line d).moveOn with since := s.cycle }
      | none => s.modCore c fun x => { x with iwant := if x.iwant.contains (asid, line) then x.iwant else x.iwant ++ [(asid, line)] }
/-- DEMAND_FILL (R366). -/
def execDemandFill (c k : Nat) (s : State) : Out := event (canDemandFill c k s) s (doDemandFill c k s)

/-- The view in which a core runs an address space: that of any of its warps. -/
def State.viewOf (s : State) (c asid : Nat) : Nat :=
  ((s.core c).warps.findSome? fun p => let (a, v) := s.ctxOf p.2.block c; if a = asid then some v else none).getD 0

/-- A line that has come goes into the other buffer slot of each warp whose next-line fill asked for it and whose last bundle is of the line before
(R366). -/
def State.serveNext (s : State) (c asid line d : Nat) : State :=
  (s.core c).warps.foldl (fun s p => s.modWarp c p.1 fun w =>
    if w.nextWant = some line && (s.ctxOf w.block c).1 = asid && w.lastLine.any (fun l => (l + 128) % 2 ^ 64 = line) then
      { w.fetchPut line d with nextWant := none }
    else w) s

/-- A demanded line that cannot be read: each warp that waits for it takes the cause its home gave at the bundle's tick, as for a translation that
fails; the spec names no cause of its own (R354, R384; log 80). -/
def State.failFetch (s : State) (c asid line cause : Nat) : State :=
  (s.core c).warps.foldl (fun s p => match s.warp? c p.1 with
    | some w => if w.stop = .fetch && w.pc.toNat / 128 * 128 = line && (s.ctxOf w.block c).1 = asid
        then s.takeTrap c p.1 (trapFetch w cause) else s
    | none => s) s

/-- A fill of the instruction cache arrives from the home at device scope; an untranslatable line is dropped, and a line whose fetch failed is not
installed (R244, R273, R365). -/
def doIcacheFill (c asid line : Nat) (s : State) : State :=
  let s := s.modCore c fun x => { x with iwant := x.iwant.filter (· ≠ (asid, line)) }
  match s.xlate c asid (s.viewOf c asid) line .fetch true with
  | .error _ => s
  | .ok t =>
    let (d, e, s) := (s.learn c t).homeGet (t.paOf line) 128 5 (352 + c)
    match e with
    | some cause => s.failFetch c asid line cause
    | none => (s.modCore c fun x => x.icPut asid line d).serveNext c asid line d
/-- ICACHE_FILL (R365). -/
def execIcacheFill (c asid line : Nat) (s : State) : Out :=
  event ((s.core c).iwant.contains (asid, line) && line % 128 = 0) s (doIcacheFill c asid line s)

/-! ## Bank-conflict counters -/

/-- Whether a snapshot is due: its pop was made in an earlier cycle (R364). -/
def canBankSnapshot (c : Nat) (s : State) : Bool := match (s.core c).bank.pend with
  | some (t, _, _) => decide (t < s.cycle)
  | none => false
/-- BANK_SNAPSHOT (R364). -/
def execBankSnapshot (c : Nat) (s : State) : Out :=
  event (canBankSnapshot c s) s (s.modCore c fun x => x.takeSnapshot s.cycle)
/-- BCCTL_CLR (R363). -/
def execBcctlClr (c : Nat) (s : State) : Out := event true s (s.modCore c fun x => { x.takeSnapshot s.cycle with counters := [] })

end Sys2Proof.Machine
end

