-- ==== Sys2Proof/Machine/MemEvents.lean ====
section
/-! DEFINITION. Performing memory operations: asynchronous results, the release FIFO, releases and acquires, L1 fills, walks, the
Grinder, and the answers of links (R144, R154 to R165, R248 to R258, R367, R378, R394, R405, R408). -/

namespace Sys2Proof.Machine

/-- Whether two byte ranges overlap. -/
def overlap (a n b m : Nat) : Bool := decide (a < b + m) && decide (b < a + n)

/-- Whether an entry writes a byte of a range. -/
def entryWrites (e : FifoEntry) (pa : Pa) (n : Nat) : Bool :=
  e.line.space = pa.space &&
    (e.bytes.any (fun x => decide (pa.addr ≤ x.1) && decide (x.1 < pa.addr + n)) || e.lanes.any fun l => overlap l.pa.addr l.n pa.addr n)

/-- Bytes of a read with those of plain entries laid over them, oldest entry first (R154, R158). -/
def forwarded (es : List FifoEntry) (pa : Pa) (n v : Nat) : Nat :=
  es.foldl (fun v e => e.bytes.foldl (fun v x =>
    if e.line.space = pa.space ∧ pa.addr ≤ x.1 ∧ x.1 < pa.addr + n then
      let i := x.1 - pa.addr
      v % 256 ^ i + (x.2.toNat + v / 256 ^ (i + 1) * 256) * 256 ^ i
    else v) v) v

/-- Record a deferred cause for a warp: it is taken at the first tick that sees its operation's flag decrement, made in cycle `cyc` (R179, R328). -/
def State.deferTo (s : State) (c k cause slot : Nat) (addr : DWord) (seq cyc : Nat) : State :=
  s.modWarp c k fun w => { w with deferred := w.deferred ++ [⟨cause, slot, addr, seq, w.seesAt (s.begun c k w), cyc⟩] }

/-! ## Asynchronous results (R144) -/

/-- An operation of a core. -/
def CoreSt.op? (x : CoreSt) (id : Nat) : Option AsyncOp := x.ops.find? fun o => o.id = id
/-- Change an operation of a core. -/
def State.modOp (s : State) (c id : Nat) (f : AsyncOp → AsyncOp) : State :=
  s.modCore c fun x => { x with ops := x.ops.map fun o => if o.id = id then f o else o }

/-- Whether an entry keeps a read from being performed (R158, R250): an atomic, or for an acquire wider than `.c` another warp's. -/
def blocksRead (x : CoreSt) (o : AsyncOp) (e : FifoEntry) : Bool :=
  e.kind.isSome || (match o.acq with
    | some .w => false
    | some .c => false
    | some _ => e.slot != o.slot || !x.kin o.slot o.seq e.wseq
    | none => false)

/-- Whether one lane or piece of a load may be read now (R158, R162, R250, R251). -/
def readable (x : CoreSt) (o : AsyncOp) (a : LaneAcc) : Bool :=
  !(x.fifo.any fun e => decide (e.seq < o.id) && entryWrites e a.pa a.n && blocksRead x o e) &&
  !(x.ops.any fun p => p.slot = o.slot && decide (p.seq < o.seq) && x.kin o.slot p.seq o.seq && (p.acq.isSome && p.kind != .load || p.acq.isSome && p.kind = .load ||
      p.todo.any fun b => b.pa.space = a.pa.space && overlap b.pa.addr b.n a.pa.addr a.n))

/-- Read one lane or piece: forwarded bytes over the value at the home (R158). -/
def readPiece (c : Nat) (o : AsyncOp) (a : LaneAcc) (s : State) : State :=
  let es := (s.core c).fifo.filter fun e => decide (e.seq < o.id) && entryWrites e a.pa a.n
  let (v, e, s) := s.homeGet a.pa a.n (slotCode a.ms 0) (352 + c)
  s.modOp c o.id fun o => { o with
    todo := o.todo.erase a, got := FMap.set o.got a.lane (forwarded es a.pa a.n v), err := match o.err with
      | some x => some x
      | none => e }

/-- The pieces of a `vfill` that its format uses; the first comes first (R174). -/
def neededTodo (o : AsyncOp) : List LaneAcc :=
  if o.kind = .fill then
    match FMap.find o.got 0 with
    | none => o.todo.take 1
    | some h => o.todo.filter fun a => decide (a.lane < fillBytes (h % 256) o.n)
  else o.todo

/-- Read what is left of an operation. -/
def readAll (c id : Nat) : Nat → State → State
  | 0, s => s
  | n + 1, s =>
    match (s.core c).op? id with
    | none => s
    | some o => match neededTodo o with
      | [] => s
      | a :: _ => readAll c id n (readPiece c o a s)

/-- The values of an operation by lane: those read, or the lanes of a filled register (R144, R174). -/
def opValues (o : AsyncOp) : List (Nat × Nat) :=
  if o.kind = .fill then
    let img := o.got.foldr (fun p v => v + p.2 * 256 ^ p.1) 0
    (List.range o.n).map fun l => (l, fillLane img l)
  else o.got

/-- The landings of an operation, the last of which drops its flag. -/
def opLandings (o : AsyncOp) (w : Warp) : List Landing :=
  let mk := fun (d : Dest) (lanes : FMap Word) (x : DWord) =>
    ({ slot := 1, tick := o.tick, land := w.tick, dest := d, unit := .none, lanes := lanes, scalar := x, evs := [], addr := o.addr,
       dec := some none } : Landing)
  let vals := if o.err.isSome then [] else opValues o
  let data := match o.dest with
    | .s r => vals.map fun p => mk (.s r) [] (BitVec.ofNat 64 p.2)
    | .v r => (List.range (if o.kind = .fill then 1 else (o.n + 3) / 4)).map fun i => mk (.v (r + i)) (vals.map fun p => (p.1, wordAt p.2 i)) 0
    | _ => []
  data ++ [{ mk (.sr 255) [] 0 with dec := some o.flag }]

/-- The deferred cause of an operation that lands: its error, or a reserved format byte (R174, R384). -/
def opDeferred (o : AsyncOp) : Option Nat :=
  match o.err with
  | some e => some e
  | none => if o.kind = .fill ∧ 5 ≤ FMap.getD o.got 0 0 % 256 then some 0x146 else none

/-- Land an operation in one step with its flag, and complete its acquire (R144, R162); an operation without a result only drops its flag (R22). -/
def landOp (c : Nat) (o : AsyncOp) (s : State) : State :=
  let s := s.modCore c fun x => { x with ops := x.ops.filter fun p => p.id ≠ o.id }
  let s := s.modWarp c o.slot fun w =>
    if o.dead || o.kind = .fence then match o.flag with
      | some f => w.fallFlag s.cycle f
      | none => w
    else w.landAsync (s.begun c o.slot w) (opLandings o w)
  let s := match opDeferred o, o.dead with
    | some e, false => s.deferTo c o.slot e 1 o.addr o.seq 0
    | _, _ => s
  match o.acq with
  | some sc => if Scope.code sc < 3 then s else s.l1Invalidate c
  | none => s

/-- The home of an address (R157): an L2 slice, a Grinder, another device or host memory, by kind and number. -/
def State.homeOf (s : State) (pa : Pa) (ms : Bool) : Nat × Nat :=
  match s.localAddr pa with
  | some a => if ms then (1, stackOf a) else (0, sliceOf a)
  | none => if pa.space = .host then (3, 0) else (2, pa.addr / 2 ^ 46)

/-- Whether the result of an operation may land, or one of its lanes be read: at one home, in ascending order of lanes (R252). -/
def canAsyncResultLand (c id : Nat) (part : Option Nat) (s : State) : Bool :=
  match (s.core c).op? id with
  | none => false
  | some o =>
    o.kind != .fence && match part with
      | some i => match o.todo[i]? with
        | some a => (neededTodo o).contains a && readable (s.core c) o a &&
            (o.todo.take i).all fun b => s.homeOf b.pa b.ms != s.homeOf a.pa a.ms
        | none => false
      | none => o.todo.all (readable (s.core c) o) && !(s.core c).fifo.any fun e => e.op = id && o.kind = .atomic
/-- Read one lane, or read what is left and land. -/
def doAsyncResultLand (c id : Nat) (part : Option Nat) (s : State) : State :=
  match (s.core c).op? id with
  | none => s
  | some o => match part with
    | some i => match o.todo[i]? with
      | some a => readPiece c o a s
      | none => s
    | none =>
      let s := readAll c id o.todo.length s
      match (s.core c).op? id with
      | some o => landOp c o s
      | none => s
/-- ASYNC_RESULT_LAND (R144). -/
def execAsyncResultLand (c id : Nat) (part : Option Nat) (s : State) : Out :=
  event (canAsyncResultLand c id part s) s (doAsyncResultLand c id part s)

/-! ## The release FIFO -/

/-- Count a link error of the port to a device and post LINK_ERROR (R403, R408, R434). -/
def State.linkError (s : State) (c : Nat) (pa : Pa) (cause : Nat) : State :=
  let d := pa.addr / 2 ^ 46
  let p := (s.portOf c d).getD ((d + c) % 18)
  (s.count (17 + p)).postEvent 0 ⟨9, 0, 0, [BitVec.ofNat 64 p, BitVec.ofNat 64 cause, BitVec.ofNat 64 d], none⟩

/-- A posted write failed: when its operation has a flag, its first cause waits for the decrement, else the failure is counted (R328, R408). -/
def State.postedFail (s : State) (c : Nat) (e : FifoEntry) (cause : Nat) : State :=
  match (s.core c).posted.find? fun p => p.id = e.op with
  | some _ => s.modCore c fun x => { x with posted := x.posted.map fun p => if p.id = e.op then { p with err := p.err.or (some cause) } else p }
  | none => if (s.core c).ops.any fun o => o.id = e.op then s.modOp c e.op fun o => { o with err := some cause } else s.linkError c e.line cause

/-- Take an entry out of the FIFO; the flag of a posted operation falls with its last line, and the cause that a line met is deferred then (R159,
R328). -/
def State.entryGone (s : State) (c : Nat) (e : FifoEntry) : State :=
  let s := s.modCore c fun x => { x with fifo := x.fifo.filter fun f => f.seq ≠ e.seq }
  if (s.core c).fifo.any fun f => f.op = e.op then s
  else match (s.core c).posted.find? fun p => p.id = e.op with
    | some p =>
      let s := (s.modCore c fun x => { x with posted := x.posted.filter fun q => q.id ≠ e.op }).modWarp c p.slot fun w => w.fallFlag s.cycle p.flag
      match p.err, s.alive (c, p.slot) with
      | some x, true => s.deferTo c p.slot x 1 p.addr p.wseq s.cycle
      | _, _ => s
    | none => s

/-- The event of one lane of an entry at its home (R157, R160, R248). A `red.g` that meets poison raises nothing: R384 says so of posted writes
and does not name it (DESIGN CHOICE, log 78); one that a link refuses is a posted write that failed (R408). -/
def State.performLane (s : State) (c : Nat) (e : FifoEntry) (a : LaneAcc) : State :=
  match e.kind with
  | none => s.homePut a.pa a.n a.x (slotCode a.ms 1) (352 + c)
  | some k =>
    let posted := !(s.core c).ops.any fun o => o.id = e.op
    let (old, err, s) := s.homeAtomic k a (slotCode a.ms (if posted then 3 else 2)) (352 + c)
    match err, posted && s.remote a.pa with
    | some x, true => s.postedFail c e x
    | _, _ => s.modOp c e.op fun o => { o with got := FMap.set o.got a.lane old, err := match o.err with
          | some x => some x
          | none => err }

/-- The bytes of an entry that its lanes still have to write: those of a lane performed are its home's from then on (R251, R260). -/
def bytesLeft (bytes : List Host.Cell) (lanes : List LaneAcc) : List Host.Cell :=
  bytes.filter fun b => lanes.any fun l => decide (l.pa.addr ≤ b.1) && decide (b.1 < l.pa.addr + l.n)

/-- Perform the next event of an entry, its lanes in ascending order (R142, R248, R252); with the last one it leaves the FIFO, and a line written
whole is free of poison (R384). -/
def State.performEntry (s : State) (c : Nat) (e : FifoEntry) : State :=
  match e.lanes with
  | [] => s.entryGone c e
  | a :: rest =>
    let s := s.performLane c e a
    if rest != [] then s.modCore c fun x => { x with fifo := x.fifo.map fun f =>
      if f.seq = e.seq then { f with lanes := rest, bytes := bytesLeft f.bytes rest, begun := true } else f }
    else
      let s := if e.kind.isNone && e.whole then match s.localAddr e.line with
          | some a => s.clearPoison a 128
          | none => s
        else s
      s.entryGone c e

/-- Perform the next `n` events of an entry. -/
def State.performSome (s : State) (c : Nat) (e : FifoEntry) (n : Nat) : State :=
  (List.range n).foldl (fun s _ => match (s.core c).fifo.find? fun f => f.seq = e.seq with
    | some f => s.performEntry c f
    | none => s) s

/-- Perform every event that is left of an entry. -/
def State.performAll (s : State) (c : Nat) (e : FifoEntry) : State := s.performSome c e e.lanes.length

/-- How many of an entry's next events lie in the 32-byte block of the first (R378). -/
def FifoEntry.blockRun (e : FifoEntry) : Nat :=
  match e.lanes with
  | [] => 1
  | a :: _ => (e.lanes.takeWhile fun b => b.pa.addr / 32 = a.pa.addr / 32).length

/-- Whether the next event of an entry is in the order of its operation's lanes: at one home no lower lane is still to be performed (R252). -/
def State.laneTurn (s : State) (x : CoreSt) (e : FifoEntry) : Bool :=
  match e.lanes with
  | [] => true
  | a :: _ => x.fifo.all fun f => f.op != e.op || f.seq = e.seq || s.homeOf f.line f.ms != s.homeOf e.line e.ms ||
      f.lanes.all fun b => decide (a.lane ≤ b.lane)

/-- Perform an entry of another device: a plain one as one request with its byte mask, which its link may refuse; the lanes of an atomic one by
one (R159, R404, R405, R408). -/
def State.performRemote (s : State) (c : Nat) (e : FifoEntry) : State :=
  match s.linkCause e.line with
  | some x => (s.postedFail c e x).entryGone c e
  | none =>
    if e.kind.isSome then s.performEntry c e
    else
      let (r, s) := s.linkReply e.line
      let s := match r with
        | some x => s.postedFail c e x
        | none => s
      (s.homePutCells e.line e.bytes 1 (352 + c)).entryGone c e

/-- The entry with an acceptance number. -/
def CoreSt.entry? (x : CoreSt) (seq : Nat) : Option FifoEntry := x.fifo.find? fun e => e.seq = seq

/-- Whether an entry may leave the FIFO for its home: in order for its line and for its operation's lanes (R252), not behind a marker, not ahead of
an open acquire of its warp, nor of an earlier read of its bytes by its warp (R157, R161, R162, R251); at most 32 are on their way (R367). -/
def canFifoEntryPerform (c seq : Nat) (s : State) : Bool :=
  let x := s.core c
  match x.entry? seq with
  | none => false
  | some e =>
    !e.sent && decide ((x.fifo.filter (·.sent)).length < Config.fifoInFlight) && ((x.fifo.take Config.fifoEntries).any fun f => f.seq = seq) &&
    !(x.fifo.any fun f => f.line = e.line && decide (f.seq < seq)) && s.laneTurn x e &&
    !(x.markers.any fun m => decide (m.seq < seq)) &&
    !s.acquireOpen c e.slot e.wseq &&
    !(x.ops.any fun o => o.slot = e.slot && decide (o.seq < e.wseq) && x.kin e.slot o.seq e.wseq && o.todo.any fun a => entryWrites e a.pa a.n) &&
    !(match FMap.find x.warps e.slot with
      | some w => w.flight.any fun y => decide (y.seq < e.wseq) && decide (w.first ≤ e.wseq) && y.want.any fun q => entryWrites e q.2 y.wn
      | none => false)
/-- An entry goes to its home: performed at an L2 slice, sent to a Grinder or to host memory, or carried by a link. -/
def doFifoEntryPerform (c seq : Nat) (s : State) : State :=
  match (s.core c).entry? seq with
  | none => s
  | some e =>
    if e.ms || e.line.space = .host then
      s.modCore c fun x => { x with fifo := x.fifo.map fun f => if f.seq = seq then { f with sent := true } else f }
    else if s.remote e.line then s.performRemote c e
    else s.performEntry c e
/-- FIFO_ENTRY_PERFORM (R157). -/
def execFifoEntryPerform (c seq : Nat) (s : State) : Out := event (canFifoEntryPerform c seq s) s (doFifoEntryPerform c seq s)

/-- Whether a host write may be acknowledged (R394). -/
def canHostWriteAck (c seq : Nat) (s : State) : Bool :=
  match (s.core c).entry? seq with
  | some e => e.sent && e.line.space = .host
  | none => false
/-- HOST_WRITE_ACK (R394): the host write is performed. -/
def execHostWriteAck (c seq : Nat) (s : State) : Out :=
  event (canHostWriteAck c seq s) s (match (s.core c).entry? seq with
    | some e => s.performEntry c e
    | none => s)

/-! ## Releases and acquires -/

/-- A pending marker. -/
def CoreSt.marker? (x : CoreSt) (seq : Nat) : Option Marker := x.markers.find? fun m => m.seq = seq

/-- Whether a release may complete (R161). -/
def canReleaseComplete (c seq : Nat) (s : State) : Bool :=
  let x := s.core c
  match x.marker? seq with
  | none => false
  | some m =>
    (if m.scope = .w || m.scope = .c then !((x.fifo.drop Config.fifoEntries).any fun e => decide (e.seq < seq))
     else !(x.fifo.any fun e => decide (e.seq < seq))) &&
    !(x.ops.any fun o => o.slot = m.slot && o.kind != .fence && decide (o.seq < m.wseq) && x.kin m.slot o.seq m.wseq)
/-- A release completes: its marker goes and the flag of `fence.rel` falls. -/
def doReleaseComplete (c seq : Nat) (s : State) : State :=
  match (s.core c).marker? seq with
  | none => s
  | some m =>
    let s := s.modCore c fun x => { x with markers := x.markers.filter fun n => n.seq ≠ seq }
    match m.flag with
    | some f => s.modWarp c m.slot fun w => w.fallFlag s.cycle f
    | none => s
/-- RELEASE_COMPLETE (R161). -/
def execReleaseComplete (c seq : Nat) (s : State) : Out := event (canReleaseComplete c seq s) s (doReleaseComplete c seq s)

/-- Whether a fence's acquire, or a posted operation without a line, may complete (R142, R162). -/
def canAcquireComplete (c id : Nat) (s : State) : Bool :=
  let x := s.core c
  match x.op? id with
  | none => false
  | some o =>
    o.kind = .fence &&
    (o.acq.isNone || !(x.ops.any fun p => p.slot = o.slot && p.kind != .fence && decide (p.seq < o.seq) && x.kin o.slot p.seq o.seq)) &&
    (match o.rel with
     | some m => (x.marker? m).isNone
     | none => true)
/-- ACQUIRE_COMPLETE (R162): the flag falls and, at `.d` or wider, the L1 is invalidated. -/
def execAcquireComplete (c id : Nat) (s : State) : Out :=
  event (canAcquireComplete c id s) s (match (s.core c).op? id with
    | some o => landOp c { o with dest := .sr 255 } s
    | none => s)

/-! ## L1 fills and walks -/

/-- A fill of the L1 that is asked for. -/
def CoreSt.want? (x : CoreSt) (line : Nat) : Option Pa := x.l1want.find? fun p => p.addr = line
/-- The lines that landings of a core still want, with no open acquire before them (R21, R162). -/
def State.lateLines (s : State) (c : Nat) : List Pa :=
  (s.core c).warps.flatMap fun p => p.2.flight.flatMap fun x => if s.acquireOpen c p.1 x.seq then [] else x.want.map fun q => q.2.line
/-- A fill that may arrive: one asked for, or one that a landing waits for. -/
def State.wanted? (s : State) (c line : Nat) : Option Pa := match (s.core c).want? line with
  | some p => some p
  | none => (s.lateLines c).find? fun p => p.addr = line
/-- Lines that the L1 holds: 512, 1,024 or 2,048 KiB by the core's split (R358). -/
def CoreSt.l1Lines (x : CoreSt) : Nat := 4096 * 2 ^ x.split.getD 0

/-- The lanes of a landing whose line has come take their bytes, given by address; lane `j` of register `i` its word `i`. -/
def Landing.serve (x : Landing) (p : Pa) (get : Pa → Nat → Nat) : Landing :=
  let (mine, rest) := x.want.partition fun q => q.2.line = p
  mine.foldl (fun x q => match x.dest with
    | .s _ => { x with scalar := BitVec.ofNat 64 (get q.2 x.wn) }
    | _ => { x with lanes := FMap.set x.lanes q.1 (BitVec.ofNat 32 (get q.2 x.wn)) }) { x with want := rest }

/-- A line that `ldc` landings of a warp wait for has come: value `v` at its home, with the core's older plain entries over it, but none of the
warp's own later ones. A fill that fails gives no lane any data, and its cause is taken at the next bundle (R154, R155, R384; log 76). -/
def State.serveWarp (s : State) (c k : Nat) (p : Pa) (es : List FifoEntry) (v : Nat) (e : Option Nat) (w : Warp) : Warp :=
  let mine := fun (x : Landing) => x.want.any (fun q => q.2.line = p) && !s.acquireOpen c k x.seq
  match e with
  | none =>
    let line := fun (x : Landing) =>
      forwarded (es.filter fun e => !(e.slot = k && decide (x.seq < e.wseq) && (s.core c).kin k x.seq e.wseq)) p 128 v
    { w with flight := w.flight.map fun x => if mine x then x.serve p fun q n => line x / 256 ^ (q.addr % 128) % 256 ^ n else x }
  | some cause =>
    let bad := w.flight.filter mine
    { w with
      flight := w.flight.filter fun x => !(decide (0 < x.wn) && bad.any fun y => y.seq = x.seq)
      deferred := w.deferred ++ (bad.take 1).map fun x => ⟨cause, 1, x.addr, x.seq, w.tick, 0⟩ }

/-- A fill ends with the line's value at its home, or with the cause it met: the landings that wait for it are served, and a line still asked for is
installed with this core's plain entries over it. The line filled longest ago makes room (log 12). -/
def State.endFill (s : State) (c : Nat) (p : Pa) (v : Nat) (e : Option Nat) : State :=
  let es := (s.core c).fifo.filter fun e => e.line = p
  s.modCore c fun y =>
    let x : CoreSt := { y with warps := y.warps.map fun (q : Nat × Warp) => (q.1, s.serveWarp c q.1 p es v e q.2) }
    if x.l1want.contains p then
      { x with l1want := x.l1want.filter fun q => q ≠ p, l1 := (⟨p, forwarded es p 128 v, e⟩ :: x.l1.filter fun l => l.pa ≠ p).take x.l1Lines }
    else x

/-- L1_FILL (R154): the line is read at its home; a fill that fails keeps its cause. A line asked for before an invalidation serves the landings
that wait for it and is not installed (R155). -/
def doL1Fill (c line : Nat) (s : State) : State :=
  match s.wanted? c line with
  | none => s
  | some p => let (v, e, s) := s.homeGet p 128 4 (352 + c); s.endFill c p v e
/-- L1_FILL (R154). -/
def execL1Fill (c line : Nat) (s : State) : Out := event (s.wanted? c line).isSome s (doL1Fill c line s)

/-- The accesses of a walk, which the slices of its entries may log as the walker's (R371 to R373; log 11). -/
def State.logWalk (s : State) (die asid va : Nat) : State :=
  match s.root asid with
  | none => s
  | some tb => if canonical va then (s.walkReads (va % 2 ^ 52) 4 0 tb).foldl (fun s a => s.logAccess a 8 6 (349 + die)) s else s

/-- A walk for any access the page allows, unless the die's TLB has the page: it is kept in the TLBs (R351, R352). -/
def doTlbWalk (c asid view va : Nat) (s : State) : State :=
  let s := s.endWalk c asid view va
  let s' := s.logWalk (dieOf c) asid va
  match s.tlbFind c asid view va with
  | some t => s.learn c t
  | none => match [AccKind.read, .write, .fetch].findSome? fun a => match s.walk (dieOf c) asid view va a true with
    | .ok t => some t
    | .error _ => none with
    | some t => s'.learn c t
    | none => s'
/-- Whether a walk may be made now: it is among the 64 that were asked for first (R352). -/
def canTlbWalk (c asid view va : Nat) (s : State) : Bool := decide ((s.walkQueue c).idxOf (walkKey c asid view va) < walkLimit)
/-- TLB_WALK (R351). -/
def execTlbWalk (c asid view va : Nat) (s : State) : Out := event (canTlbWalk c asid view va s) s (doTlbWalk c asid view va s)

/-! ## The Grinder (R163, R378) -/

/-- The stack of a local address. -/
def State.stackAt (s : State) (pa : Pa) : Option Nat := (s.localAddr pa).map stackOf

/-- The 32-byte blocks of `gred` that an engine has read and not yet sent home. -/
def gredUnits (o : XOp) : List (Nat × CopyUnit) :=
  match o.instr with
  | .gredAdd _ | .gredMin _ | .gredMax _ => (o.units.zipIdx.filter fun p => p.1.data.isSome && !p.1.done && !p.1.bad).map fun p => (p.2, p.1)
  | _ => []

/-- An operation that waits at a Grinder: a FIFO entry, or a block of an engine operation. -/
inductive GrindOp where
  | entry (core : Nat) (e : FifoEntry)
  | block (core op unit : Nat) (u : CopyUnit)
  deriving DecidableEq, Repr

/-- The operations that wait at a stack. -/
def State.grindOps (s : State) (stack : Nat) : List GrindOp :=
  s.cores.flatMap fun p =>
    ((p.2.fifo.filter fun e => e.sent && e.ms && s.stackAt e.line = some stack).map fun e => GrindOp.entry p.1 e) ++
    p.2.xops.flatMap fun o => ((gredUnits o).filter fun q => match q.2.dst with
      | .glob pa _ => s.stackAt pa = some stack
      | _ => false).map fun q => GrindOp.block p.1 o.id q.1 q.2

/-- One element of a `gred` block (R211): the new destination. -/
def gredElem (i : Instr) (ty : Ty) (old x : Nat) : Nat :=
  let fl := fun (f : Fp.Fmt) => match i with
    | .gredAdd _ => (Fp.add f .rne false old x).1
    | .gredMin _ => Fp.minMax f true old x
    | _ => Fp.minMax f false old x
  match ty, i with
  | .f32, _ => fl Fp.f32
  | .bf16, _ => fl Fp.bf16
  | .i32, .gredMin _ => newValue .minI 4 old x 0
  | .i32, .gredMax _ => newValue .maxI 4 old x 0
  | _, .gredMin _ => newValue .minN 4 old x 0
  | _, .gredMax _ => newValue .maxN 4 old x 0
  | _, _ => newValue .add 4 old x 0

/-- The type a `gred` names in GT (R211). -/
def gredTy : Instr → Ty
  | .gredAdd o => gtTy o
  | .gredMin o => gtTy o
  | .gredMax o => gtTy o
  | _ => .i32

/-- A block of a `gred`: each element combined (R211). -/
def gredBlock (i : Instr) (old x : Nat) : Nat :=
  let n := if gredTy i = .bf16 then 16 else 32
  (List.range (256 / n)).foldl (fun v j => v + gredElem i (gredTy i) (old / 2 ^ (n * j) % 2 ^ n) (x / 2 ^ (n * j) % 2 ^ n) * 2 ^ (n * j)) 0

/-- Change an engine operation of a core. -/
def State.modX (s : State) (c id : Nat) (f : XOp → XOp) : State :=
  s.modCore c fun x => { x with xops := x.xops.map fun o => if o.id = id then f o else o }

/-- Change a unit of an engine operation. -/
def XOp.modUnit (o : XOp) (i : Nat) (f : CopyUnit → CopyUnit) : XOp := { o with units := o.units.modify i f }

/-- Perform one operation of a Grinder on one 32-byte block as one step (R378). -/
def doGrinderOperation (stack idx : Nat) (s : State) : State :=
  match (s.grindOps stack)[idx]? with
  | none => s
  | some (.entry c e) => s.performSome c e e.blockRun
  | some (.block c id i u) =>
    match (s.core c).xops.find? (fun o => o.id = id), u.dst, u.data with
    | some o, .glob pa ms, some x =>
      let s := s.modX c id fun o => o.modUnit i fun u => { u with done := true }
      match (s.localAddr pa).bind fun a => s.poisonOf a 32 with
      | some e => s.modX c id fun o => { o with err := match o.err with
          | some y => some y
          | none => some e }
      | none =>
        let old := match s.localAddr pa with
          | some a => s.devGet a 32
          | none => 0
        s.homePut pa 32 (gredBlock o.instr old x) (slotCode ms 3) (2 * c)
    | _, _, _ => s

/-- Whether the copy engine's earlier operations still have to write bytes of a range (R180). -/
def copyPending (x : CoreSt) (o : XOp) (pa : Pa) (n : Nat) : Bool :=
  !o.tile && x.xops.any fun p => !p.tile && decide (p.id < o.id) && p.stage != .performed && p.units.any fun u => !u.done &&
    match u.dst with
    | .glob q _ => q.space = pa.space && overlap q.addr u.m pa.addr n
    | _ => false

/-- Whether an operation of a Grinder may be performed: a block follows its core's earlier entries and copies for its bytes (R180, R256,
R378). -/
def canGrinderOperation (stack idx : Nat) (s : State) : Bool :=
  match (s.grindOps stack)[idx]? with
  | none => false
  | some (.entry c e) => s.laneTurn (s.core c) e
  | some (.block c id _ u) => match u.dst with
    | .glob pa _ => (!(s.core c).fifo.any fun e => decide (e.seq < id) && entryWrites e pa 32) &&
        (s.core c).xops.all fun o => o.id != id || !copyPending (s.core c) o pa 32
    | _ => false
/-- GRINDER_OPERATION (R378). -/
def execGrinderOperation (stack idx : Nat) (s : State) : Out := event (canGrinderOperation stack idx s) s (doGrinderOperation stack idx s)

/-! ## Timeouts of links (R408) -/

/-- A remote place of a space. -/
def State.farIn (s : State) (sp : Space) (pa : Pa) : Bool := pa.space = sp && s.remote pa

/-- Whether a unit of a copy waits for one of some places: to be read there; or, having its data, to be acknowledged by another device (R408). -/
def CopyUnit.waitsAt (u : CopyUnit) (far : Pa → Bool) : Bool :=
  match u.data, u.src, u.dst with
  | none, .glob pa _, _ => far pa
  | some _, _, .glob pa _ => !u.done && pa.space = .pod && far pa
  | _, _, _ => false

/-- A unit that gets no answer: it has no data, or counts as written (R408). -/
def CopyUnit.giveUp (u : CopyUnit) : CopyUnit := if u.data.isNone then { u with data := some 0, bad := true } else { u with done := true, bad := true }

/-- Whether an engine operation waits for an answer of some places: a unit of a copy, or the tile of an `xtile` that is sent (R201, R408). -/
def XOp.waitsAt (o : XOp) (far : Pa → Bool) : Bool :=
  match o.instr with
  | .xtile _ => o.stage = .sent && o.units.any fun u => match u.dst with
    | .glob pa _ => far pa
    | _ => false
  | _ => o.stage = .started && o.units.any fun u => u.waitsAt far

/-- Fail what an operation still waits for: a load's unread lanes, or an engine operation's units, at some places. -/
def failWaiting (c id : Nat) (far : Pa → Bool) (cause : Nat) (s : State) : State :=
  let s' := s.modOp c id fun o =>
    if o.todo.any fun a => far a.pa then { o with todo := o.todo.filter fun a => !far a.pa, err := some (o.err.getD cause) } else o
  s'.modX c id fun o =>
    if !o.waitsAt far then o
    else
      { o with err := some (o.err.getD cause), stage := if o.stage = .sent then .performed else o.stage
               units := o.units.map fun u => if u.waitsAt far then u.giveUp else u }

/-- Whether an operation waits for some places. -/
def waitsFor (c id : Nat) (far : Pa → Bool) (s : State) : Bool :=
  ((s.core c).ops.any fun o => o.id = id && o.todo.any fun a => far a.pa) || (s.core c).xops.any fun o => o.id = id && o.waitsAt far

/-- An L1 fill that is outstanding at some places, by the address of its line (R154, R408). -/
def State.fillAt (s : State) (c line : Nat) (far : Pa → Bool) : Option Pa := (s.wanted? c line).filter far

/-- What gets no data from some places fails: an operation by its number, or an L1 fill by the address of its line (R408). -/
def failAt (c id : Nat) (far : Pa → Bool) (cause : Nat) (s : State) : State :=
  if waitsFor c id far s then failWaiting c id far cause s
  else match s.fillAt c id far with
    | some p => s.endFill c p 0 (some cause)
    | none => s

/-- HOST_TIMEOUT (R408): a host read, of an operation or of an L1 fill, gets no completion; AER notes a completion timeout (R389; its bit is PCI
Express's, log 83). -/
def execHostTimeout (c id : Nat) (s : State) : Out :=
  event (waitsFor c id (s.farIn .host) s || (s.fillAt c id (s.farIn .host)).isSome) s ((failAt c id (s.farIn .host) 0x346 s).modFunc 0 fun x => { x with aer := x.aer ||| 2 ^ 14 })

/-- The entries of an operation that go to another device. -/
def CoreSt.podEntries (x : CoreSt) (id : Nat) : List FifoEntry := x.fifo.filter fun e => e.op = id && e.line.space = .pod

/-- Cycles of the link timeout of 4 ms (R408). -/
def linkCycles : Nat := 9_000_000

/-- Whether the link timeout has passed since a cycle (R408). -/
def State.overdue (s : State) (since : Nat) : Bool := decide (since + linkCycles ≤ s.cycle)

/-- Whether what waits for another device has waited for the link timeout: an operation since its acceptance or its start, an L1 fill while a warp stands
frozen for it (R408; log 76). -/
def State.linkLate (s : State) (c id : Nat) : Bool :=
  let x := s.core c
  (x.ops.any fun o => o.id = id && s.overdue o.since) || (x.xops.any fun o => o.id = id && s.overdue o.begun) ||
    ((!waitsFor c id (s.farIn .pod) s) && x.warps.any fun p => p.2.stop = .l1 && s.overdue p.2.since &&
      p.2.flight.any fun y => y.want.any fun q => q.2.line.addr = id)

/-- LINK_TIMEOUT (R408): reads and fills that got no response fail, and writes that got none count as performed. -/
def doLinkTimeout (c id : Nat) (s : State) : State :=
  let s := if s.linkLate c id then failAt c id (s.farIn .pod) 0x341 s else s
  (((s.core c).podEntries id).filter fun e => s.overdue e.since).foldl (fun s e => (s.postedFail c e 0x341).entryGone c e) s
/-- Whether an operation or a fill has a link timeout (R408). -/
def canLinkTimeout (c id : Nat) (s : State) : Bool :=
  (s.linkLate c id && (waitsFor c id (s.farIn .pod) s || (s.fillAt c id (s.farIn .pod)).isSome)) ||
    ((s.core c).podEntries id).any fun e => s.overdue e.since
/-- LINK_TIMEOUT (R408). -/
def execLinkTimeout (c id : Nat) (s : State) : Out := event (canLinkTimeout c id s) s (doLinkTimeout c id s)

end Sys2Proof.Machine
end

