-- ==== Sys2Proof/Machine/Locks.lean ====
section
/-! DEFINITION. Tile transactions: their timestamps, the lock requests that their lines make of the slices, and the step in which all
lines are closed and the tile is read or written (R198, R263 to R269, R369). -/

namespace Sys2Proof.Machine

/-! ## Engine operations by kind -/

/-- What an X-slot operation does (R177). -/
inductive XKind where
  | copy | multicast | reduce | tld | tst | xtile | drain | tstac | tsave | tload | tzero | sadv | sreset | mma
  deriving DecidableEq, Repr

/-- The kind of an X-slot operation. -/
def XOp.kind (o : XOp) : XKind :=
  match o.instr with
  | .cpm _ => .multicast
  | .gredAdd _ | .gredMin _ | .gredMax _ => .reduce
  | .tld _ => .tld
  | .tst _ => .tst
  | .xtile _ => .xtile
  | .tdrain _ => .drain
  | .tstac _ => .tstac
  | .tsave _ => .tsave
  | .tload _ => .tload
  | .tzero _ => .tzero
  | .sadv _ => .sadv
  | .sreset _ => .sreset
  | i => if (tileTypes i).isSome then .mma else .copy

/-- The requester number of the engine that runs an operation (R264). -/
def XOp.requester (o : XOp) (c : Nat) : Nat := if o.tile then 2 * c + 1 else 2 * c

/-- The scope of a tile transfer. -/
def XOp.scope (o : XOp) : Scope :=
  match o.instr with
  | .tld i | .tst i | .xtile i | .tstac i => i.scope
  | _ => .d

/-- An engine operation of a core. -/
def CoreSt.x? (x : CoreSt) (id : Nat) : Option XOp := x.xops.find? fun o => o.id = id

/-- Record the first cause that an operation meets (R179). -/
def XOp.fail (o : XOp) (e : Option Nat) : XOp := { o with err := match o.err with | some x => some x | none => e }

/-- The bytes of the units of an operation in order, as one number. -/
def unitsImage (us : List CopyUnit) : Nat := us.foldr (fun u v => u.data.getD 0 % 256 ^ u.n + v * 256 ^ u.n) 0

/-- The units with the bytes of an image laid over them in order. -/
def imageUnits (v : Nat) : List CopyUnit → List CopyUnit
  | [] => []
  | u :: us => { u with data := some (v % 256 ^ u.n) } :: imageUnits (v / 256 ^ u.n) us

/-- A trace record about an engine operation (R431, R432). -/
def State.traceX (s : State) (kind c : Nat) (o : XOp) : State :=
  match s.cardOfBlock o.block, (s.block? o.block).bind fun b => FMap.find s.tasks b.task with
  | some d, some t => s.traceRec kind (o.requester c) c d.queue d.seq t.number (encode o.instr % 256)
  | _, _ => s.traceRec kind (o.requester c) c 0 0 0 (encode o.instr % 256)

/-! ## Transactions -/

/-- A transaction by its identity. -/
def State.tx? (s : State) (i : Nat) : Option Tx := s.txs.find? fun t => t.id = i
/-- Change a transaction. -/
def State.modTx (s : State) (i : Nat) (f : Tx → Tx) : State := { s with txs := s.txs.map fun t => if t.id = i then f t else t }

/-- The 128-byte lines that byte ranges of this device's memory touch (R263). -/
def linesOf (ps : List (Pa × Nat)) : List Nat :=
  (ps.flatMap fun p => if p.2 = 0 then [] else
    (List.range ((p.1.addr + p.2 - 1) / 128 + 1 - p.1.addr / 128)).map fun i => p.1.addr / 128 + i).eraseDups

/-- The global pieces of units, as places of this device. -/
def State.globPieces (s : State) (us : List CopyUnit) : List (Pa × Nat) :=
  us.filterMap fun u => match u.src, u.dst with
    | .glob p _, _ => some (s.norm p, u.n)
    | _, .glob p _ => some (s.norm p, u.n)
    | _, _ => none

/-- Open a transaction over byte ranges; its lines ask for locks from cycle `from'` on. -/
def State.openTx (s : State) (req : Nat) (store : Bool) (c op : Nat) (port : Option (Nat × Nat)) (ps : List (Pa × Nat))
    (rows : List (Pa × Nat)) (lens : List Nat) (from' : Nat) : Nat × State :=
  let (i, s) := s.newId
  let ls := (linesOf ps).foldl (fun (m : FMap LockPhase) l => FMap.set m l .wanted) []
  (i, { s with txs := s.txs ++ [{ id := i, ts := 0, req := req, store := store, core := c, op := op, port := port, lines := ls, rows := rows,
                                  attempt := 0, resume := from', lens := lens }] })

/-- The place of a transaction in its requester's order of acceptance (R264). -/
def Tx.order (t : Tx) : Nat := if t.port.isSome then t.id else t.op

/-- Whether a transaction may take its timestamp in this cycle, if it has none: its requester has taken none in it, and none of the
requester's transactions that was accepted first waits for one (R264). -/
def State.mayStamp (s : State) (t : Tx) : Bool :=
  t.stamped || ((match FMap.find s.stamps t.req with
    | some n => decide (n < s.cycle)
    | none => true) &&
    s.txs.all fun u => u.req != t.req || u.stamped || decide (s.cycle < u.resume) || decide (t.order ≤ u.order))

/-- `TileStamp` (R264, R265): taken at the first lock request and kept. -/
def State.stampTx (s : State) (t : Tx) : Tx × State :=
  if t.stamped then (t, s)
  else
    let t := { t with ts := s.clock * 512 + t.req, stamped := true }
    (t, { s.modTx t.id fun _ => t with stamps := FMap.set s.stamps t.req s.cycle })

/-- The transactions with a place on a line's entry, beside one: holders and queued requests (R265, R369). -/
def State.onLine (s : State) (t line : Nat) : List Tx :=
  s.txs.filter fun u => u.id ≠ t && match FMap.find u.lines line with
    | some .granted => true
    | some .queued => true
    | _ => false

/-- The lines of a slice that have an entry (R369). -/
def State.entriesOf (s : State) (slice : Nat) : List Nat :=
  (s.txs.flatMap fun u => (u.lines.filter fun p => p.2 = .granted || p.2 = .queued).map (·.1)).eraseDups.filter fun l =>
    sliceOf (128 * l) = slice

/-- The lines at a slice for which older recorded requesters still wait for capacity: what frees goes to them first (R265). -/
def State.owed (s : State) (t : Tx) (slice : Nat) : List Nat :=
  (s.txs.filter fun u => u.id != t.id && decide (u.ts < t.ts) && (FMap.getD s.starved slice []).contains u.ts).flatMap fun u =>
    (u.lines.filter fun p => sliceOf (128 * p.1) = slice && p.2 != .granted && p.2 != .queued).map (·.1)

/-- Whether a line's entry has a place for a transaction beside those owed to older recorded requesters (R265, R369). -/
def State.queueRoom (s : State) (t : Tx) (line : Nat) : Bool :=
  decide ((s.onLine t.id line).length + ((s.owed t (sliceOf (128 * line))).filter fun l => l = line).length < Config.lockShare)

/-- Whether a slice has capacity for a transaction on a line (R265, R369): a place on the line's entry, or else an entry and a way that may be pinned,
each beside those owed to older recorded requesters. -/
def State.lockRoom (s : State) (t : Tx) (line : Nat) : Bool :=
  let slice := sliceOf (128 * line)
  let es := s.entriesOf slice
  if es.contains line then s.queueRoom t line
  else
    let fresh := (((s.owed t slice).filter fun l => l != line && !es.contains l).eraseDups) ++ es
    decide (fresh.length < Config.lockEntries) && decide ((fresh.filter fun l => l2SetOf l = l2SetOf line).length < Config.pinnableWays)

/-- Release every line of a denied transaction and set its delay (R265). -/
def State.denyTx (s : State) (i : Nat) : State :=
  s.modTx i fun t => { t with lines := t.lines.map fun p => (p.1, .denied), attempt := t.attempt + 1,
                              resume := s.cycle + min (16 * (t.attempt + 1)) 512 }

/-- A lock is granted: logged at its slice (R373). -/
def State.grantLine (s : State) (i line : Nat) : State :=
  match s.tx? i with
  | none => s
  | some t =>
    (s.modTx i fun t => { t with lines := FMap.set t.lines line .granted }).logAccess (128 * line) 128 (if t.store then 8 else 7) t.req

/-- A denial for capacity: the slice records the requester's timestamp (R265). -/
def State.starveTx (s : State) (t : Tx) (line : Nat) : State :=
  let k := sliceOf (128 * line)
  { s with starved := FMap.set s.starved k (t.ts :: (FMap.getD s.starved k []).erase t.ts) }.denyTx t.id

/-- Whether the tiles that a source device committed before at a port leave a tile to be applied: none of them overlaps it (R268, R270). -/
def State.portOrder (s : State) (t : Tx) : Bool :=
  t.port.isNone || s.txs.all fun u => u.port.isNone || decide (t.id ≤ u.id) || u.core != t.core || u.lines.all fun l => (FMap.find t.lines l.1).isNone

/-- Whether a line of a transaction may be requested. -/
def canTileLockRequest (i line : Nat) (s : State) : Bool :=
  match s.tx? i with
  | some t => FMap.find t.lines line = some .wanted && decide (t.resume ≤ s.cycle) && s.mayStamp t && s.portOrder t
  | none => false
/-- `Request` (R265): grant, queue or deny in one step at the slice; a 17th transaction on an entry is the full-table case (R369). -/
def doTileLockRequest (i line : Nat) (s : State) : State :=
  match s.tx? i with
  | none => s
  | some t =>
    let (t, s) := s.stampTx t
    let c := (s.onLine i line).filter fun u => t.store || u.store
    if c = [] then (if s.lockRoom t line then s.grantLine i line else s.starveTx t line)
    else if c.all fun u => decide (t.ts < u.ts) then
      if s.queueRoom t line then s.modTx i fun t => { t with lines := FMap.set t.lines line .queued } else s.starveTx t line
    else if (s.onLine i line).length < Config.lockShare then s.denyTx i
    else s.starveTx t line
/-- TILE_LOCK_REQUEST (R265). -/
def execTileLockRequest (i line : Nat) (s : State) : Out := event (canTileLockRequest i line s) s (doTileLockRequest i line s)

/-- Whether a queued request may be granted: no conflicting holder, and no older queued request before it (R265). -/
def canTileLockGrant (i line : Nat) (s : State) : Bool :=
  match s.tx? i with
  | some t => FMap.find t.lines line = some .queued && (s.onLine i line).all fun u =>
      if FMap.find u.lines line = some .granted then !(t.store || u.store) else decide (t.ts ≤ u.ts)
  | none => false
/-- TILE_LOCK_GRANT (R265). -/
def execTileLockGrant (i line : Nat) (s : State) : Out := event (canTileLockGrant i line s) s (s.grantLine i line)

/-- Whether a denied transaction's delay is over. -/
def canTileLockRetry (i : Nat) (s : State) : Bool :=
  match s.tx? i with
  | some t => (t.lines.any fun p => p.2 = .denied) && decide (t.resume ≤ s.cycle)
  | none => false
/-- TILE_LOCK_RETRY (R265): every line is asked for again. -/
def execTileLockRetry (i : Nat) (s : State) : Out :=
  event (canTileLockRetry i s) s (s.modTx i fun t => { t with lines := t.lines.map fun p => (p.1, .wanted) })

/-! ## Mappings that change (R262) -/

/-- The tile of a transfer in global memory: the access, its first byte, rows, row bytes and stride (R199 to R203). -/
def XOp.tile? (o : XOp) : Option (AccKind × Nat × Nat × Nat × Nat) :=
  let d := o.sa.desc
  match o.instr with
  | .tld _ => some (.read, o.src.toNat, d.rows, d.rb, d.stride)
  | .tst _ | .xtile _ => some (.write, o.dst.toNat, d.rows, d.rb, d.stride)
  | .tstac i => let (m, n, st) := shapeOf o.src.toNat; some (.write, o.dst.toNat, m, rowLen (gtTy i) n, st)
  | _ => none

/-- The units of a tile transfer with their global places translated again. -/
def retile (ps : List (Loc × Nat)) (us : List CopyUnit) : List CopyUnit :=
  (us.zip ps).map fun q => match q.1.src with
    | .glob _ _ => { q.1 with src := q.2.1 }
    | _ => { q.1 with dst := q.2.1 }

/-- One transaction meets a change of its mapping: its reservations go, its pages are translated again and it retries with the timestamp it
has; a translation that fails now becomes the cause of its operation (R179, R262). -/
def State.remapTx1 (s : State) (asid va n : Nat) (t : Tx) : State :=
  match t.port, (s.core t.core).x? t.op with
  | none, some o => match o.tile?, s.warp? t.core o.slot with
    | some (acc, a, rows, rb, st), some w =>
      if (s.ctxOf w.block t.core).1 = asid && overlap (a % 2 ^ 52) (tileSpan rows rb st) (va % 2 ^ 52) n then
        match s.tileFail t.core w acc .tile rows rb st a with
        | some f => (s.modX t.core o.id fun o => o.fail (some f.cause)).modTx t.id fun t => { t with lines := [], resume := s.cycle }
        | none =>
          let us := retile (s.tilePieces t.core w acc rows rb st a) o.units
          let ls := (linesOf (s.globPieces us)).foldl (fun (m : FMap LockPhase) l => FMap.set m l .wanted) []
          (s.modX t.core o.id fun o => { o with units := us }).modTx t.id fun t => { t with lines := ls, resume := s.cycle }
      else s
    | _, _ => s
  | _, _ => s

/-- A shootdown or a flip changes the mapping of a range: every transaction that holds reservations there meets it (R262). A transaction closes
its lines in the step in which it performs, so none is found closed. -/
def State.remapTxs (s : State) (asid va n : Nat) : State := s.txs.foldl (fun s t => s.remapTx1 asid va n t) s

/-! ## Performing -/

/-- Whether earlier FIFO entries of the core leave a byte range to an operation: none that it must follow (R180, R250, R256). -/
def fifoClear (x : CoreSt) (o : XOp) (atomicsOnly : Bool) (pa : Pa) (n : Nat) : Bool :=
  !x.fifo.any fun e => decide (e.seq < o.id) && entryWrites e pa n && (!atomicsOnly || e.kind.isSome)

/-- Whether an engine operation that the core accepted earlier still has to write bytes of a range: a later one's reads see every global
write of the core accepted before it (R256; log 72). -/
def writesPending (x : CoreSt) (o : XOp) (pa : Pa) (n : Nat) : Bool :=
  x.xops.any fun p => decide (p.id < o.id) && p.stage != .performed && p.units.any fun u => !u.done &&
    match u.dst with
    | .glob q _ => q.space = pa.space && overlap q.addr u.m pa.addr n
    | _ => false

/-- Whether an operation may write global bytes now (R180, R256). -/
def writable (x : CoreSt) (o : XOp) (pa : Pa) (n : Nat) : Bool := fifoClear x o false pa n && !copyPending x o pa n

/-- Whether a transaction's operation lets it perform. -/
def txReady (t : Tx) (s : State) : Bool :=
  match t.port with
  | some _ => true
  | none =>
    let x := s.core t.core
    match x.x? t.op with
    | none => false
    | some o =>
      if t.store then (s.globPieces o.units).all fun p => writable x o p.1 p.2
      else x.ringRoom o.sa.n o.sa.desc.len && (s.globPieces o.units).all fun p => fifoClear x o (o.scope = .c) p.1 p.2 && !writesPending x o p.1 p.2

/-- Whether a transaction may perform: every line reserved, so that its lines close (R263). -/
def canTileTransactionPerform (i : Nat) (s : State) : Bool :=
  match s.tx? i with
  | some t => (t.lines.all fun p => p.2 = .granted) && txReady t s
  | none => false

/-- Log an access of several pieces at the slices of their lines (R371, R373). -/
def State.logPieces (s : State) (op req : Nat) (ps : List (Pa × Nat)) : State :=
  ps.foldl (fun s p => s.logAccess p.1.addr p.2 op req) s

/-- Count one event of several pieces that touches an unbacked byte (R248, R387). -/
def State.countOnce (s : State) (ps : List (Pa × Nat)) : State :=
  if ps.any fun p => decide (backed p.1.addr p.2 < p.2) then s.count 16 else s

/-- Read the tile of `tld`: every byte at one instant, and the ring slot reserved (R199); nothing is read for one that has failed. -/
def State.readTile (s : State) (c : Nat) (o : XOp) : State :=
  let es := if o.scope = .c then (s.core c).fifo.filter fun e => e.kind.isNone else []
  let units := if o.err.isSome then [] else o.units
  let r := units.foldl (fun (acc : List CopyUnit × Option Nat × State) u =>
    let (us, e, s) := acc
    match u.src with
    | .glob pa _ =>
      let pa := s.norm pa
      let v := s.devGet pa.addr u.n
      let e' := s.poisonOf pa.addr u.n
      (us ++ [{ u with data := some (forwarded es pa u.n v) }], e.or e', if e'.isSome then s.metPoison pa.addr else s)
    | _ => (us ++ [u], e, s)) ([], none, s)
  let (us, e, s) := r
  let ps := s.globPieces units
  let s := (s.countOnce ps).logPieces 0 (2 * c) ps
  let (p, y) := (s.core c).reserve o.sa.n o.sa.desc.len
  (s.setCore c y).modX c o.id fun o => { (o.fail e) with units := us, stage := .performed, claimA := [p] }

/-- The lines that pieces cover whole (R384). -/
def wholeLines (ps : List (Pa × Nat)) : List Nat :=
  (linesOf ps).filter fun l => (ps.foldl (fun (n : Nat) p =>
    n + (min (p.1.addr + p.2) (128 * l + 128) - max p.1.addr (128 * l))) 0) = 128

/-- Write a tile: every byte at one instant, then the monitors of its lines, each once (R263, R269). -/
def State.writeTile (s : State) (req : Nat) (ps : List (Pa × Nat)) (vals : List Nat) : State :=
  let s := ((ps.zip vals).foldl (fun s p => s.devPut p.1.1.addr p.1.2 p.2) (s.countOnce ps)).logPieces 1 req ps
  let s := (wholeLines ps).foldl (fun s l => s.clearPoison (128 * l) 128) s
  (linesOf ps).foldl (fun s l => s.evalMonitors (128 * l) 128) s

/-- Drop the lines of written pieces from a core's L1 (R155, R180). -/
def State.dropPieces (s : State) (c : Nat) (ps : List (Pa × Nat)) : State :=
  s.dropLines c ((linesOf ps).map fun l => ⟨.hbm, 128 * l⟩)

/-- The end of a transaction: its locks and its recorded timestamp go (R265). -/
def State.closeTx (s : State) (t : Tx) : State :=
  { s with txs := s.txs.filter fun u => u.id ≠ t.id
           starved := (s.starved.map fun p => (p.1, p.2.erase t.ts)).filter fun p => p.2 != [] }

/-- Perform a transaction (R263): close its lines, read or write every byte, release. -/
def doTileTransactionPerform (i : Nat) (s : State) : State :=
  match s.tx? i with
  | none => s
  | some t =>
    let s := s.closeTx t
    match t.port with
    | some _ =>
      let s := s.writeTile t.req ((t.rows.zip t.lens).map fun r => (r.1.1, r.2)) (t.rows.map (·.2))
      { s with replies := s.replies ++ [⟨t.core, 0, t.op⟩] }
    | none =>
      match (s.core t.core).x? t.op with
      | none => s
      | some o =>
        if t.store then
          let ps := s.globPieces o.units
          let s := if o.err.isSome then s else (s.writeTile t.req ps (o.units.map fun u => u.data.getD 0)).dropPieces t.core ps
          s.modX t.core o.id fun o => { o with stage := .performed, tx := none, units := o.units.map fun u => { u with done := true } }
        else (s.readTile t.core o).modX t.core o.id fun o => { o with tx := none }
/-- TILE_TRANSACTION_PERFORM (R263). -/
def execTileTransactionPerform (i : Nat) (s : State) : Out :=
  event (canTileTransactionPerform i s) s (doTileTransactionPerform i s)

end Sys2Proof.Machine
end

