-- ==== Sys2Proof/Machine/Tile.lean ====
section
/-! DEFINITION. The tile engine: its pace, tile multiplication, draining, and the beginning of an operation (R100 to R106, R197,
R202 to R210, R380, R381). -/

namespace Sys2Proof.Machine

/-! ## Elements of tiles and accumulators -/

/-- Element `e` of a tile row held as a number (R46, R89). -/
def tileElem (ty : Ty) (row e : Nat) : Nat :=
  match ty with
  | .bf16 | .f16 => row / 2 ^ (16 * e) % 2 ^ 16
  | .lg6 => row / 2 ^ (6 * e) % 2 ^ 6
  | _ => row / 2 ^ (8 * e) % 2 ^ 8

/-- Row `r` of one side of a multiplication: its elements along K, tile after tile (R206). -/
def State.sideRow (s : State) (b : Nat) (ty : Ty) (d : Desc) (slots : List Nat) (r : Nat) : List Nat :=
  slots.flatMap fun p =>
    let row := s.spGet b (d.slotOff p + r * d.rb) d.rb
    (List.range (rowElems ty d.rb)).map fun e => tileElem ty row e

/-- Row `r` of one side's block scales along K (R193, R207). -/
def State.sideScales (s : State) (b : Nat) (ty : Ty) (d : Desc) (slots : List Nat) (r : Nat) : List Nat :=
  if d.s = 0 then []
  else
    let n := rowElems ty d.rb / d.s
    slots.flatMap fun p => (List.range n).map fun i => s.spGet b (d.scb + p % 64 * d.scs + r * n + i) 1

/-- Whether one side's tiles or scales meet a faulty word (R384). -/
def State.sideFaulty (s : State) (b : Nat) (ty : Ty) (d : Desc) (scaled : Bool) (slots : List Nat) : Bool :=
  slots.any fun p => s.spFaulty b (d.slotOff p) d.tileBytes ||
    (scaled && s.spFaulty b (d.scb + p % 64 * d.scs) (d.rows * (rowElems ty d.rb / d.s)))

/-- The key of an accumulator element. -/
def accKey (tile i j : Nat) : Nat := tile * 4096 + 64 * i + j
/-- An accumulator element (R101). -/
def CoreSt.acc (x : CoreSt) (tile i j : Nat) : Fp.Acc := Fp.Acc.ofBits (FMap.getD x.accs (accKey tile i j) 0)
/-- Write an accumulator element. -/
def CoreSt.setAcc (x : CoreSt) (tile i j : Nat) (a : Fp.Acc) : CoreSt := { x with accs := FMap.put x.accs (accKey tile i j) a.toBits 0 }

/-! ## Multiplication -/

/-- Add the products of two rows to an element in ascending k (R104, R206). -/
def dotPlain (ta tb : Ty) (as bs : List Nat) (a : Fp.Acc) : Fp.Acc × BitVec 8 :=
  (as.zip bs).foldl (fun r p =>
    let (v, e) := Fp.product ta tb p.1 p.2
    let (a, e') := Fp.contribute r.1 v
    (a, r.2 ||| e ||| e')) (a, 0)

/-- The contribution of one scale block (R100, R207). -/
def blockValue (ta tb : Ty) (ps : List (Nat × Nat)) (ea eb : Nat) : Fp.Val × BitVec 8 :=
  let prods := ps.map fun p => Fp.product ta tb p.1 p.2
  let vs := prods.map (·.1)
  let both := vs.any (Fp.isInf false) && vs.any (Fp.isInf true)
  let ev := prods.foldl (fun e p => e ||| p.2) (if both then Fp.evInvalid else 0)
  let v := if ea = 255 ∨ eb = 255 ∨ (vs.any Fp.Val.isNan) then .nan else Fp.sum .rne vs
  (match v with
   | .fin neg m e => .fin neg m (e + ((ea : Int) + eb - 254))
   | v => v, ev)

/-- Add the scaled blocks of two rows to an element in ascending k (R104, R207). -/
def dotScaled (ta tb : Ty) (n : Nat) : List (Nat × Nat) → List (Nat × Nat) → Fp.Acc → Fp.Acc × BitVec 8
  | _, [], a => (a, 0)
  | ps, (ea, eb) :: ss, a =>
    let (v, e) := blockValue ta tb (ps.take n) ea eb
    let (a, e') := Fp.contribute a v
    let (a, e'') := dotScaled ta tb n (ps.drop n) ss a
    (a, e ||| e' ||| e'')

/-- The rows of both sides of a multiplication. -/
structure MmaIn where
  a : List (List Nat)
  b : List (List Nat)
  sa : List (List Nat)
  sb : List (List Nat)
  n : Nat
  deriving DecidableEq, Repr

/-- Multiply into an accumulator (R206, R207): elements outside M × N are unchanged. The events are those of the whole operation, of which the log takes
the lowest class: which class it takes when several contributions raise different ones is the model's choice (DESIGN CHOICE, R108, log 87). -/
def CoreSt.multiply (x : CoreSt) (ta tb : Ty) (scaled : Bool) (tile : Nat) (t : MmaIn) : CoreSt × BitVec 8 :=
  (t.a.zip (t.sa ++ List.replicate t.a.length [])).zipIdx.foldl (fun r p =>
    (t.b.zip (t.sb ++ List.replicate t.b.length [])).zipIdx.foldl (fun r q =>
      let old := r.1.acc tile p.2 q.2
      let (a, e) := if scaled then dotScaled ta tb t.n (p.1.1.zip q.1.1) (p.1.2.zip q.1.2) old else dotPlain ta tb p.1.1 q.1.1 old
      (r.1.setAcc tile p.2 q.2 a, r.2 ||| e)) r) (x, 0)

/-- The accumulator elements of a region that an uncorrectable error struck (R384). -/
def State.badAccs (s : State) (c tile m n : Nat) : List ErrSite :=
  s.faulty.filter fun e => match e with
    | .acc c' t k => c' = c && t = tile && decide (k / 64 < m) && decide (k % 64 < n)
    | _ => false

/-- An operation reads a region of an accumulator: struck elements are reported once to it (R384). -/
def State.readAccs (s : State) (c id tile m n : Nat) : State :=
  let bad := s.badAccs c tile m n
  if bad = [] then s
  else { s with faulty := s.faulty.filter fun e => !bad.contains e }.modX c id fun o => o.fail (some 0x2C5)

/-- The fields of an XT operation. -/
def xtOf : Instr → Option XTOp
  | .tzero o | .sadv o | .sreset o | .tmmaBf16 o | .tmmaF16 o | .tmmaE4m3 o | .tmmaE5m2 o | .tmmaE4m3e5m2 o | .tmmaE5m2e4m3 o | .tmmaI8 o
  | .tmmaN8 o | .tmmaI8n8 o | .tmmaLg6 o | .tmmasE4m3 o | .tmmasE5m2 o | .tmmasE4m3e5m2 o | .tmmasE5m2e4m3 o | .tmmasI8 o
  | .tmmasLg6 o => some o
  | _ => none

/-- The fields of an XC operation. -/
def xcOf : Instr → Option XCOp
  | .cpa o | .cpb o | .cp2d o | .cpm o | .tld o | .tst o | .tstac o | .tdrain o | .tsave o | .tload o | .gredAdd o | .gredMin o | .gredMax o
  | .xtile o => some o
  | _ => none

/-- How many tiles a multiplication takes of one stream: K / E (R205). -/
def mmaTiles (o : XOp) : Nat :=
  match tileTypes o.instr, xtOf o.instr with
  | some (ta, _, _), some i => tileK i ta / rowElems ta o.sa.desc.rb
  | _, _ => 0

/-- Whether the tiles a multiplication waits for are present (R206). -/
def mmaReady (x : CoreSt) (o : XOp) : Bool :=
  let c := mmaTiles o
  let a := x.present o.sa.n o.sa.desc.len
  if o.sa.n = o.sb.n then decide (2 * c ≤ a) else decide (c ≤ a) && decide (c ≤ x.present o.sb.n o.sb.desc.len)

/-- The tile engine's reads of the tiles of a stream while EN is 1: the spec does not say in which cycle which word is read, so the cycles that its
accesses wait in each bank they touch are free values (R362; log 81). -/
def State.streamBanks (s : State) (c q : Nat) (d : Desc) (ps : List Nat) : State :=
  if !(s.core c).bank.en then s
  else
    let ws := ps.flatMap fun p => spWords d.tileBytes [(0, d.slotOff p)]
    ((ws.map (· % 128)).eraseDups).foldl (fun s b =>
      let (v, s) := s.freeVal
      s.modCore c fun x =>
        let x := x.takeSnapshot s.cycle
        { x with counters := FMap.put x.counters (128 * q + b) (min (2 ^ 32 - 1) (FMap.getD x.counters (128 * q + b) 0 + v)) 0 }) s

/-- The 16-byte words of one side's scale bytes (R193). -/
def scaleWords (ty : Ty) (d : Desc) (ps : List Nat) : List Nat :=
  if d.s = 0 then [] else ps.flatMap fun p => spWords (d.rows * (rowElems ty d.rb / d.s)) [(0, d.scb + p % 64 * d.scs)]

/-- A multiplication begins, its scale bytes read in its first fill cycle (R207, R362): it claims its tiles and adds every product; tiles or scales that cannot be read contribute nothing
(R206, R207, R384). -/
def beginMma (c : Nat) (o : XOp) (s : State) : State :=
  match tileTypes o.instr, xtOf o.instr with
  | some (ta, tb, scaled), some i =>
    let n := mmaTiles o
    let (pa, x) := (s.core c).claim o.sa.n o.sa.desc.len n
    let (pb, x) := x.claim o.sb.n o.sb.desc.len n
    let s := (s.setCore c x).modX c o.id fun o => { o with claimA := pa, claimB := pb }
    let da := o.sa.desc
    let db := o.sb.desc
    let s := if scaled then s.bankCount c 5 (scaleWords ta da pa ++ scaleWords tb db pb).eraseDups else s
    if s.sideFaulty o.block ta da scaled pa || s.sideFaulty o.block tb db scaled pb then s.modX c o.id fun o => o.fail (some 0x2C3)
    else
      let s := s.readAccs c o.id i.acc.val (tileM i) (tileN i)
      let t : MmaIn :=
        { a := (List.range (tileM i)).map fun r => s.sideRow o.block ta da pa r
          b := (List.range (tileN i)).map fun r => s.sideRow o.block tb db pb r
          sa := if scaled then (List.range (tileM i)).map fun r => s.sideScales o.block ta da pa r else []
          sb := if scaled then (List.range (tileN i)).map fun r => s.sideScales o.block tb db pb r else []
          n := da.s }
      let (x, ev) := (s.core c).multiply ta tb scaled i.acc.val t
      let s := (s.setCore c x).modX c o.id fun o => { o with evs := ev }
      (s.streamBanks c 5 da pa).streamBanks c 6 db pb
  | _, _ => s

/-! ## Draining -/

/-- The bits of an element of a type. -/
def tyBits : Ty → Nat
  | .lg6 => 6
  | .bf16 | .f16 | .i16 | .n16 => 16
  | .i8 | .n8 | .e4m3 | .e5m2 => 8
  | _ => 32

/-- One row of an accumulator converted (R106, R202): its bits, and the events. -/
def drainRow (x : CoreSt) (tile i n : Nat) (ty : Ty) (rm : RM) : Nat × BitVec 8 :=
  (List.range n).foldl (fun r (j : Nat) =>
    let (v, e) := Fp.toTy ty rm .none (x.acc tile i j).val
    (r.1 + v % 2 ^ tyBits ty * 2 ^ (tyBits ty * j), r.2 ||| e)) (0, 0)

/-- A drain begins: it reads and converts its region (R203). `units` of `tdrain` are one for each row, those of `tstac` its pieces. -/
def beginDrain (c : Nat) (o : XOp) (s : State) : State :=
  match xcOf o.instr with
  | none => s
  | some i =>
    let (m, n, d) := shapeOf o.src.toNat
    let ty := gtTy i
    let s := s.readAccs c o.id (llAcc i) m n
    let rows := (List.range m).map fun r => drainRow (s.core c) (llAcc i) r n ty (llRm i)
    let ev := rows.foldl (fun e r => e ||| r.2) (0 : BitVec 8)
    let len := rowLen ty n
    let img := rows.foldr (fun r v => r.1 + v * 256 ^ len) 0
    let us := if o.kind = .drain then
        rows.zipIdx.map fun p => { src := .nowhere, dst := .sp o.block (o.dst.toNat + p.2 * d), n := len, m := len, data := some p.1.1,
                                   done := false : CopyUnit }
      else imageUnits img o.units
    s.modX c o.id fun o => { o with units := us, evs := ev }

/-- `tsave` begins: it reads every element (R204). -/
def beginSave (c : Nat) (o : XOp) (s : State) : State :=
  match xcOf o.instr with
  | none => s
  | some i =>
    let s := s.readAccs c o.id (llAcc i) 64 64
    let x := s.core c
    s.modX c o.id fun o => { o with units := o.units.zipIdx.map fun p =>
      { p.1 with data := some (FMap.getD x.accs (llAcc i * 4096 + p.2) 0).toNat } }

/-! ## Pace -/

/-- The streaming cycles of work counted in quarters of a step, from a ramp level and the cycles done at it (R208, R209): level, cycles
done at it, cycles taken. -/
def streamRun : Nat → Nat → Nat → Nat → Nat × Nat × Nat
  | 0, level, at', work => (level, at', ceilDiv work 4)
  | n + 1, level, at', work =>
    if 4 ≤ level then (4, 0, ceilDiv work 4)
    else
      let (level', at'') := if at' = 3 then (level + 1, 0) else (level, at' + 1)
      if work ≤ level then (level', at'', 1)
      else let r := streamRun n level' at'' (work - level); (r.1, r.2.1, r.2.2 + 1)

/-- Whether the conditions of the operation at the head of the tile-engine queue hold (R206, R210). -/
def headReady (x : CoreSt) (o : XOp) : Bool :=
  match o.kind with
  | .mma => mmaReady x o
  | .sadv => match xtOf o.instr with
    | some i => decide (i.kst.val + 1 ≤ x.present o.sa.n o.sa.desc.len)
    | none => false
  | .sreset => let w := (x.strm o.sa.n 2).toNat; ptrFree w = ptrHead w && ptrRsv w = ptrTail w
  | _ => true

/-- The head of the tile-engine queue. -/
def CoreSt.tileHead (x : CoreSt) : Option XOp := x.xops.find? fun o => o.tile && o.stage = .queued

/-- Whether the head operation may begin: the engine is granted, and earlier operations have contributed (R203, R204). -/
def canTileFillBegin (c : Nat) (s : State) : Bool :=
  let x := s.core c
  match x.tileHead, x.ramp with
  | some o, .moving _ _ _ => headReady x o && !x.xops.any fun p => p.stage != .queued && p.kind = .tload
  | _, _ => false

/-- What an operation does as it begins. -/
def beginEffect (c : Nat) (o : XOp) (s : State) : State :=
  match o.kind with
  | .mma => beginMma c o s
  | .drain | .tstac => beginDrain c o s
  | .tsave => beginSave c o s
  | .tzero => match xtOf o.instr with
    | some i =>
      let lo := i.acc.val * 4096
      { s with faulty := s.faulty.filter fun e => match e with
          | .acc c' t _ => !(c' = c && t = i.acc.val)
          | _ => true }.modCore c fun x =>
        { x with accs := x.accs.filter fun p => decide (p.1 < lo) || decide (lo + 4096 ≤ p.1) }
    | none => s
  | .sadv => match xtOf o.instr with
    | some i => s.modCore c fun x => let (ps, x) := x.claim o.sa.n o.sa.desc.len (i.kst.val + 1); x.release o.sa.n o.sa.desc.len ps
    | none => s
  | .sreset => s.modCore c fun x => { x with released := x.released.filter fun p => p.1 ≠ o.sa.n }.setStrm o.sa.n 2 0
  | _ => s

/-- The head operation begins its fill, which takes the 8 cycles after this one: it streams from the cycle after them, or after the last streaming cycle
of the operation before it, and is over 4 cycles after its own last one; `tstac` asks for its locks then (R206 to R209, R454). -/
def doTileFillBegin (c : Nat) (s : State) : State :=
  match (s.core c).tileHead, (s.core c).ramp with
  | some o, .moving level at' last =>
    let (level, at', n) := streamRun 12 level at' (4 * o.steps)
    let fin' := max (s.cycle + 9) (last + 1) + n - 1
    let s := s.modCore c fun x => { x with ramp := .moving level at' fin' }
    let s := s.modX c o.id fun o => { o with stage := .started, begun := s.cycle, finish := fin' + 4 }
    let s := (beginEffect c o s).traceX 5 c o
    match o.kind, (s.core c).x? o.id with
    | .tstac, some o =>
      let (t, s) := s.openTx (2 * c + 1) true c o.id none (s.globPieces o.units) [] [] (fin' + 4)
      s.modX c o.id fun o => { o with tx := some t }
    | _, _ => s
  | _, _ => s
/-- TILE_FILL_BEGIN (R206). -/
def execTileFillBegin (c : Nat) (s : State) : Out := event (canTileFillBegin c s) s (doTileFillBegin c s)

/-! ## Starts (R380, R381) -/

/-- The cycle in which an engine asked for its grant. -/
def Ramp.asked : Ramp → Option Nat
  | .requested r => some r
  | _ => none

/-- A core's place in its Tamper's order (R380). -/
def State.tamperOrder (s : State) (c : Nat) : Nat := (c % 8 + 8 - FMap.getD s.tampers (clusterOf c) 0 % 8) % 8

/-- Whether a request of another core of the cluster goes first. -/
def State.tamperFirst (s : State) (c r : Nat) : Bool :=
  (List.range 8).all fun i =>
    let d := clusterOf c * 8 + i
    match (s.core d).ramp.asked with
    | some q => d = c || earlier r (s.tamperOrder c) q (s.tamperOrder d)
    | none => true

/-- The grants its window has made. -/
def State.windowGrants (s : State) (k : Nat) : Nat :=
  let (w, n) := FMap.getD s.grants k (0, 0)
  if w = s.clock / 4 then n else 0

/-- Whether a Tamper may grant a start now (R380). -/
def canTamperGrant (c : Nat) (s : State) : Bool :=
  match (s.core c).ramp.asked with
  | some r => decide (s.windowGrants (clusterOf c) < 2) && s.tamperFirst c r
  | none => false
/-- TAMPER_GRANT (R380): the engine fills, and will stream from the lowest rate. -/
def execTamperGrant (c : Nat) (s : State) : Out :=
  event (canTamperGrant c s) s
    ({ s with grants := FMap.set s.grants (clusterOf c) (s.clock / 4, s.windowGrants (clusterOf c) + 1) }.modCore c fun x =>
      { x with ramp := .moving 1 0 s.cycle })

/-- Whether an engine's filler is over (R381). -/
def canEngineIdle (c : Nat) (s : State) : Bool :=
  match (s.core c).ramp with
  | .filler _ _ _ empty => decide (empty + fillerCycles < s.cycle)
  | _ => false
/-- ENGINE_IDLE (R381). -/
def execEngineIdle (c : Nat) (s : State) : Out := event (canEngineIdle c s) s (s.modCore c fun x => { x with ramp := .idle })

end Sys2Proof.Machine
end

