-- ==== Sys2Proof/Machine/Engine.lean ====
section
/-! DEFINITION. The copy engine, multicasts, and the completion of every X-slot operation (R179 to R181, R187 to R191, R197, R199 to
R204, R211, R256, R384). -/

namespace Sys2Proof.Machine

/-! ## Banks (R361, R362) -/

/-- The 16-byte words of scratchpad byte ranges. -/
def rangeWords (xs : List (Nat × Nat)) : List Nat := (xs.flatMap fun p => spWords p.2 [(0, p.1)]).eraseDups

/-- One scratchpad step of an engine of core `c` as requester `q`, on byte ranges of a block: the words it touches hold their banks (R361). -/
def State.engineStep (s : State) (c q : Nat) (xs : List (Nat × Nat)) : State := s.bankCount c q (rangeWords xs)

/-- The first cycle after the step that last touched these byte ranges: it lasts as long as its most-used bank (R361). -/
def State.heldUntil (s : State) (c : Nat) (xs : List (Nat × Nat)) : Nat :=
  ((rangeWords xs).map fun x => FMap.getD (s.core c).held (x % 128) 0).foldl max s.cycle

/-! ## Starting -/

/-- Whether an operation waits in its queue, with none of its work begun. -/
def XOp.waiting (o : XOp) : Bool := o.stage = .queued && o.tx.isNone

/-- The stream that a copy-queue operation names. -/
def XOp.stream? (o : XOp) : Option Nat :=
  match o.kind with
  | .tld | .tst | .xtile => some o.sa.n
  | _ => none

/-- Whether a tile store takes its tile from the ring (R200). -/
def XOp.ringSource (o : XOp) : Bool :=
  match o.instr with
  | .tst i | .xtile i => !fromSp i
  | _ => false

/-- Whether an operation waits on a ring (R180): a push to a full ring, or one whose place an earlier push has still to take, or a
consumer of an empty one. -/
def ringWaits (x : CoreSt) (o : XOp) : Bool :=
  match o.kind with
  | .tld => !x.ringRoom o.sa.n o.sa.desc.len || x.xops.any fun p => p.kind = .tld && p.sa.n = o.sa.n && p.tx.isSome
  | _ => o.ringSource && x.present o.sa.n o.sa.desc.len = 0

/-- Whether a gang of a block is partly saved: a multicast to it waits for the whole gang to resume (R190, R345). -/
def State.gangSaved (s : State) (b : Nat) : Bool := match (s.block? b).bind fun x => FMap.find s.tasks x.task with
  | some t => t.saved != []
  | none => false

/-- Whether the copy engine may start an operation: those before it have started, or wait on rings of other streams (R180). -/
def canCopyStart (c id : Nat) (s : State) : Bool :=
  let x := s.core c
  match x.x? id with
  | none => false
  | some o =>
    !o.tile && o.waiting && o.units != [] && !ringWaits x o && !(o.kind = .multicast && s.gangSaved o.block) &&
    x.xops.all fun p => p.tile || !p.waiting || p.units = [] || decide (id ≤ p.id) || (ringWaits x p && p.stream? != o.stream?)

/-- Take the source of a tile store: the tile at the head of the ring, or scratchpad bytes, read in one step (R200). -/
def State.takeTile (s : State) (c : Nat) (o : XOp) : State :=
  let d := o.sa.desc
  let (ps, x) := if o.ringSource then (s.core c).claim o.sa.n d.len 1 else ([], s.core c)
  let s := s.setCore c x
  let off := match ps with
    | p :: _ => d.slotOff p
    | [] => o.src.toNat
  if s.spFaulty o.block off d.tileBytes then
    s.modX c o.id fun o => { o.fail (some 0x2C3) with claimA := ps, stage := .performed }
  else
    let img := s.spGet o.block off d.tileBytes
    let s := s.engineStep c 7 [(off, d.tileBytes)]
    let till := s.heldUntil c [(off, d.tileBytes)]
    let s := s.modX c o.id fun o => { o with claimA := ps, stage := .started, begun := s.cycle, finish := till, units := imageUnits img o.units }
    if o.units.any fun u => match u.dst with | .glob p _ => s.remote p | _ => true then s
    else
      let (t, s) := s.openTx (2 * c) true c o.id none (s.globPieces o.units) [] [] till
      s.modX c o.id fun o => { o with tx := some t }

/-- Start an operation of the copy queue. -/
def doCopyStart (c id : Nat) (s : State) : State :=
  match (s.core c).x? id with
  | none => s
  | some o =>
    let s := s.traceX 5 c o
    match o.kind with
    | .tld =>
      let (t, s) := s.openTx (2 * c) false c id none (s.globPieces o.units) [] [] s.cycle
      s.modX c id fun o => { o with tx := some t, begun := s.cycle }
    | .tst | .xtile => s.takeTile c o
    | _ => s.modX c id fun o => { o with stage := .started, begun := s.cycle }
/-- COPY_START (R180). -/
def execCopyStart (c id : Nat) (s : State) : Out := event (canCopyStart c id s) s (doCopyStart c id s)

/-! ## The steps of a copy -/

/-- Whether a unit has still to be read. -/
def CopyUnit.unread (u : CopyUnit) : Bool := u.data.isNone && u.src != .nowhere
/-- Whether a unit has still to be written. -/
def CopyUnit.unwritten (u : CopyUnit) : Bool := !u.done && u.dst != .nowhere

/-- Read a unit: its data, and the cause its source meets (R180, R384). -/
def readUnit (c id i : Nat) (s : State) : State :=
  match (s.core c).x? id with
  | none => s
  | some o => match o.units[i]? with
    | none => s
    | some u =>
      let put := fun (s : State) (v : Nat) (e : Option Nat) =>
        s.modX c id fun o => (o.fail e).modUnit i fun u => { u with data := some v, bad := e.isSome }
      match u.src with
      | .sp b off => put s (s.spGet b off u.n) (if s.spFaulty b off u.n then some 0x2C3 else none)
      | .glob pa ms =>
        let es := (s.core c).fifo.filter fun e => e.kind.isNone
        let (v, e, s) := s.homeGet pa u.n (slotCode ms 0) (o.requester c)
        put s (forwarded es pa u.n v) e
      | .acc t k => put s (FMap.getD (s.core c).accs (t * 4096 + k) 0).toNat none
      | .nowhere => s

/-- Whether a unit may be read now: no earlier atomic or engine operation of the core still has to write its bytes (R180, R256). -/
def unitReadable (x : CoreSt) (o : XOp) (u : CopyUnit) : Bool :=
  match u.src with
  | .glob pa _ => fifoClear x o true pa u.n && !writesPending x o pa u.n
  | _ => true

/-- Whether a unit may be written now (R180, R256). -/
def unitWritable (x : CoreSt) (o : XOp) (u : CopyUnit) : Bool :=
  match u.dst with
  | .glob pa _ => writable x o pa u.m
  | _ => true

/-- The global reads of the `cpa` lane that ends at unit `i` (R187). -/
def laneReads (us : List CopyUnit) (i : Nat) : List CopyUnit := ((us.take i).reverse.takeWhile fun u => u.dst = .nowhere).reverse

/-- The 16-byte units of a `cpa` lane that may be written, with zeros after its valid bytes (R187, R384). -/
def laneUnits (us : List CopyUnit) (i : Nat) : List (Nat × Nat) :=
  let rs := laneReads us i
  let img := unitsImage rs
  let bad := fun (j : Nat) => (rs.foldl (fun (r : Nat × Bool) u =>
    (r.1 + u.n, r.2 || (u.bad && overlap r.1 u.n (16 * j) 16))) (0, false)).2
  ((List.range 2).filter fun j => !bad j).map fun j => (j, img / 256 ^ (16 * j) % 256 ^ 16)

/-- The pieces that a copy has written. -/
def writtenPieces (us : List CopyUnit) : List (Pa × Nat) :=
  us.filterMap fun u => match u.dst with
    | .glob p _ => if u.done && !u.bad then some (p, u.m) else none
    | _ => none

/-- A copy that has written the whole of a poisoned line of this device clears its poison (R384; log 30). -/
def State.clearCopied (s : State) (c id : Nat) (pa : Pa) : State :=
  match s.localAddr pa, (s.core c).x? id with
  | some a, some o =>
    let whole := wholeLines (((writtenPieces o.units).filter fun p => p.1.line = pa.line).map fun p => (s.norm p.1, p.2))
    if (FMap.find s.poison (a / 128)).isSome && whole.contains (a / 128) then s.clearPoison (a / 128 * 128) 128 else s
  | _, _ => s

/-- Write a unit (R180): a scratchpad step, a global event or an accumulator element. -/
def writeUnit (c id i : Nat) (s : State) : State :=
  match (s.core c).x? id with
  | none => s
  | some o => match o.units[i]? with
    | none => s
    | some u =>
      let s := s.modX c id fun o => o.modUnit i fun u => { u with done := true }
      let v := u.data.getD 0
      match u.dst with
      | .sp b off =>
        if u.src = .nowhere && u.data.isNone then (laneUnits o.units i).foldl (fun s p => s.spPut b (off + 16 * p.1) 16 p.2) s
        else if u.bad then s
        else s.spPut b off u.m v
      | .glob pa ms =>
        if u.bad then s
        else match s.linkCause pa with
          | some e => s.modX c id fun o => o.fail (some e)
          | none =>
            let s := ((s.dropLines c [pa.line]).homePut pa u.m v (slotCode ms 1) (o.requester c)).clearCopied c id pa
            if pa.space = .pod then
              let (e, s) := s.linkReply pa
              s.modX c id fun o => o.fail e
            else s
      | .acc t k => if u.bad then s else s.modCore c fun x => { x with accs := FMap.put x.accs (t * 4096 + k) (BitVec.ofNat 128 v) 0 }
      | .nowhere => s

/-- How many scratchpad bytes the units written have received (R181). -/
def spBytes (us : List CopyUnit) : Nat :=
  us.zipIdx.foldl (fun (n : Nat) p => n + match p.1.dst with
    | .sp _ _ => if !p.1.done then 0 else if p.1.src = .nowhere && p.1.data.isNone then 16 * (laneUnits us p.2).length
                 else if p.1.bad then 0 else p.1.m
    | _ => 0) 0

/-- The arrival update, in the step of the last scratchpad byte (R181), an access of row 4 of its own (R361, R362); none when no byte was written
(R384). -/
def State.arriveX (s : State) (b : Nat) (arrive : Option Nat) (n : Nat) : State :=
  match arrive, s.block? b with
  | some off, some x => if n = 0 then s else (s.engineStep x.core 4 [(off, 16)]).arriveUpdate b off n
  | _, _ => s

/-- The units that one scratchpad step covers, beside unit `i`: every one of that side, but for the lanes of `cpa` (R187, R248). -/
def stepUnits (o : XOp) (i : Nat) (write : Bool) : List Nat :=
  let isSp := fun (l : Loc) => match l with
    | .sp _ _ => true
    | _ => false
  match o.instr, o.units[i]? with
  | .cpa _, _ => [i]
  | _, some u =>
    if isSp (if write then u.dst else u.src) then (List.range o.units.length) else [i]
  | _, none => []

/-- Read unit `i`, with its whole side when that is scratchpad. -/
def stepRead (c id i : Nat) (s : State) : State :=
  match (s.core c).x? id with
  | none => s
  | some o =>
    let is := stepUnits o i false
    let sides := is.filterMap fun j => (o.units[j]?).bind fun u => match u.src with
      | .sp _ off => some (off, u.n)
      | _ => none
    is.foldl (fun s j => readUnit c id j s) (if sides = [] then s else s.engineStep c 4 sides)

/-- Write unit `i`, with its whole side when that is scratchpad, and the arrival update after the last of them. -/
def stepWrite (c id i : Nat) (s : State) : State :=
  match (s.core c).x? id with
  | none => s
  | some o =>
    let is := stepUnits o i true
    let sides := is.filterMap fun j => (o.units[j]?).bind fun u => match u.dst with
      | .sp _ off => if u.bad then none else some (off, u.m)
      | _ => none
    let s := is.foldl (fun s j => writeUnit c id j s) (if sides = [] then s else s.engineStep c 4 sides)
    match (s.core c).x? id, (o.units[i]?).map CopyUnit.dst with
    | some o, some (.sp _ _) => if o.units.any CopyUnit.unwritten then s else s.arriveX o.block o.arrive (spBytes o.units)
    | _, _ => s

/-- The lane of `cpa`, among its active ones, that unit `i` belongs to: each ends with its scratchpad write (R187, R248). -/
def laneOf (us : List CopyUnit) (i : Nat) : Nat := ((us.take i).filter fun u => u.src = .nowhere).length

/-- Whether no lower lane of a `cpa` still has to read at the home of unit `i`: at one home the lanes go in ascending order (R252). -/
def State.laneFirst (s : State) (o : XOp) (i : Nat) : Bool :=
  match o.instr, (o.units[i]?).map CopyUnit.src with
  | .cpa _, some (.glob p m) => o.units.zipIdx.all fun q => !q.1.unread || decide (laneOf o.units i ≤ laneOf o.units q.2) || match q.1.src with
      | .glob p' m' => s.homeOf p' m' != s.homeOf p m
      | _ => true
  | _, _ => true

/-- Whether unit `i` may take its next step: its read; or, after the reads it depends on, its write. -/
def canStep (x : CoreSt) (o : XOp) (i : Nat) : Bool :=
  match o.units[i]? with
  | none => false
  | some u =>
    if u.unread then unitReadable x o u
    else
      let before := match o.instr with
        | .cpa _ => o.units.take i
        | _ => o.units
      u.unwritten && unitWritable x o u && (before.all fun v => !v.unread) &&
        (match o.instr with
         | .cpa _ => before.all fun v => !v.unwritten
         | _ => true) &&
        (match o.kind with
         | .copy => true
         | .tsave => true
         | _ => false)

/-- Whether an operation moves units one by one. -/
def XOp.byUnits (o : XOp) : Bool :=
  match o.kind with
  | .copy | .multicast | .reduce | .tsave | .tload => true
  | _ => false

/-- One step of an operation. -/
def doStep (c id i : Nat) (s : State) : State :=
  match ((s.core c).x? id).bind fun o => o.units[i]? with
  | some u => if u.unread then stepRead c id i s else stepWrite c id i s
  | none => s

/-! ## Completion -/

/-- Take every unit through the steps it has left. -/
def restSteps (c id : Nat) (s : State) : State :=
  match (s.core c).x? id with
  | none => s
  | some o =>
    let is := List.range o.units.length
    let s := is.foldl (fun s i => match ((s.core c).x? id).bind fun o => o.units[i]? with
      | some u => if u.unread then stepRead c id i s else s
      | none => s) s
    is.foldl (fun s i => match ((s.core c).x? id).bind fun o => o.units[i]? with
      | some u => if u.unwritten then stepWrite c id i s else s
      | none => s) s

/-- Whether every step left to an operation may be taken now. -/
def restReady (x : CoreSt) (o : XOp) : Bool :=
  o.units.all fun u => (!u.unread || unitReadable x o u) && (!u.unwritten || unitWritable x o u)

/-- Whether a push is the oldest that its stream has not counted (R197). -/
def pushFirst (x : CoreSt) (o : XOp) : Bool := o.claimA = [ptrTail (x.strm o.sa.n 2).toNat]

/-- Whether an operation may complete (R179, R188, R190, R199 to R204, R208, R211). -/
def canFinish (c : Nat) (o : XOp) (s : State) : Bool :=
  let x := s.core c
  if !o.tile && o.units = [] then o.stage = .queued && decide (o.finish < s.cycle)
  else match o.kind with
    | .copy => o.stage = .started && restReady x o
    | .multicast => o.stage = .started && o.ranks = [] && restReady x o
    | .reduce => o.stage = .started && o.units.all fun u => u.done || u.bad
    | .tld => pushFirst x o && ((o.stage = .performed && o.err.isSome) || (o.stage = .written && decide (o.finish ≤ s.cycle)))
    | .tst => o.stage = .performed
    | .xtile => o.stage = .performed || o.stage = .sent
    | .drain => o.stage = .written && decide (o.finish ≤ s.cycle)
    | .tstac => o.stage = .performed && decide (o.finish ≤ s.cycle)
    | .tsave => o.stage = .started && decide (o.finish ≤ s.cycle) && restReady x o
    | .tload => o.stage = .started && decide (o.finish ≤ s.cycle) && restReady x o
    | _ => o.stage = .started && decide (o.finish ≤ s.cycle)

/-- The place that the tile of an operation begins at. -/
def XOp.dstPa (o : XOp) : Option Pa := match o.units.map CopyUnit.dst with
  | .glob pa _ :: _ => some pa
  | _ => none

/-- Send the tile of `xtile` to its owner: its rows, then the message that commits it (R201, R406); every written line leaves the L1 of the core (R155,
R180). With no port up, nothing leaves (R405). -/
def State.sendTile (s : State) (c : Nat) (o : XOp) : State :=
  match o.dstPa with
  | none => s.modX c o.id fun o => { o with stage := .performed }
  | some pa =>
    match s.linkCause pa with
    | some e => s.modX c o.id fun o => { o.fail (some e) with stage := .performed }
    | none =>
      let r := o.requester c
      let s := s.dropLines c ((s.globPieces o.units).flatMap fun p => (lineSpans p.1.addr p.2).map fun q => { p.1 with addr := q.1 })
      let s := o.units.foldl (fun s u => match u.dst with
        | .glob p _ => s.sendPod r p (.tileRow o.id) (p.addr % 2 ^ 46) u.n (u.data.getD 0) (2 ^ u.n - 1)
        | _ => s) s
      (s.sendPod r pa (.tileCommit o.id) 0 0 0 0).modX c o.id fun o =>
        { o with stage := .sent, begun := s.cycle, units := o.units.map fun u => { u with done := true } }

/-- Whether the one step that `tld`, `tdrain` and an `xtile` to another device make of their own may be taken: the slot of a ring, or the region of
a drain, is written, or the tile is sent (R180, R201, R361). -/
def canMove (o : XOp) (s : State) (x : CoreSt) : Bool :=
  match o.kind with
  | .tld => o.stage = .performed && o.err.isNone
  | .drain => o.stage = .started && decide (o.finish ≤ s.cycle)
  | .xtile => o.stage = .started && o.tx.isNone && decide (o.finish ≤ s.cycle) && restReady x o
  | _ => false

/-- Write scratchpad as one step of the staging buffer, with its arrival update; the operation goes on when its banks are free again (R181, R361). -/
def State.stagedWrite (s : State) (c q : Nat) (o : XOp) (xs : List (Nat × Nat × Nat)) : State :=
  let sides := xs.map fun p => (p.1, p.2.1)
  let s := xs.foldl (fun s p => s.spPut o.block p.1 p.2.1 p.2.2) (if sides = [] then s else s.engineStep c q sides)
  let s := s.arriveX o.block o.arrive (xs.foldl (fun (n : Nat) p => n + p.2.1) 0)
  let till := s.heldUntil c (sides ++ (o.arrive.map fun a => (a, 16)).toList)
  s.modX c o.id fun o => { o with stage := .written, finish := till }

/-- The step of `canMove`. -/
def moveStep (c : Nat) (o : XOp) (s : State) : State :=
  match o.kind with
  | .tld => s.stagedWrite c 4 o (o.claimA.map fun p => (o.sa.desc.slotOff p, o.sa.desc.tileBytes, unitsImage o.units))
  | .drain => s.stagedWrite c 7 o (o.units.filterMap fun u => match u.dst with
      | .sp _ off => if u.bad then none else some (off, u.m, u.data.getD 0)
      | _ => none)
  | .xtile => s.sendTile c o
  | _ => s

/-- The effect an operation has as it completes. -/
def lastStep (c : Nat) (o : XOp) (s : State) : State :=
  match o.kind with
  | .copy | .multicast | .tsave => restSteps c o.id s
  | .tload =>
    let tile := match xcOf o.instr with
      | some i => llAcc i
      | none => 0
    let s := { s with faulty := s.faulty.filter fun e => match e with
      | .acc c' t _ => !(c' = c && t = tile)
      | _ => true }
    restSteps c o.id s
  | .tld => s.modCore c fun x => x.pushed o.sa.n o.sa.desc.len
  | .xtile =>
    let s := match o.stage, o.dstPa with
      | .sent, some pa => let (e, s) := s.linkReply pa; s.modX c o.id fun o => o.fail e
      | _, _ => s
    s.modCore c fun x => x.release o.sa.n o.sa.desc.len o.claimA
  | .tst => s.modCore c fun x => x.release o.sa.n o.sa.desc.len o.claimA
  | .mma => s.modCore c fun x => (x.release o.sa.n o.sa.desc.len o.claimA).release o.sb.n o.sb.desc.len o.claimB
  | _ => s

/-- An operation is over: its flag falls, its events and its cause wait for the tick that sees it (R108, R179). -/
def State.finishX (s : State) (c id : Nat) : State :=
  match (s.core c).x? id with
  | none => s
  | some o =>
    let s := s.modCore c fun x => ({ x with xops := x.xops.filter fun p => p.id ≠ id } : CoreSt).settleRamp s.cycle
    let s := s.modWarp c o.slot fun w => (w.fallFlag s.cycle o.flag).laterEvent (s.begun c o.slot w) s.cycle o.evs o.addr
    let s := match o.err, s.alive (c, o.slot) with
      | some e, true => s.deferTo c o.slot e 2 o.addr o.wseq s.cycle
      | _, _ => s
    s.traceX 6 c o

/-- Whether an X-slot operation may take a step, or complete. -/
def canXOpComplete (c id : Nat) (part : Option Nat) (s : State) : Bool :=
  match (s.core c).x? id with
  | none => false
  | some o => match part with
    | some i => if o.byUnits then o.stage = .started && canStep (s.core c) o i && s.laneFirst o i else i = 0 && canMove o s (s.core c)
    | none => canFinish c o s
/-- One step of an operation, or every step it has left and its completion. -/
def doXOpComplete (c id : Nat) (part : Option Nat) (s : State) : State :=
  match (s.core c).x? id with
  | none => s
  | some o => match part with
    | some i => if o.byUnits then doStep c id i s else moveStep c o s
    | none => (lastStep c o s).finishX c id
/-- X_OP_COMPLETE (R179). -/
def execXOpComplete (c id : Nat) (part : Option Nat) (s : State) : Out := event (canXOpComplete c id part s) s (doXOpComplete c id part s)

/-! ## Multicast -/

/-- The block of a gang rank in the gang of a block. A rank that no block of the gang has counts as served with nothing written, like one that has exited:
R190 gives the case no fate (DESIGN CHOICE, log 96). -/
def State.rankBlock (s : State) (b rank : Nat) : Option (Nat × Block) :=
  match (s.block? b).bind fun x => FMap.find s.tasks x.task with
  | none => none
  | some t => t.blocks.findSome? fun i => match s.block? i with
    | some y => if y.grank = rank && !s.blockOver y false then some (i, y) else none
    | none => none

/-- Whether a multicast may be delivered to a rank: its bytes are read (R190, R191). -/
def canMulticastDeliver (c id rank : Nat) (s : State) : Bool :=
  match (s.core c).x? id with
  | some o => o.kind = .multicast && o.stage = .started && o.ranks.contains rank && o.units.all fun u => !u.unread
  | none => false
/-- One destination receives the whole multicast and its arrival update in one scratchpad step; the bytes of a block that has exited are
discarded (R190, R271). -/
def doMulticastDeliver (c id rank : Nat) (s : State) : State :=
  match (s.core c).x? id with
  | none => s
  | some o =>
    let s := s.modX c id fun o => { o with ranks := o.ranks.erase rank }
    match s.rankBlock o.block rank with
    | none => s
    | some (b, y) =>
      let s := s.engineStep y.core 4 [(o.dst.toNat, 16 * o.units.length)]
      let good := o.units.zipIdx.filter fun p => !p.1.bad
      let s := good.foldl (fun s p => s.spPut b (o.dst.toNat + 16 * p.2) 16 (p.1.data.getD 0)) s
      s.arriveX b o.arrive (16 * good.length)
/-- MULTICAST_DELIVER (R191). -/
def execMulticastDeliver (c id rank : Nat) (s : State) : Out := event (canMulticastDeliver c id rank s) s (doMulticastDeliver c id rank s)

end Sys2Proof.Machine
end

