-- ==== Sys2Proof/Machine/Cards.lean ====
section
/-! DEFINITION. Queues and job cards: enqueues, admission with its checks, the edges between cards, and dealing (R259, R287 to R301,
R309, R310). -/

namespace Sys2Proof.Machine

/-! ## Accesses of firmware and the scheduler to an address space -/

/-- Write bytes of an address space as firmware or the scheduler does, at their home, under the free number of a command processor (R372; log 79);
none when a page cannot be written. -/
def State.vaPut (s : State) (asid va n v : Nat) : Option State :=
  match s.walk 0 asid 0 va .write true, s.walk 0 asid 0 ((va + (n - 1)) % 2 ^ 64) .write true with
  | .ok t, .ok t' =>
    let size := t.va + t.size - va % 2 ^ 52
    let (x, s) := s.freeVal
    let cp := 338 + x % 8
    if n ≤ size then some (s.homePut (t.paOf va) n v 1 cp)
    else some ((s.homePut (t.paOf va) size (v % 256 ^ size) 1 cp).homePut (t'.paOf (va + size)) (n - size) (v / 256 ^ size) 1 cp)
  | _, _ => none

/-- The device address of a virtual address, when it lies in this device's HBM. -/
def State.vaPa (s : State) (asid va : Nat) : Option Nat :=
  match s.walk 0 asid 0 va .read true with
  | .ok t => s.localAddr (t.paOf va)
  | .error _ => none

/-- A read that firmware makes of an address space, at its home (R368, R371, R387). -/
def State.cpReadVa (s : State) (asid va n : Nat) : State :=
  let go := fun (s : State) (pa : Pa) (n : Nat) => match s.localAddr pa with
    | some a => s.cpRead a n
    | none => s
  match s.walk 0 asid 0 va .read true, s.walk 0 asid 0 (va + (n - 1)) .read true with
  | .ok t, .ok t' =>
    let size := t.va + t.size - va % 2 ^ 52
    if n ≤ size then go s (t.paOf va) n else go (go s (t.paOf va) size) (t'.paOf (va + size)) (n - size)
  | _, _ => s

/-- Write bytes of a structure that firmware keeps in an address space, whether or not a page lets the space's own code write it. -/
def State.structPut (s : State) (asid va n v : Nat) : State :=
  match s.walk 0 asid 0 va .read true with
  | .ok t => match s.localAddr (t.paOf va) with
    | some a => s.cpPut a n v
    | none => let (x, s) := s.freeVal; s.homePut (t.paOf va) n v 1 (338 + x % 8)
  | .error _ => s

/-- A field of `n` bytes at an offset of an image. -/
def fieldAt (x off n : Nat) : Nat := x / 256 ^ off % 256 ^ n

/-! ## Effective fields of a region (R288) -/

/-- The effective fields of a region. -/
def State.prioOf (s : State) (r : Nat) : Nat := s.rcbEff 0 Rcb.prio 0 8 r
def State.specOf (s : State) (r : Nat) : Bool := s.rcbEff 1 Rcb.spec false 8 r
def State.detOf (s : State) (r : Nat) : Bool := s.rcbEff 2 Rcb.det false 8 r
def State.tsigOf (s : State) (r : Nat) : Bool := s.rcbEff 3 Rcb.tsig false 8 r
def State.depthOf (s : State) (r : Nat) : Nat := s.rcbEff 4 Rcb.depth 0 8 r
def State.coresOf (s : State) (r : Nat) : Nat := s.rcbEff 5 Rcb.cores 0 8 r
def State.cardsOf (s : State) (r : Nat) : Nat := s.rcbEff 6 Rcb.cards 0 8 r
def State.spbytesOf (s : State) (r : Nat) : Nat := s.rcbEff 7 Rcb.spbytes 0 8 r
def State.fdomOf (s : State) (r : Nat) : Nat := s.rcbEff 8 Rcb.fdom 0 8 r
def State.aspaceOf (s : State) (r : Nat) : Nat := s.rcbEff 9 Rcb.aspace 0 8 r
def State.handlerOf (s : State) (r : Nat) : DWord := s.rcbEff 10 Rcb.handler 0 8 r
def State.tkeyOf (s : State) (r : Nat) : Nat := s.rcbEff 11 Rcb.tkey 0 8 r

/-- Whether a region lies in the subtree of another. -/
def State.under (s : State) (r top : Nat) : Bool := (s.rcbPath 8 r).contains top

/-- Add one to a counter of an RCB in memory (R287). -/
def State.rcbCount (s : State) (r off : Nat) : State := s.setFld r off 8 ((s.fld r off 8 + 1) % 2 ^ 64)

/-! ## Queues (R291 to R293) -/

/-- The fields of a queue descriptor (R291). -/
structure Queue where
  ring : Nat
  log2 : Nat
  state : Nat
  die : Nat
  rcb : Nat
  rd : Nat
  wr : Nat
  deriving DecidableEq, Repr

/-- Read a queue descriptor; a queue that firmware has not set up since all work was lost is disabled (R421, R424). -/
def State.queue (s : State) (q : Nat) : Queue :=
  let a := s.qAddr q
  if !s.queues.contains q then ⟨0, 0, 0, 0, 0, 0, 0⟩
  else ⟨s.fld a 0 8, s.fld a 8 1, s.fld a 9 1, s.fld a 0xB 1, s.fld a 0x10 8, s.fld a 0x18 4, s.fld a 0x1C 4⟩

/-- Entries between RDIDX and WRIDX. -/
def Queue.depth (q : Queue) : Nat := (q.wr + 2 ^ 32 - q.rd) % 2 ^ 32
/-- The address of a ring entry. -/
def Queue.entry (q : Queue) (i : Nat) : Nat := (q.ring + 8 * (i % 2 ^ q.log2)) % 2 ^ 64

/-- A queue stops with an error, and its owner hears of it: QERR, vector 2 and a QUEUE_ERROR event (R296, R392, R395, R403). -/
def State.queueError (s : State) (q code card : Nat) : State :=
  let a := s.qAddr q
  let r := (s.queue q).rcb
  let s := ((s.setFld a 9 1 3).setFld a 0xA 1 code).setFld a 0x28 8 card
  let asid := s.aspaceOf r
  let f := s.ownerOf asid
  let s := s.schedEvent (s.queue q).die
  ((s.setStatus f 2).signal f 2).postEvent f ⟨1, s.fdomOf r, asid, [BitVec.ofNat 64 q, BitVec.ofNat 64 code, BitVec.ofNat 64 card], none⟩

/-- Whether an enqueue may be applied: the ring has an entry free (R293). -/
def State.ringFree (s : State) (q : Nat) : Bool := let d := s.queue q; decide (d.depth < 2 ^ d.log2)

/-- Write a card address at WRIDX and advance it, in one step; a ring that cannot be written stops the queue (R293). -/
def State.enqueue (s : State) (q : Nat) (card : DWord) : State :=
  let d := s.queue q
  match s.vaPut (s.aspaceOf d.rcb) (d.entry d.wr) 8 card.toNat with
  | some s => s.setFld (s.qAddr q) 0x1C 4 ((d.wr + 1) % 2 ^ 32)
  | none => s.queueError q 12 card.toNat

/-- Whether an enqueue of a core may be applied: its release is complete, and those before it for the queue are applied (R239). -/
def canEnqueueApply (c i : Nat) (s : State) : Bool :=
  let x := s.core c
  match x.enq[i]? with
  | none => false
  | some e =>
    (match e.marker with
     | some m => (x.marker? m).isNone
     | none => true) && !((x.enq.take i).any fun f => f.queue = e.queue) && s.ringFree e.queue
/-- ENQUEUE_APPLY (R293). -/
def execEnqueueApply (c i : Nat) (s : State) : Out :=
  event (canEnqueueApply c i s) s (match (s.core c).enq[i]? with
    | some e => (s.modCore c fun x => { x with enq := x.enq.eraseIdx i }).enqueue e.queue e.card
    | none => s)

/-! ## Cards (R294 to R296) -/

/-- A kernel descriptor from its 64 bytes (R68). -/
def kernelOf (x : Nat) : Kernel :=
  let r := fieldAt x 0x14 4
  { scratch := fieldAt x 8 4, split := fieldAt x 0xC 1, cluster := fieldAt x 0xD 1 = 1, streams := fieldAt x 0xE 2,
    tile := bit (fieldAt x 0x11 1) 0, recomp := fieldAt x 0x12 1, restart := if r = 0xFFFF_FFFF then none else some r
    roles := (List.range (fieldAt x 0x10 1)).map fun (i : Nat) =>
      let y := fieldAt x (0x18 + 8 * i) 8
      ⟨fieldAt y 0 4, fieldAt y 4 1, fieldAt y 5 1 + 1, 8 * (fieldAt y 6 1 + 1), fieldAt y 7 1⟩ }

/-- The warps of a block (R9). -/
def Kernel.warps (k : Kernel) : Nat := k.roles.foldl (fun (n : Nat) r => n + r.warps) 0
/-- The vector register bytes of a block (R13). -/
def Kernel.vectorBytes (k : Kernel) : Nat := k.roles.foldl (fun (n : Nat) r => n + r.warps * (128 * r.k * r.budget)) 0
/-- The bytes of a core's vector register file (R13). -/
def vectorFile : Nat := 524288
/-- The scratchpad that an L1 split leaves (R358). -/
def scratchTotal (split : Nat) : Nat := match split with | 0 => 5632 * 1024 | 1 => 5120 * 1024 | _ => 4096 * 1024

/-- A footprint record from its 32 bytes (R295). -/
def footprintOf (x : Nat) : Footprint :=
  let f := fieldAt x 0x10 1
  ⟨fieldAt x 0 8, fieldAt x 8 8, bit f 0, bit f 1, bit f 2, bits f 4 3, fieldAt x 0x11 1, fieldAt x 0x12 2, fieldAt x 0x14 4,
    fieldAt x 0x18 8⟩

/-- Whether a footprint record keeps R295. -/
def footprintOk (x : Nat) : Bool :=
  let p := footprintOf x
  let f := fieldAt x 0x10 1
  let producer := p.abs % 2 ^ 31 = 0 && p.predictor = 0 && p.reln = 0xFF && p.outl = 0
  let consumer := (decide (p.reln ≤ 126) || p.reln = 0xFF) && decide (p.outl ≤ 255) && (p.abs = 2 ^ 31 || decide (p.abs < 0x7F80_0000))
  canonical p.base && decide (1 ≤ p.bytes) && decide (p.bytes ≤ 2 ^ 46) && (p.rd || p.wr) && bits f 7 5 = 0 &&
  (if p.pred then p.vrd % 64 = 0 && (if p.wr then producer else consumer)
   else p.predictor = 0 && p.reln = 0 && p.outl = 0 && p.abs = 0 && p.vrd = 0)

/-- The fields of a version-ring descriptor (R310). -/
structure Vrd where
  base : Nat
  bytes : Nat
  buf : List Nat
  fmt : Nat
  cur : Nat
  hist : Nat
  page : Nat
  version : Nat
  deriving DecidableEq, Repr

/-- A version-ring descriptor from its 64 bytes. -/
def vrdOf (x : Nat) : Vrd :=
  ⟨fieldAt x 0 8, fieldAt x 8 8, (List.range 3).map fun i => fieldAt x (0x10 + 8 * i) 8, fieldAt x 0x28 1, fieldAt x 0x29 1, fieldAt x 0x2A 1,
    fieldAt x 0x2B 1, fieldAt x 0x30 8⟩

/-- The page size of a page code (R69). -/
def pageSize (code : Nat) : Nat := match code with | 0 => 2 ^ 16 | 1 => 2 ^ 21 | _ => 2 ^ 30
/-- The bytes of an element of a VRD format. -/
def vrdElem (fmt : Nat) : Nat := match fmt with | 2 => 4 | 3 => 2 | 4 => 2 | _ => 1

/-- Whether the bytes of a VRD are valid (R310). -/
def vrdOk (x : Nat) : Bool :=
  let v := vrdOf x
  let p := pageSize v.page
  [2, 3, 4, 9, 10].contains v.fmt && decide (v.page ≤ 2) && v.base % p = 0 && v.buf.all (fun b => b % p = 0) && decide (0 < v.bytes) &&
    v.bytes % vrdElem v.fmt = 0 && decide (v.cur ≤ 2) && decide (v.hist ≤ 3) && fieldAt x 0x2C 4 = 0 && fieldAt x 0x38 8 = 0

/-- The VRD of a footprint in an address space. -/
def State.vrd? (s : State) (asid : Nat) (f : Footprint) : Option Vrd := (s.vaGet asid f.vrd 64).map vrdOf

/-- Whether a PRED footprint's VRD is valid and matches (R310). -/
def State.vrdMatches (s : State) (asid : Nat) (f : Footprint) : Bool :=
  !f.pred || match s.vaGet asid f.vrd 64 with
    | some x => vrdOk x && (vrdOf x).base = f.base && (vrdOf x).bytes = f.bytes
    | none => false

/-- The loaded object whose kernel descriptors lie at an address of an address space (R399). -/
def State.objOf (s : State) (asid kdesc : Nat) : Option Obj :=
  s.objs.find? fun o => o.asid = asid && (List.range o.nkernels).any fun i => o.kernels + 64 * i = kdesc

/-- The MSI-X vectors of a function (R395). -/
def vectorsOf (f : Nat) : Nat := if f = 0 then 2048 else 256

/-- The first check that fails for a card image of 128 bytes and its footprints (R296), with what was read. -/
def State.cardError (s : State) (asid h : Nat) (fps : List Nat) (kern : Option Kernel) : Option Nat :=
  let fld := fieldAt h
  let flags := fld 3 1
  let firstOf := fun (xs : List (Bool × Nat)) => (xs.find? fun x => x.1).map (·.2)
  match kern with
  | none => if fld 0 2 ≠ 1 ∨ 16 < fld 2 1 ∨ 2 < fld 4 1 ∨ bits flags 7 3 ≠ 0 ∨ fld 5 1 ≠ 0 ∨ fld 0xC 4 ≠ 0 ∨ bits (fld 0x48 2) 15 2 ≠ 0 ∨
                fld 0x4C 4 ≠ 0 ∨ fld 0x70 16 ≠ 0 then some 2 else some 3
  | some k =>
    firstOf [
      (decide (fld 0 2 ≠ 1 ∨ 16 < fld 2 1 ∨ 2 < fld 4 1 ∨ bits flags 7 3 ≠ 0 ∨ fld 5 1 ≠ 0 ∨ fld 0xC 4 ≠ 0 ∨ bits (fld 0x48 2) 15 2 ≠ 0 ∨
        fld 0x4C 4 ≠ 0 ∨ fld 0x70 16 ≠ 0), 2),
      (bit flags 0 != k.cluster, 4),
      (decide (fld 8 4 < k.scratch) || decide (scratchTotal (fld 4 1) < fld 8 4), 5),
      (decide (fld 0x30 4 = 0 ∨ fld 0x34 4 < fld 0x30 4 ∨ 1024 < fld 6 2), 6),
      (fps.any fun x => !footprintOk x, 7),
      (fps.any fun x => !s.vrdMatches asid (footprintOf x), 8),
      (decide (32 < k.warps) || decide (vectorFile < k.vectorBytes) || decide (scratchTotal (fld 4 1) < ceilDiv (fld 8 4) 2048 * 2048), 9),
      (bit (fld 0x48 2) 1 && decide (vectorsOf (s.ownerOf asid) ≤ fld 0x4A 2), 10)]

/-! ## Edges (R301) -/

/-- Whether two footprints overlap in an access pair that makes an edge. -/
def conflict (x y : Footprint) : Bool := overlap x.base x.bytes y.base y.bytes && (x.wr || y.wr)

/-- The footprint pairs that make edges from a card to another. -/
def edgePairs (x y : Card) : List (Footprint × Footprint) := (x.fps.flatMap fun f => y.fps.map fun g => (f, g)).filter fun p => conflict p.1 p.2

/-! ## Admission (R292) -/

/-- The budgets of R289 with one more card of a region. -/
def State.cardsAllowed (s : State) (r : Nat) : Bool :=
  (s.rcbPath 8 r).all fun a => decide ((s.cards.filter fun c => s.under c.rcb a).length + 1 ≤ s.cardsOf a)

/-- The cards of a die's window (R300). -/
def State.window (s : State) (die : Nat) : List Card := s.cards.filter fun c => c.die = die

/-- Whether a debug stop lets a queue admit the card of a sequence number (R433). -/
def State.stopAllows (s : State) (q n : Nat) : Bool :=
  match FMap.find s.debugStops q with
  | some m => decide ((m + 2 ^ 32 - n) % 2 ^ 32 < 2 ^ 31)
  | none => true

/-- Whether a queue may admit its next card, or must stop because of its index (R292, R296). -/
def canCardAdmit (q : Nat) (s : State) : Bool :=
  let d := s.queue q
  decide (q < 4096) && s.serving && d.state = 1 && d.rd ≠ d.wr && s.stopAllows q d.rd &&
    (decide (2 ^ d.log2 < d.depth) || (decide ((s.window d.die).length < 256) && s.cardsAllowed d.rcb))

/-- The card that an image stands for (R294, R300, R301). -/
def State.newCard (s : State) (q : Nat) (d : Queue) (id addr asid h : Nat) (fps : List Footprint) (k : Kernel) : Card :=
  let fld := fieldAt h
  let flags := fld 3 1
  let dom := if bit flags 1 then 4096 + d.rcb else q
  let c : Card :=
    { id := id, addr := BitVec.ofNat 64 addr, queue := q, seq := d.rd, die := d.die % 2, rcb := d.rcb, domain := dom, asid := asid, kernel := k,
      kdesc := fld 0x10 8, code := BitVec.ofNat 64 (fld 0x18 8), bothDies := bit flags 2, lanes := fld 6 2, scratch := fld 8 4, split := fld 4 1,
      argBase := BitVec.ofNat 64 (fld 0x20 8), argStride := fld 0x28 4, argCount := fld 0x2C 4, chMin := fld 0x30 4, chMax := fld 0x34 4,
      doneAddr := BitVec.ofNat 64 (fld 0x38 8), doneVal := BitVec.ofNat 64 (fld 0x40 8), doneFlags := fld 0x48 2, msix := fld 0x4A 2,
      user := (List.range 4).map fun i => BitVec.ofNat 64 (fld (0x50 + 8 * i) 8), fps := fps, edges := [], dealt := 0, tasksDealt := 0,
      readyAt := s.cycle, aged := 0, spec := .plain, depth := 0, drafts := [], chained := [], passed := [], banned := [], views := [],
      shadows := [], ringCopy := fps.any fun f => f.pred && f.rd && f.wr, buffered := [], finished := false, failed := false }
  { c with edges := (s.cards.filter fun x => x.domain = dom && edgePairs x c != []).map (·.id) }

/-- The reads of a card's image, its footprints, the descriptor that it names and its VRDs, which its checks make (R292, R295, R296). -/
def State.readCard (s : State) (asid addr h : Nat) (fps : List Nat) : State :=
  let s := s.cpReadVa asid addr (128 + 32 * fps.length)
  let s := if (s.objOf asid (fieldAt h 0x10 8)).isSome then s.cpReadVa asid (fieldAt h 0x10 8) 64 else s
  ((fps.map footprintOf).filter fun f => f.pred).foldl (fun s f => s.cpReadVa asid f.vrd 64) s

/-- Admit the card at RDIDX, or stop the queue with the first check that fails (R292, R296). -/
def doCardAdmit (q : Nat) (s : State) : State :=
  let d := s.queue q
  let asid := s.aspaceOf d.rcb
  let entry := (s.vaGet asid (d.entry d.rd) 8).getD 0
  let u := s.cpReadVa asid (d.entry d.rd) 8
  if 2 ^ d.log2 < d.depth then u.queueError q 11 entry
  else
    match s.vaGet asid (d.entry d.rd) 8 with
    | none => u.queueError q 1 0
    | some addr =>
      if addr % 64 ≠ 0 then u.queueError q 1 addr
      else match s.vaGet asid addr 128 with
        | none => u.queueError q 1 addr
        | some h =>
          let n := min (fieldAt h 2 1) 16
          let fps := (List.range n).map fun (i : Nat) => s.vaGet asid (addr + 128 + 32 * i) 32
          if fps.any Option.isNone then u.queueError q 1 addr
          else
            let fps := fps.map fun x => x.getD 0
            let kern := match s.objOf asid (fieldAt h 0x10 8) with
              | some _ => (s.vaGet asid (fieldAt h 0x10 8) 64).map kernelOf
              | none => none
            let e := s.cardError asid h fps kern
            let s := u.readCard asid addr h fps
            match e, kern with
            | none, some k =>
              let (id, s) := s.newId
              let c := s.newCard q d id addr asid h (fps.map footprintOf) k
              let s := { s with cards := s.cards ++ [c] }
              (s.setFld (s.qAddr q) 0x18 4 ((d.rd + 1) % 2 ^ 32)).traceRec 1 338 0 q c.seq 0 0
            | e, _ => s.queueError q (e.getD 3) addr
/-- CARD_ADMIT (R292). -/
def execCardAdmit (q : Nat) (s : State) : Out := event (canCardAdmit q s) s (doCardAdmit q s)

end Sys2Proof.Machine
end

