-- ==== Sys2Proof/Machine/Sched.lean ====
section
/-! DEFINITION. The task scheduler: dealing, room, placement and launch, ageing, reservations, pre-emption requests, and the completion of
tasks and cards (R8, R9, R11 to R15, R24, R297 to R308, R311, R312, R359, R360). -/

namespace Sys2Proof.Machine

/-! ## Views (R311, R312) -/

/-- The view ids in use on a die. -/
def State.viewsUsed (s : State) (die : Nat) : List Nat := s.cards.filterMap fun c => FMap.find c.views die
/-- A free view id of a die. -/
def State.freeView (s : State) (die : Nat) : Option Nat := ((List.range 64).drop 1).find? fun i => !(s.viewsUsed die).contains i

/-- Whether a card runs in a view: it writes a predictable region, or it was launched speculatively (R312). -/
def Card.needsView (c : Card) : Bool := c.spec != .plain || c.fps.any fun f => f.pred && f.wr

/-- The overrides of the regions a card produces: the next buffers (R311). -/
def State.producerOverrides (s : State) (c : Card) (die view : Nat) : List Override :=
  (c.fps.filter fun f => f.pred && f.wr).filterMap fun f => (s.vrd? c.asid f).map fun v =>
    let p := pageSize v.page
    ⟨die, view, v.base % 2 ^ 52, ceilDiv v.bytes p * p, (v.buf[(v.cur + 1) % 3]?).getD 0⟩

/-- Give a card a view on a die: the overrides of its view on another die, or those of its regions (R312). -/
def State.takeView (s : State) (id die view : Nat) : State :=
  match s.card? id with
  | none => s
  | some c =>
    let os := match c.views with
      | (d, v) :: _ => (s.overrides.filter fun o => o.die = d && o.view = v).map fun o => { o with die := die, view := view }
      | [] => s.producerOverrides c die view
    { s with overrides := os ++ s.overrides }.modCard id fun c => { c with views := FMap.set c.views die view }

/-- Free the views of a card: their overrides and translations go. -/
def State.freeViews (s : State) (c : Card) : State :=
  let mine := fun (die view : Nat) => FMap.find c.views die = some view
  let s := { s with overrides := s.overrides.filter fun o => !mine o.die o.view }.dropTlb fun d t =>
    t.asid = c.asid && t.view ≠ 0 && mine (dieOf d) t.view
  s.modCard c.id fun c => { c with views := [] }

/-! ## Dealing (R298) -/

/-- The tasks of a card. -/
def State.tasksOf (s : State) (id : Nat) : List (Nat × Task) := s.tasks.filter fun p => p.2.card = id

/-- Whether a card may run: ready, or launched speculatively with its drafts written (R301, R314, R317). -/
def Card.ready (c : Card) : Bool :=
  match c.spec with
  | .plain => c.edges = []
  | .drafting => false
  | _ => true

/-- Whether a task may be dealt now (R298). -/
def canTaskDeal (id : Nat) (s : State) : Bool :=
  match s.card? id with
  | none => false
  | some c =>
    c.ready && !c.ringCopy && !c.failed && decide (c.dealt < c.argCount) &&
      (s.tasksOf id).all fun p => (p.2.placed || p.2.saved != []) && !p.2.squashed

/-- The chunk that a task takes (R298). -/
def Card.chunk (c : Card) (running : Nat) : Nat :=
  let r := c.argCount - c.dealt
  min r (max c.chMin (min c.chMax (ceilDiv r (2 * (running + 1)))))

/-- Deal a task: the next chunk in ascending index, by how many of the card's tasks run (R298). -/
def doTaskDeal (id : Nat) (s : State) : State :=
  match s.card? id with
  | none => s
  | some c =>
    let n := c.chunk ((s.tasksOf id).filter fun p => p.2.placed).length
    let (t, s) := s.newId
    let k : Task := { card := id, number := c.tasksDealt, first := c.dealt, count := n, taken := 0, cluster := c.kernel.cluster, blocks := [],
                      cbars := [], placed := false, saved := [], killed := false, squashed := false, ready := s.cycle,
                      handler := s.handlerOf c.rcb, fdom := s.fdomOf c.rcb }
    { s with tasks := FMap.set s.tasks t k }.modCard id fun c => { c with dealt := c.dealt + n, tasksDealt := c.tasksDealt + 1 }
/-- TASK_DEAL (R298). -/
def execTaskDeal (id : Nat) (s : State) : Out := event (canTaskDeal id s) s (doTaskDeal id s)

/-! ## Room (R302, R359, R360) -/

/-- The blocks of a core. -/
def State.blocksOn (s : State) (c : Nat) : List (Nat × Block) := s.blocks.filter fun p => p.2.core = c
/-- The scratchpad bytes an allocation occupies (R359). -/
def rounded (n : Nat) : Nat := ceilDiv n 2048 * 2048
/-- The scratchpad areas of a core that are not unallocated: those of its blocks, and those still being cleared. -/
def State.areasOn (s : State) (c : Nat) : List (Nat × Nat) :=
  ((s.blocksOn c).map fun p => (p.2.base, rounded p.2.size)) ++ (s.core c).clearing.map fun a => (a.1, a.2.1)
/-- The vector register bytes in use on a core (R13). -/
def CoreSt.vectorUse (x : CoreSt) : Nat := x.warps.foldl (fun (n : Nat) p => n + 128 * p.2.k * p.2.budget) 0
/-- Whether a kernel needs the tile-engine grant (R11, R302). -/
def Kernel.needsGrant (k : Kernel) : Bool := k.tile || k.streams ≠ 0

/-- The room of a core for a block, but for the place of its scratchpad (R302). -/
def State.coreRoom (s : State) (c : Nat) (split : Nat) (k : Kernel) : Bool :=
  let x := s.core c
  decide (x.warps.length + k.warps ≤ Config.warpSlots) && decide (x.vectorUse + k.vectorBytes ≤ vectorFile) &&
    (s.blocksOn c = [] || x.split = some split) && (!k.needsGrant || x.grantee.isNone)

/-- Whether a scratchpad range of a core is unallocated and aligned (R302, R359). -/
def State.baseFree (s : State) (c split base n : Nat) : Bool :=
  base % 2048 = 0 && decide (base + rounded n ≤ scratchTotal split) && (s.areasOn c).all fun a => !overlap base (rounded n) a.1 a.2

/-- Whether a choice of slots is possible: distinct free slots, one for each warp. -/
def slotsFree (x : CoreSt) (slots : List Nat) (n : Nat) : Bool :=
  slots.length = n && slots.Nodup && slots.all fun k => decide (k < Config.warpSlots) && (FMap.find x.warps k).isNone

/-- Whether a block may be put at a place: `n` warps of a kernel with `size` bytes. -/
def State.roomAt (s : State) (p : Placement) (split size : Nat) (k : Kernel) (n : Nat) : Bool :=
  decide (p.core < Config.cores) && s.coreRoom p.core split k && s.baseFree p.core split p.base size && slotsFree (s.core p.core) p.slots n

/-- The shape of a gang's placement: one core, or the eight cores of one cluster in rank order (R302). -/
def gangShape (cluster : Bool) (ps : List Placement) : Bool :=
  if cluster then
    match ps with
    | p :: _ => ps.map (·.core) = (List.range 8).map fun g => clusterOf p.core * 8 + g
    | [] => false
  else ps.length = 1

/-- Whether the dies of a placement suit a card, with views free there (R302, R312). -/
def State.diesOk (s : State) (c : Card) (ps : List Placement) : Bool :=
  ps.all fun p => (c.bothDies || dieOf p.core = c.die) &&
    (!c.needsView || (FMap.find c.views (dieOf p.core)).isSome || (s.freeView (dieOf p.core)).isSome)

/-- The cores and scratchpad bytes that a subtree holds, with new blocks on given cores. -/
def State.subtreeUse (s : State) (top : Nat) (cores : List Nat) (bytes : Nat) : Nat × Nat :=
  let bs := s.blocks.filter fun p => match s.cardOfBlock p.1 with
    | some c => s.under c.rcb top
    | none => false
  ((cores ++ bs.map fun p => p.2.core).eraseDups.length, bs.foldl (fun (n : Nat) p => n + p.2.size) bytes)

/-- The budgets of R289 with a gang placed; a budget of 0 admits nothing. -/
def State.blocksAllowed (s : State) (c : Card) (ps : List Placement) : Bool :=
  (s.rcbPath 8 c.rcb).all fun a =>
    let u := s.subtreeUse a (ps.map (·.core)) (c.scratch * ps.length)
    decide (u.1 ≤ s.coresOf a) && decide (u.2 ≤ s.spbytesOf a) && decide (0 < s.spbytesOf a)

/-! ## Choosing a place -/

/-- The lowest base at which a block fits a core. -/
def State.findBase (s : State) (c split n : Nat) : Option Nat :=
  (0 :: (s.areasOn c).map fun a => rounded (a.1 + a.2)).find? fun b => s.baseFree c split b n

/-- A place for a block of `m` warps on a core: the lowest free slots, and the trap save areas that firmware assigns to them (log 8). -/
def State.findPlace (s : State) (c split n : Nat) (k : Kernel) (m : Nat) : Option Placement :=
  if s.coreRoom c split k then
    (s.findBase c split n).map fun b =>
      let slots := ((List.range Config.warpSlots).filter fun i => (FMap.find (s.core c).warps i).isNone).take m
      ⟨c, b, slots, slots.map fun i => s.fw.slots + 0x80000 * (32 * c + i)⟩
  else none

/-- The blocks of a pre-empted gang in rank order. -/
def Task.savedInOrder (t : Task) : List SavedBlock :=
  (List.range 8).filterMap fun g => t.saved.find? fun v => v.block.grank = g

/-- A placement of a gang on a group of cores, if every core has room: of a pre-empted gang on cores of the dies it ran on (R302, R312). -/
def State.placeOn (s : State) (t : Task) (c : Card) (g : List Nat) : Option (List Placement) :=
  let ns := if t.saved = [] then g.map fun d => some (d, c.kernel.warps)
            else (g.zip t.savedInOrder).map fun q => if c.needsView && dieOf q.1 != dieOf q.2.formerCore then none else some (q.1, q.2.warps.length)
  let ps := ns.map fun q => q.bind fun q => s.findPlace q.1 c.split c.scratch c.kernel q.2
  if ps.all Option.isSome then some (ps.filterMap id) else none

/-- The groups of cores that a gang may take: cores, or clusters, of its dies. -/
def coreGroups (cluster bothDies : Bool) (die : Nat) : List (List Nat) :=
  let cs := (List.range 160).filter fun c => bothDies || dieOf c = die
  if cluster then (List.range 20).filterMap fun k =>
    if bothDies || k / 10 = die then some ((List.range 8).map fun g => 8 * k + g) else none
  else cs.map fun c => [c]

/-- A placement for a task of a card, if it has room and budget anywhere; with `budget` false, if it has room (R289, R302). -/
def State.findFor (s : State) (t : Task) (c : Card) (budget : Bool) : Option (List Placement) :=
  (coreGroups t.cluster c.bothDies c.die).findSome? fun g =>
    (s.placeOn t c g).filter fun ps => s.diesOk c ps && (!budget || s.blocksAllowed c ps)

/-! ## Priority (R303, R305) -/

/-- The aged priority of a card (R305). -/
def State.agedPrio (s : State) (c : Card) : Nat := min 7 (s.prioOf c.rcb + c.aged)

/-- The waiting task of a card, if it has one. -/
def State.waitingTask (s : State) (id : Nat) : Option (Nat × Task) := s.tasks.find? fun p => p.2.card = id && !p.2.placed && !p.2.killed

/-- Whether card `x` goes before card `y`: higher aged priority, then admitted first. -/
def State.before (s : State) (x y : Card) : Bool := decide (s.agedPrio y < s.agedPrio x) || (s.agedPrio x = s.agedPrio y && decide (x.id < y.id))

/-- Whether a card has a task that could be placed now: one waiting, or one that is still to be dealt (R305). -/
def State.couldPlace (s : State) (x : Card) : Bool :=
  canTaskDeal x.id s || s.tasks.any fun p => p.2.card = x.id && !p.2.placed && !p.2.killed && (s.findFor p.2 x true).isSome

/-- Whether no card that goes before has a task that could be placed now (R305). -/
def State.myTurn (s : State) (c : Card) : Bool :=
  s.cards.all fun x => x.die != c.die || !s.before x c || !s.couldPlace x

/-- Whether a reservation of R303 still stands: its gang waits, and is the highest-priority cluster gang waiting on its die. -/
def State.reservedFor (s : State) (cluster : Nat) : Option Nat :=
  s.reserved.findSome? fun p =>
    let (t, k) := p.2
    if k ≠ cluster then none
    else match FMap.find s.tasks t with
      | some x => if x.placed || x.killed then none else match s.card? x.card with
        | some c => if s.cards.any fun y => y.die = c.die && y.kernel.cluster && s.before y c && (s.waitingTask y.id).isSome then none
                    else some t
        | none => none
      | none => none

/-- Whether reservations leave a placement to a task. -/
def State.unreserved (s : State) (t : Nat) (ps : List Placement) : Bool :=
  ps.all fun p => match s.reservedFor (clusterOf p.core) with
    | some u => u = t
    | none => true

/-- The warp slots to be freed before a cluster has them for a gang. -/
def State.slotsShort (s : State) (cluster n : Nat) : Nat :=
  (List.range 8).foldl (fun (a : Nat) g => a + (n - (Config.warpSlots - (s.core (8 * cluster + g)).warps.length))) 0

/-- Whether a cluster may be reserved for a task (R303). -/
def canClusterReserve (t cluster : Nat) (s : State) : Bool :=
  match FMap.find s.tasks t with
  | none => false
  | some x => match s.card? x.card with
    | none => false
    | some c =>
      let ks := (List.range 20).filter fun k => c.bothDies || k / 10 = c.die
      x.cluster && !x.placed && !x.killed && decide (x.ready + 1024 ≤ s.cycle) && ks.contains cluster &&
        (match FMap.find s.reserved c.die with
         | some (_, k) => (s.reservedFor k).isNone
         | none => true) &&
        ks.all fun k => decide (s.slotsShort cluster c.kernel.warps ≤ s.slotsShort k c.kernel.warps)
/-- CLUSTER_RESERVE (R303). -/
def execClusterReserve (t cluster : Nat) (s : State) : Out :=
  event (canClusterReserve t cluster s) s (match (FMap.find s.tasks t).bind fun x => s.card? x.card with
    | some c => { s with reserved := FMap.set s.reserved c.die (t, cluster) }
    | none => s)

/-- Whether a card waits without a task running (R305). -/
def State.cardWaits (s : State) (c : Card) : Bool := c.ready && (s.tasksOf c.id).all fun p => !p.2.placed
/-- Whether a waiting card's priority rises: every 2 ms (R305). -/
def canPriorityAge (id : Nat) (s : State) : Bool :=
  match s.card? id with
  | some c => s.cardWaits c && decide (c.readyAt + Config.agePeriod * (c.aged + 1) ≤ s.cycle)
  | none => false
/-- PRIORITY_AGE (R305). -/
def execPriorityAge (id : Nat) (s : State) : Out :=
  event (canPriorityAge id s) s (s.modCard id fun c => { c with aged := c.aged + 1 })

/-! ## Launch (R9 to R15, R297, R304) -/

/-- The roles of a block's warps in order (R9). -/
def Kernel.roleList (k : Kernel) : List Role := k.roles.flatMap fun r => List.replicate r.warps r

/-- Lanes in the lower-numbered warps of the same role (R44; whole widths, log 46). -/
def Kernel.lanesBelow (k : Kernel) (windex role : Nat) : Nat :=
  ((k.roleList.take windex).map fun r => if r.role = role then 32 * r.k else 0).sum

/-- A warp as it is launched. -/
def launchWarp (card : Card) (t : Task) (block windex : Nat) (r : Role) (tsa now : Nat) (position : Option Nat) : Warp :=
  let width := 32 * r.k
  let live := if card.lanes = 0 ∨ width ≤ card.lanes then width else card.lanes
  let m : LaneMask := BitVec.ofNat 1024 (2 ^ live - 1)
  let w : Warp :=
    { block := block, windex := windex, role := r.role, k := r.k, budget := r.budget, lbase := card.kernel.lanesBelow windex r.role, laneLimit := card.lanes, position := position,
      moved := now, vregs := [], sregs := [], vpred := 0, spred := 0, flags := [], incs := [], loops := [], mask := m, entryMask := m, retire := 0,
      pc := card.code + BitVec.ofNat 64 (32 * r.entry), gap := 1, ctl := .none, tick := 0, tickStart := now, due := 0, opened := false,
      flight := [], landed := [], fel := 0, fes := 0, fen := 0, tsa := BitVec.ofNat 64 tsa, cause := 0, epc := 0, imask := 0, priv := false,
      stop := .run, since := now, hold := none, kept := none, keptRetire := 0, deferred := [], pendEv := [], trap := none, replay := none,
      brt := none, halt := false, step := false, stretched := false, yielded := false, preempt := false, fetch := [], lastLine := none, seq := 0 }
  let rec' := card.argBase + BitVec.ofNat 64 (card.argStride * t.first)
  let vals := card.user ++ [rec', BitVec.ofNat 64 t.count, BitVec.ofNat 64 card.argStride, card.addr, BitVec.ofNat 64 t.number]
  vals.zipIdx.foldl (fun w p => w.setS (p.2 + 1) p.1) w

/-- Make a core ready for a block: its split, its grant with empty streams and zero accumulators, and its L1 invalidated (R11, R259, R302,
R348). -/
def State.openCore (s : State) (b c split : Nat) (k : Kernel) : State :=
  let empty : Bool := s.blocksOn c = []
  s.modCore c fun x =>
    let x := if empty then { x with split := some split } else x
    let x := if k.needsGrant then { x with grantee := some b, streams := [], accs := [], released := [] } else x
    { x with l1 := [], l1want := [] }

/-- Put a warp into a free slot of a core, active where a position is free; its place in program order lies after that of every earlier warp of
the core. -/
def State.seatWarp (s : State) (c k : Nat) (f : Option Nat → Warp) : State :=
  s.modCore c fun x =>
    let w := f (freePosition x.warps)
    let n := max x.next w.seq
    { x with warps := FMap.set x.warps k { w with seq := n, first := n }, next := n }

/-- Place one block of a task and start its warps. -/
def State.placeBlock (s : State) (t : Nat) (card : Card) (rank : Nat) (p : Placement) : State :=
  match FMap.find s.tasks t with
  | none => s
  | some task =>
    let (b, s) := s.newId
    let s := s.openCore b p.core card.split card.kernel
    let blk : Block := { core := p.core, base := p.base, size := card.scratch, grank := rank, task := t, warps := p.slots, sp := [], bars := [],
                         preempt := false, last := 0 }
    let s := { s with blocks := FMap.set s.blocks b blk }
    let s := (p.slots.zip (p.tsas.zip card.kernel.roleList)).zipIdx.foldl (fun s q =>
      s.seatWarp p.core q.1.1 fun pos => launchWarp card task b q.2 q.1.2.2 q.1.2.1 s.cycle pos) s
    s.modTask t fun x => { x with blocks := x.blocks ++ [b] }

/-- Whether a gang may be placed so (R289, R302, R303, R305, R333). -/
def canGangPlace (t : Nat) (ps : List Placement) (s : State) : Bool :=
  match FMap.find s.tasks t with
  | none => false
  | some x => match s.card? x.card with
    | none => false
    | some c =>
      !x.placed && !x.killed && x.saved = [] && c.ready && gangShape x.cluster ps && s.diesOk c ps &&
        (ps.all fun p => s.roomAt p c.split c.scratch c.kernel c.kernel.warps && p.tsas.length = p.slots.length &&
          p.tsas.all fun a => a % 256 = 0) &&
        s.blocksAllowed c ps && s.unreserved t ps && s.myTurn c
/-- Place a gang: every block at its place, every warp started in this cycle with the HANDLER and FDOM effective now (R9, R287, R304). -/
def doGangPlace (t : Nat) (ps : List Placement) (s : State) : State :=
  match (FMap.find s.tasks t).bind fun x => (s.card? x.card).map fun c => (x, c) with
  | none => s
  | some (x, c) =>
    let s := (ps.map fun p => dieOf p.core).eraseDups.foldl (fun s d => match s.card? c.id with
      | some c => if c.needsView && (FMap.find c.views d).isNone then match s.freeView d with
          | some v => s.takeView c.id d v
          | none => s
        else s
      | none => s) s
    let s := ps.zipIdx.foldl (fun s p => s.placeBlock t c p.2 p.1) s
    let s := (s.modTask t fun x => { x with placed := true, handler := s.handlerOf c.rcb, fdom := s.fdomOf c.rcb }).modCard c.id fun c => { c with aged := 0 }
    let s := { s with reserved := s.reserved.filter fun p => p.2.1 ≠ t }
    s.traceRec 3 338 (match ps with | p :: _ => p.core | [] => 0) c.queue c.seq x.number (if x.cluster then 1 else 0)
/-- GANG_PLACE (R302). -/
def execGangPlace (t : Nat) (ps : List Placement) (s : State) : Out := event (canGangPlace t ps s) s (doGangPlace t ps s)

/-! ## Completion (R304, R308) -/

/-- Whether a block has left no event unperformed: its warps are gone, its operations over, its FIFO entries performed (R259, R304). -/
def State.blockQuiet (s : State) (b : Nat) : Bool :=
  match s.block? b with
  | none => true
  | some x =>
    let y := s.core x.core
    x.warps = [] && !(y.xops.any fun o => o.block = b) && !(y.fifo.any fun e => decide (e.seq < x.last)) &&
      !(y.markers.any fun m => decide (m.seq < x.last)) && !(y.ops.any fun o => decide (o.id < x.last) && o.kind = .fence)

/-- A block leaves its core: its allocation is to be cleared, at 2 KiB in a cycle behind those that left before (R360), and the core's split goes with its last block (R302). -/
def State.dropBlock (s : State) (b : Nat) : State :=
  match s.block? b with
  | none => s
  | some x =>
    let s := { s with blocks := FMap.erase s.blocks b
                      faulty := s.faulty.filter fun e => match e with
                        | .scratch b' _ => b' ≠ b
                        | _ => true }
    let empty : Bool := s.blocksOn x.core = []
    s.modCore x.core fun y =>
      let free := y.clearing.foldl (fun (n : Nat) a => max n a.2.2) s.cycle
      { y with clearing := if x.size = 0 then y.clearing else y.clearing ++ [(x.base, rounded x.size, free + rounded x.size / 2048)]
               split := if empty then none else y.split }

/-- Whether no store to a shadow page of a card is on its way: the pages of a squashed card stay with it until then (R318). -/
def State.shadowsQuiet (s : State) (id : Nat) : Bool :=
  match s.card? id with
  | none => true
  | some c => s.cores.all fun p => p.2.fifo.all fun e => !(e.line.space = .hbm && c.shadows.any fun h =>
      decide (h.page ≤ e.line.addr) && decide (e.line.addr < h.page + h.size))

/-- Whether a task is complete (R304). -/
def canTaskComplete (t : Nat) (s : State) : Bool :=
  match FMap.find s.tasks t with
  | some x => (x.placed || x.killed) && x.saved = [] && x.blocks.all s.blockQuiet && (!x.squashed || s.shadowsQuiet x.card)
  | none => false

/-- Drop the lines of HBM ranges from every L1. -/
def State.dropL1 (s : State) (rs : List (Nat × Nat)) : State :=
  let gone := fun (p : Pa) => p.space = .hbm && rs.any fun r => decide (r.1 ≤ p.addr) && decide (p.addr < r.1 + r.2)
  { s with cores := s.cores.map fun (x : Nat × CoreSt) => (x.1, { x.2 with
      l1 := x.2.l1.filter fun l => !gone l.pa
      l1want := x.2.l1want.filter fun p => !gone p }) }

/-- A page of the pool is free again, and no L1 keeps a line of it: what a squashed card wrote is never observed (R276, R313, R318). -/
def State.poolFree (s : State) (die page : Nat) : State :=
  let ts := (FMap.find s.pools die).elim [] Pool.taken
  { s with pools := FMap.adjust s.pools die fun p => { p with taken := p.taken.filter fun t => t.1 ≠ page } }.dropL1 (ts.filter fun t => t.1 = page)

/-- The last squashed task of a card is gone: its shadow pages return to the pool (R318). -/
def State.returnShadows (s : State) (id : Nat) : State :=
  match s.card? id with
  | none => s
  | some c =>
    if c.spec = .plain && (s.tasksOf id).all fun p => !p.2.squashed then
      (c.shadows.foldl (fun s h => s.poolFree c.die h.page) s).modCard id fun c => { c with shadows := [] }
    else s

/-- A task completes: its blocks leave their cores; one that a handler killed is counted (R304, R308). -/
def doTaskComplete (t : Nat) (s : State) : State :=
  match FMap.find s.tasks t with
  | none => s
  | some x =>
    let core := ((x.blocks.head?).bind s.block?).elim 0 (·.core)
    let s := x.blocks.foldl State.dropBlock s
    let s := { s with tasks := FMap.erase s.tasks t }
    match s.card? x.card with
    | none => s
    | some c =>
      let a := s.qAddr c.queue
      let s := if x.killed && !x.squashed then s.setFld a 0x30 4 ((s.fld a 0x30 4 + 1) % 2 ^ 32) else s
      let s := if s.cardWaits c then s.modCard c.id fun c => { c with readyAt := s.cycle, aged := 0 } else s
      (if x.squashed then s.returnShadows c.id else s).traceRec 4 338 core c.queue c.seq x.number (if x.cluster then 1 else 0)
/-- TASK_COMPLETE (R304). -/
def execTaskComplete (t : Nat) (s : State) : Out := event (canTaskComplete t s) s (doTaskComplete t s)

/-- Whether every task of a card is complete (R308). -/
def State.tasksDone (s : State) (c : Card) : Bool := c.dealt = c.argCount && s.tasksOf c.id = [] && c.ready

/-- Whether a card writes a predictable region that has not flipped (R311, R317). -/
def Card.flips (c : Card) : Bool := !c.finished && c.fps.any fun f => f.pred && f.wr

/-- Free drafts that no card uses (R313). -/
def State.freeDrafts (s : State) : State :=
  let used := fun (d : Draft) => s.cards.any fun c => c.die = d.die && c.drafts.any fun i => match c.fps[i.1]? with
    | some f => s.vaPa c.asid f.vrd = some d.vrd && f.predictor = d.predictor && i.2 = d.version
    | none => false
  (s.drafts.filter fun d => !used d).foldl (fun s d => s.poolFree d.die d.page) { s with drafts := s.drafts.filter used }

/-- Whether a card may complete: every task complete, and a speculative one committed with its regions flipped (R308, R317). -/
def canCardComplete (id : Nat) (s : State) : Bool :=
  match s.card? id with
  | some c => s.tasksDone c && !c.flips && (c.spec = .plain || c.spec = .committed)
  | none => false

/-- A source card is done: the edges from it resolve (R301); a card that becomes ready begins to age, one that was launched speculatively has done so
before (R305). -/
def State.resolveEdges (s : State) (id : Nat) : State :=
  { s with cards := s.cards.map fun c =>
      if c.edges.contains id then
        let es := c.edges.erase id
        { c with edges := es, readyAt := if es = [] && c.spec = .plain then s.cycle else c.readyAt }
      else c }

/-- Enqueues that a complete card still holds back, behind a full ring, wait on with the scheduler, listed with the cores that made them (R239, R308,
R319). -/
def State.leaveEnqueues (s : State) (es : List Enqueue) : State :=
  es.foldl (fun s e => s.modCore e.core fun x => { x with enq := x.enq ++ [{ e with kept := true }] }) s

/-- A card completes: the steps of R308 in order. -/
def doCardComplete (id : Nat) (s : State) : State :=
  match s.card? id with
  | none => s
  | some c =>
    let s := ((s.leaveEnqueues c.buffered).freeViews c).resolveEdges id
    let s := { s with cards := s.cards.filter fun x => x.id ≠ id }.freeDrafts
    let f := s.ownerOf c.asid
    let s := if bit c.doneFlags 0 then
        match (if c.doneAddr.toNat % 8 = 0 then s.vaPut c.asid c.doneAddr.toNat 8 c.doneVal.toNat else none) with
        | some s => s
        | none => s.postEvent f ⟨11, s.fdomOf c.rcb, c.asid, [c.addr, c.doneAddr, BitVec.ofNat 64 c.queue], none⟩
      else s
    let a := s.qAddr c.queue
    let s := s.setFld a 0x20 8 ((s.fld a 0x20 8 + 1) % 2 ^ 64)
    let s := (if bit c.doneFlags 1 then s.signal f c.msix else s).schedEvent c.die
    s.traceRec 2 338 0 c.queue c.seq 0 0
/-- CARD_COMPLETE (R308). -/
def execCardComplete (id : Nat) (s : State) : Out := event (canCardComplete id s) s (doCardComplete id s)

/-! ## Pre-emption requests and clearing -/

/-- Whether a warp holds a speculative trap (R322). -/
def State.holdsTrap (s : State) (b : Nat) : Bool :=
  s.speculating b && match s.block? b with
    | some x => x.warps.any fun k => match s.warp? x.core k with
      | some w => w.trap.isSome
      | none => false
    | none => false

/-- Whether a block may be asked to be pre-empted (R306, R322). -/
def canPreemptRequest (b : Nat) (s : State) : Bool :=
  match (s.block? b).bind fun x => FMap.find s.tasks x.task with
  | some t => !t.killed && t.blocks.all fun i => !s.holdsTrap i
  | none => false
/-- Ask every block of the gang (R306, R345). -/
def doPreemptRequest (b : Nat) (s : State) : State :=
  match (s.block? b).bind fun x => FMap.find s.tasks x.task with
  | none => s
  | some t => t.blocks.foldl (fun s i =>
      match s.block? i with
      | none => s
      | some y => y.warps.foldl (fun s k => s.modWarp y.core k fun w => { w with preempt := true })
          (s.modBlock i fun y => { y with preempt := true })) s
/-- The gangs resident on a group of cores that a card of priority `p` may have pre-empted, lowest priority first, with the blocks of each (R306). -/
def State.victims (s : State) (g : List Nat) (p : Nat) : List (Nat × Nat) :=
  (List.range p).flatMap fun q => (s.tasks.filter fun t =>
    t.2.placed && !t.2.killed && (t.2.blocks.any fun b => match s.block? b with
      | some x => g.contains x.core && !x.preempt
      | none => false) && !(t.2.blocks.any s.holdsTrap) && match s.card? t.2.card with
      | some c => s.prioOf c.rcb = q
      | none => false).map fun t => (t.1, t.2.blocks.length)

/-- The choices of gangs that hold `n` blocks in all, the first of the list first. -/
def chooseBlocks : Nat → List (Nat × Nat) → List (List Nat)
  | 0, _ => [[]]
  | _, [] => []
  | n + 1, (t, m) :: xs => (if m ≤ n + 1 && 0 < m then (chooseBlocks (n + 1 - m) xs).map (t :: ·) else []) ++ chooseBlocks (n + 1) xs

/-- A state in which gangs have left their cores. -/
def State.without (s : State) (ts : List Nat) : State :=
  let gone := fun (b : Nat) => match s.block? b with
    | some x => ts.contains x.task
    | none => false
  let bs := s.blocks.filter fun p => !gone p.1
  { s with blocks := bs
           cores := s.cores.map fun p => (p.1, { p.2 with
             warps := p.2.warps.filter fun w => !gone w.2.block
             grantee := if p.2.grantee.any gone then none else p.2.grantee
             split := if bs.any fun b => b.2.core = p.1 then p.2.split else none }) }

/-- The gangs that are asked to leave already. -/
def State.leaving (s : State) : List Nat :=
  (s.tasks.filter fun t => t.2.blocks != [] && t.2.blocks.all fun b => (s.block? b).elim true Block.preempt).map (·.1)

/-- Whether one list of priorities comes before another: compared from the first on. -/
def lexBefore : List Nat → List Nat → Bool
  | _, [] => false
  | [], _ :: _ => true
  | a :: as, b :: bs => decide (a < b) || (a = b && lexBefore as bs)

/-- The priority of the region of a gang (R305). -/
def State.gangPrio (s : State) (t : Nat) : Nat := ((FMap.find s.tasks t).bind fun x => s.card? x.card).elim 8 fun c => s.prioOf c.rcb

/-- Of several choices of gangs, the first of those with the lowest priorities (R306). -/
def State.lowestChoice (s : State) : List (List Nat) → Option (List Nat)
  | [] => none
  | ts :: cs => match s.lowestChoice cs with
    | some us => if lexBefore (us.map s.gangPrio) (ts.map s.gangPrio) then some us else some ts
    | none => some ts

/-- The gangs to pre-empt for a task that has no room, beside those that are leaving: the fewest blocks of lower priority, on any group of cores, that
would free it, lowest priority first; none when it has room or will have it, or when no such blocks would do (R306). -/
def State.preemptFor (s : State) (t : Task) (c : Card) : Option (List Nat) :=
  let go := s.leaving
  let fits := fun (g ts : List Nat) =>
    let s := s.without (go ++ ts)
    match s.placeOn t c g with
    | some ps => s.diesOk c ps && s.blocksAllowed c ps
    | none => false
  if (s.findFor t c false).isSome then none
  else
    let gs := coreGroups t.cluster c.bothDies c.die
    (List.range 257).findSome? fun n =>
      s.lowestChoice (gs.flatMap fun g => (chooseBlocks n (s.victims g (s.agedPrio c))).filter (fits g))

/-- Whether every warp of a block waits in `mwait` or at a barrier (R27, R306). -/
def State.allWait (s : State) (b : Nat) : Bool :=
  match s.block? b with
  | none => false
  | some x => x.warps != [] && x.warps.all fun k => match s.warp? x.core k with
      | none => true
      | some w => match w.stop, w.hold with
        | .before _ interval _ _, _ => interval != 0
        | .run, some (.bar ..) => true
        | _, _ => false

/-- A block whose gang the scheduler asks to be pre-empted, unless it is asked already: one that a waiting task needs gone, or one that waits while
a ready card of its die has no room (R27, R306). -/
def State.preemptDue (s : State) : Option Nat :=
  let asked := fun (b : Nat) => match s.block? b with
    | some x => x.preempt
    | none => true
  let waiting := s.cards.filterMap fun c => if c.ready then (s.waitingTask c.id).map fun t => (t.2, c) else none
  ((waiting.findSome? fun q => s.preemptFor q.1 q.2).bind fun ts => ts.findSome? fun t => (FMap.find s.tasks t).bind fun x =>
      x.blocks.find? fun b => !asked b).or
    ((s.blocks.find? fun p => !asked p.1 && s.allWait p.1 && canPreemptRequest p.1 s && waiting.any fun q =>
      q.2.die = dieOf p.2.core && (s.findFor q.1 q.2 false).isNone).map (·.1))

/-- PREEMPT_REQUEST (R306): the scheduler's, by `State.preemptDue`, or one that firmware makes of any gang. -/
def execPreemptRequest (b : Nat) (s : State) : Out := event (canPreemptRequest b s) s (doPreemptRequest b s)

/-- Whether an area that a block left is clear (R360). -/
def canScratchClear (c i : Nat) (s : State) : Bool :=
  match (s.core c).clearing[i]? with
  | some a => decide (a.2.2 ≤ s.cycle)
  | none => false
/-- SCRATCH_CLEAR (R360): the space of a departed block counts as unallocated again; its bytes are zero. -/
def execScratchClear (c i : Nat) (s : State) : Out :=
  event (canScratchClear c i s) s (s.modCore c fun x => { x with clearing := x.clearing.eraseIdx i })

end Sys2Proof.Machine
end

