-- ==== Sys2Proof/Machine/Context.lean ====
section
/-! DEFINITION. Saving the context of a pre-empted block, and resuming it (R344 to R348). -/

namespace Sys2Proof.Machine

/-! ## Stop points (R344) -/

/-- Whether a warp has stopped for pre-emption: at a drain point, held before a bundle, held before a successor, or ended. -/
def Warp.stoppedFor (w : Warp) : Bool :=
  match w.stop with
  | .stopped => true
  | .ended => true
  | .before .. => true
  | .run => w.preempt && !w.opened && w.tick = w.due && match w.hold with
      | some (.bar ..) => true
      | some .barTrap => true
      | _ => false
  | _ => false

/-- Whether every warp of a block has stopped, its started operations are over, and no result or flag of a posted operation is still
to come (R184, R344, R345). -/
def State.blockStopped (s : State) (b : Nat) : Bool :=
  match s.block? b with
  | none => false
  | some x =>
    let y := s.core x.core
    x.preempt && (x.warps.all fun k => match s.warp? x.core k with
      | some w => w.trap.isNone && w.stoppedFor
      | none => true) &&
    (y.xops.all fun o => o.block ≠ b || o.waiting) && (y.ops.all fun o => !x.warps.contains o.slot) &&
    y.posted.all fun p => !x.warps.contains p.slot

/-! ## The image of R347 -/

/-- The next multiple of 256. -/
def align256 (n : Nat) : Nat := ceilDiv n 256 * 256

/-- The two words of a barrier in a context: the arrivals of a block's warps by warp index, form, count and generation (R347). -/
def barrierImage (xs : List (Nat × Warp)) (core : Nat) (v : Barrier) : Nat :=
  let arr := xs.foldl (fun (n : Nat) p => if v.arrived.contains (warpId core p.1) then n ||| 2 ^ p.2.windex else n) 0
  let form := match v.form with
    | some (some n) => 2 ^ 32 + n % 512 * 2 ^ 33
    | _ => 0
  arr + form + v.gen % 2 ^ 32 * 2 ^ 64

/-- The bytes of a queued-operation record; bit 16 of its first word is 1 for one that has started, which only a dump holds (R347, R428; log 40). -/
def queuedFields (xs : List (Nat × Warp)) (o : XOp) : List (Nat × Nat × Nat) × Nat :=
  let wi := match xs.find? fun p => p.1 = o.slot with
    | some p => p.2.windex
    | none => 0
  let words := [wi + o.flag * 256 + (if o.waiting then 0 else 2 ^ 16), encode o.instr, o.dst.toNat, o.src.toNat, o.len.toNat, o.len2.toNat, o.arrive.getD 0, 0]
  let head := words.zipIdx.map fun p => (8 * p.2, 8, p.1)
  match o.instr with
  | .cpa _ =>
    let live := (List.range 32).filter o.live.testBit
    let block := fun (i at' : Nat) =>
      let act := o.operands.foldl (fun (n : Nat) p => if p.1 / 32 = i then n ||| 2 ^ (p.1 % 32) else n) 0
      let vals := o.operands.foldl (fun (n : Nat) p => if p.1 / 32 = i then n + p.2 * 2 ^ (64 * (p.1 % 32)) else n) 0
      [(at', 4, act), (at' + 4, 256, vals)]
    (head ++ live.zipIdx.flatMap fun p => block p.1 (64 + 260 * p.2), 64 + 260 * live.length)
  | _ => (head, 64)

/-- The bytes of a warp record: the trap save area with CAUSE 0, then the vector registers (R347). -/
def warpFields (w : Warp) (present : Nat) : List (Nat × Nat × Nat) × Nat :=
  let t : Trap := { cause := 0, slot := 0, faddr := 0, info := 0, tn := w.tick, rpc := w.pc, tib := w.due - w.tick, replay := present, brt := w.brt,
                    defer := false, epc := w.pc }
  let fs := w.areaFields t w.summary w.priv true
  let n := fs.foldl (fun (m : Nat) f => max m (f.1 + f.2.1)) 0x800
  let width := w.width
  let vs := (List.range w.budget).map fun r =>
    (n + 4 * width * r, 4 * width, (List.range width).foldr (fun l v => (w.v r l).toNat + 2 ^ 32 * v) 0)
  (fs ++ vs, n + 4 * width * w.budget)

/-- Records laid one after another from an offset: their fields, and the end. -/
def layRecords : Nat → List (List (Nat × Nat × Nat) × Nat) → List (Nat × Nat × Nat) × Nat
  | at', [] => ([], at')
  | at', r :: rs =>
    let (fs, e) := layRecords (at' + r.2) rs
    (r.1.map (fun f => (at' + f.1, f.2)) ++ fs, e)

/-- The accumulators a context keeps (R346). -/
def keptAccs (k : Kernel) (grant : Bool) : List Nat :=
  if grant then (List.range 8).filter fun t => !(k.restart.isSome && bit k.recomp t) else []

/-- The fields of a block context with given warp records, accumulators and bytes of scratchpad, as (offset, bytes, value) (R347). -/
def State.blockFields (s : State) (x : Block) (t : Task) (c : Card) (xs : List (Nat × Warp)) (q : List XOp) (grant : Bool)
    (recs : List (List (Nat × Nat × Nat) × Nat)) (accs : List Nat) (image : Nat) : List (Nat × Nat × Nat) :=
  let y := s.core x.core
  let bars := (List.range 16).map (fun i => FMap.getD x.bars i Barrier.empty) ++ (List.range 16).map fun i => FMap.getD t.cbars i Barrier.empty
  let (qf, qe) := layRecords 0x500 (q.map (queuedFields xs))
  let woff := align256 qe
  let (wf, we) := layRecords woff recs
  let aoff := align256 we
  let soff := align256 (aoff + 65536 * accs.length)
  let flags := (if c.kernel.restart.isSome then 1 else 0) + (if grant then 2 else 0) + if t.cluster then 4 else 0
  [(0, 2, 1), (2, 1, xs.length), (3, 1, flags), (4, 1, x.grank), (5, 1, FMap.getD c.views (dieOf x.core) 0),
   (6, 1, if c.kernel.restart.isSome then c.kernel.recomp else 0), (7, 1, accs.foldl (fun (n : Nat) a => n + 2 ^ a) 0),
   (8, 8, c.addr.toNat), (0x10, 4, t.number), (0x14, 4, q.length),
   (0x18, 8, (t.first + t.taken) % 2 ^ 32 + (t.count - t.taken) % 2 ^ 32 * 2 ^ 32), (0x20, 8, soff + image), (0x28, 8, 0x500), (0x30, 8, woff),
   (0x38, 8, aoff), (0x40, 8, soff), (0x48, 184, 0),
   (0x100, 512, bars.foldr (fun v n => barrierImage xs x.core v + 2 ^ 128 * n) 0),
   (0x300, 512, (List.range 64).foldr (fun i n => (if grant then (y.strm (i / 4) (i % 4)).toNat else 0) + 2 ^ 64 * n) 0)] ++
  qf ++ wf ++
  (accs.zipIdx.map fun a => (aoff + 65536 * a.2, 65536,
    (List.range 4096).foldr (fun e n => (FMap.getD y.accs (a.1 * 4096 + e) 0).toNat + 2 ^ 128 * n) 0)) ++
  [(soff, image, x.get 0 image)]

/-- The fields of a block context (R347). -/
def State.contextFields (s : State) (x : Block) (t : Task) (c : Card) (xs : List (Nat × Warp)) (q : List XOp) (grant : Bool) : List (Nat × Nat × Nat) :=
  s.blockFields x t c xs q grant (xs.map fun p => warpFields p.2 (p.2.replay.getD (s.presentAt x.core p.2 p.2.pc))) (keptAccs c.kernel grant) x.size

/-! ## Saving (R345) -/

/-- Whether a block's context may be written: the whole gang has stopped. -/
def canBlockContextSave (b area : Nat) (s : State) : Bool :=
  area % 4096 = 0 && s.blockStopped b && match (s.block? b).bind fun x => FMap.find s.tasks x.task with
    | some t => !t.killed && t.blocks.all s.blockStopped
    | none => false

/-- The resident warps of a block with their slots, queued operations' flag increments undone. -/
def State.savedWarps (s : State) (x : Block) (q : List XOp) : List (Nat × Warp) :=
  x.warps.filterMap fun k => (s.warp? x.core k).map fun w =>
    (k, (q.filter fun o => o.slot = k).foldl (fun w o => w.decFlag o.flag) w)

/-- Save a block: its operations and monitors are removed, its context is written, and it leaves the core. -/
def doBlockContextSave (b area : Nat) (s : State) : State :=
  match s.block? b, s.cardOfBlock b with
  | some x, some c =>
    match FMap.find s.tasks x.task with
    | none => s
    | some t =>
      let y := s.core x.core
      let q := y.xops.filter fun o => o.block = b
      let xs := s.savedWarps x q
      let grant : Bool := y.grantee = some b
      let s := (s.contextFields x t c xs q grant).foldl (fun s f => s.cpPut (area + f.1) f.2.1 f.2.2) s
      let keep := keptAccs c.kernel grant
      let saved : SavedBlock :=
        { block := { x with last := y.next, gone := xs.map (fun p => (x.core, p.1, p.2.first, p.2.seq)) ++ x.gone }, area := area,
          warps := xs.foldl (fun (m : FMap Warp) p => FMap.set m p.1 p.2) [], xops := q,
          streams := if grant then y.streams else [], accs := if grant then y.accs.filter fun a => keep.contains (a.1 / 4096) else [],
          grant := grant, restart := c.kernel.restart.isSome, formerCore := x.core }
      let s := { s with monitors := s.monitors.filter fun m => !(m.core = x.core && x.warps.contains m.slot) }
      let s := s.modCore x.core fun (y : CoreSt) =>
        let y : CoreSt := { y with xops := y.xops.filter fun o => o.block ≠ b, grantee := if grant then none else y.grantee
                                   released := if grant then [] else y.released }
        y.settleRamp s.cycle
      let s := x.warps.foldl (fun s k => s.vacate x.core k) s
      let s := (s.dropBlock b).modTask x.task fun t =>
        let left := t.blocks.erase b
        { t with blocks := left, saved := t.saved ++ [saved], placed := left != [], ready := s.cycle }
      let s := if s.cardWaits c then s.modCard c.id fun c => { c with readyAt := s.cycle, aged := 0 } else s
      s.traceRec 10 338 x.core c.queue c.seq t.number 0
  | _, _ => s
/-- BLOCK_CONTEXT_SAVE (R345). -/
def execBlockContextSave (b area : Nat) (s : State) : Out := event (canBlockContextSave b area s) s (doBlockContextSave b area s)

/-! ## Resuming (R346, R348) -/

/-- A saved warp as it starts again: at its stop point, its results in flight as its records hold them, or at the restart label with its loops, records,
holds and flags gone (R331, R336, R346, R348). -/
def resumeWarp (c : Card) (restart : Bool) (now : Nat) (position : Option Nat) (w : Warp) : Warp :=
  let w := { w with position := position, moved := now, since := now, tickStart := now, opened := false, preempt := false, fetch := [],
                    lastLine := none, yielded := false, awaits := none, inTick := false, fell := [],
                    flight := (w.records.map Landing.asRecord).filter Landing.lands, stop := match w.stop with
                      | .ended => .ended
                      | _ => .run }
  match restart, c.kernel.restart with
  | true, some i => { w with pc := c.code + BitVec.ofNat 64 (32 * i), due := w.tick, loops := [], flight := [], landed := [], pendEv := [],
                             flags := [], hold := none, kept := none, keptRetire := 0, replay := none, brt := none, ctl := .none,
                             deferred := [], stretched := false, retire := 0 }
  | _, _ => w

/-- Give the identities of a barrier's arrivals at the new place. -/
def moveBarrier (f : Nat → Nat) (v : Barrier) : Barrier := { v with arrived := v.arrived.map f }

/-- What shootdowns wait for goes by a new number (R353). -/
def State.moveShoots (s : State) (old new : Nat × Nat) : State :=
  { s with shoots := s.shoots.map fun (h : Shoot) => { h with waitOps := h.waitOps.map fun q => if q = old then new else q } }

/-- Install one saved block at a place. -/
def State.installBlock (s : State) (c : Card) (v : SavedBlock) (b : Nat) (p : Placement) : State :=
  let s := s.openCore b p.core c.split c.kernel
  let old := v.warps.map (·.1)
  let slotOf := fun (k : Nat) => ((old.zip p.slots).find? fun q => q.1 = k).elim k (·.2)
  let blk : Block := { v.block with core := p.core, base := p.base, warps := p.slots, bars := if v.restart then [] else v.block.bars,
                                    preempt := false, last := 0 }
  let s := { s with blocks := FMap.set s.blocks b blk }
  let s := if v.grant then s.modCore p.core fun x => { x with streams := v.streams, accs := v.accs } else s
  let s := (v.warps.zip p.slots).foldl (fun s q => s.seatWarp p.core q.2 fun pos => resumeWarp c v.restart s.cycle pos q.1.2) s
  if v.restart then s
  else v.xops.foldl (fun (s : State) o =>
    let (n, s) := s.takeNum p.core
    let k := slotOf o.slot
    let s := if o.tile then s.modCore p.core fun x => x.requestGrant s.cycle else s
    let s := s.moveShoots (v.formerCore, o.id) (p.core, n)
    (s.modWarp p.core k fun w => w.incFlag o.flag).modCore p.core fun x =>
      { x with xops := x.xops ++ [{ o with id := n, slot := k, finish := s.cycle }] }) s

/-- Whether a gang may resume so: every block saved, the entries it left performed, and room at the places (R302, R348). -/
def canBlockResume (g : Nat) (ps : List Placement) (s : State) : Bool :=
  match FMap.find s.tasks g with
  | none => false
  | some t => match s.card? t.card with
    | none => false
    | some c =>
      t.saved != [] && t.blocks = [] && !t.killed && c.ready && gangShape t.cluster ps && ps.length = t.saved.length && s.diesOk c ps &&
        (t.saved.all fun v => (s.core v.formerCore).fifo.all fun e => decide (v.block.last ≤ e.seq)) &&
        (!c.needsView || (ps.zip t.savedInOrder).all fun p => dieOf p.1.core = dieOf p.2.formerCore) &&
        ((ps.zip t.savedInOrder).all fun p => s.roomAt p.1 c.split c.scratch c.kernel p.2.warps.length) && s.blocksAllowed c ps &&
        s.unreserved g ps && s.myTurn c

/-- Resume a gang: every block installed, and every warp started in this cycle. -/
def doBlockResume (g : Nat) (ps : List Placement) (s : State) : State :=
  match (FMap.find s.tasks g).bind fun t => (s.card? t.card).map fun c => (t, c) with
  | none => s
  | some (t, c) =>
    let pairs := ps.zip t.savedInOrder
    let ids := pairs.flatMap fun p => (p.2.warps.zip p.1.slots).map fun q => (warpId p.2.formerCore q.1.1, warpId p.1.core q.2)
    let move := fun (i : Nat) => (ids.find? fun q => q.1 = i).elim i (·.2)
    let (bs, s) := pairs.foldl (fun (acc : List Nat × State) p =>
      let (b, s) := acc.2.newId
      let v := { p.2 with block := { p.2.block with bars := p.2.block.bars.map fun q => (q.1, moveBarrier move q.2) }
                          xops := p.2.xops.map fun o => { o with block := b, units := o.units.map fun u => { u with
                            src := match u.src with
                              | .sp _ off => .sp b off
                              | l => l
                            dst := match u.dst with
                              | .sp _ off => .sp b off
                              | l => l } }
                          warps := p.2.warps.map fun q => (q.1, { q.2 with block := b }) }
      (acc.1 ++ [b], s.installBlock c v b p.1)) ([], s)
    let restart := t.saved.any SavedBlock.restart
    let s := s.modTask g fun t => { t with blocks := bs, saved := [], placed := true,
                                           cbars := if restart then [] else t.cbars.map fun q => (q.1, moveBarrier move q.2) }
    let s := s.modCard c.id fun c => { c with aged := 0 }
    let s := { s with reserved := s.reserved.filter fun p => p.2.1 ≠ g }
    ps.foldl (fun s p => s.traceRec 11 338 p.core c.queue c.seq t.number p.core) s
/-- BLOCK_RESUME (R348). -/
def execBlockResume (g : Nat) (ps : List Placement) (s : State) : Out := event (canBlockResume g ps s) s (doBlockResume g ps s)

end Sys2Proof.Machine
end

