-- ==== Sys2Proof/Machine/Pour.lean ====
section
/-! DEFINITION. Version rings and Pour-Ahead speculation: launches, drafts, shadow pages, commits and squashes (R274 to R276, R309 to
R324). -/

namespace Sys2Proof.Machine

/-! ## Pool pages (R313) -/

/-- Take aligned bytes from the speculation pool of a die. -/
def State.poolTake (s : State) (die align n : Nat) : Option (Nat × State) :=
  match FMap.find s.pools die with
  | none => none
  | some p =>
    let up := fun (a : Nat) => ceilDiv a align * align
    match (up p.base :: p.taken.map fun t => up (t.1 + t.2)).find? fun a =>
        decide (a + n ≤ p.base + p.bytes) && p.taken.all fun t => !overlap a n t.1 t.2 with
    | none => none
    | some a => some (a, { s with pools := FMap.set s.pools die { p with taken := p.taken ++ [(a, n)] } })

/-! ## Shootdowns (R262, R353) -/

/-- The address space of a warp slot, if its warp is resident. -/
def State.asidOf (s : State) (c k : Nat) : Option Nat := (s.warp? c k).map fun w => (s.ctxOf w.block c).1

/-- The blocks of pre-empted gangs, with the address space of each. -/
def State.savedBlocks (s : State) : List (Nat × SavedBlock) :=
  s.tasks.flatMap fun t => match s.card? t.2.card with
    | some c => t.2.saved.map fun v => (c.asid, v)
    | none => []

/-- The operations under way in an address space, by core: asynchronous and engine operations, those of pre-empted blocks too, and every FIFO
entry (R353). -/
def State.underWay (s : State) (asid : Nat) : List (Nat × Nat) :=
  (s.cores.flatMap fun p =>
    ((p.2.ops.filter fun o => s.asidOf p.1 o.slot = some asid).map fun o => (p.1, o.id)) ++
    ((p.2.xops.filter fun o => (s.ctxOf o.block p.1).1 = asid).map fun o => (p.1, o.id)) ++
    (p.2.fifo.map fun e => (p.1, e.seq))) ++
  (s.savedBlocks.filter fun v => v.1 = asid).flatMap fun v => v.2.xops.map fun o => (v.2.formerCore, o.id)

/-- Whether an operation or entry is still under way. -/
def State.pending (s : State) (q : Nat × Nat) : Bool :=
  let x := s.core q.1
  (x.ops.any fun o => o.id = q.2) || (x.xops.any fun o => o.id = q.2) || (x.fifo.any fun e => e.seq = q.2) ||
    s.savedBlocks.any fun v => v.2.formerCore = q.1 && v.2.xops.any fun o => o.id = q.2

/-- Forget the fetched lines of a range: those of every instruction cache, and of every fetch buffer of the address space (R353, R365). -/
def State.dropFetched (s : State) (asid va n : Nat) : State :=
  let hit := fun (l : Nat) => overlap (l % 2 ^ 52) 128 (va % 2 ^ 52) n
  { s with cores := s.cores.map fun (p : Nat × CoreSt) => (p.1, { p.2 with
      icache := p.2.icache.filter fun l => !(l.asid = asid && hit l.va)
      iwant := p.2.iwant.filter fun q => !(q.1 = asid && hit q.2)
      warps := p.2.warps.map fun q => (q.1, if s.asidOf p.1 q.1 = some asid then { q.2 with fetch := q.2.fetch.filter fun l => !hit l.1 } else q.2) }) }

/-- The entries of a shootdown go, on both dies, with the lines fetched through them (R353, R365). -/
def State.shootTlb (s : State) (h : Shoot) : State :=
  (s.dropTlb fun _ t => t.asid = h.asid && (h.view.isNone || h.view = some t.view) && overlap t.va t.size (h.va % 2 ^ 52) h.bytes).dropFetched h.asid h.va
    h.bytes

/-- Begin a shootdown (R353), a command's or a flip's: translations go, tile transactions there translate again, and it stays until every
operation accepted under them is performed. -/
def State.openShoot (s : State) (func : Option Nat) (asid : Nat) (view : Option Nat) (va n : Nat) : State :=
  let (i, s) := s.newId
  let h : Shoot := { id := i, func := func, asid := asid, view := view, va := va, bytes := n, waitOps := s.underWay asid, waitTx := [] }
  let s := (s.shootTlb h).remapTxs asid va n
  { s with shoots := s.shoots ++ [h] }

/-! ## Predictions (R313) -/

/-- The element type of a VRD format. -/
def vrdTy (fmt : Nat) : Ty := (tyOfCode fmt).getD .f32
/-- An element as f32, exactly (R99). -/
def asF32 (fmt x : Nat) : Nat := (Fp.convert Fp.f32 .rne .none (Fp.ofTy (vrdTy fmt) x)).1

/-- `Predict` (R313) of one element from v1 and v0, rounded once into its format. -/
def predict (fmt pred v1 v0 : Nat) : Nat :=
  let a := asF32 fmt v1
  let d := (Fp.sub Fp.f32 .rne false a (asF32 fmt v0)).1
  let p := match pred with
    | 0 => a
    | 1 => (Fp.add Fp.f32 .rne false a d).1
    | 2 => (Fp.add Fp.f32 .rne false a (Fp.mulRound Fp.f32 .rne false d 0x3F00_0000).1).1
    | _ => (Fp.add Fp.f32 .rne false a (Fp.mulRound Fp.f32 .rne false d 0x3E80_0000).1).1
  (Fp.toTy (vrdTy fmt) .rne .none (Fp.ofTy .f32 p)).1

/-- The bytes of a region's whole pages. -/
def Vrd.span (v : Vrd) : Nat := ceilDiv v.bytes (pageSize v.page) * pageSize v.page
/-- The buffer that held version `n`, counted from VERSION now. -/
def Vrd.bufAt (v : Vrd) (n : Nat) : Nat := (v.buf[(v.cur + 3 * 2 ^ 64 - (v.version + 2 ^ 64 - n) % 2 ^ 64) % 3]?).getD 0

/-- The Cupping Unit of a die reads or writes device memory under its own number (R372): the reads that it makes are logged. -/
def State.cupRead (s : State) (die a n : Nat) : State := s.logAccess a n 0 (347 + die)
/-- A write of the Cupping Unit. -/
def State.cupPut (s : State) (die a n v : Nat) : State := s.agentPut (347 + die) a n v

/-- Write a draft: predictions for the region, and the bytes of v1 after it (R313). -/
def State.writeDraft (s : State) (d : Draft) : State :=
  let v := vrdOf (s.devGet d.vrd 64)
  let n := vrdElem v.fmt
  let x1 := s.devGet (v.bufAt d.version) v.span
  let x0 := s.devGet (v.bufAt ((d.version + 2 ^ 64 - 1) % 2 ^ 64)) v.bytes
  let elems := (List.range (v.bytes / n)).foldr (fun i acc =>
    predict v.fmt d.predictor (x1 / 256 ^ (n * i) % 256 ^ n) (x0 / 256 ^ (n * i) % 256 ^ n) % 256 ^ n + 256 ^ n * acc) 0
  let s := (s.cupRead d.die (v.bufAt d.version) v.span).cupRead d.die (v.bufAt ((d.version + 2 ^ 64 - 1) % 2 ^ 64)) v.bytes
  s.cupPut d.die d.page v.span (elems + x1 / 256 ^ v.bytes * 256 ^ v.bytes)

/-! ## Comparing (R320) -/

/-- A finite value in units of 2^−300; an exact integer for every format. -/
def units300 : Fp.Val → Option Int
  | .fin neg m e => let x : Int := (m : Int) * 2 ^ (e + 300).toNat; some (if neg then -x else x)
  | _ => none

/-- Whether one element passes against its draft (R320). -/
def elemPasses (fmt : Nat) (f : Footprint) (a p : Nat) : Bool :=
  match units300 (Fp.ofTy (vrdTy fmt) a), units300 (Fp.ofTy (vrdTy fmt) p) with
  | some x, some y =>
    let t := (units300 (Fp.ofTy .f32 (f.abs % 2 ^ 31))).getD 0
    if f.reln = 0xFF then decide ((x - y).natAbs ≤ t.natAbs)
    else decide ((x - y).natAbs * 2 ^ f.reln ≤ t.natAbs * 2 ^ f.reln + x.natAbs)
  | _, _ => a = p

/-- Whether a footprint passes: no block of 4,096 elements holds more than OUTL failures (R320). -/
def State.comparePasses (s : State) (v : Vrd) (f : Footprint) (draft committed : Nat) : Bool :=
  let n := vrdElem v.fmt
  let a := s.devGet committed v.bytes
  let p := s.devGet draft v.bytes
  let count := v.bytes / n
  (List.range (ceilDiv count 4096)).all fun b =>
    let bad := (List.range (min 4096 (count - 4096 * b))).filter fun i =>
      let k := n * (4096 * b + i)
      !elemPasses v.fmt f (a / 256 ^ k % 256 ^ n) (p / 256 ^ k % 256 ^ n)
    decide (bad.length ≤ f.outl)

/-- The draft that a footprint of a card reads. -/
def State.draftOf (s : State) (c : Card) (i : Nat) : Option (Footprint × Draft) :=
  match c.fps[i]? with
  | none => none
  | some f => (s.drafts.find? fun d => d.die = c.die && s.vaPa c.asid f.vrd = some d.vrd && d.predictor = f.predictor &&
      FMap.find c.drafts i = some d.version).map fun d => (f, d)

/-- Compare one speculated footprint of a card, when its producer's version is there: it passes, or a squash is due (R317, R320). -/
def State.compareFp (s : State) (id i : Nat) : State :=
  match s.card? id with
  | none => s
  | some c => match s.draftOf c i with
    | none => s
    | some (f, d) =>
      let v := vrdOf (s.devGet d.vrd 64)
      if v.version = d.version || c.passed.contains i then s
      else
        let a := v.bufAt ((d.version + 1) % 2 ^ 64)
        let t := (s.cupRead c.die a v.bytes).cupRead c.die d.page v.bytes
        if s.comparePasses v f d.page a then t.modCard id fun c => { c with passed := i :: c.passed }
        else t.modCard id fun c => { c with failed := true }

/-! ## Launch (R314, R315) -/

/-- How an unresolved edge may be launched over: a draft edge, or a chained one. -/
inductive EdgeUse where
  | draft | chained
  deriving DecidableEq, Repr

/-- Whether an edge of a footprint pair is RAW and nothing else. -/
def rawOnly (p : Footprint × Footprint) : Bool := p.1.wr && p.2.rd && !p.2.wr

/-- Whether a footprint pair is a draft edge of a card (R314). -/
def State.draftPair (s : State) (k : Card) (p : Footprint × Footprint) : Bool :=
  rawOnly p && p.1.pred && p.2.pred && match s.vaPa k.asid p.2.vrd with
    | none => false
    | some a =>
      let v := vrdOf (s.devGet a 64)
      decide ((if p.2.predictor = 0 then 1 else 2) ≤ v.hist) && !k.banned.contains (a, v.version)

/-- Whether a card has completed every task. -/
def State.allTasks (s : State) (c : Card) : Bool := c.dealt = c.argCount && s.tasksOf c.id = []

/-- Whether no other unresolved source of a card writes what a footprint of it reads: the producer is the region's only uncommitted writer
(R314; log 71). -/
def State.soleWriter (s : State) (x k : Card) (f : Footprint) : Bool :=
  k.edges.all fun i => i = x.id || match s.card? i with
    | none => true
    | some o => !(o.fps.any fun g => g.wr && overlap g.base g.bytes f.base f.bytes)

/-- The use of the edge from a source card (R314). -/
def State.edgeUse (s : State) (x k : Card) : Option EdgeUse :=
  let ps := edgePairs x k
  if !x.finished && ps.all fun p => s.draftPair k p && s.soleWriter x k p.2 then some .draft
  else if ps.all rawOnly && x.spec = .running && x.depth = 1 && s.allTasks x then some .chained
  else none

/-- The unresolved sources of a card with their uses. -/
def State.sources (s : State) (k : Card) : List (Card × Option EdgeUse) :=
  k.edges.filterMap fun i => (s.card? i).map fun x => (x, s.edgeUse x k)

/-- The footprints of a card that read drafts. -/
def State.draftFps (s : State) (k : Card) : List Nat :=
  let ds := (s.sources k).filterMap fun p => if p.2 = some .draft then some p.1 else none
  (k.fps.zipIdx.filter fun q => ds.any fun x => (edgePairs x k).any fun p => p.2 = q.1).map (·.2)

/-- Take the pool pages of the drafts that a card needs and that no card has yet; none when the pool cannot hold them. -/
def State.makeDrafts (s : State) (k : Card) : List Nat → Option State
  | [] => some s
  | i :: is =>
    match k.fps[i]? with
    | none => s.makeDrafts k is
    | some f => match s.vaPa k.asid f.vrd with
      | none => none
      | some a =>
        let v := vrdOf (s.devGet a 64)
        if s.drafts.any fun d => d.vrd = a && d.version = v.version && d.predictor = f.predictor && d.die = k.die then s.makeDrafts k is
        else match s.poolTake k.die (pageSize v.page) v.span with
          | none => none
          | some (p, s) =>
            let d : Draft := ⟨a, v.version, f.predictor, p, v.span, k.die, false⟩
            State.makeDrafts { s with drafts := s.drafts ++ [d] } k is

/-- Whether a page of 1 GiB backs a write footprint: one lies at an end of it, or within it at some step of 1 GiB (R316). -/
def State.writesHuge (s : State) (k : Card) : Bool :=
  k.fps.any fun f => f.wr && ((f.base + f.bytes - 1) :: (List.range (ceilDiv f.bytes (2 ^ 30))).map fun i => f.base + 2 ^ 30 * i).any fun a => match s.walk k.die k.asid 0 a .write true with
    | .ok t => t.size = 2 ^ 30
    | .error _ => false

/-- The depth of a launch (R314). -/
def launchDepth (xs : List (Card × Option EdgeUse)) : Nat := if xs.any fun p => p.2 = some .chained then 2 else 1

/-- Whether a card may be launched speculatively now (R314). -/
def canSpecLaunch (id : Nat) (s : State) : Bool :=
  match s.card? id with
  | none => false
  | some k =>
    let xs := s.sources k
    k.spec = .plain && k.dealt = 0 && s.tasksOf id = [] && k.shadows = [] && k.edges != [] && xs.all (fun p => p.2.isSome) &&
      s.specOf k.rcb && !s.detOf k.rcb && decide (launchDepth xs ≤ s.depthOf k.rcb) && (s.freeView k.die).isSome && !s.writesHuge k &&
      (s.makeDrafts k (s.draftFps k)).isSome

/-- The overrides of a launched card's view beside its own next buffers: its drafts, and what its chained sources wrote (R315). -/
def State.launchOverrides (s : State) (k : Card) (view : Nat) (chained : List Card) : List Override :=
  (k.drafts.filterMap fun i => (s.draftOf k i.1).map fun p => ⟨k.die, view, p.1.base % 2 ^ 52, p.2.bytes, p.2.page⟩) ++
  chained.flatMap fun j => match FMap.find j.views k.die with
    | none => []
    | some v => (s.overrides.filter fun o => o.die = k.die && o.view = v && j.fps.any fun f => f.wr && overlap o.va o.size (f.base % 2 ^ 52) f.bytes).map
        fun o => { o with view := view }

/-- Launch a card speculatively (R315). -/
def doSpecLaunch (id : Nat) (s : State) : State :=
  match s.card? id with
  | none => s
  | some k =>
    let xs := s.sources k
    let ds := s.draftFps k
    let chained := xs.filterMap fun p => if p.2 = some .chained then some p.1 else none
    match s.makeDrafts k ds, s.freeView k.die with
    | some s, some v =>
      let depth := launchDepth xs
      let vs := ds.foldl (fun (m : FMap Nat) i => FMap.set m i (((k.fps[i]?).bind fun f => s.vrd? k.asid f).elim 0 Vrd.version)) []
      let k := { k with spec := .drafting, depth := depth, drafts := vs, chained := chained.map (·.id), passed := [] }
      let s := (s.modCard id fun _ => k).takeView id k.die v
      let s := { s with overrides := s.overrides ++ s.launchOverrides k v chained }
      (s.rcbCount k.rcb 0x40).traceRec 7 (347 + k.die) 0 k.queue k.seq 0 depth
    | _, _ => s
/-- SPEC_LAUNCH (R314). -/
def execSpecLaunch (id : Nat) (s : State) : Out := event (canSpecLaunch id s) s (doSpecLaunch id s)

/-- Whether a card waits for its drafts. -/
def canDraftWritten (id : Nat) (s : State) : Bool :=
  match s.card? id with
  | some k => k.spec = .drafting
  | none => false
/-- The drafts of a card are written and its tasks may be dealt, so that it is ready from now on (R305); a producer that has committed meanwhile is compared at once (R315,
R317). -/
def doDraftWritten (id : Nat) (s : State) : State :=
  match s.card? id with
  | none => s
  | some k =>
    let mine := k.drafts.filterMap fun i => (s.draftOf k i.1).map (·.2)
    let s := (mine.eraseDups.filter fun d => !d.written).foldl State.writeDraft s
    let s := { s with drafts := s.drafts.map fun d => if mine.contains d then { d with written := true } else d }
    let s := s.modCard id fun k => { k with spec := .running, readyAt := s.cycle, aged := 0 }
    k.drafts.foldl (fun s i => s.compareFp id i.1) s
/-- DRAFT_WRITTEN (R315). -/
def execDraftWritten (id : Nat) (s : State) : Out := event (canDraftWritten id s) s (doDraftWritten id s)

/-! ## Producers (R311) -/

/-- Whether a producer waits for the copy of its region. -/
def canPbufCopyDone (id : Nat) (s : State) : Bool :=
  match s.card? id with
  | some c => c.ringCopy && c.ready
  | none => false
/-- Copy PBUF[CUR] into PBUF[NEXT] for every RW region (R311). -/
def doPbufCopyDone (id : Nat) (s : State) : State :=
  match s.card? id with
  | none => s
  | some c =>
    let s := (c.fps.filter fun f => f.pred && f.rd && f.wr).foldl (fun s f => match s.vrd? c.asid f with
      | some v =>
        let cur := (v.buf[v.cur]?).getD 0
        (s.cupRead c.die cur v.bytes).cupPut c.die ((v.buf[(v.cur + 1) % 3]?).getD 0) v.bytes (s.devGet cur v.bytes)
      | none => s) s
    s.modCard id fun c => { c with ringCopy := false }
/-- PBUF_COPY_DONE (R311). -/
def execPbufCopyDone (id : Nat) (s : State) : Out := event (canPbufCopyDone id s) s (doPbufCopyDone id s)

/-- The address of the leaf entry of an address, from a table of level `lv` (R349 to R351). -/
def State.leafAt (s : State) (va : Nat) : Nat → Nat → Nat → Option Nat
  | 0, _, _ => none
  | fuel + 1, lv, tb =>
    let at' := tb + 8 * levelIndex va lv
    let e := s.devGet at' 8
    if !bit e 0 || s.malformed e lv then none
    else if bit e 1 then some at'
    else s.leafAt va fuel (lv + 1) (bits e 53 8 * 256)

/-- Point the normal mapping of a range at another buffer: the address of each leaf changes (R309, R311). -/
def State.remap (s : State) (die asid va page n buf : Nat) : State :=
  match s.root asid with
  | none => s
  | some tb => (List.range (n / page)).foldl (fun s (i : Nat) =>
      match s.leafAt ((va + page * i) % 2 ^ 52) 4 0 tb with
      | none => s
      | some at' =>
        let e := s.devGet at' 8
        s.cupPut die at' 8 (e % 2 ^ 8 + (buf + page * i) / 256 * 2 ^ 8 + e / 2 ^ 54 * 2 ^ 54)) s

/-- The predictable regions that a card writes, each once, by the first of its footprints on it (R309, R311). -/
def Card.regions (c : Card) : List Footprint :=
  (c.fps.filter fun f => f.pred && f.wr).foldl (fun xs f => if xs.any fun g => g.vrd = f.vrd then xs else xs ++ [f]) []

/-- Flip one region to its next buffer: CUR, HIST and VERSION, the normal mapping, and the shootdown of its translations (R262, R311). -/
def State.flipRegion (s : State) (c : Card) (f : Footprint) : State :=
  match s.vrd? c.asid f with
  | some v =>
    let nxt := (v.cur + 1) % 3
    let s := ((s.structPut c.asid (f.vrd + 0x29) 1 nxt).structPut c.asid (f.vrd + 0x2A) 1 (min (v.hist + 1) 3)).structPut c.asid (f.vrd + 0x30) 8
      ((v.version + 1) % 2 ^ 64)
    let s := s.remap c.die c.asid v.base (pageSize v.page) v.span ((v.buf[nxt]?).getD 0)
    s.openShoot none c.asid none v.base v.span
  | none => s

/-- Whether a producer's regions may flip: it has completed every task and, if it was speculative, committed (R311, R317). -/
def canProducerCommit (id : Nat) (s : State) : Bool :=
  match s.card? id with
  | some c => c.flips && !c.ringCopy && s.tasksDone c && (c.spec = .plain || c.spec = .committed)
  | none => false
/-- The regions flip in one step, and every card that speculates on them is compared (R311, R317, R320). -/
def doProducerCommit (id : Nat) (s : State) : State :=
  match s.card? id with
  | none => s
  | some c =>
    let s := c.regions.foldl (fun s f => s.flipRegion c f) s
    let s := s.modCard id fun c => { c with finished := true }
    (s.cards.filter fun k => k.spec = .running).foldl (fun s k => k.drafts.foldl (fun s i => s.compareFp k.id i.1) s) s
/-- PRODUCER_COMMIT (R311). -/
def execProducerCommit (id : Nat) (s : State) : Out := event (canProducerCommit id s) s (doProducerCommit id s)

/-! ## Shadow pages (R316) -/

/-- Whether an M slot writes global memory. -/
def mWrites (i : Instr) : Option MOp :=
  match i with
  | .stG o | .stGRel o | .casG o | .atomGAdd o | .atomGAnd o | .atomGOr o | .atomGXor o | .atomGXchg o | .atomGMinI o | .atomGMaxI o
  | .atomGMinN o | .atomGMaxN o | .atomGFadd o | .redGAdd o | .redGAnd o | .redGOr o | .redGXor o | .redGMinI o | .redGMaxI o
  | .redGMinN o | .redGMaxN o | .redGFadd o => some o
  | _ => none

/-- The two ends of a byte range. -/
def rangeEnds (r : Nat × Nat) : List Nat := if r.2 = 0 then [] else [r.1, (r.1 + (r.2 - 1)) % 2 ^ 64]

/-- The global addresses that the slots of a bundle write, one at least for each page. -/
def State.writeAddrs (s : State) (c k : Nat) (w : Warp) (i : Instr) : List Nat :=
  match mWrites i, i with
  | some o, _ => (w.accs o false).map (·.2)
  | none, .vspill o => rangeEnds (w.baseOff o, w.slotBytes)
  | none, .tst o => (tstRange s o c k).flatMap rangeEnds
  | none, .tstac o => rangeEnds (tstacRange o w)
  | none, .tsave o => rangeEnds ((w.s o.dstb.val).toNat, accBytes)
  | none, .cpb o => (copyRanges (geoCpb o w)).flatMap rangeEnds
  | none, .cp2d o => (copyRanges (geoCp2d o w)).flatMap rangeEnds
  | none, _ => []

/-- The first address for which the bundle due waits for a shadow page (R316). -/
def State.shadowWanted (s : State) (c k : Nat) (w : Warp) : Option Nat :=
  match w.dueOps with
  | none => none
  | some o => (([o.m, o.x].filterMap id).flatMap fun i => s.writeAddrs c k w i).find? fun a =>
      s.needsShadow w.block c a && match s.place c w .write a with
        | some (q, _) => !q.ms && !q.pod && q.pa.space = .hbm && q.size ≠ 2 ^ 30
        | none => false

/-- Whether a waiting write needs a shadow page. -/
def canShadowFill (c k : Nat) (s : State) : Bool := s.testWarp c k fun w => w.stop = .accept && (s.shadowWanted c k w).isSome
/-- Take a shadow page and fill it with what the card's view sees; a pool that is empty makes a squash due (R316, R318). -/
def doShadowFill (c k : Nat) (s : State) : State :=
  s.onWarp c k fun w =>
    match s.shadowWanted c k w, s.cardOfBlock w.block with
    | some va, some card =>
      let (asid, view) := s.ctxOf w.block c
      match s.walk (dieOf c) asid view va .write true, s.walk (dieOf c) asid 0 va .write true with
      | .ok t, .ok real =>
        match s.poolTake card.die t.size t.size with
        | none => s.modCard card.id fun x => { x with failed := true }
        | some (page, s) =>
          let s := (s.cupRead card.die t.pa.addr t.size).cupPut card.die page t.size (s.devGet t.pa.addr t.size)
          let os : List Override := card.views.map fun p => ⟨p.1, p.2, t.va, t.size, page⟩
          let s := { s with overrides := os ++ s.overrides }
          let s := s.modCard card.id fun x => { x with shadows := x.shadows ++ [⟨t.va, t.size, page, real.pa.addr⟩] }
          s.dropTlb fun d u => u.asid = asid && FMap.find card.views (dieOf d) = some u.view && u.view ≠ 0 && overlap u.va u.size t.va t.size
      | _, _ => s
    | _, _ => s
/-- SHADOW_FILL (R316). -/
def execShadowFill (c k : Nat) (s : State) : Out := event (canShadowFill c k s) s (doShadowFill c k s)

/-! ## Commit (R319) -/

/-- Where a byte of a shadow page goes at the flip. -/
def flipPa (hs : List Shadow) (p : Pa) : Pa :=
  match hs.find? fun h => p.space = .hbm && decide (h.page ≤ p.addr) && decide (p.addr < h.page + h.size) with
  | some h => { p with addr := h.real + (p.addr - h.page) }
  | none => p

/-- An access moved by a flip. -/
def LaneAcc.flip (hs : List Shadow) (a : LaneAcc) : LaneAcc := { a with pa := flipPa hs a.pa }
/-- A place moved by a flip. -/
def Loc.flip (hs : List Shadow) : Loc → Loc
  | .glob p ms => .glob (flipPa hs p) ms
  | l => l
/-- An engine operation moved by a flip. -/
def XOp.flip (hs : List Shadow) (o : XOp) : XOp := { o with units := o.units.map fun u => { u with src := u.src.flip hs, dst := u.dst.flip hs } }
/-- A warp whose `ldc` waits for lines, moved by a flip. -/
def Warp.flip (hs : List Shadow) (w : Warp) : Warp :=
  { w with flight := w.flight.map fun l => { l with want := l.want.map fun q => (q.1, flipPa hs q.2) } }
/-- A transaction moved by a flip: on the new lines it asks for its locks again, with the timestamp it has (R262). -/
def Tx.flip (hs : List Shadow) (now : Nat) (t : Tx) : Tx :=
  let moved := fun (l : Nat) => (flipPa hs ⟨.hbm, 128 * l⟩).addr / 128
  if t.lines.any fun l => moved l.1 != l.1 then
    { t with lines := t.lines.foldl (fun (m : FMap LockPhase) l => FMap.set m (moved l.1) .wanted) [], resume := now }
  else t
/-- An entry moved by a flip. -/
def FifoEntry.flip (hs : List Shadow) (e : FifoEntry) : FifoEntry :=
  let line := flipPa hs e.line
  { e with line := line, bytes := e.bytes.map fun b => (line.addr + (b.1 - e.line.addr), b.2), lanes := e.lanes.map (LaneAcc.flip hs) }

/-- What is under way toward shadow pages, of pre-empted blocks too, goes on toward the pages they become (R319, R323). -/
def State.flipAll (s : State) (hs : List Shadow) : State :=
  { s with
    cores := s.cores.map fun (p : Nat × CoreSt) => (p.1, { p.2 with
      fifo := p.2.fifo.map (FifoEntry.flip hs)
      ops := p.2.ops.map fun o => { o with todo := o.todo.map (LaneAcc.flip hs) }
      xops := p.2.xops.map (XOp.flip hs)
      warps := p.2.warps.map fun q => (q.1, q.2.flip hs)
      l1want := p.2.l1want.map (flipPa hs) })
    tasks := s.tasks.map fun p => (p.1, { p.2 with saved := p.2.saved.map fun v =>
      { v with xops := v.xops.map (XOp.flip hs), warps := v.warps.map fun q => (q.1, q.2.flip hs) } })
    txs := s.txs.map (Tx.flip hs s.cycle)
    monitors := s.monitors.map fun m => { m with pa := (flipPa hs ⟨.hbm, m.pa⟩).addr } }

/-- Whether a buffered enqueue may enter its queue: the release before it is complete, and the ring has room (R239, R293). -/
def State.bufferedFree (s : State) (e : Enqueue) : Bool :=
  (match e.marker with
   | some m => ((s.core e.core).marker? m).isNone
   | none => true) && s.ringFree e.queue

/-- Put the buffered enqueues of a committed card into their queues, in order, while they may enter (R293, R319). -/
def State.releaseBuffered (s : State) (id : Nat) : List Enqueue → State
  | [] => s
  | e :: es =>
    if s.bufferedFree e then ((s.modCard id fun c => { c with buffered := es }).enqueue e.queue e.card).releaseBuffered id es
    else s.modCard id fun c => { c with buffered := e :: es }

/-- Whether a card may commit, or has enqueues left to release: the flips of its producers are complete, their shootdowns included (R275, R317,
R319). -/
def canSpecCommit (id : Nat) (s : State) : Bool :=
  match s.card? id with
  | none => false
  | some k =>
    if k.spec = .committed then match k.buffered with
      | e :: _ => s.bufferedFree e
      | [] => false
    else (s.shoots.all fun h => h.func.isSome || h.asid != k.asid) && k.spec = .running && !k.failed && (k.drafts.all fun i => k.passed.contains i.1) &&
      k.chained.all fun j => match s.card? j with
        | some x => x.spec = .committed
        | none => true

/-- A shadow page with the place that the normal view maps its page to now: its producer's flip may have moved it (R311, R319). -/
def State.shadowNow (s : State) (k : Card) (h : Shadow) : Shadow :=
  match s.walk k.die k.asid 0 (h.va + h.va / 2 ^ 51 * (2 ^ 64 - 2 ^ 52)) .write true with
  | .ok t => { h with real := (s.localAddr (t.paOf h.va)).getD h.real }
  | .error _ => h

/-- The flip of a card's shadow pages: their contents take the place of the real ones at one instant, with the monitors of those bytes;
the pages return to the pool (R275, R319). -/
def State.flipShadows (s : State) (k : Card) : State :=
  let hs := k.shadows.map (s.shadowNow k)
  let s := hs.foldl (fun s h => (s.devPut h.real h.size (s.devGet h.page h.size)).clearPoison h.real h.size) s
  let pages := hs.map (·.page)
  let s := { s with overrides := s.overrides.filter fun o => !pages.contains o.page }.flipAll hs
  let s := s.dropTlb fun _ t => t.asid = k.asid && pages.contains t.pa.addr
  let s := s.dropL1 (hs.flatMap fun h => [(h.page, h.size), (h.real, h.size)])
  let s := hs.foldl (fun s h => (s.evalMonitors h.real h.size).poolFree k.die h.page) s
  s.modCard k.id fun k => { k with shadows := [] }

/-- Commit a card (R319). -/
def doSpecCommit (id : Nat) (s : State) : State :=
  match s.card? id with
  | none => s
  | some k =>
    if k.spec = .committed then s.releaseBuffered id k.buffered
    else
      let s := (s.flipShadows k).modCard id fun k => { k with spec := .committed }
      let s := s.releaseBuffered id k.buffered
      (s.rcbCount k.rcb 0x48).traceRec 8 (347 + k.die) 0 k.queue k.seq 0 k.depth
/-- SPEC_COMMIT (R319). -/
def execSpecCommit (id : Nat) (s : State) : Out := event (canSpecCommit id s) s (doSpecCommit id s)

/-! ## Squash (R318) -/

/-- Squash one card: its tasks are killed, what it holds is discarded, and it waits again with its records undealt. -/
def State.squash1 (s : State) (k : Card) : State :=
  let s := (s.tasksOf k.id).foldl (fun s t => (s.killTask t.1).modTask t.1 fun x => { x with squashed := true }) s
  let versions := k.drafts.filterMap fun i => (s.draftOf k i.1).map fun p => (p.2.vrd, p.2.version)
  let s := s.freeViews k
  let s := s.modCard k.id fun c =>
    { c with spec := .plain, depth := 0, drafts := [], chained := [], passed := [], banned := c.banned ++ versions, buffered := [], dealt := 0,
             tasksDealt := 0, failed := false, readyAt := s.cycle, aged := 0, ringCopy := c.fps.any fun f => f.pred && f.rd && f.wr }
  ((s.rcbCount k.rcb 0x50).returnShadows k.id).freeDrafts.traceRec 9 (347 + k.die) 0 k.queue k.seq 0 k.depth

/-- Squash a card and every card chained to it, in one step. -/
def State.squash (s : State) (id : Nat) : State :=
  match s.card? id with
  | none => s
  | some k =>
    let deps := s.cards.filter fun c => c.speculating && c.chained.contains id
    deps.foldl State.squash1 (s.squash1 k)

/-- Whether a squash is due (R317). -/
def canSpecSquash (id : Nat) (s : State) : Bool :=
  match s.card? id with
  | some k => k.failed && k.speculating
  | none => false
/-- SPEC_SQUASH (R318). -/
def execSpecSquash (id : Nat) (s : State) : Out := event (canSpecSquash id s) s (s.squash id)

end Sys2Proof.Machine
end

