-- ==== Sys2Proof/Machine/Loader.lean ====
section
/-! DEFINITION. Checking an HXO object: its header, sections and signature, the decode checks of its code, and the limits of its kernels
(R66 to R78, R399, R412, R413, R416). -/

namespace Sys2Proof.Machine

/-! ## Signatures (R70, R413) -/

/-- Whether a public key has a hash and a signature of `len` bytes of data verifies under it (R70, R413); numbers hold bytes, first byte
lowest. -/
def verifies (hash keyLen key sigLen sig len data : Nat) : Bool :=
  shaOf keyLen key = hash && hssVerify (bytesOf keyLen key) (bytesOf sigLen sig) (bytesOf len data)

/-! ## Header and sections (R66, R67) -/

/-- An entry of the section table (R67). -/
structure Section where
  ty : Nat
  flags : Nat
  off : Nat
  size : Nat
  align : Nat
  res : Nat
  deriving DecidableEq, Repr

/-- Entry `i` of the section table of an object. -/
def sectionAt (img i : Nat) : Section :=
  let y := fieldAt img (fieldAt img 0x18 8 + 32 * i) 32
  ⟨fieldAt y 0 4, fieldAt y 4 4, fieldAt y 8 8, fieldAt y 0x10 8, fieldAt y 0x18 4, fieldAt y 0x1C 4⟩

/-- The sections of an object. -/
def sectionsOf (img : Nat) : List Section := (List.range (min (fieldAt img 0x10 4) 64)).map fun i => sectionAt img i

/-- The first section of a type. -/
def Section.ofType (xs : List Section) (ty : Nat) : Option Section := xs.find? fun x => x.ty = ty

/-- Whether one section is in range (R67). That its offset is a multiple of its alignment is the model's reading of that field: R67 gives the
field and its range and no such check (DESIGN CHOICE, log 82). -/
def sectionOk (len : Nat) (x : Section) : Bool :=
  decide (1 ≤ x.ty) && decide (x.ty ≤ 9) && x.flags = 0 && x.res = 0 && (List.range 13).any (fun i => x.align = 2 ^ i) &&
    x.off % x.align = 0 && decide (x.off + x.size ≤ len)

/-- Whether two sections share a byte. -/
def Section.overlaps (x y : Section) : Bool :=
  decide (0 < x.size) && decide (0 < y.size) && decide (x.off < y.off + y.size) && decide (y.off < x.off + x.size)

/-- Whether no two sections overlap, none but CODE's type is missing or double, and a SIGNATURE section ends the file, behind every section and
the section table, which ends at `tabEnd` (R67). -/
def sectionsOk (xs : List Section) (tabEnd len : Nat) : Bool :=
  (xs.zipIdx.all fun p => (xs.drop (p.2 + 1)).all fun y => !p.1.overlaps y) &&
  (List.range 10).all (fun ty => decide ((xs.filter fun x => x.ty = ty).length ≤ 1)) && (Section.ofType xs 1).isSome &&
  match Section.ofType xs 8 with
  | some g => decide (tabEnd ≤ g.off) && g.off + g.size = len && xs.all fun x => x.ty = 8 || decide (x.off + x.size ≤ g.off)
  | none => true

/-- Whether a kernel descriptor of 64 bytes meets R68; `n` is the number of bundles. Two records of one role are refused, as R64 has it of the source
(DESIGN CHOICE, log 90). -/
def kernelOk (n x : Nat) : Bool :=
  let roles := (List.range 3).map fun (i : Nat) => fieldAt x (0x18 + 8 * i) 8
  let used := roles.take (fieldAt x 0x10 1)
  let restart := fieldAt x 0x14 4
  fieldAt x 8 4 % 1024 = 0 && decide (fieldAt x 0xC 1 ≤ 2) && decide (fieldAt x 0xD 1 ≤ 1) && decide (1 ≤ fieldAt x 0x10 1) &&
    decide (fieldAt x 0x10 1 ≤ 3) && decide (fieldAt x 0x11 1 ≤ 1) && fieldAt x 0x13 1 = 0 && fieldAt x 0x30 16 = 0 &&
    (restart = 0xFFFF_FFFF || decide (restart < n)) && (roles.drop used.length).all (fun r => r = 0) &&
    (used.all fun r => decide (fieldAt r 0 4 < n) && decide (fieldAt r 4 1 ≤ 2)) && (used.map fun r => fieldAt r 4 1).eraseDups.length = used.length

/-- Whether a buffer record of 32 bytes meets R69. -/
def bufferOk (x : Nat) : Bool :=
  fieldAt x 8 8 ≠ 0 && decide (fieldAt x 0x10 1 ≤ 2) && decide (fieldAt x 0x11 1 ≤ 1) && fieldAt x 0x12 14 = 0

/-- Records of `n` bytes of a section. -/
def recordsOf (img : Nat) (x : Section) (n : Nat) : List Nat := (List.range (x.size / n)).map fun (i : Nat) => fieldAt img (x.off + n * i) n

/-- The bundles of an object. -/
def bundlesOf (img : Nat) : List Nat := match Section.ofType (sectionsOf img) 1 with
  | some c => recordsOf img c 32
  | none => []

/-- The kernel descriptors of an object. -/
def kernelsOf (img : Nat) : List Nat := match Section.ofType (sectionsOf img) 3 with
  | some k => recordsOf img k 64
  | none => []

/-- Whether a job-card image keeps R294 and R295, from its bytes on; the fields that the runtime fills in hold anything. -/
def cardImageOk (x : Nat) : Bool :=
  fieldAt x 0 2 = 1 && decide (fieldAt x 2 1 ≤ 16) && bits (fieldAt x 3 1) 7 3 = 0 && decide (fieldAt x 4 1 ≤ 2) && fieldAt x 5 1 = 0 &&
    decide (fieldAt x 6 2 ≤ 1024) && fieldAt x 8 4 % 1024 = 0 && fieldAt x 0xC 4 = 0 && decide (1 ≤ fieldAt x 0x30 4) &&
    decide (fieldAt x 0x30 4 ≤ fieldAt x 0x34 4) && fieldAt x 0x38 8 % 8 = 0 && bits (fieldAt x 0x48 2) 15 2 = 0 && decide (fieldAt x 0x4A 2 ≤ 2047) &&
    fieldAt x 0x4C 4 = 0 && fieldAt x 0x70 16 = 0 && (List.range (fieldAt x 2 1)).all fun i => footprintOk (fieldAt x (128 + 32 * i) 32)

/-- Whether `n` bytes hold job-card images one after another, with zero bytes between them in units of 32 (R67; the spec gives no packing, log
82); `fuel` bounds the units. -/
def cardsOk : Nat → Nat → Nat → Bool
  | 0, n, _ => n = 0
  | fuel + 1, n, x =>
    if n = 0 then true
    else if n < 32 then x % 256 ^ n = 0
    else if x % 2 ^ 256 = 0 then cardsOk fuel (n - 32) (x / 2 ^ 256)
    else
      let k := 128 + 32 * fieldAt x 2 1
      decide (k ≤ n) && cardImageOk x && cardsOk fuel (n - k) (x / 256 ^ k)

/-- Whether the SIGNATURE section verifies under a key hash (R70). -/
def signed (img hash : Nat) : Bool :=
  match Section.ofType (sectionsOf img) 8 with
  | none => false
  | some g =>
    let y := fieldAt img g.off g.size
    let kl := fieldAt y 0 4
    let sl := fieldAt y 4 4
    decide (16 + kl + sl ≤ g.size) && fieldAt y 8 8 = 0 && fieldAt y (16 + kl + sl) (g.size - (16 + kl + sl)) = 0 &&
      verifies hash kl (fieldAt y 16 kl) sl (fieldAt y (16 + kl) sl) g.off (fieldAt img 0 g.off)

/-! ## Code (R77, R78) -/

/-- Whether a guard is always true. -/
def Guard.always (g : Guard) : Bool := g.idx.val = 0 && !g.neg

/-- A slot of a decoded bundle. -/
def slotOk (d : SlotD) : Bool := match d with
  | .bad _ => false
  | _ => true

/-- The offset of a branch in bundles (R53). -/
def hop (o : CBOp) : Int := signExt o.off.toNat 24

/-- Where control goes from bundle `i`, both outcomes of every conditional transfer; indirect transfers are not followed (R78). A `call`
goes to its target and, for the return, to the bundle after it. A bundle with F or L falls through when its slots are suppressed (R37). -/
def exitsOf (b : Bundle) (i : Nat) : List Int :=
  let next : Int := i + 1
  let cond := fun (g : Guard) (t : List Int) => if Guard.always g && !b.hdr.f && !b.hdr.l then t else t ++ [next]
  match b.c with
  | .ok (.br o) => cond o.guard [i + hop o]
  | .ok (.jmp o) => cond o.guard [i + hop o]
  | .ok (.brAny o) => [i + hop o, next]
  | .ok (.brAll o) => [i + hop o, next]
  | .ok (.brU o) => [i + hop o, next]
  | .ok (.call o) => [i + hop o, next]
  | .ok (.loop o) => [i + hop o + 1, next]
  | .ok (.jmpr o) => cond o.guard []
  | .ok (.ret o) => cond o.guard []
  | .ok (.exit o) => cond o.guard []
  | .ok (.hret o) => cond o.guard []
  | _ => [next]

/-- Whether a bundle may end without its C slot having left it: it has no transfer or exit that is always made, so that the loop step of R224 comes. -/
def stepsOn (b : Bundle) : Bool :=
  let may := fun (g : Guard) => !Guard.always g || b.hdr.f || b.hdr.l
  match b.c with
  | .ok (.br o) | .ok (.jmp o) | .ok (.call o) => may o.guard
  | .ok (.jmpr o) | .ok (.ret o) | .ok (.exit o) | .ok (.hret o) => may o.guard
  | _ => true

/-- The starts of the loops that end at a bundle (R223). -/
def loopStarts (bs : List Bundle) (e : Nat) : List Int :=
  bs.zipIdx.filterMap fun p => match p.1.c with
    | .ok (.loop o) => if (p.2 : Int) + hop o = e then some ((p.2 : Int) + 1) else none
    | _ => none

/-- The control-flow graph of CODE: the successors of each bundle; a loop ends at one only where its slots may let the loop step come (R224). -/
def flowOf (bs : List Bundle) : List (List Nat) :=
  bs.zipIdx.map fun p => ((exitsOf p.1 p.2 ++ (if stepsOn p.1 then loopStarts bs p.2 else [])).filterMap fun t =>
    if 0 ≤ t ∧ t < (bs.length : Int) then some t.toNat else none).eraseDups

/-- The bundles that control can reach, in `n` more rounds. -/
def reachOf (flow : List (List Nat)) : Nat → List Nat → List Nat
  | 0, xs => xs
  | n + 1, xs => reachOf flow n (xs ++ ((xs.flatMap fun i => (flow[i]?).getD []).eraseDups.filter fun i => !xs.contains i))

/-- The streams an instruction names (R166, R186). -/
def streamsOf (i : Instr) : List Nat := match slotOp i with
  | .m key o => if 0x50 ≤ key ∧ key ≤ 0x52 then [o.off.toNat % 16] else []
  | .xt key o => match xtForm key with
    | some f => (if f.sa then [o.sa.val] else []) ++ if f.sb then [o.sb.val] else []
    | none => []
  | .xc key o => if [0x10, 0x11, 0x50].contains key then [o.ll.toNat % 16] else []
  | _ => []

/-- Whether an instruction is a tile instruction of the X slot: one that names a stream or an accumulator (R11, R186). -/
def tileInstr (i : Instr) : Bool := match slotOp i with
  | .xt _ _ => true
  | .xc key _ => [0x10, 0x11, 0x12, 0x13, 0x15, 0x16, 0x50].contains key
  | _ => false

/-- The instructions of a bundle. -/
def instrsOf (b : Bundle) : List Instr := [b.v, b.m, b.x, b.c].filterMap fun d => match d with
  | .ok i => some i
  | _ => none

/-- Whether the STREAMS and TILE fields of the kernel descriptors cover the code that their roles reach along the edges of R78 (R68); a bit set
beyond that is no fault, since an indirect transfer is not followed (log 82). -/
def kernelUses (img : Nat) (xs : List Nat) : Bool :=
  let bs := (bundlesOf img).map decodeBundle
  let flow := flowOf bs
  xs.all fun x =>
    let k := kernelOf x
    let uses := (reachOf flow bs.length (k.roles.map (·.entry))).flatMap fun i => ((bs[i]?).map instrsOf).getD []
    (uses.all fun i => (k.tile || !tileInstr i) && (streamsOf i).all fun n => k.streams.testBit n)

/-- R74: the header, the section table and the sections. An object that sets both OFLAGS[0] and OFLAGS[1], which R70 rejects, fails here: the
number that OBJ_LOAD answers for it is the model's choice (DESIGN CHOICE, log 82). -/
def layoutOk (img len : Nat) : Bool :=
  let fl := fieldAt img 0xC 4
  let n := fieldAt img 0x10 4
  let tab := fieldAt img 0x18 8
  let xs := sectionsOf img
  decide (64 ≤ len) && decide (fl ≤ 2) && decide (1 ≤ n) && decide (n ≤ 64) && fieldAt img 0x14 4 = 0 && fieldAt img 0x20 32 = 0 &&
    tab % 8 = 0 && decide (tab + 32 * n ≤ len) && xs.all (sectionOk len) && sectionsOk xs (max 64 (tab + 32 * n)) len &&
    xs.all fun x => match x.ty with
      | 1 => x.off % 32 = 0 && x.size % 32 = 0
      | 3 => x.size % 64 = 0 && (recordsOf img x 64).all (kernelOk (bundlesOf img).length) && kernelUses img (recordsOf img x 64)
      | 4 => x.size % 32 = 0 && (recordsOf img x 32).all bufferOk
      | 5 => let n := (bundlesOf img).length; x.size = ceilDiv n 8 && fieldAt img x.off x.size / 2 ^ n = 0
      | 6 => cardsOk (x.size / 32 + 1) x.size (fieldAt img x.off x.size)
      | _ => true

/-- Whether the registers of a bundle lie below a budget (R13). -/
def withinBudget (budget : Nat) (b : Bundle) : Bool :=
  [b.v, b.m, b.x, b.c].all fun d => match d with
    | .ok i => decide (topReg i ≤ budget)
    | _ => true

/-- R77: every bundle decodes, within the budget of every role that reaches it, and DRAIN matches the D bits. The code of a role is what its entry
reaches: the RESTART bundle, at which the warps of every role resume (R346), counts for a role only if its entry reaches it (DESIGN CHOICE, log 90).
An object without a DRAIN section is taken not to match: R67 allows at most one such section and no rule says that it must be present (DESIGN
CHOICE, log 82). -/
def codeOk (img : Nat) (bs : List Bundle) : Bool :=
  let flow := flowOf bs
  let drain := match Section.ofType (sectionsOf img) 5 with
    | some d => some (fieldAt img d.off d.size)
    | none => none
  (bs.all fun b => !b.illegal && slotOk b.v && slotOk b.m && slotOk b.x && slotOk b.c) &&
  ((kernelsOf img).all fun k => (kernelOf k).roles.all fun r =>
    (reachOf flow bs.length [r.entry]).all fun i => match bs[i]? with
      | some b => withinBudget r.budget b
      | none => true) &&
  match drain with
  | some d => bs.zipIdx.all fun p => p.1.hdr.d == d.testBit p.2
  | none => false

/-- Ticks of the fixed-latency results of an instruction (R113, R125, R138, R152, R153). -/
def latencyOf : Instr → Nat
  | .vmul _ | .vmulh _ | .vmad _ | .vclml _ | .vclmh _ => 4
  | .vfadd _ | .vfsub _ | .vfmul _ | .vfma _ | .vfmin _ | .vfmax _ => 4
  | .vhadd _ | .vhmul _ | .vhfma _ | .vhdot _ => 4
  | .vfrcp _ | .vfrsq _ | .vfex2 _ | .vflg2 _ | .vfsinpi _ | .vfcospi _ => 8
  | .vcvt _ | .vpack _ | .vunpack _ | .vscale _ | .vshfl _ | .vbcast _ => 3
  | .vredadd _ | .vredmin _ | .vredmax _ | .vany _ | .vall _ | .vballot _ => 6
  | .casSp _ | .atomSpAdd _ | .atomSpAnd _ | .atomSpOr _ | .atomSpXor _ | .atomSpXchg _ => 10
  | .atomSpMinI _ | .atomSpMaxI _ | .atomSpMinN _ | .atomSpMaxN _ => 10
  | .ldSp _ | .sld _ | .sdget _ => 8
  | .ldc _ => 20
  | i => match slotNum i with
    | some 0 => 2
    | some _ => 1
    | none => 0

/-- The longest latency of a bundle. -/
def bundleLatency (b : Bundle) : Nat :=
  [b.v, b.m, b.x, b.c].foldl (fun (n : Nat) d => match d with
    | .ok i => max n (latencyOf i)
    | _ => n) 0

/-- Two ticks for a bundle that can stretch (R20, R78). -/
def stretchRoom (b : Bundle) : Nat := match b.v with
  | .ok i => if stretchTicks (some i) = 0 then 0 else 2
  | _ => 0

/-- The bundles without D whose predecessors without D come before them, in `n` rounds: all of them exactly when every cycle contains a bundle
with D. -/
def orderOf (flow : List (List Nat)) (left : List Nat) : Nat → List Nat → List Nat
  | 0, xs => xs
  | n + 1, xs =>
    let rest := left.filter fun i => !xs.contains i
    orderOf flow left n (xs ++ rest.filter fun i => !rest.any fun j => ((flow[j]?).getD []).contains i)

/-- The ticks of the longest path with each drain still pending, by bundle and drain. -/
abbrev PathTicks := FMap (FMap Nat)

/-- One hop of a path to bundle `t`: the ticks up to its issue and the drain still pending; whether a closed path exceeds 512 ticks. The closing bundle
drains before it stretches (R23, R78). -/
def hopTo (bs : List Bundle) (acc : PathTicks × Bool) (t ticks pend : Nat) : PathTicks × Bool :=
  match bs[t]? with
  | none => acc
  | some b =>
    let ticks := ticks + stretchRoom b
    if b.hdr.d then (acc.1, acc.2 || decide (512 < ticks + pend))
    else
      let pend := pend - stretchRoom b
      let m := FMap.getD acc.1 t []
      (FMap.set acc.1 t (FMap.set m pend (max ticks (FMap.getD m pend 0))), acc.2)

/-- Follow every path on from bundle `i`. -/
def onward (bs : List Bundle) (flow : List (List Nat)) (acc : PathTicks × Bool) (i ticks pend : Nat) : PathTicks × Bool :=
  match bs[i]? with
  | none => acc
  | some b => ((flow[i]?).getD []).foldl (fun acc t => hopTo bs acc t (ticks + b.hdr.gap) (max pend (bundleLatency b) - b.hdr.gap)) acc

/-- Whether every path from a bundle to the next bundle with D takes at most 512 ticks (R78). -/
def pathsOk (bs : List Bundle) (flow : List (List Nat)) (order : List Nat) (start : Nat) : Bool :=
  let first := onward bs flow ([], false) start (((bs[start]?).map stretchRoom).getD 0) 0
  !(order.foldl (fun acc i => (FMap.getD acc.1 i []).foldl (fun acc p => onward bs flow acc i p.2 p.1) acc) first).2

/-- Instructions whose bundle carries D (R78). -/
def needsD (b : Bundle) : Bool := match b.c with
  | .ok (.call _) => true
  | .ok (.ret _) => true
  | .ok (.jmpr _) => true
  | .ok (.mwait _) => true
  | _ => false

/-- The limits of a kernel (R13, R64, R78). -/
def kernelLimits (bs : List Bundle) (k : Kernel) : Bool :=
  (k.roles.all fun r => decide (r.k ≤ 32) && decide (r.budget ≤ 128) && decide (1 ≤ r.warps) && decide (r.warps ≤ 32)) &&
    decide (k.warps ≤ 32) && decide (k.vectorBytes ≤ vectorFile) && decide (k.scratch ≤ scratchTotal k.split) &&
    match k.restart with
    | some i => ((bs[i]?).map fun b => b.hdr.d).getD false
    | none => true

/-- R78: the limits of the kernels and the drain-point conditions of CODE. -/
def limitsOk (img : Nat) (bs : List Bundle) : Bool :=
  let ks := (kernelsOf img).map kernelOf
  let flow := flowOf bs
  let plain := (bs.zipIdx.filter fun p => !p.1.hdr.d).map (·.2)
  let order := orderOf flow plain bs.length []
  let starts := (ks.flatMap fun k => k.roles.map (·.entry)) ++ (bs.zipIdx.filter fun p => p.1.hdr.d).map (·.2)
  ks.all (kernelLimits bs) && bs.all (fun b => !needsD b || b.hdr.d) && order.length = plain.length &&
    starts.all fun i => pathsOk bs flow order i

/-- The first check of R72 to R78 that fails, and whether a signature failed; `svc` is the fuse counter, `tsig` and `tkey` the region's. -/
def objectError (vendor svc : Nat) (tsig : Bool) (tkey img len : Nat) : Option (Nat × Bool) :=
  let fl := fieldAt img 0xC 4
  let sec := fieldAt img 8 4
  let bs := (bundlesOf img).map decodeBundle
  if fieldAt img 0 4 ≠ 0x314F_5848 ∨ fieldAt img 4 2 ≠ 1 then some (72, false)
  else if fieldAt img 6 2 ≠ 1 then some (73, false)
  else if !layoutOk img len then some (74, false)
  else if bit fl 0 && !signed img vendor then some (75, true)
  else if (bit fl 0 && decide (sec < svc)) || (!bit fl 0 && decide (sec ≠ 0)) then some (75, false)
  else if tsig && !bit fl 0 && bit fl 1 && !signed img tkey then some (76, true)
  else if tsig && !bit fl 0 && !bit fl 1 then some (76, false)
  else if !codeOk img bs then some (77, false)
  else if !limitsOk img bs then some (78, false)
  else none

/-! ## Reading an object -/

/-- Bytes of an address space, page by page. -/
def State.vaRead (s : State) (asid : Nat) : Nat → Nat → Nat → Option Nat
  | 0, _, _ => some 0
  | fuel + 1, va, n =>
    if n = 0 then some 0
    else
      let k := min n (65536 - va % 65536)
      match s.vaGet asid va k, s.vaRead asid fuel (va + k) (n - k) with
      | some x, some y => some (x + 256 ^ k * y)
      | _, _ => none

/-- An object of an address space. -/
def State.object (s : State) (asid va n : Nat) : Option Nat := s.vaRead asid (n / 65536 + 2) va n

/-! ## Firmware images (R412, R413) -/

/-- Whether a firmware image verifies (R413); `svc` is the fuse counter. -/
def imageOk (vendor svc img len : Nat) : Bool :=
  let off := fieldAt img 0x18 8
  decide (64 ≤ len) && fieldAt img 0 4 = 0x4D52_4648 && fieldAt img 4 2 = 1 && decide (fieldAt img 6 2 ≤ 2) && decide (fieldAt img 0xC 4 ≤ 1) &&
    fieldAt img 0x20 32 = 0 && off % 8 = 0 && decide (off + 60 ≤ len) && decide (svc ≤ fieldAt img 8 4) &&
    verifies vendor 60 (fieldAt img off 60) (len - off - 60) (fieldAt img (off + 60) (len - off - 60)) off (fieldAt img 0 off)

/-- The reads of `n` bytes that firmware makes of an address space, 64 KiB at most at a time (R368, R371, R387). -/
def State.cpReadAll (s : State) (asid : Nat) : Nat → Nat → Nat → State
  | 0, _, _ => s
  | fuel + 1, va, n =>
    if n = 0 then s
    else let k := min n (65536 - va % 65536); (s.cpReadVa asid va k).cpReadAll asid fuel ((va + k) % 2 ^ 64) (n - k)

/-- What is recorded of an image at an address. -/
def imageOf (img len addr : Nat) : Image :=
  ⟨fieldAt img 6 2, fieldAt img 8 4, bit (fieldAt img 0xC 4) 0, shaOf len img, addr, fieldAt img 0x10 8⟩

end Sys2Proof.Machine
end

