-- ==== Sys2Proof/Machine/Mailbox.lean ====
section
/-! DEFINITION. The mailbox of a function and its commands, and the killing of a fault domain (R290, R353, R396 to R401, R413 to R417, R422,
R426, R431, R433). The layout of arguments and responses is one 64-bit word each, from word 1 on (log 41). -/

namespace Sys2Proof.Machine

/-! ## Commands -/

/-- Word `i` of MBOXDATA: argument `i`, the first being word 1 (R396). -/
def Func.arg (x : Func) (i : Nat) : Nat := x.data / 2 ^ (64 * i) % 2 ^ 64
/-- The opcode of a command. -/
def Func.opcode (x : Func) : Nat := x.data % 256
/-- A word of MBOXDATA replaced. -/
def Func.putArg (x : Func) (i v : Nat) : Func :=
  { x with data := x.data - x.arg i * 2 ^ (64 * i) + v % 2 ^ 64 * 2 ^ (64 * i) }

/-- A number without the set bits of a mask. -/
def clearBits (x m : Nat) : Nat := x &&& ((2 ^ 64 - 1) ^^^ m)

/-- A command processor without a pending mailbox GO of a function. -/
def Cp.dropMbox (p : Cp) (f : Nat) : Cp :=
  let m := p.mbox.filter fun g => g ≠ f
  { p with mbox := m, mip := if m = [] then clearBits p.mip (2 ^ 17) else p.mip }

/-- A command finishes (R396): the response words, STATUS, BUSY cleared, MBOXDONE set and vector 0 signalled. -/
def State.finish (s : State) (f status : Nat) (resp : List (Nat × Nat)) : State :=
  let s := s.modFunc f fun x => { resp.foldl (fun x r => x.putArg r.1 r.2) x with status := status, busy := false }
  ((s.modCps fun p => p.dropMbox f).setStatus f 0).signal f 0

/-- The mailbox opcodes (R397). -/
def mboxOpcode (op : Nat) : Bool := (decide (1 ≤ op) && decide (op ≤ 0x0E)) || (decide (0x10 ≤ op) && decide (op ≤ 0x16))
/-- The commands that a virtual function may issue (R397). -/
def vfMay (op : Nat) : Bool := op = 1 || (decide (3 ≤ op) && decide (op ≤ 0x0E))
/-- The commands accepted during a start, and in safe mode (R420, R422). -/
def servedNow (s : State) (op : Nat) : Bool :=
  if s.boot.safe then op = 0x01 || op = 0x15 else s.boot.ready || op = 0x01 || op = 0x13 || op = 0x15

/-- The status that turns a command away before its own checks (R396, R397, R420). -/
def State.refusal (s : State) (f op : Nat) : Option Nat :=
  if !mboxOpcode op then some 1 else if f ≠ 0 && !vfMay op then some 3 else if !servedNow s op then some 5 else none

/-- Whether a function's command of an opcode waits to be served; firmware is not paused (R396, R417). -/
def canCommand (op f : Nat) (s : State) : Bool :=
  decide (f ≤ 64) && (s.func f).busy && (s.func f).opcode = op && s.boot.swapping.isNone &&
    !s.shoots.any fun h => h.func = some f
/-- Serve a command, or turn it away. -/
def doCommand (op f : Nat) (run : Func → State → State) (s : State) : State :=
  match s.refusal f op with
  | some e => s.finish f e []
  | none => run (s.func f) s

/-! ## Ownership (R393, R397, R398, R400) -/

/-- Whether a function may act on an address space. -/
def State.ownsAsid (s : State) (f a : Nat) : Bool := f = 0 || s.ownerOf a = f
/-- Whether a function may act on a region. -/
def State.ownsRegion (s : State) (f r : Nat) : Bool :=
  match FMap.find s.rcbs r with
  | some b => f = 0 || b.owner = f || s.ownerOf (s.aspaceOf r) = f
  | none => false
/-- Whether a function may act on a queue. -/
def State.ownsQueue (s : State) (f q : Nat) : Bool := f = 0 || s.ownsRegion f (s.queue q).rcb

/-- Finish with a status alone. -/
def State.answer (s : State) (f status : Nat) : State := s.finish f status []

/-! ## Identity and pod -/

/-- SECVER of the running image of a kind (R397). -/
def State.secver (s : State) (kind : Nat) : Nat := match FMap.find s.boot.images (4 * s.boot.slot + kind) with
  | some i => i.secver
  | none => 0

/-- IDENTIFY (R397). -/
def doIdentify (f : Nat) (s : State) : State :=
  doCommand 1 f (fun _ s => s.finish f 0
    [(1, Config.partId), (2, 9), (3, s.boot.svc), (4, s.secver 0), (5, s.secver 1), (6, s.secver 2), (7, s.devid)]) s
/-- IDENTIFY. -/
def execIdentify (f : Nat) (s : State) : Out := event (canCommand 1 f s) s (doIdentify f s)

/-- POD_SET (R388, R397, R407). -/
def doPodSet (f : Nat) (s : State) : State :=
  doCommand 2 f (fun x s =>
    if 143 < x.arg 1 then s.answer f 2
    else { s with devid := x.arg 1, podallow := x.arg 2 + x.arg 3 * 2 ^ 64 + x.arg 4 % 2 ^ 16 * 2 ^ 128 }.answer f 0) s
/-- POD_SET. -/
def execPodSet (f : Nat) (s : State) : Out := event (canCommand 2 f s) s (doPodSet f s)

/-! ## Address spaces -/

/-- ASPACE_SET (R398): the entry is written and the function becomes its owner; a VF takes only its own or a free entry. -/
def doAspaceSet (f : Nat) (s : State) : State :=
  doCommand 3 f (fun x s =>
    let a := x.arg 1
    let e := s.fw.aspaces + 16 * a
    if 4095 < a ∨ x.arg 2 % 65536 ≠ 0 then s.answer f 2
    else if bit (s.devGet (e + 8) 8) 7 && !s.ownsAsid f a then s.answer f 3
    else ((s.cpPut e 8 (x.arg 2)).cpPut (e + 8) 8 (f + if x.arg 2 = 0 then 0 else 128)).answer f 0) s
/-- ASPACE_SET. -/
def execAspaceSet (f : Nat) (s : State) : Out := event (canCommand 3 f s) s (doAspaceSet f s)

/-- SHOOTDOWN (R353): entries are removed, and the command finishes when every operation accepted under them is performed. -/
def doShootdown (f : Nat) (s : State) : State :=
  doCommand 4 f (fun x s =>
    if 4095 < x.arg 1 then s.answer f 2
    else if !s.ownsAsid f (x.arg 1) then s.answer f 3
    else
      s.openShoot (some f) (x.arg 1) (if x.arg 2 < 64 then some (x.arg 2) else none) (x.arg 3) (x.arg 4)) s
/-- SHOOTDOWN. -/
def execShootdown (f : Nat) (s : State) : Out := event (canCommand 4 f s) s (doShootdown f s)

/-- Whether a shootdown may complete. -/
def canShootdownComplete (i : Nat) (s : State) : Bool :=
  match s.shoots[i]? with
  | some h => (h.waitOps.all fun q => !s.pending q) && h.waitTx.all fun t => (s.tx? t).isNone
  | none => false
/-- SHOOTDOWN_COMPLETE (R353): what was walked again before completion goes too, and the command is done. -/
def doShootdownComplete (i : Nat) (s : State) : State :=
  match s.shoots[i]? with
  | none => s
  | some h =>
    let s := { s.shootTlb h with shoots := s.shoots.eraseIdx i }
    match h.func with
    | some f => s.answer f 0
    | none => s
/-- SHOOTDOWN_COMPLETE. -/
def execShootdownComplete (i : Nat) (s : State) : Out := event (canShootdownComplete i s) s (doShootdownComplete i s)

/-! ## Queues -/

/-- Whether the bytes of a queue descriptor may be bound (R291, R300): its indexes and counters start at 0 (log 42). The other queues of its region
have the same HOMEDIE, since any card of the region may have ORDER = 1 (log 86). Reserved bytes that are not 0 are refused too, which no rule says (DESIGN
CHOICE, log 90). -/
def State.queueOk (s : State) (q x : Nat) : Bool :=
  let r := fieldAt x 0x10 8
  fieldAt x 0 8 % 64 = 0 && decide (4 ≤ fieldAt x 8 1) && decide (fieldAt x 8 1 ≤ 16) && decide (fieldAt x 9 1 ≤ 2) &&
    decide (fieldAt x 0xB 1 ≤ 1) && fieldAt x 0xC 4 = 0 && fieldAt x 0x34 12 = 0 && (FMap.find s.rcbs r).isSome &&
    (s.cards.all fun c => c.domain != 4096 + r || c.die = fieldAt x 0xB 1) &&
    s.queues.all fun j => j = q || (s.queue j).rcb != r || (s.queue j).die = fieldAt x 0xB 1

/-- QUEUE_SET (R291, R397): the descriptor at a device address is bound to the queue, and the queue to a doorbell of the function. -/
def doQueueSet (f : Nat) (s : State) : State :=
  doCommand 5 f (fun x s =>
    let q := x.arg 1
    let d := s.devGet (x.arg 2) 64
    let s := s.cpRead (x.arg 2) 64
    if 4095 < q ∨ (f ≠ 0 ∧ 63 < x.arg 3) then s.answer f 2
    else if !s.queueOk q d then s.answer f 2
    else if !s.ownsRegion f (fieldAt d 0x10 8) || ((s.queue q).rcb ≠ 0 && !s.ownsQueue f q) then s.answer f 3
    else
      let img := fieldAt d 0 10 + fieldAt d 0xB 1 * 256 ^ 0xB + fieldAt d 0x10 8 * 256 ^ 0x10
      let s := { s.cpPut (s.qAddr q) 64 img with funcs := s.funcs.map fun (p : Nat × Func) => (p.1, { p.2 with doors := p.2.doors.filter fun e => e.2 ≠ q }) }
      let s := { s with queues := if s.queues.contains q then s.queues else q :: s.queues }
      (s.modFunc f fun y => { y with doors := FMap.set y.doors (if f = 0 then q else x.arg 3) q }).answer f 0) s
/-- QUEUE_SET. -/
def execQueueSet (f : Nat) (s : State) : Out := event (canCommand 5 f s) s (doQueueSet f s)

/-- QUEUE_STATE (R397): states 0 to 2; state 3 is left through state 2. -/
def doQueueState (f : Nat) (s : State) : State :=
  doCommand 6 f (fun x s =>
    let q := x.arg 1
    if 4095 < q ∨ 2 < x.arg 2 then s.answer f 2
    else if !s.ownsQueue f q then s.answer f 3
    else if (s.queue q).state = 3 ∧ x.arg 2 ≠ 2 then s.answer f 2
    else (s.setFld (s.qAddr q) 9 1 (x.arg 2)).answer f 0) s
/-- QUEUE_STATE. -/
def execQueueState (f : Nat) (s : State) : Out := event (canCommand 6 f s) s (doQueueState f s)

/-! ## Regions (R287 to R289, R400) -/

/-- The RCB that an image of 128 bytes stands for. -/
def rcbOf (x owner : Nat) : Rcb :=
  let mode := fieldAt x 0xD 1
  { parent := fieldAt x 0 8, ovr := fieldAt x 8 4, prio := fieldAt x 0xC 1, spec := bit mode 0, det := bit mode 1, tsig := bit mode 2,
    depth := fieldAt x 0xE 1, cores := fieldAt x 0x10 2, cards := fieldAt x 0x12 2, spbytes := fieldAt x 0x18 8, fdom := fieldAt x 0x20 2,
    aspace := fieldAt x 0x22 2, handler := BitVec.ofNat 64 (fieldAt x 0x28 8), tkey := fieldAt x 0x30 8, owner := owner }

/-- Whether an image keeps the ranges and reserved bytes of R287. -/
def rcbRanges (x : Nat) : Bool :=
  decide (fieldAt x 8 4 < 4096) && decide (fieldAt x 0xC 1 ≤ 7) && decide (fieldAt x 0xD 1 ≤ 7) && decide (fieldAt x 0xE 1 ≤ 2) && fieldAt x 0xF 1 = 0 &&
    decide (fieldAt x 0x10 2 ≤ 160) && decide (fieldAt x 0x12 2 ≤ 512) && fieldAt x 0x14 4 = 0 && decide (fieldAt x 0x22 2 ≤ 4095) &&
    fieldAt x 0x24 4 = 0 && fieldAt x 0x28 8 % 32 = 0 && canonical (fieldAt x 0x28 8) && fieldAt x 0x38 8 = 0 && fieldAt x 0x58 40 = 0

/-- Whether the path from an RCB ends at a root within some levels. -/
def levelOk (m : FMap Rcb) : Nat → Nat → Bool
  | 0, _ => false
  | n + 1, a => match FMap.find m a with
    | none => false
    | some r => r.parent = 0 || levelOk m n r.parent

/-- Whether a tree holds at most 8 levels, every root overriding every field (R288). -/
def treeOk (m : FMap Rcb) : Bool := m.all fun p => levelOk m 8 p.1 && (p.2.parent ≠ 0 || p.2.ovr = 0xFFF)

/-- RCB_REFRESH (R400): the image is checked, written but for the counters, and taken by the scheduler. -/
def doRcbRefresh (f : Nat) (s : State) : State :=
  doCommand 7 f (fun x s =>
    let img := s.hostGet (x.arg 2) 128
    let new : Bool := x.arg 1 = 0
    let a := if new then s.fw.rcbNext else x.arg 1
    let old := FMap.find s.rcbs a
    let r := rcbOf img (match old with
      | some o => o.owner
      | none => f)
    let mayWrite : Bool := f = 0 || ((new || (old.map (·.owner)) = some f) && r.parent ≠ 0 && s.ownsRegion f r.parent &&
      ((!bit r.ovr 9 && r.aspace = 0) || s.ownerOf r.aspace = f))
    let m := FMap.set s.rcbs a r
    if !new && old.isNone then s.answer f 2
    else if !mayWrite then s.answer f 3
    else if !rcbRanges img || !treeOk m then s.answer f 2
    else if new && decide (s.fw.handover ≤ a) then s.answer f 5
    else
      let s := (s.cpPut a 0x40 (img % 256 ^ 0x40)).cpPut (a + 0x58) 40 0
      let s := if new then { s.cpPut (a + 0x40) 24 0 with fw := { s.fw with rcbNext := a + 128 } } else s
      { s with rcbs := m }.finish f 0 [(1, a)]) s
/-- RCB_REFRESH. -/
def execRcbRefresh (f : Nat) (s : State) : Out := event (canCommand 7 f s) s (doRcbRefresh f s)

/-! ## Faults and domains -/

/-- FAULT_REPLY (R343, R397): the warp that asked in an event slot gets its code. -/
def doFaultReply (f : Nat) (s : State) : State :=
  doCommand 8 f (fun x s =>
    match FMap.find x.asked (x.arg 1), decide (x.arg 2 ≤ 2) with
    | some w, true => ((s.modFunc f fun y => { y with asked := FMap.erase y.asked (x.arg 1) }).replyCode w.1 w.2 (x.arg 2)).answer f 0
    | _, _ => s.answer f 2) s
/-- FAULT_REPLY. -/
def execFaultReply (f : Nat) (s : State) : Out := event (canCommand 8 f s) s (doFaultReply f s)

/-- The root of the fault domain of a region: the nearest RCB whose FDOM override bit is 1 (R290). -/
def State.domainRoot (s : State) (r : Nat) : Option Nat :=
  (s.rcbPath 8 r).find? fun a => match FMap.find s.rcbs a with
    | some b => bit b.ovr 8
    | none => false

/-- Drop what warps have left under way, given by core, slot and their places in program order: their operations, writes and enqueues (R290). -/
def State.purgeLeft (s : State) (gone : List (Nat × Nat × Nat × Nat)) : State :=
  { s with cores := s.cores.map fun (p : Nat × CoreSt) =>
      let stays := fun (k q : Nat) => !gone.any fun g => g.1 = p.1 && g.2.1 = k && decide (g.2.2.1 ≤ q) && decide (q ≤ g.2.2.2)
      (p.1, { p.2 with ops := p.2.ops.filter fun o => stays o.slot o.seq, fifo := p.2.fifo.filter fun e => stays e.slot e.wseq
                       markers := p.2.markers.filter fun m => stays m.slot m.wseq, posted := p.2.posted.filter fun m => stays m.slot m.wseq
                       enq := p.2.enq.filter fun e => stays e.slot e.wseq }) }

/-- The warps of a block, those that have ended too, by core, slot and their places in program order. -/
def State.everyWarp (s : State) (x : Block) : List (Nat × Nat × Nat × Nat) :=
  x.gone ++ x.warps.filterMap fun k => (s.warp? x.core k).map fun w => (x.core, k, w.first, w.seq)

/-- Take a block off its core at once, with all its warps had under way, ended ones too (R290); what other warps of the core left stays, and the
space is cleared as ever (R360). -/
def State.purgeBlock (s : State) (b : Nat) : State :=
  match s.block? b with
  | none => s
  | some x =>
    let gone := (s.core x.core).xops.filter fun o => o.block = b
    let lost := s.txs.filter fun t => t.core = x.core && t.port.isNone && gone.any fun o => o.id = t.op
    let s : State := { s with
      txs := s.txs.filter fun t => !lost.any fun u => u.id = t.id
      starved := (s.starved.map fun (p : Nat × List Nat) => (p.1, p.2.filter fun r => !lost.any fun u => u.ts = r)).filter fun
        (p : Nat × List Nat) => p.2 != []
      monitors := s.monitors.filter fun m => !(m.core = x.core && x.warps.contains m.slot) }
    let s : State := x.warps.foldl (fun (s : State) k => s.forget x.core k) s
    let s : State := s.purgeLeft (s.everyWarp x)
    let s : State := s.modCore x.core fun (y : CoreSt) =>
      let z : CoreSt := { y with warps := y.warps.filter fun p => !x.warps.contains p.1, xops := y.xops.filter fun o => o.block ≠ b
                                 grantee := if y.grantee = some b then none else y.grantee
                                 next := y.warps.foldl (fun n p => if x.warps.contains p.1 then max n p.2.seq else n) y.next }
      z.settleRamp s.cycle
    let s : State := s.dropBlock b
    if s.blocksOn x.core = [] then
      s.modCore x.core fun (y : CoreSt) => { CoreSt.reset with fifo := y.fifo, markers := y.markers, posted := y.posted, enq := y.enq
                                                               clearing := y.clearing, next := y.next, cycle0 := s.cycle }
    else s

/-- Remove cards from the windows with their tasks, views, drafts and shadows (R290). -/
def State.removeCard (s : State) (id : Nat) : State :=
  match s.card? id with
  | none => s
  | some c =>
    let ts := s.tasksOf id
    let s := ts.foldl (fun s p => p.2.blocks.foldl State.purgeBlock (s.purgeLeft (p.2.saved.flatMap fun v => v.block.gone))) s
    let s := { s with tasks := s.tasks.filter fun p => p.2.card ≠ id, reserved := s.reserved.filter fun p => !ts.any fun t => t.1 = p.2.1 }
    let s := (c.shadows.foldl (fun s h => s.poolFree c.die h.page) (s.freeViews c)).resolveEdges id
    { s with cards := s.cards.filter fun x => x.id ≠ id }.freeDrafts

/-- Kill a fault domain (R290): the cards of its queues leave the windows, their tasks are killed, and the cores they occupied are reset. -/
def State.killDomain (s : State) (d : Nat) : State :=
  ((s.cards.filter fun c => s.domainRoot c.rcb = some d).map (·.id)).foldl State.removeCard s

/-- A RUNG event for the physical function (R403, R424). -/
def State.postRung (s : State) (n code obj : Nat) : State :=
  { s with rung := FMap.set s.rung n s.cycle }.postEvent 0 ⟨6, 0, 0, [BitVec.ofNat 64 n, BitVec.ofNat 64 code, BitVec.ofNat 64 obj], none⟩

/-- KILL_DOMAIN (R290, R424): rung 2 for the fault domain of a region; its trigger code is open (log 18). -/
def doKillDomain (f : Nat) (s : State) : State :=
  doCommand 9 f (fun x s =>
    match s.domainRoot (x.arg 1) with
    | none => s.answer f 2
    | some d =>
      if !s.ownsRegion f (x.arg 1) then s.answer f 3
      else
        let (code, s) := s.freeVal
        ((s.killDomain d).postRung 2 code d).answer f 0) s
/-- KILL_DOMAIN. -/
def execKillDomain (f : Nat) (s : State) : Out := event (canCommand 9 f s) s (doKillDomain f s)

/-! ## Debugging -/

/-- DEBUG_HALT (R342): a halt request is posted for a resident warp. -/
def doDebugHalt (f : Nat) (s : State) : State :=
  doCommand 0x0A f (fun x s =>
    match s.warp? (x.arg 1) (x.arg 2) with
    | none => s.answer f 2
    | some w =>
      if !s.ownsAsid f (s.ctxOf w.block (x.arg 1)).1 then s.answer f 3
      else (s.setWarp (x.arg 1) (x.arg 2) { w with halt := true }).answer f 0) s
/-- DEBUG_HALT. -/
def execDebugHalt (f : Nat) (s : State) : Out := event (canCommand 0x0A f s) s (doDebugHalt f s)

/-- DEBUG_STOP (R433): cards up to a sequence number are admitted and no further. -/
def doDebugStop (f : Nat) (s : State) : State :=
  doCommand 0x0B f (fun x s =>
    if 4095 < x.arg 1 then s.answer f 2
    else if !s.ownsQueue f (x.arg 1) then s.answer f 3
    else { s with debugStops := FMap.set s.debugStops (x.arg 1) (x.arg 2 % 2 ^ 32) }.answer f 0) s
/-- DEBUG_STOP. -/
def execDebugStop (f : Nat) (s : State) : Out := event (canCommand 0x0B f s) s (doDebugStop f s)

/-- Whether a debug stop is reached: nothing more may be admitted, and every admitted card of the queue has completed (R433). -/
def canDebugStopped (q : Nat) (s : State) : Bool :=
  (FMap.find s.debugStops q).isSome && !s.stopAllows q (s.queue q).rd && s.cards.all fun c => c.queue != q
/-- The queue stops, and its owner hears of it. -/
def doDebugStopped (q : Nat) (s : State) : State :=
  match FMap.find s.debugStops q with
  | none => s
  | some n =>
    let r := (s.queue q).rcb
    let s := { s.setFld (s.qAddr q) 9 1 2 with debugStops := FMap.erase s.debugStops q }
    s.postFor (s.aspaceOf r) ⟨8, s.fdomOf r, s.aspaceOf r, [BitVec.ofNat 64 q, BitVec.ofNat 64 n], none⟩
/-- DEBUG_STOPPED (R433). -/
def execDebugStopped (q : Nat) (s : State) : Out := event (canDebugStopped q s) s (doDebugStopped q s)

/-! ## Attestation (R414, R415) -/

/-- The entries of the address-space table that a function owns, in ascending order: how many, and their bytes. -/
def State.ownEntries (s : State) (f : Nat) : Nat × Nat :=
  (List.range 4096).foldl (fun (a : Nat × Nat) i =>
    let e := s.devGet (s.fw.aspaces + 16 * i) 16
    if bit e 71 && bits e 70 64 = f then (a.1 + 1, a.2 + e * 256 ^ (16 * a.1)) else a) (0, 0)

/-- The hash of the running image of a kind. -/
def State.imageHash (s : State) (kind : Nat) : Nat := match FMap.find s.boot.images (4 * s.boot.slot + kind) with
  | some i => i.hash % 2 ^ 256
  | none => 0

/-- The 256 bytes of a report; the value of its VERSION is open (log 18). -/
def State.report (s : State) (f version nonce : Nat) : Nat :=
  let e := s.ownEntries f
  version % 2 ^ 16 + s.devid * 256 ^ 2 + s.boot.svc * 256 ^ 3 + (s.boot.leaf - 1) * 256 ^ 4 + nonce * 256 ^ 32 + s.imageHash 0 * 256 ^ 64 +
    s.imageHash 1 * 256 ^ 96 + s.imageHash 2 * 256 ^ 128 + shaOf (16 * e.1) e.2 * 256 ^ 160

/-- ATTEST (R414, R415): a report and its signature are written to host memory. -/
def doAttest (f : Nat) (s : State) : State :=
  doCommand 0x0C f (fun x s =>
    if !s.boot.ident then s.answer f 6
    else if 1024 ≤ s.boot.reports then s.answer f 5
    else
      let (v, s) := s.freeVal
      let r := s.report f v (x.data / 2 ^ 64 % 2 ^ 256)
      let s := s.hostPut (x.arg 5) 256 r
      let s := s.hostPut (x.arg 5 + 256) identitySigLen (Config.hssSign s.boot.leaf s.boot.reports r)
      { s with boot := { s.boot with reports := s.boot.reports + 1 } }.answer f 0) s
/-- ATTEST. -/
def execAttest (f : Nat) (s : State) : Out := event (canCommand 0x0C f s) s (doAttest f s)

/-! ## Objects (R71, R399) -/

/-- OBJ_LOAD (R399): the object is checked by R72 to R78 and recorded, or refused with the first failing rule in word 2. The 32 reserved bytes of the
tenant key record (R416) are not looked at, which no rule says (DESIGN CHOICE, log 90). -/
def doObjLoad (f : Nat) (s : State) : State :=
  doCommand 0x0D f (fun x s =>
    let a := x.arg 1
    let r := x.arg 4
    if 4095 < a ∨ (FMap.find s.rcbs r).isNone then s.answer f 2
    else if !s.ownsAsid f a || !s.ownsRegion f r then s.answer f 3
    else match s.object a (x.arg 2) (x.arg 3) with
      | none => s.answer f 2
      | some img =>
        let s := s.cpReadAll a (x.arg 3 / 65536 + 2) (x.arg 2) (x.arg 3)
        let s := if s.tsigOf r then s.cpRead (s.tkeyOf r) 64 else s
        match objectError Config.vendorKeyHash s.boot.svc (s.tsigOf r) (fieldAt (s.devGet (s.tkeyOf r) 64) 0 32) img (x.arg 3) with
        | some (n, sig) => s.finish f (if sig then 7 else 2) [(2, n)]
        | none =>
          let (h, s) := s.newId
          let at' := fun (ty : Nat) => match Section.ofType (sectionsOf img) ty with
            | some c => (x.arg 2 + c.off) % 2 ^ 64
            | none => 0
          let o : Obj := ⟨h, a, x.arg 2, at' 3, (kernelsOf img).length, at' 1, f⟩
          { s with objs := s.objs ++ [o] }.finish f 0 [(1, h)]) s
/-- OBJ_LOAD. -/
def execObjLoad (f : Nat) (s : State) : Out := event (canCommand 0x0D f s) s (doObjLoad f s)

/-- Whether a card in a window names a descriptor of an object. -/
def State.objUsed (s : State) (o : Obj) : Bool :=
  s.cards.any fun c => c.asid = o.asid && (List.range o.nkernels).any fun i => o.kernels + 64 * i = c.kdesc

/-- OBJ_UNLOAD waits until no card names the object (R399). -/
def canObjUnload (f : Nat) (s : State) : Bool :=
  canCommand 0x0E f s && ((s.refusal f 0x0E).isSome || !s.objs.any fun o => o.handle = (s.func f).arg 1 && s.ownsAsid f o.asid && s.objUsed o)
/-- Take the object off the list. -/
def doObjUnload (f : Nat) (s : State) : State :=
  doCommand 0x0E f (fun x s =>
    match s.objs.find? fun o => o.handle = x.arg 1 with
    | none => s.answer f 2
    | some o =>
      if !s.ownsAsid f o.asid then s.answer f 3
      else { s with objs := s.objs.filter fun p => p.handle ≠ o.handle }.answer f 0) s
/-- OBJ_UNLOAD (R399). -/
def execObjUnload (f : Nat) (s : State) : Out := event (canObjUnload f s) s (doObjUnload f s)

/-! ## Memory and logs -/

/-- SPEC_POOL (R313): a speculation pool for a die. -/
def doSpecPool (f : Nat) (s : State) : State :=
  doCommand 0x10 f (fun x s =>
    if 1 < x.arg 1 ∨ x.arg 2 % 65536 ≠ 0 ∨ x.arg 3 % 65536 ≠ 0 ∨ Config.hbmBytes < x.arg 2 + x.arg 3 then s.answer f 2
    else
      let taken := match FMap.find s.pools (x.arg 1) with
        | some p => p.taken
        | none => []
      { s with pools := FMap.set s.pools (x.arg 1) ⟨x.arg 2, x.arg 3, taken⟩ }.answer f 0) s
/-- SPEC_POOL. -/
def execSpecPool (f : Nat) (s : State) : Out := event (canCommand 0x10 f s) s (doSpecPool f s)

/-- DUMP_SET (R426): the buffer, the section mask and up to two ranges. -/
def doDumpSet (f : Nat) (s : State) : State :=
  doCommand 0x11 f (fun x s =>
    let rs := [(x.arg 4, x.arg 5), (x.arg 6, x.arg 7)].filter fun r => r.2 ≠ 0
    { s with dump := some ⟨x.arg 1, x.arg 2, x.arg 3, rs⟩ }.answer f 0) s
/-- DUMP_SET. -/
def execDumpSet (f : Nat) (s : State) : Out := event (canCommand 0x11 f s) s (doDumpSet f s)

/-- TRACE_SET (R431): the ring, of a multiple of 4 KiB, and the kinds; no bytes end the trace. -/
def doTraceSet (f : Nat) (s : State) : State :=
  doCommand 0x12 f (fun x s =>
    if x.arg 2 % 4096 ≠ 0 ∨ Config.hbmBytes < x.arg 1 + x.arg 2 then s.answer f 2
    else { s with trace := if x.arg 2 = 0 then none else some ⟨x.arg 1, x.arg 2, x.arg 3, 0⟩ }.answer f 0) s
/-- TRACE_SET. -/
def execTraceSet (f : Nat) (s : State) : Out := event (canCommand 0x12 f s) s (doTraceSet f s)

/-- Set the map bits of whole 64 KiB (R401). -/
def State.setMs (s : State) (base value : Nat) : Nat → State
  | 0 => s
  | n + 1 =>
    let u := base / 65536
    let a := s.fw.msmap + u / 8
    let old := s.devGet a 1
    let v := if value = 1 then old ||| 2 ^ (u % 8) else if bit old (u % 8) then old - 2 ^ (u % 8) else old
    (s.cpPut a 1 v).setMs (base + 65536) value n

/-- MS_SET (R401): the memory-side map of a range of HBM; setting bits writes the dirty L2 lines of the range back and removes it from the L2. -/
def doMsSet (f : Nat) (s : State) : State :=
  doCommand 0x16 f (fun x s =>
    if x.arg 1 % 65536 ≠ 0 ∨ x.arg 2 % 65536 ≠ 0 ∨ Config.hbmBytes < x.arg 1 + x.arg 2 ∨ 1 < x.arg 3 then s.answer f 2
    else
      let (v, s) := s.freeVal
      let s := if x.arg 3 = 1 then s.l2DropAll (fun l => decide (x.arg 1 ≤ 128 * l) && decide (128 * l < x.arg 1 + x.arg 2)) (338 + v % 8) else s
      (s.setMs (x.arg 1) (x.arg 3) (x.arg 2 / 65536)).answer f 0) s
/-- MS_SET. -/
def execMsSet (f : Nat) (s : State) : Out := event (canCommand 0x16 f s) s (doMsSet f s)

/-- DIAG (R422): tests 1 to 4 write their results, which are open (log 18). Test 2 takes a stack, 0 to 7; any other is turned away as a test number
that is none (DESIGN CHOICE, log 91). -/
def doDiag (f : Nat) (s : State) : State :=
  doCommand 0x15 f (fun x s =>
    if x.arg 1 = 0 ∨ 4 < x.arg 1 ∨ (x.arg 1 = 2 ∧ 7 < x.arg 2) then s.answer f 2
    else
      let (v, s) := s.freeVal
      s.finish f 0 [(1, v)]) s
/-- DIAG. -/
def execDiag (f : Nat) (s : State) : Out := event (canCommand 0x15 f s) s (doDiag f s)

end Sys2Proof.Machine
end

