-- ==== Sys2Proof/Machine/Registers.lean ====
section
/-! DEFINITION. Registers and doorbells: writes by the host, firmware and the command processors, and the reads that clear
(R4, R371, R375, R387, R391 to R394, R402, R411, R434). A read leaves its value in `State.busData`. -/

namespace Sys2Proof.Machine

/-- A register read: its value on the bus. -/
def State.bus (s : State) (v : Nat) : State := { s with busData := BitVec.ofNat 64 v }

/-! ## Doorbells (R393) -/

/-- The queue a doorbell maps to. -/
def State.doorQueue (s : State) (f i : Nat) : Option Nat :=
  if f = 0 then if i < 4096 then some i else none else FMap.find (s.func f).doors i

/-- Whether a queue belongs to a function: it owns the address space of the queue's region. -/
def State.queueOf (s : State) (f q : Nat) : Bool :=
  let r := (s.queue q).rcb
  (FMap.find s.rcbs r).isSome && s.ownerOf (s.aspaceOf r) = f

/-- DOORBELL (R393, R411): WRIDX takes bits [31:0], and the doorbell is pending for the queue's home die; one of a queue that the
function does not own is discarded. -/
def doDoorbell (f i v : Nat) (s : State) : State :=
  match s.doorQueue f i with
  | none => s
  | some q =>
    if s.queueOf f q then
      let die := (s.queue q).die
      let s := s.setFld (s.qAddr q) 0x1C 4 (v % 2 ^ 32)
      (List.range 4).foldl (fun s j => s.modCp (4 * (die % 2) + j) fun p => { p with doors := p.doors ++ [q], mip := p.mip ||| 2 ^ 16 }) s
    else s
/-- DOORBELL. -/
def execDoorbell (f i v : Nat) (s : State) : Out := event (decide (f ≤ 64) && s.reaches f) s (doDoorbell f i v s)

/-- HXDOORQ_READ (R411): the doorbell that came first, for the die of a command processor. -/
def doHxdoorqRead (n : Nat) (s : State) : State :=
  match (s.cp n).doors with
  | [] => s.bus 0
  | q :: _ =>
    ((List.range 4).foldl (fun s j => s.modCp (n / 4 * 4 + j) fun p =>
      let rest := p.doors.drop 1
      { p with doors := rest, mip := if rest = [] then clearBits p.mip (2 ^ 16) else p.mip }) s).bus (2 ^ 63 + q)
/-- HXMBOXQ_READ (R411): the pending mailbox GO. -/
def doHxmboxqRead (n : Nat) (s : State) : State :=
  match (s.cp n).mbox with
  | [] => s.bus 0
  | f :: _ => (s.modCps fun p => p.dropMbox f).bus (2 ^ 63 + f)
/-! ## Reads that clear and writes of 1 that clear -/

/-- The LOGCTL write of R371. -/
def doLogctlWrite (i v : Nat) (s : State) : State :=
  s.modSlice i fun l => { l with full := l.full && !bit v 2, wrap := bit v 1, en := bit v 0 }
/-- LOGCTL_WRITE (R371). -/
def execLogctlWrite (i v : Nat) (s : State) : Out := event (decide (i < 64)) s (doLogctlWrite i v s)

/-- The W1C bits of FSTATUS: MBOXDONE, EVENT, QERR, RESETREQ, DUMPDONE (R392). -/
def doFstatusWrite (f v : Nat) (s : State) : State := s.modFunc f fun x => { x with fstatus := clearBits x.fstatus (v &&& 0x4F) }
/-- FSTATUS_WRITE (R392). -/
def execFstatusWrite (f v : Nat) (s : State) : Out := event (decide (f ≤ 64) && s.reaches f) s (doFstatusWrite f v s)

/-! ## Route tables (R375) -/

/-- Whether a route entry may be written: V, 1 to 24 hops, and the last turn ejects. -/
def routeOk (v : Nat) : Bool :=
  let h := bits v 52 48
  bit v 63 && decide (1 ≤ h) && decide (h ≤ 24) && bits v (2 * h - 1) (2 * h - 2) = 3
/-- The write of a route entry; an invalid one is ignored. -/
def doRouteTableWrite (p d v : Nat) (s : State) : State :=
  if routeOk v then { s with routes := FMap.set s.routes (512 * p + d) (2 ^ 63 + v % 2 ^ 53) } else s
/-- The route that an entry holds at reset: valid, with the default hops and turns, whose values the spec does not give (R375, log 21). -/
def routeReset (p d : Nat) : Nat :=
  let x := Config.defaultRoute p d
  let h := x % 24
  2 ^ 63 + (h + 1) * 2 ^ 48 + 3 * 4 ^ h + x / 24 % 4 ^ h
/-- An entry of the route table of an injection port (R375). -/
def State.route (s : State) (p d : Nat) : Nat := FMap.getD s.routes (512 * p + d) (routeReset p d)
/-- ROUTE_TABLE_WRITE (R375). -/
def execRouteTableWrite (p d v : Nat) (s : State) : Out := event (decide (p < 512) && decide (d < 512)) s (doRouteTableWrite p d v s)

/-! ## The BAR2 aperture (R387, R392) -/

/-- The aligned 16-byte units of an access: address and bytes. -/
def unitsOf : Nat → Nat → Nat → List (Nat × Nat)
  | 0, _, _ => []
  | fuel + 1, a, n => if n = 0 then [] else
    let k := min n (16 - a % 16)
    (a, k) :: unitsOf fuel (a + k) (n - k)

/-- A host access through BAR2: each aligned 16-byte unit at its home, as requester 351. Firmware owns the memory of RCBs: no host write reaches one
(R400). -/
def doHostBar2Access (write : Bool) (off n value : Nat) (s : State) : State :=
  let base := s.bar2 * 2 ^ 30 + off
  (unitsOf (n / 16 + 2) base n).foldl (fun s u =>
    let sh := u.1 - base
    if write then if s.rcbs.any fun r => decide (u.1 < r.1 + 128) && decide (r.1 < u.1 + u.2) then s
      else s.homePut ⟨.hbm, u.1⟩ u.2 (value / 256 ^ sh % 256 ^ u.2) 1 351
    else
      let (v, _, s) := s.homeGet ⟨.hbm, u.1⟩ u.2 0 351
      { s with busData := s.busData + BitVec.ofNat 64 (v * 256 ^ sh) }) (if write then s else s.bus 0)
/-- HOST_BAR2_ACCESS (R390, R392): within the size of BAR2, in D0. -/
def execHostBar2Access (write : Bool) (off n value : Nat) (s : State) : Out :=
  event (decide (off + n ≤ 2 ^ ((s.func 0).barSize + 20)) && !(s.func 0).d3hot) s (doHostBar2Access write off n value s)

/-! ## Events (R402) -/

/-- Whether a held event may be written: the next slot reads VALID = 0 and firmware is not paused. -/
def canEventSlotFreed (f : Nat) (s : State) : Bool := (s.func f).held != [] && s.slotFree f && s.boot.swapping.isNone
/-- EVENT_SLOT_FREED (R402). -/
def execEventSlotFreed (f : Nat) (s : State) : Out :=
  event (canEventSlotFreed f s) s (match (s.func f).held with
    | e :: es => (s.modFunc f fun x => { x with held := es }).writeEvent f e
    | [] => s)

end Sys2Proof.Machine
end

