-- ==== Sys2Proof/Machine/Links.lean ====
section
/-! DEFINITION. UALink: inbound requests, tiles reassembled at a port, and ports that fail (R268, R401, R404 to R408). -/

namespace Sys2Proof.Machine

/-- Answer an inbound request. -/
def State.answerPod (s : State) (dst cause data : Nat) : State := { s with replies := s.replies ++ [⟨dst, cause, data⟩] }

/-- Whether PODALLOW lets a device in (R407). -/
def State.podAllows (s : State) (d : Nat) : Bool := decide (d < 144) && bit s.podallow d

/-- The bytes that a masked write carries. -/
def maskedCells (a n data mask : Nat) : List Host.Cell :=
  (List.range n).filterMap fun i => if bit mask i then some (a + i, BitVec.ofNat 8 (data / 256 ^ i)) else none

/-- A masked write at the home, line by line (R404). -/
def State.podWrite (s : State) (p a n data mask : Nat) : State :=
  let cs := maskedCells a n data mask
  (cs.map fun c => c.1 / 128).eraseDups.foldl (fun s l => (s.countUnbacked [(⟨.hbm, 128 * l⟩, 128)]).homePutCells ⟨.hbm, 128 * l⟩ (cs.filter fun c => c.1 / 128 = l)
    (slotCode (s.msBit (128 * l)) 1) (320 + p)) s

/-- The reassembly buffers in use at a port (R406). -/
def State.buffersOf (s : State) (p : Nat) : List (Nat × Reasm) := s.reasm.filter fun b => b.1 / 8 = p
/-- The buffer of a port that collects a tile. -/
def State.bufferFor (s : State) (p src tag : Nat) : Option Nat :=
  ((s.buffersOf p).find? fun b => b.2.src = src && b.2.tag = tag).map (·.1)
/-- A free buffer of a port. -/
def State.freeBuffer (s : State) (p : Nat) : Option Nat := ((List.range 8).map fun i => 8 * p + i).find? fun i => (FMap.find s.reasm i).isNone

/-- Whether a row lies in HBM and touches no memory-side region (R407). -/
def State.rowOk (s : State) (r : Nat × Nat × Nat) : Bool :=
  decide (r.1 + r.2.1 ≤ Config.hbmBytes) && (r.2.1 = 0 || !(List.range ((r.1 + r.2.1 - 1) / 65536 + 1 - r.1 / 65536)).any fun i =>
    s.msBit (r.1 / 65536 * 65536 + 65536 * i))

/-- Whether the buffer of a port still waits for its commit within the link timeout (R406). -/
def State.inTime (s : State) (b : Nat) : Bool :=
  match FMap.find s.reasm b with
  | some x => decide (s.cycle < x.since + linkCycles)
  | none => false

/-- A tile is committed at a port (R268, R406): it becomes a tile store of scope `.d` of the port, or is refused whole; one whose buffer is past its
time is not applied. -/
def State.commitTile (s : State) (p i : Nat) : State :=
  match (FMap.find s.reasm i).filter fun _ => s.inTime i with
  | none => s
  | some x =>
    let s := { s with reasm := FMap.erase s.reasm i }
    if x.rows.all s.rowOk then
      let ps := x.rows.map fun r => ((⟨.hbm, r.1⟩ : Pa), r.2.1)
      let rows := x.rows.map fun r => ((⟨.hbm, r.1⟩ : Pa), r.2.2)
      (s.openTx (320 + p) true x.src x.tag (some (p, i % 8)) ps rows (x.rows.map fun r => r.2.1) s.cycle).2
    else s.answerPod x.src 0x344 x.tag
/-- Whether a port takes a request: it is up, and a row of a tile finds a buffer with room for it (R406). -/
def canUalinkInboundRequest (p : Nat) (r : PodRequest) (s : State) : Bool :=
  decide (p < 18) && s.portUp p && match r.kind with
    | .tileRow tag =>
      (match s.bufferFor p r.src tag with
       | some b => (match FMap.find s.reasm b with
         | some x => decide (r.len + x.rows.foldl (fun (n : Nat) q => n + q.2.1) 0 ≤ 16384)
         | none => false)
       | none => (s.freeBuffer p).isSome && decide (r.len ≤ 16384)) || !s.podAllows r.src
    | _ => true

/-- Check and apply an inbound request (R406, R407). -/
def doUalinkInboundRequest (p : Nat) (r : PodRequest) (s : State) : State :=
  if !s.podAllows r.src then s.answerPod r.src 0x343 0
  else match r.kind with
    | .tileRow tag =>
      let row := (r.addr, r.len, r.data)
      match s.bufferFor p r.src tag, s.freeBuffer p with
      | some b, _ => { s with reasm := FMap.adjust s.reasm b fun x => { x with rows := x.rows ++ [row] } }
      | none, some b => { s with reasm := FMap.set s.reasm b ⟨r.src, tag, [row], s.cycle⟩ }
      | none, none => s
    | .tileCommit tag => match s.bufferFor p r.src tag with
      | some b => s.commitTile p b
      | none => s
    | kind =>
      if Config.hbmBytes < r.addr + r.len then s.answerPod r.src 0x344 0
      else match kind with
        | .read =>
          let (v, e, s) := s.homeGet ⟨.hbm, r.addr⟩ r.len (slotCode (s.msBit r.addr) 0) (320 + p)
          s.answerPod r.src (if e.isSome then 0x345 else 0) (if e.isSome then 0 else v)
        | .write => (s.podWrite p r.addr r.len r.data r.mask).answerPod r.src 0 0
        | .atomic i =>
          let op := (linkAtomics[i]?).getD .add
          let (v, e, s) := s.homeAtomic op ⟨0, ⟨.hbm, r.addr⟩, s.msBit r.addr, r.len, r.data, r.mask⟩ (slotCode (s.msBit r.addr) 2) (320 + p)
          s.answerPod r.src (if e.isSome then 0x345 else 0) (if e.isSome then 0 else v)
        | .tileRow _ | .tileCommit _ => s
/-- UALINK_INBOUND_REQUEST (R407). -/
def execUalinkInboundRequest (p : Nat) (r : PodRequest) (s : State) : Out :=
  event (canUalinkInboundRequest p r s) s (doUalinkInboundRequest p r s)

/-- XTILE_COMMIT (R268, R406). -/
def execXtileCommit (p b : Nat) (s : State) : Out := event (decide (b < 8) && s.inTime (8 * p + b)) s (s.commitTile p (8 * p + b))

/-- Whether a buffer has waited for its commit for the link timeout (R406). -/
def canXtileReassemblyTimeout (p b : Nat) (s : State) : Bool :=
  decide (b < 8) && match FMap.find s.reasm (8 * p + b) with
    | some x => decide (x.since + linkCycles ≤ s.cycle)
    | none => false
/-- XTILE_REASSEMBLY_TIMEOUT (R406): the buffer is discarded. -/
def execXtileReassemblyTimeout (p b : Nat) (s : State) : Out :=
  event (canXtileReassemblyTimeout p b s) s { s with reasm := FMap.erase s.reasm (8 * p + b) }

/-- PORT_DOWN (R405, R408): what waits for data through the port, L1 fills too, fails with LINK_DOWN, so that no message of it is outstanding (a
posted write is acknowledged in the step that sends it); later traffic takes the next port up. -/
def doPortDown (p : Nat) (s : State) : State :=
  let s := s.cores.foldl (fun s q =>
    let far := fun (pa : Pa) => s.farIn .pod pa && s.portOf q.1 (pa.addr / 2 ^ 46) = some p
    let s := ((q.2.ops.map (·.id)) ++ q.2.xops.map (·.id)).foldl (fun s i => failWaiting q.1 i far 0x340 s) s
    ((q.2.l1want ++ s.lateLines q.1).filter far).eraseDups.foldl (fun s l => s.endFill q.1 l 0 (some 0x340)) s) s
  { s with ports := FMap.set s.ports p false }
/-- PORT_DOWN. -/
def execPortDown (p : Nat) (s : State) : Out := event (decide (p < 18) && s.portUp p) s (doPortDown p s)

end Sys2Proof.Machine
end

