-- ==== Sys2Proof/Machine/Boot.lean ====
section
/-! DEFINITION. Starts, firmware images and swaps, and Function Level Reset of a VF (R392, R395, R412 to R414, R417 to R423). -/

namespace Sys2Proof.Machine

/-- Signal a vector in every function (R395). -/
def State.signalAll (s : State) (v : Nat) : State := (List.range 65).foldl (fun s f => s.signal f v) s

/-! ## The start steps (R420 to R422) -/

/-- The steps that run before the images are loaded: a warm start skips 1, 3 and 4. -/
def startSteps (warm : Bool) : List Nat := if warm then [2, 5] else [1, 2, 3, 4, 5]

/-- UALink training: each port comes up or is marked down. -/
def State.trainPorts (s : State) : State :=
  { s with ports := (List.range 18).foldl (fun (m : FMap Bool) p => FMap.set m p (!Config.stepFails (16 + p) s.fresh)) [], fresh := s.fresh + 1 }

/-- Whether a step fails on this try; step 5 fails when every port is down. -/
def State.stepFailed (s : State) (step : Nat) : Bool :=
  if step = 5 then s.ports.all fun p => !p.2 else Config.stepFails step s.fresh

/-- One pass over the steps: the step that fails, if any. Step 4 writes every sector of HBM to zero (R420). -/
def State.passSteps (s : State) : List Nat → Option Nat × State
  | [] => (none, s)
  | n :: ns =>
    let s := { s with fresh := s.fresh + 1, boot := { s.boot with step := n } }
    let s := if n = 5 then s.trainPorts else s
    if s.stepFailed n then (some n, s)
    else (if n = 4 then { s with hbm := ⟨[], 0⟩, poison := [] } else s).passSteps ns

/-- Run the steps with at most `fuel` more passes: at step 6 the start waits for the images; when no pass is left, safe mode (R422). -/
def State.runSteps (s : State) : Nat → State
  | 0 => { s with boot := { s.boot with safe := true } }
  | fuel + 1 =>
    match s.passSteps (startSteps s.boot.warm) with
    | (none, s) => { s with boot := { s.boot with step := 6 } }
    | (some n, s) =>
      let b := { s.boot with fail := 0x10 + n }
      if fuel = 0 then { s with boot := { b with safe := true } }
      else { s with boot := { b with tries := b.tries + 1 } }.runSteps fuel

/-- A step fails after the images began to load: the start retries from its own first step, or safe mode is entered (R422). -/
def State.failStart (s : State) (n : Nat) : State :=
  let b := { s.boot with fail := 0x10 + n, images := [] }
  if b.tries < 3 then { s with boot := { b with tries := b.tries + 1 } }.runSteps (3 - b.tries) else { s with boot := { b with safe := true } }

/-- The device as a start begins: everything at reset but the fuses and what lies outside the device. -/
def State.restart (s : State) (warm : Bool) : State :=
  { State.reset with
    cycle := s.cycle, agenda := s.agenda, turn := s.turn, fresh := s.fresh, host := s.host, msi := s.msi, busData := s.busData,
    linkOut := s.linkOut, replies := s.replies, nextId := s.nextId, reset0 := s.cycle
    boot := { Boot.reset with leaf := s.boot.leaf, svc := s.boot.svc, starts := s.boot.starts + 1, warm := warm } }

/-- HBM with contents that no rule gives (R420, R421; log 7). -/
def State.loseHbm (s : State) : State := { s with hbm := ⟨[], s.boot.starts⟩, poison := [] }

/-- COLD_START (R420): the steps run; what HBM holds before step 4 has zeroed it is open. -/
def doColdStart (s : State) : State := (s.restart false).loseHbm.runSteps 4
/-- COLD_START. -/
def execColdStart (s : State) : Out := event true s (doColdStart s)

/-- WARM_START (R421): PRESERVE writes dirty L2 lines back and keeps the contents of HBM; else they are unspecified with valid ECC. A fall of FWREADY
is signalled before the functions are reset (R395). -/
def doWarmStart (s : State) : State :=
  match s.boot.req with
  | none => s
  | some keep =>
    let s := if s.serving then s.signalAll 2 else s
    let s := if keep then s.l2DropAll (fun _ => true) 346 else s
    let t := s.restart true
    (if keep then { t with hbm := s.hbm, poison := s.poison } else t.loseHbm).runSteps 4
/-- WARM_START. -/
def execWarmStart (s : State) : Out := event s.boot.req.isSome s (doWarmStart s)

/-! ## Images (R412 to R414) -/

/-- The firmware area of a slot and kind (log 8). -/
def State.slotArea (s : State) (slot kind : Nat) : Nat := s.fw.images + (4 * slot + kind) * 0x100_0000

/-- An image that has become ready raises the fuse counter (R413). -/
def raiseSvc (svc : Nat) (i : Option Image) : Nat := match i with
  | some i => if i.raise then max svc (min i.secver 255) else svc
  | none => svc

/-- The fuse counter after the images of a slot are ready. -/
def State.svcWith (s : State) (slot : Nat) : Nat :=
  (List.range 3).foldl (fun v k => raiseSvc v (FMap.find s.boot.images (4 * slot + k))) s.boot.svc

/-- The command processors start the image of kind 0 in a slot, at its ENTRY and in M mode, as harts do after a reset (R409, R412, R417, R420; log 33). -/
def State.startCps (s : State) (slot : Nat) : State :=
  match FMap.find s.boot.images (4 * slot) with
  | some i => s.modCps fun p => { p with pc := (i.addr + i.entry) % 2 ^ 64, mode := 3, beat := s.cycle }
  | none => s

/-- Step 7 (R414, R420): the next leaf is burnt, the command processors start, FWREADY. -/
def State.startFirmware (s : State) (slot : Nat) : State :=
  let s := { s with fresh := s.fresh + 1, boot := { s.boot with step := 7 } }
  if Config.stepFails 7 s.fresh then s.failStart 7
  else
    let burn : Bool := !s.boot.ident && decide (s.boot.leaf < 1024)
    let b := s.boot
    ({ s with boot := { b with ready := true, slot := slot, svc := s.svcWith slot, ident := b.ident || burn,
                               leaf := if burn then b.leaf + 1 else b.leaf, reports := if burn then 0 else b.reports } }.startCps slot).signalAll 2

/-- Whether a slot holds all three images. -/
def State.slotFull (s : State) (slot : Nat) : Bool := (List.range 3).all fun k => (FMap.find s.boot.images (4 * slot + k)).isSome

/-- FW_LOAD (R412, R413, R417): the image is copied into a slot that does not run, over the one of its kind there, and verified; the third image of a
start starts the firmware, and one that fails fails step 6 and leaves nothing to swap to (R419). One of no known KIND has no place and is not
copied. -/
def doFwLoad (f : Nat) (s : State) : State :=
  doCommand 0x13 f (fun x s =>
    let n := x.arg 2
    let slot := x.arg 3
    if 1 < slot ∨ 0x100_0000 < n ∨ Config.hbmBytes < x.arg 1 + n ∨ (s.boot.ready ∧ slot = s.boot.slot) then s.answer f 2
    else
      let img := s.devGet (x.arg 1) n
      let starting : Bool := !s.boot.ready && s.boot.step = 6
      let kind := fieldAt img 6 2
      let s := if kind < 3 then s.agentPut 346 (s.slotArea slot kind) n img else s
      if imageOk Config.vendorKeyHash s.boot.svc img n then
        let s := { s with boot := { s.boot with images := FMap.set s.boot.images (4 * slot + kind) (imageOf img n (s.slotArea slot kind)) } }
        let s := s.answer f 0
        if starting && s.slotFull slot then s.startFirmware slot else s
      else
        let s := { s with boot := { s.boot with images := if kind < 3 then FMap.erase s.boot.images (4 * slot + kind) else s.boot.images } }.answer f 7
        if starting then s.failStart 6 else s) s
/-- FW_LOAD. -/
def execFwLoad (f : Nat) (s : State) : Out := event (canCommand 0x13 f s) s (doFwLoad f s)

/-! ## Swapping firmware (R417 to R419) -/

/-- What the handover block has to name now (R417, R418): among it the commands and services not answered. -/
def State.handNow (s : State) : Handover :=
  { slot := s.boot.slot, roots := (s.rcbs.filter fun p => p.2.parent = 0).map (·.1),
    events := (s.funcs.filter fun p => p.2.next != 0 || p.2.held != []).map fun p => (p.1, p.2.next, p.2.held),
    mbox := (s.funcs.filter fun p => p.2.busy).map (·.1),
    sysc := s.cores.flatMap fun p => (p.2.warps.filter fun q => match q.2.hold with
      | some (.sysc _ none) => true
      | _ => false).map fun q => (p.1, q.1),
    dump := s.dump, trace := s.trace.map fun t => (t.base, t.bytes, t.kinds), pools := s.pools.map fun p => (p.1, p.2.base, p.2.bytes), rung := s.rung }

/-- Whether the handover block no longer says what it names: firmware keeps it current (R418). -/
def State.handStale (s : State) : Bool := s.serving && s.hand != some s.handNow

/-- The handover block is written (R418): version, running slot and tables, then the words that name lists, whose encoding is open (log 84), and zero
bytes up to 4 KiB. -/
def State.writeHandover (s : State) : State :=
  let words := (List.range 8).foldr (fun i n => Config.handoverWord s.fresh i % 2 ^ 64 + 2 ^ 64 * n) 0
  let s := { s with fresh := s.fresh + 1, hand := some s.handNow }
  s.cpPut s.fw.handover 4096 (1 + s.boot.slot * 2 ^ 32 + s.fw.queues % 2 ^ 64 * 2 ^ 64 + s.fw.aspaces % 2 ^ 64 * 2 ^ 128 + words * 2 ^ 192)

/-- FW_SWAP step 1 (R417): every command processor is asked to quiesce; with no verified image to swap to, status 2. -/
def doFwSwap (f : Nat) (s : State) : State :=
  doCommand 0x14 f (fun _ s =>
    let slot := 1 - s.boot.slot
    if (FMap.find s.boot.images (4 * slot)).isNone then s.answer f 2
    else
      ({ s with boot := { s.boot with swapping := some slot, swapFunc := f, since := s.cycle } }.modCps fun p =>
        { p with req := true, ack := false, mip := p.mip ||| 2 ^ 19 }).signalAll 2) s
/-- FW_SWAP. -/
def execFwSwap (f : Nat) (s : State) : Out := event (canCommand 0x14 f s) s (doFwSwap f s)

/-- The end of a swap: the quiesce requests fall, the command is answered, and so are those of no known opcode that came in the pause (R396, R417). -/
def State.endSwap (s : State) (status : Nat) : State :=
  let f := s.boot.swapFunc
  let s := { s with boot := { s.boot with swapping := none } }.modCps fun p => { p with req := false, ack := false, mip := clearBits p.mip (2 ^ 19) }
  let s := (s.signalAll 2).answer f status
  ((List.range 65).filter fun g => (s.func g).busy && !mboxOpcode (s.func g).opcode).foldl (fun s g => s.answer g 1) s

/-- Images of the other kinds stay with the running firmware. -/
def carryImages (m : FMap Image) (old new : Nat) : FMap Image :=
  [1, 2].foldl (fun (m : FMap Image) k => match FMap.find m (4 * new + k), FMap.find m (4 * old + k) with
    | none, some i => FMap.set m (4 * new + k) i
    | _, _ => m) m

/-- Steps 3 and 4 (R417): the new image starts with a complete handover block; it writes FWREADY, unless it fails to (R419). -/
def State.startImage (s : State) (slot : Nat) : State :=
  let s := { s.writeHandover with fresh := s.fresh + 2 }
  if Config.stepFails 8 s.fresh then s
  else
    let b := { s.boot with images := carryImages s.boot.images s.boot.slot slot, slot := slot, clean := true }
    let s := { s with boot := b }
    ({ s with boot := { s.boot with svc := s.svcWith slot } }.startCps slot).endSwap 0

/-- QUIESCE_ACK (R417): a command processor is quiesced; after all eight the new image starts. -/
def doQuiesceAck (n : Nat) (s : State) : State :=
  let s := s.modCp n fun p => { p with ack := true }
  match s.boot.swapping, (List.range 8).all fun i => (s.cp i).ack with
  | some slot, true => s.startImage slot
  | _, _ => s
/-- QUIESCE_ACK. -/
def execQuiesceAck (n : Nat) (s : State) : Out := event (decide (n < 8) && (s.cp n).req && !(s.cp n).ack) s (doQuiesceAck n s)

/-- Cycles of the 5 ms bound (R417, R419). -/
def swapCycles : Nat := 11_250_000

/-- Whether FWREADY is overdue (R419). -/
def canFwSwapTimeout (s : State) : Bool := s.boot.swapping.isSome && decide (s.boot.since + swapCycles ≤ s.cycle)
/-- FW_SWAP_TIMEOUT (R419): the previous image restarts from its slot with the same handover block; the swap failed. -/
def doFwSwapTimeout (s : State) : State :=
  let all := (List.range 8).all fun i => (s.cp i).ack
  ({ s with boot := { s.boot with clean := all } }.startCps s.boot.slot).endSwap 8
/-- FW_SWAP_TIMEOUT. -/
def execFwSwapTimeout (s : State) : Out := event (canFwSwapTimeout s) s (doFwSwapTimeout s)

/-! ## Function Level Reset of a VF (R423) -/

/-- The regions that lie in a function's address spaces. -/
def State.regionsOf (s : State) (f : Nat) : List Nat := (s.rcbs.map (·.1)).filter fun r => s.ownerOf (s.aspaceOf r) = f

/-- VF_FLR (R423): its fault domains are killed, its queues stop, its address spaces are freed, and its block is reset. -/
def doVfFlr (f : Nat) (s : State) : State :=
  let rs := s.regionsOf f
  let qs := (List.range 4096).filter fun q => s.queueOf f q
  let as' := (List.range 4096).filter fun a => let e := s.devGet (s.fw.aspaces + 16 * a + 8) 8; bit e 7 && e % 128 = f
  let s := ((rs.filterMap s.domainRoot).eraseDups).foldl State.killDomain s
  let s := qs.foldl (fun s q => s.setFld (s.qAddr q) 9 1 0) s
  let s := as'.foldl (fun s a => s.cpPut (s.fw.aspaces + 16 * a) 16 0) s
  let s := { s with objs := s.objs.filter fun o => !as'.contains o.asid, shoots := s.shoots.map fun (h : Shoot) => if h.func = some f then { h with func := none } else h }
  ({ s with funcs := FMap.erase s.funcs f }.modCps fun p => p.dropMbox f)
/-- VF_FLR. -/
def execVfFlr (f : Nat) (s : State) : Out := event (decide (1 ≤ f) && decide (f ≤ 64)) s (doVfFlr f s)

end Sys2Proof.Machine
end

