-- ==== Sys2Proof/Machine/RegSpace.lean ====
section
/-! DEFINITION. The CSRs of the command processors, and register space whole: writes and reads (R4, R5, R363, R371, R389 to R392, R409 to R411,
R434). -/

namespace Sys2Proof.Machine

/-! ## The command processors (R409 to R411) -/

/-- MTIME: 100 MHz beside the 2.25 GHz clock (R391, R409). -/
def State.mtime (s : State) : Nat := s.cycle * 2 / 45

/-- Whether the timer interrupt of a command processor is due (R410). -/
def canMachineTimerInterrupt (n : Nat) (s : State) : Bool :=
  decide (n < 8) && decide ((s.cp n).timecmp ≤ s.mtime) && !bit (s.cp n).mip 7
/-- MACHINE_TIMER_INTERRUPT (R410): MTIP is bit 7 of `mip`. -/
def execMachineTimerInterrupt (n : Nat) (s : State) : Out :=
  event (canMachineTimerInterrupt n s) s (s.modCp n fun p => { p with mip := p.mip ||| 2 ^ 7 })

/-- Reset values of the standard CSRs: UXL and SXL of `mstatus` are 64 bits wide (PRESUMED from RISC-V, log 85). -/
def csrReset (n : Nat) : Nat := if n = 0x300 then 0xA_0000_0000 else 0
/-- A standard CSR as it is stored. -/
def Cp.csr (p : Cp) (n : Nat) : Nat := FMap.getD p.csrs n (csrReset n)
/-- Store a standard CSR. -/
def Cp.setCsr (p : Cp) (n v : Nat) : Cp := { p with csrs := FMap.put p.csrs n (v % 2 ^ 64) (csrReset n) }
/-- Some bits of a word replaced. -/
def merged (old mask v : Nat) : Nat := clearBits old mask + (v &&& mask)
/-- The bits of `mstatus` that software writes, and those that `sstatus` shows (PRESUMED from RISC-V, log 85). -/
def mstatusBits : Nat := 0x7E_79AA
def sstatusBits : Nat := 0xC_6122

/-- The standard CSRs that hold what is written (R409). -/
def csrHolds (n : Nat) : Bool :=
  [0x001, 0x002, 0x105, 0x106, 0x10A, 0x140, 0x141, 0x142, 0x143, 0x180, 0x300, 0x302, 0x303, 0x305, 0x306, 0x30A, 0x340, 0x341, 0x342, 0x343,
   0x3A0, 0x3A2].contains n || (decide (0x3B0 ≤ n) && decide (n ≤ 0x3BF))
/-- The performance counters and selectors, which read 0 (R409). -/
def csrZero (n : Nat) : Bool :=
  (decide (0xB03 ≤ n) && decide (n ≤ 0xB1F)) || (decide (0xC03 ≤ n) && decide (n ≤ 0xC1F)) || (decide (0x323 ≤ n) && decide (n ≤ 0x33F))

/-- A CSR of command processor `n` as it reads (R409 to R411): none is one that is absent. Reads of `hxdoorq` and `hxmboxq` also clear: those are
HXDOORQ_READ and HXMBOXQ_READ. -/
def State.csrRead (s : State) (n csr : Nat) : Option Nat :=
  let p := s.cp n
  match csr with
  | 0xF11 | 0xF12 | 0xF15 => some 0
  | 0xF13 => some 9
  | 0xF14 => some n
  | 0x301 => some 0x8000_0000_0014_112D
  | 0x304 => some p.mie
  | 0x344 => some p.mip
  | 0x100 => some (p.csr 0x300 &&& (sstatusBits + 0x3_0000_0000))
  | 0x104 => some (p.mie &&& p.csr 0x303)
  | 0x144 => some (p.mip &&& p.csr 0x303)
  | 0x003 => some (p.csr 1 % 32 + p.csr 2 % 8 * 32)
  | 0xB00 | 0xC00 => some (Config.hartCount n 0xB00 (p.csr 0xB00 + s.fresh) % 2 ^ 64)
  | 0xB02 | 0xC02 => some (Config.hartCount n 0xB02 (p.csr 0xB02 + s.fresh) % 2 ^ 64)
  | 0xC01 => some (s.mtime % 2 ^ 64)
  | 0xFC0 => some (s.devid % 2 ^ 8 * 2 ^ 8 + n / 4 % 2 * 8 + n % 8)
  | 0xFC1 => some ((if s.boot.safe then 2 ^ 19 else 0) + s.boot.leaf % 2 ^ 11 * 2 ^ 8 + s.boot.svc % 2 ^ 8)
  | 0xFC2 => some (s.secver 0 % 2 ^ 32 * 2 ^ 32 + (if s.boot.clean then 2 else 0) + s.boot.slot % 2)
  | 0xFC3 => some s.fw.handover
  | 0x7C0 => some 0
  | 0x7C1 => some (match p.doors with
    | q :: _ => 2 ^ 63 + q
    | [] => 0)
  | 0x7C2 => some (match p.mbox with
    | f :: _ => 2 ^ 63 + f
    | [] => 0)
  | 0x7C3 => some ((if p.ack then 2 else 0) + if p.req then 1 else 0)
  | _ => if csrHolds csr then some (p.csr csr) else if csrZero csr then some 0 else none

/-- An illegal-instruction exception of a hart: taken in M mode, or in S mode when it is delegated (R409, R411; the entry is RISC-V's, log 85). -/
def Cp.illegal (p : Cp) : Cp :=
  let st := p.csr 0x300
  if p.mode ≤ 1 && bit (p.csr 0x302) 2 then
    let st' := merged st 0x122 ((if bit st 1 then 32 else 0) + p.mode * 256)
    { (((p.setCsr 0x300 st').setCsr 0x141 p.pc).setCsr 0x142 2).setCsr 0x143 0 with mode := 1, pc := p.csr 0x105 / 4 * 4 }
  else
    let st' := merged st 0x1888 ((if bit st 3 then 128 else 0) + p.mode * 2048)
    { (((p.setCsr 0x300 st').setCsr 0x341 p.pc).setCsr 0x342 2).setCsr 0x343 0 with mode := 3, pc := p.csr 0x305 / 4 * 4 }

/-- An access to a CSR: illegal when the CSR is absent, needs a higher mode, or is read-only and written (R409, R411). -/
def State.csrLegal (s : State) (n csr : Nat) (write : Bool) : Bool :=
  (s.csrRead n csr).isSome && decide (csr / 256 % 4 ≤ (s.cp n).mode) && !(write && csr / 1024 = 3)

/-- A vendor CSR access: its effect in M mode, else the exception (R411). -/
def State.vendorCsr (s : State) (n csr : Nat) (write : Bool) (t : State) : State := if s.csrLegal n csr write then t else s.modCp n Cp.illegal

/-- A write of a CSR by its command processor (R409 to R411). In `mip`, software sets and clears only the supervisor bits, and clears bits 18 and 20;
the timer and the other local bits follow their sources (log 85). -/
def csrWrite (n csr v : Nat) (s : State) : State :=
  if !s.csrLegal n csr true then s.modCp n Cp.illegal
  else match csr with
  | 0x304 => s.modCp n fun p => { p with mie := v % 2 ^ 21 }
  | 0x104 => s.modCp n fun p => { p with mie := merged p.mie (p.csr 0x303 % 2 ^ 21) v }
  | 0x344 => s.modCp n fun p => { p with mip := clearBits (merged p.mip 0x222 v) (clearBits (2 ^ 18 + 2 ^ 20) v) }
  | 0x144 => s.modCp n fun p => { p with mip := merged p.mip (2 &&& p.csr 0x303) v }
  | 0x300 => s.modCp n fun p => p.setCsr 0x300 (merged (p.csr 0x300) mstatusBits v)
  | 0x100 => s.modCp n fun p => p.setCsr 0x300 (merged (p.csr 0x300) sstatusBits v)
  | 0x003 => s.modCp n fun p => (p.setCsr 1 (v % 32)).setCsr 2 (v / 32 % 8)
  | 0xB00 | 0xB02 => s.modCp n fun p => p.setCsr csr v
  | 0x7C0 => s.modCp n fun p => { p with beat := s.cycle }
  | 0x7C3 => if bit v 1 && (s.cp n).req && !(s.cp n).ack then doQuiesceAck n s else s.modCp n fun p => { p with ack := bit v 1 }
  | _ => if csrHolds csr then s.modCp n fun p => p.setCsr csr v else s

/-- HEARTBEAT_PET (R411, R424): a write of `hxwdog`. -/
def execHeartbeatPet (n : Nat) (s : State) : Out := event (decide (n < 8)) s (csrWrite n 0x7C0 0 s)
/-- HXDOORQ_READ (R411). -/
def execHxdoorqRead (n : Nat) (s : State) : Out := event (decide (n < 8)) s (s.vendorCsr n 0x7C1 false (doHxdoorqRead n s))
/-- HXMBOXQ_READ (R411). -/
def execHxmboxqRead (n : Nat) (s : State) : Out := event (decide (n < 8)) s (s.vendorCsr n 0x7C2 false (doHxmboxqRead n s))

/-! ## REGISTER_WRITE (R4, R391, R392) -/

/-- GO starts the command in MBOXDATA unless one is in progress (R396): firmware hears of it, or answers an
unknown opcode at once unless it is paused (R417). -/
def doGo (f : Nat) (s : State) : State :=
  let x := s.func f
  if x.busy then s
  else
    let s := (s.modFunc f fun x => { x with busy := true }).modCps fun p => { p with mbox := p.mbox ++ [f], mip := p.mip ||| 2 ^ 17 }
    if mboxOpcode x.opcode || s.boot.swapping.isSome then s else s.finish f 1 []

/-- A vector that is pending and no longer masked is signalled (R391). -/
def State.unmasked (s : State) (f v : Nat) : State :=
  if bit (s.func f).pba v && !(s.func f).masked v then (s.modFunc f fun x => { x with pba := x.pba - 2 ^ v }).signal f v else s

/-- A write to a function block, doorbell or MSI-X table (R391, R392). -/
def funcWrite (f off v : Nat) (s : State) : State :=
  let doors := if f = 0 then 0x10000 else 0x4000
  let ndoors := if f = 0 then 4096 else 64
  let msix := if f = 0 then 0x20000 else 0x8000
  if off = 0x008 then doFstatusWrite f v s
  else if off = 0x010 then if bit v 0 then doGo f s else s
  else if off = 0x020 then s.modFunc f fun x => { x with evtbase := v % 2 ^ 64 / 2 ^ 14 * 2 ^ 14 + v % 2 }
  else if off = 0x028 then if f = 0 then { s with bar2 := bits v 45 30 } else s
  else if off = 0x030 then if f = 0 && bit v 0 then { s with boot := { s.boot with req := some (bit v 1) } } else s
  else if 0x040 ≤ off ∧ off < 0x080 then s.modFunc f fun x => x.putArg (off / 8 - 8) v
  else if doors ≤ off ∧ off < doors + 8 * ndoors then doDoorbell f ((off - doors) / 8) v s
  else if msix ≤ off ∧ off < msix + 16 * vectorsOf f then
    let i := (off - msix) / 8
    (s.modFunc f fun x => { x with msix := FMap.put x.msix i (v % 2 ^ 64) (msixReset i) }).unmasked f (i / 2)
  else s

/-- A write to the window of a core (R363): a snapshot that is due comes first (R364). -/
def coreWrite (c off v : Nat) (s : State) : State :=
  if off = 0x2000 then s.modCore c fun x =>
    let x := x.takeSnapshot s.cycle
    { x with counters := if bit v 1 then [] else x.counters, bank := { x.bank with en := bit v 0, snapen := bit v 2, snapdepth := bits v 6 4 } }
  else s

/-- A write to the window of a slice (R371). -/
def sliceWrite (i off v : Nat) (s : State) : State :=
  match off with
  | 0x000 => doLogctlWrite i v s
  | 0x008 => s.modSlice i fun l => { l with base := v }
  | 0x010 => s.modSlice i fun l => { l with size := v }
  | 0x018 => s.modSlice i fun l => { l with wp := v }
  | 0x020 => s.modSlice i fun l => { l with lo := v }
  | 0x028 => s.modSlice i fun l => { l with hi := v }
  | 0x030 => s.modSlice i fun l => { l with ops := v % 2 ^ 12 }
  | 0x038 => s.modSlice i fun l => { l with reqmask := bits v 24 16, reqmatch := v % 2 ^ 9 }
  | _ => s

/-- The bits of a base address register that hold an address (R390): by function and register; none for one that reads 0. -/
def barMask (x : Func) (f i : Nat) : Option Nat :=
  let low := fun (n : Nat) => 2 ^ 32 - min (2 ^ 32) (2 ^ n)
  let high := fun (n : Nat) => 2 ^ 32 - 2 ^ (n - 32)
  match i with
  | 0 => some (low (if f = 0 then 25 else 16))
  | 1 => some (2 ^ 32 - 1)
  | 2 => if f = 0 then some (low (x.barSize + 20)) else none
  | 3 => if f = 0 then some (high (x.barSize + 20)) else none
  | _ => none
/-- The kind bits of a base address register: 64-bit, and prefetchable for BAR2 (R390). -/
def barKind (i : Nat) : Nat := match i with | 0 => 4 | 2 => 12 | _ => 0

/-- The bits of a capability word that software writes, by function and offset (R389; PCI Express, log 83): MSI-X enable and function mask, payload
and request sizes, 10-bit tags, the masks and severities of AER, and of the PF the SR-IOV control and the number of VFs. -/
def capBits (f off : Nat) : Nat :=
  match off with
  | 0x50 => 0xC000_0000
  | 0x68 => 0x70EF
  | 0x88 => 0x1000
  | 0x108 | 0x10C => 0x07FF_F030
  | 0x114 => 0xF1C1
  | 0x168 => if f = 0 then 0x19 else 0
  | 0x170 => if f = 0 then 0xFFFF else 0
  | _ => 0
/-- Their values after reset: requests of 512 bytes, the severities of AER (PCI Express, log 83). -/
def capReset (off : Nat) : Nat := match off with | 0x68 => 0x2000 | 0x10C => 0x0046_2030 | 0x114 => 0x2000 | _ => 0
/-- The bits of a capability word that are read only (R389; PCI Express, log 83): the capabilities in their list, 2,048 or 256 vectors, payloads of up to
512 bytes and Function Level Reset, a x16 link of 64 GT/s, 64 VFs, and BAR2 of 1 GiB to 512 GiB. -/
def capFixed (f off : Nat) : Nat :=
  match off with
  | 0x34 => 0x40
  | 0x40 => 0x0003_5001
  | 0x50 => (if f = 0 then 2047 else 255) * 2 ^ 16 + 0x6011
  | 0x54 => if f = 0 then 0x20000 else 0x8000
  | 0x58 => if f = 0 then 0x28000 else 0xC000
  | 0x60 => 0x0002_0010
  | 0x64 => 0x1000_8002
  | 0x6C => 0x106
  | 0x70 => Config.hostLink % 2 ^ 10 * 2 ^ 16
  | 0x84 => 0x0003_0000
  | 0x100 => 0x1402_0001
  | 0x140 => if f = 0 then 0x1601_000E else 0x0001_000E
  | 0x144 => if f < 64 then (f + 1) * 256 else 0
  | 0x160 => if f = 0 then 0x2001_0010 else 0
  | 0x164 => if f = 0 then 2 else 0
  | 0x16C => if f = 0 then 0x0040_0040 else 0
  | 0x174 => if f = 0 then 0x0001_0001 else 0
  | 0x200 => if f = 0 then 0x0001_0015 else 0
  | 0x204 => if f = 0 then 0x00FF_C000 else 0
  | _ => 0

/-- The vectors that are pending and no longer masked are signalled (R391). -/
def State.unmaskAll (s : State) (f : Nat) : State := (List.range (vectorsOf f)).foldl (fun s v => s.unmasked f v) s

/-- A write to the configuration space of a function: base addresses, power state, AER status, the size of BAR2, and the words of its capability
structures (R389, R390; the offsets are PCI Express's or the model's, log 83). Function Level Reset of a VF is R423's; of the PF it is rung 4, RUNG_4. -/
def configWrite (f off v : Nat) (s : State) : State :=
  if off = 0x68 ∧ 0 < f ∧ bit v 15 then doVfFlr f s else
  (s.modFunc f fun x =>
    if capBits f off ≠ 0 then { x with caps := FMap.put x.caps off (v &&& capBits f off) (capReset off &&& capBits f off) } else
    if 0x10 ≤ off ∧ off < 0x28 then match barMask x f (off / 4 - 4) with
      | some m => { x with bars := FMap.put x.bars (off / 4 - 4) (v &&& m) 0 }
      | none => x
    else if off = 0x44 then { x with d3hot := v % 4 = 3 }
    else if off = 0x104 then { x with aer := clearBits x.aer v }
    else if off = 0x208 ∧ f = 0 then if 10 ≤ bits v 13 8 ∧ bits v 13 8 ≤ 19 then { x with barSize := bits v 13 8 } else x
    else x).unmaskAll f

/-- A read of the configuration space of a function (R389, R390); capabilities that R389 does not list are absent and read 0. -/
def State.configRead (s : State) (f off : Nat) : Nat :=
  let x := s.func f
  if 0x10 ≤ off ∧ off < 0x28 then match barMask x f (off / 4 - 4) with
    | some _ => FMap.getD x.bars (off / 4 - 4) 0 + barKind (off / 4 - 4)
    | none => 0
  else if off = 0x44 then if x.d3hot then 3 else 0
  else if off = 0x104 then x.aer
  else if off = 0x208 ∧ f = 0 then x.barSize * 2 ^ 8 + 0x22
  else capFixed f off + FMap.getD x.caps off (capReset off &&& capBits f off)

/-- A CSR read of a command processor, which traps when it may not be made (R409, R411). -/
def csrAccess (n csr : Nat) (s : State) : State :=
  s.vendorCsr n csr false (match csr with
    | 0x7C1 => doHxdoorqRead n s
    | 0x7C2 => doHxmboxqRead n s
    | _ => s.bus ((s.csrRead n csr).getD 0))

/-- A 64-bit write to register space, to a VF's BAR0 (function n at n × 2^32), to a CSR (of command processor n at 2^40 + 4096 n), or to a
configuration space (of function n at 2^41 + 4096 n); 2^42 + 4096 n is a CSR instruction of command processor n that only reads. Writes to other
offsets are ignored (R391; log 44). -/
def doRegisterWrite (off value : Nat) (s : State) : State :=
  let v := value % 2 ^ 64
  let o := off / 8 * 8
  if 2 ^ 42 ≤ off then if (off - 2 ^ 42) / 4096 < 8 then csrAccess ((off - 2 ^ 42) / 4096) (off % 4096) s else s
  else if 2 ^ 41 ≤ off then if (off - 2 ^ 41) / 4096 ≤ 64 then configWrite ((off - 2 ^ 41) / 4096) (off % 4096) (value % 2 ^ 32) s else s
  else if 2 ^ 40 ≤ off then if (off - 2 ^ 40) / 4096 < 8 then csrWrite ((off - 2 ^ 40) / 4096) (off % 4096) v s else s
  else if 2 ^ 32 ≤ off then if off / 2 ^ 32 ≤ 64 ∧ s.reaches (off / 2 ^ 32) then funcWrite (off / 2 ^ 32) (o % 2 ^ 32) v s else s
  else if o < 0x100_0000 then funcWrite 0 o v s
  else if o < 0x1A0_0000 then coreWrite ((o - 0x100_0000) / 0x1_0000) (o % 0x1_0000) v s
  else if o < 0x1A4_0000 then sliceWrite ((o - 0x1A0_0000) / 0x1000) (o % 0x1000) v s
  else if 0x1C0_0008 ≤ o ∧ o < 0x1C0_0048 then
    s.modCp ((o - 0x1C0_0008) / 8) fun p => { p with timecmp := v, mip := if s.mtime < v then clearBits p.mip (2 ^ 7) else p.mip }
  else s
/-- REGISTER_WRITE (R4). -/
def execRegisterWrite (off value : Nat) (s : State) : Out := event true s (doRegisterWrite off value s)

/-! ## Register reads (R4, R5, R363, R371, R391, R392, R434) -/

/-- FSTATUS as it reads: the stored bits, FWREADY and SAFE (R392). -/
def State.fstatusOf (s : State) (f : Nat) : Nat :=
  ((s.func f).fstatus &&& 0x4F) + (if s.serving then 32 else 0) + if s.boot.safe then 16 else 0

/-- A register of a function block, doorbell page or MSI-X structure as it reads (R391, R392). A PF register reads 0 in a VF; GO, WARM, PRESERVE and
the doorbells are write-only and read 0. -/
def State.funcRead (s : State) (f off : Nat) : Nat :=
  let x := s.func f
  let msix := if f = 0 then 0x20000 else 0x8000
  let pba := if f = 0 then 0x28000 else 0xC000
  if off = 0x000 then s.devid % 2 ^ 8 * 2 ^ 8 + (if f = 0 then 128 else f % 128)
  else if off = 0x008 then s.fstatusOf f
  else if off = 0x010 then x.status % 2 ^ 8 * 2 ^ 8 + if x.busy then 2 else 0
  else if off = 0x018 then x.dropped
  else if off = 0x020 then x.evtbase
  else if off = 0x028 then if f = 0 then s.bar2 % 2 ^ 16 * 2 ^ 30 else 0
  else if off = 0x038 then
    if f = 0 then (if s.boot.safe then 2 ^ 20 else 0) + s.boot.tries % 16 * 2 ^ 16 + s.boot.fail % 2 ^ 8 * 2 ^ 8 + s.boot.step % 2 ^ 8 else 0
  else if 0x040 ≤ off ∧ off < 0x080 then x.arg (off / 8 - 8)
  else if msix ≤ off ∧ off < msix + 16 * vectorsOf f then FMap.getD x.msix ((off - msix) / 8) (msixReset ((off - msix) / 8))
  else if pba ≤ off ∧ off < pba + vectorsOf f / 8 then x.pba / 2 ^ (8 * (off - pba)) % 2 ^ 64
  else 0

/-- A register of a core's window as it reads: the counters, two to a word, their snapshot, BCCTL and BCSNAP (R363). A snapshot that is due has been
taken. -/
def CoreSt.windowRead (x : CoreSt) (cycle off : Nat) : Nat :=
  let x := x.takeSnapshot cycle
  let two := fun (m : FMap Nat) (i : Nat) => FMap.getD m i 0 % 2 ^ 32 + FMap.getD m (i + 1) 0 % 2 ^ 32 * 2 ^ 32
  if off < 0x1000 then two x.counters (off / 4)
  else if off < 0x2000 then two x.snapshot (off / 4 - 1024)
  else if off = 0x2000 then x.bank.snapdepth % 8 * 16 + (if x.bank.snapen then 4 else 0) + if x.bank.en then 1 else 0
  else if off = 0x2008 then x.bank.cycle % 2 ^ 32 * 2 ^ 32 + x.bank.seq % 2 ^ 16 * 2 ^ 16 + x.bank.slot % 32 * 2 ^ 8 + x.bank.depth % 8
  else 0

/-- A register of a slice's window as it reads (R371). -/
def SliceLog.windowRead (l : SliceLog) (off : Nat) : Nat :=
  match off with
  | 0x000 => (if l.full then 4 else 0) + (if l.wrap then 2 else 0) + if l.en then 1 else 0
  | 0x008 => l.base
  | 0x010 => l.size
  | 0x018 => l.wp
  | 0x020 => l.lo
  | 0x028 => l.hi
  | 0x030 => l.ops % 2 ^ 12
  | 0x038 => l.reqmask % 2 ^ 9 * 2 ^ 16 + l.reqmatch % 2 ^ 9
  | 0x040 => l.drop
  | _ => 0

/-- A 64-bit register as it reads, at the offsets of REGISTER_WRITE; an offset that R391 does not list reads 0. What a read of an RC field clears, the
steps LOGDROP_READ, EVTDROP_READ and ERROR_COUNTER_READ clear. A CSR that is absent reads 0 here; its access traps (`csrLegal`). -/
def State.registerRead (s : State) (off : Nat) : Nat :=
  let o := off / 8 * 8
  if 2 ^ 41 ≤ off then if (off - 2 ^ 41) / 4096 ≤ 64 then s.configRead ((off - 2 ^ 41) / 4096) (off % 4096) else 0
  else if 2 ^ 40 ≤ off then if (off - 2 ^ 40) / 4096 < 8 then (s.csrRead ((off - 2 ^ 40) / 4096) (off % 4096)).getD 0 else 0
  else if 2 ^ 32 ≤ off then if off / 2 ^ 32 ≤ 64 ∧ o % 2 ^ 32 < 0x1_0000 then s.funcRead (off / 2 ^ 32) (o % 2 ^ 32) else 0
  else if o < 0x100_0000 then s.funcRead 0 o
  else if o < 0x1A0_0000 then (s.core ((o - 0x100_0000) / 0x1_0000)).windowRead s.cycle (o % 0x1_0000)
  else if 0x1A0_0000 ≤ o ∧ o < 0x1A4_0000 then (s.slice ((o - 0x1A0_0000) / 0x1000)).windowRead (o % 0x1000)
  else if o = 0x1C0_0000 then s.mtime % 2 ^ 64
  else if 0x1C0_0008 ≤ o ∧ o < 0x1C0_0048 then (s.cp ((o - 0x1C0_0008) / 8)).timecmp
  else if 0x1C1_0000 ≤ o ∧ o ≤ 0x1C1_0110 then FMap.getD s.counters ((o - 0x1C1_0000) / 8) 0
  else if 0x1E0_0000 ≤ o ∧ o < 0x200_0000 then Config.privateRegister o % 2 ^ 64
  else 0

/-- LOGDROP_READ (R371). -/
def execLogdropRead (i : Nat) (s : State) : Out :=
  event (decide (i < 64)) s ((s.bus (s.registerRead (0x1A0_0040 + 0x1000 * i))).modSlice i fun l => { l with drop := 0 })

/-- EVTDROP_READ (R392). -/
def execEvtdropRead (f : Nat) (s : State) : Out :=
  event (decide (f ≤ 64) && s.reaches f) s ((s.bus (s.funcRead f 0x018)).modFunc f fun x => { x with dropped := 0 })

/-- ERROR_COUNTER_READ (R434): offsets beyond counter 34 read 0. -/
def execErrorCounterRead (i : Nat) (s : State) : Out :=
  event true s (if i ≤ 34 then { s.bus (s.registerRead (0x1C1_0000 + 8 * i)) with counters := FMap.erase s.counters i } else s.bus 0)

end Sys2Proof.Machine
end

