-- ==== Sys2Proof/Machine/Ras.lean ====
section
/-! DEFINITION. Storage errors and scrubs, the dump, and the watchdog ladder (R290, R341, R382 to R385, R424 to R430, R434). -/

namespace Sys2Proof.Machine

/-! ## The dump (R426 to R430) -/

/-- A section of a dump: its type, entries, bytes and contents. -/
structure DumpPart where
  ty : Nat
  count : Nat
  size : Nat
  data : Nat
  deriving DecidableEq, Repr

/-- Contents laid one after another, each with its length. -/
def joinParts : List (Nat × Nat) → Nat × Nat
  | [] => (0, 0)
  | (n, v) :: xs => let r := joinParts xs; (n + r.1, v % 256 ^ n + 256 ^ n * r.2)

/-- Fields of an image as a number. -/
def imageOfFields (fs : List (Nat × Nat × Nat)) : Nat := fs.foldl (fun (n : Nat) f => n + f.2.2 % 256 ^ f.2.1 * 256 ^ f.1) 0

/-- The resident warps: core, slot and warp. -/
def State.residents (s : State) : List (Nat × Nat × Warp) := s.cores.flatMap fun p => p.2.warps.map fun q => (p.1, q.1, q.2)

/-- The trap save area of a warp in H, in a translation context. -/
def State.trapArea (s : State) (c asid view : Nat) (w : Warp) : Option (Nat × Nat) :=
  if w.priv then s.areaImage c asid view w.tsa.toNat ((List.range w.k).filter fun i => (summaryOf w.entryMask w.k).testBit i).length else none

/-- Section 1: the trap save areas in use, of resident warps and of pre-empted ones, then those kept of escalated warps (R341). -/
def State.dumpTraps (s : State) : List (Nat × Nat) :=
  (s.residents.filterMap fun x => let (asid, view) := s.ctxOf x.2.2.block x.1; s.trapArea x.1 asid view x.2.2) ++
  (s.tasks.flatMap fun p => match s.card? p.2.card with
    | none => []
    | some k => p.2.saved.flatMap fun v => v.warps.filterMap fun w =>
        s.trapArea v.formerCore k.asid (FMap.getD k.views (dieOf v.formerCore) 0) w.2) ++
  s.areas.filterMap fun (a : KeptArea) => s.areaImage a.core a.asid a.view a.tsa a.words

/-- Section 2: each resident warp in the layout of R334 with CAUSE 0, then its vector registers. -/
def State.dumpWarps (s : State) : List (Nat × Nat) :=
  s.residents.map fun x => let r := warpFields x.2.2 (x.2.2.replay.getD 15); (r.2, imageOfFields r.1)

/-- Section 3: of each resident block the context header, barriers, streams and queued operations in the layout of R347, and its accumulators raw. -/
def State.dumpBlocks (s : State) : List (Nat × Nat) :=
  s.blocks.filterMap fun p => match FMap.find s.tasks p.2.task with
    | none => none
    | some t => (s.card? t.card).map fun c =>
      let y := s.core p.2.core
      let xs := p.2.warps.filterMap fun k => (s.warp? p.2.core k).map fun w => (k, w)
      let grant : Bool := y.grantee = some p.1
      let fs := s.blockFields p.2 t c xs (y.xops.filter fun o => o.block = p.1) grant [] (if grant then List.range 8 else []) 0
      (fs.foldl (fun (n : Nat) f => max n (f.1 + f.2.1)) 0, imageOfFields fs)

/-- Section 4: each core's scratchpad. -/
def State.dumpScratch (s : State) : List (Nat × Nat) :=
  (List.range Config.cores).map fun c =>
    (scratchTotal ((s.core c).split.getD 0), (s.blocksOn c).foldl (fun (n : Nat) p => n + p.2.get 0 p.2.size * 256 ^ p.2.base) 0)

/-- Bytes at device scope for a range, poisoned lines written with 0xDE (R430). -/
def State.dumpRange (s : State) (r : Nat × Nat) : Nat × Nat :=
  (r.2, joinParts ((unitsOf (r.2 / 16 + 2) r.1 r.2).map fun u =>
    (u.2, if (s.poisonOf u.1 u.2).isSome then (256 ^ u.2 - 1) / 255 * 0xDE else s.devGet u.1 u.2)) |>.2)

/-- The KIND of a pending entry (R429). -/
def pendKind (e : FifoEntry) : Nat := match e.kind with
  | none => if e.spill then 4 else 0
  | some .cas => 2
  | some _ => 1

/-- An entry of section 8: 176 bytes; how DATA holds the operands of lanes is open (R429, log 43). -/
def pendEntry (x : CoreSt) (c : Nat) (e : FifoEntry) : Nat × Nat :=
  let red : Bool := e.kind.isSome && !x.ops.any fun o => o.id = e.op
  let cells : List Host.Cell := match e.kind with
    | none => e.bytes
    | some _ => e.lanes.flatMap fun (a : LaneAcc) => (List.range a.n).map fun i => (a.pa.addr + i, BitVec.ofNat 8 (a.x / 256 ^ i))
  let off := fun (a : Nat) => a - e.line.addr
  let data := match e.kind with
    | none => cells.foldl (fun (m : Nat) (q : Host.Cell) => m ||| q.2.toNat * 256 ^ off q.1) 0
    | some _ => Config.pendOperands (e.lanes.map fun (a : LaneAcc) => (a.lane, a.pa.addr, a.x, a.e)) % 256 ^ 128
  (176, c + e.slot * 256 ^ 2 + (if red then 3 else pendKind e) * 256 ^ 3 + e.seq % 2 ^ 32 * 256 ^ 4 + e.line.addr * 256 ^ 8 +
    cells.foldl (fun (m : Nat) (q : Host.Cell) => m ||| 2 ^ off q.1) 0 * 256 ^ 32 + data * 256 ^ 48)

/-- A release marker of section 8. -/
def pendMarker (c : Nat) (m : Marker) : Nat × Nat := (176, c + m.slot * 256 ^ 2 + 5 * 256 ^ 3 + m.seq % 2 ^ 32 * 256 ^ 4)

/-- Section 8: each core's entries and markers in FIFO order, cores ascending (R429). -/
def State.dumpPending (s : State) : List (Nat × Nat) :=
  s.cores.flatMap fun p =>
    let es := (p.2.fifo.map fun e => (e.seq, pendEntry p.2 p.1 e)) ++ p.2.markers.map fun m => (m.seq, pendMarker p.1 m)
    (es.foldl (fun (acc : FMap (Nat × Nat)) e => FMap.set acc e.1 e.2) []).map (·.2)

/-- What section 5 holds: RCBs, queue descriptors, the windows' cards and edges, views and VRDs (R428). -/
def State.dumpTasks (s : State) : List (List Nat) :=
  (s.rcbs.map fun p => [0, p.1, p.2.parent, p.2.prio, p.2.depth, p.2.cores, p.2.cards, p.2.spbytes, p.2.fdom, p.2.aspace, p.2.handler.toNat]) ++
  (s.queues.map fun q => [1, q, s.devGet (s.qAddr q) 64]) ++
  (s.cards.map fun c => [2, c.id, c.addr.toNat, c.queue, c.seq, c.die, c.rcb, c.dealt, c.tasksDealt] ++ c.edges) ++
  (s.overrides.map fun (o : Override) => [3, o.die, o.view, o.va, o.size, o.page]) ++
  (s.cards.flatMap fun c => (c.fps.filter Footprint.pred).map fun f => [4, f.vrd, s.devGet f.vrd 64])

/-- What section 6 holds: the entries of the tile-lock and monitor tables by slice (R369, R370, R428). -/
def State.dumpLocks (s : State) : List (List Nat) :=
  (s.txs.flatMap fun t => (t.lines.filter fun p => p.2 = .granted || p.2 = .queued).map fun p =>
    [0, sliceOf (128 * p.1), p.1, t.ts, t.req, if t.store then 1 else 0, if p.2 = .granted then 1 else 0]) ++
  s.monitors.map fun (m : Monitor) => [1, sliceOf m.pa, m.pa, m.core, m.slot, m.n, m.cond, m.v.toNat]

/-- What section 9 holds: the fault log, the ladder's history, and the poisoned lines (R428, R430). -/
def State.dumpLog (s : State) : List (List Nat) :=
  [[0, s.fw.faultNext, s.devGet s.fw.faultLog (64 * min s.fw.faultNext 4096)]] ++ (s.rung.map fun p => [1, p.1, p.2]) ++
  s.poison.map fun p => [2, p.1, p.2]

/-- One section of a dump: of 5, 6 and 9 the spec names the contents and no layout (R428, log 43). -/
def State.dumpPart (s : State) (d : DumpSet) (ty : Nat) : DumpPart :=
  let of := fun (xs : List (Nat × Nat)) => let r := joinParts xs; (⟨ty, xs.length, r.1, r.2⟩ : DumpPart)
  match ty with
  | 1 => of s.dumpTraps
  | 2 => of s.dumpWarps
  | 3 => of s.dumpBlocks
  | 4 => of s.dumpScratch
  | 7 => of (d.ranges.map s.dumpRange)
  | 8 => of s.dumpPending
  | _ =>
    let xs := if ty = 5 then s.dumpTasks else if ty = 6 then s.dumpLocks else s.dumpLog
    let r := Config.dumpLayout ty xs
    ⟨ty, xs.length, r.1, r.2⟩

/-- The sections a mask selects. -/
def State.dumpParts (s : State) (d : DumpSet) : List DumpPart :=
  (((List.range 10).drop 1).filter fun ty => bit d.sections ty).map fun ty => s.dumpPart d ty

/-- The directory entries of sections laid from an offset (R427). -/
def directory : Nat → List DumpPart → List (Nat × Nat)
  | _, [] => []
  | at', p :: ps => (32, p.ty + at' * 256 ^ 8 + p.size * 256 ^ 16 + p.count * 256 ^ 24) :: directory (at' + p.size) ps

/-- Entries already in flight from the release FIFOs, sent or begun, are performed (R426 step 3). -/
def State.settle (s : State) : State :=
  s.cores.foldl (fun s p => (p.2.fifo.filter fun e => e.sent || e.begun).foldl (fun s e => s.performAll p.1 e) s) s

/-- Write the dump when DUMP_SET has named a buffer (R426, R427): header, directory and sections, cut off at the buffer's end. -/
def State.writeDump (s : State) (cause : Nat) : State :=
  match s.dump with
  | none => s
  | some d =>
    let s := s.settle
    let ps := s.dumpParts d
    let body := directory (64 + 32 * ps.length) ps ++ ps.map fun p => (p.size, p.data)
    let r := joinParts body
    let n := 64 + r.1
    let head := 0x504D_5548 + 256 ^ 4 + (if d.bytes < n then 256 ^ 6 else 0) + cause * 256 ^ 8 + s.devid * 256 ^ 12 + s.clock % 2 ^ 64 * 256 ^ 16 +
      ps.length * 256 ^ 24
    s.hostPut d.addr (min n d.bytes) (head + r.2 * 256 ^ 64)

/-- DUMPDONE and its vector after a dump (R392, R395, R426). -/
def State.dumpDone (s : State) (dumped : Bool) : State := if dumped then (s.setStatus 0 6).signal 0 2 else s

/-! ## The ladder (R424, R425) -/

/-- Cycles of one second (R424). -/
def secondCycles : Nat := 2_250_000_000

/-- Cycles of the 10 ms in which a command of a processor has to finish (R424). -/
def commandCycles : Nat := 22_500_000
/-- Cycles of the 100 ms in which a started operation of an engine has to complete, and within which a processor renews its heartbeat (R424). -/
def hangCycles : Nat := 225_000_000

/-- Whether the command that rung 1 has issued again for a processor is within its bound (R424). -/
def State.rung1Runs (s : State) (n : Nat) : Bool := match FMap.find s.rung1 n with
  | some t => decide (s.cycle < t + commandCycles)
  | none => false

/-- RUNG_1 (R424): the command of a processor is issued again, once: another has to wait until this one is over; its trigger code is open (log 18). -/
def doRung1 (n : Nat) (s : State) : State :=
  let (code, s) := s.freeVal
  { s.postRung 1 code n with rung1 := FMap.set s.rung1 n s.cycle }
/-- RUNG_1. -/
def execRung1 (n : Nat) (s : State) : Out := event (decide (n < 8) && !s.rung1Runs n) s (doRung1 n s)

/-- The engine operations of a fault domain that started and have not completed in time, as class-12 causes: 0x300 of a copy engine, 0x301 of a tile
engine (R326, R424). -/
def State.hung (s : State) (d : Nat) : List Nat :=
  s.cores.flatMap fun p => (p.2.xops.filter fun o => !o.waiting && decide (o.begun + hangCycles < s.cycle) && match s.cardOfBlock o.block with
    | some c => s.domainRoot c.rcb = some d
    | none => false).map fun o => if o.tile then 0x301 else 0x300

/-- The processors whose command, issued again by rung 1, has not finished within its bound (R424). -/
def State.rung1Failed (s : State) : List Nat := (s.rung1.map (·.1)).filter fun n => !s.rung1Runs n

/-- Whether a rung-2 trigger of a code may occur: 0x300 and 0x301 for an operation that hangs; 0x302 and 0x303 for a Cupping Unit or a scheduler in
error, which is an input; any other, which the spec does not number, for a rung 1 that has failed (log 67). -/
def canRung2 (d code : Nat) (s : State) : Bool :=
  s.domainRoot d = some d && if code = 0x300 ∨ code = 0x301 then (s.hung d).contains code else code = 0x302 || code = 0x303 || s.rung1Failed != []

/-- RUNG_2 (R290, R326, R424): a class-12 cause is recorded, and the fault domain is killed and its cores are reset; a rung 1 that has failed is over. -/
def doRung2 (d code : Nat) (s : State) : State :=
  let s := if 0x300 ≤ code ∧ code ≤ 0x303 then s else { s with rung1 := s.rung1.filter fun p => !s.rung1Failed.contains p.1 }
  let s := if 0x300 ≤ code ∧ code ≤ 0x303 then s.faultRecord [BitVec.ofNat 64 (s.fdomOf d), BitVec.ofNat 64 code] else s
  (s.killDomain d).postRung 2 code d
/-- RUNG_2. -/
def execRung2 (d code : Nat) (s : State) : Out := event (canRung2 d code s) s (doRung2 d code s)

/-- Everything but memory, counters, links and the host's side goes, as by Function Level Reset of the PF; firmware must be downloaded
again (R424). The fall of FWREADY is signalled before the functions are reset (R395); at rung 5 they are kept (log 61). -/
def State.loseAll (s : State) (step : Nat) (keep : Bool) : State :=
  let s := if s.serving then s.signalAll 2 else s
  { s.restart false with
    funcs := if keep then s.funcs else []
    hbm := s.hbm, poison := s.poison, counters := s.counters, ports := s.ports, devid := s.devid, podallow := s.podallow, routes := s.routes,
    slices := s.slices, rung := s.rung
    boot := { s.boot with ready := false, images := [], step := step, swapping := none, req := none } }

/-- RUNG_4 (R424): the event, the dump, then the reset; DUMPDONE outlives it. -/
def doRung4 (code : Nat) (s : State) : State :=
  let s := s.postRung 4 code 0
  let t := ((s.writeDump 4).dumpDone s.dump.isSome).loseAll 6 false
  if s.dump.isSome then t.setStatus 0 6 else t
/-- RUNG_4. -/
def execRung4 (code : Nat) (s : State) : Out := event true s (doRung4 code s)

/-- RUNG_5 (R424): the dump, RESETREQ and vector 2; the device waits for a cold reset. -/
def doRung5 (code : Nat) (s : State) : State :=
  let s := s.postRung 5 code 0
  ((((s.writeDump 5).dumpDone s.dump.isSome).setStatus 0 3).signal 0 2).loseAll 0 true
/-- RUNG_5. -/
def execRung5 (code : Nat) (s : State) : Out := event true s (doRung5 code s)

/-- Post again the FAULT events that firmware had posted (R424). -/
def State.repostFaults (s : State) : State :=
  let asked := s.funcs.flatMap fun p => p.2.asked.map (·.2)
  let s := { s with funcs := s.funcs.map fun (p : Nat × Func) => (p.1, { p.2 with asked := [] }) }
  asked.foldl (fun s q => match s.warp? q.1 q.2 with
    | some w => match w.hold with
      | some (.sysc 1 none) => s.askDriver q.1 q.2 2 [w.s 1, w.s 2]
      | some (.sysc 2 none) => s.askDriver q.1 q.2 3 [w.s 1]
      | _ => s
    | none => s) s

/-- Whether some command processor has not renewed its heartbeat for 100 ms (R424). -/
def canRung3 (s : State) : Bool := s.boot.ready && (List.range 8).any fun n => decide ((s.cp n).beat + hangCycles ≤ s.cycle)

/-- RUNG_3 (R424, R425): every rung 1 in progress is absorbed; firmware restarts from its slot with CLEAN = 0, so FWREADY changes (R395); unanswered
mailbox commands get status 4; queues are kept. Taken twice within a second it is rung 4. -/
def doRung3 (code : Nat) (s : State) : State :=
  let again := match FMap.find s.rung 3 with
    | some t => decide (s.cycle < t + secondCycles)
    | none => false
  let s := s.postRung 3 code 0
  let b := s.boot
  let s := { s with boot := { b with clean := false, swapping := none }, rung1 := [],
                    shoots := s.shoots.map fun (h : Shoot) => { h with func := none } }
  let s := s.modCps fun p => { p with req := false, ack := false, mip := clearBits p.mip (2 ^ 19) }
  let s := (s.modCps fun p => { p with beat := s.cycle }).startCps b.slot
  let s := (s.funcs.filter fun p => p.2.busy).foldl (fun s p => s.answer p.1 4) s
  let s := (s.repostFaults).signalAll 2
  if again then doRung4 code s else s
/-- RUNG_3. -/
def execRung3 (code : Nat) (s : State) : Out := event (canRung3 s) s (doRung3 code s)

/-! ## Errors (R382 to R385) -/

/-- CORRECTABLE_ERROR (R382, R434): corrected in place and counted; no result changes. -/
def execCorrectableError (row : Nat) (s : State) : Out := event (decide (row < 8)) s (s.count row)

/-- An uncorrectable error is counted, its command processors hear of it, and an UNCORRECTED event is posted; its requester, and the
address of what has none, are open (R403, R410, R434, log 18). -/
def State.uncorrected (s : State) (row cause : Nat) (pa : Option Nat) : State :=
  let (r, s) := s.freeVal
  let (v, s) := s.freeVal
  let s := (s.count (8 + row)).modCps fun p => { p with mip := p.mip ||| 2 ^ 20 }
  s.postEvent 0 ⟨10, 0, 0, [BitVec.ofNat 64 cause, BitVec.ofNat 64 (pa.getD v), BitVec.ofNat 64 (r % 512)], none⟩

/-- A line is poisoned with the cause of its first reader. -/
def State.poisonLine (s : State) (line cause : Nat) : State := { s with poison := FMap.set s.poison line cause }

/-- A word or element is recorded for its next reader. -/
def State.strike (s : State) (e : ErrSite) : State := { s with faulty := if s.faulty.contains e then s.faulty else s.faulty ++ [e] }

/-- The accumulator element of SPEC 100 (R382). -/
def nanAcc : BitVec 128 := Fp.Acc.toBits { (Fp.Acc.ofBits 0) with spec := 4 }

/-- Data in a FIFO entry, a queue or the staging buffer is lost (R382, R384): an operation that reads it fails with UE_PATH, also the atomic or CAS
whose entry it is; a posted write raises nothing. The bytes that the entry writes are open (log 45). -/
def pathError (c id : Nat) (s : State) : State :=
  let s := match (s.core c).fifo.find? fun e => e.seq = id with
    | some e => if e.kind.isSome then s.modOp c e.op fun o => { o with err := some (o.err.getD 0x2C7) } else s
    | none => s
  let s := s.modOp c id fun o => { o with err := some (o.err.getD 0x2C7) }
  let s := s.modX c id fun o => { (o.fail (some 0x2C7)) with units := o.units.map fun u => if u.done then u else { u with data := some 0, bad := true } }
  let (v, s) := s.freeVal
  s.modCore c fun x => { x with fifo := x.fifo.map fun e => if e.seq = id then
    { e with bytes := e.bytes.zipIdx.map fun b => (b.1.1, BitVec.ofNat 8 (v / 256 ^ b.2))
             lanes := e.lanes.map fun a => { a with x := v % 256 ^ a.n } } else e }

/-- The effect of an uncorrectable error at a site (R382, R384); `.tlb` 160 and 161 are the L2 TLBs of the dies (log 92). -/
def doUncorrectableError (site : ErrSite) (s : State) : State :=
  match site with
  | .hbm l => (s.poisonLine l 0x2C0).uncorrected 0 0x2C0 (some (128 * l))
  | .l2 l dirty =>
    if s.l2Find l = some dirty then
      if dirty then (s.poisonLine l 0x2C1).uncorrected 1 0x2C1 (some (128 * l)) else (s.logRecord (128 * l) 128 11 346 false).count 9
    else s
  | .grinder l => (s.poisonLine l 0x2C6).uncorrected 1 0x2C6 (some (128 * l))
  | .l2Tags _ => let (code, s) := s.freeVal; doRung5 code (s.count 10)
  | .scratch b off => (s.strike (.scratch b (off / 8 * 8))).uncorrected 3 0x2C3 none
  | .l1 c l => (s.modCore c fun x => { x with l1 := x.l1.filter fun e => e.pa.addr ≠ 128 * l }).count 12
  | .icache c l => (s.modCore c fun x => { x with icache := x.icache.filter fun e => e.va ≠ 128 * l }).count 12
  | .tlb c i => (if c < Config.cores then s.modCore c fun x => { x with tlb := x.tlb.eraseIdx i }
      else { s with l2tlb := FMap.set s.l2tlb (c - Config.cores) ((FMap.getD s.l2tlb (c - Config.cores) []).eraseIdx i) }).count 12
  | .warpState c k => (s.uncorrected 5 0x2C4 none).escalate c k 0x2C4
  | .acc c t e => ((s.strike site).modCore c fun x => { x with accs := FMap.set x.accs (4096 * t + e) nanAcc }).uncorrected 6 0x2C5 none
  | .path c id => (pathError c id s).uncorrected 7 0x2C7 none
/-- UNCORRECTABLE_ERROR (R384). -/
def execUncorrectableError (site : ErrSite) (s : State) : Out := event true s (doUncorrectableError site s)

/-- The storage row of a site (R382). -/
def ErrSite.row : ErrSite → Nat
  | .hbm _ => 0
  | .l2 .. => 1
  | .grinder _ => 1
  | .l2Tags _ => 2
  | .scratch .. => 3
  | .l1 .. | .icache .. | .tlb .. => 4
  | .warpState .. => 5
  | .acc .. => 6
  | .path .. => 7

/-- Whether a scrub reads a site: HBM, L2 data, scratchpad or an accumulator (R385). -/
def ErrSite.scrubbed : ErrSite → Bool
  | .hbm _ | .l2 .. | .scratch .. | .acc .. => true
  | _ => false

/-- SCRUB (R385): what the pass finds at a site is open: nothing, a correctable error, or an uncorrectable one (log 18). -/
def doScrub (site : ErrSite) (s : State) : State :=
  let (v, s) := s.freeVal
  match v % 3 with
  | 0 => s
  | 1 => s.count (ErrSite.row site)
  | _ => doUncorrectableError site s
/-- SCRUB. -/
def execScrub (site : ErrSite) (s : State) : Out := event (ErrSite.scrubbed site) s (doScrub site s)

end Sys2Proof.Machine
end

