-- ==== Sys2Proof/Machine/Agenda.lean ====
section
/-! DEFINITION. What happens next when the agenda names nothing: one of the steps that may happen now, taken in turn (log 1). The order is a
choice of the model; what may happen is the spec's. -/

namespace Sys2Proof.Machine

/-- A step of the machine's own: the meaning of one of its instructions. -/
abbrev Act := State → Out

/-- A step if it may happen. -/
def offer (can : Bool) (f : Act) : List Act := if can then [f] else []

/-- The walks that a standing warp waits for (R21, R145, R352). -/
def walkOffers (s : State) (c k : Nat) : List Act :=
  match s.warp? c k with
  | none => []
  | some w =>
    let (asid, view) := s.ctxOf w.block c
    match w.stop, w.dueOps with
    | .accept, some o | .l1, some o => ([waitOf o.m c k s, waitOf o.x c k s].filterMap fun y => match y with
        | some (.tlb _ vs) => some vs
        | _ => none).flatten.map fun va => execTlbWalk c asid view va
    | _, _ => []

/-- The steps of a warp that may happen now. -/
def warpOffers (s : State) (c k : Nat) : List Act :=
  offer (canBundleIssue c k s) (execBundleIssue c k) ++ offer (canResultLand c k s) (execResultLand c k) ++
  offer (canFreezeEnd c k s) (execFreezeEnd c k) ++ offer (canAcceptance c k s) (execAcceptance c k) ++
  offer (canWarpSlotFree c k s) (execWarpSlotFree c k) ++ offer (canHoldEnd c k s) (execHoldEnd c k) ++
  offer (canBarrierTimeout c k s) (execBarrierTimeout c k) ++ offer (canMwaitTimeout c k s) (execMwaitTimeout c k) ++
  offer (canMwaitPoll c k s) (execMwaitPoll c k) ++ offer (canSyscReply c k s) (execSyscReply c k) ++
  offer (canService 0 c k s) (execVersion c k) ++ offer (canService 1 c k s && !s.asked c k) (execResolve c k) ++
  offer (canService 2 c k s && !s.asked c k) (execMigrateWait c k) ++ offer (canService 3 c k s) (execKillTask c k) ++
  offer (canService 4 c k s) (execLogSvc c k) ++ offer (canService 5 c k s) (execDebugNotify c k) ++
  offer (canTrapEntry c k s) (execTrapEntry c k) ++ offer (canDemandFill c k s) (execDemandFill c k) ++
  offer (canShadowFill c k s) (execShadowFill c k) ++ walkOffers s c k

/-- The swaps of a core that may happen now. -/
def swapOffers (s : State) (c : Nat) (ks : List Nat) : List Act :=
  ks.flatMap fun i => ks.flatMap fun j => offer (canWarpSwap c i j s) (execWarpSwap c i j) ++ offer (canStarvationSwap c i j s) (execStarvationSwap c i j)

/-- The memory, engine and core steps of a core that may happen now. -/
def coreOffers (s : State) (c : Nat) (x : CoreSt) : List Act :=
  offer (canTileGrantRelease c s) (execTileGrantRelease c) ++ offer (canTileFillBegin c s) (execTileFillBegin c) ++
  offer (canEngineIdle c s) (execEngineIdle c) ++
  (x.ops.flatMap fun o => offer (canAsyncResultLand c o.id none s) (execAsyncResultLand c o.id none) ++
    offer (canAcquireComplete c o.id s) (execAcquireComplete c o.id)) ++
  (x.fifo.flatMap fun e => offer (canFifoEntryPerform c e.seq s) (execFifoEntryPerform c e.seq) ++
    offer (canHostWriteAck c e.seq s) (execHostWriteAck c e.seq)) ++
  (x.markers.flatMap fun m => offer (canReleaseComplete c m.seq s) (execReleaseComplete c m.seq)) ++
  ((x.l1want ++ (s.lateLines c).filter fun p => !x.l1want.contains p).eraseDups.map fun p => execL1Fill c p.addr) ++ (x.iwant.map fun p => execIcacheFill c p.1 p.2) ++
  (x.xops.flatMap fun o => offer (canCopyStart c o.id s) (execCopyStart c o.id) ++ offer (canXOpComplete c o.id none s) (execXOpComplete c o.id none) ++
    (match o.kind with
     | .multicast | .reduce => match (List.range o.units.length).find? fun i => canXOpComplete c o.id (some i) s with
       | some i => [execXOpComplete c o.id (some i)]
       | none => []
     | _ => offer (canXOpComplete c o.id (some 0) s && !o.byUnits) (execXOpComplete c o.id (some 0))) ++
    o.ranks.flatMap fun r => offer (canMulticastDeliver c o.id r s) (execMulticastDeliver c o.id r)) ++
  ((List.range x.enq.length).flatMap fun i => offer (canEnqueueApply c i s) (execEnqueueApply c i)) ++
  ((List.range x.clearing.length).flatMap fun i => offer (canScratchClear c i s) (execScratchClear c i))

/-- The steps of tile transactions and Grinders. -/
def lockOffers (s : State) : List Act :=
  (s.txs.flatMap fun t => (t.lines.flatMap fun l => offer (canTileLockRequest t.id l.1 s) (execTileLockRequest t.id l.1) ++
      offer (canTileLockGrant t.id l.1 s) (execTileLockGrant t.id l.1)) ++
    offer (canTileLockRetry t.id s) (execTileLockRetry t.id) ++ offer (canTileTransactionPerform t.id s) (execTileTransactionPerform t.id)) ++
  ((List.range 8).flatMap fun k => offer (canGrinderOperation k 0 s) (execGrinderOperation k 0))

/-- The area in which the context of a block is saved by default (log 1). -/
def contextArea (b : Nat) : Nat := 0x7E_0000_0000 + b % 256 * 0x100_0000

/-- The steps of cards, tasks and blocks. -/
def schedOffers (s : State) : List Act :=
  (s.cards.flatMap fun c => let i := c.id
    offer (canTaskDeal i s) (execTaskDeal i) ++ offer (canPriorityAge i s) (execPriorityAge i) ++ offer (canCardComplete i s) (execCardComplete i) ++
    offer (canSpecLaunch i s) (execSpecLaunch i) ++ offer (canDraftWritten i s) (execDraftWritten i) ++ offer (canPbufCopyDone i s) (execPbufCopyDone i) ++
    offer (canProducerCommit i s) (execProducerCommit i) ++ offer (canSpecCommit i s) (execSpecCommit i)) ++
  (s.tasks.flatMap fun p =>
    offer (canTaskComplete p.1 s) (execTaskComplete p.1) ++
    (match s.card? p.2.card with
     | none => []
     | some c =>
       match s.findFor p.2 c true with
       | some ps => offer (canGangPlace p.1 ps s) (execGangPlace p.1 ps) ++ offer (canBlockResume p.1 ps s) (execBlockResume p.1 ps)
       | none => []) ++
    ((List.range 20).flatMap fun k => offer (canClusterReserve p.1 k s) (execClusterReserve p.1 k))) ++
  (match s.preemptDue with
   | some b => offer (canPreemptRequest b s) (execPreemptRequest b)
   | none => []) ++
  (s.blocks.flatMap fun p => offer (canBlockContextSave p.1 (contextArea p.1) s) (execBlockContextSave p.1 (contextArea p.1)))

/-- The mailbox command that waits in a function. -/
def mboxAct (f op : Nat) : Option Act :=
  match op with
  | 0x01 => some (execIdentify f)
  | 0x02 => some (execPodSet f)
  | 0x03 => some (execAspaceSet f)
  | 0x04 => some (execShootdown f)
  | 0x05 => some (execQueueSet f)
  | 0x06 => some (execQueueState f)
  | 0x07 => some (execRcbRefresh f)
  | 0x08 => some (execFaultReply f)
  | 0x09 => some (execKillDomain f)
  | 0x0A => some (execDebugHalt f)
  | 0x0B => some (execDebugStop f)
  | 0x0C => some (execAttest f)
  | 0x0D => some (execObjLoad f)
  | 0x0E => some (execObjUnload f)
  | 0x10 => some (execSpecPool f)
  | 0x11 => some (execDumpSet f)
  | 0x12 => some (execTraceSet f)
  | 0x13 => some (execFwLoad f)
  | 0x14 => some (execFwSwap f)
  | 0x15 => some (execDiag f)
  | 0x16 => some (execMsSet f)
  | _ => none

/-- Whether the waiting command of a function may be served. -/
def canServe (f op : Nat) (s : State) : Bool := if op = 0x0E then canObjUnload f s else canCommand op f s

/-- The steps of firmware and the management core. -/
def firmwareOffers (s : State) : List Act :=
  (s.funcs.flatMap fun p => let op := p.2.opcode
    (match mboxAct p.1 op with
     | some f => offer (canServe p.1 op s) f
     | none => []) ++
    offer (canEventSlotFreed p.1 s) (execEventSlotFreed p.1) ++
    p.2.doors.flatMap fun d => offer (canCardAdmit d.2 s) (execCardAdmit d.2)) ++
  ((List.range s.shoots.length).flatMap fun i => offer (canShootdownComplete i s) (execShootdownComplete i)) ++
  (s.debugStops.flatMap fun p => offer (canDebugStopped p.1 s) (execDebugStopped p.1)) ++
  (s.cps.flatMap fun p => offer (decide (p.1 < 8) && p.2.req && !p.2.ack) (execQuiesceAck p.1) ++
    offer (s.boot.ready && decide (p.1 < 8) && decide (p.2.beat + hangCycles / 2 ≤ s.cycle)) (execHeartbeatPet p.1) ++
    offer (canMachineTimerInterrupt p.1 s) (execMachineTimerInterrupt p.1)) ++
  offer (canFwSwapTimeout s) execFwSwapTimeout ++ offer s.boot.req.isSome execWarmStart

/-- Every step that may happen now by the machine's own doing. -/
def offers (s : State) : List Act :=
  (s.cores.flatMap fun p => (p.2.warps.flatMap fun w => warpOffers s p.1 w.1) ++ swapOffers s p.1 (p.2.warps.map (·.1)) ++ coreOffers s p.1 p.2) ++
  (s.walks.flatMap fun p => (p.2.take walkLimit).map fun k => execTlbWalk k.1 k.2.1 k.2.2.1 k.2.2.2) ++
  lockOffers s ++ schedOffers s ++ firmwareOffers s

/-- What the rules put into the present cycle of a tile engine: an operation whose last cycle this is, or the write of a drain; the fill of the next; a
grant; and the end of filler (R208, R380, R381). -/
def engineDue (s : State) (c : Nat) : Option Act :=
  ((s.core c).xops.findSome? fun o => match o.kind with
    | .mma | .tzero | .sadv | .sreset => if canXOpComplete c o.id none s then some (execXOpComplete c o.id none) else none
    | .drain => if canXOpComplete c o.id none s then some (execXOpComplete c o.id none)
                else if canXOpComplete c o.id (some 0) s then some (execXOpComplete c o.id (some 0)) else none
    | _ => none).or
  (if canTileFillBegin c s then some (execTileFillBegin c) else if canTamperGrant c s then some (execTamperGrant c)
   else if canEngineIdle c s then some (execEngineIdle c) else none)

/-- A rung of the ladder whose trigger has occurred (R424); the code of a rung 3 is open (log 18). -/
def ladderDue (s : State) : Option Act :=
  (s.rcbs.findSome? fun p => if s.domainRoot p.1 = some p.1 then (s.hung p.1).head?.map fun code => execRung2 p.1 code else none).or
    (if canRung3 s then some fun t => execRung3 t.freeVal.1 t.freeVal.2 else none)

/-- What the spec puts into the present cycle: a squash that is due (R317), the snapshot of a pop made before (R364), the steps of the tile engines
(R208, R380), a rung of the ladder (R424), and the handover block kept current (R418). -/
def due (s : State) : Option Act :=
  ((s.cards.find? fun c => canSpecSquash c.id s).map fun c => execSpecSquash c.id).or
    ((s.cores.findSome? fun p => if canBankSnapshot p.1 s then some (execBankSnapshot p.1) else engineDue s p.1).or
      ((ladderDue s).or (if s.handStale then some fun t => .next t.writeHandover else none)))

/-- Whether the next step lets time pass: the agenda is empty, or its head stands in a later cycle. -/
def State.passes (s : State) : Bool := match s.agenda with
  | (d, _) :: _ => d != 0
  | [] => true

/-- The step taken by default: the offers take turns. -/
def pick (s : State) : Option Act :=
  let xs := offers s
  xs[s.turn % xs.length]?

end Sys2Proof.Machine
end

