-- ==== Sys2Proof/Machine/ExecC.lean ====
section
/-! DEFINITION. The meanings of the control slot's instructions: each runs its row of `slotFn` (its checks, waits, hold and effect)
for the warp that is issuing. -/

namespace Sys2Proof.Machine

/-- ADD (R217): its effect is `effAddS`. -/
def execAddS (o : CSOp) (s : State) : Out := runSlot (.addS o) 3 s
/-- SUB (R217): its effect is `effSubS`. -/
def execSubS (o : CSOp) (s : State) : Out := runSlot (.subS o) 3 s
/-- MUL (R217): its effect is `effMulS`. -/
def execMulS (o : CSOp) (s : State) : Out := runSlot (.mulS o) 3 s
/-- MULH (R217): its effect is `effMulhS`. -/
def execMulhS (o : CSOp) (s : State) : Out := runSlot (.mulhS o) 3 s
/-- AND (R217): its effect is `effAndS`. -/
def execAndS (o : CSOp) (s : State) : Out := runSlot (.andS o) 3 s
/-- OR (R217): its effect is `effOrS`. -/
def execOrS (o : CSOp) (s : State) : Out := runSlot (.orS o) 3 s
/-- XOR (R217): its effect is `effXorS`. -/
def execXorS (o : CSOp) (s : State) : Out := runSlot (.xorS o) 3 s
/-- SHL (R217): its effect is `effShl`. -/
def execShl (o : CSOp) (s : State) : Out := runSlot (.shl o) 3 s
/-- SHR (R217): its effect is `effShr`. -/
def execShr (o : CSOp) (s : State) : Out := runSlot (.shr o) 3 s
/-- SAR (R217): its effect is `effSar`. -/
def execSar (o : CSOp) (s : State) : Out := runSlot (.sar o) 3 s
/-- MIN (R217): its effect is `effMinS`. -/
def execMinS (o : CSOp) (s : State) : Out := runSlot (.minS o) 3 s
/-- MAX (R217): its effect is `effMaxS`. -/
def execMaxS (o : CSOp) (s : State) : Out := runSlot (.maxS o) 3 s
/-- MOV (R218): its effect is `effMov`. -/
def execMov (o : CSOp) (s : State) : Out := runSlot (.mov o) 3 s
/-- MOVI (R218): its effect is `effMovi`. -/
def execMovi (o : CSOp) (s : State) : Out := runSlot (.movi o) 3 s
/-- MOVHI (R218): its effect is `effMovhi`. -/
def execMovhi (o : CSOp) (s : State) : Out := runSlot (.movhi o) 3 s
/-- CMP (R219): its effect is `effCmp`. -/
def execCmp (o : CSOp) (s : State) : Out := runSlot (.cmp o) 3 s
/-- SEL (R218): its effect is `effSel`. -/
def execSel (o : CSOp) (s : State) : Out := runSlot (.sel o) 3 s
/-- CLZ (R217): its effect is `effClz`. -/
def execClz (o : CSOp) (s : State) : Out := runSlot (.clz o) 3 s
/-- POPC (R217): its effect is `effPopc`. -/
def execPopc (o : CSOp) (s : State) : Out := runSlot (.popc o) 3 s
/-- LEA (R217): its effect is `effLea`. -/
def execLea (o : CSOp) (s : State) : Out := runSlot (.lea o) 3 s
/-- BR (R220): its effect is `effBr`. -/
def execBr (o : CBOp) (s : State) : Out := runSlot (.br o) 3 s
/-- BR_ANY (R220): its effect is `effBrAny`. -/
def execBrAny (o : CBOp) (s : State) : Out := runSlot (.brAny o) 3 s
/-- BR_ALL (R220): its effect is `effBrAll`. -/
def execBrAll (o : CBOp) (s : State) : Out := runSlot (.brAll o) 3 s
/-- BR_U (R220): its effect is `effBrU`. -/
def execBrU (o : CBOp) (s : State) : Out := runSlot (.brU o) 3 s
/-- JMP (R220): its effect is `effJmp`. -/
def execJmp (o : CBOp) (s : State) : Out := runSlot (.jmp o) 3 s
/-- JMPR (R221): its effect is `effJmpr`. -/
def execJmpr (o : CBOp) (s : State) : Out := runSlot (.jmpr o) 3 s
/-- CALL (R222): its effect is `effCall`. -/
def execCall (o : CBOp) (s : State) : Out := runSlot (.call o) 3 s
/-- RET (R222): its effect is `effRet`. -/
def execRet (o : CBOp) (s : State) : Out := runSlot (.ret o) 3 s
/-- LOOP (R223): its effect is `effLoop`. -/
def execLoop (o : CBOp) (s : State) : Out := runSlot (.loop o) 3 s
/-- LPOP (R225): its effect is `effLpop`. -/
def execLpop (o : CSOp) (s : State) : Out := runSlot (.lpop o) 3 s
/-- WAIT (R226): its effect is `effWait`. -/
def execWait (o : CWOp) (s : State) : Out := runSlot (.wait o) 3 s
/-- FTEST (R227): its effect is `effFtest`. -/
def execFtest (o : CSOp) (s : State) : Out := runSlot (.ftest o) 3 s
/-- BAR (R228): its effect is `effBar`. -/
def execBar (o : CSOp) (s : State) : Out := runSlot (.bar o) 3 s
/-- CBAR (R231): its effect is `effCbar`. -/
def execCbar (o : CSOp) (s : State) : Out := runSlot (.cbar o) 3 s
/-- AWAIT (R233): its effect is `effAwait`. -/
def execAwait (o : CSOp) (s : State) : Out := runSlot (.await o) 3 s
/-- AINIT (R232): its effect is `effAinit`. -/
def execAinit (o : CSOp) (s : State) : Out := runSlot (.ainit o) 3 s
/-- MWAIT (R234): its effect is `effMwait`. -/
def execMwait (o : CSOp) (s : State) : Out := runSlot (.mwait o) 3 s
/-- LEXIT (R237): its effect is `effLexit`. -/
def execLexit (o : CSOp) (s : State) : Out := runSlot (.lexit o) 3 s
/-- MGET (R238): its effect is `effMget`. -/
def execMget (o : CSOp) (s : State) : Out := runSlot (.mget o) 3 s
/-- MSET (R238): its effect is `effMset`. -/
def execMset (o : CSOp) (s : State) : Out := runSlot (.mset o) 3 s
/-- TSUB (R239): its effect is `effTsub`. -/
def execTsub (o : CSOp) (s : State) : Out := runSlot (.tsub o) 3 s
/-- TARG (R240): its effect is `effTarg`. -/
def execTarg (o : CSOp) (s : State) : Out := runSlot (.targ o) 3 s
/-- TRAP (R241): its effect is `effTrap`. -/
def execTrap (o : CSOp) (s : State) : Out := runSlot (.trap o) 3 s
/-- SYSC (R242): its effect is `effSysc`. -/
def execSysc (o : CSOp) (s : State) : Out := runSlot (.sysc o) 3 s
/-- HRET (R339): its effect is `effHret`. -/
def execHret (o : CSOp) (s : State) : Out := runSlot (.hret o) 3 s
/-- BRK (R241): its effect is `effBrk`. -/
def execBrk (o : CSOp) (s : State) : Out := runSlot (.brk o) 3 s
/-- EXIT (R243): its effect is `effExit`. -/
def execExit (o : CSOp) (s : State) : Out := runSlot (.exit o) 3 s
/-- YIELD (R243): its effect is `effYield`. -/
def execYield (o : CSOp) (s : State) : Out := runSlot (.yield o) 3 s
/-- NOP (R243): its effect is `effNop`. -/
def execNop (o : CSOp) (s : State) : Out := runSlot (.nop o) 3 s
/-- IPF (R244): its effect is `effIpf`. -/
def execIpf (o : CSOp) (s : State) : Out := runSlot (.ipf o) 3 s
/-- ICINV_C (R246): its effect is `effIcinvC`. -/
def execIcinvC (o : CSOp) (s : State) : Out := runSlot (.icinvC o) 3 s
/-- ICINV_D (R246): its effect is `effIcinvD`. -/
def execIcinvD (o : CSOp) (s : State) : Out := runSlot (.icinvD o) 3 s
/-- GSR (R247): its effect is `effGsr`. -/
def execGsr (o : CSOp) (s : State) : Out := runSlot (.gsr o) 3 s
/-- SSR (R247): its effect is `effSsr`. -/
def execSsr (o : CSOp) (s : State) : Out := runSlot (.ssr o) 3 s

end Sys2Proof.Machine
end

