-- ==== Sys2Proof/Machine/ExecM.lean ====
section
/-! DEFINITION. The meanings of the memory slot's instructions: each runs its row of `slotFn` (its checks, waits, hold and effect)
for the warp that is issuing. -/

namespace Sys2Proof.Machine

/-- LD_SP (R149): its effect is `effLdSp`. -/
def execLdSp (o : MOp) (s : State) : Out := runSlot (.ldSp o) 1 s
/-- ST_SP (R149): its effect is `effStSp`. -/
def execStSp (o : MOp) (s : State) : Out := runSlot (.stSp o) 1 s
/-- CAS_SP (R153): its effect is `effCasSp`. -/
def execCasSp (o : MOp) (s : State) : Out := runSlot (.casSp o) 1 s
/-- ATOM_SP_ADD (R152): its effect is `effAtomSpAdd`. -/
def execAtomSpAdd (o : MOp) (s : State) : Out := runSlot (.atomSpAdd o) 1 s
/-- ATOM_SP_AND (R152): its effect is `effAtomSpAnd`. -/
def execAtomSpAnd (o : MOp) (s : State) : Out := runSlot (.atomSpAnd o) 1 s
/-- ATOM_SP_OR (R152): its effect is `effAtomSpOr`. -/
def execAtomSpOr (o : MOp) (s : State) : Out := runSlot (.atomSpOr o) 1 s
/-- ATOM_SP_XOR (R152): its effect is `effAtomSpXor`. -/
def execAtomSpXor (o : MOp) (s : State) : Out := runSlot (.atomSpXor o) 1 s
/-- ATOM_SP_XCHG (R152): its effect is `effAtomSpXchg`. -/
def execAtomSpXchg (o : MOp) (s : State) : Out := runSlot (.atomSpXchg o) 1 s
/-- ATOM_SP_MIN_I (R152): its effect is `effAtomSpMinI`. -/
def execAtomSpMinI (o : MOp) (s : State) : Out := runSlot (.atomSpMinI o) 1 s
/-- ATOM_SP_MAX_I (R152): its effect is `effAtomSpMaxI`. -/
def execAtomSpMaxI (o : MOp) (s : State) : Out := runSlot (.atomSpMaxI o) 1 s
/-- ATOM_SP_MIN_N (R152): its effect is `effAtomSpMinN`. -/
def execAtomSpMinN (o : MOp) (s : State) : Out := runSlot (.atomSpMinN o) 1 s
/-- ATOM_SP_MAX_N (R152): its effect is `effAtomSpMaxN`. -/
def execAtomSpMaxN (o : MOp) (s : State) : Out := runSlot (.atomSpMaxN o) 1 s
/-- LDC (R154): its effect is `effLdc`. -/
def execLdc (o : MOp) (s : State) : Out := runSlot (.ldc o) 1 s
/-- LD_G (R158): its effect is `effLdG`. -/
def execLdG (o : MOp) (s : State) : Out := runSlot (.ldG o) 1 s
/-- LD_G_ACQ (R162): its effect is `effLdGAcq`. -/
def execLdGAcq (o : MOp) (s : State) : Out := runSlot (.ldGAcq o) 1 s
/-- ST_G (R159): its effect is `effStG`. -/
def execStG (o : MOp) (s : State) : Out := runSlot (.stG o) 1 s
/-- ST_G_REL (R161): its effect is `effStGRel`. -/
def execStGRel (o : MOp) (s : State) : Out := runSlot (.stGRel o) 1 s
/-- CAS_G (R160): its effect is `effCasG`. -/
def execCasG (o : MOp) (s : State) : Out := runSlot (.casG o) 1 s
/-- ATOM_G_ADD (R160): its effect is `effAtomGAdd`. -/
def execAtomGAdd (o : MOp) (s : State) : Out := runSlot (.atomGAdd o) 1 s
/-- ATOM_G_AND (R160): its effect is `effAtomGAnd`. -/
def execAtomGAnd (o : MOp) (s : State) : Out := runSlot (.atomGAnd o) 1 s
/-- ATOM_G_OR (R160): its effect is `effAtomGOr`. -/
def execAtomGOr (o : MOp) (s : State) : Out := runSlot (.atomGOr o) 1 s
/-- ATOM_G_XOR (R160): its effect is `effAtomGXor`. -/
def execAtomGXor (o : MOp) (s : State) : Out := runSlot (.atomGXor o) 1 s
/-- ATOM_G_XCHG (R160): its effect is `effAtomGXchg`. -/
def execAtomGXchg (o : MOp) (s : State) : Out := runSlot (.atomGXchg o) 1 s
/-- ATOM_G_MIN_I (R160): its effect is `effAtomGMinI`. -/
def execAtomGMinI (o : MOp) (s : State) : Out := runSlot (.atomGMinI o) 1 s
/-- ATOM_G_MAX_I (R160): its effect is `effAtomGMaxI`. -/
def execAtomGMaxI (o : MOp) (s : State) : Out := runSlot (.atomGMaxI o) 1 s
/-- ATOM_G_MIN_N (R160): its effect is `effAtomGMinN`. -/
def execAtomGMinN (o : MOp) (s : State) : Out := runSlot (.atomGMinN o) 1 s
/-- ATOM_G_MAX_N (R160): its effect is `effAtomGMaxN`. -/
def execAtomGMaxN (o : MOp) (s : State) : Out := runSlot (.atomGMaxN o) 1 s
/-- ATOM_G_FADD (R160): its effect is `effAtomGFadd`. -/
def execAtomGFadd (o : MOp) (s : State) : Out := runSlot (.atomGFadd o) 1 s
/-- RED_G_ADD (R160): its effect is `effRedGAdd`. -/
def execRedGAdd (o : MOp) (s : State) : Out := runSlot (.redGAdd o) 1 s
/-- RED_G_AND (R160): its effect is `effRedGAnd`. -/
def execRedGAnd (o : MOp) (s : State) : Out := runSlot (.redGAnd o) 1 s
/-- RED_G_OR (R160): its effect is `effRedGOr`. -/
def execRedGOr (o : MOp) (s : State) : Out := runSlot (.redGOr o) 1 s
/-- RED_G_XOR (R160): its effect is `effRedGXor`. -/
def execRedGXor (o : MOp) (s : State) : Out := runSlot (.redGXor o) 1 s
/-- RED_G_MIN_I (R160): its effect is `effRedGMinI`. -/
def execRedGMinI (o : MOp) (s : State) : Out := runSlot (.redGMinI o) 1 s
/-- RED_G_MAX_I (R160): its effect is `effRedGMaxI`. -/
def execRedGMaxI (o : MOp) (s : State) : Out := runSlot (.redGMaxI o) 1 s
/-- RED_G_MIN_N (R160): its effect is `effRedGMinN`. -/
def execRedGMinN (o : MOp) (s : State) : Out := runSlot (.redGMinN o) 1 s
/-- RED_G_MAX_N (R160): its effect is `effRedGMaxN`. -/
def execRedGMaxN (o : MOp) (s : State) : Out := runSlot (.redGMaxN o) 1 s
/-- RED_G_FADD (R160): its effect is `effRedGFadd`. -/
def execRedGFadd (o : MOp) (s : State) : Out := runSlot (.redGFadd o) 1 s
/-- SLD (R167): its effect is `effSld`. -/
def execSld (o : MOp) (s : State) : Out := runSlot (.sld o) 1 s
/-- SDSET (R169): its effect is `effSdset`. -/
def execSdset (o : MOp) (s : State) : Out := runSlot (.sdset o) 1 s
/-- SDGET (R169): its effect is `effSdget`. -/
def execSdget (o : MOp) (s : State) : Out := runSlot (.sdget o) 1 s
/-- VSPILL (R173): its effect is `effVspill`. -/
def execVspill (o : MOp) (s : State) : Out := runSlot (.vspill o) 1 s
/-- VFILL (R174): its effect is `effVfill`. -/
def execVfill (o : MOp) (s : State) : Out := runSlot (.vfill o) 1 s
/-- FENCE_ACQ (R162): its effect is `effFenceAcq`. -/
def execFenceAcq (o : MOp) (s : State) : Out := runSlot (.fenceAcq o) 1 s
/-- FENCE_REL (R161): its effect is `effFenceRel`. -/
def execFenceRel (o : MOp) (s : State) : Out := runSlot (.fenceRel o) 1 s
/-- FENCE (R162): its effect is `effFence`. -/
def execFence (o : MOp) (s : State) : Out := runSlot (.fence o) 1 s
/-- L1INV (R156): its effect is `effL1inv`. -/
def execL1inv (o : MOp) (s : State) : Out := runSlot (.l1inv o) 1 s
/-- ARRIVE (R172): its effect is `effArrive`. -/
def execArrive (o : MOp) (s : State) : Out := runSlot (.arrive o) 1 s
/-- PFD (R176): its effect is `effPfd`. -/
def execPfd (o : MOp) (s : State) : Out := runSlot (.pfd o) 1 s

end Sys2Proof.Machine
end

