-- ==== Sys2Proof/Machine/ExecV.lean ====
section
/-! DEFINITION. The meanings of the vector slot's instructions: each runs its row of `slotFn` (its checks, waits, hold and effect)
for the warp that is issuing. -/

namespace Sys2Proof.Machine

/-- VADD (R118): its effect is `effVadd`. -/
def execVadd (o : VOp) (s : State) : Out := runSlot (.vadd o) 0 s
/-- VSUB (R118): its effect is `effVsub`. -/
def execVsub (o : VOp) (s : State) : Out := runSlot (.vsub o) 0 s
/-- VMUL (R118): its effect is `effVmul`. -/
def execVmul (o : VOp) (s : State) : Out := runSlot (.vmul o) 0 s
/-- VMULH (R118): its effect is `effVmulh`. -/
def execVmulh (o : VOp) (s : State) : Out := runSlot (.vmulh o) 0 s
/-- VMAD (R118): its effect is `effVmad`. -/
def execVmad (o : VOp) (s : State) : Out := runSlot (.vmad o) 0 s
/-- VMIN (R118): its effect is `effVmin`. -/
def execVmin (o : VOp) (s : State) : Out := runSlot (.vmin o) 0 s
/-- VMAX (R118): its effect is `effVmax`. -/
def execVmax (o : VOp) (s : State) : Out := runSlot (.vmax o) 0 s
/-- VAND (R119): its effect is `effVand`. -/
def execVand (o : VOp) (s : State) : Out := runSlot (.vand o) 0 s
/-- VOR (R119): its effect is `effVor`. -/
def execVor (o : VOp) (s : State) : Out := runSlot (.vor o) 0 s
/-- VXOR (R119): its effect is `effVxor`. -/
def execVxor (o : VOp) (s : State) : Out := runSlot (.vxor o) 0 s
/-- VSHL (R119): its effect is `effVshl`. -/
def execVshl (o : VOp) (s : State) : Out := runSlot (.vshl o) 0 s
/-- VSHR (R119): its effect is `effVshr`. -/
def execVshr (o : VOp) (s : State) : Out := runSlot (.vshr o) 0 s
/-- VSAR (R119): its effect is `effVsar`. -/
def execVsar (o : VOp) (s : State) : Out := runSlot (.vsar o) 0 s
/-- VROT (R119): its effect is `effVrot`. -/
def execVrot (o : VOp) (s : State) : Out := runSlot (.vrot o) 0 s
/-- VCLZ (R119): its effect is `effVclz`. -/
def execVclz (o : VOp) (s : State) : Out := runSlot (.vclz o) 0 s
/-- VPOPC (R119): its effect is `effVpopc`. -/
def execVpopc (o : VOp) (s : State) : Out := runSlot (.vpopc o) 0 s
/-- VBREV (R119): its effect is `effVbrev`. -/
def execVbrev (o : VOp) (s : State) : Out := runSlot (.vbrev o) 0 s
/-- VBFE (R120): its effect is `effVbfe`. -/
def execVbfe (o : VOp) (s : State) : Out := runSlot (.vbfe o) 0 s
/-- VBFI (R120): its effect is `effVbfi`. -/
def execVbfi (o : VOp) (s : State) : Out := runSlot (.vbfi o) 0 s
/-- VSEL (R121): its effect is `effVsel`. -/
def execVsel (o : VOp) (s : State) : Out := runSlot (.vsel o) 0 s
/-- VMOV (R121): its effect is `effVmov`. -/
def execVmov (o : VOp) (s : State) : Out := runSlot (.vmov o) 0 s
/-- VMOVI (R121): its effect is `effVmovi`. -/
def execVmovi (o : VOp) (s : State) : Out := runSlot (.vmovi o) 0 s
/-- VMOVI_HI (R121): its effect is `effVmoviHi`. -/
def execVmoviHi (o : VOp) (s : State) : Out := runSlot (.vmoviHi o) 0 s
/-- VCMP (R122): its effect is `effVcmp`. -/
def execVcmp (o : VOp) (s : State) : Out := runSlot (.vcmp o) 0 s
/-- VCLML (R123): its effect is `effVclml`. -/
def execVclml (o : VOp) (s : State) : Out := runSlot (.vclml o) 0 s
/-- VCLMH (R123): its effect is `effVclmh`. -/
def execVclmh (o : VOp) (s : State) : Out := runSlot (.vclmh o) 0 s
/-- VFADD (R125): its effect is `effVfadd`. -/
def execVfadd (o : VOp) (s : State) : Out := runSlot (.vfadd o) 0 s
/-- VFSUB (R125): its effect is `effVfsub`. -/
def execVfsub (o : VOp) (s : State) : Out := runSlot (.vfsub o) 0 s
/-- VFMUL (R125): its effect is `effVfmul`. -/
def execVfmul (o : VOp) (s : State) : Out := runSlot (.vfmul o) 0 s
/-- VFMA (R125): its effect is `effVfma`. -/
def execVfma (o : VOp) (s : State) : Out := runSlot (.vfma o) 0 s
/-- VFMIN (R125): its effect is `effVfmin`. -/
def execVfmin (o : VOp) (s : State) : Out := runSlot (.vfmin o) 0 s
/-- VFMAX (R125): its effect is `effVfmax`. -/
def execVfmax (o : VOp) (s : State) : Out := runSlot (.vfmax o) 0 s
/-- VFCMP (R126): its effect is `effVfcmp`. -/
def execVfcmp (o : VOp) (s : State) : Out := runSlot (.vfcmp o) 0 s
/-- VFCLASS (R127): its effect is `effVfclass`. -/
def execVfclass (o : VOp) (s : State) : Out := runSlot (.vfclass o) 0 s
/-- VFRCP (R97): its effect is `effVfrcp`. -/
def execVfrcp (o : VOp) (s : State) : Out := runSlot (.vfrcp o) 0 s
/-- VFRSQ (R97): its effect is `effVfrsq`. -/
def execVfrsq (o : VOp) (s : State) : Out := runSlot (.vfrsq o) 0 s
/-- VFEX2 (R97): its effect is `effVfex2`. -/
def execVfex2 (o : VOp) (s : State) : Out := runSlot (.vfex2 o) 0 s
/-- VFLG2 (R97): its effect is `effVflg2`. -/
def execVflg2 (o : VOp) (s : State) : Out := runSlot (.vflg2 o) 0 s
/-- VFSINPI (R97): its effect is `effVfsinpi`. -/
def execVfsinpi (o : VOp) (s : State) : Out := runSlot (.vfsinpi o) 0 s
/-- VFCOSPI (R97): its effect is `effVfcospi`. -/
def execVfcospi (o : VOp) (s : State) : Out := runSlot (.vfcospi o) 0 s
/-- VHADD (R128): its effect is `effVhadd`. -/
def execVhadd (o : VOp) (s : State) : Out := runSlot (.vhadd o) 0 s
/-- VHMUL (R128): its effect is `effVhmul`. -/
def execVhmul (o : VOp) (s : State) : Out := runSlot (.vhmul o) 0 s
/-- VHFMA (R128): its effect is `effVhfma`. -/
def execVhfma (o : VOp) (s : State) : Out := runSlot (.vhfma o) 0 s
/-- VHDOT (R128): its effect is `effVhdot`. -/
def execVhdot (o : VOp) (s : State) : Out := runSlot (.vhdot o) 0 s
/-- VCVT (R129): its effect is `effVcvt`. -/
def execVcvt (o : VOp) (s : State) : Out := runSlot (.vcvt o) 0 s
/-- VPACK (R130): its effect is `effVpack`. -/
def execVpack (o : VOp) (s : State) : Out := runSlot (.vpack o) 0 s
/-- VUNPACK (R131): its effect is `effVunpack`. -/
def execVunpack (o : VOp) (s : State) : Out := runSlot (.vunpack o) 0 s
/-- VSCALE (R132): its effect is `effVscale`. -/
def execVscale (o : VOp) (s : State) : Out := runSlot (.vscale o) 0 s
/-- VSHFL (R133): its effect is `effVshfl`. -/
def execVshfl (o : VOp) (s : State) : Out := runSlot (.vshfl o) 0 s
/-- VBCAST (R134): its effect is `effVbcast`. -/
def execVbcast (o : VOp) (s : State) : Out := runSlot (.vbcast o) 0 s
/-- VREDADD (R136): its effect is `effVredadd`. -/
def execVredadd (o : VOp) (s : State) : Out := runSlot (.vredadd o) 0 s
/-- VREDMIN (R136): its effect is `effVredmin`. -/
def execVredmin (o : VOp) (s : State) : Out := runSlot (.vredmin o) 0 s
/-- VREDMAX (R136): its effect is `effVredmax`. -/
def execVredmax (o : VOp) (s : State) : Out := runSlot (.vredmax o) 0 s
/-- VANY (R136): its effect is `effVany`. -/
def execVany (o : VOp) (s : State) : Out := runSlot (.vany o) 0 s
/-- VALL (R136): its effect is `effVall`. -/
def execVall (o : VOp) (s : State) : Out := runSlot (.vall o) 0 s
/-- VBALLOT (R136): its effect is `effVballot`. -/
def execVballot (o : VOp) (s : State) : Out := runSlot (.vballot o) 0 s
/-- VPAND (R137): its effect is `effVpand`. -/
def execVpand (o : VOp) (s : State) : Out := runSlot (.vpand o) 0 s
/-- VPOR (R137): its effect is `effVpor`. -/
def execVpor (o : VOp) (s : State) : Out := runSlot (.vpor o) 0 s
/-- VPXOR (R137): its effect is `effVpxor`. -/
def execVpxor (o : VOp) (s : State) : Out := runSlot (.vpxor o) 0 s
/-- VPANDN (R137): its effect is `effVpandn`. -/
def execVpandn (o : VOp) (s : State) : Out := runSlot (.vpandn o) 0 s
/-- VPNOT (R137): its effect is `effVpnot`. -/
def execVpnot (o : VOp) (s : State) : Out := runSlot (.vpnot o) 0 s

end Sys2Proof.Machine
end

