-- ==== Sys2Proof/Machine/ExecX.lean ====
section
/-! DEFINITION. The meanings of the copy and tile slot's instructions: each runs its row of `slotFn` (its checks, waits, hold and effect)
for the warp that is issuing. -/

namespace Sys2Proof.Machine

/-- CPA (R187): its effect is `effCpa`. -/
def execCpa (o : XCOp) (s : State) : Out := runSlot (.cpa o) 2 s
/-- CPB (R188): its effect is `effCpb`. -/
def execCpb (o : XCOp) (s : State) : Out := runSlot (.cpb o) 2 s
/-- CP2D (R189): its effect is `effCp2d`. -/
def execCp2d (o : XCOp) (s : State) : Out := runSlot (.cp2d o) 2 s
/-- CPM (R190): its effect is `effCpm`. -/
def execCpm (o : XCOp) (s : State) : Out := runSlot (.cpm o) 2 s
/-- TLD (R199): its effect is `effTld`. -/
def execTld (o : XCOp) (s : State) : Out := runSlot (.tld o) 2 s
/-- TST (R200): its effect is `effTst`. -/
def execTst (o : XCOp) (s : State) : Out := runSlot (.tst o) 2 s
/-- TSTAC (R203): its effect is `effTstac`. -/
def execTstac (o : XCOp) (s : State) : Out := runSlot (.tstac o) 2 s
/-- TDRAIN (R203): its effect is `effTdrain`. -/
def execTdrain (o : XCOp) (s : State) : Out := runSlot (.tdrain o) 2 s
/-- TZERO (R204): its effect is `effTzero`. -/
def execTzero (o : XTOp) (s : State) : Out := runSlot (.tzero o) 2 s
/-- TSAVE (R204): its effect is `effTsave`. -/
def execTsave (o : XCOp) (s : State) : Out := runSlot (.tsave o) 2 s
/-- TLOAD (R204): its effect is `effTload`. -/
def execTload (o : XCOp) (s : State) : Out := runSlot (.tload o) 2 s
/-- SADV (R210): its effect is `effSadv`. -/
def execSadv (o : XTOp) (s : State) : Out := runSlot (.sadv o) 2 s
/-- SRESET (R210): its effect is `effSreset`. -/
def execSreset (o : XTOp) (s : State) : Out := runSlot (.sreset o) 2 s
/-- TMMA_BF16 (R206): its effect is `effTmmaBf16`. -/
def execTmmaBf16 (o : XTOp) (s : State) : Out := runSlot (.tmmaBf16 o) 2 s
/-- TMMA_F16 (R206): its effect is `effTmmaF16`. -/
def execTmmaF16 (o : XTOp) (s : State) : Out := runSlot (.tmmaF16 o) 2 s
/-- TMMA_E4M3 (R206): its effect is `effTmmaE4m3`. -/
def execTmmaE4m3 (o : XTOp) (s : State) : Out := runSlot (.tmmaE4m3 o) 2 s
/-- TMMA_E5M2 (R206): its effect is `effTmmaE5m2`. -/
def execTmmaE5m2 (o : XTOp) (s : State) : Out := runSlot (.tmmaE5m2 o) 2 s
/-- TMMA_E4M3E5M2 (R206): its effect is `effTmmaE4m3e5m2`. -/
def execTmmaE4m3e5m2 (o : XTOp) (s : State) : Out := runSlot (.tmmaE4m3e5m2 o) 2 s
/-- TMMA_E5M2E4M3 (R206): its effect is `effTmmaE5m2e4m3`. -/
def execTmmaE5m2e4m3 (o : XTOp) (s : State) : Out := runSlot (.tmmaE5m2e4m3 o) 2 s
/-- TMMA_I8 (R206): its effect is `effTmmaI8`. -/
def execTmmaI8 (o : XTOp) (s : State) : Out := runSlot (.tmmaI8 o) 2 s
/-- TMMA_N8 (R206): its effect is `effTmmaN8`. -/
def execTmmaN8 (o : XTOp) (s : State) : Out := runSlot (.tmmaN8 o) 2 s
/-- TMMA_I8N8 (R206): its effect is `effTmmaI8n8`. -/
def execTmmaI8n8 (o : XTOp) (s : State) : Out := runSlot (.tmmaI8n8 o) 2 s
/-- TMMA_LG6 (R206): its effect is `effTmmaLg6`. -/
def execTmmaLg6 (o : XTOp) (s : State) : Out := runSlot (.tmmaLg6 o) 2 s
/-- TMMAS_E4M3 (R207): its effect is `effTmmasE4m3`. -/
def execTmmasE4m3 (o : XTOp) (s : State) : Out := runSlot (.tmmasE4m3 o) 2 s
/-- TMMAS_E5M2 (R207): its effect is `effTmmasE5m2`. -/
def execTmmasE5m2 (o : XTOp) (s : State) : Out := runSlot (.tmmasE5m2 o) 2 s
/-- TMMAS_E4M3E5M2 (R207): its effect is `effTmmasE4m3e5m2`. -/
def execTmmasE4m3e5m2 (o : XTOp) (s : State) : Out := runSlot (.tmmasE4m3e5m2 o) 2 s
/-- TMMAS_E5M2E4M3 (R207): its effect is `effTmmasE5m2e4m3`. -/
def execTmmasE5m2e4m3 (o : XTOp) (s : State) : Out := runSlot (.tmmasE5m2e4m3 o) 2 s
/-- TMMAS_I8 (R207): its effect is `effTmmasI8`. -/
def execTmmasI8 (o : XTOp) (s : State) : Out := runSlot (.tmmasI8 o) 2 s
/-- TMMAS_LG6 (R207): its effect is `effTmmasLg6`. -/
def execTmmasLg6 (o : XTOp) (s : State) : Out := runSlot (.tmmasLg6 o) 2 s
/-- GRED_ADD (R211): its effect is `effGredAdd`. -/
def execGredAdd (o : XCOp) (s : State) : Out := runSlot (.gredAdd o) 2 s
/-- GRED_MIN (R211): its effect is `effGredMin`. -/
def execGredMin (o : XCOp) (s : State) : Out := runSlot (.gredMin o) 2 s
/-- GRED_MAX (R211): its effect is `effGredMax`. -/
def execGredMax (o : XCOp) (s : State) : Out := runSlot (.gredMax o) 2 s
/-- XTILE (R201): its effect is `effXtile`. -/
def execXtile (o : XCOp) (s : State) : Out := runSlot (.xtile o) 2 s

end Sys2Proof.Machine
end

