-- ==== Sys2Proof/Machine/Dispatch.lean ====
section
/-! DEFINITION. One arm for each instruction: the call of its meaning. -/

namespace Sys2Proof.Machine

def exec (i : Instr) (s : State) : Host.Outcome State Fault Refusal :=
  match i with
  | .vadd o => Sys2Proof.Machine.execVadd o s
  | .vsub o => Sys2Proof.Machine.execVsub o s
  | .vmul o => Sys2Proof.Machine.execVmul o s
  | .vmulh o => Sys2Proof.Machine.execVmulh o s
  | .vmad o => Sys2Proof.Machine.execVmad o s
  | .vmin o => Sys2Proof.Machine.execVmin o s
  | .vmax o => Sys2Proof.Machine.execVmax o s
  | .vand o => Sys2Proof.Machine.execVand o s
  | .vor o => Sys2Proof.Machine.execVor o s
  | .vxor o => Sys2Proof.Machine.execVxor o s
  | .vshl o => Sys2Proof.Machine.execVshl o s
  | .vshr o => Sys2Proof.Machine.execVshr o s
  | .vsar o => Sys2Proof.Machine.execVsar o s
  | .vrot o => Sys2Proof.Machine.execVrot o s
  | .vclz o => Sys2Proof.Machine.execVclz o s
  | .vpopc o => Sys2Proof.Machine.execVpopc o s
  | .vbrev o => Sys2Proof.Machine.execVbrev o s
  | .vbfe o => Sys2Proof.Machine.execVbfe o s
  | .vbfi o => Sys2Proof.Machine.execVbfi o s
  | .vsel o => Sys2Proof.Machine.execVsel o s
  | .vmov o => Sys2Proof.Machine.execVmov o s
  | .vmovi o => Sys2Proof.Machine.execVmovi o s
  | .vmoviHi o => Sys2Proof.Machine.execVmoviHi o s
  | .vcmp o => Sys2Proof.Machine.execVcmp o s
  | .vclml o => Sys2Proof.Machine.execVclml o s
  | .vclmh o => Sys2Proof.Machine.execVclmh o s
  | .vfadd o => Sys2Proof.Machine.execVfadd o s
  | .vfsub o => Sys2Proof.Machine.execVfsub o s
  | .vfmul o => Sys2Proof.Machine.execVfmul o s
  | .vfma o => Sys2Proof.Machine.execVfma o s
  | .vfmin o => Sys2Proof.Machine.execVfmin o s
  | .vfmax o => Sys2Proof.Machine.execVfmax o s
  | .vfcmp o => Sys2Proof.Machine.execVfcmp o s
  | .vfclass o => Sys2Proof.Machine.execVfclass o s
  | .vfrcp o => Sys2Proof.Machine.execVfrcp o s
  | .vfrsq o => Sys2Proof.Machine.execVfrsq o s
  | .vfex2 o => Sys2Proof.Machine.execVfex2 o s
  | .vflg2 o => Sys2Proof.Machine.execVflg2 o s
  | .vfsinpi o => Sys2Proof.Machine.execVfsinpi o s
  | .vfcospi o => Sys2Proof.Machine.execVfcospi o s
  | .vhadd o => Sys2Proof.Machine.execVhadd o s
  | .vhmul o => Sys2Proof.Machine.execVhmul o s
  | .vhfma o => Sys2Proof.Machine.execVhfma o s
  | .vhdot o => Sys2Proof.Machine.execVhdot o s
  | .vcvt o => Sys2Proof.Machine.execVcvt o s
  | .vpack o => Sys2Proof.Machine.execVpack o s
  | .vunpack o => Sys2Proof.Machine.execVunpack o s
  | .vscale o => Sys2Proof.Machine.execVscale o s
  | .vshfl o => Sys2Proof.Machine.execVshfl o s
  | .vbcast o => Sys2Proof.Machine.execVbcast o s
  | .vredadd o => Sys2Proof.Machine.execVredadd o s
  | .vredmin o => Sys2Proof.Machine.execVredmin o s
  | .vredmax o => Sys2Proof.Machine.execVredmax o s
  | .vany o => Sys2Proof.Machine.execVany o s
  | .vall o => Sys2Proof.Machine.execVall o s
  | .vballot o => Sys2Proof.Machine.execVballot o s
  | .vpand o => Sys2Proof.Machine.execVpand o s
  | .vpor o => Sys2Proof.Machine.execVpor o s
  | .vpxor o => Sys2Proof.Machine.execVpxor o s
  | .vpandn o => Sys2Proof.Machine.execVpandn o s
  | .vpnot o => Sys2Proof.Machine.execVpnot o s
  | .ldSp o => Sys2Proof.Machine.execLdSp o s
  | .stSp o => Sys2Proof.Machine.execStSp o s
  | .casSp o => Sys2Proof.Machine.execCasSp o s
  | .atomSpAdd o => Sys2Proof.Machine.execAtomSpAdd o s
  | .atomSpAnd o => Sys2Proof.Machine.execAtomSpAnd o s
  | .atomSpOr o => Sys2Proof.Machine.execAtomSpOr o s
  | .atomSpXor o => Sys2Proof.Machine.execAtomSpXor o s
  | .atomSpXchg o => Sys2Proof.Machine.execAtomSpXchg o s
  | .atomSpMinI o => Sys2Proof.Machine.execAtomSpMinI o s
  | .atomSpMaxI o => Sys2Proof.Machine.execAtomSpMaxI o s
  | .atomSpMinN o => Sys2Proof.Machine.execAtomSpMinN o s
  | .atomSpMaxN o => Sys2Proof.Machine.execAtomSpMaxN o s
  | .ldc o => Sys2Proof.Machine.execLdc o s
  | .ldG o => Sys2Proof.Machine.execLdG o s
  | .ldGAcq o => Sys2Proof.Machine.execLdGAcq o s
  | .stG o => Sys2Proof.Machine.execStG o s
  | .stGRel o => Sys2Proof.Machine.execStGRel o s
  | .casG o => Sys2Proof.Machine.execCasG o s
  | .atomGAdd o => Sys2Proof.Machine.execAtomGAdd o s
  | .atomGAnd o => Sys2Proof.Machine.execAtomGAnd o s
  | .atomGOr o => Sys2Proof.Machine.execAtomGOr o s
  | .atomGXor o => Sys2Proof.Machine.execAtomGXor o s
  | .atomGXchg o => Sys2Proof.Machine.execAtomGXchg o s
  | .atomGMinI o => Sys2Proof.Machine.execAtomGMinI o s
  | .atomGMaxI o => Sys2Proof.Machine.execAtomGMaxI o s
  | .atomGMinN o => Sys2Proof.Machine.execAtomGMinN o s
  | .atomGMaxN o => Sys2Proof.Machine.execAtomGMaxN o s
  | .atomGFadd o => Sys2Proof.Machine.execAtomGFadd o s
  | .redGAdd o => Sys2Proof.Machine.execRedGAdd o s
  | .redGAnd o => Sys2Proof.Machine.execRedGAnd o s
  | .redGOr o => Sys2Proof.Machine.execRedGOr o s
  | .redGXor o => Sys2Proof.Machine.execRedGXor o s
  | .redGMinI o => Sys2Proof.Machine.execRedGMinI o s
  | .redGMaxI o => Sys2Proof.Machine.execRedGMaxI o s
  | .redGMinN o => Sys2Proof.Machine.execRedGMinN o s
  | .redGMaxN o => Sys2Proof.Machine.execRedGMaxN o s
  | .redGFadd o => Sys2Proof.Machine.execRedGFadd o s
  | .sld o => Sys2Proof.Machine.execSld o s
  | .sdset o => Sys2Proof.Machine.execSdset o s
  | .sdget o => Sys2Proof.Machine.execSdget o s
  | .vspill o => Sys2Proof.Machine.execVspill o s
  | .vfill o => Sys2Proof.Machine.execVfill o s
  | .fenceAcq o => Sys2Proof.Machine.execFenceAcq o s
  | .fenceRel o => Sys2Proof.Machine.execFenceRel o s
  | .fence o => Sys2Proof.Machine.execFence o s
  | .l1inv o => Sys2Proof.Machine.execL1inv o s
  | .arrive o => Sys2Proof.Machine.execArrive o s
  | .pfd o => Sys2Proof.Machine.execPfd o s
  | .cpa o => Sys2Proof.Machine.execCpa o s
  | .cpb o => Sys2Proof.Machine.execCpb o s
  | .cp2d o => Sys2Proof.Machine.execCp2d o s
  | .cpm o => Sys2Proof.Machine.execCpm o s
  | .tld o => Sys2Proof.Machine.execTld o s
  | .tst o => Sys2Proof.Machine.execTst o s
  | .tstac o => Sys2Proof.Machine.execTstac o s
  | .tdrain o => Sys2Proof.Machine.execTdrain o s
  | .tzero o => Sys2Proof.Machine.execTzero o s
  | .tsave o => Sys2Proof.Machine.execTsave o s
  | .tload o => Sys2Proof.Machine.execTload o s
  | .sadv o => Sys2Proof.Machine.execSadv o s
  | .sreset o => Sys2Proof.Machine.execSreset o s
  | .tmmaBf16 o => Sys2Proof.Machine.execTmmaBf16 o s
  | .tmmaF16 o => Sys2Proof.Machine.execTmmaF16 o s
  | .tmmaE4m3 o => Sys2Proof.Machine.execTmmaE4m3 o s
  | .tmmaE5m2 o => Sys2Proof.Machine.execTmmaE5m2 o s
  | .tmmaE4m3e5m2 o => Sys2Proof.Machine.execTmmaE4m3e5m2 o s
  | .tmmaE5m2e4m3 o => Sys2Proof.Machine.execTmmaE5m2e4m3 o s
  | .tmmaI8 o => Sys2Proof.Machine.execTmmaI8 o s
  | .tmmaN8 o => Sys2Proof.Machine.execTmmaN8 o s
  | .tmmaI8n8 o => Sys2Proof.Machine.execTmmaI8n8 o s
  | .tmmaLg6 o => Sys2Proof.Machine.execTmmaLg6 o s
  | .tmmasE4m3 o => Sys2Proof.Machine.execTmmasE4m3 o s
  | .tmmasE5m2 o => Sys2Proof.Machine.execTmmasE5m2 o s
  | .tmmasE4m3e5m2 o => Sys2Proof.Machine.execTmmasE4m3e5m2 o s
  | .tmmasE5m2e4m3 o => Sys2Proof.Machine.execTmmasE5m2e4m3 o s
  | .tmmasI8 o => Sys2Proof.Machine.execTmmasI8 o s
  | .tmmasLg6 o => Sys2Proof.Machine.execTmmasLg6 o s
  | .gredAdd o => Sys2Proof.Machine.execGredAdd o s
  | .gredMin o => Sys2Proof.Machine.execGredMin o s
  | .gredMax o => Sys2Proof.Machine.execGredMax o s
  | .xtile o => Sys2Proof.Machine.execXtile o s
  | .addS o => Sys2Proof.Machine.execAddS o s
  | .subS o => Sys2Proof.Machine.execSubS o s
  | .mulS o => Sys2Proof.Machine.execMulS o s
  | .mulhS o => Sys2Proof.Machine.execMulhS o s
  | .andS o => Sys2Proof.Machine.execAndS o s
  | .orS o => Sys2Proof.Machine.execOrS o s
  | .xorS o => Sys2Proof.Machine.execXorS o s
  | .shl o => Sys2Proof.Machine.execShl o s
  | .shr o => Sys2Proof.Machine.execShr o s
  | .sar o => Sys2Proof.Machine.execSar o s
  | .minS o => Sys2Proof.Machine.execMinS o s
  | .maxS o => Sys2Proof.Machine.execMaxS o s
  | .mov o => Sys2Proof.Machine.execMov o s
  | .movi o => Sys2Proof.Machine.execMovi o s
  | .movhi o => Sys2Proof.Machine.execMovhi o s
  | .cmp o => Sys2Proof.Machine.execCmp o s
  | .sel o => Sys2Proof.Machine.execSel o s
  | .clz o => Sys2Proof.Machine.execClz o s
  | .popc o => Sys2Proof.Machine.execPopc o s
  | .lea o => Sys2Proof.Machine.execLea o s
  | .br o => Sys2Proof.Machine.execBr o s
  | .brAny o => Sys2Proof.Machine.execBrAny o s
  | .brAll o => Sys2Proof.Machine.execBrAll o s
  | .brU o => Sys2Proof.Machine.execBrU o s
  | .jmp o => Sys2Proof.Machine.execJmp o s
  | .jmpr o => Sys2Proof.Machine.execJmpr o s
  | .call o => Sys2Proof.Machine.execCall o s
  | .ret o => Sys2Proof.Machine.execRet o s
  | .loop o => Sys2Proof.Machine.execLoop o s
  | .lpop o => Sys2Proof.Machine.execLpop o s
  | .wait o => Sys2Proof.Machine.execWait o s
  | .ftest o => Sys2Proof.Machine.execFtest o s
  | .bar o => Sys2Proof.Machine.execBar o s
  | .cbar o => Sys2Proof.Machine.execCbar o s
  | .await o => Sys2Proof.Machine.execAwait o s
  | .ainit o => Sys2Proof.Machine.execAinit o s
  | .mwait o => Sys2Proof.Machine.execMwait o s
  | .lexit o => Sys2Proof.Machine.execLexit o s
  | .mget o => Sys2Proof.Machine.execMget o s
  | .mset o => Sys2Proof.Machine.execMset o s
  | .tsub o => Sys2Proof.Machine.execTsub o s
  | .targ o => Sys2Proof.Machine.execTarg o s
  | .trap o => Sys2Proof.Machine.execTrap o s
  | .sysc o => Sys2Proof.Machine.execSysc o s
  | .hret o => Sys2Proof.Machine.execHret o s
  | .brk o => Sys2Proof.Machine.execBrk o s
  | .exit o => Sys2Proof.Machine.execExit o s
  | .yield o => Sys2Proof.Machine.execYield o s
  | .nop o => Sys2Proof.Machine.execNop o s
  | .ipf o => Sys2Proof.Machine.execIpf o s
  | .icinvC o => Sys2Proof.Machine.execIcinvC o s
  | .icinvD o => Sys2Proof.Machine.execIcinvD o s
  | .gsr o => Sys2Proof.Machine.execGsr o s
  | .ssr o => Sys2Proof.Machine.execSsr o s
  | .bundleIssue core slot => Sys2Proof.Machine.execBundleIssue core slot s
  | .resultLand core slot => Sys2Proof.Machine.execResultLand core slot s
  | .freezeEnd core slot => Sys2Proof.Machine.execFreezeEnd core slot s
  | .asyncResultLand core op part => Sys2Proof.Machine.execAsyncResultLand core op part s
  | .acceptance core slot => Sys2Proof.Machine.execAcceptance core slot s
  | .warpSwap core out inn => Sys2Proof.Machine.execWarpSwap core out inn s
  | .starvationSwap core out inn => Sys2Proof.Machine.execStarvationSwap core out inn s
  | .warpSlotFree core slot => Sys2Proof.Machine.execWarpSlotFree core slot s
  | .tileGrantRelease core => Sys2Proof.Machine.execTileGrantRelease core s
  | .holdEnd core slot => Sys2Proof.Machine.execHoldEnd core slot s
  | .barrierTimeout core slot => Sys2Proof.Machine.execBarrierTimeout core slot s
  | .mwaitTimeout core slot => Sys2Proof.Machine.execMwaitTimeout core slot s
  | .mwaitPoll core slot => Sys2Proof.Machine.execMwaitPoll core slot s
  | .syscReply core slot => Sys2Proof.Machine.execSyscReply core slot s
  | .version core slot => Sys2Proof.Machine.execVersion core slot s
  | .resolve core slot => Sys2Proof.Machine.execResolve core slot s
  | .migrateWait core slot => Sys2Proof.Machine.execMigrateWait core slot s
  | .killTask core slot => Sys2Proof.Machine.execKillTask core slot s
  | .logSvc core slot => Sys2Proof.Machine.execLogSvc core slot s
  | .debugNotify core slot => Sys2Proof.Machine.execDebugNotify core slot s
  | .trapEntry core slot => Sys2Proof.Machine.execTrapEntry core slot s
  | .fifoEntryPerform core seq => Sys2Proof.Machine.execFifoEntryPerform core seq s
  | .releaseComplete core seq => Sys2Proof.Machine.execReleaseComplete core seq s
  | .acquireComplete core op => Sys2Proof.Machine.execAcquireComplete core op s
  | .l1Fill core line => Sys2Proof.Machine.execL1Fill core line s
  | .tlbWalk core asid view va => Sys2Proof.Machine.execTlbWalk core asid view va s
  | .xOpComplete core op part => Sys2Proof.Machine.execXOpComplete core op part s
  | .copyStart core op => Sys2Proof.Machine.execCopyStart core op s
  | .tileFillBegin core => Sys2Proof.Machine.execTileFillBegin core s
  | .tamperGrant core => Sys2Proof.Machine.execTamperGrant core s
  | .engineIdle core => Sys2Proof.Machine.execEngineIdle core s
  | .multicastDeliver core op rank => Sys2Proof.Machine.execMulticastDeliver core op rank s
  | .tileLockRequest tx line => Sys2Proof.Machine.execTileLockRequest tx line s
  | .tileLockGrant tx line => Sys2Proof.Machine.execTileLockGrant tx line s
  | .tileLockRetry tx => Sys2Proof.Machine.execTileLockRetry tx s
  | .tileTransactionPerform tx => Sys2Proof.Machine.execTileTransactionPerform tx s
  | .grinderOperation stack idx => Sys2Proof.Machine.execGrinderOperation stack idx s
  | .cardAdmit queue => Sys2Proof.Machine.execCardAdmit queue s
  | .enqueueApply core idx => Sys2Proof.Machine.execEnqueueApply core idx s
  | .doorbell func idx value => Sys2Proof.Machine.execDoorbell func idx value s
  | .taskDeal card => Sys2Proof.Machine.execTaskDeal card s
  | .gangPlace task places => Sys2Proof.Machine.execGangPlace task places s
  | .clusterReserve task cluster => Sys2Proof.Machine.execClusterReserve task cluster s
  | .priorityAge card => Sys2Proof.Machine.execPriorityAge card s
  | .taskComplete task => Sys2Proof.Machine.execTaskComplete task s
  | .cardComplete card => Sys2Proof.Machine.execCardComplete card s
  | .preemptRequest block => Sys2Proof.Machine.execPreemptRequest block s
  | .blockContextSave block area => Sys2Proof.Machine.execBlockContextSave block area s
  | .blockResume gang places => Sys2Proof.Machine.execBlockResume gang places s
  | .scratchClear core idx => Sys2Proof.Machine.execScratchClear core idx s
  | .bankSnapshot core => Sys2Proof.Machine.execBankSnapshot core s
  | .bcctlClr core => Sys2Proof.Machine.execBcctlClr core s
  | .demandFill core slot => Sys2Proof.Machine.execDemandFill core slot s
  | .icacheFill core asid line => Sys2Proof.Machine.execIcacheFill core asid line s
  | .logdropRead slice => Sys2Proof.Machine.execLogdropRead slice s
  | .logctlWrite slice value => Sys2Proof.Machine.execLogctlWrite slice value s
  | .routeTableWrite port dest value => Sys2Proof.Machine.execRouteTableWrite port dest value s
  | .specLaunch card => Sys2Proof.Machine.execSpecLaunch card s
  | .draftWritten card => Sys2Proof.Machine.execDraftWritten card s
  | .pbufCopyDone card => Sys2Proof.Machine.execPbufCopyDone card s
  | .shadowFill core slot => Sys2Proof.Machine.execShadowFill core slot s
  | .producerCommit card => Sys2Proof.Machine.execProducerCommit card s
  | .specCommit card => Sys2Proof.Machine.execSpecCommit card s
  | .specSquash card => Sys2Proof.Machine.execSpecSquash card s
  | .shootdownComplete idx => Sys2Proof.Machine.execShootdownComplete idx s
  | .identify func => Sys2Proof.Machine.execIdentify func s
  | .podSet func => Sys2Proof.Machine.execPodSet func s
  | .aspaceSet func => Sys2Proof.Machine.execAspaceSet func s
  | .shootdown func => Sys2Proof.Machine.execShootdown func s
  | .queueSet func => Sys2Proof.Machine.execQueueSet func s
  | .queueState func => Sys2Proof.Machine.execQueueState func s
  | .rcbRefresh func => Sys2Proof.Machine.execRcbRefresh func s
  | .faultReply func => Sys2Proof.Machine.execFaultReply func s
  | .killDomain func => Sys2Proof.Machine.execKillDomain func s
  | .debugHalt func => Sys2Proof.Machine.execDebugHalt func s
  | .debugStop func => Sys2Proof.Machine.execDebugStop func s
  | .debugStopped queue => Sys2Proof.Machine.execDebugStopped queue s
  | .attest func => Sys2Proof.Machine.execAttest func s
  | .objLoad func => Sys2Proof.Machine.execObjLoad func s
  | .objUnload func => Sys2Proof.Machine.execObjUnload func s
  | .specPool func => Sys2Proof.Machine.execSpecPool func s
  | .dumpSet func => Sys2Proof.Machine.execDumpSet func s
  | .traceSet func => Sys2Proof.Machine.execTraceSet func s
  | .fwLoad func => Sys2Proof.Machine.execFwLoad func s
  | .fwSwap func => Sys2Proof.Machine.execFwSwap func s
  | .diag func => Sys2Proof.Machine.execDiag func s
  | .msSet func => Sys2Proof.Machine.execMsSet func s
  | .quiesceAck cp => Sys2Proof.Machine.execQuiesceAck cp s
  | .fwSwapTimeout => Sys2Proof.Machine.execFwSwapTimeout s
  | .heartbeatPet cp => Sys2Proof.Machine.execHeartbeatPet cp s
  | .hxdoorqRead cp => Sys2Proof.Machine.execHxdoorqRead cp s
  | .hxmboxqRead cp => Sys2Proof.Machine.execHxmboxqRead cp s
  | .fstatusWrite func value => Sys2Proof.Machine.execFstatusWrite func value s
  | .evtdropRead func => Sys2Proof.Machine.execEvtdropRead func s
  | .errorCounterRead idx => Sys2Proof.Machine.execErrorCounterRead idx s
  | .registerWrite off value => Sys2Proof.Machine.execRegisterWrite off value s
  | .hostBar2Access write off n value => Sys2Proof.Machine.execHostBar2Access write off n value s
  | .machineTimerInterrupt cp => Sys2Proof.Machine.execMachineTimerInterrupt cp s
  | .hostWriteAck core seq => Sys2Proof.Machine.execHostWriteAck core seq s
  | .hostTimeout core op => Sys2Proof.Machine.execHostTimeout core op s
  | .ualinkInboundRequest port req => Sys2Proof.Machine.execUalinkInboundRequest port req s
  | .xtileCommit port buf => Sys2Proof.Machine.execXtileCommit port buf s
  | .xtileReassemblyTimeout port buf => Sys2Proof.Machine.execXtileReassemblyTimeout port buf s
  | .linkTimeout core op => Sys2Proof.Machine.execLinkTimeout core op s
  | .portDown port => Sys2Proof.Machine.execPortDown port s
  | .correctableError row => Sys2Proof.Machine.execCorrectableError row s
  | .uncorrectableError site => Sys2Proof.Machine.execUncorrectableError site s
  | .scrub site => Sys2Proof.Machine.execScrub site s
  | .coldStart => Sys2Proof.Machine.execColdStart s
  | .warmStart => Sys2Proof.Machine.execWarmStart s
  | .vfFlr func => Sys2Proof.Machine.execVfFlr func s
  | .rung1 cp => Sys2Proof.Machine.execRung1 cp s
  | .rung2 domain code => Sys2Proof.Machine.execRung2 domain code s
  | .rung3 code => Sys2Proof.Machine.execRung3 code s
  | .rung4 code => Sys2Proof.Machine.execRung4 code s
  | .rung5 code => Sys2Proof.Machine.execRung5 code s
  | .eventSlotFreed func => Sys2Proof.Machine.execEventSlotFreed func s

end Sys2Proof.Machine
end

