-- ==== Sys2Proof/Machine/Step.lean ====
section
/-! DEFINITION. One step of the machine: the step that the agenda names after its delay, or one that may happen by itself (log 1). -/

namespace Sys2Proof.Machine

/-- One step: the head of the agenda when its cycle has come, a cycle that passes before that, or a step of the default order in the next cycle. Before
time passes, what the spec puts into the present cycle is done. A slot operation in the agenda has no bundle and is passed over (log 2). -/
def step (s : State) : Host.Outcome State Fault Refusal :=
  match (if s.passes then due s else none) with
  | some f => f s
  | none => match s.agenda with
  | (0, i) :: rest =>
    let t := { s with agenda := rest }
    if (slotNum i).isSome then .next t else exec i t
  | (d + 1, i) :: rest => .next { s.passCycle with agenda := (d, i) :: rest }
  | [] =>
    let t := { s.passCycle with turn := s.turn + 1 }
    match pick t with
    | some f => f t
    | none => .next t

/-- A card whose one task runs `State.withFetchWord`'s warp: a core gang of one warp on core 0, in the normal view of address space 0. -/
def fetchCard : Card :=
  { id := 0, addr := 0, queue := 0, seq := 0, die := 0, rcb := 0, domain := 0, asid := 0,
    kernel := ⟨65536, 0, false, 0xFFFF, true, 0, none, [⟨0, 0, 1, 128, 1⟩]⟩, kdesc := 0, code := 0, bothDies := false, lanes := 0, scratch := 65536,
    split := 0, argBase := 0, argStride := 0, argCount := 1, chMin := 1, chMax := 1, doneAddr := 0, doneVal := 0, doneFlags := 0, msix := 0, user := [0, 0, 0, 0],
    fps := [], edges := [], dealt := 1, tasksDealt := 1, readyAt := 0, aged := 0, spec := .plain, depth := 0, drafts := [], chained := [],
    passed := [], banned := [], views := [], shadows := [], ringCopy := false, buffered := [], finished := false, failed := false }

/-- Its task. -/
def fetchTask : Task :=
  { card := 0, number := 0, first := 0, count := 1, taken := 0, cluster := false, blocks := [0], cbars := [], placed := true, saved := [],
    killed := false, squashed := false, ready := 0, handler := 0, fdom := 0 }

/-- Its block. -/
def fetchBlock : Block :=
  { core := 0, base := 0, size := 65536, grank := 0, task := 0, warps := [0], sp := [], bars := [], preempt := false, last := 0 }

/-- The state in which the next step issues exactly the bundle whose bits are `w` (those above `nbits` zero): the device with one warp of 32
lanes on core 0, slot 0, the bundle in its fetch buffer and in device memory at its pc, and the issue named in the agenda (log 4). -/
def State.withFetchWord (s : State) (nbits w : Nat) : State :=
  let x := w % 2 ^ nbits
  let warp := launchWarp fetchCard fetchTask 0 0 ⟨0, 0, 1, 128, 1⟩ 0 s.cycle (some 0)
  let core := { s.core 0 with warps := [(0, { warp with fetch := [(0, x)] })], split := some 0, grantee := some 0 }
  { s with agenda := [(0, .bundleIssue 0 0)], hbm := s.hbm.put 0 32 x, cores := FMap.set s.cores 0 core, blocks := [(0, fetchBlock)],
           tasks := [(0, fetchTask)], cards := [fetchCard], nextId := max s.nextId 1 }

end Sys2Proof.Machine
end

