-- ==== Sys2Proof/Safety.lean ====
section
/-! DEFINITION. The terms in which claims speak: what a safe run is, when a slot instruction issues, which lanes are active, and what a
landing holds. Each restates words of the spec without the model's own operations where that is possible. -/

namespace Sys2Proof.Claim
open Sys2Proof Machine

/-! ## Runs -/

/-- A step has a next state. -/
def Goes (r : Out) : Prop := ∃ t, r = .next t

/-- Every memory of the device has its canonical form: device memory, host memory, and the scratchpad of every block, resident or saved. -/
def MemOk (s : State) : Prop :=
  s.hbm.wf = true ∧ cellsWf Config.hostByte s.host = true ∧ (∀ p ∈ s.blocks, cellsWf zeroByte p.2.sp = true) ∧
    ∀ p ∈ s.tasks, ∀ v ∈ p.2.saved, cellsWf zeroByte v.block.sp = true

/-! ## Issue -/

/-- Warp `w` in slot `k` of core `c` is issuing, instruction `i` stays in its register budget (R13) and its privilege allows it (R40). -/
def Issues (s : State) (c k : Nat) (w : Warp) (i : Instr) : Prop :=
  s.cur = some (c, k) ∧ s.warp? c k = some w ∧ topReg i ≤ w.budget ∧ w.allowed i = true

/-- Lane `l` is active under guard `g`: it is of the width, live, and the guard predicate holds in it (R29). -/
def Active (w : Warp) (g : Guard) (l : Nat) : Prop :=
  l < 32 * w.k ∧ w.mask.getLsbD l = true ∧ (if g.neg then w.vp g.idx.val l = false else w.vp g.idx.val l = true)

/-- The guard of a C-slot operation holds (R212). -/
def Guarded (w : Warp) (g : Guard) : Prop := if g.neg then w.sp g.idx.val = false else w.sp g.idx.val = true

/-! ## Landings -/

/-- A landing of slot `n`, issued by `w` at its present tick with latency `lat` (R18). -/
def Lands (w : Warp) (x : Landing) (n lat : Nat) (d : Dest) (u : Unit') : Prop :=
  x.slot = n ∧ x.tick = w.tick ∧ x.land = w.tick + lat - 1 ∧ x.dest = d ∧ x.unit = u ∧ x.addr = w.pc ∧ x.dec = none

/-- Its lanes are exactly the active ones, and each holds a value and events of which `P` is true (R29, R116). -/
def LaneValues (w : Warp) (x : Landing) (g : Guard) (P : Nat → Word → BitVec 8 → Prop) : Prop :=
  ∀ l, (Active w g l → ∃ y, FMap.find x.lanes l = some y ∧ P l y (FMap.getD x.evs l 0)) ∧
    (¬ Active w g l → FMap.find x.lanes l = none ∧ FMap.find x.evs l = none)

/-- The V-slot instruction `i` with fields `o` answers a next state that differs only in one more landing of the warp, with latency `lat`
through latch `u`; each active lane has a value and events of which `P` is true. -/
def VLands (s : State) (c k : Nat) (w : Warp) (i : Instr) (o : VOp) (lat : Nat) (u : Unit') (P : Nat → Word → BitVec 8 → Prop) : Prop :=
  ∃ x, exec i s = .next (s.setWarp c k { w with flight := w.flight ++ [x] }) ∧ Lands w x 0 lat (vDest o false) u ∧ LaneValues w x o.guard P

/-- The same for one scalar value with its events, which land whole (R135); `p` says that DST is a scalar predicate. -/
def VScalar (s : State) (c k : Nat) (w : Warp) (i : Instr) (o : VOp) (p : Bool) (u : Unit') (y : DWord) (e : BitVec 8) : Prop :=
  ∃ x, exec i s = .next (s.setWarp c k { w with flight := w.flight ++ [x] }) ∧ Lands w x 0 6 (vDest o p) u ∧ x.lanes = [] ∧ x.scalar = y ∧
    FMap.getD x.evs 0 0 = e

/-! ## What stays -/

/-- Device memory (every byte), host memory, the cycle, the warp that issues, and every warp but that of slot `k` of core `c` are unchanged. -/
structure Frame (s t : State) (c k : Nat) : Prop where
  hbm : t.hbm = s.hbm
  host : t.host = s.host
  cycle : t.cycle = s.cycle
  cur : t.cur = s.cur
  others : ∀ d j, (d, j) ≠ (c, k) → t.warp? d j = s.warp? d j

/-- Every vector and scalar register, predicate, the loop stack, the mask, the pc, every special register, the tick and the retiring lanes of a
warp are unchanged. -/
structure SameRegs (w v : Warp) : Prop where
  vregs : v.vregs = w.vregs
  sregs : v.sregs = w.sregs
  vpred : v.vpred = w.vpred
  spred : v.spred = w.spred
  loops : v.loops = w.loops
  mask : v.mask = w.mask
  pc : v.pc = w.pc
  tick : v.tick = w.tick
  retire : v.retire = w.retire
  fel : v.fel = w.fel
  fes : v.fes = w.fes
  fen : v.fen = w.fen
  tsa : v.tsa = w.tsa
  cause : v.cause = w.cause
  epc : v.epc = w.epc
  imask : v.imask = w.imask
  priv : v.priv = w.priv

/-- What an M- or X-slot operation that names flag `f` does to the flags of its warp: the one flag counts one more (R22). -/
def FlagUp (w v : Warp) (f : Option Nat) : Prop := ∀ g, v.flag g = w.flag g + if f = some g then 1 else 0

/-! ## Memory accesses -/

/-- Every scratchpad access of the active lanes of `o` is aligned, lies in the block's allocation and meets no uncorrectable error (R139,
R147, R382). -/
def SpOk (s : State) (w : Warp) (o : MOp) : Prop :=
  ∀ l, Active w o.guard l →
    w.memAddr o l % o.size.bytes = 0 ∧ 0 ≤ signed64 (w.memAddr o l) ∧ signed64 (w.memAddr o l) + o.size.bytes ≤ s.allocOf w ∧
      s.spFaulty w.block (w.memAddr o l) o.size.bytes = false

/-- The flag that an operation names has room for one more (R21). -/
def Room (w : Warp) (f : Option (Fin 16)) : Prop := ∀ g, f = some g → w.flag g.val < 63

/-- Byte `a` of the scratchpad of block `b`. -/
def spByte (s : State) (b a : Nat) : Nat := s.spGet b a 1

/-- The new value of an atomic of `n` bytes on the old value `x` with operand `y` and, for CAS, expected value `e` (R152, R153, R160). -/
def newWord (op : AtomicOp) (n x y e : Nat) : Nat :=
  let m := 2 ^ (8 * n)
  let sg := fun (v : Nat) => if 2 * v < m then (v : Int) else (v : Int) - m
  match op with
  | .add => (x + y) % m
  | .and => x &&& y
  | .or => x ||| y
  | .xor => x ^^^ y
  | .xchg => y
  | .minI => if sg y < sg x then y else x
  | .maxI => if sg x < sg y then y else x
  | .minN => min x y
  | .maxN => max x y
  | .fadd => (Fp.add Fp.f32 .rne false x y).1
  | .cas => if x = e then y else x

/-- The number that the bytes `m` hold at `d`, little-endian. -/
def numAt (m : Nat → Nat) (d n : Nat) : Nat := (List.range n).foldr (fun i v => m (d + i) + 256 * v) 0

/-- The bytes of memory once lanes have been performed in their order, each at its place as one step: an atomic leaves its new value, a write
(`.xchg`) its data (R157, R160). -/
def lanesDone (k : AtomicOp) (place : Pa → Nat) : List LaneAcc → (Nat → Nat) → Nat → Nat
  | [], m => m
  | a :: as, m => lanesDone k place as fun b =>
    if place a.pa ≤ b ∧ b < place a.pa + a.n then newWord k a.n (numAt m (place a.pa) a.n) a.x a.e / 256 ^ (b - place a.pa) % 256 else m b

/-- A lane of an atomic whose operands have its width lies in device memory, backed and with no uncorrectable error. -/
def LaneHere (s : State) (k : AtomicOp) (a : LaneAcc) : Prop :=
  a.x < 2 ^ (8 * a.n) ∧ a.e < 2 ^ (8 * a.n) ∧ (k = .fadd → a.n = 4) ∧
    ∃ d, s.localAddr a.pa = some d ∧ d + a.n ≤ Config.hbmBytes ∧ s.poisonOf d a.n = none

/-! ## Entries of the release FIFO -/

/-- The entries `es` carry the pieces `xs` (a place, a length, a value; later pieces win, R142): every byte of an entry is that of the last piece
of its line that covers it, and every byte of every piece is in the entry of its line. -/
def Carries (es : List FifoEntry) (xs : List (Place × Nat × Nat)) : Prop :=
  (∀ e ∈ es, ∀ a v, FMap.find e.bytes a = some v → ∃ (i : Nat) (x : Place × Nat × Nat), xs[i]? = some x ∧ x.1.pa.line = e.line ∧ x.1.pa.addr ≤ a ∧ a < x.1.pa.addr + x.2.1 ∧
    v.toNat = x.2.2 / 256 ^ (a - x.1.pa.addr) % 256 ∧
    ∀ (j : Nat) (y : Place × Nat × Nat), xs[j]? = some y → i < j → y.1.pa.line = e.line → a < y.1.pa.addr ∨ y.1.pa.addr + y.2.1 ≤ a) ∧
  ∀ x ∈ xs, ∃ e ∈ es, e.line = x.1.pa.line ∧ ∀ i < x.2.1, (FMap.find e.bytes (x.1.pa.addr + i)).isSome = true

/-- The global accesses of the active lanes of `o`, ascending, as the core keeps them: lane, place, size, operand `x` and expected value `e`; a scalar
destination takes one (R141, R142, R158, R160). -/
def laneAccs (s : State) (c : Nat) (w : Warp) (acc : AccKind) (o : MOp) (load : Bool) (x e : Nat → Nat) : List LaneAcc :=
  (w.accs o load).filterMap fun p => (s.place c w acc p.2).map fun q => ⟨p.1, q.1.pa, q.1.ms, o.size.bytes, x p.1, e p.1⟩

/-- The entries `es` hold the accesses `xs`, one entry for each line, each line's accesses in their order (R157, R160). -/
def Holds (es : List FifoEntry) (xs : List LaneAcc) : Prop :=
  (es.map (·.line)).Nodup ∧ (∀ e ∈ es, e.lanes ≠ [] ∧ e.lanes = xs.filter fun x => x.pa.line = e.line) ∧ ∀ x ∈ xs, ∃ e ∈ es, e.line = x.pa.line

/-- The bytes that an `ldc` needs of a place are in the L1 when it issues, and no acquire of the warp is open (R154, R162). -/
def InL1 (s : State) (c k : Nat) (w : Warp) (q : Place) : Prop :=
  s.acquireOpen c k w.seq = false ∧ ∃ x ∈ (s.core c).l1, x.pa = q.pa.line

/-- The register or scalar that receives what an M operation returns. -/
def mDest (o : MOp) : Dest := match o.data with
  | .s r => .s r.val
  | _ => .v (mReg o)

/-- The pieces that a store makes: for each active lane that translates, ascending, its place, the access size and its data (R142, R159). -/
def storePieces (s : State) (c : Nat) (w : Warp) (o : MOp) : List (Place × Nat × Nat) :=
  (w.accs o false).filterMap fun p => (s.place c w .write p.2).map fun q => (q.1, o.size.bytes, w.dataIn o p.1)

/-- The pieces of a spill slot that `vspill` writes: its 16-byte units, each with its place and its bytes of the image (R173, R248). -/
def spillPieces (s : State) (c : Nat) (w : Warp) (o : MOp) : List (Place × Nat × Nat) :=
  let us := units16 (w.spillImage (mReg o)).1
  (us.zip (s.placesOf c w .write (us.map fun p => (p.1, (w.baseOff o + p.1) % 2 ^ 64)))).map fun p =>
    (p.2.2, p.1.2, (w.spillImage (mReg o)).2 / 256 ^ p.1.1 % 256 ^ p.1.2)

/-- The units that `vfill` reads of its slot (R174, R248). -/
def fillAccs (s : State) (c : Nat) (w : Warp) (o : MOp) : List LaneAcc :=
  let us := units16 (32 + 4 * (32 * w.k))
  (us.zip (s.placesOf c w .read (us.map fun p => (p.1, (w.baseOff o + p.1) % 2 ^ 64)))).map fun p => ⟨p.1.1, p.2.2.pa, p.2.2.ms, p.1.2, 0, 0⟩

/-- What an arrival update of the word at `off` of block `b` does to a warp: its `await` on that word ends when GEN has left the value it waits for
(R233). -/
def wokenBy (s : State) (b off n d j : Nat) (v : Warp) : Warp :=
  match s.block? b with
  | some x => if d = x.core ∧ j ∈ x.warps ∧ v.woken off (arriveAdd (s.spGet b off 16) n / 2 ^ 64 % 2 ^ 32) = true
      then { v with stop := .mdone true, since := s.cycle, notBefore := s.cycle + 1, awaits := none } else v
  | none => v

/-! ## Engine operations -/

/-- The scratchpad destinations of units do not overlap. -/
def Apart (us : List CopyUnit) : Prop :=
  us.Pairwise fun u v => ∀ a b x y, u.dst = .sp a x → v.dst = .sp b y → x + u.m ≤ y ∨ y + v.m ≤ x

/-- The scratchpad of block `b` holds the data of every unit at its destination, and every other byte of every scratchpad is unchanged. -/
def UnitsIn (s t : State) (b : Nat) (us : List CopyUnit) : Prop :=
  (∀ u ∈ us, ∀ off, u.dst = .sp b off → ∀ j < u.m, spByte t b (off + j) = u.data.getD 0 / 256 ^ j % 256) ∧
  ∀ d x, d ≠ b ∨ (∀ u ∈ us, ∀ off, u.dst = .sp b off → x < off ∨ off + u.m ≤ x) → spByte t d x = spByte s d x

/-! ## The control slot -/

/-- A live lane of the width (R12). -/
def Live (w : Warp) (l : Nat) : Prop := l < 32 * w.k ∧ w.mask.getLsbD l = true

/-- A lane predicate field, with its negation, in a lane (R53). -/
def LaneTrue (w : Warp) (g : Guard) (l : Nat) : Prop := if g.neg then w.vp g.idx.val l = false else w.vp g.idx.val l = true

/-- The C-slot instruction answers a next state that differs only in one more landing of the warp: a scalar value for `d` at the end of the issue
tick (R212). -/
def CLands (s : State) (c k : Nat) (w : Warp) (i : Instr) (d : Dest) (y : DWord) : Prop :=
  ∃ x, exec i s = .next (s.setWarp c k { w with flight := w.flight ++ [x] }) ∧ Lands w x 3 1 d .none ∧ x.scalar = y ∧ x.lanes = [] ∧ x.evs = []

/-- A code address that may be branched to (R221): a multiple of 32, with bits 63 to 52 equal to bit 51. -/
def TargetOk (t : DWord) : Prop := t.toNat % 32 = 0 ∧ ∀ i, 52 ≤ i → i < 64 → t.getLsbD i = t.getLsbD 51

/-- The target that OFF names (R53, R221). -/
def offTarget (w : Warp) (o : CBOp) : DWord := w.pc + BitVec.ofInt 64 (32 * o.off.toInt)

/-- What a C-slot instruction leaves when only registers, control and queues of its own warp may differ: memory, scratchpads and other warps. -/
def Quiet (s t : State) (c k : Nat) : Prop := Frame s t c k ∧ t.blocks = s.blocks

/-- The warp holds before its own bundle, which has not issued (R216). -/
def HeldBefore (t : State) (c k : Nat) (w : Warp) : Prop :=
  ∃ w', t.warp? c k = some w' ∧ SameRegs w w' ∧ w'.flight = w.flight ∧ w'.opened = false ∧ w'.ctl = .none ∧
    ∃ dl i p b, w'.stop = .before dl i p b

/-- No slice logs its accesses (R371). -/
def Unlogged (s : State) : Prop := ∀ i, (s.slice i).en = false

/-- A read at a home wakes nobody: no slice logs it, or no warp monitors a word (R235, R371). -/
def Still (s : State) : Prop := Unlogged s ∨ s.monitors = []

/-- No slice logs, no warp monitors a word and firmware traces nothing: a write of firmware changes the bytes it names and nothing else of the machine's
memory (R235, R371, R431). -/
def Unwatched (s : State) : Prop := Unlogged s ∧ s.monitors = [] ∧ s.trace = none

/-! ## Bundles -/

/-- A decoded bundle whose only slot holds `i`. -/
def Only (b : Bundle) (i : Instr) : Prop :=
  match slotNum i with
  | some 0 => b.v = .ok i ∧ b.m = .absent ∧ b.x = .absent ∧ b.c = .absent
  | some 1 => b.v = .absent ∧ b.m = .ok i ∧ b.x = .absent ∧ b.c = .absent
  | some 2 => b.v = .absent ∧ b.m = .absent ∧ b.x = .ok i ∧ b.c = .absent
  | some _ => b.v = .absent ∧ b.m = .absent ∧ b.x = .absent ∧ b.c = .ok i
  | none => False

/-- The bundle due at `w` is fetched and issues at once: nothing deferred or held comes first, its D bit finds nothing to wait for, and its
bank stretch is over, and every result of its tick is there (R16, R20, R21, R23, R328, R366). -/
def Due (w : Warp) (b : Bundle) : Prop :=
  w.deferred = [] ∧ w.hold = none ∧ w.unready = false ∧ (∃ x, w.fetched = some x ∧ decodeBundle x = b) ∧
    (b.hdr.d = true → w.flight = [] ∧ w.preempt = false ∧ (w.halt = true → w.priv = true)) ∧
    (stretchTicks (w.opsOf b).v = 0 ∨ w.stretched = true)

/-- The decode failure of slot `n` holding `d` (R40, R41): its cause. -/
def SlotFails (w : Warp) (n : Nat) (d : SlotD) (cause : Nat) : Prop :=
  match d with
  | .absent => False
  | .bad .opcode => cause = 0x041 + n
  | .bad .operand => cause = 0x045 + n
  | .bad .reserved => cause = 0x049 + n
  | .ok i => (w.budget < topReg i ∧ cause = 0x04D + n) ∨ (topReg i ≤ w.budget ∧ w.allowed i = false ∧ cause = 0x051 + n)

/-! ## The end of a tick -/

/-- A landing that takes place at the end of the present tick (R16). -/
def Now (w : Warp) (x : Landing) : Prop := x ∈ w.flight ∧ x.land ≤ w.tick

/-- `y` is written after `x` when both land in one tick: the higher slot, then the later issue (R18, R32). -/
def After (y x : Landing) : Prop := x.slot < y.slot ∨ (x.slot = y.slot ∧ x.tick < y.tick)

/-- An event of class set `e` that a landing of slot `n` raises in a lane this tick, as far as it is recorded: inexact only while `sr.fen`[0] is 1
(R31). -/
def EventNow (w : Warp) (fen : DWord) (n l : Nat) (e : BitVec 8) (a : DWord) : Prop :=
  ∃ x v, Now w x ∧ (l, v) ∈ x.evs ∧ n = x.slot ∧ a = x.addr ∧ e = (if fen.getLsbD 0 then v else v &&& 0x7F) ∧ e ≠ 0

/-- `c` is the lowest class of a class set. -/
def Lowest (e : BitVec 8) (c : Nat) : Prop := c < 8 ∧ e.getLsbD c = true ∧ ∀ j < c, e.getLsbD j = false

/-! ## Save areas (R334 to R336) -/

/-- Field `(off, n, v)` is what a list of writes leaves at an offset: written, and by no later write overlapped. -/
def FieldAt (fs : List (Nat × Nat × Nat)) (off n v : Nat) : Prop :=
  ∃ i : Nat, fs[i]? = some (off, n, v) ∧ ∀ (j : Nat) (g : Nat × Nat × Nat), i < j → fs[j]? = some g → g.1 + g.2.1 ≤ off ∨ off + n ≤ g.1

/-- The summary bits of a warp that are set, ascending: the words that its records store (R336). -/
def liveWords (w : Warp) : List Nat := (List.range w.k).filter fun i => w.summary.testBit i

/-- The bytes of a record: a header, and for a vector or predicate result a block for each live word (R336). -/
def recordSize (w : Warp) (x : Landing) : Nat := match x.dest with
  | .s _ | .sp _ => 32
  | _ => 32 + 160 * (liveWords w).length

/-- The record of result `x` stands at offset `o` of the fields `fs` of an area entered at tick `tn`, word for word as R336 lays it out. -/
def RecordAt (w : Warp) (fs : List (Nat × Nat × Nat)) (tn o : Nat) (x : Landing) : Prop :=
  let ev := (x.evs.foldl (fun (e : BitVec 8) p => e ||| p.2) 0).toNat
  let ws := liveWords w
  let scalar : Bool := match x.dest with | .s _ | .sp _ => true | _ => false
  let dest := match x.dest with | .v r => r | .s r => 0x80 + r | .vp r => 0xC0 + r | .sp r => 0xC8 + r | _ => 0
  let unit := match x.unit with | .lva => 0 | .lvf => 1 | .lvx => 2 | .lmd => 3 | .lcs => 4 | .none => 5
  FieldAt fs o 32 (dest + unit * 2 ^ 8 + x.slot % 4 * 2 ^ 11 + (x.land - tn) % 32 * 2 ^ 16 + (if scalar then 0 else ws.length) * 2 ^ 24 + ev * 2 ^ 32 +
    (if scalar then x.scalar.toNat else 0) * 2 ^ 64 + (if ev = 0 then 0 else x.addr.toNat / 32 % 2 ^ 47) * 2 ^ 128) ∧
  (scalar = false → ∀ j i, ws[j]? = some i → ∃ b, FieldAt fs (o + 32 + 160 * j) 160 b ∧
    ∀ l < 32, (b.testBit l = true ↔ (FMap.find x.lanes (32 * i + l)).isSome) ∧
      b / 2 ^ (256 + 32 * l) % 2 ^ 32 = ((FMap.find x.lanes (32 * i + l)).getD 0).toNat)

/-! ## Integers (R83, R84) -/

/-- A 32-bit lane value read as an integer of a type: the low 8 or 16 bits for the narrow types. -/
def intOf : Ty → Word → Int
  | .i32, x => x.toInt
  | .i16, x => (x.setWidth 16).toInt
  | .n16, x => (x.setWidth 16).toNat
  | .i8, x => (x.setWidth 8).toInt
  | .n8, x => (x.setWidth 8).toNat
  | _, x => x.toNat

/-- An exact integer wrapped to a type and extended to a lane. -/
def wrapTo : Ty → Int → Word
  | .i16, z => (BitVec.ofInt 16 z).signExtend 32
  | .n16, z => (BitVec.ofInt 16 z).setWidth 32
  | .i8, z => (BitVec.ofInt 8 z).signExtend 32
  | .n8, z => (BitVec.ofInt 8 z).setWidth 32
  | _, z => BitVec.ofInt 32 z

/-- The least value of a type. -/
def tyMin : Ty → Int
  | .i32 => -2147483648
  | .i16 => -32768
  | .i8 => -128
  | _ => 0

/-- The greatest value of a type. -/
def tyMax : Ty → Int
  | .i32 => 2147483647
  | .i16 => 32767
  | .n16 => 65535
  | .i8 => 127
  | .n8 => 255
  | _ => 4294967295

/-- An exact integer `z` written as a lane value `y` with events `e` (R84): wrapped, or with SAT clamped and recorded as class 4. -/
def IntResult (o : VOp) (z : Int) (y : Word) (e : BitVec 8) : Prop :=
  if o.sat = true ∧ z < tyMin o.ty then y = wrapTo o.ty (tyMin o.ty) ∧ e = 16
  else if o.sat = true ∧ tyMax o.ty < z then y = wrapTo o.ty (tyMax o.ty) ∧ e = 16
  else y = wrapTo o.ty z ∧ e = 0

/-- Bit `n` of the carry-less product (R123): the exclusive OR over i + j = n of (bit i of `a` and bit j of `b`). -/
def clmulBit (a b : Word) (n : Nat) : Bool :=
  ((List.range (n + 1)).filter fun i => a.getLsbD i && b.getLsbD (n - i)).length % 2 = 1

/-! ## Floating point -/

/-- An f32 code of a NaN (R85): exponent field 255 with a nonzero fraction. -/
def NanF32 (x : Nat) : Prop := x / 2 ^ 23 % 256 = 255 ∧ x % 2 ^ 23 ≠ 0

/-- The exact value of a finite code of a format of R85, from its fields. -/
def codeRat (f : Fp.Fmt) (x : Nat) : ℚ :=
  let e : ℤ := (x / 2 ^ f.p % 2 ^ f.eb : Nat)
  let m : ℚ := (x % 2 ^ f.p : Nat)
  (if x.testBit (f.eb + f.p) then -1 else 1) *
    if e = 0 then 2 ^ (1 - (f.bias : ℤ)) * (m / 2 ^ f.p) else 2 ^ (e - (f.bias : ℤ)) * (1 + m / 2 ^ f.p)

/-- A code of a format with infinities that is neither one nor a NaN (R85). -/
def FiniteIn (f : Fp.Fmt) (x : Nat) : Prop := x < 2 ^ (1 + f.eb + f.p) ∧ x / 2 ^ f.p % 2 ^ f.eb ≠ 2 ^ f.eb - 1

/-- The code of the greatest finite value of a format (R85). -/
def maxCode (f : Fp.Fmt) : Nat := if f.ieee then (2 ^ f.eb - 1) * 2 ^ f.p - 1 else 0x7E

/-- `n` is `v` rounded to an integer in a mode (R90). -/
def RoundInt (rm : RM) (v : ℚ) (n : ℤ) : Prop := match rm with
  | .rtz => n = if v < 0 then ⌈v⌉ else ⌊v⌋
  | .rdn => n = ⌊v⌋
  | .rup => n = ⌈v⌉
  | .rne => |v - n| ≤ 1 / 2 ∧ (|v - n| = 1 / 2 → n % 2 = 0)

/-- `r` is the code and the classes of `Round(x, rm)` of a nonzero exact `x` into a format, step by step (R91, R92, R94): counted in units of the place
of its last fraction bit, rounded once; a magnitude beyond the greatest finite one is that one (`clamp`, or where the mode does not round away) or
infinite, with the classes `ov`. -/
def Rounds (f : Fp.Fmt) (rm : RM) (clamp : Bool) (ov : BitVec 8) (x : ℚ) (r : Nat × BitVec 8) : Prop :=
  let low : ℤ := 1 - (f.bias : ℤ)
  ∃ k n : ℤ, low - f.p ≤ k ∧ |x| < 2 ^ (k + f.p + 1) ∧ (k = low - f.p ∨ 2 ^ (k + f.p) ≤ |x|) ∧ RoundInt rm (x / 2 ^ k) n ∧
    let y : ℚ := n * 2 ^ k
    (|y| ≤ codeRat f (maxCode f) → r.1 < 2 ^ (1 + f.eb + f.p) ∧ codeRat f r.1 = y ∧ (r.1.testBit (f.eb + f.p) = true ↔ x < 0) ∧
      r.2 = if y = x then 0 else if |x| < 2 ^ low then 0x88 else 0x80) ∧
    (codeRat f (maxCode f) < |y| → r.2 = ov ∧ r.1 = (if x < 0 then 2 ^ (f.eb + f.p) else 0) + maxCode f +
      if clamp = true ∨ rm = .rtz ∨ (rm = .rdn ∧ 0 < x) ∨ (rm = .rup ∧ x < 0) then 0 else 1)

/-- The magnitude of the lg6 code `m`, and of its further member 32 (R87, R88, R93). -/
def lgRat (m : Nat) : ℚ := if m = 0 then 0 else (match m % 4 with | 0 => 524288 | 1 => 623487 | 2 => 741455 | _ => 881744) * 2 ^ ((m / 4 : Nat) - 23 : ℤ)

/-- `r` is the code and the classes of `Round(x, rm)` of an exact `x` into lg6 (R93). -/
def RoundsLg (rm : RM) (x : ℚ) (r : Nat × BitVec 8) : Prop :=
  let inward : Nat → Prop := fun m => lgRat m ≤ |x| ∧ (m < 32 → |x| < lgRat (m + 1))
  let away : Nat → ℚ := fun j => abs (lgRat j - abs x)
  let outward : Nat → Prop := fun m => (|x| ≤ lgRat m ∧ (0 < m → lgRat (m - 1) < |x|)) ∨ (lgRat 32 < |x| ∧ m = 32)
  ∃ m ≤ 32, (match rm with
    | .rtz => inward m
    | .rdn => if x < 0 then outward m else inward m
    | .rup => if x < 0 then inward m else outward m
    | .rne => ∀ j ≤ 32, j ≠ m → away m < away j ∨ (away m = away j ∧ m % 2 = 0)) ∧
    (m = 32 → r = (if x < 0 then 0x3F else 0x1F, 0xA0)) ∧
    (m < 32 → r.1 = (if m = 0 then 0 else if x < 0 then 32 + m else m) ∧
      r.2 = if lgRat m = |x| then 0 else if |x| < lgRat 1 then 0x88 else 0x80)

/-- The class of an f32 code (R127), from its sign, exponent and fraction fields. -/
def classOf (x : Nat) : Nat :=
  let neg := x / 2 ^ 31 % 2 = 1
  let e := x / 2 ^ 23 % 256
  let f := x % 2 ^ 23
  if e = 255 then if f ≠ 0 then 8 else if neg then 0 else 7
  else if e = 0 then if f = 0 then (if neg then 3 else 4) else if neg then 2 else 5
  else if neg then 1 else 6

/-- The key of an f32 code that is no NaN: keys are ordered as the values are, with −0 and +0 equal. -/
def orderF32 (x : Nat) : Int := if x / 2 ^ 31 % 2 = 1 then -((x % 2 ^ 31 : Nat) : Int) else (x % 2 ^ 31 : Nat)

/-! ## Accumulators -/

/-- `m` is `RoundOdd` of `y` (R103): `y` itself when it is an integer, else the odd one of the two integers beside it. -/
def RoundsOdd (y : ℚ) (m : ℤ) : Prop := (m : ℚ) = y ∨ ((∀ n : ℤ, (n : ℚ) ≠ y) ∧ m % 2 = 1 ∧ |y - m| < 1)

/-! ## Interrupts -/

/-- Vector `v` of function `f` is signalled: sent, or pending while it is masked (R391, R395). -/
def Signalled (t : State) (f v : Nat) : Prop :=
  ((t.func f).masked v = false → (f, v) ∈ t.msi) ∧ ((t.func f).masked v = true → (t.func f).pba.testBit v = true)

/-! ## Mailboxes -/

/-- A mailbox command of opcode `op` waits in function `f`, and firmware is there to take it (R396, R417). -/
def Waits (s : State) (f op : Nat) : Prop :=
  f ≤ 64 ∧ (s.func f).busy = true ∧ (s.func f).data % 256 = op ∧ s.boot.swapping = none ∧ ∀ h ∈ s.shoots, h.func ≠ some f

/-- The command of function `f` is answered (R396): its status, BUSY cleared, MBOXDONE set and vector 0 signalled. -/
structure Answered (t : State) (f status : Nat) : Prop where
  status : (t.func f).status = status
  busy : (t.func f).busy = false
  done : (t.func f).fstatus.testBit 0 = true
  vector : Signalled t f 0

/-! ## Reductions -/

/-- Node `j` of level `n` of the tree of R107: node `j` of level n + 1 combines nodes 2j and 2j + 1 of level n; an absent node passes the
other through. -/
def node {α : Type} (f : α → α → α) (leaf : Nat → Option α) : Nat → Nat → Option α
  | 0, j => leaf j
  | n + 1, j => match node f leaf n (2 * j), node f leaf n (2 * j + 1) with
    | some a, some b => some (f a b)
    | some a, none => some a
    | none, b => b

end Sys2Proof.Claim
end

