-- ==== Sys2Proof/Certificates/Slice0/Obligations.lean ====
section
/-! DEFINITION. The statements for the provers, in the order of OBLIGATIONS.json. Those about results say what `exec` answers and what the
answer holds; the whole next state is written out, so each of them says what stays unchanged as well. A clause that ends in ` :)` is elaborated by itself, which saves time and changes nothing. -/


open Sys2Proof Sys2Proof.Machine Sys2Proof.Claim

/-! ## The vector slot -/

/-- R118 with R83 and R84: the integer operations form the exact result of their sources read as the type, and write it wrapped or, with SAT,
clamped with class 4; latencies and latch of R113. -/
def Obligations.VectorIntegerResults : Prop :=
  ∀ p ∈ ([(.vadd, 2, fun a b _ => a + b), (.vsub, 2, fun a b _ => a - b), (.vmul, 4, fun a b _ => a * b),
      (.vmulh, 4, fun a b _ => (a * b) / 4294967296), (.vmad, 4, fun a b c => a * b + c), (.vmin, 2, fun a b _ => min a b),
      (.vmax, 2, fun a b _ => max a b)] : List ((VOp → Instr) × Nat × (Int → Int → Int → Int))),
    ∀ o s c k w, Issues s c k w (p.1 o) →
      VLands s c k w (p.1 o) o p.2.1 .lva fun l y e =>
        IntResult o (p.2.2 (intOf o.ty (w.src o.a l)) (intOf o.ty (w.srcB o l)) (intOf o.ty (w.src o.c l))) y e

/-- R119: every value is 32 raw bits. Logic, shifts and rotation by bits [4:0] of B, leading zeros, set bits and bit reversal. -/
def Obligations.VectorLogicShiftsCounts : Prop :=
  (∀ p ∈ ([(.vand, fun a b i => a.getLsbD i && b.getLsbD i), (.vor, fun a b i => a.getLsbD i || b.getLsbD i),
      (.vxor, fun a b i => a.getLsbD i != b.getLsbD i),
      (.vshl, fun a b i => decide (b.toNat % 32 ≤ i) && a.getLsbD (i - b.toNat % 32)),
      (.vshr, fun a b i => a.getLsbD (i + b.toNat % 32)),
      (.vsar, fun a b i => a.getLsbD (min 31 (i + b.toNat % 32))),
      (.vrot, fun a b i => a.getLsbD ((i + 32 - b.toNat % 32) % 32))] : List ((VOp → Instr) × (Word → Word → Nat → Bool))),
    ∀ o s c k w, Issues s c k w (p.1 o) →
      VLands s c k w (p.1 o) o 2 .lva fun l y e => (∀ i < 32, y.getLsbD i = p.2 (w.src o.a l) (w.srcB o l) i) ∧ e = 0) ∧
  (∀ o s c k w, Issues s c k w (.vclz o) → VLands s c k w (.vclz o) o 2 .lva fun l y e =>
    y.toNat ≤ 32 ∧ (∀ i < 32, 32 - y.toNat ≤ i → (w.src o.a l).getLsbD i = false) ∧
      (y.toNat < 32 → (w.src o.a l).getLsbD (31 - y.toNat) = true) ∧ e = 0) ∧
  (∀ o s c k w, Issues s c k w (.vpopc o) → VLands s c k w (.vpopc o) o 2 .lva fun l y e =>
    y.toNat = ((List.range 32).filter fun i => (w.src o.a l).getLsbD i).length ∧ e = 0) ∧
  ∀ o s c k w, Issues s c k w (.vbrev o) → VLands s c k w (.vbrev o) o 2 .lva fun l y e =>
    (∀ i < 32, y.getLsbD i = (w.src o.a l).getLsbD (31 - i)) ∧ e = 0

/-- R123: the low and the high half of the carry-less product, and that its bit 63 is always 0. -/
def Obligations.CarrylessProduct : Prop :=
  (∀ o s c k w, Issues s c k w (.vclml o) → VLands s c k w (.vclml o) o 4 .lva fun l y e =>
    (∀ i < 32, y.getLsbD i = clmulBit (w.src o.a l) (w.srcB o l) i) ∧ e = 0) ∧
  ∀ o s c k w, Issues s c k w (.vclmh o) → VLands s c k w (.vclmh o) o 4 .lva fun l y e =>
    (∀ i < 32, y.getLsbD i = clmulBit (w.src o.a l) (w.srcB o l) (32 + i)) ∧ y.getLsbD 31 = false ∧ e = 0

/-- R47, R120 and R121: field extraction and insertion, selection and moves, and how IMM16 stands for source B. -/
def Obligations.VectorFieldsAndMoves : Prop :=
  (∀ o s c k w, Issues s c k w (.vbfe o) → VLands s c k w (.vbfe o) o 2 .lva fun l y e =>
    let pos := (w.srcB o l).toNat % 32
    let len := min ((w.srcB o l).toNat / 256 % 64) (32 - pos)
    e = 0 ∧ (len = 0 → y = 0) ∧ ∀ i < 32, 0 < len →
      y.getLsbD i = if i < len then (w.src o.a l).getLsbD (pos + i) else o.ty = .i32 && (w.src o.a l).getLsbD (pos + len - 1)) ∧
  (∀ o s c k w, Issues s c k w (.vbfi o) → VLands s c k w (.vbfi o) o 2 .lva fun l y e =>
    let pos := (w.src o.c l).toNat % 32
    let len := min ((w.src o.c l).toNat / 256 % 64) (32 - pos)
    e = 0 ∧ ∀ i < 32, y.getLsbD i = if pos ≤ i ∧ i < pos + len then (w.src o.a l).getLsbD (i - pos) else (w.srcB o l).getLsbD i) ∧
  (∀ o s c k w, Issues s c k w (.vsel o) → VLands s c k w (.vsel o) o 2 .lva fun l y e =>
    y = (if w.srcPred o.c l then w.src o.a l else w.src o.b l) ∧ e = 0) ∧
  (∀ o s c k w, Issues s c k w (.vmov o) → VLands s c k w (.vmov o) o 2 .lva fun l y e => y = w.src o.a l ∧ e = 0) ∧
  (∀ o s c k w, Issues s c k w (.vmovi o) → VLands s c k w (.vmovi o) o 2 .lva fun l y e => y = w.srcB o l ∧ e = 0) ∧
  (∀ o s c k w i, Issues s c k w (.vmoviHi o) → o.imm = some i → VLands s c k w (.vmoviHi o) o 2 .lva fun l y e =>
    y.toNat = i.toNat * 65536 + (w.src o.a l).toNat % 65536 ∧ e = 0) ∧
  ∀ (w : Warp) (o : VOp) (i : BitVec 16) (l : Nat), o.imm = some i →
    w.srcB o l = match o.ty with
      | .i32 | .i16 => i.signExtend 32
      | .n32 | .n16 | .i8 | .n8 => i.setWidth 32
      | .f32 => BitVec.ofNat 32 (i.toNat * 65536)
      | .bf16 | .f16 => BitVec.ofNat 32 (i.toNat * 65536 + i.toNat)
      | _ => i.setWidth 32

/-- R122, R126 and R127: the six integer conditions, the eight float conditions with NaN unordered, and the class test; lane predicates without
events. -/
def Obligations.CompareResults : Prop :=
  (∀ o s c k w, Issues s c k w (.vcmp o) → o.sub.val < 6 →
    VLands s c k w (.vcmp o) o 2 .none fun l y e =>
      let a := intOf o.ty (w.src o.a l)
      let b := intOf o.ty (w.srcB o l)
      (y = 1 ↔ match o.sub.val with
        | 0 => a = b
        | 1 => a ≠ b
        | 2 => a < b
        | 3 => a ≤ b
        | 4 => a > b
        | _ => a ≥ b) ∧ (y = 0 ∨ y = 1) ∧ e = 0) ∧
  ((∀ o s c k w, Issues s c k w (.vfcmp o) → o.sub.val < 8 → VLands s c k w (.vfcmp o) o 2 .none fun l y e =>
    let a := (w.src o.a l).toNat
    let b := (w.srcB o l).toNat
    let un := NanF32 a ∨ NanF32 b
    (y = 1 ↔ match o.sub.val with
      | 0 => ¬ un ∧ orderF32 a = orderF32 b
      | 1 => un ∨ orderF32 a ≠ orderF32 b
      | 2 => ¬ un ∧ orderF32 a < orderF32 b
      | 3 => ¬ un ∧ orderF32 a ≤ orderF32 b
      | 4 => ¬ un ∧ orderF32 a > orderF32 b
      | 5 => ¬ un ∧ orderF32 a ≥ orderF32 b
      | 6 => un
      | _ => ¬ un) ∧ (y = 0 ∨ y = 1) ∧ e = 0) ∧
  (∀ o s c k w, Issues s c k w (.vfclass o) → VLands s c k w (.vfclass o) o 2 .none fun l y e =>
    (y = 1 ↔ (w.srcB o l).getLsbD (classOf (w.src o.a l).toNat) = true) ∧ (y = 0 ∨ y = 1) ∧ e = 0))

/-- R125 with R95 and R96: the f32 operations, and the least and greatest of R96 without rounding or events; latency 4 through `lvf`. R86: NaN
operands, the invalid cases and the signs of exact zeros, in every rounding mode and with SAT or without; of finite operands, the exact rational sum,
product or fused sum rounded once (R91, R94). -/
def Obligations.FloatArithmetic : Prop :=
  ((∀ p ∈ ([(.vfadd, fun rm sat a b _ => Fp.sumOfProducts Fp.f32 rm sat [] [Fp.decode Fp.f32 a, Fp.decode Fp.f32 b]),
      (.vfsub, fun rm sat a b _ => Fp.sumOfProducts Fp.f32 rm sat [] [Fp.decode Fp.f32 a, (Fp.decode Fp.f32 b).neg]),
      (.vfmul, fun rm sat a b _ => Fp.mulRound Fp.f32 rm sat a b),
      (.vfma, fun rm sat a b c => Fp.sumOfProducts Fp.f32 rm sat [(Fp.decode Fp.f32 a, Fp.decode Fp.f32 b)] [Fp.decode Fp.f32 c])] :
      List ((VOp → Instr) × (RM → Bool → Nat → Nat → Nat → Nat × BitVec 8))),
    ∀ o s c k w, Issues s c k w (p.1 o) →
      VLands s c k w (p.1 o) o 4 .lvf fun l y e =>
        let r := p.2 o.rm o.sat (w.src o.a l).toNat (w.srcB o l).toNat (w.src o.c l).toNat
        y = BitVec.ofNat 32 r.1 ∧ e = r.2) ∧
  (∀ p ∈ ([(.vfmin, true), (.vfmax, false)] : List ((VOp → Instr) × Bool)), ∀ o s c k w, Issues s c k w (p.1 o) →
    VLands s c k w (p.1 o) o 4 .lvf fun l y e =>
      let a := (w.src o.a l).toNat
      let b := (w.srcB o l).toNat
      e = 0 ∧ (NanF32 a → NanF32 b → y = 0x7FC0_0000) ∧ (NanF32 a → ¬ NanF32 b → y.toNat = b) ∧ (¬ NanF32 a → NanF32 b → y.toNat = a) ∧
      (¬ NanF32 a → ¬ NanF32 b → y.toNat = a ∨ y.toNat = b) ∧
      (¬ NanF32 a → ¬ NanF32 b → orderF32 a < orderF32 b → y.toNat = if p.2 then a else b) ∧
      (¬ NanF32 a → ¬ NanF32 b → orderF32 b < orderF32 a → y.toNat = if p.2 then b else a) ∧
      (a = 0 → b = 0x8000_0000 → y = if p.2 then 0x8000_0000 else 0) ∧ (a = 0x8000_0000 → b = 0 → y = if p.2 then 0x8000_0000 else 0))) ∧
  (∀ rm sat a b c, a < 2 ^ 32 → b < 2 ^ 32 → c < 2 ^ 32 →
    ((NanF32 a ∨ NanF32 b) → Fp.add Fp.f32 rm sat a b = (0x7FC0_0000, 0) ∧ Fp.sub Fp.f32 rm sat a b = (0x7FC0_0000, 0) ∧
      Fp.mulRound Fp.f32 rm sat a b = (0x7FC0_0000, 0)) ∧
    ((NanF32 a ∨ NanF32 b ∨ NanF32 c) → Fp.fma Fp.f32 rm sat a b c = (0x7FC0_0000, 0)) ∧
    Fp.add Fp.f32 rm sat 0x7F80_0000 0xFF80_0000 = (0x7FC0_0000, 1) ∧ Fp.sub Fp.f32 rm sat 0x7F80_0000 0x7F80_0000 = (0x7FC0_0000, 1) ∧
    Fp.mulRound Fp.f32 rm sat 0 0x7F80_0000 = (0x7FC0_0000, 1) ∧ Fp.mulRound Fp.f32 rm sat 0xFF80_0000 0x8000_0000 = (0x7FC0_0000, 1) ∧
    (¬ NanF32 c → Fp.fma Fp.f32 rm sat 0 0x7F80_0000 c = (0x7FC0_0000, 1)) ∧
    (a / 2 ^ 23 % 256 ≠ 255 → Fp.sub Fp.f32 rm sat a a = (if rm = .rdn then 0x8000_0000 else 0, 0)) ∧
    Fp.add Fp.f32 rm sat 0 0 = (0, 0) ∧ Fp.add Fp.f32 rm sat 0x8000_0000 0x8000_0000 = (0x8000_0000, 0) ∧
    Fp.add Fp.f32 rm sat 0 0x8000_0000 = (if rm = .rdn then 0x8000_0000 else 0, 0) ∧
    Fp.mulRound Fp.f32 rm sat 0 0x8000_0000 = (0x8000_0000, 0) ∧ Fp.mulRound Fp.f32 rm sat 0x8000_0000 0x8000_0000 = (0, 0)) ∧
  ∀ rm sat a b c, FiniteIn Fp.f32 a → FiniteIn Fp.f32 b → FiniteIn Fp.f32 c →
    let q := codeRat Fp.f32
    let zero : Nat × BitVec 8 := (if rm = .rdn then 0x8000_0000 else 0, 0)
    (q a + q b ≠ 0 → Rounds Fp.f32 rm sat 0x84 (q a + q b) (Fp.add Fp.f32 rm sat a b)) ∧ (q a + q b = 0 → q a ≠ 0 → Fp.add Fp.f32 rm sat a b = zero) ∧
    (q a - q b ≠ 0 → Rounds Fp.f32 rm sat 0x84 (q a - q b) (Fp.sub Fp.f32 rm sat a b)) ∧ (q a - q b = 0 → q a ≠ 0 → Fp.sub Fp.f32 rm sat a b = zero) ∧
    (q a * q b ≠ 0 → Rounds Fp.f32 rm sat 0x84 (q a * q b) (Fp.mulRound Fp.f32 rm sat a b)) ∧
    (q a * q b = 0 → Fp.mulRound Fp.f32 rm sat a b = (if a.testBit 31 = b.testBit 31 then 0 else 0x8000_0000, 0)) ∧
    (q a * q b + q c ≠ 0 → Rounds Fp.f32 rm sat 0x84 (q a * q b + q c) (Fp.fma Fp.f32 rm sat a b c)) ∧
    (q a * q b + q c = 0 → q c ≠ 0 → Fp.fma Fp.f32 rm sat a b c = zero)

/-- Step 2 of R91 with R90: a magnitude m × 2^e counted in units of 2^q, rounded. With d = q − e places dropped, the count `n` is the floor or
the ceiling as the mode says; to nearest, it lies within half a unit and a tie goes to the even count. With R85: every code of a format that is
no NaN stands for a value that rounds to that code, in every mode, with no event. R91 to R94: every nonzero exact value rounds once into each format,
with its classes. -/
def Obligations.Rounding : Prop :=
  (∀ (rm : RM) (neg : Bool) (m d : Nat) (e : Int), 0 < d →
    let r := Fp.toUnits rm neg m e (e + d)
    let n := r.1
    (r.2 = true ↔ n * 2 ^ d ≠ m) ∧ n * 2 ^ d < m + 2 ^ d ∧ m < n * 2 ^ d + 2 ^ d ∧
    (rm = .rtz → n = m / 2 ^ d) ∧ (rm = .rdn → n = if neg then (m + 2 ^ d - 1) / 2 ^ d else m / 2 ^ d) ∧
    (rm = .rup → n = if neg then m / 2 ^ d else (m + 2 ^ d - 1) / 2 ^ d) ∧
    (rm = .rne → 2 * m ≤ 2 * (n * 2 ^ d) + 2 ^ d ∧ 2 * (n * 2 ^ d) ≤ 2 * m + 2 ^ d ∧
      (2 * m = 2 * (n * 2 ^ d) + 2 ^ d ∨ 2 * (n * 2 ^ d) = 2 * m + 2 ^ d → n % 2 = 0))) ∧
  (∀ f ∈ [Fp.f32, Fp.bf16, Fp.f16, Fp.e5m2, Fp.e4m3], ∀ rm sat x, x < 2 ^ (1 + f.eb + f.p) → Fp.decode f x ≠ .nan →
    Fp.convert f rm sat (Fp.decode f x) = (x, 0)) ∧
  ∀ rm neg m e, 0 < m →
    let v := Fp.Val.fin neg m e
    let x : ℚ := (if neg then -1 else 1) * m * 2 ^ e
    (∀ f ∈ [Fp.f32, Fp.bf16, Fp.f16, Fp.e5m2], Rounds f rm false 0x84 x (Fp.convert f rm .none v) ∧ Rounds f rm true 0x84 x (Fp.convert f rm .arith v) ∧
      Rounds f rm true 0xA0 x (Fp.convert f rm .conv v)) ∧
    (∀ sat, Rounds Fp.e4m3 rm true 0xA0 x (Fp.convert Fp.e4m3 rm sat v)) ∧ RoundsLg rm x (Fp.convertLg rm v)

/-- R97 and R125: the special functions land their values through `lvx` with latency 8; the rows of R97's table that name single operands,
NaN operands and negative ones, in every mode. -/
def Obligations.SpecialFunctions : Prop :=
  (∀ p ∈ ([(.vfrcp, Fp.rcp), (.vfrsq, Fp.rsq), (.vfex2, Fp.ex2), (.vflg2, Fp.lg2), (.vfsinpi, Fp.sinpi), (.vfcospi, Fp.cospi)] :
      List ((VOp → Instr) × (RM → Bool → Nat → Nat × BitVec 8))),
    (∀ o s c k w, Issues s c k w (p.1 o) → VLands s c k w (p.1 o) o 8 .lvx fun l y e =>
      let r := p.2 o.rm o.sat (w.src o.a l).toNat
      y = BitVec.ofNat 32 r.1 ∧ e = r.2) ∧
    ∀ rm sat x, NanF32 x → p.2 rm sat x = (0x7FC0_0000, 0)) ∧
  ∀ rm sat,
    Fp.rcp rm sat 0 = (0x7F80_0000, 2) ∧ Fp.rcp rm sat 0x8000_0000 = (0xFF80_0000, 2) ∧
    Fp.rcp rm sat 0x7F80_0000 = (0, 0) ∧ Fp.rcp rm sat 0xFF80_0000 = (0x8000_0000, 0) ∧
    Fp.rsq rm sat 0 = (0x7F80_0000, 2) ∧ Fp.rsq rm sat 0x8000_0000 = (0xFF80_0000, 2) ∧ Fp.rsq rm sat 0x7F80_0000 = (0, 0) ∧
    Fp.ex2 rm sat 0xFF80_0000 = (0, 0) ∧ Fp.ex2 rm sat 0x7F80_0000 = (0x7F80_0000, 0) ∧
    Fp.lg2 rm sat 0 = (0xFF80_0000, 2) ∧ Fp.lg2 rm sat 0x8000_0000 = (0xFF80_0000, 2) ∧ Fp.lg2 rm sat 0x7F80_0000 = (0x7F80_0000, 0) ∧
    Fp.lg2 rm sat 0x3F80_0000 = (0, 0) ∧
    (∀ x, 0x8000_0000 < x → x ≤ 0xFF80_0000 → Fp.rsq rm sat x = (0x7FC0_0000, 1) ∧ Fp.lg2 rm sat x = (0x7FC0_0000, 1)) ∧
    Fp.sinpi rm sat 0 = (0, 0) ∧ Fp.sinpi rm sat 0x8000_0000 = (0x8000_0000, 0) ∧ Fp.cospi rm sat 0 = (0x3F80_0000, 0) ∧
    Fp.cospi rm sat 0x8000_0000 = (0x3F80_0000, 0) ∧
    (∀ x, x = 0x7F80_0000 ∨ x = 0xFF80_0000 → Fp.sinpi rm sat x = (0x7FC0_0000, 1) ∧ Fp.cospi rm sat x = (0x7FC0_0000, 1)) ∧
    (∀ x, 0x4B00_0000 ≤ x → x < 0x7F80_0000 → Fp.sinpi rm sat x = (0, 0)) ∧
    (∀ x, 0xCB00_0000 ≤ x → x < 0xFF80_0000 → Fp.sinpi rm sat x = (0x8000_0000, 0)) ∧
    (∀ x, 0x4B80_0000 ≤ x → x < 0x7F80_0000 → Fp.cospi rm sat x = (0x3F80_0000, 0))

/-- R98 and R128: packed operations work on each half by itself and record the classes of both; `vhdot` rounds its exact sum of three terms
once into f32. Of finite elements, the exact rational result of each rounded once (R91, R94, R95). -/
def Obligations.PackedResults : Prop :=
  (∀ p ∈ ([(.vhadd, fun f rm sat a b _ => Fp.add f rm sat a b), (.vhmul, fun f rm sat a b _ => Fp.mulRound f rm sat a b),
      (.vhfma, fun f rm sat a b c => Fp.fma f rm sat a b c)] :
      List ((VOp → Instr) × (Fp.Fmt → RM → Bool → Nat → Nat → Nat → Nat × BitVec 8))),
    ∀ o s c k w, Issues s c k w (p.1 o) → ∀ f, (o.ty = .bf16 ∧ f = Fp.bf16) ∨ (o.ty = .f16 ∧ f = Fp.f16) →
      VLands s c k w (p.1 o) o 4 .lvf fun l y e =>
        let a := (w.src o.a l).toNat
        let b := (w.srcB o l).toNat
        let d := (w.src o.c l).toNat
        let lo := p.2 f o.rm o.sat (a % 65536) (b % 65536) (d % 65536)
        let hi := p.2 f o.rm o.sat (a / 65536) (b / 65536) (d / 65536)
        y = BitVec.ofNat 32 (lo.1 + 65536 * hi.1) ∧ e = lo.2 ||| hi.2) ∧
  (∀ o s c k w, Issues s c k w (.vhdot o) → ∀ f, (o.ty = .bf16 ∧ f = Fp.bf16) ∨ (o.ty = .f16 ∧ f = Fp.f16) →
    VLands s c k w (.vhdot o) o 4 .lvf fun l y e =>
      let v := fun (x : Word) => Fp.decode f (x.toNat % 65536)
      let u := fun (x : Word) => Fp.decode f (x.toNat / 65536)
      let r := Fp.sumOfProducts Fp.f32 o.rm o.sat [(v (w.src o.a l), v (w.srcB o l)), (u (w.src o.a l), u (w.srcB o l))]
        [Fp.decode Fp.f32 (w.src o.c l).toNat]
      y = BitVec.ofNat 32 r.1 ∧ e = r.2) ∧
  ∀ f ∈ [Fp.bf16, Fp.f16], ∀ rm sat a b c, FiniteIn f a → FiniteIn f b → FiniteIn f c →
    let q := codeRat f
    (q a + q b ≠ 0 → Rounds f rm sat 0x84 (q a + q b) (Fp.add f rm sat a b)) ∧ (q a * q b ≠ 0 → Rounds f rm sat 0x84 (q a * q b) (Fp.mulRound f rm sat a b)) ∧
    (q a * q b + q c ≠ 0 → Rounds f rm sat 0x84 (q a * q b + q c) (Fp.fma f rm sat a b c)) ∧
    ∀ a' b' d, FiniteIn f a' → FiniteIn f b' → FiniteIn Fp.f32 d →
      let x := q a * q b + q a' * q b' + codeRat Fp.f32 d
      x ≠ 0 → Rounds Fp.f32 rm sat 0x84 x (Fp.sumOfProducts Fp.f32 rm sat
        [(Fp.decode f a, Fp.decode f b), (Fp.decode f a', Fp.decode f b')] [Fp.decode Fp.f32 d])

/-- R99 and R129 to R132: conversions. Between integer types the value wraps, or clamps with SAT and records class 5 and inexact; a NaN
converted to an integer gives 0 with class 0, an infinity or a value out of range the nearest bound with class 5; an integer or f32 rounds once into the
destination's format (R91 to R94); `vscale` multiplies by a power of two and rounds once. That −0.3 to an unsigned type in RNE records inexact is the
model's reading (log 94). -/
def Obligations.ConversionResults : Prop :=
  (∀ o s c k w, Issues s c k w (.vcvt o) → ∀ src, tyOfCode o.sub.val = some src → VLands s c k w (.vcvt o) o 3 .lvx fun l y e =>
    let a := w.src o.a l
    (isInt src = true → isInt o.ty = true →
      (o.sat = true → intOf src a < tyMin o.ty → y = wrapTo o.ty (tyMin o.ty) ∧ e = 0xA0) ∧
      (o.sat = true → tyMax o.ty < intOf src a → y = wrapTo o.ty (tyMax o.ty) ∧ e = 0xA0) ∧
      ((o.sat = true → tyMin o.ty ≤ intOf src a ∧ intOf src a ≤ tyMax o.ty) → y = wrapTo o.ty (intOf src a) ∧ e = 0)) ∧
    (src = .f32 → isInt o.ty = true → NanF32 a.toNat → y = 0 ∧ e = 1) ∧
    (src = .f32 → isInt o.ty = true → ¬ NanF32 a.toNat → tyMin o.ty ≤ intOf o.ty y ∧ intOf o.ty y ≤ tyMax o.ty ∧ y = wrapTo o.ty (intOf o.ty y)) ∧
    (src = .f32 → isInt o.ty = true → FiniteIn Fp.f32 a.toNat → ∃ n : ℤ, let q := codeRat Fp.f32 a.toNat
      RoundInt o.rm q n ∧ (n < tyMin o.ty → y = wrapTo o.ty (tyMin o.ty) ∧ e = 0xA0) ∧ (tyMax o.ty < n → y = wrapTo o.ty (tyMax o.ty) ∧ e = 0xA0) ∧
      (tyMin o.ty ≤ n → n ≤ tyMax o.ty → y = wrapTo o.ty n ∧ e = if (n : ℚ) = q then 0 else 0x80)) ∧
    (src = .f32 → isInt o.ty = true → (a = 0x7F80_0000 → y = wrapTo o.ty (tyMax o.ty) ∧ e = 0xA0) ∧
      (a = 0xFF80_0000 → y = wrapTo o.ty (tyMin o.ty) ∧ e = 0xA0)) ∧
    (∀ f, (o.ty = .f32 ∧ f = Fp.f32) ∨ (o.ty = .bf16 ∧ f = Fp.bf16) ∨ (o.ty = .f16 ∧ f = Fp.f16) → ∀ x : ℚ, x ≠ 0 →
      (isInt src = true ∧ x = intOf src a) ∨ (src = .f32 ∧ o.ty ≠ .f32 ∧ FiniteIn Fp.f32 a.toNat ∧ x = codeRat Fp.f32 a.toNat) →
      Rounds f o.rm o.sat (if o.sat then 0xA0 else 0x84) x (y.toNat, e)) ∧
    (isInt src = true → isInt o.ty = false → intOf src a = 0 → y = 0 ∧ e = 0) ∧
    (src = .f32 → o.ty = .f32 → (NanF32 a.toNat → y = 0x7FC0_0000) ∧ (¬ NanF32 a.toNat → y = a) ∧ e = 0) ∧
    (src = .f32 → o.ty = .bf16 ∨ o.ty = .f16 → y.toNat < 65536) ∧ (y, e) = cvt src o.ty o.rm o.sat a) ∧
  (∀ o s c k w, Issues s c k w (.vpack o) → o.ty = .bf16 ∨ o.ty = .f16 → VLands s c k w (.vpack o) o 3 .lvx fun l y e =>
    let f := if o.ty = .f16 then Fp.f16 else Fp.bf16
    let r := fun (x : Word) => Fp.convert f o.rm (if o.sat then .conv else .none) (Fp.decode Fp.f32 x.toNat)
    y = BitVec.ofNat 32 ((r (w.src o.a l)).1 + 65536 * (r (w.srcB o l)).1) ∧ e = (r (w.src o.a l)).2 ||| (r (w.srcB o l)).2) ∧
  (∀ o s c k w, Issues s c k w (.vpack o) → o.ty = .e4m3 ∨ o.ty = .e5m2 ∨ o.ty = .lg6 → VLands s c k w (.vpack o) o 3 .lvx fun l y e =>
    let r := vpack o.ty o.sub.val o.rm o.sat (w.src o.a l).toNat (w.srcB o l).toNat (w.src o.c l).toNat
    y = BitVec.ofNat 32 r.1 ∧ e = r.2 ∧
      (∀ p ∈ [(0, (w.src o.a l).toNat), (1, (w.srcB o l).toNat)], FiniteIn Fp.f32 p.2 → codeRat Fp.f32 p.2 ≠ 0 →
        let wide := if o.ty = .lg6 then 6 else 8
        let x := codeRat Fp.f32 p.2
        let code := y.toNat / 2 ^ (2 * wide * o.sub.val + wide * p.1) % 2 ^ wide
        o.sub.val < 2 → ∃ ev, ev &&& e = ev ∧ (o.ty = .e5m2 → Rounds Fp.e5m2 o.rm o.sat (if o.sat then 0xA0 else 0x84) x (code, ev)) ∧
          (o.ty = .e4m3 → Rounds Fp.e4m3 o.rm true 0xA0 x (code, ev)) ∧ (o.ty = .lg6 → RoundsLg o.rm x (code, ev))) ∧
      (o.ty ≠ .lg6 → o.sub = 0 → ∀ i, 16 ≤ i → i < 32 → y.getLsbD i = (w.src o.c l).getLsbD i) ∧
      (o.ty ≠ .lg6 → o.sub = 1 → ∀ i < 16, y.getLsbD i = (w.src o.c l).getLsbD i) ∧ (o.ty = .lg6 → y.toNat < 2 ^ 24)) ∧
  (∀ o s c k w, Issues s c k w (.vunpack o) → VLands s c k w (.vunpack o) o 3 .lvx fun l y e =>
    let a := (w.src o.a l).toNat
    let n := o.sub.val
    let x := match o.ty with
      | .e4m3 => Fp.decode Fp.e4m3 (a / 2 ^ (8 * n) % 256)
      | .e5m2 => Fp.decode Fp.e5m2 (a / 2 ^ (8 * n) % 256)
      | .lg6 => Fp.decodeLg (a / 2 ^ (6 * n) % 64)
      | .f16 => Fp.decode Fp.f16 (a / 2 ^ (16 * n) % 65536)
      | _ => Fp.decode Fp.bf16 (a / 2 ^ (16 * n) % 65536)
    (o.ty = .bf16 ∨ o.ty = .f16 ∨ o.ty = .e4m3 ∨ o.ty = .e5m2 ∨ o.ty = .lg6 →
      y = BitVec.ofNat 32 (Fp.convert Fp.f32 .rne .none x).1) ∧ e = 0) ∧
  (∀ o s c k w, Issues s c k w (.vscale o) → VLands s c k w (.vscale o) o 3 .lvx fun l y e =>
    let a := w.src o.a l
    let b := w.srcB o l
    let n : Int := if o.sub = 1 then ((b.toNat % 256 : Nat) : Int) - 127 else b.toInt
    (o.sub = 1 → b.toNat % 256 = 255 → y = 0x7FC0_0000 ∧ e = 0) ∧
    ((o.sub = 1 → b.toNat % 256 ≠ 255) → NanF32 a.toNat → y = 0x7FC0_0000 ∧ e = 0) ∧
    ((o.sub = 1 → b.toNat % 256 ≠ 255) → a.toNat % 2 ^ 31 = 0 ∨ a.toNat % 2 ^ 31 = 0x7F80_0000 → y = a ∧ e = 0) ∧
    ((o.sub = 1 → b.toNat % 256 ≠ 255) → FiniteIn Fp.f32 a.toNat → codeRat Fp.f32 a.toNat ≠ 0 →
      Rounds Fp.f32 o.rm o.sat 0x84 (codeRat Fp.f32 a.toNat * 2 ^ n) (y.toNat, e)) ∧
    ((o.sub = 1 → b.toNat % 256 ≠ 255) → ∀ neg m x, Fp.decode Fp.f32 a.toNat = .fin neg m x →
      (y, e) = (BitVec.ofNat 32 (Fp.arith Fp.f32 o.rm o.sat (.fin neg m (x + n))).1, (Fp.arith Fp.f32 o.rm o.sat (.fin neg m (x + n))).2)))

/-- R133 and R134: shuffles read source A in the lane that SUB computes, or in their own when that lane is outside the width; a broadcast reads
one lane for all, or 0. -/
def Obligations.LaneMovement : Prop :=
  (∀ o s c k w, Issues s c k w (.vshfl o) → o.sub.val < 4 → VLands s c k w (.vshfl o) o 3 .lvx fun l y e =>
    let n : Nat := match o.imm with
      | some i => i.toNat
      | none => (w.src o.b l).toNat
    let t : Int := match o.sub.val with
      | 0 => n
      | 1 => (l : Int) - n
      | 2 => (l : Int) + n
      | _ => (l ^^^ n : Nat)
    y = w.src o.a (if 0 ≤ t ∧ t < 32 * (w.k : Int) then t.toNat else l) ∧ e = 0) ∧
  (∀ o s c k w, Issues s c k w (.vbcast o) → VLands s c k w (.vbcast o) o 3 .lvx fun _ y e =>
    let t : Nat := match o.imm with
      | some i => i.toNat
      | none => (w.src o.b 0).toNat
    y = (if t < 32 * w.k then w.src o.a t else 0) ∧ e = 0)

/-- R86, R107, R135 and R136: `vredadd` over the fixed tree of 1,024 leaves, an f32 NaN written as the canonical one, and the least and greatest active value. -/
def Obligations.Reductions : Prop :=
  (∀ o s c k w, Issues s c k w (.vredadd o) → o.ty = .i32 ∨ o.ty = .f32 → w.k ≤ 32 →
    ∃ leaf : Nat → Option (Word × BitVec 8),
      (∀ l, Active w o.guard l → leaf l = some (w.src o.a l, 0)) ∧ (∀ l, ¬ Active w o.guard l → leaf l = none) ∧
      let add := fun (x y : Word × BitVec 8) =>
        let r : Word × BitVec 8 := if o.ty = .f32 then Fp.f32Add o.rm false x.1 y.1
          else
            let z := x.1.toInt + y.1.toInt
            if o.sat = true ∧ z < tyMin .i32 then (0x8000_0000, 16) else if o.sat = true ∧ tyMax .i32 < z then (0x7FFF_FFFF, 16)
            else (BitVec.ofInt 32 z, 0)
        (r.1, x.2 ||| y.2 ||| r.2)
      let root := (node add leaf 10 0).getD (0, 0)
      ∃ y : Word, (o.ty = .f32 → NanF32 root.1.toNat → y = 0x7FC0_0000) ∧ (o.ty = .i32 ∨ ¬ NanF32 root.1.toNat → y = root.1) ∧
        VScalar s c k w (.vredadd o) o false .lcs (if o.ty = .i32 then y.signExtend 64 else y.setWidth 64) root.2) ∧
  (∀ p ∈ ([(.vredmin, true), (.vredmax, false)] : List ((VOp → Instr) × Bool)), ∀ o s c k w, Issues s c k w (p.1 o) →
    ∃ y : Word, VScalar s c k w (p.1 o) o false .lcs (if o.ty = .i32 then y.signExtend 64 else y.setWidth 64) 0 ∧
      (o.ty = .i32 ∨ o.ty = .n32 →
        ((∀ l, ¬ Active w o.guard l) → y = wrapTo .i32 (if p.2 then tyMax o.ty else tyMin o.ty)) ∧
        (∀ l, Active w o.guard l → (∃ j, Active w o.guard j ∧ y = w.src o.a j) ∧
          (if p.2 then intOf o.ty y ≤ intOf o.ty (w.src o.a l) else intOf o.ty (w.src o.a l) ≤ intOf o.ty y))) ∧
      (o.ty = .f32 →
        ((∀ l, ¬ Active w o.guard l) → y = if p.2 then 0x7F80_0000 else 0xFF80_0000) ∧
        ((∃ l, Active w o.guard l) → (∀ l, Active w o.guard l → NanF32 (w.src o.a l).toNat) → y = 0x7FC0_0000) ∧
        (∀ l, Active w o.guard l → ¬ NanF32 (w.src o.a l).toNat → (∃ j, Active w o.guard j ∧ y = w.src o.a j) ∧ ¬ NanF32 y.toNat ∧
          (if p.2 then orderF32 y.toNat ≤ orderF32 (w.src o.a l).toNat else orderF32 (w.src o.a l).toNat ≤ orderF32 y.toNat))))

/-- R135 to R137: votes and ballots over the active lanes, and predicate logic with vp0 true as a source. -/
def Obligations.PredicatesAndVotes : Prop :=
  (∀ o s c k w, Issues s c k w (.vany o) → ∃ y, VScalar s c k w (.vany o) o true .none y 0 ∧
    ((∃ l, Active w o.guard l ∧ w.srcPred o.a l = true) → y = 1) ∧ (¬ (∃ l, Active w o.guard l ∧ w.srcPred o.a l = true) → y = 0)) ∧
  (∀ o s c k w, Issues s c k w (.vall o) → ∃ y, VScalar s c k w (.vall o) o true .none y 0 ∧
    ((∀ l, Active w o.guard l → w.srcPred o.a l = true) → y = 1) ∧ (¬ (∀ l, Active w o.guard l → w.srcPred o.a l = true) → y = 0)) ∧
  (∀ o s c k w, Issues s c k w (.vballot o) → ∃ y, VScalar s c k w (.vballot o) o false .lcs y 0 ∧
    ∀ j < 64, (y.getLsbD j = true ↔ Active w o.guard (64 * o.sub.val + j) ∧ w.srcPred o.a (64 * o.sub.val + j) = true)) ∧
  (∀ p ∈ ([(.vpand, fun a b => a ∧ b), (.vpor, fun a b => a ∨ b), (.vpxor, fun a b => ¬ (a ↔ b)), (.vpandn, fun a b => a ∧ ¬ b)] : List ((VOp → Instr) × (Prop → Prop → Prop))),
    ∀ o s c k w (a b : Fin 8), Issues s c k w (p.1 o) → o.a = .p a → o.b = .p b →
      VLands s c k w (p.1 o) o 2 .none fun l y e => (y = 1 ↔ p.2 (w.vp a.val l = true) (w.vp b.val l = true)) ∧ (y = 0 ∨ y = 1) ∧ e = 0) ∧
  ∀ o s c k w (a : Fin 8), Issues s c k w (.vpnot o) → o.a = .p a →
    VLands s c k w (.vpnot o) o 2 .none fun l y e => (y = 1 ↔ w.vp a.val l = false) ∧ (y = 0 ∨ y = 1) ∧ e = 0

/-! ## The memory slot -/

/-- R140, R141, R143 and R149: `ld.sp` lands each active lane's bytes with latency 8, the first word of each lane through `lmd`; a scalar
destination takes one access, made when a lane is active. Scratchpads, memory and registers are unchanged at issue. R154: an `ldc` whose checks
pass lands with latency 20 the bytes of every lane whose line is in the L1; the other lanes are waited for by place, their lines asked for; it
changes no memory. -/
def Obligations.FixedLatencyLoads : Prop :=
  (∀ o s c k w, Issues s c k w (.ldSp o) → SpOk s w o →
    ∃ t w' xs, exec (.ldSp o) s = .next t ∧ t.warp? c k = some w' ∧ Frame s t c k ∧ t.blocks = s.blocks ∧ SameRegs w w' ∧ w'.flags = w.flags ∧
      w'.flight = w.flight ++ xs ∧
      (∀ r, o.data = .v r → xs.length = (o.size.bytes + 3) / 4 ∧ ∀ i x, xs[i]? = some x →
        Lands w x 1 8 (.v (r.val + i)) (if i = 0 then .lmd else .none) ∧ x.want = [] ∧
        LaneValues w x o.guard fun l y e => y = BitVec.ofNat 32 (s.spGet w.block (w.memAddr o l) o.size.bytes / 2 ^ (32 * i)) ∧ e = 0) ∧
      (∀ r, o.data = .s r → ((∀ l, ¬ Active w o.guard l) → xs = []) ∧
        ∀ l, Active w o.guard l → (∀ j < l, ¬ Active w o.guard j) → ∃ x, xs = [x] ∧ Lands w x 1 8 (.s r.val) .none ∧ x.want = [] ∧
          x.scalar = BitVec.ofNat 64 (s.spGet w.block (w.memAddr o l) o.size.bytes))) ∧
  (∀ o s c k w, Issues s c k w (.ldc o) → ldcCheck o c k s = none → ldcWait o c k s = none →
    ∃ t w' xs, exec (.ldc o) s = .next t ∧ t.warp? c k = some w' ∧ Frame s t c k ∧ t.blocks = s.blocks ∧ SameRegs w w' ∧ w'.flags = w.flags ∧
      w'.flight = w.flight ++ xs ∧ (t.core c).l1 = (s.core c).l1 ∧
      (∀ r, o.data = .v r → xs.length = (o.size.bytes + 3) / 4 ∧ ∀ i x, xs[i]? = some x →
        Lands w x 1 20 (.v (r.val + i)) (if i = 0 then .lmd else .none) ∧ x.wn = min o.size.bytes 4 ∧
        (∀ l, ¬ Active w o.guard l → FMap.find x.lanes l = none ∧ ∀ p ∈ x.want, p.1 ≠ l) ∧
        ∀ l, Active w o.guard l → ∃ q e, s.place c w .read (w.memAddr o l) = some (q, e) ∧
          (InL1 s c k w q → FMap.find x.lanes l = some (BitVec.ofNat 32 ((s.core c).l1Get q.pa o.size.bytes / 2 ^ (32 * i))) ∧
            ∀ p ∈ x.want, p.1 ≠ l) ∧
          (¬ InL1 s c k w q → FMap.find x.lanes l = none ∧ (l, q.pa.plus (4 * i)) ∈ x.want ∧
            ((∃ y ∈ (s.core c).l1, y.pa = q.pa.line) ∨ q.pa.line ∈ (t.core c).l1want))) ∧
      ∀ r, o.data = .s r → ((∀ l, ¬ Active w o.guard l) → xs = []) ∧
        ∀ l, Active w o.guard l → (∀ j < l, ¬ Active w o.guard j) → ∃ x q e, s.place c w .read (w.memAddr o l) = some (q, e) ∧ xs = [x] ∧
          Lands w x 1 20 (.s r.val) .none ∧
          (InL1 s c k w q → x.want = [] ∧ x.scalar = BitVec.ofNat 64 ((s.core c).l1Get q.pa o.size.bytes)) ∧
          (¬ InL1 s c k w q → x.want = [(l, q.pa)] ∧ x.wn = o.size.bytes))

/-- R142 and R149: `st.sp` writes the low bytes of DATA at each active lane's offset, the highest lane winning, and no other byte of any
scratchpad. R147 and R330: when the lowest active lane that breaks a rule of `st.sp` or an atomic is misaligned, MISALIGNED is taken, else
SP_BOUNDS; no lane is performed, and the address and the M slot to replay are recorded. -/
def Obligations.ScratchStoresAndFaults : Prop :=
  (∀ o s c k w, Issues s c k w (.stSp o) → SpOk s w o →
    ∃ t w', exec (.stSp o) s = .next t ∧ t.warp? c k = some w' ∧ Frame s t c k ∧ SameRegs w w' ∧ w'.flags = w.flags ∧ w'.flight = w.flight ∧
      (∀ b a, (∀ l, Active w o.guard l → b = w.block → a < w.memAddr o l ∨ w.memAddr o l + o.size.bytes ≤ a) → spByte t b a = spByte s b a) ∧
      ∀ l i, Active w o.guard l → i < o.size.bytes →
        (∀ j, Active w o.guard j → l < j → w.memAddr o l + i < w.memAddr o j ∨ w.memAddr o j + o.size.bytes ≤ w.memAddr o l + i) →
        spByte t w.block (w.memAddr o l + i) = w.dataIn o l / 256 ^ i % 256) ∧
  (∀ i ∈ ([.stSp, .casSp, .atomSpAdd, .atomSpAnd, .atomSpOr, .atomSpXor, .atomSpXchg, .atomSpMinI, .atomSpMaxI, .atomSpMinN, .atomSpMaxN] :
      List (MOp → Instr)),
    ∀ o s c k w l, Issues s c k w (i o) → Active w o.guard l →
      (∀ j, j < l → Active w o.guard j → w.memAddr o j % o.size.bytes = 0 ∧ 0 ≤ signed64 (w.memAddr o j) ∧
        signed64 (w.memAddr o j) + o.size.bytes ≤ s.allocOf w) →
      (w.memAddr o l % o.size.bytes ≠ 0 → exec (i o) s = .next (s.failSlots c k 2 ⟨0x140, w.memAddr o l, 0⟩ 1)) ∧
      (w.memAddr o l % o.size.bytes = 0 → (signed64 (w.memAddr o l) < 0 ∨ s.allocOf w < signed64 (w.memAddr o l) + o.size.bytes) →
        exec (i o) s = .next (s.failSlots c k 2 ⟨0x141, w.memAddr o l, 0⟩ 1)))

/-- R150, R152 and R153: the scratchpad atomics and `cas.sp` take the active lanes in ascending order as one step, each lane reading what the
lanes below it left; the old values land with latency 10. -/
def Obligations.ScratchAtomics : Prop :=
  ∀ p ∈ ([(.atomSpAdd, .add), (.atomSpAnd, .and), (.atomSpOr, .or), (.atomSpXor, .xor), (.atomSpXchg, .xchg), (.atomSpMinI, .minI),
      (.atomSpMaxI, .maxI), (.atomSpMinN, .minN), (.atomSpMaxN, .maxN), (.casSp, .cas)] : List ((MOp → Instr) × AtomicOp)),
    ∀ o s c k w, Issues s c k w (p.1 o) → SpOk s w o → o.size = .b32 ∨ o.size = .b64 → (∃ r, o.data = .v r) →
      ∃ t w' xs, ∃ at' : Nat → State, exec (p.1 o) s = .next t ∧ t.warp? c k = some w' ∧ Frame s t c k ∧ SameRegs w w' ∧ w'.flags = w.flags ∧
        w'.flight = w.flight ++ xs ∧ xs.length = o.size.bytes / 4 ∧ at' 0 = s ∧
        (∀ l, Active w o.guard l → at' (l + 1) = (at' l).spPut w.block (w.memAddr o l) o.size.bytes
          (newWord p.2 o.size.bytes ((at' l).spGet w.block (w.memAddr o l) o.size.bytes)
            (if p.2 = .cas then (w.casIn o l).2 else w.dataIn o l) (w.casIn o l).1)) ∧
        (∀ l, ¬ Active w o.guard l → at' (l + 1) = at' l) ∧ t.blocks = (at' (32 * w.k)).blocks ∧
        ∀ i x, xs[i]? = some x → Lands w x 1 10 (.v (mReg o + i)) (if i = 0 then .lmd else .none) ∧
          LaneValues w x o.guard fun l y e =>
            y = BitVec.ofNat 32 ((at' l).spGet w.block (w.memAddr o l) o.size.bytes / 2 ^ (32 * i)) ∧ e = 0

/-- R22, R144, R158 and R162: a global load raises its flag and becomes one asynchronous operation with a read for every lane; memory, the FIFO and
every register are unchanged until it lands. -/
def Obligations.GlobalLoads : Prop :=
  ∀ p ∈ ([(.ldG, fun _ => none), (.ldGAcq, fun o => some o.scope)] : List ((MOp → Instr) × (MOp → Option Scope))),
    ∀ o s c k w, Issues s c k w (p.1 o) → ldCheck .any o c k s = none → ldWait o c k s = none → Room w o.flag →
      ∃ t w' a, exec (p.1 o) s = .next t ∧ t.warp? c k = some w' ∧ Frame s t c k ∧ t.blocks = s.blocks ∧ SameRegs w w' ∧
        w'.flight = w.flight ∧ FlagUp w w' (o.flag.map (·.val)) ∧ (t.core c).fifo = (s.core c).fifo ∧ (t.core c).ops = (s.core c).ops ++ [a] ∧
        a.slot = k ∧ a.kind = .load ∧ a.acq = p.2 o ∧ a.flag = o.flag.map (·.val) ∧ a.got = [] ∧ a.n = o.size.bytes ∧ a.addr = w.pc ∧
        a.tick = w.tick ∧ a.dest = mDest o ∧ a.todo = laneAccs s c w .read o true (fun _ => 0) (fun _ => 0) ∧
        a.todo.map (·.lane) = (w.accs o true).map (·.1)

/-- R142, R157, R159 and R161: a store raises its flag and enters the release FIFO, one entry for each line it touches, with each lane's bytes, the
highest lane winning; `st.g.rel` puts its release marker before them. Device memory itself is unchanged until an entry is performed. -/
def Obligations.GlobalStores : Prop :=
  ∀ p ∈ ([(.stG, false), (.stGRel, true)] : List ((MOp → Instr) × Bool)),
    ∀ o s c k w, Issues s c k w (p.1 o) → writeCheck .write .any o c k s = none → storeWait .write o c k s = none →
      (p.2 = true → s.releaseWaits c k true o.scope = false) → Room w o.flag →
      ∃ t w' es, exec (p.1 o) s = .next t ∧ t.warp? c k = some w' ∧ Frame s t c k ∧ t.blocks = s.blocks ∧ SameRegs w w' ∧ w'.flight = w.flight ∧
        FlagUp w w' (o.flag.map (·.val)) ∧ (t.core c).fifo = (s.core c).fifo ++ es ∧
        (∀ e ∈ es, e.slot = k ∧ e.kind = none ∧ e.spill = false ∧ e.sent = false) ∧ (es.map (·.line)).Nodup ∧ Carries es (storePieces s c w o) ∧
        (∀ e ∈ es, e.lanes.map (fun a => (a.pa, a.n, a.x)) =
          ((storePieces s c w o).filter fun p => p.1.pa.line = e.line).map fun p => (p.1.pa, p.2.1, p.2.2)) ∧
        (p.2 = false → (t.core c).markers = (s.core c).markers) ∧
        (p.2 = true → ∃ m, (t.core c).markers = (s.core c).markers ++ [m] ∧ m.scope = o.scope ∧ m.slot = k ∧ ∀ e ∈ es, m.seq < e.seq)

/-- R142, R160 and R165: global atomics, CAS and reductions whose checks pass and that may be accepted raise their flag and enter the release FIFO,
one entry for each line with the active lanes on it, ascending: each lane's place, operand and, for CAS, expected value. Atomics and CAS also become
one asynchronous operation that will land the old values in DATA. Memory and every register are unchanged until an entry is performed. -/
def Obligations.GlobalAtomics : Prop :=
  (∀ p ∈ ([(.atomGAdd, .add), (.atomGAnd, .and), (.atomGOr, .or), (.atomGXor, .xor), (.atomGXchg, .xchg), (.atomGMinI, .minI),
      (.atomGMaxI, .maxI), (.atomGMinN, .minN), (.atomGMaxN, .maxN), (.atomGFadd, .fadd), (.casG, .cas)] : List ((MOp → Instr) × AtomicOp)),
    ∀ o s c k w, Issues s c k w (p.1 o) → writeCheck .rmw .noHost o c k s = none → storeWait .rmw o c k s = none → Room w o.flag →
      ∃ t w' es a, exec (p.1 o) s = .next t ∧ t.warp? c k = some w' ∧ Frame s t c k ∧ t.blocks = s.blocks ∧ SameRegs w w' ∧
        w'.flight = w.flight ∧ FlagUp w w' (o.flag.map (·.val)) ∧ (t.core c).fifo = (s.core c).fifo ++ es ∧
        (∀ e ∈ es, e.slot = k ∧ e.kind = some p.2 ∧ e.op = a.id ∧ e.spill = false ∧ e.sent = false) ∧
        Holds es (laneAccs s c w .rmw o false (if p.2 = .cas then fun l => (w.casIn o l).2 else w.dataIn o)
          (if p.2 = .cas then fun l => (w.casIn o l).1 else fun _ => 0)) ∧
        (t.core c).ops = (s.core c).ops ++ [a] ∧ a.slot = k ∧ a.kind = .atomic ∧ a.flag = o.flag.map (·.val) ∧ a.dest = mDest o ∧
        a.n = o.size.bytes ∧ a.tick = w.tick ∧ a.addr = w.pc ∧ a.todo = [] ∧ a.got = []) ∧
  (∀ p ∈ ([(.redGAdd, .add), (.redGAnd, .and), (.redGOr, .or), (.redGXor, .xor), (.redGMinI, .minI), (.redGMaxI, .maxI), (.redGMinN, .minN),
      (.redGMaxN, .maxN), (.redGFadd, .fadd)] : List ((MOp → Instr) × AtomicOp)),
    ∀ o s c k w, Issues s c k w (p.1 o) → writeCheck .write .noHost o c k s = none → storeWait .write o c k s = none → Room w o.flag →
      ∃ t w' es, exec (p.1 o) s = .next t ∧ t.warp? c k = some w' ∧ Frame s t c k ∧ t.blocks = s.blocks ∧ SameRegs w w' ∧
        w'.flight = w.flight ∧ FlagUp w w' (o.flag.map (·.val)) ∧ (t.core c).fifo = (s.core c).fifo ++ es ∧
        (∀ e ∈ es, e.slot = k ∧ e.kind = some p.2 ∧ e.spill = false ∧ e.sent = false) ∧
        Holds es (laneAccs s c w .write o false (w.dataIn o) fun _ => 0))

/-- R166, R167 and R169: `sld` lands its lanes with latency 8, each the bytes of the head tile at its own place, or 0 beyond the tile; it takes one
tile off the ring at issue, whatever the guard, and gives its slot back at the landing. `sdset` lands its word at the end of the tick and `sdget`
reads one with latency 8; without the grant, each raises RING_MISUSE, and `sld` on an empty ring RING_EMPTY. -/
def Obligations.StreamOperations : Prop :=
  (∀ o s c k w, Issues s c k w (.sld o) → sldCheck o c k s = none → (∃ r, o.data = .v r) →
    let d := (s.core c).desc (mStream o)
    let first := d.slotOff (ptrHead ((s.core c).strm (mStream o) 2).toNat)
    ∃ t w' xs z, exec (.sld o) s = .next t ∧ t.warp? c k = some w' ∧ Frame s t c k ∧ t.blocks = s.blocks ∧ SameRegs w w' ∧ w'.flags = w.flags ∧
      w'.flight = w.flight ++ (xs ++ [z]) ∧ xs.length = (o.size.bytes + 3) / 4 ∧
      (∀ i x, xs[i]? = some x → Lands w x 1 8 (.v (mReg o + i)) (if i = 0 then .lmd else .none) ∧
        LaneValues w x o.guard fun l y e => e = 0 ∧ y = if o.size.bytes * l + o.size.bytes ≤ d.rows * d.rb
          then BitVec.ofNat 32 (s.spGet w.block (first + o.size.bytes * l) o.size.bytes / 2 ^ (32 * i)) else 0) ∧
      Lands w z 1 8 (.sd (mStream o) 4) .none ∧ z.scalar = slotRelease d.len ((s.core c).claim (mStream o) d.len 1).1 ∧
      (t.core c).streams = ((s.core c).claim (mStream o) d.len 1).2.streams) ∧
  (∀ o s c k w, Issues s c k w (.sdset o) → chkSdset o c k s = none →
    ∃ x, exec (.sdset o) s = .next (s.setWarp c k { w with flight := w.flight ++ [x] }) ∧
      Lands w x 1 1 (.sd (mStream o) (mStreamWord o)) .none ∧ x.scalar = w.s (mReg o)) ∧
  (∀ o s c k w, Issues s c k w (.sdget o) → s.hasGrant c w = true →
    ∃ x, exec (.sdget o) s = .next (s.setWarp c k { w with flight := w.flight ++ [x] }) ∧ Lands w x 1 8 (.s (mReg o)) .none ∧
      x.scalar = (s.core c).strm (mStream o) (mStreamWord o)) ∧
  (∀ i ∈ ([.sld, .sdset, .sdget] : List (MOp → Instr)), ∀ o s c k w, Issues s c k w (i o) → s.hasGrant c w = false →
    exec (i o) s = .next (s.failSlots c k 2 ⟨0x142, 0, 0⟩ 1)) ∧
  (∀ o s c k w, Issues s c k w (.sld o) → s.hasGrant c w = true →
    (s.core c).present (mStream o) ((s.core c).desc (mStream o)).len = 0 →
    exec (.sld o) s = .next (s.failSlots c k 2 ⟨0x143, 0, 0⟩ 1))

/-- R144, R173 to R175: `vspill` enters the lines of its slot's used bytes into the release FIFO; `vfill` becomes one asynchronous operation that reads
its slot; and what `vspill` writes, `vfill` rebuilds: every lane of the register, whatever the format. -/
def Obligations.SpillAndFill : Prop :=
  (∀ o s c k w, Issues s c k w (.vspill o) → spanCheck .write o c k s = none → spillWait o c k s = none → Room w o.flag →
    ∃ t w' es, exec (.vspill o) s = .next t ∧ t.warp? c k = some w' ∧ Frame s t c k ∧ t.blocks = s.blocks ∧ SameRegs w w' ∧
      w'.flight = w.flight ∧ FlagUp w w' (o.flag.map (·.val)) ∧ (t.core c).fifo = (s.core c).fifo ++ es ∧
      (∀ e ∈ es, e.slot = k ∧ e.kind = none ∧ e.spill = true ∧ e.sent = false) ∧ (es.map (·.line)).Nodup ∧ Carries es (spillPieces s c w o) ∧
      ∀ e ∈ es, e.lanes.map (fun a => (a.pa, a.n, a.x)) =
        ((spillPieces s c w o).filter fun p => p.1.pa.line = e.line).map fun p => (p.1.pa, p.2.1, p.2.2)) ∧
  (∀ o s c k w, Issues s c k w (.vfill o) → spanCheck .read o c k s = none → fillWait o c k s = none → Room w o.flag →
    ∃ t w' a, exec (.vfill o) s = .next t ∧ t.warp? c k = some w' ∧ Frame s t c k ∧ t.blocks = s.blocks ∧ SameRegs w w' ∧
      w'.flight = w.flight ∧ FlagUp w w' (o.flag.map (·.val)) ∧ (t.core c).fifo = (s.core c).fifo ∧ (t.core c).ops = (s.core c).ops ++ [a] ∧
      a.slot = k ∧ a.kind = .fill ∧ a.dest = mDest o ∧ a.flag = o.flag.map (·.val) ∧ a.n = 32 * w.k ∧ a.tick = w.tick ∧ a.addr = w.pc ∧
      a.todo = fillAccs s c w o ∧ a.got = []) ∧
  ∀ (w : Warp) r, 1 ≤ w.k →
    32 ≤ (w.spillImage r).1 ∧ (w.spillImage r).1 ≤ 32 + 4 * (32 * w.k) ∧ (w.spillImage r).2 % 256 < 5 ∧
    fillBytes ((w.spillImage r).2 % 256) (32 * w.k) = (w.spillImage r).1 ∧
    ∀ l < 32 * w.k, fillLane (w.spillImage r).2 l = (w.v r l).toNat

/-- R156, R161, R162, R172, R176 and R233: fences place their marker or become an asynchronous operation, `l1inv` empties the L1, `arrive` performs one
arrival update of its word when a lane is active, in the same step ending each `await` on the word that its new GEN satisfies, and `pfd` asks for the
lines of its lanes that translate and changes no memory, register or flag. -/
def Obligations.FencesAndHints : Prop :=
  (∀ o s c k w, Issues s c k w (.fenceRel o) → fenceWait true o c k s = none → Room w o.flag →
    ∃ t w' m, exec (.fenceRel o) s = .next t ∧ t.warp? c k = some w' ∧ Frame s t c k ∧ t.blocks = s.blocks ∧ SameRegs w w' ∧ w'.flight = w.flight ∧
      FlagUp w w' (o.flag.map (·.val)) ∧ (t.core c).fifo = (s.core c).fifo ∧ (t.core c).markers = (s.core c).markers ++ [m] ∧ m.scope = o.scope ∧
      m.slot = k ∧ m.flag = o.flag.map (·.val)) ∧
  (∀ o s c k w, Issues s c k w (.fenceAcq o) → fenceWait false o c k s = none → Room w o.flag →
    ∃ t w' a, exec (.fenceAcq o) s = .next t ∧ t.warp? c k = some w' ∧ Frame s t c k ∧ t.blocks = s.blocks ∧ SameRegs w w' ∧ w'.flight = w.flight ∧
      FlagUp w w' (o.flag.map (·.val)) ∧ (t.core c).fifo = (s.core c).fifo ∧ (t.core c).ops = (s.core c).ops ++ [a] ∧ a.slot = k ∧
      a.flag = o.flag.map (·.val) ∧ a.acq = some o.scope ∧ a.rel = none ∧ a.kind = .fence ∧ a.todo = []) ∧
  (∀ o s c k w, Issues s c k w (.fence o) → fenceWait true o c k s = none → Room w o.flag →
    ∃ t w' m a, exec (.fence o) s = .next t ∧ t.warp? c k = some w' ∧ Frame s t c k ∧ t.blocks = s.blocks ∧ SameRegs w w' ∧ w'.flight = w.flight ∧
      FlagUp w w' (o.flag.map (·.val)) ∧ (t.core c).fifo = (s.core c).fifo ∧ (t.core c).markers = (s.core c).markers ++ [m] ∧ m.scope = o.scope ∧
      m.slot = k ∧ (t.core c).ops = (s.core c).ops ++ [a] ∧ a.slot = k ∧ a.flag = o.flag.map (·.val) ∧ a.kind = .fence ∧ a.acq = some o.scope ∧
      a.rel = some m.seq ∧ a.todo = []) ∧
  (∀ o s c k w, Issues s c k w (.l1inv o) →
    ∃ t, exec (.l1inv o) s = .next t ∧ (t.core c).l1 = [] ∧ t.warp? c k = some w ∧ Frame s t c k ∧ t.blocks = s.blocks) ∧
  (∀ o s c k w, Issues s c k w (.arrive o) → arriveCheck o c k s = none →
    ∃ t w', exec (.arrive o) s = .next t ∧ t.warp? c k = some w' ∧ SameRegs w w' ∧ w'.flags = w.flags ∧ w'.flight = w.flight ∧
      t.hbm = s.hbm ∧ t.host = s.host ∧ t.cycle = s.cycle ∧
      ((∀ l, ¬ Active w o.guard l) → t.blocks = s.blocks ∧ ∀ d j, (d, j) ≠ (c, k) → t.warp? d j = s.warp? d j) ∧
      ((∃ l, Active w o.guard l) →
        let n := (w.s (mReg o)).toNat % 2 ^ 32
        t.blocks = (s.spPut w.block (w.baseOff o) 16 (arriveAdd (s.spGet w.block (w.baseOff o) 16) n)).blocks ∧
        ∀ d j, (d, j) ≠ (c, k) → t.warp? d j = (s.warp? d j).map (wokenBy s w.block (w.baseOff o) n d j))) ∧
  (∀ o s c k w, Issues s c k w (.pfd o) → pfdWait o c k s = none →
    ∃ t, exec (.pfd o) s = .next t ∧ t.warp? c k = some w ∧ Frame s t c k ∧ t.blocks = s.blocks ∧ (t.core c).l1 = (s.core c).l1 ∧
      (∀ l q e, Active w o.guard l → (s.tlbFind c (s.ctxOf w.block c).1 (s.ctxOf w.block c).2 (w.memAddr o l)).isSome = true →
        s.place c w .read (w.memAddr o l) = some (q, e) → q.ms = false →
        (∃ y ∈ (s.core c).l1, y.pa = q.pa.line) ∨ q.pa.line ∈ (t.core c).l1want) ∧
      ∀ p ∈ (t.core c).l1want, p ∈ (s.core c).l1want ∨ ∃ l q e, Active w o.guard l ∧ s.place c w .read (w.memAddr o l) = some (q, e) ∧
        q.ms = false ∧ p = q.pa.line)

/-- R171: an arrival update on TARGET, COUNT and GEN; bytes 12 to 15 of the word are kept. -/
def Obligations.ArrivalUpdate : Prop :=
  ∀ x n, x < 2 ^ 128 → n < 2 ^ 32 →
    let y := arriveAdd x n
    let target := x % 2 ^ 32
    let count := (x / 2 ^ 32 + n) % 2 ^ 32
    let gen := x / 2 ^ 64 % 2 ^ 32
    y % 2 ^ 32 = target ∧ y / 2 ^ 96 = x / 2 ^ 96 ∧
    (target ≠ 0 ∧ target ≤ count → y / 2 ^ 64 % 2 ^ 32 = (gen + 1) % 2 ^ 32 ∧ y / 2 ^ 32 % 2 ^ 32 = count - target) ∧
    (¬ (target ≠ 0 ∧ target ≤ count) → y / 2 ^ 64 % 2 ^ 32 = gen ∧ y / 2 ^ 32 % 2 ^ 32 = count)

/-! ## The copy and tile slot -/

/-- R178, R184, R187 to R191, R198 to R207, R210 and R211: an X-slot operation whose checks pass and that may be accepted raises its flag and enters
its queue, behind every other, with itself as what is to be done and the scalars, the lane operands of a `cpa` and the stream descriptors that it names
as they are at issue; memory,
scratchpads and registers are unchanged until it runs. R166, R182, R183,
R188, R205 and R330: without the grant every operation on a stream or an accumulator raises RING_MISUSE; a `cpb` whose length word is illegal
raises COPY_OPERAND, and a multiplication of streams of another format TILE_FORMAT; the slot is to be replayed and nothing enters a queue. -/
def Obligations.QueuedOperations : Prop :=
  (let enters := fun (s : State) (c k : Nat) (w : Warp) (i : Instr) (f : Fin 16) (tile : Bool) (P : XOp → Prop) =>
    ∃ t w' x, exec i s = .next t ∧ t.warp? c k = some w' ∧ Quiet s t c k ∧ SameRegs w w' ∧ w'.flight = w.flight ∧ FlagUp w w' (some f.val) ∧
      (t.core c).xops = (s.core c).xops ++ [x] ∧ x.instr = i ∧ x.flag = f.val ∧ x.slot = k ∧ x.block = w.block ∧ x.stage = .queued ∧
      x.tile = tile ∧ x.addr = w.pc ∧ x.err = none ∧ x.live = w.summary ∧ P x
  let dst := fun (w : Warp) (o : XCOp) (x : XOp) => x.dst = w.s o.dstb.val
  let src := fun (w : Warp) (o : XCOp) (x : XOp) => x.src = w.s o.srcb.val
  let len := fun (w : Warp) (o : XCOp) (x : XOp) => x.len = w.s (o.ll.toNat % 64)
  let arw := fun (w : Warp) (o : XCOp) (x : XOp) => x.arrive = if o.arw = 0 then none else some (w.s o.arw.val).toNat
  let ring := fun (s : State) (c n : Nat) (x : StreamCap) => x = ⟨n, (s.core c).strm n 0, (s.core c).strm n 1, (s.core c).strm n 3⟩
  (∀ p ∈ ([(.cpa, chkCpa, waitCpa, false, fun _ _ w o x => dst w o x ∧ src w o x ∧ arw w o x ∧
        (∀ l, Active w (gtGuard o) l → FMap.find x.operands l = some ((w.v o.ll.toNat l).toNat + (w.v (o.ll.toNat + 1) l).toNat * 2 ^ 32)) ∧
        ∀ l, ¬ Active w (gtGuard o) l → FMap.find x.operands l = none),
      (.cpb, chkCpb, waitCpb, false, fun _ _ w o x => dst w o x ∧ src w o x ∧ len w o x),
      (.cp2d, chkCp2d, waitCp2d, false, fun _ _ w o x => dst w o x ∧ src w o x ∧ len w o x ∧ x.len2 = w.s (o.ll.toNat % 64 + 1)),
      (.cpm, chkCpm, waitCpm, false, fun _ _ w o x => dst w o x ∧ src w o x ∧ len w o x ∧ arw w o x ∧
        ∀ g < 8, (g ∈ x.ranks ↔ (w.s (o.ll.toNat % 64)).getLsbD (24 + g) = true)),
      (.tld, chkTld, waitTld, false, fun s c w o x => src w o x ∧ arw w o x ∧ ring s c (o.ll.toNat % 16) x.sa),
      (.tst, chkTst, waitTst, false, fun s c w o x => dst w o x ∧ src w o x ∧ ring s c (o.ll.toNat % 16) x.sa),
      (.xtile, chkXtile, waitXtile, false, fun s c w o x => dst w o x ∧ src w o x ∧ ring s c (o.ll.toNat % 16) x.sa),
      (.gredAdd, chkGred, waitGred, false, fun _ _ w o x => dst w o x ∧ src w o x ∧ len w o x),
      (.gredMin, chkGred, waitGred, false, fun _ _ w o x => dst w o x ∧ src w o x ∧ len w o x),
      (.gredMax, chkGred, waitGred, false, fun _ _ w o x => dst w o x ∧ src w o x ∧ len w o x),
      (.tstac, chkTstac, waitTstac, true, fun _ _ w o x => dst w o x ∧ src w o x),
      (.tdrain, chkTdrain, waitTdrain, true, fun _ _ w o x => dst w o x ∧ src w o x ∧ arw w o x),
      (.tsave, chkTsave, waitTsave, true, fun _ _ w o x => dst w o x), (.tload, chkTload, waitTload, true, fun _ _ w o x => src w o x)] :
      List ((XCOp → Instr) × (XCOp → Nat → Nat → State → Option Fail) × (XCOp → Nat → Nat → State → Option Wait) × Bool ×
        (State → Nat → Warp → XCOp → XOp → Prop))),
    ∀ o s c k w, Issues s c k w (p.1 o) → p.2.1 o c k s = none → p.2.2.1 o c k s = none → Room w (some o.flag) →
      enters s c k w (p.1 o) o.flag p.2.2.2.1 (p.2.2.2.2 s c w o)) ∧
  (∀ p ∈ ([(.sreset, fun _ => xtGrant), (.sadv, chkSadv), (.tmmaBf16, fun o => chkTmma (.tmmaBf16 o) o),
      (.tmmaF16, fun o => chkTmma (.tmmaF16 o) o), (.tmmaE4m3, fun o => chkTmma (.tmmaE4m3 o) o), (.tmmaE5m2, fun o => chkTmma (.tmmaE5m2 o) o),
      (.tmmaE4m3e5m2, fun o => chkTmma (.tmmaE4m3e5m2 o) o), (.tmmaE5m2e4m3, fun o => chkTmma (.tmmaE5m2e4m3 o) o),
      (.tmmaI8, fun o => chkTmma (.tmmaI8 o) o), (.tmmaN8, fun o => chkTmma (.tmmaN8 o) o), (.tmmaI8n8, fun o => chkTmma (.tmmaI8n8 o) o),
      (.tmmaLg6, fun o => chkTmma (.tmmaLg6 o) o), (.tmmasE4m3, fun o => chkTmma (.tmmasE4m3 o) o),
      (.tmmasE5m2, fun o => chkTmma (.tmmasE5m2 o) o), (.tmmasE4m3e5m2, fun o => chkTmma (.tmmasE4m3e5m2 o) o),
      (.tmmasE5m2e4m3, fun o => chkTmma (.tmmasE5m2e4m3 o) o), (.tmmasI8, fun o => chkTmma (.tmmasI8 o) o),
      (.tmmasLg6, fun o => chkTmma (.tmmasLg6 o) o)] : List ((XTOp → Instr) × (XTOp → Nat → Nat → State → Option Fail))),
    ∀ o s c k w, Issues s c k w (p.1 o) → p.2 o c k s = none → xtWait o c k s = none → Room w (some o.flag) →
      enters s c k w (p.1 o) o.flag true fun x => ring s c o.sa.val x.sa ∧ ((tileTypes (p.1 o)).isSome → ring s c o.sb.val x.sb)) ∧
  ∀ o s c k w, Issues s c k w (.tzero o) → xtGrant c k s = none → xtWait o c k s = none → Room w (some o.flag) →
    enters s c k w (.tzero o) o.flag true fun _ => True) ∧
  ((∀ i ∈ ([.tld, .tst, .xtile, .tstac, .tdrain, .tsave, .tload] : List (XCOp → Instr)), ∀ o s c k w, Issues s c k w (i o) → s.hasGrant c w = false →
    exec (i o) s = .next (s.failSlots c k 4 ⟨0x142, 0, 0⟩ 2)) ∧
  (∀ i ∈ ([.tzero, .sreset, .sadv, .tmmaBf16, .tmmaF16, .tmmaE4m3, .tmmaE5m2, .tmmaE4m3e5m2, .tmmaE5m2e4m3, .tmmaI8, .tmmaN8, .tmmaI8n8, .tmmaLg6,
      .tmmasE4m3, .tmmasE5m2, .tmmasE4m3e5m2, .tmmasE5m2e4m3, .tmmasI8, .tmmasLg6] : List (XTOp → Instr)), ∀ o s c k w,
    Issues s c k w (i o) → s.hasGrant c w = false → exec (i o) s = .next (s.failSlots c k 4 ⟨0x142, 0, 0⟩ 2)) ∧
  (∀ o s c k w, Issues s c k w (.cpb o) →
    let x := (w.s (o.ll.toNat % 64)).toNat
    (x % 2 ^ 17 % 16 ≠ 0 ∨ 65536 < x % 2 ^ 17 ∨ x.testBit 17 = true ∨ x / 2 ^ 20 ≠ 0) →
      exec (.cpb o) s = .next (s.failSlots c k 4 ⟨0x147, 0, 0⟩ 2)) ∧
  ∀ p ∈ ([(.tmmaBf16, .bf16, .bf16), (.tmmaF16, .f16, .f16), (.tmmaE4m3, .e4m3, .e4m3), (.tmmaE5m2, .e5m2, .e5m2), (.tmmaE4m3e5m2, .e4m3, .e5m2),
      (.tmmaE5m2e4m3, .e5m2, .e4m3), (.tmmaI8, .i8, .i8), (.tmmaN8, .n8, .n8), (.tmmaI8n8, .i8, .n8), (.tmmaLg6, .lg6, .lg6),
      (.tmmasE4m3, .e4m3, .e4m3), (.tmmasE5m2, .e5m2, .e5m2), (.tmmasE4m3e5m2, .e4m3, .e5m2), (.tmmasE5m2e4m3, .e5m2, .e4m3), (.tmmasI8, .i8, .i8),
      (.tmmasLg6, .lg6, .lg6)] : List ((XTOp → Instr) × Ty × Ty)),
    ∀ o s c k w, Issues s c k w (p.1 o) → s.hasGrant c w = true →
      ((s.core c).desc o.sa.val).fmt ≠ p.2.1.code ∨ ((s.core c).desc o.sb.val).fmt ≠ p.2.2.code →
      exec (p.1 o) s = .next (s.failSlots c k 4 ⟨0x180, 0, 0⟩ 2))

/-- R103: a finite contribution is added exactly. The anchor rises from that of the element (from −1024 when its M is 0) to the smallest value at
which the rounded sum fits 114 bits; what is dropped is folded by round-to-odd and recorded as WINDOW_SHIFT. A NaN or infinite one changes SPEC only. -/
def Obligations.AccumulatorAddition : Prop :=
  (∀ (x : Fp.Acc) (c e : Int),
    let S : ℚ := (x.m : ℚ) * 2 ^ x.a + (c : ℚ) * 2 ^ e
    let r := Fp.accAdd x c e
    let low : Int := if x.m = 0 then -1024 else x.a
    r.1.spec = x.spec ∧ low ≤ r.1.a ∧ -(2 ^ 113) ≤ r.1.m ∧ r.1.m ≤ 2 ^ 113 - 1 ∧ RoundsOdd (S / 2 ^ r.1.a) r.1.m ∧
    (∀ a m, low ≤ a → a < r.1.a → RoundsOdd (S / 2 ^ a) m → m < -(2 ^ 113) ∨ 2 ^ 113 - 1 < m) ∧
    r.2 = if (r.1.m : ℚ) * 2 ^ r.1.a = S then 0 else 64) ∧
  (∀ x, Fp.contribute x .nan = ({ x with spec := 4 }, 0)) ∧
  (∀ x neg, x.spec = 0 → Fp.contribute x (.inf neg) = ({ x with spec := if neg then 2 else 1 }, 0)) ∧
  (∀ x neg, x.spec = (if neg then 2 else 1) → Fp.contribute x (.inf neg) = (x, 0)) ∧
  (∀ x neg, x.spec = (if neg then 1 else 2) → Fp.contribute x (.inf neg) = ({ x with spec := 4 }, 1)) ∧
  (∀ x neg, x.spec = 4 → Fp.contribute x (.inf neg) = (x, 0)) ∧
  ∀ x neg m e, Fp.contribute x (.fin neg m e) = Fp.accAdd x (if neg then -(m : Int) else m) e

/-! ## The control slot -/

/-- R54 and R217 to R219: the scalar operations land their exact results at the end of the issue tick; under a false guard nothing changes. -/
def Obligations.ScalarArithmetic : Prop :=
  (∀ (w : Warp) (o : CSOp), (∀ i, o.imm = some i → (w.csB o).toInt = i.toInt) ∧ (o.imm = none → w.csB o = w.s o.b.val)) ∧
  (∀ p ∈ ([(.addS, fun _ _ a b y => y.toNat = (a.toNat + b.toNat) % 2 ^ 64), (.subS, fun _ _ a b y => (y.toNat + b.toNat) % 2 ^ 64 = a.toNat),
      (.mulS, fun _ _ a b y => y.toNat = a.toNat * b.toNat % 2 ^ 64),
      (.mulhS, fun _ o a b y => (o.sub = 0 → y.toInt = (a.toInt * b.toInt) / 2 ^ 64) ∧ (o.sub = 1 → y.toNat = a.toNat * b.toNat / 2 ^ 64)),
      (.andS, fun _ _ a b y => ∀ i < 64, y.getLsbD i = (a.getLsbD i && b.getLsbD i)),
      (.orS, fun _ _ a b y => ∀ i < 64, y.getLsbD i = (a.getLsbD i || b.getLsbD i)),
      (.xorS, fun _ _ a b y => ∀ i < 64, y.getLsbD i = (a.getLsbD i != b.getLsbD i)),
      (.shl, fun _ _ a b y => ∀ i < 64, y.getLsbD i = (decide (b.toNat % 64 ≤ i) && a.getLsbD (i - b.toNat % 64))),
      (.shr, fun _ _ a b y => ∀ i < 64, y.getLsbD i = a.getLsbD (i + b.toNat % 64)),
      (.sar, fun _ _ a b y => ∀ i < 64, y.getLsbD i = a.getLsbD (min 63 (i + b.toNat % 64))),
      (.minS, fun _ o a b y => (o.sub = 0 → y.toInt = min a.toInt b.toInt) ∧ (o.sub = 1 → y.toNat = min a.toNat b.toNat)),
      (.maxS, fun _ o a b y => (o.sub = 0 → y.toInt = max a.toInt b.toInt) ∧ (o.sub = 1 → y.toNat = max a.toNat b.toNat)),
      (.mov, fun _ _ a _ y => y = a), (.movi, fun _ _ _ b y => y = b),
      (.movhi, fun _ o a b y => o.sub.val < 4 → ∀ i < 64, y.getLsbD i = if i / 16 = o.sub.val then b.getLsbD (i % 16) else a.getLsbD i),
      (.sel, fun w o a b y => y = if (if o.sub.val < 8 then w.sp (o.sub.val % 8) else !w.sp (o.sub.val % 8)) then a else b),
      (.clz, fun _ _ a _ y => y.toNat ≤ 64 ∧ (∀ i < 64, 64 - y.toNat ≤ i → a.getLsbD i = false) ∧
        (y.toNat < 64 → a.getLsbD (63 - y.toNat) = true)),
      (.popc, fun _ _ a _ y => y.toNat = ((List.range 64).filter fun i => a.getLsbD i).length),
      (.lea, fun _ o a b y => y.toNat = (a.toNat + b.toNat * 2 ^ o.sub.val) % 2 ^ 64)] :
      List ((CSOp → Instr) × (Warp → CSOp → DWord → DWord → DWord → Prop))),
    ∀ o s c k w, Issues s c k w (p.1 o) →
      (Guarded w o.guard → ∃ y, CLands s c k w (p.1 o) (.s o.d.val) y ∧ p.2 w o (w.s o.a.val) (w.csB o) y) ∧
      (¬ Guarded w o.guard → exec (p.1 o) s = .next (s.setWarp c k w))) ∧
  ∀ o s c k w, Issues s c k w (.cmp o) → o.sub.val < 10 →
    (Guarded w o.guard → ∃ y, CLands s c k w (.cmp o) (.sp (o.d.val % 8)) y ∧ (y = 0 ∨ y = 1) ∧
      let a := w.s o.a.val
      let b := w.csB o
      (y = 1 ↔ match o.sub.val with
        | 0 => a = b
        | 1 => a ≠ b
        | 2 => a.toInt < b.toInt
        | 3 => a.toInt ≤ b.toInt
        | 4 => a.toInt > b.toInt
        | 5 => a.toInt ≥ b.toInt
        | 6 => a.toNat < b.toNat
        | 7 => a.toNat ≤ b.toNat
        | 8 => a.toNat > b.toNat
        | _ => a.toNat ≥ b.toNat)) ∧
    (¬ Guarded w o.guard → exec (.cmp o) s = .next (s.setWarp c k w))

/-- R28, R53 and R220 to R222: which branches are taken, where they go and whether they unwind the loop stack; the checks of a taken target and
the divergence of `br.u`; `call` also lands the return address in s63. -/
def Obligations.Branches : Prop :=
  (∀ p ∈ ([(.br, fun _ _ => True, fun w o => offTarget w o, true), (.jmp, fun _ _ => True, fun w o => offTarget w o, true),
      (.jmpr, fun _ _ => True, fun w o => w.s o.sreg.val, true), (.ret, fun _ _ => True, fun w _ => w.s 63, false),
      (.brAny, fun w o => ∃ l, Live w l ∧ LaneTrue w o.var l, fun w o => offTarget w o, true),
      (.brAll, fun w o => ∀ l, Live w l → LaneTrue w o.var l, fun w o => offTarget w o, true),
      (.brU, fun w o => ∀ l, Live w l → LaneTrue w o.var l, fun w o => offTarget w o, true)] :
      List ((CBOp → Instr) × (Warp → CBOp → Prop) × (Warp → CBOp → DWord) × Bool)),
    ∀ o s c k w, Issues s c k w (p.1 o) →
      let t := p.2.2.1 w o
      (Guarded w o.guard → p.2.1 w o → TargetOk t → exec (p.1 o) s = .next (s.setWarp c k { w with ctl := .branch t p.2.2.2 })) ∧
      (Guarded w o.guard → p.2.1 w o → t.toNat % 32 ≠ 0 → exec (p.1 o) s = .next (s.failWhole c k 8 ⟨0x083, t.toNat, 0⟩ 3)) ∧
      (Guarded w o.guard → p.2.1 w o → t.toNat % 32 = 0 → ¬ TargetOk t → exec (p.1 o) s = .next (s.failWhole c k 8 ⟨0x084, t.toNat, 0⟩ 3)) ∧
      (¬ Guarded w o.guard → exec (p.1 o) s = .next (s.setWarp c k w))) ∧
  (∀ o s c k w, Issues s c k w (.brAny o) → (∀ l, Live w l → ¬ LaneTrue w o.var l) → exec (.brAny o) s = .next (s.setWarp c k w)) ∧
  (∀ o s c k w, Issues s c k w (.brAll o) → (∃ l, Live w l ∧ ¬ LaneTrue w o.var l) → exec (.brAll o) s = .next (s.setWarp c k w)) ∧
  (∀ o s c k w, Issues s c k w (.brU o) → (∃ l, Live w l ∧ ¬ LaneTrue w o.var l) →
    ((∀ l, Live w l → ¬ LaneTrue w o.var l) → exec (.brU o) s = .next (s.setWarp c k w)) ∧
    ((∃ l, Live w l ∧ LaneTrue w o.var l) → Guarded w o.guard → exec (.brU o) s = .next (s.failWhole c k 8 ⟨0x080, 0, 0⟩ 3))) ∧
  ∀ o s c k w, Issues s c k w (.call o) →
    (Guarded w o.guard → TargetOk (offTarget w o) → ∃ x,
      exec (.call o) s = .next (s.setWarp c k { w with flight := w.flight ++ [x], ctl := .branch (offTarget w o) false }) ∧
      Lands w x 3 1 (.s 63) .none ∧ x.scalar = w.pc + 32) ∧
    (Guarded w o.guard → (offTarget w o).toNat % 32 ≠ 0 → exec (.call o) s = .next (s.failWhole c k 8 ⟨0x083, (offTarget w o).toNat, 0⟩ 3)) ∧
    (Guarded w o.guard → (offTarget w o).toNat % 32 = 0 → ¬ TargetOk (offTarget w o) →
      exec (.call o) s = .next (s.failWhole c k 8 ⟨0x084, (offTarget w o).toNat, 0⟩ 3)) ∧
    (¬ Guarded w o.guard → exec (.call o) s = .next (s.setWarp c k w))

/-- R16, R222 and R224: the successor of a bundle. A taken branch leaves the levels that its target is outside of; without one, a level that ends
here goes round or is popped; the next bundle is due GAP ticks later. R221, R223, R225 and R364: `loop` pushes a level, or branches past its end
when the count is 0; its causes; `lpop` pops one. -/
def Obligations.LoopsAndSuccessors : Prop :=
  ((∀ b t ls, successor b (.branch t false) ls = (ls, t)) ∧
  (∀ b t ls, successor b (.branch t true) ls = (ls.dropWhile fun l => decide (t < l.start ∨ l.stop < t), t)) ∧
  (∀ b, successor b .none [] = ([], b + 32)) ∧
  (∀ b l ls, l.stop ≠ b → successor b .none (l :: ls) = (l :: ls, b + 32)) ∧
  (∀ b l ls, l.stop = b → 1 < l.count.toNat → successor b .none (l :: ls) = ({ l with first := false, count := l.count - 1 } :: ls, l.start)) ∧
  (∀ b l ls, l.stop = b → l.count.toNat ≤ 1 → successor b .none (l :: ls) = successor b .none ls) ∧
  ∀ s c k w, s.warp? c k = some w → w.ctl ≠ .done →
    (s.advance c k).warp? c k = some { w with
      loops := (successor w.pc w.ctl w.loops).1
      pc := (successor w.pc w.ctl w.loops).2
      due := w.tick + w.gap
      ctl := .none
      replay := none
      brt := none
      stretched := false
      holdNext := w.holdNext && w.priv } ∧ Quiet s (s.advance c k) c k) ∧
  ((∀ o s c k w, Issues s c k w (.loop o) →
    let n := (w.s o.sreg.val).toNat % 2 ^ 32
    let e := offTarget w o
    (¬ Guarded w o.guard → exec (.loop o) s = .next (s.setWarp c k w)) ∧
    (Guarded w o.guard → n = 0 → TargetOk (e + 32) → exec (.loop o) s = .next (s.setWarp c k { w with ctl := .branch (e + 32) true })) ∧
    (Guarded w o.guard → n ≠ 0 → w.loops.length < 4 → (∀ l, w.loops.head? = some l → l.stop ≠ w.pc) →
      exec (.loop o) s = .next (s.setWarp c k { w with loops := ⟨w.pc + 32, e, BitVec.ofNat 32 n, true⟩ :: w.loops })) ∧
    (Guarded w o.guard → n ≠ 0 → 4 ≤ w.loops.length → exec (.loop o) s = .next (s.failWhole c k 8 ⟨0x081, 0, 0⟩ 3)) ∧
    (Guarded w o.guard → n ≠ 0 → w.loops.length < 4 → (∃ l, w.loops.head? = some l ∧ l.stop = w.pc) →
      exec (.loop o) s = .next (s.failWhole c k 8 ⟨0x085, 0, 0⟩ 3))) ∧
  ∀ o s c k w, Issues s c k w (.lpop o) →
    (¬ Guarded w o.guard → exec (.lpop o) s = .next s) ∧
    (Guarded w o.guard → w.loops = [] → exec (.lpop o) s = .next (s.failWhole c k 8 ⟨0x082, 0, 0⟩ 3)) ∧
    (Guarded w o.guard → w.loops ≠ [] → ∃ t, exec (.lpop o) s = .next t ∧ t.warp? c k = some { w with loops := w.loops.tail } ∧ Quiet s t c k))

/-- R55, R216, R226 and R227: `wait` compares each named flag, in ascending order, with its threshold code: 0, 1, 2 or E for the first nine, 0 for
the others. It completes when every one is at most its threshold, else the warp holds before the bundle. `ftest` lands a comparison of one flag. -/
def Obligations.FlagWaits : Prop :=
  (∀ o s c k w, Issues s c k w (.wait o) → (∀ b, w.stop ≠ .mdone b) →
    let named := (List.range 16).filter fun i => o.mask.getLsbD i
    let code := fun (j : Nat) => o.codes.toNat / 4 ^ j % 4
    let met : Prop := ∀ j f, named[j]? = some f → w.seen f ≤ if 9 ≤ j then 0 else if code j = 3 then o.e.toNat else code j
    (met → ∃ t, exec (.wait o) s = .next t ∧ t.warp? c k = some w ∧ Quiet s t c k) ∧
    (¬ met → ∃ t, exec (.wait o) s = .next t ∧ HeldBefore t c k w ∧ Quiet s t c k)) ∧
  (∀ o s c k w b, Issues s c k w (.wait o) → w.stop = .mdone b →
    ∃ t, exec (.wait o) s = .next t ∧ t.warp? c k = some { w with stop := .run } ∧ Quiet s t c k) ∧
  ∀ o s c k w, Issues s c k w (.ftest o) → o.sub.val < 2 →
    (Guarded w o.guard → ∃ y, CLands s c k w (.ftest o) (.sp (o.d.val % 8)) y ∧ (y = 0 ∨ y = 1) ∧
      (y = 1 ↔ if o.sub = 0 then w.seen o.a.val ≤ csN o else csN o < w.seen o.a.val)) ∧
    (¬ Guarded w o.guard → exec (.ftest o) s = .next (s.setWarp c k w))

/-- R228 to R231: once the arrivals whose timeouts have passed are withdrawn, an arrival at a barrier of the block (`bar`) or of its cluster gang (`cbar`) joins the set. When the set is complete the barrier is
emptied, its generation advances and the warp goes on with predicate 1, written at once; when an explicit count can no longer be reached the warp will trap; else it
holds before its successor. A form that differs raises BARRIER_MISMATCH, and `cbar` outside a cluster gang raises 0x1C2. -/
def Obligations.BarrierArrivals : Prop :=
  ∀ p ∈ ([(.bar, false), (.cbar, true)] : List ((CSOp → Instr) × Bool)), ∀ o s c k w, Issues s c k w (p.1 o) → k < 32 → w.hold = none →
    let u := s.lapse p.2 w.block o.sub.val
    let v := u.barrier p.2 w.block o.sub.val
    let n := (w.s o.a.val).toNat % 2 ^ 32
    let form := if n = 0 then none else some n
    let ids := v.arrived ++ [warpId c k]
    let part := u.partOf p.2 w.block
    let full : Prop := if n = 0 then ∀ q ∈ part, warpId q.1 q.2 ∈ ids ∨ u.alive q = false else n ≤ ids.length
    let lost : Prop := n ≠ 0 ∧ ids.length + (part.filter fun q => !ids.contains (warpId q.1 q.2) && u.alive q).length < n
    let tmo := (w.s o.b.val).toNat % 2 ^ 32
    (¬ Guarded w o.guard → exec (p.1 o) s = .next s) ∧
    (Guarded w o.guard → p.2 = true → s.inCluster w = false → exec (p.1 o) s = .next (s.failWhole c k 8 ⟨0x1C2, 0, 0⟩ 3)) ∧
    (Guarded w o.guard → (p.2 = true → s.inCluster w = true) → v.form ≠ none → v.form ≠ some form →
      exec (p.1 o) s = .next (s.failWhole c k 8 ⟨0x1C1, 0, 0⟩ 3)) ∧
    (Guarded w o.guard → (s.block? w.block).isSome → (p.2 = true → s.inCluster w = true) → v.form = none ∨ v.form = some form →
      ∃ t w', exec (p.1 o) s = .next t ∧ t.warp? c k = some w' ∧ SameRegs { w with spred := w'.spred } w' ∧ w'.flight = w.flight ∧ t.hbm = s.hbm ∧ t.host = s.host ∧
        (full → w'.hold = none ∧ w'.sp (o.d.val % 8) = true ∧ (∀ r < 8, r ≠ o.d.val % 8 → w'.sp r = w.sp r) ∧ t.barrier p.2 w.block o.sub.val = ⟨[], none, (v.gen + 1) % 2 ^ 32⟩) ∧
        (¬ full → w'.spred = w.spred) ∧ (¬ full → lost → w'.hold = some .barTrap) ∧
        (¬ full → ¬ lost → w'.hold = some (.bar p.2 o.sub.val (o.d.val % 8) (if tmo = 0 then none else some (s.cycle + tmo))) ∧
          t.barrier p.2 w.block o.sub.val = ⟨ids, some form, v.gen⟩))

/-- R171, R216, R232 and R233: `ainit` writes TARGET and clears COUNT, GEN and the last four bytes of an arrival word; `await` completes when GEN
differs from B, and holds while it is equal, noting the word and the GEN. R234 to R236: `mwait` reads its bytes at the home when it is first due and
nothing of its own warp stands before the read. When the condition holds it completes with predicate 1 and empties the L1; else the warp holds, a
monitor on its bytes where the address may use one and the slice has room, its next poll 256 cycles later where not. When its hold has ended, it lands
the predicate with which it ended. -/
def Obligations.WordWaits : Prop :=
  ((∀ o s c k w, Issues s c k w (.ainit o) →
    let a := (w.s o.a.val).toNat
    let n := match o.imm with | some i => i.toNat | none => (w.s o.b.val).toNat % 2 ^ 32
    (¬ Guarded w o.guard → exec (.ainit o) s = .next s) ∧
    (Guarded w o.guard → a % 16 ≠ 0 → exec (.ainit o) s = .next (s.failWhole c k 8 ⟨0x140, a, 0⟩ 3)) ∧
    (Guarded w o.guard → a % 16 = 0 → signed64 a < 0 ∨ s.allocOf w < signed64 a + 16 →
      exec (.ainit o) s = .next (s.failWhole c k 8 ⟨0x141, a, 0⟩ 3)) ∧
    (Guarded w o.guard → a % 16 = 0 → 0 ≤ signed64 a → signed64 a + 16 ≤ s.allocOf w →
      ∃ t, exec (.ainit o) s = .next t ∧ t.warp? c k = some w ∧ Frame s t c k ∧
        (∀ i < 16, spByte t w.block (a + i) = if i < 4 then n / 256 ^ i % 256 else 0) ∧
        ∀ b x, b ≠ w.block ∨ x < a ∨ a + 16 ≤ x → spByte t b x = spByte s b x)) ∧
  (∀ o s c k w, Issues s c k w (.await o) → (∀ b, w.stop ≠ .mdone b) → awaitCheck o c k s = none →
    let met : Prop := ¬ Guarded w o.guard ∨ s.spGet w.block (w.s o.a.val).toNat 16 / 2 ^ 64 % 2 ^ 32 ≠ (w.s o.b.val).toNat % 2 ^ 32
    (met → ∃ t, exec (.await o) s = .next t ∧ t.warp? c k = some w ∧ Quiet s t c k) ∧
    (¬ met → ∃ t w', exec (.await o) s = .next t ∧ HeldBefore t c k w ∧ Quiet s t c k ∧ t.warp? c k = some w' ∧
      w'.awaits = some ((w.s o.a.val).toNat, (w.s o.b.val).toNat % 2 ^ 32))) ∧
  ∀ o s c k w b, Issues s c k w (.await o) → w.stop = .mdone b → Guarded w o.guard →
    ∃ t, exec (.await o) s = .next t ∧ t.warp? c k = some { w with stop := .run } ∧ Quiet s t c k) ∧
  (∀ o s c k w q e, Issues s c k w (.mwait o) → chkMwait o c k s = none → w.stop = .run → Guarded w o.guard →
    s.place c w .read (w.s o.a.val).toNat = some (q, e) →
    let n := if o.sub.val / 8 = 1 then 8 else 4
    let dl := if (w.s (o.a.val + 1)).toNat = 0 then none else some (s.cycle + (w.s (o.a.val + 1)).toNat)
    let first : Prop := (s.core c).fifoWrites q.pa.line (s.core c).next = true ∨ s.readsFirst c k w q.pa n = true
    let x := (s.homeGet q.pa n 0 (352 + c)).1
    let v := (w.s o.b.val).toNat % 2 ^ (8 * n)
    let met : Prop := match o.sub.val % 8 with
      | 0 => x = v
      | 1 => x ≠ v
      | 2 => signExt x (8 * n) < signExt v (8 * n)
      | 3 => signExt v (8 * n) ≤ signExt x (8 * n)
      | 4 => x < v
      | _ => v ≤ x
    let used := (s.monitors.filter fun m => sliceOf m.pa = sliceOf q.pa.addr).length
    ∃ t, exec (.mwait o) s = .next t ∧ (s.localAddr q.pa = some q.pa.addr → x = s.devGet q.pa.addr n) ∧
      (first → HeldBefore t c k w ∧ ∃ w', t.warp? c k = some w' ∧ w'.stop = .before dl 256 s.cycle false) ∧
      (¬ first → met → ∃ w' y, t.warp? c k = some w' ∧ SameRegs w w' ∧ w'.stop = .run ∧ w'.flight = w.flight ++ [y] ∧
        Lands w y 3 1 (.sp (o.d.val % 8)) .none ∧ y.scalar = 1 ∧ (t.core c).l1 = []) ∧
      (¬ first → ¬ met → HeldBefore t c k w ∧
        (q.pa.space = .hbm ∧ q.ms = false ∧ q.pod = false → Unlogged s → used < 256 →
          t.monitors = s.monitors ++ [⟨c, k, q.pa.addr, n, o.sub.val % 8, w.s o.b.val, dl⟩]) ∧
        (Unlogged s → ¬ (q.pa.space = .hbm ∧ q.ms = false ∧ q.pod = false) ∨ 256 ≤ used →
          t.monitors = s.monitors ∧ ∃ w', t.warp? c k = some w' ∧ w'.stop = .before dl 512 (s.cycle + 256) false))) ∧
  (∀ o s c k w b, Issues s c k w (.mwait o) → w.stop = .mdone b → Guarded w o.guard →
    ∃ t y, exec (.mwait o) s = .next t ∧ t.warp? c k = some { w with stop := .run, flight := w.flight ++ [y] } ∧ Quiet s t c k ∧
      Lands w y 3 1 (.sp (o.d.val % 8)) .none ∧ y.scalar = if b then 1 else 0) ∧
  ∀ o s c k w, Issues s c k w (.mwait o) → w.stop = .run → ¬ Guarded w o.guard →
    ∃ t, exec (.mwait o) s = .next t ∧ t.warp? c k = some w ∧ Quiet s t c k

/-- R237 and R238: `lexit` and `mset` note the lanes that leave at the end of the tick; `mget` lands 64 bits of the mask, or the summary word. R243
and R30: `exit` ends the warp, with no lane live, nothing in flight and no hold; `yield` notes that it gives its position up; `nop` does nothing. -/
def Obligations.LaneMaskAndExit : Prop :=
  ((∀ o s c k w, Issues s c k w (.lexit o) →
    (¬ Guarded w o.guard → exec (.lexit o) s = .next (s.setWarp c k w)) ∧
    (Guarded w o.guard → w.k ≤ 32 → ∃ r, exec (.lexit o) s = .next (s.setWarp c k { w with retire := r }) ∧
      ∀ l < 1024, (r.getLsbD l = true ↔ w.retire.getLsbD l = true ∨
        Live w l ∧ LaneTrue w ⟨decide (o.sub.val % 2 = 1), Fin.ofNat 8 o.a.val⟩ l))) ∧
  (∀ o s c k w, Issues s c k w (.mset o) → csN o < 16 →
    (¬ Guarded w o.guard → exec (.mset o) s = .next (s.setWarp c k w)) ∧
    (Guarded w o.guard → ∃ r, exec (.mset o) s = .next (s.setWarp c k { w with retire := r }) ∧
      ∀ l < 1024, (r.getLsbD l = true ↔ w.retire.getLsbD l = true ∨ (l / 64 = csN o ∧ (w.s o.a.val).getLsbD (l % 64) = false)))) ∧
  ∀ o s c k w, Issues s c k w (.mget o) → csN o ≤ 16 →
    (¬ Guarded w o.guard → exec (.mget o) s = .next (s.setWarp c k w)) ∧
    (Guarded w o.guard → ∃ y, CLands s c k w (.mget o) (.s o.d.val) y ∧
      (csN o < 16 → ∀ j < 64, y.getLsbD j = w.mask.getLsbD (64 * csN o + j)) ∧
      (csN o = 16 → ∀ j < 64, (y.getLsbD j = true ↔ j < w.k ∧ ∃ i < 32, w.mask.getLsbD (32 * j + i) = true)))) ∧
  ((∀ o s c k w, Issues s c k w (.exit o) →
    (¬ Guarded w o.guard → exec (.exit o) s = .next s) ∧
    (Guarded w o.guard → w.stop ≠ .ended → ∃ t w', exec (.exit o) s = .next t ∧ t.warp? c k = some w' ∧ w'.stop = .ended ∧ w'.mask = 0 ∧
      w'.flight = [] ∧ w'.hold = none ∧ w'.trap = none ∧ w'.vregs = w.vregs ∧ w'.sregs = w.sregs ∧ w'.flags = w.flags ∧
      t.hbm = s.hbm ∧ t.host = s.host ∧ (∀ m ∈ t.monitors, ¬ (m.core = c ∧ m.slot = k)))) ∧
  (∀ o s c k w, Issues s c k w (.yield o) →
    (Guarded w o.guard → exec (.yield o) s = .next (s.setWarp c k { w with yielded := true })) ∧
    (¬ Guarded w o.guard → exec (.yield o) s = .next (s.setWarp c k w))) ∧
  ∀ o s c k w, Issues s c k w (.nop o) → exec (.nop o) s = .next (s.setWarp c k w))

/-- R239, R240, R293, R299 and R319: `tsub` places a release at `.d` and an enqueue behind it in its core's buffer, or with its card while the task is
speculative or enqueues held before its commit are still to go, which is the model's reading (log 54); it denies a queue that is not set up or that
belongs neither to the task's region nor to one below it. `targ` takes the next record of the task's chunk, or reports that there is none. -/
def Obligations.TaskOperations : Prop :=
  (∀ o s c k w, Issues s c k w (.tsub o) → chkTsub o c k s = none → waitTsub o c k s = none → Guarded w o.guard →
    let q := (w.s o.a.val).toNat % 4096
    (s.buffers w.block = false → ∃ t w' m, exec (.tsub o) s = .next t ∧ t.warp? c k = some w' ∧ Quiet s t c k ∧ SameRegs w w' ∧
      (t.core c).markers = (s.core c).markers ++ [m] ∧ m.scope = .d ∧ m.slot = k ∧
      (t.core c).enq = (s.core c).enq ++ [⟨q, w.s o.b.val, some m.seq, c, k, m.wseq, false⟩] ∧ t.cards = s.cards) ∧
    (∀ card, s.buffers w.block = true → s.cardOfBlock w.block = some card → ∃ t w' m, exec (.tsub o) s = .next t ∧ t.warp? c k = some w' ∧
      Quiet s t c k ∧ SameRegs w w' ∧ (t.core c).markers = (s.core c).markers ++ [m] ∧ m.scope = .d ∧ m.slot = k ∧
      (t.core c).enq = (s.core c).enq ∧
      t.cards = s.cards.map fun x => if x.id = card.id then { x with buffered := x.buffered ++ [⟨q, w.s o.b.val, some m.seq, c, k, m.wseq, false⟩] } else x)) ∧
  (∀ o s c k w, Issues s c k w (.tsub o) → ¬ Guarded w o.guard → exec (.tsub o) s = .next s) ∧
  (∀ o s c k w, Issues s c k w (.tsub o) → Guarded w o.guard → (w.s o.b.val).toNat % 64 ≠ 0 →
    exec (.tsub o) s = .next (s.failWhole c k 8 ⟨0x140, (w.s o.b.val).toNat, 0⟩ 3)) ∧
  (∀ o s c k w, Issues s c k w (.tsub o) → Guarded w o.guard → (w.s o.b.val).toNat % 64 = 0 → 4096 ≤ (w.s o.a.val).toNat →
    exec (.tsub o) s = .next (s.failWhole c k 8 ⟨0x200, 0, 0⟩ 3)) ∧
  (∀ o s c k w card, Issues s c k w (.tsub o) → Guarded w o.guard → (w.s o.b.val).toNat % 64 = 0 → (w.s o.a.val).toNat < 4096 →
    s.cardOfBlock w.block = some card → (w.s o.a.val).toNat ∉ s.queues ∨ card.rcb ∉ s.rcbPath 8 (s.queue (w.s o.a.val).toNat).rcb →
    exec (.tsub o) s = .next (s.failWhole c k 8 ⟨0x200, 0, 0⟩ 3)) ∧
  ∀ o s c k w b x card, Issues s c k w (.targ o) → s.block? w.block = some b → FMap.find s.tasks b.task = some x → s.card? x.card = some card →
    (¬ Guarded w o.guard → exec (.targ o) s = .next s) ∧
    (Guarded w o.guard → ∃ t y z, exec (.targ o) s = .next t ∧ t.warp? c k = some { w with flight := w.flight ++ [y, z] } ∧ Quiet s t c k ∧
      Lands w y 3 1 (.s o.d.val) .none ∧ Lands w z 3 1 (.sp (o.a.val % 8)) .none ∧
      (x.taken < x.count → y.scalar = card.argBase + BitVec.ofNat 64 (card.argStride * (x.first + x.taken)) ∧ z.scalar = 1 ∧
        FMap.find t.tasks b.task = some { x with taken := x.taken + 1, lastTake := some (s.cycle, b.grank, w.pipe) }) ∧
      (x.count ≤ x.taken → y.scalar = 0 ∧ z.scalar = 0 ∧ t.tasks = s.tasks))

/-- R215, R241, R242, R329 and R332: `trap`, `brk` and `sysc` of a task trap at the end of their tick, with the successor already chosen; those of
a handler escalate, but for `sysc`, which holds its successor until firmware answers. -/
def Obligations.TrapInstructions : Prop :=
  (∀ p ∈ ([(.trap, fun o => (0x240 + csN o, 0)), (.brk, fun o => (0x280 + csN o, 0)), (.sysc, fun o => (0x270, csN o))] :
      List ((CSOp → Instr) × (CSOp → Nat × Nat))),
    ∀ o s c k w, Issues s c k w (p.1 o) →
      let next := if w.ctl = .done then w.pc else (successor w.pc w.ctl w.loops).2
      let u := (s.advance c k).endTick c k
      (¬ Guarded w o.guard → exec (p.1 o) s = .next s) ∧
      (Guarded w o.guard → w.priv = false → u.alive (c, k) = true → exec (p.1 o) s = .next (u.takeTrap c k
        { cause := (p.2 o).1, slot := 3, faddr := 0, info := (p.2 o).2, tn := w.tick + 1, rpc := next,
          tib := w.gap - 1, replay := u.presentAt c w next, brt := none, defer := false, epc := next }))) ∧
  (∀ p ∈ ([(.trap, fun o => 0x240 + csN o), (.brk, fun o => 0x280 + csN o)] : List ((CSOp → Instr) × (CSOp → Nat))),
    ∀ o s c k w, Issues s c k w (p.1 o) → Guarded w o.guard → w.priv = true →
      let u := (s.advance c k).endTick c k
      u.alive (c, k) = true → exec (p.1 o) s = .next (u.escalate c k (p.2 o))) ∧
  ∀ o s c k w, Issues s c k w (.sysc o) → Guarded w o.guard → w.priv = true →
    exec (.sysc o) s = .next (s.setWarp c k { w with hold := some (.sysc (csN o) none), since := s.cycle })

/-- R244, R246 and R247 with R14 and R15: `ipf` asks for the lines it names; `icinv.c` and `icinv.d` hold their successor until one core or every core
has invalidated; `gsr` lands a special register as of the issue tick, and `ssr` lands a value in one. -/
def Obligations.SystemRegisterOperations : Prop :=
  (∀ o s c k w, Issues s c k w (.ipf o) →
    let a := match o.imm with | some i => w.pc + BitVec.ofInt 64 (32 * i.toInt) | none => w.s o.a.val
    let asid := (s.ctxOf w.block c).1
    (¬ Guarded w o.guard → exec (.ipf o) s = .next s) ∧
    (Guarded w o.guard → ∃ t, exec (.ipf o) s = .next t ∧ t.warp? c k = some w ∧ Quiet s t c k ∧
      ∀ p, p ∈ (t.core c).iwant ↔ p ∈ (s.core c).iwant ∨ ∃ j ≤ o.sub.val, p = (asid, a.toNat / 128 * 128 + 128 * j))) ∧
  (∀ p ∈ ([(.icinvC, fun _ c => [c]), (.icinvD, fun s _ => s.cores.map (·.1))] : List ((CSOp → Instr) × (State → Nat → List Nat))),
    ∀ o s c k w, Issues s c k w (p.1 o) →
      (¬ Guarded w o.guard → exec (p.1 o) s = .next s) ∧
      (Guarded w o.guard → exec (p.1 o) s = .next (s.setWarp c k { w with hold := some (.icinv (p.2 s c)), since := s.cycle }))) ∧
  (∀ o s c k w b, Issues s c k w (.gsr o) → s.block? w.block = some b → csN o < 12 →
    (¬ Guarded w o.guard → exec (.gsr o) s = .next s) ∧
    (Guarded w o.guard → CLands s c k w (.gsr o) (.s o.d.val) (match csN o with
      | 0 => BitVec.ofNat 64 (k + w.windex * 2 ^ 8 + w.role * 2 ^ 16 + b.grank * 2 ^ 24 + c / 8 * 2 ^ 32 + c * 2 ^ 40)
      | 1 => BitVec.ofNat 64 ((w.k - 1) + (w.budget / 8 - 1) * 2 ^ 8 + b.size / 1024 * 2 ^ 16 + w.laneLimit * 2 ^ 32)
      | 2 => BitVec.ofNat 64 w.tick
      | 3 => BitVec.ofNat 64 (w.tickStart - (s.core c).cycle0)
      | 4 => w.fel
      | 5 => w.fes
      | 6 => w.fen
      | 7 => BitVec.ofNat 64 w.loops.length
      | 8 => w.tsa
      | 9 => w.cause
      | 10 => w.epc
      | _ => w.imask))) ∧
  ∀ o s c k w, Issues s c k w (.ssr o) →
    (Guarded w o.guard → CLands s c k w (.ssr o) (.sr (csN o)) (w.s o.a.val)) ∧
    (¬ Guarded w o.guard → exec (.ssr o) s = .next (s.setWarp c k w))

/-- R339 to R341: `hret` in a handler restores the scalars, predicates, log, loop stack and mask that the trap save area holds, leaves privilege H
and re-enters the timeline GAP ticks on, with the saved results still to land; vector registers, flags and `sr.tsa` stay. With every lane
retired the warp ends; an area that is not valid escalates, with cause 0, which is the model's choice (log 97). A barrier arrival of the interrupted code
that ended meanwhile gives its predicate. -/
def Obligations.HandlerReturn : Prop :=
  ∀ o s c k w, Issues s c k w (.hret o) → (∀ e ∈ (s.core c).fifo, e.slot ≠ k) →
    let cx := s.ctxOf w.block c
    let sum := (List.range w.k).filter fun i => (summaryOf w.entryMask w.k).testBit i
    (¬ Guarded w o.guard → exec (.hret o) s = .next s) ∧
    (Guarded w o.guard → s.readArea c cx.1 cx.2 w.tsa.toNat sum.length = none → exec (.hret o) s = .next (s.escalate c k 0)) ∧
    ∀ img, Guarded w o.guard → s.readArea c cx.1 cx.2 w.tsa.toNat sum.length = some img →
      (areaValid img w.epc = false → exec (.hret o) s = .next (s.escalate c k 0)) ∧
      ∀ recs, areaValid img w.epc = true → parseRecords img sum (bits (word img 0) 55 48) 0x800 = some recs →
        let mask : LaneMask := BitVec.ofNat 1024 (img / 2 ^ (8 * 0x300)) &&& w.entryMask
        (mask = 0 → ∃ t w', exec (.hret o) s = .next t ∧ t.warp? c k = some w' ∧ (w.stop ≠ .ended → w'.stop = .ended)) ∧
        (mask ≠ 0 → ∃ w', exec (.hret o) s = .next (s.setWarp c k w') ∧ w'.priv = false ∧ w'.mask = mask ∧
          (∀ r, 1 ≤ r → r < 64 → w'.s r = BitVec.ofNat 64 (word img (0x100 + 8 * r))) ∧
          w'.fel = BitVec.ofNat 64 (word img 0xC8) ∧ w'.fes = BitVec.ofNat 64 (word img 0xD0) ∧
          (∀ r, 0 < r → r < 8 → (∀ p, w.kept ≠ some (.barDone r p)) → w'.sp r = (word img 0xC0).testBit (8 + r)) ∧
          (∀ r l, 0 < r → r < 8 → l < 1024 → w'.vp r l = img.testBit (8 * 0x380 + 1024 * r + l)) ∧
          w'.loops = areaLoops img ∧ w'.vregs = w.vregs ∧ w'.flags = w.flags ∧ w'.tsa = w.tsa ∧ w'.fen = w.fen ∧ w'.tick = w.tick ∧
          w'.pc = w.epc ∧ ((∀ d p, w.kept ≠ some (.barDone d p)) → w'.hold = w.kept) ∧
          (∀ d p, w.kept = some (.barDone d p) → w'.hold = none ∧ (0 < d → d < 8 → w'.sp d = p)) ∧ w'.stretched = (decide (w.epc.toNat = word img 8) && w.keptStretch) ∧ w'.step = (word img 0).testBit 43 ∧
          (w.epc.toNat = word img 8 → w'.due = w.tick + w.gap + bits (word img 0) 21 16 ∧ w'.replay = some (bits (word img 0) 47 44)) ∧
          (w.epc.toNat ≠ word img 8 → w'.due = w.tick + w.gap ∧ w'.replay = none ∧ w'.brt = none) ∧
          ∀ x ∈ recs, (∀ r, x.dest = .s r ∨ x.dest = .sp r → ∃ y ∈ w'.flight, y.dest = x.dest ∧ y.scalar = x.scalar ∧
              y.land = w.tick + w.gap + x.land ∧ y.evs = x.evs) ∧
            (∀ r, x.dest = .v r ∨ x.dest = .vp r → (∃ p ∈ x.lanes, mask.getLsbD p.1 = true) → ∃ y ∈ w'.flight, y.dest = x.dest ∧
              y.lanes = x.lanes.filter (fun p => mask.getLsbD p.1) ∧ y.land = w.tick + w.gap + x.land ∧ y.evs = x.evs))

/-! ## The timeline and traps -/

/-- R14, R16, R18, R30 to R32 and R237: the end of a tick. Each result that lands writes its register or predicate, the higher slot and then the later issue
winning a lane; everything else keeps its value; retiring lanes leave the mask, and the next tick begins. An `ssr` lands first; then the event of the
lowest slot and lane is put into the log while that is empty, before those of engine operations, and every class that is seen sets its bit. -/
def Obligations.TickEnd : Prop :=
  ∀ (w : Warp) (now : Nat), (∀ x, Now w x → (∀ p ∈ x.lanes, p.1 < 1024) ∧ (x.lanes.map (·.1)).Nodup) →
    let w' := w.endTick now
    w'.tick = w.tick + 1 ∧ w'.tickStart = now ∧ w'.opened = false ∧ w'.flight = w.flight.filter (fun x => !decide (x.land ≤ w.tick)) ∧
    w'.mask = w.mask &&& ~~~w.retire ∧ w'.retire = 0 ∧ w'.pc = w.pc ∧ w'.loops = w.loops ∧
    (∀ x r l v, Now w x → x.dest = .v r → FMap.find x.lanes l = some v →
      (∀ y, Now w y → y ≠ x → y.dest = .v r → (FMap.find y.lanes l).isSome → After x y) → w'.v r l = v) ∧
    (∀ r l, l < 1024 → (∀ x, Now w x → x.dest = .v r → FMap.find x.lanes l = none) → w'.v r l = w.v r l) ∧
    (∀ x r, Now w x → x.dest = .s r → (∀ y, Now w y → y ≠ x → y.dest = .s r → After x y) → w'.s r = if r = 0 then 0 else x.scalar) ∧
    (∀ r, (∀ x, Now w x → x.dest ≠ .s r) → w'.s r = w.s r) ∧
    (∀ x r l v, 0 < r → r < 8 → Now w x → x.dest = .vp r → FMap.find x.lanes l = some v →
      (∀ y, Now w y → y ≠ x → y.dest = .vp r → (FMap.find y.lanes l).isSome → After x y) → w'.vp r l = (v != 0)) ∧
    (∀ r l, r < 8 → l < 1024 → (∀ x, Now w x → x.dest = .vp r → FMap.find x.lanes l = none) →
      (∀ x i, Now w x → x.dest = .vp i → i < 8) → w'.vp r l = w.vp r l) ∧
    (∀ x r, 0 < r → r < 8 → Now w x → x.dest = .sp r → (∀ y, Now w y → y ≠ x → y.dest = .sp r → After x y) →
      (∀ y i, Now w y → y.dest = .sp i → i < 8) → w'.sp r = x.scalar.getLsbD 0) ∧
    (∀ r, (∀ x, Now w x → x.dest ≠ .sp r) → (∀ y i, Now w y → y.dest = .sp i → i < 8) → w'.sp r = w.sp r) ∧
    ((∀ x, Now w x → x.dec = none) → w'.flags = w.flags) ∧
    (let last := fun (x : Landing) => Now w x ∧ ∀ y, Now w y → y ≠ x → y.dest = x.dest → After x y
    let engine := w.pendEv.filter fun e => e.1 ≤ w.tick && (if w'.fen.getLsbD 0 then e.2.2.1 else e.2.2.1 &&& 0x7F) != 0
    (∀ x, last x → (x.dest = .sr 6 → w'.fen = x.scalar &&& 1) ∧ (x.dest = .sr 8 → w'.tsa = x.scalar) ∧ (x.dest = .sr 10 → w'.epc = x.scalar)) ∧
    ((∀ x, Now w x → x.dest ≠ .sr 6) → w'.fen = w.fen) ∧ ((∀ x, Now w x → x.dest ≠ .sr 8) → w'.tsa = w.tsa) ∧
    ((∀ x, Now w x → x.dest ≠ .sr 10) → w'.epc = w.epc) ∧
    (∀ c < 64, w'.fes.getLsbD c = true ↔
      (w.fes.getLsbD c = true ∧ ∀ x, Now w x → x.dest = .sr 5 → 8 ≤ c ∨ x.scalar.getLsbD c = false) ∨
      (c < 8 ∧ ((∃ n l e a, EventNow w w'.fen n l e a ∧ e.getLsbD c = true) ∨
        ∃ p ∈ engine, p.2.2.1.getLsbD c = true ∧ (c = 7 → w'.fen.getLsbD 0 = true)))) ∧
    ∀ F, ((∀ x, Now w x → x.dest ≠ .sr 4) ∧ F = w.fel) ∨ (∃ x, last x ∧ x.dest = .sr 4 ∧ F = x.scalar &&& 0xFC00_7FFF_FFFF_FFFF) →
      (F.getLsbD 63 = true → w'.fel = F) ∧ ((∀ n l e a, ¬ EventNow w w'.fen n l e a) → engine = [] → w'.fel = F) ∧
      (F.getLsbD 63 = false → ∀ n l e a i, EventNow w w'.fen n l e a →
        (∀ m j d b, EventNow w w'.fen m j d b → (m, j, d, b) = (n, l, e, a) ∨ n < m ∨ (n = m ∧ l < j)) → Lowest e i →
        w'.fel = BitVec.ofNat 64 (2 ^ 63 + i * 2 ^ 60 + n % 4 * 2 ^ 58 + a.toNat / 32 % 2 ^ 47)) ∧
      (F.getLsbD 63 = false → (∀ n l e a, ¬ EventNow w w'.fen n l e a) → ∀ p i, engine.head? = some p →
        Lowest (if w'.fen.getLsbD 0 then p.2.2.1 else p.2.2.1 &&& 0x7F) i →
        w'.fel = BitVec.ofNat 64 (2 ^ 63 + i * 2 ^ 60 + 2 * 2 ^ 58 + p.2.2.2.toNat / 32 % 2 ^ 47)))

/-- R304, R331 to R336 and R341: entering a trap writes the fields of the trap save area, every one with its value, and a record for each result in flight,
less the lanes that a later landing of its tick overwrites; it sets the cause, `sr.epc` and `sr.imask`, empties the loop stack
and the results in flight, enters privilege H at the handler of its task with s1 to s3 loaded, and keeps vector registers, the other scalars, flags, the mask
and the log; when the area cannot be written it escalates, as does every trap in a handler. -/
def Obligations.TrapEntry : Prop :=
  (∀ (s : State) (c k : Nat) (w : Warp) (t : Trap), w.priv = false → s.warp? c k = some w → (∀ m ∈ s.monitors, ¬ (m.core = c ∧ m.slot = k)) →
    let cx := s.ctxOf w.block c
    (s.putFields c cx.1 cx.2 true w.tsa.toNat (w.areaFields t w.summary false true) = none → s.enterTrap c k w t = s.escalate c k t.cause) ∧
    ∀ s1, s.putFields c cx.1 cx.2 true w.tsa.toNat (w.areaFields t w.summary false true) = some s1 →
      ∃ w', (s.enterTrap c k w t).warp? c k = some w' ∧ ((s.enterTrap c k w t).core c).l1 = [] ∧
        w'.priv = true ∧ w'.cause = BitVec.ofNat 64 t.cause ∧ w'.epc = t.epc ∧ w'.imask = BitVec.ofNat 64 w.summary ∧ w'.loops = [] ∧
        w'.flight = [] ∧ w'.tick = t.tn ∧ w'.due = t.tn ∧ w'.stop = .run ∧ w'.hold = none ∧ w'.kept = w.hold ∧ w'.keptStretch = w.stretched ∧
        w'.s 1 = BitVec.ofNat 64 t.cause ∧ w'.s 2 = t.faddr ∧ w'.s 3 = w.tsa ∧ (∀ r, 4 ≤ r → w'.s r = w.s r) ∧
        w'.vregs = w.vregs ∧ w'.vpred = w.vpred ∧ w'.spred = w.spred ∧ w'.flags = w.flags ∧ w'.mask = w.mask ∧ w'.fen = w.fen ∧
        w'.fel = w.fel ∧ w'.fes = w.fes ∧ w'.tsa = w.tsa ∧ w'.entryMask = w.mask ∧ (∀ x, s.taskOf w = some x → w'.pc = x.handler) ∧
        (w.position ≠ none → w'.position = w.position)) ∧
  (∀ (s : State) (c k : Nat) (w : Warp) (t : Trap), s.warp? c k = some w → w.priv = true → s.takeTrap c k t = s.escalate c k t.cause) ∧
  ∀ (w : Warp) (t : Trap) (im : Nat) (p q : Bool), let fs := w.areaFields t im p q
    (∀ f ∈ ([(0x000, 8, 1 + t.tib % 64 * 2 ^ 16 + t.cause % 1024 * 2 ^ 30 + t.slot % 4 * 2 ^ 40 + (if t.defer then 2 ^ 42 else 0) +
        t.replay % 16 * 2 ^ 44 + w.records.length * 2 ^ 48), (0x008, 8, t.rpc.toNat), (0x010, 8, t.faddr.toNat),
      (0x018, 8, match t.brt with | none => 0 | some b => 1 + b.toNat / 32 % 2 ^ 47 * 32), (0x020, 8, im + if p then 2 ^ 32 else 0),
      (0x028, 8, t.tn), (0x030, 8, t.info), (0x0C8, 8, w.fel.toNat), (0x0D0, 8, w.fes.toNat), (0x300, 128, w.mask.toNat), (0x038, 8, 0), (0x058, 8, 0),
      (0x0C0, 8, w.loops.length + (w.spred ||| 1).toNat * 2 ^ 8), (0x0D8, 40, 0), (0x780, 128, 0)] : List (Nat × Nat × Nat)),
      FieldAt fs f.1 f.2.1 f.2.2) ∧
    (∃ m, FieldAt fs 0x040 8 m ∧ ∀ i < 32, m.testBit i = true ↔ ∃ x ∈ w.records, (x.land - t.tn) % 32 = i) ∧
    (q = true → (∀ f < 16, w.flag f < 64) → ∃ m, FieldAt fs 0x048 16 m ∧ ∀ f < 16, m / 64 ^ f % 64 = w.flag f) ∧
    (∀ i < 4, match w.loops.reverse[i]? with
      | some l => FieldAt fs (0x060 + 24 * i) 24 (l.start.toNat + l.stop.toNat * 2 ^ 64 + (l.count.toNat + if l.first then 2 ^ 32 else 0) * 2 ^ 128)
      | none => FieldAt fs (0x060 + 24 * i) 24 0) ∧
    (∃ m, FieldAt fs 0x100 512 m ∧ ∀ r < 64, m / 2 ^ (64 * r) % 2 ^ 64 = (w.s r).toNat) ∧
    (w.k ≤ 32 → ∃ m, FieldAt fs 0x380 1024 m ∧ ∀ r < 8, ∀ l < 1024, m.testBit (1024 * r + l) = if r = 0 then decide (l < 32 * w.k) else w.vp r l) ∧
    (∀ (i : Nat) (x : Landing), w.records[i]? = some x → RecordAt w fs t.tn (0x800 + ((w.records.take i).map (recordSize w)).sum) x) ∧
    w.records.Pairwise (fun x y => x.land ≤ y.land) ∧
    ∀ y ∈ w.flight, (∃ r, y.dest = .v r ∨ y.dest = .s r ∨ y.dest = .vp r ∨ y.dest = .sp r) → ∃ x ∈ w.records, ∃ ls, x = { y with lanes := ls } ∧
      ∀ l, l ∈ ls ↔ l ∈ y.lanes ∧ ¬ ∃ z ∈ w.flight, z.dest = y.dest ∧ z.land = y.land ∧ After z y ∧ (FMap.find z.lanes l.1).isSome

/-! ## Steps of the machine: warps -/

/-- R11, R16 to R18, R21, R24 to R26, R30 and R145: what a warp's own steps do when they may happen: the end of a tick, with the two warps of a pipe
in turn (log 10) and the freeze for a result that is not there, the end of a freeze or of an acceptance wait, both swaps, and freeing a slot or the
tile-engine grant. A step that may not happen changes nothing (log 3). -/
def Obligations.WarpSteps : Prop :=
  (∀ c k s, canBundleIssue c k s = false → exec (.bundleIssue c k) s = .next s) ∧
  (∀ c k s, canResultLand c k s = false → exec (.resultLand c k) s = .next s) ∧
  (∀ c k (s : State) (w p : Warp), s.warp? c k = some w → s.pipePartner c k w = some p → p.ticking s.cycle = true → p.opened = true →
    canBundleIssue c k s = false) ∧
  (∀ c i j (s : State) (a b : Warp) x y, s.pipePartner c i a = some b → s.pipePartner c j b = some a → a.position = some x → b.position = some y → x ≠ y →
    a.ticking s.cycle = true → b.ticking s.cycle = true → a.opened = false → b.opened = false → (s.pipeTurn c i a = true ↔ s.pipeTurn c j b = false)) ∧
  (∀ c k s w, s.warp? c k = some w → w.running = true → w.notBefore ≤ s.cycle →
    (w.opened = true ∧ w.tickStart + w.tickCycles ≤ s.cycle) ∨
      (w.opened = false ∧ w.tick < w.due ∧ w.deferred = [] ∧ s.pipeTurn c k w = true ∧ s.pipeStart c k w + w.tickCycles ≤ s.cycle) →
    (w.unready = true → ∃ t w', exec (.resultLand c k) s = .next t ∧ t.warp? c k = some w' ∧ Quiet s t c k ∧ SameRegs w w' ∧ w'.flight = w.flight ∧
      w'.opened = w.opened ∧ w'.stop = .l1 ∧ w'.since = s.cycle) ∧
    (w.unready = false → (w.endTick s.cycle).mask ≠ 0 →
      ∃ t, exec (.resultLand c k) s = .next t ∧ Quiet s t c k ∧
        t.warp? c k = some ((if w.opened then w else w.unsee (s.pipeStart c k w)).endTick s.cycle)) ∧
    (w.unready = false → (w.endTick s.cycle).mask = 0 →
      ∃ t w', exec (.resultLand c k) s = .next t ∧ t.warp? c k = some w' ∧ w'.stop = .ended ∧ t.hbm = s.hbm)) ∧
  (∀ c k s w, s.warp? c k = some w →
    (∃ n, w.stop = .until n ∧ n ≤ s.cycle) ∨ (w.stop = .l1 ∧ w.unready = false ∧ (w.opened = true ∨ w.tick < w.due)) ∨
      (w.stop = .flag ∧ ∃ o, w.dueOps = some o ∧ flagRoom w (flagsOf [o.m, o.x]) = true) →
    exec (.freezeEnd c k) s = .next (s.setWarp c k { w.moveOn with since := s.cycle })) ∧
  (∀ c k s w, s.warp? c k = some w → w.stop = .accept → (∀ o, w.dueOps = some o →
      waitOf o.m c k s = none ∧ waitOf o.x c k s = none ∧ waitOf o.c c k s = none) →
    exec (.acceptance c k) s = .next (s.setWarp c k { w.moveOn with since := s.cycle })) ∧
  (∀ w : Warp, w.moveOn = { w with ended := none, stop := match w.ended with | some p => .mdone p | none => .run }) ∧
  (∀ p ∈ ([(.warpSwap, canWarpSwap), (.starvationSwap, canStarvationSwap)] :
      List ((Nat → Nat → Nat → Instr) × (Nat → Nat → Nat → State → Bool))),
    ∀ c i j s a b, s.warp? c i = some a → s.warp? c j = some b → p.2 c i j s = true →
      ∃ t, exec (p.1 c i j) s = .next t ∧ t.hbm = s.hbm ∧ t.blocks = s.blocks ∧
        t.warp? c i = some { a with position := none, moved := s.cycle, yielded := false } ∧
        t.warp? c j = some { b with position := a.position, moved := s.cycle, since := s.cycle, notBefore := s.cycle + 4 } ∧
        ∀ d l, (d, l) ≠ (c, i) → (d, l) ≠ (c, j) → t.warp? d l = s.warp? d l) ∧
  (∀ c i j s a b, canWarpSwap c i j s = true → s.warp? c i = some a → s.warp? c j = some b →
    a.position.isSome ∧ b.position = none ∧ (a.opened = false ∨ a.stop ≠ .run) ∧ ∃ e, a.eligibleFrom = some e ∧ e ≤ s.cycle) ∧
  (∀ c i j s a b, canStarvationSwap c i j s = true → s.warp? c i = some a → s.warp? c j = some b →
    a.position.isSome ∧ b.position = none ∧ a.opened = false ∧ b.moved + 16384 ≤ s.cycle) ∧
  (∀ c k s w, s.warp? c k = some w → w.stop = .ended → w.flags = [] → ∃ t, exec (.warpSlotFree c k) s = .next t ∧ t.warp? c k = none ∧
    t.hbm = s.hbm ∧ ∀ b, s.block? w.block = some b → t.block? w.block = some { b with warps := b.warps.erase k, last := (s.core c).next, gone := (c, k, w.first, w.seq) :: b.gone }) ∧
  ∀ c s g, (s.core c).grantee = some g → (∀ o ∈ (s.core c).xops, o.block ≠ g) →
    (s.block? g = none ∨ ∃ b, s.block? g = some b ∧ ∀ j ∈ b.warps, ∀ v, s.warp? b.core j = some v → v.stop = .ended ∧ v.flags = []) →
    ∃ t, exec (.tileGrantRelease c) s = .next t ∧ (t.core c).grantee = none ∧ (t.core c).warps = (s.core c).warps ∧ t.hbm = s.hbm

/-- R216, R229, R230, R235, R236, R244, R246, R354 and R363 to R366: the ends of holds, barrier and monitor timeouts, polls, instruction fetch fills and bank-conflict
snapshots. -/
def Obligations.HoldAndFetchSteps : Prop :=
  (∀ c k s w dl i q a, s.warp? c k = some w → w.stop = .before dl i q a → canHoldEnd c k s = true →
    exec (.holdEnd c k) s = .next (s.setWarp c k { w with stop := .mdone true, since := s.cycle, notBefore := s.cycle + 1, awaits := none })) ∧
  (∀ c k s w dl q a o, s.warp? c k = some w → w.stop = .before dl 0 q a → w.preempt = false → w.dueC = some (.wait o) →
    waitMet o { w with tickStart := s.cycle + 1 } = true →
    canHoldEnd c k s = true) ∧
  (∀ c k s w dl q a o, s.warp? c k = some w → w.stop = .before dl 0 q a → w.preempt = false → w.dueC = some (.await o) →
    s.spGet w.block (w.s o.a.val).toNat 16 / 2 ^ 64 % 2 ^ 32 ≠ (w.s o.b.val).toNat % 2 ^ 32 → canHoldEnd c k s = true) ∧
  (∀ c k s w, s.warp? c k = some w → w.stop = .run → w.hold = some (.icinv []) →
    exec (.holdEnd c k) s = .next (s.setWarp c k { w with hold := none, since := s.cycle, notBefore := s.cycle + 1 })) ∧
  (∀ c k s w x xs, s.warp? c k = some w → w.stop = .run → w.hold = some (.icinv (x :: xs)) →
    ∃ t w', exec (.holdEnd c k) s = .next t ∧ (t.core x).icache = [] ∧ (∀ j v, t.warp? x j = some v → v.fetch = []) ∧ t.warp? c k = some w' ∧
      w'.hold = (if xs = [] then none else some (.icinv xs)) ∧ w'.pc = w.pc ∧ t.hbm = s.hbm) ∧
  (∀ c k s w cl i d n, s.warp? c k = some w → w.preempt = false → w.hold = some (.bar cl i d (some n)) → n < s.cycle → k < 32 →
    ∃ t w', exec (.barrierTimeout c k) s = .next t ∧ t.warp? c k = some w' ∧ w'.hold = none ∧ (0 < d → d < 8 → w'.sp d = false) ∧
      (∀ r < 8, r ≠ d → w'.sp r = w.sp r) ∧ w'.vregs = w.vregs ∧ w'.sregs = w.sregs ∧
      t.hbm = s.hbm ∧ (i < 16 → warpId c k ∉ (t.barrier cl w.block i).arrived)) ∧
  (∀ c k s w o n i q a, s.warp? c k = some w → w.preempt = false → w.mwaiting = some (o, some n, i, q, a) → n < s.cycle →
    ∃ t, exec (.mwaitTimeout c k) s = .next t ∧
      t.warp? c k = some { w with stop := .mdone false, since := s.cycle, notBefore := s.cycle + 1 } ∧ (t.core c).l1 = [] ∧
      Quiet s t c k ∧ t.monitors = s.monitors.filter fun m => !(m.core = c && m.slot = k)) ∧
  (∀ c k s w o dl i n p e, s.warp? c k = some w → w.preempt = false → w.mwaiting = some (o, dl, i, n, false) → n ≤ s.cycle →
    (∀ d, dl = some d → s.cycle ≤ d) → s.place c w .read (w.s o.a.val).toNat = some (p, e) →
    (s.core c).fifoWrites p.pa.line (s.core c).next = false → s.readsFirst c k w p.pa (mwaitN o) = false →
    let met := mwaitCond (o.sub.val % 8) (mwaitN o) (s.homeGet p.pa (mwaitN o) 0 (352 + c)).1 (w.s o.b.val).toNat
    ∃ t w', exec (.mwaitPoll c k) s = .next t ∧ t.warp? c k = some w' ∧ SameRegs w w' ∧
      (met = true → w'.stop = .mdone true ∧ (t.core c).l1 = []) ∧
      (met = false → w'.stop = .before dl i 0 true ∨ w'.stop = .before dl (min (2 * i) 65536) (s.cycle + i) false)) ∧
  (∀ c k s w e, s.warp? c k = some w → w.stop = .fetch →
    let cx := s.ctxOf w.block c
    let line := w.pc.toNat / 128 * 128
    (s.xlate c cx.1 cx.2 w.pc.toNat .fetch w.priv = .error e →
      exec (.demandFill c k) s = .next (s.takeTrap c k { trapBefore w e.fetchCause 0 w.pc (if 0x0C0 ≤ e.fetchCause ∧ e.fetchCause < 0x100 then 3 else 0) 15 with replay := 15 })) ∧
    (∀ t d, s.xlate c cx.1 cx.2 w.pc.toNat .fetch w.priv = .ok t → (s.core c).icFind cx.1 line = some d →
      ∃ u w', exec (.demandFill c k) s = .next u ∧ u.warp? c k = some w' ∧ FMap.find w'.fetch line = some d ∧ w'.stop = w.moveOn.stop ∧ SameRegs w w' ∧
        Quiet s u c k) ∧
    (∀ t, s.xlate c cx.1 cx.2 w.pc.toNat .fetch w.priv = .ok t → (s.core c).icFind cx.1 line = none →
      ∃ u, exec (.demandFill c k) s = .next u ∧ (cx.1, line) ∈ (u.core c).iwant ∧ u.warp? c k = some w ∧ Quiet s u c k)) ∧
  (∀ c asid line s t, (asid, line) ∈ (s.core c).iwant → line % 128 = 0 → s.xlate c asid (s.viewOf c asid) line .fetch true = .ok t →
    ∀ a, s.localAddr (t.paOf line) = some a → s.poisonOf a 128 = none →
    ∃ u, exec (.icacheFill c asid line) s = .next u ∧ (asid, line) ∉ (u.core c).iwant ∧
      (u.core c).icFind asid line = some (s.devGet a 128) ∧
      (Unlogged s → ∀ k w, s.warp? c k = some w →
        let asked : Prop := w.nextWant = some line ∧ (s.ctxOf w.block c).1 = asid ∧ ∃ l, w.lastLine = some l ∧ (l + 128) % 2 ^ 64 = line
        ∃ w', u.warp? c k = some w' ∧ (asked → FMap.find w'.fetch line = some (s.devGet a 128) ∧ SameRegs w w' ∧ w'.flight = w.flight) ∧
          (¬ asked → w' = w))) ∧
  (∀ c s n k d, (s.core c).bank.pend = some (n, k, d) → n < s.cycle → ∃ t, exec (.bankSnapshot c) s = .next t ∧
    (t.core c).snapshot = (s.core c).counters ∧ (t.core c).bank.cycle = (n + 1 - (s.core c).cycle0) % 2 ^ 32 ∧ (t.core c).bank.slot = k ∧ (t.core c).bank.depth = d ∧ (t.core c).bank.seq = ((s.core c).bank.seq + 1) % 2 ^ 16 ∧ (t.core c).bank.pend = none ∧
    (t.core c).warps = (s.core c).warps ∧ t.hbm = s.hbm) ∧
  ∀ c s, ∃ t, exec (.bcctlClr c) s = .next t ∧ (t.core c).counters = [] ∧ (t.core c).warps = (s.core c).warps ∧ t.hbm = s.hbm

/-- R242, R322, R331, R341, R343 and R403: the firmware services that `sysc` calls from a handler, the reply that ends its hold, and the entry of a trap
that waited. The value of s2 that LOG and DEBUG_NOTIFY leave open is free (log 18), as is whether
a debugger is attached, whose release of the warp is then the next step (log 36). Where word 0 of the event of `sysc` 5 holds core and slot is the
model's choice (log 57). -/
def Obligations.FirmwareServiceSteps : Prop :=
  (∀ c k s w n a b, s.warp? c k = some w → w.stop = .run → w.opened = false → w.tick = w.due → w.hold = some (.sysc n (some (a, b))) →
    (n = 2 → s.migrated c w (w.s 1).toNat = true) →
    ∃ w', exec (.syscReply c k) s = .next (s.setWarp c k w') ∧ w'.s 1 = a ∧ w'.s 2 = b ∧ w'.hold = none ∧ w'.vregs = w.vregs ∧ w'.pc = w.pc ∧
      ∀ r, 3 ≤ r → w'.s r = w.s r) ∧
  (∀ c k s w n, s.warp? c k = some w → w.stop = .run → w.opened = false → w.tick = w.due → w.hold = some (.sysc n none) → 6 ≤ n →
    s.boot.swapping = none →
    ∃ w', exec (.syscReply c k) s = .next (s.setWarp c k w') ∧ w'.s 1 = BitVec.allOnes 64 ∧ w'.s 2 = 0 ∧ w'.hold = none) ∧
  (∀ c k s w, s.boot.swapping = none → s.warp? c k = some w → w.asking 0 = true →
    exec (.version c k) s = .next (s.setWarp c k { w with hold := some (.sysc 0 (some (0, Config.fwVersion))) })) ∧
  (∀ p ∈ ([(.resolve, 1, 2, fun w => [w.s 1, w.s 2]), (.migrateWait, 2, 3, fun w => [w.s 1])] :
      List ((Nat → Nat → Instr) × Nat × Nat × (Warp → List DWord))),
    ∀ c k s w, s.boot.swapping = none → s.warp? c k = some w → w.asking p.2.1 = true → s.asked c k = false →
      let asid := (s.ctxOf w.block c).1
      let fdom := match s.taskOf w with | some t => t.fdom | none => 0
      exec (p.1 c k) s = .next (s.postEvent (s.ownerOf asid) ⟨p.2.2.1, fdom, asid, p.2.2.2 w, some (c, k)⟩)) ∧
  (∀ c k s w b t, s.boot.swapping = none → s.warp? c k = some w → w.asking 3 = true → s.block? w.block = some b → FMap.find s.tasks b.task = some t →
    ∃ u, exec (.killTask c k) s = .next u ∧ u.hbm = s.hbm ∧ u.host = s.host ∧ (∃ t', FMap.find u.tasks b.task = some t' ∧ t'.killed = true) ∧
      ∀ i ∈ t.blocks, ∀ x, s.block? i = some x → ∀ j ∈ x.warps, ∀ v, u.warp? x.core j = some v → v.stop = .ended) ∧
  (∀ c k s w, s.boot.swapping = none → s.warp? c k = some w → w.asking 4 = true → (∀ m ∈ s.monitors, ¬ (m.core = c ∧ m.slot = k)) →
    let asid := (s.ctxOf w.block c).1
    let fdom := match s.taskOf w with | some t => t.fdom | none => 0
    let ws := [w.s 1, w.s 2, w.s 3, w.s 4, w.s 5, w.s 6, w.s 7]
    let u := (s.faultRecord (BitVec.ofNat 64 fdom :: ws)).postFor asid ⟨4, fdom, asid, ws, none⟩
    ∃ t v, exec (.logSvc c k) s = .next t ∧ t.warp? c k = some { w with hold := some (.sysc 4 (some (0, v))) } ∧
      t.blocks = s.blocks ∧ t.fw.faultNext = s.fw.faultNext + 1 ∧ t.hbm = u.hbm ∧ t.host = u.host ∧ t.funcs = u.funcs ∧ t.msi = u.msi) ∧
  (∀ c k s w, s.boot.swapping = none → s.warp? c k = some w → w.asking 5 = true →
    let asid := (s.ctxOf w.block c).1
    let fdom := match s.taskOf w with | some t => t.fdom | none => 0
    let place : DWord := BitVec.ofNat 64 (c % 256 * 2 ^ 48 + k % 32 * 2 ^ 8)
    let u := s.postFor asid ⟨7, fdom, asid, [w.s 1, w.s 2, w.s 3, w.s 4, w.s 5, w.s 6, w.s 7, place], none⟩
    ∃ t v, exec (.debugNotify c k) s = .next t ∧ t.blocks = s.blocks ∧ t.hbm = s.hbm ∧
      (w.notified = false → t.host = u.host ∧ t.funcs = u.funcs ∧ t.msi = u.msi) ∧ (w.notified = true → t.host = s.host ∧ t.funcs = s.funcs) ∧
      (w.notified = false → Config.debugger s.fresh = true → t.warp? c k = some { w with notified := true }) ∧
      (w.notified = true ∨ Config.debugger s.fresh = false →
        t.warp? c k = some { w with notified := false, hold := some (.sysc 5 (some (0, v))) })) ∧
  ∀ c k s w x, s.warp? c k = some w → w.trap = some x → s.asyncOpen c k = false → s.speculating w.block = false →
    exec (.trapEntry c k) s = .next (s.enterTrap c k w x)

/-! ## Steps of the machine: memory and engines -/

/-- R144, R152 to R154, R157 to R163, R174, R250, R251, R328, R351, R352, R378, R384, R394 and R408: performing memory operations: reads of a load and its landing, entries
of the release FIFO at their homes, writes and atomics of every kind, lane after lane, releases, acquires, L1 fills, walks among the 64 that were asked for first, the Grinder, which performs what an entry has for one 32-byte block as one step, and the
answers and timeouts of links. What an operation lands is each word of its values, or the registers of a `vfill`; one that failed lands nothing, and its cause is
deferred. The AER bit of a host timeout
(R389) is PCI Express's (log 83). -/
def Obligations.MemorySteps : Prop :=
  (∀ c id s o i a, (s.core c).op? id = some o → o.id = id → o.kind = .load → o.todo[i]? = some a → readable (s.core c) o a = true →
    (∀ b ∈ o.todo.take i, s.homeOf b.pa b.ms ≠ s.homeOf a.pa a.ms) → s.localAddr a.pa = some a.pa.addr → (∀ e ∈ (s.core c).fifo, o.id ≤ e.seq ∨ entryWrites e a.pa a.n = false) →
    ∃ t, exec (.asyncResultLand c id (some i)) s = .next t ∧ (Still s → (t.core c).warps = (s.core c).warps) ∧ t.blocks = s.blocks ∧
      ∃ o', (t.core c).op? id = some o' ∧ o'.todo = o.todo.erase a ∧ FMap.find o'.got a.lane = some (s.devGet a.pa.addr a.n)) ∧
  (∀ c id s o w r, (s.core c).op? id = some o → o.kind = .load ∨ (o.kind = .atomic ∧ ∀ e ∈ (s.core c).fifo, e.op ≠ id) → o.todo = [] → o.err = none →
    o.dead = false → o.dest = .v r → s.warp? c o.slot = some w → s.begun c o.slot w = false → w.landed = [] → (o.got.map (·.1)).Nodup → (∀ p ∈ o.got, p.1 < 1024) →
    ∃ t w', exec (.asyncResultLand c id none) s = .next t ∧ t.warp? c o.slot = some w' ∧ Quiet s t c o.slot ∧ (∀ q ∈ (t.core c).ops, q.id ≠ id) ∧
      (∀ i < (o.n + 3) / 4, ∀ l < 1024, w'.v (r + i) l = match FMap.find o.got l with
        | some x => BitVec.ofNat 32 (x / 2 ^ (32 * i))
        | none => w.v (r + i) l) ∧
      (o.acq = some .d ∨ o.acq = some .p ∨ o.acq = some .s → (t.core c).l1 = []) ∧
      (∀ q l, q < r ∨ r + (o.n + 3) / 4 ≤ q → l < 1024 → w'.v q l = w.v q l) ∧ w'.sregs = w.sregs ∧ w'.pc = w.pc ∧
      ∀ f, w'.flag f = w.flag f - if o.flag = some f then 1 else 0) ∧
  (∀ c id s o w r l x, (s.core c).op? id = some o → o.kind = .load ∨ (o.kind = .atomic ∧ ∀ e ∈ (s.core c).fifo, e.op ≠ id) → o.todo = [] → o.err = none →
    o.dead = false → o.dest = .s r → o.got = [(l, x)] → s.warp? c o.slot = some w → s.begun c o.slot w = false → w.landed = [] →
    ∃ t w', exec (.asyncResultLand c id none) s = .next t ∧ t.warp? c o.slot = some w' ∧ Quiet s t c o.slot ∧ w'.vregs = w.vregs ∧
      (∀ q, w'.s q = if q = r ∧ r ≠ 0 then BitVec.ofNat 64 x else w.s q) ∧ ∀ f, w'.flag f = w.flag f - if o.flag = some f then 1 else 0) ∧
  (∀ c id s o w r h, (s.core c).op? id = some o → o.kind = .fill → o.n ≤ 1024 → FMap.find o.got 0 = some h → h % 256 < 5 →
    (∀ a ∈ o.todo, fillBytes (h % 256) o.n ≤ a.lane ∧ readable (s.core c) o a = true) → o.err = none → o.dead = false → o.acq = none → o.dest = .v r →
    s.warp? c o.slot = some w → s.begun c o.slot w = false → w.landed = [] →
    let img := o.got.foldr (fun p v => v + p.2 * 256 ^ p.1) 0
    ∃ t w', exec (.asyncResultLand c id none) s = .next t ∧ t.warp? c o.slot = some w' ∧ Quiet s t c o.slot ∧
      (∀ l < 1024, w'.v r l = if l < o.n then BitVec.ofNat 32 (fillLane img l) else w.v r l) ∧ (∀ q l, q ≠ r → l < 1024 → w'.v q l = w.v q l) ∧
      w'.sregs = w.sregs ∧ ∀ f, w'.flag f = w.flag f - if o.flag = some f then 1 else 0) ∧
  (∀ c id s o w e, (s.core c).op? id = some o → o.kind = .load ∨ o.kind = .fill ∨ (o.kind = .atomic ∧ ∀ e ∈ (s.core c).fifo, e.op ≠ id) → o.todo = [] →
    o.err = some e → o.dead = false → o.acq = none → s.warp? c o.slot = some w → s.begun c o.slot w = false → w.landed = [] →
    ∃ t w', exec (.asyncResultLand c id none) s = .next t ∧ t.warp? c o.slot = some w' ∧ Quiet s t c o.slot ∧ w'.vregs = w.vregs ∧ w'.sregs = w.sregs ∧
      w'.deferred = w.deferred ++ [⟨e, 1, o.addr, o.seq, w.tick, 0⟩] ∧ ∀ f, w'.flag f = w.flag f - if o.flag = some f then 1 else 0) ∧
  (∀ c id s o w r, (s.core c).op? id = some o → o.kind = .load → o.todo = [] → o.err = none → o.dead = false → o.acq = none → o.dest = .v r → o.n = 4 →
    s.warp? c o.slot = some w → s.begun c o.slot w = true → (o.got.map (·.1)).Nodup →
    ∃ t x y, exec (.asyncResultLand c id none) s = .next t ∧ t.warp? c o.slot = some { w with flight := w.flight ++ [x, y] } ∧ Quiet s t c o.slot ∧
      (∀ q ∈ (t.core c).ops, q.id ≠ id) ∧ x.dest = .v r ∧ x.land = w.tick ∧ x.dec = some none ∧
      (∀ l, FMap.find x.lanes l = (FMap.find o.got l).map fun v => BitVec.ofNat 32 v) ∧ y.dest = .sr 255 ∧ y.land = w.tick ∧ y.dec = some o.flag) ∧
  (∀ c seq s e a rest d, (s.core c).entry? seq = some e → e.seq = seq → canFifoEntryPerform c seq s = true → e.kind = none → e.ms = false →
    e.line.space = .hbm → e.lanes = a :: rest → s.localAddr a.pa = some d → d + a.n ≤ Config.hbmBytes → Unlogged s →
    ∃ t, exec (.fifoEntryPerform c seq) s = .next t ∧ t.blocks = s.blocks ∧ t.host = s.host ∧ (rest = [] → ∀ f ∈ (t.core c).fifo, f.seq ≠ seq) ∧
      (rest ≠ [] → (t.core c).fifo = (s.core c).fifo.map fun f =>
        if f.seq = seq then { f with lanes := rest, bytes := bytesLeft f.bytes rest, begun := true } else f) ∧
      (∀ i < a.n, t.hbm.byte (d + i) = BitVec.ofNat 8 (a.x / 256 ^ i)) ∧ ∀ b, b < d ∨ d + a.n ≤ b → t.hbm.byte b = s.hbm.byte b) ∧
  (∀ c seq s e k a rest, (s.core c).entry? seq = some e → e.seq = seq → canFifoEntryPerform c seq s = true → e.kind = some k → e.ms = false →
    e.line.space = .hbm → e.lanes = a :: rest → LaneHere s k a → Unlogged s →
    ∃ t, exec (.fifoEntryPerform c seq) s = .next t ∧ t.blocks = s.blocks ∧ t.host = s.host ∧
      (∀ b, (t.hbm.byte b).toNat = lanesDone k (fun p => (s.localAddr p).getD 0) [a] (fun b => (s.hbm.byte b).toNat) b) ∧
      (∀ f ∈ (t.core c).fifo, f.seq = seq → f.lanes = rest ∧ rest ≠ []) ∧
      ∀ o, (s.core c).op? e.op = some o → ∃ o', (t.core c).op? e.op = some o' ∧
        FMap.find o'.got a.lane = some (s.devGet ((s.localAddr a.pa).getD 0) a.n)) ∧
  (∀ c seq s e, (s.core c).entry? seq = some e → canFifoEntryPerform c seq s = true → e.ms = true ∨ e.line.space = .host →
    ∃ t, exec (.fifoEntryPerform c seq) s = .next t ∧ t.hbm = s.hbm ∧ t.host = s.host ∧
      (t.core c).fifo = (s.core c).fifo.map fun f => if f.seq = seq then { f with sent := true } else f) ∧
  (∀ c seq s e a rest, (s.core c).entry? seq = some e → e.seq = seq → e.sent = true → e.line.space = .host → e.kind = none → e.lanes = a :: rest →
    a.pa.space = .host →
    ∃ t, exec (.hostWriteAck c seq) s = .next t ∧ t.hbm = s.hbm ∧ (rest = [] → ∀ f ∈ (t.core c).fifo, f.seq ≠ seq) ∧
      (rest ≠ [] → (t.core c).fifo = (s.core c).fifo.map fun f =>
        if f.seq = seq then { f with lanes := rest, bytes := bytesLeft f.bytes rest, begun := true } else f) ∧
      (∀ i < a.n, byteAt Config.hostByte t.host (a.pa.addr + i) = BitVec.ofNat 8 (a.x / 256 ^ i)) ∧
      ∀ b, b < a.pa.addr ∨ a.pa.addr + a.n ≤ b → byteAt Config.hostByte t.host b = byteAt Config.hostByte s.host b) ∧
  (∀ c seq s m w, (s.core c).marker? seq = some m → canReleaseComplete c seq s = true → s.warp? c m.slot = some w →
    ∃ t w', exec (.releaseComplete c seq) s = .next t ∧ (∀ n ∈ (t.core c).markers, n.seq ≠ seq) ∧ t.warp? c m.slot = some w' ∧ SameRegs w w' ∧
      Quiet s t c m.slot ∧ ∀ f, w'.flag f = w.flag f - if m.flag = some f then 1 else 0) ∧
  (∀ c id s o w, (s.core c).op? id = some o → canAcquireComplete c id s = true → o.err = none → o.dead = false → s.warp? c o.slot = some w →
    ∃ t w', exec (.acquireComplete c id) s = .next t ∧ (∀ q ∈ (t.core c).ops, q.id ≠ id) ∧ t.warp? c o.slot = some w' ∧ SameRegs w w' ∧
      Quiet s t c o.slot ∧ (∀ f, w'.flag f = w.flag f - if o.flag = some f then 1 else 0) ∧ w'.flight = w.flight ∧
      (o.acq = some .d ∨ o.acq = some .p ∨ o.acq = some .s → (t.core c).l1 = [])) ∧
  (∀ c line s p, (s.core c).want? line = some p → s.localAddr p = some p.addr → (∀ e ∈ (s.core c).fifo, e.line ≠ p) → s.poisonOf p.addr 128 = none →
    Still s →
    ∃ t, exec (.l1Fill c line) s = .next t ∧ p ∉ (t.core c).l1want ∧ (t.core c).l1.head? = some ⟨p, s.devGet p.addr 128, none⟩ ∧
      ((∀ q ∈ (s.core c).warps, ∀ x ∈ q.2.flight, ∀ y ∈ x.want, y.2.line ≠ p) → (t.core c).warps = (s.core c).warps) ∧ t.blocks = s.blocks) ∧
  (∀ c line s p k w, s.wanted? c line = some p → s.localAddr p = some p.addr → (∀ e ∈ (s.core c).fifo, e.line ≠ p) → s.poisonOf p.addr 128 = none →
    Still s → s.warp? c k = some w →
    ∃ t w', exec (.l1Fill c line) s = .next t ∧ t.warp? c k = some w' ∧ SameRegs w w' ∧ w'.flight.length = w.flight.length ∧
      ∀ (i : Nat) (x : Landing) (r : Nat), w.flight[i]? = some x → x.dest = .v r → (x.want.map (·.1)).Nodup → s.acquireOpen c k x.seq = false →
        ∃ x', w'.flight[i]? = some x' ∧ x'.want = (x.want.filter fun q => q.2.line ≠ p) ∧ ∀ q ∈ x.want, q.2.line = p →
          FMap.find x'.lanes q.1 = some (BitVec.ofNat 32 (s.devGet p.addr 128 / 256 ^ (q.2.addr % 128) % 256 ^ x.wn))) ∧
  (∀ c asid view va s, 64 ≤ (s.walkQueue c).idxOf (walkKey c asid view va) → exec (.tlbWalk c asid view va) s = .next s) ∧
  (∀ c asid view va s t, (s.walkQueue c).idxOf (walkKey c asid view va) < 64 → s.tlbFind c asid view va = some t →
    ∃ u, exec (.tlbWalk c asid view va) s = .next u ∧ u = (s.endWalk c asid view va).learn c t ∧ walkKey c asid view va ∉ u.walkQueue c) ∧
  (∀ c asid view va s t, (s.walkQueue c).idxOf (walkKey c asid view va) < 64 → s.tlbFind c asid view va = none → s.walk (dieOf c) asid view va .read true = .ok t →
    ∃ u, exec (.tlbWalk c asid view va) s = .next u ∧ ((u.core c).tlb.any fun x => x.covers t.asid t.view t.va) = true ∧
      (Unlogged s → u.hbm = s.hbm) ∧ (Still s → (u.core c).warps = (s.core c).warps)) ∧
  (∀ stack i s c e, (s.grindOps stack)[i]? = some (.entry c e) → canGrinderOperation stack i s = true → (s.core c).entry? e.seq = some e →
    let k := e.kind.getD .xchg
    let ls := e.lanes.takeWhile fun b => e.lanes.head?.any fun a => b.pa.addr / 32 = a.pa.addr / 32
    (∀ a ∈ ls, LaneHere s k a) → e.lanes ≠ [] →
    ∃ t, exec (.grinderOperation stack i) s = .next t ∧ t.blocks = s.blocks ∧ t.host = s.host ∧
      (∀ b, (t.hbm.byte b).toNat = lanesDone k (fun p => (s.localAddr p).getD 0) ls (fun b => (s.hbm.byte b).toNat) b) ∧
      ∀ f ∈ (t.core c).fifo, f.seq = e.seq → f.lanes = e.lanes.drop ls.length ∧ f.lanes ≠ []) ∧
  (∀ stack i s c id j u o pa ms a v, (s.grindOps stack)[i]? = some (.block c id j u) → canGrinderOperation stack i s = true →
    (s.core c).x? id = some o → u.dst = .glob pa ms → u.data = some v → s.localAddr pa = some a → s.poisonOf a 32 = none →
    a + 32 ≤ Config.hbmBytes → Unlogged s →
    ∃ t, exec (.grinderOperation stack i) s = .next t ∧ (t.core c).x? id = some (o.modUnit j fun u => { u with done := true }) ∧ t.host = s.host ∧
      t.blocks = s.blocks ∧ (∀ b < 32, t.hbm.byte (a + b) = BitVec.ofNat 8 (gredBlock o.instr (s.devGet a 32) v / 256 ^ b)) ∧
      ∀ b, b < a ∨ a + 32 ≤ b → t.hbm.byte b = s.hbm.byte b) ∧
  (∀ c id s o, (s.core c).op? id = some o → (s.core c).xops = [] → (∀ p ∈ (s.core c).ops, p.id = id → p = o) →
    (∃ a ∈ o.todo, a.pa.space = .host) →
    ∃ t o', exec (.hostTimeout c id) s = .next t ∧ (t.core c).op? id = some o' ∧ o'.err = some (o.err.getD 0x346) ∧
      (∀ a, a ∈ o'.todo ↔ a ∈ o.todo ∧ a.pa.space ≠ .host) ∧ t.hbm = s.hbm ∧ (t.core c).warps = (s.core c).warps ∧
      (t.func 0).aer.testBit 14 = true) ∧
  ∀ c id s o, (s.core c).op? id = some o → o.since + 9_000_000 ≤ s.cycle → (s.core c).xops = [] → (∀ p ∈ (s.core c).ops, p.id = id → p = o) → (s.core c).podEntries id = [] →
    (∃ a ∈ o.todo, a.pa.space = .pod ∧ a.pa.addr / 2 ^ 46 ≠ s.devid) →
    ∃ t o', exec (.linkTimeout c id) s = .next t ∧ (t.core c).op? id = some o' ∧ o'.err = some (o.err.getD 0x341) ∧
      (∀ a, a ∈ o'.todo ↔ a ∈ o.todo ∧ ¬ (a.pa.space = .pod ∧ a.pa.addr / 2 ^ 46 ≠ s.devid)) ∧ t.hbm = s.hbm

/-- R11, R106, R180, R187, R188, R190, R197, R200 to R204, R206 to R208, R210, R380 and R381: the engines of a core: an operation starts when those before
it have, a copy moves its bytes unit by unit or as it completes (`cpa` a lane at a time, zeros behind its bytes), a multicast reaches one block at a
time, a tile load fills its slot and counts it as it completes, a tile store takes its tile as it starts, and an `xtile` sends its rows and then the commit. An
operation of the tile engine has its whole effect as its fill begins, which is the model's choice (log 98): `tzero` clears one accumulator; `tmma` adds its
products in ascending k to M × N elements and leaves the others; `tmmas` adds its scaled blocks; `tdrain` and `tstac` convert their region; `tsave` reads every
element, and `tload` writes them as it completes; `sadv` drops tiles of a ring, and `sreset` empties one. With the completion the flag falls and ring slots
are released. -/
def Obligations.EngineSteps : Prop :=
  (∀ c id s o, (s.core c).x? id = some o → canCopyStart c id s = true → o.kind ≠ .tld → o.kind ≠ .tst → o.kind ≠ .xtile → s.trace = none →
    exec (.copyStart c id) s = .next (s.modX c id fun o => { o with stage := .started, begun := s.cycle }) :) ∧
  (∀ c id s o, (s.core c).x? id = some o → canCopyStart c id s = true → o.kind = .tld → s.trace = none →
    ∃ t x, exec (.copyStart c id) s = .next t ∧ t.txs = s.txs ++ [x] ∧ x.store = false ∧ x.req = 2 * c ∧ x.core = c ∧ x.op = id ∧ x.port = none ∧
      (∀ l, FMap.find x.lines l = some .wanted ↔
        ∃ p ∈ s.globPieces o.units, p.2 ≠ 0 ∧ p.1.addr / 128 ≤ l ∧ l ≤ (p.1.addr + p.2 - 1) / 128) ∧
      (t.core c).x? id = some { o with tx := some x.id, begun := s.cycle } ∧ t.hbm = s.hbm ∧ t.blocks = s.blocks :) ∧
  (∀ c id s o w pa ms a b off n, (s.core c).x? id = some o → o.kind = .copy → (∀ i, o.instr ≠ .cpa i) → o.stage = .started →
    o.units = [⟨.glob pa ms, .sp b off, n, n, none, false, false⟩] → s.localAddr pa = some a → a + n ≤ Config.hbmBytes → s.poisonOf a n = none →
    Unlogged s → (s.core c).fifo = [] → writesPending (s.core c) o pa n = false → o.arrive = none → o.err = none → o.evs = 0 → s.trace = none →
    s.warp? c o.slot = some w → (s.block? b).isSome →
    ∃ t w', exec (.xOpComplete c id none) s = .next t ∧ t.hbm = s.hbm ∧ (∀ q ∈ (t.core c).xops, q.id ≠ id) ∧ t.warp? c o.slot = some w' ∧
      SameRegs w w' ∧ (∀ f, w'.flag f = w.flag f - if o.flag = f then 1 else 0) ∧
      ∀ d x, spByte t d x = if d = b ∧ off ≤ x ∧ x < off + n then s.devGet (a + (x - off)) 1 else spByte s d x :) ∧
  (∀ c id rank s o b y, (s.core c).x? id = some o → o.kind = .multicast → o.stage = .started → rank ∈ o.ranks →
    (∀ u ∈ o.units, u.bad = false ∧ u.data.isSome) → s.rankBlock o.block rank = some (b, y) → o.arrive = none →
    ∃ t o', exec (.multicastDeliver c id rank) s = .next t ∧ (t.core c).x? id = some o' ∧ o'.ranks = o.ranks.erase rank ∧ t.hbm = s.hbm ∧
      (∀ i u v, o.units[i]? = some u → u.data = some v → ∀ j < 16, spByte t b (o.dst.toNat + 16 * i + j) = v / 256 ^ j % 256) ∧
      ∀ d x, d ≠ b ∨ x < o.dst.toNat ∨ o.dst.toNat + 16 * o.units.length ≤ x → spByte t d x = spByte s d x :) ∧
  (∀ c s o lv at' l i, (s.core c).tileHead = some o → (s.core c).ramp = .moving lv at' l → o.instr = .tzero i →
    (∀ p ∈ (s.core c).xops, p.stage = .queued ∨ p.kind ≠ .tload) → s.trace = none →
    ∃ t, exec (.tileFillBegin c) s = .next t ∧ t.hbm = s.hbm ∧ t.blocks = s.blocks ∧ (t.core c).warps = (s.core c).warps ∧
      ∀ e, FMap.getD (t.core c).accs e 0 = if e / 4096 = i.acc.val then 0 else FMap.getD (s.core c).accs e 0 :) ∧
  (∀ c s o lv at' l i ta tb, (s.core c).tileHead = some o → (s.core c).ramp = .moving lv at' l → tileTypes o.instr = some (ta, tb, false) →
    xtOf o.instr = some i → tileM i ≤ 64 → tileN i ≤ 64 → mmaReady (s.core c) o = true →
    (∀ p ∈ (s.core c).xops, p.stage = .queued ∨ p.kind ≠ .tload) → s.trace = none → s.faulty = [] →
    let pa := (s.core c).claim o.sa.n o.sa.desc.len (mmaTiles o)
    let pb := pa.2.claim o.sb.n o.sb.desc.len (mmaTiles o)
    ∃ t, exec (.tileFillBegin c) s = .next t ∧ t.hbm = s.hbm ∧ t.blocks = s.blocks ∧ (t.core c).warps = (s.core c).warps ∧
      (∀ p q, p < tileM i → q < tileN i → (t.core c).acc i.acc.val p q = Fp.Acc.ofBits (dotPlain ta tb
        (s.sideRow o.block ta o.sa.desc pa.1 p) (s.sideRow o.block tb o.sb.desc pb.1 q) ((s.core c).acc i.acc.val p q)).1.toBits) ∧
      ∀ e p q, p < 64 → q < 64 → e ≠ i.acc.val ∨ tileM i ≤ p ∨ tileN i ≤ q → (t.core c).acc e p q = (s.core c).acc e p q :) ∧
  (∀ c s, canTamperGrant c s = true → ∃ t, exec (.tamperGrant c) s = .next t ∧ (t.core c).ramp = .moving 1 0 s.cycle ∧
    t.windowGrants (clusterOf c) = s.windowGrants (clusterOf c) + 1 ∧ (t.core c).warps = (s.core c).warps ∧ t.hbm = s.hbm ∧ t.blocks = s.blocks :) ∧
  (∀ c s lv at' l e, (s.core c).ramp = .filler lv at' l e → e + 12 < s.cycle →
    exec (.engineIdle c) s = .next (s.modCore c fun x => { x with ramp := .idle }) :) ∧
  (∀ c id s o i u pa ms a, (s.core c).x? id = some o → o.byUnits = true → o.stage = .started → o.units[i]? = some u → u.src = .glob pa ms → u.data = none →
    s.laneFirst o i = true → s.localAddr pa = some a → s.poisonOf a u.n = none → (s.core c).fifo = [] → writesPending (s.core c) o pa u.n = false →
    ∃ t, exec (.xOpComplete c id (some i)) s = .next t ∧ t.blocks = s.blocks ∧ (Unlogged s → t.hbm = s.hbm) ∧
      (t.core c).x? id = some (o.modUnit i fun u => { u with data := some (s.devGet a u.n), bad := false }) :) ∧
  (∀ c id s o i u pa ms a v, (s.core c).x? id = some o → o.kind = .copy ∨ o.kind = .tsave → (∀ j, o.instr ≠ .cpa j) → o.stage = .started →
    o.units[i]? = some u → u.dst = .glob pa ms → u.done = false → u.bad = false → u.data = some v → pa.space = .hbm → s.localAddr pa = some a →
    a + u.m ≤ Config.hbmBytes → writable (s.core c) o pa u.m = true → (∀ y ∈ o.units, y.unread = false) → Unlogged s →
    ∃ t, exec (.xOpComplete c id (some i)) s = .next t ∧ t.blocks = s.blocks ∧ t.host = s.host ∧
      (t.core c).x? id = some (o.modUnit i fun u => { u with done := true }) ∧ (∀ j < u.m, t.hbm.byte (a + j) = BitVec.ofNat 8 (v / 256 ^ j)) ∧
      ∀ b, b < a ∨ a + u.m ≤ b → t.hbm.byte b = s.hbm.byte b :) ∧
  (∀ c id s o i, (s.core c).x? id = some o → o.kind = .copy → (∀ j, o.instr ≠ .cpa j) → o.stage = .started → i < o.units.length → o.arrive = none →
    (s.block? o.block).isSome → (∀ u ∈ o.units, u.bad = false ∧ u.done = false ∧ u.data.isSome ∧ ∃ off, u.dst = .sp o.block off) → Apart o.units →
    ∃ t, exec (.xOpComplete c id (some i)) s = .next t ∧ t.hbm = s.hbm ∧ UnitsIn s t o.block o.units ∧
      ∃ o', (t.core c).x? id = some o' ∧ o'.units.all (·.done) = true :) ∧
  (∀ c id s o i u j off, (s.core c).x? id = some o → o.instr = .cpa j → o.stage = .started → o.units[i]? = some u → u.src = .nowhere → u.data = none →
    u.done = false → u.dst = .sp o.block off → (∀ y ∈ o.units.take i, y.unread = false ∧ y.unwritten = false) → (∀ y ∈ laneReads o.units i, y.bad = false) →
    o.arrive = none → (s.block? o.block).isSome →
    ∃ t, exec (.xOpComplete c id (some i)) s = .next t ∧ t.hbm = s.hbm ∧
      (∀ x < 32, spByte t o.block (off + x) = unitsImage (laneReads o.units i) / 256 ^ x % 256) ∧
      ∀ b x, b ≠ o.block ∨ x < off ∨ off + 32 ≤ x → spByte t b x = spByte s b x :) ∧
  (∀ c id s o p, (s.core c).x? id = some o → o.kind = .tld → o.stage = .performed → o.err = none → o.arrive = none → o.claimA = [p] →
    (s.block? o.block).isSome →
    let off := o.sa.desc.slotOff p
    ∃ t o', exec (.xOpComplete c id (some 0)) s = .next t ∧ (t.core c).x? id = some o' ∧ o'.stage = .written ∧ t.hbm = s.hbm ∧
      (∀ j < o.sa.desc.tileBytes, spByte t o.block (off + j) = unitsImage o.units / 256 ^ j % 256) ∧
      ∀ b x, b ≠ o.block ∨ x < off ∨ off + o.sa.desc.tileBytes ≤ x → spByte t b x = spByte s b x :) ∧
  (∀ c id s o w, (s.core c).x? id = some o → o.kind = .tld → o.stage = .written → o.finish ≤ s.cycle → o.units ≠ [] →
    let q := ((s.core c).strm o.sa.n 2).toNat
    o.claimA = [ptrTail q] → s.trace = none → s.warp? c o.slot = some w →
    ∃ t w', exec (.xOpComplete c id none) s = .next t ∧ (∀ y ∈ (t.core c).xops, y.id ≠ id) ∧ t.warp? c o.slot = some w' ∧ SameRegs w w' ∧
      Quiet s t c o.slot ∧ (∀ f, w'.flag f = w.flag f - if o.flag = f then 1 else 0) ∧
      (t.core c).strm o.sa.n 2 = mkPtrs (ptrFree q) (ptrHead q) (ringAdvance o.sa.desc.len (ptrTail q) 1) (ptrRsv q) :) ∧
  (∀ c id s o, (s.core c).x? id = some o → canCopyStart c id s = true → o.kind = .tst ∨ o.kind = .xtile → s.trace = none →
    let r := (s.core c).claim o.sa.n o.sa.desc.len 1
    let off := if o.ringSource then (match r.1 with | p :: _ => o.sa.desc.slotOff p | [] => o.src.toNat) else o.src.toNat
    s.spFaulty o.block off o.sa.desc.tileBytes = false →
    ∃ t o', exec (.copyStart c id) s = .next t ∧ (t.core c).x? id = some o' ∧ o'.stage = .started ∧ t.hbm = s.hbm ∧ t.blocks = s.blocks ∧
      o'.units = imageUnits (s.spGet o.block off o.sa.desc.tileBytes) o.units ∧
      (t.core c).streams = (if o.ringSource then r.2 else s.core c).streams ∧
      ((∀ u ∈ o.units, ∃ p m, u.dst = .glob p m ∧ s.remote p = false) → ∃ x, t.txs = s.txs ++ [x] ∧ x.store = true ∧ x.req = 2 * c ∧ x.op = id ∧
        o'.tx = some x.id) :) ∧
  (∀ c id s o pa, (s.core c).x? id = some o → o.kind = .xtile → o.stage = .started → o.tx = none → o.finish ≤ s.cycle → restReady (s.core c) o = true →
    o.dstPa = some pa → s.linkCause pa = none →
    let msg := fun (p : Pa) (k : PodKind) (a n v m : Nat) =>
      (⟨p.addr / 2 ^ 46, (s.portOf (coreOf (o.requester c)) (p.addr / 2 ^ 46)).getD 0, coreOf (o.requester c), ⟨s.devid, k, a, n, v, m⟩⟩ : LinkMsg)
    ∃ t, exec (.xOpComplete c id (some 0)) s = .next t ∧ t.hbm = s.hbm ∧ t.blocks = s.blocks ∧
      t.linkOut = s.linkOut ++ (o.units.filterMap fun u => match u.dst with
        | .glob p _ => some (msg p (.tileRow o.id) (p.addr % 2 ^ 46) u.n (u.data.getD 0) (2 ^ u.n - 1))
        | _ => none) ++ [msg pa (.tileCommit o.id) 0 0 0 0] ∧
      (∀ p ∈ s.globPieces o.units, ∀ k, p.1.addr ≤ k → k < p.1.addr + p.2 → ∀ y ∈ (t.core c).l1, y.pa ≠ ({ p.1 with addr := k } : Pa).line) ∧
      ∃ o', (t.core c).x? id = some o' ∧ o'.stage = .sent :) ∧
  (∀ c id s o w, (s.core c).x? id = some o → o.tile = true ∨ o.units ≠ [] →
    (o.kind = .tst ∧ o.stage = .performed) ∨ (o.kind = .xtile ∧ (o.stage = .performed ∨ o.stage = .sent)) ∨
      (o.kind = .drain ∧ o.stage = .written ∧ o.finish ≤ s.cycle) ∨ (o.kind = .tstac ∧ o.stage = .performed ∧ o.finish ≤ s.cycle) ∨
      (o.kind ∈ [.mma, .tzero, .sadv, .sreset] ∧ o.stage = .started ∧ o.finish ≤ s.cycle) →
    s.trace = none → s.warp? c o.slot = some w →
    ∃ t w', exec (.xOpComplete c id none) s = .next t ∧ (∀ y ∈ (t.core c).xops, y.id ≠ id) ∧ t.warp? c o.slot = some w' ∧ SameRegs w w' ∧
      Quiet s t c o.slot ∧ (t.core c).accs = (s.core c).accs ∧ (∀ f, w'.flag f = w.flag f - if o.flag = f then 1 else 0) ∧
      (t.core c).streams = (match o.kind with
        | .tst | .xtile => (s.core c).release o.sa.n o.sa.desc.len o.claimA
        | .mma => ((s.core c).release o.sa.n o.sa.desc.len o.claimA).release o.sb.n o.sb.desc.len o.claimB
        | _ => s.core c).streams :) ∧
  (∀ c id s o, (s.core c).x? id = some o → o.kind = .drain → o.stage = .started → o.finish ≤ s.cycle → o.arrive = none → (s.block? o.block).isSome →
    (∀ u ∈ o.units, u.bad = false ∧ ∃ off, u.dst = .sp o.block off) → Apart o.units →
    ∃ t o', exec (.xOpComplete c id (some 0)) s = .next t ∧ (t.core c).x? id = some o' ∧ o'.stage = .written ∧ t.hbm = s.hbm ∧
      (t.core c).accs = (s.core c).accs ∧ UnitsIn s t o.block o.units :) ∧
  (∀ c id s o w tile, (s.core c).x? id = some o → o.kind = .tload → o.tile = true → o.stage = .started → o.finish ≤ s.cycle → s.trace = none →
    (∀ (k : Nat) (u : CopyUnit), o.units[k]? = some u → u.dst = .acc tile k ∧ u.data.isSome ∧ u.bad = false ∧ u.done = false) → s.warp? c o.slot = some w →
    ∃ t w', exec (.xOpComplete c id none) s = .next t ∧ (∀ y ∈ (t.core c).xops, y.id ≠ id) ∧ t.warp? c o.slot = some w' ∧ SameRegs w w' ∧
      Quiet s t c o.slot ∧ (∀ f, w'.flag f = w.flag f - if o.flag = f then 1 else 0) ∧
      (∀ (k : Nat) (u : CopyUnit) v, o.units[k]? = some u → u.data = some v → FMap.getD (t.core c).accs (tile * 4096 + k) 0 = BitVec.ofNat 128 v) ∧
      ∀ e, e < tile * 4096 ∨ tile * 4096 + o.units.length ≤ e → FMap.getD (t.core c).accs e 0 = FMap.getD (s.core c).accs e 0 :) ∧
  (∀ c s o lv at' l, (s.core c).tileHead = some o → (s.core c).x? o.id = some o → (s.core c).ramp = .moving lv at' l →
    (∀ p ∈ (s.core c).xops, p.stage = .queued ∨ p.kind ≠ .tload) → s.trace = none → s.faulty = [] →
    let starts := fun (P : State → XOp → Prop) => ∃ t o', exec (.tileFillBegin c) s = .next t ∧ t.hbm = s.hbm ∧ t.blocks = s.blocks ∧
      (t.core c).warps = (s.core c).warps ∧ (t.core c).x? o.id = some o' ∧ o'.stage = .started ∧ P t o'
    (∀ i ta tb, tileTypes o.instr = some (ta, tb, true) → xtOf o.instr = some i → tileM i ≤ 64 → tileN i ≤ 64 → mmaReady (s.core c) o = true →
      let pa := (s.core c).claim o.sa.n o.sa.desc.len (mmaTiles o)
      let pb := pa.2.claim o.sb.n o.sb.desc.len (mmaTiles o)
      starts fun t _ =>
        (∀ p q, p < tileM i → q < tileN i → (t.core c).acc i.acc.val p q = Fp.Acc.ofBits (dotScaled ta tb o.sa.desc.s
          ((s.sideRow o.block ta o.sa.desc pa.1 p).zip (s.sideRow o.block tb o.sb.desc pb.1 q))
          ((s.sideScales o.block ta o.sa.desc pa.1 p).zip (s.sideScales o.block tb o.sb.desc pb.1 q)) ((s.core c).acc i.acc.val p q)).1.toBits) ∧
        ∀ e p q, p < 64 → q < 64 → e ≠ i.acc.val ∨ tileM i ≤ p ∨ tileN i ≤ q → (t.core c).acc e p q = (s.core c).acc e p q) ∧
    (∀ i, o.instr = .tdrain i ∨ o.instr = .tstac i →
      let m := o.src.toNat % 128
      let n := o.src.toNat / 256 % 128
      let ty := (tyOfCode i.gt.toNat).getD .i32
      let w := tyBits ty
      let val := fun r j => (Fp.toTy ty (rmOf (i.ll.toNat / 16 % 4)) .none ((s.core c).acc (i.ll.toNat % 8) r j).val).1
      w * n = 8 * rowLen ty n →
      starts fun t o' => (t.core c).accs = (s.core c).accs ∧
        (o.instr = .tdrain i → o'.units.length = m ∧ ∀ r < m, ∃ u v, o'.units[r]? = some u ∧ u.bad = false ∧
          u.dst = .sp o.block (o.dst.toNat + r * (o.src.toNat / 2 ^ 32)) ∧ u.m = rowLen ty n ∧ u.data = some v ∧
          ∀ j < n, v / 2 ^ (w * j) % 2 ^ w = val r j % 2 ^ w) ∧
        (o.instr = .tstac i → ∃ img x, o'.units = imageUnits img o.units ∧ t.txs = s.txs ++ [x] ∧ x.store = true ∧ x.req = 2 * c + 1 ∧ x.op = o.id ∧
          o'.tx = some x.id ∧ ∀ r < m, ∀ j < n, img / 256 ^ (rowLen ty n * r) / 2 ^ (w * j) % 2 ^ w = val r j % 2 ^ w)) ∧
    (∀ i, o.instr = .tsave i → starts fun t o' => (t.core c).accs = (s.core c).accs ∧ o'.units.length = o.units.length ∧
      ∀ (k : Nat) (u : CopyUnit), o.units[k]? = some u → o'.units[k]? = some { u with data := some (FMap.getD (s.core c).accs (i.ll.toNat % 8 * 4096 + k) 0).toNat }) ∧
    (∀ i, o.instr = .tload i → starts fun t o' => (t.core c).accs = (s.core c).accs ∧ o'.units = o.units) ∧
    (∀ i, o.instr = .sadv i → i.kst.val + 1 ≤ (s.core c).present o.sa.n o.sa.desc.len →
      let r := (s.core c).claim o.sa.n o.sa.desc.len (i.kst.val + 1)
      starts fun t _ => (t.core c).accs = (s.core c).accs ∧ (t.core c).streams = (r.2.release o.sa.n o.sa.desc.len r.1).streams) ∧
    ∀ i, o.instr = .sreset i →
      let q := ((s.core c).strm o.sa.n 2).toNat
      ptrFree q = ptrHead q → ptrRsv q = ptrTail q → starts fun t _ => (t.core c).accs = (s.core c).accs ∧ (t.core c).strm o.sa.n 2 = 0 ∧
        (∀ n k, k < 4 → (n, k) ≠ (o.sa.n, 2) → (t.core c).strm n k = (s.core c).strm n k) ∧ ∀ p ∈ (t.core c).released, p.1 ≠ o.sa.n :)

/-- R262 to R265 and R369: one line of a tile transaction asks for its lock, with the timestamp that the transaction took when it first asked: it is
granted where nobody conflicts and the slice has room, and waits where every conflicting transaction is younger and there is a place for it; where
an older one conflicts the whole transaction is denied for 16 cycles times its attempts, at most 512, and so it is where only room is missing, or the line's
16 places are taken, when the slice also records its timestamp; then it asks again. A store whose lines are all locked writes every byte in one step, and no other, and its
locks go. -/
def Obligations.TileTransactionSteps : Prop :=
  (∀ i l s x, s.tx? i = some x → FMap.find x.lines l = some .wanted → x.resume ≤ s.cycle → s.mayStamp x = true → s.portOrder x = true →
    let ts := if x.stamped = true then x.ts else s.clock * 512 + x.req
    let x' : Tx := { x with ts := ts, stamped := true }
    let con := (s.onLine i l).filter fun y => x.store || y.store
    let older : Prop := ∀ y ∈ con, ts < y.ts
    ∃ t y, exec (.tileLockRequest i l) s = .next t ∧ t.tx? i = some y ∧ y.ts = ts ∧ y.stamped = true ∧ (Still s → t.cores = s.cores) ∧ t.blocks = s.blocks ∧
      (con = [] → s.lockRoom x' l = true → FMap.find y.lines l = some .granted) ∧
      (con ≠ [] → older → s.queueRoom x' l = true → FMap.find y.lines l = some .queued ∧ t.hbm = s.hbm) ∧
      ((con = [] ∧ s.lockRoom x' l = false) ∨ (con ≠ [] ∧ ¬ (older ∧ s.queueRoom x' l = true)) →
        (∀ p ∈ y.lines, p.2 = .denied) ∧ y.attempt = x.attempt + 1 ∧ y.resume = s.cycle + min (16 * (x.attempt + 1)) 512 ∧ t.hbm = s.hbm) ∧
      ((con = [] ∧ s.lockRoom x' l = false) ∨ (con ≠ [] ∧ older ∧ s.queueRoom x' l = false) → ts ∈ FMap.getD t.starved (sliceOf (128 * l)) []) ∧
      (con ≠ [] ∧ ¬ older → (s.onLine i l).length < 16 → t.starved = s.starved) ∧
      (con ≠ [] ∧ ¬ older → 16 ≤ (s.onLine i l).length → ts ∈ FMap.getD t.starved (sliceOf (128 * l)) [])) ∧
  (∀ i l s x, s.tx? i = some x → FMap.find x.lines l = some .queued →
    (∀ y ∈ s.onLine i l, if FMap.find y.lines l = some .granted then x.store = false ∧ y.store = false else x.ts ≤ y.ts) →
    ∃ t y, exec (.tileLockGrant i l) s = .next t ∧ t.tx? i = some y ∧ FMap.find y.lines l = some .granted ∧
      (∀ m, m ≠ l → FMap.find y.lines m = FMap.find x.lines m) ∧ (Still s → t.cores = s.cores) ∧ t.blocks = s.blocks) ∧
  (∀ i s x p, s.tx? i = some x → p ∈ x.lines → p.2 = .denied → x.resume ≤ s.cycle →
    ∃ t y, exec (.tileLockRetry i) s = .next t ∧ t.tx? i = some y ∧ (∀ q ∈ y.lines, q.2 = .wanted) ∧ y.lines.map (·.1) = x.lines.map (·.1) ∧
      t.cores = s.cores ∧ t.hbm = s.hbm) ∧
  ∀ i s x o, s.tx? i = some x → x.port = none → x.store = true → (∀ l ∈ x.lines, l.2 = .granted) → (s.core x.core).x? x.op = some o → o.err = none →
    let ps := s.globPieces o.units
    (∀ p ∈ ps, writable (s.core x.core) o p.1 p.2 = true ∧ p.1.addr + p.2 ≤ Config.hbmBytes) → ps.length = o.units.length →
    ps.Pairwise (fun p q => p.1.addr + p.2 ≤ q.1.addr ∨ q.1.addr + q.2 ≤ p.1.addr) → Unlogged s →
    ∃ t, exec (.tileTransactionPerform i) s = .next t ∧ t.tx? i = none ∧ t.blocks = s.blocks ∧ t.host = s.host ∧
      (∀ (j : Nat) (p : Pa × Nat) (u : CopyUnit), ps[j]? = some p → o.units[j]? = some u → ∀ b < p.2, t.hbm.byte (p.1.addr + b) = BitVec.ofNat 8 (u.data.getD 0 / 256 ^ b)) ∧
      ∀ a, (∀ p ∈ ps, a < p.1.addr ∨ p.1.addr + p.2 ≤ a) → t.hbm.byte a = s.hbm.byte a

/-! ## Steps of the machine: the scheduler -/

/-- R239, R292 to R296, R298 and R305: a queue admits the card at RDIDX with its edges, or stops with QERR when its indexes are too far apart; an enqueue is
written at WRIDX; a task takes the next chunk of its card; priorities age; completed cards leave the window, write DONEVAL, add to DONECOUNT and free
those that waited for them (R308). -/
def Obligations.CardSteps : Prop :=
  (∀ q s, q < 4096 → s.serving = true → (s.queue q).state = 1 → 2 ^ (s.queue q).log2 < (s.queue q).depth → s.stopAllows q (s.queue q).rd = true →
    s.qAddr q + 64 ≤ Config.hbmBytes → Unlogged s →
    ∃ t f, exec (.cardAdmit q) s = .next t ∧ t.cards = s.cards ∧ (t.queue q).state = 3 ∧ (t.func f).fstatus.testBit 2 = true ∧ Signalled t f 2) ∧
  (∀ q s addr h fps k, canCardAdmit q s = true → (s.queue q).depth ≤ 2 ^ (s.queue q).log2 → s.qAddr q + 64 ≤ Config.hbmBytes → Unwatched s →
    let d := s.queue q
    let asid := s.aspaceOf d.rcb
    s.vaGet asid (d.entry d.rd) 8 = some addr → addr % 64 = 0 → s.vaGet asid addr 128 = some h →
    fps.length = min (fieldAt h 2 1) 16 → (∀ i x, fps[i]? = some x → s.vaGet asid (addr + 128 + 32 * i) 32 = some x) →
    (s.objOf asid (fieldAt h 0x10 8)).isSome → (s.vaGet asid (fieldAt h 0x10 8) 64).map kernelOf = some k →
    s.cardError asid h fps (some k) = none →
    ∃ t c, exec (.cardAdmit q) s = .next t ∧ t.cards = s.cards ++ [c] ∧ (t.queue q).rd = (d.rd + 1) % 2 ^ 32 ∧ c.queue = q ∧ c.seq = d.rd ∧
      c.addr = BitVec.ofNat 64 addr ∧ c.rcb = d.rcb ∧ c.kernel = k ∧ c.fps = fps.map footprintOf ∧ c.dealt = 0 ∧ c.spec = .plain ∧
      c.argCount = fieldAt h 0x2C 4 ∧ c.domain = (if (fieldAt h 3 1).testBit 1 then 4096 + d.rcb else q) ∧
      c.edges = (s.cards.filter fun x => x.domain = c.domain && edgePairs x c != []).map (·.id) ∧ t.blocks = s.blocks ∧ t.cores = s.cores) ∧
  (∀ q s e, canCardAdmit q s = true → (s.queue q).depth ≤ 2 ^ (s.queue q).log2 →
    s.vaGet (s.aspaceOf (s.queue q).rcb) ((s.queue q).entry (s.queue q).rd) 8 = some e → e % 64 ≠ 0 →
    s.qAddr q + 64 ≤ Config.hbmBytes → Unlogged s →
    ∃ t f, exec (.cardAdmit q) s = .next t ∧ t.cards = s.cards ∧ (t.queue q).state = 3 ∧ (t.queue q).rd = (s.queue q).rd ∧
      t.fld (s.qAddr q) 0xA 1 = 1 ∧ t.fld (s.qAddr q) 0x28 8 = e ∧ (t.func f).fstatus.testBit 2 = true ∧ Signalled t f 2) ∧
  (∀ c i s e, (s.core c).enq[i]? = some e → canEnqueueApply c i s = true →
    let u := s.modCore c fun x => { x with enq := x.enq.eraseIdx i }
    let d := u.queue e.queue
    (∀ v, u.vaPut (u.aspaceOf d.rcb) (d.entry d.wr) 8 e.card.toNat = some v →
      exec (.enqueueApply c i) s = .next (v.setFld (v.qAddr e.queue) 0x1C 4 ((d.wr + 1) % 2 ^ 32))) ∧
    (u.vaPut (u.aspaceOf d.rcb) (d.entry d.wr) 8 e.card.toNat = none →
      exec (.enqueueApply c i) s = .next (u.queueError e.queue 12 e.card.toNat))) ∧
  (∀ id s c, s.card? id = some c → canTaskDeal id s = true →
    let r := c.argCount - c.dealt
    let n := min r (max c.chMin (min c.chMax (ceilDiv r (2 * (((s.tasksOf id).filter fun p => p.2.placed).length + 1)))))
    ∃ t x, exec (.taskDeal id) s = .next t ∧ t.tasks = FMap.set s.tasks s.nextId x ∧ x.card = id ∧ x.number = c.tasksDealt ∧ x.first = c.dealt ∧
      x.count = n ∧ x.taken = 0 ∧ x.placed = false ∧ x.blocks = [] ∧
      t.card? id = some { c with dealt := c.dealt + n, tasksDealt := c.tasksDealt + 1 } ∧ t.hbm = s.hbm ∧ t.cores = s.cores ∧ t.blocks = s.blocks) ∧
  (∀ id s c, s.card? id = some c → s.cardWaits c = true → c.readyAt + Config.agePeriod * (c.aged + 1) ≤ s.cycle →
    exec (.priorityAge id) s = .next (s.modCard id fun c => { c with aged := c.aged + 1 })) ∧
  (∀ k n s c x, FMap.find s.tasks k = some x → s.card? x.card = some c → canClusterReserve k n s = true →
    exec (.clusterReserve k n) s = .next { s with reserved := FMap.set s.reserved c.die (k, n) }) ∧
  (∀ id s c, s.card? id = some c → canCardComplete id s = true →
    ∃ t, exec (.cardComplete id) s = .next t ∧ (∀ x ∈ t.cards, x.id ≠ id) ∧
      (∀ x ∈ s.cards, x.id ≠ id → ∃ y ∈ t.cards, y.id = x.id ∧ y.edges = x.edges.erase id) ∧
      (c.doneFlags.testBit 1 = true → Signalled t (s.ownerOf c.asid) c.msix) ∧
      (Unwatched s → s.qAddr c.queue + 64 ≤ Config.hbmBytes → let n := s.fld (s.qAddr c.queue) 0x20 8
        (c.doneFlags.testBit 0 = false → t.fld (s.qAddr c.queue) 0x20 8 = (n + 1) % 2 ^ 64) ∧
        ∀ x a, c.doneFlags.testBit 0 = true → let g := c.doneAddr.toNat
          g % 8 = 0 → s.walk 0 c.asid 0 g .write true = .ok x → s.walk 0 c.asid 0 ((g + 7) % 2 ^ 64) .write true = .ok x →
          g % 2 ^ 52 + 8 ≤ x.va + x.size → s.localAddr (x.paOf g) = some a → a + 8 ≤ Config.hbmBytes →
          (a + 8 ≤ s.qAddr c.queue + 0x20 ∨ s.qAddr c.queue + 0x28 ≤ a) →
          t.devGet a 8 = c.doneVal.toNat ∧ t.fld (s.qAddr c.queue) 0x20 8 = (n + 1) % 2 ^ 64)) ∧
  ∀ f i q v s, f ≤ 64 → s.doorQueue f i = some q →
    (s.queueOf f q = false → exec (.doorbell f i v) s = .next s) ∧
    (s.queueOf f q = true → q ∈ s.queues → (f = 0 ∨ (s.func f).d3hot = false) → s.qAddr q + 64 ≤ Config.hbmBytes → Unlogged s →
      ∃ t, exec (.doorbell f i v) s = .next t ∧ (t.queue q).wr = v % 2 ^ 32 ∧ (t.queue q).rd = (s.queue q).rd ∧ t.cards = s.cards ∧
        ∀ j < 4, (t.cp (4 * ((s.queue q).die % 2) + j)).doors = (s.cp (4 * ((s.queue q).die % 2) + j)).doors ++ [q] ∧
          (t.cp (4 * ((s.queue q).die % 2) + j)).mip.testBit 16 = true)

/-- R8 to R15, R297, R302, R304, R306, R344 to R348 and R360: placing a gang starts its warps as R14 and R297 say; a pre-empted block leaves its core
with its context kept, and resumes with its registers, scratchpad and position, and with its results in flight as their records hold them; a complete
task leaves. That a context is resumed from the model's own record of it (log 40), and that the lane base counts the whole widths of the lower warps of
the role (log 46), are the model's choices. -/
def Obligations.GangSteps : Prop :=
  (∀ (card : Card) (t : Task) b i r tsa now pos, card.user.length = 4 →
    let w := launchWarp card t b i r tsa now pos
    let live := if card.lanes = 0 ∨ 32 * r.k ≤ card.lanes then 32 * r.k else card.lanes
    w.block = b ∧ w.windex = i ∧ w.role = r.role ∧ w.k = r.k ∧ w.budget = r.budget ∧
    w.lbase = (((card.kernel.roleList.take i).filter fun q => q.role = r.role).map fun q => 32 * q.k).sum ∧ w.pc = card.code + BitVec.ofNat 64 (32 * r.entry) ∧
    (∀ l < 1024, w.mask.getLsbD l = decide (l < live)) ∧ (∀ j u, card.user[j]? = some u → w.s (j + 1) = u) ∧
    w.s 5 = card.argBase + BitVec.ofNat 64 (card.argStride * t.first) ∧ w.s 6 = BitVec.ofNat 64 t.count ∧ w.s 7 = BitVec.ofNat 64 card.argStride ∧
    w.s 8 = card.addr ∧ w.s 9 = BitVec.ofNat 64 t.number ∧ (∀ j, 10 ≤ j → w.s j = 0) ∧ w.s 0 = 0 ∧ w.loops = [] ∧ w.flags = [] ∧ w.flight = [] ∧
    w.priv = false ∧ w.tick = 0 ∧ w.fel = 0 ∧ w.fes = 0 ∧ w.fen = 0 ∧ w.cause = 0 ∧ w.epc = 0 ∧ w.imask = 0 ∧ w.tsa = BitVec.ofNat 64 tsa) ∧
  (∀ g p s x card, FMap.find s.tasks g = some x → s.card? x.card = some card → canGangPlace g [p] s = true → s.trace = none →
    ∃ t b blk, exec (.gangPlace g [p]) s = .next t ∧ t.block? b = some blk ∧ blk.core = p.core ∧ blk.base = p.base ∧ blk.size = card.scratch ∧
      blk.sp = [] ∧ blk.task = g ∧ blk.warps = p.slots ∧ FMap.find t.tasks g = some
        { x with blocks := x.blocks ++ [b], placed := true, handler := s.handlerOf card.rcb, fdom := s.fdomOf card.rcb } ∧
      t.hbm = s.hbm ∧ (t.core p.core).l1 = [] ∧
      ∀ i k r a, p.slots[i]? = some k → card.kernel.roleList[i]? = some r → p.tsas[i]? = some a →
        ∃ pos, t.warp? p.core k = some { launchWarp card x b i r a s.cycle pos with seq := (s.core p.core).next, first := (s.core p.core).next }) ∧
  (∀ k s, canTaskComplete k s = true → ∃ t, exec (.taskComplete k) s = .next t ∧ FMap.find t.tasks k = none ∧
    ∀ x, FMap.find s.tasks k = some x → ∀ b ∈ x.blocks, t.block? b = none) ∧
  (∀ b s x k, s.block? b = some x → FMap.find s.tasks x.task = some k → k.killed = false → (∀ i ∈ k.blocks, s.holdsTrap i = false) →
    ∃ t, exec (.preemptRequest b) s = .next t ∧ t.hbm = s.hbm ∧ ∀ i ∈ k.blocks, ∀ y, s.block? i = some y →
      ∃ y', t.block? i = some y' ∧ y'.preempt = true ∧ y'.sp = y.sp ∧ ∀ j ∈ y.warps, ∀ w, s.warp? y.core j = some w →
        ∃ w', t.warp? y.core j = some w' ∧ w'.preempt = true ∧ SameRegs w w') ∧
  (∀ b area s x card k, canBlockContextSave b area s = true → s.block? b = some x → s.cardOfBlock b = some card → FMap.find s.tasks x.task = some k →
    ∃ t k' v, exec (.blockContextSave b area) s = .next t ∧ t.block? b = none ∧ (∀ j ∈ x.warps, t.warp? x.core j = none) ∧
      FMap.find t.tasks x.task = some k' ∧ k'.saved = k.saved ++ [v] ∧ k'.blocks = k.blocks.erase b ∧ v.area = area ∧ v.block.sp = x.sp ∧
      v.formerCore = x.core) ∧
  (∀ g p s k v, FMap.find s.tasks g = some k → k.saved = [v] → v.block.grank < 8 → v.restart = false → canBlockResume g [p] s = true →
    s.trace = none →
    ∃ t b blk k', exec (.blockResume g [p]) s = .next t ∧ t.block? b = some blk ∧ blk.core = p.core ∧ blk.base = p.base ∧ blk.sp = v.block.sp ∧
      blk.size = v.block.size ∧ blk.warps = p.slots ∧ FMap.find t.tasks g = some k' ∧ k'.saved = [] ∧ k'.placed = true ∧ k'.blocks = [b] ∧
      ∀ (i : Nat) (q : Nat × Warp) (j : Nat), v.warps[i]? = some q → p.slots[i]? = some j → ∃ w', t.warp? p.core j = some w' ∧ w'.vregs = q.2.vregs ∧
        w'.sregs = q.2.sregs ∧ w'.vpred = q.2.vpred ∧ w'.spred = q.2.spred ∧ w'.mask = q.2.mask ∧ w'.loops = q.2.loops ∧ w'.pc = q.2.pc ∧
        w'.tick = q.2.tick ∧ w'.due = q.2.due ∧ w'.flight = (q.2.records.map Landing.asRecord).filter Landing.lands ∧ w'.hold = q.2.hold) ∧
  ∀ c i s a, (s.core c).clearing[i]? = some a → a.2.2 ≤ s.cycle →
    exec (.scratchClear c i) s = .next (s.modCore c fun x => { x with clearing := x.clearing.eraseIdx i })

/-- R309 to R320: speculation. A launch takes a view that maps its draft regions to drafts, chained regions to their sources' pages and its own to next
buffers, and counts LAUNCHES; tasks run once the drafts hold the predictions; a write takes a shadow page that first holds what its card sees (an empty
pool makes a squash due); a producer's regions flip, each once: CUR, HIST, VERSION and the leaves of its mapping, with a shootdown; a commit moves
shadow bytes to the pages mapped then, releases enqueues and held faults and counts COMMITS; a squash kills tasks and counts SQUASHES. -/
def Obligations.SpeculationSteps : Prop :=
  (∀ id s k, s.card? id = some k → canSpecLaunch id s = true →
    ∃ t k' v, exec (.specLaunch id) s = .next t ∧ t.card? id = some k' ∧ k'.spec = .drafting ∧ s.freeView k.die = some v ∧
      FMap.find k'.views k.die = some v ∧ k'.depth = launchDepth (s.sources k) ∧ (Unwatched s → t.cores = s.cores) ∧ t.blocks = s.blocks ∧
      (∀ i ∈ s.draftFps k, ∀ f a, k.fps[i]? = some f → s.vaPa k.asid f.vrd = some a → s.vrd? k.asid f = some (vrdOf (s.devGet a 64)) →
        FMap.find k'.drafts i = some (vrdOf (s.devGet a 64)).version ∧ ∃ d ∈ t.drafts, d.vrd = a ∧ d.version = (vrdOf (s.devGet a 64)).version ∧
          d.predictor = f.predictor ∧ d.die = k.die ∧ ⟨k.die, v, f.base % 2 ^ 52, d.bytes, d.page⟩ ∈ t.overrides) ∧
      (∀ j, (j, some .chained) ∈ s.sources k → ∀ u o, FMap.find j.views k.die = some u → o ∈ s.overrides → o.die = k.die → o.view = u →
        (∃ f ∈ j.fps, f.wr = true ∧ overlap o.va o.size (f.base % 2 ^ 52) f.bytes = true) → { o with view := v } ∈ t.overrides) ∧
      (k.views = [] → ∀ f ∈ k.fps, f.pred = true → f.wr = true → ∀ r b, s.vrd? k.asid f = some r → r.buf[(r.cur + 1) % 3]? = some b →
        ⟨k.die, v, r.base % 2 ^ 52, r.span, b⟩ ∈ t.overrides) ∧
      (Unwatched s → k.rcb + 0x48 ≤ Config.hbmBytes → t.fld k.rcb 0x40 8 = (s.fld k.rcb 0x40 8 + 1) % 2 ^ 64) :) ∧
  (∀ id s k, s.card? id = some k → k.spec = .drafting →
    ∃ t k', exec (.draftWritten id) s = .next t ∧ t.card? id = some k' ∧ k'.spec = .running ∧ k'.readyAt = s.cycle ∧ k'.aged = 0 ∧
      (Unwatched s → t.cores = s.cores) ∧ t.blocks = s.blocks ∧
      (∀ i ∈ k.drafts, ∀ f d, s.draftOf k i.1 = some (f, d) → { d with written := true } ∈ t.drafts) ∧
      ∀ d, (k.drafts.filterMap fun i => (s.draftOf k i.1).map (·.2)) = [d] → d.written = false →
        let v := vrdOf (s.devGet d.vrd 64)
        let n := vrdElem v.fmt
        let b1 := v.bufAt d.version
        let b0 := v.bufAt ((d.version + 2 ^ 64 - 1) % 2 ^ 64)
        v.bytes % n = 0 → d.page + v.span ≤ Config.hbmBytes → Unwatched s →
        (∀ i < v.bytes / n, t.devGet (d.page + n * i) n =
          predict v.fmt d.predictor (s.devGet (b1 + n * i) n) (s.devGet (b0 + n * i) n) % 256 ^ n) ∧
        (∀ j, v.bytes ≤ j → j < v.span → t.devGet (d.page + j) 1 = s.devGet (b1 + j) 1) ∧
        ∀ a, (a < d.page ∨ d.page + v.span ≤ a) → t.hbm.byte a = s.hbm.byte a :) ∧
  (∀ id s k, s.card? id = some k → k.ringCopy = true → k.ready = true →
    ∃ t, exec (.pbufCopyDone id) s = .next t ∧ t.card? id = some { k with ringCopy := false } ∧ (Unwatched s → t.cores = s.cores) ∧ t.blocks = s.blocks ∧
      ∀ f v a b, (k.fps.filter fun f => f.pred && f.rd && f.wr) = [f] → s.vrd? k.asid f = some v → v.buf[v.cur]? = some a →
        v.buf[(v.cur + 1) % 3]? = some b → b + v.bytes ≤ Config.hbmBytes → Unwatched s → t.devGet b v.bytes = s.devGet a v.bytes ∧
          ∀ x, (x < b ∨ b + v.bytes ≤ x) → t.hbm.byte x = s.hbm.byte x :) ∧
  (∀ id s k, s.card? id = some k → k.finished = false → (∃ f ∈ k.fps, f.pred = true ∧ f.wr = true) → k.ringCopy = false → s.tasksDone k = true →
    k.spec = .plain ∨ k.spec = .committed →
    ∃ t k', exec (.producerCommit id) s = .next t ∧ t.card? id = some k' ∧ k'.finished = true ∧ k'.spec = k.spec ∧ t.blocks = s.blocks ∧
      (k.regions.map (·.vrd)).Nodup ∧ (∀ f, f ∈ k.regions → f ∈ k.fps ∧ f.pred = true ∧ f.wr = true) ∧
      (∀ f ∈ k.fps, f.pred = true → f.wr = true → ∃ g ∈ k.regions, g.vrd = f.vrd) ∧
      (Unlogged s → t.hbm = (k.regions.foldl (fun u f => u.flipRegion k f) s).hbm) :) ∧
  (∀ (s : State) (c : Card) (f : Footprint) (v : Vrd) (a tb b : Nat) (at' : Nat → Nat), s.vrd? c.asid f = some v → v.buf[(v.cur + 1) % 3]? = some b →
    let p := pageSize v.page
    let n := v.span / p
    let vrd : Nat → Prop := fun x => a + 0x29 ≤ x ∧ x < a + 0x38
    (∀ m : Memory, (∀ x, ¬ vrd x → m.byte x = s.hbm.byte x) → let u := { s with hbm := m }
      u.root c.asid = some tb ∧ ∀ off ∈ [0x29, 0x2A, 0x30], u.vaPa c.asid (f.vrd + off) = some (a + off) :) →
    (∀ i < n, ∀ m : Memory, (∀ x, ¬ vrd x → (∀ j < n, j ≠ i → x < at' j ∨ at' j + 8 ≤ x) → m.byte x = s.hbm.byte x) →
      ({ s with hbm := m } : State).leafAt ((v.base + p * i) % 2 ^ 52) 4 0 tb = some (at' i) :) →
    (∀ i < n, at' i + 8 ≤ Config.hbmBytes ∧ (at' i + 8 ≤ a + 0x29 ∨ a + 0x38 ≤ at' i) ∧ ∀ j < n, j ≠ i → at' i + 8 ≤ at' j ∨ at' j + 8 ≤ at' i :) →
    a + 0x38 ≤ Config.hbmBytes → b + v.span ≤ Config.hbmBytes → Unwatched s →
    let t := s.flipRegion c f
    (t.fld a 0x29 1 = (v.cur + 1) % 3 :) ∧ (t.fld a 0x2A 1 = min (v.hist + 1) 3 :) ∧ (t.fld a 0x30 8 = (v.version + 1) % 2 ^ 64 :) ∧
    (∀ i < n, let e := s.devGet (at' i) 8
      let e' := t.devGet (at' i) 8
      e' % 2 ^ 8 = e % 2 ^ 8 ∧ e' / 2 ^ 8 % 2 ^ 46 = (b + p * i) / 256 ∧ e' / 2 ^ 54 = e / 2 ^ 54 :) ∧
    (∀ x, ¬ (a + 0x29 ≤ x ∧ x < a + 0x2B) → ¬ (a + 0x30 ≤ x ∧ x < a + 0x38) → (∀ i < n, x < at' i ∨ at' i + 8 ≤ x) → t.hbm.byte x = s.hbm.byte x) ∧
    ∃ h, t.shoots = s.shoots ++ [h] ∧ h.func = none ∧ h.view = none ∧ h.asid = c.asid ∧ h.va = v.base ∧ h.bytes = v.span :) ∧
  (∀ c k s w va card x real, s.warp? c k = some w → w.stop = .accept → s.shadowWanted c k w = some va → s.cardOfBlock w.block = some card →
    let cx := s.ctxOf w.block c
    s.walk (dieOf c) cx.1 cx.2 va .write true = .ok x → s.walk (dieOf c) cx.1 0 va .write true = .ok real →
    (s.poolTake card.die x.size x.size = none → exec (.shadowFill c k) s = .next (s.modCard card.id fun y => { y with failed := true })) ∧
    ∀ page u, s.poolTake card.die x.size x.size = some (page, u) → page + x.size ≤ Config.hbmBytes → Unwatched s →
      ∃ t card', exec (.shadowFill c k) s = .next t ∧ t.card? card.id = some card' ∧
        card'.shadows = card.shadows ++ [⟨x.va, x.size, page, real.pa.addr⟩] ∧ t.devGet page x.size = s.devGet x.pa.addr x.size ∧
        (∀ q ∈ card.views, ⟨q.1, q.2, x.va, x.size, page⟩ ∈ t.overrides) ∧ t.warp? c k = some w ∧ t.blocks = s.blocks :) ∧
  (∀ id s k, s.card? id = some k → k.spec = .running → k.failed = false → (∀ i ∈ k.drafts, i.1 ∈ k.passed) →
    (∀ h ∈ s.shoots, h.func = none → h.asid ≠ k.asid) → (∀ j ∈ k.chained, ∀ x, s.card? j = some x → x.spec = .committed) →
    ∃ t k', exec (.specCommit id) s = .next t ∧ t.card? id = some k' ∧ k'.spec = .committed ∧ k'.shadows = [] ∧ t.blocks = s.blocks ∧
      (Unwatched s → ∀ c j w, s.warp? c j = some w → (s.cardOfBlock w.block).map (·.id) = some id → w.trap ≠ none → s.asyncOpen c j = false →
        canTrapEntry c j t = true) ∧
      (∀ re : Shadow → Nat, (∀ h ∈ k.shadows, ∃ x, s.walk k.die k.asid 0 (h.va + h.va / 2 ^ 51 * (2 ^ 64 - 2 ^ 52)) .write true = .ok x ∧
          s.localAddr (x.paOf h.va) = some (re h)) →
        (∀ h ∈ k.shadows, re h + h.size ≤ Config.hbmBytes ∧ (k.rcb + 0x50 ≤ re h ∨ re h + h.size ≤ k.rcb + 0x48) ∧
          ∀ g ∈ k.shadows, g.page + g.size ≤ re h ∨ re h + h.size ≤ g.page) →
        k.shadows.Pairwise (fun h g => re h + h.size ≤ re g ∨ re g + g.size ≤ re h) → k.buffered = [] → k.rcb + 0x50 ≤ Config.hbmBytes → Unwatched s →
        (∀ h ∈ k.shadows, t.devGet (re h) h.size = s.devGet h.page h.size) ∧ t.fld k.rcb 0x48 8 = (s.fld k.rcb 0x48 8 + 1) % 2 ^ 64 ∧
        ∀ a, (∀ h ∈ k.shadows, a < re h ∨ re h + h.size ≤ a) → (a < k.rcb + 0x48 ∨ k.rcb + 0x50 ≤ a) → t.hbm.byte a = s.hbm.byte a) ∧
      ∀ e x a, k.shadows = [] → k.buffered = [e] → s.bufferedFree e = true → Unwatched s →
        let d := s.queue e.queue
        let g := d.entry d.wr
        s.walk 0 (s.aspaceOf d.rcb) 0 g .write true = .ok x → s.walk 0 (s.aspaceOf d.rcb) 0 ((g + 7) % 2 ^ 64) .write true = .ok x →
        g % 2 ^ 52 + 8 ≤ x.va + x.size → s.localAddr (x.paOf g) = some a → a + 8 ≤ Config.hbmBytes → s.qAddr e.queue + 64 ≤ Config.hbmBytes →
        (a + 8 ≤ s.qAddr e.queue + 0x1C ∨ s.qAddr e.queue + 0x20 ≤ a) → (k.rcb + 0x50 ≤ a ∨ a + 8 ≤ k.rcb + 0x48) →
        (k.rcb + 0x50 ≤ s.qAddr e.queue + 0x1C ∨ s.qAddr e.queue + 0x20 ≤ k.rcb + 0x48) →
        k'.buffered = [] ∧ t.devGet a 8 = e.card.toNat ∧ t.fld (s.qAddr e.queue) 0x1C 4 = (d.wr + 1) % 2 ^ 32 :) ∧
  (∀ id s k, s.card? id = some k → k.failed = true → k.speculating = true →
    ∃ t k', exec (.specSquash id) s = .next t ∧ t.card? id = some k' ∧ k'.spec = .plain ∧ k'.dealt = 0 ∧ k'.drafts = [] ∧ k'.buffered = [] ∧
      k'.failed = false ∧ k'.views = [] ∧ (∀ g x, FMap.find t.tasks g = some x → x.card = id → x.killed = true ∧ x.squashed = true) ∧
      (Unwatched s → (∀ c ∈ s.cards, id ∉ c.chained) → k.rcb + 0x58 ≤ Config.hbmBytes → t.fld k.rcb 0x50 8 = (s.fld k.rcb 0x50 8 + 1) % 2 ^ 64) :) ∧
  (∀ i s h, s.shoots[i]? = some h → (∀ q ∈ h.waitOps, s.pending q = false) → (∀ x ∈ h.waitTx, s.tx? x = none) →
    ∃ t, exec (.shootdownComplete i) s = .next t ∧ t.shoots = s.shoots.eraseIdx i ∧ t.hbm = s.hbm ∧ t.blocks = s.blocks ∧
      (∀ c, ∀ e ∈ (t.core c).tlb, ¬ (e.asid = h.asid ∧ (h.view = none ∨ h.view = some e.view) ∧ e.va < h.va % 2 ^ 52 + h.bytes ∧
        h.va % 2 ^ 52 < e.va + e.size)) ∧
      (∀ f, h.func = some f → Answered t f 0) :)

/-! ## Steps of the machine: firmware and the host -/

/-- R396 to R401, R431 and R433 with R353: mailbox commands. Each answers with its status, clears BUSY, sets MBOXDONE and signals vector 0; one that is
refused does nothing else; the others have the effect that R397's table gives. Which words of MBOXDATA hold the arguments and the responses is the
model's choice (log 41). -/
def Obligations.MailboxCommands : Prop :=
  (∀ (s : State) (f st : Nat) (resp : List (Nat × Nat)), Answered (s.finish f st resp) f st ∧ (s.finish f st resp).hbm = s.hbm ∧ (s.finish f st resp).cores = s.cores ∧
    (s.finish f st resp).cards = s.cards ∧ (s.finish f st resp).blocks = s.blocks) ∧
  (∀ p ∈ ([(.identify, 1), (.podSet, 2), (.aspaceSet, 3), (.shootdown, 4), (.queueSet, 5), (.queueState, 6), (.rcbRefresh, 7), (.faultReply, 8),
      (.killDomain, 9), (.debugHalt, 10), (.debugStop, 11), (.attest, 12), (.objLoad, 13), (.objUnload, 14), (.specPool, 16), (.dumpSet, 17),
      (.traceSet, 18), (.fwLoad, 19), (.fwSwap, 20), (.diag, 21), (.msSet, 22)] : List ((Nat → Instr) × Nat)),
    ∀ s f e, Waits s f p.2 → s.refusal f p.2 = some e → exec (p.1 f) s = .next (s.answer f e)) ∧
  (∀ s f, Waits s f 1 → s.refusal f 1 = none → exec (.identify f) s = .next (s.finish f 0
    [(1, Config.partId), (2, 9), (3, s.boot.svc), (4, s.secver 0), (5, s.secver 1), (6, s.secver 2), (7, s.devid)])) ∧
  (∀ s f, Waits s f 2 → s.refusal f 2 = none → let x := s.func f
    (143 < x.arg 1 → exec (.podSet f) s = .next (s.answer f 2)) ∧
    (x.arg 1 ≤ 143 → exec (.podSet f) s = .next ({ s with
      devid := x.arg 1
      podallow := x.arg 2 + x.arg 3 * 2 ^ 64 + x.arg 4 % 2 ^ 16 * 2 ^ 128 }.answer f 0))) ∧
  (∀ s f, Waits s f 3 → s.refusal f 3 = none → let x := s.func f
    x.arg 1 ≤ 4095 → x.arg 2 % 65536 = 0 → x.arg 2 < 2 ^ 64 → s.ownsAsid f (x.arg 1) = true → s.fw.aspaces + 65536 ≤ Config.hbmBytes → Unlogged s →
    ∃ t, exec (.aspaceSet f) s = .next t ∧ Answered t f 0 ∧ t.fld (s.fw.aspaces + 16 * x.arg 1) 0 8 = x.arg 2 ∧
      t.ownerOf (x.arg 1) = f % 128) ∧
  (∀ s f, Waits s f 4 → s.refusal f 4 = none → (s.func f).arg 1 ≤ 4095 → s.ownsAsid f ((s.func f).arg 1) = true →
    ∃ t h, exec (.shootdown f) s = .next t ∧ t.shoots = s.shoots ++ [h] ∧ h.func = some f ∧ h.asid = (s.func f).arg 1 ∧ h.va = (s.func f).arg 3 ∧
      h.bytes = (s.func f).arg 4 ∧ t.func f = s.func f ∧ t.hbm = s.hbm) ∧
  (∀ s f, Waits s f 5 → s.refusal f 5 = none → let x := s.func f
    let d := s.devGet (x.arg 2) 64
    x.arg 1 ≤ 4095 → (f = 0 ∨ x.arg 3 ≤ 63) → s.queueOk (x.arg 1) d = true → s.ownsRegion f (fieldAt d 0x10 8) = true → (s.queue (x.arg 1)).rcb = 0 →
    s.qAddr (x.arg 1) + 64 ≤ Config.hbmBytes → Unlogged s →
    ∃ t, exec (.queueSet f) s = .next t ∧ Answered t f 0 ∧ x.arg 1 ∈ t.queues ∧ (t.queue (x.arg 1)).ring = fieldAt d 0 8 ∧ (t.queue (x.arg 1)).log2 = fieldAt d 8 1 ∧
      (t.queue (x.arg 1)).state = fieldAt d 9 1 ∧ (t.queue (x.arg 1)).rcb = fieldAt d 0x10 8 ∧
      FMap.find (t.func f).doors (if f = 0 then x.arg 1 else x.arg 3) = some (x.arg 1)) ∧
  (∀ s f, Waits s f 6 → s.refusal f 6 = none → let x := s.func f
    x.arg 1 ≤ 4095 → x.arg 2 ≤ 2 → s.ownsQueue f (x.arg 1) = true → ((s.queue (x.arg 1)).state ≠ 3 ∨ x.arg 2 = 2) →
    exec (.queueState f) s = .next ((s.setFld (s.qAddr (x.arg 1)) 9 1 (x.arg 2)).answer f 0)) ∧
  (∀ s f, Waits s f 7 → s.refusal f 7 = none → (s.func f).arg 1 ≠ 0 → FMap.find s.rcbs ((s.func f).arg 1) = none →
    exec (.rcbRefresh f) s = .next (s.answer f 2)) ∧
  (∀ s f r, Waits s f 7 → s.refusal f 7 = none → f = 0 → let x := s.func f
    let img := s.hostGet (x.arg 2) 128
    FMap.find s.rcbs (x.arg 1) = some r → x.arg 1 ≠ 0 → rcbRanges img = true → treeOk (FMap.set s.rcbs (x.arg 1) (rcbOf img r.owner)) = true →
    ∃ t, exec (.rcbRefresh f) s = .next t ∧ Answered t f 0 ∧ FMap.find t.rcbs (x.arg 1) = some (rcbOf img r.owner) ∧
      ∀ a, a ≠ x.arg 1 → FMap.find t.rcbs a = FMap.find s.rcbs a) ∧
  (∀ s f, Waits s f 7 → s.refusal f 7 = none → f ≠ 0 → let x := s.func f
    x.arg 1 = 0 ∨ (FMap.find s.rcbs (x.arg 1)).isSome → fieldAt (s.hostGet (x.arg 2) 128) 0 8 = 0 → exec (.rcbRefresh f) s = .next (s.answer f 3)) ∧
  (∀ s f q, Waits s f 8 → s.refusal f 8 = none → let x := s.func f
    FMap.find x.asked (x.arg 1) = some q → x.arg 2 ≤ 2 → exec (.faultReply f) s = .next
      (((s.modFunc f fun y => { y with asked := FMap.erase y.asked (x.arg 1) }).replyCode q.1 q.2 (x.arg 2)).answer f 0)) ∧
  (∀ s f d, Waits s f 9 → s.refusal f 9 = none → s.domainRoot ((s.func f).arg 1) = some d → s.ownsRegion f ((s.func f).arg 1) = true →
    ∃ t, exec (.killDomain f) s = .next t ∧ Answered t f 0 ∧ (∀ c ∈ t.cards, t.domainRoot c.rcb ≠ some d)) ∧
  (∀ s f w, Waits s f 10 → s.refusal f 10 = none → let x := s.func f
    s.warp? (x.arg 1) (x.arg 2) = some w → s.ownsAsid f (s.ctxOf w.block (x.arg 1)).1 = true →
    exec (.debugHalt f) s = .next ((s.setWarp (x.arg 1) (x.arg 2) { w with halt := true }).answer f 0)) ∧
  (∀ s f, Waits s f 11 → s.refusal f 11 = none → let x := s.func f
    x.arg 1 ≤ 4095 → s.ownsQueue f (x.arg 1) = true →
    exec (.debugStop f) s = .next ({ s with debugStops := FMap.set s.debugStops (x.arg 1) (x.arg 2 % 2 ^ 32) }.answer f 0)) ∧
  (∀ s f, Waits s f 14 → s.refusal f 14 = none → ∀ o, s.objs.find? (fun o => o.handle = (s.func f).arg 1) = some o →
    s.ownsAsid f o.asid = true → (∀ p ∈ s.objs, p.handle = (s.func f).arg 1 → s.objUsed p = false) →
    exec (.objUnload f) s = .next ({ s with objs := s.objs.filter fun p => p.handle ≠ o.handle }.answer f 0)) ∧
  (∀ s f, Waits s f 16 → s.refusal f 16 = none → let x := s.func f
    x.arg 1 ≤ 1 → x.arg 2 % 65536 = 0 → x.arg 3 % 65536 = 0 → x.arg 2 + x.arg 3 ≤ Config.hbmBytes → FMap.find s.pools (x.arg 1) = none →
    exec (.specPool f) s = .next ({ s with pools := FMap.set s.pools (x.arg 1) ⟨x.arg 2, x.arg 3, []⟩ }.answer f 0)) ∧
  (∀ s f, Waits s f 17 → s.refusal f 17 = none → ∃ t d, exec (.dumpSet f) s = .next t ∧ Answered t f 0 ∧ t.dump = some d ∧ d.addr = (s.func f).arg 1 ∧
    d.bytes = (s.func f).arg 2 ∧ d.sections = (s.func f).arg 3 ∧ t.hbm = s.hbm) ∧
  (∀ s f, Waits s f 18 → s.refusal f 18 = none → let x := s.func f
    x.arg 2 % 4096 = 0 → x.arg 1 + x.arg 2 ≤ Config.hbmBytes →
    exec (.traceSet f) s = .next ({ s with trace := if x.arg 2 = 0 then none else some ⟨x.arg 1, x.arg 2, x.arg 3, 0⟩ }.answer f 0)) ∧
  (∀ s f, Waits s f 21 → s.refusal f 21 = none → 1 ≤ (s.func f).arg 1 → (s.func f).arg 1 ≤ 4 → ((s.func f).arg 1 = 2 → (s.func f).arg 2 ≤ 7) →
    ∃ t v, exec (.diag f) s = .next t ∧ Answered t f 0 ∧ (t.func f).arg 1 = v % 2 ^ 64 ∧ t.hbm = s.hbm ∧ t.cores = s.cores) ∧
  (∀ s f, Waits s f 22 → s.refusal f 22 = none → let x := s.func f
    x.arg 1 % 65536 = 0 → x.arg 2 = 65536 → x.arg 1 + x.arg 2 ≤ Config.hbmBytes → x.arg 3 ≤ 1 → s.fw.msmap + 2 ^ 20 ≤ Config.hbmBytes →
    Unwatched s →
    ∃ t, exec (.msSet f) s = .next t ∧ Answered t f 0 ∧ t.msBit (x.arg 1) = decide (x.arg 3 = 1) ∧ t.cores = s.cores) ∧
  (∀ q s n, FMap.find s.debugStops q = some n → s.stopAllows q (s.queue q).rd = false → (∀ c ∈ s.cards, c.queue ≠ q) →
    q ∈ s.queues → s.qAddr q + 64 ≤ Config.hbmBytes → Unlogged s →
    ∃ t, exec (.debugStopped q) s = .next t ∧ (t.queue q).state = 2 ∧ FMap.find t.debugStops q = none ∧ t.cards = s.cards)

/-- R412 to R419 with R399: attestation, objects, and the loading and swapping of firmware images. That FWREADY falls, with vector 2 in every function,
while a swap runs (log 60), and how the words of a report lie and its leaf counts (log 64), are the model's reading. -/
def Obligations.FirmwareImageSteps : Prop :=
  (∀ s f, Waits s f 12 → s.refusal f 12 = none → (s.boot.ident = false → exec (.attest f) s = .next (s.answer f 6)) ∧
    (s.boot.ident = true → 1024 ≤ s.boot.reports → exec (.attest f) s = .next (s.answer f 5)) ∧
    (s.boot.ident = true → s.boot.reports < 1024 → ∃ t v, exec (.attest f) s = .next t ∧ Answered t f 0 ∧ t.boot.reports = s.boot.reports + 1 ∧
      t.hbm = s.hbm ∧
        t.hostGet ((s.func f).arg 5) 256 = s.report f v ((s.func f).data / 2 ^ 64 % 2 ^ 256) % 256 ^ 256)) ∧
  (∀ s f img, Waits s f 13 → s.refusal f 13 = none → let x := s.func f
    x.arg 1 ≤ 4095 → (FMap.find s.rcbs (x.arg 4)).isSome → s.ownsAsid f (x.arg 1) = true → s.ownsRegion f (x.arg 4) = true →
    s.object (x.arg 1) (x.arg 2) (x.arg 3) = some img →
    Unlogged s → let e := objectError Config.vendorKeyHash s.boot.svc (s.tsigOf (x.arg 4)) (fieldAt (s.devGet (s.tkeyOf (x.arg 4)) 64) 0 32) img (x.arg 3)
    (∀ n sig, e = some (n, sig) → ∃ t, exec (.objLoad f) s = .next t ∧ Answered t f (if sig then 7 else 2) ∧ (t.func f).arg 2 = n % 2 ^ 64 ∧
      t.objs = s.objs ∧ t.hbm = s.hbm) ∧
    (e = none → ∃ t o, exec (.objLoad f) s = .next t ∧ Answered t f 0 ∧ t.objs = s.objs ++ [o] ∧ o.handle = s.nextId ∧ o.asid = x.arg 1 ∧
      o.base = x.arg 2 ∧ o.nkernels = (kernelsOf img).length ∧ t.hbm = s.hbm)) ∧
  (∀ s f, Waits s f 19 → s.refusal f 19 = none → s.boot.ready = true → let x := s.func f
    x.arg 2 ≤ 0x100_0000 → x.arg 1 + x.arg 2 ≤ Config.hbmBytes → x.arg 3 ≤ 1 → x.arg 3 ≠ s.boot.slot →
    let img := s.devGet (x.arg 1) (x.arg 2)
    let kind := fieldAt img 6 2
    (kind < 3 → Unlogged s → s.slotArea (x.arg 3) kind + x.arg 2 ≤ Config.hbmBytes →
      ∃ t, exec (.fwLoad f) s = .next t ∧ t.devGet (s.slotArea (x.arg 3) kind) (x.arg 2) = img) ∧
    (imageOk Config.vendorKeyHash s.boot.svc img (x.arg 2) = false → ∃ t, exec (.fwLoad f) s = .next t ∧ Answered t f 7 ∧
      t.boot = { s.boot with images := if kind < 3 then FMap.erase s.boot.images (4 * x.arg 3 + kind) else s.boot.images } ∧ t.cards = s.cards ∧ t.blocks = s.blocks) ∧
    (imageOk Config.vendorKeyHash s.boot.svc img (x.arg 2) = true → ∃ t i, exec (.fwLoad f) s = .next t ∧ Answered t f 0 ∧
      FMap.find t.boot.images (4 * x.arg 3 + kind) = some i ∧ i.kind = kind ∧ i.secver = fieldAt img 8 4 ∧ t.boot.slot = s.boot.slot ∧
      (Unwatched s → t.cores = s.cores))) ∧
  (∀ s f, Waits s f 20 → s.refusal f 20 = none →
    (FMap.find s.boot.images (4 * (1 - s.boot.slot)) = none → exec (.fwSwap f) s = .next (s.answer f 2)) ∧
    (FMap.find s.boot.images (4 * (1 - s.boot.slot)) ≠ none → ∃ t, exec (.fwSwap f) s = .next t ∧ t.boot.swapping = some (1 - s.boot.slot) ∧
      t.serving = false ∧ (t.func f).busy = true ∧ t.cores = s.cores ∧ (∀ g < 65, Signalled t g 2) ∧ ∀ n < 8, (t.cp n).req = true ∧ (t.cp n).ack = false ∧ (t.cp n).mip.testBit 19 = true)) ∧
  (∀ n s, n < 8 → (s.cp n).req = true → (s.cp n).ack = false → (∃ j < 8, j ≠ n ∧ (s.cp j).ack = false) →
    exec (.quiesceAck n) s = .next (s.modCp n fun p => { p with ack := true })) ∧
  ∀ s slot, s.boot.swapping = some slot → s.boot.since + 11_250_000 ≤ s.cycle →
    ∃ t, exec .fwSwapTimeout s = .next t ∧ Answered t s.boot.swapFunc 8 ∧ t.boot.swapping = none ∧ t.boot.slot = s.boot.slot ∧ t.cores = s.cores ∧
      t.hbm = s.hbm ∧ ∀ n < 8, (t.cp n).req = false

/-- R363, R371, R375, R387, R391 to R396, R402, R410, R411 and R434: registers: reads that clear, writes of 1 that clear, GO, the mailbox words, the
timer, BAR2 and the freeing of event slots; a function in D3hot takes no access. Where registers that the rules give no place lie, that a write to MTIME
changes nothing, and that doorbells read 0, are the model's choices (log 44). -/
def Obligations.RegisterSteps : Prop :=
  (∀ n s q qs, n < 8 → (s.cp n).mode = 3 → (s.cp n).doors = q :: qs → ∃ t, exec (.hxdoorqRead n) s = .next t ∧ t.busData = BitVec.ofNat 64 (2 ^ 63 + q) ∧
    (t.cp n).doors = qs ∧ t.hbm = s.hbm ∧ t.cores = s.cores) ∧
  (∀ n s, n < 8 → (s.cp n).mode = 3 → (s.cp n).doors = [] → exec (.hxdoorqRead n) s = .next { s with busData := 0 }) ∧
  (∀ n s f fs, n < 8 → (s.cp n).mode = 3 → (s.cp n).mbox = f :: fs → ∃ t, exec (.hxmboxqRead n) s = .next t ∧ t.busData = BitVec.ofNat 64 (2 ^ 63 + f) ∧
    (∀ j < 8, f ∉ (t.cp j).mbox) ∧ t.hbm = s.hbm ∧ t.cores = s.cores) ∧
  (∀ i s, i < 64 → ∃ t, exec (.logdropRead i) s = .next t ∧ t.busData = BitVec.ofNat 64 (s.slice i).drop ∧ (t.slice i) = { s.slice i with drop := 0 } ∧
    t.hbm = s.hbm ∧ t.cores = s.cores) ∧
  (∀ i v s, i < 64 → exec (.logctlWrite i v) s = .next (s.modSlice i fun l =>
    { l with full := l.full && !v.testBit 2, wrap := v.testBit 1, en := v.testBit 0 })) ∧
  (∀ p d v s, p < 512 → d < 512 → exec (.routeTableWrite p d v) s =
    .next (if routeOk v then { s with routes := FMap.set s.routes (512 * p + d) (2 ^ 63 + v % 2 ^ 53) } else s)) ∧
  (∀ n s, n < 8 → (s.cp n).mode = 3 → exec (.heartbeatPet n) s = .next (s.modCp n fun p => { p with beat := s.cycle })) ∧
  (∀ i ∈ ([.hxdoorqRead, .hxmboxqRead, .heartbeatPet] : List (Nat → Instr)), ∀ n s, n < 8 → (s.cp n).mode < 3 →
    exec (i n) s = .next (s.modCp n Cp.illegal)) ∧
  (∀ f v s, 0 < f → (s.func f).d3hot = true → exec (.fstatusWrite f v) s = .next s ∧ exec (.evtdropRead f) s = .next s) ∧
  (∀ f v s, f ≤ 64 → f = 0 ∨ (s.func f).d3hot = false → ∃ t, exec (.fstatusWrite f v) s = .next t ∧ t.hbm = s.hbm ∧ t.cores = s.cores ∧
    ∀ i < 64, (t.func f).fstatus.testBit i = ((s.func f).fstatus.testBit i && !(decide (i ∈ [0, 1, 2, 3, 6]) && v.testBit i))) ∧
  (∀ f s, f ≤ 64 → f = 0 ∨ (s.func f).d3hot = false → ∃ t, exec (.evtdropRead f) s = .next t ∧ t.busData = BitVec.ofNat 64 (s.func f).dropped ∧
    t.func f = { s.func f with dropped := 0 } ∧ t.hbm = s.hbm) ∧
  (∀ i s, i ≤ 34 → ∃ t, exec (.errorCounterRead i) s = .next t ∧ t.busData = BitVec.ofNat 64 (FMap.getD s.counters i 0) ∧
    FMap.getD t.counters i 0 = 0 ∧ (∀ j, j ≠ i → FMap.getD t.counters j 0 = FMap.getD s.counters j 0) ∧ t.hbm = s.hbm) ∧
  (∀ f v s, f ≤ 64 → f = 0 ∨ (s.func f).d3hot = false → (s.func f).busy = false → v % 2 = 1 → mboxOpcode (s.func f).opcode = true →
    ∃ t, exec (.registerWrite (f * 2 ^ 32 + 0x10) v) s = .next t ∧ t.func f = { s.func f with busy := true } ∧
      ∀ n < 8, (t.cp n).mbox = (s.cp n).mbox ++ [f] ∧ (t.cp n).mip.testBit 17 = true) ∧
  (∀ f v s, f ≤ 64 → (s.func f).busy = true → exec (.registerWrite (f * 2 ^ 32 + 0x10) v) s = .next s) ∧
  (∀ f i v s, f ≤ 64 → f = 0 ∨ (s.func f).d3hot = false → i < 8 → ∃ t, exec (.registerWrite (f * 2 ^ 32 + 0x40 + 8 * i) v) s = .next t ∧
    t.cores = s.cores ∧ t.hbm = s.hbm ∧ (t.func f).arg i = v % 2 ^ 64 ∧ ∀ j, j ≠ i → (t.func f).arg j = (s.func f).arg j) ∧
  (∀ v s, exec (.registerWrite 0x1C0_0000 v) s = .next s) ∧
  (∀ (s : State) (f i : Nat), 1 ≤ f → f ≤ 64 → s.registerRead (f * 2 ^ 32 + 0x28) = 0 ∧ s.registerRead (f * 2 ^ 32 + 0x38) = 0 ∧ (i < 64 → s.registerRead (f * 2 ^ 32 + 0x4000 + 8 * i) = 0)) ∧
  (∀ off n v s, off % 16 + n ≤ 16 → 0 < n → off + n ≤ 2 ^ ((s.func 0).barSize + 20) → (s.func 0).d3hot = false →
    (∃ r ∈ s.rcbs, s.bar2 * 2 ^ 30 + off < r.1 + 128 ∧ r.1 < s.bar2 * 2 ^ 30 + off + n) → exec (.hostBar2Access true off n v) s = .next s) ∧
  (∀ off n v s, off % 16 + n ≤ 16 → 0 < n → off + n ≤ 2 ^ ((s.func 0).barSize + 20) → (s.func 0).d3hot = false →
    s.bar2 * 2 ^ 30 + off + n ≤ Config.hbmBytes → Unlogged s →
    (∃ t, exec (.hostBar2Access false off n v) s = .next t ∧ t.hbm = s.hbm ∧ t.busData = BitVec.ofNat 64 (s.devGet (s.bar2 * 2 ^ 30 + off) n)) ∧
    ((∀ r ∈ s.rcbs, r.1 + 128 ≤ s.bar2 * 2 ^ 30 + off ∨ s.bar2 * 2 ^ 30 + off + n ≤ r.1) →
      ∃ t, exec (.hostBar2Access true off n v) s = .next t ∧ t.blocks = s.blocks ∧ ∀ a, t.hbm.byte a =
      if s.bar2 * 2 ^ 30 + off ≤ a ∧ a < s.bar2 * 2 ^ 30 + off + n then BitVec.ofNat 8 (v / 256 ^ (a - (s.bar2 * 2 ^ 30 + off))) else s.hbm.byte a)) ∧
  (∀ n s, n < 8 → (s.cp n).timecmp ≤ s.cycle * 2 / 45 → (s.cp n).mip.testBit 7 = false →
    exec (.machineTimerInterrupt n) s = .next (s.modCp n fun p => { p with mip := p.mip ||| 2 ^ 7 })) ∧
  ∀ f s e es, (s.func f).held = e :: es → s.slotFree f = true → s.boot.swapping = none →
    ∃ t, exec (.eventSlotFreed f) s = .next t ∧ (t.func f).held = es ∧ (t.func f).next = ((s.func f).next + 1) % 256 ∧ Signalled t f 1 ∧
      t.hostGet ((s.func f).evtbase / 2 ^ 14 * 2 ^ 14 + 64 * (s.func f).next) 64 = e.image % 2 ^ 512 ∧ t.hbm = s.hbm ∧ t.cores = s.cores

/-- R268 and R404 to R408: requests from other devices: those that PODALLOW shuts out or that leave this device's memory are refused whole; a read
answers the bytes, a write changes the bytes of its mask and no other; a reassembled tile becomes a tile store; a failed port is down. -/
def Obligations.LinkSteps : Prop :=
  (∀ p r s, p < 18 → s.portUp p = true → s.podAllows r.src = false →
    exec (.ualinkInboundRequest p r) s = .next { s with replies := s.replies ++ [⟨r.src, 0x343, 0⟩] }) ∧
  (∀ p r s, p < 18 → s.portUp p = true → s.podAllows r.src = true → (∀ t, r.kind ≠ .tileRow t ∧ r.kind ≠ .tileCommit t) → Config.hbmBytes < r.addr + r.len →
    exec (.ualinkInboundRequest p r) s = .next { s with replies := s.replies ++ [⟨r.src, 0x344, 0⟩] }) ∧
  (∀ p r s, p < 18 → s.portUp p = true → s.podAllows r.src = true → r.kind = .read → r.addr + r.len ≤ Config.hbmBytes →
    s.poisonOf r.addr r.len = none → ∃ t, exec (.ualinkInboundRequest p r) s = .next t ∧
      t.replies = s.replies ++ [⟨r.src, 0, s.devGet r.addr r.len⟩] ∧ t.blocks = s.blocks ∧ (Still s → t.cores = s.cores)) ∧
  (∀ p r s, p < 18 → s.portUp p = true → s.podAllows r.src = true → r.kind = .write → r.addr + r.len ≤ Config.hbmBytes →
    Unlogged s → ∃ t, exec (.ualinkInboundRequest p r) s = .next t ∧ t.replies = s.replies ++ [⟨r.src, 0, 0⟩] ∧
      t.blocks = s.blocks ∧ ∀ a, t.hbm.byte a = if r.addr ≤ a ∧ a < r.addr + r.len ∧ r.mask.testBit (a - r.addr) = true
        then BitVec.ofNat 8 (r.data / 256 ^ (a - r.addr)) else s.hbm.byte a) ∧
  (∀ p b s x, b < 8 → FMap.find s.reasm (8 * p + b) = some x → s.cycle < x.since + 9_000_000 →
    ((∀ r ∈ x.rows, s.rowOk r = true) → ∃ t u, exec (.xtileCommit p b) s = .next t ∧ FMap.find t.reasm (8 * p + b) = none ∧ t.txs = s.txs ++ [u] ∧
      u.store = true ∧ u.req = 320 + p ∧ u.port = some (p, b) ∧ t.hbm = s.hbm ∧ t.cores = s.cores) ∧
    ((∃ r ∈ x.rows, s.rowOk r = false) → exec (.xtileCommit p b) s = .next { s with
      reasm := FMap.erase s.reasm (8 * p + b)
      replies := s.replies ++ [⟨x.src, 0x344, x.tag⟩] })) ∧
  (∀ p b s x, b < 8 → FMap.find s.reasm (8 * p + b) = some x → x.since + 9_000_000 ≤ s.cycle →
    exec (.xtileReassemblyTimeout p b) s = .next { s with reasm := FMap.erase s.reasm (8 * p + b) }) ∧
  ∀ p s, p < 18 → s.portUp p = true → ∃ t, exec (.portDown p) s = .next t ∧ t.portUp p = false ∧ (∀ q, q ≠ p → t.portUp q = s.portUp q) ∧
    t.hbm = s.hbm ∧ t.blocks = s.blocks

/-- R382 to R385, R420 to R424 and R434: storage errors, starts, the reset of a virtual function and the rungs of the ladder. What a scrub finds, and the
trigger codes that the rules leave open, are free values (log 18); what rung 4 and rung 5 keep (log 61) and the triggers that are inputs (log 67) are
the model's reading. A cold start that has run step 4 leaves every byte 0; of one that fails before it no byte is known (log 7). -/
def Obligations.ErrorAndStartSteps : Prop :=
  (∀ r s, r < 8 → exec (.correctableError r) s = .next (s.count r)) ∧
  (∀ l s, ∃ t, exec (.uncorrectableError (.hbm l)) s = .next t ∧ FMap.find t.poison l = some 0x2C0 ∧ t.hbm = s.hbm ∧ t.cores = s.cores ∧
    FMap.getD t.counters 8 0 = min (FMap.getD s.counters 8 0 + 1) (2 ^ 64 - 1)) ∧
  (∀ l s, s.l2Find l = some true → ∃ t, exec (.uncorrectableError (.l2 l true)) s = .next t ∧ FMap.find t.poison l = some 0x2C1 ∧ t.hbm = s.hbm ∧ t.cores = s.cores) ∧
  (∀ l s, s.l2Find l = some false → Unlogged s → ∃ t, exec (.uncorrectableError (.l2 l false)) s = .next t ∧ t.poison = s.poison ∧ t.hbm = s.hbm ∧ t.cores = s.cores) ∧
  (∀ b off s, ∃ t, exec (.uncorrectableError (.scratch b off)) s = .next t ∧ .scratch b (off / 8 * 8) ∈ t.faulty ∧ t.hbm = s.hbm ∧ t.blocks = s.blocks) ∧
  (∀ c l s, ∃ t, exec (.uncorrectableError (.l1 c l)) s = .next t ∧ (∀ e ∈ (t.core c).l1, e.pa.addr ≠ 128 * l) ∧ t.hbm = s.hbm ∧ t.blocks = s.blocks) ∧
  (∀ c l s, ∃ t, exec (.uncorrectableError (.icache c l)) s = .next t ∧ (∀ e ∈ (t.core c).icache, e.va ≠ 128 * l) ∧ t.hbm = s.hbm ∧ t.blocks = s.blocks) ∧
  (∀ site s, ErrSite.scrubbed site = false → exec (.scrub site) s = .next s) ∧
  (∀ site s, ErrSite.scrubbed site = true → let u := s.freeVal.2
    exec (.scrub site) s = .next u ∨ exec (.scrub site) s = .next (u.count (ErrSite.row site)) ∨
      exec (.scrub site) s = .next (doUncorrectableError site u)) ∧
  (∀ s, ∃ t, exec .coldStart s = .next t ∧ (t.boot.step = 6 → ∀ a, t.hbm.byte a = 0) ∧ t.host = s.host ∧ t.cards = [] ∧ t.tasks = [] ∧ (∀ b, t.block? b = none) ∧
    (∀ c k, t.warp? c k = none) ∧ t.boot.ready = false ∧ t.boot.leaf = s.boot.leaf ∧ t.boot.svc = s.boot.svc ∧
    (t.boot.step = 6 ∨ t.boot.safe = true)) ∧
  (∀ s keep, s.boot.req = some keep → ∃ t, exec .warmStart s = .next t ∧ (keep = true → t.poison = s.poison ∧ (Unlogged s → t.hbm = s.hbm)) ∧
    (keep = false → t.hbm.cells = [] ∧ t.poison = []) ∧ t.host = s.host ∧ t.cards = [] ∧ (∀ c k, t.warp? c k = none) ∧ t.boot.ready = false ∧
    t.boot.leaf = s.boot.leaf ∧ t.boot.svc = s.boot.svc) ∧
  (∀ f s, 1 ≤ f → f ≤ 64 → ∃ t, exec (.vfFlr f) s = .next t ∧ t.func f = Func.reset ∧ ∀ b x, t.block? b = some x → s.block? b = some x) ∧
  (∀ n s, n < 8 → (∀ m, FMap.find s.rung1 n = some m → m + 22_500_000 ≤ s.cycle) →
    ∃ t, exec (.rung1 n) s = .next t ∧ FMap.find t.rung 1 = some s.cycle ∧ FMap.find t.rung1 n = some s.cycle ∧ t.hbm = s.hbm ∧ t.cores = s.cores ∧ t.cards = s.cards) ∧
  (∀ d code s, s.domainRoot d = some d → ((code = 0x300 ∨ code = 0x301) ∧ code ∈ s.hung d) ∨ code = 0x302 ∨ code = 0x303 ∨
      (code ≠ 0x300 ∧ code ≠ 0x301 ∧ s.rung1Failed ≠ []) →
    ∃ t, exec (.rung2 d code) s = .next t ∧ FMap.find t.rung 2 = some s.cycle ∧ (0x300 ≤ code → code ≤ 0x303 → t.fw.faultNext = s.fw.faultNext + 1) ∧
    ∀ c ∈ t.cards, t.domainRoot c.rcb ≠ some d) ∧
  (∀ code s, s.boot.ready = true → (∃ n < 8, (s.cp n).beat + 225_000_000 ≤ s.cycle) →
    (∀ n, FMap.find s.rung 3 = some n → n + 2_250_000_000 ≤ s.cycle) →
    ∃ t, exec (.rung3 code) s = .next t ∧ t.boot.clean = false ∧ t.rung1 = [] ∧ (∀ n < 8, (t.cp n).beat = s.cycle) ∧ t.boot.ready = true ∧ t.cards = s.cards ∧ t.cores = s.cores ∧ t.hbm = s.hbm ∧
      ∀ f, (s.func f).busy = true → (t.func f).busy = false ∧ (t.func f).status = 4) ∧
  (∀ code s, s.dump = none → ∃ t, exec (.rung4 code) s = .next t ∧ t.hbm = s.hbm ∧ t.counters = s.counters ∧ t.boot.ready = false ∧ t.cards = [] ∧
    (∀ c k, t.warp? c k = none) ∧ FMap.find t.rung 4 = some s.cycle) ∧
  ∀ code s, s.dump = none → ∃ t, exec (.rung5 code) s = .next t ∧ t.hbm = s.hbm ∧ t.boot.ready = false ∧ t.cards = [] ∧
    (∀ c k, t.warp? c k = none) ∧ FMap.find t.rung 5 = some s.cycle ∧ (t.func 0).fstatus.testBit 3 = true ∧ Signalled t 0 2

/-! ## Bundles, decoding and the step -/

/-- R16, R34 and R366: the issue of a bundle that is due, fetched and passes its decode checks opens the tick, runs the decoded slots and chooses the
successor. When the agenda names it for this cycle, that is what the step does; with one slot, what runs is `exec` of the decoded instruction. Before an
entry of a later cycle a cycle passes. That an agenda orders the steps is the model's choice (log 1). -/
def Obligations.StepRunsDecodedBundle : Prop :=
  (∀ s c k w b, s.warp? c k = some w → canBundleIssue c k s = true → Due w b → decodeFail w b = none →
    exec (.bundleIssue c k) s = .next (((s.openBundle c k b).runSlots c k (presentOf b) (w.opsOf b)).closeBundle c k w.step)) ∧
  (∀ s d i rest, s.agenda = (d + 1, i) :: rest → due s = none → ∃ t, step s = .next t ∧ t.agenda = (d, i) :: rest ∧ t.cycle = s.cycle + 1 ∧
    t.hbm = s.hbm ∧ t.blocks = s.blocks ∧ ∀ c k, t.warp? c k = s.warp? c k) ∧
  ∀ s c k w b rest, s.agenda = (0, .bundleIssue c k) :: rest →
    let s0 := { s with agenda := rest }
    s0.warp? c k = some w → canBundleIssue c k s0 = true → Due w b → decodeFail w b = none →
    let s1 := s0.openBundle c k b
    step s = .next ((s1.runSlots c k (presentOf b) (w.opsOf b)).closeBundle c k w.step) ∧
    ∀ i, Only b i → w.suppressed b.hdr = false → w.replay = none → ∃ t, exec i s1 = .next t ∧ step s = .next (t.closeBundle c k w.step)

/-- R35, R40, R41 and R338: a bundle that fails its decode checks traps before any slot takes effect, with the cause of the lowest failing slot, after the
check of the header; after a return only the slots that are to issue are checked, and with none of them nothing is. -/
def Obligations.DecodeFailures : Prop :=
  ∀ s c k w b, s.warp? c k = some w → canBundleIssue c k s = true → Due w b →
    (b.illegal = true → w.replay ≠ some 0 → exec (.bundleIssue c k) s = .next (s.failWhole c k (presentOf b) ⟨0x040, 0, 0⟩ 0)) ∧
    (w.replay = some 0 →
      exec (.bundleIssue c k) s = .next (((s.openBundle c k b).runSlots c k (presentOf b) ⟨none, none, none, none⟩).closeBundle c k w.step)) ∧
    ∀ n d cause, b.illegal = false → w.replay ≠ some 0 → [b.v, b.m, b.x, b.c][n]? = some d → w.replays n = true → SlotFails w n d cause →
      (∀ j e y, j < n → [b.v, b.m, b.x, b.c][j]? = some e → w.replays j = true → ¬ SlotFails w j e y) →
      exec (.bundleIssue c k) s = .next (s.failWhole c k (presentOf b) ⟨cause, 0, 0⟩ n)

/-- R43, R48, R50, R51 and R53 to R55: words written out from the layouts, one for each, decode to the instructions they stand for; among
them are words that the spec itself writes out. -/
def Obligations.DecodeWords : Prop :=
  decodeSlot 0 0x4500870605B01 = .ok (.vadd ⟨⟨true, 3⟩, .v 5, .v 6, .s 7, .v 0, none, .i16, .rne, true, 0⟩) ∧
  decodeSlot 0 0x823F800031016 = .ok (.vmovi ⟨⟨false, 0⟩, .v 49, .v 0, .v 0, .v 0, some 0x3F80, .f32, .rne, false, 0⟩) ∧
  decodeSlot 1 0x1F13FFC18C210B21 = .ok (.ldG ⟨⟨true, 3⟩, .v 16, 2, some 99, 0xFFF0, .b128, .w, some 15⟩) ∧
  decodeSlot 2 0xC60F140410 = .ok (.tld ⟨4, 0, 5, 0xF, 6, .d, 0⟩) ∧
  decodeSlot 2 0x200108020 = .ok (.tmmaBf16 ⟨0, 0, 1, 2, 0, 0, 1⟩) ∧
  decodeSlot 3 0x1400_6410_3010 = .ok (.cmp ⟨⟨false, 0⟩, 3, 4, 0, some 100, 2⟩) ∧
  decodeSlot 3 0x0500_0000_3030 = .ok (.loop ⟨⟨false, 0⟩, 3, ⟨false, 0⟩, 5⟩) ∧
  decodeSlot 3 0x000F_FFFF_CA20 = .ok (.br ⟨⟨true, 2⟩, 0xFFFFFC, ⟨false, 0⟩, 0⟩) ∧
  decodeSlot 3 0x2400_3800_1A32 = .ok (.wait ⟨0x1A, 0x38, 9⟩) ∧
  decodeSlot 3 0x172 = .ok (.hret ⟨⟨false, 1⟩, 0, 0, 0, none, 0⟩) ∧
  decodeSlot 3 0x0400_0100_0071 = .ok (.sysc ⟨⟨false, 0⟩, 0, 0, 0, some 1, 0⟩)

/-- R43 to R59: decoding and encoding of a slot agree, in both directions and for every operand: no word has two meanings, and no bit is dropped. -/
def Obligations.SlotRoundTrip : Prop :=
  (∀ i n, wellFormed i = true → slotNum i = some n → decodeSlot n (encode i) = .ok i) ∧
  ∀ n x i, n < 4 → x < 2 ^ (if n < 2 then 64 else 48) → decodeSlot n x = .ok i → wellFormed i = true ∧ slotNum i = some n ∧ encode i = x

/-- R34 to R36: so do those of a bundle: its header and its four slots. -/
def Obligations.BundleRoundTrip : Prop :=
  ∀ (h : Header) (v m x c : Option Instr), 1 ≤ h.gap → h.gap ≤ 64 →
    (∀ p ∈ [(v, 0), (m, 1), (x, 2), (c, 3)], ∀ i, p.1 = some i → wellFormed i = true ∧ slotNum i = some p.2) →
    let slot := fun (y : Option Instr) => match y with | some i => SlotD.ok i | none => .absent
    decodeBundle (encodeBundle h v m x c) = ⟨h, false, slot v, slot m, slot x, slot c⟩

/-- R10, R12, R24, R392, R410, R420 and R421: the device right after reset holds no warp, block, task or card, every byte of device memory reads 0, every memory
has its canonical form, and no firmware serves. That every byte of device memory reads 0 before the first start (log 5), and that every register that the
rules give no value starts at 0 (log 6), are the model's choices. -/
def Obligations.ResetState : Prop :=
  MemOk State.reset ∧ (∀ a, State.reset.hbm.byte a = 0) ∧ (∀ c k, State.reset.warp? c k = none) ∧ (∀ b, State.reset.block? b = none) ∧
  State.reset.tasks = [] ∧ State.reset.cards = [] ∧ (∀ c, State.reset.core c = CoreSt.reset) ∧ (∀ f, (State.reset.func f).fstatus = 0) ∧
  State.reset.serving = false ∧ State.reset.boot.ready = false ∧ State.reset.txs = [] ∧ State.reset.monitors = [] ∧ State.reset.agenda = [] ∧
  State.reset.cycle = 0

/-- Every step keeps every memory canonical: addresses strictly rise and no listed byte equals what an unlisted one reads as. -/
def Obligations.StepKeepsMemoryCanonical : Prop := ∀ s t, MemOk s → step s = .next t → MemOk t

/-- The machine never stops: every state has a next one. It rests on two choices of the model: with an empty agenda a cycle passes (log 1), and a slot
instruction in the agenda, which has no bundle, is passed over (log 2). -/
def Obligations.StepNeverStops : Prop := ∀ s, ∃ t, step s = .next t
end

