-- ==== Sys2Proof/Laws/Maps.lean ====
section
/-! SUPPORT. Laws of sorted maps and of the canonical list of bytes. -/

namespace Sys2Proof.Machine

/-! ## Find after a change -/

/-- Writing a key gives its value, whatever the map. -/
@[simp] theorem FMap.find_set_self {β : Type} (m : FMap β) (k : Nat) (v : β) : FMap.find (FMap.set m k v) k = some v := by
  induction m with
  | nil => simp [FMap.set, FMap.find]
  | cons p m ih =>
    obtain ⟨a, b⟩ := p
    by_cases h : a = k
    · simp [FMap.set, FMap.find, h]
    · simp only [FMap.set, h, if_false]
      split <;> simp [FMap.find, h, ih]

/-- Writing a key leaves every other key alone. -/
theorem FMap.find_set_ne {β : Type} (m : FMap β) {k j : Nat} (v : β) (h : j ≠ k) : FMap.find (FMap.set m k v) j = FMap.find m j := by
  induction m with
  | nil => simp [FMap.set, FMap.find, Ne.symm h]
  | cons p m ih =>
    obtain ⟨a, b⟩ := p
    by_cases h1 : a = k
    · subst h1
      simp [FMap.set, FMap.find, Ne.symm h]
    · simp only [FMap.set, h1, if_false]
      split <;> simp [FMap.find, Ne.symm h, ih]

/-- Writing the value that a key has changes nothing. -/
theorem FMap.set_find {β : Type} (m : FMap β) (k : Nat) (v : β) (h : FMap.find m k = some v) : FMap.set m k v = m := by
  induction m with
  | nil => simp [FMap.find] at h
  | cons p m ih =>
    obtain ⟨a, b⟩ := p
    by_cases h1 : a = k
    · simp [FMap.find, h1] at h
      simp [FMap.set, h1, h]
    · simp [FMap.find, h1] at h
      simp [FMap.set, h1, h, ih h]

/-- The last of two writes of a key stands. -/
@[simp] theorem FMap.set_set {β : Type} (m : FMap β) (k : Nat) (u v : β) : FMap.set (FMap.set m k u) k v = FMap.set m k v := by
  induction m with
  | nil => simp [FMap.set]
  | cons p m ih =>
    obtain ⟨a, b⟩ := p
    by_cases h1 : a = k
    · simp [FMap.set, h1]
    · by_cases h2 : (decide (k < a) && (FMap.find m k).isNone) = true
      · simp only [FMap.set, h1, h2, if_true, if_false]
      · simp [FMap.set, h1, h2, ih]

/-- A key taken out is not found. -/
@[simp] theorem FMap.find_erase_self {β : Type} (m : FMap β) (k : Nat) : FMap.find (FMap.erase m k) k = none := by
  induction m with
  | nil => rfl
  | cons p m ih =>
    obtain ⟨a, b⟩ := p
    by_cases h : a = k <;> simp_all [FMap.erase, FMap.find]

/-- Taking a key out leaves every other key alone. -/
theorem FMap.find_erase_ne {β : Type} (m : FMap β) {k j : Nat} (hj : j ≠ k) : FMap.find (FMap.erase m k) j = FMap.find m j := by
  induction m with
  | nil => rfl
  | cons p m ih =>
    obtain ⟨a, b⟩ := p
    by_cases h : a = k
    · subst h
      simp_all [FMap.erase, FMap.find, Ne.symm hj]
    · simp_all [FMap.erase, FMap.find]

/-- A value put at a key reads back. -/
@[simp] theorem FMap.getD_put_self {β : Type} [DecidableEq β] (m : FMap β) (k : Nat) (v d : β) : FMap.getD (FMap.put m k v d) k d = v := by
  by_cases h : v = d <;> simp [FMap.put, FMap.getD, h]

/-- A value put at a key leaves every other key alone. -/
theorem FMap.getD_put_ne {β : Type} [DecidableEq β] (m : FMap β) {k j : Nat} (v d e : β) (h : j ≠ k) :
    FMap.getD (FMap.put m k v d) j e = FMap.getD m j e := by
  by_cases hv : v = d <;> simp [FMap.put, FMap.getD, hv, FMap.find_erase_ne m h, FMap.find_set_ne m v h]

/-! ## Ordered maps -/

/-- Every key of a map is above a bound. -/
def FMap.above {β : Type} (n : Nat) (m : FMap β) : Prop := ∀ p ∈ m, n < p.1

/-- A map is ordered when its tail is and its first key is below the others. -/
theorem FMap.ordered_cons {β : Type} (a : Nat) (b : β) (m : FMap β) :
    FMap.ordered ((a, b) :: m) = true ↔ FMap.above a m ∧ FMap.ordered m = true := by
  induction m generalizing a b with
  | nil => simp [FMap.ordered, FMap.above]
  | cons p m ih =>
    obtain ⟨c, d⟩ := p
    constructor
    · intro h
      simp only [FMap.ordered, Bool.and_eq_true, decide_eq_true_eq] at h
      refine ⟨?_, h.2⟩
      intro q hq
      rcases List.mem_cons.1 hq with rfl | hq
      · exact h.1
      · exact lt_trans h.1 (((ih c d).1 h.2).1 q hq)
    · rintro ⟨h1, h2⟩
      simp only [FMap.ordered, Bool.and_eq_true, decide_eq_true_eq]
      exact ⟨h1 (c, d) (by simp), h2⟩

/-- The entries of a map after a write: the new one, or those there were. -/
theorem FMap.mem_set {β : Type} {m : FMap β} {k : Nat} {v : β} {p : Nat × β} (h : p ∈ FMap.set m k v) : p = (k, v) ∨ p ∈ m := by
  induction m with
  | nil => simpa [FMap.set] using h
  | cons q m ih =>
    obtain ⟨a, b⟩ := q
    by_cases h1 : a = k
    · simp [FMap.set, h1] at h
      rcases h with h | h
      · exact .inl h
      · exact .inr (List.mem_cons_of_mem _ h)
    · simp only [FMap.set, h1, if_false] at h
      split at h
      · rcases List.mem_cons.1 h with h | h
        · exact .inl h
        · exact .inr h
      · rcases List.mem_cons.1 h with h | h
        · exact .inr (by simp [h])
        · rcases ih h with h | h
          · exact .inl h
          · exact .inr (List.mem_cons_of_mem _ h)

/-- The entries of a map without a key were there before. -/
theorem FMap.mem_erase {β : Type} {m : FMap β} {k : Nat} {p : Nat × β} (h : p ∈ FMap.erase m k) : p ∈ m := (List.mem_filter.1 h).1

/-- A key below every key of a map is not found. -/
theorem FMap.find_above {β : Type} {m : FMap β} {k : Nat} (h : FMap.above k m) : FMap.find m k = none := by
  induction m with
  | nil => rfl
  | cons p m ih =>
    have : k < p.1 := h p (by simp)
    simp [FMap.find, show p.1 ≠ k by omega, ih fun q hq => h q (List.mem_cons_of_mem _ hq)]

/-- A write keeps the order. -/
theorem FMap.ordered_set {β : Type} {m : FMap β} (k : Nat) (v : β) (h : FMap.ordered m = true) : FMap.ordered (FMap.set m k v) = true := by
  induction m with
  | nil => simp [FMap.set, FMap.ordered]
  | cons q m ih =>
    obtain ⟨a, b⟩ := q
    obtain ⟨ha, hm⟩ := (FMap.ordered_cons a b m).1 h
    by_cases h1 : a = k
    · subst h1
      simp only [FMap.set, if_true]
      exact (FMap.ordered_cons a v m).2 ⟨ha, hm⟩
    · by_cases h2 : k < a
      · have hk : FMap.above k m := fun p hp => lt_trans h2 (ha p hp)
        simp only [FMap.set, h1, h2, FMap.find_above hk, decide_true, Option.isNone_none, Bool.and_self, if_true, if_false]
        refine (FMap.ordered_cons k v _).2 ⟨?_, h⟩
        intro p hp
        rcases List.mem_cons.1 hp with rfl | hp
        · exact h2
        · exact hk p hp
      · simp only [FMap.set, h1, h2, decide_false, Bool.false_and, Bool.false_eq_true, if_false]
        refine (FMap.ordered_cons a b _).2 ⟨?_, ih hm⟩
        intro p hp
        rcases FMap.mem_set hp with rfl | hp
        · show a < k
          omega
        · exact ha p hp

/-- Taking a key out keeps the order. -/
theorem FMap.ordered_erase {β : Type} {m : FMap β} (k : Nat) (h : FMap.ordered m = true) : FMap.ordered (FMap.erase m k) = true := by
  induction m with
  | nil => simp [FMap.erase, FMap.ordered]
  | cons q m ih =>
    obtain ⟨a, b⟩ := q
    obtain ⟨ha, hm⟩ := (FMap.ordered_cons a b m).1 h
    by_cases h1 : a = k
    · simpa [FMap.erase, h1] using ih hm
    · have : FMap.erase ((a, b) :: m) k = (a, b) :: FMap.erase m k := by simp [FMap.erase, h1]
      rw [this]
      exact (FMap.ordered_cons a b _).2 ⟨fun p hp => ha p (FMap.mem_erase hp), ih hm⟩

/-! ## Bytes -/

/-- The canonical form, as its two parts. -/
theorem cellsWf_iff (d : Nat → Byte) (l : List Host.Cell) : cellsWf d l = true ↔ FMap.ordered l = true ∧ ∀ c ∈ l, c.2 ≠ d c.1 := by
  simp [cellsWf]

/-- Writing a byte keeps the canonical form. -/
theorem putByte_wf {d : Nat → Byte} {l : List Host.Cell} (a : Nat) (b : Byte) (h : cellsWf d l = true) :
    cellsWf d (putByte d l a b) = true := by
  obtain ⟨ho, hd⟩ := (cellsWf_iff d l).1 h
  rw [cellsWf_iff]
  by_cases hb : b = d a
  · simp only [putByte, hb, if_true]
    exact ⟨FMap.ordered_erase a ho, fun c hc => hd c (FMap.mem_erase hc)⟩
  · simp only [putByte, hb, if_false]
    refine ⟨FMap.ordered_set a b ho, fun c hc => ?_⟩
    rcases FMap.mem_set hc with rfl | hc
    · exact hb
    · exact hd c hc

/-- Writing bytes keeps the canonical form. -/
theorem putBytes_wf {d : Nat → Byte} {l : List Host.Cell} (a n v : Nat) (h : cellsWf d l = true) :
    cellsWf d (putBytes d l a n v) = true := by
  induction n generalizing l a v with
  | zero => simpa [putBytes] using h
  | succ n ih => simpa [putBytes] using ih (a + 1) (v / 256) (putByte_wf a _ h)

/-- Writing listed bytes keeps the canonical form. -/
theorem putCells_wf {d : Nat → Byte} {l : List Host.Cell} (cs : List Host.Cell) (h : cellsWf d l = true) :
    cellsWf d (putCells d l cs) = true := by
  induction cs generalizing l with
  | nil => simpa [putCells] using h
  | cons c cs ih => exact ih (putByte_wf c.1 c.2 h)

/-- The empty list has the canonical form. -/
theorem cellsWf_nil (d : Nat → Byte) : cellsWf d [] = true := by simp [cellsWf, FMap.ordered]

/-- A byte just written reads back. -/
theorem byteAt_putByte_self (d : Nat → Byte) (l : List Host.Cell) (a : Nat) (b : Byte) : byteAt d (putByte d l a b) a = b := by
  by_cases hb : b = d a <;> simp [putByte, byteAt, hb]

/-- Writing a byte leaves every other byte alone. -/
theorem byteAt_putByte_ne (d : Nat → Byte) (l : List Host.Cell) {a x : Nat} (b : Byte) (hx : x ≠ a) :
    byteAt d (putByte d l a b) x = byteAt d l x := by
  by_cases hb : b = d a <;> simp [putByte, byteAt, hb, FMap.find_erase_ne l hx, FMap.find_set_ne l b hx]

/-- Writing bytes leaves those outside the range alone. -/
theorem byteAt_putBytes_out (d : Nat → Byte) (l : List Host.Cell) (a n v x : Nat) (hx : x < a ∨ a + n ≤ x) :
    byteAt d (putBytes d l a n v) x = byteAt d l x := by
  induction n generalizing l a v with
  | zero => simp [putBytes]
  | succ n ih =>
    simp only [putBytes]
    rw [ih _ (a + 1) (v / 256) (by omega), byteAt_putByte_ne _ _ _ (by omega)]

/-- A byte inside the range just written is that byte of the number. -/
theorem byteAt_putBytes_in (d : Nat → Byte) (l : List Host.Cell) (a n v i : Nat) (hi : i < n) :
    byteAt d (putBytes d l a n v) (a + i) = BitVec.ofNat 8 (v / 256 ^ i) := by
  induction n generalizing l a v i with
  | zero => omega
  | succ n ih =>
    simp only [putBytes]
    cases i with
    | zero =>
      rw [byteAt_putBytes_out _ _ _ _ _ _ (by omega)]
      simpa using byteAt_putByte_self d l a (BitVec.ofNat 8 v)
    | succ i =>
      have := ih (putByte d l a (BitVec.ofNat 8 v)) (a + 1) (v / 256) i (by omega)
      rw [show a + (i + 1) = a + 1 + i by omega, this, Nat.div_div_eq_div_mul, pow_succ, Nat.mul_comm]

/-- Bytes that read alike give the same number. -/
theorem getBytes_congr {d d' : Nat → Byte} {l l' : List Host.Cell} (a n : Nat) (h : ∀ i < n, byteAt d l (a + i) = byteAt d' l' (a + i)) :
    getBytes d l a n = getBytes d' l' a n := by
  induction n generalizing a with
  | zero => rfl
  | succ n ih =>
    have h0 := h 0 (by omega)
    simp only [Nat.add_zero] at h0
    simp only [getBytes, h0]
    rw [ih (a + 1) fun i hi => by simpa [Nat.add_assoc, Nat.add_comm 1] using h (i + 1) (by omega)]

/-- The bytes just written read back as the number's low bytes. -/
theorem getBytes_putBytes (d : Nat → Byte) (l : List Host.Cell) (a n v : Nat) : getBytes d (putBytes d l a n v) a n = v % 256 ^ n := by
  induction n generalizing l a v with
  | zero => simp [getBytes, Nat.mod_one]
  | succ n ih =>
    simp only [getBytes, putBytes]
    rw [ih _ (a + 1) (v / 256), byteAt_putBytes_out _ _ _ _ _ _ (by omega), byteAt_putByte_self]
    have : (BitVec.ofNat 8 v).toNat = v % 256 := by simp
    rw [this, pow_succ, Nat.mul_comm (256 ^ n) 256, Nat.mod_mul]

/-! ## Device memory -/

/-- A write keeps the canonical form of device memory. -/
theorem Memory.put_wf {m : Memory} (a n v : Nat) (h : m.wf = true) : (m.put a n v).wf = true := putBytes_wf a n v h

/-- A write of listed bytes keeps it too. -/
theorem Memory.putCells_wf {m : Memory} (cs : List Host.Cell) (h : m.wf = true) : (m.putCells cs).wf = true :=
  Sys2Proof.Machine.putCells_wf cs h

/-- Empty memory is canonical. -/
theorem Memory.empty_wf (n : Nat) : (⟨[], n⟩ : Memory).wf = true := cellsWf_nil _

end Sys2Proof.Machine
end

