-- ==== Sys2Proof/Laws/State.lean ====
section
/-! SUPPORT. Laws of the state: what each update of one part leaves alone, field by field, and reading a core or a warp after a
write. -/

namespace Sys2Proof.Machine

/-! ## Cores and warps -/

/-- A core just written reads back. -/
@[simp] theorem State.core_setCore_self (s : State) (c : Nat) (x : CoreSt) : (s.setCore c x).core c = x := by
  simp [State.core, State.setCore, FMap.getD]

/-- Writing a core leaves the others alone. -/
theorem State.core_setCore_ne (s : State) {c d : Nat} (x : CoreSt) (h : d ≠ c) : (s.setCore c x).core d = s.core d := by
  simp [State.core, State.setCore, FMap.getD, FMap.find_set_ne s.cores x h]

/-- The last of two writes of a core stands. -/
@[simp] theorem State.setCore_setCore (s : State) (c : Nat) (x y : CoreSt) : (s.setCore c x).setCore c y = s.setCore c y := by
  simp [State.setCore]

/-- A warp just written is resident. -/
@[simp] theorem State.warp_setWarp_self (s : State) (c k : Nat) (w : Warp) : (s.setWarp c k w).warp? c k = some w := by
  simp [State.warp?, State.setWarp, State.modCore]

/-- Writing a warp leaves the other slots of its core alone. -/
theorem State.warp_setWarp_slot (s : State) (c : Nat) {k j : Nat} (w : Warp) (h : j ≠ k) : (s.setWarp c k w).warp? c j = s.warp? c j := by
  simp [State.warp?, State.setWarp, State.modCore, FMap.find_set_ne _ w h]

/-- Writing a warp leaves the other cores alone. -/
theorem State.core_setWarp_ne (s : State) {c d : Nat} (k : Nat) (w : Warp) (h : d ≠ c) : (s.setWarp c k w).core d = s.core d := by
  simp [State.setWarp, State.modCore, State.core_setCore_ne s _ h]

/-- Writing a warp leaves the warps of other cores alone. -/
theorem State.warp_setWarp_core (s : State) {c d : Nat} (k j : Nat) (w : Warp) (h : d ≠ c) : (s.setWarp c k w).warp? d j = s.warp? d j := by
  simp [State.warp?, State.core_setWarp_ne s k w h]

/-- The last of two writes of a warp stands. -/
@[simp] theorem State.setWarp_setWarp (s : State) (c k : Nat) (v w : Warp) : (s.setWarp c k v).setWarp c k w = s.setWarp c k w := by
  simp [State.setWarp, State.modCore]

/-- Changing a resident warp. -/
theorem State.modWarp_of {s : State} {c k : Nat} {w : Warp} (h : s.warp? c k = some w) (f : Warp → Warp) :
    s.modWarp c k f = s.setWarp c k (f w) := by
  simp [State.modWarp, h]

/-- Changing a slot with no warp does nothing. -/
theorem State.modWarp_none {s : State} {c k : Nat} (h : s.warp? c k = none) (f : Warp → Warp) : s.modWarp c k f = s := by
  simp [State.modWarp, h]

/-- Running a function on a resident warp. -/
theorem State.onWarp_of {s : State} {c k : Nat} {w : Warp} (h : s.warp? c k = some w) (f : Warp → State) : s.onWarp c k f = f w := by
  simp [State.onWarp, h]

/-- Writing the core that is there changes nothing, where one is listed. -/
theorem State.setCore_core {s : State} {c : Nat} (h : (FMap.find s.cores c).isSome) : s.setCore c (s.core c) = s := by
  obtain ⟨x, hx⟩ := Option.isSome_iff_exists.1 h
  simp [State.setCore, State.core, FMap.getD, hx, FMap.set_find s.cores c x hx]

/-- Writing the warp that is there changes nothing. -/
theorem State.setWarp_warp {s : State} {c k : Nat} {w : Warp} (h : s.warp? c k = some w) : s.setWarp c k w = s := by
  have hc : (FMap.find s.cores c).isSome := by
    cases hf : FMap.find s.cores c with
    | some x => rfl
    | none => simp [State.warp?, State.core, FMap.getD, hf, CoreSt.reset, FMap.find] at h
  have : { s.core c with warps := FMap.set (s.core c).warps k w } = s.core c := by
    rw [FMap.set_find _ _ _ h]
  simp [State.setWarp, State.modCore, this, State.setCore_core hc]

/-- A change that leaves the resident warp as it is changes nothing. -/
theorem State.modWarp_id {s : State} {c k : Nat} {f : Warp → Warp} (h : ∀ w, s.warp? c k = some w → f w = w) : s.modWarp c k f = s := by
  cases hw : s.warp? c k with
  | none => exact State.modWarp_none hw f
  | some w => rw [State.modWarp_of hw, h w hw, State.setWarp_warp hw]

/-- The parts of a core beside its warps stay when a warp is written. -/
@[simp] theorem State.core_setWarp (s : State) (c k : Nat) (w : Warp) :
    (s.setWarp c k w).core c = { s.core c with warps := FMap.set (s.core c).warps k w } := by
  simp [State.setWarp, State.modCore]

/-! ## One part at a time -/

/-! ### `setCore` -/

@[simp] theorem State.setCore_cycle (s : State) (c : Nat) (x : CoreSt) : (s.setCore c x).cycle = s.cycle := rfl
@[simp] theorem State.setCore_agenda (s : State) (c : Nat) (x : CoreSt) : (s.setCore c x).agenda = s.agenda := rfl
@[simp] theorem State.setCore_cur (s : State) (c : Nat) (x : CoreSt) : (s.setCore c x).cur = s.cur := rfl
@[simp] theorem State.setCore_turn (s : State) (c : Nat) (x : CoreSt) : (s.setCore c x).turn = s.turn := rfl
@[simp] theorem State.setCore_fresh (s : State) (c : Nat) (x : CoreSt) : (s.setCore c x).fresh = s.fresh := rfl
@[simp] theorem State.setCore_hbm (s : State) (c : Nat) (x : CoreSt) : (s.setCore c x).hbm = s.hbm := rfl
@[simp] theorem State.setCore_host (s : State) (c : Nat) (x : CoreSt) : (s.setCore c x).host = s.host := rfl
@[simp] theorem State.setCore_poison (s : State) (c : Nat) (x : CoreSt) : (s.setCore c x).poison = s.poison := rfl
@[simp] theorem State.setCore_faulty (s : State) (c : Nat) (x : CoreSt) : (s.setCore c x).faulty = s.faulty := rfl
@[simp] theorem State.setCore_blocks (s : State) (c : Nat) (x : CoreSt) : (s.setCore c x).blocks = s.blocks := rfl
@[simp] theorem State.setCore_tasks (s : State) (c : Nat) (x : CoreSt) : (s.setCore c x).tasks = s.tasks := rfl
@[simp] theorem State.setCore_cards (s : State) (c : Nat) (x : CoreSt) : (s.setCore c x).cards = s.cards := rfl
@[simp] theorem State.setCore_nextId (s : State) (c : Nat) (x : CoreSt) : (s.setCore c x).nextId = s.nextId := rfl
@[simp] theorem State.setCore_overrides (s : State) (c : Nat) (x : CoreSt) : (s.setCore c x).overrides = s.overrides := rfl
@[simp] theorem State.setCore_drafts (s : State) (c : Nat) (x : CoreSt) : (s.setCore c x).drafts = s.drafts := rfl
@[simp] theorem State.setCore_pools (s : State) (c : Nat) (x : CoreSt) : (s.setCore c x).pools = s.pools := rfl
@[simp] theorem State.setCore_reserved (s : State) (c : Nat) (x : CoreSt) : (s.setCore c x).reserved = s.reserved := rfl
@[simp] theorem State.setCore_rcbs (s : State) (c : Nat) (x : CoreSt) : (s.setCore c x).rcbs = s.rcbs := rfl
@[simp] theorem State.setCore_txs (s : State) (c : Nat) (x : CoreSt) : (s.setCore c x).txs = s.txs := rfl
@[simp] theorem State.setCore_starved (s : State) (c : Nat) (x : CoreSt) : (s.setCore c x).starved = s.starved := rfl
@[simp] theorem State.setCore_monitors (s : State) (c : Nat) (x : CoreSt) : (s.setCore c x).monitors = s.monitors := rfl
@[simp] theorem State.setCore_tampers (s : State) (c : Nat) (x : CoreSt) : (s.setCore c x).tampers = s.tampers := rfl
@[simp] theorem State.setCore_grants (s : State) (c : Nat) (x : CoreSt) : (s.setCore c x).grants = s.grants := rfl
@[simp] theorem State.setCore_slices (s : State) (c : Nat) (x : CoreSt) : (s.setCore c x).slices = s.slices := rfl
@[simp] theorem State.setCore_shoots (s : State) (c : Nat) (x : CoreSt) : (s.setCore c x).shoots = s.shoots := rfl
@[simp] theorem State.setCore_funcs (s : State) (c : Nat) (x : CoreSt) : (s.setCore c x).funcs = s.funcs := rfl
@[simp] theorem State.setCore_msi (s : State) (c : Nat) (x : CoreSt) : (s.setCore c x).msi = s.msi := rfl
@[simp] theorem State.setCore_cps (s : State) (c : Nat) (x : CoreSt) : (s.setCore c x).cps = s.cps := rfl
@[simp] theorem State.setCore_bar2 (s : State) (c : Nat) (x : CoreSt) : (s.setCore c x).bar2 = s.bar2 := rfl
@[simp] theorem State.setCore_busData (s : State) (c : Nat) (x : CoreSt) : (s.setCore c x).busData = s.busData := rfl
@[simp] theorem State.setCore_counters (s : State) (c : Nat) (x : CoreSt) : (s.setCore c x).counters = s.counters := rfl
@[simp] theorem State.setCore_routes (s : State) (c : Nat) (x : CoreSt) : (s.setCore c x).routes = s.routes := rfl
@[simp] theorem State.setCore_boot (s : State) (c : Nat) (x : CoreSt) : (s.setCore c x).boot = s.boot := rfl
@[simp] theorem State.setCore_devid (s : State) (c : Nat) (x : CoreSt) : (s.setCore c x).devid = s.devid := rfl
@[simp] theorem State.setCore_podallow (s : State) (c : Nat) (x : CoreSt) : (s.setCore c x).podallow = s.podallow := rfl
@[simp] theorem State.setCore_ports (s : State) (c : Nat) (x : CoreSt) : (s.setCore c x).ports = s.ports := rfl
@[simp] theorem State.setCore_reasm (s : State) (c : Nat) (x : CoreSt) : (s.setCore c x).reasm = s.reasm := rfl
@[simp] theorem State.setCore_linkOut (s : State) (c : Nat) (x : CoreSt) : (s.setCore c x).linkOut = s.linkOut := rfl
@[simp] theorem State.setCore_replies (s : State) (c : Nat) (x : CoreSt) : (s.setCore c x).replies = s.replies := rfl
@[simp] theorem State.setCore_objs (s : State) (c : Nat) (x : CoreSt) : (s.setCore c x).objs = s.objs := rfl
@[simp] theorem State.setCore_dump (s : State) (c : Nat) (x : CoreSt) : (s.setCore c x).dump = s.dump := rfl
@[simp] theorem State.setCore_trace (s : State) (c : Nat) (x : CoreSt) : (s.setCore c x).trace = s.trace := rfl
@[simp] theorem State.setCore_debugStops (s : State) (c : Nat) (x : CoreSt) : (s.setCore c x).debugStops = s.debugStops := rfl
@[simp] theorem State.setCore_rung (s : State) (c : Nat) (x : CoreSt) : (s.setCore c x).rung = s.rung := rfl
@[simp] theorem State.setCore_fw (s : State) (c : Nat) (x : CoreSt) : (s.setCore c x).fw = s.fw := rfl
@[simp] theorem State.setCore_stamps (s : State) (c : Nat) (x : CoreSt) : (s.setCore c x).stamps = s.stamps := rfl
@[simp] theorem State.setCore_reset0 (s : State) (c : Nat) (x : CoreSt) : (s.setCore c x).reset0 = s.reset0 := rfl
@[simp] theorem State.setCore_l2tlb (s : State) (c : Nat) (x : CoreSt) : (s.setCore c x).l2tlb = s.l2tlb := rfl
@[simp] theorem State.setCore_l2 (s : State) (c : Nat) (x : CoreSt) : (s.setCore c x).l2 = s.l2 := rfl
@[simp] theorem State.setCore_tamperAt (s : State) (c : Nat) (x : CoreSt) : (s.setCore c x).tamperAt = s.tamperAt := rfl
@[simp] theorem State.setCore_areas (s : State) (c : Nat) (x : CoreSt) : (s.setCore c x).areas = s.areas := rfl
@[simp] theorem State.setCore_hand (s : State) (c : Nat) (x : CoreSt) : (s.setCore c x).hand = s.hand := rfl
@[simp] theorem State.setCore_walks (s : State) (c : Nat) (x : CoreSt) : (s.setCore c x).walks = s.walks := rfl
@[simp] theorem State.setCore_queues (s : State) (c : Nat) (x : CoreSt) : (s.setCore c x).queues = s.queues := rfl
@[simp] theorem State.setCore_rung1 (s : State) (c : Nat) (x : CoreSt) : (s.setCore c x).rung1 = s.rung1 := rfl

/-! ### `modCore` -/

@[simp] theorem State.modCore_cycle (s : State) (c : Nat) (f : CoreSt → CoreSt) : (s.modCore c f).cycle = s.cycle := rfl
@[simp] theorem State.modCore_agenda (s : State) (c : Nat) (f : CoreSt → CoreSt) : (s.modCore c f).agenda = s.agenda := rfl
@[simp] theorem State.modCore_cur (s : State) (c : Nat) (f : CoreSt → CoreSt) : (s.modCore c f).cur = s.cur := rfl
@[simp] theorem State.modCore_turn (s : State) (c : Nat) (f : CoreSt → CoreSt) : (s.modCore c f).turn = s.turn := rfl
@[simp] theorem State.modCore_fresh (s : State) (c : Nat) (f : CoreSt → CoreSt) : (s.modCore c f).fresh = s.fresh := rfl
@[simp] theorem State.modCore_hbm (s : State) (c : Nat) (f : CoreSt → CoreSt) : (s.modCore c f).hbm = s.hbm := rfl
@[simp] theorem State.modCore_host (s : State) (c : Nat) (f : CoreSt → CoreSt) : (s.modCore c f).host = s.host := rfl
@[simp] theorem State.modCore_poison (s : State) (c : Nat) (f : CoreSt → CoreSt) : (s.modCore c f).poison = s.poison := rfl
@[simp] theorem State.modCore_faulty (s : State) (c : Nat) (f : CoreSt → CoreSt) : (s.modCore c f).faulty = s.faulty := rfl
@[simp] theorem State.modCore_blocks (s : State) (c : Nat) (f : CoreSt → CoreSt) : (s.modCore c f).blocks = s.blocks := rfl
@[simp] theorem State.modCore_tasks (s : State) (c : Nat) (f : CoreSt → CoreSt) : (s.modCore c f).tasks = s.tasks := rfl
@[simp] theorem State.modCore_cards (s : State) (c : Nat) (f : CoreSt → CoreSt) : (s.modCore c f).cards = s.cards := rfl
@[simp] theorem State.modCore_nextId (s : State) (c : Nat) (f : CoreSt → CoreSt) : (s.modCore c f).nextId = s.nextId := rfl
@[simp] theorem State.modCore_overrides (s : State) (c : Nat) (f : CoreSt → CoreSt) : (s.modCore c f).overrides = s.overrides := rfl
@[simp] theorem State.modCore_drafts (s : State) (c : Nat) (f : CoreSt → CoreSt) : (s.modCore c f).drafts = s.drafts := rfl
@[simp] theorem State.modCore_pools (s : State) (c : Nat) (f : CoreSt → CoreSt) : (s.modCore c f).pools = s.pools := rfl
@[simp] theorem State.modCore_reserved (s : State) (c : Nat) (f : CoreSt → CoreSt) : (s.modCore c f).reserved = s.reserved := rfl
@[simp] theorem State.modCore_rcbs (s : State) (c : Nat) (f : CoreSt → CoreSt) : (s.modCore c f).rcbs = s.rcbs := rfl
@[simp] theorem State.modCore_txs (s : State) (c : Nat) (f : CoreSt → CoreSt) : (s.modCore c f).txs = s.txs := rfl
@[simp] theorem State.modCore_starved (s : State) (c : Nat) (f : CoreSt → CoreSt) : (s.modCore c f).starved = s.starved := rfl
@[simp] theorem State.modCore_monitors (s : State) (c : Nat) (f : CoreSt → CoreSt) : (s.modCore c f).monitors = s.monitors := rfl
@[simp] theorem State.modCore_tampers (s : State) (c : Nat) (f : CoreSt → CoreSt) : (s.modCore c f).tampers = s.tampers := rfl
@[simp] theorem State.modCore_grants (s : State) (c : Nat) (f : CoreSt → CoreSt) : (s.modCore c f).grants = s.grants := rfl
@[simp] theorem State.modCore_slices (s : State) (c : Nat) (f : CoreSt → CoreSt) : (s.modCore c f).slices = s.slices := rfl
@[simp] theorem State.modCore_shoots (s : State) (c : Nat) (f : CoreSt → CoreSt) : (s.modCore c f).shoots = s.shoots := rfl
@[simp] theorem State.modCore_funcs (s : State) (c : Nat) (f : CoreSt → CoreSt) : (s.modCore c f).funcs = s.funcs := rfl
@[simp] theorem State.modCore_msi (s : State) (c : Nat) (f : CoreSt → CoreSt) : (s.modCore c f).msi = s.msi := rfl
@[simp] theorem State.modCore_cps (s : State) (c : Nat) (f : CoreSt → CoreSt) : (s.modCore c f).cps = s.cps := rfl
@[simp] theorem State.modCore_bar2 (s : State) (c : Nat) (f : CoreSt → CoreSt) : (s.modCore c f).bar2 = s.bar2 := rfl
@[simp] theorem State.modCore_busData (s : State) (c : Nat) (f : CoreSt → CoreSt) : (s.modCore c f).busData = s.busData := rfl
@[simp] theorem State.modCore_counters (s : State) (c : Nat) (f : CoreSt → CoreSt) : (s.modCore c f).counters = s.counters := rfl
@[simp] theorem State.modCore_routes (s : State) (c : Nat) (f : CoreSt → CoreSt) : (s.modCore c f).routes = s.routes := rfl
@[simp] theorem State.modCore_boot (s : State) (c : Nat) (f : CoreSt → CoreSt) : (s.modCore c f).boot = s.boot := rfl
@[simp] theorem State.modCore_devid (s : State) (c : Nat) (f : CoreSt → CoreSt) : (s.modCore c f).devid = s.devid := rfl
@[simp] theorem State.modCore_podallow (s : State) (c : Nat) (f : CoreSt → CoreSt) : (s.modCore c f).podallow = s.podallow := rfl
@[simp] theorem State.modCore_ports (s : State) (c : Nat) (f : CoreSt → CoreSt) : (s.modCore c f).ports = s.ports := rfl
@[simp] theorem State.modCore_reasm (s : State) (c : Nat) (f : CoreSt → CoreSt) : (s.modCore c f).reasm = s.reasm := rfl
@[simp] theorem State.modCore_linkOut (s : State) (c : Nat) (f : CoreSt → CoreSt) : (s.modCore c f).linkOut = s.linkOut := rfl
@[simp] theorem State.modCore_replies (s : State) (c : Nat) (f : CoreSt → CoreSt) : (s.modCore c f).replies = s.replies := rfl
@[simp] theorem State.modCore_objs (s : State) (c : Nat) (f : CoreSt → CoreSt) : (s.modCore c f).objs = s.objs := rfl
@[simp] theorem State.modCore_dump (s : State) (c : Nat) (f : CoreSt → CoreSt) : (s.modCore c f).dump = s.dump := rfl
@[simp] theorem State.modCore_trace (s : State) (c : Nat) (f : CoreSt → CoreSt) : (s.modCore c f).trace = s.trace := rfl
@[simp] theorem State.modCore_debugStops (s : State) (c : Nat) (f : CoreSt → CoreSt) : (s.modCore c f).debugStops = s.debugStops := rfl
@[simp] theorem State.modCore_rung (s : State) (c : Nat) (f : CoreSt → CoreSt) : (s.modCore c f).rung = s.rung := rfl
@[simp] theorem State.modCore_fw (s : State) (c : Nat) (f : CoreSt → CoreSt) : (s.modCore c f).fw = s.fw := rfl
@[simp] theorem State.modCore_stamps (s : State) (c : Nat) (f : CoreSt → CoreSt) : (s.modCore c f).stamps = s.stamps := rfl
@[simp] theorem State.modCore_reset0 (s : State) (c : Nat) (f : CoreSt → CoreSt) : (s.modCore c f).reset0 = s.reset0 := rfl
@[simp] theorem State.modCore_l2tlb (s : State) (c : Nat) (f : CoreSt → CoreSt) : (s.modCore c f).l2tlb = s.l2tlb := rfl
@[simp] theorem State.modCore_l2 (s : State) (c : Nat) (f : CoreSt → CoreSt) : (s.modCore c f).l2 = s.l2 := rfl
@[simp] theorem State.modCore_tamperAt (s : State) (c : Nat) (f : CoreSt → CoreSt) : (s.modCore c f).tamperAt = s.tamperAt := rfl
@[simp] theorem State.modCore_areas (s : State) (c : Nat) (f : CoreSt → CoreSt) : (s.modCore c f).areas = s.areas := rfl
@[simp] theorem State.modCore_hand (s : State) (c : Nat) (f : CoreSt → CoreSt) : (s.modCore c f).hand = s.hand := rfl
@[simp] theorem State.modCore_walks (s : State) (c : Nat) (f : CoreSt → CoreSt) : (s.modCore c f).walks = s.walks := rfl
@[simp] theorem State.modCore_queues (s : State) (c : Nat) (f : CoreSt → CoreSt) : (s.modCore c f).queues = s.queues := rfl
@[simp] theorem State.modCore_rung1 (s : State) (c : Nat) (f : CoreSt → CoreSt) : (s.modCore c f).rung1 = s.rung1 := rfl

/-! ### `setWarp` -/

@[simp] theorem State.setWarp_cycle (s : State) (c k : Nat) (w : Warp) : (s.setWarp c k w).cycle = s.cycle := rfl
@[simp] theorem State.setWarp_agenda (s : State) (c k : Nat) (w : Warp) : (s.setWarp c k w).agenda = s.agenda := rfl
@[simp] theorem State.setWarp_cur (s : State) (c k : Nat) (w : Warp) : (s.setWarp c k w).cur = s.cur := rfl
@[simp] theorem State.setWarp_turn (s : State) (c k : Nat) (w : Warp) : (s.setWarp c k w).turn = s.turn := rfl
@[simp] theorem State.setWarp_fresh (s : State) (c k : Nat) (w : Warp) : (s.setWarp c k w).fresh = s.fresh := rfl
@[simp] theorem State.setWarp_hbm (s : State) (c k : Nat) (w : Warp) : (s.setWarp c k w).hbm = s.hbm := rfl
@[simp] theorem State.setWarp_host (s : State) (c k : Nat) (w : Warp) : (s.setWarp c k w).host = s.host := rfl
@[simp] theorem State.setWarp_poison (s : State) (c k : Nat) (w : Warp) : (s.setWarp c k w).poison = s.poison := rfl
@[simp] theorem State.setWarp_faulty (s : State) (c k : Nat) (w : Warp) : (s.setWarp c k w).faulty = s.faulty := rfl
@[simp] theorem State.setWarp_blocks (s : State) (c k : Nat) (w : Warp) : (s.setWarp c k w).blocks = s.blocks := rfl
@[simp] theorem State.setWarp_tasks (s : State) (c k : Nat) (w : Warp) : (s.setWarp c k w).tasks = s.tasks := rfl
@[simp] theorem State.setWarp_cards (s : State) (c k : Nat) (w : Warp) : (s.setWarp c k w).cards = s.cards := rfl
@[simp] theorem State.setWarp_nextId (s : State) (c k : Nat) (w : Warp) : (s.setWarp c k w).nextId = s.nextId := rfl
@[simp] theorem State.setWarp_overrides (s : State) (c k : Nat) (w : Warp) : (s.setWarp c k w).overrides = s.overrides := rfl
@[simp] theorem State.setWarp_drafts (s : State) (c k : Nat) (w : Warp) : (s.setWarp c k w).drafts = s.drafts := rfl
@[simp] theorem State.setWarp_pools (s : State) (c k : Nat) (w : Warp) : (s.setWarp c k w).pools = s.pools := rfl
@[simp] theorem State.setWarp_reserved (s : State) (c k : Nat) (w : Warp) : (s.setWarp c k w).reserved = s.reserved := rfl
@[simp] theorem State.setWarp_rcbs (s : State) (c k : Nat) (w : Warp) : (s.setWarp c k w).rcbs = s.rcbs := rfl
@[simp] theorem State.setWarp_txs (s : State) (c k : Nat) (w : Warp) : (s.setWarp c k w).txs = s.txs := rfl
@[simp] theorem State.setWarp_starved (s : State) (c k : Nat) (w : Warp) : (s.setWarp c k w).starved = s.starved := rfl
@[simp] theorem State.setWarp_monitors (s : State) (c k : Nat) (w : Warp) : (s.setWarp c k w).monitors = s.monitors := rfl
@[simp] theorem State.setWarp_tampers (s : State) (c k : Nat) (w : Warp) : (s.setWarp c k w).tampers = s.tampers := rfl
@[simp] theorem State.setWarp_grants (s : State) (c k : Nat) (w : Warp) : (s.setWarp c k w).grants = s.grants := rfl
@[simp] theorem State.setWarp_slices (s : State) (c k : Nat) (w : Warp) : (s.setWarp c k w).slices = s.slices := rfl
@[simp] theorem State.setWarp_shoots (s : State) (c k : Nat) (w : Warp) : (s.setWarp c k w).shoots = s.shoots := rfl
@[simp] theorem State.setWarp_funcs (s : State) (c k : Nat) (w : Warp) : (s.setWarp c k w).funcs = s.funcs := rfl
@[simp] theorem State.setWarp_msi (s : State) (c k : Nat) (w : Warp) : (s.setWarp c k w).msi = s.msi := rfl
@[simp] theorem State.setWarp_cps (s : State) (c k : Nat) (w : Warp) : (s.setWarp c k w).cps = s.cps := rfl
@[simp] theorem State.setWarp_bar2 (s : State) (c k : Nat) (w : Warp) : (s.setWarp c k w).bar2 = s.bar2 := rfl
@[simp] theorem State.setWarp_busData (s : State) (c k : Nat) (w : Warp) : (s.setWarp c k w).busData = s.busData := rfl
@[simp] theorem State.setWarp_counters (s : State) (c k : Nat) (w : Warp) : (s.setWarp c k w).counters = s.counters := rfl
@[simp] theorem State.setWarp_routes (s : State) (c k : Nat) (w : Warp) : (s.setWarp c k w).routes = s.routes := rfl
@[simp] theorem State.setWarp_boot (s : State) (c k : Nat) (w : Warp) : (s.setWarp c k w).boot = s.boot := rfl
@[simp] theorem State.setWarp_devid (s : State) (c k : Nat) (w : Warp) : (s.setWarp c k w).devid = s.devid := rfl
@[simp] theorem State.setWarp_podallow (s : State) (c k : Nat) (w : Warp) : (s.setWarp c k w).podallow = s.podallow := rfl
@[simp] theorem State.setWarp_ports (s : State) (c k : Nat) (w : Warp) : (s.setWarp c k w).ports = s.ports := rfl
@[simp] theorem State.setWarp_reasm (s : State) (c k : Nat) (w : Warp) : (s.setWarp c k w).reasm = s.reasm := rfl
@[simp] theorem State.setWarp_linkOut (s : State) (c k : Nat) (w : Warp) : (s.setWarp c k w).linkOut = s.linkOut := rfl
@[simp] theorem State.setWarp_replies (s : State) (c k : Nat) (w : Warp) : (s.setWarp c k w).replies = s.replies := rfl
@[simp] theorem State.setWarp_objs (s : State) (c k : Nat) (w : Warp) : (s.setWarp c k w).objs = s.objs := rfl
@[simp] theorem State.setWarp_dump (s : State) (c k : Nat) (w : Warp) : (s.setWarp c k w).dump = s.dump := rfl
@[simp] theorem State.setWarp_trace (s : State) (c k : Nat) (w : Warp) : (s.setWarp c k w).trace = s.trace := rfl
@[simp] theorem State.setWarp_debugStops (s : State) (c k : Nat) (w : Warp) : (s.setWarp c k w).debugStops = s.debugStops := rfl
@[simp] theorem State.setWarp_rung (s : State) (c k : Nat) (w : Warp) : (s.setWarp c k w).rung = s.rung := rfl
@[simp] theorem State.setWarp_fw (s : State) (c k : Nat) (w : Warp) : (s.setWarp c k w).fw = s.fw := rfl
@[simp] theorem State.setWarp_stamps (s : State) (c k : Nat) (w : Warp) : (s.setWarp c k w).stamps = s.stamps := rfl
@[simp] theorem State.setWarp_reset0 (s : State) (c k : Nat) (w : Warp) : (s.setWarp c k w).reset0 = s.reset0 := rfl
@[simp] theorem State.setWarp_l2tlb (s : State) (c k : Nat) (w : Warp) : (s.setWarp c k w).l2tlb = s.l2tlb := rfl
@[simp] theorem State.setWarp_l2 (s : State) (c k : Nat) (w : Warp) : (s.setWarp c k w).l2 = s.l2 := rfl
@[simp] theorem State.setWarp_tamperAt (s : State) (c k : Nat) (w : Warp) : (s.setWarp c k w).tamperAt = s.tamperAt := rfl
@[simp] theorem State.setWarp_areas (s : State) (c k : Nat) (w : Warp) : (s.setWarp c k w).areas = s.areas := rfl
@[simp] theorem State.setWarp_hand (s : State) (c k : Nat) (w : Warp) : (s.setWarp c k w).hand = s.hand := rfl
@[simp] theorem State.setWarp_walks (s : State) (c k : Nat) (w : Warp) : (s.setWarp c k w).walks = s.walks := rfl
@[simp] theorem State.setWarp_queues (s : State) (c k : Nat) (w : Warp) : (s.setWarp c k w).queues = s.queues := rfl
@[simp] theorem State.setWarp_rung1 (s : State) (c k : Nat) (w : Warp) : (s.setWarp c k w).rung1 = s.rung1 := rfl

/-! ### `modWarp` -/

@[simp] theorem State.modWarp_cycle (s : State) (c k : Nat) (f : Warp → Warp) : (s.modWarp c k f).cycle = s.cycle := by unfold State.modWarp; split <;> rfl
@[simp] theorem State.modWarp_agenda (s : State) (c k : Nat) (f : Warp → Warp) : (s.modWarp c k f).agenda = s.agenda := by unfold State.modWarp; split <;> rfl
@[simp] theorem State.modWarp_cur (s : State) (c k : Nat) (f : Warp → Warp) : (s.modWarp c k f).cur = s.cur := by unfold State.modWarp; split <;> rfl
@[simp] theorem State.modWarp_turn (s : State) (c k : Nat) (f : Warp → Warp) : (s.modWarp c k f).turn = s.turn := by unfold State.modWarp; split <;> rfl
@[simp] theorem State.modWarp_fresh (s : State) (c k : Nat) (f : Warp → Warp) : (s.modWarp c k f).fresh = s.fresh := by unfold State.modWarp; split <;> rfl
@[simp] theorem State.modWarp_hbm (s : State) (c k : Nat) (f : Warp → Warp) : (s.modWarp c k f).hbm = s.hbm := by unfold State.modWarp; split <;> rfl
@[simp] theorem State.modWarp_host (s : State) (c k : Nat) (f : Warp → Warp) : (s.modWarp c k f).host = s.host := by unfold State.modWarp; split <;> rfl
@[simp] theorem State.modWarp_poison (s : State) (c k : Nat) (f : Warp → Warp) : (s.modWarp c k f).poison = s.poison := by unfold State.modWarp; split <;> rfl
@[simp] theorem State.modWarp_faulty (s : State) (c k : Nat) (f : Warp → Warp) : (s.modWarp c k f).faulty = s.faulty := by unfold State.modWarp; split <;> rfl
@[simp] theorem State.modWarp_blocks (s : State) (c k : Nat) (f : Warp → Warp) : (s.modWarp c k f).blocks = s.blocks := by unfold State.modWarp; split <;> rfl
@[simp] theorem State.modWarp_tasks (s : State) (c k : Nat) (f : Warp → Warp) : (s.modWarp c k f).tasks = s.tasks := by unfold State.modWarp; split <;> rfl
@[simp] theorem State.modWarp_cards (s : State) (c k : Nat) (f : Warp → Warp) : (s.modWarp c k f).cards = s.cards := by unfold State.modWarp; split <;> rfl
@[simp] theorem State.modWarp_nextId (s : State) (c k : Nat) (f : Warp → Warp) : (s.modWarp c k f).nextId = s.nextId := by unfold State.modWarp; split <;> rfl
@[simp] theorem State.modWarp_overrides (s : State) (c k : Nat) (f : Warp → Warp) : (s.modWarp c k f).overrides = s.overrides := by unfold State.modWarp; split <;> rfl
@[simp] theorem State.modWarp_drafts (s : State) (c k : Nat) (f : Warp → Warp) : (s.modWarp c k f).drafts = s.drafts := by unfold State.modWarp; split <;> rfl
@[simp] theorem State.modWarp_pools (s : State) (c k : Nat) (f : Warp → Warp) : (s.modWarp c k f).pools = s.pools := by unfold State.modWarp; split <;> rfl
@[simp] theorem State.modWarp_reserved (s : State) (c k : Nat) (f : Warp → Warp) : (s.modWarp c k f).reserved = s.reserved := by unfold State.modWarp; split <;> rfl
@[simp] theorem State.modWarp_rcbs (s : State) (c k : Nat) (f : Warp → Warp) : (s.modWarp c k f).rcbs = s.rcbs := by unfold State.modWarp; split <;> rfl
@[simp] theorem State.modWarp_txs (s : State) (c k : Nat) (f : Warp → Warp) : (s.modWarp c k f).txs = s.txs := by unfold State.modWarp; split <;> rfl
@[simp] theorem State.modWarp_starved (s : State) (c k : Nat) (f : Warp → Warp) : (s.modWarp c k f).starved = s.starved := by unfold State.modWarp; split <;> rfl
@[simp] theorem State.modWarp_monitors (s : State) (c k : Nat) (f : Warp → Warp) : (s.modWarp c k f).monitors = s.monitors := by unfold State.modWarp; split <;> rfl
@[simp] theorem State.modWarp_tampers (s : State) (c k : Nat) (f : Warp → Warp) : (s.modWarp c k f).tampers = s.tampers := by unfold State.modWarp; split <;> rfl
@[simp] theorem State.modWarp_grants (s : State) (c k : Nat) (f : Warp → Warp) : (s.modWarp c k f).grants = s.grants := by unfold State.modWarp; split <;> rfl
@[simp] theorem State.modWarp_slices (s : State) (c k : Nat) (f : Warp → Warp) : (s.modWarp c k f).slices = s.slices := by unfold State.modWarp; split <;> rfl
@[simp] theorem State.modWarp_shoots (s : State) (c k : Nat) (f : Warp → Warp) : (s.modWarp c k f).shoots = s.shoots := by unfold State.modWarp; split <;> rfl
@[simp] theorem State.modWarp_funcs (s : State) (c k : Nat) (f : Warp → Warp) : (s.modWarp c k f).funcs = s.funcs := by unfold State.modWarp; split <;> rfl
@[simp] theorem State.modWarp_msi (s : State) (c k : Nat) (f : Warp → Warp) : (s.modWarp c k f).msi = s.msi := by unfold State.modWarp; split <;> rfl
@[simp] theorem State.modWarp_cps (s : State) (c k : Nat) (f : Warp → Warp) : (s.modWarp c k f).cps = s.cps := by unfold State.modWarp; split <;> rfl
@[simp] theorem State.modWarp_bar2 (s : State) (c k : Nat) (f : Warp → Warp) : (s.modWarp c k f).bar2 = s.bar2 := by unfold State.modWarp; split <;> rfl
@[simp] theorem State.modWarp_busData (s : State) (c k : Nat) (f : Warp → Warp) : (s.modWarp c k f).busData = s.busData := by unfold State.modWarp; split <;> rfl
@[simp] theorem State.modWarp_counters (s : State) (c k : Nat) (f : Warp → Warp) : (s.modWarp c k f).counters = s.counters := by unfold State.modWarp; split <;> rfl
@[simp] theorem State.modWarp_routes (s : State) (c k : Nat) (f : Warp → Warp) : (s.modWarp c k f).routes = s.routes := by unfold State.modWarp; split <;> rfl
@[simp] theorem State.modWarp_boot (s : State) (c k : Nat) (f : Warp → Warp) : (s.modWarp c k f).boot = s.boot := by unfold State.modWarp; split <;> rfl
@[simp] theorem State.modWarp_devid (s : State) (c k : Nat) (f : Warp → Warp) : (s.modWarp c k f).devid = s.devid := by unfold State.modWarp; split <;> rfl
@[simp] theorem State.modWarp_podallow (s : State) (c k : Nat) (f : Warp → Warp) : (s.modWarp c k f).podallow = s.podallow := by unfold State.modWarp; split <;> rfl
@[simp] theorem State.modWarp_ports (s : State) (c k : Nat) (f : Warp → Warp) : (s.modWarp c k f).ports = s.ports := by unfold State.modWarp; split <;> rfl
@[simp] theorem State.modWarp_reasm (s : State) (c k : Nat) (f : Warp → Warp) : (s.modWarp c k f).reasm = s.reasm := by unfold State.modWarp; split <;> rfl
@[simp] theorem State.modWarp_linkOut (s : State) (c k : Nat) (f : Warp → Warp) : (s.modWarp c k f).linkOut = s.linkOut := by unfold State.modWarp; split <;> rfl
@[simp] theorem State.modWarp_replies (s : State) (c k : Nat) (f : Warp → Warp) : (s.modWarp c k f).replies = s.replies := by unfold State.modWarp; split <;> rfl
@[simp] theorem State.modWarp_objs (s : State) (c k : Nat) (f : Warp → Warp) : (s.modWarp c k f).objs = s.objs := by unfold State.modWarp; split <;> rfl
@[simp] theorem State.modWarp_dump (s : State) (c k : Nat) (f : Warp → Warp) : (s.modWarp c k f).dump = s.dump := by unfold State.modWarp; split <;> rfl
@[simp] theorem State.modWarp_trace (s : State) (c k : Nat) (f : Warp → Warp) : (s.modWarp c k f).trace = s.trace := by unfold State.modWarp; split <;> rfl
@[simp] theorem State.modWarp_debugStops (s : State) (c k : Nat) (f : Warp → Warp) : (s.modWarp c k f).debugStops = s.debugStops := by unfold State.modWarp; split <;> rfl
@[simp] theorem State.modWarp_rung (s : State) (c k : Nat) (f : Warp → Warp) : (s.modWarp c k f).rung = s.rung := by unfold State.modWarp; split <;> rfl
@[simp] theorem State.modWarp_fw (s : State) (c k : Nat) (f : Warp → Warp) : (s.modWarp c k f).fw = s.fw := by unfold State.modWarp; split <;> rfl

/-! ### `modBlock` -/

@[simp] theorem State.modBlock_cycle (s : State) (b : Nat) (f : Block → Block) : (s.modBlock b f).cycle = s.cycle := rfl
@[simp] theorem State.modBlock_agenda (s : State) (b : Nat) (f : Block → Block) : (s.modBlock b f).agenda = s.agenda := rfl
@[simp] theorem State.modBlock_cur (s : State) (b : Nat) (f : Block → Block) : (s.modBlock b f).cur = s.cur := rfl
@[simp] theorem State.modBlock_turn (s : State) (b : Nat) (f : Block → Block) : (s.modBlock b f).turn = s.turn := rfl
@[simp] theorem State.modBlock_fresh (s : State) (b : Nat) (f : Block → Block) : (s.modBlock b f).fresh = s.fresh := rfl
@[simp] theorem State.modBlock_hbm (s : State) (b : Nat) (f : Block → Block) : (s.modBlock b f).hbm = s.hbm := rfl
@[simp] theorem State.modBlock_host (s : State) (b : Nat) (f : Block → Block) : (s.modBlock b f).host = s.host := rfl
@[simp] theorem State.modBlock_poison (s : State) (b : Nat) (f : Block → Block) : (s.modBlock b f).poison = s.poison := rfl
@[simp] theorem State.modBlock_faulty (s : State) (b : Nat) (f : Block → Block) : (s.modBlock b f).faulty = s.faulty := rfl
@[simp] theorem State.modBlock_cores (s : State) (b : Nat) (f : Block → Block) : (s.modBlock b f).cores = s.cores := rfl
@[simp] theorem State.modBlock_tasks (s : State) (b : Nat) (f : Block → Block) : (s.modBlock b f).tasks = s.tasks := rfl
@[simp] theorem State.modBlock_cards (s : State) (b : Nat) (f : Block → Block) : (s.modBlock b f).cards = s.cards := rfl
@[simp] theorem State.modBlock_nextId (s : State) (b : Nat) (f : Block → Block) : (s.modBlock b f).nextId = s.nextId := rfl
@[simp] theorem State.modBlock_overrides (s : State) (b : Nat) (f : Block → Block) : (s.modBlock b f).overrides = s.overrides := rfl
@[simp] theorem State.modBlock_drafts (s : State) (b : Nat) (f : Block → Block) : (s.modBlock b f).drafts = s.drafts := rfl
@[simp] theorem State.modBlock_pools (s : State) (b : Nat) (f : Block → Block) : (s.modBlock b f).pools = s.pools := rfl
@[simp] theorem State.modBlock_reserved (s : State) (b : Nat) (f : Block → Block) : (s.modBlock b f).reserved = s.reserved := rfl
@[simp] theorem State.modBlock_rcbs (s : State) (b : Nat) (f : Block → Block) : (s.modBlock b f).rcbs = s.rcbs := rfl
@[simp] theorem State.modBlock_txs (s : State) (b : Nat) (f : Block → Block) : (s.modBlock b f).txs = s.txs := rfl
@[simp] theorem State.modBlock_starved (s : State) (b : Nat) (f : Block → Block) : (s.modBlock b f).starved = s.starved := rfl
@[simp] theorem State.modBlock_monitors (s : State) (b : Nat) (f : Block → Block) : (s.modBlock b f).monitors = s.monitors := rfl
@[simp] theorem State.modBlock_tampers (s : State) (b : Nat) (f : Block → Block) : (s.modBlock b f).tampers = s.tampers := rfl
@[simp] theorem State.modBlock_grants (s : State) (b : Nat) (f : Block → Block) : (s.modBlock b f).grants = s.grants := rfl
@[simp] theorem State.modBlock_slices (s : State) (b : Nat) (f : Block → Block) : (s.modBlock b f).slices = s.slices := rfl
@[simp] theorem State.modBlock_shoots (s : State) (b : Nat) (f : Block → Block) : (s.modBlock b f).shoots = s.shoots := rfl
@[simp] theorem State.modBlock_funcs (s : State) (b : Nat) (f : Block → Block) : (s.modBlock b f).funcs = s.funcs := rfl
@[simp] theorem State.modBlock_msi (s : State) (b : Nat) (f : Block → Block) : (s.modBlock b f).msi = s.msi := rfl
@[simp] theorem State.modBlock_cps (s : State) (b : Nat) (f : Block → Block) : (s.modBlock b f).cps = s.cps := rfl
@[simp] theorem State.modBlock_bar2 (s : State) (b : Nat) (f : Block → Block) : (s.modBlock b f).bar2 = s.bar2 := rfl
@[simp] theorem State.modBlock_busData (s : State) (b : Nat) (f : Block → Block) : (s.modBlock b f).busData = s.busData := rfl
@[simp] theorem State.modBlock_counters (s : State) (b : Nat) (f : Block → Block) : (s.modBlock b f).counters = s.counters := rfl
@[simp] theorem State.modBlock_routes (s : State) (b : Nat) (f : Block → Block) : (s.modBlock b f).routes = s.routes := rfl
@[simp] theorem State.modBlock_boot (s : State) (b : Nat) (f : Block → Block) : (s.modBlock b f).boot = s.boot := rfl
@[simp] theorem State.modBlock_devid (s : State) (b : Nat) (f : Block → Block) : (s.modBlock b f).devid = s.devid := rfl
@[simp] theorem State.modBlock_podallow (s : State) (b : Nat) (f : Block → Block) : (s.modBlock b f).podallow = s.podallow := rfl
@[simp] theorem State.modBlock_ports (s : State) (b : Nat) (f : Block → Block) : (s.modBlock b f).ports = s.ports := rfl
@[simp] theorem State.modBlock_reasm (s : State) (b : Nat) (f : Block → Block) : (s.modBlock b f).reasm = s.reasm := rfl
@[simp] theorem State.modBlock_linkOut (s : State) (b : Nat) (f : Block → Block) : (s.modBlock b f).linkOut = s.linkOut := rfl
@[simp] theorem State.modBlock_replies (s : State) (b : Nat) (f : Block → Block) : (s.modBlock b f).replies = s.replies := rfl
@[simp] theorem State.modBlock_objs (s : State) (b : Nat) (f : Block → Block) : (s.modBlock b f).objs = s.objs := rfl
@[simp] theorem State.modBlock_dump (s : State) (b : Nat) (f : Block → Block) : (s.modBlock b f).dump = s.dump := rfl
@[simp] theorem State.modBlock_trace (s : State) (b : Nat) (f : Block → Block) : (s.modBlock b f).trace = s.trace := rfl
@[simp] theorem State.modBlock_debugStops (s : State) (b : Nat) (f : Block → Block) : (s.modBlock b f).debugStops = s.debugStops := rfl
@[simp] theorem State.modBlock_rung (s : State) (b : Nat) (f : Block → Block) : (s.modBlock b f).rung = s.rung := rfl
@[simp] theorem State.modBlock_fw (s : State) (b : Nat) (f : Block → Block) : (s.modBlock b f).fw = s.fw := rfl
@[simp] theorem State.modBlock_stamps (s : State) (b : Nat) (f : Block → Block) : (s.modBlock b f).stamps = s.stamps := rfl
@[simp] theorem State.modBlock_reset0 (s : State) (b : Nat) (f : Block → Block) : (s.modBlock b f).reset0 = s.reset0 := rfl
@[simp] theorem State.modBlock_l2tlb (s : State) (b : Nat) (f : Block → Block) : (s.modBlock b f).l2tlb = s.l2tlb := rfl
@[simp] theorem State.modBlock_l2 (s : State) (b : Nat) (f : Block → Block) : (s.modBlock b f).l2 = s.l2 := rfl
@[simp] theorem State.modBlock_tamperAt (s : State) (b : Nat) (f : Block → Block) : (s.modBlock b f).tamperAt = s.tamperAt := rfl
@[simp] theorem State.modBlock_areas (s : State) (b : Nat) (f : Block → Block) : (s.modBlock b f).areas = s.areas := rfl
@[simp] theorem State.modBlock_hand (s : State) (b : Nat) (f : Block → Block) : (s.modBlock b f).hand = s.hand := rfl
@[simp] theorem State.modBlock_walks (s : State) (b : Nat) (f : Block → Block) : (s.modBlock b f).walks = s.walks := rfl
@[simp] theorem State.modBlock_queues (s : State) (b : Nat) (f : Block → Block) : (s.modBlock b f).queues = s.queues := rfl
@[simp] theorem State.modBlock_rung1 (s : State) (b : Nat) (f : Block → Block) : (s.modBlock b f).rung1 = s.rung1 := rfl

/-! ### `modTask` -/

@[simp] theorem State.modTask_cycle (s : State) (t : Nat) (f : Task → Task) : (s.modTask t f).cycle = s.cycle := rfl
@[simp] theorem State.modTask_agenda (s : State) (t : Nat) (f : Task → Task) : (s.modTask t f).agenda = s.agenda := rfl
@[simp] theorem State.modTask_cur (s : State) (t : Nat) (f : Task → Task) : (s.modTask t f).cur = s.cur := rfl
@[simp] theorem State.modTask_turn (s : State) (t : Nat) (f : Task → Task) : (s.modTask t f).turn = s.turn := rfl
@[simp] theorem State.modTask_fresh (s : State) (t : Nat) (f : Task → Task) : (s.modTask t f).fresh = s.fresh := rfl
@[simp] theorem State.modTask_hbm (s : State) (t : Nat) (f : Task → Task) : (s.modTask t f).hbm = s.hbm := rfl
@[simp] theorem State.modTask_host (s : State) (t : Nat) (f : Task → Task) : (s.modTask t f).host = s.host := rfl
@[simp] theorem State.modTask_poison (s : State) (t : Nat) (f : Task → Task) : (s.modTask t f).poison = s.poison := rfl
@[simp] theorem State.modTask_faulty (s : State) (t : Nat) (f : Task → Task) : (s.modTask t f).faulty = s.faulty := rfl
@[simp] theorem State.modTask_cores (s : State) (t : Nat) (f : Task → Task) : (s.modTask t f).cores = s.cores := rfl
@[simp] theorem State.modTask_blocks (s : State) (t : Nat) (f : Task → Task) : (s.modTask t f).blocks = s.blocks := rfl
@[simp] theorem State.modTask_cards (s : State) (t : Nat) (f : Task → Task) : (s.modTask t f).cards = s.cards := rfl
@[simp] theorem State.modTask_nextId (s : State) (t : Nat) (f : Task → Task) : (s.modTask t f).nextId = s.nextId := rfl
@[simp] theorem State.modTask_overrides (s : State) (t : Nat) (f : Task → Task) : (s.modTask t f).overrides = s.overrides := rfl
@[simp] theorem State.modTask_drafts (s : State) (t : Nat) (f : Task → Task) : (s.modTask t f).drafts = s.drafts := rfl
@[simp] theorem State.modTask_pools (s : State) (t : Nat) (f : Task → Task) : (s.modTask t f).pools = s.pools := rfl
@[simp] theorem State.modTask_reserved (s : State) (t : Nat) (f : Task → Task) : (s.modTask t f).reserved = s.reserved := rfl
@[simp] theorem State.modTask_rcbs (s : State) (t : Nat) (f : Task → Task) : (s.modTask t f).rcbs = s.rcbs := rfl
@[simp] theorem State.modTask_txs (s : State) (t : Nat) (f : Task → Task) : (s.modTask t f).txs = s.txs := rfl
@[simp] theorem State.modTask_starved (s : State) (t : Nat) (f : Task → Task) : (s.modTask t f).starved = s.starved := rfl
@[simp] theorem State.modTask_monitors (s : State) (t : Nat) (f : Task → Task) : (s.modTask t f).monitors = s.monitors := rfl
@[simp] theorem State.modTask_tampers (s : State) (t : Nat) (f : Task → Task) : (s.modTask t f).tampers = s.tampers := rfl
@[simp] theorem State.modTask_grants (s : State) (t : Nat) (f : Task → Task) : (s.modTask t f).grants = s.grants := rfl
@[simp] theorem State.modTask_slices (s : State) (t : Nat) (f : Task → Task) : (s.modTask t f).slices = s.slices := rfl
@[simp] theorem State.modTask_shoots (s : State) (t : Nat) (f : Task → Task) : (s.modTask t f).shoots = s.shoots := rfl
@[simp] theorem State.modTask_funcs (s : State) (t : Nat) (f : Task → Task) : (s.modTask t f).funcs = s.funcs := rfl
@[simp] theorem State.modTask_msi (s : State) (t : Nat) (f : Task → Task) : (s.modTask t f).msi = s.msi := rfl
@[simp] theorem State.modTask_cps (s : State) (t : Nat) (f : Task → Task) : (s.modTask t f).cps = s.cps := rfl
@[simp] theorem State.modTask_bar2 (s : State) (t : Nat) (f : Task → Task) : (s.modTask t f).bar2 = s.bar2 := rfl
@[simp] theorem State.modTask_busData (s : State) (t : Nat) (f : Task → Task) : (s.modTask t f).busData = s.busData := rfl
@[simp] theorem State.modTask_counters (s : State) (t : Nat) (f : Task → Task) : (s.modTask t f).counters = s.counters := rfl
@[simp] theorem State.modTask_routes (s : State) (t : Nat) (f : Task → Task) : (s.modTask t f).routes = s.routes := rfl
@[simp] theorem State.modTask_boot (s : State) (t : Nat) (f : Task → Task) : (s.modTask t f).boot = s.boot := rfl
@[simp] theorem State.modTask_devid (s : State) (t : Nat) (f : Task → Task) : (s.modTask t f).devid = s.devid := rfl
@[simp] theorem State.modTask_podallow (s : State) (t : Nat) (f : Task → Task) : (s.modTask t f).podallow = s.podallow := rfl
@[simp] theorem State.modTask_ports (s : State) (t : Nat) (f : Task → Task) : (s.modTask t f).ports = s.ports := rfl
@[simp] theorem State.modTask_reasm (s : State) (t : Nat) (f : Task → Task) : (s.modTask t f).reasm = s.reasm := rfl
@[simp] theorem State.modTask_linkOut (s : State) (t : Nat) (f : Task → Task) : (s.modTask t f).linkOut = s.linkOut := rfl
@[simp] theorem State.modTask_replies (s : State) (t : Nat) (f : Task → Task) : (s.modTask t f).replies = s.replies := rfl
@[simp] theorem State.modTask_objs (s : State) (t : Nat) (f : Task → Task) : (s.modTask t f).objs = s.objs := rfl
@[simp] theorem State.modTask_dump (s : State) (t : Nat) (f : Task → Task) : (s.modTask t f).dump = s.dump := rfl
@[simp] theorem State.modTask_trace (s : State) (t : Nat) (f : Task → Task) : (s.modTask t f).trace = s.trace := rfl
@[simp] theorem State.modTask_debugStops (s : State) (t : Nat) (f : Task → Task) : (s.modTask t f).debugStops = s.debugStops := rfl
@[simp] theorem State.modTask_rung (s : State) (t : Nat) (f : Task → Task) : (s.modTask t f).rung = s.rung := rfl
@[simp] theorem State.modTask_fw (s : State) (t : Nat) (f : Task → Task) : (s.modTask t f).fw = s.fw := rfl
@[simp] theorem State.modTask_stamps (s : State) (t : Nat) (f : Task → Task) : (s.modTask t f).stamps = s.stamps := rfl
@[simp] theorem State.modTask_reset0 (s : State) (t : Nat) (f : Task → Task) : (s.modTask t f).reset0 = s.reset0 := rfl
@[simp] theorem State.modTask_l2tlb (s : State) (t : Nat) (f : Task → Task) : (s.modTask t f).l2tlb = s.l2tlb := rfl
@[simp] theorem State.modTask_l2 (s : State) (t : Nat) (f : Task → Task) : (s.modTask t f).l2 = s.l2 := rfl
@[simp] theorem State.modTask_tamperAt (s : State) (t : Nat) (f : Task → Task) : (s.modTask t f).tamperAt = s.tamperAt := rfl
@[simp] theorem State.modTask_areas (s : State) (t : Nat) (f : Task → Task) : (s.modTask t f).areas = s.areas := rfl
@[simp] theorem State.modTask_hand (s : State) (t : Nat) (f : Task → Task) : (s.modTask t f).hand = s.hand := rfl
@[simp] theorem State.modTask_walks (s : State) (t : Nat) (f : Task → Task) : (s.modTask t f).walks = s.walks := rfl
@[simp] theorem State.modTask_queues (s : State) (t : Nat) (f : Task → Task) : (s.modTask t f).queues = s.queues := rfl
@[simp] theorem State.modTask_rung1 (s : State) (t : Nat) (f : Task → Task) : (s.modTask t f).rung1 = s.rung1 := rfl

/-! ### `modCard` -/

@[simp] theorem State.modCard_cycle (s : State) (i : Nat) (f : Card → Card) : (s.modCard i f).cycle = s.cycle := rfl
@[simp] theorem State.modCard_agenda (s : State) (i : Nat) (f : Card → Card) : (s.modCard i f).agenda = s.agenda := rfl
@[simp] theorem State.modCard_cur (s : State) (i : Nat) (f : Card → Card) : (s.modCard i f).cur = s.cur := rfl
@[simp] theorem State.modCard_turn (s : State) (i : Nat) (f : Card → Card) : (s.modCard i f).turn = s.turn := rfl
@[simp] theorem State.modCard_fresh (s : State) (i : Nat) (f : Card → Card) : (s.modCard i f).fresh = s.fresh := rfl
@[simp] theorem State.modCard_hbm (s : State) (i : Nat) (f : Card → Card) : (s.modCard i f).hbm = s.hbm := rfl
@[simp] theorem State.modCard_host (s : State) (i : Nat) (f : Card → Card) : (s.modCard i f).host = s.host := rfl
@[simp] theorem State.modCard_poison (s : State) (i : Nat) (f : Card → Card) : (s.modCard i f).poison = s.poison := rfl
@[simp] theorem State.modCard_faulty (s : State) (i : Nat) (f : Card → Card) : (s.modCard i f).faulty = s.faulty := rfl
@[simp] theorem State.modCard_cores (s : State) (i : Nat) (f : Card → Card) : (s.modCard i f).cores = s.cores := rfl
@[simp] theorem State.modCard_blocks (s : State) (i : Nat) (f : Card → Card) : (s.modCard i f).blocks = s.blocks := rfl
@[simp] theorem State.modCard_tasks (s : State) (i : Nat) (f : Card → Card) : (s.modCard i f).tasks = s.tasks := rfl
@[simp] theorem State.modCard_nextId (s : State) (i : Nat) (f : Card → Card) : (s.modCard i f).nextId = s.nextId := rfl
@[simp] theorem State.modCard_overrides (s : State) (i : Nat) (f : Card → Card) : (s.modCard i f).overrides = s.overrides := rfl
@[simp] theorem State.modCard_drafts (s : State) (i : Nat) (f : Card → Card) : (s.modCard i f).drafts = s.drafts := rfl
@[simp] theorem State.modCard_pools (s : State) (i : Nat) (f : Card → Card) : (s.modCard i f).pools = s.pools := rfl
@[simp] theorem State.modCard_reserved (s : State) (i : Nat) (f : Card → Card) : (s.modCard i f).reserved = s.reserved := rfl
@[simp] theorem State.modCard_rcbs (s : State) (i : Nat) (f : Card → Card) : (s.modCard i f).rcbs = s.rcbs := rfl
@[simp] theorem State.modCard_txs (s : State) (i : Nat) (f : Card → Card) : (s.modCard i f).txs = s.txs := rfl
@[simp] theorem State.modCard_starved (s : State) (i : Nat) (f : Card → Card) : (s.modCard i f).starved = s.starved := rfl
@[simp] theorem State.modCard_monitors (s : State) (i : Nat) (f : Card → Card) : (s.modCard i f).monitors = s.monitors := rfl
@[simp] theorem State.modCard_tampers (s : State) (i : Nat) (f : Card → Card) : (s.modCard i f).tampers = s.tampers := rfl
@[simp] theorem State.modCard_grants (s : State) (i : Nat) (f : Card → Card) : (s.modCard i f).grants = s.grants := rfl
@[simp] theorem State.modCard_slices (s : State) (i : Nat) (f : Card → Card) : (s.modCard i f).slices = s.slices := rfl
@[simp] theorem State.modCard_shoots (s : State) (i : Nat) (f : Card → Card) : (s.modCard i f).shoots = s.shoots := rfl
@[simp] theorem State.modCard_funcs (s : State) (i : Nat) (f : Card → Card) : (s.modCard i f).funcs = s.funcs := rfl
@[simp] theorem State.modCard_msi (s : State) (i : Nat) (f : Card → Card) : (s.modCard i f).msi = s.msi := rfl
@[simp] theorem State.modCard_cps (s : State) (i : Nat) (f : Card → Card) : (s.modCard i f).cps = s.cps := rfl
@[simp] theorem State.modCard_bar2 (s : State) (i : Nat) (f : Card → Card) : (s.modCard i f).bar2 = s.bar2 := rfl
@[simp] theorem State.modCard_busData (s : State) (i : Nat) (f : Card → Card) : (s.modCard i f).busData = s.busData := rfl
@[simp] theorem State.modCard_counters (s : State) (i : Nat) (f : Card → Card) : (s.modCard i f).counters = s.counters := rfl
@[simp] theorem State.modCard_routes (s : State) (i : Nat) (f : Card → Card) : (s.modCard i f).routes = s.routes := rfl
@[simp] theorem State.modCard_boot (s : State) (i : Nat) (f : Card → Card) : (s.modCard i f).boot = s.boot := rfl
@[simp] theorem State.modCard_devid (s : State) (i : Nat) (f : Card → Card) : (s.modCard i f).devid = s.devid := rfl
@[simp] theorem State.modCard_podallow (s : State) (i : Nat) (f : Card → Card) : (s.modCard i f).podallow = s.podallow := rfl
@[simp] theorem State.modCard_ports (s : State) (i : Nat) (f : Card → Card) : (s.modCard i f).ports = s.ports := rfl
@[simp] theorem State.modCard_reasm (s : State) (i : Nat) (f : Card → Card) : (s.modCard i f).reasm = s.reasm := rfl
@[simp] theorem State.modCard_linkOut (s : State) (i : Nat) (f : Card → Card) : (s.modCard i f).linkOut = s.linkOut := rfl
@[simp] theorem State.modCard_replies (s : State) (i : Nat) (f : Card → Card) : (s.modCard i f).replies = s.replies := rfl
@[simp] theorem State.modCard_objs (s : State) (i : Nat) (f : Card → Card) : (s.modCard i f).objs = s.objs := rfl
@[simp] theorem State.modCard_dump (s : State) (i : Nat) (f : Card → Card) : (s.modCard i f).dump = s.dump := rfl
@[simp] theorem State.modCard_trace (s : State) (i : Nat) (f : Card → Card) : (s.modCard i f).trace = s.trace := rfl
@[simp] theorem State.modCard_debugStops (s : State) (i : Nat) (f : Card → Card) : (s.modCard i f).debugStops = s.debugStops := rfl
@[simp] theorem State.modCard_rung (s : State) (i : Nat) (f : Card → Card) : (s.modCard i f).rung = s.rung := rfl
@[simp] theorem State.modCard_fw (s : State) (i : Nat) (f : Card → Card) : (s.modCard i f).fw = s.fw := rfl
@[simp] theorem State.modCard_stamps (s : State) (i : Nat) (f : Card → Card) : (s.modCard i f).stamps = s.stamps := rfl
@[simp] theorem State.modCard_reset0 (s : State) (i : Nat) (f : Card → Card) : (s.modCard i f).reset0 = s.reset0 := rfl
@[simp] theorem State.modCard_l2tlb (s : State) (i : Nat) (f : Card → Card) : (s.modCard i f).l2tlb = s.l2tlb := rfl
@[simp] theorem State.modCard_l2 (s : State) (i : Nat) (f : Card → Card) : (s.modCard i f).l2 = s.l2 := rfl
@[simp] theorem State.modCard_tamperAt (s : State) (i : Nat) (f : Card → Card) : (s.modCard i f).tamperAt = s.tamperAt := rfl
@[simp] theorem State.modCard_areas (s : State) (i : Nat) (f : Card → Card) : (s.modCard i f).areas = s.areas := rfl
@[simp] theorem State.modCard_hand (s : State) (i : Nat) (f : Card → Card) : (s.modCard i f).hand = s.hand := rfl
@[simp] theorem State.modCard_walks (s : State) (i : Nat) (f : Card → Card) : (s.modCard i f).walks = s.walks := rfl
@[simp] theorem State.modCard_queues (s : State) (i : Nat) (f : Card → Card) : (s.modCard i f).queues = s.queues := rfl
@[simp] theorem State.modCard_rung1 (s : State) (i : Nat) (f : Card → Card) : (s.modCard i f).rung1 = s.rung1 := rfl

/-! ### `modFunc` -/

@[simp] theorem State.modFunc_cycle (s : State) (n : Nat) (g : Func → Func) : (s.modFunc n g).cycle = s.cycle := rfl
@[simp] theorem State.modFunc_agenda (s : State) (n : Nat) (g : Func → Func) : (s.modFunc n g).agenda = s.agenda := rfl
@[simp] theorem State.modFunc_cur (s : State) (n : Nat) (g : Func → Func) : (s.modFunc n g).cur = s.cur := rfl
@[simp] theorem State.modFunc_turn (s : State) (n : Nat) (g : Func → Func) : (s.modFunc n g).turn = s.turn := rfl
@[simp] theorem State.modFunc_fresh (s : State) (n : Nat) (g : Func → Func) : (s.modFunc n g).fresh = s.fresh := rfl
@[simp] theorem State.modFunc_hbm (s : State) (n : Nat) (g : Func → Func) : (s.modFunc n g).hbm = s.hbm := rfl
@[simp] theorem State.modFunc_host (s : State) (n : Nat) (g : Func → Func) : (s.modFunc n g).host = s.host := rfl
@[simp] theorem State.modFunc_poison (s : State) (n : Nat) (g : Func → Func) : (s.modFunc n g).poison = s.poison := rfl
@[simp] theorem State.modFunc_faulty (s : State) (n : Nat) (g : Func → Func) : (s.modFunc n g).faulty = s.faulty := rfl
@[simp] theorem State.modFunc_cores (s : State) (n : Nat) (g : Func → Func) : (s.modFunc n g).cores = s.cores := rfl
@[simp] theorem State.modFunc_blocks (s : State) (n : Nat) (g : Func → Func) : (s.modFunc n g).blocks = s.blocks := rfl
@[simp] theorem State.modFunc_tasks (s : State) (n : Nat) (g : Func → Func) : (s.modFunc n g).tasks = s.tasks := rfl
@[simp] theorem State.modFunc_cards (s : State) (n : Nat) (g : Func → Func) : (s.modFunc n g).cards = s.cards := rfl
@[simp] theorem State.modFunc_nextId (s : State) (n : Nat) (g : Func → Func) : (s.modFunc n g).nextId = s.nextId := rfl
@[simp] theorem State.modFunc_overrides (s : State) (n : Nat) (g : Func → Func) : (s.modFunc n g).overrides = s.overrides := rfl
@[simp] theorem State.modFunc_drafts (s : State) (n : Nat) (g : Func → Func) : (s.modFunc n g).drafts = s.drafts := rfl
@[simp] theorem State.modFunc_pools (s : State) (n : Nat) (g : Func → Func) : (s.modFunc n g).pools = s.pools := rfl
@[simp] theorem State.modFunc_reserved (s : State) (n : Nat) (g : Func → Func) : (s.modFunc n g).reserved = s.reserved := rfl
@[simp] theorem State.modFunc_rcbs (s : State) (n : Nat) (g : Func → Func) : (s.modFunc n g).rcbs = s.rcbs := rfl
@[simp] theorem State.modFunc_txs (s : State) (n : Nat) (g : Func → Func) : (s.modFunc n g).txs = s.txs := rfl
@[simp] theorem State.modFunc_starved (s : State) (n : Nat) (g : Func → Func) : (s.modFunc n g).starved = s.starved := rfl
@[simp] theorem State.modFunc_monitors (s : State) (n : Nat) (g : Func → Func) : (s.modFunc n g).monitors = s.monitors := rfl
@[simp] theorem State.modFunc_tampers (s : State) (n : Nat) (g : Func → Func) : (s.modFunc n g).tampers = s.tampers := rfl
@[simp] theorem State.modFunc_grants (s : State) (n : Nat) (g : Func → Func) : (s.modFunc n g).grants = s.grants := rfl
@[simp] theorem State.modFunc_slices (s : State) (n : Nat) (g : Func → Func) : (s.modFunc n g).slices = s.slices := rfl
@[simp] theorem State.modFunc_shoots (s : State) (n : Nat) (g : Func → Func) : (s.modFunc n g).shoots = s.shoots := rfl
@[simp] theorem State.modFunc_msi (s : State) (n : Nat) (g : Func → Func) : (s.modFunc n g).msi = s.msi := rfl
@[simp] theorem State.modFunc_cps (s : State) (n : Nat) (g : Func → Func) : (s.modFunc n g).cps = s.cps := rfl
@[simp] theorem State.modFunc_bar2 (s : State) (n : Nat) (g : Func → Func) : (s.modFunc n g).bar2 = s.bar2 := rfl
@[simp] theorem State.modFunc_busData (s : State) (n : Nat) (g : Func → Func) : (s.modFunc n g).busData = s.busData := rfl
@[simp] theorem State.modFunc_counters (s : State) (n : Nat) (g : Func → Func) : (s.modFunc n g).counters = s.counters := rfl
@[simp] theorem State.modFunc_routes (s : State) (n : Nat) (g : Func → Func) : (s.modFunc n g).routes = s.routes := rfl
@[simp] theorem State.modFunc_boot (s : State) (n : Nat) (g : Func → Func) : (s.modFunc n g).boot = s.boot := rfl
@[simp] theorem State.modFunc_devid (s : State) (n : Nat) (g : Func → Func) : (s.modFunc n g).devid = s.devid := rfl
@[simp] theorem State.modFunc_podallow (s : State) (n : Nat) (g : Func → Func) : (s.modFunc n g).podallow = s.podallow := rfl
@[simp] theorem State.modFunc_ports (s : State) (n : Nat) (g : Func → Func) : (s.modFunc n g).ports = s.ports := rfl
@[simp] theorem State.modFunc_reasm (s : State) (n : Nat) (g : Func → Func) : (s.modFunc n g).reasm = s.reasm := rfl
@[simp] theorem State.modFunc_linkOut (s : State) (n : Nat) (g : Func → Func) : (s.modFunc n g).linkOut = s.linkOut := rfl
@[simp] theorem State.modFunc_replies (s : State) (n : Nat) (g : Func → Func) : (s.modFunc n g).replies = s.replies := rfl
@[simp] theorem State.modFunc_objs (s : State) (n : Nat) (g : Func → Func) : (s.modFunc n g).objs = s.objs := rfl
@[simp] theorem State.modFunc_dump (s : State) (n : Nat) (g : Func → Func) : (s.modFunc n g).dump = s.dump := rfl
@[simp] theorem State.modFunc_trace (s : State) (n : Nat) (g : Func → Func) : (s.modFunc n g).trace = s.trace := rfl
@[simp] theorem State.modFunc_debugStops (s : State) (n : Nat) (g : Func → Func) : (s.modFunc n g).debugStops = s.debugStops := rfl
@[simp] theorem State.modFunc_rung (s : State) (n : Nat) (g : Func → Func) : (s.modFunc n g).rung = s.rung := rfl
@[simp] theorem State.modFunc_fw (s : State) (n : Nat) (g : Func → Func) : (s.modFunc n g).fw = s.fw := rfl
@[simp] theorem State.modFunc_stamps (s : State) (n : Nat) (g : Func → Func) : (s.modFunc n g).stamps = s.stamps := rfl
@[simp] theorem State.modFunc_reset0 (s : State) (n : Nat) (g : Func → Func) : (s.modFunc n g).reset0 = s.reset0 := rfl
@[simp] theorem State.modFunc_l2tlb (s : State) (n : Nat) (g : Func → Func) : (s.modFunc n g).l2tlb = s.l2tlb := rfl
@[simp] theorem State.modFunc_l2 (s : State) (n : Nat) (g : Func → Func) : (s.modFunc n g).l2 = s.l2 := rfl
@[simp] theorem State.modFunc_tamperAt (s : State) (n : Nat) (g : Func → Func) : (s.modFunc n g).tamperAt = s.tamperAt := rfl
@[simp] theorem State.modFunc_areas (s : State) (n : Nat) (g : Func → Func) : (s.modFunc n g).areas = s.areas := rfl
@[simp] theorem State.modFunc_hand (s : State) (n : Nat) (g : Func → Func) : (s.modFunc n g).hand = s.hand := rfl
@[simp] theorem State.modFunc_walks (s : State) (n : Nat) (g : Func → Func) : (s.modFunc n g).walks = s.walks := rfl
@[simp] theorem State.modFunc_queues (s : State) (n : Nat) (g : Func → Func) : (s.modFunc n g).queues = s.queues := rfl
@[simp] theorem State.modFunc_rung1 (s : State) (n : Nat) (g : Func → Func) : (s.modFunc n g).rung1 = s.rung1 := rfl

/-! ### `modCp` -/

@[simp] theorem State.modCp_cycle (s : State) (n : Nat) (g : Cp → Cp) : (s.modCp n g).cycle = s.cycle := rfl
@[simp] theorem State.modCp_agenda (s : State) (n : Nat) (g : Cp → Cp) : (s.modCp n g).agenda = s.agenda := rfl
@[simp] theorem State.modCp_cur (s : State) (n : Nat) (g : Cp → Cp) : (s.modCp n g).cur = s.cur := rfl
@[simp] theorem State.modCp_turn (s : State) (n : Nat) (g : Cp → Cp) : (s.modCp n g).turn = s.turn := rfl
@[simp] theorem State.modCp_fresh (s : State) (n : Nat) (g : Cp → Cp) : (s.modCp n g).fresh = s.fresh := rfl
@[simp] theorem State.modCp_hbm (s : State) (n : Nat) (g : Cp → Cp) : (s.modCp n g).hbm = s.hbm := rfl
@[simp] theorem State.modCp_host (s : State) (n : Nat) (g : Cp → Cp) : (s.modCp n g).host = s.host := rfl
@[simp] theorem State.modCp_poison (s : State) (n : Nat) (g : Cp → Cp) : (s.modCp n g).poison = s.poison := rfl
@[simp] theorem State.modCp_faulty (s : State) (n : Nat) (g : Cp → Cp) : (s.modCp n g).faulty = s.faulty := rfl
@[simp] theorem State.modCp_cores (s : State) (n : Nat) (g : Cp → Cp) : (s.modCp n g).cores = s.cores := rfl
@[simp] theorem State.modCp_blocks (s : State) (n : Nat) (g : Cp → Cp) : (s.modCp n g).blocks = s.blocks := rfl
@[simp] theorem State.modCp_tasks (s : State) (n : Nat) (g : Cp → Cp) : (s.modCp n g).tasks = s.tasks := rfl
@[simp] theorem State.modCp_cards (s : State) (n : Nat) (g : Cp → Cp) : (s.modCp n g).cards = s.cards := rfl
@[simp] theorem State.modCp_nextId (s : State) (n : Nat) (g : Cp → Cp) : (s.modCp n g).nextId = s.nextId := rfl
@[simp] theorem State.modCp_overrides (s : State) (n : Nat) (g : Cp → Cp) : (s.modCp n g).overrides = s.overrides := rfl
@[simp] theorem State.modCp_drafts (s : State) (n : Nat) (g : Cp → Cp) : (s.modCp n g).drafts = s.drafts := rfl
@[simp] theorem State.modCp_pools (s : State) (n : Nat) (g : Cp → Cp) : (s.modCp n g).pools = s.pools := rfl
@[simp] theorem State.modCp_reserved (s : State) (n : Nat) (g : Cp → Cp) : (s.modCp n g).reserved = s.reserved := rfl
@[simp] theorem State.modCp_rcbs (s : State) (n : Nat) (g : Cp → Cp) : (s.modCp n g).rcbs = s.rcbs := rfl
@[simp] theorem State.modCp_txs (s : State) (n : Nat) (g : Cp → Cp) : (s.modCp n g).txs = s.txs := rfl
@[simp] theorem State.modCp_starved (s : State) (n : Nat) (g : Cp → Cp) : (s.modCp n g).starved = s.starved := rfl
@[simp] theorem State.modCp_monitors (s : State) (n : Nat) (g : Cp → Cp) : (s.modCp n g).monitors = s.monitors := rfl
@[simp] theorem State.modCp_tampers (s : State) (n : Nat) (g : Cp → Cp) : (s.modCp n g).tampers = s.tampers := rfl
@[simp] theorem State.modCp_grants (s : State) (n : Nat) (g : Cp → Cp) : (s.modCp n g).grants = s.grants := rfl
@[simp] theorem State.modCp_slices (s : State) (n : Nat) (g : Cp → Cp) : (s.modCp n g).slices = s.slices := rfl
@[simp] theorem State.modCp_shoots (s : State) (n : Nat) (g : Cp → Cp) : (s.modCp n g).shoots = s.shoots := rfl
@[simp] theorem State.modCp_funcs (s : State) (n : Nat) (g : Cp → Cp) : (s.modCp n g).funcs = s.funcs := rfl
@[simp] theorem State.modCp_msi (s : State) (n : Nat) (g : Cp → Cp) : (s.modCp n g).msi = s.msi := rfl
@[simp] theorem State.modCp_bar2 (s : State) (n : Nat) (g : Cp → Cp) : (s.modCp n g).bar2 = s.bar2 := rfl
@[simp] theorem State.modCp_busData (s : State) (n : Nat) (g : Cp → Cp) : (s.modCp n g).busData = s.busData := rfl
@[simp] theorem State.modCp_counters (s : State) (n : Nat) (g : Cp → Cp) : (s.modCp n g).counters = s.counters := rfl
@[simp] theorem State.modCp_routes (s : State) (n : Nat) (g : Cp → Cp) : (s.modCp n g).routes = s.routes := rfl
@[simp] theorem State.modCp_boot (s : State) (n : Nat) (g : Cp → Cp) : (s.modCp n g).boot = s.boot := rfl
@[simp] theorem State.modCp_devid (s : State) (n : Nat) (g : Cp → Cp) : (s.modCp n g).devid = s.devid := rfl
@[simp] theorem State.modCp_podallow (s : State) (n : Nat) (g : Cp → Cp) : (s.modCp n g).podallow = s.podallow := rfl
@[simp] theorem State.modCp_ports (s : State) (n : Nat) (g : Cp → Cp) : (s.modCp n g).ports = s.ports := rfl
@[simp] theorem State.modCp_reasm (s : State) (n : Nat) (g : Cp → Cp) : (s.modCp n g).reasm = s.reasm := rfl
@[simp] theorem State.modCp_linkOut (s : State) (n : Nat) (g : Cp → Cp) : (s.modCp n g).linkOut = s.linkOut := rfl
@[simp] theorem State.modCp_replies (s : State) (n : Nat) (g : Cp → Cp) : (s.modCp n g).replies = s.replies := rfl
@[simp] theorem State.modCp_objs (s : State) (n : Nat) (g : Cp → Cp) : (s.modCp n g).objs = s.objs := rfl
@[simp] theorem State.modCp_dump (s : State) (n : Nat) (g : Cp → Cp) : (s.modCp n g).dump = s.dump := rfl
@[simp] theorem State.modCp_trace (s : State) (n : Nat) (g : Cp → Cp) : (s.modCp n g).trace = s.trace := rfl
@[simp] theorem State.modCp_debugStops (s : State) (n : Nat) (g : Cp → Cp) : (s.modCp n g).debugStops = s.debugStops := rfl
@[simp] theorem State.modCp_rung (s : State) (n : Nat) (g : Cp → Cp) : (s.modCp n g).rung = s.rung := rfl
@[simp] theorem State.modCp_fw (s : State) (n : Nat) (g : Cp → Cp) : (s.modCp n g).fw = s.fw := rfl
@[simp] theorem State.modCp_stamps (s : State) (n : Nat) (g : Cp → Cp) : (s.modCp n g).stamps = s.stamps := rfl
@[simp] theorem State.modCp_reset0 (s : State) (n : Nat) (g : Cp → Cp) : (s.modCp n g).reset0 = s.reset0 := rfl
@[simp] theorem State.modCp_l2tlb (s : State) (n : Nat) (g : Cp → Cp) : (s.modCp n g).l2tlb = s.l2tlb := rfl
@[simp] theorem State.modCp_l2 (s : State) (n : Nat) (g : Cp → Cp) : (s.modCp n g).l2 = s.l2 := rfl
@[simp] theorem State.modCp_tamperAt (s : State) (n : Nat) (g : Cp → Cp) : (s.modCp n g).tamperAt = s.tamperAt := rfl
@[simp] theorem State.modCp_areas (s : State) (n : Nat) (g : Cp → Cp) : (s.modCp n g).areas = s.areas := rfl
@[simp] theorem State.modCp_hand (s : State) (n : Nat) (g : Cp → Cp) : (s.modCp n g).hand = s.hand := rfl
@[simp] theorem State.modCp_walks (s : State) (n : Nat) (g : Cp → Cp) : (s.modCp n g).walks = s.walks := rfl
@[simp] theorem State.modCp_queues (s : State) (n : Nat) (g : Cp → Cp) : (s.modCp n g).queues = s.queues := rfl
@[simp] theorem State.modCp_rung1 (s : State) (n : Nat) (g : Cp → Cp) : (s.modCp n g).rung1 = s.rung1 := rfl

/-! ### `modSlice` -/

@[simp] theorem State.modSlice_cycle (s : State) (i : Nat) (g : SliceLog → SliceLog) : (s.modSlice i g).cycle = s.cycle := rfl
@[simp] theorem State.modSlice_agenda (s : State) (i : Nat) (g : SliceLog → SliceLog) : (s.modSlice i g).agenda = s.agenda := rfl
@[simp] theorem State.modSlice_cur (s : State) (i : Nat) (g : SliceLog → SliceLog) : (s.modSlice i g).cur = s.cur := rfl
@[simp] theorem State.modSlice_turn (s : State) (i : Nat) (g : SliceLog → SliceLog) : (s.modSlice i g).turn = s.turn := rfl
@[simp] theorem State.modSlice_fresh (s : State) (i : Nat) (g : SliceLog → SliceLog) : (s.modSlice i g).fresh = s.fresh := rfl
@[simp] theorem State.modSlice_hbm (s : State) (i : Nat) (g : SliceLog → SliceLog) : (s.modSlice i g).hbm = s.hbm := rfl
@[simp] theorem State.modSlice_host (s : State) (i : Nat) (g : SliceLog → SliceLog) : (s.modSlice i g).host = s.host := rfl
@[simp] theorem State.modSlice_poison (s : State) (i : Nat) (g : SliceLog → SliceLog) : (s.modSlice i g).poison = s.poison := rfl
@[simp] theorem State.modSlice_faulty (s : State) (i : Nat) (g : SliceLog → SliceLog) : (s.modSlice i g).faulty = s.faulty := rfl
@[simp] theorem State.modSlice_cores (s : State) (i : Nat) (g : SliceLog → SliceLog) : (s.modSlice i g).cores = s.cores := rfl
@[simp] theorem State.modSlice_blocks (s : State) (i : Nat) (g : SliceLog → SliceLog) : (s.modSlice i g).blocks = s.blocks := rfl
@[simp] theorem State.modSlice_tasks (s : State) (i : Nat) (g : SliceLog → SliceLog) : (s.modSlice i g).tasks = s.tasks := rfl
@[simp] theorem State.modSlice_cards (s : State) (i : Nat) (g : SliceLog → SliceLog) : (s.modSlice i g).cards = s.cards := rfl
@[simp] theorem State.modSlice_nextId (s : State) (i : Nat) (g : SliceLog → SliceLog) : (s.modSlice i g).nextId = s.nextId := rfl
@[simp] theorem State.modSlice_overrides (s : State) (i : Nat) (g : SliceLog → SliceLog) : (s.modSlice i g).overrides = s.overrides := rfl
@[simp] theorem State.modSlice_drafts (s : State) (i : Nat) (g : SliceLog → SliceLog) : (s.modSlice i g).drafts = s.drafts := rfl
@[simp] theorem State.modSlice_pools (s : State) (i : Nat) (g : SliceLog → SliceLog) : (s.modSlice i g).pools = s.pools := rfl
@[simp] theorem State.modSlice_reserved (s : State) (i : Nat) (g : SliceLog → SliceLog) : (s.modSlice i g).reserved = s.reserved := rfl
@[simp] theorem State.modSlice_rcbs (s : State) (i : Nat) (g : SliceLog → SliceLog) : (s.modSlice i g).rcbs = s.rcbs := rfl
@[simp] theorem State.modSlice_txs (s : State) (i : Nat) (g : SliceLog → SliceLog) : (s.modSlice i g).txs = s.txs := rfl
@[simp] theorem State.modSlice_starved (s : State) (i : Nat) (g : SliceLog → SliceLog) : (s.modSlice i g).starved = s.starved := rfl
@[simp] theorem State.modSlice_monitors (s : State) (i : Nat) (g : SliceLog → SliceLog) : (s.modSlice i g).monitors = s.monitors := rfl
@[simp] theorem State.modSlice_tampers (s : State) (i : Nat) (g : SliceLog → SliceLog) : (s.modSlice i g).tampers = s.tampers := rfl
@[simp] theorem State.modSlice_grants (s : State) (i : Nat) (g : SliceLog → SliceLog) : (s.modSlice i g).grants = s.grants := rfl
@[simp] theorem State.modSlice_shoots (s : State) (i : Nat) (g : SliceLog → SliceLog) : (s.modSlice i g).shoots = s.shoots := rfl
@[simp] theorem State.modSlice_funcs (s : State) (i : Nat) (g : SliceLog → SliceLog) : (s.modSlice i g).funcs = s.funcs := rfl
@[simp] theorem State.modSlice_msi (s : State) (i : Nat) (g : SliceLog → SliceLog) : (s.modSlice i g).msi = s.msi := rfl
@[simp] theorem State.modSlice_cps (s : State) (i : Nat) (g : SliceLog → SliceLog) : (s.modSlice i g).cps = s.cps := rfl
@[simp] theorem State.modSlice_bar2 (s : State) (i : Nat) (g : SliceLog → SliceLog) : (s.modSlice i g).bar2 = s.bar2 := rfl
@[simp] theorem State.modSlice_busData (s : State) (i : Nat) (g : SliceLog → SliceLog) : (s.modSlice i g).busData = s.busData := rfl
@[simp] theorem State.modSlice_counters (s : State) (i : Nat) (g : SliceLog → SliceLog) : (s.modSlice i g).counters = s.counters := rfl
@[simp] theorem State.modSlice_routes (s : State) (i : Nat) (g : SliceLog → SliceLog) : (s.modSlice i g).routes = s.routes := rfl
@[simp] theorem State.modSlice_boot (s : State) (i : Nat) (g : SliceLog → SliceLog) : (s.modSlice i g).boot = s.boot := rfl
@[simp] theorem State.modSlice_devid (s : State) (i : Nat) (g : SliceLog → SliceLog) : (s.modSlice i g).devid = s.devid := rfl
@[simp] theorem State.modSlice_podallow (s : State) (i : Nat) (g : SliceLog → SliceLog) : (s.modSlice i g).podallow = s.podallow := rfl
@[simp] theorem State.modSlice_ports (s : State) (i : Nat) (g : SliceLog → SliceLog) : (s.modSlice i g).ports = s.ports := rfl
@[simp] theorem State.modSlice_reasm (s : State) (i : Nat) (g : SliceLog → SliceLog) : (s.modSlice i g).reasm = s.reasm := rfl
@[simp] theorem State.modSlice_linkOut (s : State) (i : Nat) (g : SliceLog → SliceLog) : (s.modSlice i g).linkOut = s.linkOut := rfl
@[simp] theorem State.modSlice_replies (s : State) (i : Nat) (g : SliceLog → SliceLog) : (s.modSlice i g).replies = s.replies := rfl
@[simp] theorem State.modSlice_objs (s : State) (i : Nat) (g : SliceLog → SliceLog) : (s.modSlice i g).objs = s.objs := rfl
@[simp] theorem State.modSlice_dump (s : State) (i : Nat) (g : SliceLog → SliceLog) : (s.modSlice i g).dump = s.dump := rfl
@[simp] theorem State.modSlice_trace (s : State) (i : Nat) (g : SliceLog → SliceLog) : (s.modSlice i g).trace = s.trace := rfl
@[simp] theorem State.modSlice_debugStops (s : State) (i : Nat) (g : SliceLog → SliceLog) : (s.modSlice i g).debugStops = s.debugStops := rfl
@[simp] theorem State.modSlice_rung (s : State) (i : Nat) (g : SliceLog → SliceLog) : (s.modSlice i g).rung = s.rung := rfl
@[simp] theorem State.modSlice_fw (s : State) (i : Nat) (g : SliceLog → SliceLog) : (s.modSlice i g).fw = s.fw := rfl
@[simp] theorem State.modSlice_stamps (s : State) (i : Nat) (g : SliceLog → SliceLog) : (s.modSlice i g).stamps = s.stamps := rfl
@[simp] theorem State.modSlice_reset0 (s : State) (i : Nat) (g : SliceLog → SliceLog) : (s.modSlice i g).reset0 = s.reset0 := rfl
@[simp] theorem State.modSlice_l2tlb (s : State) (i : Nat) (g : SliceLog → SliceLog) : (s.modSlice i g).l2tlb = s.l2tlb := rfl
@[simp] theorem State.modSlice_l2 (s : State) (i : Nat) (g : SliceLog → SliceLog) : (s.modSlice i g).l2 = s.l2 := rfl
@[simp] theorem State.modSlice_tamperAt (s : State) (i : Nat) (g : SliceLog → SliceLog) : (s.modSlice i g).tamperAt = s.tamperAt := rfl
@[simp] theorem State.modSlice_areas (s : State) (i : Nat) (g : SliceLog → SliceLog) : (s.modSlice i g).areas = s.areas := rfl
@[simp] theorem State.modSlice_hand (s : State) (i : Nat) (g : SliceLog → SliceLog) : (s.modSlice i g).hand = s.hand := rfl
@[simp] theorem State.modSlice_walks (s : State) (i : Nat) (g : SliceLog → SliceLog) : (s.modSlice i g).walks = s.walks := rfl
@[simp] theorem State.modSlice_queues (s : State) (i : Nat) (g : SliceLog → SliceLog) : (s.modSlice i g).queues = s.queues := rfl
@[simp] theorem State.modSlice_rung1 (s : State) (i : Nat) (g : SliceLog → SliceLog) : (s.modSlice i g).rung1 = s.rung1 := rfl

end Sys2Proof.Machine
end

