-- ==== Sys2Proof/Laws/Warp.lean ====
section
/-! SUPPORT. Laws of a warp: what each update leaves alone, field by field, and reading a register after a write. -/

namespace Sys2Proof.Machine

/-! ## Registers -/

/-- s0 reads 0. -/
@[simp] theorem Warp.s_zero (w : Warp) : w.s 0 = 0 := by simp [Warp.s]

/-- s0 ignores writes. -/
@[simp] theorem Warp.setS_zero (w : Warp) (x : DWord) : w.setS 0 x = w := by simp [Warp.setS]

/-- sp0 is true. -/
@[simp] theorem Warp.sp_zero (w : Warp) : w.sp 0 = true := by simp [Warp.sp]

/-- sp0 ignores writes. -/
@[simp] theorem Warp.setSp_zero (w : Warp) (b : Bool) : w.setSp 0 b = w := by simp [Warp.setSp]

/-- vp0 is true in every lane. -/
@[simp] theorem Warp.vp_zero (w : Warp) (l : Nat) : w.vp 0 l = true := by simp [Warp.vp]

/-- vp0 ignores writes. -/
@[simp] theorem Warp.setVp_zero (w : Warp) (l : Nat) (b : Bool) : w.setVp 0 l b = w := by simp [Warp.setVp]

/-! ## One part at a time -/

/-! ### `push` -/

@[simp] theorem Warp.push_block (w : Warp) (x : Landing) : (w.push x).block = w.block := rfl
@[simp] theorem Warp.push_windex (w : Warp) (x : Landing) : (w.push x).windex = w.windex := rfl
@[simp] theorem Warp.push_role (w : Warp) (x : Landing) : (w.push x).role = w.role := rfl
@[simp] theorem Warp.push_k (w : Warp) (x : Landing) : (w.push x).k = w.k := rfl
@[simp] theorem Warp.push_budget (w : Warp) (x : Landing) : (w.push x).budget = w.budget := rfl
@[simp] theorem Warp.push_lbase (w : Warp) (x : Landing) : (w.push x).lbase = w.lbase := rfl
@[simp] theorem Warp.push_laneLimit (w : Warp) (x : Landing) : (w.push x).laneLimit = w.laneLimit := rfl
@[simp] theorem Warp.push_position (w : Warp) (x : Landing) : (w.push x).position = w.position := rfl
@[simp] theorem Warp.push_moved (w : Warp) (x : Landing) : (w.push x).moved = w.moved := rfl
@[simp] theorem Warp.push_vregs (w : Warp) (x : Landing) : (w.push x).vregs = w.vregs := rfl
@[simp] theorem Warp.push_sregs (w : Warp) (x : Landing) : (w.push x).sregs = w.sregs := rfl
@[simp] theorem Warp.push_vpred (w : Warp) (x : Landing) : (w.push x).vpred = w.vpred := rfl
@[simp] theorem Warp.push_spred (w : Warp) (x : Landing) : (w.push x).spred = w.spred := rfl
@[simp] theorem Warp.push_flags (w : Warp) (x : Landing) : (w.push x).flags = w.flags := rfl
@[simp] theorem Warp.push_incs (w : Warp) (x : Landing) : (w.push x).incs = w.incs := rfl
@[simp] theorem Warp.push_loops (w : Warp) (x : Landing) : (w.push x).loops = w.loops := rfl
@[simp] theorem Warp.push_mask (w : Warp) (x : Landing) : (w.push x).mask = w.mask := rfl
@[simp] theorem Warp.push_entryMask (w : Warp) (x : Landing) : (w.push x).entryMask = w.entryMask := rfl
@[simp] theorem Warp.push_retire (w : Warp) (x : Landing) : (w.push x).retire = w.retire := rfl
@[simp] theorem Warp.push_pc (w : Warp) (x : Landing) : (w.push x).pc = w.pc := rfl
@[simp] theorem Warp.push_gap (w : Warp) (x : Landing) : (w.push x).gap = w.gap := rfl
@[simp] theorem Warp.push_ctl (w : Warp) (x : Landing) : (w.push x).ctl = w.ctl := rfl
@[simp] theorem Warp.push_tick (w : Warp) (x : Landing) : (w.push x).tick = w.tick := rfl
@[simp] theorem Warp.push_tickStart (w : Warp) (x : Landing) : (w.push x).tickStart = w.tickStart := rfl
@[simp] theorem Warp.push_due (w : Warp) (x : Landing) : (w.push x).due = w.due := rfl
@[simp] theorem Warp.push_opened (w : Warp) (x : Landing) : (w.push x).opened = w.opened := rfl
@[simp] theorem Warp.push_landed (w : Warp) (x : Landing) : (w.push x).landed = w.landed := rfl
@[simp] theorem Warp.push_fel (w : Warp) (x : Landing) : (w.push x).fel = w.fel := rfl
@[simp] theorem Warp.push_fes (w : Warp) (x : Landing) : (w.push x).fes = w.fes := rfl
@[simp] theorem Warp.push_fen (w : Warp) (x : Landing) : (w.push x).fen = w.fen := rfl
@[simp] theorem Warp.push_tsa (w : Warp) (x : Landing) : (w.push x).tsa = w.tsa := rfl
@[simp] theorem Warp.push_cause (w : Warp) (x : Landing) : (w.push x).cause = w.cause := rfl
@[simp] theorem Warp.push_epc (w : Warp) (x : Landing) : (w.push x).epc = w.epc := rfl
@[simp] theorem Warp.push_imask (w : Warp) (x : Landing) : (w.push x).imask = w.imask := rfl
@[simp] theorem Warp.push_priv (w : Warp) (x : Landing) : (w.push x).priv = w.priv := rfl
@[simp] theorem Warp.push_stop (w : Warp) (x : Landing) : (w.push x).stop = w.stop := rfl
@[simp] theorem Warp.push_since (w : Warp) (x : Landing) : (w.push x).since = w.since := rfl
@[simp] theorem Warp.push_hold (w : Warp) (x : Landing) : (w.push x).hold = w.hold := rfl
@[simp] theorem Warp.push_kept (w : Warp) (x : Landing) : (w.push x).kept = w.kept := rfl
@[simp] theorem Warp.push_keptRetire (w : Warp) (x : Landing) : (w.push x).keptRetire = w.keptRetire := rfl
@[simp] theorem Warp.push_deferred (w : Warp) (x : Landing) : (w.push x).deferred = w.deferred := rfl
@[simp] theorem Warp.push_pendEv (w : Warp) (x : Landing) : (w.push x).pendEv = w.pendEv := rfl
@[simp] theorem Warp.push_trap (w : Warp) (x : Landing) : (w.push x).trap = w.trap := rfl
@[simp] theorem Warp.push_replay (w : Warp) (x : Landing) : (w.push x).replay = w.replay := rfl
@[simp] theorem Warp.push_brt (w : Warp) (x : Landing) : (w.push x).brt = w.brt := rfl
@[simp] theorem Warp.push_halt (w : Warp) (x : Landing) : (w.push x).halt = w.halt := rfl
@[simp] theorem Warp.push_step (w : Warp) (x : Landing) : (w.push x).step = w.step := rfl
@[simp] theorem Warp.push_stretched (w : Warp) (x : Landing) : (w.push x).stretched = w.stretched := rfl
@[simp] theorem Warp.push_yielded (w : Warp) (x : Landing) : (w.push x).yielded = w.yielded := rfl
@[simp] theorem Warp.push_preempt (w : Warp) (x : Landing) : (w.push x).preempt = w.preempt := rfl
@[simp] theorem Warp.push_fetch (w : Warp) (x : Landing) : (w.push x).fetch = w.fetch := rfl
@[simp] theorem Warp.push_lastLine (w : Warp) (x : Landing) : (w.push x).lastLine = w.lastLine := rfl
@[simp] theorem Warp.push_seq (w : Warp) (x : Landing) : (w.push x).seq = w.seq := rfl
@[simp] theorem Warp.push_fell (w : Warp) (x : Landing) : (w.push x).fell = w.fell := rfl
@[simp] theorem Warp.push_issuedAt (w : Warp) (x : Landing) : (w.push x).issuedAt = w.issuedAt := rfl
@[simp] theorem Warp.push_inTick (w : Warp) (x : Landing) : (w.push x).inTick = w.inTick := rfl

/-! ### `pushAll` -/

@[simp] theorem Warp.pushAll_block (w : Warp) (xs : List Landing) : (w.pushAll xs).block = w.block := rfl
@[simp] theorem Warp.pushAll_windex (w : Warp) (xs : List Landing) : (w.pushAll xs).windex = w.windex := rfl
@[simp] theorem Warp.pushAll_role (w : Warp) (xs : List Landing) : (w.pushAll xs).role = w.role := rfl
@[simp] theorem Warp.pushAll_k (w : Warp) (xs : List Landing) : (w.pushAll xs).k = w.k := rfl
@[simp] theorem Warp.pushAll_budget (w : Warp) (xs : List Landing) : (w.pushAll xs).budget = w.budget := rfl
@[simp] theorem Warp.pushAll_lbase (w : Warp) (xs : List Landing) : (w.pushAll xs).lbase = w.lbase := rfl
@[simp] theorem Warp.pushAll_laneLimit (w : Warp) (xs : List Landing) : (w.pushAll xs).laneLimit = w.laneLimit := rfl
@[simp] theorem Warp.pushAll_position (w : Warp) (xs : List Landing) : (w.pushAll xs).position = w.position := rfl
@[simp] theorem Warp.pushAll_moved (w : Warp) (xs : List Landing) : (w.pushAll xs).moved = w.moved := rfl
@[simp] theorem Warp.pushAll_vregs (w : Warp) (xs : List Landing) : (w.pushAll xs).vregs = w.vregs := rfl
@[simp] theorem Warp.pushAll_sregs (w : Warp) (xs : List Landing) : (w.pushAll xs).sregs = w.sregs := rfl
@[simp] theorem Warp.pushAll_vpred (w : Warp) (xs : List Landing) : (w.pushAll xs).vpred = w.vpred := rfl
@[simp] theorem Warp.pushAll_spred (w : Warp) (xs : List Landing) : (w.pushAll xs).spred = w.spred := rfl
@[simp] theorem Warp.pushAll_flags (w : Warp) (xs : List Landing) : (w.pushAll xs).flags = w.flags := rfl
@[simp] theorem Warp.pushAll_incs (w : Warp) (xs : List Landing) : (w.pushAll xs).incs = w.incs := rfl
@[simp] theorem Warp.pushAll_loops (w : Warp) (xs : List Landing) : (w.pushAll xs).loops = w.loops := rfl
@[simp] theorem Warp.pushAll_mask (w : Warp) (xs : List Landing) : (w.pushAll xs).mask = w.mask := rfl
@[simp] theorem Warp.pushAll_entryMask (w : Warp) (xs : List Landing) : (w.pushAll xs).entryMask = w.entryMask := rfl
@[simp] theorem Warp.pushAll_retire (w : Warp) (xs : List Landing) : (w.pushAll xs).retire = w.retire := rfl
@[simp] theorem Warp.pushAll_pc (w : Warp) (xs : List Landing) : (w.pushAll xs).pc = w.pc := rfl
@[simp] theorem Warp.pushAll_gap (w : Warp) (xs : List Landing) : (w.pushAll xs).gap = w.gap := rfl
@[simp] theorem Warp.pushAll_ctl (w : Warp) (xs : List Landing) : (w.pushAll xs).ctl = w.ctl := rfl
@[simp] theorem Warp.pushAll_tick (w : Warp) (xs : List Landing) : (w.pushAll xs).tick = w.tick := rfl
@[simp] theorem Warp.pushAll_tickStart (w : Warp) (xs : List Landing) : (w.pushAll xs).tickStart = w.tickStart := rfl
@[simp] theorem Warp.pushAll_due (w : Warp) (xs : List Landing) : (w.pushAll xs).due = w.due := rfl
@[simp] theorem Warp.pushAll_opened (w : Warp) (xs : List Landing) : (w.pushAll xs).opened = w.opened := rfl
@[simp] theorem Warp.pushAll_landed (w : Warp) (xs : List Landing) : (w.pushAll xs).landed = w.landed := rfl
@[simp] theorem Warp.pushAll_fel (w : Warp) (xs : List Landing) : (w.pushAll xs).fel = w.fel := rfl
@[simp] theorem Warp.pushAll_fes (w : Warp) (xs : List Landing) : (w.pushAll xs).fes = w.fes := rfl
@[simp] theorem Warp.pushAll_fen (w : Warp) (xs : List Landing) : (w.pushAll xs).fen = w.fen := rfl
@[simp] theorem Warp.pushAll_tsa (w : Warp) (xs : List Landing) : (w.pushAll xs).tsa = w.tsa := rfl
@[simp] theorem Warp.pushAll_cause (w : Warp) (xs : List Landing) : (w.pushAll xs).cause = w.cause := rfl
@[simp] theorem Warp.pushAll_epc (w : Warp) (xs : List Landing) : (w.pushAll xs).epc = w.epc := rfl
@[simp] theorem Warp.pushAll_imask (w : Warp) (xs : List Landing) : (w.pushAll xs).imask = w.imask := rfl
@[simp] theorem Warp.pushAll_priv (w : Warp) (xs : List Landing) : (w.pushAll xs).priv = w.priv := rfl
@[simp] theorem Warp.pushAll_stop (w : Warp) (xs : List Landing) : (w.pushAll xs).stop = w.stop := rfl
@[simp] theorem Warp.pushAll_since (w : Warp) (xs : List Landing) : (w.pushAll xs).since = w.since := rfl
@[simp] theorem Warp.pushAll_hold (w : Warp) (xs : List Landing) : (w.pushAll xs).hold = w.hold := rfl
@[simp] theorem Warp.pushAll_kept (w : Warp) (xs : List Landing) : (w.pushAll xs).kept = w.kept := rfl
@[simp] theorem Warp.pushAll_keptRetire (w : Warp) (xs : List Landing) : (w.pushAll xs).keptRetire = w.keptRetire := rfl
@[simp] theorem Warp.pushAll_deferred (w : Warp) (xs : List Landing) : (w.pushAll xs).deferred = w.deferred := rfl
@[simp] theorem Warp.pushAll_pendEv (w : Warp) (xs : List Landing) : (w.pushAll xs).pendEv = w.pendEv := rfl
@[simp] theorem Warp.pushAll_trap (w : Warp) (xs : List Landing) : (w.pushAll xs).trap = w.trap := rfl
@[simp] theorem Warp.pushAll_replay (w : Warp) (xs : List Landing) : (w.pushAll xs).replay = w.replay := rfl
@[simp] theorem Warp.pushAll_brt (w : Warp) (xs : List Landing) : (w.pushAll xs).brt = w.brt := rfl
@[simp] theorem Warp.pushAll_halt (w : Warp) (xs : List Landing) : (w.pushAll xs).halt = w.halt := rfl
@[simp] theorem Warp.pushAll_step (w : Warp) (xs : List Landing) : (w.pushAll xs).step = w.step := rfl
@[simp] theorem Warp.pushAll_stretched (w : Warp) (xs : List Landing) : (w.pushAll xs).stretched = w.stretched := rfl
@[simp] theorem Warp.pushAll_yielded (w : Warp) (xs : List Landing) : (w.pushAll xs).yielded = w.yielded := rfl
@[simp] theorem Warp.pushAll_preempt (w : Warp) (xs : List Landing) : (w.pushAll xs).preempt = w.preempt := rfl
@[simp] theorem Warp.pushAll_fetch (w : Warp) (xs : List Landing) : (w.pushAll xs).fetch = w.fetch := rfl
@[simp] theorem Warp.pushAll_lastLine (w : Warp) (xs : List Landing) : (w.pushAll xs).lastLine = w.lastLine := rfl
@[simp] theorem Warp.pushAll_seq (w : Warp) (xs : List Landing) : (w.pushAll xs).seq = w.seq := rfl
@[simp] theorem Warp.pushAll_fell (w : Warp) (xs : List Landing) : (w.pushAll xs).fell = w.fell := rfl
@[simp] theorem Warp.pushAll_issuedAt (w : Warp) (xs : List Landing) : (w.pushAll xs).issuedAt = w.issuedAt := rfl
@[simp] theorem Warp.pushAll_inTick (w : Warp) (xs : List Landing) : (w.pushAll xs).inTick = w.inTick := rfl

/-! ### `setV` -/

@[simp] theorem Warp.setV_block (w : Warp) (r l : Nat) (x : Word) : (w.setV r l x).block = w.block := rfl
@[simp] theorem Warp.setV_windex (w : Warp) (r l : Nat) (x : Word) : (w.setV r l x).windex = w.windex := rfl
@[simp] theorem Warp.setV_role (w : Warp) (r l : Nat) (x : Word) : (w.setV r l x).role = w.role := rfl
@[simp] theorem Warp.setV_k (w : Warp) (r l : Nat) (x : Word) : (w.setV r l x).k = w.k := rfl
@[simp] theorem Warp.setV_budget (w : Warp) (r l : Nat) (x : Word) : (w.setV r l x).budget = w.budget := rfl
@[simp] theorem Warp.setV_lbase (w : Warp) (r l : Nat) (x : Word) : (w.setV r l x).lbase = w.lbase := rfl
@[simp] theorem Warp.setV_laneLimit (w : Warp) (r l : Nat) (x : Word) : (w.setV r l x).laneLimit = w.laneLimit := rfl
@[simp] theorem Warp.setV_position (w : Warp) (r l : Nat) (x : Word) : (w.setV r l x).position = w.position := rfl
@[simp] theorem Warp.setV_moved (w : Warp) (r l : Nat) (x : Word) : (w.setV r l x).moved = w.moved := rfl
@[simp] theorem Warp.setV_sregs (w : Warp) (r l : Nat) (x : Word) : (w.setV r l x).sregs = w.sregs := rfl
@[simp] theorem Warp.setV_vpred (w : Warp) (r l : Nat) (x : Word) : (w.setV r l x).vpred = w.vpred := rfl
@[simp] theorem Warp.setV_spred (w : Warp) (r l : Nat) (x : Word) : (w.setV r l x).spred = w.spred := rfl
@[simp] theorem Warp.setV_flags (w : Warp) (r l : Nat) (x : Word) : (w.setV r l x).flags = w.flags := rfl
@[simp] theorem Warp.setV_incs (w : Warp) (r l : Nat) (x : Word) : (w.setV r l x).incs = w.incs := rfl
@[simp] theorem Warp.setV_loops (w : Warp) (r l : Nat) (x : Word) : (w.setV r l x).loops = w.loops := rfl
@[simp] theorem Warp.setV_mask (w : Warp) (r l : Nat) (x : Word) : (w.setV r l x).mask = w.mask := rfl
@[simp] theorem Warp.setV_entryMask (w : Warp) (r l : Nat) (x : Word) : (w.setV r l x).entryMask = w.entryMask := rfl
@[simp] theorem Warp.setV_retire (w : Warp) (r l : Nat) (x : Word) : (w.setV r l x).retire = w.retire := rfl
@[simp] theorem Warp.setV_pc (w : Warp) (r l : Nat) (x : Word) : (w.setV r l x).pc = w.pc := rfl
@[simp] theorem Warp.setV_gap (w : Warp) (r l : Nat) (x : Word) : (w.setV r l x).gap = w.gap := rfl
@[simp] theorem Warp.setV_ctl (w : Warp) (r l : Nat) (x : Word) : (w.setV r l x).ctl = w.ctl := rfl
@[simp] theorem Warp.setV_tick (w : Warp) (r l : Nat) (x : Word) : (w.setV r l x).tick = w.tick := rfl
@[simp] theorem Warp.setV_tickStart (w : Warp) (r l : Nat) (x : Word) : (w.setV r l x).tickStart = w.tickStart := rfl
@[simp] theorem Warp.setV_due (w : Warp) (r l : Nat) (x : Word) : (w.setV r l x).due = w.due := rfl
@[simp] theorem Warp.setV_opened (w : Warp) (r l : Nat) (x : Word) : (w.setV r l x).opened = w.opened := rfl
@[simp] theorem Warp.setV_flight (w : Warp) (r l : Nat) (x : Word) : (w.setV r l x).flight = w.flight := rfl
@[simp] theorem Warp.setV_landed (w : Warp) (r l : Nat) (x : Word) : (w.setV r l x).landed = w.landed := rfl
@[simp] theorem Warp.setV_fel (w : Warp) (r l : Nat) (x : Word) : (w.setV r l x).fel = w.fel := rfl
@[simp] theorem Warp.setV_fes (w : Warp) (r l : Nat) (x : Word) : (w.setV r l x).fes = w.fes := rfl
@[simp] theorem Warp.setV_fen (w : Warp) (r l : Nat) (x : Word) : (w.setV r l x).fen = w.fen := rfl
@[simp] theorem Warp.setV_tsa (w : Warp) (r l : Nat) (x : Word) : (w.setV r l x).tsa = w.tsa := rfl
@[simp] theorem Warp.setV_cause (w : Warp) (r l : Nat) (x : Word) : (w.setV r l x).cause = w.cause := rfl
@[simp] theorem Warp.setV_epc (w : Warp) (r l : Nat) (x : Word) : (w.setV r l x).epc = w.epc := rfl
@[simp] theorem Warp.setV_imask (w : Warp) (r l : Nat) (x : Word) : (w.setV r l x).imask = w.imask := rfl
@[simp] theorem Warp.setV_priv (w : Warp) (r l : Nat) (x : Word) : (w.setV r l x).priv = w.priv := rfl
@[simp] theorem Warp.setV_stop (w : Warp) (r l : Nat) (x : Word) : (w.setV r l x).stop = w.stop := rfl
@[simp] theorem Warp.setV_since (w : Warp) (r l : Nat) (x : Word) : (w.setV r l x).since = w.since := rfl
@[simp] theorem Warp.setV_hold (w : Warp) (r l : Nat) (x : Word) : (w.setV r l x).hold = w.hold := rfl
@[simp] theorem Warp.setV_kept (w : Warp) (r l : Nat) (x : Word) : (w.setV r l x).kept = w.kept := rfl
@[simp] theorem Warp.setV_keptRetire (w : Warp) (r l : Nat) (x : Word) : (w.setV r l x).keptRetire = w.keptRetire := rfl
@[simp] theorem Warp.setV_deferred (w : Warp) (r l : Nat) (x : Word) : (w.setV r l x).deferred = w.deferred := rfl
@[simp] theorem Warp.setV_pendEv (w : Warp) (r l : Nat) (x : Word) : (w.setV r l x).pendEv = w.pendEv := rfl
@[simp] theorem Warp.setV_trap (w : Warp) (r l : Nat) (x : Word) : (w.setV r l x).trap = w.trap := rfl
@[simp] theorem Warp.setV_replay (w : Warp) (r l : Nat) (x : Word) : (w.setV r l x).replay = w.replay := rfl
@[simp] theorem Warp.setV_brt (w : Warp) (r l : Nat) (x : Word) : (w.setV r l x).brt = w.brt := rfl
@[simp] theorem Warp.setV_halt (w : Warp) (r l : Nat) (x : Word) : (w.setV r l x).halt = w.halt := rfl
@[simp] theorem Warp.setV_step (w : Warp) (r l : Nat) (x : Word) : (w.setV r l x).step = w.step := rfl
@[simp] theorem Warp.setV_stretched (w : Warp) (r l : Nat) (x : Word) : (w.setV r l x).stretched = w.stretched := rfl
@[simp] theorem Warp.setV_yielded (w : Warp) (r l : Nat) (x : Word) : (w.setV r l x).yielded = w.yielded := rfl
@[simp] theorem Warp.setV_preempt (w : Warp) (r l : Nat) (x : Word) : (w.setV r l x).preempt = w.preempt := rfl
@[simp] theorem Warp.setV_fetch (w : Warp) (r l : Nat) (x : Word) : (w.setV r l x).fetch = w.fetch := rfl
@[simp] theorem Warp.setV_lastLine (w : Warp) (r l : Nat) (x : Word) : (w.setV r l x).lastLine = w.lastLine := rfl
@[simp] theorem Warp.setV_seq (w : Warp) (r l : Nat) (x : Word) : (w.setV r l x).seq = w.seq := rfl
@[simp] theorem Warp.setV_fell (w : Warp) (r l : Nat) (x : Word) : (w.setV r l x).fell = w.fell := rfl
@[simp] theorem Warp.setV_issuedAt (w : Warp) (r l : Nat) (x : Word) : (w.setV r l x).issuedAt = w.issuedAt := rfl
@[simp] theorem Warp.setV_inTick (w : Warp) (r l : Nat) (x : Word) : (w.setV r l x).inTick = w.inTick := rfl

/-! ### `setS` -/

@[simp] theorem Warp.setS_block (w : Warp) (r : Nat) (x : DWord) : (w.setS r x).block = w.block := by unfold Warp.setS; split <;> rfl
@[simp] theorem Warp.setS_windex (w : Warp) (r : Nat) (x : DWord) : (w.setS r x).windex = w.windex := by unfold Warp.setS; split <;> rfl
@[simp] theorem Warp.setS_role (w : Warp) (r : Nat) (x : DWord) : (w.setS r x).role = w.role := by unfold Warp.setS; split <;> rfl
@[simp] theorem Warp.setS_k (w : Warp) (r : Nat) (x : DWord) : (w.setS r x).k = w.k := by unfold Warp.setS; split <;> rfl
@[simp] theorem Warp.setS_budget (w : Warp) (r : Nat) (x : DWord) : (w.setS r x).budget = w.budget := by unfold Warp.setS; split <;> rfl
@[simp] theorem Warp.setS_lbase (w : Warp) (r : Nat) (x : DWord) : (w.setS r x).lbase = w.lbase := by unfold Warp.setS; split <;> rfl
@[simp] theorem Warp.setS_laneLimit (w : Warp) (r : Nat) (x : DWord) : (w.setS r x).laneLimit = w.laneLimit := by unfold Warp.setS; split <;> rfl
@[simp] theorem Warp.setS_position (w : Warp) (r : Nat) (x : DWord) : (w.setS r x).position = w.position := by unfold Warp.setS; split <;> rfl
@[simp] theorem Warp.setS_moved (w : Warp) (r : Nat) (x : DWord) : (w.setS r x).moved = w.moved := by unfold Warp.setS; split <;> rfl
@[simp] theorem Warp.setS_vregs (w : Warp) (r : Nat) (x : DWord) : (w.setS r x).vregs = w.vregs := by unfold Warp.setS; split <;> rfl
@[simp] theorem Warp.setS_vpred (w : Warp) (r : Nat) (x : DWord) : (w.setS r x).vpred = w.vpred := by unfold Warp.setS; split <;> rfl
@[simp] theorem Warp.setS_spred (w : Warp) (r : Nat) (x : DWord) : (w.setS r x).spred = w.spred := by unfold Warp.setS; split <;> rfl
@[simp] theorem Warp.setS_flags (w : Warp) (r : Nat) (x : DWord) : (w.setS r x).flags = w.flags := by unfold Warp.setS; split <;> rfl
@[simp] theorem Warp.setS_incs (w : Warp) (r : Nat) (x : DWord) : (w.setS r x).incs = w.incs := by unfold Warp.setS; split <;> rfl
@[simp] theorem Warp.setS_loops (w : Warp) (r : Nat) (x : DWord) : (w.setS r x).loops = w.loops := by unfold Warp.setS; split <;> rfl
@[simp] theorem Warp.setS_mask (w : Warp) (r : Nat) (x : DWord) : (w.setS r x).mask = w.mask := by unfold Warp.setS; split <;> rfl
@[simp] theorem Warp.setS_entryMask (w : Warp) (r : Nat) (x : DWord) : (w.setS r x).entryMask = w.entryMask := by unfold Warp.setS; split <;> rfl
@[simp] theorem Warp.setS_retire (w : Warp) (r : Nat) (x : DWord) : (w.setS r x).retire = w.retire := by unfold Warp.setS; split <;> rfl
@[simp] theorem Warp.setS_pc (w : Warp) (r : Nat) (x : DWord) : (w.setS r x).pc = w.pc := by unfold Warp.setS; split <;> rfl
@[simp] theorem Warp.setS_gap (w : Warp) (r : Nat) (x : DWord) : (w.setS r x).gap = w.gap := by unfold Warp.setS; split <;> rfl
@[simp] theorem Warp.setS_ctl (w : Warp) (r : Nat) (x : DWord) : (w.setS r x).ctl = w.ctl := by unfold Warp.setS; split <;> rfl
@[simp] theorem Warp.setS_tick (w : Warp) (r : Nat) (x : DWord) : (w.setS r x).tick = w.tick := by unfold Warp.setS; split <;> rfl
@[simp] theorem Warp.setS_tickStart (w : Warp) (r : Nat) (x : DWord) : (w.setS r x).tickStart = w.tickStart := by unfold Warp.setS; split <;> rfl
@[simp] theorem Warp.setS_due (w : Warp) (r : Nat) (x : DWord) : (w.setS r x).due = w.due := by unfold Warp.setS; split <;> rfl
@[simp] theorem Warp.setS_opened (w : Warp) (r : Nat) (x : DWord) : (w.setS r x).opened = w.opened := by unfold Warp.setS; split <;> rfl
@[simp] theorem Warp.setS_flight (w : Warp) (r : Nat) (x : DWord) : (w.setS r x).flight = w.flight := by unfold Warp.setS; split <;> rfl
@[simp] theorem Warp.setS_landed (w : Warp) (r : Nat) (x : DWord) : (w.setS r x).landed = w.landed := by unfold Warp.setS; split <;> rfl
@[simp] theorem Warp.setS_fel (w : Warp) (r : Nat) (x : DWord) : (w.setS r x).fel = w.fel := by unfold Warp.setS; split <;> rfl
@[simp] theorem Warp.setS_fes (w : Warp) (r : Nat) (x : DWord) : (w.setS r x).fes = w.fes := by unfold Warp.setS; split <;> rfl
@[simp] theorem Warp.setS_fen (w : Warp) (r : Nat) (x : DWord) : (w.setS r x).fen = w.fen := by unfold Warp.setS; split <;> rfl
@[simp] theorem Warp.setS_tsa (w : Warp) (r : Nat) (x : DWord) : (w.setS r x).tsa = w.tsa := by unfold Warp.setS; split <;> rfl
@[simp] theorem Warp.setS_cause (w : Warp) (r : Nat) (x : DWord) : (w.setS r x).cause = w.cause := by unfold Warp.setS; split <;> rfl
@[simp] theorem Warp.setS_epc (w : Warp) (r : Nat) (x : DWord) : (w.setS r x).epc = w.epc := by unfold Warp.setS; split <;> rfl
@[simp] theorem Warp.setS_imask (w : Warp) (r : Nat) (x : DWord) : (w.setS r x).imask = w.imask := by unfold Warp.setS; split <;> rfl
@[simp] theorem Warp.setS_priv (w : Warp) (r : Nat) (x : DWord) : (w.setS r x).priv = w.priv := by unfold Warp.setS; split <;> rfl
@[simp] theorem Warp.setS_stop (w : Warp) (r : Nat) (x : DWord) : (w.setS r x).stop = w.stop := by unfold Warp.setS; split <;> rfl
@[simp] theorem Warp.setS_since (w : Warp) (r : Nat) (x : DWord) : (w.setS r x).since = w.since := by unfold Warp.setS; split <;> rfl
@[simp] theorem Warp.setS_hold (w : Warp) (r : Nat) (x : DWord) : (w.setS r x).hold = w.hold := by unfold Warp.setS; split <;> rfl
@[simp] theorem Warp.setS_kept (w : Warp) (r : Nat) (x : DWord) : (w.setS r x).kept = w.kept := by unfold Warp.setS; split <;> rfl
@[simp] theorem Warp.setS_keptRetire (w : Warp) (r : Nat) (x : DWord) : (w.setS r x).keptRetire = w.keptRetire := by unfold Warp.setS; split <;> rfl
@[simp] theorem Warp.setS_deferred (w : Warp) (r : Nat) (x : DWord) : (w.setS r x).deferred = w.deferred := by unfold Warp.setS; split <;> rfl
@[simp] theorem Warp.setS_pendEv (w : Warp) (r : Nat) (x : DWord) : (w.setS r x).pendEv = w.pendEv := by unfold Warp.setS; split <;> rfl
@[simp] theorem Warp.setS_trap (w : Warp) (r : Nat) (x : DWord) : (w.setS r x).trap = w.trap := by unfold Warp.setS; split <;> rfl
@[simp] theorem Warp.setS_replay (w : Warp) (r : Nat) (x : DWord) : (w.setS r x).replay = w.replay := by unfold Warp.setS; split <;> rfl
@[simp] theorem Warp.setS_brt (w : Warp) (r : Nat) (x : DWord) : (w.setS r x).brt = w.brt := by unfold Warp.setS; split <;> rfl
@[simp] theorem Warp.setS_halt (w : Warp) (r : Nat) (x : DWord) : (w.setS r x).halt = w.halt := by unfold Warp.setS; split <;> rfl
@[simp] theorem Warp.setS_step (w : Warp) (r : Nat) (x : DWord) : (w.setS r x).step = w.step := by unfold Warp.setS; split <;> rfl
@[simp] theorem Warp.setS_stretched (w : Warp) (r : Nat) (x : DWord) : (w.setS r x).stretched = w.stretched := by unfold Warp.setS; split <;> rfl
@[simp] theorem Warp.setS_yielded (w : Warp) (r : Nat) (x : DWord) : (w.setS r x).yielded = w.yielded := by unfold Warp.setS; split <;> rfl
@[simp] theorem Warp.setS_preempt (w : Warp) (r : Nat) (x : DWord) : (w.setS r x).preempt = w.preempt := by unfold Warp.setS; split <;> rfl
@[simp] theorem Warp.setS_fetch (w : Warp) (r : Nat) (x : DWord) : (w.setS r x).fetch = w.fetch := by unfold Warp.setS; split <;> rfl
@[simp] theorem Warp.setS_lastLine (w : Warp) (r : Nat) (x : DWord) : (w.setS r x).lastLine = w.lastLine := by unfold Warp.setS; split <;> rfl
@[simp] theorem Warp.setS_seq (w : Warp) (r : Nat) (x : DWord) : (w.setS r x).seq = w.seq := by unfold Warp.setS; split <;> rfl

/-! ### `setVp` -/

@[simp] theorem Warp.setVp_block (w : Warp) (i l : Nat) (b : Bool) : (w.setVp i l b).block = w.block := by unfold Warp.setVp; split <;> rfl
@[simp] theorem Warp.setVp_windex (w : Warp) (i l : Nat) (b : Bool) : (w.setVp i l b).windex = w.windex := by unfold Warp.setVp; split <;> rfl
@[simp] theorem Warp.setVp_role (w : Warp) (i l : Nat) (b : Bool) : (w.setVp i l b).role = w.role := by unfold Warp.setVp; split <;> rfl
@[simp] theorem Warp.setVp_k (w : Warp) (i l : Nat) (b : Bool) : (w.setVp i l b).k = w.k := by unfold Warp.setVp; split <;> rfl
@[simp] theorem Warp.setVp_budget (w : Warp) (i l : Nat) (b : Bool) : (w.setVp i l b).budget = w.budget := by unfold Warp.setVp; split <;> rfl
@[simp] theorem Warp.setVp_lbase (w : Warp) (i l : Nat) (b : Bool) : (w.setVp i l b).lbase = w.lbase := by unfold Warp.setVp; split <;> rfl
@[simp] theorem Warp.setVp_laneLimit (w : Warp) (i l : Nat) (b : Bool) : (w.setVp i l b).laneLimit = w.laneLimit := by unfold Warp.setVp; split <;> rfl
@[simp] theorem Warp.setVp_position (w : Warp) (i l : Nat) (b : Bool) : (w.setVp i l b).position = w.position := by unfold Warp.setVp; split <;> rfl
@[simp] theorem Warp.setVp_moved (w : Warp) (i l : Nat) (b : Bool) : (w.setVp i l b).moved = w.moved := by unfold Warp.setVp; split <;> rfl
@[simp] theorem Warp.setVp_vregs (w : Warp) (i l : Nat) (b : Bool) : (w.setVp i l b).vregs = w.vregs := by unfold Warp.setVp; split <;> rfl
@[simp] theorem Warp.setVp_sregs (w : Warp) (i l : Nat) (b : Bool) : (w.setVp i l b).sregs = w.sregs := by unfold Warp.setVp; split <;> rfl
@[simp] theorem Warp.setVp_spred (w : Warp) (i l : Nat) (b : Bool) : (w.setVp i l b).spred = w.spred := by unfold Warp.setVp; split <;> rfl
@[simp] theorem Warp.setVp_flags (w : Warp) (i l : Nat) (b : Bool) : (w.setVp i l b).flags = w.flags := by unfold Warp.setVp; split <;> rfl
@[simp] theorem Warp.setVp_incs (w : Warp) (i l : Nat) (b : Bool) : (w.setVp i l b).incs = w.incs := by unfold Warp.setVp; split <;> rfl
@[simp] theorem Warp.setVp_loops (w : Warp) (i l : Nat) (b : Bool) : (w.setVp i l b).loops = w.loops := by unfold Warp.setVp; split <;> rfl
@[simp] theorem Warp.setVp_mask (w : Warp) (i l : Nat) (b : Bool) : (w.setVp i l b).mask = w.mask := by unfold Warp.setVp; split <;> rfl
@[simp] theorem Warp.setVp_entryMask (w : Warp) (i l : Nat) (b : Bool) : (w.setVp i l b).entryMask = w.entryMask := by unfold Warp.setVp; split <;> rfl
@[simp] theorem Warp.setVp_retire (w : Warp) (i l : Nat) (b : Bool) : (w.setVp i l b).retire = w.retire := by unfold Warp.setVp; split <;> rfl
@[simp] theorem Warp.setVp_pc (w : Warp) (i l : Nat) (b : Bool) : (w.setVp i l b).pc = w.pc := by unfold Warp.setVp; split <;> rfl
@[simp] theorem Warp.setVp_gap (w : Warp) (i l : Nat) (b : Bool) : (w.setVp i l b).gap = w.gap := by unfold Warp.setVp; split <;> rfl
@[simp] theorem Warp.setVp_ctl (w : Warp) (i l : Nat) (b : Bool) : (w.setVp i l b).ctl = w.ctl := by unfold Warp.setVp; split <;> rfl
@[simp] theorem Warp.setVp_tick (w : Warp) (i l : Nat) (b : Bool) : (w.setVp i l b).tick = w.tick := by unfold Warp.setVp; split <;> rfl
@[simp] theorem Warp.setVp_tickStart (w : Warp) (i l : Nat) (b : Bool) : (w.setVp i l b).tickStart = w.tickStart := by unfold Warp.setVp; split <;> rfl
@[simp] theorem Warp.setVp_due (w : Warp) (i l : Nat) (b : Bool) : (w.setVp i l b).due = w.due := by unfold Warp.setVp; split <;> rfl
@[simp] theorem Warp.setVp_opened (w : Warp) (i l : Nat) (b : Bool) : (w.setVp i l b).opened = w.opened := by unfold Warp.setVp; split <;> rfl
@[simp] theorem Warp.setVp_flight (w : Warp) (i l : Nat) (b : Bool) : (w.setVp i l b).flight = w.flight := by unfold Warp.setVp; split <;> rfl
@[simp] theorem Warp.setVp_landed (w : Warp) (i l : Nat) (b : Bool) : (w.setVp i l b).landed = w.landed := by unfold Warp.setVp; split <;> rfl
@[simp] theorem Warp.setVp_fel (w : Warp) (i l : Nat) (b : Bool) : (w.setVp i l b).fel = w.fel := by unfold Warp.setVp; split <;> rfl
@[simp] theorem Warp.setVp_fes (w : Warp) (i l : Nat) (b : Bool) : (w.setVp i l b).fes = w.fes := by unfold Warp.setVp; split <;> rfl
@[simp] theorem Warp.setVp_fen (w : Warp) (i l : Nat) (b : Bool) : (w.setVp i l b).fen = w.fen := by unfold Warp.setVp; split <;> rfl
@[simp] theorem Warp.setVp_tsa (w : Warp) (i l : Nat) (b : Bool) : (w.setVp i l b).tsa = w.tsa := by unfold Warp.setVp; split <;> rfl
@[simp] theorem Warp.setVp_cause (w : Warp) (i l : Nat) (b : Bool) : (w.setVp i l b).cause = w.cause := by unfold Warp.setVp; split <;> rfl
@[simp] theorem Warp.setVp_epc (w : Warp) (i l : Nat) (b : Bool) : (w.setVp i l b).epc = w.epc := by unfold Warp.setVp; split <;> rfl
@[simp] theorem Warp.setVp_imask (w : Warp) (i l : Nat) (b : Bool) : (w.setVp i l b).imask = w.imask := by unfold Warp.setVp; split <;> rfl
@[simp] theorem Warp.setVp_priv (w : Warp) (i l : Nat) (b : Bool) : (w.setVp i l b).priv = w.priv := by unfold Warp.setVp; split <;> rfl
@[simp] theorem Warp.setVp_stop (w : Warp) (i l : Nat) (b : Bool) : (w.setVp i l b).stop = w.stop := by unfold Warp.setVp; split <;> rfl
@[simp] theorem Warp.setVp_since (w : Warp) (i l : Nat) (b : Bool) : (w.setVp i l b).since = w.since := by unfold Warp.setVp; split <;> rfl
@[simp] theorem Warp.setVp_hold (w : Warp) (i l : Nat) (b : Bool) : (w.setVp i l b).hold = w.hold := by unfold Warp.setVp; split <;> rfl
@[simp] theorem Warp.setVp_kept (w : Warp) (i l : Nat) (b : Bool) : (w.setVp i l b).kept = w.kept := by unfold Warp.setVp; split <;> rfl
@[simp] theorem Warp.setVp_keptRetire (w : Warp) (i l : Nat) (b : Bool) : (w.setVp i l b).keptRetire = w.keptRetire := by unfold Warp.setVp; split <;> rfl
@[simp] theorem Warp.setVp_deferred (w : Warp) (i l : Nat) (b : Bool) : (w.setVp i l b).deferred = w.deferred := by unfold Warp.setVp; split <;> rfl
@[simp] theorem Warp.setVp_pendEv (w : Warp) (i l : Nat) (b : Bool) : (w.setVp i l b).pendEv = w.pendEv := by unfold Warp.setVp; split <;> rfl
@[simp] theorem Warp.setVp_trap (w : Warp) (i l : Nat) (b : Bool) : (w.setVp i l b).trap = w.trap := by unfold Warp.setVp; split <;> rfl
@[simp] theorem Warp.setVp_replay (w : Warp) (i l : Nat) (b : Bool) : (w.setVp i l b).replay = w.replay := by unfold Warp.setVp; split <;> rfl
@[simp] theorem Warp.setVp_brt (w : Warp) (i l : Nat) (b : Bool) : (w.setVp i l b).brt = w.brt := by unfold Warp.setVp; split <;> rfl
@[simp] theorem Warp.setVp_halt (w : Warp) (i l : Nat) (b : Bool) : (w.setVp i l b).halt = w.halt := by unfold Warp.setVp; split <;> rfl
@[simp] theorem Warp.setVp_step (w : Warp) (i l : Nat) (b : Bool) : (w.setVp i l b).step = w.step := by unfold Warp.setVp; split <;> rfl
@[simp] theorem Warp.setVp_stretched (w : Warp) (i l : Nat) (b : Bool) : (w.setVp i l b).stretched = w.stretched := by unfold Warp.setVp; split <;> rfl
@[simp] theorem Warp.setVp_yielded (w : Warp) (i l : Nat) (b : Bool) : (w.setVp i l b).yielded = w.yielded := by unfold Warp.setVp; split <;> rfl
@[simp] theorem Warp.setVp_preempt (w : Warp) (i l : Nat) (b : Bool) : (w.setVp i l b).preempt = w.preempt := by unfold Warp.setVp; split <;> rfl
@[simp] theorem Warp.setVp_fetch (w : Warp) (i l : Nat) (b : Bool) : (w.setVp i l b).fetch = w.fetch := by unfold Warp.setVp; split <;> rfl
@[simp] theorem Warp.setVp_lastLine (w : Warp) (i l : Nat) (b : Bool) : (w.setVp i l b).lastLine = w.lastLine := by unfold Warp.setVp; split <;> rfl
@[simp] theorem Warp.setVp_seq (w : Warp) (i l : Nat) (b : Bool) : (w.setVp i l b).seq = w.seq := by unfold Warp.setVp; split <;> rfl

/-! ### `setSp` -/

@[simp] theorem Warp.setSp_block (w : Warp) (i : Nat) (b : Bool) : (w.setSp i b).block = w.block := by unfold Warp.setSp; split <;> rfl
@[simp] theorem Warp.setSp_windex (w : Warp) (i : Nat) (b : Bool) : (w.setSp i b).windex = w.windex := by unfold Warp.setSp; split <;> rfl
@[simp] theorem Warp.setSp_role (w : Warp) (i : Nat) (b : Bool) : (w.setSp i b).role = w.role := by unfold Warp.setSp; split <;> rfl
@[simp] theorem Warp.setSp_k (w : Warp) (i : Nat) (b : Bool) : (w.setSp i b).k = w.k := by unfold Warp.setSp; split <;> rfl
@[simp] theorem Warp.setSp_budget (w : Warp) (i : Nat) (b : Bool) : (w.setSp i b).budget = w.budget := by unfold Warp.setSp; split <;> rfl
@[simp] theorem Warp.setSp_lbase (w : Warp) (i : Nat) (b : Bool) : (w.setSp i b).lbase = w.lbase := by unfold Warp.setSp; split <;> rfl
@[simp] theorem Warp.setSp_laneLimit (w : Warp) (i : Nat) (b : Bool) : (w.setSp i b).laneLimit = w.laneLimit := by unfold Warp.setSp; split <;> rfl
@[simp] theorem Warp.setSp_position (w : Warp) (i : Nat) (b : Bool) : (w.setSp i b).position = w.position := by unfold Warp.setSp; split <;> rfl
@[simp] theorem Warp.setSp_moved (w : Warp) (i : Nat) (b : Bool) : (w.setSp i b).moved = w.moved := by unfold Warp.setSp; split <;> rfl
@[simp] theorem Warp.setSp_vregs (w : Warp) (i : Nat) (b : Bool) : (w.setSp i b).vregs = w.vregs := by unfold Warp.setSp; split <;> rfl
@[simp] theorem Warp.setSp_sregs (w : Warp) (i : Nat) (b : Bool) : (w.setSp i b).sregs = w.sregs := by unfold Warp.setSp; split <;> rfl
@[simp] theorem Warp.setSp_vpred (w : Warp) (i : Nat) (b : Bool) : (w.setSp i b).vpred = w.vpred := by unfold Warp.setSp; split <;> rfl
@[simp] theorem Warp.setSp_flags (w : Warp) (i : Nat) (b : Bool) : (w.setSp i b).flags = w.flags := by unfold Warp.setSp; split <;> rfl
@[simp] theorem Warp.setSp_incs (w : Warp) (i : Nat) (b : Bool) : (w.setSp i b).incs = w.incs := by unfold Warp.setSp; split <;> rfl
@[simp] theorem Warp.setSp_loops (w : Warp) (i : Nat) (b : Bool) : (w.setSp i b).loops = w.loops := by unfold Warp.setSp; split <;> rfl
@[simp] theorem Warp.setSp_mask (w : Warp) (i : Nat) (b : Bool) : (w.setSp i b).mask = w.mask := by unfold Warp.setSp; split <;> rfl
@[simp] theorem Warp.setSp_entryMask (w : Warp) (i : Nat) (b : Bool) : (w.setSp i b).entryMask = w.entryMask := by unfold Warp.setSp; split <;> rfl
@[simp] theorem Warp.setSp_retire (w : Warp) (i : Nat) (b : Bool) : (w.setSp i b).retire = w.retire := by unfold Warp.setSp; split <;> rfl
@[simp] theorem Warp.setSp_pc (w : Warp) (i : Nat) (b : Bool) : (w.setSp i b).pc = w.pc := by unfold Warp.setSp; split <;> rfl
@[simp] theorem Warp.setSp_gap (w : Warp) (i : Nat) (b : Bool) : (w.setSp i b).gap = w.gap := by unfold Warp.setSp; split <;> rfl
@[simp] theorem Warp.setSp_ctl (w : Warp) (i : Nat) (b : Bool) : (w.setSp i b).ctl = w.ctl := by unfold Warp.setSp; split <;> rfl
@[simp] theorem Warp.setSp_tick (w : Warp) (i : Nat) (b : Bool) : (w.setSp i b).tick = w.tick := by unfold Warp.setSp; split <;> rfl
@[simp] theorem Warp.setSp_tickStart (w : Warp) (i : Nat) (b : Bool) : (w.setSp i b).tickStart = w.tickStart := by unfold Warp.setSp; split <;> rfl
@[simp] theorem Warp.setSp_due (w : Warp) (i : Nat) (b : Bool) : (w.setSp i b).due = w.due := by unfold Warp.setSp; split <;> rfl
@[simp] theorem Warp.setSp_opened (w : Warp) (i : Nat) (b : Bool) : (w.setSp i b).opened = w.opened := by unfold Warp.setSp; split <;> rfl
@[simp] theorem Warp.setSp_flight (w : Warp) (i : Nat) (b : Bool) : (w.setSp i b).flight = w.flight := by unfold Warp.setSp; split <;> rfl
@[simp] theorem Warp.setSp_landed (w : Warp) (i : Nat) (b : Bool) : (w.setSp i b).landed = w.landed := by unfold Warp.setSp; split <;> rfl
@[simp] theorem Warp.setSp_fel (w : Warp) (i : Nat) (b : Bool) : (w.setSp i b).fel = w.fel := by unfold Warp.setSp; split <;> rfl
@[simp] theorem Warp.setSp_fes (w : Warp) (i : Nat) (b : Bool) : (w.setSp i b).fes = w.fes := by unfold Warp.setSp; split <;> rfl
@[simp] theorem Warp.setSp_fen (w : Warp) (i : Nat) (b : Bool) : (w.setSp i b).fen = w.fen := by unfold Warp.setSp; split <;> rfl
@[simp] theorem Warp.setSp_tsa (w : Warp) (i : Nat) (b : Bool) : (w.setSp i b).tsa = w.tsa := by unfold Warp.setSp; split <;> rfl
@[simp] theorem Warp.setSp_cause (w : Warp) (i : Nat) (b : Bool) : (w.setSp i b).cause = w.cause := by unfold Warp.setSp; split <;> rfl
@[simp] theorem Warp.setSp_epc (w : Warp) (i : Nat) (b : Bool) : (w.setSp i b).epc = w.epc := by unfold Warp.setSp; split <;> rfl
@[simp] theorem Warp.setSp_imask (w : Warp) (i : Nat) (b : Bool) : (w.setSp i b).imask = w.imask := by unfold Warp.setSp; split <;> rfl
@[simp] theorem Warp.setSp_priv (w : Warp) (i : Nat) (b : Bool) : (w.setSp i b).priv = w.priv := by unfold Warp.setSp; split <;> rfl
@[simp] theorem Warp.setSp_stop (w : Warp) (i : Nat) (b : Bool) : (w.setSp i b).stop = w.stop := by unfold Warp.setSp; split <;> rfl
@[simp] theorem Warp.setSp_since (w : Warp) (i : Nat) (b : Bool) : (w.setSp i b).since = w.since := by unfold Warp.setSp; split <;> rfl
@[simp] theorem Warp.setSp_hold (w : Warp) (i : Nat) (b : Bool) : (w.setSp i b).hold = w.hold := by unfold Warp.setSp; split <;> rfl
@[simp] theorem Warp.setSp_kept (w : Warp) (i : Nat) (b : Bool) : (w.setSp i b).kept = w.kept := by unfold Warp.setSp; split <;> rfl
@[simp] theorem Warp.setSp_keptRetire (w : Warp) (i : Nat) (b : Bool) : (w.setSp i b).keptRetire = w.keptRetire := by unfold Warp.setSp; split <;> rfl
@[simp] theorem Warp.setSp_deferred (w : Warp) (i : Nat) (b : Bool) : (w.setSp i b).deferred = w.deferred := by unfold Warp.setSp; split <;> rfl
@[simp] theorem Warp.setSp_pendEv (w : Warp) (i : Nat) (b : Bool) : (w.setSp i b).pendEv = w.pendEv := by unfold Warp.setSp; split <;> rfl
@[simp] theorem Warp.setSp_trap (w : Warp) (i : Nat) (b : Bool) : (w.setSp i b).trap = w.trap := by unfold Warp.setSp; split <;> rfl
@[simp] theorem Warp.setSp_replay (w : Warp) (i : Nat) (b : Bool) : (w.setSp i b).replay = w.replay := by unfold Warp.setSp; split <;> rfl
@[simp] theorem Warp.setSp_brt (w : Warp) (i : Nat) (b : Bool) : (w.setSp i b).brt = w.brt := by unfold Warp.setSp; split <;> rfl
@[simp] theorem Warp.setSp_halt (w : Warp) (i : Nat) (b : Bool) : (w.setSp i b).halt = w.halt := by unfold Warp.setSp; split <;> rfl
@[simp] theorem Warp.setSp_step (w : Warp) (i : Nat) (b : Bool) : (w.setSp i b).step = w.step := by unfold Warp.setSp; split <;> rfl
@[simp] theorem Warp.setSp_stretched (w : Warp) (i : Nat) (b : Bool) : (w.setSp i b).stretched = w.stretched := by unfold Warp.setSp; split <;> rfl
@[simp] theorem Warp.setSp_yielded (w : Warp) (i : Nat) (b : Bool) : (w.setSp i b).yielded = w.yielded := by unfold Warp.setSp; split <;> rfl
@[simp] theorem Warp.setSp_preempt (w : Warp) (i : Nat) (b : Bool) : (w.setSp i b).preempt = w.preempt := by unfold Warp.setSp; split <;> rfl
@[simp] theorem Warp.setSp_fetch (w : Warp) (i : Nat) (b : Bool) : (w.setSp i b).fetch = w.fetch := by unfold Warp.setSp; split <;> rfl
@[simp] theorem Warp.setSp_lastLine (w : Warp) (i : Nat) (b : Bool) : (w.setSp i b).lastLine = w.lastLine := by unfold Warp.setSp; split <;> rfl
@[simp] theorem Warp.setSp_seq (w : Warp) (i : Nat) (b : Bool) : (w.setSp i b).seq = w.seq := by unfold Warp.setSp; split <;> rfl

/-! ### `branch` -/

@[simp] theorem Warp.branch_block (w : Warp) (t : DWord) (u : Bool) : (w.branch t u).block = w.block := rfl
@[simp] theorem Warp.branch_windex (w : Warp) (t : DWord) (u : Bool) : (w.branch t u).windex = w.windex := rfl
@[simp] theorem Warp.branch_role (w : Warp) (t : DWord) (u : Bool) : (w.branch t u).role = w.role := rfl
@[simp] theorem Warp.branch_k (w : Warp) (t : DWord) (u : Bool) : (w.branch t u).k = w.k := rfl
@[simp] theorem Warp.branch_budget (w : Warp) (t : DWord) (u : Bool) : (w.branch t u).budget = w.budget := rfl
@[simp] theorem Warp.branch_lbase (w : Warp) (t : DWord) (u : Bool) : (w.branch t u).lbase = w.lbase := rfl
@[simp] theorem Warp.branch_laneLimit (w : Warp) (t : DWord) (u : Bool) : (w.branch t u).laneLimit = w.laneLimit := rfl
@[simp] theorem Warp.branch_position (w : Warp) (t : DWord) (u : Bool) : (w.branch t u).position = w.position := rfl
@[simp] theorem Warp.branch_moved (w : Warp) (t : DWord) (u : Bool) : (w.branch t u).moved = w.moved := rfl
@[simp] theorem Warp.branch_vregs (w : Warp) (t : DWord) (u : Bool) : (w.branch t u).vregs = w.vregs := rfl
@[simp] theorem Warp.branch_sregs (w : Warp) (t : DWord) (u : Bool) : (w.branch t u).sregs = w.sregs := rfl
@[simp] theorem Warp.branch_vpred (w : Warp) (t : DWord) (u : Bool) : (w.branch t u).vpred = w.vpred := rfl
@[simp] theorem Warp.branch_spred (w : Warp) (t : DWord) (u : Bool) : (w.branch t u).spred = w.spred := rfl
@[simp] theorem Warp.branch_flags (w : Warp) (t : DWord) (u : Bool) : (w.branch t u).flags = w.flags := rfl
@[simp] theorem Warp.branch_incs (w : Warp) (t : DWord) (u : Bool) : (w.branch t u).incs = w.incs := rfl
@[simp] theorem Warp.branch_loops (w : Warp) (t : DWord) (u : Bool) : (w.branch t u).loops = w.loops := rfl
@[simp] theorem Warp.branch_mask (w : Warp) (t : DWord) (u : Bool) : (w.branch t u).mask = w.mask := rfl
@[simp] theorem Warp.branch_entryMask (w : Warp) (t : DWord) (u : Bool) : (w.branch t u).entryMask = w.entryMask := rfl
@[simp] theorem Warp.branch_retire (w : Warp) (t : DWord) (u : Bool) : (w.branch t u).retire = w.retire := rfl
@[simp] theorem Warp.branch_pc (w : Warp) (t : DWord) (u : Bool) : (w.branch t u).pc = w.pc := rfl
@[simp] theorem Warp.branch_gap (w : Warp) (t : DWord) (u : Bool) : (w.branch t u).gap = w.gap := rfl
@[simp] theorem Warp.branch_tick (w : Warp) (t : DWord) (u : Bool) : (w.branch t u).tick = w.tick := rfl
@[simp] theorem Warp.branch_tickStart (w : Warp) (t : DWord) (u : Bool) : (w.branch t u).tickStart = w.tickStart := rfl
@[simp] theorem Warp.branch_due (w : Warp) (t : DWord) (u : Bool) : (w.branch t u).due = w.due := rfl
@[simp] theorem Warp.branch_opened (w : Warp) (t : DWord) (u : Bool) : (w.branch t u).opened = w.opened := rfl
@[simp] theorem Warp.branch_flight (w : Warp) (t : DWord) (u : Bool) : (w.branch t u).flight = w.flight := rfl
@[simp] theorem Warp.branch_landed (w : Warp) (t : DWord) (u : Bool) : (w.branch t u).landed = w.landed := rfl
@[simp] theorem Warp.branch_fel (w : Warp) (t : DWord) (u : Bool) : (w.branch t u).fel = w.fel := rfl
@[simp] theorem Warp.branch_fes (w : Warp) (t : DWord) (u : Bool) : (w.branch t u).fes = w.fes := rfl
@[simp] theorem Warp.branch_fen (w : Warp) (t : DWord) (u : Bool) : (w.branch t u).fen = w.fen := rfl
@[simp] theorem Warp.branch_tsa (w : Warp) (t : DWord) (u : Bool) : (w.branch t u).tsa = w.tsa := rfl
@[simp] theorem Warp.branch_cause (w : Warp) (t : DWord) (u : Bool) : (w.branch t u).cause = w.cause := rfl
@[simp] theorem Warp.branch_epc (w : Warp) (t : DWord) (u : Bool) : (w.branch t u).epc = w.epc := rfl
@[simp] theorem Warp.branch_imask (w : Warp) (t : DWord) (u : Bool) : (w.branch t u).imask = w.imask := rfl
@[simp] theorem Warp.branch_priv (w : Warp) (t : DWord) (u : Bool) : (w.branch t u).priv = w.priv := rfl
@[simp] theorem Warp.branch_stop (w : Warp) (t : DWord) (u : Bool) : (w.branch t u).stop = w.stop := rfl
@[simp] theorem Warp.branch_since (w : Warp) (t : DWord) (u : Bool) : (w.branch t u).since = w.since := rfl
@[simp] theorem Warp.branch_hold (w : Warp) (t : DWord) (u : Bool) : (w.branch t u).hold = w.hold := rfl
@[simp] theorem Warp.branch_kept (w : Warp) (t : DWord) (u : Bool) : (w.branch t u).kept = w.kept := rfl
@[simp] theorem Warp.branch_keptRetire (w : Warp) (t : DWord) (u : Bool) : (w.branch t u).keptRetire = w.keptRetire := rfl
@[simp] theorem Warp.branch_deferred (w : Warp) (t : DWord) (u : Bool) : (w.branch t u).deferred = w.deferred := rfl
@[simp] theorem Warp.branch_pendEv (w : Warp) (t : DWord) (u : Bool) : (w.branch t u).pendEv = w.pendEv := rfl
@[simp] theorem Warp.branch_trap (w : Warp) (t : DWord) (u : Bool) : (w.branch t u).trap = w.trap := rfl
@[simp] theorem Warp.branch_replay (w : Warp) (t : DWord) (u : Bool) : (w.branch t u).replay = w.replay := rfl
@[simp] theorem Warp.branch_brt (w : Warp) (t : DWord) (u : Bool) : (w.branch t u).brt = w.brt := rfl
@[simp] theorem Warp.branch_halt (w : Warp) (t : DWord) (u : Bool) : (w.branch t u).halt = w.halt := rfl
@[simp] theorem Warp.branch_step (w : Warp) (t : DWord) (u : Bool) : (w.branch t u).step = w.step := rfl
@[simp] theorem Warp.branch_stretched (w : Warp) (t : DWord) (u : Bool) : (w.branch t u).stretched = w.stretched := rfl
@[simp] theorem Warp.branch_yielded (w : Warp) (t : DWord) (u : Bool) : (w.branch t u).yielded = w.yielded := rfl
@[simp] theorem Warp.branch_preempt (w : Warp) (t : DWord) (u : Bool) : (w.branch t u).preempt = w.preempt := rfl
@[simp] theorem Warp.branch_fetch (w : Warp) (t : DWord) (u : Bool) : (w.branch t u).fetch = w.fetch := rfl
@[simp] theorem Warp.branch_lastLine (w : Warp) (t : DWord) (u : Bool) : (w.branch t u).lastLine = w.lastLine := rfl
@[simp] theorem Warp.branch_seq (w : Warp) (t : DWord) (u : Bool) : (w.branch t u).seq = w.seq := rfl
@[simp] theorem Warp.branch_fell (w : Warp) (t : DWord) (u : Bool) : (w.branch t u).fell = w.fell := rfl
@[simp] theorem Warp.branch_issuedAt (w : Warp) (t : DWord) (u : Bool) : (w.branch t u).issuedAt = w.issuedAt := rfl
@[simp] theorem Warp.branch_inTick (w : Warp) (t : DWord) (u : Bool) : (w.branch t u).inTick = w.inTick := rfl

end Sys2Proof.Machine
end

