-- ==== Sys2Proof/Laws/Slots.lean ====
section
/-! SUPPORT. What a slot instruction does: once for every row of `slotFn`, in the cases no check fails, a check fails, it waits, or a
flag is full. -/

namespace Sys2Proof.Machine

/-! ## Parts of an absent slot and of a present one -/

@[simp] theorem chkOf_none (c k : Nat) (s : State) : chkOf none c k s = none := rfl
@[simp] theorem waitOf_none (c k : Nat) (s : State) : waitOf none c k s = none := rfl
@[simp] theorem effOf_none (c k : Nat) (s : State) : effOf none c k s = s := rfl
@[simp] theorem freezeOf_none (c k : Nat) (s : State) : freezeOf none c k s = 0 := rfl
@[simp] theorem holdOf_none : holdOf none = none := rfl
@[simp] theorem flagsOf_none : flagsOf [none, none] = [] := rfl
@[simp] theorem flagRoom_nil (w : Warp) : flagRoom w [] = true := rfl

theorem chkOf_some {i : Instr} {f : SlotFn} (hf : slotFn i = some f) (c k : Nat) (s : State) : chkOf (some i) c k s = f.check c k s := by
  simp only [chkOf, Option.bind_some, hf]
theorem waitOf_some {i : Instr} {f : SlotFn} (hf : slotFn i = some f) (c k : Nat) (s : State) : waitOf (some i) c k s = f.wait c k s := by
  simp only [waitOf, Option.bind_some, hf]
theorem effOf_some {i : Instr} {f : SlotFn} (hf : slotFn i = some f) (c k : Nat) (s : State) : effOf (some i) c k s = f.eff c k s := by
  simp only [effOf, Option.bind_some, hf]
theorem freezeOf_some {i : Instr} {f : SlotFn} (hf : slotFn i = some f) (c k : Nat) (s : State) : freezeOf (some i) c k s = f.freeze c k s := by
  simp only [freezeOf, Option.bind_some, hf]
theorem holdOf_some {i : Instr} {f : SlotFn} (hf : slotFn i = some f) : holdOf (some i) = f.hold := by
  simp only [holdOf, Option.bind_some, hf]
theorem flagsOf_m {i : Instr} {f : SlotFn} (hf : slotFn i = some f) : flagsOf [some i, none] = f.flag.toList := by
  cases h : f.flag <;> simp [flagsOf, hf, h]
theorem flagsOf_x {i : Instr} {f : SlotFn} (hf : slotFn i = some f) : flagsOf [none, some i] = f.flag.toList := by
  cases h : f.flag <;> simp [flagsOf, hf, h]
theorem flagRoom_toList (w : Warp) (g : Option Nat) : flagRoom w g.toList = true ↔ ∀ f, g = some f → w.room f 1 = true := by
  cases g <;> simp [flagRoom]

/-! ## A slot instruction is its parts -/

/-- A slot instruction of the issuing warp runs as the only slot. -/
theorem runSlot_run {i : Instr} {n : Nat} {s : State} {c k : Nat} {w : Warp} (hc : s.cur = some (c, k)) (hw : s.warp? c k = some w)
    (ho : opFail w i n = none) : runSlot i n s = .next (s.runSlots c k (2 ^ n) (onlySlot i)) := by
  simp only [runSlot, hc, hw, ho]

/-- A decode check of the warp fails: the trap is taken and nothing else happens (R13, R40). -/
theorem runSlot_opFail {i : Instr} {n e : Nat} {s : State} {c k : Nat} {w : Warp} (hc : s.cur = some (c, k)) (hw : s.warp? c k = some w)
    (ho : opFail w i n = some e) : runSlot i n s = .next (s.failWhole c k (2 ^ n) ⟨e, 0, 0⟩ n) := by
  simp only [runSlot, hc, hw, ho]

/-- Without an issuing warp a slot instruction has no meaning. -/
theorem runSlot_idle {i : Instr} {n : Nat} {s : State} (hc : s.cur = none) : runSlot i n s = .fault .noIssuingWarp := by
  simp only [runSlot, hc]

/-- A bundle without a hold goes to its checks. -/
theorem runSlots_noHold {s : State} {c k p : Nat} {o : SlotOps} {w : Warp} (hw : s.warp? c k = some w) (hh : holdOf o.c = none) :
    s.runSlots c k p o = s.runChecked c k p o false := by
  simp only [State.runSlots, State.onWarp, hw, hh, ite_self]

/-- Every effect of a bundle happens when no check fails, no slot waits and every flag has room. -/
theorem runChecked_ok {s : State} {c k p : Nat} {o : SlotOps} {w : Warp} {held : Bool} (hw : s.warp? c k = some w)
    (hm : chkOf o.m c k s = none) (hx : chkOf o.x c k s = none) (hc : held = true ∨ chkOf o.c c k s = none)
    (ht : waitOf o.m c k s = none) (hu : waitOf o.x c k s = none) (hv : waitOf o.c c k s = none)
    (hr : flagRoom w (flagsOf [o.m, o.x]) = true) : s.runChecked c k p o held = s.effects c k o.v o.m o.x o.c held := by
  have h : (if held = true then none else chkOf o.c c k s) = none := by
    cases hc with
    | inl h => simp [h]
    | inr h => simp [h]
  simp [State.runChecked, hm, hx, h, ht, hu, hv, State.onWarp, hw, hr, lowestFail]

/-- The effects of a bundle without a hold whose M slot needs no cycles beyond the tick. -/
theorem effects_plain {s : State} {c k : Nat} {v m x cc : Option Instr} (hf : freezeOf m c k s = 0) :
    s.effects c k v m x cc false = effOf cc c k (effOf x c k (effOf m c k (effOf v c k s))) := by
  simp [State.effects, hf]

/-! ## One row of the table -/

/-- No hold, check, wait or full flag: the effect happens and nothing else, when the M slot needs no cycles beyond its tick. -/
theorem runSlot_done {i : Instr} {n : Nat} {s : State} {c k : Nat} {w : Warp} {f : SlotFn} (hn : slotNum i = some n) (hf : slotFn i = some f)
    (hc : s.cur = some (c, k)) (hw : s.warp? c k = some w) (ho : opFail w i n = none) (hh : f.hold = none)
    (hk : f.check c k s = none) (ht : f.wait c k s = none) (hr : ∀ g, f.flag = some g → w.room g 1 = true) (hz : f.freeze c k s = 0) :
    runSlot i n s = .next (f.eff c k s) := by
  rw [runSlot_run hc hw ho]
  have hfl := (flagRoom_toList w f.flag).2 hr
  match n, hn with
  | 0, hn =>
    rw [runSlots_noHold hw (by simp only [onlySlot, hn, holdOf_none]), runChecked_ok hw] <;>
      simp only [onlySlot, hn, chkOf_none, waitOf_none, flagsOf_none, flagRoom_nil, or_true]
    rw [effects_plain rfl]
    simp only [effOf_none, effOf_some hf]
  | 1, hn =>
    rw [runSlots_noHold hw (by simp only [onlySlot, hn, holdOf_none]), runChecked_ok hw] <;>
      simp only [onlySlot, hn, chkOf_none, waitOf_none, or_true, chkOf_some hf, waitOf_some hf, hk, ht, flagsOf_m hf, hfl]
    rw [effects_plain (by rw [freezeOf_some hf, hz])]
    simp only [effOf_none, effOf_some hf]
  | 2, hn =>
    rw [runSlots_noHold hw (by simp only [onlySlot, hn, holdOf_none]), runChecked_ok hw] <;>
      simp only [onlySlot, hn, chkOf_none, waitOf_none, or_true, chkOf_some hf, waitOf_some hf, hk, ht, flagsOf_x hf, hfl]
    rw [effects_plain rfl]
    simp only [effOf_none, effOf_some hf]
  | n + 3, hn =>
    have hs : onlySlot i = ⟨none, none, none, some i⟩ := by
      match n, hn with
      | 0, hn => simp only [onlySlot, hn]
      | n + 1, hn => simp only [onlySlot, hn]
    rw [hs, runSlots_noHold hw (by simp only [holdOf_some hf, hh]), runChecked_ok hw] <;>
      simp only [chkOf_none, waitOf_none, or_true, chkOf_some hf, waitOf_some hf, hk, ht, flagsOf_none, flagRoom_nil]
    rw [effects_plain rfl]
    simp only [effOf_none, effOf_some hf]

/-- A V-slot operation has its effect on the warp. -/
theorem runSlot_v {i : Instr} {s : State} {c k : Nat} {w : Warp} {f : Warp → Warp} (hn : slotNum i = some 0) (hf : slotFn i = some (vFn f))
    (hc : s.cur = some (c, k)) (hw : s.warp? c k = some w) (ho : opFail w i 0 = none) : runSlot i 0 s = .next (s.setWarp c k (f w)) := by
  rw [runSlot_done hn hf hc hw ho rfl rfl rfl (fun _ h => nomatch h) rfl]
  exact congrArg _ (State.modWarp_of hw f)

/-- A C-slot operation on the warp alone has its effect. -/
theorem runSlot_c {i : Instr} {s : State} {c k : Nat} {w : Warp} {chk : Nat → Nat → State → Option Fail} {f : Warp → Warp}
    (hn : slotNum i = some 3) (hf : slotFn i = some (cFn chk (wFn f))) (hc : s.cur = some (c, k)) (hw : s.warp? c k = some w)
    (ho : opFail w i 3 = none) (hk : chk c k s = none) : runSlot i 3 s = .next (s.setWarp c k (f w)) := by
  rw [runSlot_done hn hf hc hw ho rfl hk rfl (fun _ h => nomatch h) rfl]
  exact congrArg _ (State.modWarp_of hw f)

/-- A wait leaves the bundle unissued (R21, R145). -/
theorem runSlot_wait {i : Instr} {n : Nat} {s : State} {c k : Nat} {w : Warp} {f : SlotFn} {wt : Wait} (hn : slotNum i = some n)
    (hf : slotFn i = some f) (hn0 : n ≠ 0) (hc : s.cur = some (c, k)) (hw : s.warp? c k = some w) (ho : opFail w i n = none) (hh : f.hold = none)
    (hk : f.check c k s = none) (ht : f.wait c k s = some wt) : runSlot i n s = .next (s.stall c k wt) := by
  rw [runSlot_run hc hw ho]
  match n, hn, hn0 with
  | 1, hn, _ =>
    rw [runSlots_noHold hw (by simp only [onlySlot, hn, holdOf_none])]
    simp [onlySlot, hn, State.runChecked, chkOf_some hf, waitOf_some hf, hk, ht]
  | 2, hn, _ =>
    rw [runSlots_noHold hw (by simp only [onlySlot, hn, holdOf_none])]
    simp [onlySlot, hn, State.runChecked, chkOf_some hf, waitOf_some hf, hk, ht]
  | n + 3, hn, _ =>
    have hs : onlySlot i = ⟨none, none, none, some i⟩ := by
      match n, hn with
      | 0, hn => simp only [onlySlot, hn]
      | n + 1, hn => simp only [onlySlot, hn]
    rw [hs, runSlots_noHold hw (by simp only [holdOf_some hf, hh])]
    simp [State.runChecked, chkOf_some hf, waitOf_some hf, hk, ht]

/-- A full flag leaves the bundle unissued (R21). -/
theorem runSlot_full {i : Instr} {n g : Nat} {s : State} {c k : Nat} {w : Warp} {f : SlotFn} (hn : slotNum i = some n)
    (hf : slotFn i = some f) (hn12 : n = 1 ∨ n = 2) (hc : s.cur = some (c, k)) (hw : s.warp? c k = some w) (ho : opFail w i n = none)
    (hk : f.check c k s = none) (ht : f.wait c k s = none) (hg : f.flag = some g) (hr : w.room g 1 = false) :
    runSlot i n s = .next (s.setWarp c k (w.stand s.cycle .flag)) := by
  rw [runSlot_run hc hw ho]
  have hfl : flagRoom w f.flag.toList = false := by simp [flagRoom, hg, hr]
  rcases hn12 with rfl | rfl
  · rw [runSlots_noHold hw (by simp only [onlySlot, hn, holdOf_none])]
    simp [onlySlot, hn, State.runChecked, State.onWarp, hw, chkOf_some hf, waitOf_some hf, hk, ht, flagsOf_m hf, hfl]
  · rw [runSlots_noHold hw (by simp only [onlySlot, hn, holdOf_none])]
    simp [onlySlot, hn, State.runChecked, State.onWarp, hw, chkOf_some hf, waitOf_some hf, hk, ht, flagsOf_x hf, hfl]

/-- A failing check of a C-slot operation: the trap is taken before any effect (R215). -/
theorem runSlot_fail_c {i : Instr} {s : State} {c k : Nat} {w : Warp} {f : SlotFn} {e : Fail} (hn : slotNum i = some 3)
    (hf : slotFn i = some f) (hc : s.cur = some (c, k)) (hw : s.warp? c k = some w) (ho : opFail w i 3 = none) (hh : f.hold = none)
    (hk : f.check c k s = some e) : runSlot i 3 s = .next (s.failWhole c k 8 e 3) := by
  rw [runSlot_run hc hw ho, runSlots_noHold hw (by simp only [onlySlot, hn, holdOf_some hf, hh])]
  simp [onlySlot, hn, State.runChecked, chkOf_some hf, hk]

/-- A failing check of an M-slot operation (R330). -/
theorem runSlot_fail_m {i : Instr} {s : State} {c k : Nat} {w : Warp} {f : SlotFn} {e : Fail} (hn : slotNum i = some 1)
    (hf : slotFn i = some f) (hc : s.cur = some (c, k)) (hw : s.warp? c k = some w) (ho : opFail w i 1 = none)
    (hk : f.check c k s = some e) : runSlot i 1 s = .next (s.failSlots c k 2 e 1) := by
  rw [runSlot_run hc hw ho, runSlots_noHold hw (by simp only [onlySlot, hn, holdOf_none])]
  simp [onlySlot, hn, State.runChecked, chkOf_some hf, hk, State.onWarp, hw, lowestFail, State.effects]

/-- A failing check of an X-slot operation (R330). -/
theorem runSlot_fail_x {i : Instr} {s : State} {c k : Nat} {w : Warp} {f : SlotFn} {e : Fail} (hn : slotNum i = some 2)
    (hf : slotFn i = some f) (hc : s.cur = some (c, k)) (hw : s.warp? c k = some w) (ho : opFail w i 2 = none)
    (hk : f.check c k s = some e) : runSlot i 2 s = .next (s.failSlots c k 4 e 2) := by
  rw [runSlot_run hc hw ho, runSlots_noHold hw (by simp only [onlySlot, hn, holdOf_none])]
  simp [onlySlot, hn, State.runChecked, chkOf_some hf, hk, State.onWarp, hw, lowestFail, State.effects]

/-- An M-slot operation whose checks pass: its effect, then its freeze beyond the tick (R151). -/
theorem runSlot_m {i : Instr} {s : State} {c k : Nat} {w : Warp} {f : SlotFn} (hn : slotNum i = some 1) (hf : slotFn i = some f)
    (hc : s.cur = some (c, k)) (hw : s.warp? c k = some w) (ho : opFail w i 1 = none) (hh : f.hold = none)
    (hk : f.check c k s = none) (ht : f.wait c k s = none) (hr : ∀ g, f.flag = some g → w.room g 1 = true) :
    runSlot i 1 s = .next (if f.freeze c k s = 0 then f.eff c k s else (f.eff c k s).modWarp c k fun w =>
      if w.opened && w.stop = .run then
        { w.pause (.until ((f.eff c k s).cycle + w.tickCycles + f.freeze c k s)) with since := (f.eff c k s).cycle + w.tickCycles }
      else w) := by
  rw [runSlot_run hc hw ho]
  have hfl := (flagRoom_toList w f.flag).2 hr
  rw [runSlots_noHold hw (by simp only [onlySlot, hn, holdOf_none]), runChecked_ok hw] <;>
    simp only [onlySlot, hn, chkOf_none, waitOf_none, or_true, chkOf_some hf, waitOf_some hf, hk, ht, flagsOf_m hf, hfl]
  simp [State.effects, effOf_some hf, freezeOf_some hf]

/-- A C-slot operation whose hold ends at once, its checks passed: its effect after the hold's own (R216). -/
theorem runSlot_held {i : Instr} {s s' : State} {c k : Nat} {w w' : Warp} {f : SlotFn} {h : Nat → Nat → State → Bool × State}
    (hn : slotNum i = some 3) (hf : slotFn i = some f) (hc : s.cur = some (c, k)) (hw : s.warp? c k = some w) (ho : opFail w i 3 = none)
    (hh : f.hold = some h) (hg : w.holds (some i) = true) (hd : ∀ p, w.stop ≠ .mdone p) (hk : f.check c k s = none) (he : h c k s = (false, s')) (hw' : s'.warp? c k = some w')
    (ht : f.wait c k s' = none) :
    runSlot i 3 s = .next (s'.effects c k none none none (some i) true) := by
  rw [runSlot_run hc hw ho]
  simp only [State.runSlots, State.onWarp, hw, onlySlot, hn, holdOf_some hf, hh, hg, if_true, Bool.false_eq_true, if_false, chkOf_none,
    chkOf_some hf, hk, lowestFail, he]
  rw [runChecked_ok hw'] <;> simp only [chkOf_none, waitOf_none, waitOf_some hf, ht, flagsOf_none, flagRoom_nil, true_or]

/-- A C-slot operation whose hold applies: the warp is held and its bundle has not issued (R216). -/
theorem runSlot_holds {i : Instr} {s s' : State} {c k : Nat} {w : Warp} {f : SlotFn} {h : Nat → Nat → State → Bool × State}
    (hn : slotNum i = some 3) (hf : slotFn i = some f) (hc : s.cur = some (c, k)) (hw : s.warp? c k = some w) (ho : opFail w i 3 = none)
    (hh : f.hold = some h) (hg : w.holds (some i) = true) (hd : ∀ p, w.stop ≠ .mdone p) (hk : f.check c k s = none) (he : h c k s = (true, s')) :
    runSlot i 3 s = .next (s'.modWarp c k fun w => { w with opened := false, ctl := .none }) := by
  rw [runSlot_run hc hw ho]
  simp only [State.runSlots, State.onWarp, hw, onlySlot, hn, holdOf_some hf, hh, hg, if_true, Bool.false_eq_true, if_false, chkOf_none,
    chkOf_some hf, hk, lowestFail, he, if_true]

/-! ## Outcomes -/

/-- While a warp issues, a slot instruction always has a next state. -/
theorem runSlot_next {i : Instr} {n : Nat} {s : State} {c k : Nat} {w : Warp} (hc : s.cur = some (c, k)) (hw : s.warp? c k = some w) :
    ∃ t, runSlot i n s = .next t := by
  cases ho : opFail w i n with
  | none => exact ⟨_, runSlot_run hc hw ho⟩
  | some e => exact ⟨_, runSlot_opFail hc hw ho⟩

end Sys2Proof.Machine
end

