-- ==== Sys2Proof/Laws/Landings.lean ====
section
/-! SUPPORT. Laws of landings: the active lanes of a guard, and what the V slot's shared operations schedule. -/

namespace Sys2Proof.Machine
open Claim

/-! ## Active lanes -/

theorem Warp.mem_lanesOf (w : Warp) (g : Guard) (l : Nat) : l ∈ w.lanesOf g ↔ Active w g l := by
  simp only [Warp.lanesOf, Warp.liveLanes, Warp.width, Warp.live, Warp.guardV, Active, List.mem_filter, List.mem_range, bne_iff_ne, ne_eq]
  cases g.neg <;> cases w.vp g.idx.val l <;> simp

theorem Warp.lanesOf_sorted (w : Warp) (g : Guard) : (w.lanesOf g).Pairwise (· < ·) :=
  (List.pairwise_lt_range.filter _).filter _

theorem FMap.find_map {β : Type} {f : Nat → β} {l : Nat} : ∀ {xs : List Nat}, xs.Pairwise (· < ·) →
    FMap.find (xs.map fun i => (i, f i)) l = if l ∈ xs then some (f l) else none
  | [], _ => rfl
  | x :: xs, h => by
    have h' := List.pairwise_cons.1 h
    simp only [List.map_cons, FMap.find, List.mem_cons]
    by_cases hx : x = l
    · simp [hx]
    · have hne : l ≠ x := fun e => hx e.symm
      rw [if_neg hx, FMap.find_map h'.2]
      simp [hne]

theorem FMap.find_map_filter {β : Type} {f : Nat → β} {p : β → Bool} {l : Nat} {xs : List Nat} (h : xs.Pairwise (· < ·)) :
    FMap.find ((xs.map fun i => (i, f i)).filter fun e => p e.2) l = if l ∈ xs ∧ p (f l) = true then some (f l) else none := by
  rw [List.filter_map, FMap.find_map (h.filter _)]
  simp [List.mem_filter]

/-! ## What the V slot's shared operations schedule -/

/-- A lane-wise result: one landing, a value and its events in each active lane (R29, R33 `LandAt`). -/
theorem Warp.landV_lands (w : Warp) (o : VOp) (lat : Nat) (u : Unit') (f : Nat → Word × BitVec 8) :
    ∃ x, w.landV o lat u f = { w with flight := w.flight ++ [x] } ∧ Lands w x 0 lat (vDest o false) u ∧
      LaneValues w x o.guard fun l y e => y = (f l).1 ∧ e = (f l).2 := by
  refine ⟨_, rfl, ⟨rfl, rfl, rfl, rfl, rfl, rfl, rfl⟩, fun l => ?_⟩
  have hs := w.lanesOf_sorted o.guard
  have hl : FMap.find (((w.lanesOf o.guard).map fun l => (l, f l)).map fun r => (r.1, r.2.1)) l =
      if l ∈ w.lanesOf o.guard then some (f l).1 else none := by
    rw [List.map_map]
    exact FMap.find_map (f := fun l => (f l).1) hs
  have he : FMap.find ((((w.lanesOf o.guard).map fun l => (l, f l)).map fun r => (r.1, r.2.2)).filter fun e => e.2 != 0) l =
      if l ∈ w.lanesOf o.guard ∧ ((f l).2 != 0) = true then some (f l).2 else none := by
    rw [List.map_map]
    exact FMap.find_map_filter (f := fun l => (f l).2) (p := fun e => e != 0) hs
  constructor
  · intro ha
    have hm := (w.mem_lanesOf o.guard l).2 ha
    refine ⟨(f l).1, by simp only [Warp.vecLanding, hl, hm, if_true], rfl, ?_⟩
    simp only [Warp.vecLanding, FMap.getD, he, hm, true_and]
    split
    · rfl
    · simp_all
  · intro ha
    have hm : l ∉ w.lanesOf o.guard := fun h => ha ((w.mem_lanesOf o.guard l).1 h)
    simp only [Warp.vecLanding, hl, he, hm, false_and, if_false, and_self]

/-- The landing of a lane-wise result with weaker knowledge of each lane. -/
theorem laneValues_mono {w : Warp} {x : Landing} {g : Guard} {P Q : Nat → Word → BitVec 8 → Prop} (h : LaneValues w x g P)
    (hpq : ∀ l y e, Active w g l → P l y e → Q l y e) : LaneValues w x g Q := fun l =>
  ⟨fun ha => let ⟨y, hy, hp⟩ := (h l).1 ha; ⟨y, hy, hpq l y _ ha hp⟩, (h l).2⟩

/-- No decode check of the warp fails when the warp issues within its budget and privilege. -/
theorem opFail_of_issues {s : State} {c k n : Nat} {w : Warp} {i : Instr} (h : Issues s c k w i) : opFail w i n = none := by
  simp [Machine.opFail, Nat.not_lt.2 h.2.2.1, h.2.2.2]

/-- A V-slot instruction whose effect lands `f` in its lanes. -/
theorem vLands_of {s : State} {c k : Nat} {w : Warp} {i : Instr} {o : VOp} {lat : Nat} {u : Unit'} {f : Nat → Word × BitVec 8}
    {P : Nat → Word → BitVec 8 → Prop} {eff : Warp → Warp} (hi : Issues s c k w i) (hx : exec i s = runSlot i 0 s) (hn : slotNum i = some 0)
    (hf : slotFn i = some (vFn eff)) (he : eff w = w.landV o lat u f) (hp : ∀ l, Active w o.guard l → P l (f l).1 (f l).2) :
    VLands s c k w i o lat u P := by
  obtain ⟨x, h1, h2, h3⟩ := w.landV_lands o lat u f
  refine ⟨x, ?_, h2, laneValues_mono h3 fun l y e ha h => ?_⟩
  · rw [hx, runSlot_v hn hf hi.1 hi.2.1 (opFail_of_issues hi), he, h1]
  · obtain ⟨rfl, rfl⟩ := h
    exact hp l ha

/-- A V-slot instruction whose effect lands one scalar. -/
theorem vScalar_of {s : State} {c k : Nat} {w : Warp} {i : Instr} {o : VOp} {p : Bool} {u : Unit'} {y : DWord} {e : BitVec 8}
    {eff : Warp → Warp} (hi : Issues s c k w i) (hx : exec i s = runSlot i 0 s) (hn : slotNum i = some 0) (hf : slotFn i = some (vFn eff))
    (he : eff w = w.push (w.scalarLanding 0 6 (vDest o p) u y e)) : VScalar s c k w i o p u y e := by
  refine ⟨w.scalarLanding 0 6 (vDest o p) u y e, ?_, ⟨rfl, rfl, rfl, rfl, rfl, rfl, rfl⟩, rfl, rfl, ?_⟩
  · rw [hx, runSlot_v hn hf hi.1 hi.2.1 (opFail_of_issues hi), he]
    rfl
  · simp only [Warp.scalarLanding]
    split <;> simp_all [FMap.getD, FMap.find]

end Sys2Proof.Machine
end

