-- ==== Sys2Proof/Laws/Walks.lean ====
section
/-! SUPPORT. Laws of translation: what a walk reads, it depends on, and on nothing else of device memory. -/

namespace Sys2Proof.Machine

/-- What the device reads at an address depends on the bytes there only. -/
theorem State.devGet_congr (s : State) (m : Memory) (a n : Nat) (h : ∀ i < n, m.byte (a + i) = s.hbm.byte (a + i)) :
    ({ s with hbm := m } : State).devGet a n = s.devGet a n :=
  getBytes_congr a _ fun i hi => h i (Nat.lt_of_lt_of_le hi (by unfold backed; omega))

/-- Whether an entry is well formed depends on the memory-side attributes only (R350). -/
theorem State.malformed_congr {s u : State} (hm : u.msBit = s.msBit) (e lv : Nat) : u.malformed e lv = s.malformed e lv := by
  simp only [State.malformed, hm]

/-- A walk depends on the table entries that it reads, and on the memory-side attributes (R350, R351). -/
theorem State.walkFrom_congr {s u : State} (asid va : Nat) (hm : u.msBit = s.msBit) : ∀ fuel lv tb,
    (∀ a ∈ s.walkReads va fuel lv tb, u.devGet a 8 = s.devGet a 8) → u.walkFrom asid va fuel lv tb = s.walkFrom asid va fuel lv tb
  | 0, _, _, _ => rfl
  | fuel + 1, lv, tb, h => by
    simp only [State.walkFrom, State.malformed_congr hm, h _ (List.mem_cons_self ..)]
    cases h1 : bit (s.devGet (tb + 8 * levelIndex va lv) 8) 0 <;> cases h2 : s.malformed (s.devGet (tb + 8 * levelIndex va lv) 8) lv <;>
      cases h3 : bit (s.devGet (tb + 8 * levelIndex va lv) 8) 1 <;> simp
    exact State.walkFrom_congr asid va hm fuel _ _ fun a ha => h a (by simp [State.walkReads, h1, h2, h3, ha])

/-- So does the place of a leaf entry. -/
theorem State.leafAt_congr {s u : State} (va : Nat) (hm : u.msBit = s.msBit) : ∀ fuel lv tb,
    (∀ a ∈ s.walkReads va fuel lv tb, u.devGet a 8 = s.devGet a 8) → u.leafAt va fuel lv tb = s.leafAt va fuel lv tb
  | 0, _, _, _ => rfl
  | fuel + 1, lv, tb, h => by
    simp only [State.leafAt, State.malformed_congr hm, h _ (List.mem_cons_self ..)]
    cases h1 : bit (s.devGet (tb + 8 * levelIndex va lv) 8) 0 <;> cases h2 : s.malformed (s.devGet (tb + 8 * levelIndex va lv) 8) lv <;>
      cases h3 : bit (s.devGet (tb + 8 * levelIndex va lv) 8) 1 <;> simp
    exact State.leafAt_congr va hm fuel _ _ fun a ha => h a (by simp [State.walkReads, h1, h2, h3, ha])

/-- And so does a translation, which reads its space's root and the overrides besides (R349, R351, R355). -/
theorem State.walk_congr {s u : State} {asid va : Nat} (hm : u.msBit = s.msBit) (hr : u.root asid = s.root asid) (ho : u.overrides = s.overrides)
    (h : ∀ tb, s.root asid = some tb → ∀ a ∈ s.walkReads (va % 2 ^ 52) 4 0 tb, u.devGet a 8 = s.devGet a 8) (die view : Nat) (acc : AccKind)
    (priv : Bool) : u.walk die asid view va acc priv = s.walk die asid view va acc priv := by
  simp only [State.walk, State.override, hr, ho]
  cases e : s.root asid with
  | none => rfl
  | some tb => simp only [State.walkFrom_congr asid _ hm 4 0 tb (h tb e)]

end Sys2Proof.Machine
end

