-- ==== Sys2Proof/Tests/Slice0.lean ====
section
/-! SUPPORT. Tests of this model: states that meet the hypotheses of the statements (`wit_`), words written out bit by bit from the
spec's encodings with what they decode to (`test_decode_`), ill-formed terms (`test_ill_`), and the spec's own worked numbers
(`test_`). -/

namespace Sys2Proof.Tests
open Sys2Proof Machine Claim

set_option Elab.async false

/-! ## Words of the spec's encodings (R40 to R55) -/

/-- Each word decodes in a slot to the instruction beside it. -/
def decodes (n : Nat) (xs : List (Nat × Instr)) : Bool := xs.all fun p => decide (decodeSlot n p.1 = .ok p.2)

theorem test_decode_vector_integer_1 : decodes 0 [
    (0x4500870605B01, .vadd ⟨⟨true, 3⟩, .v 5, .v 6, .s 7, .v 0, none, .i16, .rne, true, 0⟩),
    (0x70009C57F502, .vsub ⟨⟨false, 5⟩, .v 127, .sp .lane, .v 9, .v 0, none, .i8, .rne, false, 0⟩),
    (0x80FFFE0201003, .vmul ⟨⟨false, 0⟩, .v 1, .v 2, .v 0, .v 0, some 0xFFFE, .i32, .rne, false, 0⟩),
    (0x100BF0403004, .vmulh ⟨⟨false, 0⟩, .v 3, .v 4, .s 63, .v 0, none, .n32, .rne, false, 0⟩),
    (0x46C00A0908005, .vmad ⟨⟨false, 0⟩, .v 8, .v 9, .v 10, .sp .lva, none, .n16, .rne, true, 0⟩),
    (0x8000CCA0B006, .vmin ⟨⟨false, 0⟩, .v 11, .sp .ones, .v 12, .v 0, none, .n8, .rne, false, 0⟩),
    (0x8180010E0D007, .vmax ⟨⟨false, 0⟩, .v 13, .v 14, .v 0, .v 0, some 0x8001, .n32, .rne, false, 0⟩),
    (0x10011100F008, .vand ⟨⟨false, 0⟩, .v 15, .v 16, .v 17, .v 0, none, .n32, .rne, false, 0⟩),
    (0x100C81312009, .vor ⟨⟨false, 0⟩, .v 18, .v 19, .sp .wordix, .v 0, none, .n32, .rne, false, 0⟩),
    (0x811234151400A, .vxor ⟨⟨false, 0⟩, .v 20, .v 21, .v 0, .v 0, some 0x1234, .n32, .rne, false, 0⟩),
    (0x10018171600B, .vshl ⟨⟨false, 0⟩, .v 22, .v 23, .v 24, .v 0, none, .n32, .rne, false, 0⟩)] = true := by decide +kernel

theorem test_decode_vector_integer_2 : decodes 0 [
    (0x81001F1A1900C, .vshr ⟨⟨false, 0⟩, .v 25, .v 26, .v 0, .v 0, some 0x1F, .n32, .rne, false, 0⟩),
    (0x1001D9C1B00D, .vsar ⟨⟨false, 0⟩, .v 27, .s 28, .v 29, .v 0, none, .n32, .rne, false, 0⟩),
    (0x100201F1E00E, .vrot ⟨⟨false, 0⟩, .v 30, .v 31, .v 32, .v 0, none, .n32, .rne, false, 0⟩)] = true := by decide +kernel

theorem test_decode_vector_bits_1 : decodes 0 [
    (0x10000222100F, .vclz ⟨⟨false, 0⟩, .v 33, .v 34, .v 0, .v 0, none, .n32, .rne, false, 0⟩),
    (0x100002423010, .vpopc ⟨⟨false, 0⟩, .v 35, .v 36, .v 0, .v 0, none, .n32, .rne, false, 0⟩),
    (0x100002625011, .vbrev ⟨⟨false, 0⟩, .v 37, .v 38, .v 0, .v 0, none, .n32, .rne, false, 0⟩),
    (0x8008042827012, .vbfe ⟨⟨false, 0⟩, .v 39, .v 40, .v 0, .v 0, some 0x804, .i32, .rne, false, 0⟩),
    (0x12C2B2A29013, .vbfi ⟨⟨false, 0⟩, .v 41, .v 42, .v 43, .v 44, none, .n32, .rne, false, 0⟩),
    (0x1062F2E2D014, .vsel ⟨⟨false, 0⟩, .v 45, .v 46, .v 47, .p 6, none, .n32, .rne, false, 0⟩),
    (0x10000CC30015, .vmov ⟨⟨false, 0⟩, .v 48, .sp .ticklo, .v 0, .v 0, none, .n32, .rne, false, 0⟩),
    (0x823F800031016, .vmovi ⟨⟨false, 0⟩, .v 49, .v 0, .v 0, .v 0, some 0x3F80, .f32, .rne, false, 0⟩),
    (0x181BEEF3332016, .vmoviHi ⟨⟨false, 0⟩, .v 50, .v 51, .v 0, .v 0, some 0xBEEF, .n32, .rne, false, 1⟩),
    (0x40500353402017, .vcmp ⟨⟨false, 0⟩, .p 2, .v 52, .v 53, .v 0, none, .i16, .rne, false, 4⟩),
    (0x100383736018, .vclml ⟨⟨false, 0⟩, .v 54, .v 55, .v 56, .v 0, none, .n32, .rne, false, 0⟩)] = true := by decide +kernel

theorem test_decode_vector_bits_2 : decodes 0 [
    (0x8100073A39019, .vclmh ⟨⟨false, 0⟩, .v 57, .v 58, .v 0, .v 0, some 0x7, .n32, .rne, false, 0⟩)] = true := by decide +kernel

theorem test_decode_vector_float_1 : decodes 0 [
    (0x5200030201B20, .vfadd ⟨⟨true, 3⟩, .v 1, .v 2, .v 3, .v 0, none, .f32, .rtz, true, 0⟩),
    (0xA240008504021, .vfsub ⟨⟨false, 0⟩, .v 4, .s 5, .v 0, .v 0, some 0x4000, .f32, .rdn, false, 0⟩),
    (0x3200C10706022, .vfmul ⟨⟨false, 0⟩, .v 6, .v 7, .sp .lvf, .v 0, none, .f32, .rup, false, 0⟩),
    (0x20B0A0908023, .vfma ⟨⟨false, 0⟩, .v 8, .v 9, .v 10, .v 11, none, .f32, .rne, false, 0⟩),
    (0x2000E0D0C024, .vfmin ⟨⟨false, 0⟩, .v 12, .v 13, .v 14, .v 0, none, .f32, .rne, false, 0⟩),
    (0x20011100F025, .vfmax ⟨⟨false, 0⟩, .v 15, .v 16, .v 17, .v 0, none, .f32, .rne, false, 0⟩),
    (0x70200131201026, .vfcmp ⟨⟨false, 0⟩, .p 1, .v 18, .v 19, .v 0, none, .f32, .rne, false, 7⟩),
    (0x8101FF1403027, .vfclass ⟨⟨false, 0⟩, .p 3, .v 20, .v 0, .v 0, some 0x1FF, .n32, .rne, false, 0⟩),
    (0x1200001615030, .vfrcp ⟨⟨false, 0⟩, .v 21, .v 22, .v 0, .v 0, none, .f32, .rtz, false, 0⟩),
    (0x4200001817031, .vfrsq ⟨⟨false, 0⟩, .v 23, .v 24, .v 0, .v 0, none, .f32, .rne, true, 0⟩),
    (0x200001A19032, .vfex2 ⟨⟨false, 0⟩, .v 25, .v 26, .v 0, .v 0, none, .f32, .rne, false, 0⟩)] = true := by decide +kernel

theorem test_decode_vector_float_2 : decodes 0 [
    (0x200001C1B033, .vflg2 ⟨⟨false, 0⟩, .v 27, .v 28, .v 0, .v 0, none, .f32, .rne, false, 0⟩),
    (0x200001E1D034, .vfsinpi ⟨⟨false, 0⟩, .v 29, .v 30, .v 0, .v 0, none, .f32, .rne, false, 0⟩),
    (0x220000201F035, .vfcospi ⟨⟨false, 0⟩, .v 31, .v 32, .v 0, .v 0, none, .f32, .rdn, false, 0⟩)] = true := by decide +kernel

theorem test_decode_vector_packed_and_lanes_1 : decodes 0 [
    (0x1300030201040, .vhadd ⟨⟨false, 0⟩, .v 1, .v 2, .v 3, .v 0, none, .bf16, .rtz, false, 0⟩),
    (0x4400060504041, .vhmul ⟨⟨false, 0⟩, .v 4, .v 5, .v 6, .v 0, none, .f16, .rne, true, 0⟩),
    (0x30A090807042, .vhfma ⟨⟨false, 0⟩, .v 7, .v 8, .v 9, .v 10, none, .bf16, .rne, false, 0⟩),
    (0x48E0D0C0B043, .vhdot ⟨⟨false, 0⟩, .v 11, .v 12, .v 13, .s 14, none, .f16, .rne, false, 0⟩),
    (0x7320000100F050, .vcvt ⟨⟨false, 0⟩, .v 15, .v 16, .v 0, .v 0, none, .f32, .rup, false, 7⟩),
    (0x14A14131211051, .vpack ⟨⟨false, 0⟩, .v 17, .v 18, .v 19, .v 20, none, .e5m2, .rne, true, 1⟩),
    (0x30900001615052, .vunpack ⟨⟨false, 0⟩, .v 21, .v 22, .v 0, .v 0, none, .e4m3, .rne, false, 3⟩),
    (0x11200191817053, .vscale ⟨⟨false, 0⟩, .v 23, .v 24, .v 25, .v 0, none, .f32, .rtz, false, 1⟩),
    (0x38100101B1A060, .vshfl ⟨⟨false, 0⟩, .v 26, .v 27, .v 0, .v 0, some 0x10, .n32, .rne, false, 3⟩),
    (0x1009E1D1C061, .vbcast ⟨⟨false, 0⟩, .v 28, .v 29, .s 30, .v 0, none, .n32, .rne, false, 0⟩),
    (0x220000209F070, .vredadd ⟨⟨false, 0⟩, .s 31, .v 32, .v 0, .v 0, none, .f32, .rdn, false, 0⟩)] = true := by decide +kernel

theorem test_decode_vector_packed_and_lanes_2 : decodes 0 [
    (0x1000022A1071, .vredmin ⟨⟨false, 0⟩, .s 33, .v 34, .v 0, .v 0, none, .n32, .rne, false, 0⟩),
    (0x24A3072, .vredmax ⟨⟨false, 0⟩, .s 35, .v 36, .v 0, .v 0, none, .i32, .rne, false, 0⟩),
    (0x100000504073, .vany ⟨⟨false, 0⟩, .p 4, .p 5, .v 0, .v 0, none, .n32, .rne, false, 0⟩),
    (0x100000706074, .vall ⟨⟨false, 0⟩, .p 6, .p 7, .v 0, .v 0, none, .n32, .rne, false, 0⟩),
    (0xF01000001A5075, .vballot ⟨⟨false, 0⟩, .s 37, .p 1, .v 0, .v 0, none, .n32, .rne, false, 15⟩),
    (0x30201B80, .vpand ⟨⟨true, 3⟩, .p 1, .p 2, .p 3, .v 0, none, .i32, .rne, false, 0⟩),
    (0x60504081, .vpor ⟨⟨false, 0⟩, .p 4, .p 5, .p 6, .v 0, none, .i32, .rne, false, 0⟩),
    (0x20107082, .vpxor ⟨⟨false, 0⟩, .p 7, .p 1, .p 2, .v 0, none, .i32, .rne, false, 0⟩),
    (0x50403083, .vpandn ⟨⟨false, 0⟩, .p 3, .p 4, .p 5, .v 0, none, .i32, .rne, false, 0⟩),
    (0x706084, .vpnot ⟨⟨false, 0⟩, .p 6, .p 7, .v 0, .v 0, none, .i32, .rne, false, 0⟩)] = true := by decide +kernel

theorem test_decode_scratch_1 : decodes 1 [
    (0xE00002C704B01, .ldSp ⟨⟨true, 3⟩, .v 4, 7, some 11, 0x8000, .b64, .w, none⟩),
    (0x80043FC885502, .stSp ⟨⟨false, 5⟩, .s 5, 8, none, 0x10, .b32, .w, none⟩),
    (0xC001030908003, .casSp ⟨⟨false, 0⟩, .v 8, 9, some 12, 0x4, .b64, .w, none⟩),
    (0x8000050002008, .atomSpAdd ⟨⟨false, 0⟩, .v 2, 0, some 20, 0x0, .b32, .w, none⟩),
    (0xC000454104009, .atomSpAnd ⟨⟨false, 0⟩, .v 4, 1, some 21, 0x1, .b64, .w, none⟩),
    (0x800085820600A, .atomSpOr ⟨⟨false, 0⟩, .v 6, 2, some 22, 0x2, .b32, .w, none⟩),
    (0xC000C5C30800B, .atomSpXor ⟨⟨false, 0⟩, .v 8, 3, some 23, 0x3, .b64, .w, none⟩),
    (0x800106040A00C, .atomSpXchg ⟨⟨false, 0⟩, .v 10, 4, some 24, 0x4, .b32, .w, none⟩),
    (0xC00146450C00D, .atomSpMinI ⟨⟨false, 0⟩, .v 12, 5, some 25, 0x5, .b64, .w, none⟩),
    (0x800186860E00E, .atomSpMaxI ⟨⟨false, 0⟩, .v 14, 6, some 26, 0x6, .b32, .w, none⟩),
    (0xC001C6C71000F, .atomSpMinN ⟨⟨false, 0⟩, .v 16, 7, some 27, 0x7, .b64, .w, none⟩)] = true := by decide +kernel

theorem test_decode_scratch_2 : decodes 1 [
    (0x8002070812010, .atomSpMaxN ⟨⟨false, 0⟩, .v 18, 8, some 28, 0x8, .b32, .w, none⟩)] = true := by decide +kernel

theorem test_decode_global_1 : decodes 1 [
    (0x1001003430C020, .ldc ⟨⟨false, 0⟩, .v 12, 3, some 13, 0x40, .b128, .w, none⟩),
    (0x1F13FFC18C210B21, .ldG ⟨⟨true, 3⟩, .v 16, 2, some 99, 0xFFF0, .b128, .w, some 15⟩),
    (0x116C0003FC486022, .ldGAcq ⟨⟨false, 0⟩, .s 6, 4, none, 0x0, .b64, .d, some 1⟩),
    (0x1C503023, .stG ⟨⟨false, 0⟩, .v 3, 5, some 7, 0x0, .b8, .w, none⟩),
    (0x19480003FC6C3024, .stGRel ⟨⟨false, 0⟩, .sp .lmd, 6, none, 0x0, .b32, .k, some 9⟩),
    (0x138C000008108025, .casG ⟨⟨false, 0⟩, .v 8, 1, some 2, 0x0, .b64, .p, some 3⟩),
    (0x102C000000000028, .atomGAdd ⟨⟨false, 0⟩, .v 0, 0, some 0, 0x0, .b64, .c, some 0⟩),
    (0x1148000404102029, .atomGAnd ⟨⟨false, 0⟩, .v 2, 1, some 1, 0x1, .b32, .k, some 1⟩),
    (0x126C00080820402A, .atomGOr ⟨⟨false, 0⟩, .v 4, 2, some 2, 0x2, .b64, .d, some 2⟩),
    (0x1388000C0C30602B, .atomGXor ⟨⟨false, 0⟩, .v 6, 3, some 3, 0x3, .b32, .p, some 3⟩),
    (0x14AC00101040802C, .atomGXchg ⟨⟨false, 0⟩, .v 8, 4, some 4, 0x4, .b64, .s, some 4⟩)] = true := by decide +kernel

theorem test_decode_global_2 : decodes 1 [
    (0x152800141450A02D, .atomGMinI ⟨⟨false, 0⟩, .v 10, 5, some 5, 0x5, .b32, .c, some 5⟩),
    (0x164C00181860C02E, .atomGMaxI ⟨⟨false, 0⟩, .v 12, 6, some 6, 0x6, .b64, .k, some 6⟩),
    (0x1768001C1C70E02F, .atomGMinN ⟨⟨false, 0⟩, .v 14, 7, some 7, 0x7, .b32, .d, some 7⟩),
    (0x188C002020810030, .atomGMaxN ⟨⟨false, 0⟩, .v 16, 8, some 8, 0x8, .b64, .p, some 8⟩),
    (0x12A8000004109031, .atomGFadd ⟨⟨false, 0⟩, .v 9, 1, some 1, 0x0, .b32, .s, some 2⟩)] = true := by decide +kernel

theorem test_decode_reductions_and_others_1 : decodes 1 [
    (0x1028000000000038, .redGAdd ⟨⟨false, 0⟩, .v 0, 0, some 0, 0x0, .b32, .c, some 0⟩),
    (0x4C000804102039, .redGAnd ⟨⟨false, 0⟩, .v 2, 1, some 1, 0x2, .b64, .k, none⟩),
    (0x126800100820403A, .redGOr ⟨⟨false, 0⟩, .v 4, 2, some 2, 0x4, .b32, .d, some 2⟩),
    (0x8C00180C30603B, .redGXor ⟨⟨false, 0⟩, .v 6, 3, some 3, 0x6, .b64, .p, none⟩),
    (0x14A800201040803C, .redGMinI ⟨⟨false, 0⟩, .v 8, 4, some 4, 0x8, .b32, .s, some 4⟩),
    (0x2C00281450A03D, .redGMaxI ⟨⟨false, 0⟩, .v 10, 5, some 5, 0xA, .b64, .c, none⟩),
    (0x164800301860C03E, .redGMinN ⟨⟨false, 0⟩, .v 12, 6, some 6, 0xC, .b32, .k, some 6⟩),
    (0x6C00381C70E03F, .redGMaxN ⟨⟨false, 0⟩, .v 14, 7, some 7, 0xE, .b64, .d, none⟩),
    (0x2800000C201040, .redGFadd ⟨⟨false, 0⟩, .v 1, 2, some 3, 0x0, .b32, .c, none⟩),
    (0x10003C00004B50, .sld ⟨⟨true, 3⟩, .v 4, 0, some 0, 0xF, .b128, .w, none⟩),
    (0xFC00085051, .sdset ⟨⟨false, 0⟩, .s 5, 0, some 0, 0x3F, .b8, .w, none⟩)] = true := by decide +kernel

theorem test_decode_reductions_and_others_2 : decodes 1 [
    (0xA800086052, .sdget ⟨⟨false, 0⟩, .s 6, 0, some 0, 0x2A, .b8, .w, none⟩),
    (0x140002000077F060, .vspill ⟨⟨false, 0⟩, .v 127, 7, some 0, 0x80, .b8, .w, some 4⟩),
    (0x150004000087E061, .vfill ⟨⟨false, 0⟩, .v 126, 8, some 0, 0x100, .b8, .w, some 5⟩),
    (0x16A0000000000070, .fenceAcq ⟨⟨false, 0⟩, .v 0, 0, some 0, 0x0, .b8, .s, some 6⟩),
    (0x20000000000071, .fenceRel ⟨⟨false, 0⟩, .v 0, 0, some 0, 0x0, .b8, .c, none⟩),
    (0x1080000000000072, .fence ⟨⟨false, 0⟩, .v 0, 0, some 0, 0x0, .b8, .p, some 0⟩),
    (0x73, .l1inv ⟨⟨false, 0⟩, .v 0, 0, some 0, 0x0, .b8, .w, none⟩),
    (0x83FCA89574, .arrive ⟨⟨false, 5⟩, .s 9, 10, none, 0x20, .b8, .w, none⟩),
    (0x1FFFC30B00B75, .pfd ⟨⟨true, 3⟩, .v 0, 11, some 12, 0x7FFF, .b8, .w, none⟩)] = true := by decide +kernel

theorem test_decode_copy_and_tile_1 : decodes 2 [
    (0x1A0706144301, .cpa ⟨3, 4, 5, 0x6, 7, .w, 13⟩),
    (0x5840C2102, .cpb ⟨1, 2, 3, 0x84, 5, .w, 0⟩),
    (0x98AFBFF03, .cp2d ⟨15, 63, 62, 0x8A, 9, .w, 0⟩),
    (0x85103204, .cpm ⟨2, 3, 4, 0x85, 0, .w, 0⟩),
    (0xC60F140410, .tld ⟨4, 0, 5, 0xF, 6, .d, 0⟩),
    (0x40431C6511, .tst ⟨5, 6, 7, 0x43, 0, .c, 0⟩),
    (0x168037207612, .tstac ⟨6, 7, 8, 0x37, 0, .k, 11⟩),
    (0x40A12248713, .tdrain ⟨7, 8, 9, 0x12, 10, .w, 2⟩),
    (0x7814, .tzero ⟨8, 7, 0, 0, 0, 0, 0⟩),
    (0x300A915, .tsave ⟨9, 10, 0, 0x3, 0, .w, 0⟩),
    (0x42C0A16, .tload ⟨10, 0, 11, 0x4, 0, .w, 0⟩)] = true := by decide +kernel

theorem test_decode_copy_and_tile_2 : decodes 2 [
    (0x7F878B17, .sadv ⟨11, 0, 15, 0, 255, 0, 0⟩),
    (0x70C18, .sreset ⟨12, 0, 14, 0, 0, 0, 0⟩),
    (0x200108020, .tmmaBf16 ⟨0, 0, 1, 2, 0, 0, 1⟩),
    (0x485991121, .tmmaF16 ⟨1, 1, 2, 3, 11, 1, 2⟩),
    (0x10B21A222, .tmmaE4m3 ⟨2, 2, 3, 4, 22, 2, 0⟩),
    (0x210AA3323, .tmmaE5m2 ⟨3, 3, 4, 5, 33, 0, 1⟩),
    (0x49632C424, .tmmaE4m3e5m2 ⟨4, 4, 5, 6, 44, 1, 2⟩),
    (0x11BBB5525, .tmmaE5m2e4m3 ⟨5, 5, 6, 7, 55, 2, 0⟩),
    (0x22143E626, .tmmaI8 ⟨6, 6, 7, 8, 66, 0, 1⟩),
    (0x4A6CC7727, .tmmaN8 ⟨7, 7, 8, 9, 77, 1, 2⟩),
    (0x12C548828, .tmmaI8n8 ⟨8, 0, 9, 10, 88, 2, 0⟩)] = true := by decide +kernel

theorem test_decode_copy_and_tile_3 : decodes 2 [
    (0x231DD1929, .tmmaLg6 ⟨9, 1, 10, 11, 99, 0, 1⟩),
    (0x13201F030, .tmmasE4m3 ⟨0, 7, 3, 0, 100, 2, 0⟩),
    (0x2328A6131, .tmmasE5m2 ⟨1, 6, 4, 1, 101, 0, 1⟩),
    (0x4B312D232, .tmmasE4m3e5m2 ⟨2, 5, 5, 2, 102, 1, 2⟩),
    (0x1339B4333, .tmmasE5m2e4m3 ⟨3, 4, 6, 3, 103, 2, 0⟩),
    (0x23423B434, .tmmasI8 ⟨4, 3, 7, 4, 104, 0, 1⟩),
    (0x4B4AC2535, .tmmasLg6 ⟨5, 2, 8, 5, 105, 1, 2⟩),
    (0x840C2140, .gredAdd ⟨1, 2, 3, 0x84, 0, .w, 0⟩),
    (0x60087185441, .gredMin ⟨4, 5, 6, 0x87, 0, .w, 3⟩),
    (0x4008B248742, .gredMax ⟨7, 8, 9, 0x8B, 0, .w, 2⟩),
    (0x1000500BA50, .xtile ⟨10, 11, 0, 0x5, 0, .p, 0⟩)] = true := by decide +kernel

theorem test_decode_scalar_1 : decodes 3 [
    (0x40028081501, .addS ⟨⟨false, 5⟩, 1, 2, 0, some 0x28, 0⟩),
    (0x40C2B02, .subS ⟨⟨true, 3⟩, 2, 3, 4, none, 0⟩),
    (0x4002A103503, .mulS ⟨⟨false, 5⟩, 3, 4, 0, some 0x2A, 0⟩),
    (0x80006144B04, .mulhS ⟨⟨true, 3⟩, 4, 5, 6, none, 1⟩),
    (0x4002C185505, .andS ⟨⟨false, 5⟩, 5, 6, 0, some 0x2C, 0⟩),
    (0x81C6B06, .orS ⟨⟨true, 3⟩, 6, 7, 8, none, 0⟩),
    (0x4002E207507, .xorS ⟨⟨false, 5⟩, 7, 8, 0, some 0x2E, 0⟩),
    (0xA248B08, .shl ⟨⟨true, 3⟩, 8, 9, 10, none, 0⟩),
    (0x40030289509, .shr ⟨⟨false, 5⟩, 9, 10, 0, some 0x30, 0⟩),
    (0xC2CAB0A, .sar ⟨⟨true, 3⟩, 10, 11, 12, none, 0⟩),
    (0xC003230B50B, .minS ⟨⟨false, 5⟩, 11, 12, 0, some 0x32, 1⟩)] = true := by decide +kernel

theorem test_decode_scalar_2 : decodes 3 [
    (0xE34CB0C, .maxS ⟨⟨true, 3⟩, 12, 13, 14, none, 0⟩),
    (0xFC100D, .mov ⟨⟨false, 0⟩, 1, 63, 0, none, 0⟩),
    (0x7FFFF00200E, .movi ⟨⟨false, 0⟩, 2, 0, 0, some 0x3FFFF, 0⟩),
    (0x1CFFFF10300F, .movhi ⟨⟨false, 0⟩, 3, 4, 0, some 0xFFFF, 3⟩),
    (0x4E0000083010, .cmp ⟨⟨false, 0⟩, 3, 2, 0, some 0x20000, 9⟩),
    (0x780007185011, .sel ⟨⟨false, 0⟩, 5, 6, 7, none, 15⟩),
    (0x248012, .clz ⟨⟨false, 0⟩, 8, 9, 0, none, 0⟩),
    (0x2CA013, .popc ⟨⟨false, 0⟩, 10, 11, 0, none, 0⟩),
    (0x20000E34C014, .lea ⟨⟨false, 0⟩, 12, 13, 14, none, 4⟩)] = true := by decide +kernel

theorem test_decode_control_1 : decodes 3 [
    (0xFFFFFEB20, .br ⟨⟨true, 3⟩, 0xFFFFFE, ⟨false, 0⟩, 0⟩),
    (0xA000001521, .brAny ⟨⟨false, 5⟩, 0x1, ⟨true, 2⟩, 0⟩),
    (0x7000002022, .brAll ⟨⟨false, 0⟩, 0x2, ⟨false, 7⟩, 0⟩),
    (0x9800000023, .brU ⟨⟨false, 0⟩, 0x800000, ⟨true, 1⟩, 0⟩),
    (0x7FFFFF024, .jmp ⟨⟨false, 0⟩, 0x7FFFFF, ⟨false, 0⟩, 0⟩),
    (0x3E0000000B25, .jmpr ⟨⟨true, 3⟩, 0x0, ⟨false, 0⟩, 62⟩),
    (0x123456526, .call ⟨⟨false, 5⟩, 0x123456, ⟨false, 0⟩, 0⟩),
    (0xF27, .ret ⟨⟨true, 7⟩, 0x0, ⟨false, 0⟩, 0⟩),
    (0x90000003130, .loop ⟨⟨false, 1⟩, 0x3, ⟨false, 0⟩, 9⟩),
    (0xB31, .lpop ⟨⟨true, 3⟩, 0, 0, 0, none, 0⟩),
    (0xA80039A00B32, .wait ⟨0xA00B, 0x39, 0x2A⟩)] = true := by decide +kernel

theorem test_decode_control_2 : decodes 3 [
    (0xC003F3C7033, .ftest ⟨⟨false, 0⟩, 7, 15, 0, some 0x3F, 1⟩),
    (0x780003081B40, .bar ⟨⟨true, 3⟩, 1, 2, 3, none, 15⟩),
    (0x380006144041, .cbar ⟨⟨false, 0⟩, 4, 5, 6, none, 7⟩),
    (0x9200042, .await ⟨⟨false, 0⟩, 0, 8, 9, none, 0⟩),
    (0x40020280043, .ainit ⟨⟨false, 0⟩, 0, 10, 0, some 0x20, 0⟩),
    (0x68000D302044, .mwait ⟨⟨false, 0⟩, 2, 12, 13, none, 13⟩),
    (0x80000180550, .lexit ⟨⟨false, 5⟩, 0, 6, 0, none, 1⟩),
    (0x4001000E051, .mget ⟨⟨false, 0⟩, 14, 0, 0, some 0x10, 0⟩),
    (0x4000F3C0052, .mset ⟨⟨false, 0⟩, 0, 15, 0, some 0xF, 0⟩),
    (0x11400060, .tsub ⟨⟨false, 0⟩, 0, 16, 17, none, 0⟩),
    (0xD2061, .targ ⟨⟨false, 0⟩, 18, 3, 0, none, 0⟩)] = true := by decide +kernel

theorem test_decode_system_1 : decodes 3 [
    (0x4002F000070, .trap ⟨⟨false, 0⟩, 0, 0, 0, some 0x2F, 0⟩),
    (0x403FF000B71, .sysc ⟨⟨true, 3⟩, 0, 0, 0, some 0x3FF, 0⟩),
    (0x72, .hret ⟨⟨false, 0⟩, 0, 0, 0, none, 0⟩),
    (0x4001F000073, .brk ⟨⟨false, 0⟩, 0, 0, 0, some 0x1F, 0⟩),
    (0x574, .exit ⟨⟨false, 5⟩, 0, 0, 0, none, 0⟩),
    (0x75, .yield ⟨⟨false, 0⟩, 0, 0, 0, none, 0⟩),
    (0x7FFFFF000076, .ipf ⟨⟨false, 0⟩, 0, 0, 0, some 0x3FFFF, 15⟩),
    (0x80000000077, .icinvC ⟨⟨false, 0⟩, 0, 0, 0, none, 1⟩),
    (0x180000000077, .icinvD ⟨⟨false, 0⟩, 0, 0, 0, none, 3⟩),
    (0x4000B013078, .gsr ⟨⟨false, 0⟩, 19, 0, 0, some 0xB, 0⟩),
    (0x40005500079, .ssr ⟨⟨false, 0⟩, 0, 20, 0, some 0x5, 0⟩)] = true := by decide +kernel

theorem test_decode_system_2 : decodes 3 [
    (0x7A, .nop ⟨⟨false, 0⟩, 0, 0, 0, none, 0⟩)] = true := by decide +kernel

/-! ## Witnesses -/

/-- A state none of whose slices was written logs nothing. -/
theorem unlogged_of {s : State} (h : s.slices = []) : Unlogged s := fun i => by simp [State.slice, h, FMap.getD, FMap.find]; rfl
theorem unwatched_of {s : State} (h : s.slices = [] ∧ s.monitors = [] ∧ s.trace = none) : Unwatched s := ⟨unlogged_of h.1, h.2⟩

/-- A page of HBM at virtual 0 that anyone may read, write and execute. -/
def page : TlbEntry := ⟨0, 0, 0, 0x10000, ⟨.hbm, 0x40000⟩, false, true, true, true, true⟩
/-- A memory-side page. -/
def pageMs : TlbEntry := ⟨0, 0, 0x20000, 0x10000, ⟨.hbm, 0x60000⟩, true, true, true, true, true⟩

/-- Scalars of the test warp: addresses, an odd address, an address out of bounds, counts. -/
def regs : FMap DWord :=
  [(1, 0x100), (2, 0x1000), (3, 0x1001), (4, 0x10000), (5, 2), (6, 0x20000), (7, 0x40004), (8, 0x8001), (9, 3), (10, 256), (11, 0x03F0_0000), (12, 0x100_0000_4040), (63, 0x2000)]

/-- A warp of 32 lanes, four of them live, on core 0. -/
def warp : Warp :=
  { launchWarp fetchCard fetchTask 0 0 ⟨0, 0, 1, 128, 1⟩ 0 0 (some 0) with
    mask := 15, sregs := regs, vpred := BitVec.ofNat 8192 (5 * 2 ^ 1024), spred := 2, pc := 0x1000, tick := 3, opened := true }

/-- A state in which `w` is issuing. -/
def at' (w : Warp) : State :=
  { State.reset with
    cur := some (0, 0), cores := [(0, { CoreSt.reset with warps := [(0, w)], split := some 0, grantee := some 0, tlb := [page, pageMs] })],
    blocks := [(0, fetchBlock)], tasks := [(0, fetchTask)], cards := [fetchCard], nextId := 1 }

/-- Its state. -/
def st : State := at' warp

def vo : VOp := ⟨⟨false, 1⟩, .v 1, .v 2, .v 3, .v 4, none, .i32, .rne, false, 0⟩
def mo : MOp := ⟨⟨false, 1⟩, .v 4, 2, none, 0, .b32, .d, none⟩
def mf : MOp := { mo with flag := some 3 }
def xc : XCOp := ⟨1, 2, 2, 5, 0, .d, 0⟩
def xt : XTOp := ⟨2, 1, 3, 4, 0, 0, 0⟩
def cb : CBOp := ⟨⟨false, 0⟩, 2, ⟨false, 1⟩, 1⟩
def cs : CSOp := ⟨⟨false, 0⟩, 6, 2, 5, none, 0⟩
def cw : CWOp := ⟨0x1A, 0x38, 9⟩

/-- Predicate operations, packed types and other forms of the vector slot. -/
theorem wit_vector_forms :
    (∀ i ∈ ([.vhadd, .vhmul, .vhfma, .vhdot, .vpack, .vunpack] : List (VOp → Instr)), Issues st 0 0 warp (i { vo with ty := .f16 })) ∧
    (∀ i ∈ ([.vpand, .vpor, .vpxor, .vpandn, .vpnot] : List (VOp → Instr)), Issues st 0 0 warp (i { vo with dst := .p 2, a := .p 1, b := .p 3 })) ∧
    Issues st 0 0 warp (.vmoviHi { vo with imm := some 5 }) ∧ tyOfCode 2 = some .f32 ∧ Issues st 0 0 warp (.vcvt { vo with sub := 2 }) ∧
    Active warp vo.guard 2 ∧ ¬ Active warp vo.guard 1 ∧ Live warp 1 ∧ ¬ Live warp 4 := by
  simp only [Issues, Active, Live]; decide +kernel

theorem spOk_of {s : State} {w : Warp} {o : MOp} (h : ∀ l : Fin (32 * w.k), w.memAddr o l % o.size.bytes = 0 ∧ 0 ≤ signed64 (w.memAddr o l) ∧
    signed64 (w.memAddr o l) + o.size.bytes ≤ s.allocOf w ∧ s.spFaulty w.block (w.memAddr o l) o.size.bytes = false) : SpOk s w o :=
  fun l a => h ⟨l, a.1⟩

/-- The same load into a scalar. -/
def moS : MOp := { mo with data := .s 4 }
theorem wit_scratch_scalar : Issues st 0 0 warp (.ldSp moS) ∧ SpOk st warp moS ∧ Active warp moS.guard 0 ∧
    (∀ j < 0, ¬ Active warp moS.guard j) ∧ ∀ l, ¬ Active warp ⟨false, 2⟩ l := by
  refine ⟨by simp only [Issues]; decide +kernel, spOk_of (by decide +kernel), by simp only [Active]; decide +kernel, fun j h => by omega, fun l h => ?_⟩
  have := (by simp only [Active]; decide +kernel : ∀ l : Fin 32, ¬ Active warp ⟨false, 2⟩ l) ⟨l, h.1⟩
  exact this h

theorem wit_scratch : (∀ i ∈ ([.ldSp, .stSp, .casSp, .atomSpAdd, .atomSpAnd, .atomSpOr, .atomSpXor, .atomSpXchg, .atomSpMinI, .atomSpMaxI,
    .atomSpMinN, .atomSpMaxN] : List (MOp → Instr)), Issues st 0 0 warp (i mo)) ∧ SpOk st warp mo ∧ mo.data = .v 4 ∧ mo.size = .b32 :=
  ⟨by simp only [Issues]; decide +kernel, spOk_of (by decide +kernel), rfl, rfl⟩

theorem wit_scratch_faults :
    Active warp mo.guard 0 ∧ warp.memAddr { mo with base := 3 } 0 % 4 ≠ 0 ∧ warp.memAddr { mo with base := 4 } 0 % 4 = 0 ∧
    st.allocOf warp < signed64 (warp.memAddr { mo with base := 4 } 0) + 4 ∧ Issues st 0 0 warp (.stSp { mo with base := 3 }) ∧
    Issues st 0 0 warp (.stSp { mo with base := 4 }) := by simp only [Issues, Active]; decide +kernel

/-- The state with a line of the L1. -/
def stL1 : State := st.modCore 0 fun x => { x with l1 := [⟨⟨.hbm, 0x41000⟩, 5, none⟩] }
theorem wit_ldc : (∀ o ∈ [mo, moS], (∀ s ∈ [stL1, st], Issues s 0 0 warp (.ldc o) ∧ ldcCheck o 0 0 s = none ∧ ldcWait o 0 0 s = none ∧
      (s.place 0 warp .read (warp.memAddr o 0)).isSome) ∧
    (∀ q e, stL1.place 0 warp .read (warp.memAddr o 0) = some (q, e) → InL1 stL1 0 0 warp q ∧ ¬ InL1 st 0 0 warp q)) ∧
    Active warp mo.guard 0 ∧ ¬ Active warp mo.guard 1 := by
  simp only [Issues, Active, InL1]
  refine ⟨fun o h => ⟨?_, fun q e p => ?_⟩, by decide +kernel⟩
  · fin_cases h <;> decide +kernel
  · fin_cases h <;> cases p.symm.trans (Option.some_get (by decide +kernel : (Option.isSome _ = true))).symm <;> decide +kernel

theorem room_of {w : Warp} {f : Option (Fin 16)} (h : ∀ g : Fin 16, w.flag g < 63) : Room w f := fun g _ => h g

theorem wit_global :
    (∀ i ∈ ([.ldG, .ldGAcq, .stG, .stGRel, .casG, .atomGAdd, .atomGAnd, .atomGOr, .atomGXor, .atomGXchg, .atomGMinI, .atomGMaxI, .atomGMinN,
      .atomGMaxN, .atomGFadd, .redGAdd, .redGAnd, .redGOr, .redGXor, .redGMinI, .redGMaxI, .redGMinN, .redGMaxN, .redGFadd] : List (MOp → Instr)),
      Issues st 0 0 warp (i mf)) ∧
    ldCheck .any mf 0 0 st = none ∧ writeCheck .write .any mf 0 0 st = none ∧ writeCheck .write .noHost mf 0 0 st = none ∧
    writeCheck .rmw .noHost mf 0 0 st = none ∧ storeWait .write mf 0 0 st = none ∧ storeWait .rmw mf 0 0 st = none ∧
    st.releaseWaits 0 0 true mf.scope = false ∧ ldWait mf 0 0 st = none := by
  simp only [Issues]; decide +kernel

/-- The flags that the witnesses name have room. -/
theorem wit_room : Room warp mf.flag ∧ Room warp (some 1) ∧ Room warp (some xt.flag) := by
  refine ⟨?_, ?_, ?_⟩ <;> exact room_of (by decide +kernel)

/-- The state with a ring of one bf16 tile of 16 rows of 64 bytes in stream 0. -/
def stRing : State := st.modCore 0 fun x => { x with streams := [(0, 0x0CCF_0000_0000), (2, 0x10000), (3, 64)] }
/-- The state without the grant of the tile engine. -/
def stBare : State := st.modCore 0 fun x => { x with grantee := none }
def sdOp : MOp := { mo with data := .s 1, off := 48 }
theorem wit_streams :
    Issues stRing 0 0 warp (.sld mo) ∧ sldCheck mo 0 0 stRing = none ∧ Issues st 0 0 warp (.sdset sdOp) ∧ chkSdset sdOp 0 0 st = none ∧
    Issues st 0 0 warp (.sdget sdOp) ∧ st.hasGrant 0 warp = true ∧ stBare.hasGrant 0 warp = false ∧
    (∀ i ∈ ([.sld, .sdset, .sdget] : List (MOp → Instr)), Issues stBare 0 0 warp (i sdOp)) ∧ Issues st 0 0 warp (.sld mo) ∧
    (st.core 0).present (mStream mo) ((st.core 0).desc (mStream mo)).len = 0 := by simp only [Issues]; decide +kernel

theorem wit_spill : Issues st 0 0 warp (.vspill mf) ∧ spanCheck .write mf 0 0 st = none ∧ spillWait mf 0 0 st = none ∧
    Issues st 0 0 warp (.vfill mf) ∧ spanCheck .read mf 0 0 st = none ∧ fillWait mf 0 0 st = none ∧ 1 ≤ warp.k := by
  simp only [Issues]; decide +kernel

theorem wit_fences : (∀ i ∈ ([.fenceRel, .fenceAcq, .fence, .l1inv, .pfd, .arrive] : List (MOp → Instr)), Issues st 0 0 warp (i mf)) ∧
    fenceWait true mf 0 0 st = none ∧ fenceWait false mf 0 0 st = none ∧ arriveCheck { mf with data := .s 5 } 0 0 st = none ∧
    pfdWait mf 0 0 st = none ∧ (st.tlbFind 0 (st.ctxOf 0 0).1 (st.ctxOf 0 0).2 (warp.memAddr mf 0)).isSome ∧
    (st.place 0 warp .read (warp.memAddr mf 0)).map (·.1.ms) = some false := by
  simp only [Issues]; decide +kernel

/-! ## The copy and tile slot -/

def xcOf' (d s l : Nat) : XCOp := ⟨1, Fin.ofNat 64 d, Fin.ofNat 64 s, BitVec.ofNat 8 l, 0, .d, 0⟩
theorem wit_copies :
    (∀ p ∈ ([(.cpa, chkCpa, waitCpa, xcOf' 2 2 8), (.cpb, chkCpb, waitCpb, xcOf' 2 2 10), (.cp2d, chkCp2d, waitCp2d, xcOf' 2 2 10),
      (.gredAdd, chkGred, waitGred, xcOf' 6 2 10), (.gredMin, chkGred, waitGred, xcOf' 6 2 10), (.gredMax, chkGred, waitGred, xcOf' 6 2 10),
      (.tld, chkTld, waitTld, xcOf' 2 2 0), (.tst, chkTst, waitTst, xcOf' 2 2 0), (.xtile, chkXtile, waitXtile, xcOf' 2 2 0),
      (.tsave, chkTsave, waitTsave, xcOf' 0 0 0), (.tload, chkTload, waitTload, xcOf' 0 0 0), (.tdrain, chkTdrain, waitTdrain, xcOf' 2 12 0),
      (.tstac, chkTstac, waitTstac, xcOf' 2 12 0)] :
      List ((XCOp → Instr) × (XCOp → Nat → Nat → State → Option Fail) × (XCOp → Nat → Nat → State → Option Wait) × XCOp)),
      Issues stRing 0 0 warp (p.1 p.2.2.2) ∧ p.2.1 p.2.2.2 0 0 stRing = none ∧ p.2.2.1 p.2.2.2 0 0 stRing = none) := by
  simp only [Issues]; decide +kernel

/-- The state with the test block in a cluster gang. -/
def stCl : State := { st with tasks := [(0, { fetchTask with cluster := true })] }
def warpM : Warp := { warp with sregs := FMap.set regs 10 0x0300_0100 }
def stM : State := { at' warpM with tasks := [(0, { fetchTask with cluster := true })] }
theorem wit_multicast : Issues stM 0 0 warpM (.cpm (xcOf' 2 2 10)) ∧ chkCpm (xcOf' 2 2 10) 0 0 stM = none ∧ waitCpm (xcOf' 2 2 10) 0 0 stM = none ∧
    Room warpM (some 1) := ⟨by simp only [Issues]; decide +kernel, by decide +kernel, by decide +kernel, room_of (by decide +kernel)⟩

/-- A state whose streams 3 and 4 hold tiles of two formats, scaled by 16. -/
def stMma (f g rb : Nat) : State :=
  let w0 := fun (n : Nat) => BitVec.ofNat 64 (2 ^ 24 + 15 * 2 ^ 32 + (rb / 16 - 1) * 2 ^ 38 + n * 2 ^ 42)
  st.modCore 0 fun x => { x with streams := [(12, w0 f), (13, 0x101_0000_0000), (16, w0 g), (17, 0x101_0000_0000)] }
theorem wit_tile_operations :
    (∀ i ∈ ([.tzero, .sreset, .sadv] : List (XTOp → Instr)), Issues st 0 0 warp (i xt)) ∧ xtGrant 0 0 st = none ∧ chkSadv xt 0 0 st = none ∧
    xtWait xt 0 0 st = none ∧
    ∀ p ∈ ([(.tmmaBf16, 3, 3, 64), (.tmmaF16, 4, 4, 64), (.tmmaE4m3, 9, 9, 64), (.tmmaE5m2, 10, 10, 64), (.tmmaE4m3e5m2, 9, 10, 64),
      (.tmmaE5m2e4m3, 10, 9, 64), (.tmmaI8, 7, 7, 64), (.tmmaN8, 8, 8, 64), (.tmmaI8n8, 7, 8, 64), (.tmmaLg6, 11, 11, 96), (.tmmasE4m3, 9, 9, 64),
      (.tmmasE5m2, 10, 10, 64), (.tmmasE4m3e5m2, 9, 10, 64), (.tmmasE5m2e4m3, 10, 9, 64), (.tmmasI8, 7, 7, 64), (.tmmasLg6, 11, 11, 96)] :
      List ((XTOp → Instr) × Nat × Nat × Nat)),
      let o := { xt with kst := 15 }
      Issues (stMma p.2.1 p.2.2.1 p.2.2.2) 0 0 warp (p.1 o) ∧ chkTmma (p.1 o) o 0 0 (stMma p.2.1 p.2.2.1 p.2.2.2) = none ∧
        xtWait o 0 0 (stMma p.2.1 p.2.2.1 p.2.2.2) = none := by
  simp only [Issues]; decide +kernel

theorem wit_queue_checks : stBare.hasGrant 0 warp = false ∧ Issues stBare 0 0 warp (.tld xc) ∧ Issues stBare 0 0 warp (.tzero xt) ∧
    Issues st 0 0 warp (.cpb (xcOf' 2 2 5)) ∧ (warp.s 5).toNat % 2 ^ 17 % 16 ≠ 0 ∧ Issues st 0 0 warp (.tmmaBf16 xt) ∧ st.hasGrant 0 warp = true ∧
    ((st.core 0).desc xt.sa.val).fmt ≠ Ty.bf16.code := by simp only [Issues]; decide +kernel

theorem wit_accumulator : ∃ (x : Fp.Acc) (neg : Bool), x.spec = (if neg then 1 else 2) ∧ ∃ y : Fp.Acc, y.spec = 4 := ⟨⟨1, 0, 0⟩, true, rfl, ⟨4, 0, 0⟩, rfl⟩

/-! ## The control slot -/

theorem wit_scalar : (∀ i ∈ ([.addS, .subS, .mulS, .mulhS, .andS, .orS, .xorS, .shl, .shr, .sar, .minS, .maxS, .mov, .movi, .movhi, .sel, .clz,
    .popc, .lea, .cmp, .ftest, .lexit, .mset, .mget, .nop, .yield] : List (CSOp → Instr)), Issues st 0 0 warp (i cs)) ∧ Guarded warp cs.guard ∧
    ¬ Guarded warp ⟨true, 1⟩ ∧ csN cs < 12 ∧
    Issues st 0 0 warp (.ssr { cs with imm := some 6 }) := by simp only [Issues, Guarded]; decide +kernel

/-- Lane predicate vp1 of the test warp is true in live lanes 0 and 2 only; vp0 is true in all. -/
theorem wit_branches :
    (∀ i ∈ ([.br, .jmp, .jmpr, .ret, .brAny, .brAll, .brU, .call] : List (CBOp → Instr)), Issues st 0 0 warp (i cb)) ∧ Guarded warp cb.guard ∧
    (Live warp 0 ∧ LaneTrue warp cb.var 0) ∧ (∀ l, Live warp l → LaneTrue warp ⟨false, 0⟩ l) ∧ (Live warp 1 ∧ ¬ LaneTrue warp cb.var 1) ∧
    (∀ l, Live warp l → ¬ LaneTrue warp ⟨true, 0⟩ l) ∧ TargetOk (offTarget warp cb) ∧ TargetOk (warp.s 63) ∧
    (warp.s 7).toNat % 32 ≠ 0 ∧ TargetOk (warp.s 1) := by
  have h : ∀ l : Fin 32, (Live warp l → LaneTrue warp ⟨false, 0⟩ l) ∧ (Live warp l → ¬ LaneTrue warp ⟨true, 0⟩ l) := by
    simp only [Live, LaneTrue]; decide +kernel
  refine ⟨by simp only [Issues]; decide +kernel, by simp only [Guarded]; decide +kernel, by simp only [Live, LaneTrue]; decide +kernel,
    fun l a => (h ⟨l, a.1⟩).1 a, by simp only [Live, LaneTrue]; decide +kernel, fun l a => (h ⟨l, a.1⟩).2 a, ?_, ?_, by decide +kernel, ?_⟩
  all_goals exact ⟨by decide +kernel, fun i h1 h2 => by interval_cases i <;> decide +kernel⟩

/-- A branch to a target whose bits 63 to 52 differ from bit 51. -/
theorem wit_branch_range : let w := { warp with sregs := [(1, 0x8_0000_0000_0000)] }
    Issues (at' w) 0 0 w (.jmpr cb) ∧ (w.s cb.sreg.val).toNat % 32 = 0 ∧ ¬ TargetOk (w.s cb.sreg.val) := by
  refine ⟨by simp only [Issues]; decide +kernel, by decide +kernel, fun h => absurd (h.2 52 (by decide) (by decide)) (by decide +kernel)⟩

def level (a b : DWord) : LoopLevel := ⟨a, b, 2, true⟩
def loop5 : CBOp := { cb with sreg := 5 }
def loop0 : CBOp := { cb with sreg := 0 }
/-- The warp at the end of its loop, and the warp with a full loop stack. -/
def warpEnd : Warp := { warp with loops := [level 0x1000 0x1000] }
def warpFull : Warp := { warp with loops := [level 0 32, level 0 32, level 0 32, level 0 32] }
theorem wit_loops :
    Issues st 0 0 warp (.loop loop5) ∧ (warp.s 5).toNat % 2 ^ 32 ≠ 0 ∧ (warp.s 0).toNat % 2 ^ 32 = 0 ∧ TargetOk (offTarget warp loop0 + 32) ∧
    Issues (at' warpEnd) 0 0 warpEnd (.loop loop5) ∧ (∃ l, warpEnd.loops.head? = some l ∧ l.stop = warpEnd.pc) ∧
    successor warpEnd.pc .none warpEnd.loops = ([{ level 0x1000 0x1000 with first := false, count := 1 }], 0x1000) ∧
    Issues (at' warpFull) 0 0 warpFull (.loop loop5) ∧ 4 ≤ warpFull.loops.length ∧ Issues (at' warpFull) 0 0 warpFull (.lpop cs) ∧
    warpFull.loops ≠ [] ∧ warpFull.ctl ≠ .done ∧ Issues st 0 0 warp (.lpop cs) ∧ warp.loops = [] := by
  refine ⟨by simp only [Issues]; decide +kernel, by decide +kernel, by decide +kernel,
    ⟨by decide +kernel, fun i h1 h2 => by interval_cases i <;> decide +kernel⟩, by simp only [Issues]; decide +kernel, ⟨_, rfl, by decide +kernel⟩,
    by decide +kernel, by simp only [Issues]; decide +kernel, by decide +kernel, by simp only [Issues]; decide +kernel, by decide +kernel,
    by decide +kernel, by simp only [Issues]; decide +kernel, rfl⟩

/-- The warp with flag 3 at 2, and the warp whose hold has ended. -/
def warpF : Warp := { warp with flags := [(3, 2)] }
def warpDone : Warp := { warp with stop := .mdone true }
theorem wit_waits : Issues (at' warpF) 0 0 warpF (.wait cw) ∧ warpF.stop = .run ∧ warpF.seen 3 = 2 ∧
    Issues (at' warpDone) 0 0 warpDone (.wait cw) ∧ warpDone.stop = .mdone true ∧ Issues st 0 0 warp (.ftest cs) := by
  simp only [Issues]; decide +kernel

/-- Two warps in the block. -/
def stTwo : State := { st.setWarp 0 1 warp with blocks := [(0, { fetchBlock with warps := [0, 1] })] }
def stForm : State := { st with blocks := [(0, { fetchBlock with bars := [(0, ⟨[1], some none, 4⟩)] })] }
def barAll : CSOp := ⟨⟨false, 0⟩, 3, 0, 0, none, 0⟩
def barSix : CSOp := ⟨⟨false, 0⟩, 3, 9, 5, none, 0⟩
theorem wit_barriers :
    Issues st 0 0 warp (.bar barAll) ∧ Issues stTwo 0 0 warp (.bar barAll) ∧ Issues stTwo 0 0 warp (.bar barSix) ∧ (st.block? warp.block).isSome ∧
    (∀ q ∈ st.partOf false 0, warpId q.1 q.2 ∈ [warpId 0 0] ∨ st.alive q = false) ∧
    ¬ (∀ q ∈ stTwo.partOf false 0, warpId q.1 q.2 ∈ [warpId 0 0] ∨ stTwo.alive q = false) ∧
    (1 + ((stTwo.partOf false 0).filter fun q => !([warpId 0 0].contains (warpId q.1 q.2)) && stTwo.alive q).length < 3) ∧
    Issues st 0 0 warp (.cbar barAll) ∧ st.inCluster warp = false ∧ Issues stCl 0 0 warp (.cbar barAll) ∧ stCl.inCluster warp = true ∧
    Issues stForm 0 0 warp (.bar barSix) ∧ (stForm.barrier false 0 0).form = some none ∧ warp.hold = none := by
  simp only [Issues]; decide +kernel

/-! ## Words, lanes, tasks and traps -/

def csB' (a b : Nat) : CSOp := ⟨⟨false, 0⟩, 6, Fin.ofNat 64 a, Fin.ofNat 64 b, none, 0⟩
theorem wit_words :
    (∀ i ∈ ([.ainit, .await, .mwait] : List (CSOp → Instr)), Issues st 0 0 warp (i (csB' 2 5))) ∧ (warp.s 2).toNat % 16 = 0 ∧
    0 ≤ signed64 (warp.s 2).toNat ∧ signed64 (warp.s 2).toNat + 16 ≤ st.allocOf warp ∧ (warp.s 3).toNat % 16 ≠ 0 ∧
    Issues st 0 0 warp (.ainit (csB' 3 5)) ∧ (warp.s 4).toNat % 16 = 0 ∧ st.allocOf warp < signed64 (warp.s 4).toNat + 16 ∧
    Issues st 0 0 warp (.ainit (csB' 4 5)) ∧ awaitCheck (csB' 2 0) 0 0 st = none ∧ warp.stop = .run ∧ Issues st 0 0 warp (.await (csB' 2 0)) ∧
    st.spGet warp.block (warp.s 2).toNat 16 / 2 ^ 64 % 2 ^ 32 = (warp.s 0).toNat % 2 ^ 32 ∧
    st.spGet warp.block (warp.s 2).toNat 16 / 2 ^ 64 % 2 ^ 32 ≠ (warp.s 5).toNat % 2 ^ 32 := by
  simp only [Issues]; decide +kernel

/-- The place of an `mwait` on the test page: its condition holds for `mwait` of 0 and not for `mwait` of 2; the page may use a monitor, and the
memory-side page may not. -/
theorem wit_mwait : ∀ a ∈ [2, 6], ∀ b ∈ [0, 5], chkMwait (csB' a b) 0 0 st = none ∧ Guarded warp (csB' a b).guard ∧
    (st.place 0 warp .read (warp.s a).toNat).isSome ∧ Issues st 0 0 warp (.mwait (csB' a b)) ∧
    (∀ q e, st.place 0 warp .read (warp.s a).toNat = some (q, e) → st.localAddr q.pa = some q.pa.addr ∧
      (st.core 0).fifoWrites q.pa.line (st.core 0).next = false ∧ st.readsFirst 0 0 warp q.pa 4 = false ∧
      (st.devGet q.pa.addr 4 = (warp.s b).toNat ↔ b = 0) ∧ (q.ms = true ↔ a = 6)) := by
  simp only [Issues, Guarded]
  intro a ha b hb
  fin_cases ha <;> fin_cases hb <;> (constructor; decide +kernel; constructor; decide +kernel; constructor; decide +kernel; constructor; decide +kernel) <;>
    intro q e h <;> cases h.symm.trans (Option.some_get (by decide +kernel : (Option.isSome _ = true))).symm <;> decide +kernel

/-- A state in which a store of the warp to the word has not drained, one with as many monitors at its slice as it has room for, and holds of
`await` and `mwait` that have ended. -/
def stDrain : State := st.modCore 0 fun x => { x with next := 9, fifo := [⟨3, 3, 0, 1, ⟨.hbm, 0x41000⟩, false, none, false, [(0x41000, 1)], [], false, false, 0, false⟩] }
def stFull : State := { st with monitors := List.replicate 256 ⟨1, 0, 0x41000, 4, 0, 0, none⟩ }
theorem wit_mwait_others :
    (stDrain.core 0).fifoWrites ⟨.hbm, 0x41000⟩ (stDrain.core 0).next = true ∧ Issues stDrain 0 0 warp (.mwait (csB' 2 5)) ∧
    chkMwait (csB' 2 5) 0 0 stDrain = none ∧ Issues stFull 0 0 warp (.mwait (csB' 2 5)) ∧ chkMwait (csB' 2 5) 0 0 stFull = none ∧
    256 ≤ (stFull.monitors.filter fun m => sliceOf m.pa = sliceOf 0x41000).length ∧
    (∀ i ∈ [(.await (csB' 2 5) : Instr), .mwait (csB' 2 5)], Issues (at' warpDone) 0 0 warpDone i) ∧ Guarded warpDone (csB' 2 5).guard ∧
    Issues st 0 0 warp (.mwait { csB' 2 5 with guard := ⟨true, 1⟩ }) ∧ ¬ Guarded warp ⟨true, 1⟩ := by
  simp only [Issues, Guarded]; decide +kernel


/-- The task may feed queue 3 of its own region; the second state's card is speculative. -/
def stFeed (sp : Spec) : State := { st with queues := [3], rcbs := [(0, ⟨0, 0, 0, false, false, false, 0, 0, 0, 0, 0, 0, 0, 0, 0⟩)], cards := [{ fetchCard with spec := sp }] }
theorem wit_tasks :
    Issues (stFeed .plain) 0 0 warp (.tsub (csB' 9 1)) ∧ chkTsub (csB' 9 1) 0 0 (stFeed .plain) = none ∧ waitTsub (csB' 9 1) 0 0 (stFeed .plain) = none ∧
    (stFeed .plain).buffers warp.block = false ∧ Issues (stFeed .running) 0 0 warp (.tsub (csB' 9 1)) ∧
    chkTsub (csB' 9 1) 0 0 (stFeed .running) = none ∧ waitTsub (csB' 9 1) 0 0 (stFeed .running) = none ∧
    (stFeed .running).buffers warp.block = true ∧ ((stFeed .running).cardOfBlock warp.block).isSome ∧
    (warp.s 5).toNat % 64 ≠ 0 ∧ Issues st 0 0 warp (.tsub (csB' 2 5)) ∧ (warp.s 1).toNat % 64 = 0 ∧ 4096 ≤ (warp.s 2).toNat ∧
    Issues st 0 0 warp (.tsub (csB' 2 1)) ∧ Issues st 0 0 warp (.targ (csB' 1 0)) ∧ st.block? warp.block = some fetchBlock ∧
    FMap.find st.tasks fetchBlock.task = some fetchTask ∧ st.card? fetchTask.card = some fetchCard ∧ fetchTask.taken < fetchTask.count ∧
    Issues st 0 0 warp (.tsub (csB' 9 1)) ∧ (warp.s 9).toNat < 4096 ∧ (st.cardOfBlock warp.block).isSome ∧ (warp.s 9).toNat ∉ st.queues := by
  simp only [Issues]; decide +kernel

/-- The task whose one record is taken. -/
def stTaken : State := { st with tasks := [(0, { fetchTask with taken := 1 })] }
theorem wit_task_empty : Issues stTaken 0 0 warp (.targ (csB' 1 0)) ∧ (FMap.find stTaken.tasks 0).map (fun x => decide (x.count ≤ x.taken)) = some true := by
  simp only [Issues]; decide +kernel

/-- The warp in its handler. -/
def warpH : Warp := { warp with priv := true }
theorem wit_traps :
    (∀ i ∈ ([.trap, .brk, .sysc] : List (CSOp → Instr)), Issues st 0 0 warp (i cs) ∧ Issues (at' warpH) 0 0 warpH (i cs)) ∧ Guarded warp cs.guard ∧
    warp.priv = false ∧ warpH.priv = true ∧ Guarded warpH cs.guard ∧ ((st.advance 0 0).endTick 0 0).alive (0, 0) = true ∧
    (((at' warpH).advance 0 0).endTick 0 0).alive (0, 0) = true := by simp only [Issues, Guarded]; decide +kernel

theorem wit_system :
    (∀ i ∈ ([.ipf, .icinvC, .icinvD, .gsr, .lexit, .mset, .mget, .exit, .yield, .nop] : List (CSOp → Instr)), Issues st 0 0 warp (i cs)) ∧
    Issues st 0 0 warp (.ssr { cs with imm := some 6 }) ∧ Guarded warp cs.guard ∧ csN { cs with imm := some 11 } = 11 ∧ csN { cs with imm := some 16 } = 16 ∧
    Issues st 0 0 warp (.gsr { cs with imm := some 11 }) ∧ Issues st 0 0 warp (.mget { cs with imm := some 16 }) ∧
    Issues st 0 0 warp (.mset { cs with imm := some 15 }) ∧ warp.k ≤ 32 ∧ warp.stop ≠ .ended := by
  simp only [Issues, Guarded]; decide +kernel

/-! ## Handlers -/

/-- A trap of the test warp with a result of each kind in flight, and the state after its entry, with the handler issuing. -/
def trap1 : Trap := ⟨0x240, 3, 0x77, 5, 4, 0x1020, 0, 15, none, false, 0x1020⟩
/-- A landing of a slot, issued at tick 3. -/
def landing (slot land : Nat) (d : Dest) : Landing := ⟨slot, 3, land, d, .none, [], 0, [], 0, none, [], 0, 0⟩
def warpT : Warp := { warp with tsa := 0x8000, opened := false, loops := [level 0x1000 0x1100], fel := 3, flight :=
  [{ landing 0 5 (.v 7) with unit := .lva, lanes := [(0, 9), (2, 8)], evs := [(0, 1)], addr := 0x1000 },
   { landing 3 6 (.s 8) with scalar := 77, addr := 0x1000 }] }
theorem wit_trap_entry : warpT.priv = false ∧ (at' warpT).warp? 0 0 = some warpT ∧
    ((at' warpT).putFields 0 0 0 true warpT.tsa.toNat (warpT.areaFields trap1 warpT.summary false true)).isSome ∧
    (at' warpH).warp? 0 0 = some warpH ∧ warpH.priv = true ∧
    ((at' { warpT with tsa := 0x40000 }).putFields 0 0 0 true 0x40000 (warpT.areaFields trap1 warpT.summary false true)).isNone := by decide +kernel

/-- The handler of the test warp at its `hret`: its area holds the mask 15, a successor at 0x1020 and one saved result for s8. -/
def wh : Warp := { warp with priv := true, tsa := 0x8000, epc := 0x1020, entryMask := 15 }
def areaCells (mask : Byte) : List Host.Cell :=
  [(0x48000, 1), (0x48006, 1), (0x48008, 0x20), (0x48009, 0x10)] ++ (if mask = 0 then [] else [(0x48300, mask)]) ++
    [(0x48800, 0x88), (0x48801, 0x1D), (0x48802, 2), (0x48808, 77)]
def stEntered (mask : Byte) : State := { at' wh with hbm := ⟨areaCells mask, 0⟩ }
def areaOf (s : State) (w : Warp) : Option Nat := s.readArea 0 (s.ctxOf w.block 0).1 (s.ctxOf w.block 0).2 w.tsa.toNat 1

/-- With mask 15 the area is valid and its one record parses; with mask 0 every lane is retired; an empty area is not valid, and one at an
unmapped address cannot be read. -/
theorem wit_return :
    (∀ m ∈ [(15 : Byte), 0], Issues (stEntered m) 0 0 wh (.hret cs) ∧ (∀ e ∈ ((stEntered m).core 0).fifo, e.slot ≠ 0) ∧ Guarded wh cs.guard ∧
      (areaOf (stEntered m) wh).map (fun img => areaValid img wh.epc && decide (parseRecords img [0] (bits (word img 0) 55 48) 0x800 =
        some [{ landing 3 2 (.s 8) with tick := 0, scalar := 77 }])) = some true ∧
      (areaOf (stEntered m) wh).map (fun img => BitVec.ofNat 1024 (img / 2 ^ (8 * 0x300)) &&& wh.entryMask) = some (m.setWidth 1024)) ∧
    Issues (at' wh) 0 0 wh (.hret cs) ∧ (areaOf (at' wh) wh).map (fun img => areaValid img wh.epc) = some false ∧
    areaOf (at' { wh with tsa := 0x40000 }) { wh with tsa := 0x40000 } = none := by
  simp only [Issues, Guarded]; decide +kernel


/-! ## The timeline -/

/-- A warp at the end of tick 3 with results of two slots for one register, one lane each and one shared, and one that lands later. -/
def warpE : Warp := { warp with flight :=
  [{ landing 0 3 (.v 7) with lanes := [(0, 9), (2, 8)] }, { landing 1 3 (.v 7) with tick := 1, lanes := [(0, 5)] },
   { landing 3 3 (.s 8) with scalar := 77 }, { landing 3 3 (.sp 2) with scalar := 1 }, { landing 0 3 (.vp 2) with lanes := [(1, 1)] },
   { landing 0 5 (.v 9) with lanes := [(0, 1)] }] }
theorem wit_tick_end :
    (∀ x ∈ warpE.flight, x.land ≤ warpE.tick → (∀ p ∈ x.lanes, p.1 < 1024) ∧ (x.lanes.map (·.1)).Nodup) ∧
    (∃ x ∈ warpE.flight, x.land ≤ warpE.tick ∧ x.dest = .v 7 ∧ FMap.find x.lanes 0 = some 5 ∧
      ∀ y ∈ warpE.flight, y.land ≤ warpE.tick → y ≠ x → y.dest = .v 7 → After x y) ∧
    (∀ x ∈ warpE.flight, x.land ≤ warpE.tick → x.dest = .v 9 → FMap.find x.lanes 0 = none) ∧
    (∃ x ∈ warpE.flight, x.land ≤ warpE.tick ∧ x.dest = .s 8 ∧ ∀ y ∈ warpE.flight, y ≠ x → y.dest ≠ .s 8) ∧
    (∀ x ∈ warpE.flight, x.dest ≠ .s 9 ∧ x.dest ≠ .sp 1 ∧ x.dec = none ∧ x.dest ≠ .vp 3) ∧
    (∃ x ∈ warpE.flight, x.land ≤ warpE.tick ∧ x.dest = .vp 2 ∧ FMap.find x.lanes 1 = some 1 ∧ ∀ y ∈ warpE.flight, y ≠ x → y.dest ≠ .vp 2) ∧
    ∃ x ∈ warpE.flight, x.land ≤ warpE.tick ∧ x.dest = .sp 2 ∧ ∀ y ∈ warpE.flight, y ≠ x → y.dest ≠ .sp 2 := by
  simp only [After]; decide +kernel

/-- A warp at the end of a tick in which a lane raises underflow and inexact, `ssr` writes the log and its enable, and an engine operation has recorded
overflow; and the same warp without the lane's events. -/
def warpV (es : FMap (BitVec 8)) : Warp := { warp with pendEv := [(3, 0, 4, 0x1000)], flight :=
  [{ landing 0 3 (.v 7) with lanes := [(0, 9)], evs := es }, { landing 3 3 (.sr 6) with scalar := 1 }, { landing 3 3 (.sr 4) with scalar := 5 },
   { landing 3 3 (.sr 8) with scalar := 0x8000 }, { landing 3 3 (.sr 10) with scalar := 0x2000 }] }
theorem wit_events :
    (EventNow (warpV [(0, 0x88)]) 1 0 0 0x88 0 ∧ Lowest 0x88 3 ∧ Lowest 4 2 ∧
      ∀ m j d b, EventNow (warpV [(0, 0x88)]) 1 m j d b → (m, j, d, b) = (0, 0, 0x88, 0)) ∧
    (∀ n l e a, ¬ EventNow (warpV []) 1 n l e a) ∧
    (∀ es ∈ [[], [(0, (0x88 : BitVec 8))]], ((warpV es).endTick 20000).fen = 1 ∧ (∀ p ∈ (warpV es).pendEv, p.1 ≤ (warpV es).tick ∧ p.2.2.1 ≠ 0) ∧
      ∀ i ∈ [4, 6, 8, 10], ∃ x ∈ (warpV es).flight, x.land ≤ (warpV es).tick ∧ x.dest = .sr i ∧ ∀ y ∈ (warpV es).flight, y ≠ x → y.dest ≠ .sr i) ∧
    (5 : DWord) &&& 0xFC00_7FFF_FFFF_FFFF = 5 ∧ warp.flight = [] := by
  refine ⟨⟨⟨_, 0x88, ⟨List.mem_cons_self .., by decide +kernel⟩, List.mem_cons_self .., rfl, rfl, by decide, by decide⟩, by simp [Lowest]; decide,
    by simp [Lowest]; decide, ?_⟩, ?_, by decide +kernel, by decide, by decide +kernel⟩
  · rintro m j d b ⟨x, v, ⟨h, -⟩, hv, rfl, rfl, rfl, -⟩
    simp only [warpV, List.mem_cons, List.not_mem_nil, or_false] at h
    rcases h with rfl | rfl | rfl | rfl | rfl <;> simp_all [landing]
  · rintro n l e a ⟨x, v, ⟨h, -⟩, hv, -⟩
    simp only [warpV, List.mem_cons, List.not_mem_nil, or_false] at h
    rcases h with rfl | rfl | rfl | rfl | rfl <;> simp_all [landing]

/-! ## Steps of warps -/

/-- The state with a warp in slot 0 and one in slot 1 at cycle 20,000. -/
def two (a b : Warp) : State := { (at' a).setWarp 0 1 b with cycle := 20000 }
def later (w : Warp) : State := { at' w with cycle := 20000 }
def dueOp (i : Instr) : FMap Nat := [(0x1000, encodeBundle ⟨1, false, false, false, false⟩ none none none (some i))]
def dueOp1 (i : Instr) : FMap Nat := [(0x1000, encodeBundle ⟨1, false, false, false, false⟩ none (some i) none none)]

/-- Two warps of one pipe in empty ticks. -/
def wIdle : Warp := { warp with opened := false, due := warp.tick + 2 }
def wIdle1 : Warp := { wIdle with position := some 1 }
theorem wit_warp_pipes :
    canBundleIssue 0 0 State.reset = false ∧ canResultLand 0 0 State.reset = false ∧
    (let s := two { warp with opened := false } { warp with position := some 1 }
     s.pipePartner 0 0 { warp with opened := false } = some { warp with position := some 1 } ∧
       Warp.ticking { warp with position := some 1 } s.cycle = true ∧ Warp.opened { warp with position := some 1 } = true) ∧
    (let s := two wIdle wIdle1
     s.pipePartner 0 0 wIdle = some wIdle1 ∧ s.pipePartner 0 1 wIdle1 = some wIdle ∧ wIdle.position = some 0 ∧ wIdle1.position = some 1 ∧
       wIdle.ticking s.cycle = true ∧ wIdle1.ticking s.cycle = true ∧ wIdle.opened = false ∧ wIdle1.opened = false) := by decide +kernel

/-- A warp whose landing of this tick waits for a line of the L1, and one whose last lane leaves at the end of the tick. -/
def warpU : Warp := { warp with flight := [{ landing 1 3 (.v 7) with want := [(0, ⟨.hbm, 0x41000⟩)], wn := 4 }] }
def warpL : Warp := { warp with retire := 15 }
theorem wit_warp_ticks :
    (∀ w ∈ [warpE, warpU, warpL], (later w).warp? 0 0 = some w ∧ w.running = true ∧ w.notBefore ≤ 20000 ∧
      w.tickStart + w.tickCycles ≤ (later w).cycle ∧ w.opened = true) ∧
    warpU.unready = true ∧ warpE.unready = false ∧ (warpE.endTick 20000).mask ≠ 0 ∧ warpL.unready = false ∧ (warpL.endTick 20000).mask = 0 ∧
    (let s := two wIdle wIdle1
     s.warp? 0 0 = some wIdle ∧ wIdle.running = true ∧ wIdle.notBefore ≤ s.cycle ∧ wIdle.tick < wIdle.due ∧ wIdle.deferred = [] ∧
       s.pipeTurn 0 0 wIdle = true ∧ s.pipeStart 0 0 wIdle + wIdle.tickCycles ≤ s.cycle) := by decide +kernel

/-- The due bundle's one slot is `ld.g` of the test page. -/
def wLoad (p : Stop) : Warp := { warp with opened := false, stop := p, fetch := dueOp1 (.ldG { mf with scope := .w }) }
theorem wit_warp_freezes :
    (∀ p ∈ [Stop.until 5, .l1, .flag, .accept], (later (wLoad p)).warp? 0 0 = some (wLoad p) ∧ (wLoad p).unready = false ∧
      (wLoad p).dueOps = some ⟨none, some (.ldG { mf with scope := .w }), none, none⟩) ∧
    (∀ w ∈ [{ warp with stop := .l1 }, { wIdle with stop := .l1 }], (later w).warp? 0 0 = some w ∧ w.unready = false ∧ (w.opened = true ∨ w.tick < w.due)) ∧
    flagRoom (wLoad .flag) (flagsOf [some (.ldG { mf with scope := .w }), none]) = true ∧
    waitOf (some (.ldG { mf with scope := .w })) 0 0 (later (wLoad .accept)) = none := by decide +kernel

theorem wit_warp_swaps :
    (let s := two { warp with opened := false, yielded := true } { warp with position := none, opened := false }
     canWarpSwap 0 0 1 s = true ∧ s.warp? 0 0 = some { warp with opened := false, yielded := true } ∧
       s.warp? 0 1 = some { warp with position := none, opened := false }) ∧
    (let s := two { warp with opened := false } { warp with position := none, opened := false }
     canStarvationSwap 0 0 1 s = true ∧ s.warp? 0 0 = some { warp with opened := false } ∧
       s.warp? 0 1 = some { warp with position := none, opened := false }) := by decide +kernel

/-- The block of the grant is gone, or its one warp has ended. -/
theorem wit_warp_frees :
    (later { warp with stop := .ended }).warp? 0 0 = some { warp with stop := .ended, flags := [] } ∧
    (let s : State := { later warp with blocks := [] }
     (s.core 0).grantee = some 0 ∧ (s.core 0).xops = [] ∧ s.block? 0 = none) ∧
    (let s := later { warp with stop := .ended }
     (s.core 0).grantee = some 0 ∧ (s.core 0).xops = [] ∧ s.block? 0 = some fetchBlock ∧ fetchBlock.warps = [0] ∧ fetchBlock.core = 0) := by
  decide +kernel

def before (i : Nat) (armed : Bool) (dl : Option Nat) (o : CSOp) : Warp :=
  { warp with opened := false, tick := 0, stop := .before dl i 5 armed, fetch := dueOp (.mwait o) }
/-- Holds before a bundle: none fetched, one of `wait` whose flags are at 0, and one of `await` whose GEN has moved. -/
def wBefore : Warp := { warp with opened := false, stop := .before none 0 0 false }
def wWait : Warp := { wBefore with fetch := dueOp (.wait cw) }
def wAwait : Warp := { wBefore with fetch := dueOp (.await { csB' 2 5 with d := 0 }) }
def wInv (l : List Nat) : Warp := { warp with hold := some (.icinv l) }
def wBar : Warp := { warp with hold := some (.bar false 3 2 (some 5)) }
def wPoll (b : Nat) : Warp := before 256 false none (csB' 2 b)
theorem wit_holds :
    (∀ w ∈ [wBefore, wWait, wAwait], (later w).warp? 0 0 = some w ∧ w.stop = .before none 0 0 false ∧ w.preempt = false ∧ canHoldEnd 0 0 (later w) = true) ∧
    wWait.dueC = some (.wait cw) ∧ waitMet cw { wWait with tickStart := 20001 } = true ∧ wAwait.dueC = some (.await { csB' 2 5 with d := 0 }) ∧
    (later wAwait).spGet 0 (wAwait.s 2).toNat 16 / 2 ^ 64 % 2 ^ 32 ≠ (wAwait.s 5).toNat % 2 ^ 32 ∧
    (∀ l ∈ [[], [0], [0, 1]], (later (wInv l)).warp? 0 0 = some (wInv l) ∧ (wInv l).stop = .run) ∧
    (later wBar).warp? 0 0 = some wBar ∧ wBar.preempt = false ∧ (5 : Nat) < (later wBar).cycle ∧
    (∀ b ∈ [0, 5], ((later (wPoll b)).core 0).fifoWrites ⟨.hbm, 0x41000⟩ ((later (wPoll b)).core 0).next = false ∧ (wPoll b).preempt = false ∧
      (later (wPoll b)).readsFirst 0 0 (wPoll b) ⟨.hbm, 0x41000⟩ 4 = false) := by decide +kernel
theorem wit_polls : (before 256 true (some 5) (csB' 2 0)).mwaiting = some (csB' 2 0, some 5, 256, 5, true) := by decide +kernel
def polls (b : Nat) : Prop := (wPoll b).mwaiting = some (csB' 2 b, none, 256, 5, false) ∧ (later (wPoll b)).warp? 0 0 = some (wPoll b) ∧
  ((later (wPoll b)).place 0 (wPoll b) .read ((wPoll b).s 2).toNat).map
    (fun q => decide ((later (wPoll b)).localAddr q.1.pa = some q.1.pa.addr)) = some true ∧
  mwaitCond 0 4 ((later (wPoll b)).devGet 0x41000 4) ((wPoll b).s b).toNat = decide (b = 0)
theorem wit_polls_met : polls 0 := by simp only [polls]; decide +kernel
theorem wit_polls_unmet : polls 5 := by simp only [polls]; decide +kernel

def xlOk (r : Except Walk TlbEntry) : Bool := match r with | .ok _ => true | .error _ => false
def warpFetch (pc : DWord) : Warp := { warp with opened := false, stop := .fetch, pc := pc }
def stIc (w : Warp) : State := (later w).modCore 0 fun x => { x with icache := [⟨0, 0x1000, 7⟩], iwant := [(0, 0x1080)], bank := { x.bank with pend := some (1, 2, 3) } }
/-- A warp whose next-line fill of 0x1080 is on its way. -/
def wNext : Warp := { warp with lastLine := some 0x1000, nextWant := some 0x1080 }
def wf (n : Nat) : Warp := warpFetch (BitVec.ofNat 64 n)
theorem wit_fetch :
    (∀ n ∈ [0x1000, 0x1080], (stIc (wf n)).warp? 0 0 = some (wf n) ∧ (wf n).position.isSome ∧ xlOk ((stIc (wf n)).xlate 0 0 0 n .fetch false) = true ∧
      ((stIc (wf n)).core 0).icFind 0 n = if n = 0x1000 then some 7 else none) ∧
    xlOk ((stIc (wf 0x40000)).xlate 0 0 0 0x40000 .fetch false) = false ∧ (stIc warp).ctxOf 0 0 = (0, 0) ∧
    (0, 0x1080) ∈ ((stIc warp).core 0).iwant ∧ xlOk ((stIc warp).xlate 0 0 ((stIc warp).viewOf 0 0) 0x1080 .fetch true) = true ∧
    (stIc warp).localAddr ⟨.hbm, 0x41080⟩ = some 0x41080 ∧ ((stIc warp).core 0).bank.pend = some (1, 2, 3) ∧ (1 : Nat) < (stIc warp).cycle ∧
    (stIc warp).poisonOf 0x41080 128 = none ∧ (stIc wNext).warp? 0 0 = some wNext ∧ wNext.nextWant = some 0x1080 ∧ wNext.lastLine = some 0x1000 := by
  decide +kernel

/-- A handler that asked for a service, and one whose reply is there. -/
def asks (n : Nat) (r : Option (DWord × DWord)) : Warp := { warpH with opened := false, due := 3, hold := some (.sysc n r) }
theorem wit_services :
    (later (asks 1 (some (5, 6)))).warp? 0 0 = some (asks 1 (some (5, 6))) ∧ (asks 1 (some (5, 6))).opened = false ∧
    (asks 1 (some (5, 6))).tick = (asks 1 (some (5, 6))).due ∧ (later (asks 2 (some (5, 6)))).migrated 0 (asks 2 (some (5, 6))) 0x100 = true ∧
    (later (asks 9 none)).boot.swapping = none ∧ (∀ n < 6, (asks n none).asking n = true ∧ (later (asks n none)).asked 0 0 = false) ∧
    (later (asks 3 none)).block? 0 = some fetchBlock ∧ FMap.find (later (asks 3 none)).tasks 0 = some fetchTask ∧
    (later { warp with trap := some trap1 }).asyncOpen 0 0 = false ∧ (later { warp with trap := some trap1 }).speculating 0 = false ∧
    (later (asks 4 none)).monitors = [] ∧ (later { asks 5 none with notified := true }).warp? 0 0 = some { asks 5 none with notified := true } ∧
    Warp.asking { asks 5 none with notified := true } 5 = true ∧ (asks 5 none).notified = false := by decide +kernel


/-! ## Steps of memory -/

/-- The test state with one load of two lanes in flight (lane 0 read), an entry of a store, a marker, a fence, a fill asked for and a host
write under way. -/
def warpA : Warp := { warp with opened := false, flags := [(3, 1)] }
def load1 : AsyncOp := ⟨4, 0, 2, 2, .load, some 3, .v 4, 4, none, none, [⟨2, ⟨.hbm, 0x41010⟩, false, 4, 0, 0⟩], [(0, 9)], none, 0x1000, false, 0⟩
def load2 : AsyncOp := { load1 with id := 5, todo := [] }
def fence1 : AsyncOp := { load1 with id := 6, seq := 1, kind := .fence, dest := .sr 255, acq := some .d, todo := [], got := [] }
def entry1 : FifoEntry := ⟨7, 7, 0, 2, ⟨.hbm, 0x41000⟩, false, none, false, [(0x41020, 5), (0x41021, 0)], [], false, false, 0, false⟩
def marker1 : Marker := ⟨3, 0, 1, .d, none, some 3⟩
def stMem (ops : List AsyncOp) (fifo : List FifoEntry) (ms : List Marker) : State :=
  (at' warpA).modCore 0 fun x => { x with ops := ops, fifo := fifo, markers := ms, next := 9, l1want := [⟨.hbm, 0x41000⟩] }
def entryHost : FifoEntry := { entry1 with line := ⟨.host, 0x1000⟩, bytes := [(0x1000, 5)] }
def entryMs : FifoEntry := { entry1 with line := ⟨.hbm, 0x61000⟩, ms := true, bytes := [(0x61000, 5)] }
/-- A load whose second lane lies at another home, and that load complete in a warp whose tick has begun. -/
def load3 : AsyncOp := { load1 with todo := [⟨2, ⟨.hbm, 0x41010⟩, false, 4, 0, 0⟩, ⟨1, ⟨.hbm, 0x41080⟩, false, 4, 0, 0⟩] }
def stBegun (o : AsyncOp) : State := (at' { warp with flags := [(3, 1)] }).modCore 0 fun x => { x with ops := [o], next := 9 }
/-- Entries whose first of one or two lanes is to be performed. -/
def acc1 (sp : Space) (a : Nat) : LaneAcc := ⟨0, ⟨sp, a⟩, false, 4, 5, 0⟩
def entries1 (sp : Space) (a : Nat) : List FifoEntry :=
  [{ entry1 with line := ⟨sp, a / 128 * 128⟩, lanes := [acc1 sp a] }, { entry1 with line := ⟨sp, a / 128 * 128⟩, lanes := [acc1 sp a, acc1 sp (a + 4)] }]
def loadHost : AsyncOp := { load1 with todo := [⟨2, ⟨.host, 0x1010⟩, false, 4, 0, 0⟩] }
def loadPod : AsyncOp := { load1 with todo := [⟨2, ⟨.pod, 3 * 2 ^ 46⟩, false, 4, 0, 0⟩] }

theorem wit_loads :
    (∀ o ∈ [load1, load3], ((stMem [o] [entry1] []).core 0).op? 4 = some o ∧ o.kind = .load ∧ (stMem [o] [entry1] []).slices = [] ∧
      ∀ a ∈ o.todo, readable ((stMem [o] [entry1] []).core 0) o a = true ∧ (stMem [o] [entry1] []).localAddr a.pa = some a.pa.addr ∧
        entryWrites entry1 a.pa a.n = false) ∧
    load3.todo[1]? = some ⟨1, ⟨.hbm, 0x41080⟩, false, 4, 0, 0⟩ ∧
    (∀ b ∈ load3.todo.take 1, (stMem [load3] [entry1] []).homeOf b.pa b.ms ≠ (stMem [load3] [entry1] []).homeOf ⟨.hbm, 0x41080⟩ false) ∧
    ((stMem [load2] [] []).core 0).op? 5 = some load2 ∧ (stMem [load2] [] []).warp? 0 0 = some warpA ∧ warpA.landed = [] ∧
    (stMem [load2] [] []).begun 0 0 warpA = false ∧ (∀ p ∈ load2.got, p.1 < 1024) ∧
    (load2.got.map (·.1)).Nodup ∧ load2.todo = [] ∧ load2.err = none ∧ load2.dead = false ∧ load2.n = 4 ∧ load2.dest = .v 4 ∧
    ((stBegun load2).core 0).op? 5 = some load2 ∧ (stBegun load2).warp? 0 0 = some { warp with flags := [(3, 1)] } ∧
    (stBegun load2).begun 0 0 { warp with flags := [(3, 1)] } = true := by decide +kernel

/-- A load into a scalar, a fill of a register of zeros, and operations of each kind that failed; the first word of an image in format 0. -/
def loadS : AsyncOp := { load2 with dest := .s 4 }
def fill1 : AsyncOp := { load2 with kind := .fill, n := 32, got := [(0, 0)] }
def failed (k : AsyncKind) : AsyncOp := { load2 with kind := k, err := some 0x2C0 }
theorem wit_landings :
    ((stMem [loadS] [] []).core 0).op? 5 = some loadS ∧ loadS.dest = .s 4 ∧ loadS.got = [(0, 9)] ∧ loadS.err = none ∧ loadS.todo = [] ∧
    ((stMem [fill1] [] []).core 0).op? 5 = some fill1 ∧ FMap.find fill1.got 0 = some 0 ∧ fill1.todo = [] ∧ fill1.acq = none ∧ fill1.n ≤ 1024 ∧
    (∀ k ∈ [AsyncKind.load, .fill, .atomic], ((stMem [failed k] [] []).core 0).op? 5 = some (failed k) ∧ (failed k).acq = none ∧
      ∀ e ∈ ((stMem [failed k] [] []).core 0).fifo, e.op ≠ 5) ∧
    (∀ o ∈ [loadS, fill1], (stMem [o] [] []).warp? 0 0 = some warpA ∧ (stMem [o] [] []).begun 0 0 warpA = false) := by decide +kernel

/-- Walks of 64 pages asked for before that of page 0x40000. -/
def stWalks : State := { st with walks := [(0, (List.range 64).map fun i => walkKey 0 0 0 (65536 * (i + 5)))] }
theorem wit_walk_queue : 64 ≤ (stWalks.walkQueue 0).idxOf (walkKey 0 0 0 0x40000) ∧ (st.walkQueue 0).idxOf (walkKey 0 0 0 0x40000) < 64 := by decide +kernel

/-- An atomic of one lane, and a write of two lanes of one block that the Grinder has. -/
def entryAdd : FifoEntry := { entry1 with line := ⟨.hbm, 0x41000⟩, kind := some .add, lanes := [acc1 .hbm 0x41020] }
def entryGrind : FifoEntry := { entryMs with sent := true, lanes := [acc1 .hbm 0x61000, acc1 .hbm 0x61004, acc1 .hbm 0x61020] }
theorem wit_lanes :
    ((stMem [] [entryAdd] []).core 0).entry? 7 = some entryAdd ∧ canFifoEntryPerform 0 7 (stMem [] [entryAdd] []) = true ∧
    LaneHere (stMem [] [entryAdd] []) .add (acc1 .hbm 0x41020) ∧
    ((stMem [] [entryGrind] []).grindOps (stackOf 0x61000))[0]? = some (.entry 0 entryGrind) ∧
    canGrinderOperation (stackOf 0x61000) 0 (stMem [] [entryGrind] []) = true ∧ ((stMem [] [entryGrind] []).core 0).entry? 7 = some entryGrind ∧
    (∀ a ∈ entryGrind.lanes, LaneHere (stMem [] [entryGrind] []) .xchg a) := by
  have here : ∀ (s : State) k (a : LaneAcc) d, a.x < 2 ^ (8 * a.n) → a.e < 2 ^ (8 * a.n) → k ≠ .fadd → s.localAddr a.pa = some d → d + a.n ≤ Config.hbmBytes →
      s.poisonOf d a.n = none → LaneHere s k a := fun s k a d h1 h2 h3 h4 h5 h6 => ⟨h1, h2, fun h => absurd h h3, d, h4, h5, h6⟩
  refine ⟨by decide +kernel, by decide +kernel, here _ _ _ 0x41020 ?_ ?_ ?_ ?_ ?_ ?_, by decide +kernel, by decide +kernel, by decide +kernel, fun a h => ?_⟩
  any_goals decide +kernel
  have all : ∀ a ∈ entryGrind.lanes, a.x < 2 ^ (8 * a.n) ∧ a.e < 2 ^ (8 * a.n) ∧ (stMem [] [entryGrind] []).localAddr a.pa = some a.pa.addr ∧
      a.pa.addr + a.n ≤ Config.hbmBytes ∧ (stMem [] [entryGrind] []).poisonOf a.pa.addr a.n = none := by decide +kernel
  obtain ⟨h1, h2, h3, h4, h5⟩ := all a h
  exact here _ _ a _ h1 h2 (by decide) h3 h4 h5

/-- A block of a `gred` that waits at the Grinder of its stack. -/
def xop0 (i : Instr) (tile : Bool) (u : CopyUnit) : XOp :=
  { id := 5, slot := 0, block := 0, wseq := 1, instr := i, flag := 1, dst := 0x1000, src := 0x2000, len := 16, len2 := 0, arrive := none,
    sa := ⟨3, 0, 0, 0⟩, sb := ⟨4, 0, 0, 0⟩, stage := .queued, tile := tile, units := [u],
    operands := [], claimA := [], claimB := [], tx := none, ranks := [], finish := 0, steps := 4, evs := 0, err := none, addr := 0x1000, dead := false }
def gred1 : XOp := { xop0 (.gredAdd xc) false ⟨.nowhere, .glob ⟨.hbm, 0x61000⟩ true, 32, 32, some 7, false, false⟩ with stage := .started }
def stGred : State := (at' warpA).modCore 0 fun x => { x with xops := [gred1] }
theorem wit_fifo :
    (∀ e ∈ [entryMs, entryHost], ((stMem [] [e] []).core 0).entry? 7 = some e ∧ canFifoEntryPerform 0 7 (stMem [] [e] []) = true) ∧
    (∀ e ∈ entries1 .hbm 0x41020, ((stMem [] [e] []).core 0).entry? 7 = some e ∧ canFifoEntryPerform 0 7 (stMem [] [e] []) = true ∧
      (stMem [] [e] []).localAddr ⟨.hbm, 0x41020⟩ = some 0x41020 ∧ (stMem [] [e] []).slices = []) ∧
    (∀ e ∈ entries1 .host 0x1000, ((stMem [] [{ e with sent := true }] []).core 0).entry? 7 = some { e with sent := true }) ∧
    ((stMem [] [{ entryMs with sent := true }] []).grindOps (stackOf 0x61000))[0]? = some (.entry 0 { entryMs with sent := true }) ∧
    (stGred.grindOps (stackOf 0x61000))[0]? = some (.block 0 5 0 ⟨.nowhere, .glob ⟨.hbm, 0x61000⟩ true, 32, 32, some 7, false, false⟩) ∧
    canGrinderOperation (stackOf 0x61000) 0 stGred = true ∧ (stGred.core 0).x? 5 = some gred1 ∧ stGred.localAddr ⟨.hbm, 0x61000⟩ = some 0x61000 ∧
    stGred.poisonOf 0x61000 32 = none ∧ stGred.slices = [] := by
  decide +kernel

/-- A landing of the test warp waits for one lane's bytes of the line asked for, and one for those of a line not asked for. -/
def warpW (a : Nat) : Warp := { warpA with flight := [{ landing 1 22 (.v 7) with want := [(0, ⟨.hbm, a⟩), (2, ⟨.hbm, 0x41200⟩)], wn := 4 }] }
def stWant (a : Nat) : State := (at' (warpW a)).modCore 0 fun x => { x with l1want := [⟨.hbm, 0x41000⟩] }
theorem wit_late_lanes : ∀ p ∈ [(0x41004, 0x41000), (0x41104, 0x41100)],
    (stWant p.1).wanted? 0 p.2 = some ⟨.hbm, p.2⟩ ∧ (stWant p.1).localAddr ⟨.hbm, p.2⟩ = some p.2 ∧ ((stWant p.1).core 0).fifo = [] ∧
    (stWant p.1).poisonOf p.2 128 = none ∧ (stWant p.1).warp? 0 0 = some (warpW p.1) ∧ (stWant p.1).acquireOpen 0 0 0 = false ∧
    (stWant p.1).slices = [] ∧ ∀ x ∈ (warpW p.1).flight, x.dest = .v 7 ∧ (x.want.map (·.1)).Nodup := by decide +kernel

theorem wit_releases :
    ((stMem [fence1] [] [marker1]).core 0).marker? 3 = some marker1 ∧ canReleaseComplete 0 3 (stMem [fence1] [] [marker1]) = true ∧
    ((stMem [fence1] [] []).core 0).op? 6 = some fence1 ∧ canAcquireComplete 0 6 (stMem [fence1] [] []) = true ∧ fence1.err = none ∧
    fence1.acq = some .d ∧ ((stMem [] [] []).core 0).want? 0x41000 = some ⟨.hbm, 0x41000⟩ ∧
    (stMem [] [] []).localAddr ⟨.hbm, 0x41000⟩ = some 0x41000 ∧ (stMem [] [] []).poisonOf 0x41000 128 = none := by decide +kernel

/-- Four levels of tables for address space 0, in which virtual 0 is the page at 0x40000 with every right. -/
def tables : List Host.Cell :=
  [(0x100_0000, 1), (0x100_0002, 1), (0x100_0003, 1), (0x101_0000, 1), (0x101_0002, 2), (0x101_0003, 1), (0x102_0000, 1), (0x102_0002, 3),
   (0x102_0003, 1), (0x103_0000, 0x3F), (0x103_0002, 4), (0x7F_F010_0003, 1), (0x7F_F010_0008, 0x80)]
def stTab : State := { (at' warp).modCore 0 fun x => { x with tlb := [] } with hbm := ⟨tables, 0⟩ }
theorem wit_walk : stTab.tlbFind 0 0 0 0x1000 = none ∧ (st.tlbFind 0 0 0 0x1000).isSome ∧ stTab.slices = [] ∧ xlOk (stTab.walk 0 0 0 0x1000 .read true) = true ∧ xlOk (stTab.walk 0 0 0 0x1000 .write true) = true ∧
    (stTab.walkQueue 0).idxOf (walkKey 0 0 0 0x1000) < 64 := by decide +kernel

theorem wit_timeouts :
    ((stMem [loadHost] [] []).core 0).op? 4 = some loadHost ∧ ((stMem [loadHost] [] []).core 0).xops = [] ∧ (∃ a ∈ loadHost.todo, a.pa.space = .host) ∧
    (let s := { stMem [loadPod] [] [] with cycle := 9_000_000 }; (s.core 0).op? 4 = some loadPod ∧ loadPod.since + 9_000_000 ≤ s.cycle) ∧ ((stMem [loadPod] [] []).core 0).podEntries 4 = [] ∧
    (∃ a ∈ loadPod.todo, a.pa.space = .pod ∧ a.pa.addr / 2 ^ 46 ≠ (stMem [] [] []).devid) := by decide +kernel


/-! ## Engines -/

def warpX : Warp := { warp with opened := false, flags := [(1, 1)] }
def xop (i : Instr) (tile : Bool) : XOp := xop0 i tile ⟨.glob ⟨.hbm, 0x41000⟩ false, .sp 0 0x1000, 16, 16, none, false, false⟩
def stX (o : XOp) : State := (at' warpX).modCore 0 fun x => { x with xops := [o], ramp := .moving 4 0 0 }
def copy1 : XOp := { xop (.cpb xc) false with stage := .started }
def cast1 : XOp :=
  { xop (.cpm xc) false with stage := .started, ranks := [0], units := [⟨.sp 0 0x2000, .nowhere, 16, 16, some 7, false, false⟩] }
def cap (n : Nat) (s : State) : StreamCap := (s.core 0).capture n
/-- A plain multiplication of one tile of each of two streams, 2 × 2 elements. -/
def mmaOp : XTOp := { xt with kst := 1, msz := 0, nsz := 0 }
def stMm : State :=
  let s := (stMma 3 3 64).modCore 0 fun x => { x with streams := FMap.set (FMap.set x.streams 14 0x10000) 18 0x10000 }
  s.modCore 0 fun x => { x with ramp := .moving 4 0 0, xops := [{ xop (.tmmaBf16 mmaOp) true with sa := cap 3 s, sb := cap 4 s }] }

theorem wit_copy_start :
    (∀ i ∈ [(.cpb xc : Instr), .tld xc], ((stX (xop i false)).core 0).x? 5 = some (xop i false) ∧ canCopyStart 0 5 (stX (xop i false)) = true) ∧
    (xop (.cpb xc) false).kind = .copy ∧ (xop (.tld xc) false).kind = .tld ∧ (stX (xop (.tld xc) false)).trace = none ∧
    (stX (xop (.tld xc) false)).globPieces (xop (.tld xc) false).units = [(⟨.hbm, 0x41000⟩, 16)] := by decide +kernel

theorem wit_copy :
    ((stX copy1).core 0).x? 5 = some copy1 ∧ copy1.kind = .copy ∧ copy1.units = [⟨.glob ⟨.hbm, 0x41000⟩ false, .sp 0 0x1000, 16, 16, none, false, false⟩] ∧
    (stX copy1).localAddr ⟨.hbm, 0x41000⟩ = some 0x41000 ∧ 0x41000 + 16 ≤ Config.hbmBytes ∧ (stX copy1).poisonOf 0x41000 16 = none ∧
    ((stX copy1).slice (sliceOf 0x41000)).en = false ∧ ((stX copy1).core 0).fifo = [] ∧ writesPending ((stX copy1).core 0) copy1 ⟨.hbm, 0x41000⟩ 16 = false ∧ (stX copy1).warp? 0 0 = some warpX ∧
    ((stX copy1).block? 0).isSome ∧ ((stX cast1).core 0).x? 5 = some cast1 ∧ cast1.kind = .multicast ∧
    (∀ u ∈ cast1.units, u.bad = false ∧ u.data.isSome) ∧ (stX cast1).rankBlock 0 0 = some (0, fetchBlock) := by decide +kernel

theorem wit_tile_engine :
    ((stX (xop (.tzero xt) true)).core 0).tileHead = some (xop (.tzero xt) true) ∧ ((stX (xop (.tzero xt) true)).core 0).ramp = .moving 4 0 0 ∧
    ((stMm.core 0).tileHead).map (fun o => decide (tileTypes o.instr = some (.bf16, .bf16, false) ∧ xtOf o.instr = some mmaOp ∧
      mmaReady (stMm.core 0) o = true)) = some true ∧ (stMm.core 0).ramp = .moving 4 0 0 ∧ tileM mmaOp ≤ 64 ∧ tileN mmaOp ≤ 64 ∧ stMm.faulty = [] ∧
    canTamperGrant 0 (st.modCore 0 fun x => { x with ramp := .requested 0 }) = true ∧
    (({ st with cycle := 20000 }.modCore 0 fun x => { x with ramp := .filler 4 0 0 5 }).core 0).ramp = .filler 4 0 0 5 := by decide +kernel

/-- A copy whose bytes are read, into global memory and into the scratchpad, and a lane of `cpa` of which 16 bytes are read. -/
def unitG : CopyUnit := ⟨.nowhere, .glob ⟨.hbm, 0x41000⟩ false, 16, 16, some 5, false, false⟩
def unitS (off : Nat) : CopyUnit := ⟨.nowhere, .sp 0 off, 16, 16, some 5, false, false⟩
def unitsL : List CopyUnit := [⟨.glob ⟨.hbm, 0x41000⟩ false, .nowhere, 16, 16, some 5, false, false⟩, ⟨.nowhere, .sp 0 0x1000, 32, 32, none, false, false⟩]
def opOf (i : Instr) (tile : Bool) (g : XStage) (us : List CopyUnit) : XOp := { xop i tile with stage := g, units := us }
theorem wit_copy_steps :
    copy1.byUnits = true ∧ (stX copy1).laneFirst copy1 0 = true ∧
    (let o := opOf (.cpb xc) false .started [unitG]; ((stX o).core 0).x? 5 = some o ∧ o.kind = .copy ∧ writable ((stX o).core 0) o ⟨.hbm, 0x41000⟩ 16 = true ∧
      ∀ y ∈ o.units, y.unread = false) ∧
    (let o := opOf (.cpb xc) false .started [unitS 0x1000, unitS 0x1010]; ((stX o).core 0).x? 5 = some o ∧ o.kind = .copy ∧ o.arrive = none ∧
      ((stX o).block? o.block).isSome ∧ ∀ u ∈ o.units, u.bad = false ∧ u.done = false ∧ u.data.isSome) ∧
    (let o := opOf (.cpa xc) false .started unitsL; ((stX o).core 0).x? 5 = some o ∧ (∀ y ∈ o.units.take 1, y.unread = false ∧ y.unwritten = false) ∧
      laneReads o.units 1 = unitsL.take 1 ∧ ∀ y ∈ laneReads o.units 1, y.bad = false) := by decide +kernel
theorem wit_apart : Apart [unitS 0x1000, unitS 0x1010] ∧ ∀ u ∈ [unitS 0x1000, unitS 0x1010], ∃ off, u.dst = .sp 0 off := by
  constructor
  · simp only [Apart, List.pairwise_pair, unitS, Loc.sp.injEq]
    omega
  · simp [unitS]

/-- Tile loads whose tile is there and whose slot is written, tile stores that may start, an `xtile` that may send, and operations that are done. -/
def podPa : Pa := ⟨.pod, 3 * 2 ^ 46 + 0x1000⟩
def opX : XOp := opOf (.xtile xc) false .started [⟨.nowhere, .glob podPa false, 16, 16, some 5, false, false⟩]
theorem wit_tile_moves :
    (let o := { opOf (.tld xc) false .performed copy1.units with claimA := [0] }; ((stX o).core 0).x? 5 = some o ∧ o.kind = .tld ∧ o.err = none ∧
      o.arrive = none ∧ ((stX o).block? o.block).isSome) ∧
    (let o := { opOf (.tld xc) false .written copy1.units with claimA := [0] }; ((stX o).core 0).x? 5 = some o ∧ o.finish ≤ (stX o).cycle ∧
      o.claimA = [ptrTail (((stX o).core 0).strm o.sa.n 2).toNat] ∧ (stX o).trace = none ∧ (stX o).warp? 0 o.slot = some warpX) ∧
    (∀ i ∈ [Instr.tst { xc with ll := 0x40 }, .xtile { xc with ll := 0x40 }], let o := opOf i false .queued [unitG]; ((stX o).core 0).x? 5 = some o ∧ canCopyStart 0 5 (stX o) = true ∧
      (stX o).spFaulty o.block o.src.toNat o.sa.desc.tileBytes = false ∧ o.ringSource = false ∧ (stX o).remote ⟨.hbm, 0x41000⟩ = false) ∧
    ((stX opX).core 0).x? 5 = some opX ∧ opX.kind = .xtile ∧ opX.tx = none ∧ restReady ((stX opX).core 0) opX = true ∧ opX.dstPa = some podPa ∧
    (stX opX).linkCause podPa = none ∧
    (∀ p ∈ [(Instr.tst xc, XStage.performed), (.xtile xc, .sent), (.tdrain xc, .written), (.tstac xc, .performed), (.tmmaBf16 xt, .started),
        (.tzero xt, .started), (.sadv xt, .started), (.sreset xt, .started)],
      let o := opOf p.1 true p.2 [unitG]
      ((stX o).core 0).x? 5 = some o ∧ o.tile = true ∧ o.finish ≤ (stX o).cycle ∧ (stX o).warp? 0 o.slot = some warpX) := by decide +kernel

/-- Operations at the head of the tile engine: a scaled multiplication, a drain and a store of one f32, a saved tile, and steps of a ring of one tile. -/
def stHead (i : Instr) : State := (stX { xop i true with src := 0x101 }).modCore 0 fun x => { x with streams := [(12, 0xF_0100_0000), (13, 0x101_0000_0000), (14, 0x10000)] }
def stMms : State :=
  let s := (stMma 9 9 64).modCore 0 fun x => { x with streams := FMap.set (FMap.set x.streams 14 0x10000) 18 0x10000 }
  s.modCore 0 fun x => { x with ramp := .moving 4 0 0, xops := [{ xop (.tmmasE4m3 mmaOp) true with sa := cap 3 s, sb := cap 4 s }] }
def xcF : XCOp := { xc with gt := 2, ll := 0 }
theorem wit_heads :
    ((stMms.core 0).tileHead).map (fun o => decide (tileTypes o.instr = some (.e4m3, .e4m3, true) ∧ xtOf o.instr = some mmaOp ∧
      mmaReady (stMms.core 0) o = true ∧ (stMms.core 0).x? o.id = some o)) = some true ∧ stMms.trace = none ∧ stMms.faulty = [] ∧
    (∀ i ∈ [Instr.tdrain xcF, .tstac xcF, .tsave xcF, .tload xcF, .sadv { xt with kst := 0 }], let s := stHead i
      (s.core 0).ramp = .moving 4 0 0 ∧ ((s.core 0).tileHead).map (fun o => decide (o.instr = i ∧ (s.core 0).x? o.id = some o)) = some true) ∧
    tyOfCode xcF.gt.toNat = some .f32 ∧ tyBits .f32 * (0x101 / 256 % 128) = 8 * rowLen .f32 (0x101 / 256 % 128) ∧
    (let s := stHead (.sadv { xt with kst := 0 }); ((s.core 0).tileHead).map (fun o => decide (0 + 1 ≤ (s.core 0).present o.sa.n (cap 3 s).desc.len))) = some true := by
  decide +kernel

/-! ## Tile transactions -/

def tx (id ts : Nat) (store : Bool) (p : LockPhase) : Tx := ⟨id, ts, 2 * id, store, 0, 5, none, [(0x820, p)], [], 0, 1, [], ts != 0⟩
def stTx (xs : List Tx) : State := { later warp with txs := xs }
/-- Transaction 1 and sixteen younger ones on its line. -/
def sixteen : List Tx := tx 1 9 true .wanted :: (List.range 16).map fun i => tx (i + 2) (512 * (i + 1)) true .queued
/-- A load behind sixteen loads that hold the line, and a store younger than some of the sixteen. -/
def loads : List Tx := tx 1 9 false .wanted :: (List.range 16).map fun i => tx (i + 2) (512 * (i + 1)) false .granted
def late : List Tx := tx 1 5000 true .wanted :: sixteen.tail

/-- What stands against a transaction on a line. -/
def against (s : State) (x : Tx) : List Tx := (s.onLine 1 0x820).filter fun y => x.store || y.store
/-- A request that finds nobody against it (with room, and without), one that finds a younger store (with a place to wait, and without),
and one that finds an older store (with a place on the line, and without). -/
theorem wit_locks :
    (∀ p ∈ [(stTx [tx 1 0 true .wanted], tx 1 0 true .wanted), (stTx loads, tx 1 9 false .wanted), (stTx late, tx 1 5000 true .wanted),
        (stTx [tx 1 9 true .wanted, tx 2 512 true .granted], tx 1 9 true .wanted), (stTx sixteen, tx 1 9 true .wanted),
        (stTx [tx 1 5000 true .wanted, tx 2 512 true .granted], tx 1 5000 true .wanted)],
      p.1.tx? 1 = some p.2 ∧ FMap.find p.2.lines 0x820 = some .wanted ∧ p.2.resume ≤ p.1.cycle ∧ p.1.mayStamp p.2 = true ∧ p.1.portOrder p.2 = true) ∧
    against (stTx [tx 1 0 true .wanted]) (tx 1 0 true .wanted) = [] ∧ against (stTx loads) (tx 1 9 false .wanted) = [] ∧
    (stTx [tx 1 0 true .wanted]).lockRoom { tx 1 0 true .wanted with ts := (stTx []).clock * 512 + 2, stamped := true } 0x820 = true ∧
    (stTx loads).lockRoom (tx 1 9 false .wanted) 0x820 = false ∧ 16 ≤ ((stTx late).onLine 1 0x820).length ∧
    (∃ y ∈ against (stTx late) (tx 1 5000 true .wanted), y.ts < 5000) ∧ ((stTx [tx 1 5000 true .wanted, tx 2 512 true .granted]).onLine 1 0x820).length < 16 ∧
    against (stTx [tx 1 9 true .wanted, tx 2 512 true .granted]) (tx 1 9 true .wanted) = [tx 2 512 true .granted] ∧
    (stTx [tx 1 9 true .wanted, tx 2 512 true .granted]).queueRoom (tx 1 9 true .wanted) 0x820 = true ∧
    against (stTx sixteen) (tx 1 9 true .wanted) = sixteen.tail ∧ (∀ y ∈ sixteen.tail, 9 < y.ts) ∧
    (stTx sixteen).queueRoom (tx 1 9 true .wanted) 0x820 = false ∧
    against (stTx [tx 1 5000 true .wanted, tx 2 512 true .granted]) (tx 1 5000 true .wanted) = [tx 2 512 true .granted] ∧
    (∀ y ∈ (stTx [tx 1 9 true .queued, tx 2 512 true .queued]).onLine 1 0x820,
      if FMap.find y.lines 0x820 = some .granted then (tx 1 9 true .queued).store = false ∧ y.store = false else (tx 1 9 true .queued).ts ≤ y.ts) ∧
    (0x820, .denied) ∈ (tx 1 9 true .denied).lines ∧ (stTx []).slices = [] := by decide +kernel

/-- A store whose only line is locked, its tile read. -/
def store1 : XOp :=
  { xop (.tst xc) false with stage := .started, tx := some 1, units := [⟨.nowhere, .glob ⟨.hbm, 0x41000⟩ false, 16, 16, some 0x1234, false, false⟩] }
def stStore : State := { (stX store1) with txs := [tx 1 9 true .granted] }
theorem wit_tile_store :
    stStore.tx? 1 = some (tx 1 9 true .granted) ∧ (∀ l ∈ (tx 1 9 true .granted).lines, l.2 = .granted) ∧ (stStore.core 0).x? 5 = some store1 ∧
    stStore.globPieces store1.units = [(⟨.hbm, 0x41000⟩, 16)] ∧ writable (stStore.core 0) store1 ⟨.hbm, 0x41000⟩ 16 = true ∧
    stStore.slices = [] := by decide +kernel


/-! ## The scheduler -/

def rcb0 : Rcb := ⟨0, 0xFFF, 0, false, false, false, 0, 5, 5, 1000000, 0, 0, 0, 0, 0⟩
/-- Device memory with the tables, a ring whose entry names a card at 0x2000 (`e` more), the card, and queue descriptor 0 with WRIDX `wr`. -/
def cardCells (e wr : Byte) : List Host.Cell :=
  (if e = 0 then [] else [(0x41000, e)]) ++ [(0x41001, 0x20), (0x42000, 1), (0x42011, 0x30), (0x42030, 1), (0x42034, 1)] ++ tables.take 11 ++
    [(0x7F_F000_0001, 0x10), (0x7F_F000_0008, 2), (0x7F_F000_0009, 1), (0x7F_F000_001C, wr)] ++ tables.drop 11
def ready : Boot := { Boot.reset with ready := true }
def stQ (e wr : Byte) : State :=
  { State.reset with hbm := ⟨cardCells e wr, 0⟩, rcbs := [(0, rcb0)], queues := [0], boot := ready, objs := [⟨1, 0, 0, 0x3000, 1, 0, 0⟩] }

theorem wit_admit :
    (stQ 0 9).serving = true ∧ ((stQ 0 9).queue 0).state = 1 ∧ 2 ^ ((stQ 0 9).queue 0).log2 < ((stQ 0 9).queue 0).depth ∧
    (stQ 0 9).stopAllows 0 ((stQ 0 9).queue 0).rd = true ∧ (stQ 0 9).qAddr 0 + 64 ≤ Config.hbmBytes ∧
    (stQ 0 9).slices = [] ∧ (stQ 0 1).slices = [] ∧ (stQ 0 1).monitors = [] ∧ (stQ 0 1).trace = none ∧
    canCardAdmit 0 (stQ 0 1) = true ∧ ((stQ 0 1).queue 0).depth ≤ 2 ^ ((stQ 0 1).queue 0).log2 ∧
    (stQ 0 1).vaGet 0 (((stQ 0 1).queue 0).entry 0) 8 = some 0x2000 ∧ canCardAdmit 0 (stQ 1 1) = true ∧
    (stQ 1 1).vaGet 0 (((stQ 1 1).queue 0).entry 0) 8 = some 0x2001 := by decide +kernel

theorem wit_card : (stQ 0 1).aspaceOf ((stQ 0 1).queue 0).rcb = 0 ∧ ((stQ 0 1).vaGet 0 0x2000 128).map (fun h =>
    decide (fieldAt h 2 1 = 0 ∧ fieldAt h 0x10 8 = 0x3000)) = some true ∧ ((stQ 0 1).objOf 0 0x3000).isSome ∧
    ((stQ 0 1).vaGet 0 0x3000 64).isSome ∧ (((stQ 0 1).vaGet 0 0x2000 128).bind fun h =>
      (stQ 0 1).cardError 0 h [] (((stQ 0 1).vaGet 0 0x3000 64).map kernelOf)) = none := by decide +kernel

def stEnq (h : List Host.Cell) : State := ({ stQ 0 1 with hbm := ⟨h, 0⟩ }).modCore 0 fun x => { x with enq := [⟨0, 0x2040, none, 0, 0, 0, false⟩] }
theorem wit_enqueue :
    canEnqueueApply 0 0 (stEnq (cardCells 0 1)) = true ∧ ((stEnq (cardCells 0 1)).vaPut 0 0x1008 8 0x2040).isSome ∧
    canEnqueueApply 0 0 (stEnq [(0x7F_F000_0008, 2)]) = true ∧ ((stEnq [(0x7F_F000_0008, 2)]).vaPut 0 0 8 0x2040).isNone := by decide +kernel

/-- A card with one of its three records dealt, a ready card, and a card that waits. -/
def card1 : Card := { fetchCard with argCount := 3, dealt := 1, tasksDealt := 1, doneFlags := 2, fps := [] }
def stCard (c : Card) (ts : FMap Task) : State := { stQ 0 1 with cards := [c], tasks := ts, nextId := 1, cycle := 5_000_000 }
def wait1 : Task := { fetchTask with placed := false, blocks := [] }
def placeA : Placement := ⟨0, 0, [0], [0x8000]⟩
theorem wit_deal :
    (stCard card1 []).card? 0 = some card1 ∧ canTaskDeal 0 (stCard card1 []) = true ∧ card1.needsView = false ∧
    (stCard card1 []).cardWaits card1 = true ∧ card1.readyAt + Config.agePeriod * (card1.aged + 1) ≤ (stCard card1 []).cycle ∧
    canCardComplete 0 (stCard { card1 with dealt := 3 } []) = true ∧ card1.doneFlags.testBit 1 = true ∧
    canClusterReserve 0 0 (stCard card1 [(0, { wait1 with cluster := true })]) = true ∧ (stQ 0 1).doorQueue 0 0 = some 0 ∧
    (stQ 0 1).queueOf 0 0 = true ∧ (stQ 0 1).slices = [] ∧
    (let s := { stQ 0 1 with funcs := [(1, { Func.reset with doors := [(0, 0)] })] }
     s.doorQueue 1 0 = some 0 ∧ s.queueOf 1 0 = false) := by decide +kernel

/-- Whether an address translates for a write, and both its ends by one page to an address that does not meet the 8 bytes at `b`. -/
def writes (s : State) (va b : Nat) : Bool :=
  match s.walk 0 0 0 va .write true, s.walk 0 0 0 (va + 7) .write true with
  | .ok x, .ok y => x = y && decide (va + 8 ≤ x.va + x.size) && match s.localAddr (x.paOf va) with
    | some a => decide (a + 8 ≤ Config.hbmBytes) && (decide (a + 8 ≤ b) || decide (b + 8 ≤ a))
    | none => false
  | _, _ => false
/-- A card that is complete and writes DONEVAL. -/
def cardD : Card := { card1 with dealt := 3, doneFlags := 1, doneAddr := 0x7000, doneVal := 5 }
theorem wit_done :
    (stCard cardD []).card? 0 = some cardD ∧ canCardComplete 0 (stCard cardD []) = true ∧ cardD.doneFlags.testBit 0 = true ∧ cardD.asid = 0 ∧
    writes (stCard cardD []) 0x7000 ((stCard cardD []).qAddr 0 + 0x20) = true ∧ (stCard cardD []).qAddr 0 + 64 ≤ Config.hbmBytes ∧
    0 ∈ (stQ 0 1).queues ∧ ((stQ 0 1).func 0).d3hot = false := by decide +kernel

def stGang : State := stCard card1 [(0, wait1)]
def savedA : SavedBlock := ⟨fetchBlock, 0x4000, [(0, { warp with stop := .stopped, opened := false })], [], [], [], false, false, 0⟩
def stSaved : State := stCard card1 [(0, { wait1 with saved := [savedA] })]
/-- The test state with the block's one warp stopped for pre-emption, and with its warp gone. -/
def stStop : State := { at' { warp with stop := .stopped, opened := false, preempt := true } with blocks := [(0, { fetchBlock with preempt := true })] }
def stGone : State := { (st.modCore 0 fun x => { x with warps := [] }) with blocks := [(0, { fetchBlock with warps := [] })] }
theorem wit_gangs :
    FMap.find stGang.tasks 0 = some wait1 ∧ stGang.card? 0 = some card1 ∧ canGangPlace 0 [placeA] stGang = true ∧ stGang.trace = none ∧
    placeA.slots[0]? = some 0 ∧ card1.kernel.roleList[0]? = some ⟨0, 0, 1, 128, 1⟩ ∧ canTaskComplete 0 stGone = true ∧
    st.block? 0 = some fetchBlock ∧ FMap.find st.tasks 0 = some fetchTask ∧ fetchTask.killed = false ∧ st.holdsTrap 0 = false ∧
    canBlockContextSave 0 0x4000 stStop = true ∧ (stStop.cardOfBlock 0).isSome ∧ FMap.find stSaved.tasks 0 = some { wait1 with saved := [savedA] } ∧
    canBlockResume 0 [placeA] stSaved = true ∧ fetchCard.user.length = 4 ∧
    0 < ((st.modCore 0 fun x => { x with clearing := [(0, 2048)] }).core 0).clearing.length := by decide +kernel


/-! ## Speculation -/

/-- A producer of a predictable region and a card that reads its draft; the region's descriptor lies at 0x6000. -/
def fpW : Footprint := ⟨0x5000, 64, false, true, true, 0, 0xFF, 0, 0, 0x6000⟩
def fpR : Footprint := ⟨0x5000, 64, true, false, true, 0, 0, 0, 2 ^ 31, 0x6000⟩
def prod : Card := { fetchCard with fps := [fpW] }
def cons : Card := { fetchCard with id := 1, fps := [fpR], edges := [0], dealt := 0, tasksDealt := 0 }
def rcbS : Rcb := { rcb0 with spec := true, depth := 2 }
def stSpec (cs : List Card) : State :=
  { stQ 0 1 with
    hbm := ⟨(cardCells 0 1).take 5 ++ [(0x46008, 64), (0x4602A, 1)] ++ (cardCells 0 1).drop 5, 0⟩, rcbs := [(0, rcbS)], cards := cs,
    pools := [(0, ⟨0x1000_0000, 0x20000, []⟩)], nextId := 2 }
theorem wit_speculation :
    (stSpec [prod, cons]).card? 1 = some cons ∧ canSpecLaunch 1 (stSpec [prod, cons]) = true ∧ (stSpec [prod, cons]).trace = none ∧
    (stSpec [prod, { cons with spec := .drafting }]).card? 1 = some { cons with spec := .drafting } ∧
    (stSpec [{ prod with ringCopy := true }]).card? 0 = some { prod with ringCopy := true } ∧ Card.ready { prod with ringCopy := true } = true ∧
    canProducerCommit 0 (stSpec [prod, cons]) = true ∧ canSpecCommit 1 (stSpec [{ cons with spec := .running }]) = true ∧
    (stSpec [{ cons with spec := .running }]).card? 1 = some { cons with spec := .running } ∧
    Card.speculating { cons with spec := .running, failed := true } = true := by decide +kernel

/-- The consumer with a region of its own that it writes, a producer that has run and the card it is chained to, and a consumer whose draft is to be written. -/
def consW : Card := { cons with fps := [fpR, { fpW with base := 0x7000 }] }
def ran : Card := { prod with fps := [{ fpW with pred := false }], spec := .running, depth := 1, views := [(0, 1)] }
def consC : Card := { cons with fps := [{ fpR with pred := false }] }
def stChain : State := { stSpec [ran, consC] with overrides := [⟨0, 1, 0, 65536, 0x1000_0000⟩] }
def draft1 : Draft := ⟨0x46000, 0, 0, 0x1000_0000, 65536, 0, false⟩
def consD : Card := { cons with spec := .drafting, drafts := [(0, 0)] }
def stDraft : State := { stSpec [prod, consD] with drafts := [draft1] }
theorem wit_launches :
    (∀ k ∈ [cons, consW], canSpecLaunch 1 (stSpec [prod, k]) = true ∧ 0 ∈ (stSpec [prod, k]).draftFps k ∧ k.fps[0]? = some fpR ∧ k.views = [] ∧
      (stSpec [prod, k]).vaPa 0 fpR.vrd = some 0x46000 ∧ (stSpec [prod, k]).vrd? 0 fpR = some (vrdOf ((stSpec [prod, k]).devGet 0x46000 64)) ∧
      k.rcb + 0x48 ≤ Config.hbmBytes) ∧
    (∃ f ∈ consW.fps, f.pred = true ∧ f.wr = true ∧ ((stSpec [prod, consW]).vrd? 0 f).map (fun r => r.buf[(r.cur + 1) % 3]?) = some (some 0)) ∧
    canSpecLaunch 1 stChain = true ∧ (ran, some .chained) ∈ stChain.sources consC ∧ FMap.find ran.views 0 = some 1 ∧
    (∃ o ∈ stChain.overrides, o.die = 0 ∧ o.view = 1 ∧ ∃ f ∈ ran.fps, f.wr = true ∧ overlap o.va o.size (f.base % 2 ^ 52) f.bytes = true) ∧
    stDraft.card? 1 = some consD ∧ (consD.drafts.filterMap fun i => (stDraft.draftOf consD i.1).map (·.2)) = [draft1] ∧
    (let v := vrdOf (stDraft.devGet 0x46000 64); v.bytes % vrdElem v.fmt = 0 ∧ draft1.page + v.span ≤ Config.hbmBytes ∧ 0 < v.bytes ∧ v.bytes < v.span) ∧
    (let k := { prod with fps := [{ fpW with rd := true }], ringCopy := true }
     (stSpec [k]).card? 0 = some k ∧ k.ready = true ∧ (k.fps.filter fun f => f.pred && f.rd && f.wr) = [{ fpW with rd := true }] ∧
       ((stSpec [k]).vrd? 0 { fpW with rd := true }).map (fun v => (v.buf[v.cur]?, v.buf[(v.cur + 1) % 3]?)) = some (some 0, some 0)) ∧
    (stSpec [prod, cons]).card? 0 = some prod ∧ prod.finished = false ∧ (∃ f ∈ prod.fps, f.pred = true ∧ f.wr = true) ∧ prod.ringCopy = false ∧
    (stSpec [prod, cons]).tasksDone prod = true ∧ prod.spec = .plain := by decide +kernel

/-- A speculative card with one shadow page, one with a held enqueue, and a warp of one that holds a trap until the commit. -/
def shadow1 : Shadow := ⟨0, 65536, 0x1000_0000, 0x40000⟩
def cardS : Card := { fetchCard with spec := .running, views := [(0, 1)], shadows := [shadow1] }
def cardB : Card := { fetchCard with spec := .running, buffered := [⟨0, 0x2040, none, 0, 0, 0, false⟩] }
def stHeld : State := { at' { warp with opened := false, stop := .trap, trap := some trap1 } with cards := [{ cardS with shadows := [] }] }
theorem wit_commits :
    (∀ k ∈ [cardS, cardB], (stSpec [k]).card? 0 = some k ∧ k.spec = .running ∧ k.failed = false ∧ k.drafts = [] ∧ k.chained = [] ∧
      (stSpec [k]).shoots = [] ∧ k.rcb + 0x58 ≤ Config.hbmBytes) ∧
    ((stSpec [cardS]).walk 0 0 0 (shadow1.va + shadow1.va / 2 ^ 51 * (2 ^ 64 - 2 ^ 52)) .write true).toOption.map
      (fun x => (stSpec [cardS]).localAddr (x.paOf shadow1.va)) = some (some 0x40000) ∧
    0x40000 + shadow1.size ≤ Config.hbmBytes ∧ cardS.rcb + 0x50 ≤ 0x40000 ∧ 0x40000 + shadow1.size ≤ shadow1.page ∧ cardS.buffered = [] ∧
    cardB.shadows = [] ∧ (stSpec [cardB]).bufferedFree ⟨0, 0x2040, none, 0, 0, 0, false⟩ = true ∧
    ((stSpec [cardB]).queue 0).entry ((stSpec [cardB]).queue 0).wr = 0x1008 ∧ (stSpec [cardB]).qAddr 0 + 64 ≤ Config.hbmBytes ∧
    writes (stSpec [cardB]) 0x1008 ((stSpec [cardB]).qAddr 0 + 0x18) = true ∧ (stSpec [cardB]).vaPa 0 0x1008 = some 0x41008 ∧
    cardB.rcb + 0x50 ≤ 0x41008 ∧ cardB.rcb + 0x50 ≤ (stSpec [cardB]).qAddr 0 + 0x1C ∧
    (stHeld.warp? 0 0).map (fun w => (w.trap.isSome, (stHeld.cardOfBlock w.block).map (·.id))) = some (true, some 0) ∧ stHeld.asyncOpen 0 0 = false ∧
    (stSpec [{ cardS with failed := true }]).card? 0 = some { cardS with failed := true } := by decide +kernel

/-- The place of the region's descriptor, and what a flip writes of it. -/
def vrdAt : Nat := 0x46000
/-- One region of one page, whose leaf lies at 0x1030000: whatever is written of the descriptor's CUR, HIST and VERSION, the tables stand. -/
theorem wit_flip :
    let s := stSpec [prod, cons]
    s.vrd? 0 fpW = some ⟨0, 64, [0, 0, 0], 0, 0, 1, 0, 0⟩ ∧ ([0, 0, 0] : List Nat)[(0 + 1) % 3]? = some 0 ∧
    (∀ m : Memory, (∀ x, ¬ (vrdAt + 0x29 ≤ x ∧ x < vrdAt + 0x38) → m.byte x = s.hbm.byte x) →
      let u := { s with hbm := m }
      u.root 0 = some 0x100_0000 ∧ (∀ off ∈ [0x29, 0x2A, 0x30], u.vaPa 0 (fpW.vrd + off) = some (vrdAt + off)) ∧
        u.leafAt 0 4 0 0x100_0000 = some 0x103_0000) ∧
    0x103_0000 + 8 ≤ Config.hbmBytes ∧ vrdAt + 0x38 ≤ 0x103_0000 ∧ 0 + 65536 ≤ Config.hbmBytes := by
  refine ⟨by decide +kernel, rfl, fun m hb => ?_, by decide, by decide, by decide⟩
  have hd : ∀ x n, (x + n ≤ 0x46029 ∨ 0x46038 ≤ x) → ({ stSpec [prod, cons] with hbm := m } : State).devGet x n = (stSpec [prod, cons]).devGet x n :=
    fun x n h => State.devGet_congr _ m x n fun i hi => hb _ (by simp only [vrdAt]; omega)
  have hm : ({ stSpec [prod, cons] with hbm := m } : State).msBit = (stSpec [prod, cons]).msBit := by
    funext p
    have : (stSpec [prod, cons]).fw.msmap = 0x7F_F020_0000 := by decide +kernel
    simp only [State.msBit]
    rw [hd _ _ (.inr (by show _ ≤ (stSpec [prod, cons]).fw.msmap + _; omega))]
  have hr : ({ stSpec [prod, cons] with hbm := m } : State).root 0 = (stSpec [prod, cons]).root 0 := by
    simp only [State.root]
    rw [hd _ _ (.inr (by decide +kernel)), hd _ _ (.inr (by decide +kernel))]
  have hw : ∀ off ∈ [0x29, 0x2A, 0x30], ∀ tb, (stSpec [prod, cons]).root 0 = some tb →
      ∀ a ∈ (stSpec [prod, cons]).walkReads ((fpW.vrd + off) % 2 ^ 52) 4 0 tb, 0x46038 ≤ a := by decide +kernel
  refine ⟨hr.trans (by decide +kernel), fun off ho => ?_, ?_⟩
  · have := (by decide +kernel : ∀ off ∈ [0x29, 0x2A, 0x30], (stSpec [prod, cons]).vaPa 0 (fpW.vrd + off) = some (vrdAt + off)) off ho
    rw [← this]
    simp only [State.vaPa, State.walk_congr hm hr rfl (fun tb h a ha => hd a 8 (.inr (hw off ho tb h a ha))) 0 0 .read true]
    rfl
  · rw [State.leafAt_congr 0 hm 4 0 _ fun a ha => hd a 8 (.inr ?_)]
    · decide +kernel
    · exact (by decide +kernel : ∀ a ∈ (stSpec [prod, cons]).walkReads 0 4 0 0x100_0000, 0x46038 ≤ a) a ha

/-- A speculative card's warp that waits for a shadow page of the page it stores to; with an empty pool. -/
def warpSh : Warp := { warp with opened := false, stop := .accept, fetch := [(0x1000, encodeBundle ⟨1, false, false, false, false⟩ none (some (.stG { mf with scope := .w })) none none)] }
def cardSh : Card := { fetchCard with spec := .running, views := [(0, 1)] }
def stSh (pool : Nat) : State :=
  { (at' warpSh).modCore 0 fun x => { x with tlb := [] } with hbm := ⟨tables, 0⟩, cards := [cardSh], pools := [(0, ⟨0x1000_0000, pool, []⟩)] }
theorem wit_shadow :
    (∀ n ∈ [0, 0x10000], (stSh n).warp? 0 0 = some warpSh ∧ (stSh n).cardOfBlock warpSh.block = some cardSh ∧
      (stSh n).shadowWanted 0 0 warpSh = some 0x1000 ∧ (stSh n).ctxOf warpSh.block 0 = (0, 1) ∧ xlOk ((stSh n).walk 0 0 1 0x1000 .write true) = true ∧
      xlOk ((stSh n).walk 0 0 0 0x1000 .write true) = true ∧ ((stSh n).poolTake 0 0x10000 0x10000).isSome = decide (n = 0x10000)) ∧
    0x1000_0000 + 0x10000 ≤ Config.hbmBytes := by decide +kernel

def stShoot : State := { stQ 0 1 with shoots := [⟨1, some 0, 0, none, 0, 65536, [], []⟩] }
theorem wit_shoot : stShoot.shoots[0]? = some ⟨1, some 0, 0, none, 0, 65536, [], []⟩ := by decide +kernel

/-! ## Mailboxes -/

/-- MBOXDATA of a command with its arguments, and a state in which function 0 has issued it. -/
def box (op : Nat) (as : List Nat) : Nat := op + as.zipIdx.foldl (fun n a => n + a.1 * 2 ^ (64 * (a.2 + 1))) 0
def withBox (s : State) (op : Nat) (as : List Nat) : State := { s with funcs := [(0, { Func.reset with busy := true, data := box op as })] }
def stBox (op : Nat) (as : List Nat) : State := withBox (stQ 0 1) op as
theorem wit_commands :
    (∀ op ∈ [1, 2, 3, 4, 5, 6, 7, 8, 9, 10, 11, 12, 13, 14, 16, 17, 18, 19, 20, 21, 22], Waits (stBox op []) 0 op ∧ (stBox op []).refusal 0 op = none ∧
      Waits (withBox State.reset op []) 0 op ∧ (op ≠ 1 → op ≠ 19 → op ≠ 21 → (withBox State.reset op []).refusal 0 op = some 5)) := by
  simp only [Waits]; decide +kernel

theorem wit_arguments :
    143 < ((stBox 2 [144]).func 0).arg 1 ∧ ((stBox 2 [5, 6, 7, 8]).func 0).arg 1 ≤ 143 ∧
    ((stBox 3 [0, 0x100_0000]).func 0).arg 2 % 65536 = 0 ∧ (stBox 3 [0, 0x100_0000]).ownsAsid 0 0 = true ∧
    (stBox 3 []).fw.aspaces + 65536 ≤ Config.hbmBytes ∧ ((stBox 6 [0, 2]).func 0).arg 2 ≤ 2 ∧ (stBox 6 [0, 2]).ownsQueue 0 0 = true ∧
    ((stBox 6 [0, 2]).queue 0).state ≠ 3 ∧ ((stBox 7 [5]).func 0).arg 1 = 5 ∧ FMap.find (stBox 7 [5]).rcbs 5 = none ∧
    (stBox 9 [0]).domainRoot (((stBox 9 [0]).func 0).arg 1) = some 0 ∧ (stBox 9 [0]).ownsRegion 0 0 = true ∧
    ((stBox 11 [0, 5]).func 0).arg 1 ≤ 4095 ∧ ((stBox 16 [0, 0, 65536]).func 0).arg 3 % 65536 = 0 ∧ FMap.find (stBox 16 [0, 0, 65536]).pools 0 = none ∧
    ((stBox 18 [0, 4096]).func 0).arg 2 % 4096 = 0 ∧ ((stBox 21 [1]).func 0).arg 1 = 1 ∧ ((stBox 22 [0, 65536, 1]).func 0).arg 2 = 65536 ∧
    (stBox 22 []).fw.msmap + 2 ^ 20 ≤ Config.hbmBytes := by decide +kernel

/-- A queue descriptor to bind at 0x47000. -/
def stBind : State := { stBox 5 [1, 0x47000] with hbm := ⟨(cardCells 0 1).take 5 ++ [(0x47008, 4)] ++ (cardCells 0 1).drop 5, 0⟩ }
/-- A region image in host memory. -/
def imageHost : List Host.Cell := (List.range 128).map fun i => (0x1000 + i, if i = 8 then 0xFF else if i = 9 then 0x0F else 0)
def stRefresh : State := { stBox 7 [128, 0x1000] with host := imageHost, rcbs := [(0, rcb0), (128, rcb0)] }
/-- A virtual function's refresh of a region whose image names no parent. -/
def stVf (a : Nat) : State :=
  { stQ 0 1 with funcs := [(1, { Func.reset with busy := true, data := box 7 [a, 0x1000] })], host := imageHost, rcbs := [(0, rcb0), (128, { rcb0 with owner := 1 })] }
def stReply : State := { stQ 0 1 with funcs := [(0, { Func.reset with busy := true, data := box 8 [3, 1], asked := [(3, (0, 0))] })] }
theorem wit_effects :
    stBind.queueOk 1 (stBind.devGet 0x47000 64) = true ∧ stBind.ownsRegion 0 (fieldAt (stBind.devGet 0x47000 64) 0x10 8) = true ∧
    (stBind.queue 1).rcb = 0 ∧ FMap.find stRefresh.rcbs 128 = some rcb0 ∧ rcbRanges (stRefresh.hostGet 0x1000 128) = true ∧
    treeOk (FMap.set stRefresh.rcbs 128 (rcbOf (stRefresh.hostGet 0x1000 128) 0)) = true ∧
    (∀ a ∈ [0, 128], Waits (stVf a) 1 7 ∧ (stVf a).refusal 1 7 = none ∧ (a = 0 ∨ (FMap.find (stVf a).rcbs a).isSome) ∧
      fieldAt ((stVf a).hostGet (((stVf a).func 1).arg 2) 128) 0 8 = 0) ∧
    FMap.find (stReply.func 0).asked ((stReply.func 0).arg 1) = some (0, 0) ∧ (stReply.func 0).arg 2 ≤ 2 ∧
    (withBox st 10 [0, 0]).warp? 0 0 = some warp ∧ (withBox st 10 [0, 0]).ownsAsid 0 0 = true ∧
    ((stBox 14 [1]).objs.find? fun o => o.handle = ((stBox 14 [1]).func 0).arg 1).isSome ∧ (∀ p ∈ (stBox 14 [1]).objs, (stBox 14 [1]).objUsed p = false) ∧
    (let s := { stQ 0 1 with debugStops := [(0, 0xFFFF_FFFF)] }; s.stopAllows 0 (s.queue 0).rd) = false := by
  simp only [Waits]; decide +kernel


/-! ## Firmware images, registers, links and errors -/

/-- An unsigned HXO object of one empty bundle and its DRAIN section, at 0x8000 of address space 0. -/
def objCells : List Host.Cell :=
  [(0x48000, 0x48), (0x48001, 0x58), (0x48002, 0x4F), (0x48003, 0x31), (0x48004, 1), (0x48006, 1), (0x48010, 2), (0x48018, 64),
   (0x48040, 1), (0x48048, 128), (0x48050, 32), (0x48058, 1), (0x48060, 5), (0x48068, 160), (0x48070, 1), (0x48078, 1)]
def stObj (cells : List Host.Cell) : State := { stBox 13 [0, 0x8000, 161, 0] with hbm := ⟨(cardCells 0 1).take 5 ++ cells ++ (cardCells 0 1).drop 5, 0⟩ }
def objErr (s : State) : Option (Option (Nat × Bool)) := (s.object 0 0x8000 161).map fun img =>
  objectError Config.vendorKeyHash s.boot.svc (s.tsigOf 0) (fieldAt (s.devGet (s.tkeyOf 0) 64) 0 32) img 161
theorem wit_object : objErr (stObj objCells) = some none ∧ objErr (stObj []) = some (some (72, false)) ∧ (stObj objCells).ownsRegion 0 0 = true ∧
    (FMap.find (stObj objCells).rcbs 0).isSome := by decide +kernel

def stIdent (n : Nat) : State := { stBox 12 [] with boot := { ready with ident := true, reports := n } }
def image1 : Image := ⟨0, 3, false, 5, 0, 0⟩
def stSwap : State := { stBox 20 [] with boot := { ready with images := [(4, image1)] } }
theorem wit_firmware :
    (stBox 12 []).boot.ident = false ∧ (stIdent 5).boot.ident = true ∧ (stIdent 5).boot.reports < 1024 ∧ 1024 ≤ (stIdent 1024).boot.reports ∧
    (stBox 19 [0x50000, 64, 1]).boot.ready = true ∧ ((stBox 19 [0x50000, 64, 1]).func 0).arg 3 ≠ (stBox 19 []).boot.slot ∧
    imageOk Config.vendorKeyHash 0 ((stBox 19 [0x50000, 64, 1]).devGet 0x50000 64) 64 = false ∧ (stBox 19 []).slices = [] ∧
    (stBox 19 []).slotArea 1 0 + 64 ≤ Config.hbmBytes ∧ FMap.find (stBox 20 []).boot.images 4 = none ∧
    FMap.find stSwap.boot.images 4 ≠ none ∧ (let s := { State.reset with cps := [(2, { Cp.reset with req := true })] }
      decide ((s.cp 2).req = true ∧ (s.cp 2).ack = false ∧ (s.cp 3).ack = false)) = true ∧
    (let b := { ready with swapping := some 1 }; decide (b.swapping = some 1 ∧ b.since + 11_250_000 ≤ 12_000_000)) = true := by decide +kernel

def stReg : State :=
  { State.reset with cps := [(1, { Cp.reset with mode := 1 }), (2, { Cp.reset with doors := [5], mbox := [1] })],
                     funcs := [(1, { Func.reset with data := 1 })], rcbs := [(0x1000, rcb0)] }
def stSlot : State := { stBox 1 [] with funcs := [(0, { Func.reset with evtbase := 0x10001, held := [⟨4, 0, 0, [], none⟩] })] }
theorem wit_registers :
    (stReg.cp 2).doors = [5] ∧ (stReg.cp 3).doors = [] ∧ (stReg.cp 2).mbox = [1] ∧ (∀ n ∈ [2, 3], (stReg.cp n).mode = 3) ∧ (stReg.cp 1).mode < 3 ∧
    (let s := { stReg with funcs := [(1, { Func.reset with d3hot := true })] }; (s.func 1).d3hot = true) ∧ (stReg.func 1).d3hot = false ∧
    (stReg.func 1).busy = false ∧ mboxOpcode (stReg.func 1).opcode = true ∧
    ((stBox 1 []).func 0).busy = true ∧ 8 % 16 + 8 ≤ 16 ∧ (stReg.func 0).d3hot = false ∧ 0x1008 + 8 ≤ 2 ^ ((stReg.func 0).barSize + 20) ∧
    (∃ r ∈ stReg.rcbs, stReg.bar2 * 2 ^ 30 + 0x1008 < r.1 + 128 ∧ r.1 < stReg.bar2 * 2 ^ 30 + 0x1008 + 8) ∧
    (∀ r ∈ stReg.rcbs, r.1 + 128 ≤ stReg.bar2 * 2 ^ 30 + 8 ∨ stReg.bar2 * 2 ^ 30 + 8 + 8 ≤ r.1) ∧
    stReg.bar2 * 2 ^ 30 + 8 + 8 ≤ Config.hbmBytes ∧ stReg.slices = [] ∧
    (State.reset.cp 3).timecmp ≤ State.reset.cycle * 2 / 45 ∧ (State.reset.cp 3).mip.testBit 7 = false := by decide +kernel

/-- A slot whose word 0 in host memory is 0 is free. -/
theorem wit_event_slot : let s := { stSlot with host := (List.range 8).map fun i => (0x10000 + i, 0) }
    (s.func 0).held = [⟨4, 0, 0, [], none⟩] ∧ s.slotFree 0 = true ∧ s.boot.swapping = none := by simp only []; decide +kernel

def req1 (k : PodKind) : PodRequest := ⟨3, k, 0x1000, 4, 0x1234, 15⟩
def stPod (allow : Nat) : State := { State.reset with podallow := allow, reasm := [(8 * 2 + 1, ⟨3, 7, [(0x1000, 4, 5)], 0⟩)], cycle := 9_000_000 }
/-- A tile just begun, of one row. -/
def stFresh (a : Nat) : State := { State.reset with reasm := [(8 * 2 + 1, ⟨3, 7, [(a, 4, 5)], 0⟩)] }
theorem wit_links :
    (stPod 0).portUp 2 = true ∧ (stPod 0).podAllows (req1 .read).src = false ∧ (stPod 8).podAllows (req1 .read).src = true ∧
    (req1 .read).addr + (req1 .read).len ≤ Config.hbmBytes ∧ Config.hbmBytes < { req1 .write with addr := 0x80_0000_0000 }.addr + 4 ∧
    (stPod 8).poisonOf 0x1000 4 = none ∧ (stPod 8).slices = [] ∧ FMap.find (stPod 8).reasm (8 * 2 + 1) = some ⟨3, 7, [(0x1000, 4, 5)], 0⟩ ∧
    (0 : Nat) + 9_000_000 ≤ (stPod 8).cycle ∧
    (∀ a ∈ [0x1000, 0x80_0000_0000], FMap.find (stFresh a).reasm (8 * 2 + 1) = some ⟨3, 7, [(a, 4, 5)], 0⟩ ∧ (stFresh a).cycle < 0 + 9_000_000 ∧
      (stFresh a).rowOk (a, 4, 5) = decide (a = 0x1000)) := by decide +kernel

theorem wit_ladder :
    { State.reset with boot := { Boot.reset with req := some true } }.boot.req = some true ∧ (stQ 0 1).domainRoot 0 = some 0 ∧
    (∀ d, { State.reset with l2 := [(sliceOf 0x200, [(4, d)])] }.l2Find 4 = some d) ∧ ErrSite.scrubbed (.hbm 5) = true ∧ ErrSite.scrubbed (.l1 0 5) = false ∧ (0x302 : Nat) ≠ 0x300 ∧ (0x302 : Nat) ≠ 0x301 ∧
    (let s := { stX { xop (.cpb xc) false with stage := .started } with cycle := 900_000_000_000, rcbs := [(0, rcb0)] }
     s.domainRoot 0 = some 0 ∧ 0x300 ∈ s.hung 0) ∧
    (let s := { stQ 0 1 with cycle := 225_000_000, rung1 := [(0, 5)] }
     s.boot.ready = true ∧ (s.cp 0).beat + 225_000_000 ≤ s.cycle ∧ ∀ m, FMap.find s.rung1 0 = some m → m + 22_500_000 ≤ s.cycle) ∧
    FMap.find (stQ 0 1).rung 3 = none ∧ ((stBox 1 []).func 0).busy = true ∧ (stQ 0 1).dump = none := by decide +kernel

/-! ## Bundles -/

/-- A bundle of one slot due at a warp, one whose header is illegal, and one whose M slot does not decode. -/
def va : VOp := { vo with c := .v 0 }
def bunAdd : Nat := encodeBundle ⟨1, false, false, false, false⟩ (some (.vadd va)) none none none
def bunWarp (x : Nat) : Warp := { warp with opened := false, due := 3, fetch := [(0x1000, x)] }
def bunOf (x : Nat) : Bundle := decodeBundle (x % 2 ^ 256)
def stBun (x : Nat) : State := { at' (bunWarp x) with agenda := [(0, .bundleIssue 0 0)], cycle := 10 }
theorem wit_bundle :
    (stBun bunAdd).agenda = [(0, .bundleIssue 0 0)] ∧ due (stBun bunAdd) = none ∧ (stBun bunAdd).warp? 0 0 = some (bunWarp bunAdd) ∧
    canBundleIssue 0 0 (stBun bunAdd) = true ∧ decodeFail (bunWarp bunAdd) (bunOf bunAdd) = none ∧
    (let s := { stBun bunAdd with agenda := [(3, .bundleIssue 0 0)] }; due s = none) ∧
    (bunWarp bunAdd).suppressed (bunOf bunAdd).hdr = false ∧ (bunWarp bunAdd).replay = none := by decide +kernel

theorem due_of {w : Warp} {x : Nat} (h : w.fetched = some x ∧ w.deferred = [] ∧ w.hold = none ∧ w.unready = false ∧ w.flight = [] ∧
    w.preempt = false ∧ w.halt = false ∧ (stretchTicks (w.opsOf (decodeBundle x)).v = 0 ∨ w.stretched = true)) : Due w (decodeBundle x) :=
  ⟨h.2.1, h.2.2.1, h.2.2.2.1, ⟨x, h.1, rfl⟩, fun _ => ⟨h.2.2.2.2.1, h.2.2.2.2.2.1, fun e => absurd e (by simp [h.2.2.2.2.2.2.1])⟩, h.2.2.2.2.2.2.2⟩

theorem wit_bundle_due : Due (bunWarp bunAdd) (bunOf bunAdd) ∧ Only (bunOf bunAdd) (.vadd va) :=
  ⟨due_of (by decide +kernel), ⟨by decide +kernel, by decide +kernel, by decide +kernel, by decide +kernel⟩⟩

def bunBad : Nat := encodeBundle ⟨1, false, false, false, false⟩ none (some (.stG mo)) none none
def bunIll : Nat := 2 ^ 30 - 1
/-- The bundle again, after a return that issues every slot, none, or the M slot alone. -/
def bunBack (x : Nat) (r : Option Nat) : Warp := { bunWarp x with replay := r }
def stBack (x : Nat) (r : Option Nat) : State := { stBun x with cores := [(0, { (stBun x).core 0 with warps := [(0, bunBack x r)] })] }
theorem wit_decode_failures :
    (∀ x ∈ [bunBad, bunIll], ∀ r ∈ [none, some 0, some 2],
      (stBack x r).warp? 0 0 = some (bunBack x r) ∧ canBundleIssue 0 0 (stBack x r) = true ∧ Due (bunBack x r) (bunOf x)) ∧
    (bunOf bunIll).illegal = true ∧ (bunOf bunBad).illegal = false ∧ (bunOf bunBad).v = .absent ∧ (bunOf bunBad).m = .bad .reserved ∧
    (∀ r ∈ [none, some 2], (bunBack bunBad r).replays 1 = true) ∧ ¬ SlotFails (bunBack bunBad none) 0 .absent 0x49 ∧
    SlotFails (bunBack bunBad none) 1 (.bad .reserved) 0x4A := by
  refine ⟨fun x hx r hr => ⟨?_, ?_, due_of ?_⟩, by decide +kernel, by decide +kernel, by decide +kernel, by decide +kernel, by decide +kernel, id, rfl⟩ <;>
    revert x r <;> decide +kernel

theorem wit_round_trip : wellFormed (.vadd va) = true ∧ slotNum (.vadd va) = some 0 ∧ decodeSlot 0 (encode (.vadd va)) = .ok (.vadd va) ∧
    encode (.vadd va) < 2 ^ 64 := by decide +kernel

/-- The states above in which a statement asks that nothing watches memory. -/
theorem wit_unwatched : ∀ s ∈ [st, stTab, stMem [load3] [entry1] [], stGred, stX copy1, stStore, stTx sixteen, stQ 0 1, stBind, stSpec [prod, cons],
    stSh 0x10000, stBox 3 [0, 0x100_0000], stBox 19 [0x50000, 64, 1], stReg, stPod 8, stIc wNext, stMem [] [entryAdd] [],
    stCard cardD [], stChain, stDraft, stSpec [cardS], stHeld], Unwatched s := by
  have h : ∀ s ∈ [st, stTab, stMem [load3] [entry1] [], stGred, stX copy1, stStore, stTx sixteen, stQ 0 1, stBind, stSpec [prod, cons],
      stSh 0x10000, stBox 3 [0, 0x100_0000], stBox 19 [0x50000, 64, 1], stReg, stPod 8, stIc wNext, stMem [] [entryAdd] [],
    stCard cardD [], stChain, stDraft, stSpec [cardS], stHeld],
      s.slices = [] ∧ s.monitors = [] ∧ s.trace = none := by decide +kernel
  exact fun s m => unwatched_of (h s m)

theorem wit_memories : MemOk State.reset := ⟨by decide +kernel, by decide +kernel, by decide +kernel, by decide +kernel⟩

/-! ## Numbers -/

theorem wit_numbers :
    Fp.decode Fp.f32 0x3F80_0000 ≠ .nan ∧ NanF32 0x7FC0_0000 ∧ ¬ NanF32 0x3F80_0000 ∧ orderF32 0x8000_0001 < orderF32 0 ∧ warp.k ≤ 32 ∧
    (0 : Nat) < 2 ^ 128 := by simp only [NanF32]; decide +kernel

/-- Finite values: 1, -1 and 0 of each format, an exact sum and one that rounds. -/
theorem wit_finite : (∀ f ∈ [Fp.f32, Fp.bf16, Fp.f16, Fp.e5m2], FiniteIn f (f.bias * 2 ^ f.p) ∧ FiniteIn f 0 ∧ codeRat f (f.bias * 2 ^ f.p) = 1 ∧
      codeRat f (2 ^ (f.eb + f.p) + f.bias * 2 ^ f.p) = -1 ∧ codeRat f 0 = 0) ∧
    FiniteIn Fp.f32 0x3F80_0000 ∧ codeRat Fp.f32 0x3F80_0000 + codeRat Fp.f32 0x3300_0000 ≠ 0 ∧ FiniteIn Fp.f32 0x3300_0000 := by
  simp only [FiniteIn]; decide +kernel

/-- Operations of the vector slot. -/
theorem wit_vector : ∀ i ∈ ([.vadd, .vsub, .vmul, .vmulh, .vmad, .vmin, .vmax, .vand, .vor, .vxor, .vshl, .vshr, .vsar, .vrot, .vclz, .vpopc,
    .vbrev, .vclml, .vclmh, .vbfe, .vbfi, .vsel, .vmov, .vmovi, .vcmp, .vfcmp, .vfclass, .vfadd, .vfsub, .vfmul, .vfma, .vfmin, .vfmax, .vfrcp,
    .vfrsq, .vfex2, .vflg2, .vfsinpi, .vfcospi, .vscale, .vshfl, .vbcast, .vredadd, .vredmin, .vredmax, .vany, .vall, .vballot, .vunpack, .vcvt] :
    List (VOp → Instr)), Issues st 0 0 warp (i vo) := by
  simp only [Issues]; decide +kernel

/-! ## Well-formedness: each check refuses one term (R40, R42, R110, R138, R186, R213) -/

theorem test_wf_vector : wellFormed (.vadd va) = true ∧ wellFormed (.vmad vo) = true ∧ wellFormed (.vfadd { va with ty := .f32, rm := .rup }) = true ∧
    wellFormed (.vmoviHi { va with b := .v 0, imm := some 5, ty := .n32, sub := 1 }) = true := by decide +kernel
theorem test_ill_vector_fields : wellFormed (.vadd { va with dst := .p 1 }) = false ∧ wellFormed (.vadd { va with a := .p 1 }) = false ∧
    wellFormed (.vadd { va with c := .v 3 }) = false ∧ wellFormed (.vadd { va with imm := some 5 }) = false ∧ wellFormed (.vadd { va with ty := .f32 }) = false ∧
    wellFormed (.vadd { va with rm := .rup }) = false ∧ wellFormed (.vand { va with ty := .n32, sat := true }) = false ∧
    wellFormed (.vadd { va with sub := 1 }) = false := by decide +kernel
theorem test_ill_vector_forms : wellFormed (.vmoviHi { va with ty := .n32, sub := 1 }) = false ∧
    wellFormed (.vfclass { va with dst := .p 1, b := .v 0, ty := .n32, imm := some 512 }) = false ∧
    wellFormed (.vbcast { va with b := .v 3, ty := .n32 }) = false ∧ wellFormed (.vpack { va with ty := .bf16, c := .v 4 }) = false ∧
    wellFormed (.vunpack { va with ty := .f16, b := .v 0, sub := 2 }) = false ∧ wellFormed (.vredadd ⟨guard0, .s 1, .v 2, .v 0, .v 0, none, .i32, .rup, false, 0⟩) = false := by
  decide +kernel

def mg : MOp := { mf with scope := .w }
theorem test_wf_memory : wellFormed (.stG mg) = true ∧ wellFormed (.ldSp mo) = false ∧ wellFormed (.ldSp { mo with scope := .w }) = true ∧
    wellFormed (.atomGAdd mf) = true := by decide +kernel
theorem test_ill_memory : wellFormed (.atomGAdd { mf with size := .b8 }) = false ∧ wellFormed (.ldG { mg with data := .v 5, size := .b64 }) = false ∧
    wellFormed (.ldG { mg with data := .s 5, index := some 1 }) = false ∧ wellFormed (.sld { mo with scope := .w, base := 1, index := some 0 }) = false ∧
    wellFormed (.stG mf) = false ∧ wellFormed (.atomGAdd mg) = false ∧ wellFormed (.ldG { mg with flag := none }) = false ∧
    wellFormed (.ldSp { mo with scope := .w, flag := some 1 }) = false ∧
    wellFormed (.l1inv ⟨⟨false, 1⟩, .v 0, 0, some 0, 0, .b8, .w, none⟩) = false ∧
    wellFormed (.l1inv ⟨guard0, .v 0, 0, some 0, 0, .b8, .w, none⟩) = true := by decide +kernel

theorem test_wf_copies_and_tiles : wellFormed (.tmmaBf16 xt) = true ∧ wellFormed (.tzero ⟨2, 1, 0, 0, 0, 0, 0⟩) = true ∧
    wellFormed (.cpb ⟨1, 2, 3, 133, 1, .w, 0⟩) = true ∧ wellFormed (.tdrain ⟨1, 2, 3, 0x17, 0, .w, 3⟩) = true := by decide +kernel
theorem test_ill_copies_and_tiles : wellFormed (.tzero xt) = false ∧ wellFormed (.sadv ⟨2, 1, 3, 0, 1, 0, 0⟩) = false ∧
    wellFormed (.tzero ⟨2, 1, 0, 0, 0, 1, 0⟩) = false ∧ wellFormed (.cpb ⟨1, 2, 3, 5, 1, .w, 0⟩) = false ∧ wellFormed (.cpb ⟨1, 2, 3, 133, 1, .d, 0⟩) = false ∧
    wellFormed (.cpb ⟨1, 2, 3, 133, 1, .w, 1⟩) = false ∧ wellFormed (.tst ⟨1, 2, 3, 5, 0, .d, 0⟩) = false ∧ wellFormed (.tst ⟨1, 2, 0, 5, 1, .d, 0⟩) = false ∧
    wellFormed (.tdrain ⟨1, 2, 3, 0x08, 0, .w, 3⟩) = false ∧ wellFormed (.tdrain ⟨1, 2, 3, 0x17, 0, .w, 8⟩) = false ∧
    wellFormed (.tload ⟨1, 2, 3, 1, 0, .w, 0⟩) = false := by decide +kernel

theorem test_wf_control : wellFormed (.brAny { cb with sreg := 0 }) = true ∧ wellFormed (.addS cs) = true ∧ wellFormed (.wait cw) = true ∧
    wellFormed (.loop ⟨guard0, 8, guard0, 4⟩) = true := by decide +kernel
theorem test_ill_control : wellFormed (.jmp { cb with guard := ⟨true, 1⟩, var := guard0, sreg := 0 }) = false ∧
    wellFormed (.ret ⟨guard0, 4, guard0, 0⟩) = false ∧ wellFormed (.loop ⟨guard0, 0, guard0, 4⟩) = false ∧
    wellFormed (.loop ⟨guard0, -8, guard0, 4⟩) = false ∧ wellFormed (.br cb) = false ∧ wellFormed (.brAny cb) = false ∧
    wellFormed (.nop ⟨⟨true, 1⟩, 0, 0, 0, none, 0⟩) = false ∧ wellFormed (.cmp { cs with d := 8 }) = false ∧ wellFormed (.addS { cs with imm := some 1 }) = false ∧
    wellFormed (.shl { cs with b := 0, imm := some 64 }) = false ∧ wellFormed (.addS { cs with sub := 1 }) = false ∧
    wellFormed (.wait ⟨0x1A, 0x40, 0⟩) = false ∧ wellFormed (.wait ⟨0x1A, 0x00, 9⟩) = false := by decide +kernel

/-! ## The spec's own numbers -/

/-- The value and events that lane 0 gets from a V-slot operation whose scalars 20, 21 and 22 hold `a`, `b` and `c`. -/
def lane0 (i : VOp → Instr) (o : VOp) (a b c : DWord) : Option (Word × BitVec 8) :=
  match exec (i { o with guard := ⟨false, 0⟩, a := .s 20, b := .s 21, c := if o.c = .v 0 then .v 0 else .s 22 })
    (at' { warp with sregs := [(20, a), (21, b), (22, c)] }) with
  | .next t => ((t.warp? 0 0).bind fun w => w.flight.head?).map fun x => (FMap.getD x.lanes 0 0, FMap.getD x.evs 0 0)
  | _ => none

def vf : VOp := { va with ty := .f32 }
/-- R123: the example of `vclml` and `vclmh`. -/
theorem test_carryless : lane0 .vclml { va with ty := .n32 } 0x8000_0001 3 0 = some (0x8000_0003, 0) ∧
    lane0 .vclmh { va with ty := .n32 } 0x8000_0001 3 0 = some (1, 0) := by decide +kernel
/-- R120: the example of `vbfe`. -/
theorem test_field_extract : lane0 .vbfe va 0x1FE0 0x0805 0 = some (0xFFFF_FFFF, 0) := by decide +kernel
/-- R118: `vadd.i8.sat` of 80 and 100. -/
theorem test_saturating_add : lane0 .vadd { va with ty := .i8, sat := true } 80 100 0 = some (0x7F, 0x10) := by decide +kernel
/-- R47: an immediate of `vmovi.f32`, and R121: `vmovi.hi`. -/
theorem test_immediates : lane0 .vmovi { vf with imm := some 0x3FC0 } 0 0 0 = some (0x3FC0_0000, 0) ∧
    lane0 .vmoviHi { va with ty := .n32, imm := some 0x1234, sub := 1 } 0x5678 0 0 = some (0x1234_5678, 0) := by decide +kernel
/-- R91: 3.0 - 3.0 towards -∞ and to nearest. -/
theorem test_zero_sign : lane0 .vfsub { vf with rm := .rdn } 0x4040_0000 0x4040_0000 0 = some (0x8000_0000, 0) ∧
    lane0 .vfsub vf 0x4040_0000 0x4040_0000 0 = some (0, 0) := by decide +kernel
/-- R99: 2^100 × 2^100 with saturation. -/
theorem test_saturating_multiply : (lane0 .vfmul { vf with sat := true } 0x7180_0000 0x7180_0000 0).map (·.1) = some 0x7F7F_FFFF := by decide +kernel
/-- R129: -7.9 towards zero, and 1.00390625 to bf16. -/
theorem test_conversions : (lane0 .vcvt { va with ty := .i32, rm := .rtz, sub := 2 } 0xC0FC_CCCD 0 0).map (·.1) = some 0xFFFF_FFF9 ∧
    (lane0 .vcvt { va with ty := .bf16, sub := 2 } 0x3F80_8000 0 0).map (·.1) = some 0x3F80 := by decide +kernel

/-- R92: 460 and 470 into e4m3; R93: ±0.03 into lg6. -/
theorem test_narrow_formats : Fp.round Fp.e4m3 .rne .none false 460 0 = (0x7E, 0x80) ∧ Fp.round Fp.e4m3 .rne .none false 470 0 = (0x7E, 0xA0) ∧
    (Fp.roundLg .rne false 251658 (-23)).1 = 0 ∧ (Fp.roundLg .rdn true 251658 (-23)).1 = 0x21 ∧ (Fp.roundLg .rup true 251658 (-23)).1 = 0 := by
  decide +kernel

/-- The test warp with four f32 values in the first four lanes of v2. -/
def wTree : Warp := { warp with vregs := [(2048, 0x4B80_0000), (2049, 0x3F80_0000), (2050, 0x3F80_0000), (2051, 0xCB80_0000)] }
/-- R107: the tree sums 2^24, 1, 1 and -2^24 to 1.0, not to 0. -/
theorem test_reduction_tree : (wTree.redadd { vf with guard := ⟨false, 0⟩, dst := .s 1, a := .v 2, b := .v 0 }).1 = 0x3F80_0000 := by decide +kernel

/-- The scalar that a V- or C-slot operation lands. -/
def scalarOf (i : Instr) (w : Warp) : Option DWord :=
  match exec i (at' w) with
  | .next t => ((t.warp? 0 0).bind fun w => w.flight.head?).map (·.scalar)
  | _ => none
/-- A 96-lane warp with every lane live and vp1 true in lanes 0, 63, 64 and 95. -/
def w96 : Warp := { warp with k := 3, mask := BitVec.ofNat 1024 (2 ^ 96 - 1), vpred := BitVec.ofNat 8192 ((1 + 2 ^ 63 + 2 ^ 64 + 2 ^ 95) * 2 ^ 1024) }
/-- R136: its ballots. -/
theorem test_ballot : scalarOf (.vballot ⟨guard0, .s 4, .p 1, .v 0, .v 0, none, .n32, .rne, false, 0⟩) w96 = some 0x8000_0000_0000_0001 ∧
    scalarOf (.vballot ⟨guard0, .s 4, .p 1, .v 0, .v 0, none, .n32, .rne, false, 1⟩) w96 = some 0x8000_0001 ∧
    scalarOf (.vballot ⟨guard0, .s 4, .p 1, .v 0, .v 0, none, .n32, .rne, false, 2⟩) w96 = some 0 := by decide +kernel

/-- R171: an arrival of 2,000 at 3,000 of 4,096, then one of 9,000. -/
theorem test_arrivals : arriveAdd (4096 + 3000 * 2 ^ 32 + 7 * 2 ^ 64) 2000 = 4096 + 904 * 2 ^ 32 + 8 * 2 ^ 64 ∧
    arriveAdd (4096 + 904 * 2 ^ 32 + 8 * 2 ^ 64) 9000 = 4096 + 5808 * 2 ^ 32 + 9 * 2 ^ 64 := by decide +kernel

/-- R377: the stack, the slice, the pseudo-channel and the place of 0x12_3456_7880, on die B. -/
theorem test_address_map : stackOf 0x12_3456_7880 = 6 ∧ sliceOf 0x12_3456_7880 = 32 + 24 ∧ hbmChannel 0x12_3456_7880 = 47 ∧
    hbmPlace 0x12_3456_7880 = 238609 := by decide +kernel
/-- R405: the port of a store from core 37 to device 90. -/
theorem test_port : State.reset.portOf 37 90 = some 1 ∧ State.reset.portOf 38 90 = some 2 := by decide +kernel

/-- R218: the last of four `movhi`. -/
theorem test_movhi : scalarOf (.movhi ⟨⟨false, 0⟩, 4, 4, 0, some 0x1234, 3⟩) { warp with sregs := [(4, 0x5678_9ABC_DEF0)] } =
    some 0x1234_5678_9ABC_DEF0 := by decide +kernel

/-- The warp of R153: v9 lane l holds l, v4 is 0 and v5 lane l holds 100 + l; the word at 0x100 is 0. -/
def wRace : Warp := { warp with mask := BitVec.ofNat 1024 (2 ^ 32 - 1), sregs := [(3, 0x100)],
                                vregs := (List.range 32).map (fun l => (5 * 1024 + l, BitVec.ofNat 32 (100 + l))) ++
                                  (List.range 32).map (fun l => (9 * 1024 + l, BitVec.ofNat 32 l)) }
/-- R142: 32 lanes store to one word; the last stays. -/
theorem test_store_race : (match exec (.stSp ⟨⟨false, 0⟩, .v 9, 3, none, 16, .b32, .w, none⟩) (at' wRace) with
    | .next t => t.spGet 0 0x110 4
    | _ => 0) = 31 := by decide +kernel
/-- R153: 32 lanes swap one word; the first wins, and the others read its value. -/
theorem test_cas_race : (match exec (.casSp ⟨⟨false, 0⟩, .v 4, 3, none, 0, .b32, .w, none⟩) (at' wRace) with
    | .next t => (t.spGet 0 0x100 4, ((t.warp? 0 0).bind fun w => w.flight.head?).map fun x => (FMap.getD x.lanes 0 7, FMap.getD x.lanes 1 7, FMap.getD x.lanes 31 7))
    | _ => (0, none)) = (100, some (0, 100, 100)) := by decide +kernel

/-- R298, R299: the chunks of a card of 400 records dealt to an idle die. -/
theorem test_chunks : ([(0, 0), (64, 1), (128, 2), (174, 3), (203, 4), (388, 5), (396, 5)].map fun p =>
    ({ fetchCard with argCount := 400, chMin := 8, chMax := 64, dealt := p.1 } : Card).chunk p.2) = [64, 64, 46, 29, 20, 8, 4] := by decide +kernel

end Sys2Proof.Tests
end

