-- ==== Sys2Proof/Proofs/Steps.lean ====
section
/-! PROOFS. What a step does with what it takes: slot instructions are their rows of `slotFn`, and every other step has a next state. -/

namespace Sys2Proof.Machine
open Claim

/-! ## The two kinds of instruction -/

/-- A slot instruction means the run of its row of `slotFn`. -/
theorem exec_eq_runSlot {i : Instr} {n : Nat} (h : slotNum i = some n) (s : State) : exec i s = runSlot i n s := by
  cases i <;> simp only [slotNum, slotOp, Option.some.injEq, reduceCtorEq] at h <;> subst h <;> rfl

/-- A step of the machine that waits for its condition has a next state either way. -/
theorem event_goes (can : Bool) (s t : State) : Goes (event can s t) := ⟨if can then t else s, rfl⟩

/-- A step that may happen has its effect. -/
theorem event_of {can : Bool} (h : can = true) (s t : State) : event can s t = .next t := by simp [event, h]

/-- An instruction of no slot is a step of the machine, which has a next state. -/
theorem exec_goes_of_not_slot {i : Instr} (h : slotNum i = none) (s : State) : Goes (exec i s) := by
  cases i <;> simp only [slotNum, slotOp, reduceCtorEq] at h <;> exact event_goes ..

/-! ## What the machine offers by itself -/

/-- Every act of a list has a next state, whatever the state it is taken in. -/
def AllGo (xs : List Act) : Prop := ∀ f ∈ xs, ∀ t, Goes (f t)

theorem AllGo.nil : AllGo [] := fun _ h => nomatch h

theorem AllGo.one {f : Act} (h : ∀ t, Goes (f t) := by exact fun _ => event_goes ..) : AllGo [f] := fun _ hg =>
  List.mem_singleton.1 hg ▸ h

theorem AllGo.append {xs ys : List Act} (hx : AllGo xs) (hy : AllGo ys) : AllGo (xs ++ ys) := fun f hf =>
  (List.mem_append.1 hf).elim (hx f) (hy f)

theorem AllGo.flatMap {α : Type} {xs : List α} {g : α → List Act} (h : ∀ x, AllGo (g x)) : AllGo (xs.flatMap g) := fun f hf =>
  let ⟨x, _, hx⟩ := List.mem_flatMap.1 hf
  h x f hx

theorem AllGo.map {α : Type} {xs : List α} {g : α → Act} (h : ∀ x t, Goes (g x t) := by exact fun _ _ => event_goes ..) : AllGo (xs.map g) :=
  fun _ hf =>
    let ⟨x, _, hx⟩ := List.mem_map.1 hf
    hx ▸ h x

/-- What is offered is a step of the machine, which has a next state. -/
theorem AllGo.offer {can : Bool} {f : Act} (h : ∀ t, Goes (f t) := by exact fun _ => event_goes ..) : AllGo (offer can f) := by
  cases can
  · exact AllGo.nil
  · exact AllGo.one h

theorem walkOffers_go (s : State) (c k : Nat) : AllGo (walkOffers s c k) := by
  unfold walkOffers
  split
  · exact AllGo.nil
  · dsimp only
    split
    · exact AllGo.map
    · exact AllGo.map
    · exact AllGo.nil

theorem warpOffers_go (s : State) (c k : Nat) : AllGo (warpOffers s c k) := by
  refine AllGo.append ?_ (walkOffers_go s c k)
  repeat' apply AllGo.append
  all_goals exact AllGo.offer

theorem swapOffers_go (s : State) (c : Nat) (ks : List Nat) : AllGo (swapOffers s c ks) :=
  AllGo.flatMap fun _ => AllGo.flatMap fun _ => .append .offer .offer

theorem coreOffers_go (s : State) (c : Nat) (x : CoreSt) : AllGo (coreOffers s c x) := by
  unfold coreOffers
  refine .append (.append (.append (.append (.append (.append (.append (.append ?_ ?_) ?_) ?_) ?_) ?_) ?_) ?_) ?_
  · exact .append (.append .offer .offer) .offer
  · exact .flatMap fun _ => .append .offer .offer
  · exact .flatMap fun _ => .append .offer .offer
  · exact .flatMap fun _ => .offer
  · exact .map
  · exact .map
  · refine .flatMap fun o => .append (.append (.append .offer .offer) ?_) (.flatMap fun _ => .offer)
    split
    · split
      · exact .one
      · exact .nil
    · split
      · exact .one
      · exact .nil
    · exact .offer
  · exact .flatMap fun _ => .offer
  · exact .flatMap fun _ => .offer

theorem lockOffers_go (s : State) : AllGo (lockOffers s) := by
  unfold lockOffers
  refine .append (.flatMap fun _ => ?_) (.flatMap fun _ => .offer)
  exact .append (.append (.flatMap fun _ => .append .offer .offer) .offer) .offer

theorem schedOffers_go (s : State) : AllGo (schedOffers s) := by
  refine AllGo.append (.append (.append ?_ (.flatMap fun p => ?_)) ?_) (.flatMap fun _ => AllGo.offer)
  · refine .flatMap fun c => ?_
    dsimp only
    repeat' apply AllGo.append
    all_goals exact AllGo.offer
  · refine .append (.append .offer ?_) (.flatMap fun _ => .offer)
    split
    · exact AllGo.nil
    · split
      · exact .append .offer .offer
      · exact AllGo.nil
  · split
    · exact AllGo.offer
    · exact AllGo.nil

/-- Serving a mailbox command is a step of the machine. -/
theorem mboxAct_goes {n op : Nat} {f : Act} (h : mboxAct n op = some f) (t : State) : Goes (f t) := by
  unfold mboxAct at h
  split at h <;> cases h <;> exact event_goes ..

theorem firmwareOffers_go (s : State) : AllGo (firmwareOffers s) := by
  refine AllGo.append (.append (.append (.append (.append (.flatMap fun p => ?_) (.flatMap fun _ => AllGo.offer))
    (.flatMap fun _ => AllGo.offer)) (.flatMap fun _ => ?_)) AllGo.offer) AllGo.offer
  · dsimp only
    refine AllGo.append (.append ?_ AllGo.offer) (.flatMap fun _ => AllGo.offer)
    split
    · next hf => exact AllGo.offer (mboxAct_goes hf)
    · exact AllGo.nil
  · exact .append (.append .offer .offer) .offer

theorem offers_go (s : State) : AllGo (offers s) := by
  unfold offers
  refine .append (.append (.append (.append (.flatMap fun p => ?_) (.flatMap fun p => ?_)) (lockOffers_go s)) (schedOffers_go s))
    (firmwareOffers_go s)
  · exact .append (.append (.flatMap fun w => warpOffers_go s p.1 w.1) (swapOffers_go s p.1 _)) (coreOffers_go s p.1 p.2)
  · exact .map

theorem pick_goes {s : State} {f : Act} (h : pick s = some f) (t : State) : Goes (f t) :=
  offers_go s f (List.mem_of_getElem? h) t

/-! ## What the rules put into the present cycle -/

/-- What may be due has a next state when it is. -/
def DueGoes (a : Option Act) : Prop := ∀ f, a = some f → ∀ t, Goes (f t)

theorem DueGoes.none : DueGoes none := fun _ h => nomatch h

theorem DueGoes.some {f : Act} (h : ∀ t, Goes (f t) := by exact fun _ => event_goes ..) : DueGoes (some f) := fun _ hf => Option.some.inj hf ▸ h

theorem DueGoes.or {a b : Option Act} (ha : DueGoes a) (hb : DueGoes b) : DueGoes (a.or b) := fun f h =>
  (Option.or_eq_some_iff.1 h).elim (ha f) fun h => hb f h.2

theorem DueGoes.ite {p : Prop} [Decidable p] {a b : Option Act} (ha : DueGoes a) (hb : DueGoes b) : DueGoes (if p then a else b) := by
  split
  · exact ha
  · exact hb

theorem DueGoes.map {α : Type} {a : Option α} {g : α → Act} (h : ∀ x t, Goes (g x t) := by exact fun _ _ => event_goes ..) : DueGoes (a.map g) :=
  fun _ hf =>
    let ⟨x, _, hx⟩ := Option.map_eq_some_iff.1 hf
    hx ▸ h x

theorem DueGoes.findSome {α : Type} {xs : List α} {g : α → Option Act} (hg : ∀ x, DueGoes (g x)) : DueGoes (xs.findSome? g) := fun f h =>
  let ⟨x, _, hx⟩ := List.exists_of_findSome?_eq_some h
  hg x f hx

theorem engineDue_goes (s : State) (c : Nat) : DueGoes (engineDue s c) := by
  refine .or (.findSome fun o => ?_) (.ite .some (.ite .some (.ite .some .none)))
  split
  · exact .ite .some .none
  · exact .ite .some .none
  · exact .ite .some .none
  · exact .ite .some .none
  · exact .ite .some (.ite .some .none)
  · exact .none

theorem ladderDue_goes (s : State) : DueGoes (ladderDue s) :=
  .or (.findSome fun _ => .ite .map .none) (.ite .some .none)

theorem due_goes (s : State) : DueGoes (due s) := by
  refine .or .map (.or (.findSome fun p => .ite .some (engineDue_goes s p.1)) (.or (ladderDue_goes s) (.ite (.some fun t => ?_) .none)))
  exact ⟨_, rfl⟩

/-! ## The step -/

theorem step_goes (s : State) : Goes (step s) := by
  unfold step
  split
  · next f hf =>
    split at hf
    · exact due_goes s f hf s
    · cases hf
  · split
    · next i rest _ =>
      dsimp only
      cases hn : slotNum i with
      | some n => exact ⟨_, rfl⟩
      | none => exact exec_goes_of_not_slot hn _
    · exact ⟨_, rfl⟩
    · dsimp only
      split
      · next f hf => exact pick_goes hf _
      · exact ⟨_, rfl⟩

/-- Settles O60. -/
theorem stepNeverStops : Obligations.StepNeverStops := step_goes

/-- With an entry of a later cycle at the head of the agenda, and nothing due, a cycle passes. -/
theorem step_pass {s : State} {d : Nat} {i : Instr} {rest : List (Nat × Instr)} (ha : s.agenda = (d + 1, i) :: rest) (hd : due s = none) :
    step s = .next { s.passCycle with agenda := (d, i) :: rest } := by
  have hp : (if s.passes then due s else none) = none := by simp [hd]
  unfold step
  rw [hp, ha]

/-- With a step of the machine at the head of the agenda for this cycle, that is what happens. -/
theorem step_now {s : State} {i : Instr} {rest : List (Nat × Instr)} (ha : s.agenda = (0, i) :: rest) (hn : slotNum i = none) :
    step s = exec i { s with agenda := rest } := by
  have hp : (if s.passes then due s else none) = none := by simp [State.passes, ha]
  unfold step
  rw [hp, ha]
  simp [hn]

@[simp] theorem CoreSt.takeSnapshot_warps (x : CoreSt) (now : Nat) : (x.takeSnapshot now).warps = x.warps := by
  unfold CoreSt.takeSnapshot
  split
  · split <;> rfl
  · rfl

@[simp] theorem CoreSt.passBanks_warps (x : CoreSt) (now : Nat) : (x.passBanks now).warps = x.warps := by
  unfold CoreSt.passBanks
  dsimp only
  split
  · simp
  · simp

/-- Finding a key of a map whose values are changed one by one. -/
theorem FMap.find_mapVal {β γ : Type} (f : β → γ) (m : FMap β) (k : Nat) :
    FMap.find (m.map fun p => (p.1, f p.2)) k = (FMap.find m k).map f := by
  induction m with
  | nil => rfl
  | cons p m ih =>
    obtain ⟨a, b⟩ := p
    by_cases h : a = k <;> simp [FMap.find, h, ih]

/-- No warp changes while a cycle passes. -/
@[simp] theorem State.passCycle_warp (s : State) (c k : Nat) : s.passCycle.warp? c k = s.warp? c k := by
  simp only [State.warp?, State.core, State.passCycle, FMap.getD, FMap.find_mapVal fun x : CoreSt => x.passBanks s.cycle]
  cases FMap.find s.cores c <;> simp

/-- R16, R34, R366: a bundle that is due and passes its decode checks opens its tick, runs its slots and closes. -/
theorem bundleIssue_of_due {s : State} {c k : Nat} {w : Warp} {b : Bundle} (hw : s.warp? c k = some w) (hc : canBundleIssue c k s = true)
    (hb : Due w b) (hd : decodeFail w b = none) :
    exec (.bundleIssue c k) s = .next (((s.openBundle c k b).runSlots c k (presentOf b) (w.opsOf b)).closeBundle c k w.step) := by
  obtain ⟨hdef, hhold, hun, ⟨x, hx, rfl⟩, hdrain, hst⟩ := hb
  have h1 : exec (.bundleIssue c k) s = .next (s.issue c k) := event_of hc ..
  have h2 : s.issue c k = s.issueFetched c k w (decodeBundle x) := by
    simp [State.issue, State.onWarp_of hw, Warp.deferredNow, hdef, Warp.holdHere, hhold, hx]
  have h3 : ¬stretchTicks (w.opsOf (decodeBundle x)).v = 0 → w.stretched = true := fun h => hst.resolve_left h
  rw [h1, h2]
  unfold State.issueFetched
  cases hD : (decodeBundle x).hdr.d with
  | false => simp +contextual [hd, hun, h3]
  | true =>
    obtain ⟨hf, hp, hh⟩ := hdrain hD
    cases hH : w.halt with
    | false => simp +contextual [hf, hp, hd, hun, h3]
    | true => simp +contextual [hf, hp, hh hH, hd, hun, h3]

/-! ## Opening a bundle -/

/-- Filling the next line leaves the budget and the privilege of the warp alone. -/
theorem State.nextLine_warp {s : State} {c k : Nat} {w : Warp} (hw : s.warp? c k = some w) :
    ∃ v, (s.nextLine c k).warp? c k = some v ∧ v.budget = w.budget ∧ v.priv = w.priv := by
  simp only [State.nextLine, State.onWarp_of hw]
  split
  · exact ⟨w, hw, rfl, rfl⟩
  · repeat' split
    all_goals exact ⟨_, State.warp_setWarp_self .., rfl, rfl⟩

/-- A change of a core that keeps its warps keeps every warp. -/
theorem State.warp_modCore {s : State} {c : Nat} {f : CoreSt → CoreSt} (h : (f (s.core c)).warps = (s.core c).warps) (d k : Nat) :
    (s.modCore c f).warp? d k = s.warp? d k := by
  unfold State.warp? State.modCore
  by_cases hd : d = c
  · subst hd
    rw [State.core_setCore_self, h]
  · rw [State.core_setCore_ne _ _ hd]

/-- A warp that is changed reads back changed. -/
theorem State.warp_modWarp {s : State} {c k : Nat} {w : Warp} {f : Warp → Warp} (h : s.warp? c k = some w) :
    (s.modWarp c k f).warp? c k = some (f w) := by
  rw [State.modWarp_of h, State.warp_setWarp_self]

/-- The tick that a bundle opens is of a warp that issues, with the budget and the privilege it had. -/
theorem State.openBundle_warp {s : State} {c k : Nat} {w : Warp} (b : Bundle) (hw : s.warp? c k = some w) :
    ∃ v, (s.openBundle c k b).warp? c k = some v ∧ (s.openBundle c k b).cur = some (c, k) ∧ v.budget = w.budget ∧ v.priv = w.priv := by
  obtain ⟨v, hv, hb, hp⟩ := State.nextLine_warp hw
  have hv' (f : CoreSt → CoreSt) (hf : ∀ x, (f x).warps = x.warps) :
      State.warp? { (s.nextLine c k).modCore c f with cur := some (c, k) } c k = some v := (State.warp_modCore (hf _) ..).trans hv
  exact ⟨_, State.warp_modWarp (hv' _ fun _ => rfl), by simp [State.openBundle], hb, hp⟩

/-! ## A bundle of one slot -/

theorem slotNum_lt {i : Instr} {n : Nat} (h : slotNum i = some n) : n < 4 := by
  unfold slotNum at h
  split at h <;> cases h <;> decide

/-- With no REPLAY every slot is issued. -/
theorem replays_of_none {w : Warp} (hr : w.replay = none) :
    w.replays 0 = true ∧ w.replays 1 = true ∧ w.replays 2 = true ∧ w.replays 3 = true := by
  unfold Warp.replays
  rw [hr]
  decide

/-- What a bundle that holds one instruction issues, and its REPLAY bits. -/
theorem opsOf_only {w : Warp} {b : Bundle} {i : Instr} (hb : Only b i) (hs : w.suppressed b.hdr = false) (hr : w.replay = none) :
    ∃ n, slotNum i = some n ∧ w.opsOf b = onlySlot i ∧ presentOf b = 2 ^ n := by
  have ho : w.opsOf b = ⟨opOf true b.v, opOf true b.m, opOf true b.x, opOf true b.c⟩ := by
    simp [Warp.opsOf, hs, replays_of_none hr]
  rw [ho]
  unfold Only at hb
  unfold onlySlot
  split at hb
  · next hn =>
    obtain ⟨hv, hm, hx, hc⟩ := hb
    exact ⟨0, hn, by simp [hn, hv, hm, hx, hc, opOf], by simp [presentOf, hv, hm, hx, hc]⟩
  · next hn =>
    obtain ⟨hv, hm, hx, hc⟩ := hb
    exact ⟨1, hn, by simp [hn, hv, hm, hx, hc, opOf], by simp [presentOf, hv, hm, hx, hc]⟩
  · next hn =>
    obtain ⟨hv, hm, hx, hc⟩ := hb
    exact ⟨2, hn, by simp [hn, hv, hm, hx, hc, opOf], by simp [presentOf, hv, hm, hx, hc]⟩
  · next n h0 h1 h2 hn =>
    obtain ⟨hv, hm, hx, hc⟩ := hb
    obtain rfl : n = 3 := by
      have h4 := slotNum_lt hn
      have hne : n ≠ 0 ∧ n ≠ 1 ∧ n ≠ 2 := ⟨h0, h1, h2⟩
      omega
    exact ⟨3, hn, by simp [hn, hv, hm, hx, hc, opOf], by simp [presentOf, hv, hm, hx, hc]⟩
  · exact hb.elim

/-- The decode checks of a bundle are made of every slot when no return came before it. -/
theorem slotFail_of_decodeFail {w : Warp} {b : Bundle} (hr : w.replay = none) (hd : decodeFail w b = none) :
    slotFail w 0 b.v = none ∧ slotFail w 1 b.m = none ∧ slotFail w 2 b.x = none ∧ slotFail w 3 b.c = none := by
  unfold decodeFail at hd
  rw [if_neg (by simp [hr])] at hd
  split at hd
  · cases hd
  · simpa [replays_of_none hr] using hd

/-- A bundle that passes its decode checks holds no instruction that fails those of the warp. -/
theorem opFail_of_slotFail {w : Warp} {n : Nat} {i : Instr} (h : slotFail w n (.ok i) = none) : opFail w i n = none :=
  Option.map_eq_none_iff.1 h

theorem opFail_only {w : Warp} {b : Bundle} {i : Instr} {n : Nat} (hb : Only b i) (hr : w.replay = none) (hd : decodeFail w b = none)
    (hn : slotNum i = some n) : opFail w i n = none := by
  obtain ⟨hv, hm, hx, hc⟩ := slotFail_of_decodeFail hr hd
  have hlt := slotNum_lt hn
  unfold Only at hb
  rw [hn] at hb
  match n, hb, hlt with
  | 0, hb, _ => exact opFail_of_slotFail (hb.1 ▸ hv)
  | 1, hb, _ => exact opFail_of_slotFail (hb.2.1 ▸ hm)
  | 2, hb, _ => exact opFail_of_slotFail (hb.2.2.1 ▸ hx)
  | 3, hb, _ => exact opFail_of_slotFail (hb.2.2.2 ▸ hc)

/-- The checks of the warp look at its budget and its privilege alone. -/
theorem opFail_congr {v w : Warp} (hb : v.budget = w.budget) (hp : v.priv = w.priv) (i : Instr) (n : Nat) : opFail v i n = opFail w i n := by
  unfold opFail Warp.allowed
  rw [hb, hp]

/-- R366: with one slot, what the opened bundle runs is the meaning of its instruction. -/
theorem exec_only {s : State} {c k : Nat} {w : Warp} {b : Bundle} {i : Instr} (hw : s.warp? c k = some w) (hd : decodeFail w b = none)
    (hb : Only b i) (hs : w.suppressed b.hdr = false) (hr : w.replay = none) :
    exec i (s.openBundle c k b) = .next ((s.openBundle c k b).runSlots c k (presentOf b) (w.opsOf b)) := by
  obtain ⟨n, hn, ho, hp⟩ := opsOf_only hb hs hr
  obtain ⟨v, hv, hcur, hvb, hvp⟩ := State.openBundle_warp b hw
  have hf : opFail v i n = none := opFail_congr hvb hvp i n ▸ opFail_only hb hr hd hn
  rw [exec_eq_runSlot hn, runSlot_run hcur hv hf, ho, hp]

/-- Settles O53. -/
theorem stepRunsDecodedBundle : Obligations.StepRunsDecodedBundle := by
  refine ⟨fun s c k w b hw hc hb hd => bundleIssue_of_due hw hc hb hd, fun s d i rest ha hd => ⟨_, step_pass ha hd, rfl, rfl, rfl, rfl, ?_⟩,
    ?_⟩
  · exact fun c k => State.passCycle_warp s c k
  · intro s c k w b rest ha s0 hw hc hb hd s1
    have hstep : step s = .next ((s1.runSlots c k (presentOf b) (w.opsOf b)).closeBundle c k w.step) :=
      (step_now ha rfl).trans (bundleIssue_of_due hw hc hb hd)
    exact ⟨hstep, fun i hi hs hr => ⟨_, exec_only hw hd hi hs hr, hstep⟩⟩

/-! ## Reset -/

theorem State.reset_core (c : Nat) : State.reset.core c = CoreSt.reset := rfl

/-- Settles O58. -/
theorem resetState : Obligations.ResetState := by
  refine ⟨⟨Memory.empty_wf 0, cellsWf_nil _, fun p hp => (List.not_mem_nil hp).elim, fun p hp => (List.not_mem_nil hp).elim⟩, fun a => rfl,
    fun c k => rfl, fun b => rfl, rfl, rfl, State.reset_core, fun f => rfl, rfl, rfl, rfl, rfl, rfl, rfl⟩

end Sys2Proof.Machine
end

