-- ==== Sys2Proof/Proofs/Integers.lean ====
section
/-! PROOFS. The integer operations of the V slot: a value read as a type, wrapped to it and clamped to it (R83, R84, R118). -/

namespace Sys2Proof.Machine
open Claim

/-- Sign extension reads the low bits in two's complement. -/
theorem signExt_eq_toInt {n : Nat} (hn : 0 < n) (x : Nat) : signExt x n = (BitVec.ofNat n x).toInt := by
  obtain ⟨m, rfl⟩ : ∃ m, n = m + 1 := ⟨n - 1, by omega⟩
  simp only [signExt, BitVec.toInt_eq_toNat_cond, BitVec.toNat_ofNat, Nat.add_sub_cancel, Nat.pow_succ]
  split <;> split <;> omega

/-- The bits of an integer are those of its machine word. -/
theorem toBits_eq_toNat (z : Int) (n : Nat) : toBits z n = (BitVec.ofInt n z).toNat := by
  simp [toBits, BitVec.toNat_ofInt]

/-- R83: the value of a lane read as a type. -/
theorem intVal_eq_intOf (ty : Ty) (x : Word) : intVal ty x = intOf ty x := by
  have hs {n : Nat} (hn : 0 < n) : signExt x.toNat n = (x.setWidth n).toInt := by
    rw [signExt_eq_toInt hn, BitVec.ofNat_toNat]
  have hu (n : Nat) : ((x.toNat % 2 ^ n : Nat) : Int) = ((x.setWidth n).toNat : Int) := by rw [BitVec.toNat_setWidth]
  have h32 : ((x.toNat % 2 ^ 32 : Nat) : Int) = x.toNat := by rw [Nat.mod_eq_of_lt x.isLt]
  cases ty
  case i32 => exact (hs (by decide)).trans (by rw [BitVec.setWidth_eq]; rfl)
  case i16 => exact hs (by decide)
  case i8 => exact hs (by decide)
  case n16 => exact hu 16
  case n8 => exact hu 8
  all_goals exact h32

/-- An integer wrapped to a signed type is its machine word of that width, extended. -/
theorem wrap_signed {n : Nat} (hn : 0 < n) (z : Int) :
    BitVec.ofNat 32 (toBits (signExt (toBits z n) n) 32) = (BitVec.ofInt n z).signExtend 32 := by
  rw [signExt_eq_toInt hn, toBits_eq_toNat, toBits_eq_toNat, BitVec.ofNat_toNat, BitVec.setWidth_eq, BitVec.ofNat_toNat, BitVec.setWidth_eq]
  rfl

/-- An integer wrapped to an unsigned type is its machine word of that width, extended. -/
theorem wrap_unsigned (n : Nat) (z : Int) : BitVec.ofNat 32 (toBits z n) = (BitVec.ofInt n z).setWidth 32 := by
  rw [toBits_eq_toNat, BitVec.ofNat_toNat]

/-- R83, R84: an integer wrapped to a type. -/
theorem intWrap_eq_wrapTo (ty : Ty) (z : Int) : intWrap ty z = wrapTo ty z := by
  have h32 : BitVec.ofNat 32 (toBits z 32) = BitVec.ofInt 32 z := (wrap_unsigned 32 z).trans (BitVec.setWidth_eq _)
  cases ty
  case i32 => exact (wrap_signed (by decide) z).trans (BitVec.signExtend_eq _)
  case i16 => exact wrap_signed (by decide) z
  case i8 => exact wrap_signed (by decide) z
  case n16 => exact wrap_unsigned 16 z
  case n8 => exact wrap_unsigned 8 z
  all_goals exact h32

/-- R33: the nearest value of a type. -/
theorem satTo_eq (ty : Ty) (z : Int) : satTo ty z = if z < tyMin ty then tyMin ty else if tyMax ty < z then tyMax ty else z := by
  cases ty <;> rfl

/-- R84, R118: an exact integer is written wrapped, or with SAT clamped with class 4. -/
theorem intOut_result (o : VOp) (z : Int) : IntResult o z (intOut o.ty o.sat z).1 (intOut o.ty o.sat z).2 := by
  simp only [IntResult, intOut, intWrap_eq_wrapTo, satTo_eq]
  cases o.sat with
  | false => simp
  | true =>
    by_cases hlo : z < tyMin o.ty
    · simp [hlo, hlo.ne', Fp.evIntSat]
    · by_cases hhi : tyMax o.ty < z
      · simp [hlo, hhi, hhi.ne, Fp.evIntSat]
      · simp [hlo, hhi]

/-- R118: an instruction whose effect is an integer operation lands its exact result in every active lane. -/
theorem intV_lands {s : State} {c k : Nat} {w : Warp} {i : Instr} {o : VOp} {lat : Nat} {f : Int → Int → Int → Int} (hi : Issues s c k w i)
    (hx : exec i s = runSlot i 0 s) (hn : slotNum i = some 0) (hf : slotFn i = some (vFn fun w => w.intV o lat f)) :
    VLands s c k w i o lat .lva fun l y e => IntResult o (f (intOf o.ty (w.src o.a l)) (intOf o.ty (w.srcB o l)) (intOf o.ty (w.src o.c l))) y e :=
  vLands_of hi hx hn hf rfl fun l _ => by simpa only [intVal_eq_intOf] using intOut_result o _

/-- Settles O1. -/
theorem vectorIntegerResults : Obligations.VectorIntegerResults := by
  have hdiv (x : Int) : Int.fdiv x (2 ^ 32) = x / 4294967296 := Int.fdiv_eq_ediv_of_nonneg x (by decide)
  simp only [Obligations.VectorIntegerResults, List.forall_mem_cons, List.not_mem_nil, false_imp_iff, implies_true, and_true]
  refine ⟨?add, ?sub, ?mul, ?mulh, ?mad, ?min, ?max⟩ <;> intro o s c k w hi
  case add => exact intV_lands (f := fun a b _ => a + b) hi rfl rfl rfl
  case sub => exact intV_lands (f := fun a b _ => a - b) hi rfl rfl rfl
  case mul => exact intV_lands (f := fun a b _ => a * b) hi rfl rfl rfl
  case mulh => simpa only [hdiv] using intV_lands (f := fun a b _ => Int.fdiv (a * b) (2 ^ 32)) hi rfl rfl rfl
  case mad => exact intV_lands (f := fun a b c => a * b + c) hi rfl rfl rfl
  case min => exact intV_lands (f := fun a b _ => min a b) hi rfl rfl rfl
  case max => exact intV_lands (f := fun a b _ => max a b) hi rfl rfl rfl

end Sys2Proof.Machine
end

