-- ==== Sys2Proof/Proofs/Control.lean ====
section
/-! PROOFS. The C slot's branches and loops: conditions, targets, the successor of a bundle (R212, R220 to R225), and the frames that such
instructions keep. -/

namespace Sys2Proof.Machine
open Claim

/-! ## Frames -/

/-- Writing a warp leaves every other warp alone. -/
theorem State.warp_setWarp_other (s : State) {c k d j : Nat} (w : Warp) (h : (d, j) ≠ (c, k)) : (s.setWarp c k w).warp? d j = s.warp? d j := by
  by_cases hd : d = c
  · subst hd
    exact State.warp_setWarp_slot s d w fun hj => h (by rw [hj])
  · exact State.warp_setWarp_core s k j w hd

theorem quiet_refl (s : State) (c k : Nat) : Quiet s s c k := ⟨⟨rfl, rfl, rfl, rfl, fun _ _ _ => rfl⟩, rfl⟩

theorem quiet_trans {s t u : State} {c k : Nat} (h : Quiet s t c k) (g : Quiet t u c k) : Quiet s u c k :=
  ⟨⟨g.1.hbm.trans h.1.hbm, g.1.host.trans h.1.host, g.1.cycle.trans h.1.cycle, g.1.cur.trans h.1.cur,
    fun d j hn => (g.1.others d j hn).trans (h.1.others d j hn)⟩, g.2.trans h.2⟩

theorem quiet_setWarp (s : State) (c k : Nat) (w : Warp) : Quiet s (s.setWarp c k w) c k :=
  ⟨⟨rfl, rfl, rfl, rfl, fun _ _ h => State.warp_setWarp_other s w h⟩, rfl⟩

/-- A change of a core that keeps its warps keeps what a quiet instruction keeps. -/
theorem quiet_modCore {s : State} {d : Nat} {f : CoreSt → CoreSt} (h : (f (s.core d)).warps = (s.core d).warps) (c k : Nat) :
    Quiet s (s.modCore d f) c k :=
  ⟨⟨rfl, rfl, rfl, rfl, fun a j _ => State.warp_modCore h a j⟩, rfl⟩

/-! ## Guards and votes -/

theorem Warp.guardS_iff (w : Warp) (g : Guard) : w.guardS g = true ↔ Guarded w g := by
  unfold Warp.guardS Guarded
  cases g.neg <;> cases w.sp g.idx.val <;> simp

theorem Warp.guardS_false_iff (w : Warp) (g : Guard) : w.guardS g = false ↔ ¬Guarded w g := by
  rw [← Warp.guardS_iff, Bool.not_eq_true]

theorem Warp.guardV_iff (w : Warp) (g : Guard) (l : Nat) : w.guardV g l = true ↔ LaneTrue w g l := by
  unfold Warp.guardV LaneTrue
  cases g.neg <;> cases w.vp g.idx.val l <;> simp

theorem Warp.mem_liveLanes (w : Warp) (l : Nat) : l ∈ w.liveLanes ↔ Live w l := by
  simp [Warp.liveLanes, Live, Warp.width, Warp.live]

/-- R220: some live lane is true. -/
theorem Warp.vote_any (w : Warp) (v : Guard) : (w.vote v).1 = true ↔ ∃ l, Live w l ∧ LaneTrue w v l := by
  simp [Warp.vote, Warp.mem_liveLanes, Warp.guardV_iff]

/-- R220: every live lane is true. -/
theorem Warp.vote_all (w : Warp) (v : Guard) : (w.vote v).2 = true ↔ ∀ l, Live w l → LaneTrue w v l := by
  simp [Warp.vote, Warp.mem_liveLanes, Warp.guardV_iff]

/-! ## Targets -/

/-- R53: a signed field counts bundles of 32 bytes. -/
theorem signExtend_mul_32 {n : Nat} (x : BitVec n) : x.signExtend 64 * 32 = BitVec.ofInt 64 (32 * x.toInt) := by
  rw [BitVec.ofInt_mul, BitVec.mul_comm]
  rfl

theorem cbTarget_eq_offTarget (w : Warp) (o : CBOp) : cbTarget w o = offTarget w o := by
  rw [cbTarget, offTarget, signExtend_mul_32]

/-- An address is canonical when bits 63 to 52 equal bit 51 (R349). -/
theorem canonical_iff (t : DWord) : canonical t.toNat = true ↔ ∀ i, 52 ≤ i → i < 64 → t.getLsbD i = t.getLsbD 51 := by
  have hbit (j : Nat) : (bits t.toNat 63 52).testBit j = (decide (j < 12) && t.getLsbD (52 + j)) := by
    simp only [bits, Nat.testBit_mod_two_pow, Nat.testBit_shiftRight, BitVec.getLsbD]
  have hall (j : Nat) : (if bit t.toNat 51 then 0xFFF else 0).testBit j = (decide (j < 12) && t.getLsbD 51) := by
    have hones : Nat.testBit 0xFFF j = decide (j < 12) := Nat.testBit_two_pow_sub_one 12 j
    rw [bit, ← BitVec.getLsbD]
    cases t.getLsbD 51 <;> simp [hones]
  have hbits : canonical t.toNat = true ↔ ∀ j, (decide (j < 12) && t.getLsbD (52 + j)) = (decide (j < 12) && t.getLsbD 51) := by
    simp only [canonical, decide_eq_true_eq, ← hbit, ← hall]
    exact ⟨fun h j => by rw [h], Nat.eq_of_testBit_eq⟩
  rw [hbits]
  constructor
  · intro h i h52 h64
    have := h (i - 52)
    rwa [decide_eq_true (show i - 52 < 12 by omega), Bool.true_and, Bool.true_and, Nat.add_sub_cancel' h52] at this
  · intro h j
    by_cases hj : j < 12
    · rw [h (52 + j) (by omega) (by omega)]
    · simp [hj]

theorem targetFail_of_ok {t : DWord} (h : TargetOk t) : targetFail t = none := by
  simp [targetFail, h.1, (canonical_iff t).2 h.2]

theorem targetFail_of_unaligned {t : DWord} (h : t.toNat % 32 ≠ 0) : targetFail t = some ⟨0x083, t.toNat, 0⟩ := by
  simp [targetFail, h]

theorem targetFail_of_not_ok {t : DWord} (h : t.toNat % 32 = 0) (hn : ¬TargetOk t) : targetFail t = some ⟨0x084, t.toNat, 0⟩ := by
  have hc : canonical t.toNat = false := Bool.eq_false_iff.2 fun hc => hn ⟨h, (canonical_iff t).1 hc⟩
  simp [targetFail, h, hc]

/-! ## C-slot operations of the issuing warp -/

/-- A C-slot operation on the warp alone, with its checks passed, changes that warp. -/
theorem exec_c {s : State} {c k : Nat} {w v : Warp} {i : Instr} {chk : Nat → Nat → State → Option Fail} {f : Warp → Warp} (hi : Issues s c k w i)
    (hn : slotNum i = some 3) (hf : slotFn i = some (cFn chk (wFn f))) (hk : chk c k s = none) (he : f w = v) :
    exec i s = .next (s.setWarp c k v) := by
  rw [exec_eq_runSlot hn, runSlot_c hn hf hi.1 hi.2.1 (opFail_of_issues hi) hk, he]

/-- A failed check of a C-slot operation is its trap. -/
theorem exec_c_fail {s : State} {c k : Nat} {w : Warp} {i : Instr} {chk : Nat → Nat → State → Option Fail} {f : Nat → Nat → State → State} {e : Fail}
    (hi : Issues s c k w i) (hn : slotNum i = some 3) (hf : slotFn i = some (cFn chk f)) (hk : chk c k s = some e) :
    exec i s = .next (s.failWhole c k 8 e 3) := by
  rw [exec_eq_runSlot hn, runSlot_fail_c hn hf hi.1 hi.2.1 (opFail_of_issues hi) rfl hk]

/-- A C-slot operation on the machine, with its checks passed, has its effect. -/
theorem exec_c_eff {s : State} {c k : Nat} {w : Warp} {i : Instr} {chk : Nat → Nat → State → Option Fail} {f : Nat → Nat → State → State}
    (hi : Issues s c k w i) (hn : slotNum i = some 3) (hf : slotFn i = some (cFn chk f)) (hk : chk c k s = none) :
    exec i s = .next (f c k s) := by
  rw [exec_eq_runSlot hn, runSlot_done hn hf hi.1 hi.2.1 (opFail_of_issues hi) rfl hk rfl (fun _ h => nomatch h) rfl]
  rfl

theorem guardedCheck_of {s : State} {c k : Nat} {w : Warp} {g : Guard} (hw : s.warp? c k = some w) (hg : Guarded w g) (f : Warp → Option Fail) :
    guardedCheck g c k s f = f w := by
  simp [guardedCheck, hw, (w.guardS_iff g).2 hg]

theorem guardedCheck_off {s : State} {c k : Nat} {w : Warp} {g : Guard} (hw : s.warp? c k = some w) (hg : ¬Guarded w g) (f : Warp → Option Fail) :
    guardedCheck g c k s f = none := by
  simp [guardedCheck, hw, (w.guardS_false_iff g).2 hg]

theorem guardedEff_of {s : State} {c k : Nat} {w : Warp} {g : Guard} (hw : s.warp? c k = some w) (hg : Guarded w g) (f : Warp → State) :
    guardedEff g c k s f = f w := by
  simp [guardedEff, State.onWarp_of hw, (w.guardS_iff g).2 hg]

theorem guardedEff_off {s : State} {c k : Nat} {w : Warp} {g : Guard} (hw : s.warp? c k = some w) (hg : ¬Guarded w g) (f : Warp → State) :
    guardedEff g c k s f = s := by
  simp [guardedEff, State.onWarp_of hw, (w.guardS_false_iff g).2 hg]

/-! ## Branches -/

theorem brEff_taken {g : Guard} {w : Warp} {b : Bool} (hg : Guarded w g) (hb : b = true) (t : DWord) (u : Bool) :
    brEff g w b t u = { w with ctl := .branch t u } := by
  simp [brEff, (w.guardS_iff g).2 hg, hb, Warp.branch]

theorem brEff_off {g : Guard} {w : Warp} (hg : ¬Guarded w g) (b : Bool) (t : DWord) (u : Bool) : brEff g w b t u = w := by
  simp [brEff, (w.guardS_false_iff g).2 hg]

theorem brEff_not_taken {w : Warp} {b : Bool} (hb : b = false) (g : Guard) (t : DWord) (u : Bool) : brEff g w b t u = w := by
  simp [brEff, hb]

section
variable {s : State} {c k : Nat} {w : Warp} {i : Instr} {o : CBOp} {chk : Nat → Nat → State → Option Fail} {taken : Warp → Bool}
  {tgt : Warp → DWord} {u : Bool}

/-- R220, R221: a branch on a condition: the branch when its target passes its checks, their causes when not, and nothing under a false guard. -/
theorem branch_clauses {P : Prop} (hi : Issues s c k w i) (hn : slotNum i = some 3)
    (hf : slotFn i = some (cFn chk (wFn fun w => brEff o.guard w (taken w) (tgt w) u))) (hP : P → taken w = true)
    (hk : Guarded w o.guard → taken w = true → chk c k s = targetFail (tgt w)) (hk0 : ¬Guarded w o.guard → chk c k s = none) :
    (Guarded w o.guard → P → TargetOk (tgt w) → exec i s = .next (s.setWarp c k { w with ctl := .branch (tgt w) u })) ∧
    (Guarded w o.guard → P → (tgt w).toNat % 32 ≠ 0 → exec i s = .next (s.failWhole c k 8 ⟨0x083, (tgt w).toNat, 0⟩ 3)) ∧
    (Guarded w o.guard → P → (tgt w).toNat % 32 = 0 → ¬TargetOk (tgt w) → exec i s = .next (s.failWhole c k 8 ⟨0x084, (tgt w).toNat, 0⟩ 3)) ∧
    (¬Guarded w o.guard → exec i s = .next (s.setWarp c k w)) := by
  refine ⟨fun hg hp ht => ?_, fun hg hp ht => ?_, fun hg hp ht hno => ?_, fun hg => ?_⟩
  · exact exec_c hi hn hf ((hk hg (hP hp)).trans (targetFail_of_ok ht)) (brEff_taken hg (hP hp) ..)
  · exact exec_c_fail hi hn hf ((hk hg (hP hp)).trans (targetFail_of_unaligned ht))
  · exact exec_c_fail hi hn hf ((hk hg (hP hp)).trans (targetFail_of_not_ok ht hno))
  · exact exec_c hi hn hf (hk0 hg) (brEff_off hg ..)

theorem brCheck_taken {g : Guard} (hw : s.warp? c k = some w) (hg : Guarded w g) (ht : taken w = true) :
    brCheck g c k s taken tgt = targetFail (tgt w) := by
  simp [brCheck, guardedCheck_of hw hg, ht]

theorem brCheck_off {g : Guard} (hw : s.warp? c k = some w) (hg : ¬Guarded w g) : brCheck g c k s taken tgt = none :=
  guardedCheck_off hw hg _

theorem brCheck_not_taken {g : Guard} (hw : s.warp? c k = some w) (ht : taken w = false) : brCheck g c k s taken tgt = none := by
  simp [brCheck, guardedCheck, hw, ht]

/-- A branch whose check is that of its target alone. -/
theorem plain_branch_clauses {P : Prop} (hi : Issues s c k w i) (hn : slotNum i = some 3)
    (hf : slotFn i = some (cFn (fun c k s => brCheck o.guard c k s taken tgt) (wFn fun w => brEff o.guard w (taken w) (tgt w) u)))
    (hP : P → taken w = true) :
    (Guarded w o.guard → P → TargetOk (tgt w) → exec i s = .next (s.setWarp c k { w with ctl := .branch (tgt w) u })) ∧
    (Guarded w o.guard → P → (tgt w).toNat % 32 ≠ 0 → exec i s = .next (s.failWhole c k 8 ⟨0x083, (tgt w).toNat, 0⟩ 3)) ∧
    (Guarded w o.guard → P → (tgt w).toNat % 32 = 0 → ¬TargetOk (tgt w) → exec i s = .next (s.failWhole c k 8 ⟨0x084, (tgt w).toNat, 0⟩ 3)) ∧
    (¬Guarded w o.guard → exec i s = .next (s.setWarp c k w)) :=
  branch_clauses hi hn hf hP (fun hg ht => brCheck_taken hi.2.1 hg ht) fun hg => brCheck_off hi.2.1 hg

/-- A branch whose condition is false does nothing. -/
theorem branch_not_taken (hi : Issues s c k w i) (hn : slotNum i = some 3)
    (hf : slotFn i = some (cFn (fun c k s => brCheck o.guard c k s taken tgt) (wFn fun w => brEff o.guard w (taken w) (tgt w) u)))
    (ht : taken w = false) : exec i s = .next (s.setWarp c k w) :=
  exec_c hi hn hf (brCheck_not_taken hi.2.1 ht) (brEff_not_taken ht ..)

end

/-- R220: no live lane is true. -/
theorem Warp.vote_none {w : Warp} {v : Guard} (h : ∀ l, Live w l → ¬LaneTrue w v l) : (w.vote v).1 = false :=
  Bool.eq_false_iff.2 fun ht => let ⟨l, hl, hv⟩ := (w.vote_any v).1 ht; h l hl hv

/-- R220: some live lane is false. -/
theorem Warp.vote_not_all {w : Warp} {v : Guard} (h : ∃ l, Live w l ∧ ¬LaneTrue w v l) : (w.vote v).2 = false :=
  Bool.eq_false_iff.2 fun ht => let ⟨l, hl, hv⟩ := h; hv ((w.vote_all v).1 ht l hl)

/-- R28: the check of `br.u` under a true guard: the divergence of its lanes comes before its target. -/
theorem chkBrU_of {s : State} {c k : Nat} {w : Warp} {o : CBOp} (hw : s.warp? c k = some w) (hg : Guarded w o.guard) :
    chkBrU o c k s = if (w.vote o.var).1 && !(w.vote o.var).2 then some ⟨0x080, 0, 0⟩
      else if (w.vote o.var).2 then targetFail (cbTarget w o) else none :=
  guardedCheck_of hw hg _

theorem chkBrU_off {s : State} {c k : Nat} {w : Warp} {o : CBOp} (hw : s.warp? c k = some w) (hg : ¬Guarded w o.guard) :
    chkBrU o c k s = none :=
  guardedCheck_off hw hg _

/-- R222: `call` lands the return address as it branches. -/
theorem call_clauses {s : State} {c k : Nat} {w : Warp} {o : CBOp} (hi : Issues s c k w (.call o)) :
    (Guarded w o.guard → TargetOk (offTarget w o) → ∃ x,
      exec (.call o) s = .next (s.setWarp c k { w with flight := w.flight ++ [x], ctl := .branch (offTarget w o) false }) ∧
      Lands w x 3 1 (.s 63) .none ∧ x.scalar = w.pc + 32) ∧
    (Guarded w o.guard → (offTarget w o).toNat % 32 ≠ 0 → exec (.call o) s = .next (s.failWhole c k 8 ⟨0x083, (offTarget w o).toNat, 0⟩ 3)) ∧
    (Guarded w o.guard → (offTarget w o).toNat % 32 = 0 → ¬ TargetOk (offTarget w o) →
      exec (.call o) s = .next (s.failWhole c k 8 ⟨0x084, (offTarget w o).toNat, 0⟩ 3)) ∧
    (¬ Guarded w o.guard → exec (.call o) s = .next (s.setWarp c k w)) := by
  have hk (hg : Guarded w o.guard) : chkCall o c k s = targetFail (offTarget w o) :=
    cbTarget_eq_offTarget w o ▸ brCheck_taken hi.2.1 hg rfl
  refine ⟨fun hg ht => ⟨w.scalarLanding 3 1 (.s 63) .none (w.pc + 32) 0, ?_, ⟨rfl, rfl, rfl, rfl, rfl, rfl, rfl⟩, rfl⟩,
    fun hg ht => ?_, fun hg ht hno => ?_, fun hg => ?_⟩
  · refine exec_c hi rfl rfl ((hk hg).trans (targetFail_of_ok ht)) ?_
    simp only [effCall, (w.guardS_iff _).2 hg, if_true, cbTarget_eq_offTarget]
    rfl
  · exact exec_c_fail hi rfl rfl ((hk hg).trans (targetFail_of_unaligned ht))
  · exact exec_c_fail hi rfl rfl ((hk hg).trans (targetFail_of_not_ok ht hno))
  · exact exec_c hi rfl rfl (brCheck_off hi.2.1 hg) (by simp [effCall, (w.guardS_false_iff _).2 hg])

/-- Settles O27. -/
theorem branches : Obligations.Branches := by
  simp only [Obligations.Branches, List.forall_mem_cons, List.not_mem_nil, false_imp_iff, implies_true, and_true]
  refine ⟨⟨?br, ?jmp, ?jmpr, ?ret, ?any, ?all, ?u⟩, ?anyOff, ?allOff, ?uOff, fun o s c k w hi => call_clauses hi⟩
  case br =>
    intro o s c k w hi
    rw [← cbTarget_eq_offTarget]
    exact plain_branch_clauses (taken := fun _ => true) (tgt := fun w => cbTarget w o) hi rfl rfl fun _ => rfl
  case jmp =>
    intro o s c k w hi
    rw [← cbTarget_eq_offTarget]
    exact plain_branch_clauses (taken := fun _ => true) (tgt := fun w => cbTarget w o) hi rfl rfl fun _ => rfl
  case jmpr =>
    intro o s c k w hi
    exact plain_branch_clauses (taken := fun _ => true) (tgt := fun w => w.s o.sreg.val) hi rfl rfl fun _ => rfl
  case ret =>
    intro o s c k w hi
    exact plain_branch_clauses (taken := fun _ => true) (tgt := fun w => w.s 63) hi rfl rfl fun _ => rfl
  case any =>
    intro o s c k w hi
    rw [← cbTarget_eq_offTarget]
    exact plain_branch_clauses (taken := fun w => (w.vote o.var).1) (tgt := fun w => cbTarget w o) hi rfl rfl (w.vote_any _).2
  case all =>
    intro o s c k w hi
    rw [← cbTarget_eq_offTarget]
    exact plain_branch_clauses (taken := fun w => (w.vote o.var).2) (tgt := fun w => cbTarget w o) hi rfl rfl (w.vote_all _).2
  case u =>
    intro o s c k w hi
    rw [← cbTarget_eq_offTarget]
    refine branch_clauses (taken := fun w => (w.vote o.var).2) (tgt := fun w => cbTarget w o) hi rfl rfl (w.vote_all _).2
      (fun hg ht => ?_) fun hg => chkBrU_off hi.2.1 hg
    simp [chkBrU_of hi.2.1 hg, ht]
  case anyOff =>
    intro o s c k w hi h
    exact branch_not_taken (taken := fun w => (w.vote o.var).1) (tgt := fun w => cbTarget w o) hi rfl rfl (Warp.vote_none h)
  case allOff =>
    intro o s c k w hi h
    exact branch_not_taken (taken := fun w => (w.vote o.var).2) (tgt := fun w => cbTarget w o) hi rfl rfl (Warp.vote_not_all h)
  case uOff =>
    intro o s c k w hi h
    have hall := Warp.vote_not_all h
    refine ⟨fun hno => ?_, fun hsome hg => ?_⟩
    · refine exec_c hi rfl rfl ?_ (brEff_not_taken hall ..)
      by_cases hg : Guarded w o.guard
      · simp [chkBrU_of hi.2.1 hg, hall, Warp.vote_none hno]
      · exact chkBrU_off hi.2.1 hg
    · refine exec_c_fail hi rfl rfl ?_
      simp [chkBrU_of hi.2.1 hg, hall, (w.vote_any _).2 hsome]

/-! ## The successor of a bundle -/

theorem unwind_eq_dropWhile (t : DWord) (ls : List LoopLevel) :
    unwind t ls = ls.dropWhile fun l => decide (t < l.start ∨ l.stop < t) := by
  induction ls with
  | nil => rfl
  | cons l ls ih => simp only [unwind, List.dropWhile_cons, decide_eq_true_eq, ih]

/-- A pop keeps every warp. -/
theorem notePop_warps (s : State) (c k a b : Nat) (d j : Nat) : (s.notePop c k a b).warp? d j = s.warp? d j := by
  refine State.warp_modCore ?_ d j
  dsimp only
  split
  · split <;> exact CoreSt.takeSnapshot_warps ..
  · rfl

/-- A pop keeps what a quiet instruction keeps. -/
theorem quiet_notePop (s : State) (c k a b : Nat) : Quiet s (s.notePop c k a b) c k :=
  ⟨⟨rfl, rfl, rfl, rfl, fun d j _ => notePop_warps s c k a b d j⟩, rfl⟩

/-- R16, R224: a bundle that has not ended its warp is followed by its successor, due GAP ticks later. -/
theorem State.advance_of {s : State} {c k : Nat} {w : Warp} (hw : s.warp? c k = some w) (hd : w.ctl ≠ .done) :
    s.advance c k = (s.setWarp c k { w with
      loops := (successor w.pc w.ctl w.loops).1
      pc := (successor w.pc w.ctl w.loops).2
      due := w.tick + w.gap
      ctl := .none
      replay := none
      brt := none
      stretched := false
      holdNext := w.holdNext && w.priv }).notePop c k w.loops.length (successor w.pc w.ctl w.loops).1.length := by
  unfold State.advance
  rw [hw]
  dsimp only
  split
  · next h => exact absurd h hd
  · rfl

/-! ## Loops -/

theorem loopCount_eq (o : CBOp) (w : Warp) : loopCount o w = BitVec.ofNat 32 ((w.s o.sreg.val).toNat % 2 ^ 32) := by
  apply BitVec.eq_of_toNat_eq
  simp [loopCount]

theorem loopCount_eq_zero_iff (o : CBOp) (w : Warp) : loopCount o w = 0 ↔ (w.s o.sreg.val).toNat % 2 ^ 32 = 0 := by
  rw [← BitVec.toNat_inj]
  simp [loopCount]

/-- R223: the check of `loop` under a true guard with a count. -/
theorem chkLoop_of {s : State} {c k : Nat} {w : Warp} {o : CBOp} (hw : s.warp? c k = some w) (hg : Guarded w o.guard) (hn : loopCount o w ≠ 0)
    (hl : w.loops.length < 4) : chkLoop o c k s = if ∃ l, w.loops.head? = some l ∧ l.stop = w.pc then some ⟨0x085, 0, 0⟩ else none := by
  unfold chkLoop
  rw [guardedCheck_of hw hg, if_neg hn, if_neg (by omega)]
  cases w.loops <;> simp

/-- R221, R223, R364: what `loop` does. -/
theorem loop_clauses {s : State} {c k : Nat} {w : Warp} {o : CBOp} (hi : Issues s c k w (.loop o)) :
    let n := (w.s o.sreg.val).toNat % 2 ^ 32
    let e := offTarget w o
    (¬ Guarded w o.guard → exec (.loop o) s = .next (s.setWarp c k w)) ∧
    (Guarded w o.guard → n = 0 → TargetOk (e + 32) → exec (.loop o) s = .next (s.setWarp c k { w with ctl := .branch (e + 32) true })) ∧
    (Guarded w o.guard → n ≠ 0 → w.loops.length < 4 → (∀ l, w.loops.head? = some l → l.stop ≠ w.pc) →
      exec (.loop o) s = .next (s.setWarp c k { w with loops := ⟨w.pc + 32, e, BitVec.ofNat 32 n, true⟩ :: w.loops })) ∧
    (Guarded w o.guard → n ≠ 0 → 4 ≤ w.loops.length → exec (.loop o) s = .next (s.failWhole c k 8 ⟨0x081, 0, 0⟩ 3)) ∧
    (Guarded w o.guard → n ≠ 0 → w.loops.length < 4 → (∃ l, w.loops.head? = some l ∧ l.stop = w.pc) →
      exec (.loop o) s = .next (s.failWhole c k 8 ⟨0x085, 0, 0⟩ 3)) := by
  intro n e
  have hw := hi.2.1
  have hz : n = 0 ↔ loopCount o w = 0 := (loopCount_eq_zero_iff o w).symm
  have hguard (hg : Guarded w o.guard) := (w.guardS_iff o.guard).2 hg
  refine ⟨fun hg => ?off, fun hg h0 ht => ?zero, fun hg h0 hl hs => ?push, fun hg h0 hl => ?deep, fun hg h0 hl hs => ?same⟩
  case off => exact exec_c hi rfl rfl (guardedCheck_off hw hg _) (by simp [effLoop, (w.guardS_false_iff _).2 hg])
  case zero =>
    rw [hz] at h0
    refine exec_c hi rfl rfl ?_ ?_
    · simp only [chkLoop, guardedCheck_of hw hg, h0, if_true, cbTarget_eq_offTarget]
      exact targetFail_of_ok ht
    · simp [effLoop, hguard hg, h0, cbTarget_eq_offTarget, Warp.branch, e]
  case push =>
    rw [ne_eq, hz] at h0
    refine exec_c hi rfl rfl ?_ ?_
    · rw [chkLoop_of hw hg h0 hl, if_neg fun ⟨l, hl, he⟩ => hs l hl he]
    · rw [effLoop, if_neg (by simp [hguard hg]), if_neg h0, cbTarget_eq_offTarget, loopCount_eq]
  case deep =>
    rw [ne_eq, hz] at h0
    refine exec_c_fail hi rfl rfl ?_
    simp only [chkLoop, guardedCheck_of hw hg, if_neg h0, if_pos hl]
  case same =>
    rw [ne_eq, hz] at h0
    exact exec_c_fail hi rfl rfl (by rw [chkLoop_of hw hg h0 hl, if_pos hs])

/-- R225: what `lpop` does. -/
theorem lpop_clauses {s : State} {c k : Nat} {w : Warp} {o : CSOp} (hi : Issues s c k w (.lpop o)) :
    (¬ Guarded w o.guard → exec (.lpop o) s = .next s) ∧
    (Guarded w o.guard → w.loops = [] → exec (.lpop o) s = .next (s.failWhole c k 8 ⟨0x082, 0, 0⟩ 3)) ∧
    (Guarded w o.guard → w.loops ≠ [] → ∃ t, exec (.lpop o) s = .next t ∧ t.warp? c k = some { w with loops := w.loops.tail } ∧ Quiet s t c k) := by
  have hw := hi.2.1
  refine ⟨fun hg => ?_, fun hg hl => ?_, fun hg hl => ?_⟩
  · rw [exec_c_eff hi rfl rfl (guardedCheck_off hw hg _), effLpop, guardedEff_off hw hg]
  · exact exec_c_fail hi rfl rfl ((guardedCheck_of hw hg _).trans (if_pos hl))
  · refine ⟨_, exec_c_eff hi rfl rfl ((guardedCheck_of hw hg _).trans (if_neg hl)), ?_, ?_⟩ <;> rw [effLpop, guardedEff_of hw hg]
    · rw [notePop_warps, State.warp_setWarp_self]
    · exact quiet_trans (quiet_setWarp s c k _) (quiet_notePop ..)

/-- Settles O28. -/
theorem loopsAndSuccessors : Obligations.LoopsAndSuccessors := by
  refine ⟨⟨fun _ _ _ => rfl, fun b t ls => ?unwind, fun _ => rfl, fun b l ls h => ?go, fun b l ls h hc => ?round, fun b l ls h hc => ?pop,
    fun s c k w hw hd => ?advance⟩, fun o s c k w hi => loop_clauses hi, fun o s c k w hi => lpop_clauses hi⟩
  case unwind => simp only [successor, if_true, unwind_eq_dropWhile]
  case go => simp [successor, loopStep, Ne.symm h]
  case round => simp [successor, loopStep, h, hc]
  case pop => simp [successor, loopStep, h, Nat.not_lt.2 hc]
  case advance =>
    rw [State.advance_of hw hd]
    exact ⟨by rw [notePop_warps, State.warp_setWarp_self], quiet_trans (quiet_setWarp s c k _) (quiet_notePop ..)⟩

end Sys2Proof.Machine
end

