-- ==== Sys2Proof/Proofs/LaneMask.lean ====
section
/-! PROOFS. The lane mask as bits, and the end of a warp (R12, R30, R237, R238, R243). -/

namespace Sys2Proof.Machine
open Claim

/-! ## Sets of lanes as numbers -/

/-- The number whose bits below `n` are those of a predicate. -/
def bitSum (p : Nat → Bool) (n : Nat) : Nat := (List.range n).foldl (fun a i => a + if p i then 2 ^ i else 0) 0

theorem bitSum_succ (p : Nat → Bool) (n : Nat) : bitSum p (n + 1) = bitSum p n + if p n then 2 ^ n else 0 := by
  simp [bitSum, List.range_succ]

theorem bitSum_lt (p : Nat → Bool) (n : Nat) : bitSum p n < 2 ^ n := by
  induction n with
  | zero => simp [bitSum]
  | succ n ih =>
    rw [bitSum_succ, Nat.pow_succ]
    split <;> omega

theorem testBit_bitSum (p : Nat → Bool) (n j : Nat) : (bitSum p n).testBit j = (decide (j < n) && p j) := by
  induction n with
  | zero => simp [bitSum]
  | succ n ih =>
    rw [bitSum_succ]
    have hor : bitSum p n + (if p n then 2 ^ n else 0) = (if p n then 2 ^ n else 0) ||| bitSum p n := by
      split
      · rw [Nat.add_comm, ← Nat.mul_one (2 ^ n), Nat.two_pow_add_eq_or_of_lt (bitSum_lt p n)]
      · simp
    rw [hor, Nat.testBit_or, ih]
    rcases Nat.lt_trichotomy j n with h | rfl | h
    · have hn : (if p n then 2 ^ n else 0).testBit j = false := by
        split
        · exact Nat.testBit_two_pow_of_ne (by omega)
        · exact Nat.zero_testBit j
      simp [hn, h, Nat.lt_succ_of_lt h]
    · cases h : p j <;> simp
    · have hn : (if p n then 2 ^ n else 0).testBit j = false := by
        split
        · exact Nat.testBit_two_pow_of_ne (by omega)
        · exact Nat.zero_testBit j
      simp [hn, Nat.not_lt.2 (Nat.le_of_lt h), show ¬j < n + 1 by omega]

/-- The sum of the lanes of a warp that satisfy a predicate, in a lane. -/
theorem testBit_liveSum (w : Warp) (p : Nat → Bool) (l : Nat) :
    (((w.liveLanes.filter p).foldl (fun m l => m + 2 ^ l) 0).testBit l = true) ↔ Live w l ∧ p l = true := by
  have hsum : (w.liveLanes.filter p).foldl (fun m l => m + 2 ^ l) 0 = bitSum (fun l => p l && w.live l) w.width := by
    rw [Warp.liveLanes, List.filter_filter, List.foldl_filter, bitSum]
    congr 1
    funext m l
    split <;> rfl
  rw [hsum, testBit_bitSum, Bool.and_eq_true, decide_eq_true_eq, Bool.and_eq_true]
  exact ⟨fun ⟨h, hp, hl⟩ => ⟨⟨h, hl⟩, hp⟩, fun ⟨⟨h, hl⟩, hp⟩ => ⟨h, hp, hl⟩⟩

/-- R12: bit `j` of the summary word: some lane of mask word `j` is live. -/
theorem testBit_summary (w : Warp) (j : Nat) : w.summary.testBit j = true ↔ j < w.k ∧ ∃ i < 32, w.mask.getLsbD (32 * j + i) = true := by
  have hsum : w.summary = bitSum (fun i => decide (bits w.mask.toNat (32 * i + 31) (32 * i) ≠ 0)) w.k := by
    simp [Warp.summary, summaryOf, bitSum]
  have hbit (i : Nat) : (bits w.mask.toNat (32 * j + 31) (32 * j)).testBit i = (decide (i < 32) && w.mask.getLsbD (32 * j + i)) := by
    rw [bits, show 32 * j + 31 + 1 - 32 * j = 32 by omega, Nat.testBit_mod_two_pow, Nat.testBit_shiftRight, BitVec.getLsbD]
  have hword : bits w.mask.toNat (32 * j + 31) (32 * j) ≠ 0 ↔ ∃ i < 32, w.mask.getLsbD (32 * j + i) = true := by
    constructor
    · intro h
      obtain ⟨i, hi⟩ := Nat.exists_testBit_of_ne_zero h
      rw [hbit, Bool.and_eq_true, decide_eq_true_eq] at hi
      exact ⟨i, hi⟩
    · intro ⟨i, hi, hm⟩ h0
      have := hbit i
      simp [h0, hi, hm] at this
  rw [hsum, testBit_bitSum, Bool.and_eq_true, decide_eq_true_eq, decide_eq_true_eq, hword]

/-! ## `lexit`, `mset` and `mget` -/

/-- The lanes that `lexit` retires. -/
def lexitLanes (o : CSOp) (w : Warp) : LaneMask :=
  BitVec.ofNat 1024 ((w.liveLanes.filter fun l => w.guardV ⟨o.sub.val % 2 = 1, Fin.ofNat 8 o.a.val⟩ l).foldl (fun m l => m + 2 ^ l) 0)

theorem lexit_clauses {s : State} {c k : Nat} {w : Warp} {o : CSOp} (hi : Issues s c k w (.lexit o)) :
    (¬ Guarded w o.guard → exec (.lexit o) s = .next (s.setWarp c k w)) ∧
    (Guarded w o.guard → w.k ≤ 32 → ∃ r, exec (.lexit o) s = .next (s.setWarp c k { w with retire := r }) ∧
      ∀ l < 1024, (r.getLsbD l = true ↔ w.retire.getLsbD l = true ∨
        Live w l ∧ LaneTrue w ⟨decide (o.sub.val % 2 = 1), Fin.ofNat 8 o.a.val⟩ l)) := by
  refine ⟨fun hg => ?_, fun hg _ => ⟨w.retire ||| lexitLanes o w, ?_, fun l hl => ?_⟩⟩
  · exact exec_c hi rfl rfl rfl (by simp [effLexit, (w.guardS_false_iff _).2 hg])
  · exact exec_c hi rfl rfl rfl (by rw [effLexit, if_pos ((w.guardS_iff _).2 hg)]; rfl)
  · rw [lexitLanes, BitVec.getLsbD_or, Bool.or_eq_true, BitVec.getLsbD_ofNat, decide_eq_true hl, Bool.true_and, testBit_liveSum, Warp.guardV_iff]

/-- The bits of a word that are 0, moved to word `n` of a mask. -/
theorem testBit_leaving (x : DWord) (n l : Nat) :
    ((2 ^ 64 - 1 - x.toNat) * 2 ^ (64 * n)).testBit l = true ↔ l / 64 = n ∧ x.getLsbD (l % 64) = false := by
  rw [Nat.sub_sub, Nat.add_comm, Nat.testBit_mul_two_pow, Nat.testBit_two_pow_sub_succ x.isLt]
  by_cases h : l / 64 = n
  · have hl : l - 64 * n = l % 64 := by omega
    have hge : 64 * n ≤ l := by omega
    simp [h, hl, hge, Nat.mod_lt, BitVec.getLsbD]
  · have hno : ¬(64 * n ≤ l ∧ l - 64 * n < 64) := by omega
    simp only [h, false_and, iff_false, Bool.and_eq_true, decide_eq_true_eq]
    exact fun ⟨ha, hb, _⟩ => hno ⟨ha, hb⟩

/-- The lanes that `mset` retires. -/
def msetLanes (o : CSOp) (w : Warp) : LaneMask := BitVec.ofNat 1024 ((2 ^ 64 - 1 - (w.s o.a.val).toNat) * 2 ^ (64 * csN o))

theorem mset_clauses {s : State} {c k : Nat} {w : Warp} {o : CSOp} (hi : Issues s c k w (.mset o)) :
    (¬ Guarded w o.guard → exec (.mset o) s = .next (s.setWarp c k w)) ∧
    (Guarded w o.guard → ∃ r, exec (.mset o) s = .next (s.setWarp c k { w with retire := r }) ∧
      ∀ l < 1024, (r.getLsbD l = true ↔ w.retire.getLsbD l = true ∨ (l / 64 = csN o ∧ (w.s o.a.val).getLsbD (l % 64) = false))) := by
  refine ⟨fun hg => ?_, fun hg => ⟨w.retire ||| msetLanes o w, ?_, fun l hl => ?_⟩⟩
  · exact exec_c hi rfl rfl rfl (by simp [effMset, (w.guardS_false_iff _).2 hg])
  · exact exec_c hi rfl rfl rfl (by rw [effMset, if_pos ((w.guardS_iff _).2 hg)]; rfl)
  · rw [msetLanes, BitVec.getLsbD_or, Bool.or_eq_true, BitVec.getLsbD_ofNat, decide_eq_true hl, Bool.true_and, testBit_leaving]

/-- What `mget` lands (R238). -/
def mgetValue (o : CSOp) (w : Warp) : DWord :=
  if csN o = 16 then BitVec.ofNat 64 w.summary else BitVec.ofNat 64 (bits w.mask.toNat (64 * csN o + 63) (64 * csN o))

theorem mgetValue_word {o : CSOp} {w : Warp} (h : csN o < 16) {j : Nat} (hj : j < 64) :
    (mgetValue o w).getLsbD j = w.mask.getLsbD (64 * csN o + j) := by
  rw [mgetValue, if_neg (Nat.ne_of_lt h), BitVec.getLsbD_ofNat, bits, show 64 * csN o + 63 + 1 - 64 * csN o = 64 by omega,
    Nat.testBit_mod_two_pow, Nat.testBit_shiftRight, BitVec.getLsbD]
  simp [hj]

theorem mgetValue_summary {o : CSOp} {w : Warp} (h : csN o = 16) {j : Nat} (hj : j < 64) :
    (mgetValue o w).getLsbD j = true ↔ j < w.k ∧ ∃ i < 32, w.mask.getLsbD (32 * j + i) = true := by
  rw [mgetValue, if_pos h, BitVec.getLsbD_ofNat, decide_eq_true hj, Bool.true_and, testBit_summary]

theorem mget_clauses {s : State} {c k : Nat} {w : Warp} {o : CSOp} (hi : Issues s c k w (.mget o)) :
    (¬ Guarded w o.guard → exec (.mget o) s = .next (s.setWarp c k w)) ∧
    (Guarded w o.guard → CLands s c k w (.mget o) (.s o.d.val) (mgetValue o w)) := by
  refine ⟨fun hg => ?_, fun hg => ⟨w.scalarLanding 3 1 (.s o.d.val) .none (mgetValue o w) 0, ?_, ⟨rfl, rfl, rfl, rfl, rfl, rfl, rfl⟩, rfl, rfl, rfl⟩⟩
  · exact exec_c hi rfl rfl rfl (by simp [effMget, Warp.aluS, (w.guardS_false_iff _).2 hg])
  · exact exec_c hi rfl rfl rfl (by rw [effMget, Warp.aluS, if_pos ((w.guardS_iff _).2 hg)]; rfl)

/-! ## The end of a warp -/

/-- The stores of the machine, and the monitors on them, are unchanged. -/
structure SameStores (s t : State) : Prop where
  hbm : t.hbm = s.hbm
  host : t.host = s.host
  monitors : t.monitors = s.monitors

theorem sameStores_refl (s : State) : SameStores s s := ⟨rfl, rfl, rfl⟩

theorem SameStores.trans {s t u : State} (h : SameStores s t) (g : SameStores t u) : SameStores s u :=
  ⟨g.hbm.trans h.hbm, g.host.trans h.host, g.monitors.trans h.monitors⟩

/-- The warp of a slot stays as it is when nothing holds it. -/
structure IdleStays (c k : Nat) (s t : State) : Prop where
  stays : ∀ w, s.warp? c k = some w → w.hold = none → w.kept = none → t.warp? c k = some w

theorem idleStays_of_warp {c k : Nat} {s t : State} (h : t.warp? c k = s.warp? c k) : IdleStays c k s t := ⟨fun _ hw _ _ => h.trans hw⟩

theorem IdleStays.trans {c k : Nat} {s t u : State} (h : IdleStays c k s t) (g : IdleStays c k t u) : IdleStays c k s u :=
  ⟨fun w hw hh hk => g.stays w (h.stays w hw hh hk) hh hk⟩

/-- What every pass of a fold keeps, the fold keeps. -/
theorem foldl_keeps {α β : Type} {R : β → β → Prop} (hr : ∀ s, R s s) (ht : ∀ {s t u}, R s t → R t u → R s u) {f : β → α → β}
    (hf : ∀ s x, R s (f s x)) (xs : List α) (s : β) : R s (xs.foldl f s) := by
  induction xs generalizing s with
  | nil => exact hr s
  | cons x xs ih => exact ht (hf s x) (ih _)

theorem sameStores_foldl {α : Type} {f : State → α → State} (hf : ∀ s x, SameStores s (f s x)) (xs : List α) (s : State) :
    SameStores s (xs.foldl f s) := foldl_keeps sameStores_refl SameStores.trans hf xs s

theorem idleStays_foldl {α : Type} {c k : Nat} {f : State → α → State} (hf : ∀ s x, IdleStays c k s (f s x)) (xs : List α) (s : State) :
    IdleStays c k s (xs.foldl f s) := foldl_keeps (fun _ => idleStays_of_warp rfl) IdleStays.trans hf xs s

theorem sameStores_setWarp (s : State) (c k : Nat) (w : Warp) : SameStores s (s.setWarp c k w) := ⟨rfl, rfl, rfl⟩

theorem sameStores_modWarp (s : State) (c k : Nat) (f : Warp → Warp) : SameStores s (s.modWarp c k f) := ⟨by simp, by simp, by simp⟩

theorem sameStores_modCore (s : State) (c : Nat) (f : CoreSt → CoreSt) : SameStores s (s.modCore c f) := ⟨rfl, rfl, rfl⟩

theorem sameStores_setBarrier (s : State) (cl : Bool) (b i : Nat) (v : Barrier) : SameStores s (s.setBarrier cl b i v) := by
  unfold State.setBarrier
  split
  · exact sameStores_refl s
  · split <;> exact ⟨by simp, by simp, by simp⟩

/-- Writing a barrier keeps every warp. -/
theorem setBarrier_warp (s : State) (cl : Bool) (b i : Nat) (v : Barrier) (c k : Nat) : (s.setBarrier cl b i v).warp? c k = s.warp? c k := by
  unfold State.setBarrier
  split
  · rfl
  · split <;> simp [State.warp?, State.core]

theorem sameStores_unarrive (s : State) (c k b : Nat) (p : Bool → Nat → Barrier → Bool) : SameStores s (s.unarrive c k b p) := by
  refine sameStores_foldl (fun s cl => sameStores_foldl (fun s i => ?_) _ s) _ s
  dsimp only
  split
  · exact sameStores_setBarrier ..
  · exact sameStores_refl s

/-- The warp of a slot is unchanged. -/
structure SameWarp (c k : Nat) (s t : State) : Prop where
  same : t.warp? c k = s.warp? c k

theorem sameWarp_foldl {α : Type} {c k : Nat} {f : State → α → State} (hf : ∀ s x, SameWarp c k s (f s x)) (xs : List α) (s : State) :
    SameWarp c k s (xs.foldl f s) := foldl_keeps (fun _ => ⟨rfl⟩) (fun h g => ⟨g.same.trans h.same⟩) hf xs s

/-- Taking a warp out of the arrival sets keeps every warp. -/
theorem sameWarp_unarrive (s : State) (c k b : Nat) (p : Bool → Nat → Barrier → Bool) (d j : Nat) : SameWarp d j s (s.unarrive c k b p) := by
  refine sameWarp_foldl (fun s cl => sameWarp_foldl (fun s i => ⟨?_⟩) _ s) _ s
  dsimp only
  split
  · exact setBarrier_warp ..
  · rfl

theorem sameStores_withdraw (s : State) (c k : Nat) (w : Warp) (x : Bool × Bool × Nat × Nat) : SameStores s (s.withdraw c k w x) := by
  unfold State.withdraw
  exact (sameStores_unarrive s c k w.block _).trans (sameStores_modWarp _ c k _)

theorem sameStores_lapse (s : State) (cl : Bool) (b i : Nat) : SameStores s (s.lapse cl b i) := by
  refine sameStores_foldl (fun s p => ?_) _ s
  split
  · exact sameStores_refl s
  · split
    · exact sameStores_withdraw ..
    · exact sameStores_refl s

theorem sameStores_lapseAll (s : State) (b : Nat) : SameStores s (s.lapseAll b) :=
  sameStores_foldl (fun s i => (sameStores_lapse s false b i).trans (sameStores_lapse _ true b i)) _ s

theorem sameStores_streamLandings (s : State) (c : Nat) (xs : List Landing) : SameStores s (s.streamLandings c xs) := by
  unfold State.streamLandings
  dsimp only
  split
  · exact sameStores_refl s
  · exact sameStores_modCore ..

theorem sameStores_clearBarrier (s : State) (cl : Bool) (b i : Nat) (ok : Bool) : SameStores s (s.clearBarrier cl b i ok) := by
  have hfree : ∀ xs : List (Nat × Nat), SameStores s (xs.foldl (fun s p => s.modWarp p.1 p.2 fun w => w.freeBar s.cycle cl i ok) s) :=
    fun xs => sameStores_foldl (fun s p => sameStores_modWarp ..) xs s
  have hset := (hfree (s.arrivedOf cl b i)).trans (sameStores_setBarrier _ cl b i ⟨[], none, ((s.barrier cl b i).gen + 1) % 2 ^ 32⟩)
  unfold State.clearBarrier
  dsimp only
  split
  · split
    · exact hset
    · exact hset.trans ⟨rfl, rfl, rfl⟩
  · exact hset

theorem sameStores_checkBarrier (s : State) (cl : Bool) (b i : Nat) : SameStores s (s.checkBarrier cl b i) := by
  unfold State.checkBarrier
  dsimp only
  split
  · exact sameStores_refl s
  · split
    · exact sameStores_clearBarrier ..
    · exact sameStores_refl s
  · split
    · exact sameStores_clearBarrier ..
    · split
      · exact sameStores_clearBarrier ..
      · exact sameStores_refl s

theorem sameStores_checkBarriers (s : State) (b : Nat) : SameStores s (s.checkBarriers b) :=
  sameStores_foldl (fun s i => (sameStores_checkBarrier s false b i).trans (sameStores_checkBarrier _ true b i)) _ s

/-- A barrier ends nothing of a warp that nothing holds. -/
theorem Warp.freeBar_idle {w : Warp} (hh : w.hold = none) (hk : w.kept = none) (now : Nat) (cl : Bool) (i : Nat) (ok : Bool) :
    w.freeBar now cl i ok = w := by
  simp [Warp.freeBar, hh, hk, Hold.at?]

/-- Changing a warp leaves every other one alone. -/
theorem State.warp_modWarp_other (s : State) {c k d j : Nat} (f : Warp → Warp) (h : (d, j) ≠ (c, k)) :
    (s.modWarp c k f).warp? d j = s.warp? d j := by
  cases hw : s.warp? c k with
  | none => rw [State.modWarp_none hw]
  | some w => rw [State.modWarp_of hw, State.warp_setWarp_other s _ h]

theorem idleStays_freeBar (c k : Nat) (s : State) (p : Nat × Nat) (now : Nat) (cl : Bool) (i : Nat) (ok : Bool) :
    IdleStays c k s (s.modWarp p.1 p.2 fun w => w.freeBar now cl i ok) := by
  refine ⟨fun w hw hh hk => ?_⟩
  by_cases hp : (c, k) = p
  · subst hp
    rw [State.warp_modWarp hw, Warp.freeBar_idle hh hk]
  · rw [State.warp_modWarp_other s _ hp, hw]

theorem idleStays_clearBarrier (c k : Nat) (s : State) (cl : Bool) (b i : Nat) (ok : Bool) : IdleStays c k s (s.clearBarrier cl b i ok) := by
  have hfree : ∀ xs : List (Nat × Nat), IdleStays c k s (xs.foldl (fun s p => s.modWarp p.1 p.2 fun w => w.freeBar s.cycle cl i ok) s) :=
    fun xs => idleStays_foldl (fun s p => idleStays_freeBar ..) xs s
  have hset := (hfree (s.arrivedOf cl b i)).trans
    (idleStays_of_warp (setBarrier_warp _ cl b i ⟨[], none, ((s.barrier cl b i).gen + 1) % 2 ^ 32⟩ c k))
  unfold State.clearBarrier
  dsimp only
  split
  · split
    · exact hset
    · exact hset.trans (idleStays_of_warp rfl)
  · exact hset

theorem idleStays_checkBarrier (c k : Nat) (s : State) (cl : Bool) (b i : Nat) : IdleStays c k s (s.checkBarrier cl b i) := by
  have hid : IdleStays c k s s := idleStays_of_warp rfl
  unfold State.checkBarrier
  dsimp only
  split
  · exact hid
  · split
    · exact idleStays_clearBarrier ..
    · exact hid
  · split
    · exact idleStays_clearBarrier ..
    · split
      · exact idleStays_clearBarrier ..
      · exact hid

theorem idleStays_checkBarriers (c k : Nat) (s : State) (b : Nat) : IdleStays c k s (s.checkBarriers b) :=
  idleStays_foldl (fun s i => (idleStays_checkBarrier c k s false b i).trans (idleStays_checkBarrier c k _ true b i)) _ s

/-- What is left of a warp that has ended (R30). -/
def Warp.over (w : Warp) (now : Nat) : Warp :=
  { w.discard with stop := .ended, since := now, hold := none, kept := none, trap := none, mask := 0, retire := 0, opened := false, deferred := []
                   ended := none, awaits := none }

/-- R30: the end of a warp: what is left of it, and the stores unchanged but for its monitors. -/
theorem endWarp_of {s : State} {c k : Nat} {w : Warp} (hw : s.warp? c k = some w) (he : w.stop ≠ .ended) (killed : Bool) :
    ∃ now, (s.endWarp c k killed).warp? c k = some (w.over now) ∧ (s.endWarp c k killed).hbm = s.hbm ∧ (s.endWarp c k killed).host = s.host ∧
      ∀ m ∈ (s.endWarp c k killed).monitors, ¬(m.core = c ∧ m.slot = k) := by
  let xs := w.flight.filter fun x => match x.dest with | .sd _ n => n = 4 | _ => false
  let s1 := (s.lapseAll w.block).streamLandings c xs
  let s2 := s1.setWarp c k (w.over s1.cycle)
  let s3 : State := { s2 with monitors := s2.monitors.filter fun m => !(m.core = c && m.slot = k) }
  let s4 := s3.modCore c fun x => { x with ops := x.ops.map fun o => if o.slot = k then { o with dead := true } else o }
  let s5 := if killed then s4.unarrive c k w.block fun _ _ v => match v.form with | some (some _) => true | _ => false else s4
  have hend : s.endWarp c k killed = (s5.forget c k).checkBarriers w.block := by
    unfold State.endWarp
    rw [hw]
    exact if_neg he
  have h1 : SameStores s s1 := (sameStores_lapseAll ..).trans (sameStores_streamLandings ..)
  have h45 : SameStores s4 s5 := by
    unfold s5
    split
    · exact sameStores_unarrive ..
    · exact sameStores_refl _
  have h34 : SameStores s3 s4 := sameStores_modCore ..
  have hforget : SameStores s5 (s5.forget c k) := ⟨rfl, rfl, rfl⟩
  have h5 : SameStores s3 (s.endWarp c k killed) := hend ▸ h34.trans (h45.trans (hforget.trans (sameStores_checkBarriers ..)))
  have hw4 : s4.warp? c k = some (w.over s1.cycle) := (State.warp_modCore (s := s3) rfl c k).trans (State.warp_setWarp_self s1 c k _)
  have hw5 : s5.warp? c k = some (w.over s1.cycle) := by
    unfold s5
    split
    · exact (sameWarp_unarrive s4 ..).same.trans hw4
    · exact hw4
  refine ⟨s1.cycle, ?_, h5.hbm.trans h1.hbm, h5.host.trans h1.host, fun m hm => ?_⟩
  · rw [hend]
    exact (idleStays_checkBarriers c k (s5.forget c k) w.block).stays _ hw5 rfl rfl
  · rw [h5.monitors] at hm
    intro ⟨hc, hk⟩
    simpa [hc, hk] using (List.mem_filter.1 hm).2

theorem exit_clauses {s : State} {c k : Nat} {w : Warp} {o : CSOp} (hi : Issues s c k w (.exit o)) :
    (¬ Guarded w o.guard → exec (.exit o) s = .next s) ∧
    (Guarded w o.guard → w.stop ≠ .ended → ∃ t w', exec (.exit o) s = .next t ∧ t.warp? c k = some w' ∧ w'.stop = .ended ∧ w'.mask = 0 ∧
      w'.flight = [] ∧ w'.hold = none ∧ w'.trap = none ∧ w'.vregs = w.vregs ∧ w'.sregs = w.sregs ∧ w'.flags = w.flags ∧
      t.hbm = s.hbm ∧ t.host = s.host ∧ (∀ m ∈ t.monitors, ¬ (m.core = c ∧ m.slot = k))) := by
  refine ⟨fun hg => ?_, fun hg he => ?_⟩
  · rw [exec_c_eff hi rfl rfl rfl, effExit, guardedEff_off hi.2.1 hg]
  · obtain ⟨now, hw', hhbm, hhost, hmon⟩ := endWarp_of hi.2.1 he w.priv
    refine ⟨s.endWarp c k w.priv, w.over now, ?_, hw', rfl, rfl, rfl, rfl, rfl, rfl, rfl, rfl, hhbm, hhost, hmon⟩
    rw [exec_c_eff hi rfl rfl rfl, effExit, guardedEff_of hi.2.1 hg]

/-- Settles O32. -/
theorem laneMaskAndExit : Obligations.LaneMaskAndExit := by
  refine ⟨⟨fun o s c k w hi => lexit_clauses hi, fun o s c k w hi _ => mset_clauses hi, fun o s c k w hi _ => ?mget⟩,
    fun o s c k w hi => exit_clauses hi, fun o s c k w hi => ⟨fun hg => ?yield, fun hg => ?still⟩, fun o s c k w hi => exec_c hi rfl rfl rfl rfl⟩
  case mget =>
    obtain ⟨hoff, hon⟩ := mget_clauses hi
    exact ⟨hoff, fun hg => ⟨_, hon hg, fun h j hj => mgetValue_word h hj, fun h j hj => mgetValue_summary h hj⟩⟩
  case yield => exact exec_c hi rfl rfl rfl (by rw [effYield, if_pos ((w.guardS_iff _).2 hg)])
  case still => exact exec_c hi rfl rfl rfl (by simp [effYield, (w.guardS_false_iff _).2 hg])

end Sys2Proof.Machine
end

