-- ==== Sys2Proof/Proofs/SystemRegisters.lean ====
section
/-! PROOFS. Instruction memory and the special registers (R14, R15, R244, R246, R247). -/

namespace Sys2Proof.Machine
open Claim

/-- R244: the line at which `ipf` begins, named by its immediate. -/
theorem ipfLine_imm {o : CSOp} {i : BitVec 18} (h : o.imm = some i) (w : Warp) :
    ipfLine o w = (w.pc + BitVec.ofInt 64 (32 * i.toInt)).toNat / 128 * 128 := by
  simp only [ipfLine, h, immS, signExtend_mul_32]

/-- R244: the line at which `ipf` begins, named by a register. -/
theorem ipfLine_reg {o : CSOp} (h : o.imm = none) (w : Warp) : ipfLine o w = (w.s o.a.val).toNat / 128 * 128 := by
  simp only [ipfLine, h]

/-- The lines that `ipf` asks for. -/
def ipfLines (asid : Nat) (o : CSOp) (w : Warp) : List (Nat × Nat) := (List.range (o.sub.val + 1)).map fun i => (asid, ipfLine o w + 128 * i)

theorem mem_ipfLines {asid : Nat} {o : CSOp} {w : Warp} {p : Nat × Nat} :
    p ∈ ipfLines asid o w ↔ ∃ j ≤ o.sub.val, p = (asid, ipfLine o w + 128 * j) := by
  simp only [ipfLines, List.mem_map, List.mem_range, Nat.lt_succ_iff, eq_comm]

/-- Asking for lines adds those that are not yet asked for. -/
theorem mem_append_new {α : Type} [BEq α] [LawfulBEq α] (xs ys : List α) (p : α) : p ∈ xs ++ ys.filter (fun y => !xs.contains y) ↔ p ∈ xs ∨ p ∈ ys := by
  by_cases h : p ∈ xs <;> simp [h]

/-- The core once the lines of an `ipf` are asked for. -/
def CoreSt.askLines (x : CoreSt) (ls : List (Nat × Nat)) : CoreSt := { x with iwant := x.iwant ++ ls.filter fun l => !x.iwant.contains l }

theorem ipf_clauses {s : State} {c k : Nat} {w : Warp} {o : CSOp} (hi : Issues s c k w (.ipf o)) :
    (¬ Guarded w o.guard → exec (.ipf o) s = .next s) ∧
    (Guarded w o.guard → ∃ t, exec (.ipf o) s = .next t ∧ t.warp? c k = some w ∧ Quiet s t c k ∧
      ∀ p, p ∈ (t.core c).iwant ↔ p ∈ (s.core c).iwant ∨ ∃ j ≤ o.sub.val, p = ((s.ctxOf w.block c).1, ipfLine o w + 128 * j)) := by
  refine ⟨fun hg => ?_, fun hg => ⟨s.modCore c (·.askLines (ipfLines (s.ctxOf w.block c).1 o w)), ?_, ?_, quiet_modCore rfl c k, fun p => ?_⟩⟩
  · rw [exec_c_eff hi rfl rfl rfl, effIpf, guardedEff_off hi.2.1 hg]
  · rw [exec_c_eff hi rfl rfl rfl, effIpf, guardedEff_of hi.2.1 hg]
    rfl
  · exact (State.warp_modCore rfl c k).trans hi.2.1
  · rw [State.modCore, State.core_setCore_self, ← mem_ipfLines]
    exact mem_append_new ..

/-- R246: `icinv` holds its successor until the named cores have invalidated. -/
theorem icinv_clauses {s : State} {c k : Nat} {w : Warp} {i : Instr} {o : CSOp} {cores : State → Nat → List Nat} (hi : Issues s c k w i)
    (hn : slotNum i = some 3) (hf : slotFn i = some (cFn (fun _ _ _ => none) fun c k s => icinvHold o c k s (cores s c))) :
    (¬ Guarded w o.guard → exec i s = .next s) ∧
    (Guarded w o.guard → exec i s = .next (s.setWarp c k { w with hold := some (.icinv (cores s c)), since := s.cycle })) := by
  refine ⟨fun hg => ?_, fun hg => ?_⟩
  · rw [exec_c_eff hi hn hf rfl, icinvHold, guardedEff_off hi.2.1 hg]
  · rw [exec_c_eff hi hn hf rfl, icinvHold, guardedEff_of hi.2.1 hg]

/-- A scalar that a C-slot operation lands at the end of its tick. -/
theorem cLands_of {s : State} {c k : Nat} {w : Warp} {i : Instr} {d : Dest} {y : DWord}
    (h : exec i s = .next (s.setWarp c k (w.push (w.scalarLanding 3 1 d .none y 0)))) : CLands s c k w i d y :=
  ⟨_, h, ⟨rfl, rfl, rfl, rfl, rfl, rfl, rfl⟩, rfl, rfl, rfl⟩

theorem gsr_lands {s : State} {c k : Nat} {w : Warp} {o : CSOp} (hi : Issues s c k w (.gsr o)) (hg : Guarded w o.guard) :
    CLands s c k w (.gsr o) (.s o.d.val) (s.readSr c k w (csN o)) := by
  refine cLands_of ?_
  rw [exec_c_eff hi rfl rfl rfl, effGsr, guardedEff_of hi.2.1 hg]
  rfl

theorem State.readSr_wid (s : State) (c k : Nat) (w : Warp) : s.readSr c k w 0 = s.wid c k w := rfl

theorem State.readSr_shape (s : State) (c k : Nat) (w : Warp) : s.readSr c k w 1 = BitVec.ofNat 64 (s.shape w) := rfl

/-- R15: the fields of `sr.wid`. -/
theorem State.wid_of {s : State} {w : Warp} {b : Block} (hb : s.block? w.block = some b) (c k : Nat) :
    s.wid c k w = BitVec.ofNat 64 (k + w.windex * 2 ^ 8 + w.role * 2 ^ 16 + b.grank * 2 ^ 24 + c / 8 * 2 ^ 32 + c * 2 ^ 40) := by
  simp only [State.wid, hb, clusterOf]
  congr 1
  ring

/-- R14: the fields of `sr.shape`. -/
theorem State.shape_of {s : State} {w : Warp} {b : Block} (hb : s.block? w.block = some b) :
    s.shape w = (w.k - 1) + (w.budget / 8 - 1) * 2 ^ 8 + b.size / 1024 * 2 ^ 16 + w.laneLimit * 2 ^ 32 := by
  simp only [State.shape, State.allocOf, hb]

/-- Settles O35. -/
theorem systemRegisterOperations : Obligations.SystemRegisterOperations := by
  simp only [Obligations.SystemRegisterOperations, List.forall_mem_cons, List.not_mem_nil, false_imp_iff, implies_true, and_true]
  refine ⟨?ipf, ⟨?core, ?all⟩, ?gsr, ?ssr⟩
  case ipf =>
    intro o s c k w hi
    have h := ipf_clauses hi
    cases himm : o.imm with
    | none =>
      rw [ipfLine_reg himm] at h
      exact h
    | some i =>
      rw [ipfLine_imm himm] at h
      exact h
  case core =>
    intro o s c k w hi
    exact icinv_clauses (cores := fun _ c => [c]) hi rfl rfl
  case all =>
    intro o s c k w hi
    exact icinv_clauses (cores := fun s _ => s.cores.map (·.1)) hi rfl rfl
  case gsr =>
    intro o s c k w b hi hb hn
    refine ⟨fun hg => ?_, fun hg => ?_⟩
    · rw [exec_c_eff hi rfl rfl rfl, effGsr, guardedEff_off hi.2.1 hg]
    · convert gsr_lands hi hg using 1
      split
      case h_1 h => rw [h, State.readSr_wid, State.wid_of hb c k]
      case h_2 h => rw [h, State.readSr_shape, State.shape_of hb]
      case h_12 =>
        rw [show csN o = 11 by grind]
        rfl
      all_goals next h =>
        rw [h]
        rfl
  case ssr =>
    intro o s c k w hi
    refine ⟨fun hg => cLands_of ?_, fun hg => ?_⟩
    · exact exec_c hi rfl rfl rfl (by rw [effSsr, if_pos ((w.guardS_iff _).2 hg)])
    · exact exec_c hi rfl rfl rfl (by simp [effSsr, (w.guardS_false_iff _).2 hg])

end Sys2Proof.Machine
end

