-- ==== Sys2Proof/Proofs/GlobalLoads.lean ====
section
/-! PROOFS. M-slot operations of the issuing warp, the translations of their lanes, and global loads (R22, R142 to R146, R158, R162). -/

namespace Sys2Proof.Machine
open Claim

/-! ## Registers and control of a warp -/

theorem sameRegs_refl (w : Warp) : SameRegs w w := ⟨rfl, rfl, rfl, rfl, rfl, rfl, rfl, rfl, rfl, rfl, rfl, rfl, rfl, rfl, rfl, rfl, rfl⟩

theorem sameRegs_trans {u v w : Warp} (h : SameRegs u v) (g : SameRegs v w) : SameRegs u w :=
  ⟨g.vregs.trans h.vregs, g.sregs.trans h.sregs, g.vpred.trans h.vpred, g.spred.trans h.spred, g.loops.trans h.loops, g.mask.trans h.mask,
    g.pc.trans h.pc, g.tick.trans h.tick, g.retire.trans h.retire, g.fel.trans h.fel, g.fes.trans h.fes, g.fen.trans h.fen, g.tsa.trans h.tsa,
    g.cause.trans h.cause, g.epc.trans h.epc, g.imask.trans h.imask, g.priv.trans h.priv⟩

theorem quiet_modWarp (s : State) (c k : Nat) (f : Warp → Warp) : Quiet s (s.modWarp c k f) c k :=
  ⟨⟨by simp, by simp, by simp, by simp, fun _ _ h => State.warp_modWarp_other s f h⟩, by simp⟩

/-- The parts of a core beside its warps stay when a warp is changed. -/
theorem State.core_modWarp (s : State) (c k : Nat) (f : Warp → Warp) : ∃ ws, (s.modWarp c k f).core c = { s.core c with warps := ws } := by
  cases hw : s.warp? c k with
  | none => exact ⟨_, by rw [State.modWarp_none hw]⟩
  | some w => exact ⟨_, by rw [State.modWarp_of hw, State.core_setWarp]⟩

/-! ## The issue of an M-slot operation -/

/-- A warp that issued stands for `n` cycles beyond its tick (R151). -/
def State.freezeBy (t : State) (c k n : Nat) : State :=
  if n = 0 then t
  else t.modWarp c k fun w =>
    if w.opened && w.stop = .run then { w.pause (.until (t.cycle + w.tickCycles + n)) with since := t.cycle + w.tickCycles } else w

/-- An M-slot operation whose checks pass: its effect, then its freeze. -/
theorem exec_m {s : State} {c k : Nat} {w : Warp} {i : Instr} {f : SlotFn} (hi : Issues s c k w i) (hn : slotNum i = some 1) (hf : slotFn i = some f)
    (hh : f.hold = none) (hk : f.check c k s = none) (ht : f.wait c k s = none) (hr : ∀ g, f.flag = some g → w.room g 1 = true) :
    exec i s = .next ((f.eff c k s).freezeBy c k (f.freeze c k s)) := by
  rw [exec_eq_runSlot hn, runSlot_m hn hf hi.1 hi.2.1 (opFail_of_issues hi) hh hk ht hr]
  rfl

theorem quiet_freezeBy (t : State) (c k n : Nat) : Quiet t (t.freezeBy c k n) c k := by
  unfold State.freezeBy
  split
  · exact quiet_refl t c k
  · exact quiet_modWarp ..

/-- The parts of a core beside its warps stay when a warp stands. -/
theorem core_freezeBy (t : State) (c k n : Nat) : ∃ ws, (t.freezeBy c k n).core c = { t.core c with warps := ws } := by
  unfold State.freezeBy
  split
  · exact ⟨_, rfl⟩
  · exact State.core_modWarp ..

/-- A warp that stands keeps its registers, its flags and what is in flight. -/
theorem warp_freezeBy {t : State} {c k n : Nat} {w : Warp} (hw : t.warp? c k = some w) :
    ∃ v, (t.freezeBy c k n).warp? c k = some v ∧ SameRegs w v ∧ v.flags = w.flags ∧ v.flight = w.flight := by
  unfold State.freezeBy
  split
  · exact ⟨w, hw, sameRegs_refl w, rfl, rfl⟩
  · refine ⟨_, State.warp_modWarp hw, ?_⟩
    split
    · exact ⟨⟨rfl, rfl, rfl, rfl, rfl, rfl, rfl, rfl, rfl, rfl, rfl, rfl, rfl, rfl, rfl, rfl, rfl⟩, rfl, rfl⟩
    · exact ⟨sameRegs_refl w, rfl, rfl⟩

/-! ## Translations -/

/-- Two states differ in the translations that TLBs hold, and in nothing else that an operation sees. -/
structure OnlyTlb (s t : State) : Prop where
  hbm : t.hbm = s.hbm
  host : t.host = s.host
  cycle : t.cycle = s.cycle
  cur : t.cur = s.cur
  blocks : t.blocks = s.blocks
  core : ∀ d, ∃ xs, t.core d = { s.core d with tlb := xs }

theorem onlyTlb_refl (s : State) : OnlyTlb s s := ⟨rfl, rfl, rfl, rfl, rfl, fun _ => ⟨_, rfl⟩⟩

theorem OnlyTlb.trans {s t u : State} (h : OnlyTlb s t) (g : OnlyTlb t u) : OnlyTlb s u where
  hbm := g.hbm.trans h.hbm
  host := g.host.trans h.host
  cycle := g.cycle.trans h.cycle
  cur := g.cur.trans h.cur
  blocks := g.blocks.trans h.blocks
  core d := by
    obtain ⟨xs, hx⟩ := h.core d
    obtain ⟨ys, hy⟩ := g.core d
    exact ⟨ys, by rw [hy, hx]⟩

theorem OnlyTlb.warp {s t : State} (h : OnlyTlb s t) (c k : Nat) : t.warp? c k = s.warp? c k := by
  obtain ⟨xs, hx⟩ := h.core c
  rw [State.warp?, hx]
  rfl

theorem OnlyTlb.quiet {s t : State} (h : OnlyTlb s t) (c k : Nat) : Quiet s t c k :=
  ⟨⟨h.hbm, h.host, h.cycle, h.cur, fun d j _ => h.warp d j⟩, h.blocks⟩

/-- R352: keeping a translation changes only what TLBs hold. -/
theorem onlyTlb_learn (s : State) (c : Nat) (e : TlbEntry) : OnlyTlb s (s.learn c e) := by
  have h1 : OnlyTlb s (s.modCore c fun x => { x with tlb := tlbPut e x.tlb }) := by
    refine ⟨rfl, rfl, rfl, rfl, rfl, fun d => ?_⟩
    by_cases hd : d = c
    · subst hd
      exact ⟨_, State.core_setCore_self ..⟩
    · exact ⟨_, State.core_setCore_ne _ _ hd⟩
  have h2 (t : State) (h : OnlyTlb s t) (l : FMap (List TlbEntry)) : OnlyTlb s { t with l2tlb := l } :=
    ⟨h.hbm, h.host, h.cycle, h.cur, h.blocks, h.core⟩
  unfold State.learn
  dsimp only
  split <;> split
  · exact onlyTlb_refl s
  · exact h2 _ (onlyTlb_refl s) _
  · exact h1
  · exact h2 _ h1 _

/-- Translating the lanes of an operation changes only what TLBs hold. -/
theorem onlyTlb_places (s : State) (c : Nat) (w : Warp) (acc : AccKind) (xs : List (Nat × Nat)) : OnlyTlb s (s.places c w acc xs).2 := by
  refine foldl_keeps onlyTlb_refl OnlyTlb.trans (fun t p => ?_) xs s
  split
  · exact onlyTlb_learn ..
  · exact onlyTlb_refl t

/-- R147: an address whose checks pass has a place. -/
theorem place_of_globFail1 {s : State} {c n al a : Nat} {w : Warp} {acc : AccKind} {tg : Target} (h : s.globFail1 c w acc tg n al a = none) :
    ∃ q e, s.place c w acc a = some (q, e) := by
  unfold State.globFail1 at h
  unfold State.place
  dsimp only at h ⊢
  split at h
  · cases h
  · split at h
    · cases h
    · split at h
      · cases h
      · next t ht =>
        rw [ht]
        exact ⟨_, _, rfl⟩

/-- R147: every lane of a load whose checks pass has a place. -/
theorem place_of_ldCheck {s : State} {c k : Nat} {w : Warp} {o : MOp} {tg : Target} (hw : s.warp? c k = some w) (h : ldCheck tg o c k s = none) :
    ∀ p ∈ w.accs o true, ∃ q e, s.place c w .read p.2 = some (q, e) := by
  intro p hp
  simp only [ldCheck, hw, State.globFail, List.findSome?_eq_none_iff] at h
  exact place_of_globFail1 (h p hp)

/-! ## Program order and flags -/

theorem takeSeq_of {s : State} {c k : Nat} {w : Warp} (hw : s.warp? c k = some w) :
    s.takeSeq c k = (w.seq, s.setWarp c k { w with seq := w.seq + 1 }) := by
  simp only [State.takeSeq, hw]

/-- A place in program order is no register. -/
theorem sameRegs_seq (w : Warp) (n : Nat) : SameRegs w { w with seq := n } :=
  ⟨rfl, rfl, rfl, rfl, rfl, rfl, rfl, rfl, rfl, rfl, rfl, rfl, rfl, rfl, rfl, rfl, rfl⟩

/-- The warp once the flag that an operation names has risen (R22). -/
def Warp.raised (w : Warp) (f : Option (Fin 16)) : Warp := match f with
  | some f => w.incFlag f.val
  | none => w

theorem flagInc_of {s : State} {c k : Nat} {w : Warp} (hw : s.warp? c k = some w) (f : Option (Fin 16)) :
    s.flagInc c k f = s.setWarp c k (w.raised f) := by
  cases f with
  | none => exact (State.setWarp_warp hw).symm
  | some f => exact State.modWarp_of hw _

theorem raised_sameRegs (w : Warp) (f : Option (Fin 16)) : SameRegs w (w.raised f) := by
  cases f <;> exact ⟨rfl, rfl, rfl, rfl, rfl, rfl, rfl, rfl, rfl, rfl, rfl, rfl, rfl, rfl, rfl, rfl, rfl⟩

theorem raised_flight (w : Warp) (f : Option (Fin 16)) : (w.raised f).flight = w.flight := by
  cases f <;> rfl

/-- R22: the one flag that an operation names rises by one. -/
theorem flagUp_raised (w : Warp) (f : Option (Fin 16)) : FlagUp w (w.raised f) (f.map (·.val)) := by
  intro g
  cases f with
  | none => simp [Warp.raised]
  | some f =>
    by_cases hg : g = f.val
    · subst hg
      simp [Warp.raised, Warp.incFlag, Warp.flag]
    · have hne : f.val ≠ g := fun h => hg h.symm
      simp [Warp.raised, Warp.incFlag, Warp.flag, FMap.getD_put_ne _ _ _ _ hg, hne]

theorem room_of {w : Warp} {f : Option (Fin 16)} (h : Room w f) (g : Nat) (hg : f.map (·.val) = some g) : w.room g 1 = true := by
  obtain ⟨f', rfl, rfl⟩ := Option.map_eq_some_iff.1 hg
  have := h f' rfl
  simp only [Warp.room, decide_eq_true_eq]
  omega

/-! ## Asynchronous operations -/

/-- The asynchronous operation that a load starts. -/
def loadOp (s : State) (c k : Nat) (w : Warp) (o : MOp) (acq : Option Scope) : AsyncOp :=
  { id := (s.core c).next, slot := k, seq := w.seq, tick := w.tick, kind := .load, flag := o.flag.map (·.val), dest := mDest o, n := o.size.bytes
    acq := acq, rel := none, todo := laneAccs s c w .read o true (fun _ => 0) fun _ => 0, got := [], err := none, addr := w.pc, dead := false
    since := s.cycle }

/-- The warp once a load has taken its place in program order and raised its flag. -/
def Warp.loading (w : Warp) (o : MOp) : Warp := { w with seq := w.seq + 1 }.raised o.flag

/-- R144: what starting an asynchronous operation does. -/
theorem startAsync_of {s : State} {c k : Nat} {w : Warp} (hw : s.warp? c k = some w) (q : Nat) (kind : AsyncKind) (o : MOp) (n : Nat) (acq : Option Scope)
    (rel : Option Nat) (todo : List LaneAcc) :
    (s.startAsync c k q kind o n acq rel todo).2 =
      ((s.modCore c fun x => { x with next := x.next + 1 }).setWarp c k (w.raised o.flag)).modCore c fun x => { x with ops := x.ops ++
        [{ id := (s.core c).next, slot := k, seq := q, tick := w.tick, kind := kind, flag := o.flag.map (·.val), dest := mDest o, n := n, acq := acq
           rel := rel, todo := todo, got := [], err := none, addr := w.pc, dead := false, since := s.cycle }] } := by
  have hw' : (s.modCore c fun x => { x with next := x.next + 1 }).warp? c k = some w := (State.warp_modCore rfl c k).trans hw
  simp only [State.startAsync, State.takeNum, hw', flagInc_of hw']
  rfl

/-- The lanes that a load translates are its accesses (R141, R142). -/
theorem places_laneAccs (s : State) (c : Nat) (w : Warp) (o : MOp) :
    ((s.places c w .read (w.accs o true)).1.map fun p => (⟨p.1, p.2.pa, p.2.ms, o.size.bytes, 0, 0⟩ : LaneAcc)) =
      laneAccs s c w .read o true (fun _ => 0) fun _ => 0 := by
  simp only [State.places, State.placesOf, laneAccs, List.map_filterMap, Option.map_map]
  rfl

/-- R144, R158, R162: the effect of a global load. -/
theorem ldGlobal_of {s : State} {c k : Nat} {w : Warp} (hw : s.warp? c k = some w) (o : MOp) (acq : Option Scope) :
    ∃ s1, OnlyTlb s s1 ∧ ldGlobal o acq c k s =
      (((s1.setWarp c k { w with seq := w.seq + 1 }).modCore c fun x => { x with next := x.next + 1 }).setWarp c k (w.loading o)).modCore c fun x =>
        { x with ops := x.ops ++ [loadOp s c k w o acq] } := by
  have hs := onlyTlb_places s c w .read (w.accs o true)
  have hw1 := (hs.warp c k).trans hw
  refine ⟨_, hs, ?_⟩
  obtain ⟨xs, hx⟩ := hs.core c
  simp only [ldGlobal, State.onWarp_of hw, takeSeq_of hw1]
  rw [startAsync_of (State.warp_setWarp_self ..), places_laneAccs, State.core_setWarp, hx, State.setWarp_cycle, hs.cycle]
  rfl

/-- R141: the lanes of a load with places are all its lanes. -/
theorem laneAccs_lanes {s : State} {c : Nat} {w : Warp} {acc : AccKind} {o : MOp} {load : Bool} {x e : Nat → Nat}
    (h : ∀ p ∈ w.accs o load, ∃ q t, s.place c w acc p.2 = some (q, t)) :
    (laneAccs s c w acc o load x e).map (·.lane) = (w.accs o load).map (·.1) := by
  rw [laneAccs, List.map_filterMap, ← List.filterMap_eq_map]
  refine List.filterMap_congr fun p hp => ?_
  obtain ⟨q, t, hq⟩ := h p hp
  simp [hq]

theorem load_clauses {s : State} {c k : Nat} {w : Warp} {i : Instr} {o : MOp} {acq : Option Scope} (hi : Issues s c k w i) (hn : slotNum i = some 1)
    (hf : slotFn i = some (mFn o (ldCheck .any o) (ldWait o) (fun _ _ _ => 0) (ldGlobal o acq))) (hk : ldCheck .any o c k s = none)
    (ht : ldWait o c k s = none) (hr : Room w o.flag) :
    ∃ t w' a, exec i s = .next t ∧ t.warp? c k = some w' ∧ Frame s t c k ∧ t.blocks = s.blocks ∧ SameRegs w w' ∧
      w'.flight = w.flight ∧ FlagUp w w' (o.flag.map (·.val)) ∧ (t.core c).fifo = (s.core c).fifo ∧ (t.core c).ops = (s.core c).ops ++ [a] ∧
      a.slot = k ∧ a.kind = .load ∧ a.acq = acq ∧ a.flag = o.flag.map (·.val) ∧ a.got = [] ∧ a.n = o.size.bytes ∧ a.addr = w.pc ∧
      a.tick = w.tick ∧ a.dest = mDest o ∧ a.todo = laneAccs s c w .read o true (fun _ => 0) (fun _ => 0) ∧
      a.todo.map (·.lane) = (w.accs o true).map (·.1) := by
  have hw := hi.2.1
  obtain ⟨s1, hs, he⟩ := ldGlobal_of hw o acq
  obtain ⟨xs, hx⟩ := hs.core c
  let s2 := s1.setWarp c k { w with seq := w.seq + 1 }
  let s3 := s2.modCore c fun x => { x with next := x.next + 1 }
  let s4 := s3.setWarp c k (w.loading o)
  have hq2 : Quiet s s2 c k := quiet_trans (hs.quiet c k) (quiet_setWarp s1 c k _)
  have hq3 : Quiet s s3 c k := quiet_trans hq2 (quiet_modCore rfl c k)
  have hq4 : Quiet s s4 c k := quiet_trans hq3 (quiet_setWarp s3 c k _)
  have hq : Quiet s (ldGlobal o acq c k s) c k := he ▸ quiet_trans hq4 (quiet_modCore rfl c k)
  refine ⟨ldGlobal o acq c k s, w.loading o, loadOp s c k w o acq, ?_, ?_, hq.1, hq.2, ?_, ?_, ?_, ?_, ?_, rfl, rfl, rfl, rfl, rfl, rfl, rfl, rfl, rfl, rfl, ?_⟩
  · exact exec_m hi hn hf rfl hk ht (room_of hr)
  · rw [he]
    exact (State.warp_modCore (s := s4) rfl c k).trans (State.warp_setWarp_self s3 c k _)
  · exact sameRegs_trans (sameRegs_seq w _) (raised_sameRegs _ o.flag)
  · exact raised_flight _ o.flag
  · exact flagUp_raised { w with seq := w.seq + 1 } o.flag
  · rw [he]
    simp [State.modCore, hx]
  · rw [he]
    simp [State.modCore, hx]
  · exact laneAccs_lanes (x := fun _ => 0) (e := fun _ => 0) (place_of_ldCheck hw hk)

/-- Settles O17. -/
theorem globalLoads : Obligations.GlobalLoads := by
  simp only [Obligations.GlobalLoads, List.forall_mem_cons, List.not_mem_nil, false_imp_iff, implies_true, and_true]
  refine ⟨fun o s c k w hi hk ht hr => ?_, fun o s c k w hi hk ht hr => ?_⟩
  · exact load_clauses hi rfl rfl hk ht hr
  · exact load_clauses (acq := some o.scope) hi rfl rfl hk ht hr

end Sys2Proof.Machine
end

