-- ==== Sys2Proof/Proofs/FixedLoads.lean ====
section
/-! PROOFS. The loads of fixed latency: `ld.sp` and `ldc` (R140, R141, R143, R149, R154). -/

namespace Sys2Proof.Machine
open Claim

/-! ## Accesses -/

/-- The lanes that a load accesses: with a scalar destination the lowest alone (R141). -/
def Warp.loadLanes (w : Warp) (o : MOp) : List Nat := if scalarData o then (w.lanesOf o.guard).take 1 else w.lanesOf o.guard

theorem accs_load (w : Warp) (o : MOp) : w.accs o true = (w.loadLanes o).map fun l => (l, w.memAddr o l) := by
  simp only [Warp.accs, Warp.loadLanes, Bool.true_and]

theorem loadLanes_vector {w : Warp} {o : MOp} {r : Fin 128} (h : o.data = .v r) : w.loadLanes o = w.lanesOf o.guard := by
  simp [Warp.loadLanes, scalarData, h]

theorem active_of_loadLanes {w : Warp} {o : MOp} {l : Nat} (h : l ∈ w.loadLanes o) : Active w o.guard l := by
  rw [← Warp.mem_lanesOf]
  unfold Warp.loadLanes at h
  split at h
  · exact List.mem_of_mem_take h
  · exact h

theorem loadLanes_sorted (w : Warp) (o : MOp) : (w.loadLanes o).Pairwise (· < ·) := by
  unfold Warp.loadLanes
  split
  · exact (w.lanesOf_sorted o.guard).sublist (List.take_sublist ..)
  · exact w.lanesOf_sorted o.guard

/-- With no lane active a load makes no access. -/
theorem loadLanes_none {w : Warp} {o : MOp} (h : ∀ l, ¬Active w o.guard l) : w.loadLanes o = [] :=
  List.eq_nil_iff_forall_not_mem.2 fun l hl => h l (active_of_loadLanes hl)

/-- R141: a scalar destination takes the access of the lowest active lane. -/
theorem loadLanes_scalar {w : Warp} {o : MOp} {r : Fin 64} {l : Nat} (hr : o.data = .s r) (ha : Active w o.guard l)
    (hl : ∀ j < l, ¬Active w o.guard j) : w.loadLanes o = [l] := by
  have hs := w.lanesOf_sorted o.guard
  have hm := (w.mem_lanesOf o.guard l).2 ha
  simp only [Warp.loadLanes, scalarData, hr, if_true]
  cases hxs : w.lanesOf o.guard with
  | nil => simp [hxs] at hm
  | cons x xs =>
    have hx : ¬x < l := fun h => hl x h ((w.mem_lanesOf o.guard x).1 (by simp [hxs]))
    rw [hxs] at hs hm
    have hxl : x = l := by
      rcases List.mem_cons.1 hm with h | h
      · exact h.symm
      · exact absurd ((List.pairwise_cons.1 hs).1 l h) hx
    simp [hxl]

/-! ## Scratchpad loads -/

/-- R147: the accesses of lanes that are all in order fail no check. -/
theorem spReadCheck_of_ok {s : State} {c k : Nat} {w : Warp} {o : MOp} (hw : s.warp? c k = some w) (h : SpOk s w o) :
    spReadCheck o true c k s = none := by
  have hacc : ∀ p ∈ w.accs o true, p.2 % o.size.bytes = 0 ∧ 0 ≤ signed64 p.2 ∧ signed64 p.2 + o.size.bytes ≤ s.allocOf w ∧
      s.spFaulty w.block p.2 o.size.bytes = false := by
    intro p hp
    rw [accs_load] at hp
    obtain ⟨l, hl, rfl⟩ := List.mem_map.1 hp
    exact h l (active_of_loadLanes hl)
  have h1 : spCheck o true c k s = none := by
    simp only [spCheck, hw, spFail, List.findSome?_eq_none_iff]
    intro p hp
    obtain ⟨ha, hlo, hhi, _⟩ := hacc p hp
    rw [if_neg (not_not.2 ha), if_pos ⟨hlo, hhi⟩]
  simp only [spReadCheck, h1, hw, scratchFail, List.findSome?_eq_none_iff]
  intro p hp
  obtain ⟨_, _, _, hf⟩ := hacc p hp
  rw [hf]
  rfl

/-- Counting bank conflicts keeps every warp. -/
theorem quiet_bankCount (s : State) (d q : Nat) (ws : List Nat) (c k : Nat) : Quiet s (s.bankCount d q ws) c k := by
  unfold State.bankCount
  exact quiet_modCore rfl c k

/-- The landings of a load into vector registers: a word of each register, the first through `lmd` (R143). -/
theorem mLandings_vector {w : Warp} {o : MOp} {r : Fin 128} (hr : o.data = .v r) (lat n : Nat) (vals : List (Nat × Nat)) :
    w.mLandings o lat n vals = (List.range ((n + 3) / 4)).map fun i =>
      w.vecLanding 1 lat (.v (r.val + i)) (if i = 0 then .lmd else .none) (vals.map fun p => (p.1, wordAt p.2 i)) [] := by
  simp only [Warp.mLandings, hr, mReg]

theorem mLandings_scalar {w : Warp} {o : MOp} {r : Fin 64} (hr : o.data = .s r) (lat n : Nat) (vals : List (Nat × Nat)) :
    w.mLandings o lat n vals = vals.map fun p => w.scalarLanding 1 lat (.s r.val) .none (BitVec.ofNat 64 p.2) 0 := by
  simp only [Warp.mLandings, hr]

/-- An entry of a list made from a range. -/
theorem getElem?_range_map {α : Type} {f : Nat → α} {n i : Nat} {x : α} (h : ((List.range n).map f)[i]? = some x) : x = f i := by
  rw [List.getElem?_map, Option.map_eq_some_iff] at h
  obtain ⟨j, hj, rfl⟩ := h
  obtain ⟨hlt, hji⟩ := List.getElem?_eq_some_iff.1 hj
  rw [← hji, List.getElem_range]

/-- A landing whose lanes are the active ones, each with one value and no event. -/
theorem laneValues_map {w : Warp} {g : Guard} {x : Landing} {v : Nat → Word} (hx : x.lanes = (w.lanesOf g).map fun l => (l, v l)) (he : x.evs = []) :
    LaneValues w x g fun l y e => y = v l ∧ e = 0 := by
  intro l
  rw [hx, he, FMap.find_map (w.lanesOf_sorted g)]
  constructor
  · exact fun ha => ⟨v l, if_pos ((w.mem_lanesOf g l).2 ha), rfl, rfl⟩
  · exact fun ha => ⟨if_neg fun h => ha ((w.mem_lanesOf g l).1 h), rfl⟩

/-- The values that a scratchpad load reads, by lane. -/
def spVals (s : State) (w : Warp) (o : MOp) : List (Nat × Nat) := (w.accs o true).map fun p => (p.1, s.spGet w.block p.2 o.size.bytes)

theorem spVals_eq (s : State) (w : Warp) (o : MOp) :
    spVals s w o = (w.loadLanes o).map fun l => (l, s.spGet w.block (w.memAddr o l) o.size.bytes) := by
  rw [spVals, accs_load, List.map_map]
  rfl

theorem ldSp_vector {s : State} {w : Warp} {o : MOp} {r : Fin 128} (hr : o.data = .v r) :
    let xs := w.mLandings o 8 o.size.bytes (spVals s w o)
    xs.length = (o.size.bytes + 3) / 4 ∧ ∀ i x, xs[i]? = some x →
      Lands w x 1 8 (.v (r.val + i)) (if i = 0 then .lmd else .none) ∧ x.want = [] ∧
      LaneValues w x o.guard fun l y e => y = BitVec.ofNat 32 (s.spGet w.block (w.memAddr o l) o.size.bytes / 2 ^ (32 * i)) ∧ e = 0 := by
  intro xs
  have hxs : xs = _ := mLandings_vector hr ..
  refine ⟨by rw [hxs, List.length_map, List.length_range], fun i x hx => ?_⟩
  rw [hxs] at hx
  obtain rfl := getElem?_range_map hx
  refine ⟨⟨rfl, rfl, rfl, rfl, rfl, rfl, rfl⟩, rfl, laneValues_map ?_ rfl⟩
  simp only [Warp.vecLanding, spVals_eq, loadLanes_vector hr, List.map_map]
  rfl

theorem ldSp_scalar {s : State} {w : Warp} {o : MOp} {r : Fin 64} (hr : o.data = .s r) :
    let xs := w.mLandings o 8 o.size.bytes (spVals s w o)
    ((∀ l, ¬ Active w o.guard l) → xs = []) ∧
      ∀ l, Active w o.guard l → (∀ j < l, ¬ Active w o.guard j) → ∃ x, xs = [x] ∧ Lands w x 1 8 (.s r.val) .none ∧ x.want = [] ∧
        x.scalar = BitVec.ofNat 64 (s.spGet w.block (w.memAddr o l) o.size.bytes) := by
  intro xs
  have hxs : xs = _ := mLandings_scalar hr ..
  rw [hxs, spVals_eq]
  refine ⟨fun h => by rw [loadLanes_none h]; rfl, fun l ha hl => ?_⟩
  rw [loadLanes_scalar hr ha hl]
  exact ⟨_, rfl, ⟨rfl, rfl, rfl, rfl, rfl, rfl, rfl⟩, rfl, rfl⟩

/-- Results on their way are no registers. -/
theorem sameRegs_pushAll (w : Warp) (xs : List Landing) : SameRegs w (w.pushAll xs) :=
  ⟨rfl, rfl, rfl, rfl, rfl, rfl, rfl, rfl, rfl, rfl, rfl, rfl, rfl, rfl, rfl, rfl, rfl⟩

/-- What a load of fixed latency leaves: more results on their way, and a warp that may stand. -/
theorem fixedLoad_frame {s t : State} {c k n : Nat} {w v : Warp} {xs : List Landing} (hq : Quiet s t c k) (hv : t.warp? c k = some (v.pushAll xs))
    (hr : SameRegs w v) (hfl : v.flags = w.flags) (hfi : v.flight = w.flight) :
    ∃ w', (t.freezeBy c k n).warp? c k = some w' ∧ Frame s (t.freezeBy c k n) c k ∧ (t.freezeBy c k n).blocks = s.blocks ∧ SameRegs w w' ∧
      w'.flags = w.flags ∧ w'.flight = w.flight ++ xs := by
  obtain ⟨w', hw', hregs, hflags, hflight⟩ := warp_freezeBy (n := n) hv
  obtain ⟨hframe, hblocks⟩ := quiet_trans hq (quiet_freezeBy t c k n)
  exact ⟨w', hw', hframe, hblocks, sameRegs_trans hr (sameRegs_trans (sameRegs_pushAll v xs) hregs), hflags.trans hfl,
    hflight.trans (congrArg (· ++ xs) hfi)⟩

theorem ldSp_clauses {s : State} {c k : Nat} {w : Warp} {o : MOp} (hi : Issues s c k w (.ldSp o)) (hok : SpOk s w o) :
    ∃ t w' xs, exec (.ldSp o) s = .next t ∧ t.warp? c k = some w' ∧ Frame s t c k ∧ t.blocks = s.blocks ∧ SameRegs w w' ∧ w'.flags = w.flags ∧
      w'.flight = w.flight ++ xs ∧
      (∀ r, o.data = .v r → xs.length = (o.size.bytes + 3) / 4 ∧ ∀ i x, xs[i]? = some x →
        Lands w x 1 8 (.v (r.val + i)) (if i = 0 then .lmd else .none) ∧ x.want = [] ∧
        LaneValues w x o.guard fun l y e => y = BitVec.ofNat 32 (s.spGet w.block (w.memAddr o l) o.size.bytes / 2 ^ (32 * i)) ∧ e = 0) ∧
      (∀ r, o.data = .s r → ((∀ l, ¬ Active w o.guard l) → xs = []) ∧
        ∀ l, Active w o.guard l → (∀ j < l, ¬ Active w o.guard j) → ∃ x, xs = [x] ∧ Lands w x 1 8 (.s r.val) .none ∧ x.want = [] ∧
          x.scalar = BitVec.ofNat 64 (s.spGet w.block (w.memAddr o l) o.size.bytes)) := by
  have hw := hi.2.1
  let xs := w.mLandings o 8 o.size.bytes (spVals s w o)
  let t := (s.setWarp c k (w.pushAll xs)).bankCount c w.pipe (spTouch o true w)
  have ht : effLdSp o c k s = t := State.onWarp_of hw _
  have hq : Quiet s t c k := quiet_trans (quiet_setWarp s c k _) (quiet_bankCount ..)
  have hv : t.warp? c k = some (w.pushAll xs) := (State.warp_modCore rfl c k).trans (State.warp_setWarp_self s c k _)
  obtain ⟨w', hw', hframe, hblocks, hregs, hflags, hflight⟩ := fixedLoad_frame (n := spFreeze o true c k s) hq hv (sameRegs_refl w) rfl rfl
  refine ⟨_, w', xs, ?_, hw', hframe, hblocks, hregs, hflags, hflight, fun r hr => ldSp_vector hr, fun r hr => ldSp_scalar hr⟩
  rw [exec_m hi rfl rfl rfl (spReadCheck_of_ok hw hok) rfl (fun _ h => nomatch h), ← ht]
  rfl

/-! ## Loads through the L1 -/

/-- Whether the L1 holds a place of an `ldc` at its issue. -/
def hitL1 (s : State) (c k : Nat) (w : Warp) (p : Nat × Place) : Bool :=
  !s.acquireOpen c k w.seq && (s.core c).l1.any fun y => y.pa = p.2.pa.line

theorem hitL1_iff {s : State} {c k : Nat} {w : Warp} {p : Nat × Place} : hitL1 s c k w p = true ↔ InL1 s c k w p.2 := by
  simp [hitL1, InL1]

/-- The lanes of an `ldc` with their places. -/
def ldcPlaces (s : State) (c : Nat) (w : Warp) (o : MOp) : List (Nat × Place) := s.placesOf c w .read (w.accs o true)

/-- Of these lanes, those that the L1 serves at once. -/
def ldcHit (s : State) (c k : Nat) (w : Warp) (ps : List (Nat × Place)) : List (Nat × Place) := (ps.partition (hitL1 s c k w)).1

/-- Of these lanes, those that wait for their lines. -/
def ldcLate (s : State) (c k : Nat) (w : Warp) (ps : List (Nat × Place)) : List (Nat × Place) := (ps.partition (hitL1 s c k w)).2

/-- The lines that an `ldc` asks for. -/
def ldcMiss (s : State) (c k : Nat) (w : Warp) (ps : List (Nat × Place)) : List Pa :=
  ((s.core c).l1Miss ((ldcLate s c k w ps).map fun p => p.2.pa.line)).eraseDups.filter fun l => !(s.core c).l1want.contains l

/-- What an `ldc` puts in flight. -/
def ldcLandings (s : State) (c k : Nat) (w : Warp) (o : MOp) (ps : List (Nat × Place)) : List Landing :=
  w.lateLandings o 20 o.size.bytes ((ldcHit s c k w ps).map fun p => (p.1, (s.core c).l1Get p.2.pa o.size.bytes))
    ((ldcLate s c k w ps).map fun p => (p.1, p.2.pa))

theorem mem_ldcHit {s : State} {c k : Nat} {w : Warp} {ps : List (Nat × Place)} {p : Nat × Place} :
    p ∈ ldcHit s c k w ps ↔ p ∈ ps ∧ InL1 s c k w p.2 := by
  rw [ldcHit, List.partition_eq_filter_filter, List.mem_filter, hitL1_iff]

theorem mem_ldcLate {s : State} {c k : Nat} {w : Warp} {ps : List (Nat × Place)} {p : Nat × Place} :
    p ∈ ldcLate s c k w ps ↔ p ∈ ps ∧ ¬InL1 s c k w p.2 := by
  rw [ldcLate, List.partition_eq_filter_filter, List.mem_filter, ← hitL1_iff, Function.comp_apply, Bool.not_eq_true', Bool.not_eq_true]

/-- What an `ldc` sees of a core is not its TLB. -/
theorem OnlyTlb.hitL1 {s t : State} (h : OnlyTlb s t) (c k : Nat) (w : Warp) : hitL1 t c k w = hitL1 s c k w := by
  obtain ⟨xs, hx⟩ := h.core c
  funext p
  simp only [Machine.hitL1, State.acquireOpen, hx]
  rfl

theorem OnlyTlb.ldcMiss {s t : State} (h : OnlyTlb s t) (c k : Nat) (w : Warp) (ps : List (Nat × Place)) :
    ldcMiss t c k w ps = ldcMiss s c k w ps := by
  obtain ⟨xs, hx⟩ := h.core c
  simp only [Machine.ldcMiss, ldcLate, h.hitL1, CoreSt.l1Miss, hx]

theorem OnlyTlb.ldcLandings {s t : State} (h : OnlyTlb s t) (c k : Nat) (w : Warp) (o : MOp) (ps : List (Nat × Place)) :
    ldcLandings t c k w o ps = ldcLandings s c k w o ps := by
  obtain ⟨xs, hx⟩ := h.core c
  simp only [Machine.ldcLandings, ldcHit, ldcLate, h.hitL1, CoreSt.l1Get, hx]

/-- The state and the warp when an `ldc` puts its results in flight: with lanes that wait it has taken a place in program order. -/
theorem ldc_numbered {s : State} {c k : Nat} {w : Warp} (hw : s.warp? c k = some w) (p : Prop) [Decidable p] :
    let s2 := if p then s else ((s.takeSeq c k).2.takeNum c).2
    ∃ v, s2.warp? c k = some v ∧ Quiet s s2 c k ∧ SameRegs w v ∧ v.flags = w.flags ∧ v.flight = w.flight ∧
      (s2.core c).l1 = (s.core c).l1 ∧ (s2.core c).l1want = (s.core c).l1want := by
  by_cases hp : p
  · rw [if_pos hp]
    exact ⟨w, hw, quiet_refl s c k, sameRegs_refl w, rfl, rfl, rfl, rfl⟩
  · have hnum : ((s.takeSeq c k).2.takeNum c).2 = (s.setWarp c k { w with seq := w.seq + 1 }).modCore c fun x => { x with next := x.next + 1 } := by
      rw [takeSeq_of hw]
      rfl
    rw [if_neg hp, hnum]
    refine ⟨{ w with seq := w.seq + 1 }, ?_, quiet_trans (quiet_setWarp s c k _) (quiet_modCore rfl c k), sameRegs_seq w _, rfl, rfl, ?_, ?_⟩
    · exact (State.warp_modCore rfl c k).trans (State.warp_setWarp_self ..)
    · simp [State.modCore]
    · simp [State.modCore]

/-- R154: the effect of an `ldc`. -/
theorem effLdc_of {s : State} {c k : Nat} {w : Warp} (hw : s.warp? c k = some w) (o : MOp) :
    let t := effLdc o c k s
    let ps := ldcPlaces s c w o
    ∃ v, Quiet s t c k ∧ t.warp? c k = some (v.pushAll (ldcLandings s c k w o ps)) ∧ SameRegs w v ∧ v.flags = w.flags ∧ v.flight = w.flight ∧
      (t.core c).l1 = (s.core c).l1 ∧ (t.core c).l1want = (s.core c).l1want ++ ldcMiss s c k w ps := by
  intro t ps
  let s1 := (s.places c w .read (w.accs o true)).2
  have hs : OnlyTlb s s1 := onlyTlb_places ..
  obtain ⟨ts, hx⟩ := hs.core c
  let s2 := if ldcLate s1 c k w ps = [] then s1 else ((s1.takeSeq c k).2.takeNum c).2
  let s3 := s2.modCore c fun x => { x with l1want := x.l1want ++ ldcMiss s1 c k w ps }
  have he : t = s3.modWarp c k fun v => v.pushAll (ldcLandings s1 c k w o ps) := by
    simp only [t, effLdc, State.onWarp_of hw]
    rfl
  obtain ⟨v, hv, hq, hregs, hflags, hflight, hl1, hwant⟩ := ldc_numbered ((hs.warp c k).trans hw) (ldcLate s1 c k w ps = [])
  have hv3 : s3.warp? c k = some v := (State.warp_modCore rfl c k).trans hv
  have hq3 : Quiet s s3 c k := quiet_trans (hs.quiet c k) (quiet_trans hq (quiet_modCore rfl c k))
  have hcore : s3.core c = { s2.core c with l1want := (s2.core c).l1want ++ ldcMiss s1 c k w ps } := State.core_setCore_self ..
  rw [State.modWarp_of hv3] at he
  rw [he]
  refine ⟨v, quiet_trans hq3 (quiet_setWarp s3 c k _), ?_, hregs, hflags, hflight, ?_, ?_⟩
  · rw [State.warp_setWarp_self, hs.ldcLandings]
  · rw [State.core_setWarp, hcore]
    exact hl1.trans (by rw [hx])
  · rw [State.core_setWarp, hcore, ← hs.ldcMiss]
    exact congrArg (· ++ _) (hwant.trans (by rw [hx]))

/-! ## What an `ldc` lands -/

theorem FMap.find_of_mem {β : Type} {m : FMap β} {l : Nat} {v : β} (h : (l, v) ∈ m) (hu : ∀ u, (l, u) ∈ m → u = v) : FMap.find m l = some v := by
  induction m with
  | nil => cases h
  | cons p m ih =>
    obtain ⟨a, b⟩ := p
    by_cases ha : a = l
    · subst ha
      simp [FMap.find, hu b (List.mem_cons_self ..)]
    · have hm : (l, v) ∈ m := (List.mem_cons.1 h).resolve_left fun e => ha (Prod.ext_iff.1 e).1.symm
      simp [FMap.find, ha, ih hm fun u hu' => hu u (List.mem_cons_of_mem _ hu')]

theorem FMap.find_of_not_mem {β : Type} {m : FMap β} {l : Nat} (h : ∀ v, (l, v) ∉ m) : FMap.find m l = none := by
  induction m with
  | nil => rfl
  | cons p m ih =>
    obtain ⟨a, b⟩ := p
    have ha : a ≠ l := fun e => h b (by simp [e])
    simp [FMap.find, ha, ih fun v hv => h v (List.mem_cons_of_mem _ hv)]

/-- A lane of an `ldc` with its place: its address translates there. -/
theorem mem_ldcPlaces {s : State} {c : Nat} {w : Warp} {o : MOp} {l : Nat} {q : Place} :
    (l, q) ∈ ldcPlaces s c w o ↔ l ∈ w.loadLanes o ∧ ∃ e, s.place c w .read (w.memAddr o l) = some (q, e) := by
  simp only [ldcPlaces, State.placesOf, accs_load, List.mem_filterMap, List.mem_map, Option.map_eq_some_iff, Prod.mk.injEq]
  constructor
  · rintro ⟨_, ⟨l', hl, rfl⟩, ⟨q', e⟩, hq, rfl, rfl⟩
    exact ⟨hl, e, hq⟩
  · rintro ⟨hl, e, hq⟩
    exact ⟨_, ⟨l, hl, rfl⟩, (q, e), hq, rfl, rfl⟩

/-- A lane of an `ldc` has one place. -/
theorem ldcPlaces_unique {s : State} {c : Nat} {w : Warp} {o : MOp} {l : Nat} {p q : Place} (hp : (l, p) ∈ ldcPlaces s c w o)
    (hq : (l, q) ∈ ldcPlaces s c w o) : p = q := by
  obtain ⟨-, e, he⟩ := mem_ldcPlaces.1 hp
  obtain ⟨-, f, hf⟩ := mem_ldcPlaces.1 hq
  rw [he, Option.some.injEq, Prod.mk.injEq] at hf
  exact hf.1

/-- R140, R143: the landings of an `ldc` into vector registers. -/
theorem lateLandings_vector {w : Warp} {o : MOp} {r : Fin 128} (hr : o.data = .v r) (lat n : Nat) (vals : List (Nat × Nat)) (late : List (Nat × Pa)) :
    let xs := w.lateLandings o lat n vals late
    xs.length = (n + 3) / 4 ∧ ∀ i x, xs[i]? = some x → Lands w x 1 lat (.v (r.val + i)) (if i = 0 then .lmd else .none) ∧ x.wn = min n 4 ∧
      x.lanes = (vals.map fun p => (p.1, wordAt p.2 i)) ∧ x.want = late.map fun p => (p.1, p.2.plus (4 * i)) := by
  intro xs
  have hxs : xs = (w.mLandings o lat n vals).zipIdx.map fun x =>
      { x.1 with want := late.map fun p => (p.1, p.2.plus (4 * x.2)), wn := min n 4, seq := w.seq } := by
    simp only [xs, Warp.lateLandings, hr]
  rw [hxs, mLandings_vector hr]
  refine ⟨by simp, fun i x hx => ?_⟩
  rw [List.getElem?_map, List.getElem?_zipIdx, Option.map_map, Option.map_eq_some_iff, Nat.zero_add] at hx
  obtain ⟨y, hy, rfl⟩ := hx
  obtain rfl := getElem?_range_map hy
  exact ⟨⟨rfl, rfl, rfl, rfl, rfl, rfl, rfl⟩, rfl, rfl, rfl⟩

theorem lateLandings_scalar {w : Warp} {o : MOp} {r : Fin 64} (hr : o.data = .s r) (lat n : Nat) (vals : List (Nat × Nat)) (late : List (Nat × Pa)) :
    w.lateLandings o lat n vals late = (vals.map fun p => w.scalarLanding 1 lat (.s r.val) .none (BitVec.ofNat 64 p.2) 0) ++
      late.map fun p => { w.scalarLanding 1 lat (.s r.val) .none 0 0 with want := [p], wn := n, seq := w.seq } := by
  simp only [Warp.lateLandings, hr]

/-- A line that lanes wait for is in the L1, or has been asked for. -/
theorem asked_of_late {s : State} {c k : Nat} {w : Warp} {ps : List (Nat × Place)} {l : Nat} {q : Place} (h : (l, q) ∈ ldcLate s c k w ps) :
    (∃ y ∈ (s.core c).l1, y.pa = q.pa.line) ∨ q.pa.line ∈ (s.core c).l1want ++ ldcMiss s c k w ps := by
  by_cases hy : ∃ y ∈ (s.core c).l1, y.pa = q.pa.line
  · exact .inl hy
  · have hmiss : q.pa.line ∈ (s.core c).l1Miss ((ldcLate s c k w ps).map fun p => p.2.pa.line) := by
      refine List.mem_filter.2 ⟨List.mem_map.2 ⟨_, h, rfl⟩, ?_⟩
      simpa using hy
    exact .inr ((mem_append_new ..).2 (.inr (List.mem_eraseDups.2 hmiss)))

section
variable {s : State} {c k : Nat} {w : Warp} {o : MOp}

/-- The values that the L1 gives at once. -/
def hitVals (s : State) (c k : Nat) (w : Warp) (o : MOp) : List (Nat × Nat) :=
  (ldcHit s c k w (ldcPlaces s c w o)).map fun p => (p.1, (s.core c).l1Get p.2.pa o.size.bytes)

theorem mem_hitVals {l x : Nat} : (l, x) ∈ hitVals s c k w o ↔
    ∃ q, (l, q) ∈ ldcPlaces s c w o ∧ InL1 s c k w q ∧ x = (s.core c).l1Get q.pa o.size.bytes := by
  simp only [hitVals, List.mem_map, mem_ldcHit, Prod.exists, Prod.mk.injEq]
  constructor
  · rintro ⟨l', q, ⟨hp, hin⟩, rfl, rfl⟩
    exact ⟨q, hp, hin, rfl⟩
  · rintro ⟨q, hp, hin, rfl⟩
    exact ⟨l, q, ⟨hp, hin⟩, rfl, rfl⟩

/-- R154: a lane whose line is in the L1 has its word at once. -/
theorem find_hitVals {i l : Nat} {q : Place} (hp : (l, q) ∈ ldcPlaces s c w o) (hin : InL1 s c k w q) :
    FMap.find ((hitVals s c k w o).map fun p => (p.1, wordAt p.2 i)) l = some (wordAt ((s.core c).l1Get q.pa o.size.bytes) i) := by
  refine FMap.find_of_mem (List.mem_map.2 ⟨_, mem_hitVals.2 ⟨q, hp, hin, rfl⟩, rfl⟩) fun u hu => ?_
  obtain ⟨⟨l', x⟩, hx, he⟩ := List.mem_map.1 hu
  obtain ⟨rfl, rfl⟩ := Prod.mk.inj he
  obtain ⟨q', hq', -, rfl⟩ := mem_hitVals.1 hx
  rw [ldcPlaces_unique hq' hp]

/-- A lane with no place in the L1 has no word yet. -/
theorem find_hitVals_none {i l : Nat} (h : ∀ q, (l, q) ∈ ldcPlaces s c w o → ¬InL1 s c k w q) :
    FMap.find ((hitVals s c k w o).map fun p => (p.1, wordAt p.2 i)) l = none := by
  refine FMap.find_of_not_mem fun u hu => ?_
  obtain ⟨⟨l', x⟩, hx, he⟩ := List.mem_map.1 hu
  obtain ⟨rfl, rfl⟩ := Prod.mk.inj he
  obtain ⟨q, hq, hin, -⟩ := mem_hitVals.1 hx
  exact h q hq hin

/-- The lanes that wait, by the address of their place. -/
def latePas (s : State) (c k : Nat) (w : Warp) (o : MOp) : List (Nat × Pa) := (ldcLate s c k w (ldcPlaces s c w o)).map fun p => (p.1, p.2.pa)

theorem lane_of_mem_want {f : Pa → Pa} {p : Nat × Pa} (h : p ∈ (latePas s c k w o).map fun p => (p.1, f p.2)) :
    ∃ q, (p.1, q) ∈ ldcPlaces s c w o ∧ ¬InL1 s c k w q := by
  obtain ⟨p', hp', rfl⟩ := List.mem_map.1 h
  obtain ⟨⟨l, q⟩, hq, rfl⟩ := List.mem_map.1 hp'
  obtain ⟨hq, hin⟩ := mem_ldcLate.1 hq
  exact ⟨q, hq, hin⟩

/-- R143, R154: what an `ldc` into vector registers leaves to land. -/
theorem ldc_vector {r : Fin 128} {want : List Pa} (hr : o.data = .v r)
    (hwant : want = (s.core c).l1want ++ ldcMiss s c k w (ldcPlaces s c w o))
    (hpl : ∀ l ∈ w.loadLanes o, ∃ q e, s.place c w .read (w.memAddr o l) = some (q, e)) :
    let xs := ldcLandings s c k w o (ldcPlaces s c w o)
    xs.length = (o.size.bytes + 3) / 4 ∧ ∀ i x, xs[i]? = some x →
      Lands w x 1 20 (.v (r.val + i)) (if i = 0 then .lmd else .none) ∧ x.wn = min o.size.bytes 4 ∧
      (∀ l, ¬ Active w o.guard l → FMap.find x.lanes l = none ∧ ∀ p ∈ x.want, p.1 ≠ l) ∧
      ∀ l, Active w o.guard l → ∃ q e, s.place c w .read (w.memAddr o l) = some (q, e) ∧
        (InL1 s c k w q → FMap.find x.lanes l = some (BitVec.ofNat 32 ((s.core c).l1Get q.pa o.size.bytes / 2 ^ (32 * i))) ∧
          ∀ p ∈ x.want, p.1 ≠ l) ∧
        (¬ InL1 s c k w q → FMap.find x.lanes l = none ∧ (l, q.pa.plus (4 * i)) ∈ x.want ∧
          ((∃ y ∈ (s.core c).l1, y.pa = q.pa.line) ∨ q.pa.line ∈ want)) := by
  intro xs
  obtain ⟨hlen, hget⟩ := lateLandings_vector (w := w) hr 20 o.size.bytes (hitVals s c k w o) (latePas s c k w o)
  refine ⟨hlen, fun i x hx => ?_⟩
  obtain ⟨hl, hwn, hlanes, hxw⟩ := hget i x hx
  rw [hlanes, hxw]
  refine ⟨hl, hwn, fun l ha => ⟨?_, fun p hp he => ?_⟩, fun l ha => ?_⟩
  · exact find_hitVals_none fun q hq => absurd (active_of_loadLanes (mem_ldcPlaces.1 hq).1) ha
  · obtain ⟨q, hq, -⟩ := lane_of_mem_want (f := fun a => a.plus (4 * i)) hp
    exact ha (he ▸ active_of_loadLanes (mem_ldcPlaces.1 hq).1)
  · have hll : l ∈ w.loadLanes o := by rwa [loadLanes_vector hr, Warp.mem_lanesOf]
    obtain ⟨q, e, hq⟩ := hpl l hll
    have hp : (l, q) ∈ ldcPlaces s c w o := mem_ldcPlaces.2 ⟨hll, e, hq⟩
    refine ⟨q, e, hq, fun hin => ⟨find_hitVals hp hin, fun p hpw he => ?_⟩, fun hin => ⟨?_, ?_, ?_⟩⟩
    · obtain ⟨q', hq', hin'⟩ := lane_of_mem_want (f := fun a => a.plus (4 * i)) hpw
      exact hin' (ldcPlaces_unique (he ▸ hq') hp ▸ hin)
    · exact find_hitVals_none fun q' hq' => ldcPlaces_unique hq' hp ▸ hin
    · exact List.mem_map.2 ⟨(l, q.pa), List.mem_map.2 ⟨(l, q), mem_ldcLate.2 ⟨hp, hin⟩, rfl⟩, rfl⟩
    · exact hwant ▸ asked_of_late (mem_ldcLate.2 ⟨hp, hin⟩)

/-- R141, R154: what an `ldc` into a scalar leaves to land. -/
theorem ldc_scalar {r : Fin 64} (hr : o.data = .s r)
    (hpl : ∀ l ∈ w.loadLanes o, ∃ q e, s.place c w .read (w.memAddr o l) = some (q, e)) :
    let xs := ldcLandings s c k w o (ldcPlaces s c w o)
    ((∀ l, ¬ Active w o.guard l) → xs = []) ∧
      ∀ l, Active w o.guard l → (∀ j < l, ¬ Active w o.guard j) → ∃ x q e, s.place c w .read (w.memAddr o l) = some (q, e) ∧ xs = [x] ∧
        Lands w x 1 20 (.s r.val) .none ∧
        (InL1 s c k w q → x.want = [] ∧ x.scalar = BitVec.ofNat 64 ((s.core c).l1Get q.pa o.size.bytes)) ∧
        (¬ InL1 s c k w q → x.want = [(l, q.pa)] ∧ x.wn = o.size.bytes) := by
  intro xs
  have hxs : xs = _ := lateLandings_scalar hr 20 o.size.bytes (hitVals s c k w o) (latePas s c k w o)
  refine ⟨fun hno => ?_, fun l ha hl => ?_⟩
  · have hps : ldcPlaces s c w o = [] := by rw [ldcPlaces, accs_load, loadLanes_none hno]; rfl
    rw [hxs, hitVals, latePas, hps]
    rfl
  · have hlanes := loadLanes_scalar hr ha hl
    obtain ⟨q, e, hq⟩ := hpl l (by rw [hlanes]; exact List.mem_singleton_self l)
    have hps : ldcPlaces s c w o = [(l, q)] := by simp [ldcPlaces, accs_load, hlanes, State.placesOf, hq]
    by_cases hin : InL1 s c k w q
    · have hhit : hitL1 s c k w (l, q) = true := hitL1_iff.2 hin
      refine ⟨w.scalarLanding 1 20 (.s r.val) .none (BitVec.ofNat 64 ((s.core c).l1Get q.pa o.size.bytes)) 0, q, e, hq, ?_, ?_, fun _ => ⟨rfl, rfl⟩,
        fun h => absurd hin h⟩
      · rw [hxs, hitVals, latePas, hps]
        simp [ldcHit, ldcLate, List.partition_eq_filter_filter, hhit]
      · exact ⟨rfl, rfl, rfl, rfl, rfl, rfl, rfl⟩
    · have hhit : hitL1 s c k w (l, q) = false := Bool.eq_false_iff.2 fun h => hin (hitL1_iff.1 h)
      refine ⟨{ w.scalarLanding 1 20 (.s r.val) .none 0 0 with want := [(l, q.pa)], wn := o.size.bytes, seq := w.seq }, q, e, hq, ?_, ?_,
        fun h => absurd h hin, fun _ => ⟨rfl, rfl⟩⟩
      · rw [hxs, hitVals, latePas, hps]
        simp [ldcHit, ldcLate, List.partition_eq_filter_filter, hhit]
      · exact ⟨rfl, rfl, rfl, rfl, rfl, rfl, rfl⟩

end

/-- R147: every lane of an `ldc` whose checks pass has a place. -/
theorem place_of_ldcCheck {s : State} {c k : Nat} {w : Warp} {o : MOp} (hw : s.warp? c k = some w) (h : ldcCheck o c k s = none) :
    ∀ l ∈ w.loadLanes o, ∃ q e, s.place c w .read (w.memAddr o l) = some (q, e) := by
  intro l hl
  have hld : ldCheck .noMs o c k s = none := by
    cases hc : ldCheck .noMs o c k s with
    | none => rfl
    | some f => simp [ldcCheck, hc] at h
  exact place_of_ldCheck hw hld (l, w.memAddr o l) (by rw [accs_load]; exact List.mem_map.2 ⟨l, hl, rfl⟩)

/-- Settles O14. -/
theorem fixedLatencyLoads : Obligations.FixedLatencyLoads := by
  refine ⟨fun o s c k w hi hok => ldSp_clauses hi hok, fun o s c k w hi hk ht => ?_⟩
  have hw := hi.2.1
  obtain ⟨v, hq, hv, hregs, hflags, hflight, hl1, hwant⟩ := effLdc_of hw o
  obtain ⟨w', hw', hframe, hblocks, hregs', hflags', hflight'⟩ := fixedLoad_frame (n := ldcFreeze o c k s) hq hv hregs hflags hflight
  obtain ⟨ws, hcore⟩ := core_freezeBy (effLdc o c k s) c k (ldcFreeze o c k s)
  refine ⟨_, w', _, exec_m hi rfl rfl rfl hk ht (fun _ h => nomatch h), hw', hframe, hblocks, hregs', hflags', hflight', ?_, fun r hr => ?_, fun r hr => ?_⟩
  · exact (congrArg CoreSt.l1 hcore).trans hl1
  · exact ldc_vector hr ((congrArg CoreSt.l1want hcore).trans hwant) (place_of_ldcCheck hw hk)
  · exact ldc_scalar hr (place_of_ldcCheck hw hk)

end Sys2Proof.Machine
end

