-- ==== Sys2Proof/Proofs/TickEnd.lean ====
section
/-! PROOFS. The end of a tick: the order of its landings, what each writes, and the event log (R14, R16, R18, R30 to R32, R237). -/

namespace Sys2Proof.Machine
open Claim

/-! ## Folds in which the last write stands -/

section
variable {α β γ : Type} {g : β → α → β} {f : β → γ} {P : α → Prop} {val : α → γ}

/-- Writes elsewhere leave a part alone. -/
theorem foldl_unwritten {xs : List α} (hkeep : ∀ b, ∀ a ∈ xs, ¬P a → f (g b a) = f b) (hno : ∀ a ∈ xs, ¬P a) (b : β) :
    f (xs.foldl g b) = f b := by
  induction xs generalizing b with
  | nil => rfl
  | cons a xs ih =>
    have ha := hkeep b a (List.mem_cons_self ..) (hno a (List.mem_cons_self ..))
    exact (ih (fun b a h => hkeep b a (List.mem_cons_of_mem _ h)) (fun a h => hno a (List.mem_cons_of_mem _ h)) (g b a)).trans ha

/-- A write that no different write of its part can stand behind stands. -/
theorem foldl_written {R : α → α → Prop} {xs : List α} (hset : ∀ b, ∀ a ∈ xs, P a → f (g b a) = val a)
    (hkeep : ∀ b, ∀ a ∈ xs, ¬P a → f (g b a) = f b) (hR : xs.Pairwise R) {x : α} (hx : x ∈ xs) (hP : P x)
    (hlast : ∀ y ∈ xs, y ≠ x → P y → ¬R x y) (b : β) : f (xs.foldl g b) = val x := by
  induction xs using List.reverseRecOn with
  | nil => cases hx
  | append_singleton ys a ih =>
    have hin : ∀ c ∈ ys, c ∈ ys ++ [a] := fun c h => List.mem_append_left _ h
    have ha : a ∈ ys ++ [a] := List.mem_append_right _ (List.mem_singleton_self a)
    obtain ⟨hys, -, hya⟩ := List.pairwise_append.1 hR
    rw [List.foldl_concat]
    by_cases hPa : P a
    · have hax : a = x := by
        by_contra hne
        have hxy : x ∈ ys := (List.mem_append.1 hx).resolve_right fun h => hne (List.mem_singleton.1 h).symm
        exact hlast a ha hne hPa (hya x hxy a (List.mem_singleton_self a))
      rw [hset _ a ha hPa, hax]
    · have hxy : x ∈ ys := (List.mem_append.1 hx).resolve_right fun h => hPa (List.mem_singleton.1 h ▸ hP)
      rw [hkeep _ a ha hPa]
      exact ih (fun b c h => hset b c (hin c h)) (fun b c h => hkeep b c (hin c h)) hys hxy fun y h => hlast y (hin y h)

end

/-! ## The order of landings -/

theorem mem_insertLanding {x y : Landing} {ys : List Landing} : y ∈ insertLanding x ys ↔ y = x ∨ y ∈ ys := by
  induction ys with
  | nil => simp [insertLanding]
  | cons z ys ih =>
    unfold insertLanding
    split
    · simp
    · simp only [List.mem_cons, ih]
      tauto

/-- R18, R32: of two landings in order, the first is not written after the second. -/
def InOrder (x y : Landing) : Prop := ¬After x y

theorem insertLanding_sorted {x : Landing} {ys : List Landing} (h : ys.Pairwise InOrder) : (insertLanding x ys).Pairwise InOrder := by
  induction ys with
  | nil => simp [insertLanding]
  | cons y ys ih =>
    obtain ⟨hy, hys⟩ := List.pairwise_cons.1 h
    unfold insertLanding
    split
    · next hlt =>
      refine List.pairwise_cons.2 ⟨fun z hz => ?_, h⟩
      rcases List.mem_cons.1 hz with rfl | hz
      · unfold InOrder After
        omega
      · have := hy z hz
        unfold InOrder After at *
        omega
    · next hge =>
      refine List.pairwise_cons.2 ⟨fun z hz => ?_, ih hys⟩
      rcases mem_insertLanding.1 hz with rfl | hz
      · exact hge
      · exact hy z hz

theorem foldl_insertLanding {xs acc : List Landing} (h : acc.Pairwise InOrder) :
    (xs.foldl (fun acc x => insertLanding x acc) acc).Pairwise InOrder ∧
      ∀ y, y ∈ xs.foldl (fun acc x => insertLanding x acc) acc ↔ y ∈ xs ∨ y ∈ acc := by
  induction xs generalizing acc with
  | nil => exact ⟨h, by simp⟩
  | cons x xs ih =>
    obtain ⟨hs, hm⟩ := ih (insertLanding_sorted (x := x) h)
    refine ⟨hs, fun y => ?_⟩
    rw [List.foldl_cons, hm, mem_insertLanding, List.mem_cons]
    tauto

theorem landingOrder_sorted (xs : List Landing) : (landingOrder xs).Pairwise InOrder := (foldl_insertLanding List.Pairwise.nil).1

theorem mem_landingOrder {xs : List Landing} {y : Landing} : y ∈ landingOrder xs ↔ y ∈ xs := by
  rw [landingOrder, (foldl_insertLanding List.Pairwise.nil).2, List.mem_nil_iff, or_false]

/-! ## The stages of a tick's end -/

/-- The results that land at the end of the present tick, in the order in which they are written. -/
def Warp.landings (w : Warp) : List Landing := landingOrder (w.flight.filter fun x => x.land ≤ w.tick)

theorem Warp.mem_landings {w : Warp} {x : Landing} : x ∈ w.landings ↔ Now w x := by
  rw [Warp.landings, mem_landingOrder, List.mem_filter, decide_eq_true_eq]
  rfl

/-- The `ssr` writes of a tick's end, in order. -/
def Warp.srLandings (w : Warp) : List Landing := w.landings.filter Landing.isSr

/-- The other results of a tick's end, in order. -/
def Warp.regLandings (w : Warp) : List Landing := w.landings.filter fun x => !x.isSr

/-- The warp once its `ssr` writes have landed. -/
def Warp.srLanded (w : Warp) : Warp := w.srLandings.foldl Warp.land w

/-- The warp once every result of its tick has landed. -/
def Warp.regsLanded (w : Warp) : Warp := w.regLandings.foldl Warp.land w.srLanded

/-- Events of a tick with slots, classes and addresses are recorded in their order. -/
def Warp.log (w : Warp) (es : List (Nat × BitVec 8 × DWord)) : Warp := es.foldl (fun w e => w.recordEvent e.1 e.2.1 e.2.2) w

/-- The events of the results of a tick, each with its slot, lane, classes and address. -/
def Warp.laneEvents (w : Warp) : List (Nat × Nat × BitVec 8 × DWord) :=
  (w.landings.flatMap fun x => x.evs.map fun p => (x.slot, p.1, p.2, x.addr)).foldr insertEvent []

/-- The events of engine operations that the present tick sees. -/
def Warp.engineEvents (w : Warp) : List (Nat × Nat × BitVec 8 × DWord) := w.pendEv.filter fun e => e.1 ≤ w.tick

/-- Every event of a tick in the order in which it is recorded. -/
def Warp.tickEvents (w : Warp) : List (Nat × BitVec 8 × DWord) :=
  (w.laneEvents.map fun e => (e.1, e.2.2.1, e.2.2.2)) ++ w.engineEvents.map fun e => (2, e.2.2.1, e.2.2.2)

/-- The flags that results of a tick bring down. -/
def Warp.dropFlags (w : Warp) (xs : List Landing) : Warp := xs.foldl (fun w x => match x.dec with | some (some f) => w.decFlag f | _ => w) w

/-- Only what special registers hold differs. -/
def OnlySr (w v : Warp) : Prop := ∃ a b c d e, v = { w with fel := a, fes := b, fen := c, tsa := d, epc := e }

/-- Only registers and predicates differ. -/
def OnlyRegs (w v : Warp) : Prop := ∃ a b c d, v = { w with vregs := a, sregs := b, vpred := c, spred := d }

/-- Only the event log differs. -/
def OnlyLog (w v : Warp) : Prop := ∃ a b, v = { w with fel := a, fes := b }

/-- Only flags differ. -/
def OnlyFlags (w v : Warp) : Prop := ∃ a, v = { w with flags := a }

theorem onlySr_refl (w : Warp) : OnlySr w w := ⟨w.fel, w.fes, w.fen, w.tsa, w.epc, rfl⟩

theorem onlyRegs_refl (w : Warp) : OnlyRegs w w := ⟨w.vregs, w.sregs, w.vpred, w.spred, rfl⟩

theorem onlyLog_refl (w : Warp) : OnlyLog w w := ⟨w.fel, w.fes, rfl⟩

theorem onlyFlags_refl (w : Warp) : OnlyFlags w w := ⟨w.flags, rfl⟩

theorem onlySr_trans {u v w : Warp} (h : OnlySr u v) (g : OnlySr v w) : OnlySr u w := by
  obtain ⟨_, _, _, _, _, rfl⟩ := h
  obtain ⟨a, b, c, d, e, rfl⟩ := g
  exact ⟨a, b, c, d, e, rfl⟩

theorem onlyRegs_trans {u v w : Warp} (h : OnlyRegs u v) (g : OnlyRegs v w) : OnlyRegs u w := by
  obtain ⟨_, _, _, _, rfl⟩ := h
  obtain ⟨a, b, c, d, rfl⟩ := g
  exact ⟨a, b, c, d, rfl⟩

theorem onlyLog_trans {u v w : Warp} (h : OnlyLog u v) (g : OnlyLog v w) : OnlyLog u w := by
  obtain ⟨_, _, rfl⟩ := h
  obtain ⟨a, b, rfl⟩ := g
  exact ⟨a, b, rfl⟩

theorem onlyFlags_trans {u v w : Warp} (h : OnlyFlags u v) (g : OnlyFlags v w) : OnlyFlags u w := by
  obtain ⟨_, rfl⟩ := h
  obtain ⟨a, rfl⟩ := g
  exact ⟨a, rfl⟩

theorem onlyRegs_setV (w : Warp) (r l : Nat) (x : Word) : OnlyRegs w (w.setV r l x) := ⟨_, _, _, _, rfl⟩

theorem onlyRegs_setVp (w : Warp) (r l : Nat) (b : Bool) : OnlyRegs w (w.setVp r l b) := by
  unfold Warp.setVp
  split
  · exact ⟨_, _, _, _, rfl⟩
  · exact ⟨_, _, _, _, rfl⟩

theorem onlyRegs_setS (w : Warp) (r : Nat) (x : DWord) : OnlyRegs w (w.setS r x) := by
  unfold Warp.setS
  split
  · exact ⟨_, _, _, _, rfl⟩
  · exact ⟨_, _, _, _, rfl⟩

theorem onlyRegs_setSp (w : Warp) (r : Nat) (b : Bool) : OnlyRegs w (w.setSp r b) := by
  unfold Warp.setSp
  split
  · exact ⟨_, _, _, _, rfl⟩
  · exact ⟨_, _, _, _, rfl⟩

theorem isSr_iff {x : Landing} : x.isSr = true ↔ ∃ n, x.dest = .sr n := by
  unfold Landing.isSr
  cases x.dest <;> simp

/-- R14: what an `ssr` writes. -/
theorem land_sr_eq (w : Warp) {x : Landing} {n : Nat} (h : x.dest = .sr n) : w.land x = { w with
    fel := if n = 4 then x.scalar &&& 0xFC00_7FFF_FFFF_FFFF else w.fel
    fes := if n = 5 then w.fes &&& ~~~(x.scalar &&& 0xFF) else w.fes
    fen := if n = 6 then x.scalar &&& 1 else w.fen
    tsa := if n = 8 then x.scalar else w.tsa
    epc := if n = 10 then x.scalar else w.epc } := by
  unfold Warp.land
  rw [h]
  match n with
  | 0 | 1 | 2 | 3 | 4 | 5 | 6 | 7 | 8 | 9 | 10 => rfl
  | n + 11 => simp

/-- An `ssr` changes special registers only. -/
theorem land_sr (w : Warp) {x : Landing} (h : x.isSr = true) : OnlySr w (w.land x) := by
  obtain ⟨n, hn⟩ := isSr_iff.1 h
  exact ⟨_, _, _, _, _, land_sr_eq w hn⟩

/-- A result that is no `ssr` changes registers and predicates only. -/
theorem land_reg (w : Warp) {x : Landing} (h : x.isSr = false) : OnlyRegs w (w.land x) := by
  unfold Landing.isSr at h
  unfold Warp.land
  cases hd : x.dest with
  | v r => exact foldl_keeps onlyRegs_refl onlyRegs_trans (fun w p => onlyRegs_setV w r p.1 p.2) x.lanes w
  | vp i => exact foldl_keeps onlyRegs_refl onlyRegs_trans (fun w p => onlyRegs_setVp w i p.1 (p.2 != 0)) x.lanes w
  | s r => exact onlyRegs_setS ..
  | sp i => exact onlyRegs_setSp ..
  | sr n => simp [hd] at h
  | sd n j => exact ⟨_, _, _, _, rfl⟩

theorem onlySr_srLanded (w : Warp) : OnlySr w w.srLanded := by
  have h : ∀ (xs : List Landing), (∀ x ∈ xs, x.isSr = true) → ∀ w, OnlySr w (xs.foldl Warp.land w) := by
    intro xs
    induction xs with
    | nil => exact fun _ w => onlySr_refl w
    | cons x xs ih =>
      exact fun hx w => onlySr_trans (land_sr w (hx x (List.mem_cons_self ..))) (ih (fun y hy => hx y (List.mem_cons_of_mem _ hy)) _)
  exact h _ (fun x hx => (List.mem_filter.1 hx).2) w

theorem onlyRegs_regsLanded (w : Warp) : OnlyRegs w.srLanded w.regsLanded := by
  have h : ∀ (xs : List Landing), (∀ x ∈ xs, x.isSr = false) → ∀ w, OnlyRegs w (xs.foldl Warp.land w) := by
    intro xs
    induction xs with
    | nil => exact fun _ w => onlyRegs_refl w
    | cons x xs ih =>
      exact fun hx w => onlyRegs_trans (land_reg w (hx x (List.mem_cons_self ..))) (ih (fun y hy => hx y (List.mem_cons_of_mem _ hy)) _)
  exact h _ (fun x hx => by simpa using (List.mem_filter.1 hx).2) _

theorem onlyLog_recordEvent (w : Warp) (n : Nat) (e : BitVec 8) (a : DWord) : OnlyLog w (w.recordEvent n e a) := by
  unfold Warp.recordEvent
  dsimp only
  split
  · exact ⟨_, _, rfl⟩
  · split <;> exact ⟨_, _, rfl⟩

theorem onlyLog_log (w : Warp) (es : List (Nat × BitVec 8 × DWord)) : OnlyLog w (w.log es) :=
  foldl_keeps onlyLog_refl onlyLog_trans (fun _ _ => onlyLog_recordEvent ..) es w

theorem onlyFlags_dropFlags (w : Warp) (xs : List Landing) : OnlyFlags w (w.dropFlags xs) := by
  refine foldl_keeps onlyFlags_refl onlyFlags_trans (fun w x => ?_) xs w
  split
  · exact ⟨_, rfl⟩
  · exact ⟨_, rfl⟩

theorem log_append (v : Warp) (as bs : List (Nat × BitVec 8 × DWord)) : v.log (as ++ bs) = (v.log as).log bs := List.foldl_append

theorem log_map {α : Type} (v : Warp) (f : α → Nat × BitVec 8 × DWord) (es : List α) :
    v.log (es.map f) = es.foldl (fun w e => w.recordEvent (f e).1 (f e).2.1 (f e).2.2) v := List.foldl_map

/-- R31: recording the events of results, each lane's own. -/
theorem recordAll_eq (v w : Warp) : v.recordAll w.landings = v.log (w.laneEvents.map fun e => (e.1, e.2.2.1, e.2.2.2)) := by
  rw [log_map]
  rfl

/-- The warp once the events of its results are recorded. -/
def Warp.laneLogged (w : Warp) : Warp := w.regsLanded.recordAll w.landings

/-- The warp once every event of its tick is recorded. -/
def Warp.logged (w : Warp) : Warp :=
  (w.laneLogged.pendEv.filter fun e => e.1 ≤ w.laneLogged.tick).foldl (fun w e => w.recordEvent 2 e.2.2.1 e.2.2.2) w.laneLogged

/-- R16, R18, R22, R30 to R32, R237: the end of a tick is its stages, and the beginning of the next. -/
theorem Warp.endTick_stages (w : Warp) (now : Nat) :
    w.endTick now = { w.logged.dropFlags w.landings with
      flight := w.flight.filter fun x => !decide (x.land ≤ w.tick), landed := w.landings.filter fun x => 1 ≤ x.slot
      pendEv := w.laneLogged.pendEv.filter fun e => !decide (e.1 ≤ w.laneLogged.tick)
      mask := (w.logged.dropFlags w.landings).mask &&& ~~~(w.logged.dropFlags w.landings).retire, retire := 0, incs := []
      tick := (w.logged.dropFlags w.landings).tick + 1, tickStart := now, opened := false, inTick := false } := by
  unfold Warp.endTick
  simp only [List.partition_eq_filter_filter]
  rfl

/-- The stages of a tick's end before its flags change registers, predicates, special registers and the log only. -/
theorem onlyRegs_frame {w v : Warp} (h : OnlyRegs w.srLanded v) : v.pendEv = w.pendEv ∧ v.tick = w.tick ∧ v.mask = w.mask ∧ v.retire = w.retire ∧
    v.pc = w.pc ∧ v.loops = w.loops ∧ v.flags = w.flags ∧ v.stop = w.stop := by
  obtain ⟨_, _, _, _, _, hsr⟩ := onlySr_srLanded w
  obtain ⟨_, _, _, _, hregs⟩ := h
  rw [hregs, hsr]
  exact ⟨rfl, rfl, rfl, rfl, rfl, rfl, rfl, rfl⟩

theorem Warp.logged_eq (w : Warp) : w.logged = w.regsLanded.log w.tickEvents := by
  obtain ⟨hpend, htick, -⟩ := onlyRegs_frame (onlyRegs_regsLanded w)
  obtain ⟨_, _, hlanes⟩ := onlyLog_log w.regsLanded (w.laneEvents.map fun e => (e.1, e.2.2.1, e.2.2.2))
  have hl : w.laneLogged = w.regsLanded.log (w.laneEvents.map fun e => (e.1, e.2.2.1, e.2.2.2)) := recordAll_eq ..
  have hp : w.laneLogged.pendEv = w.pendEv := by rw [hl, hlanes, ← hpend]
  have ht : w.laneLogged.tick = w.tick := by rw [hl, hlanes, ← htick]
  rw [Warp.logged, hp, ht, Warp.tickEvents, log_append, log_map (f := fun e : Nat × Nat × BitVec 8 × DWord => (2, e.2.2.1, e.2.2.2)), ← hl]
  rfl

/-- What the end of a tick leaves of the control of a warp, its mask and its flags, and what it takes from the stages before. -/
structure EndsTick (w : Warp) (now : Nat) (v : Warp) : Prop where
  tick : v.tick = w.tick + 1
  tickStart : v.tickStart = now
  opened : v.opened = false
  flight : v.flight = w.flight.filter fun x => !decide (x.land ≤ w.tick)
  mask : v.mask = w.mask &&& ~~~w.retire
  retire : v.retire = 0
  pc : v.pc = w.pc
  loops : v.loops = w.loops
  stop : v.stop = w.stop
  flags : (∀ x, Now w x → x.dec = none) → v.flags = w.flags
  vregs : v.vregs = w.regsLanded.vregs
  sregs : v.sregs = w.regsLanded.sregs
  vpred : v.vpred = w.regsLanded.vpred
  spred : v.spred = w.regsLanded.spred
  fen : v.fen = w.srLanded.fen
  tsa : v.tsa = w.srLanded.tsa
  epc : v.epc = w.srLanded.epc
  fel : v.fel = (w.regsLanded.log w.tickEvents).fel
  fes : v.fes = (w.regsLanded.log w.tickEvents).fes

/-- Flags that no result brings down stay. -/
theorem dropFlags_none {xs : List Landing} (h : ∀ x ∈ xs, x.dec = none) (w : Warp) : (w.dropFlags xs).flags = w.flags := by
  refine foldl_unwritten (f := Warp.flags) (P := fun x => x.dec ≠ none) (fun w x _ hx => ?_) (fun x hx hn => hn (h x hx)) w
  rw [not_not.1 hx]

theorem Warp.endTick_ends (w : Warp) (now : Nat) : EndsTick w now (w.endTick now) := by
  obtain ⟨-, htick, hmask, hretire, hpc, hloops, hflags, hstop⟩ := onlyRegs_frame (onlyRegs_regsLanded w)
  obtain ⟨_, _, _, _, hregs⟩ := onlyRegs_regsLanded w
  obtain ⟨_, _, hlog⟩ := onlyLog_log w.regsLanded w.tickEvents
  obtain ⟨_, hd⟩ := onlyFlags_dropFlags w.logged w.landings
  have hfen : w.regsLanded.fen = w.srLanded.fen := by rw [hregs]
  have htsa : w.regsLanded.tsa = w.srLanded.tsa := by rw [hregs]
  have hepc : w.regsLanded.epc = w.srLanded.epc := by rw [hregs]
  have hdrop (h : ∀ x, Now w x → x.dec = none) : (w.logged.dropFlags w.landings).flags = w.logged.flags :=
    dropFlags_none (fun x hx => h x (Warp.mem_landings.1 hx)) _
  rw [Warp.endTick_stages]
  generalize w.logged.dropFlags w.landings = d at hd hdrop
  rw [Warp.logged_eq] at hd hdrop
  generalize hg : w.regsLanded.log w.tickEvents = g at hlog hd hdrop
  subst hd hlog
  exact ⟨congrArg (· + 1) htick, rfl, rfl, rfl, by rw [← hmask, ← hretire], rfl, hpc, hloops, hstop, fun h => (hdrop h).trans hflags, rfl, rfl, rfl, rfl,
    hfen, htsa, hepc, (congrArg Warp.fel hg).symm, (congrArg Warp.fes hg).symm⟩

/-! ## What each landing writes -/

/-- Writing lanes one by one leaves in a lane what the list of lanes holds for it. -/
theorem foldl_lanes {γ : Type} {m : FMap Word} {step : Warp → Nat × Word → Warp} {read : Warp → γ} {val : Word → γ} {l : Nat}
    (hit : ∀ w, ∀ p ∈ m, p.1 = l → read (step w p) = val p.2) (miss : ∀ w, ∀ p ∈ m, p.1 ≠ l → read (step w p) = read w)
    (hn : (m.map (·.1)).Nodup) (w : Warp) : read (m.foldl step w) = ((FMap.find m l).map val).getD (read w) := by
  induction m generalizing w with
  | nil => rfl
  | cons p m ih =>
    obtain ⟨a, b⟩ := p
    obtain ⟨ha, hm⟩ := List.nodup_cons.1 hn
    rw [List.foldl_cons, ih (fun w p h => hit w p (List.mem_cons_of_mem _ h)) (fun w p h => miss w p (List.mem_cons_of_mem _ h)) hm]
    by_cases hl : a = l
    · have hnone : FMap.find m l = none := FMap.find_of_not_mem fun v hv => ha (hl ▸ List.mem_map.2 ⟨_, hv, rfl⟩)
      rw [hnone, hit w (a, b) (List.mem_cons_self ..) hl]
      simp [FMap.find, hl]
    · rw [miss w (a, b) (List.mem_cons_self ..) hl]
      simp [FMap.find, hl]

/-- The lanes of a result are lanes of a warp, each once. -/
def LanesOk (x : Landing) : Prop := (∀ p ∈ x.lanes, p.1 < 1024) ∧ (x.lanes.map (·.1)).Nodup

theorem v_setV (w : Warp) {r q a l : Nat} (ha : a < 1024) (hl : l < 1024) (b : Word) :
    (w.setV q a b).v r l = if q = r ∧ a = l then b else w.v r l := by
  unfold Warp.v Warp.setV
  by_cases h : q = r ∧ a = l
  · obtain ⟨rfl, rfl⟩ := h
    simp
  · have hne : r * 1024 + l ≠ q * 1024 + a := by omega
    rw [if_neg h]
    exact FMap.getD_put_ne _ _ _ _ hne

theorem vp_setVp (w : Warp) {r q a l : Nat} (hr : 0 < r) (hr8 : r < 8) (ha : a < 1024) (hl : l < 1024) (b : Bool) :
    (w.setVp q a b).vp r l = if q = r ∧ a = l then b else w.vp r l := by
  have hbit : (BitVec.ofNat 8192 (2 ^ (1024 * q + a))).getLsbD (1024 * r + l) = decide (q = r ∧ a = l) := by
    rw [BitVec.getLsbD_ofNat, Nat.testBit_two_pow, decide_eq_true (by omega : 1024 * r + l < 8192), Bool.true_and]
    exact decide_eq_decide.2 (by omega)
  unfold Warp.vp Warp.setVp
  by_cases hq : q = 0
  · simp [hq, show ¬0 = r by omega]
  · rw [if_neg hq]
    dsimp only
    generalize BitVec.ofNat 8192 (2 ^ (1024 * q + a)) = m at hbit
    have h0 : decide (r = 0) = false := decide_eq_false (by omega)
    by_cases h : q = r ∧ a = l
    · rw [decide_eq_true h] at hbit
      rw [if_pos h, h0]
      cases b <;> simp [hbit]
    · rw [decide_eq_false h] at hbit
      have hlt : decide (1024 * r + l < 8192) = true := decide_eq_true (by omega)
      rw [if_neg h, h0]
      cases b
      · simp only [Bool.false_or, Bool.false_eq_true, if_false, BitVec.getLsbD_and, BitVec.getLsbD_not, hbit, hlt, Bool.not_false, Bool.and_true]
      · simp only [Bool.false_or, if_true, BitVec.getLsbD_or, hbit, Bool.or_false]

theorem s_setS (w : Warp) (q r : Nat) (y : DWord) : (w.setS q y).s r = if q = r then (if r = 0 then 0 else y) else w.s r := by
  unfold Warp.s Warp.setS
  by_cases hq : q = 0
  · by_cases hr : r = 0
    · simp [hq, hr]
    · simp [hq, hr, show ¬0 = r from fun h => hr h.symm]
  · by_cases hr : r = 0
    · simp [hr]
    · by_cases h : q = r
      · subst h
        simp [hq]
      · simp [hq, hr, h, FMap.getD_put_ne _ _ _ _ (Ne.symm h)]

theorem sp_setSp (w : Warp) {q r : Nat} (hq : q < 8) (hr : 0 < r) (b : Bool) : (w.setSp q b).sp r = if q = r then b else w.sp r := by
  have hbit : (BitVec.ofNat 8 (2 ^ q)).getLsbD r = decide (q = r) := by
    rw [BitVec.getLsbD_ofNat, Nat.testBit_two_pow]
    by_cases h : q = r
    · rw [decide_eq_true h, Bool.and_true, decide_eq_true (h ▸ hq)]
    · rw [decide_eq_false h, Bool.and_false]
  unfold Warp.sp Warp.setSp
  by_cases hq0 : q = 0
  · simp [hq0, show ¬0 = r by omega]
  · rw [if_neg hq0]
    dsimp only
    generalize BitVec.ofNat 8 (2 ^ q) = m at hbit
    have h0 : decide (r = 0) = false := decide_eq_false (by omega)
    by_cases h : q = r
    · rw [decide_eq_true h] at hbit
      rw [if_pos h, h0]
      cases b <;> simp [hbit]
    · rw [decide_eq_false h] at hbit
      rw [if_neg h, h0]
      cases b
      · simp only [Bool.false_or, Bool.false_eq_true, if_false, BitVec.getLsbD_and, BitVec.getLsbD_not, hbit, Bool.not_false, Bool.and_true]
        cases hs : w.spred.getLsbD r
        · rfl
        · simp [BitVec.lt_of_getLsbD hs]
      · simp only [Bool.false_or, if_true, BitVec.getLsbD_or, hbit, Bool.or_false]

end Sys2Proof.Machine
end

