-- ==== Sys2Proof/Proofs/TickWrites.lean ====
section
/-! PROOFS. What the registers, the special registers and the event log hold after a tick (R14, R18, R29, R31, R32). -/

namespace Sys2Proof.Machine
open Claim

/-! ## One landing -/

/-- A fold of writes that leave a part alone leaves it alone. -/
theorem foldl_same {α β γ : Type} {g : β → α → β} {f : β → γ} (h : ∀ b a, f (g b a) = f b) (xs : List α) (b : β) : f (xs.foldl g b) = f b :=
  foldl_unwritten (P := fun _ => False) (fun b a _ _ => h b a) (fun _ _ => not_false) b

section
variable {w : Warp} {x : Landing}

theorem land_dest_v {r : Nat} (h : x.dest = .v r) : w.land x = x.lanes.foldl (fun w p => w.setV r p.1 p.2) w := by
  rw [Warp.land, h]

theorem land_dest_vp {i : Nat} (h : x.dest = .vp i) : w.land x = x.lanes.foldl (fun w p => w.setVp i p.1 (p.2 != 0)) w := by
  rw [Warp.land, h]

theorem land_dest_s {r : Nat} (h : x.dest = .s r) : w.land x = w.setS r x.scalar := by
  rw [Warp.land, h]

theorem land_dest_sp {i : Nat} (h : x.dest = .sp i) : w.land x = w.setSp i (x.scalar.getLsbD 0) := by
  rw [Warp.land, h]

theorem land_dest_sd {n j : Nat} (h : x.dest = .sd n j) : w.land x = w := by
  rw [Warp.land, h]

theorem land_vregs (h : ∀ r, x.dest ≠ .v r) : (w.land x).vregs = w.vregs := by
  cases hd : x.dest with
  | v r => exact absurd hd (h r)
  | vp i => exact land_dest_vp hd ▸ foldl_same (f := Warp.vregs) (fun w p => by simp) x.lanes w
  | s r => simp [land_dest_s hd]
  | sp i => simp [land_dest_sp hd]
  | sr n => rw [land_sr_eq w hd]
  | sd n j => rw [land_dest_sd hd]

theorem land_sregs (h : ∀ r, x.dest ≠ .s r) : (w.land x).sregs = w.sregs := by
  cases hd : x.dest with
  | v r => exact land_dest_v hd ▸ foldl_same (f := Warp.sregs) (fun w p => by simp) x.lanes w
  | vp i => exact land_dest_vp hd ▸ foldl_same (f := Warp.sregs) (fun w p => by simp) x.lanes w
  | s r => exact absurd hd (h r)
  | sp i => simp [land_dest_sp hd]
  | sr n => rw [land_sr_eq w hd]
  | sd n j => rw [land_dest_sd hd]

theorem land_vpred (h : ∀ r, x.dest ≠ .vp r) : (w.land x).vpred = w.vpred := by
  cases hd : x.dest with
  | v r => exact land_dest_v hd ▸ foldl_same (f := Warp.vpred) (fun w p => by simp) x.lanes w
  | vp i => exact absurd hd (h i)
  | s r => simp [land_dest_s hd]
  | sp i => simp [land_dest_sp hd]
  | sr n => rw [land_sr_eq w hd]
  | sd n j => rw [land_dest_sd hd]

theorem land_spred (h : ∀ r, x.dest ≠ .sp r) : (w.land x).spred = w.spred := by
  cases hd : x.dest with
  | v r => exact land_dest_v hd ▸ foldl_same (f := Warp.spred) (fun w p => by simp) x.lanes w
  | vp i => exact land_dest_vp hd ▸ foldl_same (f := Warp.spred) (fun w p => by simp) x.lanes w
  | s r => simp [land_dest_s hd]
  | sp i => exact absurd hd (h i)
  | sr n => rw [land_sr_eq w hd]
  | sd n j => rw [land_dest_sd hd]

theorem FMap.mem_of_find {β : Type} {m : FMap β} {l : Nat} {v : β} (h : FMap.find m l = some v) : (l, v) ∈ m := by
  induction m with
  | nil => cases h
  | cons p m ih =>
    obtain ⟨a, b⟩ := p
    unfold FMap.find at h
    split at h
    · next ha => rw [ha, Option.some.inj h]; exact List.mem_cons_self ..
    · exact List.mem_cons_of_mem _ (ih h)

/-- R29: a vector result writes the lanes that it has. -/
theorem land_v (hx : LanesOk x) {l : Nat} (hl : l < 1024) (w : Warp) (r : Nat) :
    (w.land x).v r l = if x.dest = .v r then (FMap.find x.lanes l).getD (w.v r l) else w.v r l := by
  by_cases hv : ∃ q, x.dest = .v q
  · obtain ⟨q, hd⟩ := hv
    rw [land_dest_v hd, hd]
    by_cases hq : q = r
    · subst hq
      have := foldl_lanes (m := x.lanes) (step := fun w p => w.setV q p.1 p.2) (read := fun w => w.v q l) (val := id) (l := l)
        (fun w p hp he => by rw [v_setV w (hx.1 p hp) hl, if_pos ⟨rfl, he⟩]; rfl)
        (fun w p hp he => by rw [v_setV w (hx.1 p hp) hl, if_neg fun h => he h.2]) hx.2 w
      rw [Option.map_id_fun, id_eq] at this
      rw [if_pos rfl, this]
    · rw [if_neg fun h => hq (Dest.v.inj h)]
      exact foldl_unwritten (P := fun _ => False) (f := fun w : Warp => w.v r l)
        (fun w p hp _ => by rw [v_setV w (hx.1 p hp) hl, if_neg fun h => hq h.1]) (fun _ _ => not_false) w
  · rw [if_neg fun h => hv ⟨r, h⟩, Warp.v, land_vregs fun q hq => hv ⟨q, hq⟩]
    rfl

/-- R29: a lane predicate result writes the lanes that it has. -/
theorem land_vp (hx : LanesOk x) {r l : Nat} (hr : 0 < r) (hr8 : r < 8) (hl : l < 1024) (w : Warp) :
    (w.land x).vp r l = if x.dest = .vp r then ((FMap.find x.lanes l).map (· != 0)).getD (w.vp r l) else w.vp r l := by
  by_cases hv : ∃ q, x.dest = .vp q
  · obtain ⟨q, hd⟩ := hv
    rw [land_dest_vp hd, hd]
    by_cases hq : q = r
    · subst hq
      have := foldl_lanes (m := x.lanes) (step := fun w p => w.setVp q p.1 (p.2 != 0)) (read := fun w => w.vp q l) (val := (· != 0)) (l := l)
        (fun w p hp he => by rw [vp_setVp w hr hr8 (hx.1 p hp) hl, if_pos ⟨rfl, he⟩])
        (fun w p hp he => by rw [vp_setVp w hr hr8 (hx.1 p hp) hl, if_neg fun h => he h.2]) hx.2 w
      rw [if_pos rfl, this]
    · rw [if_neg fun h => hq (Dest.vp.inj h)]
      exact foldl_unwritten (P := fun _ => False) (f := fun w : Warp => w.vp r l)
        (fun w p hp _ => by rw [vp_setVp w hr hr8 (hx.1 p hp) hl, if_neg fun h => hq h.1]) (fun _ _ => not_false) w
  · rw [if_neg fun h => hv ⟨r, h⟩, Warp.vp, land_vpred fun q hq => hv ⟨q, hq⟩]
    rfl

theorem land_s (w : Warp) (x : Landing) (r : Nat) : (w.land x).s r = if x.dest = .s r then (if r = 0 then 0 else x.scalar) else w.s r := by
  by_cases hv : ∃ q, x.dest = .s q
  · obtain ⟨q, hd⟩ := hv
    rw [land_dest_s hd, hd, s_setS]
    simp only [Dest.s.injEq]
  · rw [if_neg fun h => hv ⟨r, h⟩, Warp.s, land_sregs fun q hq => hv ⟨q, hq⟩]
    rfl

theorem land_sp (hx : ∀ i, x.dest = .sp i → i < 8) {r : Nat} (hr : 0 < r) (w : Warp) :
    (w.land x).sp r = if x.dest = .sp r then x.scalar.getLsbD 0 else w.sp r := by
  by_cases hv : ∃ q, x.dest = .sp q
  · obtain ⟨q, hd⟩ := hv
    rw [land_dest_sp hd, hd, sp_setSp w (hx q hd) hr]
    simp only [Dest.sp.injEq]
  · rw [if_neg fun h => hv ⟨r, h⟩, Warp.sp, land_spred fun q hq => hv ⟨q, hq⟩]
    rfl

end

/-! ## The results of a tick -/

/-- `x` lands at the end of the present tick, and no different landing of this tick is written to its part after it. -/
def LastOf (w : Warp) (P : Landing → Prop) (x : Landing) : Prop := Now w x ∧ P x ∧ ∀ y, Now w y → y ≠ x → P y → After x y

section
variable {w : Warp} {γ : Type} {f : Warp → γ} {P : Landing → Prop} {val : Landing → γ}

theorem mem_srLandings {x : Landing} : x ∈ w.srLandings ↔ Now w x ∧ x.isSr = true := by
  rw [Warp.srLandings, List.mem_filter, Warp.mem_landings]

theorem mem_regLandings {x : Landing} : x ∈ w.regLandings ↔ Now w x ∧ x.isSr = false := by
  rw [Warp.regLandings, List.mem_filter, Warp.mem_landings, Bool.not_eq_true']

/-- R18, R32: the result that is written last in its part stands. -/
theorem regsLanded_written (hset : ∀ v x, Now w x → P x → f (Warp.land v x) = val x) (hkeep : ∀ v x, Now w x → ¬P x → f (Warp.land v x) = f v)
    {x : Landing} (hx : LastOf w P x) (hsr : x.isSr = false) : f w.regsLanded = val x := by
  obtain ⟨hnow, hP, hlast⟩ := hx
  refine foldl_written (R := InOrder) (fun v y hy => hset v y (mem_regLandings.1 hy).1) (fun v y hy => hkeep v y (mem_regLandings.1 hy).1)
    ((landingOrder_sorted _).filter _) (mem_regLandings.2 ⟨hnow, hsr⟩) hP (fun y hy hne hPy => ?_) _
  exact not_not.2 (hlast y (mem_regLandings.1 hy).1 hne hPy)

/-- A part that no result of the tick writes stays. -/
theorem regsLanded_kept (hkeep : ∀ v x, Now w x → ¬P x → f (Warp.land v x) = f v) (hno : ∀ x, Now w x → ¬P x) (hsr : f w.srLanded = f w) :
    f w.regsLanded = f w :=
  (foldl_unwritten (fun v y hy => hkeep v y (mem_regLandings.1 hy).1) (fun y hy => hno y (mem_regLandings.1 hy).1) _).trans hsr

/-- R14, R31: the `ssr` that is written last in its register stands. -/
theorem srLanded_written (hset : ∀ v x, Now w x → P x → f (Warp.land v x) = val x)
    (hkeep : ∀ v x, Now w x → x.isSr = true → ¬P x → f (Warp.land v x) = f v)
    {x : Landing} (hx : LastOf w P x) (hsr : x.isSr = true) : f w.srLanded = val x := by
  obtain ⟨hnow, hP, hlast⟩ := hx
  refine foldl_written (R := InOrder) (fun v y hy => hset v y (mem_srLandings.1 hy).1)
    (fun v y hy => hkeep v y (mem_srLandings.1 hy).1 (mem_srLandings.1 hy).2) ((landingOrder_sorted _).filter _) (mem_srLandings.2 ⟨hnow, hsr⟩) hP
    (fun y hy hne hPy => ?_) _
  exact not_not.2 (hlast y (mem_srLandings.1 hy).1 hne hPy)

/-- A special register that no `ssr` of the tick writes stays. -/
theorem srLanded_kept (hkeep : ∀ v x, Now w x → x.isSr = true → ¬P x → f (Warp.land v x) = f v) (hno : ∀ x, Now w x → ¬P x) :
    f w.srLanded = f w :=
  foldl_unwritten (fun v y hy => hkeep v y (mem_srLandings.1 hy).1 (mem_srLandings.1 hy).2) (fun y hy => hno y (mem_srLandings.1 hy).1) w

end

/-- The registers and predicates when the special registers have landed. -/
theorem srLanded_regs (w : Warp) : w.srLanded.vregs = w.vregs ∧ w.srLanded.sregs = w.sregs ∧ w.srLanded.vpred = w.vpred ∧
    w.srLanded.spred = w.spred := by
  obtain ⟨_, _, _, _, _, h⟩ := onlySr_srLanded w
  rw [h]
  exact ⟨rfl, rfl, rfl, rfl⟩

theorem not_isSr_of {x : Landing} {d : Dest} (h : x.dest = d) (hd : ∀ n, d ≠ .sr n) : x.isSr = false :=
  Bool.eq_false_iff.2 fun hs => let ⟨n, hn⟩ := isSr_iff.1 hs; hd n (h.symm.trans hn)

section
variable {w v : Warp} {now : Nat}

theorem tickEnd_v (he : EndsTick w now v) (hok : ∀ x, Now w x → LanesOk x) {x : Landing} {r l : Nat} {y : Word} (hx : Now w x)
    (hd : x.dest = .v r) (hl : FMap.find x.lanes l = some y)
    (hlast : ∀ y, Now w y → y ≠ x → y.dest = .v r → (FMap.find y.lanes l).isSome → After x y) : v.v r l = y := by
  have hlt : l < 1024 := (hok x hx).1 _ (FMap.mem_of_find hl)
  rw [Warp.v, he.vregs]
  have := regsLanded_written (w := w) (f := fun w => w.v r l) (P := fun x => x.dest = .v r ∧ (FMap.find x.lanes l).isSome)
    (val := fun x => (FMap.find x.lanes l).getD 0) (fun u z hz hP => ?_) (fun u z hz hP => ?_)
    ⟨hx, ⟨hd, by rw [hl]; rfl⟩, fun z hz hne hP => hlast z hz hne hP.1 hP.2⟩ (not_isSr_of hd (by simp))
  · rw [hl] at this
    exact this
  · obtain ⟨a, ha⟩ := Option.isSome_iff_exists.1 hP.2
    rw [land_v (hok z hz) hlt, if_pos hP.1, ha]
    rfl
  · rw [land_v (hok z hz) hlt]
    split
    · next hdz =>
      rw [Option.not_isSome_iff_eq_none.1 fun h => hP ⟨hdz, h⟩]
      rfl
    · rfl

theorem tickEnd_v_kept (he : EndsTick w now v) (hok : ∀ x, Now w x → LanesOk x) {r l : Nat} (hl : l < 1024)
    (hno : ∀ x, Now w x → x.dest = .v r → FMap.find x.lanes l = none) : v.v r l = w.v r l := by
  rw [Warp.v, he.vregs]
  refine regsLanded_kept (w := w) (f := fun w => w.v r l) (P := fun _ => False) (fun u z hz _ => ?_) (fun _ _ => not_false)
    (by rw [Warp.v, (srLanded_regs w).1, Warp.v])
  rw [land_v (hok z hz) hl]
  split
  · next hd => rw [hno z hz hd]; rfl
  · rfl

theorem tickEnd_s (he : EndsTick w now v) {x : Landing} {r : Nat} (hx : Now w x) (hd : x.dest = .s r)
    (hlast : ∀ y, Now w y → y ≠ x → y.dest = .s r → After x y) : v.s r = if r = 0 then 0 else x.scalar := by
  rw [Warp.s, he.sregs]
  exact regsLanded_written (w := w) (f := fun w => w.s r) (P := fun x => x.dest = .s r) (val := fun x => if r = 0 then 0 else x.scalar)
    (fun u z _ hP => by rw [land_s, if_pos hP]) (fun u z _ hP => by rw [land_s, if_neg hP]) ⟨hx, hd, hlast⟩ (not_isSr_of hd (by simp))

theorem tickEnd_s_kept (he : EndsTick w now v) {r : Nat} (hno : ∀ x, Now w x → x.dest ≠ .s r) : v.s r = w.s r := by
  rw [Warp.s, he.sregs]
  exact regsLanded_kept (w := w) (f := fun w => w.s r) (P := fun x => x.dest = .s r) (fun u z _ hP => by rw [land_s, if_neg hP]) hno
    (by rw [Warp.s, (srLanded_regs w).2.1, Warp.s])

theorem tickEnd_vp (he : EndsTick w now v) (hok : ∀ x, Now w x → LanesOk x) {x : Landing} {r l : Nat} {y : Word} (hr : 0 < r) (hr8 : r < 8)
    (hx : Now w x) (hd : x.dest = .vp r) (hl : FMap.find x.lanes l = some y)
    (hlast : ∀ y, Now w y → y ≠ x → y.dest = .vp r → (FMap.find y.lanes l).isSome → After x y) : v.vp r l = (y != 0) := by
  have hlt : l < 1024 := (hok x hx).1 _ (FMap.mem_of_find hl)
  rw [Warp.vp, he.vpred]
  have := regsLanded_written (w := w) (f := fun w => w.vp r l) (P := fun x => x.dest = .vp r ∧ (FMap.find x.lanes l).isSome)
    (val := fun x => (FMap.find x.lanes l).getD 0 != 0) (fun u z hz hP => ?_) (fun u z hz hP => ?_)
    ⟨hx, ⟨hd, by rw [hl]; rfl⟩, fun z hz hne hP => hlast z hz hne hP.1 hP.2⟩ (not_isSr_of hd (by simp))
  · rw [hl] at this
    exact this
  · obtain ⟨a, ha⟩ := Option.isSome_iff_exists.1 hP.2
    rw [land_vp (hok z hz) hr hr8 hlt, if_pos hP.1, ha]
    rfl
  · rw [land_vp (hok z hz) hr hr8 hlt]
    split
    · next hdz =>
      rw [Option.not_isSome_iff_eq_none.1 fun h => hP ⟨hdz, h⟩]
      rfl
    · rfl

theorem tickEnd_vp_kept (he : EndsTick w now v) (hok : ∀ x, Now w x → LanesOk x) {r l : Nat} (hr8 : r < 8) (hl : l < 1024)
    (hno : ∀ x, Now w x → x.dest = .vp r → FMap.find x.lanes l = none) : v.vp r l = w.vp r l := by
  rcases Nat.eq_zero_or_pos r with rfl | hr
  · simp [Warp.vp]
  rw [Warp.vp, he.vpred]
  refine regsLanded_kept (w := w) (f := fun w => w.vp r l) (P := fun _ => False) (fun u z hz _ => ?_) (fun _ _ => not_false)
    (by rw [Warp.vp, (srLanded_regs w).2.2.1, Warp.vp])
  rw [land_vp (hok z hz) hr hr8 hl]
  split
  · next hd => rw [hno z hz hd]; rfl
  · rfl

theorem tickEnd_sp (he : EndsTick w now v) (hok : ∀ y i, Now w y → y.dest = .sp i → i < 8) {x : Landing} {r : Nat} (hr : 0 < r) (hx : Now w x)
    (hd : x.dest = .sp r) (hlast : ∀ y, Now w y → y ≠ x → y.dest = .sp r → After x y) : v.sp r = x.scalar.getLsbD 0 := by
  rw [Warp.sp, he.spred]
  exact regsLanded_written (w := w) (f := fun w => w.sp r) (P := fun x => x.dest = .sp r) (val := fun x => x.scalar.getLsbD 0)
    (fun u z hz hP => by rw [land_sp (fun i => hok z i hz) hr, if_pos hP]) (fun u z hz hP => by rw [land_sp (fun i => hok z i hz) hr, if_neg hP])
    ⟨hx, hd, hlast⟩ (not_isSr_of hd (by simp))

theorem tickEnd_sp_kept (he : EndsTick w now v) (hok : ∀ y i, Now w y → y.dest = .sp i → i < 8) {r : Nat}
    (hno : ∀ x, Now w x → x.dest ≠ .sp r) : v.sp r = w.sp r := by
  rcases Nat.eq_zero_or_pos r with rfl | hr
  · simp [Warp.sp]
  rw [Warp.sp, he.spred]
  exact regsLanded_kept (w := w) (f := fun w => w.sp r) (P := fun x => x.dest = .sp r)
    (fun u z hz hP => by rw [land_sp (fun i => hok z i hz) hr, if_neg hP]) hno (by rw [Warp.sp, (srLanded_regs w).2.2.2, Warp.sp])

end

/-! ## Special registers -/

section
variable {w : Warp}

/-- The special register `n` as one `ssr` writes it. -/
theorem srLanded_last {γ : Type} {f : Warp → γ} {val : Landing → γ} {n : Nat} (hset : ∀ v x, x.dest = .sr n → f (Warp.land v x) = val x)
    (hkeep : ∀ v x m, m ≠ n → x.dest = .sr m → f (Warp.land v x) = f v) {x : Landing} (hx : Now w x) (hd : x.dest = .sr n)
    (hlast : ∀ y, Now w y → y ≠ x → y.dest = x.dest → After x y) : f w.srLanded = val x :=
  srLanded_written (P := fun x => x.dest = .sr n) (fun v x _ => hset v x)
    (fun v x _ hs hP => let ⟨m, hm⟩ := isSr_iff.1 hs; hkeep v x m (fun h => hP (h ▸ hm)) hm)
    ⟨hx, hd, fun y hy hne hP => hlast y hy hne (hP.trans hd.symm)⟩ (isSr_iff.2 ⟨n, hd⟩)

theorem srLanded_none {γ : Type} {f : Warp → γ} {n : Nat} (hkeep : ∀ v x m, m ≠ n → x.dest = .sr m → f (Warp.land v x) = f v)
    (hno : ∀ x, Now w x → x.dest ≠ .sr n) : f w.srLanded = f w :=
  srLanded_kept (P := fun x => x.dest = .sr n) (fun v x _ hs hP => let ⟨m, hm⟩ := isSr_iff.1 hs; hkeep v x m (fun h => hP (h ▸ hm)) hm) hno

end

theorem land_fen_set (v : Warp) (x : Landing) (h : x.dest = .sr 6) : (v.land x).fen = x.scalar &&& 1 := by
  rw [land_sr_eq v h]
  rfl

theorem land_fen_keep (v : Warp) (x : Landing) (m : Nat) (hm : m ≠ 6) (h : x.dest = .sr m) : (v.land x).fen = v.fen := by
  simp [land_sr_eq v h, hm]

theorem land_tsa_set (v : Warp) (x : Landing) (h : x.dest = .sr 8) : (v.land x).tsa = x.scalar := by
  rw [land_sr_eq v h]
  rfl

theorem land_tsa_keep (v : Warp) (x : Landing) (m : Nat) (hm : m ≠ 8) (h : x.dest = .sr m) : (v.land x).tsa = v.tsa := by
  simp [land_sr_eq v h, hm]

theorem land_epc_set (v : Warp) (x : Landing) (h : x.dest = .sr 10) : (v.land x).epc = x.scalar := by
  rw [land_sr_eq v h]
  rfl

theorem land_epc_keep (v : Warp) (x : Landing) (m : Nat) (hm : m ≠ 10) (h : x.dest = .sr m) : (v.land x).epc = v.epc := by
  simp [land_sr_eq v h, hm]

theorem land_fel_set (v : Warp) (x : Landing) (h : x.dest = .sr 4) : (v.land x).fel = x.scalar &&& 0xFC00_7FFF_FFFF_FFFF := by
  rw [land_sr_eq v h]
  rfl

theorem land_fel_keep (v : Warp) (x : Landing) (m : Nat) (hm : m ≠ 4) (h : x.dest = .sr m) : (v.land x).fel = v.fel := by
  simp [land_sr_eq v h, hm]

/-- R14: an `ssr` of `sr.fes` clears the classes whose bits it has. -/
theorem land_fes_bit (v : Warp) {x : Landing} (hs : x.isSr = true) {c : Nat} (hc : c < 64) :
    (v.land x).fes.getLsbD c = true ↔ v.fes.getLsbD c = true ∧ (x.dest = .sr 5 → 8 ≤ c ∨ x.scalar.getLsbD c = false) := by
  obtain ⟨n, hd⟩ := isSr_iff.1 hs
  have hbyte : (0xFF : DWord).getLsbD c = decide (c < 8) := by
    rw [show (0xFF : DWord) = BitVec.ofNat 64 (2 ^ 8 - 1) from rfl, BitVec.getLsbD_ofNat, Nat.testBit_two_pow_sub_one, decide_eq_true hc,
      Bool.true_and]
  rw [land_sr_eq v hd, hd]
  by_cases hn : n = 5
  · subst hn
    simp only [if_true, BitVec.getLsbD_and, BitVec.getLsbD_not, hbyte, hc, decide_true, Bool.true_and]
    by_cases h8 : c < 8
    · simp [h8, Nat.not_le.2 h8]
    · simp [h8, Nat.not_lt.1 h8]
  · simp [hn]

theorem srLanded_fes (w : Warp) {c : Nat} (hc : c < 64) : w.srLanded.fes.getLsbD c = true ↔
    w.fes.getLsbD c = true ∧ ∀ x, Now w x → x.dest = .sr 5 → 8 ≤ c ∨ x.scalar.getLsbD c = false := by
  have h : ∀ (xs : List Landing), (∀ x ∈ xs, x.isSr = true) → ∀ v : Warp, (xs.foldl Warp.land v).fes.getLsbD c = true ↔
      v.fes.getLsbD c = true ∧ ∀ x ∈ xs, x.dest = .sr 5 → 8 ≤ c ∨ x.scalar.getLsbD c = false := by
    intro xs
    induction xs with
    | nil => simp
    | cons x xs ih =>
      intro hxs v
      rw [List.foldl_cons, ih (fun y hy => hxs y (List.mem_cons_of_mem _ hy)), land_fes_bit v (hxs x (List.mem_cons_self ..)) hc, List.forall_mem_cons,
        and_assoc]
  rw [Warp.srLanded, h _ fun x hx => (mem_srLandings.1 hx).2]
  refine and_congr_right fun _ => ⟨fun h x hx hd => h x (mem_srLandings.2 ⟨hx, isSr_iff.2 ⟨5, hd⟩⟩) hd, fun h x hx hd => h x (mem_srLandings.1 hx).1 hd⟩

/-! ## The event log -/

section
variable {w : Warp}

theorem recordEvent_fen (w : Warp) (n : Nat) (e : BitVec 8) (a : DWord) : (w.recordEvent n e a).fen = w.fen := by
  obtain ⟨_, _, h⟩ := onlyLog_recordEvent w n e a
  rw [h]

/-- What is recorded of a set of classes is a matter of `sr.fen`. -/
theorem recorded_congr {v w : Warp} (h : v.fen = w.fen) (e : BitVec 8) : v.recorded e = w.recorded e := by
  rw [Warp.recorded, h, Warp.recorded]

theorem recordEvent_none {n : Nat} {e : BitVec 8} {a : DWord} (h : w.recorded e = 0) : w.recordEvent n e a = w := by
  simp [Warp.recordEvent, h]

theorem recordEvent_full {n : Nat} {e : BitVec 8} {a : DWord} (h : w.fel.getLsbD 63 = true) : (w.recordEvent n e a).fel = w.fel := by
  unfold Warp.recordEvent
  dsimp only
  rw [if_pos h]
  split <;> rfl

/-- The entry of the log for an event (R31). -/
def Warp.entry (w : Warp) (e : Nat × BitVec 8 × DWord) : DWord :=
  BitVec.ofNat 64 (2 ^ 63 + lowestClass (w.recorded e.2.1) * 2 ^ 60 + e.1 % 4 * 2 ^ 58 + bits e.2.2.toNat 51 5)

theorem recordEvent_first {e : Nat × BitVec 8 × DWord} (hf : w.fel.getLsbD 63 = false) (he : w.recorded e.2.1 ≠ 0) :
    (w.recordEvent e.1 e.2.1 e.2.2).fel = w.entry e := by
  unfold Warp.recordEvent Warp.entry
  dsimp only
  rw [if_neg he, if_neg (by rw [hf]; exact Bool.false_ne_true)]

theorem lowestClass_lt (e : BitVec 8) : lowestClass e < 8 := by
  unfold lowestClass
  cases h : (List.range 8).find? fun i => e.getLsbD i with
  | none => decide
  | some i => exact List.mem_range.1 (List.mem_of_find?_eq_some h)

theorem bits_pc (a : Nat) : bits a 51 5 = a / 32 % 2 ^ 47 := by
  rw [bits, Nat.shiftRight_eq_div_pow]

/-- A log with an entry is not empty. -/
theorem entry_full (w : Warp) (e : Nat × BitVec 8 × DWord) : (w.entry e).getLsbD 63 = true := by
  have h1 := lowestClass_lt (w.recorded e.2.1)
  have h2 : bits e.2.2.toNat 51 5 < 2 ^ 47 := by
    rw [bits_pc]
    exact Nat.mod_lt _ (by decide)
  rw [Warp.entry, BitVec.getLsbD_ofNat, Nat.testBit_eq_decide_div_mod_eq]
  simp only [Nat.reducePow] at h2 ⊢
  simp only [Nat.reduceLT, decide_true, Bool.true_and, decide_eq_true_eq]
  omega

theorem recordEvent_fes (w : Warp) (n : Nat) (e : BitVec 8) (a : DWord) {c : Nat} (hc : c < 64) :
    (w.recordEvent n e a).fes.getLsbD c = true ↔ w.fes.getLsbD c = true ∨ (w.recorded e).getLsbD c = true := by
  unfold Warp.recordEvent
  dsimp only
  split
  · next h => simp [h]
  · split <;> simp [hc]

/-- R31: every class that is recorded sets its bit. -/
theorem log_fes (w : Warp) (es : List (Nat × BitVec 8 × DWord)) {c : Nat} (hc : c < 64) :
    (w.log es).fes.getLsbD c = true ↔ w.fes.getLsbD c = true ∨ ∃ e ∈ es, (w.recorded e.2.1).getLsbD c = true := by
  induction es generalizing w with
  | nil => simp [Warp.log]
  | cons e es ih =>
    rw [Warp.log, List.foldl_cons, ← Warp.log, ih, recordEvent_fes w _ _ _ hc, or_assoc]
    simp only [recorded_congr (recordEvent_fen ..), List.mem_cons, exists_eq_or_imp]

/-- R31: the log takes the first event that is recorded, while it is empty. -/
theorem log_fel (w : Warp) (es : List (Nat × BitVec 8 × DWord)) :
    (w.log es).fel = if w.fel.getLsbD 63 then w.fel else ((es.find? fun e => w.recorded e.2.1 != 0).map w.entry).getD w.fel := by
  induction es generalizing w with
  | nil => simp [Warp.log]
  | cons e es ih =>
    have hfen := recordEvent_fen w e.1 e.2.1 e.2.2
    have hrec : (w.recordEvent e.1 e.2.1 e.2.2).recorded = w.recorded := funext fun x => recorded_congr hfen x
    have hentry : (w.recordEvent e.1 e.2.1 e.2.2).entry = w.entry := funext fun x => by rw [Warp.entry, hrec, Warp.entry]
    rw [Warp.log, List.foldl_cons, ← Warp.log, ih, hrec, hentry, List.find?_cons]
    cases hf : w.fel.getLsbD 63 with
    | true => simp [recordEvent_full hf, hf]
    | false =>
      by_cases he : w.recorded e.2.1 = 0
      · have hb : (w.recorded e.2.1 != 0) = false := by
          rw [he]
          rfl
        rw [recordEvent_none he, hf, hb]
      · have hb : (w.recorded e.2.1 != 0) = true := bne_iff_ne.2 he
        rw [recordEvent_first hf he, entry_full, if_pos rfl, hb]
        rfl

end

end Sys2Proof.Machine
end

