-- ==== Sys2Proof/Proofs/TickLog.lean ====
section
/-! PROOFS. Which event of a tick the log takes (R31), and the end of a tick as a whole. -/

namespace Sys2Proof.Machine
open Claim

/-! ## The order of events -/

/-- R31: of two events in order, the first has the lower slot, or the same slot and no higher lane. -/
def EventsInOrder (d e : Nat × Nat × BitVec 8 × DWord) : Prop := ¬(e.1 < d.1 ∨ (e.1 = d.1 ∧ e.2.1 < d.2.1))

theorem mem_insertEvent {d e : Nat × Nat × BitVec 8 × DWord} {es : List (Nat × Nat × BitVec 8 × DWord)} :
    d ∈ insertEvent e es ↔ d = e ∨ d ∈ es := by
  induction es with
  | nil => simp [insertEvent]
  | cons x es ih =>
    unfold insertEvent
    split
    · simp
    · simp only [List.mem_cons, ih]
      tauto

theorem insertEvent_sorted {e : Nat × Nat × BitVec 8 × DWord} {es : List (Nat × Nat × BitVec 8 × DWord)} (h : es.Pairwise EventsInOrder) :
    (insertEvent e es).Pairwise EventsInOrder := by
  induction es with
  | nil => simp [insertEvent]
  | cons x es ih =>
    obtain ⟨hx, hes⟩ := List.pairwise_cons.1 h
    unfold insertEvent
    split
    · next hlt =>
      refine List.pairwise_cons.2 ⟨fun d hd => ?_, h⟩
      rcases List.mem_cons.1 hd with rfl | hd
      · unfold EventsInOrder
        omega
      · have := hx d hd
        unfold EventsInOrder at *
        omega
    · next hge =>
      refine List.pairwise_cons.2 ⟨fun d hd => ?_, ih hes⟩
      rcases mem_insertEvent.1 hd with rfl | hd
      · exact hge
      · exact hx d hd

theorem foldr_insertEvent (es : List (Nat × Nat × BitVec 8 × DWord)) :
    (es.foldr insertEvent []).Pairwise EventsInOrder ∧ ∀ d, d ∈ es.foldr insertEvent [] ↔ d ∈ es := by
  induction es with
  | nil => exact ⟨List.Pairwise.nil, fun d => Iff.rfl⟩
  | cons e es ih =>
    obtain ⟨hs, hm⟩ := ih
    exact ⟨insertEvent_sorted hs, fun d => by rw [List.foldr_cons, mem_insertEvent, hm, List.mem_cons]⟩

theorem laneEvents_sorted (w : Warp) : w.laneEvents.Pairwise EventsInOrder := (foldr_insertEvent _).1

theorem mem_laneEvents {w : Warp} {n l : Nat} {e : BitVec 8} {a : DWord} :
    (n, l, e, a) ∈ w.laneEvents ↔ ∃ x, Now w x ∧ (l, e) ∈ x.evs ∧ n = x.slot ∧ a = x.addr := by
  rw [Warp.laneEvents, (foldr_insertEvent _).2]
  simp only [List.mem_flatMap, List.mem_map, Warp.mem_landings, Prod.mk.injEq, Prod.exists]
  constructor
  · rintro ⟨x, hx, l', e', hmem, rfl, rfl, rfl, rfl⟩
    exact ⟨x, hx, hmem, rfl, rfl⟩
  · rintro ⟨x, hx, hmem, rfl, rfl⟩
    exact ⟨x, hx, l, e, hmem, rfl, rfl, rfl, rfl⟩

/-! ## What is recorded -/

/-- R31, R108: an event of a result is recorded when its classes, less an inexact that is not enabled, are not empty. -/
theorem eventNow_iff {w u : Warp} {n l : Nat} {e : BitVec 8} {a : DWord} :
    EventNow w u.fen n l e a ↔ ∃ v, (n, l, v, a) ∈ w.laneEvents ∧ e = u.recorded v ∧ e ≠ 0 := by
  simp only [mem_laneEvents, EventNow, Warp.recorded]
  constructor
  · rintro ⟨x, v, hx, hmem, hn, ha, he, h0⟩
    exact ⟨v, ⟨x, hx, hmem, hn, ha⟩, he, h0⟩
  · rintro ⟨v, ⟨x, hx, hmem, hn, ha⟩, he, h0⟩
    exact ⟨x, v, hx, hmem, hn, ha, he, h0⟩

theorem recorded_bit (u : Warp) (e : BitVec 8) {c : Nat} (hc : c < 8) :
    (u.recorded e).getLsbD c = true ↔ e.getLsbD c = true ∧ (c = 7 → u.fen.getLsbD 0 = true) := by
  have hmask : (0x7F : BitVec 8).getLsbD c = decide (c < 7) := by
    rw [show (0x7F : BitVec 8) = BitVec.ofNat 8 (2 ^ 7 - 1) from rfl, BitVec.getLsbD_ofNat, Nat.testBit_two_pow_sub_one, decide_eq_true hc,
      Bool.true_and]
  unfold Warp.recorded
  split
  · next h => exact ⟨fun he => ⟨he, fun _ => h⟩, fun he => he.1⟩
  · next h =>
    rw [BitVec.getLsbD_and, hmask, Bool.and_eq_true, decide_eq_true_eq]
    refine and_congr_right fun _ => ⟨fun h7 h => absurd h (by omega), fun himp => ?_⟩
    by_contra h7
    exact h (himp (by omega))

theorem lowestClass_of {e : BitVec 8} {i : Nat} (h : Lowest e i) : lowestClass e = i := by
  obtain ⟨hi, hbit, hlow⟩ := h
  have : (List.range 8).find? (fun j => e.getLsbD j) = some i :=
    List.find?_range_eq_some.2 ⟨hbit, List.mem_range.2 hi, fun j hj => by rw [hlow j hj]; rfl⟩
  rw [lowestClass, this]
  rfl

/-- The engine events that a tick records. -/
def Warp.recordedEngine (w u : Warp) : List (Nat × Nat × BitVec 8 × DWord) :=
  w.pendEv.filter fun e => e.1 ≤ w.tick && u.recorded e.2.2.1 != 0

theorem recordedEngine_eq (w u : Warp) : w.recordedEngine u = w.engineEvents.filter fun e => u.recorded e.2.2.1 != 0 := by
  rw [Warp.recordedEngine, Warp.engineEvents, List.filter_filter]
  exact List.filter_congr fun e _ => Bool.and_comm ..

/-- R31: the classes that a tick's events set. -/
theorem tickEvents_bit (w u : Warp) {c : Nat} : (∃ e ∈ w.tickEvents, (u.recorded e.2.1).getLsbD c = true) ↔
    c < 8 ∧ ((∃ n l e a, EventNow w u.fen n l e a ∧ e.getLsbD c = true) ∨
      ∃ p ∈ w.recordedEngine u, p.2.2.1.getLsbD c = true ∧ (c = 7 → u.fen.getLsbD 0 = true)) := by
  have hne {e : BitVec 8} (h : (u.recorded e).getLsbD c = true) : u.recorded e ≠ 0 := fun h0 => by simp [h0] at h
  constructor
  · rintro ⟨e, he, hbit⟩
    have h8 : c < 8 := BitVec.lt_of_getLsbD hbit
    refine ⟨h8, ?_⟩
    rcases List.mem_append.1 he with he | he
    · obtain ⟨⟨n, l, v, a⟩, hmem, rfl⟩ := List.mem_map.1 he
      exact .inl ⟨n, l, u.recorded v, a, eventNow_iff.2 ⟨v, hmem, rfl, hne hbit⟩, hbit⟩
    · obtain ⟨p, hmem, rfl⟩ := List.mem_map.1 he
      rw [recordedEngine_eq]
      exact .inr ⟨p, List.mem_filter.2 ⟨hmem, bne_iff_ne.2 (hne hbit)⟩, (recorded_bit u _ h8).1 hbit⟩
  · rintro ⟨h8, ⟨n, l, e, a, hev, hbit⟩ | ⟨p, hp, hbit⟩⟩
    · obtain ⟨v, hmem, rfl, -⟩ := eventNow_iff.1 hev
      exact ⟨_, List.mem_append_left _ (List.mem_map.2 ⟨_, hmem, rfl⟩), hbit⟩
    · rw [recordedEngine_eq] at hp
      exact ⟨_, List.mem_append_right _ (List.mem_map.2 ⟨p, (List.mem_filter.1 hp).1, rfl⟩), (recorded_bit u _ h8).2 hbit⟩

/-! ## The first event -/

section
variable {w u : Warp}

/-- R31: no event of a result is recorded. -/
theorem laneEvents_find_none (h : ∀ n l e a, ¬EventNow w u.fen n l e a) :
    (w.laneEvents.map fun e => (e.1, e.2.2.1, e.2.2.2)).find? (fun e => u.recorded e.2.1 != 0) = none := by
  refine List.find?_eq_none.2 fun e he => ?_
  obtain ⟨⟨n, l, v, a⟩, hmem, rfl⟩ := List.mem_map.1 he
  exact fun hv => h n l _ a (eventNow_iff.2 ⟨v, hmem, rfl, bne_iff_ne.1 hv⟩)

/-- R31: the event of the lowest slot and then the lowest lane is the first that is recorded. -/
theorem laneEvents_find_first {n l : Nat} {e : BitVec 8} {a : DWord} (hev : EventNow w u.fen n l e a)
    (hfirst : ∀ m j d b, EventNow w u.fen m j d b → (m, j, d, b) = (n, l, e, a) ∨ n < m ∨ (n = m ∧ l < j)) :
    ∃ v, e = u.recorded v ∧ (w.laneEvents.map fun e => (e.1, e.2.2.1, e.2.2.2)).find? (fun e => u.recorded e.2.1 != 0) = some (n, v, a) := by
  obtain ⟨v, hmem, he, h0⟩ := eventNow_iff.1 hev
  obtain ⟨⟨m, j, x, b⟩, hfind⟩ : ∃ t, w.laneEvents.find? (fun e => u.recorded e.2.2.1 != 0) = some t :=
    Option.isSome_iff_exists.1 (List.find?_isSome.2 ⟨_, hmem, bne_iff_ne.2 (he ▸ h0)⟩)
  obtain ⟨hx, as, bs, hsplit, has⟩ := List.find?_eq_some_iff_append.1 hfind
  have hin : (m, j, x, b) ∈ w.laneEvents := List.mem_of_find?_eq_some hfind
  have heq : (m, j, u.recorded x, b) = (n, l, e, a) := by
    refine (hfirst m j _ b (eventNow_iff.2 ⟨x, hin, rfl, bne_iff_ne.1 hx⟩)).resolve_right fun hlater => ?_
    have hsorted := laneEvents_sorted w
    rw [hsplit] at hsorted hmem
    obtain ⟨-, htail, -⟩ := List.pairwise_append.1 hsorted
    rcases List.mem_append.1 hmem with h | h
    · have := has _ h
      rw [← he] at this
      exact h0 (by simpa using this)
    · rcases List.mem_cons.1 h with h | h
      · obtain ⟨rfl, rfl, -⟩ := h
        omega
      · exact (List.pairwise_cons.1 htail).1 _ h (by omega)
  obtain ⟨rfl, rfl, rfl, rfl⟩ := heq
  refine ⟨x, rfl, ?_⟩
  rw [List.find?_map]
  exact congrArg (Option.map _) hfind

/-- R31, R108: engine events are recorded in the order in which they came. -/
theorem engineEvents_find : (w.engineEvents.map fun e => ((2 : Nat), e.2.2.1, e.2.2.2)).find? (fun e => u.recorded e.2.1 != 0) =
    (w.recordedEngine u).head?.map fun e => (2, e.2.2.1, e.2.2.2) := by
  rw [List.find?_map, recordedEngine_eq, List.head?_filter]
  rfl

theorem entry_of {n i : Nat} {v : BitVec 8} {a : DWord} (h : Lowest (u.recorded v) i) :
    u.entry (n, v, a) = BitVec.ofNat 64 (2 ^ 63 + i * 2 ^ 60 + n % 4 * 2 ^ 58 + a.toNat / 32 % 2 ^ 47) := by
  rw [Warp.entry, lowestClass_of h, bits_pc]

end

/-! ## The end of a tick -/

/-- The special registers that the log depends on, when every result has landed. -/
theorem regsLanded_special (w : Warp) : w.regsLanded.fen = w.srLanded.fen ∧ w.regsLanded.fel = w.srLanded.fel ∧ w.regsLanded.fes = w.srLanded.fes := by
  obtain ⟨_, _, _, _, h⟩ := onlyRegs_regsLanded w
  rw [h]
  exact ⟨rfl, rfl, rfl⟩

section
variable {w v : Warp} {now : Nat}

/-- R14, R31: the bits of `sr.fes` after a tick. -/
theorem tickEnd_fes (he : EndsTick w now v) {c : Nat} (hc : c < 64) : v.fes.getLsbD c = true ↔
    (w.fes.getLsbD c = true ∧ ∀ x, Now w x → x.dest = .sr 5 → 8 ≤ c ∨ x.scalar.getLsbD c = false) ∨
    (c < 8 ∧ ((∃ n l e a, EventNow w v.fen n l e a ∧ e.getLsbD c = true) ∨
      ∃ p ∈ w.recordedEngine v, p.2.2.1.getLsbD c = true ∧ (c = 7 → v.fen.getLsbD 0 = true))) := by
  obtain ⟨hfen, -, hfes⟩ := regsLanded_special w
  have hv : w.regsLanded.fen = v.fen := hfen.trans he.fen.symm
  have hrec : w.regsLanded.recorded = v.recorded := funext fun e => recorded_congr hv e
  rw [he.fes, log_fes _ _ hc, hfes, srLanded_fes w hc, hrec, tickEvents_bit w v]

/-- R14, R31: the log before the events of the tick. -/
theorem tickEnd_felBase (F : DWord) (hF : ((∀ x, Now w x → x.dest ≠ .sr 4) ∧ F = w.fel) ∨
    ∃ x, (Now w x ∧ ∀ y, Now w y → y ≠ x → y.dest = x.dest → After x y) ∧ x.dest = .sr 4 ∧ F = x.scalar &&& 0xFC00_7FFF_FFFF_FFFF) :
    w.srLanded.fel = F := by
  rcases hF with ⟨hno, rfl⟩ | ⟨x, ⟨hx, hlast⟩, hd, rfl⟩
  · exact srLanded_none land_fel_keep hno
  · exact srLanded_last land_fel_set land_fel_keep hx hd hlast

/-- R31: the log after a tick takes the first event that is recorded, while it is empty. -/
theorem tickEnd_fel (he : EndsTick w now v) : v.fel = if w.srLanded.fel.getLsbD 63 then w.srLanded.fel else
    (((w.laneEvents.map fun e => (e.1, e.2.2.1, e.2.2.2)).find? (fun e => v.recorded e.2.1 != 0)).or
      ((w.recordedEngine v).head?.map fun e => (2, e.2.2.1, e.2.2.2))).elim w.srLanded.fel v.entry := by
  obtain ⟨hfen, hfel, -⟩ := regsLanded_special w
  have hv : w.regsLanded.fen = v.fen := hfen.trans he.fen.symm
  have hrec : w.regsLanded.recorded = v.recorded := funext fun e => recorded_congr hv e
  have hentry : w.regsLanded.entry = v.entry := funext fun e => by rw [Warp.entry, hrec, Warp.entry]
  rw [he.fel, log_fel, hfel, hrec, hentry, Warp.tickEvents, List.find?_append, engineEvents_find]
  generalize Option.or _ _ = o
  cases o <;> rfl

end

/-- Settles O37: the stages of a tick's end, the last write of each register, and the first event of the log. -/
theorem tickEnd : Obligations.TickEnd := by
  intro w now hok
  have he := Warp.endTick_ends w now
  intro v
  have hlog := tickEnd_fel he
  refine ⟨he.tick, he.tickStart, he.opened, he.flight, he.mask, he.retire, he.pc, he.loops, ?_, ?_, ?_, ?_, ?_, ?_, ?_, ?_, he.flags, ?_⟩
  · exact fun x r l y hx hd hl hlast => tickEnd_v he hok hx hd hl hlast
  · exact fun r l hl hno => tickEnd_v_kept he hok hl hno
  · exact fun x r hx hd hlast => tickEnd_s he hx hd hlast
  · exact fun r hno => tickEnd_s_kept he hno
  · exact fun x r l y hr hr8 hx hd hl hlast => tickEnd_vp he hok hr hr8 hx hd hl hlast
  · exact fun r l hr8 hl hno _ => tickEnd_vp_kept he hok hr8 hl hno
  · exact fun x r hr _ hx hd hlast h8 => tickEnd_sp he h8 hr hx hd hlast
  · exact fun r hno h8 => tickEnd_sp_kept he h8 hno
  · intro last engine
    refine ⟨fun x hx => ⟨fun hd => ?_, fun hd => ?_, fun hd => ?_⟩, fun hno => ?_, fun hno => ?_, fun hno => ?_, fun c hc => tickEnd_fes he hc,
      fun F hF => ?_⟩
    · exact he.fen.trans (srLanded_last land_fen_set land_fen_keep hx.1 hd hx.2)
    · exact he.tsa.trans (srLanded_last land_tsa_set land_tsa_keep hx.1 hd hx.2)
    · exact he.epc.trans (srLanded_last land_epc_set land_epc_keep hx.1 hd hx.2)
    · exact he.fen.trans (srLanded_none land_fen_keep hno)
    · exact he.tsa.trans (srLanded_none land_tsa_keep hno)
    · exact he.epc.trans (srLanded_none land_epc_keep hno)
    · rw [tickEnd_felBase F hF] at hlog
      refine ⟨fun hfull => ?_, fun hlanes hengine => ?_, fun hempty n l e a i hev hfirst hlow => ?_, fun hempty hlanes p i hp hlow => ?_⟩
      · exact hlog.trans (if_pos hfull)
      · have hnone : w.recordedEngine v = [] := hengine
        rw [laneEvents_find_none hlanes, hnone] at hlog
        exact hlog.trans (ite_self F)
      · obtain ⟨x, rfl, hfind⟩ := laneEvents_find_first hev hfirst
        rw [hfind, if_neg (by rw [hempty]; exact Bool.false_ne_true)] at hlog
        exact hlog.trans (entry_of hlow)
      · have hhead : (w.recordedEngine v).head? = some p := hp
        rw [laneEvents_find_none hlanes, hhead, if_neg (by rw [hempty]; exact Bool.false_ne_true)] at hlog
        exact hlog.trans (entry_of hlow)

end Sys2Proof.Machine
end

