-- ==== Sys2Proof/Proofs/WarpSteps.lean ====
section
/-! PROOFS. The steps of a warp: the end of a tick, freezes, swaps and the freeing of slots and grants (R11, R16 to R30, R145). -/

namespace Sys2Proof.Machine
open Claim

/-! ## Steps that may not happen -/

theorem event_off {can : Bool} (h : can = false) (s t : State) : event can s t = .next s := by simp [event, h]

theorem testWarp_of {s : State} {c k : Nat} {w : Warp} (hw : s.warp? c k = some w) (p : Warp → Bool) : s.testWarp c k p = p w := by
  rw [State.testWarp, hw]

/-! ## Turns of a pipe -/

section
variable {s : State} {c k : Nat} {w p : Warp}

theorem pipeTurn_of (hp : s.pipePartner c k w = some p) : s.pipeTurn c k w = (!p.ticking s.cycle || (!p.opened && (decide (w.tickStart < p.tickStart) ||
    (w.tickStart = p.tickStart && decide (w.position.getD 0 < p.position.getD 0))))) := by
  rw [State.pipeTurn, hp]

/-- R24: a warp whose partner is in a tick waits. -/
theorem canBundleIssue_of_partner (hw : s.warp? c k = some w) (hp : s.pipePartner c k w = some p) (ht : p.ticking s.cycle = true)
    (ho : p.opened = true) : canBundleIssue c k s = false := by
  have hturn : s.pipeTurn c k w = false := by
    rw [pipeTurn_of hp, ht, ho]
    rfl
  rw [canBundleIssue, testWarp_of hw, hturn, Bool.and_false, Bool.false_and]

/-- R24: of the two warps of a pipe that are between ticks, one has the turn. -/
theorem pipeTurn_iff_not {i j : Nat} {a b : Warp} (hb : s.pipePartner c i a = some b) (ha : s.pipePartner c j b = some a) {x y : Nat}
    (hx : a.position = some x) (hy : b.position = some y) (hxy : x ≠ y) (hta : a.ticking s.cycle = true) (htb : b.ticking s.cycle = true)
    (hoa : a.opened = false) (hob : b.opened = false) : s.pipeTurn c i a = true ↔ s.pipeTurn c j b = false := by
  rw [pipeTurn_of hb, pipeTurn_of ha, hta, htb, hoa, hob, hx, hy]
  simp only [Bool.not_true, Bool.not_false, Bool.false_or, Bool.true_and, Option.getD_some, Bool.or_eq_true, Bool.and_eq_true, decide_eq_true_eq,
    Bool.or_eq_false_iff, Bool.and_eq_false_iff, decide_eq_false_iff_not]
  omega

end

/-! ## The end of a tick -/

theorem setStrm_warps (x : CoreSt) (n w : Nat) (v : DWord) : (x.setStrm n w v).warps = x.warps := rfl

/-- Stream words that land keep the warps of a core. -/
theorem freeUp_warps (n len fuel : Nat) (x : CoreSt) : (CoreSt.freeUp n len fuel x).warps = x.warps := by
  induction fuel generalizing x with
  | zero => rfl
  | succ fuel ih =>
    rw [CoreSt.freeUp]
    split
    · rw [ih, setStrm_warps]
    · rfl

theorem streamLand_warps (x : CoreSt) (n w : Nat) (v : DWord) : (x.streamLand n w v).warps = x.warps := by
  unfold CoreSt.streamLand
  split
  · rfl
  · rw [CoreSt.release, freeUp_warps]

theorem quiet_streamLandings (s : State) (c k : Nat) (xs : List Landing) :
    Quiet s (s.streamLandings c xs) c k ∧ (s.streamLandings c xs).warp? c k = s.warp? c k := by
  unfold State.streamLandings
  dsimp only
  split
  · exact ⟨quiet_refl s c k, rfl⟩
  · have h (ws : List (Nat × Nat × DWord)) : (ws.foldl (fun y p => CoreSt.streamLand y p.1 p.2.1 p.2.2) (s.core c)).warps = (s.core c).warps :=
      foldl_same (f := CoreSt.warps) (fun y p => streamLand_warps ..) ws _
    exact ⟨quiet_modCore (h _) c k, State.warp_modCore (h _) c k⟩

section
variable {s : State} {c k : Nat} {w : Warp}

/-- R16: the end of a tick that leaves a lane live writes the warp, and the words of streams that land. -/
theorem endTick_live (hw : s.warp? c k = some w) (hm : (w.endTick s.cycle).mask ≠ 0) :
    Quiet s (s.endTick c k) c k ∧ (s.endTick c k).warp? c k = some (w.endTick s.cycle) := by
  obtain ⟨hq, -⟩ := quiet_streamLandings s c k (w.flight.filter fun x => x.land ≤ w.tick)
  unfold State.endTick
  rw [hw]
  simp only [hq.1.cycle, if_neg hm]
  exact ⟨quiet_trans hq (quiet_setWarp ..), State.warp_setWarp_self ..⟩

/-- R30, R237: the end of a tick that leaves no lane live ends the warp. -/
theorem endTick_over (hw : s.warp? c k = some w) (hm : (w.endTick s.cycle).mask = 0) (he : w.stop ≠ .ended) :
    ∃ now, (s.endTick c k).warp? c k = some ((w.endTick s.cycle).over now) ∧ (s.endTick c k).hbm = s.hbm := by
  obtain ⟨hq, -⟩ := quiet_streamLandings s c k (w.flight.filter fun x => x.land ≤ w.tick)
  unfold State.endTick
  rw [hw]
  simp only [hq.1.cycle, if_pos hm]
  obtain ⟨now, hw', hhbm, -⟩ := endWarp_of (State.warp_setWarp_self _ c k (w.endTick s.cycle)) (by rwa [(w.endTick_ends s.cycle).stop]) false
  exact ⟨now, hw', hhbm.trans hq.1.hbm⟩

theorem running_not_ended (h : w.running = true) : w.stop ≠ .ended := fun he => by simp [Warp.running, he] at h

/-- Whether the tick of a warp is over: its bundle's, or an empty one of its own (R16, R17, R24). -/
def TickOver (s : State) (c k : Nat) (w : Warp) : Prop :=
  (w.opened = true ∧ w.tickStart + w.tickCycles ≤ s.cycle) ∨
    (w.opened = false ∧ w.tick < w.due ∧ w.deferred = [] ∧ s.pipeTurn c k w = true ∧ s.pipeStart c k w + w.tickCycles ≤ s.cycle)

theorem canResultLand_of (hw : s.warp? c k = some w) (hr : w.running = true) (hn : w.notBefore ≤ s.cycle) (ho : TickOver s c k w) :
    canResultLand c k s = true := by
  rw [canResultLand, testWarp_of hw, hr, decide_eq_true hn]
  rcases ho with ⟨hop, ht⟩ | ⟨hop, hdue, -, hturn, ht⟩
  · simp [hop, ht]
  · simp [hop, hdue, hturn, ht]

/-- R328: no deferred cause is taken where the tick of a warp is over. -/
theorem tickOver_undeferred (ho : TickOver s c k w) : (!w.opened && w.deferredNow (s.pipeStart c k w) != []) = false := by
  rcases ho with ⟨hop, -⟩ | ⟨-, -, hd, -⟩
  · rw [hop]
    rfl
  · rw [Warp.deferredNow, hd]
    exact Bool.and_false _

/-- The warp whose tick ends: an empty tick has not seen what came in the cycle in which it begins (R22). -/
def Warp.ending (w : Warp) (start : Nat) : Warp := if w.opened then w else w.unsee start

theorem ending_frame (w : Warp) (start : Nat) : (w.ending start).mask = w.mask ∧ (w.ending start).retire = w.retire ∧ (w.ending start).stop = w.stop := by
  unfold Warp.ending
  split
  · exact ⟨rfl, rfl, rfl⟩
  · exact ⟨rfl, rfl, rfl⟩

theorem ending_mask (w : Warp) (start now : Nat) : ((w.ending start).endTick now).mask = (w.endTick now).mask := by
  obtain ⟨hm, hr, -⟩ := ending_frame w start
  rw [((w.ending start).endTick_ends now).mask, (w.endTick_ends now).mask, hm, hr]

/-- R21: a result that is not there freezes the timeline. -/
theorem resultLand_frozen (hw : s.warp? c k = some w) (hr : w.running = true) (hn : w.notBefore ≤ s.cycle) (ho : TickOver s c k w)
    (hu : w.unready = true) : exec (.resultLand c k) s = .next (s.setWarp c k { w.pause .l1 with since := s.cycle, inTick := !w.opened }) := by
  have hdef := tickOver_undeferred ho
  refine (event_of (canResultLand_of hw hr hn ho) ..).trans ?_
  rw [doResultLand, State.onWarp_of hw]
  simp only [hdef, hu, Bool.false_eq_true, if_false, if_true]

/-- R16: a tick whose results are there ends. -/
theorem resultLand_ends (hw : s.warp? c k = some w) (hr : w.running = true) (hn : w.notBefore ≤ s.cycle) (ho : TickOver s c k w)
    (hu : w.unready = false) : ∃ t, exec (.resultLand c k) s = .next (t.endTick c k) ∧ Quiet s t c k ∧
      t.warp? c k = some (w.ending (s.pipeStart c k w)) := by
  have hdef := tickOver_undeferred ho
  have hgo : exec (.resultLand c k) s = .next (doResultLand c k s) := event_of (canResultLand_of hw hr hn ho) ..
  rw [doResultLand, State.onWarp_of hw] at hgo
  simp only [hdef, hu, Bool.false_eq_true, if_false] at hgo
  cases hop : w.opened with
  | true =>
    rw [if_pos hop] at hgo
    exact ⟨s, hgo, quiet_refl s c k, by rw [Warp.ending, if_pos hop, hw]⟩
  | false =>
    have hn' : ¬w.opened = true := by rw [hop]; exact Bool.false_ne_true
    rw [if_neg hn'] at hgo
    exact ⟨_, hgo, quiet_setWarp .., by rw [Warp.ending, if_neg hn', State.warp_setWarp_self]⟩

/-- R16, R18, R30: what the end of a tick does. -/
theorem resultLand_clauses (hw : s.warp? c k = some w) (hr : w.running = true) (hn : w.notBefore ≤ s.cycle) (ho : TickOver s c k w) :
    (w.unready = true → ∃ t w', exec (.resultLand c k) s = .next t ∧ t.warp? c k = some w' ∧ Quiet s t c k ∧ SameRegs w w' ∧ w'.flight = w.flight ∧
      w'.opened = w.opened ∧ w'.stop = .l1 ∧ w'.since = s.cycle) ∧
    (w.unready = false → (w.endTick s.cycle).mask ≠ 0 →
      ∃ t, exec (.resultLand c k) s = .next t ∧ Quiet s t c k ∧ t.warp? c k = some ((w.ending (s.pipeStart c k w)).endTick s.cycle)) ∧
    (w.unready = false → (w.endTick s.cycle).mask = 0 →
      ∃ t w', exec (.resultLand c k) s = .next t ∧ t.warp? c k = some w' ∧ w'.stop = .ended ∧ t.hbm = s.hbm) := by
  refine ⟨fun hu => ?_, fun hu hm => ?_, fun hu hm => ?_⟩
  · exact ⟨_, _, resultLand_frozen hw hr hn ho hu, State.warp_setWarp_self .., quiet_setWarp ..,
      ⟨rfl, rfl, rfl, rfl, rfl, rfl, rfl, rfl, rfl, rfl, rfl, rfl, rfl, rfl, rfl, rfl, rfl⟩, rfl, rfl, rfl, rfl⟩
  · obtain ⟨t, ht, hq, hwt⟩ := resultLand_ends hw hr hn ho hu
    obtain ⟨hqt, hwe⟩ := endTick_live hwt (by rwa [hq.1.cycle, ending_mask])
    exact ⟨_, ht, quiet_trans hq hqt, by rw [hwe, hq.1.cycle]⟩
  · obtain ⟨t, ht, hq, hwt⟩ := resultLand_ends hw hr hn ho hu
    obtain ⟨-, -, hstop⟩ := ending_frame w (s.pipeStart c k w)
    obtain ⟨now, hwe, hhbm⟩ := endTick_over hwt (by rwa [hq.1.cycle, ending_mask]) (by rw [hstop]; exact running_not_ended hr)
    exact ⟨_, _, ht, hwe, rfl, hhbm.trans hq.1.hbm⟩

/-! ## Freezes and waits -/

theorem freezeOver_of (h : (∃ n, w.stop = .until n ∧ n ≤ s.cycle) ∨ (w.stop = .l1 ∧ w.unready = false ∧ (w.opened = true ∨ w.tick < w.due)) ∨
    (w.stop = .flag ∧ ∃ o, w.dueOps = some o ∧ flagRoom w (flagsOf [o.m, o.x]) = true)) : freezeOver c k s w = true := by
  unfold freezeOver
  rcases h with ⟨n, hs, hn⟩ | ⟨hs, hu, hrest⟩ | ⟨hs, o, ho, hroom⟩
  · rw [hs]
    exact decide_eq_true hn
  · rw [hs, hu]
    rcases hrest with h | h <;> simp [h]
  · rw [hs, ho]
    exact hroom

theorem freezeEnd_of (hw : s.warp? c k = some w) (h : freezeOver c k s w = true) :
    exec (.freezeEnd c k) s = .next (s.setWarp c k { w.moveOn with since := s.cycle }) := by
  refine (event_of (can := canFreezeEnd c k s) (by rwa [canFreezeEnd, testWarp_of hw]) ..).trans ?_
  rw [resume, State.modWarp_of hw]

theorem acceptance_of (hw : s.warp? c k = some w) (hs : w.stop = .accept)
    (h : ∀ o, w.dueOps = some o → waitOf o.m c k s = none ∧ waitOf o.x c k s = none ∧ waitOf o.c c k s = none) :
    exec (.acceptance c k) s = .next (s.setWarp c k { w.moveOn with since := s.cycle }) := by
  have hcan : canAcceptance c k s = true := by
    rw [canAcceptance, testWarp_of hw, decide_eq_true hs, Bool.true_and]
    cases ho : w.dueOps with
    | none => rfl
    | some o =>
      obtain ⟨hm, hx, hc⟩ := h o ho
      simp [hm, hx, hc]
  refine (event_of hcan ..).trans ?_
  rw [resume, State.modWarp_of hw]

/-! ## Swaps -/

theorem longestPending_position {x : CoreSt} (h : longestPending x k w = true) : w.position = none := by
  rw [longestPending, Bool.and_eq_true, Warp.ready, Bool.and_eq_true, Option.isNone_iff_eq_none] at h
  exact h.1.1

/-- R25: what a swap of two warps of a core changes. -/
theorem swap_of {i j : Nat} {a b : Warp} (ha : s.warp? c i = some a) (hb : s.warp? c j = some b) (hpos : a.position.isSome = true)
    (hnone : b.position = none) : (s.swap c i j).hbm = s.hbm ∧ (s.swap c i j).blocks = s.blocks ∧
      (s.swap c i j).warp? c i = some { a with position := none, moved := s.cycle, yielded := false } ∧
      (s.swap c i j).warp? c j = some { b with position := a.position, moved := s.cycle, since := s.cycle, notBefore := s.cycle + 4 } ∧
      ∀ d l, (d, l) ≠ (c, i) → (d, l) ≠ (c, j) → (s.swap c i j).warp? d l = s.warp? d l := by
  have hij : i ≠ j := fun h => by
    subst h
    rw [hb] at ha
    rw [← Option.some.inj ha, hnone] at hpos
    cases hpos
  unfold State.swap
  rw [ha, hb]
  refine ⟨rfl, rfl, ?_, State.warp_setWarp_self .., fun d l hi hj => ?_⟩
  · rw [State.warp_setWarp_slot _ c _ hij, State.warp_setWarp_self]
  · rw [State.warp_setWarp_other _ _ hj, State.warp_setWarp_other _ _ hi]

/-- R25: which swap may happen for a wait. -/
theorem canWarpSwap_spec {i j : Nat} {a b : Warp} (h : canWarpSwap c i j s = true) (ha : s.warp? c i = some a) (hb : s.warp? c j = some b) :
    a.position.isSome ∧ b.position = none ∧ (a.opened = false ∨ a.stop ≠ .run) ∧ ∃ e, a.eligibleFrom = some e ∧ e ≤ s.cycle := by
  rw [State.warp?] at ha hb
  simp only [canWarpSwap, ha, hb, Bool.and_eq_true] at h
  obtain ⟨⟨hfirst, hswap⟩, hlong⟩ := h
  cases he : a.eligibleFrom with
  | none => simp [he] at hfirst
  | some e =>
    simp only [he, Bool.and_eq_true, decide_eq_true_eq] at hfirst
    refine ⟨hfirst.1.1, longestPending_position hlong, ?_, e, rfl, hfirst.1.2⟩
    simpa [Warp.swappable] using hswap

/-- R26: which swap may happen for a starved warp. -/
theorem canStarvationSwap_spec {i j : Nat} {a b : Warp} (h : canStarvationSwap c i j s = true) (ha : s.warp? c i = some a)
    (hb : s.warp? c j = some b) : a.position.isSome ∧ b.position = none ∧ a.opened = false ∧ b.moved + 16384 ≤ s.cycle := by
  rw [State.warp?] at ha hb
  simp only [canStarvationSwap, ha, hb, Bool.and_eq_true, decide_eq_true_eq] at h
  obtain ⟨⟨⟨⟨hlong, hmoved⟩, hpos⟩, hbound⟩, -⟩ := h
  rw [Warp.atBoundary, Bool.and_eq_true, Bool.not_eq_true'] at hbound
  exact ⟨hpos, longestPending_position hlong, hbound.1, hmoved⟩

/-! ## Freeing -/

theorem FMap.find_adjust_self {β : Type} {m : FMap β} {k : Nat} {v : β} (h : FMap.find m k = some v) (f : β → β) :
    FMap.find (FMap.adjust m k f) k = some (f v) := by
  rw [FMap.adjust, h]
  exact FMap.find_set_self ..

theorem FMap.find_adjust_none {β : Type} {m : FMap β} {k : Nat} (h : FMap.find m k = none) (j : Nat) (f : β → β) :
    FMap.find (FMap.adjust m j f) k = none := by
  unfold FMap.adjust
  split
  · next v hv =>
    have hkj : k ≠ j := fun hkj => by rw [hkj, hv] at h; cases h
    rw [FMap.find_set_ne m _ hkj, h]
  · exact h

/-- A slot that is vacated is empty; stores, blocks and tasks stay. -/
theorem vacate_of (hw : s.warp? c k = some w) : (s.vacate c k).warp? c k = none ∧ (s.vacate c k).hbm = s.hbm ∧ (s.vacate c k).blocks = s.blocks := by
  unfold State.vacate
  rw [State.onWarp_of hw]
  refine ⟨?_, rfl, rfl⟩
  rw [State.warp?, State.modCore, State.core_setCore_self]
  dsimp only
  split
  · exact FMap.find_adjust_none (FMap.find_erase_self ..) ..
  · exact FMap.find_erase_self ..

/-- R30: a slot whose warp has ended, with no flag up, is freed. -/
theorem warpSlotFree_of (hw : s.warp? c k = some w) (hs : w.stop = .ended) (hf : w.flags = []) :
    ∃ t, exec (.warpSlotFree c k) s = .next t ∧ t.warp? c k = none ∧ t.hbm = s.hbm ∧
      ∀ b, s.block? w.block = some b →
        t.block? w.block = some { b with warps := b.warps.erase k, last := (s.core c).next, gone := (c, k, w.first, w.seq) :: b.gone } := by
  have hcan : canWarpSlotFree c k s = true := by
    rw [canWarpSlotFree, testWarp_of hw, Warp.flagsZero, hs, hf]
    rfl
  obtain ⟨hgone, hhbm, hblocks⟩ := vacate_of hw
  refine ⟨_, event_of hcan .., ?_, ?_, fun b hb => ?_⟩
  · rw [doWarpSlotFree, State.onWarp_of hw]
    exact hgone
  · rw [doWarpSlotFree, State.onWarp_of hw]
    exact hhbm
  · rw [doWarpSlotFree, State.onWarp_of hw, State.block?, State.modBlock, hblocks]
    exact FMap.find_adjust_self hb _

end

/-- R11: the grant of a block that is over, with no operation left, may be released. -/
theorem canTileGrantRelease_of {c : Nat} {s : State} {g : Nat} (hg : (s.core c).grantee = some g) (ho : ∀ o ∈ (s.core c).xops, o.block ≠ g)
    (hb : s.block? g = none ∨ ∃ b, s.block? g = some b ∧ ∀ j ∈ b.warps, ∀ v, s.warp? b.core j = some v → v.stop = .ended ∧ v.flags = []) :
    canTileGrantRelease c s = true := by
  have hops : ((s.core c).xops.any fun o => decide (o.block = g)) = false :=
    List.any_eq_false.2 fun o hmem h => ho o hmem (of_decide_eq_true h)
  rw [canTileGrantRelease, hg]
  rcases hb with hb | ⟨b, hb, hover⟩
  · simp [hops, hb]
  · have hall (q : Bool) : s.blockOver b q = true := by
      refine List.all_eq_true.2 fun j hj => ?_
      cases hv : s.warp? b.core j with
      | none => rfl
      | some v =>
        obtain ⟨hs, hf⟩ := hover j hj v hv
        simp [hs, Warp.flagsZero, hf]
    simp [hops, hb, hall]

/-- Settles O39: each step of a warp, from when it may happen and what it then does. -/
theorem warpSteps : Obligations.WarpSteps := by
  refine ⟨fun c k s h => event_off h .., fun c k s h => event_off h .., fun c k s w p hw hp ht ho => canBundleIssue_of_partner hw hp ht ho,
    fun c i j s a b x y hb ha hx hy hxy hta htb hoa hob => pipeTurn_iff_not hb ha hx hy hxy hta htb hoa hob,
    fun c k s w hw hr hn ho => resultLand_clauses hw hr hn ho, fun c k s w hw h => freezeEnd_of hw (freezeOver_of h),
    fun c k s w hw hs h => acceptance_of hw hs h, fun w => rfl, ?swaps, fun c i j s a b h ha hb => canWarpSwap_spec h ha hb,
    fun c i j s a b h ha hb => canStarvationSwap_spec h ha hb, fun c k s w hw hs hf => warpSlotFree_of hw hs hf, fun c s g hg ho hb => ?grant⟩
  case swaps =>
    intro p hp c i j s a b ha hb hcan
    rcases List.mem_cons.1 hp with rfl | hp
    · obtain ⟨hpos, hnone, -⟩ := canWarpSwap_spec hcan ha hb
      exact ⟨_, event_of hcan .., swap_of ha hb hpos hnone⟩
    · obtain rfl := List.mem_singleton.1 hp
      obtain ⟨hpos, hnone, -⟩ := canStarvationSwap_spec hcan ha hb
      exact ⟨_, event_of hcan .., swap_of ha hb hpos hnone⟩
  case grant =>
    refine ⟨_, event_of (canTileGrantRelease_of hg ho hb) .., ?_, ?_, rfl⟩
    · rw [State.modCore, State.core_setCore_self]
    · rw [State.modCore, State.core_setCore_self]

end Sys2Proof.Machine
end

