-- ==== Sys2Proof/Proofs/GangLeaves.lean ====
section
/-! PROOFS. Gangs that leave their cores: completed tasks, pre-emption requests and saved contexts (R304, R306, R345, R360). -/

namespace Sys2Proof.Machine
open Claim

/-! ## What firmware's writes keep -/

/-- Blocks and tasks are unchanged, and every slot that is empty stays empty. -/
structure KeepsTables (s t : State) : Prop where
  blocks : t.blocks = s.blocks
  tasks : t.tasks = s.tasks
  vacant : ∀ c k, s.warp? c k = none → t.warp? c k = none

theorem keepsTables_refl (s : State) : KeepsTables s s := ⟨rfl, rfl, fun _ _ h => h⟩

theorem KeepsTables.trans {s t u : State} (h : KeepsTables s t) (g : KeepsTables t u) : KeepsTables s u :=
  ⟨g.blocks.trans h.blocks, g.tasks.trans h.tasks, fun c k hn => g.vacant c k (h.vacant c k hn)⟩

theorem keepsTables_same {s t : State} (hb : t.blocks = s.blocks) (ht : t.tasks = s.tasks) (hc : t.cores = s.cores) : KeepsTables s t :=
  ⟨hb, ht, fun c k hn => by rwa [State.warp?, State.core, hc]⟩

/-- What comes after a state with the same cores, blocks and tasks. -/
theorem KeepsTables.after {s t u : State} (h : KeepsTables t u) (hb : t.blocks = s.blocks) (ht : t.tasks = s.tasks) (hc : t.cores = s.cores) :
    KeepsTables s u := (keepsTables_same hb ht hc).trans h

theorem keepsTables_foldl {α : Type} {f : State → α → State} (hf : ∀ s x, KeepsTables s (f s x)) (xs : List α) (s : State) :
    KeepsTables s (xs.foldl f s) := foldl_keeps keepsTables_refl KeepsTables.trans hf xs s

theorem keepsTables_ite {s t u : State} {p : Prop} [Decidable p] (h : KeepsTables s t) (g : KeepsTables s u) : KeepsTables s (if p then t else u) := by
  split
  · exact h
  · exact g

theorem keepsTables_modCore {s : State} {c : Nat} {f : CoreSt → CoreSt} (h : (f (s.core c)).warps = (s.core c).warps) :
    KeepsTables s (s.modCore c f) := ⟨rfl, rfl, fun d k hn => (State.warp_modCore h d k).trans hn⟩

theorem keepsTables_modWarp (s : State) (c k : Nat) (f : Warp → Warp) : KeepsTables s (s.modWarp c k f) := by
  refine ⟨by simp, by simp, fun d j hn => ?_⟩
  by_cases h : (d, j) = (c, k)
  · obtain ⟨rfl, rfl⟩ := h
    rw [State.modWarp_none hn, hn]
  · rw [State.warp_modWarp_other s f h, hn]

theorem keepsTables_endMwait (s : State) (c k : Nat) (p : Bool) : KeepsTables s (s.endMwait c k p) := by
  unfold State.endMwait
  exact (keepsTables_modWarp s c k _).trans (keepsTables_modCore rfl)

theorem keepsTables_evalMonitors (s : State) (a n : Nat) : KeepsTables s (s.evalMonitors a n) := by
  unfold State.evalMonitors
  exact KeepsTables.after (keepsTables_foldl (fun s m => keepsTables_endMwait ..) _ _) rfl rfl rfl

theorem keepsTables_logRecord (s : State) (a n op req : Nat) (hit : Bool) : KeepsTables s (s.logRecord a n op req hit) := by
  unfold State.logRecord
  dsimp only
  split
  · split
    · exact keepsTables_same rfl rfl rfl
    · refine KeepsTables.trans (t := State.evalMonitors _ _ _) ?_ (keepsTables_same rfl rfl rfl)
      exact KeepsTables.after (keepsTables_evalMonitors ..) rfl rfl rfl
  · exact keepsTables_refl s

theorem keepsTables_l2Drop (s : State) (line req : Nat) : KeepsTables s (s.l2Drop line req) := by
  unfold State.l2Drop
  split
  · exact keepsTables_refl s
  · exact keepsTables_ite (KeepsTables.after (keepsTables_logRecord ..) rfl rfl rfl) (keepsTables_same rfl rfl rfl)

theorem keepsTables_freeVal (s : State) : KeepsTables s s.freeVal.2 := keepsTables_same rfl rfl rfl

theorem keepsTables_l2Room (s : State) (line req : Nat) : KeepsTables s (s.l2Room line req) := by
  unfold State.l2Room
  dsimp only
  refine keepsTables_ite (keepsTables_refl s) (keepsTables_ite (keepsTables_refl s) ?_)
  split
  · exact (keepsTables_freeVal s).trans (keepsTables_l2Drop ..)
  · exact keepsTables_freeVal s

theorem keepsTables_l2Touch (s : State) (line op req : Nat) : KeepsTables s (s.l2Touch line op req).2 := by
  unfold State.l2Touch
  dsimp only
  split
  · exact keepsTables_ite (keepsTables_same rfl rfl rfl) (keepsTables_refl s)
  · exact ((keepsTables_l2Room ..).trans (keepsTables_logRecord ..)).trans (keepsTables_same rfl rfl rfl)

theorem keepsTables_logLine (s : State) (a n op req : Nat) : KeepsTables s (s.logLine a n op req) := by
  unfold State.logLine
  exact keepsTables_ite (keepsTables_ite ((keepsTables_l2Touch ..).trans (keepsTables_logRecord ..)) (keepsTables_logRecord ..)) (keepsTables_refl s)

theorem keepsTables_countUnits (s : State) (a n : Nat) : KeepsTables s (s.countUnits a n) := by
  unfold State.countUnits
  refine keepsTables_ite (keepsTables_refl s) (keepsTables_foldl (fun s i => ?_) _ _)
  exact keepsTables_ite (keepsTables_same rfl rfl rfl) (keepsTables_refl s)

theorem keepsTables_agentPut (s : State) (req a n v : Nat) : KeepsTables s (s.agentPut req a n v) := by
  have hput : KeepsTables s ((s.devPut a n v).clearPoison a n) := keepsTables_same rfl rfl rfl
  exact ((hput.trans (keepsTables_countUnits ..)).trans (keepsTables_foldl (fun s p => keepsTables_logLine ..) _ _)).trans (keepsTables_evalMonitors ..)

theorem keepsTables_cpPut (s : State) (a n v : Nat) : KeepsTables s (s.cpPut a n v) := (keepsTables_freeVal s).trans (keepsTables_agentPut ..)

theorem keepsTables_traceRec (s : State) (kind engine core queue seq taskno info : Nat) :
    KeepsTables s (s.traceRec kind engine core queue seq taskno info) := by
  unfold State.traceRec
  split
  · exact keepsTables_refl s
  · exact keepsTables_ite ((keepsTables_agentPut ..).trans (keepsTables_same rfl rfl rfl)) (keepsTables_refl s)

theorem keepsTables_modCard (s : State) (i : Nat) (f : Card → Card) : KeepsTables s (s.modCard i f) := keepsTables_same rfl rfl rfl

/-- A core whose L1 keeps no line of the places that are gone. -/
def CoreSt.withoutLines (x : CoreSt) (gone : Pa → Bool) : CoreSt :=
  { x with l1 := x.l1.filter fun l => !gone l.pa, l1want := x.l1want.filter fun p => !gone p }

theorem keepsTables_dropL1 (s : State) (rs : List (Nat × Nat)) : KeepsTables s (s.dropL1 rs) := by
  let gone : Pa → Bool := fun p => p.space = .hbm && rs.any fun r => decide (r.1 ≤ p.addr) && decide (p.addr < r.1 + r.2)
  have hcores : (s.dropL1 rs).cores = s.cores.map fun p => (p.1, p.2.withoutLines gone) := rfl
  refine ⟨rfl, rfl, fun c k hn => ?_⟩
  rw [State.warp?, State.core, FMap.getD] at hn ⊢
  rw [hcores, FMap.find_mapVal (CoreSt.withoutLines · gone)]
  cases hc : FMap.find s.cores c with
  | none => rfl
  | some x => rwa [hc] at hn

theorem keepsTables_poolFree (s : State) (die page : Nat) : KeepsTables s (s.poolFree die page) :=
  KeepsTables.after (keepsTables_dropL1 ..) rfl rfl rfl

theorem keepsTables_returnShadows (s : State) (id : Nat) : KeepsTables s (s.returnShadows id) := by
  unfold State.returnShadows
  split
  · exact keepsTables_refl s
  · exact keepsTables_ite ((keepsTables_foldl (fun s h => keepsTables_poolFree ..) _ s).trans (keepsTables_modCard ..)) (keepsTables_refl s)

/-! ## Blocks that leave -/

theorem FMap.erase_of_find_none {β : Type} {m : FMap β} {k : Nat} (h : FMap.find m k = none) : FMap.erase m k = m := by
  induction m with
  | nil => rfl
  | cons p m ih =>
    obtain ⟨a, b⟩ := p
    rw [FMap.find] at h
    split at h
    · cases h
    · next ha =>
      simpa [FMap.erase, ha] using ih h

/-- R360: a block that is dropped is gone; every other block, every task and every warp stays. -/
theorem dropBlock_frame (s : State) (b : Nat) : (s.dropBlock b).blocks = FMap.erase s.blocks b ∧ (s.dropBlock b).tasks = s.tasks ∧
    ∀ c k, (s.dropBlock b).warp? c k = s.warp? c k := by
  unfold State.dropBlock
  split
  · next hb =>
    exact ⟨(FMap.erase_of_find_none hb).symm, rfl, fun _ _ => rfl⟩
  · exact ⟨rfl, rfl, fun c k => State.warp_modCore rfl c k⟩

theorem dropBlock_self (s : State) (b : Nat) : (s.dropBlock b).block? b = none := by
  rw [State.block?, (dropBlock_frame s b).1]
  exact FMap.find_erase_self ..

theorem dropBlock_gone {s : State} {i : Nat} (h : s.block? i = none) (b : Nat) : (s.dropBlock b).block? i = none := by
  by_cases hi : i = b
  · rw [hi]
    exact dropBlock_self s b
  · rw [State.block?, (dropBlock_frame s b).1, FMap.find_erase_ne _ hi]
    exact h

/-- Each block of a list is gone once all are dropped. -/
theorem dropBlocks_gone (bs : List Nat) (s : State) : (∀ i, s.block? i = none → (bs.foldl State.dropBlock s).block? i = none) ∧
    ∀ b ∈ bs, (bs.foldl State.dropBlock s).block? b = none := by
  induction bs generalizing s with
  | nil => exact ⟨fun _ h => h, fun _ h => nomatch h⟩
  | cons a bs ih =>
    obtain ⟨hkeep, hall⟩ := ih (s.dropBlock a)
    refine ⟨fun i h => hkeep i (dropBlock_gone h a), fun b hb => ?_⟩
    rcases List.mem_cons.1 hb with rfl | hb
    · exact hkeep b (dropBlock_self s b)
    · exact hall b hb

/-- R304: a task that completes leaves, and its blocks with it. -/
theorem taskComplete_of {k : Nat} {s : State} (h : canTaskComplete k s = true) : ∃ t, exec (.taskComplete k) s = .next t ∧ FMap.find t.tasks k = none ∧
    ∀ x, FMap.find s.tasks k = some x → ∀ b ∈ x.blocks, t.block? b = none := by
  cases hx : FMap.find s.tasks k with
  | none =>
    rw [canTaskComplete, hx] at h
    cases h
  | some x =>
    let u := x.blocks.foldl State.dropBlock s
    let v : State := { u with tasks := FMap.erase u.tasks k }
    have hkeep : KeepsTables v (doTaskComplete k s) := by
      unfold doTaskComplete
      rw [hx]
      dsimp only
      split
      · exact keepsTables_refl v
      · next c _ =>
        have h1 : KeepsTables v (if x.killed && !x.squashed then v.setFld (v.qAddr c.queue) 0x30 4 ((v.fld (v.qAddr c.queue) 0x30 4 + 1) % 2 ^ 32) else v) :=
          keepsTables_ite (keepsTables_cpPut ..) (keepsTables_refl v)
        have h2 (w : State) : KeepsTables w (if w.cardWaits c then w.modCard c.id fun c => { c with readyAt := w.cycle, aged := 0 } else w) :=
          keepsTables_ite (keepsTables_modCard ..) (keepsTables_refl w)
        have h3 (w : State) : KeepsTables w (if x.squashed then w.returnShadows c.id else w) :=
          keepsTables_ite (keepsTables_returnShadows ..) (keepsTables_refl w)
        exact ((h1.trans (h2 _)).trans (h3 _)).trans (keepsTables_traceRec ..)
    refine ⟨_, event_of h .., ?_, fun y hy b hb => ?_⟩
    · rw [hkeep.tasks]
      exact FMap.find_erase_self ..
    · obtain rfl := Option.some.inj hy
      rw [State.block?, hkeep.blocks]
      exact (dropBlocks_gone x.blocks s).2 b hb

/-! ## Pre-emption requests -/

/-- Only whether pre-emption is asked differs, in blocks and warps; where it was asked it still is (R306). -/
structure AsksLeave (s t : State) : Prop where
  hbm : t.hbm = s.hbm
  blocks : ∀ i y, s.block? i = some y → ∃ q, t.block? i = some { y with preempt := q } ∧ (y.preempt = true → q = true)
  warps : ∀ c k w, s.warp? c k = some w → ∃ q, t.warp? c k = some { w with preempt := q } ∧ (w.preempt = true → q = true)

theorem asksLeave_refl (s : State) : AsksLeave s s := ⟨rfl, fun _ y h => ⟨y.preempt, h, id⟩, fun _ _ w h => ⟨w.preempt, h, id⟩⟩

theorem AsksLeave.trans {s t u : State} (h : AsksLeave s t) (g : AsksLeave t u) : AsksLeave s u := by
  refine ⟨g.hbm.trans h.hbm, fun i y hy => ?_, fun c k w hw => ?_⟩
  · obtain ⟨p, hp, hpy⟩ := h.blocks i y hy
    obtain ⟨q, hq, hqp⟩ := g.blocks i _ hp
    exact ⟨q, hq, fun hy => hqp (hpy hy)⟩
  · obtain ⟨p, hp, hpw⟩ := h.warps c k w hw
    obtain ⟨q, hq, hqp⟩ := g.warps c k _ hp
    exact ⟨q, hq, fun hw => hqp (hpw hw)⟩

/-- Ask one warp to stop for pre-emption. -/
def State.askWarp (s : State) (c k : Nat) : State := s.modWarp c k fun w => { w with preempt := true }

/-- Ask one block to stop for pre-emption, with its warps. -/
def State.askBlock (s : State) (i : Nat) : State :=
  match s.block? i with
  | none => s
  | some y => y.warps.foldl (fun s k => s.askWarp y.core k) (s.modBlock i fun y => { y with preempt := true })

theorem asksLeave_askWarp (s : State) (c k : Nat) : AsksLeave s (s.askWarp c k) := by
  refine ⟨by simp [State.askWarp], fun i y hy => ⟨y.preempt, by rw [State.block?, State.askWarp, State.modWarp_blocks]; exact hy, id⟩, fun d j w hw => ?_⟩
  by_cases h : (d, j) = (c, k)
  · obtain ⟨rfl, rfl⟩ := h
    exact ⟨true, by rw [State.askWarp, State.warp_modWarp hw], fun _ => rfl⟩
  · exact ⟨w.preempt, by rw [State.askWarp, State.warp_modWarp_other s _ h, hw], id⟩

theorem askWarp_asked {s : State} {c k : Nat} {w : Warp} (hw : s.warp? c k = some w) :
    (s.askWarp c k).warp? c k = some { w with preempt := true } := by
  rw [State.askWarp, State.warp_modWarp hw]

theorem FMap.find_adjust_ne {β : Type} (m : FMap β) {k j : Nat} (f : β → β) (h : j ≠ k) : FMap.find (FMap.adjust m k f) j = FMap.find m j := by
  unfold FMap.adjust
  split
  · exact FMap.find_set_ne m _ h
  · rfl

theorem asksLeave_modBlock (s : State) (i : Nat) : AsksLeave s (s.modBlock i fun y => { y with preempt := true }) := by
  refine ⟨rfl, fun j y hy => ?_, fun c k w hw => ⟨w.preempt, hw, id⟩⟩
  by_cases h : j = i
  · subst h
    exact ⟨true, FMap.find_adjust_self hy _, fun _ => rfl⟩
  · exact ⟨y.preempt, (FMap.find_adjust_ne s.blocks _ h).trans hy, id⟩

theorem asksLeave_warps (c : Nat) (ks : List Nat) (s : State) : AsksLeave s (ks.foldl (fun s k => s.askWarp c k) s) :=
  foldl_keeps asksLeave_refl AsksLeave.trans (fun s k => asksLeave_askWarp s c k) ks s

theorem asksLeave_askBlock (s : State) (i : Nat) : AsksLeave s (s.askBlock i) := by
  unfold State.askBlock
  split
  · exact asksLeave_refl s
  · exact (asksLeave_modBlock s i).trans (asksLeave_warps ..)

/-- A warp that is asked, among others of its core, is asked in the end. -/
theorem askWarps_asked {c k : Nat} {ks : List Nat} (hk : k ∈ ks) {s : State} {w : Warp} (hw : s.warp? c k = some w) :
    (ks.foldl (fun s k => s.askWarp c k) s).warp? c k = some { w with preempt := true } := by
  obtain ⟨as, bs, rfl⟩ := List.append_of_mem hk
  rw [List.foldl_append, List.foldl_cons]
  obtain ⟨p, hp, -⟩ := (asksLeave_warps c as s).warps c k w hw
  obtain ⟨q, hq, hqt⟩ := (asksLeave_warps c bs _).warps c k _ (askWarp_asked hp)
  rw [hq, hqt rfl]

/-- Asking a block asks it and its warps. -/
theorem askBlock_asked {s : State} {i : Nat} {y : Block} (hy : s.block? i = some y) :
    (s.askBlock i).block? i = some { y with preempt := true } ∧
      ∀ j ∈ y.warps, ∀ w, s.warp? y.core j = some w → (s.askBlock i).warp? y.core j = some { w with preempt := true } := by
  unfold State.askBlock
  rw [hy]
  refine ⟨?_, fun j hj w hw => askWarps_asked hj hw⟩
  obtain ⟨q, hq, hqt⟩ := (asksLeave_warps y.core y.warps (s.modBlock i fun y => { y with preempt := true })).blocks i _ (FMap.find_adjust_self hy _)
  rw [hq, hqt rfl]

/-- R306: each block of a list and each of its warps is asked in the end. -/
theorem askBlocks_asked {s : State} {bs : List Nat} {i : Nat} (hi : i ∈ bs) {y : Block} (hy : s.block? i = some y) :
    (bs.foldl State.askBlock s).block? i = some { y with preempt := true } ∧
      ∀ j ∈ y.warps, ∀ w, s.warp? y.core j = some w → (bs.foldl State.askBlock s).warp? y.core j = some { w with preempt := true } := by
  have hfold (xs : List Nat) (s : State) : AsksLeave s (xs.foldl State.askBlock s) :=
    foldl_keeps asksLeave_refl AsksLeave.trans asksLeave_askBlock xs s
  obtain ⟨as, ds, rfl⟩ := List.append_of_mem hi
  rw [List.foldl_append, List.foldl_cons]
  obtain ⟨p, hp, -⟩ := (hfold as s).blocks i y hy
  obtain ⟨hblock, hwarps⟩ := askBlock_asked hp
  refine ⟨?_, fun j hj w hw => ?_⟩
  · obtain ⟨q, hq, hqt⟩ := (hfold ds _).blocks i _ hblock
    rw [hq, hqt rfl]
  · obtain ⟨r, hr, -⟩ := (hfold as s).warps _ _ _ hw
    obtain ⟨q, hq, hqt⟩ := (hfold ds _).warps _ _ _ (hwarps j hj _ hr)
    rw [hq, hqt rfl]

/-- R306: a pre-emption request asks every block of the gang. -/
theorem preemptRequest_of {b : Nat} {s : State} {x : Block} {k : Task} (hx : s.block? b = some x) (hk : FMap.find s.tasks x.task = some k)
    (hkill : k.killed = false) (hheld : ∀ i ∈ k.blocks, s.holdsTrap i = false) : exec (.preemptRequest b) s = .next (k.blocks.foldl State.askBlock s) := by
  have hbind : ((s.block? b).bind fun x => FMap.find s.tasks x.task) = some k := by rw [hx]; exact hk
  have hcan : canPreemptRequest b s = true := by
    rw [canPreemptRequest, hbind]
    simpa [hkill] using hheld
  refine (event_of hcan ..).trans ?_
  rw [doPreemptRequest, hbind]
  rfl

/-! ## Saved contexts -/

theorem settleRamp_warps (x : CoreSt) (now : Nat) : (x.settleRamp now).warps = x.warps := by
  unfold CoreSt.settleRamp
  split <;> rfl

/-- A slot that is vacated leaves blocks and tasks alone, and empty slots empty. -/
theorem keepsTables_vacate (s : State) (c k : Nat) : KeepsTables s (s.vacate c k) := by
  cases hw : s.warp? c k with
  | none =>
    rw [State.vacate, State.onWarp, hw]
    exact keepsTables_refl s
  | some w =>
    rw [State.vacate, State.onWarp_of hw]
    refine ⟨rfl, rfl, fun d j hn => ?_⟩
    by_cases hd : d = c
    · subst hd
      have hleft : FMap.find (FMap.erase (s.core d).warps k) j = none := by
        by_cases hj : j = k
        · rw [hj]
          exact FMap.find_erase_self ..
        · exact (FMap.find_erase_ne _ hj).trans hn
      rw [State.warp?, State.modCore, State.core_setCore_self]
      dsimp only
      split
      · exact FMap.find_adjust_none hleft ..
      · exact hleft
    · rw [State.warp?, State.modCore, State.core_setCore_ne _ _ hd]
      exact hn

theorem vacate_self (s : State) (c k : Nat) : (s.vacate c k).warp? c k = none := by
  cases hw : s.warp? c k with
  | none => exact (keepsTables_vacate s c k).vacant c k hw
  | some w => exact (vacate_of hw).1

theorem vacates (c : Nat) (ks : List Nat) (s : State) : KeepsTables s (ks.foldl (fun s k => s.vacate c k) s) ∧
    ∀ k ∈ ks, (ks.foldl (fun s k => s.vacate c k) s).warp? c k = none := by
  have hfold (xs : List Nat) (s : State) : KeepsTables s (xs.foldl (fun s k => s.vacate c k) s) :=
    keepsTables_foldl (fun s k => keepsTables_vacate s c k) xs s
  refine ⟨hfold ks s, fun k hk => ?_⟩
  obtain ⟨as, bs, rfl⟩ := List.append_of_mem hk
  rw [List.foldl_append, List.foldl_cons]
  exact (hfold bs _).vacant c k (vacate_self ..)

/-- The task of a block that is saved (R345). -/
def Task.withSaved (t : Task) (b now : Nat) (v : SavedBlock) : Task :=
  { t with blocks := t.blocks.erase b, saved := t.saved ++ [v], placed := t.blocks.erase b != [], ready := now }

/-- R345: saving a block writes its context, empties its slots, drops it and notes it with its task. -/
theorem save_of {b : Nat} (area : Nat) {s : State} {x : Block} {card : Card} {k : Task} (hx : s.block? b = some x) (hc : s.cardOfBlock b = some card)
    (hk : FMap.find s.tasks x.task = some k) : ∃ u now v, KeepsTables s u ∧ v.area = area ∧ v.block.sp = x.sp ∧ v.formerCore = x.core ∧
      KeepsTables (((x.warps.foldl (fun s k => s.vacate x.core k) u).dropBlock b).modTask x.task fun t => t.withSaved b now v)
        (doBlockContextSave b area s) := by
  unfold doBlockContextSave
  rw [hx, hc]
  dsimp only
  rw [hk]
  dsimp only
  refine ⟨_, _, _, ?_, ?_, ?_, ?_, (keepsTables_ite (keepsTables_modCard ..) (keepsTables_refl _)).trans (keepsTables_traceRec ..)⟩
  · refine KeepsTables.trans ?_ (keepsTables_modCore (settleRamp_warps ..))
    exact (keepsTables_foldl (fun s f => keepsTables_cpPut ..) _ s).trans (keepsTables_same rfl rfl rfl)
  · rfl
  · rfl
  · rfl

/-- R345: a block whose context is saved leaves its core, with what it was kept by its task. -/
theorem blockContextSave_of {b area : Nat} {s : State} {x : Block} {card : Card} {k : Task} (hcan : canBlockContextSave b area s = true)
    (hx : s.block? b = some x) (hc : s.cardOfBlock b = some card) (hk : FMap.find s.tasks x.task = some k) :
    ∃ t k' v, exec (.blockContextSave b area) s = .next t ∧ t.block? b = none ∧ (∀ j ∈ x.warps, t.warp? x.core j = none) ∧
      FMap.find t.tasks x.task = some k' ∧ k'.saved = k.saved ++ [v] ∧ k'.blocks = k.blocks.erase b ∧ v.area = area ∧ v.block.sp = x.sp ∧
      v.formerCore = x.core := by
  obtain ⟨u, now, v, hu, harea, hsp, hcore, hend⟩ := save_of area hx hc hk
  obtain ⟨hvac, hgone⟩ := vacates x.core x.warps u
  generalize x.warps.foldl (fun s k => s.vacate x.core k) u = y at hvac hgone hend
  obtain ⟨-, htasks, hwarps⟩ := dropBlock_frame y b
  refine ⟨_, k.withSaved b now v, v, event_of hcan .., ?_, fun j hj => ?_, ?_, rfl, rfl, harea, hsp, hcore⟩
  · rw [State.block?, hend.blocks]
    exact dropBlock_self y b
  · exact hend.vacant _ _ ((hwarps ..).trans (hgone j hj))
  · rw [hend.tasks]
    refine FMap.find_adjust_self ?_ _
    rw [htasks, hvac.tasks, hu.tasks, hk]

end Sys2Proof.Machine
end

