-- ==== Sys2Proof/Proofs/GangArrives.lean ====
section
/-! PROOFS. Gangs that come to their cores: launched warps, placed gangs and resumed blocks (R9 to R15, R297, R302, R304, R346, R348). -/

namespace Sys2Proof.Machine
open Claim

/-! ## A warp as it is launched -/

/-- Only scalar registers differ. -/
def OnlyScalars (w v : Warp) : Prop := ∃ a, v = { w with sregs := a }

theorem onlyScalars_refl (w : Warp) : OnlyScalars w w := ⟨w.sregs, rfl⟩

theorem onlyScalars_trans {u v w : Warp} (h : OnlyScalars u v) (g : OnlyScalars v w) : OnlyScalars u w := by
  obtain ⟨_, rfl⟩ := h
  obtain ⟨a, rfl⟩ := g
  exact ⟨a, rfl⟩

theorem onlyScalars_setS (w : Warp) (r : Nat) (x : DWord) : OnlyScalars w (w.setS r x) := by
  unfold Warp.setS
  split
  · exact onlyScalars_refl w
  · exact ⟨_, rfl⟩

/-- Values written to the registers above `n` in order: each register has its value, every other one what it held. -/
theorem foldl_setS (vals : List DWord) (n : Nat) (w : Warp) (j : Nat) :
    ((vals.zipIdx n).foldl (fun w p => w.setS (p.2 + 1) p.1) w).s j = if n < j then (vals[j - 1 - n]?).getD (w.s j) else w.s j := by
  induction vals generalizing n w with
  | nil => simp
  | cons x vals ih =>
    rw [List.zipIdx_cons, List.foldl_cons, ih, s_setS]
    rcases lt_trichotomy j (n + 1) with h | rfl | h
    · rw [if_neg (by omega), if_neg (by omega), if_neg (by omega)]
    · simp
    · have hne : n + 1 ≠ j := by omega
      have hlt : n < j := by omega
      simp only [h, hne, hlt, if_true, if_false]
      rw [show j - 1 - n = (j - 1 - (n + 1)) + 1 by omega, List.getElem?_cons_succ]

/-- The values that a launch writes to `s1` and up (R14). -/
def launchValues (card : Card) (t : Task) : List DWord :=
  card.user ++ [card.argBase + BitVec.ofNat 64 (card.argStride * t.first), BitVec.ofNat 64 t.count, BitVec.ofNat 64 card.argStride, card.addr,
    BitVec.ofNat 64 t.number]

/-- R10, R14: the scalar registers of a warp as it is launched. -/
theorem launchWarp_s (card : Card) (t : Task) (b i : Nat) (r : Role) (tsa now : Nat) (pos : Option Nat) (j : Nat) :
    (launchWarp card t b i r tsa now pos).s j = if 0 < j then ((launchValues card t)[j - 1]?).getD 0 else 0 := by
  refine (foldl_setS (launchValues card t) 0 _ j).trans ?_
  rcases Nat.eq_zero_or_pos j with rfl | hj
  · rfl
  · rw [if_pos hj, if_pos hj, Warp.s, if_neg (Nat.ne_of_gt hj)]
    rfl

/-- R44: the lanes of the lower warps of a role. -/
theorem lanesBelow_eq (k : Kernel) (i role : Nat) :
    k.lanesBelow i role = (((k.roleList.take i).filter fun q => q.role = role).map fun q => 32 * q.k).sum := by
  rw [Kernel.lanesBelow]
  induction k.roleList.take i with
  | nil => rfl
  | cons q qs ih =>
    by_cases h : q.role = role
    · simp [h, ih]
    · simp [h, ih]

theorem launchMask_bit (live l : Nat) (hl : l < 1024) : (BitVec.ofNat 1024 (2 ^ live - 1)).getLsbD l = decide (l < live) := by
  rw [BitVec.getLsbD_ofNat, Nat.testBit_two_pow_sub_one, decide_eq_true hl, Bool.true_and]

theorem launch_clauses (card : Card) (t : Task) (b i : Nat) (r : Role) (tsa now : Nat) (pos : Option Nat) (hu : card.user.length = 4) :
    let w := launchWarp card t b i r tsa now pos
    let live := if card.lanes = 0 ∨ 32 * r.k ≤ card.lanes then 32 * r.k else card.lanes
    w.block = b ∧ w.windex = i ∧ w.role = r.role ∧ w.k = r.k ∧ w.budget = r.budget ∧
    w.lbase = (((card.kernel.roleList.take i).filter fun q => q.role = r.role).map fun q => 32 * q.k).sum ∧ w.pc = card.code + BitVec.ofNat 64 (32 * r.entry) ∧
    (∀ l < 1024, w.mask.getLsbD l = decide (l < live)) ∧ (∀ j u, card.user[j]? = some u → w.s (j + 1) = u) ∧
    w.s 5 = card.argBase + BitVec.ofNat 64 (card.argStride * t.first) ∧ w.s 6 = BitVec.ofNat 64 t.count ∧ w.s 7 = BitVec.ofNat 64 card.argStride ∧
    w.s 8 = card.addr ∧ w.s 9 = BitVec.ofNat 64 t.number ∧ (∀ j, 10 ≤ j → w.s j = 0) ∧ w.s 0 = 0 ∧ w.loops = [] ∧ w.flags = [] ∧ w.flight = [] ∧
    w.priv = false ∧ w.tick = 0 ∧ w.fel = 0 ∧ w.fes = 0 ∧ w.fen = 0 ∧ w.cause = 0 ∧ w.epc = 0 ∧ w.imask = 0 ∧ w.tsa = BitVec.ofNat 64 tsa := by
  have hs := launchWarp_s card t b i r tsa now pos
  have hbase : OnlyScalars _ (launchWarp card t b i r tsa now pos) :=
    foldl_keeps onlyScalars_refl onlyScalars_trans (fun (w : Warp) (p : DWord × Nat) => onlyScalars_setS w (p.2 + 1) p.1) _ _
  intro w live
  have hw : launchWarp card t b i r tsa now pos = w := rfl
  rw [hw] at hs hbase
  clear_value w
  have hafter (j : Nat) : w.s (5 + j) = ([card.argBase + BitVec.ofNat 64 (card.argStride * t.first), BitVec.ofNat 64 t.count,
      BitVec.ofNat 64 card.argStride, card.addr, BitVec.ofNat 64 t.number][j]?).getD 0 := by
    rw [hs, if_pos (by omega), launchValues, List.getElem?_append_right (by omega), show 5 + j - 1 - card.user.length = j by omega]
  have huser (j : Nat) (u : DWord) (hj : card.user[j]? = some u) : w.s (j + 1) = u := by
    rw [hs, if_pos (by omega), launchValues, Nat.add_sub_cancel, List.getElem?_append_left (List.getElem?_eq_some_iff.1 hj).1, hj]
    rfl
  have hhigh (j : Nat) (hj : 10 ≤ j) : w.s j = 0 := by
    rw [show j = 5 + (j - 5) by omega, hafter, List.getElem?_eq_none (by simpa using (by omega : 5 ≤ j - 5))]
    rfl
  have h0 : w.s 0 = 0 := hs 0
  have h5 := hafter 0
  have h6 := hafter 1
  have h7 := hafter 2
  have h8 := hafter 3
  have h9 := hafter 4
  obtain ⟨a, rfl⟩ := hbase
  exact ⟨rfl, rfl, rfl, rfl, rfl, lanesBelow_eq .., rfl, fun l hl => launchMask_bit live l hl, huser, h5, h6, h7, h8, h9, hhigh, h0, rfl, rfl, rfl, rfl,
    rfl, rfl, rfl, rfl, rfl, rfl, rfl, rfl⟩

theorem launchWarp_seq (card : Card) (t : Task) (b i : Nat) (r : Role) (tsa now : Nat) (pos : Option Nat) :
    (launchWarp card t b i r tsa now pos).seq = 0 := by
  have hbase : OnlyScalars _ (launchWarp card t b i r tsa now pos) :=
    foldl_keeps onlyScalars_refl onlyScalars_trans (fun (w : Warp) (p : DWord × Nat) => onlyScalars_setS w (p.2 + 1) p.1) _ _
  obtain ⟨a, h⟩ := hbase
  rw [h]

/-! ## Warps that are seated -/

/-- Only cores differ. -/
def OnlyCores (s t : State) : Prop := ∃ x, t = { s with cores := x }

theorem onlyCores_refl (s : State) : OnlyCores s s := ⟨s.cores, rfl⟩

theorem onlyCores_trans {s t u : State} (h : OnlyCores s t) (g : OnlyCores t u) : OnlyCores s u := by
  obtain ⟨_, rfl⟩ := h
  obtain ⟨x, rfl⟩ := g
  exact ⟨x, rfl⟩

theorem onlyCores_modCore (s : State) (c : Nat) (f : CoreSt → CoreSt) : OnlyCores s (s.modCore c f) := ⟨_, rfl⟩

theorem core_modCore_self (s : State) (c : Nat) (f : CoreSt → CoreSt) : (s.modCore c f).core c = f (s.core c) := State.core_setCore_self ..

/-- The warp that a seat holds, with its place in program order. -/
def Warp.seated (w : Warp) (n : Nat) : Warp := { w with seq := n, first := n }

section
variable (s : State) (c k : Nat) (f : Option Nat → Warp)

theorem seatWarp_self : ∃ pos, (s.seatWarp c k f).warp? c k = some ((f pos).seated (max (s.core c).next (f pos).seq)) ∧
    ((s.seatWarp c k f).core c).next = max (s.core c).next (f pos).seq := by
  refine ⟨freePosition (s.core c).warps, ?_, ?_⟩
  · rw [State.warp?, State.seatWarp, core_modCore_self]
    exact FMap.find_set_self ..
  · rw [State.seatWarp, core_modCore_self]

theorem seatWarp_other {j : Nat} (h : j ≠ k) : (s.seatWarp c k f).warp? c j = s.warp? c j := by
  rw [State.warp?, State.seatWarp, core_modCore_self]
  exact FMap.find_set_ne _ _ h

theorem seatWarp_l1 : ((s.seatWarp c k f).core c).l1 = (s.core c).l1 := by rw [State.seatWarp, core_modCore_self]

end

/-- Seat warps one after another in slots of a core. -/
def State.seatAll {α : Type} (s : State) (c : Nat) (slot : α → Nat) (f : α → Nat → Option Nat → Warp) (xs : List α) : State :=
  xs.foldl (fun s q => s.seatWarp c (slot q) fun pos => f q s.cycle pos) s

section
variable {α : Type} {c : Nat} {slot : α → Nat} {f : α → Nat → Option Nat → Warp}

theorem onlyCores_seatAll (xs : List α) (s : State) : OnlyCores s (s.seatAll c slot f xs) :=
  foldl_keeps onlyCores_refl onlyCores_trans (fun s _ => onlyCores_modCore s c _) xs s

theorem seatAll_l1 (xs : List α) (s : State) : ((s.seatAll c slot f xs).core c).l1 = (s.core c).l1 :=
  foldl_same (f := fun s : State => (s.core c).l1) (fun s _ => seatWarp_l1 s c _ _) xs s

theorem seatAll_other {xs : List α} {k : Nat} (h : ∀ q ∈ xs, k ≠ slot q) (s : State) : (s.seatAll c slot f xs).warp? c k = s.warp? c k :=
  foldl_unwritten (f := fun s : State => s.warp? c k) (P := fun _ => False) (fun s q hq _ => seatWarp_other s c _ _ (h q hq)) (fun _ _ => not_false) s

theorem seatAll_next (hf : ∀ q now pos, (f q now pos).seq = 0) (xs : List α) (s : State) :
    ((s.seatAll c slot f xs).core c).next = (s.core c).next := by
  refine foldl_same (f := fun s : State => (s.core c).next) (fun s q => ?_) xs s
  obtain ⟨pos, -, hn⟩ := seatWarp_self s c (slot q) fun pos => f q s.cycle pos
  rw [hn, hf, Nat.max_zero]

/-- Each of the warps that are seated in different slots holds its seat in the end. -/
theorem seatAll_seated {xs : List α} (hn : (xs.map slot).Nodup) {q : α} (hq : q ∈ xs) (s : State) : ∃ pos n,
    (s.seatAll c slot f xs).warp? c (slot q) = some ((f q s.cycle pos).seated n) ∧ ((∀ q now pos, (f q now pos).seq = 0) → n = (s.core c).next) := by
  obtain ⟨as, bs, rfl⟩ := List.append_of_mem hq
  have hsplit : s.seatAll c slot f (as ++ q :: bs) =
      ((s.seatAll c slot f as).seatWarp c (slot q) fun pos => f q (s.seatAll c slot f as).cycle pos).seatAll c slot f bs := by
    rw [State.seatAll, List.foldl_append, List.foldl_cons]
    rfl
  have hcycle : (s.seatAll c slot f as).cycle = s.cycle := by
    obtain ⟨_, h⟩ := onlyCores_seatAll (slot := slot) (f := f) (c := c) as s
    rw [h]
  have hbs : ∀ r ∈ bs, slot q ≠ slot r := by
    rw [List.map_append, List.map_cons] at hn
    exact fun r hr h => (List.nodup_cons.1 (List.nodup_append.1 hn).2.1).1 (h ▸ List.mem_map_of_mem hr)
  obtain ⟨pos, hw, -⟩ := seatWarp_self (s.seatAll c slot f as) c (slot q) fun pos => f q (s.seatAll c slot f as).cycle pos
  rw [hcycle] at hw hsplit
  rw [hsplit]
  exact ⟨pos, _, (seatAll_other hbs _).trans hw, fun hf => by rw [seatAll_next hf, hf, Nat.max_zero]⟩

end

/-- A core made ready for a block: its L1 is empty, and its next place in program order is what it was (R11, R302, R348). -/
theorem openCore_core (s : State) (b c split : Nat) (k : Kernel) :
    ((s.openCore b c split k).core c).l1 = [] ∧ ((s.openCore b c split k).core c).next = (s.core c).next := by
  rw [State.openCore, core_modCore_self]
  refine ⟨rfl, ?_⟩
  dsimp only
  split <;> split <;> rfl

/-! ## Placing a gang -/

theorem map_fst_zip_sublist {α β : Type} (as : List α) (bs : List β) : ((as.zip bs).map Prod.fst).Sublist as := by
  induction as generalizing bs with
  | nil => simp
  | cons a as ih =>
    cases bs with
    | nil => simp
    | cons b bs => exact (ih bs).cons_cons a

theorem map_snd_zip_sublist {α β : Type} (as : List α) (bs : List β) : ((as.zip bs).map Prod.snd).Sublist bs := by
  induction bs generalizing as with
  | nil => simp
  | cons b bs ih =>
    cases as with
    | nil => simp
    | cons a as => exact (ih as).cons_cons b

/-- A block as it is placed. -/
def placedBlock (g : Nat) (card : Card) (rank : Nat) (p : Placement) : Block :=
  { core := p.core, base := p.base, size := card.scratch, grank := rank, task := g, warps := p.slots, sp := [], bars := [], preempt := false, last := 0 }

/-- R9 to R14, R297, R304: placing a block makes it and starts its warps. -/
theorem placeBlock_of {s : State} {g : Nat} {x : Task} (hx : FMap.find s.tasks g = some x) (card : Card) (rank : Nat) {p : Placement}
    (hn : p.slots.Nodup) : ∃ u, s.placeBlock g card rank p = u.modTask g (fun x => { x with blocks := x.blocks ++ [s.nextId] }) ∧
      OnlyCores { s with nextId := s.nextId + 1, blocks := FMap.set s.blocks s.nextId (placedBlock g card rank p) } u ∧ (u.core p.core).l1 = [] ∧
      ∀ i k r a, p.slots[i]? = some k → card.kernel.roleList[i]? = some r → p.tsas[i]? = some a → ∃ pos,
        u.warp? p.core k = some ((launchWarp card x s.nextId i r a s.cycle pos).seated (s.core p.core).next) := by
  let s1 : State := ({ s with nextId := s.nextId + 1 } : State).openCore s.nextId p.core card.split card.kernel
  let s2 : State := { s1 with blocks := FMap.set s1.blocks s.nextId (placedBlock g card rank p) }
  let xs := (p.slots.zip (p.tsas.zip card.kernel.roleList)).zipIdx
  let slot := fun q : (Nat × Nat × Role) × Nat => q.1.1
  let f := fun (q : (Nat × Nat × Role) × Nat) (now : Nat) (pos : Option Nat) => launchWarp card x s.nextId q.2 q.1.2.2 q.1.2.1 now pos
  obtain ⟨hl1, hnext⟩ := openCore_core { s with nextId := s.nextId + 1 } s.nextId p.core card.split card.kernel
  have hslots : (xs.map slot).Nodup := by
    have hmap : xs.map slot = (p.slots.zip (p.tsas.zip card.kernel.roleList)).map Prod.fst := by
      rw [← List.zipIdx_map_fst 0 (p.slots.zip _), List.map_map]
      rfl
    rw [hmap]
    exact hn.sublist (map_fst_zip_sublist ..)
  refine ⟨s2.seatAll p.core slot f xs, ?_, onlyCores_trans ⟨_, rfl⟩ (onlyCores_seatAll xs s2), (seatAll_l1 xs s2).trans hl1, fun i k r a hk hr ha => ?_⟩
  · rw [State.placeBlock, hx]
    rfl
  · have hq : ((k, a, r), i) ∈ xs := by
      rw [List.mk_mem_zipIdx_iff_getElem?, List.getElem?_zip_eq_some, List.getElem?_zip_eq_some]
      exact ⟨hk, ha, hr⟩
    obtain ⟨pos, n, hw, hnz⟩ := seatAll_seated (c := p.core) (f := f) hslots hq s2
    refine ⟨pos, ?_⟩
    rw [hnz fun q now pos => launchWarp_seq ..] at hw
    exact hw.trans (congrArg (fun n => some (Warp.seated _ n)) hnext)

/-- Only overrides and cards differ. -/
def OnlyViews (s t : State) : Prop := ∃ os cs, t = { s with overrides := os, cards := cs }

theorem onlyViews_refl (s : State) : OnlyViews s s := ⟨s.overrides, s.cards, rfl⟩

theorem onlyViews_takeView (s : State) (id die view : Nat) : OnlyViews s (s.takeView id die view) := by
  unfold State.takeView
  split
  · exact onlyViews_refl s
  · exact ⟨_, _, rfl⟩

/-- A gang that is placed takes the views that it needs (R312). -/
def State.viewsFor (s : State) (id : Nat) (ps : List Placement) : State :=
  (ps.map fun p => dieOf p.core).eraseDups.foldl (fun s d => match s.card? id with
    | some c => if c.needsView && (FMap.find c.views d).isNone then match s.freeView d with
        | some v => s.takeView c.id d v
        | none => s
      else s
    | none => s) s

theorem onlyViews_trans {s t u : State} (h : OnlyViews s t) (g : OnlyViews t u) : OnlyViews s u := by
  obtain ⟨_, _, rfl⟩ := h
  obtain ⟨os, cs, rfl⟩ := g
  exact ⟨os, cs, rfl⟩

theorem onlyViews_viewsFor (s : State) (id : Nat) (ps : List Placement) : OnlyViews s (s.viewsFor id ps) := by
  refine foldl_keeps onlyViews_refl onlyViews_trans (fun s d => ?_) _ s
  split
  · split
    · split
      · exact onlyViews_takeView ..
      · exact onlyViews_refl s
    · exact onlyViews_refl s
  · exact onlyViews_refl s

/-- What a region has in effect is a matter of the RCBs (R288). -/
theorem rcbEff_congr {α : Type} {s t : State} (h : t.rcbs = s.rcbs) (bitNo : Nat) (get : Rcb → α) (dflt : α) (n a : Nat) :
    t.rcbEff bitNo get dflt n a = s.rcbEff bitNo get dflt n a := by
  induction n generalizing a with
  | zero => rfl
  | succ n ih =>
    rw [State.rcbEff, State.rcbEff, h]
    cases FMap.find s.rcbs a with
    | none => rfl
    | some r => simp only [ih]

theorem handlerOf_congr {s t : State} (h : t.rcbs = s.rcbs) (r : Nat) : t.handlerOf r = s.handlerOf r := rcbEff_congr h ..

theorem fdomOf_congr {s t : State} (h : t.rcbs = s.rcbs) (r : Nat) : t.fdomOf r = s.fdomOf r := rcbEff_congr h ..

/-- Firmware that traces nothing writes no record (R431). -/
theorem traceRec_off {s : State} (h : s.trace = none) (kind engine core queue seq taskno info : Nat) :
    s.traceRec kind engine core queue seq taskno info = s := by
  rw [State.traceRec, h]

/-- The state of a placed gang's task (R287, R304). -/
def Task.asPlaced (x : Task) (h : DWord) (d : Nat) : Task := { x with placed := true, handler := h, fdom := d }

/-- R302: placing a gang of one block takes its views, places the block and notes it with its task. -/
theorem doGangPlace_one {s : State} {g : Nat} {x : Task} {card : Card} (hx : FMap.find s.tasks g = some x) (hc : s.card? x.card = some card)
    (p : Placement) (ht : (((s.viewsFor card.id [p]).placeBlock g card 0 p).trace) = none) :
    let u := (s.viewsFor card.id [p]).placeBlock g card 0 p
    let v := (u.modTask g fun x => x.asPlaced (u.handlerOf card.rcb) (u.fdomOf card.rcb)).modCard card.id fun c => { c with aged := 0 }
    doGangPlace g [p] s = { v with reserved := v.reserved.filter fun p => p.2.1 ≠ g } := by
  have hbind : ((FMap.find s.tasks g).bind fun x => (s.card? x.card).map fun c => (x, c)) = some (x, card) := by rw [hx, Option.bind_some, hc]; rfl
  intro u v
  have hv : ({ v with reserved := v.reserved.filter fun p => p.2.1 ≠ g } : State).trace = none := ht
  unfold doGangPlace
  rw [hbind]
  exact traceRec_off hv ..

/-- The block, the task and the warps of a gang of one block that is placed (R9 to R15, R297, R302). -/
theorem gangPlace_of {g : Nat} {p : Placement} {s : State} {x : Task} {card : Card} (hx : FMap.find s.tasks g = some x)
    (hc : s.card? x.card = some card) (hcan : canGangPlace g [p] s = true) (ht : s.trace = none) :
    ∃ t b blk, exec (.gangPlace g [p]) s = .next t ∧ t.block? b = some blk ∧ blk.core = p.core ∧ blk.base = p.base ∧ blk.size = card.scratch ∧
      blk.sp = [] ∧ blk.task = g ∧ blk.warps = p.slots ∧ FMap.find t.tasks g = some
        { x with blocks := x.blocks ++ [b], placed := true, handler := s.handlerOf card.rcb, fdom := s.fdomOf card.rcb } ∧
      t.hbm = s.hbm ∧ (t.core p.core).l1 = [] ∧
      ∀ i k r a, p.slots[i]? = some k → card.kernel.roleList[i]? = some r → p.tsas[i]? = some a →
        ∃ pos, t.warp? p.core k = some { launchWarp card x b i r a s.cycle pos with seq := (s.core p.core).next, first := (s.core p.core).next } := by
  have hn : p.slots.Nodup := by
    rw [canGangPlace, hx] at hcan
    simp only [hc, Bool.and_eq_true, List.all_cons, List.all_nil, State.roomAt, slotsFree, decide_eq_true_eq] at hcan
    tauto
  have hone := doGangPlace_one hx hc p
  obtain ⟨os, cs, hviews⟩ := onlyViews_viewsFor s card.id [p]
  rw [hviews] at hone
  generalize hs1 : ({ s with overrides := os, cards := cs } : State) = s1 at hone
  have hx1 : FMap.find s1.tasks g = some x := by rw [← hs1]; exact hx
  obtain ⟨u, hplace, ⟨cores, hu⟩, hl1, hwarps⟩ := placeBlock_of hx1 card 0 hn
  rw [hplace] at hone
  have htrace : u.trace = none := by rw [hu, ← hs1]; exact ht
  have hrcbs : u.rcbs = s.rcbs := by rw [hu, ← hs1]
  have htasks : FMap.find u.tasks g = some x := by rw [hu]; exact hx1
  have hblock : u.block? s1.nextId = some (placedBlock g card 0 p) := by rw [hu]; exact FMap.find_set_self ..
  have hhbm : u.hbm = s.hbm := by rw [hu, ← hs1]
  refine ⟨_, s1.nextId, placedBlock g card 0 p, event_of hcan .., ?_, rfl, rfl, rfl, rfl, rfl, rfl, ?_, ?_, ?_, fun i k r a hk hr ha => ?_⟩
  · rw [hone htrace]
    exact hblock
  · rw [hone htrace]
    refine (FMap.find_adjust_self (FMap.find_adjust_self htasks _) _).trans ?_
    rw [Task.asPlaced, handlerOf_congr (s := s) (t := u.modTask g _) hrcbs, fdomOf_congr (s := s) (t := u.modTask g _) hrcbs]
  · rw [hone htrace]
    exact hhbm
  · rw [hone htrace]
    exact hl1
  · obtain ⟨pos, hw⟩ := hwarps i k r a hk hr ha
    refine ⟨pos, ?_⟩
    rw [hone htrace]
    rw [← hs1] at hw ⊢
    exact hw

end Sys2Proof.Machine
end

