-- ==== Sys2Proof/Proofs/GangResumes.lean ====
section
/-! PROOFS. Gangs that resume from their saved contexts (R344, R346, R348), and the steps of gangs as a whole. -/

namespace Sys2Proof.Machine
open Claim

/-! ## Operations that are queued again -/

/-- Blocks, tasks and the trace are unchanged, and every warp but for its flags. -/
structure KeepsSeats (s t : State) : Prop where
  blocks : t.blocks = s.blocks
  tasks : t.tasks = s.tasks
  trace : t.trace = s.trace
  warps : ∀ c k w, s.warp? c k = some w → ∃ a b, t.warp? c k = some { w with flags := a, incs := b }

theorem keepsSeats_same {s t : State} (hb : t.blocks = s.blocks) (ht : t.tasks = s.tasks) (hr : t.trace = s.trace)
    (hw : ∀ c k, t.warp? c k = s.warp? c k) : KeepsSeats s t := ⟨hb, ht, hr, fun c k w h => ⟨w.flags, w.incs, (hw c k).trans h⟩⟩

theorem keepsSeats_refl (s : State) : KeepsSeats s s := keepsSeats_same rfl rfl rfl fun _ _ => rfl

theorem KeepsSeats.trans {s t u : State} (h : KeepsSeats s t) (g : KeepsSeats t u) : KeepsSeats s u := by
  refine ⟨g.blocks.trans h.blocks, g.tasks.trans h.tasks, g.trace.trans h.trace, fun c k w hw => ?_⟩
  obtain ⟨_, _, ht⟩ := h.warps c k w hw
  obtain ⟨a, b, hu⟩ := g.warps c k _ ht
  exact ⟨a, b, hu⟩

theorem keepsSeats_ite {s t u : State} {p : Prop} [Decidable p] (h : KeepsSeats s t) (g : KeepsSeats s u) : KeepsSeats s (if p then t else u) := by
  split
  · exact h
  · exact g

theorem keepsSeats_modCore {s : State} {c : Nat} {f : CoreSt → CoreSt} (h : (f (s.core c)).warps = (s.core c).warps) : KeepsSeats s (s.modCore c f) :=
  keepsSeats_same rfl rfl rfl fun d k => State.warp_modCore h d k

theorem keepsSeats_incFlag (s : State) (c k f : Nat) : KeepsSeats s (s.modWarp c k fun w => w.incFlag f) := by
  refine ⟨by simp, by simp, by simp, fun d j w hw => ?_⟩
  by_cases h : (d, j) = (c, k)
  · obtain ⟨rfl, rfl⟩ := h
    exact ⟨_, _, State.warp_modWarp hw⟩
  · exact ⟨w.flags, w.incs, (State.warp_modWarp_other s _ h).trans hw⟩

theorem keepsSeats_moveShoots (s : State) (old new : Nat × Nat) : KeepsSeats s (s.moveShoots old new) := keepsSeats_same rfl rfl rfl fun _ _ => rfl

theorem keepsSeats_takeNum (s : State) (c : Nat) : KeepsSeats s (s.takeNum c).2 :=
  keepsSeats_modCore (f := fun x => { x with next := x.next + 1 }) rfl

theorem requestGrant_warps (x : CoreSt) (now : Nat) : (x.requestGrant now).warps = x.warps := by
  unfold CoreSt.requestGrant
  split <;> rfl

/-! ## A block that is installed -/

/-- A saved block at its new place (R348). -/
def resumedBlock (v : SavedBlock) (p : Placement) : Block :=
  { v.block with core := p.core, base := p.base, warps := p.slots, bars := if v.restart then [] else v.block.bars, preempt := false, last := 0 }

/-- R346, R348: installing a saved block makes it and starts its warps again. -/
theorem installBlock_of (s : State) (c : Card) {v : SavedBlock} (hr : v.restart = false) (b : Nat) {p : Placement} (hn : p.slots.Nodup) :
    ∃ u, KeepsSeats u (s.installBlock c v b p) ∧ OnlyCores { s with blocks := FMap.set s.blocks b (resumedBlock v p) } u ∧
      ∀ (i : Nat) (q : Nat × Warp) (j : Nat), v.warps[i]? = some q → p.slots[i]? = some j → ∃ pos n,
        u.warp? p.core j = some ((resumeWarp c false s.cycle pos q.2).seated n) := by
  let s1 : State := { s.openCore b p.core c.split c.kernel with blocks := FMap.set s.blocks b (resumedBlock v p) }
  let s2 : State := if v.grant then s1.modCore p.core fun x => { x with streams := v.streams, accs := v.accs } else s1
  let xs := v.warps.zip p.slots
  let slot := fun q : (Nat × Warp) × Nat => q.2
  let f := fun (q : (Nat × Warp) × Nat) (now : Nat) (pos : Option Nat) => resumeWarp c v.restart now pos q.1.2
  have h1 : OnlyCores { s with blocks := FMap.set s.blocks b (resumedBlock v p) } s1 := ⟨_, rfl⟩
  have h2 : OnlyCores { s with blocks := FMap.set s.blocks b (resumedBlock v p) } s2 := by
    unfold s2
    split
    · exact onlyCores_trans h1 (onlyCores_modCore ..)
    · exact h1
  refine ⟨s2.seatAll p.core slot f xs, ?_, onlyCores_trans h2 (onlyCores_seatAll xs s2), fun i q j hq hj => ?_⟩
  · unfold State.installBlock
    refine keepsSeats_ite (keepsSeats_refl _) (foldl_keeps keepsSeats_refl KeepsSeats.trans (fun s o => ?_) v.xops _)
    have hgrant (s : State) : KeepsSeats s (if o.tile then s.modCore p.core fun x => x.requestGrant s.cycle else s) :=
      keepsSeats_ite (keepsSeats_modCore (requestGrant_warps ..)) (keepsSeats_refl s)
    exact ((((keepsSeats_takeNum ..).trans (hgrant _)).trans (keepsSeats_moveShoots ..)).trans (keepsSeats_incFlag ..)).trans (keepsSeats_modCore rfl)
  · have hmem : (q, j) ∈ xs := List.mem_of_getElem? (List.getElem?_zip_eq_some.2 ⟨hq, hj⟩)
    obtain ⟨pos, n, hw, -⟩ := seatAll_seated (c := p.core) (f := f) (hn.sublist (map_snd_zip_sublist ..)) hmem s2
    have hcycle : s2.cycle = s.cycle := by
      obtain ⟨_, h⟩ := h2
      rw [h]
    have hf : f (q, j) s2.cycle pos = resumeWarp c false s.cycle pos q.2 := by
      unfold f
      rw [hr, hcycle]
    exact ⟨pos, n, hw.trans (by rw [hf])⟩

/-! ## Resuming a gang -/

/-- The saved block of a gang of one block. -/
theorem savedInOrder_one {k : Task} {v : SavedBlock} (hk : k.saved = [v]) (hv : v.block.grank < 8) : k.savedInOrder = [v] := by
  have hone (g : Nat) : (k.saved.find? fun u => decide (u.block.grank = g)) = if v.block.grank = g then some v else none := by
    rw [hk]
    by_cases h : v.block.grank = g <;> simp [h]
  rw [Task.savedInOrder]
  simp only [hone]
  generalize v.block.grank = n at hv
  interval_cases n <;> rfl

/-- The identity that a saved warp goes by at its new place; any other keeps its own (R348). -/
def SavedBlock.move (v : SavedBlock) (p : Placement) (i : Nat) : Nat :=
  (((v.warps.zip p.slots).map fun q => (warpId v.formerCore q.1.1, warpId p.core q.2)).find? fun q => q.1 = i).elim i (·.2)

/-- A saved block under its new identity, its barriers and operations at the new place (R348). -/
def SavedBlock.renamed (v : SavedBlock) (b : Nat) (p : Placement) : SavedBlock :=
  { v with block := { v.block with bars := v.block.bars.map fun q => (q.1, moveBarrier (v.move p) q.2) }
           xops := v.xops.map fun o => { o with block := b, units := o.units.map fun u => { u with
             src := match u.src with
               | .sp _ off => .sp b off
               | l => l
             dst := match u.dst with
               | .sp _ off => .sp b off
               | l => l } }
           warps := v.warps.map fun q => (q.1, { q.2 with block := b }) }

/-- A gang's task that resumes as one block (R348). -/
def Task.resumed (t : Task) (b : Nat) (v : SavedBlock) (p : Placement) : Task :=
  { t with blocks := [b], saved := [], placed := true, cbars := t.cbars.map fun q => (q.1, moveBarrier (v.move p) q.2) }

/-- R346, R348: resuming a gang of one block installs it and notes it with its task. -/
theorem doBlockResume_one {s : State} {g : Nat} {k : Task} {card : Card} {v : SavedBlock} (hk : FMap.find s.tasks g = some k)
    (hc : s.card? k.card = some card) (hs : k.saved = [v]) (hv : v.block.grank < 8) (hr : v.restart = false) (p : Placement)
    (ht : (({ s with nextId := s.nextId + 1 } : State).installBlock card (v.renamed s.nextId p) s.nextId p).trace = none) :
    let u := ({ s with nextId := s.nextId + 1 } : State).installBlock card (v.renamed s.nextId p) s.nextId p
    doBlockResume g [p] s = { (u.modTask g fun t => t.resumed s.nextId v p).modCard card.id fun c => { c with aged := 0 } with
      reserved := u.reserved.filter fun p => p.2.1 ≠ g } := by
  have hbind : ((FMap.find s.tasks g).bind fun x => (s.card? x.card).map fun c => (x, c)) = some (k, card) := by rw [hk, Option.bind_some, hc]; rfl
  have hany : k.saved.any SavedBlock.restart = false := by rw [hs, List.any_cons, hr]; rfl
  intro u
  have hu : ({ (u.modTask g fun t => t.resumed s.nextId v p).modCard card.id fun c => { c with aged := 0 } with
    reserved := u.reserved.filter fun p => p.2.1 ≠ g } : State).trace = none := ht
  unfold doBlockResume
  rw [hbind]
  simp only [savedInOrder_one hs hv, hany, List.zip_cons_cons, List.zip_nil_left, List.foldl_cons, List.foldl_nil, List.nil_append,
    List.flatMap_singleton, Bool.false_eq_true, if_false]
  exact traceRec_off hu ..

/-- R331, R346: a warp that resumes at its stop point keeps its registers and its position, with its results in flight as its records hold them. -/
theorem resumeWarp_of (c : Card) (now : Nat) (pos : Option Nat) (w : Warp) : ∃ v, resumeWarp c false now pos w = v ∧ v.vregs = w.vregs ∧
    v.sregs = w.sregs ∧ v.vpred = w.vpred ∧ v.spred = w.spred ∧ v.mask = w.mask ∧ v.loops = w.loops ∧ v.pc = w.pc ∧ v.tick = w.tick ∧
    v.due = w.due ∧ v.flight = (w.records.map Landing.asRecord).filter Landing.lands ∧ v.hold = w.hold :=
  ⟨_, rfl, rfl, rfl, rfl, rfl, rfl, rfl, rfl, rfl, rfl, rfl, rfl⟩

theorem blockResume_of {g : Nat} {p : Placement} {s : State} {k : Task} {v : SavedBlock} (hk : FMap.find s.tasks g = some k) (hs : k.saved = [v])
    (hv : v.block.grank < 8) (hr : v.restart = false) (hcan : canBlockResume g [p] s = true) (ht : s.trace = none) :
    ∃ t b blk k', exec (.blockResume g [p]) s = .next t ∧ t.block? b = some blk ∧ blk.core = p.core ∧ blk.base = p.base ∧ blk.sp = v.block.sp ∧
      blk.size = v.block.size ∧ blk.warps = p.slots ∧ FMap.find t.tasks g = some k' ∧ k'.saved = [] ∧ k'.placed = true ∧ k'.blocks = [b] ∧
      ∀ (i : Nat) (q : Nat × Warp) (j : Nat), v.warps[i]? = some q → p.slots[i]? = some j → ∃ w', t.warp? p.core j = some w' ∧ w'.vregs = q.2.vregs ∧
        w'.sregs = q.2.sregs ∧ w'.vpred = q.2.vpred ∧ w'.spred = q.2.spred ∧ w'.mask = q.2.mask ∧ w'.loops = q.2.loops ∧ w'.pc = q.2.pc ∧
        w'.tick = q.2.tick ∧ w'.due = q.2.due ∧ w'.flight = (q.2.records.map Landing.asRecord).filter Landing.lands ∧ w'.hold = q.2.hold := by
  obtain ⟨card, hc, hn⟩ : ∃ card, s.card? k.card = some card ∧ p.slots.Nodup := by
    rw [canBlockResume, hk] at hcan
    cases hc : s.card? k.card with
    | none => simp [hc] at hcan
    | some card =>
      simp only [hc, savedInOrder_one hs hv, List.zip_cons_cons, List.zip_nil_left, List.all_cons, List.all_nil, Bool.and_eq_true, State.roomAt,
        slotsFree, decide_eq_true_eq] at hcan
      exact ⟨card, rfl, by tauto⟩
  obtain ⟨u, hkeep, ⟨cores, hu⟩, hwarps⟩ := installBlock_of { s with nextId := s.nextId + 1 } card (v := v.renamed s.nextId p) hr s.nextId hn
  have hut : u.trace = none := by rw [hu]; exact ht
  have hdo := doBlockResume_one hk hc hs hv hr p (hkeep.trace.trans hut)
  refine ⟨_, s.nextId, resumedBlock (v.renamed s.nextId p) p, k.resumed s.nextId v p, event_of hcan .., ?_, rfl, rfl, rfl, rfl, rfl, ?_, rfl, rfl, rfl,
    fun i q j hq hj => ?_⟩
  · rw [hdo, State.block?]
    refine (congrArg (FMap.find · s.nextId) hkeep.blocks).trans ?_
    rw [hu]
    exact FMap.find_set_self ..
  · rw [hdo]
    refine FMap.find_adjust_self (hkeep.tasks ▸ ?_) _
    rw [hu]
    exact hk
  · have hq' : (v.renamed s.nextId p).warps[i]? = some (q.1, { q.2 with block := s.nextId }) := by
      rw [SavedBlock.renamed, List.getElem?_map, hq]
      rfl
    obtain ⟨pos, n, hw⟩ := hwarps i _ j hq' hj
    obtain ⟨a, b, hw'⟩ := hkeep.warps _ _ _ hw
    obtain ⟨w', hres, hregs⟩ := resumeWarp_of card s.cycle pos { q.2 with block := s.nextId }
    refine ⟨{ w'.seated n with flags := a, incs := b }, ?_, hregs⟩
    rw [hdo, ← hres]
    exact hw'

/-- Settles O46: what each step of a gang does to its blocks, its task and its warps. -/
theorem gangSteps : Obligations.GangSteps := by
  refine ⟨fun card t b i r tsa now pos hu => launch_clauses card t b i r tsa now pos hu,
    fun g p s x card hx hc hcan ht => gangPlace_of hx hc hcan ht, fun k s hcan => taskComplete_of hcan,
    fun b s x k hx hk hkill hheld => ?preempt, fun b area s x card k hcan hx hc hk => blockContextSave_of hcan hx hc hk,
    fun g p s k v hk hs hv hr hcan ht => blockResume_of hk hs hv hr hcan ht, fun c i s a ha hdone => ?clear⟩
  case preempt =>
    refine ⟨_, preemptRequest_of hx hk hkill hheld, (foldl_keeps asksLeave_refl AsksLeave.trans asksLeave_askBlock k.blocks s).hbm, fun i hi y hy => ?_⟩
    obtain ⟨hblock, hwarps⟩ := askBlocks_asked hi hy
    exact ⟨_, hblock, rfl, rfl, fun j hj w hw =>
      ⟨_, hwarps j hj w hw, rfl, rfl, rfl, rfl, rfl, rfl, rfl, rfl, rfl, rfl, rfl, rfl, rfl, rfl, rfl, rfl, rfl, rfl⟩⟩
  case clear =>
    have hcan : canScratchClear c i s = true := by
      rw [canScratchClear, ha]
      exact decide_eq_true hdone
    exact event_of hcan ..

end Sys2Proof.Machine
end

