-- ==== Sys2Proof/Proofs/FieldCodes.lean ====
section
/-! PROOFS. The fields of a slot word and their codes: packing and unpacking undo each other, and so do each field's code and its reading
(R43 to R55, R90). -/

namespace Sys2Proof

/-! ## Packed fields -/

/-- The values of a list of fields fit their widths. -/
abbrev Fits : List Nat → List Nat → Prop := List.Forall₂ fun w v => v < 2 ^ w

theorem unpack_fits (ws : List Nat) (x : Nat) : Fits ws (unpack ws x) := by
  induction ws generalizing x with
  | nil => exact .nil
  | cons w ws ih => exact .cons (Nat.mod_lt _ (Nat.two_pow_pos w)) (ih _)

theorem pack_lt (ws vs : List Nat) : pack (ws.zip vs) < 2 ^ ws.sum := by
  induction ws generalizing vs with
  | nil => simp [pack]
  | cons w ws ih =>
    cases vs with
    | nil => simp [pack]
    | cons v vs =>
      have hv : v % 2 ^ w < 2 ^ w := Nat.mod_lt _ (Nat.two_pow_pos w)
      have hm : 2 ^ w * (pack (ws.zip vs) + 1) ≤ 2 ^ w * 2 ^ ws.sum := Nat.mul_le_mul_left _ (ih vs)
      simp only [List.zip_cons_cons, pack, List.sum_cons, Nat.pow_add]
      rw [Nat.mul_add] at hm
      omega

theorem unpack_pack {ws vs : List Nat} (h : Fits ws vs) : unpack ws (pack (ws.zip vs)) = vs := by
  induction h with
  | nil => rfl
  | @cons w v ws vs hv _ ih =>
    simp only [List.zip_cons_cons, pack, unpack, Nat.mod_eq_of_lt hv, Nat.add_mul_mod_self_left, Nat.add_mul_div_left _ _ (Nat.two_pow_pos w),
      Nat.div_eq_of_lt hv, Nat.zero_add, ih]

theorem pack_unpack {ws : List Nat} {x : Nat} (h : x < 2 ^ ws.sum) : pack (ws.zip (unpack ws x)) = x := by
  induction ws generalizing x with
  | nil => simpa [pack, eq_comm] using h
  | cons w ws ih =>
    have hx : x / 2 ^ w < 2 ^ ws.sum := by
      rwa [Nat.div_lt_iff_lt_mul (Nat.two_pow_pos w), Nat.mul_comm, ← Nat.pow_add, ← List.sum_cons]
    simp only [unpack, List.zip_cons_cons, pack, Nat.mod_mod, ih hx, Nat.mod_add_div]

/-- A word is the packing of its fields: reading fields that fit and writing them are one relation. -/
theorem unpack_eq_iff {ws vs : List Nat} {x : Nat} (hx : x < 2 ^ ws.sum) (hv : Fits ws vs) : unpack ws x = vs ↔ pack (ws.zip vs) = x :=
  ⟨fun h => h ▸ pack_unpack hx, fun h => h ▸ unpack_pack hv⟩

/-! ## Guards and rounding modes -/

theorem Guard.code_lt (g : Guard) : g.code < 16 := by
  have := g.idx.isLt
  unfold Guard.code
  split <;> omega

@[simp] theorem guardOf_code (g : Guard) : guardOf g.code = g := by
  obtain ⟨neg, idx⟩ := g
  revert neg idx
  decide

theorem code_guardOf {x : Nat} (h : x < 16) : (guardOf x).code = x := by
  revert x
  decide

theorem RM.code_lt (r : RM) : r.code < 4 := by cases r <;> decide

@[simp] theorem rmOf_code (r : RM) : rmOf r.code = r := by cases r <;> rfl

theorem code_rmOf {x : Nat} (h : x < 4) : (rmOf x).code = x := by
  revert x
  decide

/-! ## Types, sizes and scopes -/

theorem Ty.code_lt (t : Ty) : t.code < 16 := by cases t <;> decide

@[simp] theorem tyOfCode_code (t : Ty) : tyOfCode t.code = some t := by cases t <;> rfl

theorem code_tyOfCode {x : Nat} {t : Ty} (h : tyOfCode x = some t) : t.code = x := by
  unfold tyOfCode at h
  split at h <;> cases h <;> rfl

theorem Size.code_lt (z : Size) : z.code < 8 := by cases z <;> decide

@[simp] theorem sizeOf'_code (z : Size) : sizeOf' z.code = some z := by cases z <;> rfl

theorem code_sizeOf' {x : Nat} {z : Size} (h : sizeOf' x = some z) : z.code = x := by
  unfold sizeOf' at h
  split at h <;> cases h <;> rfl

theorem Scope.code_lt (z : Scope) : z.code < 8 := by cases z <;> decide

@[simp] theorem scopeOf_code (z : Scope) : scopeOf z.code = some z := by cases z <;> rfl

theorem code_scopeOf {x : Nat} {z : Scope} (h : scopeOf x = some z) : z.code = x := by
  unfold scopeOf at h
  split at h <;> cases h <;> rfl

/-! ## Operands -/

theorem Special.code_lt (x : Special) : x.code < 13 := by cases x <;> decide

@[simp] theorem specialOf_code (x : Special) : specialOf x.code = some x := by cases x <;> rfl

theorem code_specialOf {x : Nat} {y : Special} (h : specialOf x = some y) : y.code = x := by
  unfold specialOf at h
  split at h <;> cases h <;> rfl

theorem Src.code_lt (x : Src) : x.code < 256 := by
  cases x with
  | v r => exact Nat.lt_trans r.isLt (by decide)
  | s r => exact Nat.lt_trans (Nat.add_lt_add_left r.isLt 128) (by decide)
  | sp x => exact Nat.lt_trans (Nat.add_lt_add_left x.code_lt 192) (by decide)
  | p i => exact Nat.lt_trans i.isLt (by decide)

/-- R44: a register or special operand is read back from its code. -/
theorem srcOf_code_of_not_pred {u : FieldUse} (hu : u = .reg ∨ u = .scalar) {x : Src} (hx : ∀ i, x ≠ .p i) : srcOf u x.code = some x := by
  have hsrc : srcOf u x.code = srcOf .reg x.code := by rcases hu with rfl | rfl <;> rfl
  rw [hsrc]
  cases x with
  | v r => simp [srcOf, Src.code]
  | s r => simp [srcOf, Src.code, show 128 + r.val < 192 by omega]
  | sp x => simp [srcOf, Src.code, show 128 ≤ 192 + x.code by omega]
  | p i => exact (hx i rfl).elim

/-- R44, R121: a source that its form accepts is read back from its code. -/
theorem srcOf_code {u : FieldUse} {x : Src} (h : srcOk u x = true) : srcOf u x.code = some x := by
  cases u with
  | unused => simpa [srcOk, srcOf, eq_comm] using h
  | reg => exact srcOf_code_of_not_pred (.inl rfl) fun i hi => by simp [hi, srcOk] at h
  | scalar => exact srcOf_code_of_not_pred (.inr rfl) fun i hi => by simp [hi, srcOk] at h
  | pred => cases x <;> simp [srcOk, srcOf, Src.code] at h ⊢

/-- A source that its form leaves unused has code 0 (R42). -/
theorem srcOk_unused_code {x : Src} (h : srcOk .unused x = true) : x.code = 0 := by
  obtain rfl : x = .v 0 := by simpa [srcOk] using h
  rfl

/-- A source field is the code of what it is read as. -/
theorem code_srcOf {u : FieldUse} {x : Nat} {y : Src} (hu : u = .unused → x = 0) (h : srcOf u x = some y) : y.code = x := by
  have hreg (h : srcOf .reg x = some y) : y.code = x := by
    unfold srcOf at h
    dsimp only at h
    split at h
    · next hx => cases h; exact Nat.mod_eq_of_lt hx
    · split at h
      · cases h
        simp only [Src.code, Fin.ofNat]
        omega
      · obtain ⟨z, hz, rfl⟩ := Option.map_eq_some_iff.1 h
        have := code_specialOf hz
        simp only [Src.code]
        omega
  cases u with
  | unused => cases h; exact (hu rfl).symm
  | reg => exact hreg h
  | scalar => exact hreg h
  | pred =>
    unfold srcOf at h
    dsimp only at h
    split at h
    · next hx => cases h; exact Nat.mod_eq_of_lt hx
    · cases h

theorem Dst.code_lt (x : Dst) : x.code < 256 := by
  cases x with
  | v r => exact Nat.lt_trans r.isLt (by decide)
  | s r => exact Nat.lt_trans (Nat.add_lt_add_left r.isLt 128) (by decide)
  | p i => exact Nat.lt_trans i.isLt (by decide)

/-- R45: a destination that its form accepts is read back from its code. -/
theorem dstOf_code {u : FieldUse} {x : Dst} (h : dstOk u x = true) : dstOf u x.code = some x := by
  cases u <;> cases x <;> simp [dstOk] at h
  case reg.v r => simp [dstOf, Dst.code]
  case scalar.s r => simp [dstOf, Dst.code, show 128 + r.val < 192 by omega]
  case pred.p i => simp [dstOf, Dst.code]

/-- A destination field is the code of what it is read as. -/
theorem code_dstOf {u : FieldUse} {x : Nat} {y : Dst} (h : dstOf u x = some y) : y.code = x := by
  unfold dstOf at h
  split at h <;> split at h <;> cases h <;> simp only [Dst.code, Fin.ofNat] <;> omega

end Sys2Proof
end

