-- ==== Sys2Proof/Proofs/OpcodeMaps.lean ====
section
/-! PROOFS. The opcode maps: an instruction and its key name each other, and no two formats of a slot share an opcode (R56 to R59). -/

namespace Sys2Proof

/-! ## Keys and instructions -/

/-- The instruction of a slot format, key and fields, if there is one. -/
def instrOf : SlotOp → Option Instr
  | .v key o => mkV key o
  | .m key o => mkM key o
  | .xt key o => mkXT key o
  | .xc key o => mkXC key o
  | .cb key o => mkCB key o
  | .cs key o => mkCS key o
  | .cw o => some (.wait o)
  | .event => none

/-- Every slot instruction is that of its format, key and fields. -/
theorem instrOf_slotOp (i : Instr) : instrOf (slotOp i) = match slotOp i with
    | .event => none
    | _ => some i := by
  cases i <;> rfl

/-- When every row of a table has its key, the instruction that is found by a key has that key. -/
theorem slotOp_of_find {α : Type} {rows : List (Nat × (α → Instr))} {key : Nat} {o : α} {i : Instr} {mk : Nat → α → SlotOp}
    (hrows : rows.map (fun r => slotOp (r.2 o)) = rows.map fun r => mk r.1 o)
    (h : ((rows.find? fun r => r.1 == key).map fun r => r.2 o) = some i) : slotOp i = mk key o := by
  obtain ⟨r, hr, rfl⟩ := Option.map_eq_some_iff.1 h
  obtain rfl : r.1 = key := by simpa using List.find?_some hr
  exact List.map_inj_left.1 hrows r (List.mem_of_find?_eq_some hr)

/-- R56 to R59: an instruction, and its format, key and fields, name each other. -/
theorem instrOf_eq_some_iff {op : SlotOp} {i : Instr} (hop : op ≠ .event) : instrOf op = some i ↔ slotOp i = op := by
  constructor
  · intro h
    cases op with
    | v key o => exact slotOp_of_find (rows := mkVTable) rfl h
    | m key o => exact slotOp_of_find (rows := mkMTable) rfl h
    | xt key o => exact slotOp_of_find (rows := mkXTTable) rfl h
    | xc key o => exact slotOp_of_find (rows := mkXCTable) rfl h
    | cb key o => exact slotOp_of_find (rows := mkCBTable) rfl h
    | cs key o => exact slotOp_of_find (rows := mkCSTable) rfl h
    | cw o => cases h; rfl
    | event => cases h
  · rintro rfl
    rw [instrOf_slotOp]
    split
    · next h => exact (hop h).elim
    · rfl

/-! ## The forms of a key -/

/-- What holds of every row of a table of forms holds of the form of a key. -/
theorem form_of_forall {α : Type} {rows : List (List Nat × α)} {P : Nat → α → Prop} (hall : ∀ r ∈ rows, ∀ key ∈ r.1, P key r.2) {key : Nat} {f : α}
    (h : ((rows.find? fun r => r.1.contains key).map (·.2)) = some f) : P key f := by
  obtain ⟨r, hr, rfl⟩ := Option.map_eq_some_iff.1 h
  exact hall r (List.mem_of_find?_eq_some hr) key (by simpa using List.find?_some hr)

/-- The keys of format V are opcodes of 8 bits, but that of `vmovi.hi`, which shares its opcode with `vmovi` and differs in SUB (R121). -/
theorem vForm_key {key : Nat} {f : VForm} (h : vForm key = some f) :
    (key < 256 ∧ key ≠ 0x16) ∨ (key = 0x16 ∧ f.subs = [0]) ∨ (key = 0x116 ∧ f.subs = [1]) :=
  form_of_forall (P := fun key f => (key < 256 ∧ key ≠ 0x16) ∨ (key = 0x16 ∧ f.subs = [0]) ∨ (key = 0x116 ∧ f.subs = [1])) (by decide) h

/-- `vpack` and `vunpack` use SUB (R130, R131). -/
theorem vForm_subs {key : Nat} {f : VForm} (h : vForm key = some f) (hk : key = 0x51 ∨ key = 0x52) : f.subs ≠ [] :=
  form_of_forall (P := fun key f => key = 0x51 ∨ key = 0x52 → f.subs ≠ []) (by decide) h hk

theorem mForm_key_lt {key : Nat} {f : MForm} (h : mForm key = some f) : key < 256 :=
  form_of_forall (P := fun key _ => key < 256) (by decide) h

theorem xtForm_key_lt {key : Nat} {f : XTForm} (h : xtForm key = some f) : key < 256 :=
  form_of_forall (P := fun key _ => key < 256) (by decide) h

/-- An opcode of format XC is none of format XT (R58). -/
theorem xcForm_key {key : Nat} {f : XCForm} (h : xcForm key = some f) : key < 256 ∧ xtForm key = none :=
  form_of_forall (P := fun key _ => key < 256 ∧ xtForm key = none) (by decide) h

/-- An opcode of format CB is not that of `wait` (R59). -/
theorem cbForm_key {key : Nat} {f : CBForm} (h : cbForm key = some f) : key < 256 ∧ key ≠ 0x32 :=
  form_of_forall (P := fun key _ => key < 256 ∧ key ≠ 0x32) (by decide) h

/-- The keys of format CS are opcodes of 8 bits, but that of `icinv.d`, which shares its opcode with `icinv` and differs in SUB (R213). -/
theorem csForm_key {key : Nat} {f : CSForm} (h : csForm key = some f) :
    (key < 256 ∧ key ≠ 0x77) ∨ (key = 0x77 ∧ f.subs = [1]) ∨ (key = 0x177 ∧ f.subs = [3]) :=
  form_of_forall (P := fun key f => (key < 256 ∧ key ≠ 0x77) ∨ (key = 0x77 ∧ f.subs = [1]) ∨ (key = 0x177 ∧ f.subs = [3])) (by decide) h

/-- An opcode of format CS is none of format CB, nor that of `wait` (R59). -/
theorem csForm_opcode {key : Nat} {f : CSForm} (h : csForm key = some f) : key % 256 ≠ 0x32 ∧ cbForm (key % 256) = none :=
  form_of_forall (P := fun key _ => key % 256 ≠ 0x32 ∧ cbForm (key % 256) = none) (by decide) h

end Sys2Proof
end

