-- ==== Sys2Proof/Proofs/SlotWords.lean ====
section
/-! PROOFS. A slot word decodes to an instruction exactly when it holds the fields of that instruction: the fields of every slot format, and
this for the V and the M slot (R43, R48). -/

namespace Sys2Proof

/-! ## The fields of an instruction -/

/-- The code of INDEX (R48). -/
def indexCode : Option (Fin 128) → Nat
  | none => 255
  | some r => r.val

/-- The values of the fields of a slot instruction, lowest first, in the layout of its format. -/
def fieldValues : SlotOp → List Nat
  | .v key o => [key % 256, o.guard.code, o.dst.code, o.a.code, (match o.imm with | none => o.b.code | some i => i.toNat % 256),
      (match o.imm with | none => o.c.code | some i => i.toNat / 256), o.ty.code, o.rm.code, if o.sat then 1 else 0,
      if o.imm.isSome then 1 else 0, o.sub.val, 0]
  | .m key o => [key, o.guard.code, o.data.code, o.base.val, indexCode o.index, o.off.toNat, o.size.code,
      o.scope.code, (match o.flag with | none => 0 | some f => f.val), if o.flag.isSome then 1 else 0, 0]
  | .xt key o => [key, o.flag.val, o.acc.val, o.sa.val, o.sb.val, o.kst.val, o.msz.val, o.nsz.val, 0]
  | .xc key o => [key, o.flag.val, o.dstb.val, o.srcb.val, o.ll.toNat, o.arw.val, o.scope.code, o.gt.toNat, 0]
  | .cb key o => [key, o.guard.code, o.off.toNat, o.var.code, o.sreg.val, 0]
  | .cs key o => [key % 256, o.guard.code, o.d.val, o.a.val, (match o.imm with | none => o.b.val | some i => i.toNat),
      if o.imm.isSome then 1 else 0, o.sub.val, 0]
  | .cw o => [0x32, o.mask.toNat, o.codes.toNat, o.e.toNat]
  | .event => []

/-- The widths of the fields of a slot format, lowest first. -/
def fieldWidths : SlotOp → List Nat
  | .v .. => vWidths
  | .m .. => mWidths
  | .xt .. => xtWidths
  | .xc .. => xcWidths
  | .cb .. => cbWidths
  | .cs .. => csWidths
  | .cw .. => cwWidths
  | .event => []

theorem encode_eq_pack (i : Instr) : encode i = pack ((fieldWidths (slotOp i)).zip (fieldValues (slotOp i))) := by
  unfold encode
  cases slotOp i with
  | v key o => cases h : o.imm <;> simp [fieldWidths, fieldValues, vWidths, h]
  | _ => rfl

/-- The word `x` holds the fields of `op`. -/
def HoldsFields (x : Nat) (op : SlotOp) : Prop := unpack (fieldWidths op) x = fieldValues op

theorem accept_eq_ok_iff {good : Bool} {j : Option Instr} {i : Instr} : accept good j = .ok i ↔ good = true ∧ j = some i := by
  cases good <;> cases j <;> simp [accept]

/-- A field that is in range is read as its number. -/
theorem val_ofNat {n x : Nat} [NeZero n] (h : x < n) : (Fin.ofNat n x).val = x := Nat.mod_eq_of_lt h

/-- A one-bit field is read back. -/
@[simp] theorem decide_bit_eq_one (b : Bool) : decide ((if b = true then 1 else 0) = 1) = b := by cases b <;> rfl

/-- A one-bit field is the code of what it is read as. -/
theorem bit_decide_eq_one {x : Nat} (h : x < 2) : (if decide (x = 1) = true then 1 else 0) = x := by
  revert x
  decide

theorem Ty.code_eq_zero_iff {t : Ty} : t.code = 0 ↔ t = .i32 := by cases t <;> simp [Ty.code]

theorem Ty.code_eq_two_iff {t : Ty} : t.code = 2 ↔ t = .f32 := by cases t <;> simp [Ty.code]

/-! ## The V slot -/

/-- R110: what the form of a V-slot operation demands of its fields. -/
structure VFieldsOk (key : Nat) (f : VForm) (o : VOp) : Prop where
  dst : dstOk f.dst o.dst = true
  a : srcOk f.a o.a = true
  imm : ∀ i, o.imm = some i → o.b = .v 0 ∧ o.c = .v 0
  noImm : o.imm = none → srcOk f.b o.b = true ∧ srcOk (vUseC key f o.ty) o.c = true
  types : f.types = [] → o.ty = .i32
  rm : f.rm = false ∨ (key = 0x70 ∧ o.ty = .i32) → o.rm = .rne
  sat : f.sat = false ∨ (key = 0x70 ∧ o.ty = .f32) → o.sat = false
  sub : vSubOk key f o = true

theorem vFieldsOk_of_wf {key : Nat} {o : VOp} (h : vWf key o = true) : ∃ f, vForm key = some f ∧ VFieldsOk key f o := by
  unfold vWf at h
  split at h
  · cases h
  · next f hf =>
    simp only [Bool.and_eq_true] at h
    obtain ⟨⟨⟨⟨⟨⟨⟨hd, ha⟩, hbc⟩, hty⟩, hrm⟩, hsat⟩, -⟩, hsub⟩ := h
    refine ⟨f, hf, hd, ha, fun i hi => ?_, fun hi => ?_, fun ht => ?_, fun hr => ?_, fun hs => ?_, hsub⟩
    · simpa [hi] using hbc
    · simpa [hi] using hbc
    · simpa [ht] using hty
    · rcases hr with hr | ⟨hk, ht⟩
      · simpa [hr] using hrm
      · simpa [hk, ht] using hrm
    · rcases hs with hs | ⟨hk, ht⟩
      · simpa [hs] using hsat
      · simpa [hk, ht] using hsat

/-- R121: the opcode and SUB of a well-formed operation give its key. -/
theorem vKey_of_ok {key : Nat} {f : VForm} {o : VOp} (hf : vForm key = some f) (h : VFieldsOk key f o) : vKey (key % 256) o.sub.val = key := by
  have hsub := h.sub
  rcases vForm_key hf with ⟨hlt, hne⟩ | ⟨rfl, hs⟩ | ⟨rfl, hs⟩
  · rw [Nat.mod_eq_of_lt hlt, vKey, if_neg fun hk => hne hk.1]
  · have h0 : o.sub.val = 0 := by simpa [vSubOk, hs] using hsub
    simp [vKey, h0]
  · have h1 : o.sub.val = 1 := by simpa [vSubOk, hs] using hsub
    simp [vKey, h1]

/-- R42: SUB is 0 where the form does not use it. -/
theorem sub_eq_zero_of_ok {key : Nat} {f : VForm} {o : VOp} (hf : vForm key = some f) (h : VFieldsOk key f o) (hs : f.subs = []) : o.sub.val = 0 := by
  have hk : key ≠ 0x51 ∧ key ≠ 0x52 := ⟨fun hk => vForm_subs hf (.inl hk) hs, fun hk => vForm_subs hf (.inr hk) hs⟩
  have := h.sub
  simpa [vSubOk, hk.1, hk.2, hs] using this

/-- R40, R42: the reserved bits and unused fields of a well-formed V-slot operation are 0. -/
theorem not_reserved_v {key : Nat} {f : VForm} {o : VOp} (hf : vForm key = some f) (h : VFieldsOk key f o) :
    (f.a = .unused → o.a.code = 0) ∧
    (o.imm = none → (f.b = .unused → o.b.code = 0) ∧ (vUseC key f o.ty = .unused → o.c.code = 0)) ∧
    (f.types = [] → o.ty.code = 0) ∧ ((!f.rm || (key = 0x70 && o.ty.code = 0)) = true → o.rm.code = 0) ∧
    ((!f.sat || (key = 0x70 && o.ty.code = 2)) = true → o.sat = false) ∧ (f.subs = [] → o.sub.val = 0) := by
  refine ⟨fun hu => srcOk_unused_code (hu ▸ h.a), fun hi => ?_, fun ht => by rw [h.types ht]; rfl, fun hr => ?_, fun hs => h.sat ?_,
    sub_eq_zero_of_ok hf h⟩
  · obtain ⟨hb, hc⟩ := h.noImm hi
    exact ⟨fun hu => srcOk_unused_code (hu ▸ hb), fun hu => srcOk_unused_code (hu ▸ hc)⟩
  · have : o.rm = .rne := h.rm (by simpa [Ty.code_eq_zero_iff] using hr)
    rw [this]
    rfl
  · simpa [Ty.code_eq_two_iff] using hs

/-- R43: a word that holds the fields of a well-formed V-slot operation decodes to it. -/
theorem decodeV_of_fields {x key : Nat} {o : VOp} {i : Instr} (hop : slotOp i = .v key o) (hwf : vWf key o = true)
    (hx : HoldsFields x (.v key o)) : decodeV x = .ok i := by
  obtain ⟨f, hf, hok⟩ := vFieldsOk_of_wf hwf
  have hmk : mkV key o = some i := (instrOf_eq_some_iff (op := .v key o) (by simp)).2 hop
  have hkey := vKey_of_ok hf hok
  obtain ⟨ha, hbc, hty, hrm, hsat, hsub⟩ := not_reserved_v hf hok
  unfold decodeV
  rw [show unpack vWidths x = _ from hx]
  simp only [fieldValues, hkey, hf, tyOfCode_code, dstOf_code hok.dst, srcOf_code hok.a, rmOf_code, guardOf_code, Fin.ofNat_val_eq_self]
  rw [if_neg]
  · obtain ⟨g, d, a, b, c, imm, ty, rm, sat, sub⟩ := o
    cases imm with
    | none =>
      obtain ⟨hb, hc⟩ := hok.noImm rfl
      simp [srcOf_code hb, srcOf_code hc, accept_eq_ok_iff, hwf, hmk]
    | some n =>
      obtain ⟨rfl, rfl⟩ := hok.imm n rfl
      simp [accept_eq_ok_iff, hwf, hmk, Nat.mod_add_div]
  · simp only [not_or, not_and, not_not, ne_eq]
    refine ⟨trivial, ha, fun hi => ?_, hty, hrm, fun hs => by rw [hsat hs]; rfl, hsub⟩
    cases him : o.imm with
    | none => exact hbc him
    | some n => simp [him] at hi

/-- The opcode of a key. -/
theorem vKey_mod {opc : Nat} (h : opc < 256) (sub : Nat) : vKey opc sub % 256 = opc := by
  unfold vKey
  split
  · next hk => rw [hk.1]
  · exact Nat.mod_eq_of_lt h

/-- R43: a word that decodes to a V-slot operation holds its fields, which are well formed. -/
theorem fields_of_decodeV {x : Nat} {i : Instr} (h : decodeV x = .ok i) :
    ∃ key o, slotOp i = .v key o ∧ vWf key o = true ∧ HoldsFields x (.v key o) := by
  have hfit := unpack_fits vWidths x
  unfold decodeV at h
  split at h
  case h_2 => cases h
  case h_1 opc g d a b c ty rm sat im sub res hx =>
  rw [hx] at hfit
  simp only [vWidths, List.forall₂_cons, List.Forall₂.nil, and_true, Nat.reducePow] at hfit
  obtain ⟨hopc, hg, hd, ha, hb, hc, -, hrm, hsat, him, hsub, -⟩ := hfit
  dsimp only at h
  cases hf : vForm (vKey opc sub) with
  | none => simp [hf] at h
  | some f =>
  cases ht : tyOfCode ty with
  | none =>
    simp only [hf, ht] at h
    split at h <;> cases h
  | some t =>
  simp only [hf, ht] at h
  split at h
  · cases h
  next hr =>
  split at h
  case h_2 => cases h
  case h_1 t' d' a' b' c' ht' hd' ha' hb' hc' =>
  simp only [not_or, not_and, not_not] at hr
  obtain ⟨rfl, ha0, hbc0, -⟩ := hr
  cases ht'
  obtain ⟨hwf, hmk⟩ := accept_eq_ok_iff.1 h
  refine ⟨_, _, (instrOf_eq_some_iff (op := .v _ _) (by simp)).1 hmk, hwf, ?_⟩
  simp only [HoldsFields, fieldWidths, fieldValues, hx, vKey_mod hopc, code_guardOf hg, code_dstOf hd', code_srcOf ha0 ha', code_tyOfCode ht,
    code_rmOf hrm, bit_decide_eq_one hsat, val_ofNat hsub]
  obtain rfl | rfl : im = 0 ∨ im = 1 := by omega
  · obtain ⟨hb0, hc0⟩ := hbc0 rfl
    simp [code_srcOf hb0 hb', code_srcOf hc0 hc']
  · have hbc : (b + 256 * c) % 65536 = b + 256 * c := Nat.mod_eq_of_lt (by omega)
    simp [hbc]
    omega

/-! ## The M slot -/

/-- R138: what the form of an M-slot operation demands of its fields. -/
structure MFieldsOk (f : MForm) (o : MOp) : Prop where
  sizes : f.sizes = [] → o.size = .b8
  data : dataOk f o = true
  addr : addrOk f o = true
  scope : f.scope = false → o.scope = .w
  fe : f.fe = .no → o.flag = none
  guard : f.guard = false → o.guard = guard0

theorem mFieldsOk_of_wf {key : Nat} {o : MOp} (h : mWf key o = true) : ∃ f, mForm key = some f ∧ MFieldsOk f o := by
  unfold mWf at h
  split at h
  · cases h
  · next f hf =>
    simp only [Bool.and_eq_true] at h
    obtain ⟨⟨⟨⟨⟨hsz, hd⟩, ha⟩, hsc⟩, hfe⟩, hg⟩ := h
    exact ⟨f, hf, fun hs => by simpa [hs] using hsz, hd, ha, fun hs => by simpa [hs] using hsc, fun hn => by simpa [hn] using hfe,
      fun hn => by simpa [hn] using hg⟩

/-- R140: DATA is a source code of R44, or is not used. -/
theorem srcOk_of_dataOk {f : MForm} {o : MOp} (h : dataOk f o = true) : srcOk (if f.data = .none then .unused else .reg) o.data = true := by
  by_cases hn : f.data = .none
  · simpa [dataOk, hn, srcOk] using h
  · rw [if_neg hn]
    cases hd : o.data with
    | p j =>
      unfold dataOk at h
      cases hf : f.data <;> simp [hf, hd] at h hn
    | _ => rfl

/-- R138: the address fields that the form leaves unused are 0. -/
theorem addr_unused {f : MForm} {o : MOp} (h : addrOk f o = true) :
    (f.addr = .none ∨ f.addr = .offOnly → o.base = 0) ∧ (f.addr = .none ∨ f.addr = .offOnly ∨ f.addr = .baseOff → o.index = some 0) ∧
    (f.addr = .none → o.off = 0) := by
  unfold addrOk at h
  cases hf : f.addr with
  | none => simpa [hf, and_assoc] using h
  | full => simp
  | offOnly =>
    simp only [hf, Bool.and_eq_true, decide_eq_true_eq] at h
    simpa using h.1
  | baseOff => simpa [hf] using h
  | fixedIndex => simp

/-- R48: a word that holds the fields of a well-formed M-slot operation decodes to it. -/
theorem decodeM_of_fields {x key : Nat} {o : MOp} {i : Instr} (hop : slotOp i = .m key o) (hwf : mWf key o = true)
    (hx : HoldsFields x (.m key o)) : decodeM x = .ok i := by
  obtain ⟨f, hf, hok⟩ := mFieldsOk_of_wf hwf
  have hmk : mkM key o = some i := (instrOf_eq_some_iff (op := .m key o) (by simp)).2 hop
  have hdata := srcOk_of_dataOk hok.data
  obtain ⟨hbase, hindex, hoff⟩ := addr_unused hok.addr
  unfold decodeM
  rw [show unpack mWidths x = _ from hx]
  simp only [fieldValues, hf, srcOf_code hdata, sizeOf'_code, scopeOf_code, guardOf_code, Fin.ofNat_val_eq_self, BitVec.ofNat_toNat, BitVec.setWidth_eq]
  rw [if_neg]
  · obtain ⟨g, d, base, index, off, sz, sc, fl⟩ := o
    have hne (r : Fin 128) : r.val ≠ 255 := by omega
    cases index <;> cases fl <;> simp [indexCode, accept_eq_ok_iff, hwf, hmk, hne]
  · simp only [not_or, not_and, not_not, ne_eq]
    refine ⟨trivial, fun hn => srcOk_unused_code (by simpa [hn] using hdata), fun hn => by rw [hbase hn]; rfl, fun hn => by rw [hindex hn]; rfl,
      fun hn => by rw [hoff hn]; rfl, fun hn => by rw [hok.sizes hn]; rfl, fun hn => by rw [hok.scope hn]; rfl,
      fun hn => by rw [hok.fe hn]; rfl, fun hn => ?_, fun hn => by rw [hok.guard hn]; rfl⟩
    cases hfl : o.flag with
    | none => rfl
    | some n => simp [hfl] at hn

/-- R48: a word that decodes to a M-slot operation holds its fields, which are well formed. -/
theorem fields_of_decodeM {x : Nat} {i : Instr} (h : decodeM x = .ok i) :
    ∃ key o, slotOp i = .m key o ∧ mWf key o = true ∧ HoldsFields x (.m key o) := by
  have hfit := unpack_fits mWidths x
  unfold decodeM at h
  split at h
  case h_2 => cases h
  case h_1 opc g d base ix off sz sc fl fe res hx =>
  rw [hx] at hfit
  simp only [mWidths, List.forall₂_cons, List.Forall₂.nil, and_true, Nat.reducePow] at hfit
  obtain ⟨-, hg, hd, hbase, hix, hoff, -, -, hfl, hfe, -⟩ := hfit
  split at h
  · cases h
  next f hf =>
  split at h
  · cases h
  next hr =>
  split at h
  case h_2 => cases h
  case h_1 d' z sc' ix' hd' hz hsc hix' =>
  simp only [not_or, not_and, not_not] at hr
  obtain ⟨rfl, hd0, -, -, -, -, -, -, hfl0, -⟩ := hr
  obtain ⟨hwf, hmk⟩ := accept_eq_ok_iff.1 h
  refine ⟨_, _, (instrOf_eq_some_iff (op := .m _ _) (by simp)).1 hmk, hwf, ?_⟩
  have hdu : (if f.data = .none then FieldUse.unused else .reg) = .unused → d = 0 := fun hu => hd0 (by simpa using hu)
  simp only [HoldsFields, fieldWidths, fieldValues, hx, code_guardOf hg, code_srcOf hdu hd', code_sizeOf' hz, code_scopeOf hsc, val_ofNat hbase,
    BitVec.toNat_ofNat, Nat.reducePow, Nat.mod_eq_of_lt hoff]
  have hindex : indexCode ix' = ix := by
    split at hix'
    · next h255 =>
      cases hix'
      exact h255.symm
    · split at hix'
      · next hlt =>
        cases hix'
        exact val_ofNat hlt
      · cases hix'
  rw [hindex]
  obtain rfl | rfl : fe = 0 ∨ fe = 1 := by omega
  · simp [hfl0 rfl]
  · simp [Nat.mod_eq_of_lt hfl]

end Sys2Proof
end

