-- ==== Sys2Proof/Proofs/EngineAndControlWords.lean ====
section
/-! PROOFS. A word of the X or the C slot decodes to an instruction exactly when it holds the fields of that instruction (R50, R51, R53 to R55). -/

namespace Sys2Proof

/-! ## The X slot -/

/-- R50: a word that holds the fields of a well-formed XT operation decodes to it. -/
theorem decodeXT_of_fields {x key : Nat} {o : XTOp} {i : Instr} (hop : slotOp i = .xt key o) (hwf : xtWf key o = true)
    (hx : HoldsFields x (.xt key o)) : decodeXT x = .ok i := by
  have hmk : mkXT key o = some i := (instrOf_eq_some_iff (op := .xt key o) (by simp)).2 hop
  have hok := hwf
  unfold xtWf at hok
  split at hok
  · cases hok
  next f hf =>
  simp only [Bool.and_eq_true, Bool.or_eq_true, decide_eq_true_eq] at hok
  obtain ⟨⟨⟨⟨hacc, hsa⟩, hsb⟩, hkst⟩, hshape⟩ := hok
  unfold decodeXT
  rw [show unpack xtWidths x = _ from hx]
  simp only [fieldValues, hf, Fin.ofNat_val_eq_self]
  rw [if_neg, if_neg]
  · exact accept_eq_ok_iff.2 ⟨hwf, hmk⟩
  · omega
  · simp only [not_or, not_and, not_not, ne_eq]
    refine ⟨trivial, fun hn => ?_, fun hn => ?_, fun hn => ?_, fun hn => ?_, fun hn => ?_⟩
    · simp [hacc.resolve_left (by simp [hn])]
    · simp [hsa.resolve_left (by simp [hn])]
    · simp [hsb.resolve_left (by simp [hn])]
    · simp [hkst.resolve_left (by simp [hn])]
    · simp [hshape.resolve_left (by simp [hn])]

/-- R50: a word that decodes to an XT operation holds its fields, which are well formed. -/
theorem fields_of_decodeXT {x : Nat} {i : Instr} (h : decodeXT x = .ok i) :
    ∃ key o, slotOp i = .xt key o ∧ xtWf key o = true ∧ HoldsFields x (.xt key o) := by
  have hfit := unpack_fits xtWidths x
  unfold decodeXT at h
  split at h
  case h_2 => cases h
  case h_1 opc fl acc sa sb kst msz nsz res hx =>
  rw [hx] at hfit
  simp only [xtWidths, List.forall₂_cons, List.Forall₂.nil, and_true, Nat.reducePow] at hfit
  obtain ⟨-, hfl, hacc, hsa, hsb, hkst, hmsz, hnsz, -⟩ := hfit
  split at h
  · cases h
  split at h
  · cases h
  next hr =>
  split at h
  · cases h
  next hsz =>
  obtain ⟨hwf, hmk⟩ := accept_eq_ok_iff.1 h
  obtain rfl : res = 0 := by tauto
  refine ⟨_, _, (instrOf_eq_some_iff (op := .xt _ _) (by simp)).1 hmk, hwf, ?_⟩
  simp only [HoldsFields, fieldWidths, fieldValues, hx, val_ofNat hfl, val_ofNat hacc, val_ofNat hsa, val_ofNat hsb, val_ofNat hkst,
    val_ofNat (show msz < 3 by omega), val_ofNat (show nsz < 3 by omega)]

/-- R51: a word that holds the fields of a well-formed XC operation decodes to it. -/
theorem decodeXC_of_fields {x key : Nat} {o : XCOp} {i : Instr} (hop : slotOp i = .xc key o) (hwf : xcWf key o = true)
    (hx : HoldsFields x (.xc key o)) : decodeXC x = .ok i := by
  have hmk : mkXC key o = some i := (instrOf_eq_some_iff (op := .xc key o) (by simp)).2 hop
  have hok := hwf
  unfold xcWf at hok
  split at hok
  · cases hok
  next f hf =>
  simp only [Bool.and_eq_true, Bool.or_eq_true, decide_eq_true_eq] at hok
  obtain ⟨⟨⟨⟨⟨hdstb, hsrcb⟩, -⟩, harw⟩, hsc⟩, hgt⟩ := hok
  unfold decodeXC
  rw [show unpack xcWidths x = _ from hx]
  simp only [fieldValues, hf, Fin.ofNat_val_eq_self, scopeOf_code, BitVec.ofNat_toNat, BitVec.setWidth_eq]
  rw [if_neg]
  · exact accept_eq_ok_iff.2 ⟨hwf, hmk⟩
  · simp only [not_or, not_and, not_not, ne_eq]
    refine ⟨trivial, fun hn => ?_, fun hn => ?_, fun hn => ?_, fun hn => ?_, fun hn => ?_⟩
    · simp [hdstb.resolve_left (by simp [hn])]
    · have hu : srcbUsed f o = false := hn
      simp [hsrcb.resolve_left (by simp [hu])]
    · simp [harw.resolve_left (by simp [hn])]
    · rw [if_pos hn, decide_eq_true_eq] at hsc
      rw [hsc]
      rfl
    · have hzero : o.gt = 0 := by simpa [hn, gtOk] using hgt
      rw [hzero]
      rfl

/-- R51: a word that decodes to an XC operation holds its fields, which are well formed. -/
theorem fields_of_decodeXC {x : Nat} {i : Instr} (h : decodeXC x = .ok i) :
    ∃ key o, slotOp i = .xc key o ∧ xcWf key o = true ∧ HoldsFields x (.xc key o) := by
  have hfit := unpack_fits xcWidths x
  unfold decodeXC at h
  split at h
  case h_2 => cases h
  case h_1 opc fl db sb ll arw sc gt res hx =>
  rw [hx] at hfit
  simp only [xcWidths, List.forall₂_cons, List.Forall₂.nil, and_true, Nat.reducePow] at hfit
  obtain ⟨-, hfl, hdb, hsb, hll, harw, -, hgt, -⟩ := hfit
  split at h
  · cases h
  next f hf =>
  dsimp only at h
  cases hz : scopeOf sc with
  | none =>
    rw [hz] at h
    split at h <;> cases h
  | some z =>
  rw [hz] at h
  split at h
  · cases h
  next hr =>
  obtain ⟨hwf, hmk⟩ := accept_eq_ok_iff.1 h
  obtain rfl : res = 0 := by tauto
  refine ⟨_, _, (instrOf_eq_some_iff (op := .xc _ _) (by simp)).1 hmk, hwf, ?_⟩
  simp only [HoldsFields, fieldWidths, fieldValues, hx, val_ofNat hfl, val_ofNat hdb, val_ofNat hsb, val_ofNat harw, BitVec.toNat_ofNat,
    Nat.reducePow, Nat.mod_eq_of_lt hll, Nat.mod_eq_of_lt hgt, code_scopeOf hz]

/-! ## The C slot -/

/-- R53: a word that holds the fields of a well-formed CB operation decodes to it. -/
theorem decodeCB_of_fields {x key : Nat} {o : CBOp} {i : Instr} (hop : slotOp i = .cb key o) (hwf : cbWf key o = true)
    (hx : HoldsFields x (.cb key o)) : decodeCB x = .ok i := by
  have hmk : mkCB key o = some i := (instrOf_eq_some_iff (op := .cb key o) (by simp)).2 hop
  have hok := hwf
  unfold cbWf at hok
  split at hok
  · cases hok
  next f hf =>
  simp only [Bool.and_eq_true, Bool.or_eq_true, decide_eq_true_eq] at hok
  obtain ⟨⟨⟨⟨-, hoff⟩, -⟩, hvar⟩, hsreg⟩ := hok
  unfold decodeCB
  rw [show unpack cbWidths x = _ from hx]
  simp only [fieldValues, hf, Fin.ofNat_val_eq_self, guardOf_code, BitVec.ofNat_toNat, BitVec.setWidth_eq]
  rw [if_neg]
  · exact accept_eq_ok_iff.2 ⟨hwf, hmk⟩
  · simp only [not_or, not_and, not_not, ne_eq]
    refine ⟨trivial, fun hn => ?_, fun hn => ?_, fun hn => ?_⟩
    · simp [hoff.resolve_left (by simp [hn])]
    · rw [hvar.resolve_left (by simp [hn])]
      rfl
    · simp [hsreg.resolve_left (by simp [hn])]

/-- R53: a word that decodes to a CB operation holds its fields, which are well formed. -/
theorem fields_of_decodeCB {x : Nat} {i : Instr} (h : decodeCB x = .ok i) :
    ∃ key o, slotOp i = .cb key o ∧ cbWf key o = true ∧ HoldsFields x (.cb key o) := by
  have hfit := unpack_fits cbWidths x
  unfold decodeCB at h
  split at h
  case h_2 => cases h
  case h_1 opc g off var sr res hx =>
  rw [hx] at hfit
  simp only [cbWidths, List.forall₂_cons, List.Forall₂.nil, and_true, Nat.reducePow] at hfit
  obtain ⟨-, hg, hoff, hvar, hsr, -⟩ := hfit
  split at h
  · cases h
  split at h
  · cases h
  next hr =>
  obtain ⟨hwf, hmk⟩ := accept_eq_ok_iff.1 h
  obtain rfl : res = 0 := by tauto
  refine ⟨_, _, (instrOf_eq_some_iff (op := .cb _ _) (by simp)).1 hmk, hwf, ?_⟩
  simp only [HoldsFields, fieldWidths, fieldValues, hx, code_guardOf hg, code_guardOf hvar, val_ofNat hsr, BitVec.toNat_ofNat, Nat.reducePow,
    Nat.mod_eq_of_lt hoff]

/-- R54: with I = 1 there is no B, and A is free where the row needs it 0. -/
theorem immOk_some {f : CSForm} {o : CSOp} {n : BitVec 18} (hi : o.imm = some n) (h : immOk f o = true) :
    o.b = 0 ∧ f.imm ≠ .quiet ∧ f.imm ≠ .regQuiet ∧ (f.imm = .immOrA → o.a = 0) := by
  unfold immOk at h
  cases hf : f.imm <;> simp [hf, hi] at h ⊢ <;> simp [h]

/-- R54: with I = 0 the bits of IMM18 that the row does not use are 0. -/
theorem immOk_none {f : CSForm} {o : CSOp} (hi : o.imm = none) (h : immOk f o = true) : immUnused f.imm o.b.val = 0 := by
  have hb : o.b.val / 64 = 0 := Nat.div_eq_of_lt o.b.isLt
  unfold immOk at h
  cases hf : f.imm <;> simp [hf, hi] at h <;> simp [immUnused, hb, h]

/-- R213: what the form of a CS operation demands of its fields. -/
structure CSFieldsOk (f : CSForm) (o : CSOp) : Prop where
  d : f.d = .unused → o.d = 0
  a : f.a = .unused → o.a = 0
  imm : immOk f o = true
  subs : if f.subs = [] then o.sub.val = 0 else o.sub.val ∈ f.subs

theorem csFieldsOk_of_wf {key : Nat} {o : CSOp} (h : csWf key o = true) : ∃ f, csForm key = some f ∧ CSFieldsOk f o := by
  unfold csWf at h
  split at h
  · cases h
  · next f hf =>
    simp only [Bool.and_eq_true] at h
    obtain ⟨⟨⟨⟨-, hd⟩, ha⟩, himm⟩, hsub⟩ := h
    refine ⟨f, hf, fun hu => by simpa [hu, sixOk] using hd, fun hu => by simpa [hu, sixOk] using ha, himm, ?_⟩
    split at hsub
    · next hs => simpa [hs] using hsub
    · next hs => simpa [hs] using hsub

/-- R213: the opcode and SUB of a well-formed operation give its key. -/
theorem csKey_of_ok {key : Nat} {f : CSForm} {o : CSOp} (hf : csForm key = some f) (h : CSFieldsOk f o) : csKey (key % 256) o.sub.val = key := by
  have hsub := h.subs
  rcases csForm_key hf with ⟨hlt, hne⟩ | ⟨rfl, hs⟩ | ⟨rfl, hs⟩
  · rw [Nat.mod_eq_of_lt hlt, csKey, if_neg fun hk => hne hk.1]
  · have h1 : o.sub.val = 1 := by simpa [hs] using hsub
    simp [csKey, h1]
  · have h3 : o.sub.val = 3 := by simpa [hs] using hsub
    simp [csKey, h3]

/-- R54: a word that holds the fields of a well-formed CS operation decodes to it. -/
theorem decodeCS_of_fields {x key : Nat} {o : CSOp} {i : Instr} (hop : slotOp i = .cs key o) (hwf : csWf key o = true)
    (hx : HoldsFields x (.cs key o)) : decodeCS x = .ok i := by
  obtain ⟨f, hf, hok⟩ := csFieldsOk_of_wf hwf
  have hmk : mkCS key o = some i := (instrOf_eq_some_iff (op := .cs key o) (by simp)).2 hop
  unfold decodeCS
  rw [show unpack csWidths x = _ from hx]
  simp only [fieldValues, csKey_of_ok hf hok, hf, Fin.ofNat_val_eq_self, guardOf_code]
  rw [if_neg]
  · obtain ⟨g, d, a, b, imm, sub⟩ := o
    cases imm with
    | none => simp [accept_eq_ok_iff, hwf, hmk]
    | some n =>
      obtain ⟨rfl, -⟩ := immOk_some rfl hok.imm
      simp [accept_eq_ok_iff, hwf, hmk]
  · simp only [not_or, not_and, not_not, ne_eq]
    have hd (hn : f.d = .unused) : o.d.val = 0 := congrArg Fin.val (hok.d hn)
    have ha (hn : f.a = .unused) : o.a.val = 0 := congrArg Fin.val (hok.a hn)
    have hsub (hn : f.subs = []) : o.sub.val = 0 := by simpa [hn] using hok.subs
    cases him : o.imm with
    | none => exact ⟨trivial, hd, ha, by simp, fun _ => rfl, fun _ => immOk_none him hok.imm, hsub⟩
    | some n =>
      obtain ⟨-, hq, hrq, ha0⟩ := immOk_some him hok.imm
      exact ⟨trivial, hd, ha, fun hn _ => congrArg Fin.val (ha0 hn), fun hn => (hn.elim hq hrq).elim, by simp, hsub⟩

/-- The opcode of a key. -/
theorem csKey_mod {opc : Nat} (h : opc < 256) (sub : Nat) : csKey opc sub % 256 = opc := by
  unfold csKey
  split
  · next hk => rw [hk.1]
  · exact Nat.mod_eq_of_lt h

/-- R54: a word that decodes to a CS operation holds its fields, which are well formed. -/
theorem fields_of_decodeCS {x : Nat} {i : Instr} (h : decodeCS x = .ok i) :
    ∃ key o, slotOp i = .cs key o ∧ csWf key o = true ∧ HoldsFields x (.cs key o) := by
  have hfit := unpack_fits csWidths x
  unfold decodeCS at h
  split at h
  case h_2 => cases h
  case h_1 opc g d a imm im sub res hx =>
  rw [hx] at hfit
  simp only [csWidths, List.forall₂_cons, List.Forall₂.nil, and_true, Nat.reducePow] at hfit
  obtain ⟨hopc, hg, hd, ha, himm, him, hsub, -⟩ := hfit
  dsimp only at h
  split at h
  · cases h
  next f hf =>
  split at h
  · cases h
  next hr =>
  simp only [not_or, not_and, not_not] at hr
  obtain ⟨rfl, -, -, -, -, hun, -⟩ := hr
  obtain ⟨hwf, hmk⟩ := accept_eq_ok_iff.1 h
  refine ⟨_, _, (instrOf_eq_some_iff (op := .cs _ _) (by simp)).1 hmk, hwf, ?_⟩
  simp only [HoldsFields, fieldWidths, fieldValues, hx, csKey_mod hopc, code_guardOf hg, val_ofNat hd, val_ofNat ha, val_ofNat hsub]
  obtain rfl | rfl : im = 0 ∨ im = 1 := by omega
  · have hlt : imm < 64 := by
      have := hun rfl
      unfold immUnused at this
      split at this <;> omega
    simp [Nat.mod_eq_of_lt hlt]
  · simp [Nat.mod_eq_of_lt himm]

/-- R55: a word that holds the fields of a well-formed CW operation decodes to it. -/
theorem decodeCW_of_fields {x : Nat} {o : CWOp} (hwf : cwWf o = true) (hx : HoldsFields x (.cw o)) : decodeCW x = .ok (.wait o) := by
  unfold decodeCW
  rw [show unpack cwWidths x = _ from hx]
  simp only [fieldValues, BitVec.ofNat_toNat, BitVec.setWidth_eq]
  exact if_pos hwf

/-- R55: a word that decodes to a CW operation holds its fields, which are well formed. -/
theorem fields_of_decodeCW {x : Nat} {i : Instr} (hopc : x % 256 = 0x32) (h : decodeCW x = .ok i) :
    ∃ o, slotOp i = .cw o ∧ cwWf o = true ∧ HoldsFields x (.cw o) := by
  have hfit := unpack_fits cwWidths x
  unfold decodeCW at h
  split at h
  case h_2 => cases h
  case h_1 opc mask codes e hx =>
  rw [hx] at hfit
  simp only [cwWidths, List.forall₂_cons, List.Forall₂.nil, and_true, Nat.reducePow] at hfit
  obtain ⟨-, hmask, hcodes, he⟩ := hfit
  dsimp only at h
  split at h
  case isFalse => cases h
  next hwf =>
  cases h
  have : opc = 0x32 := hopc ▸ (List.head_eq_of_cons_eq hx).symm
  refine ⟨_, rfl, hwf, ?_⟩
  simp only [HoldsFields, fieldWidths, fieldValues, hx, this, BitVec.toNat_ofNat, Nat.reducePow, Nat.mod_eq_of_lt hmask, Nat.mod_eq_of_lt hcodes,
    Nat.mod_eq_of_lt he]

end Sys2Proof
end

