-- ==== Sys2Proof/Proofs/RoundTrips.lean ====
section
/-! PROOFS. Decoding and encoding of a slot and of a bundle agree (R34 to R36, R43 to R59). -/

namespace Sys2Proof

/-! ## The fields of a well-formed instruction fit its layout -/

theorem bit_lt_two (b : Bool) : (if b = true then 1 else 0) < 2 := by cases b <;> decide

theorem mKey_lt_of_wf {key : Nat} {o : MOp} (h : mWf key o = true) : key < 256 := by
  obtain ⟨f, hf, -⟩ := mFieldsOk_of_wf h
  exact mForm_key_lt hf

theorem xtForm_of_wf {key : Nat} {o : XTOp} (h : xtWf key o = true) : ∃ f, xtForm key = some f := by
  cases hf : xtForm key with
  | none => simp [xtWf, hf] at h
  | some f => exact ⟨f, rfl⟩

theorem xcForm_of_wf {key : Nat} {o : XCOp} (h : xcWf key o = true) : ∃ f, xcForm key = some f := by
  cases hf : xcForm key with
  | none => simp [xcWf, hf] at h
  | some f => exact ⟨f, rfl⟩

theorem cbForm_of_wf {key : Nat} {o : CBOp} (h : cbWf key o = true) : ∃ f, cbForm key = some f := by
  cases hf : cbForm key with
  | none => simp [cbWf, hf] at h
  | some f => exact ⟨f, rfl⟩

theorem csForm_of_wf {key : Nat} {o : CSOp} (h : csWf key o = true) : ∃ f, csForm key = some f :=
  let ⟨f, hf, _⟩ := csFieldsOk_of_wf h
  ⟨f, hf⟩

theorem vFields_fit (key : Nat) (o : VOp) : Fits (fieldWidths (.v key o)) (fieldValues (.v key o)) := by
  simp only [fieldWidths, vWidths, fieldValues, List.forall₂_cons, List.Forall₂.nil, and_true, Nat.reducePow]
  refine ⟨Nat.mod_lt _ (by decide), o.guard.code_lt, o.dst.code_lt, o.a.code_lt, ?_, ?_, o.ty.code_lt, o.rm.code_lt, bit_lt_two _, bit_lt_two _,
    o.sub.isLt, by decide⟩
  · cases o.imm with
    | none => exact o.b.code_lt
    | some n => exact Nat.mod_lt _ (by decide)
  · cases o.imm with
    | none => exact o.c.code_lt
    | some n => exact Nat.div_lt_of_lt_mul n.isLt

theorem mFields_fit {key : Nat} {o : MOp} (h : mWf key o = true) : Fits (fieldWidths (.m key o)) (fieldValues (.m key o)) := by
  simp only [fieldWidths, mWidths, fieldValues, List.forall₂_cons, List.Forall₂.nil, and_true, Nat.reducePow]
  refine ⟨mKey_lt_of_wf h, o.guard.code_lt, o.data.code_lt, o.base.isLt, ?_, o.off.isLt, o.size.code_lt, o.scope.code_lt, ?_, bit_lt_two _, by decide⟩
  · cases o.index with
    | none => decide
    | some r => exact Nat.lt_trans r.isLt (by decide)
  · cases o.flag with
    | none => decide
    | some n => exact n.isLt

theorem xtFields_fit {key : Nat} {o : XTOp} (h : xtWf key o = true) : Fits (fieldWidths (.xt key o)) (fieldValues (.xt key o)) := by
  obtain ⟨f, hf⟩ := xtForm_of_wf h
  simp only [fieldWidths, xtWidths, fieldValues, List.forall₂_cons, List.Forall₂.nil, and_true, Nat.reducePow]
  exact ⟨xtForm_key_lt hf, o.flag.isLt, o.acc.isLt, o.sa.isLt, o.sb.isLt, o.kst.isLt, Nat.lt_trans o.msz.isLt (by decide),
    Nat.lt_trans o.nsz.isLt (by decide), by decide⟩

theorem xcFields_fit {key : Nat} {o : XCOp} (h : xcWf key o = true) : Fits (fieldWidths (.xc key o)) (fieldValues (.xc key o)) := by
  obtain ⟨f, hf⟩ := xcForm_of_wf h
  simp only [fieldWidths, xcWidths, fieldValues, List.forall₂_cons, List.Forall₂.nil, and_true, Nat.reducePow]
  exact ⟨(xcForm_key hf).1, o.flag.isLt, o.dstb.isLt, o.srcb.isLt, o.ll.isLt, o.arw.isLt, o.scope.code_lt, o.gt.isLt, by decide⟩

theorem cbFields_fit {key : Nat} {o : CBOp} (h : cbWf key o = true) : Fits (fieldWidths (.cb key o)) (fieldValues (.cb key o)) := by
  obtain ⟨f, hf⟩ := cbForm_of_wf h
  simp only [fieldWidths, cbWidths, fieldValues, List.forall₂_cons, List.Forall₂.nil, and_true, Nat.reducePow]
  exact ⟨(cbForm_key hf).1, o.guard.code_lt, o.off.isLt, o.var.code_lt, o.sreg.isLt, by decide⟩

theorem csFields_fit (key : Nat) (o : CSOp) : Fits (fieldWidths (.cs key o)) (fieldValues (.cs key o)) := by
  simp only [fieldWidths, csWidths, fieldValues, List.forall₂_cons, List.Forall₂.nil, and_true, Nat.reducePow]
  refine ⟨Nat.mod_lt _ (by decide), o.guard.code_lt, o.d.isLt, o.a.isLt, ?_, bit_lt_two _, o.sub.isLt, by decide⟩
  cases o.imm with
  | none => exact Nat.lt_trans o.b.isLt (by decide)
  | some n => exact n.isLt

theorem cwFields_fit (o : CWOp) : Fits (fieldWidths (.cw o)) (fieldValues (.cw o)) := by
  simp only [fieldWidths, cwWidths, fieldValues, List.forall₂_cons, List.Forall₂.nil, and_true, Nat.reducePow]
  exact ⟨by decide, o.mask.isLt, o.codes.isLt, o.e.isLt⟩

/-! ## Formats and slots -/

/-- The check of the fields of a format (R40, R42). -/
def SlotOp.wf : SlotOp → Bool
  | .v key o => vWf key o
  | .m key o => mWf key o
  | .xt key o => xtWf key o
  | .xc key o => xcWf key o
  | .cb key o => cbWf key o
  | .cs key o => csWf key o
  | .cw o => cwWf o
  | .event => true

/-- The slot of a format (R34). -/
def SlotOp.slot : SlotOp → Option Nat
  | .v .. => some 0
  | .m .. => some 1
  | .xt .. => some 2
  | .xc .. => some 2
  | .cb .. => some 3
  | .cs .. => some 3
  | .cw .. => some 3
  | .event => none

theorem wellFormed_eq_wf (i : Instr) : wellFormed i = (slotOp i).wf := rfl

theorem slotNum_eq_slot (i : Instr) : slotNum i = (slotOp i).slot := rfl

theorem fields_fit {op : SlotOp} (h : op.wf = true) : Fits (fieldWidths op) (fieldValues op) := by
  cases op with
  | v key o => exact vFields_fit key o
  | m key o => exact mFields_fit h
  | xt key o => exact xtFields_fit h
  | xc key o => exact xcFields_fit h
  | cb key o => exact cbFields_fit h
  | cs key o => exact csFields_fit key o
  | cw o => exact cwFields_fit o
  | event => exact .nil

/-- The bits of slot `n` (R34). -/
def slotWidth (n : Nat) : Nat := if n < 2 then 64 else 48

theorem fieldWidths_sum {op : SlotOp} {n : Nat} (h : op.slot = some n) : (fieldWidths op).sum = slotWidth n := by
  cases op <;> cases h <;> rfl

theorem encode_lt {i : Instr} {n : Nat} (h : slotNum i = some n) : encode i < 2 ^ slotWidth n := by
  rw [encode_eq_pack, ← fieldWidths_sum h]
  exact pack_lt ..

/-- A word of a slot holds the fields of an instruction exactly when it is its encoding. -/
theorem holdsFields_iff {x n : Nat} {i : Instr} (hwf : wellFormed i = true) (hn : slotNum i = some n) (hx : x < 2 ^ slotWidth n) :
    HoldsFields x (slotOp i) ↔ encode i = x := by
  rw [encode_eq_pack]
  exact unpack_eq_iff (by rwa [fieldWidths_sum hn]) (fields_fit hwf)

/-- The first field of a word is its opcode. -/
theorem opcode_of_holds {x : Nat} {op : SlotOp} {ws vs : List Nat} {k : Nat} (hw : fieldWidths op = 8 :: ws) (hv : fieldValues op = k :: vs)
    (h : HoldsFields x op) : x % 256 = k := by
  unfold HoldsFields at h
  rw [hw, hv] at h
  exact List.head_eq_of_cons_eq h

/-! ## The round trips -/

theorem decodeSlot_of_fields {x n : Nat} {i : Instr} {op : SlotOp} (hop : slotOp i = op) (hwf : op.wf = true) (hn : op.slot = some n)
    (hx : HoldsFields x op) : decodeSlot n x = .ok i := by
  cases op <;> cases hn
  case v key o => exact decodeV_of_fields hop hwf hx
  case m key o => exact decodeM_of_fields hop hwf hx
  case xt key o =>
    obtain ⟨f, hf⟩ := xtForm_of_wf hwf
    simpa [decodeSlot, decodeX, opcode_of_holds rfl rfl hx, hf] using decodeXT_of_fields hop hwf hx
  case xc key o =>
    obtain ⟨f, hf⟩ := xcForm_of_wf hwf
    simpa [decodeSlot, decodeX, opcode_of_holds rfl rfl hx, (xcForm_key hf).2] using decodeXC_of_fields hop hwf hx
  case cb key o =>
    obtain ⟨f, hf⟩ := cbForm_of_wf hwf
    simpa [decodeSlot, decodeC, opcode_of_holds rfl rfl hx, (cbForm_key hf).2, hf] using decodeCB_of_fields hop hwf hx
  case cs key o =>
    obtain ⟨f, hf⟩ := csForm_of_wf hwf
    obtain ⟨hne, hcb⟩ := csForm_opcode hf
    simpa [decodeSlot, decodeC, opcode_of_holds rfl rfl hx, hne, hcb] using decodeCS_of_fields hop hwf hx
  case cw o =>
    obtain rfl : .wait o = i := Option.some.inj ((instrOf_eq_some_iff (by simp)).2 hop)
    simpa [decodeSlot, decodeC, opcode_of_holds rfl rfl hx] using decodeCW_of_fields hwf hx

theorem fields_of_decodeX {x : Nat} {i : Instr} (h : decodeX x = .ok i) :
    (slotOp i).wf = true ∧ (slotOp i).slot = some 2 ∧ HoldsFields x (slotOp i) := by
  unfold decodeX at h
  split at h
  · obtain ⟨key, o, hop, hwf, hx⟩ := fields_of_decodeXT h
    exact hop ▸ ⟨hwf, rfl, hx⟩
  · obtain ⟨key, o, hop, hwf, hx⟩ := fields_of_decodeXC h
    exact hop ▸ ⟨hwf, rfl, hx⟩

theorem fields_of_decodeC {x : Nat} {i : Instr} (h : decodeC x = .ok i) :
    (slotOp i).wf = true ∧ (slotOp i).slot = some 3 ∧ HoldsFields x (slotOp i) := by
  unfold decodeC at h
  split at h
  · next hopc =>
    obtain ⟨o, hop, hwf, hx⟩ := fields_of_decodeCW hopc h
    exact hop ▸ ⟨hwf, rfl, hx⟩
  · split at h
    · obtain ⟨key, o, hop, hwf, hx⟩ := fields_of_decodeCB h
      exact hop ▸ ⟨hwf, rfl, hx⟩
    · obtain ⟨key, o, hop, hwf, hx⟩ := fields_of_decodeCS h
      exact hop ▸ ⟨hwf, rfl, hx⟩

theorem fields_of_decodeSlot {n x : Nat} {i : Instr} (hn : n < 4) (h : decodeSlot n x = .ok i) :
    (slotOp i).wf = true ∧ (slotOp i).slot = some n ∧ HoldsFields x (slotOp i) := by
  match n, hn with
  | 0, _ =>
    obtain ⟨key, o, hop, hwf, hx⟩ := fields_of_decodeV h
    exact hop ▸ ⟨hwf, rfl, hx⟩
  | 1, _ =>
    obtain ⟨key, o, hop, hwf, hx⟩ := fields_of_decodeM h
    exact hop ▸ ⟨hwf, rfl, hx⟩
  | 2, _ => exact fields_of_decodeX h
  | 3, _ => exact fields_of_decodeC h

/-- R43 to R59: the words of slot `n` that decode are the encodings of its well-formed instructions, each of its own. -/
theorem decodeSlot_eq_ok_iff {n x : Nat} {i : Instr} (hn : n < 4) (hx : x < 2 ^ slotWidth n) :
    decodeSlot n x = .ok i ↔ wellFormed i = true ∧ slotNum i = some n ∧ encode i = x := by
  constructor
  · intro h
    obtain ⟨hwf, hslot, hfields⟩ := fields_of_decodeSlot hn h
    exact ⟨hwf, hslot, (holdsFields_iff hwf hslot hx).1 hfields⟩
  · rintro ⟨hwf, hslot, henc⟩
    exact decodeSlot_of_fields rfl hwf hslot ((holdsFields_iff hwf hslot hx).2 henc)

theorem decodeSlot_encode {n : Nat} {i : Instr} (hwf : wellFormed i = true) (hn : slotNum i = some n) : decodeSlot n (encode i) = .ok i :=
  (decodeSlot_eq_ok_iff (Machine.slotNum_lt hn) (encode_lt hn)).2 ⟨hwf, hn, rfl⟩

/-- Settles O56. -/
theorem slotRoundTrip : Obligations.SlotRoundTrip :=
  ⟨fun _ _ hwf hn => decodeSlot_encode hwf hn, fun _ _ _ hn hx h => (decodeSlot_eq_ok_iff hn hx).1 h⟩

/-- A word that an instruction of slot `n` encodes to decodes to it. -/
theorem decodeSlot_of_encode {n x : Nat} {i : Instr} (hwf : wellFormed i = true) (hn : slotNum i = some n) (hx : encode i = x) :
    decodeSlot n x = .ok i :=
  hx ▸ decodeSlot_encode hwf hn

/-- Settles O55, by the encoder: each word is the encoding of the instruction that it stands for. -/
theorem decodeWords : Obligations.DecodeWords := by
  refine ⟨?_, ?_, ?_, ?_, ?_, ?_, ?_, ?_, ?_, ?_, ?_⟩ <;> exact decodeSlot_of_encode (by decide) rfl rfl

/-! ## Bundles -/

/-- The bits of a slot fit it. -/
theorem slotBits_lt {n : Nat} {y : Option Instr} (h : ∀ i, y = some i → wellFormed i = true ∧ slotNum i = some n) : slotBits y < 2 ^ slotWidth n := by
  cases y with
  | none => exact Nat.two_pow_pos _
  | some i => exact encode_lt (h i rfl).2

/-- The field widths of a bundle (R34, R35). -/
def bundleWidths : List Nat := [6, 1, 1, 1, 1, 1, 1, 1, 1, 18, 64, 64, 48, 48]

/-- The values of the fields of a bundle (R34, R35). -/
def bundleValues (h : Header) (v m x c : Option Instr) : List Nat :=
  [h.gap - 1, if h.d then 1 else 0, if h.f then 1 else 0, if h.l then 1 else 0, if v.isSome then 1 else 0, if m.isSome then 1 else 0,
    if x.isSome then 1 else 0, if c.isSome then 1 else 0, if h.y then 1 else 0, 0, slotBits v, slotBits m, slotBits x, slotBits c]

theorem encodeBundle_eq_pack (h : Header) (v m x c : Option Instr) :
    encodeBundle h v m x c = pack (bundleWidths.zip (bundleValues h v m x c)) := rfl

/-- The slot of a bundle that holds `y` (R36). -/
def slotOf : Option Instr → SlotD
  | some i => .ok i
  | none => .absent

/-- R36: a presence bit and the bits of its slot give back what the slot holds. -/
theorem decodeSlot_slotBits {n : Nat} {y : Option Instr} (h : ∀ i, y = some i → wellFormed i = true ∧ slotNum i = some n) :
    (if (if y.isSome = true then 1 else 0) = 0 then .absent else decodeSlot n (slotBits y)) = slotOf y := by
  cases y with
  | none => rfl
  | some i =>
    obtain ⟨hwf, hn⟩ := h i rfl
    simpa [slotOf, slotBits] using decodeSlot_encode hwf hn

/-- R36: the bits of an absent slot are 0. -/
theorem slotBits_eq_zero {y : Option Instr} (h : (if y.isSome = true then 1 else 0) = 0) : slotBits y = 0 := by
  cases y with
  | none => rfl
  | some i => simp at h

/-- Settles O57. -/
theorem bundleRoundTrip : Obligations.BundleRoundTrip := by
  intro h v m x c hlo hhi hslots
  simp only [List.forall_mem_cons, List.not_mem_nil, false_imp_iff, implies_true, and_true] at hslots
  obtain ⟨hv, hm, hx, hc⟩ := hslots
  have hfit : Fits bundleWidths (bundleValues h v m x c) := by
    simp only [bundleWidths, bundleValues, List.forall₂_cons, List.Forall₂.nil, and_true]
    exact ⟨by omega, bit_lt_two _, bit_lt_two _, bit_lt_two _, bit_lt_two _, bit_lt_two _, bit_lt_two _, bit_lt_two _, bit_lt_two _, by decide,
      slotBits_lt hv, slotBits_lt hm, slotBits_lt hx, slotBits_lt hc⟩
  have hfields : unpack [6, 1, 1, 1, 1, 1, 1, 1, 1, 18, 64, 64, 48, 48] (encodeBundle h v m x c) = bundleValues h v m x c := by
    rw [encodeBundle_eq_pack]
    exact unpack_pack hfit
  have hbits : ¬(0 ≠ 0 ∨ ((if v.isSome = true then 1 else 0) = 0 ∧ slotBits v ≠ 0) ∨ ((if m.isSome = true then 1 else 0) = 0 ∧ slotBits m ≠ 0) ∨
      ((if x.isSome = true then 1 else 0) = 0 ∧ slotBits x ≠ 0) ∨ ((if c.isSome = true then 1 else 0) = 0 ∧ slotBits c ≠ 0)) := by
    simp only [not_or, not_and, not_not]
    exact ⟨trivial, slotBits_eq_zero, slotBits_eq_zero, slotBits_eq_zero, slotBits_eq_zero⟩
  have hsv : (if (if v.isSome = true then 1 else 0) = 0 then .absent else decodeV (slotBits v)) = slotOf v := decodeSlot_slotBits hv
  have hsm : (if (if m.isSome = true then 1 else 0) = 0 then .absent else decodeM (slotBits m)) = slotOf m := decodeSlot_slotBits hm
  have hsx : (if (if x.isSome = true then 1 else 0) = 0 then .absent else decodeX (slotBits x)) = slotOf x := decodeSlot_slotBits hx
  have hsc : (if (if c.isSome = true then 1 else 0) = 0 then .absent else decodeC (slotBits c)) = slotOf c := decodeSlot_slotBits hc
  unfold decodeBundle
  rw [hfields]
  simp only [bundleValues, decide_bit_eq_one, Nat.sub_add_cancel hlo, decide_eq_false hbits, hsv, hsm, hsx, hsc]
  rfl

end Sys2Proof
end

