-- ==== Sys2Proof/Proofs/VectorFields.lean ====
section
/-! PROOFS. The V slot's bit fields, selection and moves, and IMM16 as source B (R47, R120, R121). -/

namespace Sys2Proof.Machine
open Claim

/-! ## Operations on raw lanes -/

/-- R119 to R123: an instruction whose effect is a raw operation lands its value, without events, in every active lane. -/
theorem rawV_lands {s : State} {c k : Nat} {w : Warp} {i : Instr} {o : VOp} {lat : Nat} {f : Word → Word → Word → Word}
    {P : Nat → Word → BitVec 8 → Prop} (hi : Issues s c k w i) (hn : slotNum i = some 0) (hf : slotFn i = some (vFn fun w => w.rawV o lat f))
    (hp : ∀ l, P l (f (w.src o.a l) (w.srcB o l) (w.src o.c l)) 0) : VLands s c k w i o lat .lva P :=
  vLands_of hi (exec_eq_runSlot hn s) hn hf rfl fun l _ => hp l

/-! ## Fields -/

/-- R120: the position and length that a field descriptor names. -/
theorem fieldOf_eq (x : Word) : fieldOf x = (x.toNat % 32, min (x.toNat / 256 % 64) (32 - x.toNat % 32)) := by
  simp [fieldOf, bits, Nat.shiftRight_eq_div_pow]

/-- A field of a word, bit by bit. -/
theorem testBit_field (a : Word) (pos len i : Nat) : (a.toNat / 2 ^ pos % 2 ^ len).testBit i = (decide (i < len) && a.getLsbD (pos + i)) := by
  rw [Nat.testBit_mod_two_pow, Nat.testBit_div_two_pow, Nat.add_comm i pos, BitVec.getLsbD]

/-- A number of `len` bits sign-extended to a word. -/
theorem ofNat_signExt {len : Nat} (h : 0 < len) (x : Nat) : BitVec.ofNat 32 (toBits (signExt x len) 32) = (BitVec.ofNat len x).signExtend 32 := by
  rw [signExt_eq_toInt h, toBits_eq_toNat, BitVec.ofNat_toNat, BitVec.setWidth_eq]
  rfl

/-- R120: `vbfe` bit by bit: the field, then zeros or copies of its top bit. -/
theorem getLsbD_bfe {signed : Bool} {a b : Word} {pos len : Nat} (hb : fieldOf b = (pos, len)) (hl : 0 < len) {i : Nat} (hi : i < 32) :
    (bfe signed a b).getLsbD i = if i < len then a.getLsbD (pos + i) else signed && a.getLsbD (pos + len - 1) := by
  have hlast : pos + (len - 1) = pos + len - 1 := by omega
  simp only [bfe, hb, if_neg hl.ne']
  cases signed with
  | false =>
    rw [if_neg (by decide), BitVec.getLsbD_ofNat, testBit_field]
    split <;> simp [*]
  | true =>
    rw [if_pos rfl, ofNat_signExt hl, BitVec.getLsbD_signExtend, BitVec.msb_eq_getLsbD_last, BitVec.getLsbD_ofNat, BitVec.getLsbD_ofNat, testBit_field,
      testBit_field, hlast]
    split <;> simp [*]

/-- R120: a `vbfe` of no bits is 0. -/
theorem bfe_eq_zero {a b : Word} (hb : (fieldOf b).2 = 0) (signed : Bool) : bfe signed a b = 0 := by
  simp [bfe, hb]

/-- The mask of a field. -/
theorem getLsbD_fieldMask (pos len : Nat) {n i : Nat} (hi : i < n) :
    (BitVec.ofNat n ((2 ^ len - 1) * 2 ^ pos)).getLsbD i = decide (pos ≤ i ∧ i < pos + len) := by
  rw [BitVec.getLsbD_ofNat, Nat.testBit_mul_two_pow, Nat.testBit_two_pow_sub_one]
  simp only [hi, decide_true, Bool.true_and, ← Bool.decide_and]
  exact decide_eq_decide.2 (by omega)

/-- R120: `vbfi` bit by bit: the low bits of A in the field, B elsewhere. -/
theorem getLsbD_bfi {a b c : Word} {pos len : Nat} (hc : fieldOf c = (pos, len)) {i : Nat} (hi : i < 32) :
    (bfi a b c).getLsbD i = if pos ≤ i ∧ i < pos + len then a.getLsbD (i - pos) else b.getLsbD i := by
  simp only [bfi, hc, BitVec.getLsbD_or, BitVec.getLsbD_and, BitVec.getLsbD_not, BitVec.getLsbD_shiftLeft, getLsbD_fieldMask pos len hi]
  by_cases h : pos ≤ i ∧ i < pos + len
  · simp [h, hi, Nat.not_lt.2 h.1]
  · simp [h, hi]

/-! ## Immediates -/

/-- R121: `vmovi.hi` puts IMM16 above the low half of A. -/
theorem toNat_append_low (n : BitVec 16) (a : Word) : (n ++ a.setWidth 16).toNat = n.toNat * 65536 + a.toNat % 65536 := by
  rw [BitVec.toNat_append, BitVec.toNat_setWidth, ← Nat.shiftLeft_add_eq_or_of_lt (Nat.mod_lt _ (Nat.two_pow_pos 16)), Nat.shiftLeft_eq]

/-- R47: IMM16 as it stands for source B. -/
theorem srcB_of_imm {w : Warp} {o : VOp} {n : BitVec 16} (h : o.imm = some n) (l : Nat) : w.srcB o l = match o.ty with
    | .i32 | .i16 => n.signExtend 32
    | .n32 | .n16 | .i8 | .n8 => n.setWidth 32
    | .f32 => BitVec.ofNat 32 (n.toNat * 65536)
    | .bf16 | .f16 => BitVec.ofNat 32 (n.toNat * 65536 + n.toNat)
    | _ => n.setWidth 32 := by
  have hlow : n.toNat * 65536 < 2 ^ 32 := by
    have := n.isLt
    omega
  have hhigh : n.setWidth 32 <<< 16 = BitVec.ofNat 32 (n.toNat * 65536) := by
    apply BitVec.eq_of_toNat_eq
    simp [Nat.shiftLeft_eq, Nat.mod_eq_of_lt (show n.toNat < 4294967296 by omega)]
  have hboth : n ++ n = BitVec.ofNat 32 (n.toNat * 65536 + n.toNat) := by
    apply BitVec.eq_of_toNat_eq
    rw [BitVec.toNat_append, ← Nat.shiftLeft_add_eq_or_of_lt n.isLt, Nat.shiftLeft_eq, BitVec.toNat_ofNat]
    have := n.isLt
    omega
  simp only [Warp.srcB, h, widen, hhigh, hboth]
  cases o.ty <;> rfl

/-! ## The statement -/

/-- Settles O4. -/
theorem vectorFieldsAndMoves : Obligations.VectorFieldsAndMoves := by
  refine ⟨?bfe, ?bfi, ?sel, ?mov, ?movi, ?hi, fun w o n l h => srcB_of_imm h l⟩
  case bfe =>
    intro o s c k w hi
    exact rawV_lands hi rfl rfl fun l => ⟨rfl, fun h0 => bfe_eq_zero (by rw [fieldOf_eq]; exact h0) _, fun i hi h => getLsbD_bfe (fieldOf_eq _) h hi⟩
  case bfi =>
    intro o s c k w hi
    exact rawV_lands hi rfl rfl fun l => ⟨rfl, fun i hi => getLsbD_bfi (fieldOf_eq _) hi⟩
  case sel =>
    intro o s c k w hi
    exact vLands_of hi rfl rfl rfl rfl fun l _ => ⟨rfl, rfl⟩
  case mov =>
    intro o s c k w hi
    exact rawV_lands hi rfl rfl fun l => ⟨rfl, rfl⟩
  case movi =>
    intro o s c k w hi
    exact rawV_lands hi rfl rfl fun l => ⟨rfl, rfl⟩
  case hi =>
    intro o s c k w n hi him
    refine vLands_of hi rfl rfl rfl rfl fun l _ => ⟨?_, rfl⟩
    rw [him]
    exact toNat_append_low n _

end Sys2Proof.Machine
end

