-- ==== Sys2Proof/Proofs/ScalarResults.lean ====
section
/-! PROOFS. The C slot's scalar arithmetic, moves, selection and comparison (R54, R212, R217 to R219). -/

namespace Sys2Proof.Machine
open Claim

/-! ## One value landed under a guard -/

/-- R212: a C-slot operation that lands one value: under its guard it does, and under a false guard nothing changes. -/
theorem guarded_lands {s : State} {c k : Nat} {w : Warp} {i : Instr} {g : Guard} {d : Dest} {y : DWord} {eff : Warp → Warp} (hi : Issues s c k w i)
    (hn : slotNum i = some 3) (hf : slotFn i = some (cFn (fun _ _ _ => none) (wFn eff)))
    (he : eff w = if w.guardS g then w.push (w.scalarLanding 3 1 d .none y 0) else w) :
    (Guarded w g → CLands s c k w i d y) ∧ (¬Guarded w g → exec i s = .next (s.setWarp c k w)) := by
  refine ⟨fun hg => ⟨w.scalarLanding 3 1 d .none y 0, ?_, ⟨rfl, rfl, rfl, rfl, rfl, rfl, rfl⟩, rfl, rfl, rfl⟩, fun hg => ?_⟩
  · exact exec_c hi hn hf rfl (he.trans (if_pos ((w.guardS_iff g).2 hg)))
  · exact exec_c hi hn hf rfl (he.trans (if_neg (by simp [(w.guardS_false_iff g).2 hg])))

/-- R212, R217: an instruction whose effect is a scalar operation lands its value in D. -/
theorem aluS_lands {s : State} {c k : Nat} {w : Warp} {i : Instr} {o : CSOp} {f : DWord → DWord → DWord} {P : DWord → Prop} {eff : Warp → Warp}
    (hi : Issues s c k w i) (hn : slotNum i = some 3) (hf : slotFn i = some (cFn (fun _ _ _ => none) (wFn eff))) (he : eff w = w.aluS o f)
    (hp : P (f (w.s o.a.val) (w.csB o))) :
    (Guarded w o.guard → ∃ y, CLands s c k w i (.s o.d.val) y ∧ P y) ∧ (¬Guarded w o.guard → exec i s = .next (s.setWarp c k w)) := by
  obtain ⟨hon, hoff⟩ := guarded_lands (g := o.guard) (d := .s o.d.val) hi hn hf he
  exact ⟨fun hg => ⟨_, hon hg, hp⟩, hoff⟩

/-- R212, R219, R227: an instruction whose effect is a test lands it as 1 or 0 in a scalar predicate. -/
theorem testS_lands {s : State} {c k : Nat} {w : Warp} {i : Instr} {o : CSOp} {b : Bool} {P : Prop} {eff : Warp → Warp}
    (hi : Issues s c k w i) (hn : slotNum i = some 3) (hf : slotFn i = some (cFn (fun _ _ _ => none) (wFn eff)))
    (he : eff w = if w.guardS o.guard then w.landCp (o.d.val % 8) b else w) (hp : b = true ↔ P) :
    (Guarded w o.guard → ∃ y, CLands s c k w i (.sp (o.d.val % 8)) y ∧ (y = 0 ∨ y = 1) ∧ (y = 1 ↔ P)) ∧
    (¬Guarded w o.guard → exec i s = .next (s.setWarp c k w)) := by
  obtain ⟨hon, hoff⟩ := guarded_lands (g := o.guard) (d := .sp (o.d.val % 8)) hi hn hf he
  refine ⟨fun hg => ⟨_, hon hg, ?_, ?_⟩, hoff⟩
  · cases b
    · exact .inl rfl
    · exact .inr rfl
  · rw [← hp]
    cases b <;> decide

/-! ## Values -/

/-- R54: IMM18 stands for B sign-extended. -/
theorem csB_of_imm {w : Warp} {o : CSOp} {i : BitVec 18} (h : o.imm = some i) : (w.csB o).toInt = i.toInt := by
  simp only [Warp.csB, h, immS]
  exact BitVec.toInt_signExtend_of_le (by decide)

theorem csB_of_reg {w : Warp} {o : CSOp} (h : o.imm = none) : w.csB o = w.s o.b.val := by
  simp only [Warp.csB, h]

/-- R217: the high half of a signed product. -/
theorem toInt_mulh (a b : DWord) : (BitVec.ofInt 64 (Int.fdiv (a.toInt * b.toInt) (2 ^ 64))).toInt = a.toInt * b.toInt / 2 ^ 64 := by
  have hlo := BitVec.le_toInt_mul_toInt (x := a) (y := b)
  have hhi := BitVec.toInt_mul_toInt_le (x := a) (y := b)
  rw [Int.fdiv_eq_ediv_of_nonneg _ (by decide)]
  apply BitVec.toInt_ofInt_eq_self (by decide) <;> omega

/-- R217: the high half of an unsigned product. -/
theorem toNat_mulhu (a b : DWord) : (BitVec.ofNat 64 (a.toNat * b.toNat / 2 ^ 64)).toNat = a.toNat * b.toNat / 2 ^ 64 := by
  have h : a.toNat * b.toNat < 2 ^ 64 * 2 ^ 64 := Nat.mul_lt_mul'' a.isLt b.isLt
  rw [BitVec.toNat_ofNat, Nat.mod_eq_of_lt (Nat.div_lt_of_lt_mul h)]

theorem toNat_sub_add (a b : DWord) : ((a - b).toNat + b.toNat) % 2 ^ 64 = a.toNat := by
  rw [← BitVec.toNat_add, BitVec.sub_add_cancel]

/-- R217: an arithmetic shift fills with the top bit. -/
theorem getLsbD_sar (a : DWord) (n : Nat) {i : Nat} (hi : i < 64) : (a.sshiftRight n).getLsbD i = a.getLsbD (min 63 (i + n)) := by
  rw [BitVec.getLsbD_sshiftRight, BitVec.msb_eq_getLsbD_last, Nat.add_comm n i]
  by_cases h : i + n < 64
  · simp [hi, h, Nat.min_eq_right (show i + n ≤ 63 by omega)]
  · simp [hi, h, Nat.min_eq_left (show 63 ≤ i + n by omega)]

/-- R217: the number of leading zeros, by what it counts. -/
theorem clzN_spec {n x : Nat} (hx : x < 2 ^ n) :
    clzN n x ≤ n ∧ (∀ i, n - clzN n x ≤ i → x.testBit i = false) ∧ (clzN n x < n → x.testBit (n - 1 - clzN n x) = true) := by
  unfold clzN
  by_cases h0 : x = 0
  · simp [h0]
  · have hlog : x.log2 < n := (Nat.log2_lt h0).2 hx
    rw [if_neg h0, show n - (n - 1 - x.log2) = x.log2 + 1 by omega, show n - 1 - (n - 1 - x.log2) = x.log2 by omega]
    refine ⟨by omega, fun i hi => Nat.testBit_lt_two_pow (Nat.lt_of_lt_of_le Nat.lt_log2_self (Nat.pow_le_pow_right (by decide) hi)),
      fun _ => Nat.testBit_log2 h0⟩

/-- R217: the number of set bits is at most the width. -/
theorem popcN_le (n x : Nat) : popcN n x ≤ n := (List.length_filter_le ..).trans_eq (List.length_range ..)

/-- R218: 16 bits of a scalar replaced, bit by bit. -/
theorem getLsbD_putHalf (a x : DWord) {n i : Nat} (hi : i < 64) :
    (putHalf a n x).getLsbD i = if i / 16 = n then x.getLsbD (i % 16) else a.getLsbD i := by
  have hm : ((0xFFFF <<< (16 * n) : Nat) : DWord).getLsbD i = decide (i / 16 = n) := by
    rw [Nat.shiftLeft_eq]
    refine (getLsbD_fieldMask (16 * n) 16 hi).trans (decide_eq_decide.2 ?_)
    omega
  simp only [putHalf, BitVec.getLsbD_or, BitVec.getLsbD_and, BitVec.getLsbD_not, BitVec.getLsbD_shiftLeft, hm]
  by_cases h : i / 16 = n
  · have hlow : i - 16 * n = i % 16 := by omega
    simp [h, hi, hlow, Nat.not_lt.2 (show 16 * n ≤ i by omega)]
  · simp [h, hi]

/-- R217: `lea` adds B shifted left. -/
theorem toNat_lea (a b : DWord) (n : Nat) : (a + b <<< n).toNat = (a.toNat + b.toNat * 2 ^ n) % 2 ^ 64 := by
  rw [BitVec.toNat_add, BitVec.toNat_shiftLeft, Nat.shiftLeft_eq, Nat.add_mod_mod]

/-- R218: the predicate that `sel` reads: SUB as a guard field. -/
theorem guardS_sub (w : Warp) (n : Fin 16) : w.guardS (guardOf n.val) = if n.val < 8 then w.sp (n.val % 8) else !w.sp (n.val % 8) := by
  have hneg : ∀ n : Fin 16, n.val.testBit 3 = !decide (n.val < 8) := by decide
  simp only [Warp.guardS, guardOf, hneg, Fin.ofNat]
  by_cases h : n.val < 8
  · simp [h]
  · simp [h]

/-- R219: the ten comparisons. -/
theorem cmpS_iff (n : Nat) (a b : DWord) : cmpS n a b = true ↔ match n with
    | 0 => a = b
    | 1 => a ≠ b
    | 2 => a.toInt < b.toInt
    | 3 => a.toInt ≤ b.toInt
    | 4 => a.toInt > b.toInt
    | 5 => a.toInt ≥ b.toInt
    | 6 => a.toNat < b.toNat
    | 7 => a.toNat ≤ b.toNat
    | 8 => a.toNat > b.toNat
    | _ => a.toNat ≥ b.toNat := by
  match n with
  | 0 | 1 => simp [cmpS]
  | 2 | 4 => exact BitVec.slt_iff_toInt_lt
  | 3 | 5 => exact BitVec.sle_iff_toInt_le
  | 6 | 7 | 8 | _ + 9 => exact decide_eq_true_iff

/-- R217: the operand of the lesser value has the least value. -/
theorem map_ite_min {α : Type} [LinearOrder α] {f : DWord → α} {p : Prop} [Decidable p] {a b : DWord} (hp : p ↔ f a < f b) :
    f (if p then a else b) = min (f a) (f b) := by
  by_cases h : p
  · rw [if_pos h, min_eq_left (hp.1 h).le]
  · rw [if_neg h, min_eq_right (not_lt.1 fun hl => h (hp.2 hl))]

/-- R217: the operand of the greater value has the greatest value. -/
theorem map_ite_max {α : Type} [LinearOrder α] {f : DWord → α} {p : Prop} [Decidable p] {a b : DWord} (hp : p ↔ f a < f b) :
    f (if p then b else a) = max (f a) (f b) := by
  by_cases h : p
  · rw [if_pos h, max_eq_right (hp.1 h).le]
  · rw [if_neg h, max_eq_left (not_lt.1 fun hl => h (hp.2 hl))]

/-- R217: a left shift. -/
theorem getLsbD_shl (a : DWord) (n : Nat) {i : Nat} (hi : i < 64) : (a <<< n).getLsbD i = (decide (n ≤ i) && a.getLsbD (i - n)) := by
  rw [BitVec.getLsbD_shiftLeft]
  simp only [hi, decide_true, Bool.true_and, ← decide_not, Nat.not_lt]

/-- R217: a right shift. -/
theorem getLsbD_shr (a : DWord) (n i : Nat) : (a >>> n).getLsbD i = a.getLsbD (i + n) := by
  rw [BitVec.getLsbD_ushiftRight, Nat.add_comm]

/-! ## The statement -/

/-- Settles O26. -/
theorem scalarArithmetic : Obligations.ScalarArithmetic := by
  simp only [Obligations.ScalarArithmetic, List.forall_mem_cons, List.not_mem_nil, false_imp_iff, implies_true, and_true]
  refine ⟨fun w o => ⟨fun i h => csB_of_imm h, csB_of_reg⟩, ⟨?add, ?sub, ?mul, ?mulh, ?and, ?or, ?xor, ?shl, ?shr, ?sar, ?min, ?max, ?mov, ?movi,
    ?movhi, ?sel, ?clz, ?popc, ?lea⟩, ?cmp⟩ <;> intro o s c k w hi
  case add => exact aluS_lands hi rfl rfl rfl (BitVec.toNat_add ..)
  case sub => exact aluS_lands hi rfl rfl rfl (toNat_sub_add ..)
  case mul => exact aluS_lands hi rfl rfl rfl (BitVec.toNat_mul ..)
  case mulh =>
    refine aluS_lands hi rfl rfl rfl ⟨fun h => ?_, fun h => ?_⟩
    · simpa [h] using toInt_mulh _ _
    · simpa [h] using toNat_mulhu _ _
  case and => exact aluS_lands hi rfl rfl rfl fun i _ => BitVec.getLsbD_and
  case or => exact aluS_lands hi rfl rfl rfl fun i _ => BitVec.getLsbD_or
  case xor => exact aluS_lands hi rfl rfl rfl fun i _ => BitVec.getLsbD_xor
  case shl => exact aluS_lands hi rfl rfl rfl fun i h => getLsbD_shl _ _ h
  case shr => exact aluS_lands hi rfl rfl rfl fun i _ => getLsbD_shr ..
  case sar => exact aluS_lands hi rfl rfl rfl fun i h => getLsbD_sar _ _ h
  case min =>
    refine aluS_lands hi rfl rfl rfl ⟨fun h => ?_, fun h => ?_⟩
    · rw [h]
      exact map_ite_min BitVec.slt_iff_toInt_lt
    · rw [h]
      exact map_ite_min BitVec.lt_def
  case max =>
    refine aluS_lands hi rfl rfl rfl ⟨fun h => ?_, fun h => ?_⟩
    · rw [h]
      exact map_ite_max BitVec.slt_iff_toInt_lt
    · rw [h]
      exact map_ite_max BitVec.lt_def
  case mov => exact aluS_lands hi rfl rfl rfl rfl
  case movi => exact aluS_lands hi rfl rfl rfl rfl
  case movhi =>
    refine aluS_lands hi rfl rfl rfl fun h i h64 => ?_
    rw [Nat.mod_eq_of_lt h]
    exact getLsbD_putHalf _ _ h64
  case sel =>
    refine aluS_lands hi rfl rfl rfl ?_
    rw [guardS_sub]
  case clz =>
    obtain ⟨hle, hzeros, hone⟩ := clzN_spec (w.s o.a.val).isLt
    have hy : (BitVec.ofNat 64 (clzN 64 (w.s o.a.val).toNat)).toNat = clzN 64 (w.s o.a.val).toNat := Nat.mod_eq_of_lt (by omega)
    refine aluS_lands hi rfl rfl rfl ?_
    rw [hy]
    exact ⟨hle, fun i _ h => hzeros i h, hone⟩
  case popc =>
    refine aluS_lands hi rfl rfl rfl ?_
    rw [BitVec.toNat_ofNat, Nat.mod_eq_of_lt (Nat.lt_of_le_of_lt (popcN_le ..) (by decide))]
    rfl
  case lea => exact aluS_lands hi rfl rfl rfl (toNat_lea ..)
  case cmp =>
    exact fun _ => testS_lands hi rfl rfl rfl (cmpS_iff ..)

end Sys2Proof.Machine
end

