-- ==== Sys2Proof/Proofs/FlagWaits.lean ====
section
/-! PROOFS. `wait` and `ftest`: thresholds, the hold before a bundle and its end (R55, R216, R226, R227). -/

namespace Sys2Proof.Machine
open Claim

/-! ## Thresholds -/

/-- R55: the threshold of a named flag, by its code. -/
theorem threshold_eq (o : CWOp) (j : Nat) :
    threshold o j = if 9 ≤ j then 0 else if o.codes.toNat / 4 ^ j % 4 = 3 then o.e.toNat else o.codes.toNat / 4 ^ j % 4 := by
  have hcode : bits o.codes.toNat (2 * j + 1) (2 * j) = o.codes.toNat / 4 ^ j % 4 := by
    rw [bits, Nat.shiftRight_eq_div_pow, Nat.pow_mul, show 2 * j + 1 + 1 - 2 * j = 2 by omega]
    rfl
  have hlt : o.codes.toNat / 4 ^ j % 4 < 4 := Nat.mod_lt _ (by decide)
  rw [threshold, hcode]
  generalize o.codes.toNat / 4 ^ j % 4 = n at hlt
  match n, hlt with
  | 0, _ | 1, _ | 2, _ | 3, _ => rfl

/-- R226: the condition of `wait`, flag by flag. -/
theorem waitMet_iff (o : CWOp) (w : Warp) :
    waitMet o w = true ↔ ∀ j f, (maskFlags o)[j]? = some f → w.seen f ≤ threshold o j := by
  simp only [waitMet, List.all_eq_true, decide_eq_true_eq, Prod.forall, List.mem_zipIdx_iff_getElem?]
  exact ⟨fun h j f => h f j, fun h f j => h j f⟩

/-! ## Holds before a bundle -/

/-- The end of a hold: the warp that waited for it runs. -/
def Warp.afterHold (w : Warp) : Warp := match w.stop with
  | .mdone _ => { w with stop := .run }
  | _ => w

/-- R216: once its hold has ended, a C-slot operation without an effect on the machine only lets its warp run. -/
theorem effects_afterHold {s : State} {c k : Nat} {w : Warp} {i : Instr} {f : SlotFn} (hw : s.warp? c k = some w) (hf : slotFn i = some f)
    (he : f.eff c k s = s) : s.effects c k none none none (some i) true = s.setWarp c k w.afterHold := by
  simp only [State.effects, effOf_none, effOf_some hf, freezeOf_none, he, if_true]
  exact State.modWarp_of hw _

/-- R216: a C-slot operation whose hold has ended has its effect, and its hold and checks are not made again. -/
theorem runSlot_afterHold {i : Instr} {s : State} {c k : Nat} {w : Warp} {f : SlotFn} {h : Nat → Nat → State → Bool × State} {b : Bool}
    (hn : slotNum i = some 3) (hf : slotFn i = some f) (hc : s.cur = some (c, k)) (hw : s.warp? c k = some w) (ho : opFail w i 3 = none)
    (hh : f.hold = some h) (hg : w.holds (some i) = true) (hd : w.stop = .mdone b) (ht : f.wait c k s = none) :
    runSlot i 3 s = .next (s.effects c k none none none (some i) true) := by
  rw [runSlot_run hc hw ho]
  simp only [State.runSlots, State.onWarp, hw, onlySlot, hn, holdOf_some hf, hh, hg, hd, if_true]
  rw [runChecked_ok hw] <;> simp only [chkOf_none, waitOf_none, waitOf_some hf, ht, flagsOf_none, flagRoom_nil, true_or]

/-- R216: holding before its bundle changes where a warp stands and nothing that it holds. -/
theorem Warp.holdBefore_spec (w : Warp) (now : Nat) : SameRegs w (w.holdBefore now) ∧ (w.holdBefore now).flight = w.flight ∧
    ∃ dl i p b, (w.holdBefore now).stop = .before dl i p b := by
  unfold Warp.holdBefore
  split
  · next h => exact ⟨⟨rfl, rfl, rfl, rfl, rfl, rfl, rfl, rfl, rfl, rfl, rfl, rfl, rfl, rfl, rfl, rfl, rfl⟩, rfl, _, _, _, _, h⟩
  · exact ⟨⟨rfl, rfl, rfl, rfl, rfl, rfl, rfl, rfl, rfl, rfl, rfl, rfl, rfl, rfl, rfl, rfl, rfl⟩, rfl, _, _, _, _, rfl⟩

/-! ## `wait` -/

section
variable {s : State} {c k : Nat} {w : Warp} {o : CWOp}

/-- R226: a `wait` whose condition is met completes. -/
theorem exec_wait_met (hi : Issues s c k w (.wait o)) (hd : ∀ b, w.stop ≠ .mdone b) (hm : waitMet o w = true) :
    exec (.wait o) s = .next (s.setWarp c k w) := by
  have hrun : w.afterHold = w := by
    unfold Warp.afterHold
    split
    · next b h => exact (hd b h).elim
    · rfl
  rw [exec_eq_runSlot rfl, runSlot_held (s' := s) (w' := w) rfl rfl hi.1 hi.2.1 (opFail_of_issues hi) rfl rfl hd rfl ?_ hi.2.1 rfl,
    effects_afterHold hi.2.1 rfl (State.modWarp_id fun _ _ => rfl), hrun]
  simp [holdWait, State.holdWhile, hi.2.1, hm]

/-- R216, R226: a `wait` whose condition is not met holds its warp before the bundle. -/
theorem exec_wait_unmet (hi : Issues s c k w (.wait o)) (hd : ∀ b, w.stop ≠ .mdone b) (hm : waitMet o w = false) :
    exec (.wait o) s = .next (s.setWarp c k { w.holdBefore s.cycle with opened := false, ctl := .none }) := by
  rw [exec_eq_runSlot rfl, runSlot_holds (s' := s.setWarp c k (w.holdBefore s.cycle)) rfl rfl hi.1 hi.2.1 (opFail_of_issues hi) rfl rfl hd rfl ?_,
    State.modWarp_of (State.warp_setWarp_self ..), State.setWarp_setWarp]
  simp [holdWait, State.holdWhile, hi.2.1, hm]

/-- R216: a `wait` whose hold has ended completes without looking at the flags again. -/
theorem exec_wait_done {b : Bool} (hi : Issues s c k w (.wait o)) (hd : w.stop = .mdone b) :
    exec (.wait o) s = .next (s.setWarp c k { w with stop := .run }) := by
  have hrun : w.afterHold = { w with stop := .run } := by simp [Warp.afterHold, hd]
  rw [exec_eq_runSlot rfl, runSlot_afterHold rfl rfl hi.1 hi.2.1 (opFail_of_issues hi) rfl rfl hd rfl,
    effects_afterHold hi.2.1 rfl (State.modWarp_id fun _ _ => rfl), hrun]

end

/-- Settles O29. -/
theorem flagWaits : Obligations.FlagWaits := by
  refine ⟨fun o s c k w hi hd => ?wait, fun o s c k w b hi hd => ?done, fun o s c k w hi hs => ?ftest⟩
  case wait =>
    intro named code met
    have hmet : met ↔ waitMet o w = true := by
      simp only [waitMet_iff, threshold_eq]
      rfl
    refine ⟨fun hm => ⟨_, exec_wait_met hi hd (hmet.1 hm), State.warp_setWarp_self .., quiet_setWarp ..⟩, fun hm => ?_⟩
    obtain ⟨hregs, hflight, hstop⟩ := w.holdBefore_spec s.cycle
    refine ⟨_, exec_wait_unmet hi hd (Bool.eq_false_iff.2 fun h => hm (hmet.2 h)), ⟨_, State.warp_setWarp_self .., ?_, hflight, rfl, rfl, hstop⟩,
      quiet_setWarp ..⟩
    exact { hregs with }
  case done => exact ⟨_, exec_wait_done hi hd, State.warp_setWarp_self .., quiet_setWarp ..⟩
  case ftest =>
    refine testS_lands (b := if o.sub.val = 0 then decide (w.seen o.a.val ≤ csN o) else !decide (w.seen o.a.val ≤ csN o)) hi rfl rfl rfl ?_
    by_cases h0 : o.sub = 0
    · simp [h0]
    · simp [h0]

end Sys2Proof.Machine
end

