-- ==== Sys2Proof/Proofs/DecodeChecks.lean ====
section
/-! PROOFS. The decode checks of a bundle: their order, the slots that they are made of, and the trap of the first that fails (R35, R40, R41,
R338). -/

namespace Sys2Proof.Machine
open Claim

/-! ## One slot -/

/-- R40, R41: the decode failure of a slot is its cause, with the number of the slot. -/
theorem slotFail_eq_some_iff {w : Warp} {n : Nat} {d : SlotD} {p : Nat × Nat} :
    slotFail w n d = some p ↔ SlotFails w n d p.1 ∧ p.2 = n := by
  obtain ⟨cause, m⟩ := p
  have hpair (x : Nat) : some (x, n) = some (cause, m) ↔ cause = x ∧ m = n := by
    rw [Option.some.injEq, Prod.mk.injEq, eq_comm, @eq_comm _ n]
  cases d with
  | absent => simp [slotFail, SlotFails]
  | bad e => cases e <;> exact hpair _
  | ok i =>
    simp only [slotFail, SlotFails, opFail]
    by_cases hb : w.budget < topReg i
    · simp only [hb, if_true, Option.map_some, hpair, true_and, Nat.not_le.2 hb, false_and, or_false]
    · cases ha : w.allowed i
      · simp only [hb, if_false, Bool.not_false, if_true, Option.map_some, hpair, false_and, Nat.not_lt.1 hb, true_and, false_or]
      · simp [hb]

/-- A slot that does not fail has no decode failure. -/
theorem slotFail_eq_none {w : Warp} {n : Nat} {d : SlotD} (h : ∀ cause, ¬SlotFails w n d cause) : slotFail w n d = none :=
  Option.eq_none_iff_forall_ne_some.2 fun p hp => h p.1 (slotFail_eq_some_iff.1 hp).1

/-! ## The whole bundle -/

/-- The decode checks of the slots, each made when its slot is to issue (R40, R338). -/
def slotChecks (w : Warp) (b : Bundle) : List (Option (Nat × Nat)) :=
  [b.v, b.m, b.x, b.c].mapIdx fun n d => if w.replays n then slotFail w n d else none

/-- R40: after the check of the header, the checks of the slots are made in order. -/
theorem decodeFail_of_legal {w : Warp} {b : Bundle} (hi : b.illegal = false) (hr : w.replay ≠ some 0) :
    decodeFail w b = (slotChecks w b).findSome? id := by
  simp only [decodeFail, if_neg hr, hi]
  rfl

/-- R35: the check of the header comes first. -/
theorem decodeFail_of_illegal {w : Warp} {b : Bundle} (hi : b.illegal = true) (hr : w.replay ≠ some 0) : decodeFail w b = some (0x040, 0) := by
  simp [decodeFail, hr, hi]

/-- R338: with no slot to issue no check is made. -/
theorem decodeFail_of_empty {w : Warp} (b : Bundle) (hr : w.replay = some 0) : decodeFail w b = none := by
  simp [decodeFail, hr]

/-- The first of a list of checks that fails. -/
theorem findSome_of_lowest {α : Type} {xs : List (Option α)} {n : Nat} {a : α} (hn : xs[n]? = some (some a))
    (hlow : ∀ j < n, xs[j]? = some none) : xs.findSome? id = some a := by
  induction xs generalizing n with
  | nil => simp at hn
  | cons x xs ih =>
    cases n with
    | zero =>
      obtain rfl : x = some a := by simpa using hn
      rfl
    | succ n =>
      obtain rfl : x = none := by simpa using hlow 0 n.succ_pos
      exact ih (by simpa using hn) fun j hj => by simpa using hlow (j + 1) (Nat.succ_lt_succ hj)

/-- R40: the lowest slot that is to issue and fails gives the cause of the bundle. -/
theorem decodeFail_of_lowest {w : Warp} {b : Bundle} {n cause : Nat} {d : SlotD} (hi : b.illegal = false) (hr : w.replay ≠ some 0)
    (hd : [b.v, b.m, b.x, b.c][n]? = some d) (hn : w.replays n = true) (hf : SlotFails w n d cause)
    (hlow : ∀ j e y, j < n → [b.v, b.m, b.x, b.c][j]? = some e → w.replays j = true → ¬SlotFails w j e y) :
    decodeFail w b = some (cause, n) := by
  rw [decodeFail_of_legal hi hr]
  refine findSome_of_lowest (n := n) ?_ fun j hj => ?_
  · rw [slotChecks, List.getElem?_mapIdx, hd, Option.map_some, if_pos hn, (slotFail_eq_some_iff (p := (cause, n))).2 ⟨hf, rfl⟩]
  · obtain ⟨e, he⟩ : ∃ e, [b.v, b.m, b.x, b.c][j]? = some e :=
      ⟨_, List.getElem?_eq_getElem (Nat.lt_trans hj (List.getElem?_eq_some_iff.1 hd).1)⟩
    rw [slotChecks, List.getElem?_mapIdx, he, Option.map_some]
    split
    · next hon => rw [slotFail_eq_none fun y => hlow j e y hj he hon]
    · rfl

/-! ## The issue -/

/-- R23, R40, R328: a bundle that is due and fails a decode check traps before any slot takes effect. -/
theorem bundleIssue_of_fail {s : State} {c k : Nat} {w : Warp} {b : Bundle} {cause n : Nat} (hw : s.warp? c k = some w)
    (hc : canBundleIssue c k s = true) (hb : Due w b) (hd : decodeFail w b = some (cause, n)) :
    exec (.bundleIssue c k) s = .next (s.failWhole c k (presentOf b) ⟨cause, 0, 0⟩ n) := by
  obtain ⟨hdef, hhold, -, ⟨x, hx, rfl⟩, hdrain, -⟩ := hb
  have hexec : exec (.bundleIssue c k) s = .next (s.issue c k) := event_of hc ..
  have hissue : s.issue c k = s.issueFetched c k w (decodeBundle x) := by
    simp [State.issue, State.onWarp_of hw, Warp.deferredNow, hdef, Warp.holdHere, hhold, hx]
  rw [hexec, hissue, State.issueFetched, hd]
  cases hD : (decodeBundle x).hdr.d with
  | false => simp
  | true =>
    obtain ⟨hf, hp, hh⟩ := hdrain hD
    cases hH : w.halt with
    | false => simp [hf, hp]
    | true => simp [hf, hp, hh hH]

/-- R338: with REPLAY 0 no slot issues. -/
theorem opsOf_empty {w : Warp} (b : Bundle) (hr : w.replay = some 0) : w.opsOf b = ⟨none, none, none, none⟩ := by
  have hoff (n : Nat) : w.replays n = false := by simp [Warp.replays, hr]
  have hop (d : SlotD) : opOf false d = none := by cases d <;> rfl
  simp [Warp.opsOf, hoff, hop]

/-- Settles O54. -/
theorem decodeFailures : Obligations.DecodeFailures := by
  intro s c k w b hw hc hb
  refine ⟨fun hi hr => ?header, fun hr => ?empty, fun n d cause hi hr hd hn hf hlow => ?slot⟩
  case header => exact bundleIssue_of_fail hw hc hb (decodeFail_of_illegal hi hr)
  case empty => rw [bundleIssue_of_due hw hc hb (decodeFail_of_empty b hr), opsOf_empty b hr]
  case slot => exact bundleIssue_of_fail hw hc hb (decodeFail_of_lowest hi hr hd hn hf hlow)

end Sys2Proof.Machine
end

