-- ==== Sys2Proof/Proofs/Rounding.lean ====
section
/-! PROOFS. Rounding to units and into a format: the count of units, the code of a rounded magnitude, and the one rounding of an exact value
(R85, R90 to R92, R94). -/

namespace Sys2Proof.Fp
open Claim

/-! ## Counting in units -/

/-- A positive number lies between the powers of two around its leading bit. -/
theorem bitLen_bounds {m : Nat} (hm : 0 < m) : 0 < bitLen m ∧ 2 ^ (bitLen m - 1) ≤ m ∧ m < 2 ^ bitLen m := by
  simp only [bitLen, if_neg hm.ne', Nat.add_sub_cancel]
  exact ⟨Nat.succ_pos _, Nat.log2_self_le hm.ne', Nat.lt_log2_self⟩

/-- R90: when a magnitude with a remainder moves away from zero. -/
theorem roundUp_iff (rm : RM) (neg odd : Bool) (c : Ordering) : roundUp rm neg odd c = true ↔
    match rm with
    | .rne => c = .gt ∨ (c = .eq ∧ odd = true)
    | .rtz => False
    | .rdn => neg = true
    | .rup => neg = false := by
  cases rm <;> simp [roundUp]

/-- R91 step 2: dropping `d` places divides by 2^d and rounds by the remainder; a magnitude far below one unit is no exception. -/
theorem toUnits_drop (rm : RM) (neg : Bool) (m : Nat) (e : Int) {d : Nat} (hd : 0 < d) :
    toUnits rm neg m e (e + d) = if m % 2 ^ d = 0 then (m / 2 ^ d, false)
      else (if roundUp rm neg (m / 2 ^ d % 2 = 1) (compare (m % 2 ^ d) (2 ^ (d - 1))) then m / 2 ^ d + 1 else m / 2 ^ d, true) := by
  have hq : ¬ e + d ≤ e := by omega
  have hsub : (e + d - e).toNat = d := by omega
  simp only [toUnits, if_neg hq, hsub]
  split
  next hsmall =>
    rcases Nat.eq_zero_or_pos m with rfl | hm
    · simp
    · have hlt : m < 2 ^ (d - 1) := (bitLen_bounds hm).2.2.trans_le (Nat.pow_le_pow_right (by decide) (by omega))
      have hle : 2 ^ (d - 1) < 2 ^ d := Nat.pow_lt_pow_right (by decide) (by omega)
      have hcmp : compare m (2 ^ (d - 1)) = .lt := Nat.compare_eq_lt.2 hlt
      rw [Nat.mod_eq_of_lt (hlt.trans hle), Nat.div_eq_of_lt (hlt.trans hle), hcmp]
      cases rm <;> cases neg <;> simp [roundUp, hm.ne']
  next => rfl

/-- The quotient by 2^d is the floor: it lies within one unit below. -/
theorem div_bounds (m d : Nat) : m / 2 ^ d * 2 ^ d + m % 2 ^ d = m ∧ m % 2 ^ d < 2 ^ d :=
  ⟨Nat.div_add_mod' m _, Nat.mod_lt _ (Nat.two_pow_pos d)⟩

/-- The quotient by 2^d rounded up. -/
theorem ceil_div (m d : Nat) : (m + 2 ^ d - 1) / 2 ^ d = if m % 2 ^ d = 0 then m / 2 ^ d else m / 2 ^ d + 1 := by
  obtain ⟨hm, hr⟩ := div_bounds m d
  have hp := Nat.two_pow_pos d
  split
  next h => exact Nat.div_eq_of_lt_le (by omega) (by rw [Nat.add_mul]; omega)
  next h => exact Nat.div_eq_of_lt_le (by rw [Nat.add_mul]; omega) (by rw [Nat.add_mul, Nat.add_mul]; omega)

/-- R90, R91: the count of units, with whether a remainder was dropped. -/
theorem toUnits_count (rm : RM) (neg : Bool) (m d : Nat) (e : Int) (hd : 0 < d) :
    let r := toUnits rm neg m e (e + d)
    let n := r.1
    (r.2 = true ↔ n * 2 ^ d ≠ m) ∧ n * 2 ^ d < m + 2 ^ d ∧ m < n * 2 ^ d + 2 ^ d ∧
    (rm = .rtz → n = m / 2 ^ d) ∧ (rm = .rdn → n = if neg then (m + 2 ^ d - 1) / 2 ^ d else m / 2 ^ d) ∧
    (rm = .rup → n = if neg then m / 2 ^ d else (m + 2 ^ d - 1) / 2 ^ d) ∧
    (rm = .rne → 2 * m ≤ 2 * (n * 2 ^ d) + 2 ^ d ∧ 2 * (n * 2 ^ d) ≤ 2 * m + 2 ^ d ∧
      (2 * m = 2 * (n * 2 ^ d) + 2 ^ d ∨ 2 * (n * 2 ^ d) = 2 * m + 2 ^ d → n % 2 = 0)) := by
  obtain ⟨hm, hr⟩ := div_bounds m d
  have hp : 2 * 2 ^ (d - 1) = 2 ^ d := by rw [← pow_succ', Nat.sub_add_cancel hd]
  simp only [toUnits_drop rm neg m e hd, ceil_div]
  by_cases h0 : m % 2 ^ d = 0
  · simp only [h0, if_true, ite_self]
    exact ⟨by simp; omega, by omega, by omega, fun _ => trivial, fun _ => trivial, fun _ => trivial, fun _ => ⟨by omega, by omega, by omega⟩⟩
  · simp only [if_neg h0, true_iff]
    have hsucc : (m / 2 ^ d + 1) * 2 ^ d = m / 2 ^ d * 2 ^ d + 2 ^ d := by rw [Nat.add_mul, Nat.one_mul]
    by_cases hu : roundUp rm neg (m / 2 ^ d % 2 = 1) (compare (m % 2 ^ d) (2 ^ (d - 1))) = true
    · rw [if_pos hu]
      rw [roundUp_iff] at hu
      refine ⟨by omega, by omega, by omega, ?_, ?_, ?_, ?_⟩
      · rintro rfl
        exact hu.elim
      · rintro rfl
        simp [show neg = true from hu]
      · rintro rfl
        simp [show neg = false from hu]
      · rintro rfl
        simp only [Nat.compare_eq_gt, Nat.compare_eq_eq, decide_eq_true_eq] at hu
        omega
    · rw [if_neg hu]
      rw [roundUp_iff] at hu
      refine ⟨by omega, by omega, by omega, fun _ => rfl, ?_, ?_, ?_⟩
      · rintro rfl
        simp [show neg = false by simpa using hu]
      · rintro rfl
        simp [show neg = true by simpa using hu]
      · rintro rfl
        simp only [Nat.compare_eq_gt, Nat.compare_eq_eq, decide_eq_true_eq] at hu
        omega

/-! ## Rounding to an integer -/

/-- The sign of an exact value. -/
def sgn (neg : Bool) : ℚ := if neg then -1 else 1

@[simp] theorem sgn_true : sgn true = -1 := rfl
@[simp] theorem sgn_false : sgn false = 1 := rfl

/-- An integer with a sign. -/
def signInt (neg : Bool) (n : Nat) : ℤ := if neg then -n else n

theorem signInt_cast (neg : Bool) (n : Nat) : (signInt neg n : ℚ) = sgn neg * n := by
  cases neg <;> simp [signInt]

theorem sgn_ne_zero (neg : Bool) : sgn neg ≠ 0 := by
  cases neg <;> norm_num

@[simp] theorem abs_sgn_mul (neg : Bool) (x : ℚ) : |sgn neg * x| = |x| := by
  cases neg <;> simp

/-- An integer rounds to itself in every mode. -/
theorem roundInt_self (rm : RM) (n : ℤ) : RoundInt rm n n := by
  cases rm <;> simp [RoundInt]

/-- R90: the count of units, with its sign, is the signed magnitude rounded to an integer. -/
theorem roundInt_toUnits (rm : RM) (neg : Bool) (m d : Nat) (e : Int) (hd : 0 < d) :
    RoundInt rm (sgn neg * ((m : ℚ) / 2 ^ d)) (signInt neg (toUnits rm neg m e (e + d)).1) := by
  obtain ⟨-, hlo, hhi, hrtz, hrdn, hrup, hrne⟩ := toUnits_count rm neg m d e hd
  have hpos : (0 : ℚ) < 2 ^ d := by positivity
  set v : ℚ := (m : ℚ) / 2 ^ d with hv
  have hvm : v * 2 ^ d = m := div_mul_cancel₀ _ hpos.ne'
  have hv0 : 0 ≤ v := by positivity
  have hfloor : ⌊v⌋ = ((m / 2 ^ d : Nat) : ℤ) := by
    rw [hv, ← Nat.cast_ofNat, ← Nat.cast_pow]
    exact_mod_cast Rat.floor_natCast_div_natCast m (2 ^ d)
  have hceil : ⌈v⌉ = (((m + 2 ^ d - 1) / 2 ^ d : Nat) : ℤ) := by
    obtain ⟨hm, hr⟩ := div_bounds (m + 2 ^ d - 1) d
    have hp := Nat.two_pow_pos d
    set c := (m + 2 ^ d - 1) / 2 ^ d with hc
    have hle : (m : ℚ) ≤ c * 2 ^ d := by exact_mod_cast (show m ≤ c * 2 ^ d by omega)
    have hlt : (c * 2 ^ d : ℚ) < m + 2 ^ d := by exact_mod_cast (show c * 2 ^ d < m + 2 ^ d by omega)
    rw [Int.ceil_eq_iff, Int.cast_natCast, hv, sub_lt_iff_lt_add, div_add_one hpos.ne', lt_div_iff₀ hpos, div_le_iff₀ hpos]
    exact ⟨hlt, hle⟩
  generalize (toUnits rm neg m e (e + d)).1 = n at *
  cases rm with
  | rtz =>
    rw [RoundInt, hrtz rfl]
    cases neg
    · simp [signInt, hfloor, hv0.not_gt]
    · rcases hv0.eq_or_lt with h0 | h0
      · simp [signInt, ← hfloor, ← h0]
      · simp [signInt, ← hfloor, Int.ceil_neg, h0]
  | rdn =>
    rw [RoundInt, hrdn rfl]
    cases neg
    · simp [signInt, hfloor]
    · simp [signInt, Int.floor_neg, hceil]
  | rup =>
    rw [RoundInt, hrup rfl]
    cases neg
    · simp [signInt, hceil]
    · simp [signInt, Int.ceil_neg, hfloor]
  | rne =>
    obtain ⟨h1, h2, htie⟩ := hrne rfl
    have habs : |sgn neg * v - signInt neg n| = |v - n| := by
      rw [signInt_cast, ← mul_sub, abs_sgn_mul]
    have heven : n % 2 = 0 → signInt neg n % 2 = 0 := by
      cases neg <;> simp only [signInt] <;> omega
    have hscale : (v - n) * 2 ^ d = m - n * 2 ^ d := by rw [sub_mul, hvm]
    have h1' : (2 * m : ℚ) ≤ 2 * (n * 2 ^ d) + 2 ^ d := by exact_mod_cast h1
    have h2' : (2 * (n * 2 ^ d) : ℚ) ≤ 2 * m + 2 ^ d := by exact_mod_cast h2
    rw [RoundInt, habs]
    refine ⟨abs_le.2 ⟨?_, ?_⟩, fun h => heven (htie ?_)⟩
    · nlinarith
    · nlinarith
    · rcases (abs_eq (by norm_num : (0 : ℚ) ≤ 1 / 2)).1 h with h | h
      · exact .inl (by exact_mod_cast (by linarith [h ▸ hscale] : (2 * m : ℚ) = 2 * (n * 2 ^ d) + 2 ^ d))
      · exact .inr (by exact_mod_cast (by linarith [h ▸ hscale] : (2 * (n * 2 ^ d) : ℚ) = 2 * m + 2 ^ d))

/-- Powers of two of integer exponents add up. -/
theorem two_zpow_add (a b : ℤ) : (2 : ℚ) ^ (a + b) = 2 ^ a * 2 ^ b := zpow_add₀ two_ne_zero a b

theorem two_zpow_pos (a : ℤ) : (0 : ℚ) < 2 ^ a := zpow_pos two_pos a

/-- R90, R91: an exact magnitude counted in units of 2^q is rounded to an integer, and the flag says whether the value changed. -/
theorem toUnits_rounds (rm : RM) (neg : Bool) (m : Nat) (e q : Int) :
    RoundInt rm (sgn neg * m * 2 ^ e / 2 ^ q) (signInt neg (toUnits rm neg m e q).1) ∧
      ((toUnits rm neg m e q).2 = true ↔ ((toUnits rm neg m e q).1 : ℚ) * 2 ^ q ≠ m * 2 ^ e) := by
  rcases le_or_gt q e with h | h
  · obtain ⟨d, rfl⟩ : ∃ d : Nat, e = q + d := ⟨(e - q).toNat, by omega⟩
    have hsub : (q + d - q).toNat = d := by omega
    have hv : sgn neg * m * 2 ^ (q + d : ℤ) / 2 ^ q = signInt neg (m * 2 ^ d) := by
      rw [two_zpow_add, signInt_cast, zpow_natCast, div_eq_iff (two_zpow_pos q).ne']
      push_cast
      ring
    simp only [toUnits, if_pos h, hsub, hv]
    refine ⟨roundInt_self rm _, ?_⟩
    rw [two_zpow_add, zpow_natCast]
    push_cast
    simp only [false_iff, not_not]
    ring
  · obtain ⟨d, rfl, hd⟩ : ∃ d : Nat, q = e + d ∧ 0 < d := ⟨(q - e).toNat, by omega, by omega⟩
    have he := two_zpow_pos e
    have hv : sgn neg * m * 2 ^ e / 2 ^ (e + d : ℤ) = sgn neg * ((m : ℚ) / 2 ^ d) := by
      rw [two_zpow_add, zpow_natCast]
      field_simp
    refine ⟨hv ▸ roundInt_toUnits rm neg m d e hd, (toUnits_count rm neg m d e hd).1.trans ?_⟩
    have hm : ((toUnits rm neg m e (e + d)).1 : ℚ) * 2 ^ (e + d : ℤ) = ((toUnits rm neg m e (e + d)).1 * 2 ^ d : Nat) * 2 ^ e := by
      rw [two_zpow_add, zpow_natCast]
      push_cast
      ring
    rw [hm, Ne, Ne, mul_left_inj' he.ne', Nat.cast_inj]

/-- R90: the count of units lies less than one from the magnitude. -/
theorem toUnits_near (rm : RM) (neg : Bool) (m : Nat) (e q : Int) :
    (m : ℚ) * 2 ^ e < ((toUnits rm neg m e q).1 + 1) * 2 ^ q ∧ ((toUnits rm neg m e q).1 - 1) * 2 ^ q < (m : ℚ) * 2 ^ e := by
  rcases le_or_gt q e with h | h
  · have hx : (m : ℚ) * 2 ^ e = (toUnits rm neg m e q).1 * 2 ^ q := by
      obtain ⟨d, rfl⟩ : ∃ d : Nat, e = q + d := ⟨(e - q).toNat, by omega⟩
      have hsub : (q + d - q).toNat = d := by omega
      simp only [toUnits, if_pos h, hsub]
      rw [two_zpow_add, zpow_natCast]
      push_cast
      ring
    rw [hx]
    constructor <;> nlinarith [two_zpow_pos q]
  · obtain ⟨d, rfl, hd⟩ : ∃ d : Nat, q = e + d ∧ 0 < d := ⟨(q - e).toNat, by omega, by omega⟩
    obtain ⟨-, hlo, hhi, -⟩ := toUnits_count rm neg m d e hd
    generalize (toUnits rm neg m e (e + d)).1 = n at *
    have hlo' : (n * 2 ^ d : ℚ) < m + 2 ^ d := by exact_mod_cast hlo
    have hhi' : (m : ℚ) < n * 2 ^ d + 2 ^ d := by exact_mod_cast hhi
    rw [two_zpow_add, zpow_natCast]
    constructor <;> nlinarith [two_zpow_pos e]

/-- A magnitude of `k` units or more counts as `k` or more. -/
theorem le_toUnits (rm : RM) (neg : Bool) {m k : Nat} {e q : Int} (h : (k : ℚ) * 2 ^ q ≤ m * 2 ^ e) : k ≤ (toUnits rm neg m e q).1 := by
  have h1 := (h.trans_lt (toUnits_near rm neg m e q).1)
  have h2 := lt_of_mul_lt_mul_right h1 (two_zpow_pos q).le
  exact Nat.lt_succ_iff.1 (by exact_mod_cast h2)

/-- A magnitude of `k` units or fewer counts as `k` or fewer. -/
theorem toUnits_le (rm : RM) (neg : Bool) {m k : Nat} {e q : Int} (h : (m : ℚ) * 2 ^ e ≤ k * 2 ^ q) : (toUnits rm neg m e q).1 ≤ k := by
  have h1 := (toUnits_near rm neg m e q).2.trans_le h
  have h2 := lt_of_mul_lt_mul_right h1 (two_zpow_pos q).le
  exact Nat.lt_succ_iff.1 (by exact_mod_cast sub_lt_iff_lt_add.1 h2)

/-! ## Codes -/

/-- What rounding needs to know of a format: its greatest finite value is that of its greatest finite code, and exponents up to it have a field. -/
structure FmtOk (f : Fmt) : Prop where
  max_eq : codeRat f (maxCode f) = f.maxMant * 2 ^ f.maxExp
  max_lt : (f.maxMant : ℚ) * 2 ^ f.maxExp < 2 ^ ((2 : ℤ) ^ f.eb - f.bias)
  mant_lt : f.maxMant < 2 ^ (f.p + 1)
  emin_le : f.emin - f.p ≤ f.maxExp
  max_code : maxCode f < 2 ^ (f.eb + f.p)

theorem fmtOk {f : Fmt} (h : f ∈ [f32, bf16, f16, e5m2, e4m3]) : FmtOk f := by
  simp only [List.mem_cons, List.not_mem_nil, or_false] at h
  rcases h with rfl | rfl | rfl | rfl | rfl
  all_goals
    constructor
    · norm_num [codeRat, maxCode, f32, bf16, f16, e5m2, e4m3, Fmt.maxMant, Fmt.maxExp, Nat.testBit, Nat.shiftRight_eq_div_pow]
    · norm_num [f32, bf16, f16, e5m2, e4m3, Fmt.maxMant, Fmt.maxExp]
    · decide
    · decide
    · decide

/-- The value of a magnitude code from its fields. -/
theorem codeRat_fields (f : Fmt) {E F : Nat} (hF : F < 2 ^ f.p) (hE : E < 2 ^ f.eb) : E * 2 ^ f.p + F < 2 ^ (f.eb + f.p) ∧
    codeRat f (E * 2 ^ f.p + F) =
      if E = 0 then 2 ^ f.emin * ((F : ℚ) / 2 ^ f.p) else 2 ^ ((E : ℤ) - f.bias) * (1 + (F : ℚ) / 2 ^ f.p) := by
  have hlt : E * 2 ^ f.p + F < 2 ^ (f.eb + f.p) := by
    rw [pow_add]
    nlinarith [Nat.two_pow_pos f.p]
  have hexp : (E * 2 ^ f.p + F) / 2 ^ f.p % 2 ^ f.eb = E := by
    rw [Nat.mul_comm, Nat.mul_add_div (Nat.two_pow_pos _), Nat.div_eq_of_lt hF, Nat.add_zero, Nat.mod_eq_of_lt hE]
  have hfrac : (E * 2 ^ f.p + F) % 2 ^ f.p = F := by rw [Nat.mul_comm, Nat.mul_add_mod, Nat.mod_eq_of_lt hF]
  refine ⟨hlt, ?_⟩
  simp only [codeRat, hexp, hfrac, Nat.testBit_lt_two_pow hlt, Bool.false_eq_true, if_false, one_mul, Nat.cast_eq_zero]
  rfl

theorem sign_add_lt (f : Fmt) (neg : Bool) {x : Nat} (hx : x < 2 ^ (f.eb + f.p)) : f.sign neg + x < 2 ^ (1 + f.eb + f.p) := by
  rw [show 1 + f.eb + f.p = f.eb + f.p + 1 by omega, pow_succ]
  cases neg <;> simp only [Fmt.sign, Bool.false_eq_true, if_true, if_false] <;> omega

/-- The sign bit of a code. -/
theorem testBit_sign (f : Fmt) (neg : Bool) {x : Nat} (hx : x < 2 ^ (f.eb + f.p)) : (f.sign neg + x).testBit (f.eb + f.p) = neg := by
  cases neg <;> simp [Fmt.sign, Nat.testBit_lt_two_pow hx, Nat.testBit_two_pow_add_eq]

/-- The sign bit of a code negates its value. -/
theorem codeRat_sign (f : Fmt) (neg : Bool) {x : Nat} (hx : x < 2 ^ (f.eb + f.p)) : codeRat f (f.sign neg + x) = sgn neg * codeRat f x := by
  have hexp : (f.sign neg + x) / 2 ^ f.p % 2 ^ f.eb = x / 2 ^ f.p % 2 ^ f.eb := by
    cases neg
    · simp [Fmt.sign]
    · rw [Fmt.sign, if_pos rfl, pow_add, Nat.mul_comm, Nat.mul_add_div (Nat.two_pow_pos _), Nat.add_mod_left]
  have hfrac : (f.sign neg + x) % 2 ^ f.p = x % 2 ^ f.p := by
    cases neg
    · simp [Fmt.sign]
    · rw [Fmt.sign, if_pos rfl, pow_add, Nat.mul_comm, Nat.mul_add_mod]
  simp only [codeRat, testBit_sign f neg hx, hexp, hfrac, Nat.testBit_lt_two_pow hx, Bool.false_eq_true, if_false, one_mul]
  rfl

/-- The code of a normal magnitude `n` · 2^q stands for it. -/
theorem codeRat_normal {f : Fmt} (hf : FmtOk f) {n : Nat} {q : Int} (hq : f.emin - f.p ≤ q) (hlo : 2 ^ f.p ≤ n) (hhi : n < 2 ^ (f.p + 1))
    (hmax : (n : ℚ) * 2 ^ q ≤ f.maxMant * 2 ^ f.maxExp) :
    (q + f.p + f.bias).toNat * 2 ^ f.p + (n - 2 ^ f.p) < 2 ^ (f.eb + f.p) ∧
      codeRat f ((q + f.p + f.bias).toNat * 2 ^ f.p + (n - 2 ^ f.p)) = n * 2 ^ q := by
  have hE : (q + f.p + f.bias).toNat < 2 ^ f.eb := by
    have hle : (2 : ℚ) ^ (f.p + q : ℤ) < 2 ^ ((2 : ℤ) ^ f.eb - f.bias) := by
      have hn : (2 : ℚ) ^ f.p ≤ n := by exact_mod_cast hlo
      rw [two_zpow_add, zpow_natCast]
      exact ((mul_le_mul_of_nonneg_right hn (two_zpow_pos q).le).trans hmax).trans_lt hf.max_lt
    have h := (zpow_lt_zpow_iff_right₀ (one_lt_two (α := ℚ))).1 hle
    rw [Int.toNat_lt']
    · push_cast
      omega
    · exact Nat.two_pow_pos _
  have hE0 : (q + f.p + f.bias).toNat ≠ 0 := by
    simp only [Fmt.emin] at hq
    omega
  have hcast : ((q + f.p + f.bias).toNat : ℤ) = q + f.p + f.bias := Int.toNat_of_nonneg (by simp only [Fmt.emin] at hq; omega)
  obtain ⟨hlt, hval⟩ := codeRat_fields f (show n - 2 ^ f.p < 2 ^ f.p by rw [pow_succ] at hhi; omega) hE
  refine ⟨hlt, hval.trans ?_⟩
  have hp : (2 : ℚ) ^ f.p ≠ 0 := by positivity
  rw [if_neg hE0, hcast, Nat.cast_sub hlo, show q + f.p + f.bias - f.bias = f.p + q by ring, two_zpow_add, zpow_natCast]
  push_cast
  field_simp
  ring

/-- The code of a magnitude that counts `n` units of 2^q, as rounding leaves it, stands for it. -/
theorem encodeMag_spec {f : Fmt} (hf : FmtOk f) {n : Nat} {q : Int} (hq : f.emin - f.p ≤ q) (hsub : n < 2 ^ f.p → q = f.emin - f.p)
    (hn : n ≤ 2 ^ (f.p + 1)) (hmax : (n : ℚ) * 2 ^ q ≤ f.maxMant * 2 ^ f.maxExp) :
    encodeMag f n q < 2 ^ (f.eb + f.p) ∧ codeRat f (encodeMag f n q) = n * 2 ^ q := by
  have hp : (2 : ℚ) ^ f.p ≠ 0 := by positivity
  unfold encodeMag
  split
  next h =>
    obtain ⟨hlt, hval⟩ := codeRat_fields f h (Nat.two_pow_pos f.eb)
    rw [Nat.zero_mul, Nat.zero_add] at hlt hval
    refine ⟨hlt, hval.trans ?_⟩
    rw [if_pos rfl, hsub h, sub_eq_add_neg, two_zpow_add, zpow_neg, zpow_natCast]
    ring
  next h =>
    by_cases hc : n = 2 ^ (f.p + 1)
    · subst hc
      have hval : ((2 ^ f.p : Nat) : ℚ) * 2 ^ (q + 1) = (2 ^ (f.p + 1) : Nat) * 2 ^ q := by
        rw [two_zpow_add]
        push_cast
        ring
      rw [if_pos rfl, ← hval]
      exact codeRat_normal hf (by omega) le_rfl (Nat.pow_lt_pow_right (by decide) (Nat.lt_succ_self _)) (hval ▸ hmax)
    · rw [if_neg hc]
      exact codeRat_normal hf hq (not_lt.1 h) (lt_of_le_of_ne hn hc) hmax

/-! ## The rounding of a nonzero exact value -/

/-- The place of the leading bit of a magnitude. -/
def topOf (m : Nat) (e : Int) : Int := e + bitLen m - 1

theorem topOf_bounds {m : Nat} (hm : 0 < m) (e : Int) : (2 : ℚ) ^ topOf m e ≤ m * 2 ^ e ∧ (m : ℚ) * 2 ^ e < 2 ^ (topOf m e + 1) := by
  obtain ⟨hpos, hlo, hhi⟩ := bitLen_bounds hm
  have hlo' : ((2 ^ (bitLen m - 1) : Nat) : ℚ) ≤ m := by exact_mod_cast hlo
  have hhi' : (m : ℚ) < (2 ^ bitLen m : Nat) := by exact_mod_cast hhi
  have he := two_zpow_pos e
  rw [show topOf m e = ((bitLen m - 1 : Nat) : ℤ) + e by simp only [topOf]; omega,
    show ((bitLen m - 1 : Nat) : ℤ) + e + 1 = (bitLen m : ℤ) + e by omega, two_zpow_add, two_zpow_add, zpow_natCast, zpow_natCast]
  push_cast at hlo' hhi'
  exact ⟨by gcongr, by gcongr⟩

/-- R91 step 1: the place of the last fraction bit of a magnitude in a format. -/
def unitOf (f : Fmt) (m : Nat) (e : Int) : Int := max (topOf m e) f.emin - f.p

/-- The count of units that rounding makes: at most that of the next power of two, and at least 2^p for a normal magnitude. -/
theorem count_bounds (f : Fmt) (rm : RM) (neg : Bool) {m : Nat} (hm : 0 < m) (e : Int) :
    (toUnits rm neg m e (unitOf f m e)).1 ≤ 2 ^ (f.p + 1) ∧ (f.emin ≤ topOf m e → 2 ^ f.p ≤ (toUnits rm neg m e (unitOf f m e)).1) := by
  obtain ⟨hlo, hhi⟩ := topOf_bounds hm e
  constructor
  · refine toUnits_le rm neg (hhi.le.trans ?_)
    rw [Nat.cast_pow, Nat.cast_ofNat, ← zpow_natCast, ← two_zpow_add]
    exact zpow_le_zpow_right₀ one_le_two (by simp only [unitOf]; omega)
  · intro h
    refine le_toUnits rm neg (le_trans ?_ hlo)
    rw [Nat.cast_pow, Nat.cast_ofNat, ← zpow_natCast, ← two_zpow_add]
    exact zpow_le_zpow_right₀ one_le_two (by simp only [unitOf]; omega)

/-- A magnitude above every exponent of a format counts more than the greatest finite one. -/
theorem max_lt_of_top {f : Fmt} (hf : FmtOk f) (rm : RM) (neg : Bool) {m : Nat} (hm : 0 < m) (e : Int) (h : f.maxExp + f.p < topOf m e) :
    (f.maxMant : ℚ) * 2 ^ f.maxExp < (toUnits rm neg m e (unitOf f m e)).1 * 2 ^ unitOf f m e := by
  have hemin := hf.emin_le
  have hn : ((2 ^ f.p : Nat) : ℚ) ≤ (toUnits rm neg m e (unitOf f m e)).1 := by exact_mod_cast (count_bounds f rm neg hm e).2 (by omega)
  have hmant : (f.maxMant : ℚ) < (2 ^ (f.p + 1) : Nat) := by exact_mod_cast hf.mant_lt
  calc (f.maxMant : ℚ) * 2 ^ f.maxExp < (2 ^ (f.p + 1) : Nat) * 2 ^ f.maxExp := mul_lt_mul_of_pos_right hmant (two_zpow_pos _)
    _ ≤ (2 ^ f.p : Nat) * 2 ^ unitOf f m e := by
        rw [Nat.cast_pow, Nat.cast_pow, Nat.cast_ofNat, ← zpow_natCast, ← zpow_natCast, ← two_zpow_add, ← two_zpow_add]
        exact zpow_le_zpow_right₀ one_le_two (by simp only [unitOf]; push_cast; omega)
    _ ≤ _ := mul_le_mul_of_nonneg_right hn (two_zpow_pos _).le

/-- R91 step 3: the test for an overflow compares the rounded magnitude with the greatest finite one. -/
theorem tooBig_iff {f : Fmt} (hf : FmtOk f) (rm : RM) (neg : Bool) {m : Nat} (hm : 0 < m) (e : Int) :
    (if unitOf f m e ≤ f.maxExp then (toUnits rm neg m e (unitOf f m e)).1 > f.maxMant * 2 ^ (f.maxExp - unitOf f m e).toNat else true) ↔
      (f.maxMant : ℚ) * 2 ^ f.maxExp < (toUnits rm neg m e (unitOf f m e)).1 * 2 ^ unitOf f m e := by
  split
  next h =>
    have hsplit : (f.maxMant : ℚ) * 2 ^ f.maxExp = (f.maxMant * 2 ^ (f.maxExp - unitOf f m e).toNat : Nat) * 2 ^ unitOf f m e := by
      obtain ⟨d, hd⟩ : ∃ d : Nat, f.maxExp = d + unitOf f m e := ⟨(f.maxExp - unitOf f m e).toNat, by omega⟩
      rw [show (f.maxExp - unitOf f m e).toNat = d by omega, hd, two_zpow_add, zpow_natCast]
      push_cast
      ring
    rw [hsplit, mul_lt_mul_iff_left₀ (two_zpow_pos _), Nat.cast_lt]
  next h =>
    have := hf.emin_le
    exact iff_of_true rfl (max_lt_of_top hf rm neg hm e (by simp only [unitOf] at h; omega))

/-- R91: the classes of a result that is not an overflow. -/
def roundEvents (f : Fmt) (inexact : Bool) (top : Int) : BitVec 8 :=
  (if inexact then evInexact else 0) ||| (if inexact ∧ top < f.emin then evUnderflow else 0)

theorem roundEvents_eq (f : Fmt) (inexact : Bool) (top : Int) :
    roundEvents f inexact top = if inexact = true then if top < f.emin then 0x88 else 0x80 else 0 := by
  cases inexact
  · simp [roundEvents]
  · by_cases h : top < f.emin <;> simp [roundEvents, evInexact, evUnderflow, h]

/-- R91: rounding counts the magnitude in units of the place of its last fraction bit, and overflows where the count is above the greatest finite one. -/
theorem round_eq {f : Fmt} (hf : FmtOk f) (rm : RM) (sat : Sat) (neg : Bool) {m : Nat} (hm : 0 < m) (e : Int) :
    round f rm sat neg m e =
      if (f.maxMant : ℚ) * 2 ^ f.maxExp < (toUnits rm neg m e (unitOf f m e)).1 * 2 ^ unitOf f m e then overflow f rm sat neg
      else (f.sign neg + encodeMag f (toUnits rm neg m e (unitOf f m e)).1 (unitOf f m e),
        roundEvents f (toUnits rm neg m e (unitOf f m e)).2 (topOf m e)) := by
  have hround : round f rm sat neg m e = if topOf m e > f.maxExp + f.p + 1 then overflow f rm sat neg else
      if (if unitOf f m e ≤ f.maxExp then (toUnits rm neg m e (unitOf f m e)).1 > f.maxMant * 2 ^ (f.maxExp - unitOf f m e).toNat else true) then
        overflow f rm sat neg
      else (f.sign neg + encodeMag f (toUnits rm neg m e (unitOf f m e)).1 (unitOf f m e),
        roundEvents f (toUnits rm neg m e (unitOf f m e)).2 (topOf m e)) := rfl
  rw [hround]
  by_cases htop : topOf m e > f.maxExp + f.p + 1
  · rw [if_pos htop, if_pos (max_lt_of_top hf rm neg hm e (by omega))]
  · rw [if_neg htop]
    exact if_congr (tooBig_iff hf rm neg hm e) rfl rfl

/-- R91 step 3, R92, R94: the code and classes of an overflow, as an SAT mode gives them for a sign. -/
def OverflowsTo (f : Fmt) (rm : RM) (sat : Sat) (clamp : Bool) (ov : BitVec 8) : Prop :=
  ∀ neg, overflow f rm sat neg = (f.sign neg + (maxCode f +
    if clamp = true ∨ rm = .rtz ∨ (rm = .rdn ∧ neg = false) ∨ (rm = .rup ∧ neg = true) then 0 else 1), ov)

theorem overflow_none {f : Fmt} (h : f ∈ [f32, bf16, f16, e5m2]) (rm : RM) : OverflowsTo f rm .none false 0x84 := by
  simp only [List.mem_cons, List.not_mem_nil, or_false] at h
  intro neg
  rcases h with rfl | rfl | rfl | rfl <;> cases rm <;> cases neg <;> decide

theorem overflow_arith {f : Fmt} (h : f ∈ [f32, bf16, f16, e5m2]) (rm : RM) : OverflowsTo f rm .arith true 0x84 := by
  simp only [List.mem_cons, List.not_mem_nil, or_false] at h
  intro neg
  rcases h with rfl | rfl | rfl | rfl <;> rfl

theorem overflow_conv {f : Fmt} (h : f ∈ [f32, bf16, f16, e5m2]) (rm : RM) : OverflowsTo f rm .conv true 0xA0 := by
  simp only [List.mem_cons, List.not_mem_nil, or_false] at h
  intro neg
  rcases h with rfl | rfl | rfl | rfl <;> rfl

theorem overflow_e4m3 (rm : RM) (sat : Sat) : OverflowsTo e4m3 rm sat true 0xA0 := fun _ => rfl

/-- The exact signed value is below 0 just where its sign says so. -/
theorem signed_neg_iff {neg : Bool} {x : ℚ} (hx : 0 < x) : (sgn neg * x < 0 ↔ neg = true) ∧ (0 < sgn neg * x ↔ neg = false) := by
  cases neg <;> simp [hx, hx.not_gt]

/-- R91, R92, R94: a nonzero exact value rounds once into a format. -/
theorem rounds_round {f : Fmt} (hf : FmtOk f) {rm : RM} {sat : Sat} {clamp : Bool} {ov : BitVec 8} (hov : OverflowsTo f rm sat clamp ov)
    (neg : Bool) {m : Nat} (hm : 0 < m) (e : Int) : Rounds f rm clamp ov (sgn neg * (m * 2 ^ e)) (round f rm sat neg m e) := by
  have hx : (0 : ℚ) < m * 2 ^ e := mul_pos (by exact_mod_cast hm) (two_zpow_pos e)
  have habs : |sgn neg * ((m : ℚ) * 2 ^ e)| = m * 2 ^ e := by rw [abs_sgn_mul, abs_of_pos hx]
  obtain ⟨hlo, hhi⟩ := topOf_bounds hm e
  obtain ⟨hneg, hpos⟩ := signed_neg_iff (neg := neg) hx
  obtain ⟨hint, hexact⟩ := toUnits_rounds rm neg m e (unitOf f m e)
  obtain ⟨hcount, hnormal⟩ := count_bounds f rm neg hm e
  have hround := round_eq hf rm sat neg hm e
  generalize toUnits rm neg m e (unitOf f m e) = r at *
  have hy : (signInt neg r.1 : ℚ) * 2 ^ unitOf f m e = sgn neg * (r.1 * 2 ^ unitOf f m e) := by rw [signInt_cast, mul_assoc]
  have hyabs : |(signInt neg r.1 : ℚ) * 2 ^ unitOf f m e| = r.1 * 2 ^ unitOf f m e := by
    rw [hy, abs_sgn_mul, abs_of_nonneg (mul_nonneg (Nat.cast_nonneg _) (two_zpow_pos _).le)]
  refine ⟨unitOf f m e, signInt neg r.1, ?_, ?_, ?_, by rwa [← mul_assoc], fun hfit => ?fits, fun hover => ?overflows⟩
  · simp only [unitOf, Fmt.emin]
    omega
  · rw [habs]
    exact hhi.trans_le (zpow_le_zpow_right₀ one_le_two (by simp only [unitOf]; omega))
  · rw [habs]
    rcases le_or_gt (topOf m e) f.emin with h | h
    · exact .inl (by simp only [unitOf, Fmt.emin] at *; omega)
    · exact .inr (le_trans (zpow_le_zpow_right₀ one_le_two (by simp only [unitOf]; omega)) hlo)
  case fits =>
    rw [hf.max_eq, hyabs] at hfit
    rw [hround, if_neg hfit.not_gt, hy, habs]
    obtain ⟨hlt, hval⟩ := encodeMag_spec hf (q := unitOf f m e) (by simp only [unitOf]; omega)
      (fun h => by by_contra hne; simp only [unitOf] at hne; have := hnormal (by omega); omega) hcount hfit
    refine ⟨sign_add_lt f neg hlt, ?_, ?_, ?_⟩
    · rw [codeRat_sign f neg hlt, hval]
    · rw [testBit_sign f neg hlt, hneg]
    · have hsame : sgn neg * (r.1 * 2 ^ unitOf f m e) = sgn neg * (m * 2 ^ e) ↔ r.2 = false := by
        rw [mul_right_inj' (sgn_ne_zero neg), ← not_iff_not, ← Ne, ← hexact, Bool.not_eq_false]
      have hsmall : (m : ℚ) * 2 ^ e < 2 ^ (1 - (f.bias : ℤ)) ↔ topOf m e < f.emin := by
        constructor
        · exact fun h => (zpow_lt_zpow_iff_right₀ one_lt_two).1 (hlo.trans_lt h)
        · exact fun h => hhi.trans_le (zpow_le_zpow_right₀ one_le_two h)
      rw [roundEvents_eq]
      cases hr : r.2 <;> simp [hsame, hsmall, hr]
  case overflows =>
    rw [hf.max_eq, hyabs] at hover
    rw [hround, if_pos hover, hov neg]
    simp only [hneg, hpos, Fmt.sign]
    exact ⟨trivial, (Nat.add_assoc ..).symm⟩

end Sys2Proof.Fp
end

