-- ==== Sys2Proof/Proofs/Codes.lean ====
section
/-! PROOFS. The codes of a format: their order, the values they decode to, and that each rounds to itself (R85, R91, R96). -/

namespace Sys2Proof.Fp
open Claim

/-! ## The order of magnitudes -/

/-- The value of a magnitude code in units of the least subnormal. -/
def magUnits (f : Fmt) (u : Nat) : Nat := if u / 2 ^ f.p = 0 then u % 2 ^ f.p else (2 ^ f.p + u % 2 ^ f.p) * 2 ^ (u / 2 ^ f.p - 1)

/-- Magnitude codes are ordered as their values. -/
theorem magUnits_strictMono (f : Fmt) : StrictMono (magUnits f) := by
  refine strictMono_nat_of_lt_succ fun u => ?_
  have hp := Nat.two_pow_pos f.p
  have hdm := Nat.div_add_mod' u (2 ^ f.p)
  have hm := Nat.mod_lt u hp
  simp only [magUnits]
  by_cases hc : u % 2 ^ f.p + 1 = 2 ^ f.p
  · have hd : (u + 1) / 2 ^ f.p = u / 2 ^ f.p + 1 := Nat.div_eq_of_lt_le (by rw [Nat.add_mul]; omega) (by rw [Nat.add_mul, Nat.add_mul]; omega)
    have hr : (u + 1) % 2 ^ f.p = 0 := by
      have := Nat.div_add_mod' (u + 1) (2 ^ f.p)
      rw [hd, Nat.add_mul] at this
      omega
    rw [hd, hr, if_neg (Nat.succ_ne_zero _), Nat.add_sub_cancel]
    split
    next h => simp [h]; omega
    next h =>
      obtain ⟨E, hE⟩ := Nat.exists_eq_succ_of_ne_zero h
      rw [hE, Nat.succ_sub_one, Nat.succ_eq_add_one, pow_succ, ← mul_assoc, mul_right_comm]
      exact Nat.mul_lt_mul_of_pos_right (by omega) (Nat.two_pow_pos E)
  · have hd : (u + 1) / 2 ^ f.p = u / 2 ^ f.p := Nat.div_eq_of_lt_le (by omega) (by rw [Nat.add_mul]; omega)
    have hr : (u + 1) % 2 ^ f.p = u % 2 ^ f.p + 1 := by
      have := Nat.div_add_mod' (u + 1) (2 ^ f.p)
      rw [hd] at this
      omega
    rw [hd, hr]
    split
    · omega
    · exact Nat.mul_lt_mul_of_pos_right (by omega) (Nat.two_pow_pos _)

/-- The fields of a magnitude code. -/
theorem fields_of_lt {f : Fmt} {u : Nat} (hu : u < 2 ^ (f.eb + f.p)) : u / 2 ^ f.p < 2 ^ f.eb ∧ u % 2 ^ f.p < 2 ^ f.p :=
  ⟨Nat.div_lt_of_lt_mul (by rwa [← pow_add, Nat.add_comm]), Nat.mod_lt _ (Nat.two_pow_pos _)⟩

/-- A magnitude code counts units of the least subnormal. -/
theorem codeRat_eq_magUnits {f : Fmt} {u : Nat} (hu : u < 2 ^ (f.eb + f.p)) : codeRat f u = magUnits f u * 2 ^ (f.emin - f.p) := by
  obtain ⟨hE, hF⟩ := fields_of_lt hu
  have hp : (2 : ℚ) ^ f.p ≠ 0 := by positivity
  have hval := (codeRat_fields f hF hE).2
  rw [Nat.div_add_mod'] at hval
  have hunit : (2 : ℚ) ^ (f.emin - f.p) = 2 ^ f.emin / 2 ^ f.p := by rw [zpow_sub₀ two_ne_zero, zpow_natCast]
  rw [hval, magUnits, hunit]
  generalize u / 2 ^ f.p = E, u % 2 ^ f.p = F
  cases E with
  | zero =>
    rw [if_pos rfl, if_pos rfl]
    ring
  | succ E =>
    rw [if_neg (Nat.succ_ne_zero E), if_neg (Nat.succ_ne_zero E), Nat.add_sub_cancel,
      show ((E + 1 : Nat) : ℤ) - f.bias = (E : ℤ) + f.emin by simp only [Fmt.emin]; push_cast; ring, two_zpow_add, zpow_natCast]
    push_cast
    field_simp

/-- The values of magnitude codes are ordered as the codes. -/
theorem codeRat_lt_iff {f : Fmt} {u v : Nat} (hu : u < 2 ^ (f.eb + f.p)) (hv : v < 2 ^ (f.eb + f.p)) : codeRat f u < codeRat f v ↔ u < v := by
  rw [codeRat_eq_magUnits hu, codeRat_eq_magUnits hv, mul_lt_mul_iff_left₀ (two_zpow_pos _), Nat.cast_lt, (magUnits_strictMono f).lt_iff_lt]

theorem codeRat_le_iff {f : Fmt} {u v : Nat} (hu : u < 2 ^ (f.eb + f.p)) (hv : v < 2 ^ (f.eb + f.p)) : codeRat f u ≤ codeRat f v ↔ u ≤ v := by
  rw [← not_lt, codeRat_lt_iff hv hu, not_lt]

/-- A code is its sign bit and its magnitude. -/
theorem sign_add_mag {f : Fmt} {x : Nat} (hx : x < 2 ^ (1 + f.eb + f.p)) :
    f.sign (x.testBit (f.eb + f.p)) + x % 2 ^ (f.eb + f.p) = x ∧ x % 2 ^ (f.eb + f.p) < 2 ^ (f.eb + f.p) := by
  refine ⟨?_, Nat.mod_lt _ (Nat.two_pow_pos _)⟩
  have hlt : x / 2 ^ (f.eb + f.p) < 2 := Nat.div_lt_of_lt_mul (by rwa [← pow_succ, Nat.add_comm, ← Nat.add_assoc])
  have hdm := Nat.div_add_mod' x (2 ^ (f.eb + f.p))
  rw [Nat.testBit_eq_decide_div_mod_eq, Nat.mod_eq_of_lt hlt]
  rcases Nat.le_one_iff_eq_zero_or_eq_one.1 (Nat.lt_succ_iff.1 hlt) with h | h
  all_goals
    rw [h] at hdm ⊢
    simpa [Fmt.sign] using hdm

/-! ## Decoding -/

theorem two_zpow_sub_nat (a : ℤ) (n : Nat) : (2 : ℚ) ^ (a - n) = 2 ^ a / 2 ^ n := by rw [zpow_sub₀ two_ne_zero, zpow_natCast]

/-- The fields of a code are those of its magnitude. -/
theorem mag_eq (f : Fmt) (x : Nat) : x % 2 ^ (f.eb + f.p) = x / 2 ^ f.p % 2 ^ f.eb * 2 ^ f.p + x % 2 ^ f.p := by
  rw [Nat.add_comm f.eb, pow_add, Nat.mod_mul, Nat.mul_comm, Nat.add_comm]

/-- R85: what decodes to a finite value: a subnormal one, or a normal one with its leading bit. -/
theorem decode_eq_fin {f : Fmt} {x : Nat} {neg : Bool} {m : Nat} {e : Int} (h : decode f x = .fin neg m e) :
    neg = x.testBit (f.eb + f.p) ∧ ((x / 2 ^ f.p % 2 ^ f.eb = 0 ∧ m = x % 2 ^ f.p ∧ e = f.emin - f.p) ∨
      (x / 2 ^ f.p % 2 ^ f.eb ≠ 0 ∧ m = 2 ^ f.p + x % 2 ^ f.p ∧ e = ((x / 2 ^ f.p % 2 ^ f.eb : Nat) : ℤ) - f.bias - f.p)) := by
  simp only [decode] at h
  split_ifs at h with _ _ _ h0 <;> cases h
  · exact ⟨rfl, .inl ⟨h0, rfl, rfl⟩⟩
  · exact ⟨rfl, .inr ⟨h0, rfl, rfl⟩⟩

/-- R85: the finite value of a code. -/
theorem codeRat_of_fin {f : Fmt} {x : Nat} {neg : Bool} {m : Nat} {e : Int} (h : decode f x = .fin neg m e) : codeRat f x = sgn neg * (m * 2 ^ e) := by
  have hp : (2 : ℚ) ^ f.p ≠ 0 := by positivity
  simp only [codeRat, Nat.cast_eq_zero]
  obtain ⟨rfl, ⟨hE, rfl, rfl⟩ | ⟨hE, rfl, rfl⟩⟩ := decode_eq_fin h
  · rw [if_pos hE, two_zpow_sub_nat _ f.p, Fmt.emin, sgn]
    ring
  · rw [if_neg hE, two_zpow_sub_nat _ f.p, sgn, Nat.cast_add, Nat.cast_pow, Nat.cast_ofNat]
    field_simp

/-- R91: the place of the last bit of a decoded value is that of its format. -/
theorem unitOf_of_fin {f : Fmt} {x : Nat} {neg : Bool} {m : Nat} {e : Int} (h : decode f x = .fin neg m e) (hm : 0 < m) : unitOf f m e = e := by
  have hF : x % 2 ^ f.p < 2 ^ f.p := Nat.mod_lt _ (Nat.two_pow_pos _)
  obtain ⟨-, hlo, hhi⟩ := bitLen_bounds hm
  obtain ⟨-, ⟨hE, rfl, rfl⟩ | ⟨hE, rfl, rfl⟩⟩ := decode_eq_fin h
  · have : bitLen (x % 2 ^ f.p) - 1 < f.p := (Nat.pow_lt_pow_iff_right (by decide)).1 (hlo.trans_lt hF)
    simp only [unitOf, topOf]
    omega
  · have h1 : bitLen (2 ^ f.p + x % 2 ^ f.p) - 1 < f.p + 1 := (Nat.pow_lt_pow_iff_right (by decide)).1 (hlo.trans_lt (by rw [pow_succ]; omega))
    have h2 : f.p < bitLen (2 ^ f.p + x % 2 ^ f.p) := (Nat.pow_lt_pow_iff_right (by decide)).1 (lt_of_le_of_lt (by omega) hhi)
    simp only [unitOf, topOf, Fmt.emin]
    omega

/-- R91: a decoded value is encoded as the magnitude that it came from. -/
theorem encodeMag_of_fin {f : Fmt} {x : Nat} {neg : Bool} {m : Nat} {e : Int} (h : decode f x = .fin neg m e) :
    encodeMag f m e = x % 2 ^ (f.eb + f.p) := by
  have hF : x % 2 ^ f.p < 2 ^ f.p := Nat.mod_lt _ (Nat.two_pow_pos _)
  rw [mag_eq, encodeMag]
  obtain ⟨-, ⟨hE, rfl, rfl⟩ | ⟨hE, rfl, rfl⟩⟩ := decode_eq_fin h
  · rw [if_pos hF, hE, Nat.zero_mul, Nat.zero_add]
  · rw [if_neg (by omega), if_neg (by rw [pow_succ]; omega)]
    simp only [Nat.add_sub_cancel_left]
    congr 2
    omega

/-- A count of whole units is exact in every mode. -/
theorem toUnits_self (rm : RM) (neg : Bool) (m : Nat) (e : Int) : toUnits rm neg m e e = (m, false) := by
  simp [toUnits]

/-- R85, R91: a nonzero finite value that came from a code no greater than the greatest finite one rounds to that code, with no event. -/
theorem round_of_fin {f : Fmt} (hf : FmtOk f) {rm : RM} {sat : Sat} {x : Nat} {neg : Bool} {m : Nat} {e : Int} (hx : x < 2 ^ (1 + f.eb + f.p))
    (h : decode f x = .fin neg m e) (hm : 0 < m) (hmax : x % 2 ^ (f.eb + f.p) ≤ maxCode f) : round f rm sat neg m e = (x, 0) := by
  obtain ⟨hsign, hlt⟩ := sign_add_mag hx
  obtain ⟨hneg, -⟩ := decode_eq_fin h
  have hfit : ¬ (f.maxMant : ℚ) * 2 ^ f.maxExp < m * 2 ^ e := by
    have hcode : codeRat f (x % 2 ^ (f.eb + f.p)) = m * 2 ^ e := by
      have hval := codeRat_of_fin h
      rw [hneg, ← hsign, codeRat_sign f _ hlt, hsign] at hval
      exact mul_left_cancel₀ (sgn_ne_zero _) hval
    rw [← hf.max_eq, not_lt, ← hcode]
    exact (codeRat_le_iff hlt hf.max_code).2 hmax
  rw [round_eq hf rm sat neg hm e, unitOf_of_fin h hm, toUnits_self, if_neg hfit, encodeMag_of_fin h, roundEvents_eq, hneg, hsign]
  simp

/-- R85: what decodes to an infinity. -/
theorem decode_eq_inf {f : Fmt} {x : Nat} {neg : Bool} (h : decode f x = .inf neg) :
    neg = x.testBit (f.eb + f.p) ∧ f.ieee = true ∧ x / 2 ^ f.p % 2 ^ f.eb = 2 ^ f.eb - 1 ∧ x % 2 ^ f.p = 0 := by
  simp only [decode] at h
  split_ifs at h with hmax h0
  cases h
  exact ⟨rfl, hmax.2, hmax.1, h0⟩

/-- R85: the magnitude of a finite code is at most the greatest finite one. -/
theorem mag_le_max {f : Fmt} (hf : f ∈ [f32, bf16, f16, e5m2, e4m3]) {x : Nat} {neg : Bool} {m : Nat} {e : Int} (h : decode f x = .fin neg m e) :
    x % 2 ^ (f.eb + f.p) ≤ maxCode f := by
  have hE : x / 2 ^ f.p % 2 ^ f.eb < 2 ^ f.eb := Nat.mod_lt _ (Nat.two_pow_pos _)
  have hF : x % 2 ^ f.p < 2 ^ f.p := Nat.mod_lt _ (Nat.two_pow_pos _)
  simp only [decode] at h
  split_ifs at h with hinf _ hnan
  all_goals
    rw [mag_eq]
    generalize x / 2 ^ f.p % 2 ^ f.eb = E, x % 2 ^ f.p = F at *
    simp only [List.mem_cons, List.not_mem_nil, or_false] at hf
    rcases hf with rfl | rfl | rfl | rfl | rfl <;> (simp [f32, bf16, f16, e5m2, e4m3, maxCode] at *; omega)

/-- R85, R91: every code that is no NaN rounds to itself, with no event. -/
theorem convert_decode {f : Fmt} (hf : f ∈ [f32, bf16, f16, e5m2, e4m3]) (rm : RM) (sat : Sat) {x : Nat} (hx : x < 2 ^ (1 + f.eb + f.p))
    (h : decode f x ≠ .nan) : convert f rm sat (decode f x) = (x, 0) := by
  have hsign := (sign_add_mag hx).1
  rw [mag_eq] at hsign
  rcases hd : decode f x with _ | neg | ⟨neg, m, e⟩
  · exact absurd hd h
  · obtain ⟨rfl, hieee, hE, hF⟩ := decode_eq_inf hd
    rw [hE, hF] at hsign
    simp only [convert, hieee, if_true, Fmt.inf]
    exact Prod.ext hsign rfl
  · simp only [convert]
    split
    next h0 =>
      obtain ⟨rfl, ⟨hE, hm, -⟩ | ⟨-, hm, -⟩⟩ := decode_eq_fin hd
      · rw [hE, ← hm, h0] at hsign
        exact Prod.ext (by simpa using hsign) rfl
      · have := Nat.two_pow_pos f.p
        omega
    next h0 => exact round_of_fin (fmtOk hf) hx hd (Nat.pos_of_ne_zero h0) (mag_le_max hf hd)

end Sys2Proof.Fp
end

