-- ==== Sys2Proof/Proofs/LogCodes.lean ====
section
/-! PROOFS. lg6: the order of its magnitudes, and the one rounding of an exact value into it (R87, R88, R93). -/

namespace Sys2Proof.Fp
open Claim

/-! ## Magnitudes -/

/-- R87, R88: the magnitudes of lg6 count units of 2^-23. -/
theorem lgRat_eq (m : Nat) : lgRat m = lgMag m * 2 ^ (-23 : ℤ) := by
  have hr := Nat.mod_lt m (show 0 < 4 by decide)
  simp only [lgRat, lgMag, sub_eq_add_neg, two_zpow_add, zpow_natCast]
  split
  · simp
  · generalize m % 4 = r at *
    interval_cases r <;> simp [lgc, mul_assoc]

/-- The magnitudes of lg6 rise with the code. -/
theorem lgMag_strictMono : StrictMono lgMag := by
  refine strictMono_nat_of_lt_succ fun m => ?_
  rcases Nat.eq_zero_or_pos m with rfl | hm
  · decide
  have hp := Nat.two_pow_pos (m / 4)
  simp only [lgMag, if_neg hm.ne', if_neg (Nat.succ_ne_zero m)]
  obtain h | ⟨h, hr, hq⟩ : m % 4 = 3 ∨ (m % 4 < 3 ∧ (m + 1) % 4 = m % 4 + 1 ∧ (m + 1) / 4 = m / 4) := by omega
  · rw [h, show (m + 1) % 4 = 0 by omega, show (m + 1) / 4 = m / 4 + 1 by omega, pow_succ]
    simp only [lgc]
    omega
  · rw [hr, hq]
    refine Nat.mul_lt_mul_of_pos_right ?_ hp
    generalize m % 4 = r at h
    interval_cases r <;> decide

theorem lgRat_lt_iff {a b : Nat} : lgRat a < lgRat b ↔ a < b := by
  rw [lgRat_eq, lgRat_eq, mul_lt_mul_iff_left₀ (two_zpow_pos _), Nat.cast_lt, lgMag_strictMono.lt_iff_lt]

theorem lgRat_le_iff {a b : Nat} : lgRat a ≤ lgRat b ↔ a ≤ b := by
  rw [← not_lt, lgRat_lt_iff, not_lt]

/-! ## The choice between two codes -/

/-- R90, R93: whether a magnitude between the codes `b` and `b + 1` goes to the upper one. -/
def LgUp (rm : RM) (neg : Bool) (X : ℚ) (b : Nat) : Prop := match rm with
  | .rne => lgRat b + lgRat (b + 1) < 2 * X ∨ (2 * X = lgRat b + lgRat (b + 1) ∧ b % 2 = 1)
  | .rtz => False
  | .rdn => neg = true
  | .rup => neg = false

/-- `b` is the greatest code up to 32 whose magnitude is at most `X`. -/
structure LgBelow (X : ℚ) (b : Nat) : Prop where
  le : b ≤ 32
  below : lgRat b ≤ X
  above : b < 32 → X < lgRat (b + 1)

/-- R93: the code that a magnitude above code `b` is rounded to. -/
def LgChoice (rm : RM) (neg : Bool) (X : ℚ) (b c : Nat) : Prop :=
  (c = b ∧ (lgRat b = X ∨ b = 32 ∨ ¬ LgUp rm neg X b)) ∨ (c = b + 1 ∧ lgRat b ≠ X ∧ b < 32 ∧ LgUp rm neg X b)

/-- R93: toward zero the code is the one below. -/
theorem inward_of_choice {X : ℚ} {b : Nat} (hb : LgBelow X b) : lgRat b ≤ X ∧ (b < 32 → X < lgRat (b + 1)) := ⟨hb.below, hb.above⟩

/-- R93: away from zero the code is the one above, unless the magnitude is exact or beyond the last. -/
theorem outward_of_choice {X : ℚ} {b c : Nat} (hb : LgBelow X b) (hc : (c = b ∧ (lgRat b = X ∨ b = 32)) ∨ (c = b + 1 ∧ lgRat b ≠ X ∧ b < 32)) :
    (X ≤ lgRat c ∧ (0 < c → lgRat (c - 1) < X)) ∨ (lgRat 32 < X ∧ c = 32) := by
  rcases hc with ⟨rfl, rfl | rfl⟩ | ⟨rfl, hne, hlt⟩
  · exact .inl ⟨le_rfl, fun h => lgRat_lt_iff.2 (Nat.sub_lt h Nat.one_pos)⟩
  · rcases hb.below.eq_or_lt with rfl | h
    · exact .inl ⟨le_rfl, fun _ => lgRat_lt_iff.2 (by decide)⟩
    · exact .inr ⟨h, rfl⟩
  · exact .inl ⟨(hb.above hlt).le, fun _ => lt_of_le_of_ne hb.below hne⟩

/-- R93: to nearest the code is the nearer one, and the even one of two at the same distance. -/
theorem nearest_of_choice {neg : Bool} {X : ℚ} {b c : Nat} (hb : LgBelow X b) (hc : LgChoice .rne neg X b c) :
    ∀ j ≤ 32, j ≠ c → |lgRat c - X| < |lgRat j - X| ∨ (|lgRat c - X| = |lgRat j - X| ∧ c % 2 = 0) := by
  intro j hj hne
  have hbelow := hb.below
  have hdown (h : j ≤ b) : |lgRat j - X| = X - lgRat j ∧ lgRat j ≤ lgRat b := by
    have hle := lgRat_le_iff.2 h
    exact ⟨by rw [abs_of_nonpos (by linarith)]; ring, hle⟩
  have hup (h : b < j) : |lgRat j - X| = lgRat j - X ∧ lgRat (b + 1) ≤ lgRat j := by
    have hle := lgRat_le_iff.2 (show b + 1 ≤ j from h)
    exact ⟨abs_of_nonneg (by linarith [hb.above (by omega)]), hle⟩
  rcases hc with ⟨rfl, hstay⟩ | ⟨rfl, -, hlt, hmove⟩
  · have hc : |lgRat c - X| = X - lgRat c := by
      rw [abs_of_nonpos (by linarith)]
      ring
    rw [hc]
    rcases lt_or_gt_of_ne hne with h | h
    · have hj := lgRat_lt_iff.2 h
      rw [(hdown h.le).1]
      exact .inl (by linarith)
    · obtain ⟨hj, hle⟩ := hup h
      have habove := hb.above (by omega)
      rw [hj]
      rcases hstay with hex | h32 | hstay
      · exact .inl (by linarith)
      · omega
      · simp only [LgUp, not_or, not_and, not_lt] at hstay
        obtain ⟨hnear, htie⟩ := hstay
        rcases hnear.lt_or_eq with h1 | h1
        · exact .inl (by linarith)
        · rcases hle.lt_or_eq with h2 | h2
          · exact .inl (by linarith)
          · exact .inr ⟨by linarith, by have := htie h1; omega⟩
  · have habove := hb.above hlt
    have hc : |lgRat (b + 1) - X| = lgRat (b + 1) - X := abs_of_nonneg (by linarith)
    rw [hc]
    rcases le_or_gt j b with h | h
    · obtain ⟨hj, hle⟩ := hdown h
      rw [hj]
      rcases hmove with hnear | ⟨htie, hodd⟩
      · exact .inl (by linarith)
      · rcases hle.lt_or_eq with h2 | h2
        · exact .inl (by linarith)
        · exact .inr ⟨by linarith, by omega⟩
    · have hj := lgRat_lt_iff.2 (show b + 1 < j by omega)
      rw [(hup h).1]
      exact .inl (by linarith)

/-- R93: an exact nonzero value rounds into lg6 to the code chosen. -/
theorem roundsLg_of_choice {rm : RM} {neg : Bool} {X : ℚ} {b c : Nat} {r : Nat × BitVec 8} (hX : 0 < X) (hb : LgBelow X b)
    (hc : LgChoice rm neg X b c) (h32 : c = 32 → r = (if neg then 0x3F else 0x1F, 0xA0))
    (hlt : c < 32 → r = (if c = 0 then 0 else if neg then 32 + c else c, if lgRat c = X then 0 else if X < lgRat 1 then 0x88 else 0x80)) :
    RoundsLg rm (sgn neg * X) r := by
  obtain ⟨hneg, -⟩ := signed_neg_iff (neg := neg) hX
  have habs : |sgn neg * X| = X := by rw [abs_sgn_mul, abs_of_pos hX]
  have hc32 : c ≤ 32 := by
    have := hb.le
    rcases hc with ⟨rfl, -⟩ | ⟨rfl, -, h, -⟩ <;> omega
  simp only [RoundsLg, habs, hneg]
  refine ⟨c, hc32, ?_, h32, fun h => by simp [hlt h]⟩
  cases rm with
  | rtz =>
    obtain ⟨rfl, -⟩ | ⟨-, -, -, h⟩ := hc
    · exact inward_of_choice hb
    · exact h.elim
  | rdn => 
    cases neg
    · obtain ⟨rfl, -⟩ | ⟨-, -, -, h⟩ := hc
      · exact inward_of_choice hb
      · cases h
    · exact outward_of_choice hb (by simpa [LgChoice, LgUp] using hc)
  | rup =>
    cases neg
    · exact outward_of_choice hb (by simpa [LgChoice, LgUp] using hc)
    · obtain ⟨rfl, -⟩ | ⟨-, -, -, h⟩ := hc
      · exact inward_of_choice hb
      · cases h
  | rne => exact nearest_of_choice hb hc

/-! ## The model's rounding -/

/-- The greatest of the numbers up to `n` that have a property. -/
theorem foldl_max_filter (p : Nat → Bool) (h0 : p 0 = true) (n : Nat) :
    let b := ((List.range (n + 1)).filter p).foldl max 0
    b ≤ n ∧ p b = true ∧ ∀ c ≤ n, p c = true → c ≤ b := by
  induction n with
  | zero => simp [h0]
  | succ n ih =>
    obtain ⟨hle, hb, hmax⟩ := ih
    simp only [List.range_succ (n := n + 1), List.filter_append, List.foldl_append]
    cases hp : p (n + 1)
    · simp only [List.filter_cons, hp, List.filter_nil, Bool.false_eq_true, if_false, List.foldl_nil]
      refine ⟨by omega, hb, fun c hc hpc => ?_⟩
      rcases Nat.le_succ_iff.1 hc with h | rfl
      · exact hmax c h hpc
      · simp [hp] at hpc
    · simp only [List.filter_cons, hp, List.filter_nil, if_true, List.foldl_cons, List.foldl_nil]
      rw [Nat.max_eq_right (by omega)]
      exact ⟨le_rfl, hp, fun c hc _ => hc⟩

/-- R93: a value far below the least lg6 value rounds to 0 or to that value. -/
theorem roundsLg_tiny (rm : RM) (neg : Bool) {X : ℚ} (hX : 0 < X) (hlt : X < 1 / 16777216) :
    RoundsLg rm (sgn neg * X) (if (match rm with | .rdn => neg | .rup => !neg | _ => false) then (if neg then 0x21 else 0x01) else 0, 0x88) := by
  have h1 : lgRat 1 = 623487 / 8388608 := by norm_num [lgRat]
  have h0 : lgRat 0 = 0 := rfl
  have hlt1 : X < lgRat 1 := by linarith
  have hb : LgBelow X 0 := ⟨by decide, hX.le, fun _ => hlt1⟩
  have hno : ¬ LgUp .rne neg X 0 := by
    simp only [LgUp, h0, h1]
    norm_num
    linarith
  have hdown : LgChoice rm neg X 0 0 → RoundsLg rm (sgn neg * X) (0, 0x88) := fun h =>
    roundsLg_of_choice hX hb h (fun h => absurd h (by decide)) fun _ => by simp [h0, hX.ne, hlt1]
  have hup : LgChoice rm neg X 0 1 → RoundsLg rm (sgn neg * X) (if neg then 0x21 else 0x01, 0x88) := fun h =>
    roundsLg_of_choice hX hb h (fun h => absurd h (by decide)) fun _ => by simp [hlt1.ne', hlt1]
  cases rm with
  | rne => exact hdown (.inl ⟨rfl, .inr (.inr hno)⟩)
  | rtz => exact hdown (.inl ⟨rfl, .inr (.inr id)⟩)
  | rdn =>
    cases neg
    · exact hdown (.inl ⟨rfl, .inr (.inr nofun)⟩)
    · exact hup (.inr ⟨rfl, hX.ne, by decide, rfl⟩)
  | rup =>
    cases neg
    · exact hup (.inr ⟨rfl, hX.ne, by decide, rfl⟩)
    · exact hdown (.inl ⟨rfl, .inr (.inr nofun)⟩)

/-- The exact value as an integer over the unit that the model compares in. -/
def lgPoint (m : Nat) (e : Int) : Nat := if -23 ≤ e then m * 2 ^ (e + 23).toNat else m

/-- A lg6 magnitude as an integer over that unit. -/
def lgMark (e : Int) (c : Nat) : Nat := lgMag c * 2 ^ (if -23 ≤ e then 0 else (-23 - e).toNat)

theorem lg_unit (m : Nat) (e : Int) : ∃ w : ℤ, (m : ℚ) * 2 ^ e = lgPoint m e * 2 ^ w ∧ ∀ c, lgRat c = lgMark e c * 2 ^ w := by
  unfold lgPoint lgMark
  split
  next h =>
    refine ⟨-23, ?_, fun c => by simp [lgRat_eq]⟩
    obtain ⟨d, rfl⟩ : ∃ d : Nat, e = d + -23 := ⟨(e + 23).toNat, by omega⟩
    rw [show ((d : ℤ) + -23 + 23).toNat = d by omega, two_zpow_add, zpow_natCast]
    push_cast
    ring
  next h =>
    refine ⟨e, rfl, fun c => ?_⟩
    obtain ⟨d, rfl⟩ : ∃ d : Nat, e = -23 - d := ⟨(-23 - e).toNat, by omega⟩
    rw [lgRat_eq, show (-23 - (-23 - (d : ℤ))).toNat = d by omega, two_zpow_sub_nat]
    push_cast
    field_simp

/-- R93: an exact nonzero value rounds once into lg6. -/
theorem roundsLg_roundLg (rm : RM) (neg : Bool) {m : Nat} (hm : 0 < m) (e : Int) : RoundsLg rm (sgn neg * (m * 2 ^ e)) (roundLg rm neg m e) := by
  have hX : (0 : ℚ) < m * 2 ^ e := mul_pos (by exact_mod_cast hm) (two_zpow_pos e)
  obtain ⟨hlo, hhi⟩ := topOf_bounds hm e
  have h32 : lgRat 32 = 2 ^ (4 : ℤ) := by norm_num [lgRat]
  unfold roundLg
  rw [if_neg hm.ne']
  split
  next hbig =>
    have hgt : lgRat 32 < m * 2 ^ e := by
      rw [h32]
      exact (zpow_lt_zpow_right₀ one_lt_two (by simp only [topOf]; omega)).trans_le hlo
    exact roundsLg_of_choice hX ⟨le_rfl, hgt.le, fun h => absurd h (lt_irrefl _)⟩ (.inl ⟨rfl, .inr (.inl rfl)⟩) (fun _ => rfl) fun h => absurd h (lt_irrefl _)
  split
  next hbig hsmall =>
    exact roundsLg_tiny rm neg hX
      (hhi.trans ((zpow_lt_zpow_right₀ one_lt_two (show topOf m e + 1 < -24 by simp only [topOf]; omega)).trans_eq (by norm_num)))
  next hbig hsmall =>
    extract_lets u x at' below isExact up c ev
    obtain ⟨w, hx, hat⟩ : ∃ w : ℤ, (m : ℚ) * 2 ^ e = x * 2 ^ w ∧ ∀ c, lgRat c = at' c * 2 ^ w := lg_unit m e
    have hw := two_zpow_pos w
    have hle (c : Nat) : lgRat c ≤ m * 2 ^ e ↔ at' c ≤ x := by rw [hx, hat, mul_le_mul_iff_left₀ hw, Nat.cast_le]
    have heq (c : Nat) : lgRat c = m * 2 ^ e ↔ at' c = x := by rw [hx, hat, mul_left_inj' hw.ne', Nat.cast_inj]
    obtain ⟨hb32, hbx, hbmax⟩ := foldl_max_filter (fun c => decide (at' c ≤ x)) (by simp [at', lgMag]) 32
    have hb : LgBelow (m * 2 ^ e) below := by
      refine ⟨hb32, (hle _).2 (of_decide_eq_true hbx), fun h => not_le.1 fun hc => ?_⟩
      exact absurd (hbmax (below + 1) h (decide_eq_true ((hle _).1 hc))) (Nat.not_succ_le_self _)
    have hlt2 : lgRat below + lgRat (below + 1) < 2 * (m * 2 ^ e) ↔ at' below + at' (below + 1) < 2 * x := by
      rw [hx, hat, hat, ← add_mul, ← mul_assoc, mul_lt_mul_iff_left₀ hw]
      norm_cast
    have heq2 : 2 * (m * 2 ^ e) = lgRat below + lgRat (below + 1) ↔ 2 * x = at' below + at' (below + 1) := by
      rw [hx, hat, hat, ← add_mul, ← mul_assoc, mul_left_inj' hw.ne']
      norm_cast
    have hup : up = true ↔ LgUp rm neg (m * 2 ^ e) below := by
      simp only [up, LgUp, hlt2, heq2]
      cases rm <;> simp [Nat.compare_eq_gt]
    have hc : LgChoice rm neg (m * 2 ^ e) below c := by
      simp only [LgChoice, heq, ← hup, ne_eq, c, isExact]
      split
      next h => exact .inl ⟨rfl, by simpa [or_assoc] using Or.inl h⟩
      next h =>
        simp only [Bool.or_eq_true, decide_eq_true_eq, not_or] at h
        have hlt := lt_of_le_of_ne hb.le h.2
        cases up <;> simp [h.1, hlt]
    have hexact : isExact ↔ at' c = x := by
      rcases hc with ⟨hcb, -⟩ | ⟨hcb, hne, hlt, -⟩
      · rw [hcb]
      · refine iff_of_false (fun h => hne ((heq _).2 h)) fun h => ?_
        rw [hcb, ← heq] at h
        exact (hb.above hlt).ne' h
    refine roundsLg_of_choice hX hb hc (fun h => by rw [if_pos h]; rfl) fun h => ?_
    have hev : ev = if lgRat c = m * 2 ^ e then 0 else if (m : ℚ) * 2 ^ e < lgRat 1 then 0x88 else 0x80 := by
      simp only [ev, ← not_le, hle, heq, ← hexact]
      by_cases hx : isExact
      · simp [hx, h.ne]
      · by_cases hsub : at' 1 ≤ x
        · simp [hx, hsub, evInexact]
        · simp [hx, hsub, evInexact, evUnderflow]
    rw [if_neg h.ne, hev]
    by_cases h0 : c = 0
    · rw [if_pos h0, if_pos h0]
    · rw [if_neg h0, if_neg h0]
      cases neg <;> simp

/-! ## The statement -/

/-- A nonzero finite value is converted by rounding it. -/
theorem convert_fin (f : Fmt) (rm : RM) (sat : Sat) (neg : Bool) {m : Nat} (hm : 0 < m) (e : Int) :
    convert f rm sat (.fin neg m e) = round f rm sat neg m e := if_neg hm.ne'

/-- Settles O7. -/
theorem rounding : Obligations.Rounding := by
  refine ⟨fun rm neg m d e hd => toUnits_count rm neg m d e hd, fun f hf rm sat x hx h => convert_decode hf rm sat hx h, fun rm neg m e hm => ?_⟩
  have hx : (if neg then -1 else 1) * (m : ℚ) * 2 ^ e = sgn neg * (m * 2 ^ e) := mul_assoc ..
  simp only [hx, convert_fin _ rm _ neg hm e]
  refine ⟨fun f hf => ?_, fun sat => rounds_round (fmtOk (by simp)) (overflow_e4m3 rm sat) neg hm e, roundsLg_roundLg rm neg hm e⟩
  have hok : FmtOk f := fmtOk (List.mem_append_left [e4m3] hf)
  exact ⟨rounds_round hok (overflow_none hf rm) neg hm e, rounds_round hok (overflow_arith hf rm) neg hm e,
    rounds_round hok (overflow_conv hf rm) neg hm e⟩

end Sys2Proof.Fp
end

