-- ==== Sys2Proof/Proofs/Sums.lean ====
section
/-! PROOFS. Sums of products of finite values: the exact rational, rounded once, and its sign when it is zero (R95, R98). -/

namespace Sys2Proof.Fp
open Claim

/-! ## Values as rationals -/

/-- The exact rational of a finite value; 0 for any other. -/
def valRat : Val → ℚ
  | .fin neg m e => sgn neg * (m * 2 ^ e)
  | _ => 0

/-- A value that is neither NaN nor infinite. -/
def IsFin (v : Val) : Prop := ∃ neg m e, v = .fin neg m e

theorem isFin_fin (neg : Bool) (m : Nat) (e : Int) : IsFin (.fin neg m e) := ⟨neg, m, e, rfl⟩

@[simp] theorem sgn_not (neg : Bool) : sgn (!neg) = -sgn neg := by
  cases neg <;> simp

@[simp] theorem sgn_bne (s t : Bool) : sgn (s != t) = sgn s * sgn t := by
  cases s <;> cases t <;> simp

@[simp] theorem valRat_neg (v : Val) : valRat v.neg = -valRat v := by
  cases v <;> simp [Val.neg, valRat]

theorem IsFin.neg {v : Val} : IsFin v → IsFin v.neg
  | ⟨_, _, _, h⟩ => h ▸ isFin_fin _ _ _

theorem IsFin.not_nan {v : Val} : IsFin v → v.isNan = false
  | ⟨_, _, _, h⟩ => h ▸ rfl

theorem IsFin.not_inf {v : Val} (neg : Bool) : IsFin v → isInf neg v = false
  | ⟨_, _, _, h⟩ => h ▸ rfl

/-- A finite zero has the value 0. -/
theorem valRat_of_isZero {neg : Bool} {v : Val} (h : isZero neg v = true) : valRat v = 0 := by
  cases v <;> simp_all [isZero, valRat]

/-- R95: the exact product of finite values. -/
theorem mul_of_fin {a b : Val} (ha : IsFin a) (hb : IsFin b) : ∃ v, mul a b = some v ∧ IsFin v ∧ valRat v = valRat a * valRat b := by
  obtain ⟨s, m, e, rfl⟩ := ha
  obtain ⟨t, n, f, rfl⟩ := hb
  refine ⟨_, rfl, isFin_fin _ _ _, ?_⟩
  simp only [valRat, sgn_bne, two_zpow_add, Nat.cast_mul]
  ring

/-! ## Exact sums -/

/-- The unit of a sum divides every nonzero term. -/
theorem leastExp_le (ts : List Val) : ∀ q, leastExp ts q ≤ q ∧ ∀ neg m e, .fin neg m e ∈ ts → m ≠ 0 → leastExp ts q ≤ e := by
  induction ts with
  | nil => simp [leastExp]
  | cons t ts ih =>
    intro q
    cases t with
    | nan => simpa [leastExp] using ih q
    | inf n => simpa [leastExp] using ih q
    | fin n m e =>
      obtain ⟨hq, hts⟩ := ih (if m = 0 then q else min e q)
      simp only [leastExp, List.mem_cons, Val.fin.injEq]
      refine ⟨hq.trans ?_, ?_⟩
      · split
        · exact le_rfl
        · exact min_le_right _ _
      · rintro n' m' e' (⟨rfl, rfl, rfl⟩ | h) hm
        · rw [if_neg hm] at hq ⊢
          exact hq.trans (min_le_left _ _)
        · exact hts n' m' e' h hm

/-- The exact integer that a term adds to a sum counted in units of 2^q. -/
def sumTerm (q : Int) (t : Val) : Int := match t with
  | .fin _ 0 _ => 0
  | t => termUnits q t

theorem sumTerm_eq {q : Int} {t : Val} (h : ∀ neg m e, t = .fin neg m e → m ≠ 0 → q ≤ e) : (sumTerm q t : ℚ) * 2 ^ q = valRat t := by
  rcases t with _ | n | ⟨n, m, e⟩
  · simp [sumTerm, termUnits, valRat]
  · simp [sumTerm, termUnits, valRat]
  · cases m with
    | zero => simp [sumTerm, valRat]
    | succ m =>
      obtain ⟨d, rfl⟩ : ∃ d : Nat, e = q + d := ⟨(e - q).toNat, by have := h _ _ _ rfl (Nat.succ_ne_zero m); omega⟩
      simp only [sumTerm, termUnits, valRat, show (q + d - q).toNat = d by omega, two_zpow_add, zpow_natCast]
      cases n <;> push_cast <;> simp <;> ring

theorem foldl_sumTerm {q : Int} (ts : List Val) (h : ∀ neg m e, .fin neg m e ∈ ts → m ≠ 0 → q ≤ e) (acc : Int) :
    ((ts.foldl (fun acc t => acc + sumTerm q t) acc : Int) : ℚ) * 2 ^ q = acc * 2 ^ q + (ts.map valRat).sum := by
  induction ts generalizing acc with
  | nil => simp
  | cons t ts ih =>
    rw [List.foldl_cons, ih (fun n m e hm => h n m e (List.mem_cons_of_mem _ hm)), Int.cast_add, add_mul,
      sumTerm_eq fun n m e ht => h n m e (ht ▸ List.mem_cons_self), List.map_cons, List.sum_cons, add_assoc]

/-- R95: the exact sum of finite terms: +0 or −0 when all are zeros of one sign, else the sum, of which a zero is −0 in RDN alone. -/
theorem sum_of_fin (rm : RM) {ts : List Val} (hf : ∀ t ∈ ts, IsFin t) :
    ∃ (x q : Int), (x : ℚ) * 2 ^ q = (ts.map valRat).sum ∧ sum rm ts = if ts.all (isZero true) then .fin true 0 0
      else if ts.all (isZero false) then .fin false 0 0 else if x = 0 then .fin (rm = .rdn) 0 0 else .fin (x < 0) x.natAbs q := by
  have hinf (neg : Bool) : ts.any (isInf neg) = false := List.any_eq_false.2 fun t ht => by simp [(hf t ht).not_inf neg]
  refine ⟨ts.foldl (fun acc t => acc + sumTerm (leastExp ts 1024) t) 0, leastExp ts 1024, ?_, ?_⟩
  · rw [foldl_sumTerm ts (leastExp_le ts 1024).2, Int.cast_zero, zero_mul, zero_add]
  · simp only [sum, hinf]
    rfl

/-- A list of zeros adds up to 0. -/
theorem sum_of_zeros {neg : Bool} {ts : List Val} (h : ts.all (isZero neg) = true) : (ts.map valRat).sum = 0 :=
  List.sum_eq_zero (by simpa using fun t ht => valRat_of_isZero (List.all_eq_true.1 h t ht))

/-- R95: a nonzero sum of finite terms. -/
theorem sum_of_ne_zero (rm : RM) {ts : List Val} (hf : ∀ t ∈ ts, IsFin t) (h : (ts.map valRat).sum ≠ 0) :
    ∃ neg m e, sum rm ts = .fin neg m e ∧ 0 < m ∧ sgn neg * (m * 2 ^ e) = (ts.map valRat).sum := by
  obtain ⟨x, q, hx, hs⟩ := sum_of_fin rm hf
  have hz (neg : Bool) : ts.all (isZero neg) ≠ true := fun hz => h (sum_of_zeros hz)
  have hx0 : x ≠ 0 := fun h0 => h (by rw [← hx, h0, Int.cast_zero, zero_mul])
  rw [if_neg (hz true), if_neg (hz false), if_neg hx0] at hs
  refine ⟨_, _, _, hs, Int.natAbs_pos.2 hx0, ?_⟩
  rw [← hx, ← mul_assoc, ← signInt_cast]
  congr 2
  by_cases hneg : x < 0 <;> simp only [signInt, hneg, decide_true, decide_false, if_true, Bool.false_eq_true, if_false] <;> omega

/-- R95: finite terms that add up to 0 and are not zeros of one sign. -/
theorem sum_of_cancel (rm : RM) {ts : List Val} (hf : ∀ t ∈ ts, IsFin t) (h : (ts.map valRat).sum = 0) (hz : ∀ neg, ts.all (isZero neg) = false) :
    sum rm ts = .fin (rm = .rdn) 0 0 := by
  obtain ⟨x, q, hx, hs⟩ := sum_of_fin rm hf
  have hx0 : x = 0 := by
    rw [h, mul_eq_zero, Int.cast_eq_zero] at hx
    exact hx.resolve_right (two_zpow_pos q).ne'
  rw [hs, hz, hz, if_neg Bool.false_ne_true, if_neg Bool.false_ne_true, if_pos hx0]

/-! ## Sums of products -/

/-- R95: the exact products of finite values. -/
theorem muls_of_fin {ps : List (Val × Val)} (hp : ∀ p ∈ ps, IsFin p.1 ∧ IsFin p.2) : ∃ vs : List Val, (ps.map fun p => mul p.1 p.2) = vs.map some ∧
    (∀ v ∈ vs, IsFin v) ∧ vs.map valRat = ps.map fun p => valRat p.1 * valRat p.2 := by
  induction ps with
  | nil => exact ⟨[], rfl, by simp, rfl⟩
  | cons p ps ih =>
    obtain ⟨vs, hvs, hfin, hval⟩ := ih fun q hq => hp q (List.mem_cons_of_mem _ hq)
    obtain ⟨ha, hb⟩ := hp p List.mem_cons_self
    obtain ⟨v, hv, hvf, hvr⟩ := mul_of_fin ha hb
    exact ⟨v :: vs, by simp [hv, hvs], List.forall_mem_cons.2 ⟨hvf, hfin⟩, by simp [hvr, hval]⟩

/-- The sum of the rationals that a sum of products stands for. -/
def sumRat (ps : List (Val × Val)) (c : List Val) : ℚ := (ps.map fun p => valRat p.1 * valRat p.2).sum + (c.map valRat).sum

/-- R95: a sum of finite products and addends is an exact sum of finite terms, rounded once. -/
theorem sumOfProducts_of_fin (f : Fmt) (rm : RM) (sat : Bool) {ps : List (Val × Val)} {c : List Val} (hp : ∀ p ∈ ps, IsFin p.1 ∧ IsFin p.2)
    (hc : ∀ v ∈ c, IsFin v) : ∃ ts, (∀ t ∈ ts, IsFin t) ∧ (ts.map valRat).sum = sumRat ps c ∧ (∀ t ∈ c, t ∈ ts) ∧
      sumOfProducts f rm sat ps c = if (sum rm ts).isNan then (f.nan, evInvalid) else arith f rm sat (sum rm ts) := by
  obtain ⟨vs, hvs, hfin, hval⟩ := muls_of_fin hp
  refine ⟨vs ++ c, List.forall_mem_append.2 ⟨hfin, hc⟩, by simp [sumRat, hval], fun t ht => List.mem_append_right _ ht, ?_⟩
  have hnan : (ps.any (fun p => p.1.isNan || p.2.isNan) || c.any Val.isNan) = false := by
    simp only [Bool.or_eq_false_iff, List.any_eq_false, Bool.not_eq_true]
    exact ⟨fun p h => ⟨(hp p h).1.not_nan, (hp p h).2.not_nan⟩, fun v h => (hc v h).not_nan⟩
  have hnone : (vs.map some).any (·.isNone) = false := by simp
  have hid : (vs.map some).filterMap id = vs := by simp [List.filterMap_map]
  simp only [sumOfProducts, hnan, hvs, hnone, hid, Bool.false_eq_true, if_false]

/-- The SAT mode of an arithmetic operation (R94). -/
def satOf (sat : Bool) : Sat := if sat then .arith else .none

theorem overflow_satOf {f : Fmt} (h : f ∈ [f32, bf16, f16, e5m2]) (rm : RM) : ∀ sat, OverflowsTo f rm (satOf sat) sat 0x84
  | false => overflow_none h rm
  | true => overflow_arith h rm

/-- R91, R94: a nonzero finite value of an arithmetic operation is rounded once. -/
theorem rounds_arith {f : Fmt} (hf : f ∈ [f32, bf16, f16, e5m2]) (rm : RM) (sat neg : Bool) {m : Nat} (hm : 0 < m) (e : Int) :
    Rounds f rm sat 0x84 (sgn neg * (m * 2 ^ e)) (arith f rm sat (.fin neg m e)) := by
  have h := rounds_round (fmtOk (List.mem_append_left [e4m3] hf)) (overflow_satOf hf rm sat) neg hm e
  rwa [← convert_fin f rm _ neg hm e] at h

/-- R91, R94, R95: a nonzero sum of finite products and addends is rounded once. -/
theorem rounds_sumOfProducts {f : Fmt} (hf : f ∈ [f32, bf16, f16, e5m2]) (rm : RM) (sat : Bool) {ps : List (Val × Val)} {c : List Val}
    (hp : ∀ p ∈ ps, IsFin p.1 ∧ IsFin p.2) (hc : ∀ v ∈ c, IsFin v) (h : sumRat ps c ≠ 0) :
    Rounds f rm sat 0x84 (sumRat ps c) (sumOfProducts f rm sat ps c) := by
  obtain ⟨ts, hfin, hval, -, hsum⟩ := sumOfProducts_of_fin f rm sat hp hc
  obtain ⟨neg, m, e, hv, hm, hx⟩ := sum_of_ne_zero rm hfin (hval ▸ h)
  rw [hsum, hv, ← hval, ← hx]
  exact rounds_arith hf rm sat neg hm e

/-- R95: a sum that cancels is +0, or −0 in RDN. -/
theorem sumOfProducts_cancel (f : Fmt) (rm : RM) (sat : Bool) {ps : List (Val × Val)} {c : List Val} (hp : ∀ p ∈ ps, IsFin p.1 ∧ IsFin p.2)
    (hc : ∀ v ∈ c, IsFin v) (h : sumRat ps c = 0) (hne : ∃ v ∈ c, valRat v ≠ 0) : sumOfProducts f rm sat ps c = (f.sign (rm = .rdn), 0) := by
  obtain ⟨ts, hfin, hval, hmem, hsum⟩ := sumOfProducts_of_fin f rm sat hp hc
  obtain ⟨v, hv, hv0⟩ := hne
  have hz (neg : Bool) : ts.all (isZero neg) = false := List.all_eq_false.2 ⟨v, hmem v hv, fun h => hv0 (valRat_of_isZero h)⟩
  rw [hsum, sum_of_cancel rm hfin (hval.trans h) hz]
  rfl

/-! ## Finite codes -/

/-- R85: a finite code decodes to a finite value. -/
theorem isFin_decode {f : Fmt} {x : Nat} (h : FiniteIn f x) : IsFin (decode f x) := by
  obtain ⟨-, hE⟩ := h
  simp only [decode, hE, false_and, if_false]
  split <;> exact isFin_fin _ _ _

/-- R85: the value of a finite code. -/
theorem valRat_decode {f : Fmt} {x : Nat} (h : FiniteIn f x) : valRat (decode f x) = codeRat f x := by
  obtain ⟨neg, m, e, hd⟩ := isFin_decode h
  rw [hd, codeRat_of_fin hd, valRat]

end Sys2Proof.Fp
end

