-- ==== Sys2Proof/Proofs/Comparisons.lean ====
section
/-! PROOFS. The order of f32 codes and the comparisons of the V slot (R85, R96, R122, R126, R127). -/

namespace Sys2Proof.Fp
open Claim

/-! ## NaN -/

/-- R85: the fields of an f32 code. -/
theorem decode_f32 (x : Nat) : decode f32 x = if x / 2 ^ 23 % 256 = 255 then if x % 2 ^ 23 = 0 then .inf (x.testBit 31) else .nan
    else if x / 2 ^ 23 % 256 = 0 then .fin (x.testBit 31) (x % 2 ^ 23) (-149)
    else .fin (x.testBit 31) (2 ^ 23 + x % 2 ^ 23) ((x / 2 ^ 23 % 256 : Nat) - 150) := by
  by_cases hE : x / 8388608 % 256 = 255
  · simp only [decode, f32, hE, Nat.reducePow, Nat.reduceSub, and_self, if_true]
    rfl
  · by_cases h0 : x / 8388608 % 256 = 0
    · simp [decode, f32, h0, Fmt.emin]
    · simp [decode, f32, hE, h0]
      omega

/-- R85: the codes that decode to NaN. -/
theorem decode_eq_nan_iff {x : Nat} : decode f32 x = .nan ↔ NanF32 x := by
  rw [decode_f32, NanF32]
  generalize x / 2 ^ 23 % 256 = E, x % 2 ^ 23 = F
  split_ifs <;> simp [*]

theorem isNan_iff {x : Nat} : (decode f32 x).isNan = true ↔ NanF32 x := by
  rw [Val.isNan, decide_eq_true_eq, decode_eq_nan_iff]

/-! ## The order of codes -/

/-- The key of a code is its magnitude with its sign. -/
theorem orderF32_eq (x : Nat) : orderF32 x = signInt (x.testBit 31) (x % 2 ^ 31) := by
  rw [Nat.testBit_eq_decide_div_mod_eq]
  simp only [orderF32, signInt, decide_eq_true_eq]

/-- A strictly monotone function on magnitudes keeps the order of signed ones. -/
theorem signInt_lt_iff {g : Nat → Nat} (hg : StrictMono g) (h0 : g 0 = 0) (s t : Bool) (a b : Nat) :
    signInt s (g a) < signInt t (g b) ↔ signInt s a < signInt t b := by
  have ha : g a = 0 ↔ a = 0 := by rw [← h0, hg.injective.eq_iff, h0]
  have hb : g b = 0 ↔ b = 0 := by rw [← h0, hg.injective.eq_iff, h0]
  have hab := hg.lt_iff_lt (a := a) (b := b)
  have hba := hg.lt_iff_lt (a := b) (b := a)
  cases s <;> cases t <;> simp only [signInt, Bool.false_eq_true, if_true, if_false] <;> omega

/-- R96, R126: the keys of f32 codes are ordered as their values. -/
theorem orderF32_lt_iff {x y : Nat} (hx : x < 2 ^ 32) (hy : y < 2 ^ 32) : orderF32 x < orderF32 y ↔ codeRat f32 x < codeRat f32 y := by
  have hval {z : Nat} (hz : z < 2 ^ 32) : codeRat f32 z = signInt (z.testBit 31) (magUnits f32 (z % 2 ^ 31)) * 2 ^ (f32.emin - f32.p) := by
    obtain ⟨hs, hlt⟩ := sign_add_mag (f := f32) hz
    have h := codeRat_sign f32 (z.testBit 31) hlt
    rw [show f32.sign (z.testBit 31) + _ = z from hs, codeRat_eq_magUnits hlt] at h
    rw [h, signInt_cast, mul_assoc]
    rfl
  rw [hval hx, hval hy, mul_lt_mul_iff_left₀ (two_zpow_pos _), Int.cast_lt, signInt_lt_iff (magUnits_strictMono f32) rfl, orderF32_eq x, orderF32_eq y]

/-! ## The comparison of values -/

/-- The sign of a finite term counted in units. -/
theorem termUnits_sign (q : Int) (s : Bool) (m : Nat) (e : Int) : (m = 0 → termUnits q (.fin s m e) = 0) ∧
    (m ≠ 0 → if s then termUnits q (.fin s m e) < 0 else 0 < termUnits q (.fin s m e)) := by
  have hp (h : m ≠ 0) : (0 : Int) < m * 2 ^ (e - q).toNat := Int.mul_pos (by omega) (Int.pow_pos (by decide))
  refine ⟨by rintro rfl; simp [termUnits], fun h => ?_⟩
  cases s <;> simp [termUnits, hp h]

/-- R96, R126: what a comparison of finite values looks at first: the sign, of zeros only if they are told apart. -/
def signKey (zeros s : Bool) (m : Nat) : Int × Int := if m = 0 then (0, if zeros && s then -1 else 0) else if s then (-1, 0) else (1, 0)

/-- What the key says of a number of that sign. -/
theorem signKey_of_sign {s : Bool} {m : Nat} {x : Int} (h0 : m = 0 → x = 0) (hx : m ≠ 0 → if s then x < 0 else 0 < x) (z : Bool) :
    (x < 0 ∧ (signKey z s m).1 = -1 ∧ (signKey z s m).2 = 0) ∨ (x = 0 ∧ (signKey z s m).1 = 0 ∧ (z = false → (signKey z s m).2 = 0)) ∨
      (0 < x ∧ (signKey z s m).1 = 1 ∧ (signKey z s m).2 = 0) := by
  by_cases hm : m = 0
  · exact .inr (.inl ⟨h0 hm, by simp [signKey, hm], fun h => by simp [signKey, hm, h]⟩)
  · have hne := hx hm
    cases s
    · exact .inr (.inr ⟨hne, by simp [signKey, hm], by simp [signKey, hm]⟩)
    · exact .inl ⟨hne, by simp [signKey, hm], by simp [signKey, hm]⟩

theorem signKey_bounds (z s : Bool) (m : Nat) : -2 < (signKey z s m).1 ∧ (signKey z s m).1 < 2 := by
  by_cases hm : m = 0 <;> cases s <;> simp [signKey, hm]

/-- R96, R126: a comparison by keys, and by something else where the keys are the same. -/
def keyOrder (a b : Int × Int) (r : Ordering) : Ordering :=
  if a ≠ b then if a.1 < b.1 ∨ (a.1 = b.1 ∧ a.2 < b.2) then .lt else .gt else r

theorem keyOrder_lt {a b : Int × Int} (r : Ordering) (h : a.1 < b.1) : keyOrder a b r = .lt := by
  rw [keyOrder, if_pos fun e => by rw [e] at h; exact lt_irrefl _ h, if_pos (.inl h)]

theorem keyOrder_gt {a b : Int × Int} (r : Ordering) (h : b.1 < a.1) : keyOrder a b r = .gt := by
  rw [keyOrder, if_pos fun e => by rw [e] at h; exact lt_irrefl _ h, if_neg (by omega)]

theorem keyOrder_self (a : Int × Int) (r : Ordering) : keyOrder a a r = r := if_neg (not_not.2 rfl)

/-- Of two numbers the smaller has the smaller key, or both have the same. -/
theorem signKey_of_lt {z s t : Bool} {m n : Nat} {a b : Int} (ha : m = 0 → a = 0) (ha' : m ≠ 0 → if s then a < 0 else 0 < a) (hb : n = 0 → b = 0)
    (hb' : n ≠ 0 → if t then b < 0 else 0 < b) (h : a < b) : (signKey z s m).1 < (signKey z t n).1 ∨ signKey z s m = signKey z t n := by
  have hka := signKey_of_sign ha ha' z
  have hkb := signKey_of_sign hb hb' z
  rw [Prod.ext_iff]
  omega

/-- R96, R126: finite values compare as their exact integers in common units; only zeros may compare by their signs. -/
theorem cmp_units (z s t : Bool) (m n : Nat) (e g : Int) :
    let q := leastExp [.fin s m e, .fin t n g] 1024
    let a := termUnits q (.fin s m e)
    let b := termUnits q (.fin t n g)
    (a < b → cmp z (.fin s m e) (.fin t n g) = .lt) ∧ (b < a → cmp z (.fin s m e) (.fin t n g) = .gt) ∧
      (a = b → cmp false (.fin s m e) (.fin t n g) = .eq) := by
  intro q a b
  have hcmp (z : Bool) : cmp z (.fin s m e) (.fin t n g) = keyOrder (signKey z s m) (signKey z t n) (compare a b) := rfl
  obtain ⟨ha0, ha⟩ := termUnits_sign q s m e
  obtain ⟨hb0, hb⟩ := termUnits_sign q t n g
  simp only [hcmp]
  refine ⟨fun h => ?_, fun h => ?_, fun h => ?_⟩
  · rcases signKey_of_lt (z := z) ha0 ha hb0 hb h with hk | hk
    · exact keyOrder_lt _ hk
    · rw [hk, keyOrder_self, compare_lt_iff_lt.2 h]
  · rcases signKey_of_lt (z := z) hb0 hb ha0 ha h with hk | hk
    · exact keyOrder_gt _ hk
    · rw [hk, keyOrder_self, compare_gt_iff_gt.2 h]
  · have hk : signKey false s m = signKey false t n := by
      have hka := signKey_of_sign (x := a) ha0 ha false
      have hkb := signKey_of_sign (x := b) hb0 hb false
      simp only [forall_const] at hka hkb
      rw [Prod.ext_iff]
      omega
    rw [hk, keyOrder_self, compare_eq_iff_eq.2 h]

/-- R96, R126: an infinity lies beyond every finite value. -/
theorem cmp_inf_fin (z s t : Bool) (n : Nat) (g : Int) : cmp z (.inf s) (.fin t n g) = if s then .lt else .gt := by
  obtain ⟨hlo, hhi⟩ := signKey_bounds z t n
  cases s
  · exact keyOrder_gt .eq hhi
  · exact keyOrder_lt .eq hlo

theorem cmp_fin_inf (z s t : Bool) (m : Nat) (e : Int) : cmp z (.fin s m e) (.inf t) = if t then .gt else .lt := by
  obtain ⟨hlo, hhi⟩ := signKey_bounds z s m
  cases t
  · exact keyOrder_lt .eq hhi
  · exact keyOrder_gt .eq hlo

/-- Counted in the units of a sum, a term keeps its value. -/
theorem termUnits_eq {q : Int} {s : Bool} {m : Nat} {e : Int} (h : m ≠ 0 → q ≤ e) : (termUnits q (.fin s m e) : ℚ) * 2 ^ q = valRat (.fin s m e) := by
  have hterm : termUnits q (.fin s m e) = sumTerm q (.fin s m e) := by cases m <;> simp [sumTerm, termUnits]
  rw [hterm]
  exact sumTerm_eq fun _ _ _ heq hm => by cases heq; exact h hm

/-- The key of an infinity, which is above those of all finite codes. -/
theorem orderF32_of_inf {x : Nat} {s : Bool} (h : decode f32 x = .inf s) : orderF32 x = if s then -0x7F80_0000 else 0x7F80_0000 := by
  obtain ⟨rfl, -, hE, hF⟩ := decode_eq_inf h
  have hmag : x % 2 ^ 31 = 0x7F80_0000 := by
    have := mag_eq f32 x
    rwa [hE, hF] at this
  rw [orderF32_eq, hmag]
  rfl

theorem orderF32_of_fin {x : Nat} {s : Bool} {m : Nat} {e : Int} (h : decode f32 x = .fin s m e) :
    -0x7F80_0000 < orderF32 x ∧ orderF32 x < 0x7F80_0000 := by
  have hmag : x % 2 ^ 31 ≤ 0x7F7F_FFFF := mag_le_max (f := f32) (by simp) h
  rw [orderF32_eq]
  cases x.testBit 31 <;> simp only [signInt, if_true, Bool.false_eq_true, if_false] <;> omega

/-- R96, R126: codes that are no NaN compare as their keys; where the keys are equal, only zeros may compare by their signs. -/
theorem cmp_decode {x y : Nat} (hx : x < 2 ^ 32) (hy : y < 2 ^ 32) (hnx : ¬ NanF32 x) (hny : ¬ NanF32 y) (z : Bool) :
    (orderF32 x < orderF32 y → cmp z (decode f32 x) (decode f32 y) = .lt) ∧ (orderF32 y < orderF32 x → cmp z (decode f32 x) (decode f32 y) = .gt) ∧
      (orderF32 x = orderF32 y → cmp false (decode f32 x) (decode f32 y) = .eq) := by
  rw [← decode_eq_nan_iff] at hnx hny
  rcases hdx : decode f32 x with _ | s | ⟨s, m, e⟩
  · exact absurd hdx hnx
  · rcases hdy : decode f32 y with _ | t | ⟨t, n, g⟩
    · exact absurd hdy hny
    · rw [orderF32_of_inf hdx, orderF32_of_inf hdy]
      cases s <;> cases t <;> simp [cmp]
    · rw [orderF32_of_inf hdx]
      obtain ⟨hlo, hhi⟩ := orderF32_of_fin hdy
      rw [cmp_inf_fin, cmp_inf_fin]
      cases s
      · exact ⟨fun h => absurd h hhi.not_gt, fun _ => rfl, fun h => absurd h hhi.ne'⟩
      · exact ⟨fun _ => rfl, fun h => absurd h hlo.not_gt, fun h => absurd h hlo.ne⟩
  · rcases hdy : decode f32 y with _ | t | ⟨t, n, g⟩
    · exact absurd hdy hny
    · rw [orderF32_of_inf hdy]
      obtain ⟨hlo, hhi⟩ := orderF32_of_fin hdx
      rw [cmp_fin_inf, cmp_fin_inf]
      cases t
      · exact ⟨fun _ => rfl, fun h => absurd h hhi.not_gt, fun h => absurd h hhi.ne⟩
      · exact ⟨fun h => absurd h hlo.not_gt, fun _ => rfl, fun h => absurd h hlo.ne'⟩
    · obtain ⟨hlt, hgt, heq⟩ := cmp_units z s t m n e g
      have hleast := (leastExp_le [.fin s m e, .fin t n g] 1024).2
      have hq := two_zpow_pos (leastExp [.fin s m e, .fin t n g] 1024)
      have hvx : codeRat f32 x = _ := (codeRat_of_fin hdx).trans (termUnits_eq (hleast s m e (by simp))).symm
      have hvy : codeRat f32 y = _ := (codeRat_of_fin hdy).trans (termUnits_eq (hleast t n g (by simp))).symm
      have hxy := (orderF32_lt_iff hx hy).trans (by rw [hvx, hvy, mul_lt_mul_iff_left₀ hq, Int.cast_lt])
      have hyx := (orderF32_lt_iff hy hx).trans (by rw [hvx, hvy, mul_lt_mul_iff_left₀ hq, Int.cast_lt])
      exact ⟨fun h => hlt (hxy.1 h), fun h => hgt (hyx.1 h), fun h => heq (by omega)⟩

end Sys2Proof.Fp

namespace Sys2Proof.Machine
open Claim

/-! ## The statement -/

/-- R122, R126, R127: an instruction whose effect is a lane predicate lands 0 or 1, without events, in every active lane. -/
theorem predV_lands {s : State} {c k : Nat} {w : Warp} {i : Instr} {o : VOp} {f : Word → Word → Bool} {P : Nat → Prop} (hi : Issues s c k w i)
    (hn : slotNum i = some 0) (hf : slotFn i = some (vFn fun w => w.predV o f)) (hp : ∀ l, f (w.src o.a l) (w.srcB o l) = true ↔ P l) :
    VLands s c k w i o 2 .none fun l y e => (y = 1 ↔ P l) ∧ (y = 0 ∨ y = 1) ∧ e = 0 :=
  vLands_of hi (exec_eq_runSlot hn s) hn hf rfl fun l _ => by
    rw [← hp l]
    cases f (w.src o.a l) (w.srcB o l) <;> simp

/-- R126: the eight conditions on codes. -/
theorem cmpF32_iff (n : Nat) (x y : Word) {un : Prop} (hun : un ↔ NanF32 x.toNat ∨ NanF32 y.toNat) : cmpF32 n x y = true ↔ match n with
    | 0 => ¬ un ∧ orderF32 x.toNat = orderF32 y.toNat
    | 1 => un ∨ orderF32 x.toNat ≠ orderF32 y.toNat
    | 2 => ¬ un ∧ orderF32 x.toNat < orderF32 y.toNat
    | 3 => ¬ un ∧ orderF32 x.toNat ≤ orderF32 y.toNat
    | 4 => ¬ un ∧ orderF32 x.toNat > orderF32 y.toNat
    | 5 => ¬ un ∧ orderF32 x.toNat ≥ orderF32 y.toNat
    | 6 => un
    | _ => ¬ un := by
  have hnan : ((Fp.decode Fp.f32 x.toNat).isNan || (Fp.decode Fp.f32 y.toNat).isNan) = true ↔ un := by
    rw [Bool.or_eq_true, Fp.isNan_iff, Fp.isNan_iff, hun]
  simp only [cmpF32]
  by_cases h : un
  · rw [hnan.2 h]
    rcases n with _ | _ | _ | _ | _ | _ | _ | n <;> simp [h]
  · obtain ⟨hlt, hgt, heq⟩ := Fp.cmp_decode x.isLt y.isLt (fun hx => h (hun.2 (.inl hx))) (fun hy => h (hun.2 (.inr hy))) false
    have hc : (Fp.cmp false (Fp.decode Fp.f32 x.toNat) (Fp.decode Fp.f32 y.toNat)) = compare (orderF32 x.toNat) (orderF32 y.toNat) := by
      rcases lt_trichotomy (orderF32 x.toNat) (orderF32 y.toNat) with ho | ho | ho
      · rw [compare_lt_iff_lt.2 ho, hlt ho]
      · rw [compare_eq_iff_eq.2 ho, heq ho]
      · rw [compare_gt_iff_gt.2 ho, hgt ho]
    rw [hc, Bool.eq_false_iff.2 (mt hnan.1 h)]
    rcases n with _ | _ | _ | _ | _ | _ | _ | n <;> simp [h, compare_lt_iff_lt, compare_gt_iff_gt]

/-- R127: the class of a code. -/
theorem classF32_eq (x : Word) : classF32 x = classOf x.toNat := by
  have hF : x.toNat % 2 ^ 23 < 2 ^ 23 := Nat.mod_lt _ (by decide)
  rw [classF32, Fp.decode_f32, Nat.testBit_eq_decide_div_mod_eq, classOf]
  generalize x.toNat / 2 ^ 31 % 2 = S, x.toNat / 2 ^ 23 % 256 = E, x.toNat % 2 ^ 23 = F at *
  by_cases hE : E = 255
  · by_cases h0 : F = 0 <;> simp [hE, h0]
  · by_cases hE0 : E = 0
    · simp [hE0, show F < 8388608 from hF]
    · simp [hE, hE0]

/-- R122: the six conditions on integers. -/
theorem cmpInt_iff (n : Nat) (a b : Int) : cmpInt n a b = true ↔ match n with
    | 0 => a = b
    | 1 => a ≠ b
    | 2 => a < b
    | 3 => a ≤ b
    | 4 => a > b
    | _ => a ≥ b := by
  rcases n with _ | _ | _ | _ | _ | n <;> simp [cmpInt]

/-- Settles O5. -/
theorem compareResults : Obligations.CompareResults := by
  refine ⟨?int, ?float, ?cls⟩
  case int =>
    intro o s c k w hi hs
    refine predV_lands hi rfl rfl fun l => ?_
    rw [← intVal_eq_intOf, ← intVal_eq_intOf]
    exact cmpInt_iff o.sub.val _ _
  case float =>
    intro o s c k w hi hs
    exact predV_lands hi rfl rfl fun l => cmpF32_iff o.sub.val _ _ Iff.rfl
  case cls =>
    intro o s c k w hi
    exact predV_lands hi rfl rfl fun l => by rw [classF32_eq]

end Sys2Proof.Machine
end

