-- ==== Sys2Proof/Proofs/FloatArithmetic.lean ====
section
/-! PROOFS. The f32 operations: sums, products, fused sums, the least and the greatest, NaN operands, invalid cases and the signs of zeros
(R86, R95, R96, R125). -/

namespace Sys2Proof.Fp
open Claim

/-! ## NaN operands and invalid cases -/

/-- R86, R96: a sum of products with a NaN in it is the canonical NaN. -/
theorem sumOfProducts_nan (f : Fmt) (rm : RM) (sat : Bool) {ps : List (Val × Val)} {c : List Val}
    (h : (∃ p ∈ ps, p.1.isNan = true ∨ p.2.isNan = true) ∨ ∃ v ∈ c, v.isNan = true) : sumOfProducts f rm sat ps c = (f.nan, 0) := by
  refine if_pos ?_
  simpa [List.any_eq_true] using h

theorem mulRound_nan (f : Fmt) (rm : RM) (sat : Bool) {a b : Nat} (h : (decode f a).isNan = true ∨ (decode f b).isNan = true) :
    mulRound f rm sat a b = (f.nan, 0) := by
  refine if_pos ?_
  simpa using h

@[simp] theorem isNan_neg (v : Val) : v.neg.isNan = v.isNan := by cases v <;> rfl

/-! ## Finite codes -/

section
variable {f : Fmt} (hf : f ∈ [f32, bf16, f16, e5m2]) (rm : RM) (sat : Bool) {a b c : Nat} (ha : FiniteIn f a) (hb : FiniteIn f b) (hc : FiniteIn f c)
include ha hb

theorem isFin_pair : ∀ v ∈ [decode f a, decode f b], IsFin v := by
  simp [isFin_decode ha, isFin_decode hb]

theorem isFin_pair_neg : ∀ v ∈ [decode f a, (decode f b).neg], IsFin v := by
  simp [isFin_decode ha, (isFin_decode hb).neg]

theorem isFin_product : ∀ p ∈ [(decode f a, decode f b)], IsFin p.1 ∧ IsFin p.2 := by
  simp [isFin_decode ha, isFin_decode hb]

theorem sumRat_add : sumRat [] [decode f a, decode f b] = codeRat f a + codeRat f b := by
  simp [sumRat, valRat_decode ha, valRat_decode hb]

theorem sumRat_sub : sumRat [] [decode f a, (decode f b).neg] = codeRat f a - codeRat f b := by
  simp [sumRat, valRat_decode ha, valRat_decode hb, sub_eq_add_neg]

include hc in
theorem sumRat_fma : sumRat [(decode f a, decode f b)] [decode f c] = codeRat f a * codeRat f b + codeRat f c := by
  simp [sumRat, valRat_decode ha, valRat_decode hb, valRat_decode hc]

/-- R95: two finite codes that cancel, one of them nonzero. -/
theorem add_cancel (h : codeRat f a + codeRat f b = 0) (h0 : codeRat f a ≠ 0) : add f rm sat a b = (f.sign (rm = .rdn), 0) :=
  sumOfProducts_cancel f rm sat (by simp) (isFin_pair ha hb) ((sumRat_add ha hb).trans h) ⟨_, List.mem_cons_self, (valRat_decode ha).trans_ne h0⟩

theorem sub_cancel (h : codeRat f a - codeRat f b = 0) (h0 : codeRat f a ≠ 0) : sub f rm sat a b = (f.sign (rm = .rdn), 0) :=
  sumOfProducts_cancel f rm sat (by simp) (isFin_pair_neg ha hb) ((sumRat_sub ha hb).trans h) ⟨_, List.mem_cons_self, (valRat_decode ha).trans_ne h0⟩

include hc in
theorem fma_cancel (h : codeRat f a * codeRat f b + codeRat f c = 0) (h0 : codeRat f c ≠ 0) : fma f rm sat a b c = (f.sign (rm = .rdn), 0) :=
  sumOfProducts_cancel f rm sat (isFin_product ha hb) (by simp [isFin_decode hc]) ((sumRat_fma ha hb hc).trans h)
    ⟨_, List.mem_cons_self, (valRat_decode hc).trans_ne h0⟩

/-- R95: the product of two finite codes is rounded as the exact one. -/
theorem mulRound_of_fin : ∃ (m : Nat) (e : Int), sgn (a.testBit (f.eb + f.p) != b.testBit (f.eb + f.p)) * (m * 2 ^ e) = codeRat f a * codeRat f b ∧
    mulRound f rm sat a b = arith f rm sat (.fin (a.testBit (f.eb + f.p) != b.testBit (f.eb + f.p)) m e) := by
  obtain ⟨s, m, e, hda⟩ := isFin_decode ha
  obtain ⟨t, n, g, hdb⟩ := isFin_decode hb
  obtain ⟨rfl, -⟩ := decode_eq_fin hda
  obtain ⟨rfl, -⟩ := decode_eq_fin hdb
  refine ⟨m * n, e + g, ?_, by simp only [mulRound, hda, hdb]; rfl⟩
  rw [codeRat_of_fin hda, codeRat_of_fin hdb, sgn_bne, two_zpow_add]
  push_cast
  ring

theorem mulRound_zero (h : codeRat f a * codeRat f b = 0) :
    mulRound f rm sat a b = (f.sign (a.testBit (f.eb + f.p) != b.testBit (f.eb + f.p)), 0) := by
  obtain ⟨m, e, hval, hround⟩ := mulRound_of_fin rm sat ha hb
  have hm : m = 0 := by simpa [h, sgn_ne_zero, (two_zpow_pos e).ne'] using hval
  rw [hround, hm]
  rfl

include hf

/-- R91, R94, R95: nonzero exact results are rounded once. -/
theorem rounds_add (h : codeRat f a + codeRat f b ≠ 0) : Rounds f rm sat 0x84 (codeRat f a + codeRat f b) (add f rm sat a b) := by
  rw [← sumRat_add ha hb] at h ⊢
  exact rounds_sumOfProducts hf rm sat (by simp) (isFin_pair ha hb) h

theorem rounds_sub (h : codeRat f a - codeRat f b ≠ 0) : Rounds f rm sat 0x84 (codeRat f a - codeRat f b) (sub f rm sat a b) := by
  rw [← sumRat_sub ha hb] at h ⊢
  exact rounds_sumOfProducts hf rm sat (by simp) (isFin_pair_neg ha hb) h

theorem rounds_mul (h : codeRat f a * codeRat f b ≠ 0) : Rounds f rm sat 0x84 (codeRat f a * codeRat f b) (mulRound f rm sat a b) := by
  obtain ⟨m, e, hval, hround⟩ := mulRound_of_fin rm sat ha hb
  have hm : m ≠ 0 := by
    rintro rfl
    exact h (by simpa using hval.symm)
  rw [hround, ← hval]
  exact rounds_arith hf rm sat _ (Nat.pos_of_ne_zero hm) e

include hc in
theorem rounds_fma (h : codeRat f a * codeRat f b + codeRat f c ≠ 0) :
    Rounds f rm sat 0x84 (codeRat f a * codeRat f b + codeRat f c) (fma f rm sat a b c) := by
  rw [← sumRat_fma ha hb hc] at h ⊢
  exact rounds_sumOfProducts hf rm sat (isFin_product ha hb) (by simp [isFin_decode hc]) h

end

/-- R95: a difference of equal finite values is +0, or −0 in RDN. -/
theorem sub_self_of_fin {f : Fmt} (rm : RM) (sat : Bool) {a : Nat} (h : FiniteIn f a) : sub f rm sat a a = (f.sign (rm = .rdn), 0) := by
  by_cases h0 : codeRat f a = 0
  · obtain ⟨s, m, e, hd⟩ := isFin_decode h
    have hm : m = 0 := by simpa [codeRat_of_fin hd, sgn_ne_zero, (two_zpow_pos e).ne'] using h0
    obtain ⟨ts, hfin, hval, hmem, hsum⟩ := sumOfProducts_of_fin f rm sat (ps := []) (by simp) (isFin_pair_neg h h)
    have hz (neg : Bool) : ts.all (isZero neg) = false := by
      refine List.all_eq_false.2 ⟨if neg = s then (decode f a).neg else decode f a, hmem _ (by split <;> simp), ?_⟩
      rw [hd]
      cases neg <;> cases s <;> simp [isZero, Val.neg]
    rw [sub, hsum, sum_of_cancel rm hfin (hval.trans ((sumRat_sub h h).trans (sub_self _))) hz]
    rfl
  · exact sub_cancel rm sat h h (sub_self _) h0

/-! ## Least and greatest -/

/-- R96: of two codes that are no NaN the least or the greatest is one of them, and the one that the order says. -/
theorem minMax_of_not_nan (isMin : Bool) {a b : Nat} (hlta : a < 2 ^ 32) (hltb : b < 2 ^ 32) (ha : ¬ NanF32 a) (hb : ¬ NanF32 b) :
    (minMax f32 isMin a b = a ∨ minMax f32 isMin a b = b) ∧ (orderF32 a < orderF32 b → minMax f32 isMin a b = if isMin then a else b) ∧
      (orderF32 b < orderF32 a → minMax f32 isMin a b = if isMin then b else a) := by
  obtain ⟨hlt, hgt, -⟩ := cmp_decode hlta hltb ha hb true
  have hna := Bool.eq_false_iff.2 (mt isNan_iff.1 ha)
  have hnb := Bool.eq_false_iff.2 (mt isNan_iff.1 hb)
  simp only [minMax, hna, hnb, Bool.false_eq_true, if_false]
  generalize cmp true (decode f32 a) (decode f32 b) = r at *
  refine ⟨by cases r <;> cases isMin <;> simp, fun h => ?_, fun h => ?_⟩
  · rw [hlt h]
  · rw [hgt h]

/-- R96: with one NaN operand the other is the result, with two the canonical NaN. -/
theorem minMax_of_nan (isMin : Bool) {a b : Nat} : (NanF32 a → NanF32 b → minMax f32 isMin a b = 0x7FC0_0000) ∧
    (NanF32 a → ¬ NanF32 b → minMax f32 isMin a b = b) ∧ (¬ NanF32 a → NanF32 b → minMax f32 isMin a b = a) := by
  simp only [← isNan_iff, Bool.not_eq_true]
  refine ⟨fun ha hb => ?_, fun ha hb => ?_, fun ha hb => ?_⟩ <;> simp only [minMax, ha, hb] <;> rfl

end Sys2Proof.Fp

namespace Sys2Proof.Machine
open Claim

/-! ## The statement -/

/-- R125: an instruction whose effect is an f32 operation lands its code and its classes in every active lane. -/
theorem fpV_lands {s : State} {c k : Nat} {w : Warp} {i : Instr} {o : VOp} {lat : Nat} {u : Unit'} {f : Nat → Nat → Nat → Nat × BitVec 8}
    {P : Nat → Word → BitVec 8 → Prop} (hi : Issues s c k w i) (hn : slotNum i = some 0) (hf : slotFn i = some (vFn fun w => w.fpV o lat u f))
    (hp : ∀ l, P l (BitVec.ofNat 32 (f (w.src o.a l).toNat (w.srcB o l).toNat (w.src o.c l).toNat).1)
      (f (w.src o.a l).toNat (w.srcB o l).toNat (w.src o.c l).toNat).2) : VLands s c k w i o lat u P :=
  vLands_of hi (exec_eq_runSlot hn s) hn hf rfl fun l _ => hp l

/-- R96: the least and the greatest of two lanes, without rounding or events. -/
theorem minMax_result (isMin : Bool) (x y : Word) :
    let a := x.toNat
    let b := y.toNat
    let z := BitVec.ofNat 32 (Fp.minMax Fp.f32 isMin a b)
    (0 : BitVec 8) = 0 ∧ (NanF32 a → NanF32 b → z = 0x7FC0_0000) ∧ (NanF32 a → ¬ NanF32 b → z.toNat = b) ∧ (¬ NanF32 a → NanF32 b → z.toNat = a) ∧
      (¬ NanF32 a → ¬ NanF32 b → z.toNat = a ∨ z.toNat = b) ∧
      (¬ NanF32 a → ¬ NanF32 b → orderF32 a < orderF32 b → z.toNat = if isMin then a else b) ∧
      (¬ NanF32 a → ¬ NanF32 b → orderF32 b < orderF32 a → z.toNat = if isMin then b else a) ∧
      (a = 0 → b = 0x8000_0000 → z = if isMin then 0x8000_0000 else 0) ∧ (a = 0x8000_0000 → b = 0 → z = if isMin then 0x8000_0000 else 0) := by
  intro a b z
  obtain ⟨hnn, hn1, hn2⟩ := Fp.minMax_of_nan isMin (a := a) (b := b)
  have hx (h : Fp.minMax Fp.f32 isMin a b = a) : z.toNat = a := by
    simp only [z, h, a, BitVec.ofNat_toNat, BitVec.setWidth_eq]
  have hy (h : Fp.minMax Fp.f32 isMin a b = b) : z.toNat = b := by
    simp only [z, h, b, BitVec.ofNat_toNat, BitVec.setWidth_eq]
  have hord (ha : ¬ NanF32 a) (hb : ¬ NanF32 b) := Fp.minMax_of_not_nan isMin x.isLt y.isLt ha hb
  refine ⟨rfl, fun ha hb => by simp only [z, hnn ha hb]; rfl, fun ha hb => hy (hn1 ha hb), fun ha hb => hx (hn2 ha hb),
    fun ha hb => (hord ha hb).1.imp hx hy, fun ha hb h => ?_, fun ha hb h => ?_, fun ha hb => ?_, fun ha hb => ?_⟩
  · have hm := (hord ha hb).2.1 h
    cases isMin
    · exact hy hm
    · exact hx hm
  · have hm := (hord ha hb).2.2 h
    cases isMin
    · exact hx hm
    · exact hy hm
  all_goals
    simp only [z, ha, hb]
    cases isMin <;> rfl

/-- R86, R95: NaN operands, the invalid cases and the signs of exact zeros, in every mode. -/
theorem f32_special (rm : RM) (sat : Bool) {a b c : Nat} :
    ((NanF32 a ∨ NanF32 b) → Fp.add Fp.f32 rm sat a b = (0x7FC0_0000, 0) ∧ Fp.sub Fp.f32 rm sat a b = (0x7FC0_0000, 0) ∧
      Fp.mulRound Fp.f32 rm sat a b = (0x7FC0_0000, 0)) ∧
    ((NanF32 a ∨ NanF32 b ∨ NanF32 c) → Fp.fma Fp.f32 rm sat a b c = (0x7FC0_0000, 0)) := by
  simp only [← Fp.isNan_iff]
  refine ⟨fun h => ⟨Fp.sumOfProducts_nan Fp.f32 rm sat (by simpa using h), Fp.sumOfProducts_nan Fp.f32 rm sat (by simpa using h),
    Fp.mulRound_nan Fp.f32 rm sat h⟩, fun h => Fp.sumOfProducts_nan Fp.f32 rm sat (by simpa [or_assoc] using h)⟩

/-- Settles O6. -/
theorem floatArithmetic : Obligations.FloatArithmetic := by
  refine ⟨⟨?ops, ?minMax⟩, ?special, ?finite⟩
  case ops =>
    simp only [List.forall_mem_cons, List.not_mem_nil, false_imp_iff, implies_true, and_true]
    refine ⟨?_, ?_, ?_, ?_⟩ <;> exact fun o s c k w hi => fpV_lands hi rfl rfl fun l => ⟨rfl, rfl⟩
  case minMax =>
    simp only [List.forall_mem_cons, List.not_mem_nil, false_imp_iff, implies_true, and_true]
    refine ⟨?_, ?_⟩ <;> exact fun o s c k w hi => fpV_lands hi rfl rfl fun l => minMax_result _ _ _
  case special =>
    intro rm sat a b c ha hb hc
    obtain ⟨hnan, hnan3⟩ := f32_special rm sat (a := a) (b := b) (c := c)
    refine ⟨hnan, hnan3, ?_, ?_, ?_, ?_, ?_, ?_, ?_, ?_, ?_, ?_, ?_⟩
    · rfl
    · rfl
    · rfl
    · rfl
    · intro h
      have hc : (Fp.decode Fp.f32 c).isNan = false := Bool.eq_false_iff.2 (mt Fp.isNan_iff.1 h)
      exact (if_neg (by simp [hc, show (Fp.decode Fp.f32 0).isNan = false from rfl, show (Fp.decode Fp.f32 0x7F80_0000).isNan = false from rfl])).trans rfl
    · intro h
      have hz : (Fp.f32.sign (rm = .rdn), (0 : BitVec 8)) = (if rm = .rdn then 0x8000_0000 else 0, 0) := by cases rm <;> rfl
      exact (Fp.sub_self_of_fin rm sat ⟨ha, h⟩).trans hz
    · cases rm <;> cases sat <;> rfl
    · cases rm <;> cases sat <;> rfl
    · cases rm <;> cases sat <;> rfl
    · rfl
    · rfl
  case finite =>
    intro rm sat a b c ha hb hc q zero
    have hf : Fp.f32 ∈ [Fp.f32, Fp.bf16, Fp.f16, Fp.e5m2] := by simp
    have hz : (Fp.f32.sign (rm = .rdn), 0) = zero := by simp [Fp.Fmt.sign, zero, Fp.f32]
    refine ⟨Fp.rounds_add hf rm sat ha hb, fun h h0 => (Fp.add_cancel rm sat ha hb h h0).trans hz, Fp.rounds_sub hf rm sat ha hb,
      fun h h0 => (Fp.sub_cancel rm sat ha hb h h0).trans hz, Fp.rounds_mul hf rm sat ha hb, fun h => ?_, Fp.rounds_fma hf rm sat ha hb hc,
      fun h h0 => (Fp.fma_cancel rm sat ha hb hc h h0).trans hz⟩
    refine (Fp.mulRound_zero rm sat ha hb h).trans ?_
    rw [show Fp.f32.eb + Fp.f32.p = 31 from rfl]
    cases a.testBit 31 <;> cases b.testBit 31 <;> rfl

end Sys2Proof.Machine
end

