-- ==== Sys2Proof/Proofs/PackedAndSpecial.lean ====
section
/-! PROOFS. Packed f32 halves, and the special functions at the operands that the spec names (R97, R98, R125, R128). -/

namespace Sys2Proof.Fp
open Claim

/-! ## Two products and an addend -/

/-- R98: the exact sum of `vhdot` rounded once into f32. -/
theorem rounds_dot {f : Fmt} (rm : RM) (sat : Bool) {a b a' b' d : Nat} (ha : FiniteIn f a) (hb : FiniteIn f b) (ha' : FiniteIn f a')
    (hb' : FiniteIn f b') (hd : FiniteIn f32 d) (h : codeRat f a * codeRat f b + codeRat f a' * codeRat f b' + codeRat f32 d ≠ 0) :
    Rounds f32 rm sat 0x84 (codeRat f a * codeRat f b + codeRat f a' * codeRat f b' + codeRat f32 d) (sumOfProducts f32 rm sat
      [(decode f a, decode f b), (decode f a', decode f b')] [decode f32 d]) := by
  have hval : sumRat [(decode f a, decode f b), (decode f a', decode f b')] [decode f32 d] =
      codeRat f a * codeRat f b + codeRat f a' * codeRat f b' + codeRat f32 d := by
    simp [sumRat, valRat_decode ha, valRat_decode hb, valRat_decode ha', valRat_decode hb', valRat_decode hd]
  rw [← hval] at h ⊢
  exact rounds_sumOfProducts (by simp) rm sat (by simp [isFin_decode ha, isFin_decode hb, isFin_decode ha', isFin_decode hb'])
    (by simp [isFin_decode hd]) h

end Sys2Proof.Fp

namespace Sys2Proof.Machine
open Claim

/-! ## Packed operations -/

/-- R98: the format that the type of a packed operation names. -/
theorem halfFmt_eq {ty : Ty} {f : Fp.Fmt} (h : (ty = .bf16 ∧ f = Fp.bf16) ∨ (ty = .f16 ∧ f = Fp.f16)) : halfFmt ty = f := by
  rcases h with ⟨rfl, rfl⟩ | ⟨rfl, rfl⟩ <;> rfl

/-- R98, R128: a packed operation works on each half by itself and records the classes of both. -/
theorem packedV_lands {s : State} {c k : Nat} {w : Warp} {i : Instr} {o : VOp} {g : Fp.Fmt → Nat → Nat → Nat → Nat × BitVec 8} {f : Fp.Fmt}
    (hi : Issues s c k w i) (hn : slotNum i = some 0) (hs : slotFn i = some (vFn fun w => w.packedV o g))
    (hf : (o.ty = .bf16 ∧ f = Fp.bf16) ∨ (o.ty = .f16 ∧ f = Fp.f16)) :
    VLands s c k w i o 4 .lvf fun l y e =>
      let a := (w.src o.a l).toNat
      let b := (w.srcB o l).toNat
      let d := (w.src o.c l).toNat
      let lo := g f (a % 65536) (b % 65536) (d % 65536)
      let hi := g f (a / 65536) (b / 65536) (d / 65536)
      y = BitVec.ofNat 32 (lo.1 + 65536 * hi.1) ∧ e = lo.2 ||| hi.2 :=
  fpV_lands hi hn hs fun l => by rw [halfFmt_eq hf]; exact ⟨rfl, rfl⟩

/-- Settles O9. -/
theorem packedResults : Obligations.PackedResults := by
  refine ⟨?halves, ?dot, ?finite⟩
  case halves =>
    simp only [List.forall_mem_cons, List.not_mem_nil, false_imp_iff, implies_true, and_true]
    refine ⟨?_, ?_, ?_⟩ <;> exact fun o s c k w hi f hf => packedV_lands hi rfl rfl hf
  case dot =>
    intro o s c k w hi f hf
    exact fpV_lands hi rfl rfl fun l => by rw [halfFmt_eq hf]; exact ⟨rfl, rfl⟩
  case finite =>
    intro f hf rm sat a b c ha hb hc q
    have hf' : f ∈ [Fp.f32, Fp.bf16, Fp.f16, Fp.e5m2] := by
      simp only [List.mem_cons, List.not_mem_nil, or_false] at hf ⊢
      rcases hf with rfl | rfl <;> simp
    exact ⟨Fp.rounds_add hf' rm sat ha hb, Fp.rounds_mul hf' rm sat ha hb, Fp.rounds_fma hf' rm sat ha hb hc,
      fun a' b' d ha' hb' hd => Fp.rounds_dot rm sat ha hb ha' hb' hd⟩

/-! ## Special functions -/

/-- R97: a NaN operand gives the canonical NaN. -/
theorem special_nan (rm : RM) (sat : Bool) {x : Nat} (h : NanF32 x) :
    ∀ g ∈ [Fp.rcp, Fp.rsq, Fp.ex2, Fp.lg2, Fp.sinpi, Fp.cospi], g rm sat x = (0x7FC0_0000, 0) := by
  simp only [List.forall_mem_cons, List.not_mem_nil, false_imp_iff, implies_true, and_true]
  simp only [Fp.rcp, Fp.rsq, Fp.ex2, Fp.lg2, Fp.sinpi, Fp.cospi, Fp.decode_eq_nan_iff.2 h]
  exact ⟨rfl, rfl, rfl, rfl, rfl, rfl⟩

/-- R97: the root and the logarithm of a negative number are invalid. -/
theorem root_log_of_neg (rm : RM) (sat : Bool) {x : Nat} (hlo : 0x8000_0000 < x) (hhi : x ≤ 0xFF80_0000) :
    Fp.rsq rm sat x = (0x7FC0_0000, 1) ∧ Fp.lg2 rm sat x = (0x7FC0_0000, 1) := by
  have hneg : x.testBit 31 = true := by
    rw [Nat.testBit_eq_decide_div_mod_eq]
    simp only [decide_eq_true_eq]
    omega
  rcases hd : Fp.decode Fp.f32 x with _ | s | ⟨s, m, e⟩
  · obtain ⟨hE, hF⟩ := Fp.decode_eq_nan_iff.1 hd
    omega
  · obtain ⟨hs, -⟩ := Fp.decode_eq_inf hd
    obtain rfl : s = true := hs.trans hneg
    simp only [Fp.rsq, Fp.lg2, hd]
    exact ⟨rfl, rfl⟩
  · obtain ⟨hs, hm⟩ := Fp.decode_eq_fin hd
    obtain rfl : s = true := hs.trans hneg
    have hm0 : m ≠ 0 := by
      simp only [Fp.f32, Nat.reducePow] at hm
      omega
    simp only [Fp.rsq, Fp.lg2, hd, if_neg hm0]
    exact ⟨rfl, rfl⟩

/-- R97: the sine of a whole number is a zero of its sign. -/
theorem sinpi_of_whole (rm : RM) (sat : Bool) {x : Nat} {s : Bool} {m : Nat} {e : Int} (h : Fp.decode Fp.f32 x = .fin s m e) (he : 0 ≤ e) :
    Fp.sinpi rm sat x = (Fp.f32.sign s, 0) := by
  simp only [Fp.sinpi, h, if_pos he, ite_self]

/-- R97: the cosine of an even number is 1. -/
theorem cospi_of_even (rm : RM) (sat : Bool) {x : Nat} {s : Bool} {m : Nat} {e : Int} (h : Fp.decode Fp.f32 x = .fin s m e) (he : 1 ≤ e) :
    Fp.cospi rm sat x = (0x3F80_0000, 0) := by
  simp only [Fp.cospi, h, if_pos he]

/-- R97: the cosine of a zero is 1. -/
theorem cospi_of_zero (rm : RM) (sat : Bool) {x : Nat} {s : Bool} {e : Int} (h : Fp.decode Fp.f32 x = .fin s 0 e) (he : e < 1) :
    Fp.cospi rm sat x = (0x3F80_0000, 0) := by
  simp only [Fp.cospi, h, if_neg he.not_ge, if_true, Nat.zero_mod]
  cases rm <;> cases sat <;> rfl

/-- R85: a code from exponent field `E` on, up to the infinities, stands for a multiple of 2^(E − 150). -/
theorem decode_of_large {x E : Nat} (h0 : 0 < E) (hE : E ≤ x / 2 ^ 23 % 256) (hlt : x / 2 ^ 23 % 256 < 255) :
    ∃ m e, Fp.decode Fp.f32 x = .fin (decide (x / 2 ^ 31 % 2 = 1)) m e ∧ (E : Int) - 150 ≤ e := by
  rw [Fp.decode_f32, if_neg hlt.ne, if_neg (by omega), Nat.testBit_eq_decide_div_mod_eq]
  exact ⟨_, _, rfl, by omega⟩

/-- Settles O8. -/
theorem specialFunctions : Obligations.SpecialFunctions := by
  refine ⟨?_, fun rm sat => ?named⟩
  · simp only [List.forall_mem_cons, List.not_mem_nil, false_imp_iff, implies_true, and_true]
    refine ⟨?_, ?_, ?_, ?_, ?_, ?_⟩ <;>
      exact ⟨fun o s c k w hi => fpV_lands hi rfl rfl fun l => ⟨rfl, rfl⟩, fun rm sat x h => special_nan rm sat h _ (by simp)⟩
  case named =>
    refine ⟨?_, ?_, ?_, ?_, ?_, ?_, ?_, ?_, ?_, ?_, ?_, ?_, ?_, ?_, ?_, ?_, ?_, ?_, ?_, ?_, ?_, ?_⟩
    · rfl
    · rfl
    · rfl
    · rfl
    · rfl
    · rfl
    · rfl
    · rfl
    · rfl
    · rfl
    · rfl
    · rfl
    · rfl
    · exact fun x hlo hhi => root_log_of_neg rm sat hlo hhi
    · rfl
    · rfl
    · exact cospi_of_zero rm sat (rfl : Fp.decode Fp.f32 0 = .fin false 0 (-149)) (by decide)
    · exact cospi_of_zero rm sat (rfl : Fp.decode Fp.f32 0x8000_0000 = .fin true 0 (-149)) (by decide)
    · rintro x (rfl | rfl) <;> exact ⟨rfl, rfl⟩
    · intro x hlo hhi
      obtain ⟨m, e, hd, he⟩ := decode_of_large (E := 150) (x := x) (by omega) (by omega) (by omega)
      rw [sinpi_of_whole rm sat hd (by omega), decide_eq_false (by omega)]
      rfl
    · intro x hlo hhi
      obtain ⟨m, e, hd, he⟩ := decode_of_large (E := 150) (x := x) (by omega) (by omega) (by omega)
      rw [sinpi_of_whole rm sat hd (by omega), decide_eq_true (by omega)]
      rfl
    · intro x hlo hhi
      obtain ⟨m, e, hd, he⟩ := decode_of_large (E := 151) (x := x) (by omega) (by omega) (by omega)
      exact cospi_of_even rm sat hd (by omega)

end Sys2Proof.Machine
end

