-- ==== Sys2Proof/Proofs/Conversions.lean ====
section
/-! PROOFS. Conversions between formats and integers, and scaling by powers of two: exact values, their one rounding, and the range of codes
(R91 to R94, R99, R129, R132). -/

namespace Sys2Proof.Fp
open Claim

/-! ## Into a format -/

/-- The SAT mode of a conversion (R94). -/
def convSatOf (sat : Bool) : Sat := if sat then .conv else .none

theorem overflow_convSatOf {f : Fmt} (h : f ∈ [f32, bf16, f16, e5m2]) (rm : RM) :
    ∀ sat, OverflowsTo f rm (convSatOf sat) sat (if sat then 0xA0 else 0x84)
  | false => overflow_none h rm
  | true => overflow_conv h rm

/-- A finite value other than 0 has digits. -/
theorem digits_pos {neg : Bool} {m : Nat} {e : Int} (h : valRat (.fin neg m e) ≠ 0) : 0 < m :=
  Nat.pos_of_ne_zero fun h0 => h (by simp [valRat, h0])

/-- R91, R92, R94: a nonzero finite value rounds once into a format. -/
theorem rounds_convert {f : Fmt} (hf : FmtOk f) {rm : RM} {sat : Sat} {clamp : Bool} {ov : BitVec 8} (hov : OverflowsTo f rm sat clamp ov) {v : Val}
    (hv : IsFin v) (h : valRat v ≠ 0) : Rounds f rm clamp ov (valRat v) (convert f rm sat v) := by
  obtain ⟨neg, m, e, rfl⟩ := hv
  rw [convert_fin f rm sat neg (digits_pos h)]
  exact rounds_round hf hov neg (digits_pos h) e

/-- R93: a nonzero finite value rounds once into lg6. -/
theorem roundsLg_convertLg (rm : RM) {v : Val} (hv : IsFin v) (h : valRat v ≠ 0) : RoundsLg rm (valRat v) (convertLg rm v) := by
  obtain ⟨neg, m, e, rfl⟩ := hv
  exact roundsLg_roundLg rm neg (digits_pos h) e

/-- R91: what a value rounds to is a code of the format. -/
theorem lt_of_rounds {f : Fmt} (hf : f ∈ [f32, bf16, f16, e5m2, e4m3]) {rm : RM} {clamp : Bool} {ov : BitVec 8} {x : ℚ} {r : Nat × BitVec 8}
    (h : Rounds f rm clamp ov x r) : r.1 < 2 ^ (1 + f.eb + f.p) := by
  obtain ⟨k, n, -, -, -, -, hfit, hover⟩ := h
  rcases le_or_gt |(n : ℚ) * 2 ^ k| (codeRat f (maxCode f)) with hle | hlt
  · exact (hfit hle).1
  · have hmax : maxCode f + 1 < 2 ^ (f.eb + f.p) := by
      simp only [List.mem_cons, List.not_mem_nil, or_false] at hf
      rcases hf with rfl | rfl | rfl | rfl | rfl <;> decide
    rw [(hover hlt).2, show 1 + f.eb + f.p = f.eb + f.p + 1 by omega, pow_succ]
    split <;> split <;> omega

/-- R91, R92, R94: every format and SAT mode has its overflow. -/
theorem exists_overflow {f : Fmt} (hf : f ∈ [f32, bf16, f16, e5m2, e4m3]) (rm : RM) (sat : Sat) : ∃ clamp ov, OverflowsTo f rm sat clamp ov := by
  rw [show [f32, bf16, f16, e5m2, e4m3] = [f32, bf16, f16, e5m2] ++ [e4m3] from rfl, List.mem_append, List.mem_singleton] at hf
  rcases hf with hf | rfl
  · cases sat
    · exact ⟨_, _, overflow_none hf rm⟩
    · exact ⟨_, _, overflow_arith hf rm⟩
    · exact ⟨_, _, overflow_conv hf rm⟩
  · exact ⟨_, _, overflow_e4m3 rm sat⟩

/-- R85: converting into a format gives one of its codes. -/
theorem convert_lt {f : Fmt} (hf : f ∈ [f32, bf16, f16, e5m2, e4m3]) (rm : RM) (sat : Sat) (v : Val) : (convert f rm sat v).1 < 2 ^ (1 + f.eb + f.p) := by
  have hzero (neg : Bool) : f.sign neg < 2 ^ (1 + f.eb + f.p) := sign_add_lt f neg (x := 0) (Nat.two_pow_pos _)
  rcases v with _ | neg | ⟨neg, m, e⟩
  · simp only [List.mem_cons, List.not_mem_nil, or_false] at hf
    rcases hf with rfl | rfl | rfl | rfl | rfl <;> exact of_decide_eq_true rfl
  · simp only [List.mem_cons, List.not_mem_nil, or_false] at hf
    rcases hf with rfl | rfl | rfl | rfl | rfl <;> cases neg <;> exact of_decide_eq_true rfl
  · rcases Nat.eq_zero_or_pos m with rfl | hm
    · exact hzero neg
    · obtain ⟨clamp, ov, hov⟩ := exists_overflow hf rm sat
      rw [convert_fin f rm sat neg hm]
      exact lt_of_rounds hf (rounds_round (fmtOk hf) hov neg hm e)

/-- R93: converting into lg6 gives one of its codes. -/
theorem convertLg_lt (rm : RM) (v : Val) : (convertLg rm v).1 < 64 := by
  rcases v with _ | neg | ⟨neg, m, e⟩
  · exact of_decide_eq_true rfl
  · cases neg <;> exact of_decide_eq_true rfl
  · rcases Nat.eq_zero_or_pos m with rfl | hm
    · exact Nat.zero_lt_succ 63
    · obtain ⟨c, hc, -, h32, hlt⟩ := roundsLg_roundLg rm neg hm e
      change (roundLg rm neg m e).1 < 64
      rcases hc.lt_or_eq with h | h
      · rw [(hlt h).1]
        split_ifs <;> omega
      · rw [h32 h]
        dsimp only
        split_ifs <;> omega

/-! ## Into an integer -/

/-- The range of an integer type holds 0 and is narrower than 2^65. -/
theorem intRange_bounds {w : Nat} (hw : w ≤ 64) (signed : Bool) :
    -2 ^ 64 ≤ (intRange w signed).1 ∧ (intRange w signed).1 ≤ 0 ∧ -1 ≤ (intRange w signed).2 ∧ (intRange w signed).2 < 2 ^ 64 := by
  have h1 : 2 ^ (w - 1) ≤ 2 ^ 64 := Nat.pow_le_pow_right (by decide) (by omega)
  have h2 : 2 ^ w ≤ 2 ^ 64 := Nat.pow_le_pow_right (by decide) hw
  have h3 := Nat.two_pow_pos (w - 1)
  have h4 := Nat.two_pow_pos w
  cases signed <;> simp only [intRange, if_true, Bool.false_eq_true, if_false] <;> omega

/-- R99: a finite value is rounded to an integer, which is clamped; the classes say whether it was, and whether the value changed. -/
theorem toInt_of_fin (rm : RM) {w : Nat} (signed : Bool) (hw : w ≤ 64) {v : Val} (hv : IsFin v) : ∃ n : ℤ, RoundInt rm (valRat v) n ∧
    toInt rm w signed v = (clamp w signed n, if clamp w signed n ≠ n then 0xA0 else if (n : ℚ) = valRat v then 0 else 0x80) := by
  obtain ⟨neg, m, e, rfl⟩ := hv
  obtain ⟨hlo, hlo0, hhi0, hhi⟩ := intRange_bounds hw signed
  obtain ⟨hround, hexact⟩ := toUnits_rounds rm neg m e 0
  simp only [zpow_zero, div_one, mul_one, mul_assoc] at hround hexact
  refine ⟨signInt neg (toUnits rm neg m e 0).1, hround, ?_⟩
  have hsame : ((signInt neg (toUnits rm neg m e 0).1 : ℤ) : ℚ) = valRat (.fin neg m e) ↔ (toUnits rm neg m e 0).2 = false := by
    rw [signInt_cast, valRat, mul_right_inj' (sgn_ne_zero neg), ← Bool.not_eq_true, hexact, not_not]
  simp only [toInt]
  split
  next hbig =>
    simp only [Bool.and_eq_true, bne_iff_ne, ne_eq, decide_eq_true_eq] at hbig
    obtain ⟨hm, hbig⟩ := hbig
    have hn : 2 ^ 70 ≤ (toUnits rm neg m e 0).1 := by
      refine le_toUnits rm neg (le_trans ?_ (topOf_bounds (Nat.pos_of_ne_zero hm) e).1)
      rw [zpow_zero, mul_one, Nat.cast_pow, Nat.cast_ofNat, ← zpow_natCast]
      exact zpow_le_zpow_right₀ one_le_two (by simp only [topOf]; push_cast; omega)
    cases neg
    · have hout : (intRange w signed).2 < signInt false (toUnits rm false m e 0).1 := by
        simp only [signInt, Bool.false_eq_true, if_false]
        omega
      have hclamp : clamp w signed (signInt false (toUnits rm false m e 0).1) = (intRange w signed).2 := by
        simp only [clamp, if_neg (show ¬ signInt false (toUnits rm false m e 0).1 < (intRange w signed).1 by omega), if_pos hout]
      rw [hclamp, if_pos hout.ne]
      rfl
    · have hout : signInt true (toUnits rm true m e 0).1 < (intRange w signed).1 := by
        simp only [signInt, if_true]
        omega
      have hclamp : clamp w signed (signInt true (toUnits rm true m e 0).1) = (intRange w signed).1 := by
        simp only [clamp, if_pos hout]
      rw [hclamp, if_pos hout.ne']
      rfl
  next =>
    rw [if_congr hsame rfl rfl]
    refine Prod.ext rfl (if_congr Iff.rfl rfl ?_)
    cases (toUnits rm neg m e 0).2 <;> rfl

/-! ## Integers -/

/-- An integer as an exact value. -/
theorem ofInt_spec (z : Int) : IsFin (ofInt z) ∧ valRat (ofInt z) = z := by
  refine ⟨isFin_fin _ _ _, ?_⟩
  simp only [ofInt, valRat, zpow_zero, mul_one, ← signInt_cast]
  congr 1
  by_cases hneg : z < 0 <;> simp only [signInt, hneg, decide_true, decide_false, if_true, Bool.false_eq_true, if_false] <;> omega

end Sys2Proof.Fp
end

