-- ==== Sys2Proof/Proofs/ConversionResults.lean ====
section
/-! PROOFS. `vcvt`, `vpack`, `vunpack` and `vscale` lane by lane (R99, R129 to R132). -/

namespace Sys2Proof.Machine
open Claim

/-! ## `vcvt` into an integer type -/

/-- R83: the range of an integer type. -/
theorem intRange_eq (ty : Ty) : Fp.intRange (intTy ty).1 (intTy ty).2 = (tyMin ty, tyMax ty) := by
  cases ty <;> rfl

theorem clamp_eq (ty : Ty) (z : Int) : Fp.clamp (intTy ty).1 (intTy ty).2 z = if z < tyMin ty then tyMin ty else if tyMax ty < z then tyMax ty else z :=
  satTo_eq ty z

theorem intTy_le (ty : Ty) : (intTy ty).1 ≤ 64 := by
  cases ty <;> decide

theorem tyMin_le_tyMax (ty : Ty) : tyMin ty ≤ 0 ∧ 0 ≤ tyMax ty := by
  cases ty <;> decide

/-- An integer in the range of a signed width is read back from its machine word, extended or not. -/
theorem toInt_signExtend_ofInt {n : Nat} (hn : 0 < n) (h32 : n ≤ 32) {z : Int} (hlo : -2 ^ (n - 1) ≤ z) (hhi : z < 2 ^ (n - 1)) :
    (((BitVec.ofInt n z).signExtend 32).setWidth n).toInt = z := by
  have hback : ((BitVec.ofInt n z).signExtend 32).setWidth n = BitVec.ofInt n z := by
    ext i hi
    simp [BitVec.getElem_signExtend, hi, show i < 32 by omega]
  rw [hback, BitVec.toInt_ofInt_eq_self hn hlo hhi]

/-- R83: an integer of a type is read back after it is wrapped. -/
theorem intOf_wrapTo {ty : Ty} (h : isInt ty = true) {z : Int} (hlo : tyMin ty ≤ z) (hhi : z ≤ tyMax ty) : intOf ty (wrapTo ty z) = z := by
  cases ty <;> simp only [isInt, Bool.false_eq_true] at h <;> simp only [tyMin, tyMax] at hlo hhi
  case i32 =>
    have := toInt_signExtend_ofInt (n := 32) (z := z) (by decide) (by decide) (by omega) (by omega)
    rwa [BitVec.signExtend_eq, BitVec.setWidth_eq] at this
  case i16 => exact toInt_signExtend_ofInt (by decide) (by decide) (by omega) (by omega)
  case i8 => exact toInt_signExtend_ofInt (by decide) (by decide) (by omega) (by omega)
  case n32 =>
    simp [intOf, wrapTo, BitVec.toNat_ofInt]
    omega
  case n16 =>
    simp [intOf, wrapTo, BitVec.toNat_ofInt]
    omega
  case n8 =>
    simp [intOf, wrapTo, BitVec.toNat_ofInt]
    omega

/-- R99: an integer into an integer type wraps, or with SAT clamps with class 5 and inexact. -/
theorem cvt_int_int {src dst : Ty} (hs : isInt src = true) (hd : isInt dst = true) (rm : RM) (sat : Bool) (a : Word) :
    cvt src dst rm sat a = if sat = true ∧ intOf src a < tyMin dst then (wrapTo dst (tyMin dst), 0xA0)
      else if sat = true ∧ tyMax dst < intOf src a then (wrapTo dst (tyMax dst), 0xA0) else (wrapTo dst (intOf src a), 0) := by
  simp only [cvt, hs, hd, Bool.and_self, if_true, intVal_eq_intOf, intWrap_eq_wrapTo, satTo_eq]
  cases sat with
  | false => simp
  | true =>
    by_cases hlo : intOf src a < tyMin dst
    · simp [hlo, hlo.ne', Fp.evConvSat, Fp.evInexact]
    · by_cases hhi : tyMax dst < intOf src a
      · simp [hlo, hhi, hhi.ne, Fp.evConvSat, Fp.evInexact]
      · simp [hlo, hhi]

/-- R99: an f32 code into an integer type. -/
theorem cvt_f32_int {dst : Ty} (hd : isInt dst = true) (rm : RM) (sat : Bool) (a : Word) :
    cvt .f32 dst rm sat a = (wrapTo dst (Fp.toInt rm (intTy dst).1 (intTy dst).2 (Fp.decode Fp.f32 a.toNat)).1,
      (Fp.toInt rm (intTy dst).1 (intTy dst).2 (Fp.decode Fp.f32 a.toNat)).2) := by
  simp only [cvt, hd, show isInt .f32 = false from rfl, Bool.false_and, Bool.false_eq_true, if_false, if_true, intWrap_eq_wrapTo, Fp.ofTy]

/-- R99: what is converted to an integer lies in the range of its type. -/
theorem toInt_range (ty : Ty) (rm : RM) (v : Fp.Val) :
    tyMin ty ≤ (Fp.toInt rm (intTy ty).1 (intTy ty).2 v).1 ∧ (Fp.toInt rm (intTy ty).1 (intTy ty).2 v).1 ≤ tyMax ty := by
  obtain ⟨hlo, hhi⟩ := tyMin_le_tyMax ty
  rcases v with _ | neg | ⟨neg, m, e⟩
  · simp only [Fp.toInt]
    exact ⟨hlo, hhi⟩
  · simp only [Fp.toInt, intRange_eq]
    split_ifs <;> omega
  · obtain ⟨n, -, h⟩ := Fp.toInt_of_fin rm (intTy ty).2 (intTy_le ty) (Fp.isFin_fin neg m e)
    simp only [h, clamp_eq]
    split_ifs <;> omega

/-- R99: a NaN into an integer type is 0 with class 0. -/
theorem cvt_f32_int_of_nan {dst : Ty} (hd : isInt dst = true) (rm : RM) (sat : Bool) {a : Word} (h : NanF32 a.toNat) : cvt .f32 dst rm sat a = (0, 1) := by
  rw [cvt_f32_int hd, Fp.decode_eq_nan_iff.2 h]
  cases dst <;> rfl

/-- R99: an infinity into an integer type is the nearest bound, with class 5 and inexact. -/
theorem cvt_f32_int_of_inf {dst : Ty} (hd : isInt dst = true) (rm : RM) (sat : Bool) {a : Word} {neg : Bool} (h : Fp.decode Fp.f32 a.toNat = .inf neg) :
    cvt .f32 dst rm sat a = (wrapTo dst (if neg then tyMin dst else tyMax dst), 0xA0) := by
  rw [cvt_f32_int hd, h]
  simp only [Fp.toInt, intRange_eq]
  rfl

/-- R99: a finite f32 code is rounded to an integer, which is clamped. -/
theorem cvt_f32_int_of_fin {dst : Ty} (hd : isInt dst = true) (rm : RM) (sat : Bool) {a : Word} (ha : FiniteIn Fp.f32 a.toNat) :
    ∃ n : ℤ, RoundInt rm (codeRat Fp.f32 a.toNat) n ∧ (n < tyMin dst → cvt .f32 dst rm sat a = (wrapTo dst (tyMin dst), 0xA0)) ∧
      (tyMax dst < n → cvt .f32 dst rm sat a = (wrapTo dst (tyMax dst), 0xA0)) ∧
      (tyMin dst ≤ n → n ≤ tyMax dst → cvt .f32 dst rm sat a = (wrapTo dst n, if (n : ℚ) = codeRat Fp.f32 a.toNat then 0 else 0x80)) := by
  obtain ⟨n, hround, h⟩ := Fp.toInt_of_fin rm (intTy dst).2 (intTy_le dst) (Fp.isFin_decode ha)
  obtain ⟨hmin, hmax⟩ := tyMin_le_tyMax dst
  rw [Fp.valRat_decode ha] at hround h
  simp only [cvt_f32_int hd, h, clamp_eq]
  refine ⟨n, hround, fun hlt => ?_, fun hlt => ?_, fun hlo hhi => ?_⟩
  · rw [if_pos hlt, if_pos hlt.ne']
  · rw [if_neg (by omega), if_pos hlt, if_pos hlt.ne]
  · rw [if_neg hlo.not_gt, if_neg hhi.not_gt, if_neg (not_not.2 rfl)]

/-! ## `vcvt` into a floating-point format -/

/-- R99: the exact value of a lane read as a type. -/
def laneVal (src : Ty) (a : Word) : Fp.Val := if isInt src then Fp.ofInt (intOf src a) else Fp.ofTy src a.toNat

/-- R99: a value into a floating-point format is rounded once. -/
theorem cvt_float (src : Ty) {dst : Ty} (hd : isInt dst = false) (rm : RM) (sat : Bool) (a : Word) :
    cvt src dst rm sat a = (BitVec.ofNat 32 (Fp.toTy dst rm (Fp.convSatOf sat) (laneVal src a)).1, (Fp.toTy dst rm (Fp.convSatOf sat) (laneVal src a)).2) := by
  simp only [cvt, hd, Bool.and_false, Bool.false_eq_true, if_false, intVal_eq_intOf]
  rfl

/-- R129: the format of a floating-point type of `vcvt`. -/
theorem toTy_eq_convert {dst : Ty} {f : Fp.Fmt} (h : (dst = .f32 ∧ f = Fp.f32) ∨ (dst = .bf16 ∧ f = Fp.bf16) ∨ (dst = .f16 ∧ f = Fp.f16)) :
    isInt dst = false ∧ f ∈ [Fp.f32, Fp.bf16, Fp.f16, Fp.e5m2] ∧ ∀ rm sat v, Fp.toTy dst rm sat v = Fp.convert f rm sat v := by
  rcases h with ⟨rfl, rfl⟩ | ⟨rfl, rfl⟩ | ⟨rfl, rfl⟩ <;> exact ⟨rfl, by simp, fun _ _ _ => rfl⟩

/-- A code of any format fits a lane. -/
theorem toNat_ofNat_of_convert {f : Fp.Fmt} (hf : f ∈ [Fp.f32, Fp.bf16, Fp.f16, Fp.e5m2, Fp.e4m3]) (rm : RM) (sat : Fp.Sat) (v : Fp.Val) :
    (BitVec.ofNat 32 (Fp.convert f rm sat v).1).toNat = (Fp.convert f rm sat v).1 := by
  refine Nat.mod_eq_of_lt ((Fp.convert_lt hf rm sat v).trans_le (Nat.pow_le_pow_right (by decide) ?_))
  simp only [List.mem_cons, List.not_mem_nil, or_false] at hf
  rcases hf with rfl | rfl | rfl | rfl | rfl <;> decide

/-- R91 to R94, R99: a nonzero finite value into a floating-point type is rounded once. -/
theorem rounds_cvt {src dst : Ty} {f : Fp.Fmt} (h : (dst = .f32 ∧ f = Fp.f32) ∨ (dst = .bf16 ∧ f = Fp.bf16) ∨ (dst = .f16 ∧ f = Fp.f16)) (rm : RM)
    (sat : Bool) (a : Word) (hv : Fp.IsFin (laneVal src a)) (h0 : Fp.valRat (laneVal src a) ≠ 0) :
    Rounds f rm sat (if sat then 0xA0 else 0x84) (Fp.valRat (laneVal src a)) ((cvt src dst rm sat a).1.toNat, (cvt src dst rm sat a).2) := by
  obtain ⟨hd, hf, hto⟩ := toTy_eq_convert h
  have hf' := List.mem_append_left [Fp.e4m3] hf
  rw [cvt_float src hd, hto, toNat_ofNat_of_convert hf']
  exact Fp.rounds_convert (Fp.fmtOk hf') (Fp.overflow_convSatOf hf rm sat) hv h0

/-- R99: the exact value of an integer lane, and of a finite f32 lane. -/
theorem laneVal_int {src : Ty} (h : isInt src = true) (a : Word) : Fp.IsFin (laneVal src a) ∧ Fp.valRat (laneVal src a) = intOf src a := by
  rw [laneVal, if_pos h]
  exact Fp.ofInt_spec _

theorem laneVal_f32 {a : Word} (h : FiniteIn Fp.f32 a.toNat) : Fp.IsFin (laneVal .f32 a) ∧ Fp.valRat (laneVal .f32 a) = codeRat Fp.f32 a.toNat :=
  ⟨Fp.isFin_decode h, Fp.valRat_decode h⟩

/-- R99: the integer 0 is 0 in every floating-point type. -/
theorem cvt_int_zero {src dst : Ty} (hs : isInt src = true) (hd : isInt dst = false) (rm : RM) (sat : Bool) {a : Word} (h : intOf src a = 0) :
    cvt src dst rm sat a = (0, 0) := by
  rw [cvt_float src hd, laneVal, if_pos hs, h]
  cases dst <;> rfl

/-- R99: an f32 code into f32 is itself, a NaN the canonical one. -/
theorem cvt_f32_f32 (rm : RM) (sat : Bool) (a : Word) : (NanF32 a.toNat → cvt .f32 .f32 rm sat a = (0x7FC0_0000, 0)) ∧
    (¬ NanF32 a.toNat → cvt .f32 .f32 rm sat a = (a, 0)) := by
  have hcvt : cvt .f32 .f32 rm sat a = _ := cvt_float .f32 rfl rm sat a
  simp only [hcvt, laneVal, Fp.ofTy, Fp.toTy, show isInt .f32 = false from rfl, Bool.false_eq_true, if_false]
  refine ⟨fun h => ?_, fun h => ?_⟩
  · rw [Fp.decode_eq_nan_iff.2 h]
    rfl
  · rw [Fp.convert_decode (by simp) rm _ a.isLt (mt Fp.decode_eq_nan_iff.1 h), BitVec.ofNat_toNat, BitVec.setWidth_eq]

/-- R129: a packed type takes the low half of the lane. -/
theorem cvt_half_lt (src : Ty) {dst : Ty} (h : dst = .bf16 ∨ dst = .f16) (rm : RM) (sat : Bool) (a : Word) :
    (cvt src dst rm sat a).1.toNat < 65536 := by
  rcases h with rfl | rfl
  · rw [cvt_float src rfl]
    exact (Nat.mod_le _ _).trans_lt (Fp.convert_lt (f := Fp.bf16) (by simp) rm _ _)
  · rw [cvt_float src rfl]
    exact (Nat.mod_le _ _).trans_lt (Fp.convert_lt (f := Fp.f16) (by simp) rm _ _)

/-- R129: `vcvt` lands the conversion of its source. -/
theorem vcvt_lands {s : State} {c k : Nat} {w : Warp} {o : VOp} {src : Ty} {P : Nat → Word → BitVec 8 → Prop} (hi : Issues s c k w (.vcvt o))
    (hs : tyOfCode o.sub.val = some src) (hp : ∀ l, P l (cvt src o.ty o.rm o.sat (w.src o.a l)).1 (cvt src o.ty o.rm o.sat (w.src o.a l)).2) :
    VLands s c k w (.vcvt o) o 3 .lvx P :=
  vLands_of hi rfl rfl rfl rfl fun l _ => by rw [hs]; exact hp l

/-! ## `vpack` -/

/-- A class that one of two results raises is among the classes of both. -/
theorem or_and_self_left (x y : BitVec 8) : x &&& (x ||| y) = x ∧ y &&& (x ||| y) = y := by
  constructor <;> ext i <;> simp <;> tauto

/-- R130: the code of one element of `vpack`. -/
def packCode (ty : Ty) (rm : RM) (sat : Bool) (a : Nat) : Nat × BitVec 8 := Fp.toTy ty rm (Fp.convSatOf sat) (Fp.decode Fp.f32 a)

/-- R130: the bits of an element of a narrow type. -/
def packWidth (ty : Ty) : Nat := if ty = .lg6 then 6 else 8

theorem packCode_lt {ty : Ty} (h : ty = .e4m3 ∨ ty = .e5m2 ∨ ty = .lg6) (rm : RM) (sat : Bool) (a : Nat) :
    (packCode ty rm sat a).1 < 2 ^ packWidth ty := by
  rcases h with rfl | rfl | rfl
  · exact Fp.convert_lt (f := Fp.e4m3) (by simp) rm _ _
  · exact Fp.convert_lt (f := Fp.e5m2) (by simp) rm _ _
  · exact Fp.convertLg_lt rm _

/-- R91 to R93, R130: an element of `vpack` is rounded once into its format. -/
theorem rounds_packCode (ty : Ty) (rm : RM) (sat : Bool) {a : Nat} (ha : FiniteIn Fp.f32 a) (h0 : codeRat Fp.f32 a ≠ 0) :
    (ty = .e5m2 → Rounds Fp.e5m2 rm sat (if sat then 0xA0 else 0x84) (codeRat Fp.f32 a) (packCode ty rm sat a)) ∧
      (ty = .e4m3 → Rounds Fp.e4m3 rm true 0xA0 (codeRat Fp.f32 a) (packCode ty rm sat a)) ∧
      (ty = .lg6 → RoundsLg rm (codeRat Fp.f32 a) (packCode ty rm sat a)) := by
  have hv := Fp.isFin_decode ha
  rw [← Fp.valRat_decode ha] at h0 ⊢
  refine ⟨?_, ?_, ?_⟩ <;> rintro rfl
  · exact Fp.rounds_convert (Fp.fmtOk (by simp)) (Fp.overflow_convSatOf (by simp) rm sat) hv h0
  · exact Fp.rounds_convert (Fp.fmtOk (by simp)) (Fp.overflow_e4m3 rm _) hv h0
  · exact Fp.roundsLg_convertLg rm hv h0

/-- R130: the elements of a pair in the half of the word that SUB names, the other half kept. -/
def packed (ty : Ty) (sub x y c : Nat) : Nat :=
  if ty = .lg6 then (if sub = 0 then c % 2 ^ 24 / 4096 * 4096 + (x + 64 * y) else c % 2 ^ 24 % 4096 + 4096 * (x + 64 * y))
  else if sub = 0 then c / 65536 * 65536 + (x + 256 * y) else c % 65536 + 65536 * (x + 256 * y)

theorem vpack_eq {ty : Ty} (h : ty = .e4m3 ∨ ty = .e5m2 ∨ ty = .lg6) (sub : Nat) (rm : RM) (sat : Bool) (a b c : Nat) :
    vpack ty sub rm sat a b c = (packed ty sub (packCode ty rm sat a).1 (packCode ty rm sat b).1 c,
      (packCode ty rm sat a).2 ||| (packCode ty rm sat b).2) := by
  rcases h with rfl | rfl | rfl <;> rfl

/-- R130: what is packed fits the lane, and each element stands at its place. -/
theorem packed_fields (ty : Ty) (sub : Nat) {x y c : Nat} (hx : x < 2 ^ packWidth ty) (hy : y < 2 ^ packWidth ty) (hc : c < 2 ^ 32) :
    packed ty sub x y c < 2 ^ 32 ∧ (ty = .lg6 → packed ty sub x y c < 2 ^ 24) ∧
      (sub < 2 → packed ty sub x y c / 2 ^ (2 * packWidth ty * sub + packWidth ty * 0) % 2 ^ packWidth ty = x ∧
        packed ty sub x y c / 2 ^ (2 * packWidth ty * sub + packWidth ty * 1) % 2 ^ packWidth ty = y) := by
  by_cases h : ty = .lg6
  · simp only [packWidth, packed, if_pos h, Nat.reducePow] at hx hy hc ⊢
    rcases sub with _ | _ | sub <;> simp <;> omega
  · simp only [packWidth, packed, if_neg h, Nat.reducePow] at hx hy hc ⊢
    rcases sub with _ | _ | sub <;> simp [h] <;> omega

/-- R130: the half of the word that SUB does not name is kept. -/
theorem packed_keeps {ty : Ty} (h : ty ≠ .lg6) {x y c : Nat} (hx : x < 2 ^ packWidth ty) (hy : y < 2 ^ packWidth ty) (i : Nat) :
    (16 ≤ i → (packed ty 0 x y c).testBit i = c.testBit i) ∧ (i < 16 → (packed ty 1 x y c).testBit i = c.testBit i) := by
  simp only [packWidth, packed, if_neg h, Nat.reducePow, if_true, Nat.one_ne_zero, if_false] at hx hy ⊢
  refine ⟨fun hi => ?_, fun hi => ?_⟩
  · obtain ⟨j, rfl⟩ := Nat.exists_eq_add_of_le hi
    have hhigh : (c / 65536 * 65536 + (x + 256 * y)) / 2 ^ 16 = c / 2 ^ 16 := by omega
    rw [Nat.add_comm 16 j, ← Nat.testBit_div_two_pow, ← Nat.testBit_div_two_pow, hhigh]
  · have hlow : (c % 65536 + 65536 * (x + 256 * y)) % 2 ^ 16 = c % 2 ^ 16 := by omega
    have hbit (n : Nat) : (n % 2 ^ 16).testBit i = n.testBit i := by rw [Nat.testBit_mod_two_pow, decide_eq_true hi, Bool.true_and]
    rw [← hbit, hlow, hbit]

/-! ## `vscale` -/

/-- R132: the power of two that source B names. -/
def scaleBy (e8 : Bool) (b : Word) : Int := if e8 then ((b.toNat % 256 : Nat) : Int) - 127 else b.toInt

/-- R132: the exponent code 255 gives the canonical NaN. -/
theorem vscale_of_255 {e8 : Bool} (rm : RM) (sat : Bool) (a : Nat) {b : Nat} (he : e8 = true) (hb : b % 256 = 255) :
    vscale e8 rm sat a b = (0x7FC0_0000, 0) := if_pos (by simp [he, hb])

/-- A zero of any exponent is the zero of its sign. -/
theorem arith_zero (f : Fp.Fmt) (rm : RM) (sat neg : Bool) (e : Int) : Fp.arith f rm sat (.fin neg 0 e) = (f.sign neg, 0) := rfl

section
variable {e8 : Bool} (rm : RM) (sat : Bool) {a b : Word} (hb : e8 = true → b.toNat % 256 ≠ 255)
include hb

/-- R132: any other scale moves the exponent of a finite value, and leaves NaN and infinities. -/
theorem vscale_eq : vscale e8 rm sat a.toNat b.toNat = Fp.arith Fp.f32 rm sat (match Fp.decode Fp.f32 a.toNat with
    | .fin neg m e => .fin neg m (e + scaleBy e8 b)
    | v => v) := by
  have hn : (if e8 then ((b.toNat % 256 : Nat) : Int) - 127 else signExt b.toNat 32) = scaleBy e8 b := by
    rw [scaleBy, signExt_eq_toInt (by decide), BitVec.ofNat_toNat, BitVec.setWidth_eq]
  simp only [vscale, hn]
  rw [if_neg fun h => by simp only [Bool.and_eq_true, decide_eq_true_eq] at h; exact hb h.1 h.2]
  cases Fp.decode Fp.f32 a.toNat <;> rfl

theorem vscale_of_nan (h : NanF32 a.toNat) : vscale e8 rm sat a.toNat b.toNat = (0x7FC0_0000, 0) := by
  rw [vscale_eq rm sat hb, Fp.decode_eq_nan_iff.2 h]
  rfl

/-- R132: zeros and infinities are left as they are. -/
theorem vscale_of_fixed (h : a.toNat % 2 ^ 31 = 0 ∨ a.toNat % 2 ^ 31 = 0x7F80_0000) : vscale e8 rm sat a.toNat b.toNat = (a.toNat, 0) := by
  have hnan : ¬ NanF32 a.toNat := by
    rintro ⟨hE, hF⟩
    omega
  have hself := Fp.convert_decode (f := Fp.f32) (by simp) rm (Fp.satOf sat) a.isLt (mt Fp.decode_eq_nan_iff.1 hnan)
  rw [vscale_eq rm sat hb]
  rcases hd : Fp.decode Fp.f32 a.toNat with _ | neg | ⟨neg, m, e⟩
  · exact absurd (Fp.decode_eq_nan_iff.1 hd) hnan
  · rwa [hd] at hself
  · have hmag : a.toNat % 2 ^ 31 ≤ 0x7F7F_FFFF := Fp.mag_le_max (f := Fp.f32) (by simp) hd
    have hm : m = 0 := by
      obtain ⟨-, ⟨hE, rfl, -⟩ | ⟨hE, rfl, -⟩⟩ := Fp.decode_eq_fin hd <;> simp only [Fp.f32, Nat.reducePow] at hE ⊢ <;> omega
    rw [hd, hm] at hself
    rw [hm]
    exact (arith_zero Fp.f32 rm sat neg _).trans ((arith_zero Fp.f32 rm sat neg e).symm.trans hself)

/-- R132: a nonzero finite value is multiplied by the power of two and rounded once. -/
theorem rounds_vscale (ha : FiniteIn Fp.f32 a.toNat) (h0 : codeRat Fp.f32 a.toNat ≠ 0) :
    Rounds Fp.f32 rm sat 0x84 (codeRat Fp.f32 a.toNat * 2 ^ scaleBy e8 b) (vscale e8 rm sat a.toNat b.toNat) := by
  obtain ⟨neg, m, e, hd⟩ := Fp.isFin_decode ha
  have hval := Fp.codeRat_of_fin hd
  rw [hval] at h0
  have hscale : Fp.sgn neg * (m * 2 ^ e) * 2 ^ scaleBy e8 b = Fp.sgn neg * (m * 2 ^ (e + scaleBy e8 b)) := by
    rw [Fp.two_zpow_add]
    ring
  rw [vscale_eq rm sat hb, hd, hval, hscale]
  exact Fp.rounds_arith (by simp) rm sat neg (Fp.digits_pos h0) _

end

/-- Settles O10. -/
theorem conversionResults : Obligations.ConversionResults := by
  refine ⟨?vcvt, ?vpackHalf, ?vpack, ?vunpack, ?vscale⟩
  case vcvt =>
    intro o s c k w hi src hs
    refine vcvt_lands hi hs fun l => ?_
    intro a
    refine ⟨fun h1 h2 => ?_, ?_, ?_, ?_, ?_, ?_, fun h1 h2 h0 => ?_, ?_, ?_, rfl⟩
    · rw [cvt_int_int h1 h2]
      refine ⟨fun hsat hlo => by simp [hsat, hlo, a], fun hsat hhi => ?_, fun hin => ?_⟩
      · have := tyMin_le_tyMax o.ty
        rw [if_neg fun h => (h.2.trans_le (this.1.trans this.2)).not_gt hhi, if_pos ⟨hsat, hhi⟩]
        exact ⟨rfl, rfl⟩
      · rw [if_neg fun h => (hin h.1).1.not_gt h.2, if_neg fun h => (hin h.1).2.not_gt h.2]
        exact ⟨rfl, rfl⟩
    · rintro rfl h2 hnan
      rw [cvt_f32_int_of_nan h2 o.rm o.sat hnan]
      exact ⟨rfl, rfl⟩
    · rintro rfl h2 -
      obtain ⟨hlo, hhi⟩ := toInt_range o.ty o.rm (Fp.decode Fp.f32 a.toNat)
      rw [cvt_f32_int h2, intOf_wrapTo h2 hlo hhi]
      exact ⟨hlo, hhi, rfl⟩
    · rintro rfl h2 hfin
      obtain ⟨n, hround, hlo, hhi, hin⟩ := cvt_f32_int_of_fin h2 o.rm o.sat hfin
      refine ⟨n, hround, fun h => ?_, fun h => ?_, fun h h' => ?_⟩
      · rw [hlo h]
        exact ⟨rfl, rfl⟩
      · rw [hhi h]
        exact ⟨rfl, rfl⟩
      · rw [hin h h']
        exact ⟨rfl, rfl⟩
    · rintro rfl h2
      refine ⟨fun h => ?_, fun h => ?_⟩
      · rw [cvt_f32_int_of_inf h2 o.rm o.sat (neg := false) (by rw [show w.src o.a l = _ from h]; rfl)]
        exact ⟨rfl, rfl⟩
      · rw [cvt_f32_int_of_inf h2 o.rm o.sat (neg := true) (by rw [show w.src o.a l = _ from h]; rfl)]
        exact ⟨rfl, rfl⟩
    · rintro f hf x h0 (⟨h1, rfl⟩ | ⟨rfl, -, hfin, rfl⟩)
      · obtain ⟨hv, hx⟩ := laneVal_int h1 a
        have := rounds_cvt hf o.rm o.sat a hv (hx.trans_ne h0)
        rwa [hx] at this
      · obtain ⟨hv, hx⟩ := laneVal_f32 hfin
        have := rounds_cvt hf o.rm o.sat a hv (hx.trans_ne h0)
        rwa [hx] at this
    · rw [cvt_int_zero h1 h2 o.rm o.sat h0]
      exact ⟨rfl, rfl⟩
    · rintro rfl ht
      rw [ht]
      obtain ⟨hnan, hnot⟩ := cvt_f32_f32 o.rm o.sat a
      by_cases h : NanF32 a.toNat
      · rw [hnan h]
        exact ⟨fun _ => rfl, fun h' => absurd h h', rfl⟩
      · rw [hnot h]
        exact ⟨fun h' => absurd h' h, fun _ => rfl, rfl⟩
    · rintro rfl ht
      exact cvt_half_lt .f32 ht o.rm o.sat a
  case vpackHalf =>
    intro o s c k w hi ht
    refine fpV_lands hi rfl rfl fun l => ?_
    rcases ht with ht | ht <;> rw [ht] <;> exact ⟨rfl, rfl⟩
  case vpack =>
    intro o s c k w hi ht
    refine fpV_lands hi rfl rfl fun l => ?_
    have hx := packCode_lt ht o.rm o.sat (w.src o.a l).toNat
    have hy := packCode_lt ht o.rm o.sat (w.srcB o l).toNat
    obtain ⟨hlt, hlg, hfield⟩ := packed_fields o.ty o.sub.val hx hy (w.src o.c l).isLt
    rw [vpack_eq ht]
    have hnat : (BitVec.ofNat 32 (packed o.ty o.sub.val (packCode o.ty o.rm o.sat (w.src o.a l).toNat).1
      (packCode o.ty o.rm o.sat (w.srcB o l).toNat).1 (w.src o.c l).toNat)).toNat = _ := Nat.mod_eq_of_lt hlt
    refine ⟨rfl, rfl, ?_, ?_, ?_, fun h => by rw [hnat]; exact hlg h⟩
    · simp only [List.forall_mem_cons, List.not_mem_nil, false_imp_iff, implies_true, and_true, hnat]
      refine ⟨fun hfin h0 hsub => ⟨(packCode o.ty o.rm o.sat (w.src o.a l).toNat).2, (or_and_self_left _ _).1, ?_⟩,
        fun hfin h0 hsub => ⟨(packCode o.ty o.rm o.sat (w.srcB o l).toNat).2, (or_and_self_left _ _).2, ?_⟩⟩
      · rw [show (if o.ty = .lg6 then 6 else 8) = packWidth o.ty from rfl, (hfield hsub).1]
        exact rounds_packCode o.ty o.rm o.sat hfin h0
      · rw [show (if o.ty = .lg6 then 6 else 8) = packWidth o.ty from rfl, (hfield hsub).2]
        exact rounds_packCode o.ty o.rm o.sat hfin h0
    · intro hty hsub i hlo hhi
      rw [BitVec.getLsbD, hnat, hsub]
      exact (packed_keeps hty hx hy i).1 hlo
    · intro hty hsub i hhi
      rw [BitVec.getLsbD, hnat, hsub]
      exact (packed_keeps hty hx hy i).2 hhi
  case vunpack =>
    intro o s c k w hi
    refine fpV_lands hi rfl rfl fun l => ⟨fun ht => ?_, rfl⟩
    rcases ht with ht | ht | ht | ht | ht <;> rw [ht] <;> simp only [vunpack, Fp.ofTy, Nat.mod_mod]
  case vscale =>
    intro o s c k w hi
    refine fpV_lands hi rfl rfl fun l => ?_
    have hsub : (o.sub.val = 1) ↔ o.sub = 1 := ⟨fun h => Fin.ext h, fun h => by rw [h]; rfl⟩
    have hn : (if o.sub = 1 then (((w.srcB o l).toNat % 256 : Nat) : Int) - 127 else (w.srcB o l).toInt) = scaleBy (o.sub.val = 1) (w.srcB o l) := by
      simp only [scaleBy, decide_eq_true_eq, hsub]
    have hb (h : o.sub = 1 → (w.srcB o l).toNat % 256 ≠ 255) : decide (o.sub.val = 1) = true → (w.srcB o l).toNat % 256 ≠ 255 :=
      fun h1 => h (hsub.1 (of_decide_eq_true h1))
    dsimp only
    rw [hn]
    refine ⟨fun h h255 => ?_, fun h hnan => ?_, fun h hfix => ?_, fun h hfin h0 => ?_, fun h neg m x hd => ?_⟩
    · rw [vscale_of_255 o.rm o.sat _ (decide_eq_true (hsub.2 h)) h255]
      exact ⟨rfl, rfl⟩
    · rw [vscale_of_nan o.rm o.sat (hb h) hnan]
      exact ⟨rfl, rfl⟩
    · rw [vscale_of_fixed o.rm o.sat (hb h) hfix]
      exact ⟨by rw [BitVec.ofNat_toNat, BitVec.setWidth_eq], rfl⟩
    · have hround := rounds_vscale o.rm o.sat (hb h) hfin h0
      rwa [BitVec.toNat_ofNat, Nat.mod_eq_of_lt (show _ < 2 ^ 32 from Fp.lt_of_rounds (by simp) hround)]
    · rw [vscale_eq o.rm o.sat (hb h), hd]

end Sys2Proof.Machine
end

