-- ==== Sys2Proof/Proofs/Reductions.lean ====
section
/-! PROOFS. The reductions of the V slot: the tree of sums, and the least and greatest active value (R86, R96, R107, R135, R136). -/

namespace Sys2Proof.Machine
open Claim

/-! ## The tree -/

/-- R107: a node of the tree; an absent child passes the other through. -/
def combine {α : Type} (f : α → α → α) : Option α → Option α → Option α
  | some a, some b => some (f a b)
  | some a, none => some a
  | none, b => b

theorem combine_none {α : Type} (f : α → α → α) (a : Option α) : combine f a none = a := by
  cases a <;> rfl

theorem node_succ {α : Type} (f : α → α → α) (leaf : Nat → Option α) (n j : Nat) :
    node f leaf (n + 1) j = combine f (node f leaf n (2 * j)) (node f leaf n (2 * j + 1)) := by
  rw [node]
  cases node f leaf n (2 * j) <;> cases node f leaf n (2 * j + 1) <;> rfl

/-- R107: the tree over its leaves is the tree over the first level above them, one level lower. -/
theorem node_shift {α : Type} (f : α → α → α) (leaf : Nat → Option α) (n j : Nat) :
    node f leaf (n + 1) j = node f (fun i => combine f (leaf (2 * i)) (leaf (2 * i + 1))) n j := by
  induction n generalizing j with
  | zero => exact node_succ f leaf 0 j
  | succ n ih => rw [node_succ, ih, ih, ← node_succ]

/-- The value at a position of a level, if there is one. -/
def levelAt {α : Type} (xs : List (Option α)) (j : Nat) : Option α := xs[j]?.join

theorem levelAt_treeLevel {α : Type} (f : α → α → α) (xs : List (Option α)) (j : Nat) :
    levelAt (treeLevel f xs) j = combine f (levelAt xs (2 * j)) (levelAt xs (2 * j + 1)) := by
  induction xs using treeLevel.induct generalizing j with
  | case1 => rfl
  | case2 x =>
    cases j with
    | zero => exact (combine_none f x).symm
    | succ j => rfl
  | case3 x y xs ih =>
    cases j with
    | zero => cases x <;> cases y <;> rfl
    | succ j => exact ih j

/-- R107: the levels computed from the leaves up are the nodes of the tree. -/
theorem levelAt_treeLevels {α : Type} (f : α → α → α) (n : Nat) (xs : List (Option α)) (j : Nat) :
    levelAt (treeLevels f n xs) j = node f (levelAt xs) n j := by
  induction n generalizing xs with
  | zero => rfl
  | succ n ih =>
    rw [treeLevels, ih, node_shift]
    congr 1
    exact funext (levelAt_treeLevel f xs)

theorem treeRoot_eq {α : Type} (f : α → α → α) (xs : List (Option α)) : treeRoot f xs = node f (levelAt xs) 10 0 := by
  rw [← levelAt_treeLevels, treeRoot, levelAt]
  cases treeLevels f 10 xs <;> rfl

/-- R107: the leaves are the values of the active lanes. -/
theorem levelAt_leaves (w : Warp) (o : VOp) (l : Nat) : (Active w o.guard l → levelAt (w.leaves o) l = some (w.src o.a l, 0)) ∧
    (¬ Active w o.guard l → levelAt (w.leaves o) l = none) := by
  rw [← w.mem_lanesOf]
  simp only [Warp.lanesOf, Warp.liveLanes, List.mem_filter, List.mem_range, levelAt, Warp.leaves, List.getElem?_map]
  by_cases hl : l < w.width
  · rw [List.getElem?_range hl]
    cases h1 : w.live l <;> cases h2 : w.guardV o.guard l <;> simp [hl, h1, h2]
  · rw [List.getElem?_eq_none (by simpa using hl)]
    simp [hl]

/-- R84, R107: the sum of two nodes of an integer tree. -/
theorem intOut_i32 (sat : Bool) (z : Int) : intOut .i32 sat z = if sat = true ∧ z < tyMin .i32 then (0x8000_0000, 16)
    else if sat = true ∧ tyMax .i32 < z then (0x7FFF_FFFF, 16) else (BitVec.ofInt 32 z, 0) := by
  have hwrap : intWrap .i32 z = BitVec.ofInt 32 z := intWrap_eq_wrapTo .i32 z
  simp only [intOut, satTo_eq]
  cases sat with
  | false => simp [hwrap]
  | true =>
    by_cases hlo : z < tyMin .i32
    · simp only [hlo, Bool.true_and, bne_iff_ne, ne_eq, hlo.ne', not_false_eq_true, if_true, and_self]
      rfl
    · by_cases hhi : tyMax .i32 < z
      · simp only [hlo, hhi, Bool.true_and, bne_iff_ne, ne_eq, hhi.ne, not_false_eq_true, if_true, if_false, and_false, and_self]
        rfl
      · simp [hlo, hhi, hwrap]

/-- R86: a NaN is written as the canonical one. -/
theorem canonicalF32_eq (ty : Ty) (x : Word) : (ty = .f32 → NanF32 x.toNat → canonicalF32 ty x = 0x7FC0_0000) ∧
    (ty = .i32 ∨ ¬ NanF32 x.toNat → canonicalF32 ty x = x) := by
  rw [← Fp.isNan_iff, canonicalF32]
  refine ⟨?_, ?_⟩
  · rintro rfl h
    rw [h]
    rfl
  · rintro (rfl | h)
    · rfl
    · simp [Bool.eq_false_iff.2 h]

/-! ## The least and the greatest -/

/-- What a fold that keeps the better value ends with. -/
theorem foldl_best {α : Type} (key : α → Int) (better : α → α → Bool) (hb : ∀ m x, better m x = true ↔ key x < key m) (xs : List α) (m : α) :
    let r := xs.foldl (fun m x => if better m x then x else m) m
    (r = m ∨ r ∈ xs) ∧ key r ≤ key m ∧ ∀ x ∈ xs, key r ≤ key x := by
  induction xs generalizing m with
  | nil => simp
  | cons x xs ih =>
    obtain ⟨hmem, hle, hxs⟩ := ih (if better m x then x else m)
    simp only [List.foldl_cons]
    generalize xs.foldl (fun m x => if better m x then x else m) (if better m x then x else m) = r at *
    by_cases h : better m x = true
    · rw [if_pos h] at hmem hle
      have hlt := (hb m x).1 h
      exact ⟨.inr (List.mem_cons.2 hmem), by omega, List.forall_mem_cons.2 ⟨hle, hxs⟩⟩
    · rw [if_neg h] at hmem hle
      have hge := mt (hb m x).2 h
      exact ⟨hmem.imp_right (List.mem_cons_of_mem x), hle, List.forall_mem_cons.2 ⟨by omega, hxs⟩⟩

/-- The order in which `vredmin` or `vredmax` looks for the least key. -/
def towards (isMin : Bool) (z : Int) : Int := if isMin then z else -z

/-- What `vredmin` and `vredmax` start from. -/
def farthest (ty : Ty) (isMin : Bool) : Word :=
  if isMin then if ty = .i32 then 0x7FFF_FFFF else 0xFFFF_FFFF else if ty = .i32 then 0x8000_0000 else 0

/-- R136: the start is the last value of the type. -/
theorem farthest_eq {ty : Ty} (h : ty = .i32 ∨ ty = .n32) (isMin : Bool) : farthest ty isMin = wrapTo .i32 (if isMin then tyMax ty else tyMin ty) := by
  rcases h with rfl | rfl <;> cases isMin <;> rfl

/-- R136: no value of the type lies beyond the start, and only the start lies there. -/
theorem eq_farthest {ty : Ty} (h : ty = .i32 ∨ ty = .n32) (isMin : Bool) {x : Word}
    (hx : towards isMin (intOf ty (farthest ty isMin)) ≤ towards isMin (intOf ty x)) : x = farthest ty isMin := by
  have hlt := x.isLt
  have hint := BitVec.toInt_eq_toNat_cond x
  apply BitVec.eq_of_toNat_eq
  rcases h with rfl | rfl <;> cases isMin <;> simp only [towards, intOf, farthest, if_true, Bool.false_eq_true, if_false, reduceCtorEq] at hx ⊢
  · simp only [show (0x8000_0000 : Word).toInt = -2147483648 from rfl, show (0x8000_0000 : Word).toNat = 2147483648 from rfl] at hx ⊢
    split at hint <;> omega
  · simp only [show (0x7FFF_FFFF : Word).toInt = 2147483647 from rfl, show (0x7FFF_FFFF : Word).toNat = 2147483647 from rfl] at hx ⊢
    split at hint <;> omega
  · simp only [show (0 : Word).toNat = 0 from rfl] at hx ⊢
    omega
  · simp only [show (0xFFFF_FFFF : Word).toNat = 4294967295 from rfl] at hx ⊢
    omega

/-- The values of the active lanes. -/
theorem mem_activeA (w : Warp) (o : VOp) (x : Word) : x ∈ (w.activeA o).map (·.2) ↔ ∃ l, Active w o.guard l ∧ x = w.src o.a l := by
  simp [Warp.activeA, w.mem_lanesOf, eq_comm]

/-- R136: the least or the greatest integer of the active lanes, or the start when none is active. -/
theorem redmm_int {w : Warp} {o : VOp} (h : o.ty = .i32 ∨ o.ty = .n32) (isMin : Bool) :
    ((∀ l, ¬ Active w o.guard l) → w.redmm o isMin = wrapTo .i32 (if isMin then tyMax o.ty else tyMin o.ty)) ∧
      ∀ l, Active w o.guard l → (∃ j, Active w o.guard j ∧ w.redmm o isMin = w.src o.a j) ∧
        towards isMin (intOf o.ty (w.redmm o isMin)) ≤ towards isMin (intOf o.ty (w.src o.a l)) := by
  have hfold : w.redmm o isMin = ((w.activeA o).map (·.2)).foldl
      (fun m x => if (if isMin then intVal o.ty x < intVal o.ty m else intVal o.ty m < intVal o.ty x : Bool) then x else m) (farthest o.ty isMin) := by
    rcases h with h | h <;> simp only [Warp.redmm, h] <;> rfl
  obtain ⟨hmem, -, hxs⟩ := foldl_best (fun x => towards isMin (intOf o.ty x))
    (fun m x => if isMin then intVal o.ty x < intVal o.ty m else intVal o.ty m < intVal o.ty x)
    (fun m x => by cases isMin <;> simp [towards, intVal_eq_intOf]) ((w.activeA o).map (·.2)) (farthest o.ty isMin)
  rw [← hfold] at hmem hxs
  simp only [mem_activeA] at hmem hxs
  refine ⟨fun hnone => ?_, fun l hl => ?_⟩
  · rw [← farthest_eq h]
    exact hmem.resolve_right fun ⟨l, hl, _⟩ => hnone l hl
  · have hle := hxs _ ⟨l, hl, rfl⟩
    refine ⟨hmem.elim (fun hstart => ⟨l, hl, ?_⟩) id, hle⟩
    rw [hstart] at hle ⊢
    exact (eq_farthest h isMin hle).symm

/-! ## The least and the greatest f32 value -/

/-- R96: `r` is a NaN and so are all of `xs`, or it is one of them that is no NaN and comes first among those. -/
def BestCode (isMin : Bool) (xs : List Nat) (r : Nat) : Prop :=
  (NanF32 r ∧ ∀ x ∈ xs, NanF32 x) ∨ (¬ NanF32 r ∧ r ∈ xs ∧ ∀ x ∈ xs, ¬ NanF32 x → towards isMin (orderF32 r) ≤ towards isMin (orderF32 x))

/-- R96: one more operand. -/
theorem BestCode.snoc {isMin : Bool} {xs : List Nat} {r x : Nat} (hr : BestCode isMin xs r) (hxs : ∀ y ∈ xs, y < 2 ^ 32) (hx : x < 2 ^ 32) :
    BestCode isMin (xs ++ [x]) (Fp.minMax Fp.f32 isMin r x) := by
  obtain ⟨hnn, hn1, hn2⟩ := Fp.minMax_of_nan isMin (a := r) (b := x)
  rcases hr with ⟨hr, hall⟩ | ⟨hr, hmem, hbest⟩ <;> by_cases hnx : NanF32 x
  · rw [hnn hr hnx]
    exact .inl ⟨⟨rfl, by decide⟩, by simpa [or_imp, forall_and] using ⟨hall, hnx⟩⟩
  · rw [hn1 hr hnx]
    refine .inr ⟨hnx, by simp, fun y hy hny => ?_⟩
    rcases List.mem_append.1 hy with h | h
    · exact absurd (hall y h) hny
    · rw [List.mem_singleton.1 h]
  · rw [hn2 hr hnx]
    refine .inr ⟨hr, by simp [hmem], fun y hy hny => ?_⟩
    rcases List.mem_append.1 hy with h | h
    · exact hbest y h hny
    · rw [List.mem_singleton.1 h] at hny
      exact absurd hnx hny
  · obtain ⟨hor, hlt, hgt⟩ := Fp.minMax_of_not_nan isMin (hxs r hmem) hx hr hnx
    generalize Fp.minMax Fp.f32 isMin r x = z at *
    have hle : towards isMin (orderF32 z) ≤ towards isMin (orderF32 r) ∧ towards isMin (orderF32 z) ≤ towards isMin (orderF32 x) := by
      rcases lt_trichotomy (orderF32 r) (orderF32 x) with ho | ho | ho
      · rw [hlt ho]
        cases isMin <;> simp [towards, ho.le]
      · rcases hor with rfl | rfl <;> simp [ho]
      · rw [hgt ho]
        cases isMin <;> simp [towards, ho.le]
    refine .inr ⟨?_, ?_, fun y hy hny => ?_⟩
    · rcases hor with rfl | rfl
      · exact hr
      · exact hnx
    · rcases hor with rfl | rfl <;> simp [hmem]
    · rcases List.mem_append.1 hy with h | h
      · exact hle.1.trans (hbest y h hny)
      · rw [List.mem_singleton.1 h]
        exact hle.2

/-- R136: the fold over the active values ends with the best of them. -/
theorem bestCode_foldl {isMin : Bool} (ys : List Word) {xs : List Nat} {m : Nat} (hm : BestCode isMin xs m) (hxs : ∀ y ∈ xs, y < 2 ^ 32) :
    BestCode isMin (xs ++ ys.map BitVec.toNat) (ys.foldl (fun m x => Fp.minMax Fp.f32 isMin m x.toNat) m) := by
  induction ys generalizing xs m with
  | nil => simpa using hm
  | cons y ys ih =>
    have := ih (hm.snoc hxs y.isLt) (by simpa [or_imp, forall_and] using ⟨hxs, y.isLt⟩)
    simpa using this

/-- R136: the least or the greatest f32 value of the active lanes. -/
theorem redmm_f32 {w : Warp} {o : VOp} (h : o.ty = .f32) (isMin : Bool) :
    ((∀ l, ¬ Active w o.guard l) → w.redmm o isMin = if isMin then 0x7F80_0000 else 0xFF80_0000) ∧
      ((∃ l, Active w o.guard l) → (∀ l, Active w o.guard l → NanF32 (w.src o.a l).toNat) → w.redmm o isMin = 0x7FC0_0000) ∧
      ∀ l, Active w o.guard l → ¬ NanF32 (w.src o.a l).toNat → (∃ j, Active w o.guard j ∧ w.redmm o isMin = w.src o.a j) ∧
        ¬ NanF32 (w.redmm o isMin).toNat ∧ towards isMin (orderF32 (w.redmm o isMin).toNat) ≤ towards isMin (orderF32 (w.src o.a l).toNat) := by
  have hmem := mem_activeA w o
  cases hxs : (w.activeA o).map (·.2) with
  | nil =>
    have hnone (l : Nat) : ¬ Active w o.guard l := fun hl => by simpa [hxs] using (hmem (w.src o.a l)).2 ⟨l, hl, rfl⟩
    refine ⟨fun _ => ?_, fun ⟨l, hl⟩ => absurd hl (hnone l), fun l hl => absurd hl (hnone l)⟩
    simp only [Warp.redmm, h, hxs]
  | cons x ys =>
    have hx : ∃ l, Active w o.guard l ∧ x = w.src o.a l := (hmem x).1 (by simp [hxs])
    have hfirst : BestCode isMin [x.toNat] x.toNat := by
      by_cases hnan : NanF32 x.toNat
      · exact .inl ⟨hnan, by simp [hnan]⟩
      · exact .inr ⟨hnan, by simp, by simp⟩
    have hbest := bestCode_foldl (isMin := isMin) ys hfirst (by simpa using x.isLt)
    have hres : w.redmm o isMin = BitVec.ofNat 32
        (if (Fp.decode Fp.f32 (ys.foldl (fun m x => Fp.minMax Fp.f32 isMin m x.toNat) x.toNat)).isNan then Fp.f32.nan
          else ys.foldl (fun m x => Fp.minMax Fp.f32 isMin m x.toNat) x.toNat) := by
      simp only [Warp.redmm, h, hxs]
    have hcodes (y : Nat) : y ∈ [x.toNat] ++ ys.map BitVec.toNat ↔ ∃ l, Active w o.guard l ∧ y = (w.src o.a l).toNat := by
      rw [show [x.toNat] ++ ys.map BitVec.toNat = ((w.activeA o).map (·.2)).map BitVec.toNat by rw [hxs]; rfl, List.mem_map]
      constructor
      · rintro ⟨a, ha, rfl⟩
        obtain ⟨l, hl, rfl⟩ := (hmem a).1 ha
        exact ⟨l, hl, rfl⟩
      · rintro ⟨l, hl, rfl⟩
        exact ⟨_, (hmem _).2 ⟨l, hl, rfl⟩, rfl⟩
    generalize ys.foldl (fun m x => Fp.minMax Fp.f32 isMin m x.toNat) x.toNat = r at *
    refine ⟨fun hnone => ?_, fun _ hall => ?_, fun l hl hnan => ?_⟩
    · obtain ⟨l, hl, -⟩ := hx
      exact absurd hl (hnone l)
    · rcases hbest with ⟨hr, -⟩ | ⟨hr, hrmem, -⟩
      · rw [hres, Fp.isNan_iff.2 hr]
        rfl
      · obtain ⟨l, hl, rfl⟩ := (hcodes r).1 hrmem
        exact absurd (hall l hl) hr
    · rcases hbest with ⟨-, hall⟩ | ⟨hr, hrmem, hle⟩
      · exact absurd (hall _ ((hcodes _).2 ⟨l, hl, rfl⟩)) hnan
      · obtain ⟨j, hj, rfl⟩ := (hcodes r).1 hrmem
        have hsrc : w.redmm o isMin = w.src o.a j := by
          rw [hres, Bool.eq_false_iff.2 (mt Fp.isNan_iff.1 hr), if_neg Bool.false_ne_true, BitVec.ofNat_toNat, BitVec.setWidth_eq]
        rw [hsrc]
        exact ⟨⟨j, hj, rfl⟩, hr, hle _ ((hcodes _).2 ⟨l, hl, rfl⟩) hnan⟩

/-! ## The statement -/

/-- R135: an instruction whose effect lands one value in a scalar register. -/
theorem landVS_lands {s : State} {c k : Nat} {w : Warp} {i : Instr} {o : VOp} {u : Unit'} {r : Warp → Word × BitVec 8} (hi : Issues s c k w i)
    (hn : slotNum i = some 0) (hf : slotFn i = some (vFn fun w => w.landVS o u (toScalar o.ty (r w).1, (r w).2))) :
    VScalar s c k w i o false u (if o.ty = .i32 then (r w).1.signExtend 64 else (r w).1.setWidth 64) (r w).2 :=
  vScalar_of hi (exec_eq_runSlot hn s) hn hf rfl

/-- R86, R107, R136: `vredadd` is the root of the tree over the active lanes. -/
theorem redadd_eq (w : Warp) (o : VOp) :
    let add := fun (x y : Word × BitVec 8) =>
      let r : Word × BitVec 8 := if o.ty = .f32 then Fp.f32Add o.rm false x.1 y.1
        else
          let z := x.1.toInt + y.1.toInt
          if o.sat = true ∧ z < tyMin .i32 then (0x8000_0000, 16) else if o.sat = true ∧ tyMax .i32 < z then (0x7FFF_FFFF, 16)
          else (BitVec.ofInt 32 z, 0)
      (r.1, x.2 ||| y.2 ||| r.2)
    let root := (node add (levelAt (w.leaves o)) 10 0).getD (0, 0)
    w.redadd o = (canonicalF32 o.ty root.1, root.2) := by
  intro add root
  have hadd : (fun (x y : Word × BitVec 8) =>
      let r := if o.ty = .f32 then Fp.f32Add o.rm false x.1 y.1 else intOut .i32 o.sat (intVal .i32 x.1 + intVal .i32 y.1)
      (r.1, x.2 ||| y.2 ||| r.2)) = add := by
    funext x y
    simp only [add, intOut_i32, intVal_eq_intOf, intOf]
  simp only [Warp.redadd, hadd, treeRoot_eq]
  rfl

/-- Settles O12. -/
theorem reductions : Obligations.Reductions := by
  refine ⟨?sum, ?best⟩
  case sum =>
    intro o s c k w hi ht hk
    refine ⟨levelAt (w.leaves o), fun l => (levelAt_leaves w o l).1, fun l => (levelAt_leaves w o l).2, ?_⟩
    intro add root
    have hred := redadd_eq w o
    obtain ⟨hnan, hnot⟩ := canonicalF32_eq o.ty root.1
    refine ⟨canonicalF32 o.ty root.1, hnan, hnot, ?_⟩
    have hland : VScalar s c k w (.vredadd o) o false .lcs _ _ := landVS_lands (r := fun w => w.redadd o) hi rfl rfl
    rwa [hred] at hland
  case best =>
    simp only [List.forall_mem_cons, List.not_mem_nil, false_imp_iff, implies_true, and_true]
    refine ⟨fun o s c k w hi => ⟨w.redmm o true, landVS_lands (r := fun w => (w.redmm o true, 0)) hi rfl rfl, ?_, ?_⟩,
      fun o s c k w hi => ⟨w.redmm o false, landVS_lands (r := fun w => (w.redmm o false, 0)) hi rfl rfl, ?_, ?_⟩⟩
    · exact fun ht => redmm_int ht true
    · exact fun ht => redmm_f32 ht true
    · intro ht
      have := redmm_int (w := w) ht false
      simpa only [towards, Bool.false_eq_true, if_false, neg_le_neg_iff] using this
    · intro ht
      have := redmm_f32 (w := w) ht false
      simpa only [towards, Bool.false_eq_true, if_false, neg_le_neg_iff] using this

end Sys2Proof.Machine
end

