-- ==== Sys2Proof/Proofs/Accumulators.lean ====
section
/-! PROOFS. Adding a contribution to an accumulator element: round-to-odd, the least anchor at which the sum fits, and SPEC (R103). -/

namespace Sys2Proof.Fp
open Claim

/-! ## Round-to-odd -/

/-- R103: what round-to-odd gives lies less than one from its operand. -/
theorem abs_sub_lt_of_roundsOdd {y : ℚ} {m : ℤ} (h : RoundsOdd y m) : |y - m| < 1 := by
  rcases h with h | ⟨-, -, h⟩
  · simp [← h]
  · exact h

/-- R103: round-to-odd has one result. -/
theorem roundsOdd_unique {y : ℚ} {m n : ℤ} (hm : RoundsOdd y m) (hn : RoundsOdd y n) : m = n := by
  have h1 := abs_lt.1 (abs_sub_lt_of_roundsOdd hm)
  have h2 := abs_lt.1 (abs_sub_lt_of_roundsOdd hn)
  have h3 : m - n < 2 := by exact_mod_cast (by linarith : ((m : ℚ) - n) < 2)
  have h4 : n - m < 2 := by exact_mod_cast (by linarith : ((n : ℚ) - m) < 2)
  rcases hm with hm | ⟨hmi, hmo, -⟩ <;> rcases hn with hn | ⟨hni, hno, -⟩
  · exact_mod_cast hm.trans hn.symm
  · exact absurd hm (hni m)
  · exact absurd hn (hmi n)
  · omega

/-- R103: the model's round-to-odd, and whether it is exact. -/
theorem roundOdd_spec (s e a : Int) : RoundsOdd ((s : ℚ) * 2 ^ e / 2 ^ a) (roundOdd s e a).1 ∧
    ((roundOdd s e a).2 = true ↔ ((roundOdd s e a).1 : ℚ) * 2 ^ a = s * 2 ^ e) := by
  have ha := two_zpow_pos a
  unfold roundOdd
  split
  next h =>
    obtain ⟨d, rfl⟩ : ∃ d : Nat, e = a + d := ⟨(e - a).toNat, by omega⟩
    have hval : ((s * 2 ^ (a + d - a).toNat : ℤ) : ℚ) * 2 ^ a = s * 2 ^ (a + d : ℤ) := by
      rw [show (a + d - a).toNat = d by omega, two_zpow_add, zpow_natCast]
      push_cast
      ring
    exact ⟨.inl (by rw [← hval, mul_div_cancel_right₀ _ ha.ne']), by simp only [hval]⟩
  next h =>
    obtain ⟨d, rfl⟩ : ∃ d : Nat, a = e + d := ⟨(a - e).toNat, by omega⟩
    have he := two_zpow_pos e
    have hd : (0 : ℚ) < 2 ^ d := by positivity
    have hy : (s : ℚ) * 2 ^ e / 2 ^ (e + d : ℤ) = s / 2 ^ d := by
      rw [two_zpow_add, zpow_natCast]
      field_simp
    have hdm : (s / 2 ^ d * 2 ^ d + s % 2 ^ d : ℤ) = s := Int.ediv_mul_add_emod s _
    have hdmq : ((s / 2 ^ d : ℤ) : ℚ) * 2 ^ d + ((s % 2 ^ d : ℤ) : ℚ) = s := by exact_mod_cast hdm
    have hr0 : 0 ≤ s % 2 ^ d := Int.emod_nonneg _ (by positivity)
    have hr1 : s % 2 ^ d < 2 ^ d := Int.emod_lt_of_pos _ (by positivity)
    have hint (n : ℤ) : (n : ℚ) = s / 2 ^ d ↔ n * 2 ^ d = s := by
      rw [eq_div_iff hd.ne']
      norm_cast
    have hexact (n : ℤ) : (n : ℚ) * 2 ^ (e + d : ℤ) = s * 2 ^ e ↔ n * 2 ^ d = s := by
      rw [two_zpow_add, zpow_natCast, mul_comm ((2 : ℚ) ^ e), ← mul_assoc, mul_left_inj' he.ne']
      norm_cast
    rw [hy, show (e + d - e).toNat = d by omega]
    dsimp only
    split
    next h0 =>
      have hself : s / 2 ^ d * 2 ^ d = s := by omega
      exact ⟨.inl ((hint _).2 hself), by simp only [hexact, hself]⟩
    next h0 =>
      have hnot (n : ℤ) : n * 2 ^ d ≠ s := fun h => h0 (by rw [← h, Int.mul_emod_left])
      have hy0 : ((s / 2 ^ d : ℤ) : ℚ) < s / 2 ^ d := by
        rw [lt_div_iff₀ hd]
        have : (0 : ℚ) < ((s % 2 ^ d : ℤ) : ℚ) := by exact_mod_cast lt_of_le_of_ne hr0 (Ne.symm h0)
        linarith
      have hy1 : (s : ℚ) / 2 ^ d < ((s / 2 ^ d : ℤ) : ℚ) + 1 := by
        rw [div_lt_iff₀ hd]
        have : ((s % 2 ^ d : ℤ) : ℚ) < 2 ^ d := by exact_mod_cast hr1
        linarith
      refine ⟨.inr ⟨fun n hn => hnot n ((hint n).1 hn), ?_, ?_⟩, by simp only [hexact, hnot, Bool.false_eq_true]⟩
      · split <;> omega
      · rw [abs_lt]
        split
        · push_cast
          constructor <;> linarith
        · constructor <;> linarith

/-! ## The anchor -/

/-- R101: the values that the field M holds. -/
def FitsM (m : ℤ) : Prop := -(2 ^ 113) ≤ m ∧ m ≤ 2 ^ 113 - 1

/-- R103: a sum below 2^113 units fits. -/
theorem fitsM_of_abs_lt {y : ℚ} {m : ℤ} (h : RoundsOdd y m) (hy : |y| < 2 ^ 113) : FitsM m := by
  obtain ⟨hlo, hhi⟩ := abs_lt.1 hy
  obtain ⟨h1, h2⟩ := abs_lt.1 (abs_sub_lt_of_roundsOdd h)
  have hm1 : (-(2 ^ 113) - 1 : ℤ) < m := by exact_mod_cast (by linarith : (-(2 ^ 113) - 1 : ℚ) < m)
  have hm2 : m < (2 ^ 113 + 1 : ℤ) := by exact_mod_cast (by linarith : (m : ℚ) < 2 ^ 113 + 1)
  refine ⟨by omega, ?_⟩
  rcases h with h | ⟨-, hodd, -⟩
  · have : m < (2 ^ 113 : ℤ) := by exact_mod_cast (h ▸ hhi : (m : ℚ) < 2 ^ 113)
    omega
  · omega

/-- R103: a sum of 2^114 units or more does not fit. -/
theorem not_fitsM_of_le_abs {y : ℚ} {m : ℤ} (h : RoundsOdd y m) (hy : 2 ^ 114 ≤ |y|) : ¬ FitsM m := by
  rintro ⟨hlo, hhi⟩
  obtain ⟨h1, h2⟩ := abs_lt.1 (abs_sub_lt_of_roundsOdd h)
  have hlo' : (-(2 ^ 113) : ℚ) ≤ m := by exact_mod_cast hlo
  have hhi' : (m : ℚ) ≤ 2 ^ 113 - 1 := by exact_mod_cast hhi
  rcases le_abs.1 hy with h | h <;> linarith

/-- R103: the anchor rises while the rounded sum does not fit. -/
theorem fitAnchor_succ (s e : Int) (n : Nat) (a : Int) :
    (FitsM (roundOdd s e a).1 → fitAnchor s e (n + 1) a = a) ∧ (¬ FitsM (roundOdd s e a).1 → fitAnchor s e (n + 1) a = fitAnchor s e n (a + 1)) := by
  have hiff : (roundOdd s e a).1 < -(2 ^ 113) ∨ 2 ^ 113 - 1 < (roundOdd s e a).1 ↔ ¬ FitsM (roundOdd s e a).1 := by
    simp only [FitsM, not_and_or, not_le]
  exact ⟨fun h => if_neg fun h' => hiff.1 h' h, fun h => if_pos (hiff.2 h)⟩

/-- R103: a nonzero integer lies between powers of two. -/
theorem abs_bounds {s : Int} (hs : s ≠ 0) (q : Int) : (2 : ℚ) ^ (q + bitLen s.natAbs - 1) ≤ |(s : ℚ) * 2 ^ q| ∧ |(s : ℚ) * 2 ^ q| < 2 ^ (q + bitLen s.natAbs) := by
  have habs : |(s : ℚ) * 2 ^ q| = (s.natAbs : ℚ) * 2 ^ q := by
    rw [abs_mul, abs_of_pos (two_zpow_pos q), Nat.cast_natAbs, Int.cast_abs]
  obtain ⟨h1, h2⟩ := topOf_bounds (Int.natAbs_pos.2 hs) q
  rw [habs]
  simp only [topOf] at h1 h2
  exact ⟨h1, by rwa [sub_add_cancel] at h2⟩

/-- Where the search for the anchor starts: no lower one can fit, and the next one does. -/
def startAnchor (s q floor : Int) : Int := if s = 0 then floor else max floor (q + bitLen s.natAbs - 114)

theorem startAnchor_spec (s q floor : Int) : floor ≤ startAnchor s q floor ∧
    (∀ a m, floor ≤ a → a < startAnchor s q floor → RoundsOdd ((s : ℚ) * 2 ^ q / 2 ^ a) m → ¬ FitsM m) ∧
    ∀ m, RoundsOdd ((s : ℚ) * 2 ^ q / 2 ^ (startAnchor s q floor + 1)) m → FitsM m := by
  unfold startAnchor
  split
  next h =>
    subst h
    refine ⟨le_rfl, fun a m h1 h2 => absurd h1 h2.not_ge, fun m h => fitsM_of_abs_lt h (by simp)⟩
  next hs =>
    obtain ⟨hlo, hhi⟩ := abs_bounds hs q
    refine ⟨le_max_left _ _, fun a m h1 h2 h => not_fitsM_of_le_abs h ?_, fun m h => fitsM_of_abs_lt h ?_⟩
    · rw [abs_div, abs_of_pos (two_zpow_pos a), le_div_iff₀ (two_zpow_pos a), ← zpow_natCast, ← two_zpow_add]
      exact (zpow_le_zpow_right₀ one_le_two (by push_cast; omega)).trans hlo
    · rw [abs_div, abs_of_pos (two_zpow_pos _), div_lt_iff₀ (two_zpow_pos _), ← zpow_natCast, ← two_zpow_add]
      exact hhi.trans_le (zpow_le_zpow_right₀ one_le_two (by push_cast; omega))

/-- R103: the least anchor from `floor` on at which the rounded sum fits. -/
theorem fitAnchor_spec (s q floor : Int) :
    let a := fitAnchor s q 3 (startAnchor s q floor)
    floor ≤ a ∧ FitsM (roundOdd s q a).1 ∧ ∀ b m, floor ≤ b → b < a → RoundsOdd ((s : ℚ) * 2 ^ q / 2 ^ b) m → ¬ FitsM m := by
  obtain ⟨hfloor, hbelow, hnext⟩ := startAnchor_spec s q floor
  generalize startAnchor s q floor = a at *
  by_cases hfit : FitsM (roundOdd s q a).1
  · rw [(fitAnchor_succ s q 2 a).1 hfit]
    exact ⟨hfloor, hfit, hbelow⟩
  · have hfit' := hnext _ (roundOdd_spec s q (a + 1)).1
    rw [(fitAnchor_succ s q 2 a).2 hfit, (fitAnchor_succ s q 1 (a + 1)).1 hfit']
    refine ⟨by omega, hfit', fun b m h1 h2 h => ?_⟩
    rcases (show b < a ∨ b = a by omega) with h3 | rfl
    · exact hbelow b m h1 h3 h
    · rwa [roundsOdd_unique h (roundOdd_spec s q b).1]

/-- R103: the sum in units of the lower exponent. -/
def sumUnits (x : Acc) (c e : Int) : Int := x.m * 2 ^ (x.a - min x.a e).toNat + c * 2 ^ (e - min x.a e).toNat

theorem sumUnits_eq (x : Acc) (c e : Int) : (sumUnits x c e : ℚ) * 2 ^ min x.a e = (x.m : ℚ) * 2 ^ x.a + (c : ℚ) * 2 ^ e := by
  have hpow (a : Int) (h : min x.a e ≤ a) : (2 : ℚ) ^ (a - min x.a e).toNat * 2 ^ min x.a e = 2 ^ a := by
    rw [← zpow_natCast, ← two_zpow_add, Int.toNat_of_nonneg (by omega), sub_add_cancel]
  rw [sumUnits]
  push_cast
  rw [add_mul, mul_assoc, mul_assoc, hpow x.a (min_le_left _ _), hpow e (min_le_right _ _)]

/-- R103: the anchor of the sum. -/
def sumAnchor (x : Acc) (c e : Int) : Int :=
  fitAnchor (sumUnits x c e) (min x.a e) 3 (startAnchor (sumUnits x c e) (min x.a e) (if x.m = 0 then -1024 else x.a))

/-- R103: a finite contribution puts the sum, rounded at its anchor, into the element. -/
theorem accAdd_eq (x : Acc) (c e : Int) : accAdd x c e = ({ x with
      a := sumAnchor x c e
      m := (roundOdd (sumUnits x c e) (min x.a e) (sumAnchor x c e)).1 },
    if (roundOdd (sumUnits x c e) (min x.a e) (sumAnchor x c e)).2 then 0 else evWindow) := rfl

/-- R103: an infinite contribution changes SPEC only. -/
theorem contribute_inf (x : Acc) (neg : Bool) : contribute x (.inf neg) = if x.spec = 4 then (x, 0)
    else if x.spec = (if neg then 1 else 2) then ({ x with spec := 4 }, evInvalid) else ({ x with spec := if neg then 2 else 1 }, 0) := rfl

/-- Settles O25. -/
theorem accumulatorAddition : Obligations.AccumulatorAddition := by
  refine ⟨fun x c e => ?finite, fun x => rfl, fun x neg h => ?none, fun x neg h => ?same, fun x neg h => ?opposite, fun x neg h => ?nan,
    fun x neg m e => rfl⟩
  case finite =>
    intro S r low
    obtain ⟨hfloor, ⟨hlo, hhi⟩, hmin⟩ := fitAnchor_spec (sumUnits x c e) (min x.a e) low
    obtain ⟨hodd, hexact⟩ := roundOdd_spec (sumUnits x c e) (min x.a e) (sumAnchor x c e)
    rw [sumUnits_eq] at hodd hexact hmin
    have hr : r = _ := accAdd_eq x c e
    rw [hr]
    refine ⟨rfl, hfloor, hlo, hhi, hodd, fun a m h1 h2 h => ?_, if_congr hexact rfl rfl⟩
    simpa only [FitsM, not_and_or, not_le] using hmin a m h1 h2 h
  case none =>
    rw [contribute_inf, h]
    cases neg <;> rfl
  case same =>
    obtain ⟨spec, a, m⟩ := x
    obtain rfl := h
    cases neg <;> rfl
  case opposite =>
    rw [contribute_inf, h]
    cases neg <;> rfl
  case nan => rw [contribute_inf, if_pos h]

end Sys2Proof.Fp
end

