-- ==== Sys2Proof/Proofs/EngineOperations.lean ====
section
/-! PROOFS. The operations of the engines of a core, the scratchpad bytes that they write, and their end (R22, R108, R179, R180, R381). -/

namespace Sys2Proof.Machine
open Claim

/-! ## An operation that is changed -/

theorem State.core_modCore (s : State) (c : Nat) (f : CoreSt → CoreSt) : (s.modCore c f).core c = f (s.core c) := State.core_setCore_self ..

theorem State.core_modCore_ne (s : State) {c d : Nat} (f : CoreSt → CoreSt) (h : d ≠ c) : (s.modCore c f).core d = s.core d :=
  State.core_setCore_ne s _ h

/-- The operations of a core beside an operation that is changed. -/
theorem State.core_modX (s : State) (c id : Nat) (f : XOp → XOp) :
    (s.modX c id f).core c = { s.core c with xops := (s.core c).xops.map fun o => if o.id = id then f o else o } := State.core_modCore ..

theorem CoreSt.x?_id {x : CoreSt} {id : Nat} {o : XOp} (h : x.x? id = some o) : o.id = id := by
  simpa using List.find?_some h

/-- An operation that is changed, and keeps its identity, reads back changed. -/
theorem State.x?_modX {s : State} {c id : Nat} {o : XOp} {f : XOp → XOp} (h : (s.core c).x? id = some o) (hf : ∀ p, (f p).id = p.id := by exact fun _ => rfl) :
    ((s.modX c id f).core c).x? id = some (f o) := by
  have hid : ∀ p : XOp, (if p.id = id then f p else p).id = p.id := fun p => by split <;> simp [hf]
  rw [State.core_modX, CoreSt.x?, List.find?_map]
  simp only [Function.comp_def, hid]
  rw [show List.find? (fun p => decide (p.id = id)) (s.core c).xops = some o from h, Option.map_some, if_pos (CoreSt.x?_id h)]

theorem State.warp_modX (s : State) (c id : Nat) (f : XOp → XOp) (d k : Nat) : (s.modX c id f).warp? d k = s.warp? d k :=
  State.warp_modCore rfl d k

@[simp] theorem XOp.fail_none (o : XOp) : o.fail none = o := by
  cases o with
  | mk id slot block wseq instr flag dst src len len2 arrive sa sb stage tile units operands claimA claimB tx ranks finish steps evs err addr dead live begun =>
    cases err <;> rfl

@[simp] theorem XOp.fail_id (o : XOp) (e : Option Nat) : (o.fail e).id = o.id := rfl

@[simp] theorem XOp.modUnit_id (o : XOp) (i : Nat) (f : CopyUnit → CopyUnit) : (o.modUnit i f).id = o.id := rfl

/-- Firmware that traces nothing writes no record of an engine operation (R431). -/
theorem State.traceX_off {s : State} (h : s.trace = none) (kind c : Nat) (o : XOp) : s.traceX kind c o = s := by
  unfold State.traceX
  split <;> exact traceRec_off h ..

/-! ## Scratchpad bytes -/

theorem spByte_eq (s : State) (b x : Nat) : spByte s b x = match s.block? b with
    | some y => (byteAt zeroByte y.sp x).toNat
    | none => 0 := by
  unfold spByte State.spGet
  cases s.block? b <;> simp [Block.get, getBytes]

/-- The scratchpads are read from the blocks alone. -/
theorem spByte_congr {s t : State} (h : t.blocks = s.blocks) (b x : Nat) : spByte t b x = spByte s b x := by
  simp only [spByte, State.spGet, State.block?, h]

theorem spGet_congr {s t : State} (h : t.blocks = s.blocks) (b off n : Nat) : t.spGet b off n = s.spGet b off n := by
  simp only [State.spGet, State.block?, h]

theorem State.spPut_blocks (s : State) (b off n v : Nat) : (s.spPut b off n v).blocks = FMap.adjust s.blocks b fun y => y.put off n v := rfl

/-- A write of scratchpad keeps which blocks there are. -/
theorem State.block?_spPut_isSome (s : State) (b off n v d : Nat) : ((s.spPut b off n v).block? d).isSome = (s.block? d).isSome := by
  simp only [State.block?, State.spPut_blocks]
  by_cases hd : d = b
  · subst hd
    cases hb : FMap.find s.blocks d with
    | none => rw [FMap.find_adjust_none hb]
    | some y => rw [FMap.find_adjust_self hb]; rfl
  · rw [FMap.find_adjust_ne s.blocks _ hd]

/-- A byte inside the range just written is that byte of the number. -/
theorem spByte_spPut_in {s : State} {b : Nat} (h : (s.block? b).isSome) (off n v : Nat) {j : Nat} (hj : j < n) :
    spByte (s.spPut b off n v) b (off + j) = v / 256 ^ j % 256 := by
  obtain ⟨y, hy⟩ := Option.isSome_iff_exists.1 h
  have hb : (s.spPut b off n v).block? b = some (y.put off n v) := FMap.find_adjust_self hy _
  rw [spByte_eq, hb]
  simp [Block.put, byteAt_putBytes_in zeroByte y.sp off n v j hj]

/-- A write of scratchpad leaves every other byte alone. -/
theorem spByte_spPut_out (s : State) {b off n d x : Nat} (v : Nat) (h : d ≠ b ∨ x < off ∨ off + n ≤ x) :
    spByte (s.spPut b off n v) d x = spByte s d x := by
  by_cases hd : d = b
  · subst hd
    have hx := h.resolve_left fun h => h rfl
    rw [spByte_eq, spByte_eq]
    cases hb : s.block? d with
    | none => rw [show (s.spPut d off n v).block? d = none from FMap.find_adjust_none hb _ _]
    | some y =>
      rw [show (s.spPut d off n v).block? d = some (y.put off n v) from FMap.find_adjust_self hb _]
      simp [Block.put, byteAt_putBytes_out zeroByte y.sp off n v x hx]
  · rw [spByte_eq, spByte_eq, show (s.spPut b off n v).block? d = s.block? d from FMap.find_adjust_ne s.blocks _ hd]

/-! ## Pieces of scratchpad -/

/-- Write pieces of a block's scratchpad in order: each is an offset, a length and a value. -/
def State.putPieces (s : State) (b : Nat) (xs : List (Nat × Nat × Nat)) : State := xs.foldl (fun s p => s.spPut b p.1 p.2.1 p.2.2) s

/-- Two pieces do not overlap. -/
def PiecesApart (p q : Nat × Nat × Nat) : Prop := p.1 + p.2.1 ≤ q.1 ∨ q.1 + q.2.1 ≤ p.1

theorem putPieces_blocks_congr {s t : State} (h : t.blocks = s.blocks) (b : Nat) (xs : List (Nat × Nat × Nat)) :
    (t.putPieces b xs).blocks = (s.putPieces b xs).blocks := by
  induction xs generalizing s t with
  | nil => exact h
  | cons p xs ih => exact ih (by rw [State.spPut_blocks, State.spPut_blocks, h])

theorem spByte_putPieces_out {s : State} {b : Nat} {xs : List (Nat × Nat × Nat)} {d x : Nat}
    (h : d ≠ b ∨ ∀ p ∈ xs, x < p.1 ∨ p.1 + p.2.1 ≤ x) : spByte (s.putPieces b xs) d x = spByte s d x := by
  induction xs generalizing s with
  | nil => rfl
  | cons p xs ih =>
    have hp := h.imp_right fun h => h p (List.mem_cons_self ..)
    exact (ih (h.imp_right fun h q hq => h q (List.mem_cons_of_mem _ hq))).trans (spByte_spPut_out s p.2.2 hp)

theorem spByte_putPieces_in {s : State} {b : Nat} (hb : (s.block? b).isSome) {xs : List (Nat × Nat × Nat)} (ha : xs.Pairwise PiecesApart)
    {p : Nat × Nat × Nat} (hp : p ∈ xs) {j : Nat} (hj : j < p.2.1) : spByte (s.putPieces b xs) b (p.1 + j) = p.2.2 / 256 ^ j % 256 := by
  induction xs generalizing s with
  | nil => cases hp
  | cons q xs ih =>
    obtain ⟨hq, hxs⟩ := List.pairwise_cons.1 ha
    have hb' : ((s.spPut b q.1 q.2.1 q.2.2).block? b).isSome := by rwa [State.block?_spPut_isSome]
    by_cases hin : p ∈ xs
    · exact ih hb' hxs hin
    · obtain rfl : p = q := (List.mem_cons.1 hp).resolve_right hin
      have hout : ∀ r ∈ xs, p.1 + j < r.1 ∨ r.1 + r.2.1 ≤ p.1 + j := fun r hr => by
        have := hq r hr
        unfold PiecesApart at this
        omega
      exact (spByte_putPieces_out (.inr hout)).trans (spByte_spPut_in hb p.1 p.2.1 p.2.2 hj)

theorem putPieces_keeps (s : State) (b : Nat) (xs : List (Nat × Nat × Nat)) :
    (s.putPieces b xs).hbm = s.hbm ∧ (s.putPieces b xs).cores = s.cores ∧ (s.putPieces b xs).cycle = s.cycle :=
  ⟨foldl_same (g := fun (s : State) (p : Nat × Nat × Nat) => s.spPut b p.1 p.2.1 p.2.2) (f := State.hbm) (fun _ _ => rfl) xs s,
    foldl_same (g := fun (s : State) (p : Nat × Nat × Nat) => s.spPut b p.1 p.2.1 p.2.2) (f := State.cores) (fun _ _ => rfl) xs s,
    foldl_same (g := fun (s : State) (p : Nat × Nat × Nat) => s.spPut b p.1 p.2.1 p.2.2) (f := State.cycle) (fun _ _ => rfl) xs s⟩

/-! ## The end of an operation -/

/-- Operation `o` of core `c` is over in `t`: it is gone, its flag has fallen, and nothing else of what programs see has changed (R179). -/
structure Ended (s t : State) (c : Nat) (o : XOp) (w : Warp) : Prop where
  gone : ∀ p ∈ (t.core c).xops, p.id ≠ o.id
  warp : ∃ w', t.warp? c o.slot = some w' ∧ SameRegs w w' ∧ ∀ f, w'.flag f = w.flag f - if o.flag = f then 1 else 0
  quiet : Quiet s t c o.slot
  accs : (t.core c).accs = (s.core c).accs
  streams : (t.core c).streams = (s.core c).streams

/-- A change of a warp that keeps its registers and lets flag `n` fall once. -/
def FlagDown (w v : Warp) (n : Nat) : Prop := SameRegs w v ∧ ∀ f, v.flag f = w.flag f - if n = f then 1 else 0

theorem Warp.flag_decFlag (w : Warp) (n f : Nat) : (w.decFlag n).flag f = w.flag f - if n = f then 1 else 0 := by
  by_cases h : n = f
  · subst h
    simp [Warp.decFlag, Warp.flag]
  · simp [Warp.decFlag, Warp.flag, h, FMap.getD_put_ne _ _ _ _ (Ne.symm h)]

theorem flagDown_completion (w : Warp) (now n : Nat) (begun : Bool) (ev : BitVec 8) (a : DWord) :
    FlagDown w ((w.fallFlag now n).laterEvent begun now ev a) n := by
  unfold Warp.laterEvent
  split <;> exact ⟨⟨rfl, rfl, rfl, rfl, rfl, rfl, rfl, rfl, rfl, rfl, rfl, rfl, rfl, rfl, rfl, rfl, rfl⟩, w.flag_decFlag n⟩

theorem settleRamp_keeps (x : CoreSt) (now : Nat) : (x.settleRamp now).xops = x.xops ∧ (x.settleRamp now).accs = x.accs ∧
    (x.settleRamp now).streams = x.streams := by
  unfold CoreSt.settleRamp
  split <;> exact ⟨rfl, rfl, rfl⟩

/-- The cause of an operation waits for its warp, if that is there (R328). -/
def State.deferErr (s : State) (c : Nat) (o : XOp) (now : Nat) : State :=
  match o.err, s.alive (c, o.slot) with
  | some e, true => s.deferTo c o.slot e 2 o.addr o.wseq now
  | _, _ => s

/-- Warp `w` of slot `k` of core `c` is changed as the fall of flag `n` changes it, and nothing else but its core's operations. -/
structure Falls (s t : State) (c k n : Nat) (w : Warp) : Prop where
  quiet : Quiet s t c k
  core : ∃ ws, t.core c = { s.core c with warps := ws }
  warp : ∃ v, t.warp? c k = some v ∧ FlagDown w v n
  trace : t.trace = s.trace

theorem falls_modWarp {s : State} {c k n : Nat} {w : Warp} {f : Warp → Warp} (hw : s.warp? c k = some w) (hd : FlagDown w (f w) n) :
    Falls s (s.modWarp c k f) c k n w :=
  ⟨quiet_modWarp .., State.core_modWarp .., ⟨_, State.warp_modWarp hw, hd⟩, State.modWarp_trace ..⟩

theorem Falls.deferErr {s t : State} {c n : Nat} {o : XOp} {w : Warp} (h : Falls s t c o.slot n w) (now : Nat) :
    Falls s (t.deferErr c o now) c o.slot n w := by
  unfold State.deferErr
  split
  · obtain ⟨hq, ⟨ws, hc⟩, ⟨v, hv, hr, hf⟩, ht⟩ := h
    unfold State.deferTo
    generalize hg : (fun w : Warp => _) = g
    obtain ⟨ws', hc'⟩ := State.core_modWarp t c o.slot g
    refine ⟨quiet_trans hq (quiet_modWarp ..), ⟨ws', by rw [hc', hc]⟩, ⟨_, State.warp_modWarp hv, ?_⟩, (State.modWarp_trace ..).trans ht⟩
    subst hg
    exact ⟨sameRegs_trans hr ⟨rfl, rfl, rfl, rfl, rfl, rfl, rfl, rfl, rfl, rfl, rfl, rfl, rfl, rfl, rfl, rfl, rfl⟩, hf⟩
  · exact h

/-- R179: the end of an operation. -/
theorem finishX_ended {s : State} {c id : Nat} {o : XOp} {w : Warp} (ho : (s.core c).x? id = some o) (ht : s.trace = none)
    (hw : s.warp? c o.slot = some w) : Ended s (s.finishX c id) c o w := by
  obtain rfl := CoreSt.x?_id ho
  let left := ({ s.core c with xops := (s.core c).xops.filter fun p => p.id ≠ o.id } : CoreSt)
  let s₁ := s.setCore c (left.settleRamp s.cycle)
  let s₂ := s₁.modWarp c o.slot fun w => (w.fallFlag s.cycle o.flag).laterEvent (s₁.begun c o.slot w) s.cycle o.evs o.addr
  have hfin : s.finishX c o.id = (s₂.deferErr c o s₂.cycle).traceX 6 c o := by
    rw [State.finishX, ho]
    rfl
  have hleft : (left.settleRamp s.cycle).warps = (s.core c).warps := settleRamp_warps ..
  have hq₁ : Quiet s s₁ c o.slot := quiet_modCore (f := fun _ => left.settleRamp s.cycle) hleft ..
  have hw₁ : s₁.warp? c o.slot = some w := (State.warp_modCore (f := fun _ => left.settleRamp s.cycle) hleft ..).trans hw
  obtain ⟨hq, ⟨ws, hc⟩, ⟨v, hv, hr, hf⟩, ht₃⟩ := (falls_modWarp hw₁ (flagDown_completion ..) : Falls s₁ s₂ c o.slot o.flag w).deferErr (o := o) s₂.cycle
  obtain ⟨hx, ha, hs⟩ := settleRamp_keeps left s.cycle
  rw [State.core_setCore_self] at hc
  rw [hfin, State.traceX_off (ht₃.trans ht)]
  refine ⟨fun p hp => ?_, ⟨v, hv, hr, hf⟩, quiet_trans hq₁ hq, by rw [hc]; exact ha, by rw [hc]; exact hs⟩
  rw [hc] at hp
  have hp' : p ∈ left.xops := hx ▸ hp
  simpa using (List.mem_filter.1 hp').2

end Sys2Proof.Machine
end

