-- ==== Sys2Proof/Proofs/EngineHomes.lean ====
section
/-! PROOFS. Units of a copy at their homes: what an access at a home leaves of blocks and engines, and what a slice that logs nothing leaves of the
rest (R235, R249, R368, R371). -/

namespace Sys2Proof.Machine
open Claim

/-! ## Engines that stay -/

/-- Blocks, host memory and the trace are unchanged, and of every core all but its warps and its L1. -/
structure KeepsEngines (s t : State) : Prop where
  blocks : t.blocks = s.blocks
  host : t.host = s.host
  trace : t.trace = s.trace
  core : ∀ c, ∃ ws l p, t.core c = { s.core c with warps := ws, l1 := l, l1want := p }

theorem keepsEngines_same {s t : State} (hb : t.blocks = s.blocks) (hh : t.host = s.host) (ht : t.trace = s.trace) (hc : t.cores = s.cores) :
    KeepsEngines s t := ⟨hb, hh, ht, fun c => ⟨(s.core c).warps, (s.core c).l1, (s.core c).l1want, by simp only [State.core, hc]⟩⟩

theorem keepsEngines_refl (s : State) : KeepsEngines s s := keepsEngines_same rfl rfl rfl rfl

theorem KeepsEngines.trans {s t u : State} (h : KeepsEngines s t) (g : KeepsEngines t u) : KeepsEngines s u := by
  refine ⟨g.blocks.trans h.blocks, g.host.trans h.host, g.trace.trans h.trace, fun c => ?_⟩
  obtain ⟨_, _, _, ht⟩ := h.core c
  obtain ⟨ws, l, p, hu⟩ := g.core c
  exact ⟨ws, l, p, by rw [hu, ht]⟩

/-- What comes after a state with the same blocks, host memory, trace and cores. -/
theorem KeepsEngines.after {s t u : State} (h : KeepsEngines t u) (hb : t.blocks = s.blocks) (hh : t.host = s.host) (ht : t.trace = s.trace)
    (hc : t.cores = s.cores) : KeepsEngines s u := (keepsEngines_same hb hh ht hc).trans h

theorem keepsEngines_foldl {α : Type} {f : State → α → State} (hf : ∀ s x, KeepsEngines s (f s x)) (xs : List α) (s : State) :
    KeepsEngines s (xs.foldl f s) := foldl_keeps keepsEngines_refl KeepsEngines.trans hf xs s

theorem keepsEngines_ite {s t u : State} {p : Prop} [Decidable p] (h : KeepsEngines s t) (g : KeepsEngines s u) :
    KeepsEngines s (if p then t else u) := by
  split
  · exact h
  · exact g

theorem keepsEngines_modCore (s : State) {c : Nat} {f : CoreSt → CoreSt}
    (h : ∃ ws l p, f (s.core c) = { s.core c with warps := ws, l1 := l, l1want := p }) : KeepsEngines s (s.modCore c f) := by
  refine ⟨rfl, rfl, rfl, fun d => ?_⟩
  by_cases hd : d = c
  · subst hd
    rwa [State.core_modCore]
  · exact ⟨_, _, _, State.core_modCore_ne s f hd⟩

theorem keepsEngines_modWarp (s : State) (c k : Nat) (f : Warp → Warp) : KeepsEngines s (s.modWarp c k f) := by
  unfold State.modWarp
  split
  · exact keepsEngines_modCore s ⟨_, _, _, rfl⟩
  · exact keepsEngines_refl s

theorem keepsEngines_endMwait (s : State) (c k : Nat) (p : Bool) : KeepsEngines s (s.endMwait c k p) := by
  unfold State.endMwait State.l1Invalidate
  exact (keepsEngines_modWarp s c k _).trans (keepsEngines_modCore _ ⟨_, _, _, rfl⟩)

theorem keepsEngines_evalMonitors (s : State) (a n : Nat) : KeepsEngines s (s.evalMonitors a n) := by
  unfold State.evalMonitors
  exact KeepsEngines.after (keepsEngines_foldl (fun s m => keepsEngines_endMwait ..) _ _) rfl rfl rfl rfl

theorem keepsEngines_logRecord (s : State) (a n op req : Nat) (hit : Bool) : KeepsEngines s (s.logRecord a n op req hit) := by
  unfold State.logRecord
  refine keepsEngines_ite (keepsEngines_ite (keepsEngines_same rfl rfl rfl rfl) ?_) (keepsEngines_refl s)
  refine KeepsEngines.trans (t := State.evalMonitors _ _ _) ?_ (keepsEngines_same rfl rfl rfl rfl)
  exact KeepsEngines.after (keepsEngines_evalMonitors ..) rfl rfl rfl rfl

theorem keepsEngines_l2Drop (s : State) (line req : Nat) : KeepsEngines s (s.l2Drop line req) := by
  unfold State.l2Drop
  split
  · exact keepsEngines_refl s
  · exact keepsEngines_ite (KeepsEngines.after (keepsEngines_logRecord ..) rfl rfl rfl rfl) (keepsEngines_same rfl rfl rfl rfl)

theorem keepsEngines_l2Room (s : State) (line req : Nat) : KeepsEngines s (s.l2Room line req) := by
  unfold State.l2Room
  refine keepsEngines_ite (keepsEngines_refl s) (keepsEngines_ite (keepsEngines_refl s) ?_)
  have hfree : KeepsEngines s s.freeVal.2 := keepsEngines_same rfl rfl rfl rfl
  dsimp only
  split
  · exact hfree.trans (keepsEngines_l2Drop ..)
  · exact hfree

theorem keepsEngines_l2Touch (s : State) (line op req : Nat) : KeepsEngines s (s.l2Touch line op req).2 := by
  unfold State.l2Touch
  dsimp only
  split
  · exact keepsEngines_ite (keepsEngines_same rfl rfl rfl rfl) (keepsEngines_refl s)
  · exact ((keepsEngines_l2Room ..).trans (keepsEngines_logRecord ..)).trans (keepsEngines_same rfl rfl rfl rfl)

theorem keepsEngines_logAccess (s : State) (a n op req : Nat) : KeepsEngines s (s.logAccess a n op req) := by
  refine keepsEngines_foldl (fun s p => ?_) _ _
  unfold State.logLine
  exact keepsEngines_ite (keepsEngines_ite ((keepsEngines_l2Touch ..).trans (keepsEngines_logRecord ..)) (keepsEngines_logRecord ..))
    (keepsEngines_refl s)

/-- The operation of an engine that stays. -/
theorem KeepsEngines.x? {s t : State} (h : KeepsEngines s t) (c id : Nat) : (t.core c).x? id = (s.core c).x? id := by
  obtain ⟨_, _, _, ht⟩ := h.core c
  rw [ht]
  rfl

/-! ## Slices that log nothing -/

/-- Two states differ in the lines that the slices hold and in the free values that have been taken. -/
def OnlyL2 (s t : State) : Prop := ∃ a b, t = { s with l2 := a, fresh := b }

theorem onlyL2_refl (s : State) : OnlyL2 s s := ⟨s.l2, s.fresh, rfl⟩

theorem onlyL2_trans {s t u : State} (h : OnlyL2 s t) (g : OnlyL2 t u) : OnlyL2 s u := by
  obtain ⟨_, _, rfl⟩ := h
  obtain ⟨a, b, rfl⟩ := g
  exact ⟨a, b, rfl⟩

theorem onlyL2_ite {s t u : State} {p : Prop} [Decidable p] (h : OnlyL2 s t) (g : OnlyL2 s u) : OnlyL2 s (if p then t else u) := by
  split
  · exact h
  · exact g

theorem OnlyL2.unlogged {s t : State} (h : OnlyL2 s t) (hl : Unlogged s) : Unlogged t := by
  obtain ⟨_, _, rfl⟩ := h
  exact hl

theorem logRecord_unlogged {s : State} (hl : Unlogged s) (a n op req : Nat) (hit : Bool) : s.logRecord a n op req hit = s := by
  simp [State.logRecord, hl (sliceOf a)]

theorem onlyL2_l2Drop {s : State} (hl : Unlogged s) (line req : Nat) : OnlyL2 s (s.l2Drop line req) := by
  unfold State.l2Drop
  split
  · exact onlyL2_refl s
  · next dirty _ =>
    have hl' : Unlogged { s with l2 := FMap.set s.l2 (sliceOf (128 * line)) (FMap.erase (FMap.getD s.l2 (sliceOf (128 * line)) []) line) } := hl
    exact onlyL2_ite (by rw [logRecord_unlogged hl']; exact ⟨_, _, rfl⟩) ⟨_, _, rfl⟩

theorem onlyL2_l2Room {s : State} (hl : Unlogged s) (line req : Nat) : OnlyL2 s (s.l2Room line req) := by
  unfold State.l2Room
  refine onlyL2_ite (onlyL2_refl s) (onlyL2_ite (onlyL2_refl s) ?_)
  have hfree : OnlyL2 s s.freeVal.2 := ⟨_, _, rfl⟩
  dsimp only
  split
  · exact onlyL2_trans hfree (onlyL2_l2Drop (hfree.unlogged hl) ..)
  · exact hfree

theorem onlyL2_l2Touch {s : State} (hl : Unlogged s) (line op req : Nat) : OnlyL2 s (s.l2Touch line op req).2 := by
  unfold State.l2Touch
  dsimp only
  split
  · exact onlyL2_ite ⟨_, _, rfl⟩ (onlyL2_refl s)
  · have hroom := onlyL2_l2Room hl line req
    rw [logRecord_unlogged (hroom.unlogged hl)]
    exact onlyL2_trans hroom ⟨_, _, rfl⟩

theorem onlyL2_logLine {s : State} (hl : Unlogged s) (a n op req : Nat) : OnlyL2 s (s.logLine a n op req) := by
  have htouch := onlyL2_l2Touch hl (a / 128) op req
  unfold State.logLine
  refine onlyL2_ite (onlyL2_ite ?_ ?_) (onlyL2_refl s)
  · dsimp only
    rw [logRecord_unlogged (htouch.unlogged hl)]
    exact htouch
  · rw [logRecord_unlogged hl]
    exact onlyL2_refl s

theorem onlyL2_logAccess {s : State} (hl : Unlogged s) (a n op req : Nat) : OnlyL2 s (s.logAccess a n op req) := by
  unfold State.logAccess
  generalize lineSpans a n = xs
  induction xs generalizing s with
  | nil => exact onlyL2_refl s
  | cons p xs ih =>
    have hp := onlyL2_logLine hl p.1 p.2 op req
    exact onlyL2_trans hp (ih (hp.unlogged hl))

/-! ## Reads and writes at a local home -/

/-- The state after a read of a local home with no uncorrectable error. -/
def State.readAt (s : State) (a n op req : Nat) : State := (if backed a n < n then s.count 16 else s).logAccess a n op req

theorem homeGet_local {s : State} {pa : Pa} {a n : Nat} (ha : s.localAddr pa = some a) (hp : s.poisonOf a n = none) (op req : Nat) :
    s.homeGet pa n op req = (s.devGet a n, none, s.readAt a n op req) := by
  simp only [State.homeGet, ha, hp, State.readAt, Option.isSome_none, Bool.false_eq_true, if_false]

theorem keepsEngines_readAt (s : State) (a n op req : Nat) : KeepsEngines s (s.readAt a n op req) := by
  have hcount : KeepsEngines s (if backed a n < n then s.count 16 else s) := keepsEngines_ite (keepsEngines_same rfl rfl rfl rfl) (keepsEngines_refl s)
  exact hcount.trans (keepsEngines_logAccess ..)

theorem readAt_hbm {s : State} (hl : Unlogged s) (a n op req : Nat) : (s.readAt a n op req).hbm = s.hbm := by
  have hl' : Unlogged (if backed a n < n then s.count 16 else s) := by
    split
    · exact hl
    · exact hl
  obtain ⟨_, _, h⟩ := onlyL2_logAccess hl' a n op req
  rw [State.readAt, h]
  show State.hbm (if _ then _ else _) = _
  split <;> rfl

theorem backed_of_le {a n : Nat} (h : a + n ≤ Config.hbmBytes) : backed a n = n := by
  unfold backed
  omega

/-- A read of backed bytes at a slice that logs nothing. -/
theorem onlyL2_readAt {s : State} (hl : Unlogged s) {a n : Nat} (h : a + n ≤ Config.hbmBytes) (op req : Nat) : OnlyL2 s (s.readAt a n op req) := by
  rw [State.readAt, backed_of_le h, if_neg (lt_irrefl n)]
  exact onlyL2_logAccess hl ..

theorem evalMonitors_hbm (s : State) (a n : Nat) : (s.evalMonitors a n).hbm = s.hbm := by
  unfold State.evalMonitors
  exact foldl_same (g := fun (s : State) (m : Monitor) => s.endMwait m.core m.slot true) (f := State.hbm)
    (fun s m => by simp [State.endMwait, State.l1Invalidate]) _ _

theorem keepsEngines_homePut_local {s : State} {pa : Pa} {a : Nat} (ha : s.localAddr pa = some a) (n v op req : Nat) :
    KeepsEngines s (s.homePut pa n v op req) := by
  simp only [State.homePut, ha]
  have hcount : KeepsEngines s (if backed a n < n then s.count 16 else s) := keepsEngines_ite (keepsEngines_same rfl rfl rfl rfl) (keepsEngines_refl s)
  have hput : KeepsEngines s (State.clearPoison (State.devPut (if backed a n < n then s.count 16 else s) a n v) a n) :=
    hcount.trans (keepsEngines_same rfl rfl rfl rfl)
  exact (hput.trans (keepsEngines_logAccess ..)).trans (keepsEngines_evalMonitors ..)

/-- A write of backed bytes at a slice that logs nothing writes them, and no other. -/
theorem homePut_hbm {s : State} {pa : Pa} {a n : Nat} (ha : s.localAddr pa = some a) (hl : Unlogged s) (hn : a + n ≤ Config.hbmBytes) (v op req : Nat) :
    (s.homePut pa n v op req).hbm = s.hbm.put a n v := by
  simp only [State.homePut, ha, backed_of_le hn, lt_irrefl, if_false]
  have hl' : Unlogged ((s.devPut a n v).clearPoison a n) := hl
  obtain ⟨_, _, h⟩ := onlyL2_logAccess hl' a n op req
  rw [evalMonitors_hbm, h]
  show s.hbm.put a (backed a n) v = _
  rw [backed_of_le hn]

/-- Memory that is written holds the bytes of the number, and elsewhere what it held. -/
theorem Memory.byte_put (m : Memory) (a n v : Nat) :
    (∀ j < n, (m.put a n v).byte (a + j) = BitVec.ofNat 8 (v / 256 ^ j)) ∧ ∀ b, b < a ∨ a + n ≤ b → (m.put a n v).byte b = m.byte b :=
  ⟨fun j hj => byteAt_putBytes_in m.dflt m.cells a n v j hj, fun b hb => byteAt_putBytes_out m.dflt m.cells a n v b hb⟩

end Sys2Proof.Machine
end

