-- ==== Sys2Proof/Proofs/CopySteps.lean ====
section
/-! PROOFS. The steps of a copy: units read and written, a scratchpad side written in one step, and a lane of `cpa` (R180, R187, R248, R256). -/

namespace Sys2Proof.Machine
open Claim

/-! ## Scratchpad steps of an engine -/

/-- The engine's step on byte ranges, if there are any (R361). -/
def State.touch (s : State) (c q : Nat) (xs : List (Nat × Nat)) : State := if xs = [] then s else s.engineStep c q xs

theorem core_engineStep (s : State) (d q : Nat) (xs : List (Nat × Nat)) (c : Nat) :
    ∃ a b, (s.engineStep d q xs).core c = { s.core c with waits := a, held := b } := by
  by_cases h : c = d
  · subst h
    exact ⟨_, _, State.core_modCore ..⟩
  · exact ⟨(s.core c).waits, (s.core c).held, State.core_modCore_ne s _ h⟩

theorem core_touch (s : State) (d q : Nat) (xs : List (Nat × Nat)) (c : Nat) :
    ∃ a b, (s.touch d q xs).core c = { s.core c with waits := a, held := b } := by
  unfold State.touch
  split
  · exact ⟨_, _, rfl⟩
  · exact core_engineStep ..

theorem x?_engineStep (s : State) (d q : Nat) (xs : List (Nat × Nat)) (c id : Nat) : ((s.engineStep d q xs).core c).x? id = (s.core c).x? id := by
  obtain ⟨_, _, h⟩ := core_engineStep s d q xs c
  rw [h]
  rfl

theorem x?_touch (s : State) (d q : Nat) (xs : List (Nat × Nat)) (c id : Nat) : ((s.touch d q xs).core c).x? id = (s.core c).x? id := by
  obtain ⟨_, _, h⟩ := core_touch s d q xs c
  rw [h]
  rfl

theorem quiet_touch (s : State) (d q : Nat) (xs : List (Nat × Nat)) (c k : Nat) : Quiet s (s.touch d q xs) c k := by
  unfold State.touch
  split
  · exact quiet_refl s c k
  · exact quiet_bankCount ..

theorem warp_touch (s : State) (d q : Nat) (xs : List (Nat × Nat)) (c k : Nat) : (s.touch d q xs).warp? c k = s.warp? c k := by
  obtain ⟨_, _, h⟩ := core_touch s d q xs c
  simp only [State.warp?, h]

theorem trace_touch (s : State) (d q : Nat) (xs : List (Nat × Nat)) : (s.touch d q xs).trace = s.trace := by
  unfold State.touch
  split <;> rfl

/-! ## One unit -/

/-- A unit that has been written. -/
def CopyUnit.written (u : CopyUnit) : CopyUnit := { u with done := true }

/-- A unit whose bytes have been read. -/
def CopyUnit.holding (v : Nat) (u : CopyUnit) : CopyUnit := { u with data := some v, bad := false }

section
variable {s : State} {c id i : Nat} {o : XOp} {u : CopyUnit}

theorem readUnit_glob (ho : (s.core c).x? id = some o) (hu : o.units[i]? = some u) {pa : Pa} {ms : Bool} (hs : u.src = .glob pa ms) {a : Nat}
    (ha : s.localAddr pa = some a) (hp : s.poisonOf a u.n = none) (hf : (s.core c).fifo = []) :
    readUnit c id i s = (s.readAt a u.n (slotCode ms 0) (o.requester c)).modX c id fun o => o.modUnit i (CopyUnit.holding (s.devGet a u.n)) := by
  simp only [readUnit, ho, hu, hs, homeGet_local ha hp, hf, List.filter_nil, XOp.fail_none]
  rfl

theorem writeUnit_sp (ho : (s.core c).x? id = some o) (hu : o.units[i]? = some u) {b off v : Nat} (hd : u.dst = .sp b off) (hb : u.bad = false)
    (hv : u.data = some v) : writeUnit c id i s = (s.modX c id fun o => o.modUnit i CopyUnit.written).spPut b off u.m v := by
  simp only [writeUnit, ho, hu, hd, hb, hv, Option.isNone_some, Bool.and_false, Bool.false_eq_true, if_false, Option.getD_some]
  rfl

theorem writeUnit_acc (ho : (s.core c).x? id = some o) (hu : o.units[i]? = some u) {tile k v : Nat} (hd : u.dst = .acc tile k) (hb : u.bad = false)
    (hv : u.data = some v) : writeUnit c id i s = (s.modX c id fun o => o.modUnit i CopyUnit.written).modCore c fun x =>
      { x with accs := FMap.put x.accs (tile * 4096 + k) (BitVec.ofNat 128 v) 0 } := by
  simp only [writeUnit, ho, hu, hd, hb, hv, Bool.false_eq_true, if_false, Option.getD_some]
  rfl

theorem writeUnit_glob (ho : (s.core c).x? id = some o) (hu : o.units[i]? = some u) {pa : Pa} {ms : Bool} {v : Nat} (hd : u.dst = .glob pa ms)
    (hb : u.bad = false) (hv : u.data = some v) (hpa : pa.space = .hbm) : writeUnit c id i s =
      ((((s.modX c id fun o => o.modUnit i CopyUnit.written).dropLines c [pa.line]).homePut pa u.m v (slotCode ms 1) (o.requester c)).clearCopied c id pa) := by
  have hl : (s.modX c id fun o => o.modUnit i CopyUnit.written).linkCause pa = none := by simp [State.linkCause, hpa]
  unfold CopyUnit.written at hl ⊢
  simp only [writeUnit, ho, hu, hd, hb, hv, hl, hpa, Bool.false_eq_true, if_false, Option.getD_some, reduceCtorEq]

/-- The one lane of `cpa` that ends at a unit is written (R187). -/
theorem writeUnit_lane (ho : (s.core c).x? id = some o) (hu : o.units[i]? = some u) {b off : Nat} (hd : u.dst = .sp b off) (hs : u.src = .nowhere)
    (hv : u.data = none) : writeUnit c id i s = (s.modX c id fun o => o.modUnit i CopyUnit.written).putPieces b
      ((laneUnits o.units i).map fun p => (off + 16 * p.1, 16, p.2)) := by
  simp only [writeUnit, ho, hu, hd, hs, hv, Option.isNone_none, Bool.and_self, decide_true, if_true, State.putPieces, List.foldl_map]
  rfl

end

/-! ## Reading and writing -/

section
variable {s : State} {c id i : Nat} {o : XOp} {u : CopyUnit}

theorem exec_part (ho : (s.core c).x? id = some o) (hby : o.byUnits = true) (hst : o.stage = .started) (hc : canStep (s.core c) o i = true)
    (hl : s.laneFirst o i = true) : exec (.xOpComplete c id (some i)) s = .next (doStep c id i s) := by
  have hcan : canXOpComplete c id (some i) s = true := by simp [canXOpComplete, ho, hby, hst, hc, hl]
  have hdo : doXOpComplete c id (some i) s = doStep c id i s := by simp [doXOpComplete, ho, hby]
  exact (event_of hcan ..).trans (by rw [hdo])

theorem doStep_unread (ho : (s.core c).x? id = some o) (hu : o.units[i]? = some u) (h : u.unread = true) : doStep c id i s = stepRead c id i s := by
  simp [doStep, ho, hu, h]

theorem doStep_unwritten (ho : (s.core c).x? id = some o) (hu : o.units[i]? = some u) (h : u.unread = false) : doStep c id i s = stepWrite c id i s := by
  simp [doStep, ho, hu, h]

/-- Whether a place is in scratchpad. -/
def Loc.inSp : Loc → Bool
  | .sp _ _ => true
  | _ => false

theorem stepUnits_cpa {j : XCOp} (h : o.instr = .cpa j) (write : Bool) : stepUnits o i write = [i] := by
  unfold stepUnits
  rw [h]

theorem stepUnits_other (hn : ∀ j, o.instr ≠ .cpa j) (hu : o.units[i]? = some u) (write : Bool) :
    stepUnits o i write = if (if write then u.dst else u.src).inSp then List.range o.units.length else [i] := by
  unfold stepUnits
  split
  · exact absurd ‹o.instr = .cpa _› (hn _)
  · next v hv _ =>
    obtain rfl := Option.some.inj (hu.symm.trans hv)
    rfl
  · next hv _ => cases hu.symm.trans hv

theorem stepUnits_one (hu : o.units[i]? = some u) {write : Bool} (h : (if write then u.dst else u.src).inSp = false) : stepUnits o i write = [i] := by
  by_cases hc : ∃ j, o.instr = .cpa j
  · exact stepUnits_cpa hc.choose_spec write
  · rw [stepUnits_other (fun j hj => hc ⟨j, hj⟩) hu, h, if_neg Bool.false_ne_true]

theorem stepUnits_write_sp (hn : ∀ j, o.instr ≠ .cpa j) (hu : o.units[i]? = some u) {b off : Nat} (hd : u.dst = .sp b off) :
    stepUnits o i true = List.range o.units.length := by
  rw [stepUnits_other hn hu, if_pos (by simp [hd, Loc.inSp])]

theorem stepRead_glob (ho : (s.core c).x? id = some o) (hu : o.units[i]? = some u) {pa : Pa} {ms : Bool} (hs : u.src = .glob pa ms) :
    stepRead c id i s = readUnit c id i s := by
  simp [stepRead, ho, stepUnits_one (write := false) hu (by simp [hs, Loc.inSp]), hu, hs]

theorem stepWrite_other (ho : (s.core c).x? id = some o) (hu : o.units[i]? = some u) (hd : u.dst.inSp = false) :
    stepWrite c id i s = writeUnit c id i s := by
  simp only [stepWrite, ho, stepUnits_one (write := true) hu hd, List.filterMap_cons, List.filterMap_nil, hu, Option.bind_some, Option.map_some, List.foldl_cons,
    List.foldl_nil]
  cases h : u.dst with
  | sp => simp [h, Loc.inSp] at hd
  | _ => simp

/-- The ranges of a block that a scratchpad step writes (R361, R384). -/
def writeSides (o : XOp) (is : List Nat) : List (Nat × Nat) :=
  is.filterMap fun j => (o.units[j]?).bind fun u => match u.dst with
    | .sp _ off => if u.bad then none else some (off, u.m)
    | _ => none

/-- A write with no arrival update: every unit that its step covers. -/
theorem stepWrite_quiet (ho : (s.core c).x? id = some o)
    (ha : ∀ p, (((stepUnits o i true).foldl (fun s j => writeUnit c id j s) (s.touch c 4 (writeSides o (stepUnits o i true)))).core c).x? id = some p →
      p.arrive = none) :
    stepWrite c id i s = (stepUnits o i true).foldl (fun s j => writeUnit c id j s) (s.touch c 4 (writeSides o (stepUnits o i true))) := by
  unfold stepWrite
  rw [ho]
  dsimp only
  split
  · next p _ _ hp _ =>
    rw [State.arriveX.eq_def, ha p hp]
    split <;> rfl
  · rfl

end

end Sys2Proof.Machine
end

