-- ==== Sys2Proof/Proofs/CopyResults.lean ====
section
/-! PROOFS. What the steps of a copy leave: a unit read or written at its home, a scratchpad side, a lane of `cpa`, and a copy of one unit as a whole
(R180, R187, R249). -/

namespace Sys2Proof.Machine
open Claim

/-! ## Units at their homes -/

section
variable {c id i a : Nat} {s : State} {o : XOp} {u : CopyUnit} {pa : Pa} {ms : Bool}

theorem unread_of_glob (hs : u.src = .glob pa ms) (hn : u.data = none) : u.unread = true := by simp [CopyUnit.unread, hs, hn]

theorem unitReadable_of (hs : u.src = .glob pa ms) (hf : (s.core c).fifo = []) (hp : writesPending (s.core c) o pa u.n = false) :
    unitReadable (s.core c) o u = true := by simp [unitReadable, hs, fifoClear, hf, hp]

/-- R180, R249: a unit of global memory is read. -/
theorem copy_reads (ho : (s.core c).x? id = some o) (hby : o.byUnits = true) (hst : o.stage = .started) (hu : o.units[i]? = some u)
    (hs : u.src = .glob pa ms) (hn : u.data = none) (hl : s.laneFirst o i = true) (ha : s.localAddr pa = some a) (hp : s.poisonOf a u.n = none)
    (hf : (s.core c).fifo = []) (hw : writesPending (s.core c) o pa u.n = false) :
    ∃ t, exec (.xOpComplete c id (some i)) s = .next t ∧ t.blocks = s.blocks ∧ (Unlogged s → t.hbm = s.hbm) ∧
      (t.core c).x? id = some (o.modUnit i fun u => { u with data := some (s.devGet a u.n), bad := false }) := by
  have hun := unread_of_glob hs hn
  have hc : canStep (s.core c) o i = true := by simp only [canStep, hu, hun, if_true, unitReadable_of hs hf hw]
  have hk := keepsEngines_readAt s a u.n (slotCode ms 0) (o.requester c)
  have hx : ((s.readAt a u.n (slotCode ms 0) (o.requester c)).core c).x? id = some o := (hk.x? c id).trans ho
  have hex := exec_part ho hby hst hc hl
  rw [doStep_unread ho hu hun, stepRead_glob ho hu hs, readUnit_glob ho hu hs ha hp hf] at hex
  refine ⟨_, hex, hk.blocks, fun hul => readAt_hbm hul .., (State.x?_modX hx fun _ => XOp.modUnit_id ..).trans ?_⟩
  congr 1
  unfold XOp.modUnit CopyUnit.holding
  congr 1
  refine List.ext_getElem? fun j => ?_
  by_cases hj : i = j
  · subst hj
    simp [hu]
  · simp [hj]

/-- The write of a unit of a copy or of `tsave` depends on every read. -/
theorem canStep_write (hk : o.kind = .copy ∨ o.kind = .tsave) (hn : ∀ j, o.instr ≠ .cpa j) (hu : o.units[i]? = some u) (hw : u.unwritten = true)
    (hr : unitWritable (s.core c) o u = true) (hall : ∀ y ∈ o.units, y.unread = false) : canStep (s.core c) o i = true := by
  have hun : u.unread = false := hall u (List.mem_of_getElem? hu)
  have hreads : (o.units.all fun v => !v.unread) = true := by simpa using hall
  unfold canStep
  rw [hu]
  dsimp only
  rw [if_neg (by simp [hun])]
  split
  · exact absurd ‹o.instr = .cpa _› (hn _)
  · obtain hk | hk := hk <;> simp [hk, hw, hr, hreads]

/-- Only the lanes of `cpa` keep an order at a home. -/
theorem laneFirst_other (hn : ∀ j, o.instr ≠ .cpa j) : s.laneFirst o i = true := by
  unfold State.laneFirst
  split
  · exact absurd ‹o.instr = .cpa _› (hn _)
  · rfl

theorem byUnits_of (hk : o.kind = .copy ∨ o.kind = .tsave) : o.byUnits = true := by
  unfold XOp.byUnits
  obtain hk | hk := hk <;> rw [hk]

theorem keepsEngines_clearCopied (s : State) (c id : Nat) (pa : Pa) : KeepsEngines s (s.clearCopied c id pa) ∧ (s.clearCopied c id pa).hbm = s.hbm := by
  unfold State.clearCopied
  split
  · dsimp only
    split
    · exact ⟨keepsEngines_same rfl rfl rfl rfl, rfl⟩
    · exact ⟨keepsEngines_refl s, rfl⟩
  · exact ⟨keepsEngines_refl s, rfl⟩

/-- R180, R249: a unit of global memory is written. -/
theorem copy_writes {v : Nat} (ho : (s.core c).x? id = some o) (hk : o.kind = .copy ∨ o.kind = .tsave) (hn : ∀ j, o.instr ≠ .cpa j)
    (hst : o.stage = .started) (hu : o.units[i]? = some u) (hd : u.dst = .glob pa ms) (hdone : u.done = false) (hb : u.bad = false)
    (hv : u.data = some v) (hpa : pa.space = .hbm) (ha : s.localAddr pa = some a) (hm : a + u.m ≤ Config.hbmBytes)
    (hw : writable (s.core c) o pa u.m = true) (hall : ∀ y ∈ o.units, y.unread = false) (hul : Unlogged s) :
    ∃ t, exec (.xOpComplete c id (some i)) s = .next t ∧ t.blocks = s.blocks ∧ t.host = s.host ∧
      (t.core c).x? id = some (o.modUnit i fun u => { u with done := true }) ∧ (∀ j < u.m, t.hbm.byte (a + j) = BitVec.ofNat 8 (v / 256 ^ j)) ∧
      ∀ b, b < a ∨ a + u.m ≤ b → t.hbm.byte b = s.hbm.byte b := by
  have hun : u.unread = false := hall u (List.mem_of_getElem? hu)
  have hc : canStep (s.core c) o i = true :=
    canStep_write hk hn hu (by simp [CopyUnit.unwritten, hdone, hd]) (by simp [unitWritable, hd, hw]) hall
  have hex := exec_part ho (byUnits_of hk) hst hc (laneFirst_other hn)
  rw [doStep_unwritten ho hu hun, stepWrite_other ho hu (by simp [hd, Loc.inSp]), writeUnit_glob ho hu hd hb hv hpa] at hex
  let s₁ := (s.modX c id fun o => o.modUnit i CopyUnit.written).dropLines c [pa.line]
  have hx₁ : (s₁.core c).x? id = some (o.modUnit i CopyUnit.written) := by
    have hdrop : KeepsEngines (s.modX c id fun o => o.modUnit i CopyUnit.written) s₁ := by
      simp only [s₁, State.dropLines]
      exact keepsEngines_modCore _ ⟨_, _, _, rfl⟩
    exact (hdrop.x? c id).trans (State.x?_modX ho fun _ => XOp.modUnit_id ..)
  have hput := keepsEngines_homePut_local (s := s₁) (pa := pa) ha u.m v (slotCode ms 1) (o.requester c)
  obtain ⟨hclear, hmem⟩ := keepsEngines_clearCopied (s₁.homePut pa u.m v (slotCode ms 1) (o.requester c)) c id pa
  have hkeep := hput.trans hclear
  have hbytes := s.hbm.byte_put a u.m v
  refine ⟨_, hex, hkeep.blocks, hkeep.host, (hkeep.x? c id).trans hx₁, ?_⟩
  rw [hmem, homePut_hbm (s := s₁) ha hul hm]
  exact hbytes

end

/-! ## A side of scratchpad -/

/-- What a unit writes of scratchpad: its place in the block, its length and its bytes. -/
def CopyUnit.piece (u : CopyUnit) : Nat × Nat × Nat := (match u.dst with | .sp _ off => off | _ => 0, u.m, u.data.getD 0)

theorem CopyUnit.piece_sp {u : CopyUnit} {b off : Nat} (h : u.dst = .sp b off) : u.piece = (off, u.m, u.data.getD 0) := by
  rw [CopyUnit.piece, h]

/-- Units whose pieces have been written stand in scratchpad. -/
theorem unitsIn_of_pieces {s t : State} {b : Nat} {us : List CopyUnit} (ht : t.blocks = (s.putPieces b (us.map CopyUnit.piece)).blocks)
    (hb : (s.block? b).isSome) (hd : ∀ u ∈ us, ∃ off, u.dst = .sp b off) (ha : Apart us) : UnitsIn s t b us := by
  have hap : (us.map CopyUnit.piece).Pairwise PiecesApart := by
    refine List.pairwise_map.2 (ha.imp_of_mem fun {u v} hu hv h => ?_)
    obtain ⟨x, hx⟩ := hd u hu
    obtain ⟨y, hy⟩ := hd v hv
    rw [CopyUnit.piece_sp hx, CopyUnit.piece_sp hy]
    exact h b b x y hx hy
  refine ⟨fun u hu off hoff j hj => ?_, fun d x hx => ?_⟩
  · rw [spByte_congr ht]
    have := spByte_putPieces_in hb hap (List.mem_map_of_mem hu) (j := j) (by rwa [CopyUnit.piece_sp hoff])
    rwa [CopyUnit.piece_sp hoff] at this
  · rw [spByte_congr ht]
    refine spByte_putPieces_out (hx.imp_right fun h p hp => ?_)
    obtain ⟨u, hu, rfl⟩ := List.mem_map.1 hp
    obtain ⟨off, hoff⟩ := hd u hu
    rw [CopyUnit.piece_sp hoff]
    exact h u hu off hoff

/-- An operation of which the units at the places `js` have been written too. -/
def XOp.wrote (o : XOp) (js : List Nat) : XOp := { o with units := o.units.mapIdx fun k u => if k ∈ js then u.written else u }

theorem XOp.wrote_nil (o : XOp) : o.wrote [] = o := by
  have h : (o.units.mapIdx fun k u => if k ∈ [] then u.written else u) = o.units := List.ext_getElem? fun k => by simp
  rw [XOp.wrote, h]

theorem XOp.wrote_cons (o : XOp) (j : Nat) (js : List Nat) : (o.modUnit j CopyUnit.written).wrote js = o.wrote (j :: js) := by
  unfold XOp.wrote XOp.modUnit
  congr 1
  refine List.ext_getElem? fun k => ?_
  have htwice : ∀ u : CopyUnit, u.written.written = u.written := fun _ => rfl
  by_cases h : j = k
  · subst h
    cases hu : o.units[j]? <;> simp [hu, htwice]
  · simp [h, Ne.symm h]

theorem piece_modUnit (o : XOp) (j k : Nat) : ((o.modUnit j CopyUnit.written).units[k]?).map CopyUnit.piece = (o.units[k]?).map CopyUnit.piece := by
  unfold XOp.modUnit
  rw [List.getElem?_modify]
  cases o.units[k]? with
  | none => rfl
  | some u => by_cases h : j = k <;> simp [h, CopyUnit.piece, CopyUnit.written]

/-- Writing units whose bytes are there writes their pieces. -/
theorem writeUnits_sp {c id b : Nat} (js : List Nat) {s : State} {o : XOp} (ho : (s.core c).x? id = some o)
    (hj : ∀ j ∈ js, ∃ u off v, o.units[j]? = some u ∧ u.dst = .sp b off ∧ u.bad = false ∧ u.data = some v) :
    let t := js.foldl (fun s j => writeUnit c id j s) s
    (t.core c).x? id = some (o.wrote js) ∧ t.hbm = s.hbm ∧
      t.blocks = (s.putPieces b (js.filterMap fun j => (o.units[j]?).map CopyUnit.piece)).blocks := by
  induction js generalizing s o with
  | nil => exact ⟨by rw [XOp.wrote_nil]; exact ho, rfl, rfl⟩
  | cons j js ih =>
    obtain ⟨u, off, v, hu, hd, hb, hv⟩ := hj j (List.mem_cons_self ..)
    let s₁ := s.modX c id fun o => o.modUnit j CopyUnit.written
    have hw : writeUnit c id j s = s₁.spPut b off u.m v := writeUnit_sp ho hu hd hb hv
    have ho₁ : ((s₁.spPut b off u.m v).core c).x? id = some (o.modUnit j CopyUnit.written) := State.x?_modX ho fun _ => XOp.modUnit_id ..
    obtain ⟨hx, hm, hbl⟩ := ih ho₁ fun k hk => by
      obtain ⟨u, off, v, hu, hd, hb, hv⟩ := hj k (List.mem_cons_of_mem _ hk)
      unfold XOp.modUnit
      rw [List.getElem?_modify, hu]
      by_cases h : j = k
      · exact ⟨u.written, off, v, by simp [h], hd, hb, hv⟩
      · exact ⟨u, off, v, by simp [h], hd, hb, hv⟩
    have hpiece : (o.units[j]?).map CopyUnit.piece = some (off, u.m, v) := by rw [hu, Option.map_some, CopyUnit.piece_sp hd, hv, Option.getD_some]
    rw [List.foldl_cons, hw]
    refine ⟨by rw [hx, XOp.wrote_cons], hm, ?_⟩
    rw [hbl]
    simp only [piece_modUnit, List.filterMap_cons, hpiece]
    exact putPieces_blocks_congr (s := s.spPut b off u.m v) (t := s₁.spPut b off u.m v) rfl b _

theorem filterMap_range_getElem? {α β : Type} (l : List α) (f : α → β) : ((List.range l.length).filterMap fun j => (l[j]?).map f) = l.map f := by
  induction l with
  | nil => rfl
  | cons a l ih => simpa [List.range_succ_eq_map, List.filterMap_map, Function.comp_def] using ih

/-- R180, R248: the scratchpad side of a copy is written in one step. -/
theorem copy_writes_side {c id i : Nat} {s : State} {o : XOp} (ho : (s.core c).x? id = some o) (hk : o.kind = .copy) (hn : ∀ j, o.instr ≠ .cpa j)
    (hst : o.stage = .started) (hi : i < o.units.length) (harr : o.arrive = none) (hb : (s.block? o.block).isSome)
    (hall : ∀ u ∈ o.units, u.bad = false ∧ u.done = false ∧ u.data.isSome ∧ ∃ off, u.dst = .sp o.block off) (ha : Apart o.units) :
    ∃ t, exec (.xOpComplete c id (some i)) s = .next t ∧ t.hbm = s.hbm ∧ UnitsIn s t o.block o.units ∧
      ∃ o', (t.core c).x? id = some o' ∧ o'.units.all (·.done) = true := by
  obtain ⟨u, hu⟩ : ∃ u, o.units[i]? = some u := ⟨_, List.getElem?_eq_getElem hi⟩
  have hread : ∀ y ∈ o.units, y.unread = false := fun y hy => by
    obtain ⟨-, -, hdata, -⟩ := hall y hy
    simp [CopyUnit.unread, Option.isNone_eq_false_iff.2 hdata]
  obtain ⟨-, hdone, -, off, hd⟩ := hall u (List.mem_of_getElem? hu)
  have hc : canStep (s.core c) o i = true :=
    canStep_write (.inl hk) hn hu (by simp [CopyUnit.unwritten, hdone, hd]) (by simp [unitWritable, hd]) hread
  have hunits := stepUnits_write_sp hn hu hd
  have hx := x?_touch s c 4 (writeSides o (List.range o.units.length)) c id
  obtain ⟨hx', hm, hbl⟩ := writeUnits_sp (b := o.block) (List.range o.units.length) (hx.trans ho) fun j hj => by
    obtain ⟨y, hy⟩ : ∃ y, o.units[j]? = some y := ⟨_, List.getElem?_eq_getElem (List.mem_range.1 hj)⟩
    obtain ⟨hbad, -, hdata, x, hx⟩ := hall y (List.mem_of_getElem? hy)
    obtain ⟨v, hv⟩ := Option.isSome_iff_exists.1 hdata
    exact ⟨y, x, v, hy, hx, hbad, hv⟩
  have hex := exec_part ho (byUnits_of (.inl hk)) hst hc (laneFirst_other hn)
  rw [doStep_unwritten ho hu (hread u (List.mem_of_getElem? hu)), stepWrite_quiet ho (by
    rw [hunits, hx']
    intro p hp
    exact Option.some.inj hp ▸ harr), hunits] at hex
  have hq := quiet_touch s c 4 (writeSides o (List.range o.units.length)) c 0
  refine ⟨_, hex, hm.trans hq.1.hbm, unitsIn_of_pieces ?_ hb (fun u hu => (hall u hu).2.2.2) ha, _, hx', ?_⟩
  · rw [hbl, filterMap_range_getElem?]
    exact putPieces_blocks_congr hq.2 ..
  · rw [List.all_eq_true]
    intro y hy
    obtain ⟨k, hk, rfl⟩ := List.mem_mapIdx.1 hy
    simp [hk, CopyUnit.written]

/-! ## A lane of `cpa` -/

/-- A byte of the low bytes of a number is that byte of the number. -/
theorem digit_mod (v : Nat) {n j : Nat} (h : j < n) : v % 256 ^ n / 256 ^ j % 256 = v / 256 ^ j % 256 := by
  obtain ⟨d, rfl⟩ := Nat.exists_eq_add_of_lt h
  rw [show j + d + 1 = j + (d + 1) by omega, pow_add, Nat.mod_mul_right_div_self, Nat.mod_mod_of_dvd _ (Dvd.intro_left _ (pow_succ 256 d).symm)]

theorem kind_cpa {o : XOp} {j : XCOp} (h : o.instr = .cpa j) : o.kind = .copy := by simp [XOp.kind, h, tileTypes]

/-- A lane with no failed read writes both of its units (R187, R384). -/
theorem laneUnits_good {us : List CopyUnit} {i : Nat} (h : ∀ y ∈ laneReads us i, y.bad = false) :
    laneUnits us i = (List.range 2).map fun j => (j, unitsImage (laneReads us i) / 256 ^ (16 * j) % 256 ^ 16) := by
  have hbad : ∀ (j : Nat) (rs : List CopyUnit) (a : Nat), (∀ y ∈ rs, y.bad = false) →
      (rs.foldl (fun (r : Nat × Bool) u => (r.1 + u.n, r.2 || (u.bad && overlap r.1 u.n (16 * j) 16))) (a, false)).2 = false := by
    intro j rs
    induction rs with
    | nil => exact fun _ _ => rfl
    | cons u rs ih =>
      intro a hr
      rw [List.foldl_cons, hr u (List.mem_cons_self ..)]
      exact ih _ fun y hy => hr y (List.mem_cons_of_mem _ hy)
  simp only [laneUnits, hbad _ _ _ h, Bool.not_false, List.filter_true]

/-- R187: the lane of `cpa` that ends at a unit is written. -/
theorem cpa_writes {c id i off : Nat} {s : State} {o : XOp} {u : CopyUnit} {j : XCOp} (ho : (s.core c).x? id = some o) (hj : o.instr = .cpa j)
    (hst : o.stage = .started) (hu : o.units[i]? = some u) (hs : u.src = .nowhere) (hn : u.data = none) (hdone : u.done = false)
    (hd : u.dst = .sp o.block off) (hbefore : ∀ y ∈ o.units.take i, y.unread = false ∧ y.unwritten = false)
    (hgood : ∀ y ∈ laneReads o.units i, y.bad = false) (harr : o.arrive = none) (hb : (s.block? o.block).isSome) :
    ∃ t, exec (.xOpComplete c id (some i)) s = .next t ∧ t.hbm = s.hbm ∧
      (∀ x < 32, spByte t o.block (off + x) = unitsImage (laneReads o.units i) / 256 ^ x % 256) ∧
      ∀ b x, b ≠ o.block ∨ x < off ∨ off + 32 ≤ x → spByte t b x = spByte s b x := by
  have hun : u.unread = false := by simp [CopyUnit.unread, hs]
  have hc : canStep (s.core c) o i = true := by
    have hr : ((o.units.take i).all fun v => !v.unread) = true := List.all_eq_true.2 fun y hy => by simp [(hbefore y hy).1]
    have hw : ((o.units.take i).all fun v => !v.unwritten) = true := List.all_eq_true.2 fun y hy => by simp [(hbefore y hy).2]
    have huw : u.unwritten = true := by simp [CopyUnit.unwritten, hdone, hd]
    have hwr : unitWritable (s.core c) o u = true := by simp [unitWritable, hd]
    simp only [canStep, hu, hun, hj, hr, hw, kind_cpa hj, huw, hwr, Bool.false_eq_true, if_false, Bool.and_self]
  have hfirst : s.laneFirst o i = true := by
    unfold State.laneFirst
    rw [hj, hu, Option.map_some, hs]
  let s₁ := s.touch c 4 (writeSides o [i])
  have ho₁ : (s₁.core c).x? id = some o := (x?_touch ..).trans ho
  have hq := quiet_touch s c 4 (writeSides o [i]) c 0
  let ps := (laneUnits o.units i).map fun p => (off + 16 * p.1, 16, p.2)
  have hw : writeUnit c id i s₁ = (s₁.modX c id fun o => o.modUnit i CopyUnit.written).putPieces o.block ps := writeUnit_lane ho₁ hu hd hs hn
  obtain ⟨hm, hcores, -⟩ := putPieces_keeps (s₁.modX c id fun o => o.modUnit i CopyUnit.written) o.block ps
  have hx : ((writeUnit c id i s₁).core c).x? id = some (o.modUnit i CopyUnit.written) := by
    rw [hw, State.core, hcores]
    exact State.x?_modX ho₁ fun _ => XOp.modUnit_id ..
  have hex := exec_part ho (byUnits_of (.inl (kind_cpa hj))) hst hc hfirst
  rw [doStep_unwritten ho hu hun, stepWrite_quiet ho (by
    rw [stepUnits_cpa hj]
    intro p hp
    exact Option.some.inj (hx.symm.trans hp) ▸ harr), stepUnits_cpa hj, List.foldl_cons, List.foldl_nil, hw] at hex
  have hps : ps = [(off, 16, unitsImage (laneReads o.units i) % 256 ^ 16), (off + 16, 16, unitsImage (laneReads o.units i) / 256 ^ 16 % 256 ^ 16)] := by
    simp [ps, laneUnits_good hgood, List.range_succ]
  have hap : ps.Pairwise PiecesApart := by
    rw [hps, List.pairwise_pair]
    exact .inl (le_refl _)
  have hbl : ((s₁.modX c id fun o => o.modUnit i CopyUnit.written).putPieces o.block ps).blocks = (s.putPieces o.block ps).blocks :=
    putPieces_blocks_congr (s := s) (t := s₁.modX c id fun o => o.modUnit i CopyUnit.written) hq.2 ..
  have hlow (k : Nat) (hk : k < 16) : spByte (s.putPieces o.block ps) o.block (off + k) = unitsImage (laneReads o.units i) % 256 ^ 16 / 256 ^ k % 256 :=
    spByte_putPieces_in hb hap (by rw [hps]; exact List.mem_cons_self ..) hk
  have hhigh (k : Nat) (hk : k < 16) :
      spByte (s.putPieces o.block ps) o.block (off + 16 + k) = unitsImage (laneReads o.units i) / 256 ^ 16 % 256 ^ 16 / 256 ^ k % 256 :=
    spByte_putPieces_in hb hap (by rw [hps]; exact List.mem_cons_of_mem _ (List.mem_cons_self ..)) hk
  refine ⟨_, hex, hm.trans hq.1.hbm, fun x hx => ?_, fun b x hx => ?_⟩
  · rw [spByte_congr hbl]
    rcases Nat.lt_or_ge x 16 with h | h
    · rw [hlow x h, digit_mod _ h]
    · obtain ⟨y, rfl⟩ := Nat.exists_eq_add_of_le h
      have hy : y < 16 := by omega
      rw [← Nat.add_assoc, hhigh y hy, digit_mod _ hy, Nat.div_div_eq_div_mul, ← pow_add]
  · rw [spByte_congr hbl]
    refine spByte_putPieces_out (hx.imp_right fun h p hp => ?_)
    rw [hps] at hp
    simp only [List.mem_cons, List.not_mem_nil, or_false] at hp
    obtain rfl | rfl := hp <;> dsimp only <;> omega

end Sys2Proof.Machine
end

