-- ==== Sys2Proof/Proofs/EngineCompletions.lean ====
section
/-! PROOFS. Engine operations that complete: their last effect, the flag that falls, and the slots of rings that they release or count (R179, R190,
R197, R199 to R206, R210, R211). -/

namespace Sys2Proof.Machine
open Claim

/-! ## Rings -/

/-- Core `y` is core `x` but for the pointers of streams and the released slots. -/
def OnlyRings (x y : CoreSt) : Prop := ∃ a b, y = { x with streams := a, released := b }

/-- Two cores hold the same streams and the same released slots. -/
def SameRings (x y : CoreSt) : Prop := y.streams = x.streams ∧ y.released = x.released

theorem onlyRings_freeUp (n len fuel : Nat) {x y : CoreSt} (h : OnlyRings x y) : OnlyRings x (CoreSt.freeUp n len fuel y) := by
  induction fuel generalizing y with
  | zero => exact h
  | succ fuel ih =>
    rw [CoreSt.freeUp]
    split
    · refine ih ?_
      obtain ⟨_, _, rfl⟩ := h
      exact ⟨_, _, rfl⟩
    · exact h

/-- Releasing slots changes the pointers of streams and the released slots alone. -/
theorem onlyRings_release (x : CoreSt) (n len : Nat) (ps : List Nat) : OnlyRings x (x.release n len ps) := onlyRings_freeUp n len 64 ⟨_, _, rfl⟩

theorem onlyRings_trans {x y z : CoreSt} (h : OnlyRings x y) (g : OnlyRings y z) : OnlyRings x z := by
  obtain ⟨_, _, rfl⟩ := h
  obtain ⟨a, b, rfl⟩ := g
  exact ⟨a, b, rfl⟩

theorem sameRings_freeUp (n len fuel : Nat) {x y : CoreSt} (h : SameRings x y) : SameRings (CoreSt.freeUp n len fuel x) (CoreSt.freeUp n len fuel y) := by
  induction fuel generalizing x y with
  | zero => exact h
  | succ fuel ih =>
    obtain ⟨hs, hr⟩ := h
    have hstrm : ∀ k, y.strm n k = x.strm n k := fun k => by rw [CoreSt.strm, CoreSt.strm, hs]
    rw [CoreSt.freeUp, CoreSt.freeUp]
    simp only [hstrm, hr]
    split
    · refine ih ⟨?_, rfl⟩
      simp only [CoreSt.setStrm, hs]
    · exact ⟨hs, hr⟩

/-- What a release leaves of the rings depends on the rings alone. -/
theorem sameRings_release (n len : Nat) (ps : List Nat) {x y : CoreSt} (h : SameRings x y) : SameRings (x.release n len ps) (y.release n len ps) :=
  sameRings_freeUp n len 64 ⟨h.1, by rw [h.2]⟩

/-! ## The last effect -/

/-- What the last effect of operation `o` leaves, when it changes the streams of its core alone: `strs` are what they are then. -/
structure LastEffect (s t : State) (c : Nat) (o : XOp) (strs : FMap DWord) : Prop where
  op : ∃ p, (t.core c).x? o.id = some p ∧ p.slot = o.slot ∧ p.flag = o.flag
  quiet : Quiet s t c o.slot
  warp : t.warp? c o.slot = s.warp? c o.slot
  trace : t.trace = s.trace
  accs : (t.core c).accs = (s.core c).accs
  streams : (t.core c).streams = strs

theorem lastEffect_modCore {s : State} {c : Nat} {o : XOp} {f : CoreSt → CoreSt}
    (ho : ∃ p, (s.core c).x? o.id = some p ∧ p.slot = o.slot ∧ p.flag = o.flag) (hf : OnlyRings (s.core c) (f (s.core c))) : LastEffect s (s.modCore c f) c o (f (s.core c)).streams := by
  obtain ⟨a, b, h⟩ := hf
  have hw : (f (s.core c)).warps = (s.core c).warps := by rw [h]
  refine ⟨?_, quiet_modCore hw .., State.warp_modCore hw .., rfl, ?_, by rw [State.core_modCore]⟩
  · rw [State.core_modCore, h]
    exact ho
  · rw [State.core_modCore, h]

/-- An operation that may complete has its last effect, and is over. -/
theorem exec_finish {c id : Nat} {s : State} {o : XOp} {w : Warp} {strs : FMap DWord} (ho : (s.core c).x? id = some o)
    (hc : canFinish c o s = true) (ht : s.trace = none) (hw : s.warp? c o.slot = some w) (hl : LastEffect s (lastStep c o s) c o strs) :
    ∃ t w', exec (.xOpComplete c id none) s = .next t ∧ (∀ y ∈ (t.core c).xops, y.id ≠ id) ∧ t.warp? c o.slot = some w' ∧ SameRegs w w' ∧
      Quiet s t c o.slot ∧ (t.core c).accs = (s.core c).accs ∧ (∀ f, w'.flag f = w.flag f - if o.flag = f then 1 else 0) ∧
      (t.core c).streams = strs := by
  obtain rfl := CoreSt.x?_id ho
  have hcan : canXOpComplete c o.id none s = true := by simp [canXOpComplete, ho, hc]
  have hdo : doXOpComplete c o.id none s = (lastStep c o s).finishX c o.id := by simp [doXOpComplete, ho]
  obtain ⟨⟨p, hp, hslot, hflag⟩, hq, hwarp, htr, hacc, hstr⟩ := hl
  have hpid := CoreSt.x?_id hp
  rw [← hslot] at hwarp hw hq
  obtain ⟨hgone, ⟨w', hw', hregs, hflags⟩, hquiet, haccs, hstreams⟩ := finishX_ended hp (htr.trans ht) (hwarp.trans hw)
  rw [hpid] at hgone
  rw [hslot] at hw' hquiet hq
  exact ⟨_, w', (event_of hcan ..).trans (by rw [hdo]), hgone, hw', hregs, quiet_trans hq hquiet, haccs.trans hacc, by simpa [hflag] using hflags,
    hstreams.trans hstr⟩

theorem canFinish_nonempty {o : XOp} (h : o.tile = true ∨ o.units ≠ []) : (!o.tile && decide (o.units = [])) = false := by
  obtain h | h := h <;> simp [h]

/-! ## Completions -/

/-- R197, R199: a tile load counts the slot that it has filled. -/
theorem tld_completes {c id : Nat} {s : State} {o : XOp} {w : Warp} (ho : (s.core c).x? id = some o) (hk : o.kind = .tld) (hst : o.stage = .written)
    (hfin : o.finish ≤ s.cycle) (hu : o.units ≠ []) (hcl : o.claimA = [ptrTail ((s.core c).strm o.sa.n 2).toNat]) (ht : s.trace = none)
    (hw : s.warp? c o.slot = some w) :
    let q := ((s.core c).strm o.sa.n 2).toNat
    ∃ t w', exec (.xOpComplete c id none) s = .next t ∧ (∀ y ∈ (t.core c).xops, y.id ≠ id) ∧ t.warp? c o.slot = some w' ∧ SameRegs w w' ∧
      Quiet s t c o.slot ∧ (∀ f, w'.flag f = w.flag f - if o.flag = f then 1 else 0) ∧
      (t.core c).strm o.sa.n 2 = mkPtrs (ptrFree q) (ptrHead q) (ringAdvance o.sa.desc.len (ptrTail q) 1) (ptrRsv q) := by
  intro q
  have hc : canFinish c o s = true := by simp [canFinish, hu, hk, pushFirst, hcl, hst, hfin]
  have hl : lastStep c o s = s.modCore c fun x => x.pushed o.sa.n o.sa.desc.len := by simp [lastStep, hk]
  have hx : (s.core c).x? o.id = some o := by rw [CoreSt.x?_id ho]; exact ho
  obtain ⟨t, w', hex, hgone, hw', hregs, hq, -, hf, hstr⟩ :=
    exec_finish ho hc ht hw (hl ▸ lastEffect_modCore (f := fun x => x.pushed o.sa.n o.sa.desc.len) ⟨o, hx, rfl, rfl⟩ ⟨_, _, rfl⟩)
  refine ⟨t, w', hex, hgone, hw', hregs, hq, hf, ?_⟩
  rw [CoreSt.strm, hstr]
  exact FMap.getD_put_self ..

/-- The last effect of `xtile`: the answer of its link, where it has one, and its slot released (R201, R408). -/
theorem lastEffect_xtile {c : Nat} {s : State} {o : XOp} (ho : (s.core c).x? o.id = some o) (hk : o.kind = .xtile) :
    LastEffect s (lastStep c o s) c o ((s.core c).release o.sa.n o.sa.desc.len o.claimA).streams := by
  have hrel (t : State) (ht : ∃ p, (t.core c).x? o.id = some p ∧ p.slot = o.slot ∧ p.flag = o.flag) :=
    lastEffect_modCore (f := fun x => x.release o.sa.n o.sa.desc.len o.claimA) ht (onlyRings_release ..)
  simp only [lastStep, hk]
  split
  · next pa _ _ =>
    let s₁ := (s.linkReply pa).2.modX c o.id fun o => o.fail (s.linkReply pa).1
    have ho₁ : (s₁.core c).x? o.id = some (o.fail (s.linkReply pa).1) := State.x?_modX (s := (s.linkReply pa).2) ho fun _ => rfl
    have hrings : SameRings (s.core c) (s₁.core c) := by
      rw [State.core_modX]
      exact ⟨rfl, rfl⟩
    have haccs : (s₁.core c).accs = (s.core c).accs := by
      rw [State.core_modX]
      rfl
    have hwarps : ∀ d k, s₁.warp? d k = s.warp? d k := fun d k => State.warp_modX ..
    obtain ⟨hp, hq, hwarp, htr, hacc, hstr⟩ := hrel s₁ ⟨_, ho₁, rfl, rfl⟩
    have hq₁ : Quiet s s₁ c o.slot := ⟨⟨rfl, rfl, rfl, rfl, fun d k _ => hwarps d k⟩, rfl⟩
    exact ⟨hp, quiet_trans hq₁ hq, hwarp.trans (hwarps ..), htr, hacc.trans haccs, hstr.trans (sameRings_release _ _ _ hrings).1⟩
  · exact hrel s ⟨o, ho, rfl, rfl⟩

theorem lastEffect_refl {c : Nat} {s : State} {o : XOp} (ho : (s.core c).x? o.id = some o) : LastEffect s s c o (s.core c).streams :=
  ⟨⟨o, ho, rfl, rfl⟩, quiet_refl .., rfl, rfl, rfl, rfl⟩

/-- How far an operation that takes no further step of its own must be to complete (R179, R200 to R203, R208). -/
def XOp.Over (o : XOp) (now : Nat) : Prop :=
  (o.kind = .tst ∧ o.stage = .performed) ∨ (o.kind = .xtile ∧ (o.stage = .performed ∨ o.stage = .sent)) ∨
    (o.kind = .drain ∧ o.stage = .written ∧ o.finish ≤ now) ∨ (o.kind = .tstac ∧ o.stage = .performed ∧ o.finish ≤ now) ∨
    (o.kind ∈ [.mma, .tzero, .sadv, .sreset] ∧ o.stage = .started ∧ o.finish ≤ now)

theorem canFinish_over {c : Nat} {s : State} {o : XOp} (hu : o.tile = true ∨ o.units ≠ []) (h : o.Over s.cycle) : canFinish c o s = true := by
  have hne := canFinish_nonempty hu
  obtain ⟨hk, hst⟩ | ⟨hk, hst⟩ | ⟨hk, hst, hf⟩ | ⟨hk, hst, hf⟩ | ⟨hk, hst, hf⟩ := h
  · simp [canFinish, hne, hk, hst]
  · simpa [canFinish, hne, hk] using hst
  · simp [canFinish, hne, hk, hst, hf]
  · simp [canFinish, hne, hk, hst, hf]
  · simp only [List.mem_cons, List.not_mem_nil, or_false] at hk
    obtain hk | hk | hk | hk := hk <;> simp [canFinish, hne, hk, hst, hf]

/-- R179, R197, R200 to R203, R206, R210: an operation that is done completes, and its slots are released. -/
theorem over_completes {c id : Nat} {s : State} {o : XOp} {w : Warp} (ho : (s.core c).x? id = some o) (hu : o.tile = true ∨ o.units ≠ [])
    (h : o.Over s.cycle) (ht : s.trace = none) (hw : s.warp? c o.slot = some w) :
    ∃ t w', exec (.xOpComplete c id none) s = .next t ∧ (∀ y ∈ (t.core c).xops, y.id ≠ id) ∧ t.warp? c o.slot = some w' ∧ SameRegs w w' ∧
      Quiet s t c o.slot ∧ (t.core c).accs = (s.core c).accs ∧ (∀ f, w'.flag f = w.flag f - if o.flag = f then 1 else 0) ∧
      (t.core c).streams = (match o.kind with
        | .tst | .xtile => (s.core c).release o.sa.n o.sa.desc.len o.claimA
        | .mma => ((s.core c).release o.sa.n o.sa.desc.len o.claimA).release o.sb.n o.sb.desc.len o.claimB
        | _ => s.core c).streams := by
  have hc := canFinish_over (c := c) hu h
  have hx : (s.core c).x? o.id = some o := by rw [CoreSt.x?_id ho]; exact ho
  have hrefl : lastStep c o s = s → LastEffect s (lastStep c o s) c o (s.core c).streams := fun hs => by
    rw [hs]
    exact lastEffect_refl hx
  refine exec_finish ho hc ht hw ?_
  obtain ⟨hk, -⟩ | ⟨hk, -⟩ | ⟨hk, -⟩ | ⟨hk, -⟩ | ⟨hk, -⟩ := h
  · simp only [hk, lastStep]
    exact lastEffect_modCore (f := fun x => x.release o.sa.n o.sa.desc.len o.claimA) ⟨o, hx, rfl, rfl⟩ (onlyRings_release ..)
  · simp only [hk]
    exact lastEffect_xtile hx hk
  · simp only [hk]
    exact hrefl (by simp [lastStep, hk])
  · simp only [hk]
    exact hrefl (by simp [lastStep, hk])
  · simp only [List.mem_cons, List.not_mem_nil, or_false] at hk
    obtain hk | hk | hk | hk := hk
    · simp only [hk, lastStep]
      exact lastEffect_modCore (f := fun x => (x.release o.sa.n o.sa.desc.len o.claimA).release o.sb.n o.sb.desc.len o.claimB) ⟨o, hx, rfl, rfl⟩
        (onlyRings_trans (onlyRings_release ..) (onlyRings_release ..))
    all_goals
      simp only [hk]
      exact hrefl (by simp [lastStep, hk])

end Sys2Proof.Machine
end

