-- ==== Sys2Proof/Proofs/WholeTransfers.lean ====
section
/-! PROOFS. Transfers that take the steps they have left as they complete: a copy of one unit, and the elements of `tload` (R179, R180, R204). -/

namespace Sys2Proof.Machine
open Claim

/-! ## A copy of one unit -/

/-- A byte of a number read from memory is that byte of memory. -/
theorem getBytes_byte (d : Nat → Byte) (l : List Host.Cell) (a n : Nat) {j : Nat} (h : j < n) :
    getBytes d l a n / 256 ^ j % 256 = (byteAt d l (a + j)).toNat := by
  induction n generalizing a j with
  | zero => omega
  | succ n ih =>
    have hb : (byteAt d l a).toNat < 256 := (byteAt d l a).isLt
    rw [getBytes]
    cases j with
    | zero => simp only [pow_zero, Nat.div_one, Nat.add_zero]; omega
    | succ j =>
      rw [pow_succ', ← Nat.div_div_eq_div_mul, Nat.add_mul_div_left _ _ (by norm_num : 0 < 256), Nat.div_eq_of_lt hb, Nat.zero_add, ih (a + 1) (by omega)]
      congr 2
      omega

theorem devGet_byte (s : State) {a n j : Nat} (hn : a + n ≤ Config.hbmBytes) (hj : j < n) : s.devGet a n / 256 ^ j % 256 = s.devGet (a + j) 1 := by
  rw [State.devGet, State.devGet, backed_of_le hn, backed_of_le (by omega), Memory.get, Memory.get, getBytes_byte _ _ _ _ hj]
  simp [getBytes]

section
variable {c id : Nat} {s : State} {o : XOp} {w : Warp} {pa : Pa} {ms : Bool} {a b off n : Nat}

/-- The one unit of the copy. -/
def oneUnit (pa : Pa) (ms : Bool) (b off n : Nat) (data : Option Nat) : CopyUnit := ⟨.glob pa ms, .sp b off, n, n, data, false, false⟩

/-- R180: a copy of one unit is read, and then written. -/
theorem restSteps_one (ho : (s.core c).x? id = some o) (hn : ∀ i, o.instr ≠ .cpa i) (hu : o.units = [oneUnit pa ms b off n none])
    (ha : s.localAddr pa = some a) (hp : s.poisonOf a n = none) (hf : (s.core c).fifo = []) (harr : o.arrive = none) :
    ∃ r, restSteps c id s =
      ((((s.readAt a n (slotCode ms 0) (o.requester c)).modX c id fun o => o.modUnit 0 (CopyUnit.holding (s.devGet a n))).touch c 4 r).modX c id
        fun o => o.modUnit 0 CopyUnit.written).spPut b off n (s.devGet a n) := by
  let v := s.devGet a n
  let s₁ := (s.readAt a n (slotCode ms 0) (o.requester c)).modX c id fun o => o.modUnit 0 (CopyUnit.holding v)
  let o₁ := o.modUnit 0 (CopyUnit.holding v)
  have hu₀ : o.units[0]? = some (oneUnit pa ms b off n none) := by rw [hu]; rfl
  have hu₁ : o₁.units = [oneUnit pa ms b off n (some v)] := by
    simp only [o₁, XOp.modUnit, hu]
    rfl
  have hu₁' : o₁.units[0]? = some (oneUnit pa ms b off n (some v)) := by rw [hu₁]; rfl
  have hread : stepRead c id 0 s = s₁ := (stepRead_glob ho hu₀ rfl).trans (readUnit_glob ho hu₀ rfl ha hp hf)
  have ho₁ : (s₁.core c).x? id = some o₁ := State.x?_modX (((keepsEngines_readAt ..).x? c id).trans ho) fun _ => XOp.modUnit_id ..
  have hside : stepUnits o₁ 0 true = [0] := (stepUnits_write_sp (o := o₁) hn hu₁' (b := b) (off := off) rfl).trans (by rw [hu₁]; rfl)
  let r := writeSides o₁ [0]
  have ho₂ : ((s₁.touch c 4 r).core c).x? id = some o₁ := (x?_touch ..).trans ho₁
  have hw := writeUnit_sp ho₂ hu₁' rfl rfl rfl
  have hwrite : stepWrite c id 0 s₁ = writeUnit c id 0 (s₁.touch c 4 r) := by
    rw [stepWrite_quiet ho₁ ?_, hside]
    · rfl
    · rw [hside]
      intro p hp
      rw [List.foldl_cons, List.foldl_nil, hw] at hp
      exact Option.some.inj ((State.x?_modX ho₂ fun _ => XOp.modUnit_id ..).symm.trans hp) ▸ harr
  refine ⟨r, ?_⟩
  have hlen : List.range o.units.length = [0] := by rw [hu]; rfl
  simp only [restSteps, ho, hlen, List.foldl_cons, List.foldl_nil, Option.bind_some, hu₀]
  rw [if_pos (by rfl), hread, ho₁, Option.bind_some, hu₁']
  exact (if_pos rfl).trans (hwrite.trans hw)

/-- R179, R180: a copy of one unit from device memory moves its bytes as it completes. -/
theorem copy_completes (ho : (s.core c).x? id = some o) (hk : o.kind = .copy) (hn : ∀ i, o.instr ≠ .cpa i) (hst : o.stage = .started)
    (hu : o.units = [oneUnit pa ms b off n none]) (ha : s.localAddr pa = some a) (hm : a + n ≤ Config.hbmBytes) (hp : s.poisonOf a n = none)
    (hul : Unlogged s) (hf : (s.core c).fifo = []) (hwp : writesPending (s.core c) o pa n = false) (harr : o.arrive = none)
    (ht : s.trace = none) (hw : s.warp? c o.slot = some w) (hb : (s.block? b).isSome) :
    ∃ t w', exec (.xOpComplete c id none) s = .next t ∧ t.hbm = s.hbm ∧ (∀ q ∈ (t.core c).xops, q.id ≠ id) ∧ t.warp? c o.slot = some w' ∧
      SameRegs w w' ∧ (∀ f, w'.flag f = w.flag f - if o.flag = f then 1 else 0) ∧
      ∀ d x, spByte t d x = if d = b ∧ off ≤ x ∧ x < off + n then s.devGet (a + (x - off)) 1 else spByte s d x := by
  obtain rfl := CoreSt.x?_id ho
  have hready : restReady (s.core c) o = true := by
    simp [restReady, hu, oneUnit, unitReadable, unitWritable, fifoClear, hf, hwp]
  have hc : canXOpComplete c o.id none s = true := by simp [canXOpComplete, ho, canFinish, hk, hst, hready, hu]
  obtain ⟨r, hrest⟩ := restSteps_one ho hn hu ha hp hf harr
  have hdo : doXOpComplete c o.id none s = (restSteps c o.id s).finishX c o.id := by simp [doXOpComplete, ho, lastStep, hk]
  let s₀ := s.readAt a n (slotCode ms 0) (o.requester c)
  let s₁ := s₀.modX c o.id fun o => o.modUnit 0 (CopyUnit.holding (s.devGet a n))
  let s₂ := (s₁.touch c 4 r).modX c o.id fun o => o.modUnit 0 CopyUnit.written
  let s₃ := s₂.spPut b off n (s.devGet a n)
  have hq := quiet_touch s₁ c 4 r c 0
  have h₀ := onlyL2_readAt hul hm (slotCode ms 0) (o.requester c)
  have hkeep := keepsEngines_readAt s a n (slotCode ms 0) (o.requester c)
  obtain ⟨o₃, ho₃, hslot, hflag⟩ : ∃ p, (s₃.core c).x? o.id = some p ∧ p.slot = o.slot ∧ p.flag = o.flag :=
    ⟨_, State.x?_modX ((x?_touch ..).trans (State.x?_modX ((hkeep.x? c o.id).trans ho) fun _ => XOp.modUnit_id ..)) fun _ => XOp.modUnit_id .., rfl, rfl⟩
  have hwarp : s₃.warp? c o₃.slot = some w := by
    rw [hslot]
    have h₂ : s₃.warp? c o.slot = s₀.warp? c o.slot := (State.warp_modX ..).trans ((warp_touch ..).trans (State.warp_modX ..))
    obtain ⟨_, _, hl2⟩ := h₀
    rw [h₂, show s₀ = _ from hl2]
    exact hw
  have htr : s₃.trace = none := ((trace_touch s₁ c 4 r).trans hkeep.trace).trans ht
  obtain ⟨hgone, ⟨w', hw', hregs, hflags⟩, hquiet, -, -⟩ := finishX_ended ho₃ htr hwarp
  rw [CoreSt.x?_id ho₃] at hgone
  rw [hslot] at hw'
  have hmem : s₃.hbm = s.hbm := hq.1.hbm.trans (readAt_hbm hul ..)
  have hblocks : s₂.blocks = s.blocks := hq.2.trans hkeep.blocks
  refine ⟨_, w', (event_of hc ..).trans (by rw [hdo, hrest]), hquiet.1.hbm.trans hmem, hgone, hw', hregs, by simpa [hflag] using hflags, fun d x => ?_⟩
  rw [spByte_congr hquiet.2]
  split
  · next h =>
    obtain ⟨rfl, hlo, hhi⟩ := h
    obtain ⟨j, rfl⟩ := Nat.exists_eq_add_of_le hlo
    have hb₂ : (s₂.block? d).isSome := by rwa [State.block?, hblocks]
    rw [spByte_spPut_in hb₂ off n _ (by omega), devGet_byte s hm (by omega), Nat.add_sub_cancel_left]
  · next h => exact (spByte_spPut_out s₂ _ (by omega)).trans (spByte_congr hblocks d x)

end

/-! ## The elements of `tload` -/

/-- The accumulators of `x` with the data of the first `k` units of `us` in the elements of a tile. -/
structure TileLoaded (x : FMap (BitVec 128)) (us : List CopyUnit) (tile k : Nat) (y : FMap (BitVec 128)) : Prop where
  elems : ∀ (j : Nat) (u : CopyUnit) v, j < k → us[j]? = some u → u.data = some v → FMap.getD y (tile * 4096 + j) 0 = BitVec.ofNat 128 v
  others : ∀ e, e < tile * 4096 ∨ tile * 4096 + k ≤ e → FMap.getD y e 0 = FMap.getD x e 0

theorem tileLoaded_put {x y : FMap (BitVec 128)} {us : List CopyUnit} {tile k v : Nat} {u : CopyUnit} (h : TileLoaded x us tile k y)
    (hu : us[k]? = some u) (hv : u.data = some v) : TileLoaded x us tile (k + 1) (FMap.put y (tile * 4096 + k) (BitVec.ofNat 128 v) 0) := by
  refine ⟨fun j u' v' hj hu' hv' => ?_, fun e he => ?_⟩
  · rcases Nat.lt_succ_iff_lt_or_eq.1 hj with hj | rfl
    · rw [FMap.getD_put_ne _ _ _ _ (by omega), h.elems j u' v' hj hu' hv']
    · obtain rfl := Option.some.inj (hu.symm.trans hu')
      rw [Option.some.inj (hv.symm.trans hv'), FMap.getD_put_self]
  · rw [FMap.getD_put_ne _ _ _ _ (by omega), h.others e (by omega)]

/-- Write unit `i` if it has still to be written. -/
def writeRest (c id : Nat) (s : State) (i : Nat) : State := match ((s.core c).x? id).bind fun o => o.units[i]? with
  | some u => if u.unwritten then stepWrite c id i s else s
  | none => s

/-- Read unit `i` if it has still to be read. -/
def readRest (c id : Nat) (s : State) (i : Nat) : State := match ((s.core c).x? id).bind fun o => o.units[i]? with
  | some u => if u.unread then stepRead c id i s else s
  | none => s

theorem restSteps_eq {c id : Nat} {s : State} {o : XOp} (ho : (s.core c).x? id = some o) :
    restSteps c id s = (List.range o.units.length).foldl (writeRest c id) ((List.range o.units.length).foldl (readRest c id) s) := by
  simp only [restSteps, ho]
  rfl

/-- An operation with every unit read reads nothing more. -/
theorem readRest_done {c id : Nat} {s : State} {o : XOp} (ho : (s.core c).x? id = some o) (hr : ∀ u ∈ o.units, u.unread = false) (i : Nat) :
    readRest c id s i = s := by
  unfold readRest
  rw [ho, Option.bind_some]
  split
  · next u hu => rw [hr u (List.mem_of_getElem? hu), if_neg Bool.false_ne_true]
  · rfl

/-- The state of a `tload` that has written its first `k` elements. -/
structure Loading (s t : State) (c id : Nat) (o : XOp) (tile k : Nat) : Prop where
  op : (t.core c).x? id = some (o.wrote (List.range k))
  quiet : Quiet s t c o.slot
  warp : t.warp? c o.slot = s.warp? c o.slot
  trace : t.trace = s.trace
  accs : TileLoaded (s.core c).accs o.units tile k (t.core c).accs

theorem wrote_unit {o : XOp} {k : Nat} {u : CopyUnit} (hu : o.units[k]? = some u) : (o.wrote (List.range k)).units[k]? = some u := by
  simp [XOp.wrote, hu]

theorem wrote_next (o : XOp) (k : Nat) : (o.wrote (List.range k)).modUnit k CopyUnit.written = o.wrote (List.range (k + 1)) := by
  unfold XOp.wrote XOp.modUnit
  congr 1
  refine List.ext_getElem? fun j => ?_
  by_cases h : k = j
  · subst h
    simp
  · have hiff : j ≤ k ↔ j < k := by omega
    simp [h, hiff]

theorem loading_next {s t : State} {c id tile k : Nat} {o : XOp} (h : Loading s t c id o tile k) {u : CopyUnit} {v : Nat} (hu : o.units[k]? = some u)
    (hd : u.dst = .acc tile k) (hv : u.data = some v) (hb : u.bad = false) (hn : u.done = false) :
    Loading s (writeRest c id t k) c id o tile (k + 1) := by
  obtain ⟨hop, hq, hw, htr, hacc⟩ := h
  have huk := wrote_unit hu
  let t₁ := t.modX c id fun o => o.modUnit k CopyUnit.written
  have hstep : writeRest c id t k = t₁.modCore c fun x => { x with accs := FMap.put x.accs (tile * 4096 + k) (BitVec.ofNat 128 v) 0 } := by
    unfold writeRest
    rw [hop, Option.bind_some, huk]
    exact (if_pos (by simp [CopyUnit.unwritten, hn, hd])).trans
      ((stepWrite_other hop huk (by simp [hd, Loc.inSp])).trans (writeUnit_acc hop huk hd hb hv))
  have hop₁ : (t₁.core c).x? id = some (o.wrote (List.range (k + 1))) := by
    rw [← wrote_next]
    exact State.x?_modX hop fun _ => XOp.modUnit_id ..
  rw [hstep]
  refine ⟨?_, quiet_trans hq (quiet_trans (quiet_modCore rfl ..) (quiet_modCore rfl ..)),
    ((State.warp_modCore rfl ..).trans (State.warp_modX ..)).trans hw, htr, ?_⟩
  · rw [State.core_modCore]
    exact hop₁
  · rw [State.core_modCore]
    have hacc₁ : (t₁.core c).accs = (t.core c).accs := by
      rw [State.core_modX]
    show TileLoaded _ _ _ _ (FMap.put (t₁.core c).accs _ _ _)
    rw [hacc₁]
    exact tileLoaded_put hacc hu hv

theorem loading_range {s : State} {c id tile : Nat} {o : XOp} (ho : (s.core c).x? id = some o)
    (hall : ∀ (k : Nat) (u : CopyUnit), o.units[k]? = some u → u.dst = .acc tile k ∧ u.data.isSome ∧ u.bad = false ∧ u.done = false) (k : Nat)
    (hk : k ≤ o.units.length) : Loading s ((List.range k).foldl (writeRest c id) s) c id o tile k := by
  induction k with
  | zero => exact ⟨by rw [List.range_zero, XOp.wrote_nil]; exact ho, quiet_refl .., rfl, rfl, ⟨fun _ _ _ h => absurd h (Nat.not_lt_zero _), fun _ _ => rfl⟩⟩
  | succ k ih =>
    obtain ⟨u, hu⟩ : ∃ u, o.units[k]? = some u := ⟨_, List.getElem?_eq_getElem hk⟩
    obtain ⟨hd, hdata, hb, hn⟩ := hall k u hu
    obtain ⟨v, hv⟩ := Option.isSome_iff_exists.1 hdata
    rw [List.range_succ, List.foldl_concat]
    exact loading_next (ih (Nat.le_of_succ_le hk)) hu hd hv hb hn

/-- R204: `tload` writes the elements of its accumulator as it completes. -/
theorem tload_completes {c id tile : Nat} {s : State} {o : XOp} {w : Warp} (ho : (s.core c).x? id = some o) (hk : o.kind = .tload) (hti : o.tile = true)
    (hst : o.stage = .started) (hfin : o.finish ≤ s.cycle) (ht : s.trace = none)
    (hall : ∀ (k : Nat) (u : CopyUnit), o.units[k]? = some u → u.dst = .acc tile k ∧ u.data.isSome ∧ u.bad = false ∧ u.done = false)
    (hw : s.warp? c o.slot = some w) :
    ∃ t w', exec (.xOpComplete c id none) s = .next t ∧ (∀ y ∈ (t.core c).xops, y.id ≠ id) ∧ t.warp? c o.slot = some w' ∧ SameRegs w w' ∧
      Quiet s t c o.slot ∧ (∀ f, w'.flag f = w.flag f - if o.flag = f then 1 else 0) ∧
      (∀ (k : Nat) (u : CopyUnit) v, o.units[k]? = some u → u.data = some v → FMap.getD (t.core c).accs (tile * 4096 + k) 0 = BitVec.ofNat 128 v) ∧
      ∀ e, e < tile * 4096 ∨ tile * 4096 + o.units.length ≤ e → FMap.getD (t.core c).accs e 0 = FMap.getD (s.core c).accs e 0 := by
  obtain rfl := CoreSt.x?_id ho
  have hunit : ∀ u ∈ o.units, u.unread = false ∧ ∀ x, unitWritable x o u = true := fun u hu => by
    obtain ⟨k, hu⟩ := List.mem_iff_getElem?.1 hu
    obtain ⟨hd, hdata, -, -⟩ := hall k u hu
    exact ⟨by simp [CopyUnit.unread, Option.isNone_eq_false_iff.2 hdata], fun x => by simp [unitWritable, hd]⟩
  have hready : restReady (s.core c) o = true := List.all_eq_true.2 fun u hu => by simp [(hunit u hu).1, (hunit u hu).2]
  have hc : canXOpComplete c o.id none s = true := by simp [canXOpComplete, ho, canFinish, hk, hti, hst, hfin, hready]
  let tile' := match xcOf o.instr with
    | some i => llAcc i
    | none => 0
  let s₀ := { s with faulty := s.faulty.filter fun e => match e with
    | .acc c' t _ => !(c' = c && t = tile')
    | _ => true }
  have hl : lastStep c o s = restSteps c o.id s₀ := by simp only [lastStep, hk]; rfl
  have hdo : doXOpComplete c o.id none s = (restSteps c o.id s₀).finishX c o.id := by simp only [doXOpComplete, ho, hl]
  have ho₀ : (s₀.core c).x? o.id = some o := ho
  have hrest : restSteps c o.id s₀ = (List.range o.units.length).foldl (writeRest c o.id) s₀ := by
    rw [restSteps_eq ho₀, List.foldl_fixed' (readRest_done ho₀ fun u hu => (hunit u hu).1)]
  obtain ⟨hop, hq, hwarp, htr, hacc⟩ := loading_range ho₀ hall o.units.length le_rfl
  obtain ⟨hgone, ⟨w', hw', hregs, hflags⟩, hquiet, haccs, -⟩ := finishX_ended (o := o.wrote (List.range o.units.length)) hop (htr.trans ht) (hwarp.trans hw)
  have hq₀ : Quiet s s₀ c o.slot := ⟨⟨rfl, rfl, rfl, rfl, fun _ _ _ => rfl⟩, rfl⟩
  refine ⟨_, w', (event_of hc ..).trans (by rw [hdo, hrest]), hgone, hw', hregs, quiet_trans hq₀ (quiet_trans hq hquiet), hflags, fun k u v hu hv => ?_,
    fun e he => ?_⟩
  · rw [haccs]
    exact hacc.elems k u v (List.getElem?_eq_some_iff.1 hu).1 hu hv
  · rw [haccs]
    exact hacc.others e he

end Sys2Proof.Machine
end

