-- ==== Sys2Proof/Proofs/EngineMoves.lean ====
section
/-! PROOFS. Starts of the copy queue, the moves that tile transfers make in one step of their own, and multicasts (R180, R190, R191, R197, R199 to R203,
R263, R361). -/

namespace Sys2Proof.Machine
open Claim

/-! ## Lines that ask for their locks -/

theorem find_wanted (ls : List Nat) (m : FMap LockPhase) (l : Nat) :
    FMap.find (ls.foldl (fun (m : FMap LockPhase) l => FMap.set m l .wanted) m) l = some .wanted ↔ l ∈ ls ∨ FMap.find m l = some .wanted := by
  induction ls generalizing m with
  | nil => simp
  | cons a ls ih =>
    rw [List.foldl_cons, ih]
    by_cases h : l = a
    · subst h
      simp
    · simp [h, FMap.find_set_ne m _ h]

theorem mem_linesOf (ps : List (Pa × Nat)) (l : Nat) :
    l ∈ linesOf ps ↔ ∃ p ∈ ps, p.2 ≠ 0 ∧ p.1.addr / 128 ≤ l ∧ l ≤ (p.1.addr + p.2 - 1) / 128 := by
  rw [linesOf, List.mem_eraseDups, List.mem_flatMap]
  refine exists_congr fun p => and_congr_right fun _ => ?_
  by_cases h : p.2 = 0
  · simp [h]
  · have hle : p.1.addr / 128 ≤ (p.1.addr + p.2 - 1) / 128 := Nat.div_le_div_right (by omega)
    rw [if_neg h, List.mem_map]
    constructor
    · rintro ⟨i, hi, rfl⟩
      rw [List.mem_range] at hi
      exact ⟨h, by omega, by omega⟩
    · rintro ⟨-, hlo, hhi⟩
      exact ⟨l - p.1.addr / 128, List.mem_range.2 (by omega), by omega⟩

/-- The state with one transaction more, the next identity of which is `n`. -/
def State.withTx (s : State) (x : Tx) (n : Nat) : State := { s with txs := s.txs ++ [x], nextId := n }

/-- A transaction that is opened (R263). -/
theorem openTx_of (s : State) (req : Nat) (store : Bool) (c op : Nat) (ps : List (Pa × Nat)) (now : Nat) :
    ∃ x n, s.openTx req store c op none ps [] [] now = (x.id, s.withTx x n) ∧ x.store = store ∧ x.req = req ∧ x.core = c ∧
      x.op = op ∧ x.port = none ∧ ∀ l, FMap.find x.lines l = some .wanted ↔ ∃ p ∈ ps, p.2 ≠ 0 ∧ p.1.addr / 128 ≤ l ∧ l ≤ (p.1.addr + p.2 - 1) / 128 := by
  refine ⟨{ id := s.nextId, ts := 0, req := req, store := store, core := c, op := op, port := none,
            lines := (linesOf ps).foldl (fun (m : FMap LockPhase) l => FMap.set m l .wanted) [], rows := [], attempt := 0, resume := now, lens := [] },
    s.nextId + 1, rfl, rfl, rfl, rfl, rfl, rfl, fun l => ?_⟩
  rw [find_wanted, mem_linesOf]
  simp [FMap.find]

/-! ## Starts -/

section
variable {c id : Nat} {s : State} {o : XOp}

theorem exec_copyStart (hc : canCopyStart c id s = true) : exec (.copyStart c id) s = .next (doCopyStart c id s) := event_of hc ..

/-- R180: a copy, a multicast or a reduction starts. -/
theorem copy_starts (ho : (s.core c).x? id = some o) (hc : canCopyStart c id s = true) (h₁ : o.kind ≠ .tld) (h₂ : o.kind ≠ .tst) (h₃ : o.kind ≠ .xtile)
    (ht : s.trace = none) : exec (.copyStart c id) s = .next (s.modX c id fun o => { o with stage := .started, begun := s.cycle }) := by
  rw [exec_copyStart hc, doCopyStart, ho]
  dsimp only
  rw [State.traceX_off ht]
  split
  · exact absurd ‹_› h₁
  · exact absurd ‹_› h₂
  · exact absurd ‹_› h₃
  · rfl

/-- R199, R263: a tile load opens its transaction. -/
theorem tld_starts (ho : (s.core c).x? id = some o) (hc : canCopyStart c id s = true) (hk : o.kind = .tld) (ht : s.trace = none) :
    ∃ t x, exec (.copyStart c id) s = .next t ∧ t.txs = s.txs ++ [x] ∧ x.store = false ∧ x.req = 2 * c ∧ x.core = c ∧ x.op = id ∧ x.port = none ∧
      (∀ l, FMap.find x.lines l = some .wanted ↔
        ∃ p ∈ s.globPieces o.units, p.2 ≠ 0 ∧ p.1.addr / 128 ≤ l ∧ l ≤ (p.1.addr + p.2 - 1) / 128) ∧
      (t.core c).x? id = some { o with tx := some x.id, begun := s.cycle } ∧ t.hbm = s.hbm ∧ t.blocks = s.blocks := by
  obtain ⟨x, n, hopen, hstore, hreq, hcore, hop, hport, hlines⟩ := openTx_of s (2 * c) false c id (s.globPieces o.units) s.cycle
  have hdo : doCopyStart c id s = (s.withTx x n).modX c id fun o => { o with tx := some x.id, begun := s.cycle } := by
    rw [doCopyStart, ho]
    dsimp only
    rw [State.traceX_off ht, hk]
    dsimp only
    rw [hopen]
    rfl
  have hex := exec_copyStart hc
  rw [hdo] at hex
  exact ⟨_, x, hex, rfl, hstore, hreq, hcore, hop, hport, hlines, State.x?_modX (s := s.withTx x n) ho, rfl, rfl⟩

end

/-- The tile that a store takes: its slot, the core after the claim, and its offset (R197, R200). -/
structure Source where
  slots : List Nat
  core : CoreSt
  off : Nat

/-- The source of a tile store: the tile at the head of a ring, or bytes of the scratchpad. -/
def XOp.source (o : XOp) (x : CoreSt) : Source :=
  let r := x.claim o.sa.n o.sa.desc.len 1
  if o.ringSource then ⟨r.1, r.2, o.sa.desc.slotOff (ptrHead (x.strm o.sa.n 2).toNat)⟩ else ⟨[], x, o.src.toNat⟩

/-- The byte range of the source. -/
def XOp.sourceBytes (o : XOp) (x : CoreSt) : List (Nat × Nat) := [((o.source x).off, o.sa.desc.tileBytes)]

/-- The state once the scratchpad step has read the source (R361). -/
def State.sourced (s : State) (c : Nat) (o : XOp) : State := (s.setCore c (o.source (s.core c)).core).engineStep c 7 (o.sourceBytes (s.core c))

/-- The operation with the tile it has taken. -/
def State.takes (s : State) (c : Nat) (o p : XOp) : XOp :=
  { p with claimA := (o.source (s.core c)).slots, stage := .started, begun := s.cycle,
           finish := (s.sourced c o).heldUntil c (o.sourceBytes (s.core c)),
           units := imageUnits (s.spGet o.block (o.source (s.core c)).off o.sa.desc.tileBytes) p.units }

/-- Whether some place that a tile store writes lies on another device (R201). -/
def XOp.leaves (o : XOp) (s : State) : Bool := o.units.any fun u => match u.dst with
  | .glob p _ => s.remote p
  | _ => true

/-- A tile store with a readable source takes it, and opens its transaction when every place is on this device. -/
theorem takeTile_eq {s : State} {c : Nat} {o : XOp} (hf : s.spFaulty o.block (o.source (s.core c)).off o.sa.desc.tileBytes = false) :
    let t := (s.sourced c o).modX c o.id (s.takes c o)
    let r := t.openTx (2 * c) true c o.id none (t.globPieces o.units) [] [] ((s.sourced c o).heldUntil c (o.sourceBytes (s.core c)))
    s.takeTile c o = if o.leaves s then t else r.2.modX c o.id fun p => { p with tx := some r.1 } := by
  unfold State.takes State.sourced XOp.sourceBytes
  unfold XOp.source at hf ⊢
  unfold State.takeTile
  cases hr : o.ringSource <;>
  · rw [hr] at hf
    simp only [Bool.false_eq_true, if_true, if_false] at hf ⊢
    exact if_neg (by rw [Bool.not_eq_true]; exact hf)

theorem onlyRings_source (o : XOp) (x : CoreSt) : OnlyRings x (o.source x).core := by
  unfold XOp.source
  dsimp only
  split
  · exact ⟨_, _, rfl⟩
  · exact ⟨_, _, rfl⟩

theorem sourced_frame (s : State) (c : Nat) (o : XOp) : (s.sourced c o).hbm = s.hbm ∧ (s.sourced c o).blocks = s.blocks ∧
    (s.sourced c o).txs = s.txs ∧ ((s.sourced c o).core c).streams = (o.source (s.core c)).core.streams ∧
    ∀ id, ((s.sourced c o).core c).x? id = (s.core c).x? id := by
  obtain ⟨_, _, hcore⟩ := core_engineStep (s.setCore c (o.source (s.core c)).core) c 7 (o.sourceBytes (s.core c)) c
  rw [State.core_setCore_self] at hcore
  refine ⟨rfl, rfl, rfl, by rw [State.sourced, hcore], fun id => ?_⟩
  obtain ⟨_, _, hsrc⟩ := onlyRings_source o (s.core c)
  have hx : ((s.sourced c o).core c).xops = (s.core c).xops := by
    rw [State.sourced, hcore, hsrc]
  rw [CoreSt.x?, hx]
  rfl

/-- R197, R200, R201: a tile store takes its tile as it starts, and opens its transaction when it stays on the device. -/
theorem store_starts {c id : Nat} {s : State} {o : XOp} (ho : (s.core c).x? id = some o) (hc : canCopyStart c id s = true)
    (hk : o.kind = .tst ∨ o.kind = .xtile) (ht : s.trace = none)
    (hf : s.spFaulty o.block (o.source (s.core c)).off o.sa.desc.tileBytes = false) :
    ∃ t o', exec (.copyStart c id) s = .next t ∧ (t.core c).x? id = some o' ∧ o'.stage = .started ∧ t.hbm = s.hbm ∧ t.blocks = s.blocks ∧
      o'.units = imageUnits (s.spGet o.block (o.source (s.core c)).off o.sa.desc.tileBytes) o.units ∧
      (t.core c).streams = (o.source (s.core c)).core.streams ∧
      (o.leaves s = false → ∃ x, t.txs = s.txs ++ [x] ∧ x.store = true ∧ x.req = 2 * c ∧ x.op = id ∧ o'.tx = some x.id) := by
  obtain rfl := CoreSt.x?_id ho
  have hdo : doCopyStart c o.id s = s.takeTile c o := by
    rw [doCopyStart, ho]
    dsimp only
    rw [State.traceX_off ht]
    obtain hk | hk := hk <;> rw [hk]
  have hex := exec_copyStart hc
  obtain ⟨hhbm, hblocks, htxs, hstr, hx⟩ := sourced_frame s c o
  let t := (s.sourced c o).modX c o.id (s.takes c o)
  have hot : (t.core c).x? o.id = some (s.takes c o o) := State.x?_modX ((hx _).trans ho)
  have hst : (t.core c).streams = (o.source (s.core c)).core.streams := by
    rw [State.core_modX]
    exact hstr
  rw [hdo, takeTile_eq hf] at hex
  cases hl : o.leaves s with
  | true =>
    rw [hl, if_pos rfl] at hex
    exact ⟨_, _, hex, hot, rfl, hhbm, hblocks, rfl, hst, fun h => nomatch h⟩
  | false =>
    obtain ⟨x, n, hopen, hstore, hreq, -, hop, -, -⟩ := openTx_of t (2 * c) true c o.id (t.globPieces o.units) ((s.sourced c o).heldUntil c (o.sourceBytes (s.core c)))
    rw [hl, if_neg Bool.false_ne_true, hopen] at hex
    have htxs' : t.txs ++ [x] = s.txs ++ [x] := congrArg (· ++ [x]) htxs
    refine ⟨_, { s.takes c o o with tx := some x.id }, hex, State.x?_modX (s := t.withTx x n) hot, rfl, hhbm, hblocks, rfl, ?_,
      fun _ => ⟨x, htxs', hstore, hreq, hop, rfl⟩⟩
    rw [State.core_modX]
    exact hst

/-! ## Moves -/

theorem exec_move {c id : Nat} {s : State} {o : XOp} (ho : (s.core c).x? id = some o) (hby : o.byUnits = false) (hm : canMove o s (s.core c) = true) :
    exec (.xOpComplete c id (some 0)) s = .next (moveStep c o s) := by
  have hcan : canXOpComplete c id (some 0) s = true := by simp [canXOpComplete, ho, hby, hm]
  have hdo : doXOpComplete c id (some 0) s = moveStep c o s := by simp [doXOpComplete, ho, hby]
  exact (event_of hcan ..).trans (by rw [hdo])

/-- A write of the staging buffer with no arrival update (R361). -/
theorem stagedWrite_of {c q : Nat} {s : State} {o : XOp} (ho : (s.core c).x? o.id = some o) (harr : o.arrive = none) (xs : List (Nat × Nat × Nat)) :
    ∃ o', ((s.stagedWrite c q o xs).core c).x? o.id = some o' ∧ o'.stage = .written ∧ (s.stagedWrite c q o xs).hbm = s.hbm ∧
      ((s.stagedWrite c q o xs).core c).accs = (s.core c).accs ∧ (s.stagedWrite c q o xs).blocks = (s.putPieces o.block xs).blocks := by
  let sides := xs.map fun p => (p.1, p.2.1)
  let t := (s.touch c q sides).putPieces o.block xs
  obtain ⟨hm, hcores, -⟩ := putPieces_keeps (s.touch c q sides) o.block xs
  have hq := quiet_touch s c q sides c 0
  have hcore : ∃ a b, t.core c = { s.core c with waits := a, held := b } := by
    rw [State.core, hcores]
    exact core_touch ..
  have hot : (t.core c).x? o.id = some o := by
    obtain ⟨_, _, h⟩ := hcore
    rw [h]
    exact ho
  have hw : s.stagedWrite c q o xs = t.modX c o.id fun p => { p with stage := .written, finish := t.heldUntil c (sides ++ []) } := by
    unfold State.stagedWrite
    rw [harr]
    rfl
  rw [hw]
  refine ⟨_, State.x?_modX hot, rfl, hm.trans hq.1.hbm, ?_, putPieces_blocks_congr hq.2 ..⟩
  rw [State.core_modX]
  obtain ⟨_, _, h⟩ := hcore
  rw [h]

section
variable {c id : Nat} {s : State} {o : XOp}

/-- R199: the slot of a tile load is written. -/
theorem tld_writes {p : Nat} (ho : (s.core c).x? id = some o) (hk : o.kind = .tld) (hst : o.stage = .performed) (herr : o.err = none)
    (harr : o.arrive = none) (hcl : o.claimA = [p]) (hb : (s.block? o.block).isSome) :
    let off := o.sa.desc.slotOff p
    ∃ t o', exec (.xOpComplete c id (some 0)) s = .next t ∧ (t.core c).x? id = some o' ∧ o'.stage = .written ∧ t.hbm = s.hbm ∧
      (∀ j < o.sa.desc.tileBytes, spByte t o.block (off + j) = unitsImage o.units / 256 ^ j % 256) ∧
      ∀ b x, b ≠ o.block ∨ x < off ∨ off + o.sa.desc.tileBytes ≤ x → spByte t b x = spByte s b x := by
  intro off
  obtain rfl := CoreSt.x?_id ho
  have hex := exec_move ho (by simp [XOp.byUnits, hk]) (by simp [canMove, hk, hst, herr])
  have hmove : moveStep c o s = s.stagedWrite c 4 o [(off, o.sa.desc.tileBytes, unitsImage o.units)] := by simp [moveStep, hk, hcl, off]
  obtain ⟨o', ho', hst', hm, -, hbl⟩ := stagedWrite_of (c := c) (q := 4) ho harr [(off, o.sa.desc.tileBytes, unitsImage o.units)]
  rw [hmove] at hex
  refine ⟨_, o', hex, ho', hst', hm, fun j hj => ?_, fun b x hx => ?_⟩
  · rw [spByte_congr hbl]
    exact spByte_spPut_in hb off _ _ hj
  · rw [spByte_congr hbl]
    exact spByte_spPut_out s _ hx

/-- R202, R203: the region of a drain is written. -/
theorem drain_writes (ho : (s.core c).x? id = some o) (hk : o.kind = .drain) (hst : o.stage = .started) (hfin : o.finish ≤ s.cycle)
    (harr : o.arrive = none) (hb : (s.block? o.block).isSome) (hall : ∀ u ∈ o.units, u.bad = false ∧ ∃ off, u.dst = .sp o.block off)
    (ha : Apart o.units) :
    ∃ t o', exec (.xOpComplete c id (some 0)) s = .next t ∧ (t.core c).x? id = some o' ∧ o'.stage = .written ∧ t.hbm = s.hbm ∧
      (t.core c).accs = (s.core c).accs ∧ UnitsIn s t o.block o.units := by
  obtain rfl := CoreSt.x?_id ho
  have hex := exec_move ho (by simp [XOp.byUnits, hk]) (by simp [canMove, hk, hst, hfin])
  have hpieces : (o.units.filterMap fun u => match u.dst with
      | .sp _ off => if u.bad then none else some (off, u.m, u.data.getD 0)
      | _ => none) = o.units.map CopyUnit.piece := by
    rw [← List.filterMap_eq_map]
    refine List.filterMap_congr fun u hu => ?_
    obtain ⟨hbad, off, hoff⟩ := hall u hu
    simp [hoff, hbad, CopyUnit.piece]
  have hmove : moveStep c o s = s.stagedWrite c 7 o (o.units.map CopyUnit.piece) := by
    simp only [moveStep, hk]
    exact congrArg (s.stagedWrite c 7 o) hpieces
  obtain ⟨o', ho', hst', hm, hacc, hbl⟩ := stagedWrite_of (c := c) (q := 7) ho harr (o.units.map CopyUnit.piece)
  rw [hmove] at hex
  exact ⟨_, o', hex, ho', hst', hm, hacc, unitsIn_of_pieces hbl hb (fun u hu => (hall u hu).2) ha⟩

end

end Sys2Proof.Machine
end

