-- ==== Sys2Proof/Proofs/EngineMessages.lean ====
section
/-! PROOFS. Tiles sent to other devices, multicasts, and the grants and the pace of a tile engine (R155, R180, R190, R191, R201, R380, R381, R405). -/

namespace Sys2Proof.Machine
open Claim

/-! ## A tile that leaves the device -/

/-- The lines of the pieces of a byte range cover the range. -/
theorem lineSpans_covers {a n k : Nat} (hlo : a ≤ k) (hhi : k < a + n) : ∃ q ∈ lineSpans a n, q.1 / 128 = k / 128 := by
  have hak : a / 128 ≤ k / 128 := Nat.div_le_div_right hlo
  have hkn : k / 128 ≤ (a + n - 1) / 128 := Nat.div_le_div_right (by omega)
  rw [lineSpans, if_neg (by omega)]
  refine ⟨_, List.mem_map.2 ⟨k / 128 - a / 128, List.mem_range.2 (by omega), rfl⟩, ?_⟩
  dsimp only
  omega

/-- The message of a requester's traffic to a pod address (R404, R405). -/
def State.podMsg (s : State) (req : Nat) (p : Pa) (k : PodKind) (a n v m : Nat) : LinkMsg :=
  ⟨p.addr / 2 ^ 46, (s.portOf (coreOf req) (p.addr / 2 ^ 46)).getD 0, coreOf req, ⟨s.devid, k, a, n, v, m⟩⟩

/-- The state with messages more on its links. -/
def State.sending (s : State) (ms : List LinkMsg) : State := { s with linkOut := s.linkOut ++ ms }

theorem sending_sending (s : State) (xs ys : List LinkMsg) : (s.sending xs).sending ys = s.sending (xs ++ ys) := by
  simp only [State.sending, List.append_assoc]

/-- The rows of a tile on the links (R201). -/
def State.rowMsgs (s : State) (r id : Nat) (us : List CopyUnit) : List LinkMsg := us.filterMap fun u => match u.dst with
  | .glob p _ => some (s.podMsg r p (.tileRow id) (p.addr % 2 ^ 46) u.n (u.data.getD 0) (2 ^ u.n - 1))
  | _ => none

theorem sendRows_eq (r id : Nat) (us : List CopyUnit) (s : State) :
    us.foldl (fun s u => match u.dst with
      | .glob p _ => s.sendPod r p (.tileRow id) (p.addr % 2 ^ 46) u.n (u.data.getD 0) (2 ^ u.n - 1)
      | _ => s) s = s.sending (s.rowMsgs r id us) := by
  induction us generalizing s with
  | nil => simp [State.sending, State.rowMsgs]
  | cons u us ih =>
    rw [List.foldl_cons, ih]
    cases hdst : u.dst with
    | glob p ms =>
      let m := s.podMsg r p (.tileRow id) (p.addr % 2 ^ 46) u.n (u.data.getD 0) (2 ^ u.n - 1)
      have hrest : (s.sending [m]).rowMsgs r id us = s.rowMsgs r id us := rfl
      show (s.sending [m]).sending ((s.sending [m]).rowMsgs r id us) = _
      rw [hrest, sending_sending]
      simp [State.rowMsgs, hdst, m]
    | _ => simp [State.rowMsgs, hdst]

/-- The lines of a tile's places that the L1 of its core may hold (R155). -/
def State.tileLines (s : State) (us : List CopyUnit) : List Pa :=
  (s.globPieces us).flatMap fun p => (lineSpans p.1.addr p.2).map fun q => { p.1 with addr := q.1 }

theorem mem_tileLines {s : State} {us : List CopyUnit} {p : Pa × Nat} (hp : p ∈ s.globPieces us) {k : Nat} (hlo : p.1.addr ≤ k)
    (hhi : k < p.1.addr + p.2) : ({ p.1 with addr := k } : Pa).line ∈ (s.tileLines us).map Pa.line := by
  obtain ⟨q, hq, hline⟩ := lineSpans_covers hlo hhi
  refine List.mem_map.2 ⟨{ p.1 with addr := q.1 }, List.mem_flatMap.2 ⟨p, hp, List.mem_map.2 ⟨q, hq, rfl⟩⟩, ?_⟩
  simp only [Pa.line, hline]

theorem dropLines_l1 (s : State) (c : Nat) (ps : List Pa) {y : L1Line} (h : y ∈ ((s.dropLines c ps).core c).l1) : y.pa ∉ ps.map Pa.line := by
  rw [State.dropLines, State.core_modCore] at h
  simpa using (List.mem_filter.1 h).2

/-- R155, R180, R201, R405: an `xtile` to another device sends its rows, then the commit, and no line of its places stays in the L1. -/
theorem xtile_sends {c id : Nat} {s : State} {o : XOp} {pa : Pa} (ho : (s.core c).x? id = some o) (hk : o.kind = .xtile) (hst : o.stage = .started)
    (htx : o.tx = none) (hfin : o.finish ≤ s.cycle) (hr : restReady (s.core c) o = true) (hpa : o.dstPa = some pa) (hl : s.linkCause pa = none) :
    ∃ t, exec (.xOpComplete c id (some 0)) s = .next t ∧ t.hbm = s.hbm ∧ t.blocks = s.blocks ∧
      t.linkOut = s.linkOut ++ s.rowMsgs (o.requester c) o.id o.units ++ [s.podMsg (o.requester c) pa (.tileCommit o.id) 0 0 0 0] ∧
      (∀ p ∈ s.globPieces o.units, ∀ k, p.1.addr ≤ k → k < p.1.addr + p.2 → ∀ y ∈ (t.core c).l1, y.pa ≠ ({ p.1 with addr := k } : Pa).line) ∧
      ∃ o', (t.core c).x? id = some o' ∧ o'.stage = .sent := by
  obtain rfl := CoreSt.x?_id ho
  have hex := exec_move ho (by simp [XOp.byUnits, hk]) (by simp [canMove, hk, hst, htx, hfin, hr])
  let s₁ := s.dropLines c (s.tileLines o.units)
  let t := (s₁.sending (s₁.rowMsgs (o.requester c) o.id o.units)).sending [s₁.podMsg (o.requester c) pa (.tileCommit o.id) 0 0 0 0]
  have hmove : moveStep c o s = t.modX c o.id fun p =>
      { p with stage := .sent, begun := s.cycle, units := p.units.map fun u => { u with done := true } } := by
    simp only [moveStep, hk, State.sendTile, hpa, hl]
    exact congrArg (fun r : State => (r.sendPod (o.requester c) pa (.tileCommit o.id) 0 0 0 0).modX c o.id fun p =>
      { p with stage := .sent, begun := r.cycle, units := p.units.map fun u => { u with done := true } }) (sendRows_eq (o.requester c) o.id o.units s₁)
  rw [hmove] at hex
  have hot : (t.core c).x? o.id = some o := by
    have hcore : t.core c = s₁.core c := rfl
    rw [hcore]
    simp only [s₁, State.dropLines, State.core_modCore]
    exact ho
  refine ⟨_, hex, rfl, rfl, rfl, fun p hp k hlo hhi y hy he => ?_, _, State.x?_modX hot, rfl⟩
  rw [State.core_modX] at hy
  exact dropLines_l1 s c (s.tileLines o.units) hy (he ▸ mem_tileLines hp hlo hhi)

/-! ## Multicasts -/

theorem rankBlock_congr {s t : State} (hb : t.blocks = s.blocks) (ht : t.tasks = s.tasks) (hw : ∀ c k, t.warp? c k = s.warp? c k) (b r : Nat) :
    t.rankBlock b r = s.rankBlock b r := by
  have hover : t.blockOver = s.blockOver := by
    funext y q
    simp only [State.blockOver, hw]
  simp only [State.rankBlock, State.block?, hb, ht, hover]

theorem rankBlock_block {s : State} {b r i : Nat} {y : Block} (h : s.rankBlock b r = some (i, y)) : s.block? i = some y := by
  unfold State.rankBlock at h
  split at h
  · cases h
  · next t _ =>
    obtain ⟨j, -, hj⟩ := List.exists_of_findSome?_eq_some h
    split at hj
    · next z hz =>
      split at hj
      · cases hj
        exact hz
      · cases hj
    · cases hj

/-- R190, R191: a multicast reaches one block. -/
theorem multicast_delivers {c id rank b : Nat} {s : State} {o : XOp} {y : Block} (ho : (s.core c).x? id = some o) (hk : o.kind = .multicast)
    (hst : o.stage = .started) (hrank : rank ∈ o.ranks) (hall : ∀ u ∈ o.units, u.bad = false ∧ u.data.isSome)
    (hb : s.rankBlock o.block rank = some (b, y)) (harr : o.arrive = none) :
    ∃ t o', exec (.multicastDeliver c id rank) s = .next t ∧ (t.core c).x? id = some o' ∧ o'.ranks = o.ranks.erase rank ∧ t.hbm = s.hbm ∧
      (∀ i u v, o.units[i]? = some u → u.data = some v → ∀ j < 16, spByte t b (o.dst.toNat + 16 * i + j) = v / 256 ^ j % 256) ∧
      ∀ d x, d ≠ b ∨ x < o.dst.toNat ∨ o.dst.toNat + 16 * o.units.length ≤ x → spByte t d x = spByte s d x := by
  have hreads : (o.units.all fun u => !u.unread) = true := List.all_eq_true.2 fun u hu => by
    simp [CopyUnit.unread, Option.isNone_eq_false_iff.2 (hall u hu).2]
  have hcan : canMulticastDeliver c id rank s = true := by simp [canMulticastDeliver, ho, hk, hst, hrank, hreads]
  let s₁ := s.modX c id fun o => { o with ranks := o.ranks.erase rank }
  have ho₁ : (s₁.core c).x? id = some { o with ranks := o.ranks.erase rank } := State.x?_modX ho
  have hrb : s₁.rankBlock o.block rank = some (b, y) := (rankBlock_congr (s := s) (t := s₁) rfl rfl (fun d k => State.warp_modX ..) ..).trans hb
  let s₂ := s₁.engineStep y.core 4 [(o.dst.toNat, 16 * o.units.length)]
  let ps := o.units.zipIdx.map fun p => (o.dst.toNat + 16 * p.2, 16, p.1.data.getD 0)
  have hgood : (o.units.zipIdx.filter fun p => !p.1.bad) = o.units.zipIdx := List.filter_eq_self.2 fun p hp => by
    simp [(hall p.1 (List.fst_mem_of_mem_zipIdx hp)).1]
  have hdo : doMulticastDeliver c id rank s = s₂.putPieces b ps := by
    rw [doMulticastDeliver, ho]
    dsimp only
    rw [show State.rankBlock (s.modX c id fun o => { o with ranks := o.ranks.erase rank }) o.block rank = some (b, y) from hrb]
    dsimp only
    rw [hgood, harr]
    simp only [State.putPieces, ps, List.foldl_map]
    rfl
  have hex : exec (.multicastDeliver c id rank) s = .next (doMulticastDeliver c id rank s) := event_of hcan ..
  rw [hdo] at hex
  obtain ⟨hm, hcores, -⟩ := putPieces_keeps s₂ b ps
  have hblocks : (s₂.putPieces b ps).blocks = (s.putPieces b ps).blocks := putPieces_blocks_congr (s := s) (t := s₂) rfl b ps
  have hpos : ∀ p ∈ ps, ∃ i, ∃ u, o.units[i]? = some u ∧ p = (o.dst.toNat + 16 * i, 16, u.data.getD 0) := fun p hp => by
    obtain ⟨⟨u, i⟩, hq, rfl⟩ := List.mem_map.1 hp
    exact ⟨i, u, List.mem_zipIdx_iff_getElem?.1 hq, rfl⟩
  have hap : ps.Pairwise PiecesApart := by
    refine List.pairwise_map.2 (List.pairwise_iff_getElem.2 fun i j hi hj hij => ?_)
    simp only [List.getElem_zipIdx, PiecesApart]
    omega
  have hbs : (s.block? b).isSome := by rw [rankBlock_block hb]; rfl
  refine ⟨_, { o with ranks := o.ranks.erase rank }, hex, ?_, rfl, hm, fun i u v hu hv j hj => ?_, fun d x hx => ?_⟩
  · rw [State.core, hcores]
    exact (x?_engineStep ..).trans ho₁
  · rw [spByte_congr hblocks]
    have hmem : (o.dst.toNat + 16 * i, 16, v) ∈ ps := List.mem_map.2 ⟨(u, i), List.mem_zipIdx_iff_getElem?.2 hu, by simp [hv]⟩
    exact spByte_putPieces_in hbs hap hmem hj
  · rw [spByte_congr hblocks]
    refine spByte_putPieces_out (hx.imp_right fun h p hp => ?_)
    obtain ⟨i, u, hu, rfl⟩ := hpos p hp
    have hi := (List.getElem?_eq_some_iff.1 hu).1
    dsimp only
    omega

/-! ## Grants and pace -/

/-- R380: a Tamper grants a start. -/
theorem tamper_grants {c : Nat} {s : State} (hc : canTamperGrant c s = true) : ∃ t, exec (.tamperGrant c) s = .next t ∧
    (t.core c).ramp = .moving 1 0 s.cycle ∧ t.windowGrants (clusterOf c) = s.windowGrants (clusterOf c) + 1 ∧ (t.core c).warps = (s.core c).warps ∧
    t.hbm = s.hbm ∧ t.blocks = s.blocks := by
  refine ⟨_, event_of hc .., by rw [State.core_modCore], ?_, by rw [State.core_modCore]; rfl, rfl, rfl⟩
  simp [State.windowGrants, FMap.getD, State.clock]

/-- R381: the filler of an engine is over. -/
theorem engine_idles {c : Nat} {s : State} {lv at' l e : Nat} (hr : (s.core c).ramp = .filler lv at' l e) (he : e + 12 < s.cycle) :
    exec (.engineIdle c) s = .next (s.modCore c fun x => { x with ramp := .idle }) := by
  have hc : canEngineIdle c s = true := by simp [canEngineIdle, hr, fillerCycles, he]
  exact event_of hc ..

end Sys2Proof.Machine
end

