-- ==== Sys2Proof/Proofs/TileProducts.lean ====
section
/-! PROOFS. The products of a tile multiplication: the elements of a region in their order, and what stays (R101, R104, R206, R207, R362). -/

namespace Sys2Proof.Machine
open Claim

/-! ## Regions of accumulators -/

/-- Core `y` is core `x` but for its accumulators. -/
def OnlyAccs (x y : CoreSt) : Prop := ∃ a, y = { x with accs := a }

theorem onlyAccs_refl (x : CoreSt) : OnlyAccs x x := ⟨x.accs, rfl⟩

theorem onlyAccs_trans {x y z : CoreSt} (h : OnlyAccs x y) (g : OnlyAccs y z) : OnlyAccs x z := by
  obtain ⟨_, rfl⟩ := h
  obtain ⟨a, rfl⟩ := g
  exact ⟨a, rfl⟩

theorem accKey_inj {t i j u k l : Nat} (hi : i < 64) (hj : j < 64) (hk : k < 64) (hl : l < 64) : accKey t i j = accKey u k l ↔ t = u ∧ i = k ∧ j = l := by
  unfold accKey
  omega

/-- An element reads back as what was written. -/
theorem acc_setAcc_self (x : CoreSt) (t i j : Nat) (a : Fp.Acc) : (x.setAcc t i j a).acc t i j = Fp.Acc.ofBits a.toBits := by
  simp [CoreSt.setAcc, CoreSt.acc]

theorem acc_setAcc_ne (x : CoreSt) {t i j u k l : Nat} (a : Fp.Acc) (h : accKey u k l ≠ accKey t i j) : (x.setAcc t i j a).acc u k l = x.acc u k l := by
  simp [CoreSt.setAcc, CoreSt.acc, FMap.getD_put_ne _ _ _ _ h]

section
variable {α β : Type} (tile : Nat) (g : α → β → Fp.Acc → Fp.Acc × BitVec 8)

/-- One element of a row is replaced by what `g` makes of it. -/
def elemStep (i : Nat) (a : α) (r : CoreSt × BitVec 8) (q : β × Nat) : CoreSt × BitVec 8 :=
  let e := g a q.1 (r.1.acc tile i q.2)
  (r.1.setAcc tile i q.2 e.1, r.2 ||| e.2)

/-- The elements of one row. -/
def rowStep (bs : List β) (r : CoreSt × BitVec 8) (p : α × Nat) : CoreSt × BitVec 8 := bs.zipIdx.foldl (elemStep tile g p.2 p.1) r

/-- What a row leaves: its elements once, and nothing else. -/
theorem row_elems (i : Nat) (a : α) (bs : List β) (n : Nat) (r : CoreSt × BitVec 8) :
    let r' := (bs.zipIdx n).foldl (elemStep tile g i a) r
    OnlyAccs r.1 r'.1 ∧
      (∀ (j : Nat) b, bs[j]? = some b → r'.1.acc tile i (n + j) = Fp.Acc.ofBits (g a b (r.1.acc tile i (n + j))).1.toBits) ∧
      ∀ u k l, (∀ j < bs.length, accKey u k l ≠ accKey tile i (n + j)) → r'.1.acc u k l = r.1.acc u k l := by
  induction bs generalizing n r with
  | nil => exact ⟨onlyAccs_refl _, fun j b h => by simp at h, fun _ _ _ _ => rfl⟩
  | cons b bs ih =>
    let r₁ := elemStep tile g i a r (b, n)
    obtain ⟨honly, hin, hout⟩ := ih (n + 1) r₁
    have hkey : ∀ j, accKey tile i (n + j) = accKey tile i n ↔ j = 0 := fun j => by unfold accKey; omega
    rw [List.zipIdx_cons, List.foldl_cons]
    refine ⟨onlyAccs_trans ⟨_, rfl⟩ honly, fun j b' hb => ?_, fun u k l hk => ?_⟩
    · cases j with
      | zero =>
        obtain rfl : b = b' := by simpa using hb
        refine (hout tile i n fun j _ => ?_).trans (acc_setAcc_self ..)
        rw [Nat.add_right_comm, Nat.add_assoc, ne_comm, Ne, hkey]
        omega
      | succ j =>
        have hne : r₁.1.acc tile i (n + 1 + j) = r.1.acc tile i (n + 1 + j) := acc_setAcc_ne _ _ (by
          rw [Nat.add_right_comm, Nat.add_assoc, Ne, hkey]
          omega)
        rw [← Nat.add_right_comm, Nat.add_assoc n j 1] at hne
        have := hin j b' (by simpa using hb)
        rw [Nat.add_right_comm, Nat.add_assoc n j 1] at this
        rw [this, hne]
    · refine (hout u k l fun j hj => ?_).trans (acc_setAcc_ne _ _ (hk 0 (by simp)))
      have := hk (j + 1) (by simpa using hj)
      rwa [← Nat.add_assoc, Nat.add_right_comm] at this

/-- What a region leaves: its elements once, and nothing else. -/
theorem region_elems {bs : List β} (hb : bs.length ≤ 64) (as : List α) (n : Nat) (r : CoreSt × BitVec 8) :
    let r' := (as.zipIdx n).foldl (rowStep tile g bs) r
    OnlyAccs r.1 r'.1 ∧
      (∀ (i j : Nat) a b, as[i]? = some a → bs[j]? = some b →
        r'.1.acc tile (n + i) j = Fp.Acc.ofBits (g a b (r.1.acc tile (n + i) j)).1.toBits) ∧
      ∀ u k l, (∀ i < as.length, ∀ j < bs.length, accKey u k l ≠ accKey tile (n + i) j) → r'.1.acc u k l = r.1.acc u k l := by
  induction as generalizing n r with
  | nil => exact ⟨onlyAccs_refl _, fun i j a b h => by simp at h, fun _ _ _ _ => rfl⟩
  | cons a as ih =>
    obtain ⟨honly₁, hin₁, hout₁⟩ := row_elems tile g n a bs 0 r
    simp only [Nat.zero_add] at hin₁ hout₁
    let r₁ := rowStep tile g bs r (a, n)
    obtain ⟨honly, hin, hout⟩ := ih (n + 1) r₁
    have hrow : ∀ i j k l, j < 64 → l < 64 → i ≠ k → accKey tile i j ≠ accKey tile k l := fun i j k l hj hl h => by unfold accKey; omega
    rw [List.zipIdx_cons, List.foldl_cons]
    refine ⟨onlyAccs_trans honly₁ honly, fun i j a' b ha hbj => ?_, fun u k l hk => ?_⟩
    · have hj : j < bs.length := (List.getElem?_eq_some_iff.1 hbj).1
      cases i with
      | zero =>
        obtain rfl : a = a' := by simpa using ha
        exact (hout tile n j fun i _ j' hj' => hrow _ _ _ _ (by omega) (by omega) (by omega)).trans (hin₁ j b hbj)
      | succ i =>
        have hne : r₁.1.acc tile (n + 1 + i) j = r.1.acc tile (n + 1 + i) j :=
          hout₁ _ _ _ fun j' hj' => hrow _ _ _ _ (by omega) (by omega) (by omega)
        have := hin i j a' b (by simpa using ha) hbj
        rw [show n + (i + 1) = n + 1 + i by omega, this, hne]
    · refine (hout u k l fun i hi j hj => ?_).trans (hout₁ u k l fun j hj => hk 0 (by simp) j hj)
      have := hk (i + 1) (by simpa using hi) j hj
      rwa [← Nat.add_assoc, Nat.add_right_comm] at this

end

/-! ## A multiplication -/

/-- A row of a side with its scales. -/
def sideRows (rows scales : List (List Nat)) : List (List Nat × List Nat) := rows.zip (scales ++ List.replicate rows.length [])

theorem sideRows_length (rows scales : List (List Nat)) : (sideRows rows scales).length = rows.length := by
  simp [sideRows]

theorem sideRows_plain {f : Nat → List Nat} {n i : Nat} (h : i < n) : (sideRows ((List.range n).map f) [])[i]? = some (f i, []) := by
  simp [sideRows, h]

theorem sideRows_scaled {f g : Nat → List Nat} {n i : Nat} (h : i < n) :
    (sideRows ((List.range n).map f) ((List.range n).map g))[i]? = some (f i, g i) := by
  simp [sideRows, h]

/-- What an element becomes: the products of its rows added to it (R206, R207). -/
def product2 (ta tb : Ty) (scaled : Bool) (n : Nat) (p q : List Nat × List Nat) (old : Fp.Acc) : Fp.Acc × BitVec 8 :=
  if scaled then dotScaled ta tb n (p.1.zip q.1) (p.2.zip q.2) old else dotPlain ta tb p.1 q.1 old

theorem multiply_eq (x : CoreSt) (ta tb : Ty) (scaled : Bool) (tile : Nat) (t : MmaIn) :
    x.multiply ta tb scaled tile t = (sideRows t.a t.sa).zipIdx.foldl (rowStep tile (product2 ta tb scaled t.n) (sideRows t.b t.sb)) (x, 0) := rfl

/-- R206: a multiplication replaces every element of its region once, and no other. -/
theorem multiply_elems (x : CoreSt) (ta tb : Ty) (scaled : Bool) (tile : Nat) {t : MmaIn} (ht : t.b.length ≤ 64) :
    let y := (x.multiply ta tb scaled tile t).1
    OnlyAccs x y ∧
      (∀ (i j : Nat) p q, (sideRows t.a t.sa)[i]? = some p → (sideRows t.b t.sb)[j]? = some q →
        y.acc tile i j = Fp.Acc.ofBits (product2 ta tb scaled t.n p q (x.acc tile i j)).1.toBits) ∧
      ∀ u k l, (∀ i < t.a.length, ∀ j < t.b.length, accKey u k l ≠ accKey tile i j) → y.acc u k l = x.acc u k l := by
  obtain ⟨honly, hin, hout⟩ := region_elems tile (product2 ta tb scaled t.n) (bs := sideRows t.b t.sb) (by rwa [sideRows_length]) (sideRows t.a t.sa) 0 (x, 0)
  rw [multiply_eq]
  simp only [Nat.zero_add, sideRows_length] at hin hout
  exact ⟨honly, hin, hout⟩

/-! ## Reads of the tile engine -/

/-- Of core `c` its warps, operations, accumulators and streams are unchanged, and so are the memories and the trace. -/
structure KeepsWork (s t : State) (c : Nat) : Prop where
  hbm : t.hbm = s.hbm
  blocks : t.blocks = s.blocks
  trace : t.trace = s.trace
  warps : (t.core c).warps = (s.core c).warps
  xops : (t.core c).xops = (s.core c).xops
  accs : (t.core c).accs = (s.core c).accs
  streams : (t.core c).streams = (s.core c).streams

theorem keepsWork_refl (s : State) (c : Nat) : KeepsWork s s c := ⟨rfl, rfl, rfl, rfl, rfl, rfl, rfl⟩

theorem KeepsWork.trans {s t u : State} {c : Nat} (h : KeepsWork s t c) (g : KeepsWork t u c) : KeepsWork s u c :=
  ⟨g.hbm.trans h.hbm, g.blocks.trans h.blocks, g.trace.trans h.trace, g.warps.trans h.warps, g.xops.trans h.xops, g.accs.trans h.accs,
    g.streams.trans h.streams⟩

theorem takeSnapshot_only (x : CoreSt) (now : Nat) : ∃ a b, x.takeSnapshot now = { x with snapshot := a, bank := b } := by
  unfold CoreSt.takeSnapshot
  split
  · split
    · exact ⟨_, _, rfl⟩
    · exact ⟨_, _, rfl⟩
  · exact ⟨_, _, rfl⟩

/-- The accesses of the tile engine to banks change counters alone (R362, R363). -/
theorem keepsWork_streamBanks (s : State) (c q : Nat) (d : Desc) (ps : List Nat) : KeepsWork s (s.streamBanks c q d ps) c := by
  unfold State.streamBanks
  split
  · exact keepsWork_refl s c
  · refine foldl_keeps (R := fun s t => KeepsWork s t c) (fun s => keepsWork_refl s c) KeepsWork.trans (fun s b => ?_) _ _
    obtain ⟨a, b', h⟩ := takeSnapshot_only (s.core c) s.cycle
    let add (x : CoreSt) : CoreSt :=
      { x with counters := FMap.put x.counters (128 * q + b) (min (2 ^ 32 - 1) (FMap.getD x.counters (128 * q + b) 0 + s.freeVal.1)) 0 }
    let t := s.freeVal.2.modCore c fun x => add (x.takeSnapshot s.cycle)
    have hcore : t.core c = add { s.core c with snapshot := a, bank := b' } := by
      simp only [t, State.core_modCore]
      exact congrArg add h
    have hk : KeepsWork s t c := ⟨rfl, rfl, rfl, by rw [hcore], by rw [hcore], by rw [hcore], by rw [hcore]⟩
    exact hk

end Sys2Proof.Machine
end

