-- ==== Sys2Proof/Proofs/TileFills.lean ====
section
/-! PROOFS. The beginning of a fill: the pace it sets, and the whole effect of each operation of the tile engine (R202 to R210; log 98). -/

namespace Sys2Proof.Machine
open Claim

/-! ## The head of the queue begins -/

/-- The state as the head operation begins: the pace of the engine, and the operation started (R208, R209). -/
def State.filling (s : State) (c : Nat) (o : XOp) (lv at' l : Nat) : State :=
  let r := streamRun 12 lv at' (4 * o.steps)
  let fin' := max (s.cycle + 9) (l + 1) + r.2.2 - 1
  (s.modCore c fun x => { x with ramp := .moving r.1 r.2.1 fin' }).modX c o.id fun p => { p with stage := .started, begun := s.cycle, finish := fin' + 4 }

/-- The last cycle of the fill's streaming. -/
def State.fillEnd (s : State) (o : XOp) (lv at' l : Nat) : Nat := max (s.cycle + 9) (l + 1) + (streamRun 12 lv at' (4 * o.steps)).2.2 - 1

section
variable {s : State} {c lv at' l : Nat} {o : XOp}

theorem filling_core (s : State) (c : Nat) (o : XOp) (lv at' l : Nat) :
    ∃ r xs, (s.filling c o lv at' l).core c = { s.core c with ramp := r, xops := xs } :=
  ⟨_, _, by rw [State.filling, State.core_modX, State.core_modCore]⟩

theorem filling_x? (ho : (s.core c).x? o.id = some o) (lv at' l : Nat) :
    ((s.filling c o lv at' l).core c).x? o.id = some { o with stage := .started, begun := s.cycle, finish := s.fillEnd o lv at' l + 4 } := by
  refine State.x?_modX (f := fun p => { p with stage := .started, begun := s.cycle, finish := s.fillEnd o lv at' l + 4 }) ?_
  rw [State.core_modCore]
  exact ho

theorem canFill (hh : (s.core c).tileHead = some o) (hr : (s.core c).ramp = .moving lv at' l) (hready : headReady (s.core c) o = true)
    (hn : ∀ p ∈ (s.core c).xops, p.stage = .queued ∨ p.kind ≠ .tload) : canTileFillBegin c s = true := by
  have hany : ((s.core c).xops.any fun p => p.stage != .queued && p.kind = .tload) = false := by
    rw [List.any_eq_false]
    intro p hp
    obtain h | h := hn p hp <;> simp [h]
  simp [canTileFillBegin, hh, hr, hready, hany]

/-- An operation that opens no transaction has its effect as its fill begins. -/
theorem fill_begins (hh : (s.core c).tileHead = some o) (hr : (s.core c).ramp = .moving lv at' l) (hready : headReady (s.core c) o = true)
    (hn : ∀ p ∈ (s.core c).xops, p.stage = .queued ∨ p.kind ≠ .tload) (hk : o.kind ≠ .tstac)
    (ht : (beginEffect c o (s.filling c o lv at' l)).trace = none) :
    exec (.tileFillBegin c) s = .next (beginEffect c o (s.filling c o lv at' l)) := by
  have hdo : doTileFillBegin c s = beginEffect c o (s.filling c o lv at' l) := by
    rw [doTileFillBegin, hh, hr]
    dsimp only
    split
    · exact absurd ‹o.kind = .tstac› hk
    · exact State.traceX_off ht ..
  have hex : exec (.tileFillBegin c) s = .next (doTileFillBegin c s) := event_of (canFill hh hr hready hn) ..
  rw [hex, hdo]

end

/-! ## Clearing an accumulator -/

theorem FMap.find_filter {β : Type} (m : FMap β) (g : Nat → Bool) (k : Nat) : FMap.find (m.filter fun p => g p.1) k = if g k then FMap.find m k else none := by
  induction m with
  | nil => simp [FMap.find]
  | cons p m ih =>
    obtain ⟨a, b⟩ := p
    by_cases ha : a = k
    · subst ha
      cases hg : g a <;> simp [hg, FMap.find, ih]
    · cases hg : g a <;> simp [hg, FMap.find, ha, ih]

/-- Whether a key is of no element of an accumulator. -/
def outsideTile (tile k : Nat) : Bool := decide (k < tile * 4096) || decide (tile * 4096 + 4096 ≤ k)

theorem outsideTile_iff (tile k : Nat) : outsideTile tile k = true ↔ k / 4096 ≠ tile := by
  simp only [outsideTile, Bool.or_eq_true, decide_eq_true_eq]
  omega

/-- A core with one accumulator cleared. -/
def CoreSt.cleared (x : CoreSt) (tile : Nat) : CoreSt := { x with accs := x.accs.filter fun p => outsideTile tile p.1 }

/-- R206: `tzero` clears one accumulator. -/
theorem tzero_fills {c lv at' l : Nat} {s : State} {o : XOp} {i : XTOp} (hh : (s.core c).tileHead = some o) (hr : (s.core c).ramp = .moving lv at' l)
    (hi : o.instr = .tzero i) (hn : ∀ p ∈ (s.core c).xops, p.stage = .queued ∨ p.kind ≠ .tload) (ht : s.trace = none) :
    ∃ t, exec (.tileFillBegin c) s = .next t ∧ t.hbm = s.hbm ∧ t.blocks = s.blocks ∧ (t.core c).warps = (s.core c).warps ∧
      ∀ e, FMap.getD (t.core c).accs e 0 = if e / 4096 = i.acc.val then 0 else FMap.getD (s.core c).accs e 0 := by
  have hk : o.kind = .tzero := by simp [XOp.kind, hi]
  have hready : headReady (s.core c) o = true := by simp [headReady, hk]
  obtain ⟨r, xs, hcore⟩ := filling_core s c o lv at' l
  have heff : ∃ u : State, beginEffect c o (s.filling c o lv at' l) = u ∧ u.trace = none ∧ u.hbm = s.hbm ∧ u.blocks = s.blocks ∧
      u.core c = CoreSt.cleared { s.core c with ramp := r, xops := xs } i.acc.val := by
    simp only [beginEffect, hk, hi, xtOf]
    refine ⟨_, rfl, ht, rfl, rfl, ?_⟩
    rw [State.core_modCore]
    exact congrArg (fun x : CoreSt => x.cleared i.acc.val) hcore
  obtain ⟨u, hu, htr, hm, hb, hc⟩ := heff
  have hex := fill_begins hh hr hready hn (by simp [hk]) (hu ▸ htr)
  refine ⟨u, hu ▸ hex, hm, hb, by rw [hc]; rfl, fun e => ?_⟩
  rw [hc, FMap.getD, show FMap.find (CoreSt.cleared _ _).accs e = _ from FMap.find_filter _ (outsideTile i.acc.val) e]
  by_cases h : e / 4096 = i.acc.val
  · rw [if_pos h, if_neg (by rw [outsideTile_iff]; exact fun hn => hn h)]
    rfl
  · rw [if_neg h, if_pos ((outsideTile_iff ..).2 h)]
    rfl

/-! ## Multiplying -/

theorem sideRow_congr {s t : State} (h : t.blocks = s.blocks) : t.sideRow = s.sideRow := by
  funext b ty d slots r
  simp only [State.sideRow, spGet_congr h]

theorem sideScales_congr {s t : State} (h : t.blocks = s.blocks) : t.sideScales = s.sideScales := by
  funext b ty d slots r
  simp only [State.sideScales, spGet_congr h]

theorem sideFaulty_clean {s : State} (h : s.faulty = []) (b : Nat) (ty : Ty) (d : Desc) (scaled : Bool) (slots : List Nat) :
    s.sideFaulty b ty d scaled slots = false := by
  simp [State.sideFaulty, State.spFaulty, h]

theorem readAccs_clean {s : State} (h : s.faulty = []) (c id tile m n : Nat) : s.readAccs c id tile m n = s := by
  simp [State.readAccs, State.badAccs, h]

/-- The rows and scales that a multiplication takes (R206, R207). -/
def State.mmaIn (s : State) (o : XOp) (ta tb : Ty) (scaled : Bool) (i : XTOp) (pa pb : List Nat) : MmaIn :=
  { a := (List.range (tileM i)).map fun r => s.sideRow o.block ta o.sa.desc pa r
    b := (List.range (tileN i)).map fun r => s.sideRow o.block tb o.sb.desc pb r
    sa := if scaled then (List.range (tileM i)).map fun r => s.sideScales o.block ta o.sa.desc pa r else []
    sb := if scaled then (List.range (tileN i)).map fun r => s.sideScales o.block tb o.sb.desc pb r else []
    n := o.sa.desc.s }

/-- The state once the products have been added. -/
def State.addProducts (s : State) (c : Nat) (o : XOp) (ta tb : Ty) (scaled : Bool) (i : XTOp) (pa pb : List Nat) : State :=
  let r := (s.core c).multiply ta tb scaled i.acc.val (s.mmaIn o ta tb scaled i pa pb)
  ((((s.setCore c r.1).modX c o.id fun p => { p with evs := r.2 }).streamBanks c 5 o.sa.desc pa).streamBanks c 6 o.sb.desc pb)

/-- The slots that a multiplication claims of its two streams, and the core after the claims (R206). -/
def CoreSt.mmaClaim (x : CoreSt) (o : XOp) : List Nat × List Nat × CoreSt :=
  let a := x.claim o.sa.n o.sa.desc.len (mmaTiles o)
  let b := a.2.claim o.sb.n o.sb.desc.len (mmaTiles o)
  (a.1, b.1, b.2)

/-- The state once the tiles have been claimed. -/
def State.claimed (s : State) (c : Nat) (o : XOp) : State :=
  (s.setCore c ((s.core c).mmaClaim o).2.2).modX c o.id fun p => { p with claimA := ((s.core c).mmaClaim o).1, claimB := ((s.core c).mmaClaim o).2.1 }

/-- The state once the tiles have been claimed and the scales read. -/
def State.claimTiles (s : State) (c : Nat) (o : XOp) (ta tb : Ty) (scaled : Bool) : State :=
  let r := (s.core c).mmaClaim o
  if scaled then (s.claimed c o).bankCount c 5 (scaleWords ta o.sa.desc r.1 ++ scaleWords tb o.sb.desc r.2.1).eraseDups else s.claimed c o

/-- What the claim of tiles leaves: accumulators, scratchpads and memory as they were, and the stage of operation `o` as well. -/
structure Claimed (s t : State) (c : Nat) (o : XOp) : Prop where
  hbm : t.hbm = s.hbm
  blocks : t.blocks = s.blocks
  trace : t.trace = s.trace
  faulty : t.faulty = s.faulty
  warps : (t.core c).warps = (s.core c).warps
  accs : (t.core c).accs = (s.core c).accs
  op : ∀ p, (s.core c).x? o.id = some p → ∃ p', (t.core c).x? o.id = some p' ∧ p'.stage = p.stage

theorem onlyRings_claim (x : CoreSt) (n len k : Nat) : OnlyRings x (x.claim n len k).2 := ⟨_, _, rfl⟩

theorem onlyRings_mmaClaim (x : CoreSt) (o : XOp) : OnlyRings x (x.mmaClaim o).2.2 := onlyRings_trans (onlyRings_claim ..) (onlyRings_claim ..)

theorem claimed_of (s : State) (c : Nat) (o : XOp) : Claimed s (s.claimed c o) c o := by
  generalize hr : (s.core c).mmaClaim o = r
  have hrings : OnlyRings (s.core c) r.2.2 := by
    subst hr
    exact onlyRings_mmaClaim ..
  obtain ⟨st, rl, hc⟩ := hrings
  have hv : s.claimed c o = (s.setCore c r.2.2).modX c o.id fun p => { p with claimA := r.1, claimB := r.2.1 } := by rw [State.claimed, hr]
  refine ⟨rfl, rfl, rfl, rfl, ?_, ?_, fun p hp => ?_⟩
  · rw [hv, State.core_modX, State.core_setCore_self, hc]
  · rw [hv, State.core_modX, State.core_setCore_self, hc]
  · rw [hv]
    refine ⟨{ p with claimA := r.1, claimB := r.2.1 }, ?_, rfl⟩
    exact State.x?_modX (f := fun p => { p with claimA := r.1, claimB := r.2.1 }) (by rw [State.core_setCore_self, hc]; exact hp)

theorem core_bankCount (s : State) (c q : Nat) (ws : List Nat) : ∃ a b, (s.bankCount c q ws).core c = { s.core c with waits := a, held := b } := by
  unfold State.bankCount
  rw [State.core_modCore]
  exact ⟨_, _, rfl⟩

theorem claimTiles_of (s : State) (c : Nat) (o : XOp) (ta tb : Ty) (scaled : Bool) : Claimed s (s.claimTiles c o ta tb scaled) c o := by
  cases scaled with
  | false => exact claimed_of s c o
  | true =>
    obtain ⟨hm, hb, ht, hf, hw, ha, hx⟩ := claimed_of s c o
    obtain ⟨a, b, hcore⟩ := core_bankCount (s.claimed c o) c 5
      (scaleWords ta o.sa.desc ((s.core c).mmaClaim o).1 ++ scaleWords tb o.sb.desc ((s.core c).mmaClaim o).2.1).eraseDups
    rw [State.claimTiles, if_pos rfl]
    exact ⟨hm, hb, ht, hf, by rw [hcore]; exact hw, by rw [hcore]; exact ha, fun p hp => by rw [hcore]; exact hx p hp⟩

section
variable {c : Nat} {s : State} {o : XOp} {ta tb : Ty} {scaled : Bool} {i : XTOp}

theorem beginMma_eq (ht : tileTypes o.instr = some (ta, tb, scaled)) (hi : xtOf o.instr = some i) (hf : s.faulty = []) :
    let r := (s.core c).mmaClaim o
    beginMma c o s = (s.claimTiles c o ta tb scaled).addProducts c o ta tb scaled i r.1 r.2.1 := by
  intro r
  let v := s.claimTiles c o ta tb scaled
  have hf' : v.faulty = [] := (claimTiles_of s c o ta tb scaled).faulty.trans hf
  have hside : ¬ (v.sideFaulty o.block ta o.sa.desc scaled r.1 || v.sideFaulty o.block tb o.sb.desc scaled r.2.1) = true := by
    rw [sideFaulty_clean hf', sideFaulty_clean hf']
    exact Bool.false_ne_true
  unfold beginMma
  rw [ht, hi]
  exact (if_neg hside).trans (congrArg (fun u : State => u.addProducts c o ta tb scaled i r.1 r.2.1) (readAccs_clean hf' c o.id i.acc.val (tileM i) (tileN i)))

/-- The row of a side that a multiplication takes, with its scales when it is scaled. -/
def State.sideIn (s : State) (b : Nat) (ty : Ty) (d : Desc) (scaled : Bool) (ps : List Nat) (r : Nat) : List Nat × List Nat :=
  (s.sideRow b ty d ps r, if scaled then s.sideScales b ty d ps r else [])

theorem sideRows_in (s : State) (b : Nat) (ty : Ty) (d : Desc) (scaled : Bool) (ps : List Nat) {n r : Nat} (h : r < n) :
    (sideRows ((List.range n).map fun r => s.sideRow b ty d ps r) (if scaled then (List.range n).map fun r => s.sideScales b ty d ps r else []))[r]? =
      some (s.sideIn b ty d scaled ps r) := by
  cases scaled with
  | false => exact sideRows_plain h
  | true => exact sideRows_scaled h

/-- What beginning a multiplication leaves (R206, R207). -/
theorem beginMma_of (ht : tileTypes o.instr = some (ta, tb, scaled)) (hi : xtOf o.instr = some i) (hf : s.faulty = []) (hM : tileM i ≤ 64)
    (hN : tileN i ≤ 64) :
    let r := (s.core c).mmaClaim o
    let u := beginMma c o s
    u.hbm = s.hbm ∧ u.blocks = s.blocks ∧ u.trace = s.trace ∧ (u.core c).warps = (s.core c).warps ∧
      (∀ p, (s.core c).x? o.id = some p → ∃ o', (u.core c).x? o.id = some o' ∧ o'.stage = p.stage) ∧
      (∀ p q, p < tileM i → q < tileN i → (u.core c).acc i.acc.val p q = Fp.Acc.ofBits (product2 ta tb scaled o.sa.desc.s
        (s.sideIn o.block ta o.sa.desc scaled r.1 p) (s.sideIn o.block tb o.sb.desc scaled r.2.1 q) ((s.core c).acc i.acc.val p q)).1.toBits) ∧
      ∀ e p q, p < 64 → q < 64 → e ≠ i.acc.val ∨ tileM i ≤ p ∨ tileN i ≤ q → (u.core c).acc e p q = (s.core c).acc e p q := by
  intro r u
  let v := s.claimTiles c o ta tb scaled
  obtain ⟨hvm, hvb, hvt, -, hvw, hva, hvx⟩ := claimTiles_of s c o ta tb scaled
  let t := v.mmaIn o ta tb scaled i r.1 r.2.1
  obtain ⟨⟨a, honly⟩, hin, hout⟩ := multiply_elems (v.core c) ta tb scaled i.acc.val (t := t) (by simpa [t, State.mmaIn] using hN)
  let y := (v.core c).multiply ta tb scaled i.acc.val t
  let w := (v.setCore c y.1).modX c o.id fun p => { p with evs := y.2 }
  have hu : u = (w.streamBanks c 5 o.sa.desc r.1).streamBanks c 6 o.sb.desc r.2.1 := beginMma_eq ht hi hf
  have hk : KeepsWork w u c := by
    rw [hu]
    exact (keepsWork_streamBanks ..).trans (keepsWork_streamBanks ..)
  have hwc : (w.core c).accs = y.1.accs ∧ (w.core c).warps = y.1.warps := by
    rw [State.core_modX, State.core_setCore_self]
    exact ⟨rfl, rfl⟩
  have hwx : ∀ p, (v.core c).x? o.id = some p → ∃ o', (w.core c).x? o.id = some o' ∧ o'.stage = p.stage := fun p hp => by
    refine ⟨{ p with evs := y.2 }, ?_, rfl⟩
    refine State.x?_modX (s := v.setCore c y.1) (o := p) (f := fun p => { p with evs := y.2 }) ?_
    rw [State.core_setCore_self, honly]
    exact hp
  have hacc : ∀ e p q, (u.core c).acc e p q = y.1.acc e p q := fun e p q => by
    rw [CoreSt.acc, hk.accs, hwc.1]
    rfl
  have hold : ∀ e p q, (v.core c).acc e p q = (s.core c).acc e p q := fun e p q => by
    rw [CoreSt.acc, hva]
    rfl
  have hrow : ∀ (ty : Ty) (d : Desc) (ps : List Nat) k, v.sideIn o.block ty d scaled ps k = s.sideIn o.block ty d scaled ps k := fun ty d ps k => by
    rw [State.sideIn, sideRow_congr hvb, sideScales_congr hvb]
    rfl
  refine ⟨hk.hbm.trans hvm, hk.blocks.trans hvb, hk.trace.trans hvt, ?_, fun p hp => ?_, fun p q hp hq => ?_, fun e p q hp hq he => ?_⟩
  · rw [hk.warps, hwc.2, honly]
    exact hvw
  · obtain ⟨p', hp', hst'⟩ := hvx p hp
    obtain ⟨o', ho', hst⟩ := hwx p' hp'
    exact ⟨o', by rw [CoreSt.x?, hk.xops]; exact ho', hst.trans hst'⟩
  · rw [hacc, hin p q _ _ (sideRows_in v o.block ta o.sa.desc scaled r.1 hp) (sideRows_in v o.block tb o.sb.desc scaled r.2.1 hq), hrow, hrow, hold]
    rfl
  · rw [hacc, hout e p q, hold]
    intro i' hi' j' hj'
    simp only [t, State.mmaIn, List.length_map, List.length_range] at hi' hj'
    rw [Ne, accKey_inj hp hq (by omega) (by omega)]
    omega

end

end Sys2Proof.Machine
end

