-- ==== Sys2Proof/Proofs/TileEffects.lean ====
section
/-! PROOFS. What each operation of the tile engine does as its fill begins: products, converted regions, elements that are saved, and rings (R202 to
R207, R210; log 98). -/

namespace Sys2Proof.Machine
open Claim

/-! ## Beginnings -/

/-- Effect `t` of operation `o` of core `c`, which is `o'` after it, touches no memory, no scratchpad and no warp. -/
structure Begins (s t : State) (c : Nat) (o o' : XOp) : Prop where
  hbm : t.hbm = s.hbm
  blocks : t.blocks = s.blocks
  warps : (t.core c).warps = (s.core c).warps
  op : (t.core c).x? o.id = some o'
  stage : o'.stage = .started

/-- The fill of the head operation of core `c` begins, and `P` holds of the state and the operation that it leaves. -/
def Starts (s : State) (c : Nat) (o : XOp) (P : State → XOp → Prop) : Prop :=
  ∃ t o', exec (.tileFillBegin c) s = .next t ∧ t.hbm = s.hbm ∧ t.blocks = s.blocks ∧ (t.core c).warps = (s.core c).warps ∧
    (t.core c).x? o.id = some o' ∧ o'.stage = .started ∧ P t o'

section
variable {s : State} {c lv at' l : Nat} {o : XOp}

/-- An operation that is changed as it begins. -/
theorem begins_modX (ho : (s.core c).x? o.id = some o) (lv at' l : Nat) {f : XOp → XOp} (hid : ∀ p, (f p).id = p.id) (hst : ∀ p, (f p).stage = p.stage) :
    Begins s ((s.filling c o lv at' l).modX c o.id f) c o (f { o with stage := .started, begun := s.cycle, finish := s.fillEnd o lv at' l + 4 }) := by
  obtain ⟨r, xs, hcore⟩ := filling_core s c o lv at' l
  refine ⟨rfl, rfl, ?_, State.x?_modX (filling_x? ho lv at' l) hid, hst _⟩
  rw [State.core_modX, hcore]

theorem starts_of {P : State → XOp → Prop} {o' : XOp} (hh : (s.core c).tileHead = some o) (hr : (s.core c).ramp = .moving lv at' l)
    (hready : headReady (s.core c) o = true) (hn : ∀ p ∈ (s.core c).xops, p.stage = .queued ∨ p.kind ≠ .tload) (hk : o.kind ≠ .tstac) {t : State}
    (hb : Begins s t c o o') (ht : beginEffect c o (s.filling c o lv at' l) = t) (htr : t.trace = none) (hP : P t o') : Starts s c o P := by
  subst ht
  exact ⟨_, o', fill_begins hh hr hready hn hk htr, hb.hbm, hb.blocks, hb.warps, hb.op, hb.stage, hP⟩

/-- The accumulators of a core whose operation has been changed are those that it began with. -/
theorem accs_filling_modX (f : XOp → XOp) : (((s.filling c o lv at' l).modX c o.id f).core c).accs = (s.core c).accs := by
  obtain ⟨r, xs, hcore⟩ := filling_core s c o lv at' l
  rw [State.core_modX, hcore]

end

/-! ## Products -/

theorem kind_of_tileTypes {o : XOp} {r : Ty × Ty × Bool} (h : tileTypes o.instr = some r) : o.kind = .mma := by
  unfold XOp.kind
  split
  case h_15 => rw [h]; rfl
  all_goals
    rename_i heq
    rw [heq] at h
    cases h

theorem sideIn_congr {s t : State} (h : t.blocks = s.blocks) : t.sideIn = s.sideIn := by
  funext b ty d scaled ps r
  rw [State.sideIn, sideRow_congr h, sideScales_congr h]
  rfl

/-- R206, R207: a multiplication adds its products as its fill begins. -/
theorem mma_begins {s : State} {c lv at' l : Nat} {o : XOp} {ta tb : Ty} {scaled : Bool} {i : XTOp} (hh : (s.core c).tileHead = some o)
    (hr : (s.core c).ramp = .moving lv at' l) (ht : tileTypes o.instr = some (ta, tb, scaled)) (hi : xtOf o.instr = some i) (hM : tileM i ≤ 64)
    (hN : tileN i ≤ 64) (hready : mmaReady (s.core c) o = true) (hn : ∀ p ∈ (s.core c).xops, p.stage = .queued ∨ p.kind ≠ .tload)
    (htr : s.trace = none) (hf : s.faulty = []) :
    let r := (s.core c).mmaClaim o
    ∃ t, exec (.tileFillBegin c) s = .next t ∧ t.hbm = s.hbm ∧ t.blocks = s.blocks ∧ (t.core c).warps = (s.core c).warps ∧
      ((s.core c).x? o.id = some o → ∃ o', (t.core c).x? o.id = some o' ∧ o'.stage = .started) ∧
      (∀ p q, p < tileM i → q < tileN i → (t.core c).acc i.acc.val p q = Fp.Acc.ofBits (product2 ta tb scaled o.sa.desc.s
        (s.sideIn o.block ta o.sa.desc scaled r.1 p) (s.sideIn o.block tb o.sb.desc scaled r.2.1 q) ((s.core c).acc i.acc.val p q)).1.toBits) ∧
      ∀ e p q, p < 64 → q < 64 → e ≠ i.acc.val ∨ tileM i ≤ p ∨ tileN i ≤ q → (t.core c).acc e p q = (s.core c).acc e p q := by
  intro r
  have hk := kind_of_tileTypes ht
  let u := s.filling c o lv at' l
  obtain ⟨hm, hb, htr', hw, hx, hin, hout⟩ := beginMma_of (s := u) (c := c) ht hi hf hM hN
  have heff : beginEffect c o u = beginMma c o u := by simp only [beginEffect, hk]
  have hex := fill_begins hh hr (by simpa [headReady, hk] using hready) hn (by simp [hk]) (heff ▸ htr'.trans htr)
  obtain ⟨rm, xs, hcore⟩ := filling_core s c o lv at' l
  have hclaim : ((u.core c).mmaClaim o).1 = r.1 ∧ ((u.core c).mmaClaim o).2.1 = r.2.1 := by
    rw [hcore]
    exact ⟨rfl, rfl⟩
  have hacc : (u.core c).acc = (s.core c).acc := by
    rw [hcore]
    rfl
  have hside : u.sideIn = s.sideIn := sideIn_congr rfl
  rw [hacc, hclaim.1, hclaim.2, hside] at hin
  rw [hacc] at hout
  exact ⟨_, heff ▸ hex, hm, hb, hw.trans (by rw [hcore]), fun ho => hx _ (filling_x? ho lv at' l), hin, hout⟩

end Sys2Proof.Machine
end

