-- ==== Sys2Proof/Proofs/TileDrains.lean ====
section
/-! PROOFS. The region that a drain converts, element by element, and the transaction that `tstac` opens (R106, R202, R203, R263). -/

namespace Sys2Proof.Machine
open Claim

/-! ## Digits -/

/-- The number whose digits to base `b` are those of `f`. -/
def digitSum (b : Nat) (f : Nat → Nat) (n : Nat) : Nat := ((List.range n).map fun j => f j % b * b ^ j).sum

theorem digitSum_succ (b : Nat) (f : Nat → Nat) (n : Nat) : digitSum b f (n + 1) = digitSum b f n + f n % b * b ^ n := by
  simp [digitSum, List.range_succ]

theorem digitSum_lt {b : Nat} (hb : 0 < b) (f : Nat → Nat) (n : Nat) : digitSum b f n < b ^ n := by
  induction n with
  | zero => simp [digitSum]
  | succ n ih =>
    have hd : f n % b < b := Nat.mod_lt _ hb
    calc digitSum b f (n + 1) = digitSum b f n + f n % b * b ^ n := digitSum_succ ..
      _ < b ^ n + f n % b * b ^ n := Nat.add_lt_add_right ih _
      _ = (f n % b + 1) * b ^ n := by ring
      _ ≤ b * b ^ n := Nat.mul_le_mul_right _ hd
      _ = b ^ (n + 1) := by ring

/-- Digits above a place do not reach it. -/
theorem add_mul_digit {b : Nat} (hb : 0 < b) (x y : Nat) {j n : Nat} (h : j < n) : (x + y * b ^ n) / b ^ j % b = x / b ^ j % b := by
  obtain ⟨k, rfl⟩ := Nat.exists_eq_add_of_lt h
  rw [show y * b ^ (j + k + 1) = b ^ j * (b * (y * b ^ k)) by ring, Nat.add_mul_div_left _ _ (Nat.pow_pos hb), Nat.add_mul_mod_self_left]

theorem digitSum_digit {b : Nat} (hb : 0 < b) (f : Nat → Nat) {n j : Nat} (h : j < n) : digitSum b f n / b ^ j % b = f j % b := by
  induction n with
  | zero => omega
  | succ n ih =>
    rw [digitSum_succ]
    obtain hj | rfl := Nat.lt_succ_iff_lt_or_eq.1 h
    · rw [add_mul_digit hb _ _ hj, ih hj]
    · rw [Nat.add_mul_div_right _ _ (Nat.pow_pos hb), Nat.div_eq_of_lt (digitSum_lt hb f j), Nat.zero_add, Nat.mod_mod]

/-- Place `k` of a number written to base `b` holds its digit `k`, with the digits above it. -/
theorem foldr_place {α : Type} (g : α → Nat) {b : Nat} (hb : 0 < b) {xs : List α} (hx : ∀ a ∈ xs, g a < b) {k : Nat} {a : α} (ha : xs[k]? = some a) :
    ∃ y, xs.foldr (fun a v => g a + v * b) 0 / b ^ k = g a + y * b := by
  induction xs generalizing k with
  | nil => simp at ha
  | cons x xs ih =>
    cases k with
    | zero =>
      obtain rfl : x = a := by simpa using ha
      exact ⟨_, by rw [pow_zero, Nat.div_one, List.foldr_cons]⟩
    | succ k =>
      obtain ⟨y, hy⟩ := ih (fun c hc => hx c (List.mem_cons_of_mem _ hc)) (by simpa using ha)
      refine ⟨y, ?_⟩
      rw [List.foldr_cons, pow_succ', ← Nat.div_div_eq_div_mul, Nat.add_mul_div_right _ _ hb, Nat.div_eq_of_lt (hx x (List.mem_cons_self ..)), Nat.zero_add, hy]

/-! ## A converted region -/

/-- An element of a region as it is converted (R106). -/
def CoreSt.converted (x : CoreSt) (i : XCOp) (r j : Nat) : Nat := (Fp.toTy (gtTy i) (llRm i) .none (x.acc (llAcc i) r j).val).1

theorem drainRow_fst (x : CoreSt) (tile r n : Nat) (ty : Ty) (rm : RM) :
    (drainRow x tile r n ty rm).1 = digitSum (2 ^ tyBits ty) (fun j => (Fp.toTy ty rm .none (x.acc tile r j).val).1) n := by
  induction n with
  | zero => rfl
  | succ n ih =>
    rw [digitSum_succ, ← ih, drainRow, List.range_succ, List.foldl_concat, pow_mul]
    rfl

/-- The rows of the region that an operation converts (R202). -/
def XOp.drained (o : XOp) (x : CoreSt) (i : XCOp) : List (Nat × BitVec 8) :=
  (List.range (o.src.toNat % 128)).map fun r => drainRow x (llAcc i) r (o.src.toNat / 256 % 128) (gtTy i) (llRm i)

/-- The bytes of a converted row. -/
def XOp.drainLen (o : XOp) (i : XCOp) : Nat := rowLen (gtTy i) (o.src.toNat / 256 % 128)

/-- The units of `tdrain`, one for each row (R203). -/
def XOp.drainUnits (o : XOp) (x : CoreSt) (i : XCOp) : List CopyUnit :=
  (o.drained x i).zipIdx.map fun p =>
    { src := .nowhere, dst := .sp o.block (o.dst.toNat + p.2 * (o.src.toNat / 2 ^ 32)), n := o.drainLen i, m := o.drainLen i, data := some p.1.1, done := false }

/-- The image that `tstac` stores (R203). -/
def XOp.drainImage (o : XOp) (x : CoreSt) (i : XCOp) : Nat := (o.drained x i).foldr (fun r v => r.1 + v * 256 ^ o.drainLen i) 0

theorem shapeOf_eq (x : BitVec 64) : shapeOf x.toNat = (x.toNat % 128, x.toNat / 256 % 128, x.toNat / 2 ^ 32) := by
  have hx := x.isLt
  simp only [shapeOf, bits, Nat.shiftRight_eq_div_pow, Prod.mk.injEq]
  refine ⟨?_, ?_, ?_⟩ <;> omega

theorem drained_get (o : XOp) (x : CoreSt) (i : XCOp) {r : Nat} (h : r < o.src.toNat % 128) :
    (o.drained x i)[r]? = some (drainRow x (llAcc i) r (o.src.toNat / 256 % 128) (gtTy i) (llRm i)) := by
  simp [XOp.drained, h]

/-- An element of a converted row. -/
theorem drainRow_elem (x : CoreSt) (i : XCOp) (r : Nat) {n j : Nat} (h : j < n) :
    (drainRow x (llAcc i) r n (gtTy i) (llRm i)).1 / 2 ^ (tyBits (gtTy i) * j) % 2 ^ tyBits (gtTy i) = x.converted i r j % 2 ^ tyBits (gtTy i) := by
  rw [drainRow_fst, pow_mul, digitSum_digit (Nat.two_pow_pos _) _ h]
  rfl

/-- An element of the image: the rows do not run into each other (R202). -/
theorem drainImage_elem (o : XOp) (x : CoreSt) (i : XCOp) (hw : tyBits (gtTy i) * (o.src.toNat / 256 % 128) = 8 * o.drainLen i) {r j : Nat}
    (hr : r < o.src.toNat % 128) (hj : j < o.src.toNat / 256 % 128) :
    o.drainImage x i / 256 ^ (o.drainLen i * r) / 2 ^ (tyBits (gtTy i) * j) % 2 ^ tyBits (gtTy i) = x.converted i r j % 2 ^ tyBits (gtTy i) := by
  have hbase : (256 : Nat) ^ o.drainLen i = (2 ^ tyBits (gtTy i)) ^ (o.src.toNat / 256 % 128) := by
    rw [← pow_mul, hw, pow_mul]
    norm_num
  have hlt : ∀ p ∈ o.drained x i, p.1 < 256 ^ o.drainLen i := fun p hp => by
    obtain ⟨k, -, rfl⟩ := List.mem_map.1 hp
    rw [hbase, drainRow_fst]
    exact digitSum_lt (Nat.two_pow_pos _) ..
  obtain ⟨y, hy⟩ := foldr_place (fun p : Nat × BitVec 8 => p.1) (by positivity) hlt (drained_get o x i hr)
  rw [XOp.drainImage, pow_mul, hy, hbase, pow_mul, add_mul_digit (Nat.two_pow_pos _) _ _ hj, ← pow_mul, drainRow_elem x i r hj]

theorem drainUnits_get (o : XOp) (x : CoreSt) (i : XCOp) {r : Nat} (h : r < o.src.toNat % 128) : ∃ u, (o.drainUnits x i)[r]? = some u ∧
    u.bad = false ∧ u.dst = .sp o.block (o.dst.toNat + r * (o.src.toNat / 2 ^ 32)) ∧ u.m = o.drainLen i ∧
    u.data = some (drainRow x (llAcc i) r (o.src.toNat / 256 % 128) (gtTy i) (llRm i)).1 :=
  ⟨_, by rw [XOp.drainUnits, List.getElem?_map, List.getElem?_zipIdx, drained_get o x i h]; rfl, rfl, by rw [Nat.zero_add], rfl, rfl⟩

/-- A drain converts its region and keeps it in its units (R203). -/
theorem beginDrain_eq {s : State} {c : Nat} {o : XOp} {i : XCOp} (hi : xcOf o.instr = some i) (hf : s.faulty = []) :
    ∃ ev, beginDrain c o s = s.modX c o.id fun p =>
      { p with units := if o.kind = .drain then o.drainUnits (s.core c) i else imageUnits (o.drainImage (s.core c) i) o.units, evs := ev } := by
  refine ⟨(o.drained (s.core c) i).foldl (fun e r => e ||| r.2) (0 : BitVec 8), ?_⟩
  unfold beginDrain
  rw [hi]
  dsimp only
  rw [shapeOf_eq]
  dsimp only
  rw [readAccs_clean hf]
  rfl

end Sys2Proof.Machine
end

