-- ==== Sys2Proof/Proofs/TileStarts.lean ====
section
/-! PROOFS. The operations of the tile engine that convert, save or load an accumulator, and those that move a ring, as their fill begins (R197, R202
to R204, R210, R263). -/

namespace Sys2Proof.Machine
open Claim

/-! ## Drains -/

section
variable {s : State} {c lv at' l : Nat} {o : XOp}

/-- The accumulators are those that the core held before the fill. -/
theorem converted_filling (i : XCOp) (r j : Nat) : ((s.filling c o lv at' l).core c).converted i r j = (s.core c).converted i r j := by
  obtain ⟨rm, xs, hcore⟩ := filling_core s c o lv at' l
  rw [hcore]
  rfl

/-- R203: `tdrain` converts its region, a unit for each row. -/
theorem tdrain_starts {i : XCOp} (hh : (s.core c).tileHead = some o) (ho : (s.core c).x? o.id = some o) (hr : (s.core c).ramp = .moving lv at' l)
    (hn : ∀ p ∈ (s.core c).xops, p.stage = .queued ∨ p.kind ≠ .tload) (htr : s.trace = none) (hf : s.faulty = []) (hi : o.instr = .tdrain i) :
    Starts s c o fun t o' => (t.core c).accs = (s.core c).accs ∧ o'.units.length = o.src.toNat % 128 ∧ ∀ r < o.src.toNat % 128, ∃ u v,
      o'.units[r]? = some u ∧ u.bad = false ∧ u.dst = .sp o.block (o.dst.toNat + r * (o.src.toNat / 2 ^ 32)) ∧ u.m = o.drainLen i ∧ u.data = some v ∧
      ∀ j < o.src.toNat / 256 % 128, v / 2 ^ (tyBits (gtTy i) * j) % 2 ^ tyBits (gtTy i) = (s.core c).converted i r j % 2 ^ tyBits (gtTy i) := by
  have hk : o.kind = .drain := by simp [XOp.kind, hi]
  let u := s.filling c o lv at' l
  obtain ⟨ev, heff⟩ := beginDrain_eq (s := u) (c := c) (o := o) (i := i) (by rw [hi]; rfl) hf
  rw [if_pos hk] at heff
  let f (p : XOp) : XOp := { p with units := o.drainUnits (u.core c) i, evs := ev }
  refine starts_of hh hr (by simp [headReady, hk]) hn (by simp [hk]) (begins_modX ho lv at' l (f := f) (fun _ => rfl) fun _ => rfl)
    (by simp only [beginEffect, hk]; exact heff) htr ⟨accs_filling_modX .., by simp [f, XOp.drainUnits, XOp.drained], fun r h => ?_⟩
  obtain ⟨y, hy, hbad, hdst, hm, hdata⟩ := drainUnits_get o (u.core c) i h
  exact ⟨y, _, hy, hbad, hdst, hm, hdata, fun j hj => by rw [drainRow_elem _ _ _ hj, converted_filling]⟩

/-- The transaction that `tstac` opens after the effect of its beginning (R203, R263). -/
def State.opensStore (s : State) (c : Nat) (o : XOp) (now : Nat) : State :=
  match o.kind, (s.core c).x? o.id with
  | .tstac, some p =>
    let r := s.openTx (2 * c + 1) true c p.id none (s.globPieces p.units) [] [] now
    r.2.modX c p.id fun q => { q with tx := some r.1 }
  | _, _ => s

theorem doTileFillBegin_eq (hh : (s.core c).tileHead = some o) (hr : (s.core c).ramp = .moving lv at' l) :
    doTileFillBegin c s = ((beginEffect c o (s.filling c o lv at' l)).traceX 5 c o).opensStore c o (s.fillEnd o lv at' l + 4) := by
  rw [doTileFillBegin, hh, hr]
  rfl

/-- A fill that opens a transaction: the effect of its beginning, and the transaction after it (R203, R263). -/
theorem tstac_begins {t : State} {o' : XOp} (hh : (s.core c).tileHead = some o) (hr : (s.core c).ramp = .moving lv at' l)
    (hn : ∀ p ∈ (s.core c).xops, p.stage = .queued ∨ p.kind ≠ .tload) (hk : o.kind = .tstac) (ht : beginEffect c o (s.filling c o lv at' l) = t)
    (htr : t.trace = none) (ho : (t.core c).x? o.id = some o') :
    ∃ x n, exec (.tileFillBegin c) s = .next ((t.withTx x n).modX c o.id fun p => { p with tx := some x.id }) ∧
      x.store = true ∧ x.req = 2 * c + 1 ∧ x.op = o.id := by
  obtain ⟨x, n, hopen, hstore, hreq, -, hop, -, -⟩ := openTx_of t (2 * c + 1) true c o.id (t.globPieces o'.units) (s.fillEnd o lv at' l + 4)
  have hid := CoreSt.x?_id ho
  have hdo : doTileFillBegin c s = (t.withTx x n).modX c o.id fun p => { p with tx := some x.id } := by
    rw [doTileFillBegin_eq hh hr, ht, State.traceX_off htr, State.opensStore, hk, ho]
    dsimp only
    rw [hid]
    exact congrArg (fun r : Nat × State => r.2.modX c o.id fun p => { p with tx := some r.1 }) hopen
  exact ⟨x, n, (event_of (canFill hh hr (by simp [headReady, hk]) hn) ..).trans (by rw [hdo]), hstore, hreq, hop⟩

/-- R203: `tstac` converts its region into the image that it stores, and opens its transaction. -/
theorem tstac_starts {i : XCOp} (hh : (s.core c).tileHead = some o) (ho : (s.core c).x? o.id = some o) (hr : (s.core c).ramp = .moving lv at' l)
    (hn : ∀ p ∈ (s.core c).xops, p.stage = .queued ∨ p.kind ≠ .tload) (htr : s.trace = none) (hf : s.faulty = []) (hi : o.instr = .tstac i)
    (hw : tyBits (gtTy i) * (o.src.toNat / 256 % 128) = 8 * o.drainLen i) :
    Starts s c o fun t o' => (t.core c).accs = (s.core c).accs ∧ ∃ img x, o'.units = imageUnits img o.units ∧ t.txs = s.txs ++ [x] ∧ x.store = true ∧
      x.req = 2 * c + 1 ∧ x.op = o.id ∧ o'.tx = some x.id ∧ ∀ r < o.src.toNat % 128, ∀ j < o.src.toNat / 256 % 128,
        img / 256 ^ (o.drainLen i * r) / 2 ^ (tyBits (gtTy i) * j) % 2 ^ tyBits (gtTy i) = (s.core c).converted i r j % 2 ^ tyBits (gtTy i) := by
  have hk : o.kind = .tstac := by simp [XOp.kind, hi]
  let u := s.filling c o lv at' l
  obtain ⟨ev, heff⟩ := beginDrain_eq (s := u) (c := c) (o := o) (i := i) (by rw [hi]; rfl) hf
  rw [if_neg (by simp [hk])] at heff
  let img := o.drainImage (u.core c) i
  let f (p : XOp) : XOp := { p with units := imageUnits img o.units, evs := ev }
  obtain ⟨hm, hb, hwarps, hop, hst⟩ := begins_modX ho lv at' l (f := f) (fun _ => rfl) fun _ => rfl
  obtain ⟨x, n, hex, hstore, hreq, hxop⟩ := tstac_begins (t := u.modX c o.id f) hh hr hn hk (by simp only [beginEffect, hk]; exact heff) htr hop
  have hcore := State.core_modX ((u.modX c o.id f).withTx x n) c o.id fun p => { p with tx := some x.id }
  refine ⟨_, _, hex, hm, hb, ?_, State.x?_modX (s := (u.modX c o.id f).withTx x n) hop, hst, ?_, img, x, rfl, rfl, hstore, hreq, hxop, rfl, fun r h j hj => ?_⟩
  · rw [hcore]
    exact hwarps
  · rw [hcore]
    exact accs_filling_modX f
  · rw [drainImage_elem o _ i hw h hj, converted_filling]

/-! ## Whole accumulators -/

/-- R204: `tsave` reads every element. -/
theorem tsave_starts {i : XCOp} (hh : (s.core c).tileHead = some o) (ho : (s.core c).x? o.id = some o) (hr : (s.core c).ramp = .moving lv at' l)
    (hn : ∀ p ∈ (s.core c).xops, p.stage = .queued ∨ p.kind ≠ .tload) (htr : s.trace = none) (hf : s.faulty = []) (hi : o.instr = .tsave i) :
    Starts s c o fun t o' => (t.core c).accs = (s.core c).accs ∧ o'.units.length = o.units.length ∧
      ∀ (k : Nat) (u : CopyUnit), o.units[k]? = some u →
        o'.units[k]? = some { u with data := some (FMap.getD (s.core c).accs (llAcc i * 4096 + k) 0).toNat } := by
  have hk : o.kind = .tsave := by simp [XOp.kind, hi]
  let u := s.filling c o lv at' l
  let f (p : XOp) : XOp := { p with units := p.units.zipIdx.map fun q =>
    { q.1 with data := some (FMap.getD (s.core c).accs (llAcc i * 4096 + q.2) 0).toNat } }
  have haccs : (u.core c).accs = (s.core c).accs := by
    obtain ⟨rm, xs, hcore⟩ := filling_core s c o lv at' l
    rw [hcore]
  have heff : beginSave c o u = u.modX c o.id f := by
    unfold beginSave
    rw [show xcOf o.instr = some i by rw [hi]; rfl]
    dsimp only
    rw [readAccs_clean (s := u) hf, haccs]
  refine starts_of hh hr (by simp [headReady, hk]) hn (by simp [hk]) (begins_modX ho lv at' l (f := f) (fun _ => rfl) fun _ => rfl)
    (by simp only [beginEffect, hk]; exact heff) htr ⟨accs_filling_modX .., by simp [f], fun k y hy => ?_⟩
  simp [f, hy]

/-- An effect that changes nothing begins. -/
theorem begins_filling (ho : (s.core c).x? o.id = some o) (lv at' l : Nat) :
    Begins s (s.filling c o lv at' l) c o { o with stage := .started, begun := s.cycle, finish := s.fillEnd o lv at' l + 4 } := by
  obtain ⟨rm, xs, hcore⟩ := filling_core s c o lv at' l
  exact ⟨rfl, rfl, by rw [hcore], filling_x? ho lv at' l, rfl⟩

/-- R204: `tload` changes nothing as it begins. -/
theorem tload_starts {i : XCOp} (hh : (s.core c).tileHead = some o) (ho : (s.core c).x? o.id = some o) (hr : (s.core c).ramp = .moving lv at' l)
    (hn : ∀ p ∈ (s.core c).xops, p.stage = .queued ∨ p.kind ≠ .tload) (htr : s.trace = none) (hi : o.instr = .tload i) :
    Starts s c o fun t o' => (t.core c).accs = (s.core c).accs ∧ o'.units = o.units := by
  have hk : o.kind = .tload := by simp [XOp.kind, hi]
  obtain ⟨rm, xs, hcore⟩ := filling_core s c o lv at' l
  exact starts_of hh hr (by simp [headReady, hk]) hn (by simp [hk]) (begins_filling ho lv at' l) (by simp only [beginEffect, hk]) htr ⟨by rw [hcore], rfl⟩

/-! ## Rings -/

/-- An effect on the rings of the core alone begins. -/
theorem begins_rings (ho : (s.core c).x? o.id = some o) (lv at' l : Nat) {f : CoreSt → CoreSt} (hf : ∀ x, OnlyRings x (f x)) :
    Begins s ((s.filling c o lv at' l).modCore c f) c o { o with stage := .started, begun := s.cycle, finish := s.fillEnd o lv at' l + 4 } ∧
      (((s.filling c o lv at' l).modCore c f).core c).accs = (s.core c).accs := by
  obtain ⟨hm, hb, hw, hop, hst⟩ := begins_filling ho lv at' l
  obtain ⟨rm, xs, hcore⟩ := filling_core s c o lv at' l
  obtain ⟨st, rl, hx⟩ := hf ((s.filling c o lv at' l).core c)
  have ht := State.core_modCore (s.filling c o lv at' l) c f
  rw [hx] at ht
  refine ⟨⟨hm, hb, ?_, ?_, hst⟩, ?_⟩
  · rw [ht]
    exact hw
  · rw [ht]
    exact hop
  · rw [ht, hcore]

theorem sameRings_setStrm (n k : Nat) (v : DWord) {x y : CoreSt} (h : SameRings x y) : SameRings (x.setStrm n k v) (y.setStrm n k v) := by
  obtain ⟨hs, hr⟩ := h
  simp only [SameRings, CoreSt.setStrm, hs, hr, and_self]

theorem sameRings_claim (n len k : Nat) {x y : CoreSt} (h : SameRings x y) : (y.claim n len k).1 = (x.claim n len k).1 ∧
    SameRings (x.claim n len k).2 (y.claim n len k).2 := by
  have hstrm : y.strm n 2 = x.strm n 2 := by rw [CoreSt.strm, CoreSt.strm, h.1]
  simp only [CoreSt.claim, hstrm, true_and]
  exact sameRings_setStrm n 2 _ h

/-- A core that drops `k` tiles of a ring. -/
def CoreSt.dropTiles (x : CoreSt) (n len k : Nat) : CoreSt := (x.claim n len k).2.release n len (x.claim n len k).1

theorem onlyRings_dropTiles (n len k : Nat) (x : CoreSt) : OnlyRings x (x.dropTiles n len k) := onlyRings_trans (onlyRings_claim ..) (onlyRings_release ..)

theorem sameRings_dropTiles (n len k : Nat) {x y : CoreSt} (h : SameRings x y) : SameRings (x.dropTiles n len k) (y.dropTiles n len k) := by
  obtain ⟨hp, hc⟩ := sameRings_claim n len k h
  rw [CoreSt.dropTiles, CoreSt.dropTiles, hp]
  exact sameRings_release n len _ hc

/-- R210: `sadv` drops tiles of a ring. -/
theorem sadv_starts {i : XTOp} (hh : (s.core c).tileHead = some o) (ho : (s.core c).x? o.id = some o) (hr : (s.core c).ramp = .moving lv at' l)
    (hn : ∀ p ∈ (s.core c).xops, p.stage = .queued ∨ p.kind ≠ .tload) (htr : s.trace = none) (hi : o.instr = .sadv i)
    (hp : i.kst.val + 1 ≤ (s.core c).present o.sa.n o.sa.desc.len) :
    Starts s c o fun t _ => (t.core c).accs = (s.core c).accs ∧
      (t.core c).streams = ((s.core c).dropTiles o.sa.n o.sa.desc.len (i.kst.val + 1)).streams := by
  have hk : o.kind = .sadv := by simp [XOp.kind, hi]
  obtain ⟨rm, xs, hcore⟩ := filling_core s c o lv at' l
  have hsame : SameRings (s.core c) ((s.filling c o lv at' l).core c) := by
    rw [hcore]
    exact ⟨rfl, rfl⟩
  obtain ⟨hbegins, haccs⟩ := begins_rings ho lv at' l (onlyRings_dropTiles o.sa.n o.sa.desc.len (i.kst.val + 1))
  refine starts_of hh hr (by simp [headReady, hk, hi, xtOf, hp]) hn (by simp [hk]) hbegins (by simp only [beginEffect, hk, hi, xtOf]; rfl) htr ⟨haccs, ?_⟩
  rw [State.core_modCore]
  exact (sameRings_dropTiles _ _ _ hsame).1

/-- A core with one ring emptied. -/
def CoreSt.emptied (n : Nat) (x : CoreSt) : CoreSt := { x with released := x.released.filter fun p => p.1 ≠ n }.setStrm n 2 0

theorem emptied_strm_self (n : Nat) (x : CoreSt) : (x.emptied n).strm n 2 = 0 := by
  rw [CoreSt.strm, CoreSt.emptied, CoreSt.setStrm, FMap.getD_put_self]

theorem emptied_strm_ne {m n k : Nat} (x : CoreSt) (hk : k < 4) (h : (n, k) ≠ (m, 2)) : (x.emptied m).strm n k = x.strm n k := by
  have hkey : n * 4 + k ≠ m * 4 + 2 := fun heq => h (by rw [Prod.mk.injEq]; omega)
  rw [CoreSt.strm, CoreSt.emptied, CoreSt.setStrm, FMap.getD_put_ne _ _ _ _ hkey]
  rfl

/-- R210: `sreset` empties one ring. -/
theorem sreset_starts {i : XTOp} (hh : (s.core c).tileHead = some o) (ho : (s.core c).x? o.id = some o) (hr : (s.core c).ramp = .moving lv at' l)
    (hn : ∀ p ∈ (s.core c).xops, p.stage = .queued ∨ p.kind ≠ .tload) (htr : s.trace = none) (hi : o.instr = .sreset i)
    (hfree : ptrFree ((s.core c).strm o.sa.n 2).toNat = ptrHead ((s.core c).strm o.sa.n 2).toNat)
    (hrsv : ptrRsv ((s.core c).strm o.sa.n 2).toNat = ptrTail ((s.core c).strm o.sa.n 2).toNat) :
    Starts s c o fun t _ => (t.core c).accs = (s.core c).accs ∧ (t.core c).strm o.sa.n 2 = 0 ∧
      (∀ n k, k < 4 → (n, k) ≠ (o.sa.n, 2) → (t.core c).strm n k = (s.core c).strm n k) ∧ ∀ p ∈ (t.core c).released, p.1 ≠ o.sa.n := by
  have hk : o.kind = .sreset := by simp [XOp.kind, hi]
  obtain ⟨rm, xs, hcore⟩ := filling_core s c o lv at' l
  obtain ⟨hbegins, haccs⟩ := begins_rings ho lv at' l (f := CoreSt.emptied o.sa.n) fun x => ⟨_, _, rfl⟩
  have ht : ((s.filling c o lv at' l).modCore c (CoreSt.emptied o.sa.n)).core c = CoreSt.emptied o.sa.n { s.core c with ramp := rm, xops := xs } := by
    rw [State.core_modCore, hcore]
  refine starts_of hh hr (by simp [headReady, hk, hfree, hrsv]) hn (by simp [hk]) hbegins (by simp only [beginEffect, hk]; rfl) htr
    ⟨haccs, ?_, fun n k hk hne => ?_, fun p hp => ?_⟩
  · rw [ht]
    exact emptied_strm_self ..
  · rw [ht]
    exact emptied_strm_ne _ hk hne
  · rw [ht] at hp
    simpa using (List.mem_filter.1 hp).2

end

end Sys2Proof.Machine
end

