-- ==== Sys2Proof/Proofs/EngineSteps.lean ====
section
/-! PROOFS. The steps of the engines of a core, settled from the lemmas about each (O43). -/

namespace Sys2Proof.Machine
open Claim

/-! ## The source of a tile store -/

theorem source_off (o : XOp) (x : CoreSt) :
    (o.source x).off = if o.ringSource then (match (x.claim o.sa.n o.sa.desc.len 1).1 with
      | p :: _ => o.sa.desc.slotOff p
      | [] => o.src.toNat) else o.src.toNat := by
  unfold XOp.source
  cases o.ringSource <;> rfl

theorem source_streams (o : XOp) (x : CoreSt) :
    (o.source x).core.streams = (if o.ringSource then (x.claim o.sa.n o.sa.desc.len 1).2 else x).streams := by
  unfold XOp.source
  cases o.ringSource <;> rfl

/-- A tile store whose places are all on this device stays there (R201). -/
theorem leaves_local {s : State} {o : XOp} (h : ∀ u ∈ o.units, ∃ p m, u.dst = .glob p m ∧ s.remote p = false) : o.leaves s = false := by
  refine List.any_eq_false.2 fun u hu => ?_
  obtain ⟨p, m, hd, hr⟩ := h u hu
  simp [hd, hr]

/-! ## The tile engine -/

theorem Starts.imp {s : State} {c : Nat} {o : XOp} {P Q : State → XOp → Prop} (h : Starts s c o P) (hPQ : ∀ t o', P t o' → Q t o') : Starts s c o Q := by
  obtain ⟨t, o', hex, hm, hb, hw, hop, hst, hP⟩ := h
  exact ⟨t, o', hex, hm, hb, hw, hop, hst, hPQ t o' hP⟩

section
variable {s : State} {c lv at' l : Nat} {o : XOp}

/-- R206: the products of a plain multiplication. -/
theorem tmma_fills {i : XTOp} {ta tb : Ty} (hh : (s.core c).tileHead = some o) (hr : (s.core c).ramp = .moving lv at' l)
    (ht : tileTypes o.instr = some (ta, tb, false)) (hi : xtOf o.instr = some i) (hM : tileM i ≤ 64) (hN : tileN i ≤ 64)
    (hready : mmaReady (s.core c) o = true) (hn : ∀ p ∈ (s.core c).xops, p.stage = .queued ∨ p.kind ≠ .tload) (htr : s.trace = none)
    (hf : s.faulty = []) :
    let r := (s.core c).mmaClaim o
    ∃ t, exec (.tileFillBegin c) s = .next t ∧ t.hbm = s.hbm ∧ t.blocks = s.blocks ∧ (t.core c).warps = (s.core c).warps ∧
      (∀ p q, p < tileM i → q < tileN i → (t.core c).acc i.acc.val p q = Fp.Acc.ofBits (dotPlain ta tb (s.sideRow o.block ta o.sa.desc r.1 p)
        (s.sideRow o.block tb o.sb.desc r.2.1 q) ((s.core c).acc i.acc.val p q)).1.toBits) ∧
      ∀ e p q, p < 64 → q < 64 → e ≠ i.acc.val ∨ tileM i ≤ p ∨ tileN i ≤ q → (t.core c).acc e p q = (s.core c).acc e p q := by
  obtain ⟨t, hex, hm, hb, hw, -, hin, hout⟩ := mma_begins hh hr ht hi hM hN hready hn htr hf
  exact ⟨t, hex, hm, hb, hw, hin, hout⟩

/-- R207: the products of a scaled multiplication. -/
theorem tmmas_starts {i : XTOp} {ta tb : Ty} (hh : (s.core c).tileHead = some o) (ho : (s.core c).x? o.id = some o)
    (hr : (s.core c).ramp = .moving lv at' l) (hn : ∀ p ∈ (s.core c).xops, p.stage = .queued ∨ p.kind ≠ .tload) (htr : s.trace = none)
    (hf : s.faulty = []) (ht : tileTypes o.instr = some (ta, tb, true)) (hi : xtOf o.instr = some i) (hM : tileM i ≤ 64) (hN : tileN i ≤ 64)
    (hready : mmaReady (s.core c) o = true) :
    let r := (s.core c).mmaClaim o
    Starts s c o fun t _ =>
      (∀ p q, p < tileM i → q < tileN i → (t.core c).acc i.acc.val p q = Fp.Acc.ofBits (dotScaled ta tb o.sa.desc.s
        ((s.sideRow o.block ta o.sa.desc r.1 p).zip (s.sideRow o.block tb o.sb.desc r.2.1 q))
        ((s.sideScales o.block ta o.sa.desc r.1 p).zip (s.sideScales o.block tb o.sb.desc r.2.1 q)) ((s.core c).acc i.acc.val p q)).1.toBits) ∧
      ∀ e p q, p < 64 → q < 64 → e ≠ i.acc.val ∨ tileM i ≤ p ∨ tileN i ≤ q → (t.core c).acc e p q = (s.core c).acc e p q := by
  obtain ⟨t, hex, hm, hb, hw, hx, hin, hout⟩ := mma_begins hh hr ht hi hM hN hready hn htr hf
  obtain ⟨o', hop, hst⟩ := hx ho
  exact ⟨t, o', hex, hm, hb, hw, hop, hst, hin, hout⟩

/-- R202, R203: what a drain converts, into units of scratchpad or into the image of a store. -/
def DrainStarts (s : State) (c : Nat) (o : XOp) (i : XCOp) (t : State) (o' : XOp) : Prop :=
  let w := tyBits (gtTy i)
  (t.core c).accs = (s.core c).accs ∧
    (o.instr = .tdrain i → o'.units.length = o.src.toNat % 128 ∧ ∀ r < o.src.toNat % 128, ∃ u v, o'.units[r]? = some u ∧ u.bad = false ∧
      u.dst = .sp o.block (o.dst.toNat + r * (o.src.toNat / 2 ^ 32)) ∧ u.m = o.drainLen i ∧ u.data = some v ∧
      ∀ j < o.src.toNat / 256 % 128, v / 2 ^ (w * j) % 2 ^ w = (s.core c).converted i r j % 2 ^ w) ∧
    (o.instr = .tstac i → ∃ img x, o'.units = imageUnits img o.units ∧ t.txs = s.txs ++ [x] ∧ x.store = true ∧ x.req = 2 * c + 1 ∧ x.op = o.id ∧
      o'.tx = some x.id ∧ ∀ r < o.src.toNat % 128, ∀ j < o.src.toNat / 256 % 128,
        img / 256 ^ (o.drainLen i * r) / 2 ^ (w * j) % 2 ^ w = (s.core c).converted i r j % 2 ^ w)

theorem drain_starts {i : XCOp} (hh : (s.core c).tileHead = some o) (ho : (s.core c).x? o.id = some o) (hr : (s.core c).ramp = .moving lv at' l)
    (hn : ∀ p ∈ (s.core c).xops, p.stage = .queued ∨ p.kind ≠ .tload) (htr : s.trace = none) (hf : s.faulty = [])
    (hi : o.instr = .tdrain i ∨ o.instr = .tstac i) (hw : tyBits (gtTy i) * (o.src.toNat / 256 % 128) = 8 * o.drainLen i) :
    Starts s c o (DrainStarts s c o i) := by
  obtain hi | hi := hi
  · refine (tdrain_starts hh ho hr hn htr hf hi).imp fun t o' ⟨hacc, hlen, hrows⟩ => ⟨hacc, fun _ => ⟨hlen, hrows⟩, fun h => ?_⟩
    rw [hi] at h
    cases h
  · refine (tstac_starts hh ho hr hn htr hf hi hw).imp fun t o' ⟨hacc, hstore⟩ => ⟨hacc, fun h => ?_, fun _ => hstore⟩
    rw [hi] at h
    cases h

end

/-- Settles O43, from the lemma of each step: starts of the copy queue, moves unit by unit, the tile engine's whole effects, and completions. -/
theorem engineSteps : Obligations.EngineSteps := by
  refine ⟨fun c id s o ho hc h₁ h₂ h₃ ht => copy_starts ho hc h₁ h₂ h₃ ht, fun c id s o ho hc hk ht => tld_starts ho hc hk ht,
    fun c id s o w pa ms a b off n ho hk hn hst hu ha hm hp hul hf hwp harr _ _ ht hw hb =>
      copy_completes ho hk hn hst hu ha hm hp hul hf hwp harr ht hw hb,
    fun c id rank s o b y ho hk hst hrank hall hb harr => multicast_delivers ho hk hst hrank hall hb harr,
    fun c s o lv at' l i hh hr hi hn ht => tzero_fills hh hr hi hn ht,
    fun c s o lv at' l i ta tb hh hr ht hi hM hN hready hn htr hf => tmma_fills hh hr ht hi hM hN hready hn htr hf,
    fun c s hc => tamper_grants hc, fun c s lv at' l e hr he => engine_idles hr he,
    fun c id s o i u pa ms a ho hby hst hu hs hn hl ha hp hf hw => copy_reads ho hby hst hu hs hn hl ha hp hf hw,
    fun c id s o i u pa ms a v ho hk hn hst hu hd hdone hb hv hpa ha hm hw hall hul =>
      copy_writes ho hk hn hst hu hd hdone hb hv hpa ha hm hw hall hul,
    fun c id s o i ho hk hn hst hi harr hb hall ha => copy_writes_side ho hk hn hst hi harr hb hall ha,
    fun c id s o i u j off ho hj hst hu hs hn hdone hd hbefore hgood harr hb => cpa_writes ho hj hst hu hs hn hdone hd hbefore hgood harr hb,
    fun c id s o p ho hk hst herr harr hcl hb => tld_writes ho hk hst herr harr hcl hb,
    fun c id s o w ho hk hst hfin hu hcl ht hw => tld_completes ho hk hst hfin hu hcl ht hw,
    fun c id s o ho hc hk ht hf => ?_,
    fun c id s o pa ho hk hst htx hfin hr hpa hl => xtile_sends ho hk hst htx hfin hr hpa hl,
    fun c id s o w ho hu h ht hw => over_completes ho hu h ht hw,
    fun c id s o ho hk hst hfin harr hb hall ha => drain_writes ho hk hst hfin harr hb hall ha,
    fun c id s o w tile ho hk hti hst hfin ht hall hw => tload_completes ho hk hti hst hfin ht hall hw,
    fun c s o lv at' l hh ho hr hn htr hf => ⟨fun i ta tb ht hi hM hN hready => tmmas_starts hh ho hr hn htr hf ht hi hM hN hready,
      fun i hi hw => drain_starts hh ho hr hn htr hf hi hw, fun i hi => tsave_starts hh ho hr hn htr hf hi,
      fun i hi => tload_starts hh ho hr hn htr hi, fun i hi hp => sadv_starts hh ho hr hn htr hi hp,
      fun i hi hfree hrsv => sreset_starts hh ho hr hn htr hi hfree hrsv⟩⟩
  have hoff := source_off o (s.core c)
  obtain ⟨t, o', hex, hop, hst, hm, hb, hunits, hstr, htx⟩ := store_starts ho hc hk ht (by rw [hoff]; exact hf)
  rw [hoff] at hunits
  exact ⟨t, o', hex, hop, hst, hm, hb, hunits, hstr.trans (source_streams o (s.core c)), fun h => htx (leaves_local h)⟩

end Sys2Proof.Machine
end

