-- ==== Sys2Proof/Proofs/VectorBits.lean ====
section
/-! PROOFS. The V slot's operations on 32 raw bits: logic, shifts, counts and the carry-less product (R119, R123). -/

namespace Sys2Proof.Machine
open Claim

/-! ## Shifts and rotation -/

/-- R119: a left shift by bits [4:0] of B. -/
theorem getLsbD_vshl (a b : Word) {i : Nat} (hi : i < 32) :
    (a <<< shiftN b).getLsbD i = (decide (b.toNat % 32 ≤ i) && a.getLsbD (i - b.toNat % 32)) := by
  rw [shiftN, BitVec.getLsbD_shiftLeft]
  simp only [hi, decide_true, Bool.true_and, ← decide_not, Nat.not_lt]

/-- R119: a right shift that fills with zeros. -/
theorem getLsbD_vshr (a b : Word) (i : Nat) : (a >>> shiftN b).getLsbD i = a.getLsbD (i + b.toNat % 32) := by
  rw [shiftN, BitVec.getLsbD_ushiftRight, Nat.add_comm]

/-- R119: a right shift that fills with bit 31. -/
theorem getLsbD_vsar (a b : Word) {i : Nat} (hi : i < 32) : (a.sshiftRight (shiftN b)).getLsbD i = a.getLsbD (min 31 (i + b.toNat % 32)) := by
  rw [shiftN, BitVec.getLsbD_sshiftRight, BitVec.msb_eq_getLsbD_last, Nat.add_comm _ i]
  by_cases h : i + b.toNat % 32 < 32
  · simp [hi, h, Nat.min_eq_right (show i + b.toNat % 32 ≤ 31 by omega)]
  · simp [hi, h, Nat.min_eq_left (show 31 ≤ i + b.toNat % 32 by omega)]

/-- R119: a rotation to the left. -/
theorem getLsbD_vrot (a b : Word) {i : Nat} (hi : i < 32) :
    (a.rotateLeft (shiftN b)).getLsbD i = a.getLsbD ((i + 32 - b.toNat % 32) % 32) := by
  have hn : b.toNat % 32 < 32 := Nat.mod_lt _ (by decide)
  rw [shiftN, BitVec.getLsbD_rotateLeft, Nat.mod_eq_of_lt hn]
  by_cases h : i < b.toNat % 32
  · rw [show (i + 32 - b.toNat % 32) % 32 = 32 - b.toNat % 32 + i by omega]
    simp [h]
  · rw [show (i + 32 - b.toNat % 32) % 32 = i - b.toNat % 32 by omega]
    simp [h, hi]

/-! ## Bit reversal -/

/-- R119: the reversal sums the bits from the top down, which is their sum from the bottom up. -/
theorem brev_eq_bitSum (x : Word) : brev x = BitVec.ofNat 32 (bitSum (fun i => x.getLsbD (31 - i)) 32) := by
  have hcomm : RightCommutative fun (a i : Nat) => a + if x.getLsbD (31 - i) then 2 ^ i else 0 := ⟨fun _ _ _ => Nat.add_right_comm ..⟩
  have hperm : (List.range 32).Perm ((List.range 32).map (31 - ·)) := by decide
  rw [bitSum, hperm.foldl_eq, List.foldl_map]
  refine congrArg (BitVec.ofNat 32) (List.foldl_ext _ _ _ fun a i hi => ?_)
  rw [show 31 - (31 - i) = i by have := List.mem_range.1 hi; omega]

theorem getLsbD_brev (x : Word) {i : Nat} (hi : i < 32) : (brev x).getLsbD i = x.getLsbD (31 - i) := by
  rw [brev_eq_bitSum, BitVec.getLsbD_ofNat, testBit_bitSum]
  simp [hi]

/-! ## The carry-less product -/

/-- R123: the bits of A and B whose product is the term `i` of bit `n`. -/
def clmulTerm (a b : Word) (n i : Nat) : Bool := b.getLsbD i && (decide (i ≤ n) && a.getLsbD (n - i))

/-- The sum of the shifted words without carries, bit by bit: whether an odd number of terms is set. -/
theorem testBit_clmul (a b : Word) (n : Nat) : (clmul a b).testBit n = decide (((List.range 32).filter (clmulTerm a b n)).length % 2 = 1) := by
  suffices h : ∀ m, ((List.range m).foldl (fun p i => if b.getLsbD i then p ^^^ (a.toNat * 2 ^ i) else p) 0).testBit n =
      decide (((List.range m).filter (clmulTerm a b n)).length % 2 = 1) from h 32
  intro m
  induction m with
  | zero => simp
  | succ m ih =>
    have hterm : clmulTerm a b n m = (b.getLsbD m && (a.toNat * 2 ^ m).testBit n) := by
      rw [clmulTerm, Nat.testBit_mul_two_pow, BitVec.getLsbD, BitVec.getLsbD]
    rw [List.range_succ, List.foldl_append, List.filter_append, List.length_append, Nat.add_mod]
    simp only [List.foldl_cons, List.foldl_nil, List.filter_cons, List.filter_nil, hterm]
    cases b.getLsbD m with
    | false => simpa using ih
    | true =>
      rw [if_pos rfl, Nat.testBit_xor, ih]
      rcases Nat.mod_two_eq_zero_or_one ((List.range m).filter (clmulTerm a b n)).length with h | h <;>
        cases (a.toNat * 2 ^ m).testBit n <;> simp [h]

/-- The numbers below `m` that satisfy a predicate, counted as a list and as a set. -/
theorem length_filter_range (p : Nat → Bool) (m : Nat) : ((List.range m).filter p).length = ((Finset.range m).filter fun i => p i = true).card := by
  rw [← Nat.count_eq_card_filter_range, Nat.count, List.countP_eq_length_filter]
  simp only [Bool.decide_eq_true]

/-- R123: the terms of bit `n` are those of the pairs i + j = `n`, counted by i or by j. -/
theorem length_clmulTerm (a b : Word) (n : Nat) : ((List.range 32).filter (clmulTerm a b n)).length =
    ((List.range (n + 1)).filter fun i => a.getLsbD i && b.getLsbD (n - i)).length := by
  rw [length_filter_range, length_filter_range]
  refine Finset.card_nbij' (n - ·) (n - ·) ?_ ?_ ?_ ?_ <;> intro i hi <;>
    simp only [clmulTerm, Finset.coe_filter, Finset.mem_range, Set.mem_ofPred_eq, Bool.and_eq_true, decide_eq_true_eq] at hi ⊢
  · obtain ⟨-, hb, hle, ha⟩ := hi
    exact ⟨by omega, ha, by rwa [Nat.sub_sub_self hle]⟩
  · obtain ⟨hlt, ha, hb⟩ := hi
    exact ⟨BitVec.lt_of_getLsbD hb, hb, Nat.sub_le .., by rwa [Nat.sub_sub_self (Nat.le_of_lt_succ hlt)]⟩
  · exact Nat.sub_sub_self hi.2.2.1
  · exact Nat.sub_sub_self (Nat.le_of_lt_succ hi.1)

/-- R123: bit `n` of the carry-less product. -/
theorem testBit_clmul_eq (a b : Word) (n : Nat) : (clmul a b).testBit n = clmulBit a b n := by
  rw [testBit_clmul, length_clmulTerm, clmulBit]

/-- R123: bit 63 of the carry-less product has no term, as i + j is at most 62. -/
theorem clmulBit_63 (a b : Word) : clmulBit a b 63 = false := by
  have hnone : ((List.range 64).filter fun i => a.getLsbD i && b.getLsbD (63 - i)) = [] := by
    refine List.filter_eq_nil_iff.2 fun i _ h => ?_
    obtain ⟨ha, hb⟩ := Bool.and_eq_true_iff.1 h
    have := BitVec.lt_of_getLsbD ha
    have := BitVec.lt_of_getLsbD hb
    omega
  simp [clmulBit, hnone]

/-- R123: the low half of the product. -/
theorem getLsbD_clml (a b : Word) {i : Nat} (hi : i < 32) : (BitVec.ofNat 32 (clmul a b)).getLsbD i = clmulBit a b i := by
  rw [BitVec.getLsbD_ofNat, testBit_clmul_eq, decide_eq_true hi, Bool.true_and]

/-- R123: the high half of the product. -/
theorem getLsbD_clmh (a b : Word) {i : Nat} (hi : i < 32) : (BitVec.ofNat 32 (clmul a b / 2 ^ 32)).getLsbD i = clmulBit a b (32 + i) := by
  rw [BitVec.getLsbD_ofNat, Nat.testBit_div_two_pow, Nat.add_comm i, testBit_clmul_eq, decide_eq_true hi, Bool.true_and]

/-! ## The statements -/

/-- Settles O2. -/
theorem vectorLogicShiftsCounts : Obligations.VectorLogicShiftsCounts := by
  simp only [Obligations.VectorLogicShiftsCounts, List.forall_mem_cons, List.not_mem_nil, false_imp_iff, implies_true, and_true]
  refine ⟨⟨?and, ?or, ?xor, ?shl, ?shr, ?sar, ?rot⟩, ?clz, ?popc, ?brev⟩ <;> intro o s c k w hi
  case and => exact rawV_lands hi rfl rfl fun l => ⟨fun i _ => BitVec.getLsbD_and, rfl⟩
  case or => exact rawV_lands hi rfl rfl fun l => ⟨fun i _ => BitVec.getLsbD_or, rfl⟩
  case xor => exact rawV_lands hi rfl rfl fun l => ⟨fun i _ => BitVec.getLsbD_xor, rfl⟩
  case shl => exact rawV_lands hi rfl rfl fun l => ⟨fun i h => getLsbD_vshl _ _ h, rfl⟩
  case shr => exact rawV_lands hi rfl rfl fun l => ⟨fun i _ => getLsbD_vshr .., rfl⟩
  case sar => exact rawV_lands hi rfl rfl fun l => ⟨fun i h => getLsbD_vsar _ _ h, rfl⟩
  case rot => exact rawV_lands hi rfl rfl fun l => ⟨fun i h => getLsbD_vrot _ _ h, rfl⟩
  case clz =>
    refine rawV_lands hi rfl rfl fun l => ?_
    obtain ⟨hle, hzeros, hone⟩ := clzN_spec (w.src o.a l).isLt
    have hy : (BitVec.ofNat 32 (clzN 32 (w.src o.a l).toNat)).toNat = clzN 32 (w.src o.a l).toNat := Nat.mod_eq_of_lt (by omega)
    rw [hy]
    exact ⟨hle, fun i _ h => hzeros i h, hone, rfl⟩
  case popc =>
    refine rawV_lands hi rfl rfl fun l => ⟨?_, rfl⟩
    rw [BitVec.toNat_ofNat, Nat.mod_eq_of_lt (Nat.lt_of_le_of_lt (popcN_le ..) (by decide))]
    rfl
  case brev => exact rawV_lands hi rfl rfl fun l => ⟨fun i h => getLsbD_brev _ h, rfl⟩

/-- Settles O3. -/
theorem carrylessProduct : Obligations.CarrylessProduct := by
  refine ⟨fun o s c k w hi => ?low, fun o s c k w hi => ?high⟩
  case low => exact rawV_lands hi rfl rfl fun l => ⟨fun i h => getLsbD_clml _ _ h, rfl⟩
  case high =>
    exact rawV_lands hi rfl rfl fun l =>
      ⟨fun i h => getLsbD_clmh _ _ h, (getLsbD_clmh _ _ (by decide)).trans (clmulBit_63 ..), rfl⟩

end Sys2Proof.Machine
end

