-- ==== Sys2Proof/Proofs/LaneResults.lean ====
section
/-! PROOFS. The V slot's lane movement, votes and ballots, and predicate logic (R133 to R137). -/

namespace Sys2Proof.Machine
open Claim

/-! ## Lane movement -/

/-- The width as an integer, as R133 compares it with a source lane. -/
theorem width_cast (w : Warp) : (w.width : Int) = 32 * (w.k : Int) := by
  rw [Warp.width, Nat.cast_mul, Nat.cast_ofNat]

/-- Settles O11. -/
theorem laneMovement : Obligations.LaneMovement := by
  refine ⟨fun o s c k w hi _ => ?shfl, fun o s c k w hi => ?bcast⟩
  case shfl =>
    refine vLands_of hi rfl rfl rfl rfl fun l _ => ⟨?_, rfl⟩
    simp only [width_cast]
    rfl
  case bcast => exact vLands_of hi rfl rfl rfl rfl fun l _ => ⟨rfl, rfl⟩

/-! ## Votes and ballots -/

/-- R112, R135: an instruction whose effect lands one vote in a scalar predicate: 1 when it holds, else 0. -/
theorem landVP_lands {s : State} {c k : Nat} {w : Warp} {i : Instr} {o : VOp} {b : Warp → Bool} {P : Prop} (hi : Issues s c k w i)
    (hn : slotNum i = some 0) (hf : slotFn i = some (vFn fun w => w.landVP o (b w))) (hp : b w = true ↔ P) :
    ∃ y, VScalar s c k w i o true .none y 0 ∧ (P → y = 1) ∧ (¬ P → y = 0) :=
  ⟨if b w then 1 else 0, vScalar_of hi (exec_eq_runSlot hn s) hn hf rfl, fun h => if_pos (hp.2 h), fun h => if_neg (mt hp.1 h)⟩

/-- R136: `vany` over the active lanes. -/
theorem any_lanesOf (w : Warp) (g : Guard) (p : Nat → Bool) : (w.lanesOf g).any p = true ↔ ∃ l, Active w g l ∧ p l = true := by
  simp only [List.any_eq_true, w.mem_lanesOf]

/-- R136: `vall` over the active lanes. -/
theorem all_lanesOf (w : Warp) (g : Guard) (p : Nat → Bool) : (w.lanesOf g).all p = true ↔ ∀ l, Active w g l → p l = true := by
  simp only [List.all_eq_true, w.mem_lanesOf]

/-- R29: an active lane is a live one in which the guard holds. -/
theorem active_iff_live (w : Warp) (g : Guard) (l : Nat) : Active w g l ↔ Live w l ∧ w.guardV g l = true := by
  rw [w.guardV_iff]
  exact and_assoc.symm

/-- The lanes of group `n` of 64, summed within the group, are the sum of the lanes themselves shifted down. -/
theorem foldl_laneBit {n : Nat} (xs : List Nat) (hxs : ∀ l ∈ xs, l / 64 = n) (m : Nat) :
    xs.foldl (fun m l => m + 2 ^ l) (m * 2 ^ (64 * n)) = xs.foldl (fun x l => x + 2 ^ (l % 64)) m * 2 ^ (64 * n) := by
  induction xs generalizing m with
  | nil => rfl
  | cons l xs ih =>
    obtain ⟨hl, hxs⟩ := List.forall_mem_cons.1 hxs
    have hpow : 2 ^ l = 2 ^ (l % 64) * 2 ^ (64 * n) := by rw [← Nat.pow_add, ← hl, Nat.mod_add_div]
    rw [List.foldl_cons, List.foldl_cons, hpow, ← Nat.add_mul, ih hxs]

/-- R136: bit `j` of a ballot is lane `j` of the group that SUB names. -/
theorem testBit_ballot (w : Warp) (g : Guard) (p : Nat → Bool) (n : Nat) {j : Nat} (hj : j < 64) :
    (((w.lanesOf g).filter fun l => l / 64 = n && p l).foldl (fun x l => x + 2 ^ (l % 64)) 0).testBit j = true ↔
      Active w g (64 * n + j) ∧ p (64 * n + j) = true := by
  have hgroup := foldl_laneBit ((w.lanesOf g).filter fun l => l / 64 = n && p l) (n := n)
    (fun l hl => of_decide_eq_true (Bool.and_eq_true_iff.1 (List.mem_filter.1 hl).2).1) 0
  have hshift (y : Nat) : y.testBit j = (y * 2 ^ (64 * n)).testBit (64 * n + j) := by
    rw [Nat.testBit_mul_two_pow, Nat.add_sub_cancel_left, decide_eq_true (Nat.le_add_right ..), Bool.true_and]
  have hdiv : (64 * n + j) / 64 = n := by omega
  rw [hshift, ← hgroup, Nat.zero_mul, Warp.lanesOf, List.filter_filter, testBit_liveSum, active_iff_live, hdiv, decide_eq_true rfl, Bool.true_and,
    Bool.and_eq_true, and_comm (a := p _ = true), and_assoc]

/-! ## Predicate logic -/

/-- R137: an instruction whose effect is predicate logic lands 0 or 1, without events, in every active lane. -/
theorem predP_lands {s : State} {c k : Nat} {w : Warp} {i : Instr} {o : VOp} {f : Bool → Bool → Bool} {P : Nat → Prop} (hi : Issues s c k w i)
    (hn : slotNum i = some 0) (hf : slotFn i = some (vFn fun w => w.predP o f))
    (hp : ∀ l, f (w.srcPred o.a l) (w.srcPred o.b l) = true ↔ P l) :
    VLands s c k w i o 2 .none fun l y e => (y = 1 ↔ P l) ∧ (y = 0 ∨ y = 1) ∧ e = 0 :=
  vLands_of hi (exec_eq_runSlot hn s) hn hf rfl fun l _ => by
    rw [← hp l]
    cases f (w.srcPred o.a l) (w.srcPred o.b l) <;> simp

/-- A source that holds a predicate index reads that lane predicate, vp0 included. -/
theorem srcPred_p (w : Warp) {x : Src} {i : Fin 8} (h : x = .p i) (l : Nat) : w.srcPred x l = w.vp i.val l := by
  rw [h, Warp.srcPred]

/-- Settles O13. -/
theorem predicatesAndVotes : Obligations.PredicatesAndVotes := by
  refine ⟨?any, ?all, ?ballot, ?logic, ?not⟩
  case any =>
    intro o s c k w hi
    exact landVP_lands hi rfl rfl (any_lanesOf ..)
  case all =>
    intro o s c k w hi
    exact landVP_lands hi rfl rfl (all_lanesOf ..)
  case ballot =>
    intro o s c k w hi
    refine ⟨_, vScalar_of hi rfl rfl rfl rfl, fun j hj => ?_⟩
    rw [BitVec.getLsbD_ofNat, decide_eq_true hj, Bool.true_and]
    exact testBit_ballot w o.guard (fun l => w.srcPred o.a l) o.sub.val hj
  case logic =>
    simp only [List.forall_mem_cons, List.not_mem_nil, false_imp_iff, implies_true, and_true]
    refine ⟨?and, ?or, ?xor, ?andn⟩ <;> intro o s c k w a b hi ha hb <;> refine predP_lands hi rfl rfl fun l => ?_ <;>
      rw [srcPred_p w ha, srcPred_p w hb]
    case and => exact Bool.and_eq_true_iff
    case or => exact Bool.or_eq_true_iff
    case xor => rw [bne_iff_ne, ne_eq, Bool.eq_iff_iff]
    case andn => rw [Bool.and_eq_true_iff, Bool.not_eq_true', Bool.not_eq_true]
  case not =>
    intro o s c k w a hi ha
    exact predP_lands hi rfl rfl fun l => by rw [srcPred_p w ha, Bool.not_eq_true']

end Sys2Proof.Machine
end

