-- ==== Sys2Proof/Proofs/ScratchpadStores.lean ====
section
/-! PROOFS. Arrival updates, scratchpad stores and the faults of scratchpad accesses (R142, R147, R149, R171, R330). -/

namespace Sys2Proof.Machine
open Claim

/-! ## Arrival updates -/

theorem bits_eq_mod (x hi lo : Nat) : bits x hi lo = x / 2 ^ lo % 2 ^ (hi + 1 - lo) := by
  rw [bits, Nat.shiftRight_eq_div_pow]

/-- The fields of an arrival word (R170). -/
theorem arrivalWord_fields {a b c d : Nat} (ha : a < 2 ^ 32) (hb : b < 2 ^ 32) (hc : c < 2 ^ 32) :
    let y := a + b * 2 ^ 32 + c * 2 ^ 64 + d * 2 ^ 96
    y % 2 ^ 32 = a ∧ y / 2 ^ 96 = d ∧ y / 2 ^ 64 % 2 ^ 32 = c ∧ y / 2 ^ 32 % 2 ^ 32 = b := by
  intro y
  refine ⟨?_, ?_, ?_, ?_⟩ <;> omega

/-- Settles O23. -/
theorem arrivalUpdate : Obligations.ArrivalUpdate := by
  intro x n _ _ y target count gen
  have hcount : (bits x 63 32 + n) % 2 ^ 32 = count := by
    rw [bits_eq_mod, Nat.mod_add_mod]
  have hgen : bits x 95 64 = gen := bits_eq_mod ..
  have hy : y = target + (if target ≠ 0 ∧ target ≤ count then count - target else count) * 2 ^ 32 +
      (if target ≠ 0 ∧ target ≤ count then (gen + 1) % 2 ^ 32 else gen) * 2 ^ 64 + x / 2 ^ 96 * 2 ^ 96 := by
    rw [← hcount, ← hgen]
    rfl
  have ht : target < 2 ^ 32 := Nat.mod_lt _ (by norm_num)
  have hc : count < 2 ^ 32 := Nat.mod_lt _ (by norm_num)
  have hg : gen < 2 ^ 32 := Nat.mod_lt _ (by norm_num)
  by_cases h : target ≠ 0 ∧ target ≤ count
  · rw [if_pos h, if_pos h] at hy
    obtain ⟨h0, h3, h2, h1⟩ := arrivalWord_fields (d := x / 2 ^ 96) ht (Nat.lt_of_le_of_lt (Nat.sub_le count target) hc)
      (Nat.mod_lt (gen + 1) (show 0 < 2 ^ 32 by norm_num))
    rw [hy]
    exact ⟨h0, h3, fun _ => ⟨h2, h1⟩, fun hn => absurd h hn⟩
  · rw [if_neg h, if_neg h] at hy
    obtain ⟨h0, h3, h2, h1⟩ := arrivalWord_fields (d := x / 2 ^ 96) ht hc hg
    rw [hy]
    exact ⟨h0, h3, fun hp => absurd hp h, fun _ => ⟨h2, h1⟩⟩

/-! ## The accesses of stores and atomics -/

theorem Size.bytes_pos (z : Size) : 0 < z.bytes := by
  cases z <;> decide

theorem accs_store (w : Warp) (o : MOp) : w.accs o false = (w.lanesOf o.guard).map fun l => (l, w.memAddr o l) := by
  simp only [Warp.accs, Bool.false_and, Bool.false_eq_true, if_false]

/-- The active lanes, split at one of them: those below it and those above it. -/
theorem Warp.lanesOf_split {w : Warp} {g : Guard} {l : Nat} (h : Active w g l) :
    ∃ xs ys, w.lanesOf g = xs ++ l :: ys ∧ (∀ j ∈ xs, Active w g j ∧ j < l) ∧ ∀ j ∈ ys, Active w g j ∧ l < j := by
  obtain ⟨xs, ys, he⟩ := List.append_of_mem ((w.mem_lanesOf g l).2 h)
  have hs := w.lanesOf_sorted g
  rw [he, List.pairwise_append, List.pairwise_cons] at hs
  obtain ⟨_, ⟨hys, _⟩, hxs⟩ := hs
  have hm : ∀ j, j ∈ xs ∨ j ∈ ys → Active w g j := fun j hj => (w.mem_lanesOf g j).1 (by
    rw [he, List.mem_append, List.mem_cons]
    exact hj.imp_right .inr)
  exact ⟨xs, ys, he, fun j hj => ⟨hm j (.inl hj), hxs j hj l (List.mem_cons_self ..)⟩, fun j hj => ⟨hm j (.inr hj), hys j hj⟩⟩

/-! ## Checks of scratchpad accesses (R147) -/

/-- A scratchpad access of `n` bytes is aligned and lies within `size` bytes. -/
def SpFits (size n a : Nat) : Prop := a % n = 0 ∧ 0 ≤ signed64 a ∧ signed64 a + n ≤ size

theorem spFail_none {size n : Nat} {xs : List (Nat × Nat)} (h : ∀ p ∈ xs, SpFits size n p.2) : spFail size n xs = none := by
  rw [spFail, List.findSome?_eq_none_iff]
  intro p hp
  obtain ⟨ha, hb⟩ := h p hp
  rw [if_neg (not_not.2 ha), if_pos hb]

/-- The check of the first access that does not fit is the one that fails. -/
theorem spFail_first {size n : Nat} {xs ys : List (Nat × Nat)} {p : Nat × Nat} (h : ∀ q ∈ xs, SpFits size n q.2) (hp : ¬SpFits size n p.2) :
    spFail size n (xs ++ p :: ys) = some ⟨if p.2 % n ≠ 0 then 0x140 else 0x141, p.2, 0⟩ := by
  have hx : spFail size n xs = none := spFail_none h
  rw [spFail] at hx ⊢
  rw [List.findSome?_append, hx, Option.none_or, List.findSome?_cons]
  by_cases ha : p.2 % n ≠ 0
  · simp only [if_pos ha]
  · have hb : ¬(0 ≤ signed64 p.2 ∧ signed64 p.2 + n ≤ size) := fun hb => hp ⟨not_not.1 ha, hb⟩
    simp only [if_neg ha, if_neg hb]

/-- R147: stores and atomics whose lanes are all in order fail no check. -/
theorem spCheck_of_ok {s : State} {c k : Nat} {w : Warp} {o : MOp} (hw : s.warp? c k = some w) (h : SpOk s w o) : spCheck o false c k s = none := by
  simp only [spCheck, hw]
  refine spFail_none fun p hp => ?_
  rw [accs_store] at hp
  obtain ⟨l, hl, rfl⟩ := List.mem_map.1 hp
  obtain ⟨ha, hlo, hhi, _⟩ := h l ((w.mem_lanesOf o.guard l).1 hl)
  exact ⟨ha, hlo, hhi⟩

/-- R147, R330: the check that fails is that of the lowest active lane that breaks a rule. -/
theorem spCheck_of_first {s : State} {c k l : Nat} {w : Warp} {o : MOp} (hw : s.warp? c k = some w) (ha : Active w o.guard l)
    (hlo : ∀ j, j < l → Active w o.guard j → SpFits (s.allocOf w) o.size.bytes (w.memAddr o j))
    (hl : ¬SpFits (s.allocOf w) o.size.bytes (w.memAddr o l)) :
    spCheck o false c k s = some ⟨if w.memAddr o l % o.size.bytes ≠ 0 then 0x140 else 0x141, w.memAddr o l, 0⟩ := by
  obtain ⟨xs, ys, he, hxs, _⟩ := Warp.lanesOf_split ha
  simp only [spCheck, hw, accs_store, he, List.map_append, List.map_cons]
  refine spFail_first (fun q hq => ?_) hl
  obtain ⟨j, hj, rfl⟩ := List.mem_map.1 hq
  exact hlo j (hxs j hj).2 (hxs j hj).1

theorem spReadCheck_of_fail {s : State} {c k : Nat} {o : MOp} {load : Bool} {e : Fail} (h : spCheck o load c k s = some e) :
    spReadCheck o load c k s = some e := by
  simp only [spReadCheck, h]

/-- The faults of an M-slot operation that checks the scratchpad places of its lanes. -/
theorem scratchFault_clauses {s : State} {c k l : Nat} {w : Warp} {i : Instr} {o : MOp} {f : SlotFn} (hi : Issues s c k w i) (hn : slotNum i = some 1)
    (hf : slotFn i = some f) (hc : ∀ e, spCheck o false c k s = some e → f.check c k s = some e) (ha : Active w o.guard l)
    (hlo : ∀ j, j < l → Active w o.guard j → w.memAddr o j % o.size.bytes = 0 ∧ 0 ≤ signed64 (w.memAddr o j) ∧
      signed64 (w.memAddr o j) + o.size.bytes ≤ s.allocOf w) :
    (w.memAddr o l % o.size.bytes ≠ 0 → exec i s = .next (s.failSlots c k 2 ⟨0x140, w.memAddr o l, 0⟩ 1)) ∧
      (w.memAddr o l % o.size.bytes = 0 → (signed64 (w.memAddr o l) < 0 ∨ s.allocOf w < signed64 (w.memAddr o l) + o.size.bytes) →
        exec i s = .next (s.failSlots c k 2 ⟨0x141, w.memAddr o l, 0⟩ 1)) := by
  have hfault (hl : ¬SpFits (s.allocOf w) o.size.bytes (w.memAddr o l)) :
      exec i s = .next (s.failSlots c k 2 ⟨if w.memAddr o l % o.size.bytes ≠ 0 then 0x140 else 0x141, w.memAddr o l, 0⟩ 1) := by
    rw [exec_eq_runSlot hn]
    exact runSlot_fail_m hn hf hi.1 hi.2.1 (opFail_of_issues hi) (hc _ (spCheck_of_first hi.2.1 ha hlo hl))
  constructor
  · intro hm
    rw [hfault fun h => hm h.1, if_pos hm]
  · intro hm hb
    rw [hfault fun h => by obtain ⟨_, h1, h2⟩ := h; omega, if_neg (not_not.2 hm)]

/-! ## Writes of scratchpad bytes -/

theorem frame_trans {s t u : State} {c k : Nat} (h : Frame s t c k) (g : Frame t u c k) : Frame s u c k :=
  ⟨g.hbm.trans h.hbm, g.host.trans h.host, g.cycle.trans h.cycle, g.cur.trans h.cur, fun d j hn => (g.others d j hn).trans (h.others d j hn)⟩

theorem frame_spPut (s : State) (b off n v c k : Nat) : Frame s (s.spPut b off n v) c k := ⟨rfl, rfl, rfl, rfl, fun _ _ _ => rfl⟩

theorem frame_putPieces (s : State) (b : Nat) (xs : List (Nat × Nat × Nat)) (c k : Nat) : Frame s (s.putPieces b xs) c k :=
  foldl_keeps (R := fun s t => Frame s t c k) (f := fun (s : State) (p : Nat × Nat × Nat) => s.spPut b p.1 p.2.1 p.2.2)
    (fun s => (quiet_refl s c k).1) frame_trans (fun s p => frame_spPut s b p.1 p.2.1 p.2.2 c k) xs s

/-- R142: a byte of a piece that no later piece covers is that of the piece. -/
theorem spByte_putPieces_last {s : State} {b : Nat} (hb : (s.block? b).isSome) (xs : List (Nat × Nat × Nat)) {ys : List (Nat × Nat × Nat)}
    {p : Nat × Nat × Nat} {j : Nat} (hj : j < p.2.1) (hy : ∀ q ∈ ys, p.1 + j < q.1 ∨ q.1 + q.2.1 ≤ p.1 + j) :
    spByte (s.putPieces b (xs ++ p :: ys)) b (p.1 + j) = p.2.2 / 256 ^ j % 256 := by
  have hsome : ((s.putPieces b xs).block? b).isSome := by
    induction xs generalizing s with
    | nil => exact hb
    | cons q xs ih => exact ih (s := s.spPut b q.1 q.2.1 q.2.2) (by rwa [State.block?_spPut_isSome])
  have hsplit : s.putPieces b (xs ++ p :: ys) = ((s.putPieces b xs).spPut b p.1 p.2.1 p.2.2).putPieces b ys := List.foldl_append ..
  rw [hsplit, spByte_putPieces_out (.inr hy), spByte_spPut_in hsome p.1 p.2.1 p.2.2 hj]

/-- R147: a block with room for an access exists. -/
theorem block_of_spOk {s : State} {w : Warp} {o : MOp} {l : Nat} (h : SpOk s w o) (ha : Active w o.guard l) : (s.block? w.block).isSome := by
  obtain ⟨_, h0, h1, _⟩ := h l ha
  have hn := Size.bytes_pos o.size
  cases hb : s.block? w.block with
  | some b => rfl
  | none =>
    rw [State.allocOf, hb] at h1
    dsimp only at h1
    omega

/-- The pieces that `st.sp` writes, by lane. -/
def Warp.spPieces (w : Warp) (o : MOp) (ls : List Nat) : List (Nat × Nat × Nat) := ls.map fun l => (w.memAddr o l, o.size.bytes, w.dataIn o l)

theorem effStSp_of {s : State} {c k : Nat} {w : Warp} (hw : s.warp? c k = some w) (o : MOp) :
    effStSp o c k s = (s.putPieces w.block (w.spPieces o (w.lanesOf o.guard))).bankCount c w.pipe (spTouch o false w) := by
  simp only [effStSp, State.onWarp_of hw, accs_store, State.putPieces, Warp.spPieces, List.foldl_map]

theorem store_clauses {s : State} {c k : Nat} {w : Warp} {o : MOp} (hi : Issues s c k w (.stSp o)) (hok : SpOk s w o) :
    ∃ t w', exec (.stSp o) s = .next t ∧ t.warp? c k = some w' ∧ Frame s t c k ∧ SameRegs w w' ∧ w'.flags = w.flags ∧ w'.flight = w.flight ∧
      t.blocks = (s.putPieces w.block (w.spPieces o (w.lanesOf o.guard))).blocks := by
  have hw := hi.2.1
  let u := s.putPieces w.block (w.spPieces o (w.lanesOf o.guard))
  let t := u.bankCount c w.pipe (spTouch o false w)
  have ht : effStSp o c k s = t := effStSp_of hw o
  have hq : Quiet u t c k := quiet_bankCount ..
  have hv : t.warp? c k = some w := by
    rw [show t.warp? c k = u.warp? c k from State.warp_modCore rfl c k, State.warp?, State.core, (putPieces_keeps s w.block _).2.1]
    exact hw
  let n := spFreeze o false c k s
  obtain ⟨w', hw', hregs, hflags, hflight⟩ := warp_freezeBy (n := n) hv
  have hqf : Quiet t (t.freezeBy c k n) c k := quiet_freezeBy ..
  refine ⟨t.freezeBy c k n, w', ?_, hw', frame_trans (frame_putPieces ..) (quiet_trans hq hqf).1, hregs, hflags, hflight, (quiet_trans hq hqf).2⟩
  rw [exec_m hi rfl rfl rfl (spCheck_of_ok hw hok) rfl (fun _ h => nomatch h), ← ht]
  rfl

/-- Settles O15. -/
theorem scratchStoresAndFaults : Obligations.ScratchStoresAndFaults := by
  refine ⟨fun o s c k w hi hok => ?_, ?_⟩
  · obtain ⟨t, w', he, hw', hframe, hregs, hflags, hflight, hblocks⟩ := store_clauses hi hok
    refine ⟨t, w', he, hw', hframe, hregs, hflags, hflight, fun b a hout => ?_, fun l i ha hin hlast => ?_⟩
    · rw [spByte_congr hblocks]
      by_cases hb : b = w.block
      · refine spByte_putPieces_out (.inr fun p hp => ?_)
        obtain ⟨l, hl, rfl⟩ := List.mem_map.1 hp
        exact hout l ((w.mem_lanesOf o.guard l).1 hl) hb
      · exact spByte_putPieces_out (.inl hb)
    · obtain ⟨xs, ys, hsplit, _, hys⟩ := Warp.lanesOf_split ha
      rw [spByte_congr hblocks, hsplit, Warp.spPieces, List.map_append, List.map_cons]
      refine spByte_putPieces_last (block_of_spOk hok ha) _ (p := (w.memAddr o l, o.size.bytes, w.dataIn o l)) hin fun q hq => ?_
      obtain ⟨j, hj, rfl⟩ := List.mem_map.1 hq
      exact hlast j (hys j hj).1 (hys j hj).2
  · simp only [List.forall_mem_cons, List.not_mem_nil, false_imp_iff, implies_true, and_true]
    have hst (o s c k w l) (hi : Issues s c k w (.stSp o)) := scratchFault_clauses (l := l) (o := o) hi rfl rfl fun _ h => h
    refine ⟨hst, ?_, ?_, ?_, ?_, ?_, ?_, ?_, ?_, ?_, ?_⟩
    all_goals exact fun o s c k w l hi => scratchFault_clauses hi rfl rfl fun _ h => spReadCheck_of_fail h

end Sys2Proof.Machine
end

