-- ==== Sys2Proof/Proofs/ScratchpadAtomics.lean ====
section
/-! PROOFS. Scratchpad atomics and `cas.sp`, lane after lane (R143, R150, R152, R153). -/

namespace Sys2Proof.Machine
open Claim

/-! ## Values -/

theorem getBytes_lt (d : Nat → Byte) (l : List Host.Cell) (a n : Nat) : getBytes d l a n < 2 ^ (8 * n) := by
  induction n generalizing a with
  | zero => simp [getBytes]
  | succ n ih =>
    have hb := (byteAt d l a).isLt
    have hn := ih (a + 1)
    rw [getBytes, show 8 * (n + 1) = 8 * n + 8 by ring, pow_add]
    omega

theorem spGet_lt (s : State) (b off n : Nat) : s.spGet b off n < 2 ^ (8 * n) := by
  unfold State.spGet
  split
  · exact getBytes_lt ..
  · positivity

theorem dataIn_lt (w : Warp) (o : MOp) (l : Nat) : w.dataIn o l < 2 ^ (8 * o.size.bytes) := by
  unfold Warp.dataIn
  split <;> exact Nat.mod_lt _ (by positivity)

/-- A number of `n` bytes, read as a signed one. -/
theorem signExt_of_lt {n v : Nat} (hn : 0 < n) (h : v < 2 ^ (8 * n)) :
    signExt v (8 * n) = if 2 * v < 2 ^ (8 * n) then (v : Int) else (v : Int) - (2 ^ (8 * n) : Nat) := by
  have hp : 2 ^ (8 * n) = 2 * 2 ^ (8 * n - 1) := by
    rw [← pow_succ', Nat.sub_add_cancel (by omega)]
  rw [signExt, Nat.mod_eq_of_lt h]
  have hiff : v < 2 ^ (8 * n - 1) ↔ 2 * v < 2 ^ (8 * n) := by omega
  simp only [hiff]

/-- The model's new value of an atomic is that of R152, for operands of its width. -/
theorem newValue_eq_newWord {op : AtomicOp} (h : op ≠ .fadd ∧ op ≠ .cas) {n x y : Nat} (e e' : Nat) (hn : 0 < n) (hx : x < 2 ^ (8 * n))
    (hy : y < 2 ^ (8 * n)) : newValue op n x y e = newWord op n x y e' := by
  cases op with
  | fadd => exact absurd rfl h.1
  | cas => exact absurd rfl h.2
  | minI => simp only [newValue, newWord, signExt_of_lt hn hx, signExt_of_lt hn hy]
  | maxI => simp only [newValue, newWord, signExt_of_lt hn hx, signExt_of_lt hn hy]
  | _ => rfl

/-! ## Lanes one after the other -/

/-- Whether lane `l` of an atomic is taken into account, and what it leaves: the new value at its place. -/
def State.spLane (s : State) (w : Warp) (op : AtomicOp) (o : MOp) (x e : Nat → Nat) (l : Nat) : State :=
  s.spPut w.block (w.memAddr o l) o.size.bytes
    (newValue op o.size.bytes (s.spGet w.block (w.memAddr o l) o.size.bytes) (x l) (e l))

/-- The state once the active lanes below a lane are performed, ascending. -/
def State.spLanes (s : State) (w : Warp) (op : AtomicOp) (o : MOp) (x e : Nat → Nat) : Nat → State
  | 0 => s
  | l + 1 => if l ∈ w.lanesOf o.guard then (s.spLanes w op o x e l).spLane w op o x e l else s.spLanes w op o x e l

section
variable (s : State) (w : Warp) (op : AtomicOp) (o : MOp) (x e : Nat → Nat)

/-- The old value that lane `l` reads. -/
def State.spOld (l : Nat) : Nat := (s.spLanes w op o x e l).spGet w.block (w.memAddr o l) o.size.bytes

theorem spLanes_cores (n : Nat) : (s.spLanes w op o x e n).cores = s.cores := by
  induction n with
  | zero => rfl
  | succ n ih =>
    rw [State.spLanes]
    split
    · exact ih
    · exact ih

theorem frame_spLanes (n c k : Nat) : Frame s (s.spLanes w op o x e n) c k := by
  induction n with
  | zero => exact (quiet_refl s c k).1
  | succ n ih =>
    rw [State.spLanes]
    split
    · exact frame_trans ih (frame_spPut ..)
    · exact ih

/-- Performing the lanes in order reads the old values and leaves the last state. -/
theorem spLanes_fold (n : Nat) : (((List.range n).filter (· ∈ w.lanesOf o.guard)).map fun l => (l, w.memAddr o l)).foldl
      (fun (r : List (Nat × Nat) × State) p => (r.1 ++ [(p.1, r.2.spGet w.block p.2 o.size.bytes)],
        r.2.spPut w.block p.2 o.size.bytes (newValue op o.size.bytes (r.2.spGet w.block p.2 o.size.bytes) (x p.1) (e p.1)))) ([], s) =
    (((List.range n).filter (· ∈ w.lanesOf o.guard)).map fun l => (l, s.spOld w op o x e l), s.spLanes w op o x e n) := by
  induction n with
  | zero => rfl
  | succ n ih =>
    rw [List.range_succ, List.filter_append, List.map_append, List.foldl_append, ih]
    by_cases h : n ∈ w.lanesOf o.guard
    · simp [h, State.spLanes, State.spOld, State.spLane]
    · simp [h, State.spLanes]

end

theorem Warp.lanesOf_range (w : Warp) (g : Guard) : (List.range (32 * w.k)).filter (· ∈ w.lanesOf g) = w.lanesOf g := by
  have h : w.lanesOf g = (List.range (32 * w.k)).filter fun l => w.guardV g l && w.live l := List.filter_filter ..
  rw [h]
  refine List.filter_congr fun l hl => ?_
  rw [List.mem_range] at hl
  simp [hl]

/-- R152, R153: what an atomic on the scratchpad does. -/
theorem spAtomic_of {s : State} {c k : Nat} {w : Warp} (hw : s.warp? c k = some w) (op : AtomicOp) (o : MOp) (x e : Warp → Nat → Nat) :
    spAtomic op o x e c k s = (((s.spLanes w op o (x w) (e w) (32 * w.k)).setWarp c k (w.pushAll (w.mLandings o 10 o.size.bytes
      ((w.lanesOf o.guard).map fun l => (l, s.spOld w op o (x w) (e w) l))))).bankCount c w.pipe (spTouch o false w)) := by
  have hfold := spLanes_fold s w op o (x w) (e w) (32 * w.k)
  rw [Warp.lanesOf_range] at hfold
  have hw' : (s.spLanes w op o (x w) (e w) (32 * w.k)).warp? c k = some w := by
    rw [State.warp?, State.core, spLanes_cores]
    exact hw
  simp only [spAtomic, State.onWarp_of hw, accs_store, hfold, State.modWarp_of hw']

/-- R147: the reads of lanes that are all in order fail no check. -/
theorem spReadCheck_of_lanes_ok {s : State} {c k : Nat} {w : Warp} {o : MOp} (hw : s.warp? c k = some w) (h : SpOk s w o) :
    spReadCheck o false c k s = none := by
  simp only [spReadCheck, spCheck_of_ok hw h, hw, scratchFail, List.findSome?_eq_none_iff, accs_store]
  intro p hp
  obtain ⟨l, hl, rfl⟩ := List.mem_map.1 hp
  obtain ⟨_, _, _, hf⟩ := h l ((w.mem_lanesOf o.guard l).1 hl)
  rw [hf]
  rfl

/-- What instruction `i`, an atomic on the scratchpad with operands `X` and expected values `E` by lane, answers: lane after lane, the old values in
flight. -/
def SpAtomicDone (s : State) (c k : Nat) (w : Warp) (i : Instr) (op : AtomicOp) (o : MOp) (X E : Nat → Nat) : Prop :=
  ∃ t w' xs, ∃ at' : Nat → State, exec i s = .next t ∧ t.warp? c k = some w' ∧ Frame s t c k ∧ SameRegs w w' ∧ w'.flags = w.flags ∧
    w'.flight = w.flight ++ xs ∧ xs.length = o.size.bytes / 4 ∧ at' 0 = s ∧
    (∀ l, Active w o.guard l → at' (l + 1) = (at' l).spPut w.block (w.memAddr o l) o.size.bytes
      (newWord op o.size.bytes ((at' l).spGet w.block (w.memAddr o l) o.size.bytes) (X l) (E l))) ∧
    (∀ l, ¬ Active w o.guard l → at' (l + 1) = at' l) ∧ t.blocks = (at' (32 * w.k)).blocks ∧
    ∀ i x, xs[i]? = some x → Lands w x 1 10 (.v (mReg o + i)) (if i = 0 then .lmd else .none) ∧
      LaneValues w x o.guard fun l y e =>
        y = BitVec.ofNat 32 ((at' l).spGet w.block (w.memAddr o l) o.size.bytes / 2 ^ (32 * i)) ∧ e = 0

theorem spAtomic_clauses {s : State} {c k : Nat} {w : Warp} {i : Instr} {op : AtomicOp} {o : MOp} {x e : Warp → Nat → Nat} {X E : Nat → Nat}
    (hi : Issues s c k w i) (hn : slotNum i = some 1)
    (hf : slotFn i = some (mFn0 (spReadCheck o false) (fun _ _ _ => none) (spFreeze o false) (spAtomic op o x e)))
    (hnew : ∀ l y, y < 2 ^ (8 * o.size.bytes) → newValue op o.size.bytes y (x w l) (e w l) = newWord op o.size.bytes y (X l) (E l))
    (hok : SpOk s w o) (hz : o.size = .b32 ∨ o.size = .b64) (hd : ∃ r, o.data = .v r) :
    SpAtomicDone s c k w i op o X E := by
  have hw := hi.2.1
  obtain ⟨r, hr⟩ := hd
  let at' := s.spLanes w op o (x w) (e w)
  let u := at' (32 * w.k)
  let vals := (w.lanesOf o.guard).map fun l => (l, s.spOld w op o (x w) (e w) l)
  let xs := w.mLandings o 10 o.size.bytes vals
  let t := (u.setWarp c k (w.pushAll xs)).bankCount c w.pipe (spTouch o false w)
  have ht : spAtomic op o x e c k s = t := spAtomic_of hw ..
  have hq : Quiet u t c k := quiet_trans (quiet_setWarp u c k _) (quiet_bankCount ..)
  have hv : t.warp? c k = some (w.pushAll xs) := (State.warp_modCore rfl c k).trans (State.warp_setWarp_self u c k _)
  obtain ⟨w', hw', hframe, hblocks, hregs, hflags, hflight⟩ := fixedLoad_frame (n := spFreeze o false c k s) hq hv (sameRegs_refl w) rfl rfl
  have hxs : xs = _ := mLandings_vector hr ..
  refine ⟨_, w', xs, at', ?_, hw', frame_trans (frame_spLanes ..) hframe, hregs, hflags, hflight, ?_, rfl, fun l ha => ?_, fun l ha => ?_, hblocks,
    fun j y hy => ?_⟩
  · rw [exec_m hi hn hf rfl (spReadCheck_of_lanes_ok hw hok) rfl (fun _ h => nomatch h), ← ht]
    rfl
  · rw [hxs, List.length_map, List.length_range]
    rcases hz with hz | hz <;> rw [hz] <;> rfl
  · rw [← hnew l _ (spGet_lt ..)]
    exact if_pos ((w.mem_lanesOf o.guard l).2 ha)
  · exact if_neg fun h => ha ((w.mem_lanesOf o.guard l).1 h)
  · rw [hxs] at hy
    obtain rfl := getElem?_range_map hy
    refine ⟨⟨rfl, rfl, rfl, ?_, rfl, rfl, rfl⟩, laneValues_map ?_ rfl⟩
    · simp only [mReg, hr, Warp.vecLanding]
    · simp only [Warp.vecLanding, vals, List.map_map]
      rfl

/-- `atom.sp.op`. -/
theorem atomSp_clauses {s : State} {c k : Nat} {w : Warp} {i : Instr} {op : AtomicOp} {o : MOp} (hi : Issues s c k w i) (hn : slotNum i = some 1)
    (hf : slotFn i = some (mFn0 (spReadCheck o false) (fun _ _ _ => none) (spFreeze o false) (atomSp op o))) (hop : op ≠ .fadd ∧ op ≠ .cas)
    (hok : SpOk s w o) (hz : o.size = .b32 ∨ o.size = .b64) (hd : ∃ r, o.data = .v r) :
    SpAtomicDone s c k w i op o (w.dataIn o) fun l => (w.casIn o l).1 :=
  spAtomic_clauses (x := fun w l => w.dataIn o l) (e := fun _ _ => 0) hi hn hf
    (fun l _ hy => newValue_eq_newWord hop 0 _ (Size.bytes_pos o.size) hy (dataIn_lt w o l)) hok hz hd

/-- `cas.sp`. -/
theorem casSp_clauses {s : State} {c k : Nat} {w : Warp} {o : MOp} (hi : Issues s c k w (.casSp o)) (hok : SpOk s w o)
    (hz : o.size = .b32 ∨ o.size = .b64) (hd : ∃ r, o.data = .v r) :
    SpAtomicDone s c k w (.casSp o) .cas o (fun l => (w.casIn o l).2) fun l => (w.casIn o l).1 :=
  spAtomic_clauses (x := fun w l => (w.casIn o l).2) (e := fun w l => (w.casIn o l).1) hi rfl rfl (fun _ _ _ => rfl) hok hz hd

/-- Settles O16. -/
theorem scratchAtomics : Obligations.ScratchAtomics := by
  simp only [Obligations.ScratchAtomics, List.forall_mem_cons, List.not_mem_nil, false_imp_iff, implies_true, and_true, reduceCtorEq, if_true, if_false]
  refine ⟨?_, ?_, ?_, ?_, ?_, ?_, ?_, ?_, ?_, fun o s c k w hi => casSp_clauses hi⟩
  all_goals exact fun o s c k w hi => atomSp_clauses hi rfl rfl (by decide)

end Sys2Proof.Machine
end

