-- ==== Sys2Proof/Proofs/StreamSlots.lean ====
section
/-! PROOFS. The M-slot stream operations `sld`, `sdset` and `sdget` (R166 to R169). -/

namespace Sys2Proof.Machine
open Claim

/-! ## Checks -/

theorem grantCheck_of {s : State} {c k : Nat} {w : Warp} (hw : s.warp? c k = some w) :
    grantCheck c k s = if s.hasGrant c w then none else some ⟨0x142, 0, 0⟩ := by
  simp only [grantCheck, hw]

theorem grantCheck_granted {s : State} {c k : Nat} {w : Warp} (hw : s.warp? c k = some w) (hg : s.hasGrant c w = true) : grantCheck c k s = none := by
  rw [grantCheck_of hw, if_pos hg]

theorem grantCheck_denied {s : State} {c k : Nat} {w : Warp} (hw : s.warp? c k = some w) (hg : s.hasGrant c w = false) :
    grantCheck c k s = some ⟨0x142, 0, 0⟩ := by
  rw [grantCheck_of hw, hg]
  rfl

/-- A failed check of the ring is a failed check of `sld`. -/
theorem sldCheck_of_chkSld {s : State} {c k : Nat} {o : MOp} {e : Fail} (h : chkSld o c k s = some e) : sldCheck o c k s = some e := by
  simp only [sldCheck, h]

/-- A failing check of an M-slot operation. -/
theorem exec_m_fail {s : State} {c k : Nat} {w : Warp} {i : Instr} {f : SlotFn} {e : Fail} (hi : Issues s c k w i) (hn : slotNum i = some 1)
    (hf : slotFn i = some f) (hk : f.check c k s = some e) : exec i s = .next (s.failSlots c k 2 e 1) := by
  rw [exec_eq_runSlot hn]
  exact runSlot_fail_m hn hf hi.1 hi.2.1 (opFail_of_issues hi) hk

/-- R166: without the grant a stream operation raises RING_MISUSE. -/
theorem ringMisuse {s : State} {c k : Nat} {w : Warp} {i : Instr} {f : SlotFn} (hi : Issues s c k w i) (hn : slotNum i = some 1) (hf : slotFn i = some f)
    (hc : grantCheck c k s = some ⟨0x142, 0, 0⟩ → f.check c k s = some ⟨0x142, 0, 0⟩) (hg : s.hasGrant c w = false) :
    exec i s = .next (s.failSlots c k 2 ⟨0x142, 0, 0⟩ 1) :=
  exec_m_fail hi hn hf (hc (grantCheck_denied hi.2.1 hg))

/-- R167: `sld` on an empty ring raises RING_EMPTY. -/
theorem ringEmpty {s : State} {c k : Nat} {w : Warp} {o : MOp} (hi : Issues s c k w (.sld o)) (hg : s.hasGrant c w = true)
    (he : (s.core c).present (mStream o) ((s.core c).desc (mStream o)).len = 0) : exec (.sld o) s = .next (s.failSlots c k 2 ⟨0x143, 0, 0⟩ 1) := by
  refine exec_m_fail hi rfl rfl (sldCheck_of_chkSld ?_)
  simp only [chkSld, grantCheck_granted hi.2.1 hg, he, if_true]

/-! ## Operations of one landing -/

/-- An M-slot operation that only puts one result in flight, with no freeze. -/
theorem exec_m_push {s : State} {c k : Nat} {w : Warp} {i : Instr} {chk : Nat → Nat → State → Option Fail} {eff : Nat → Nat → State → State}
    {x : Landing} (hi : Issues s c k w i) (hn : slotNum i = some 1)
    (hf : slotFn i = some (mFn0 chk (fun _ _ _ => none) (fun _ _ _ => 0) eff)) (hk : chk c k s = none)
    (he : eff c k s = s.setWarp c k (w.push x)) : exec i s = .next (s.setWarp c k { w with flight := w.flight ++ [x] }) := by
  rw [exec_m hi hn hf rfl hk rfl fun _ h => nomatch h]
  exact congrArg _ he

/-- R169: `sdset`. -/
theorem sdset_clauses {s : State} {c k : Nat} {w : Warp} {o : MOp} (hi : Issues s c k w (.sdset o)) (hk : chkSdset o c k s = none) :
    ∃ x, exec (.sdset o) s = .next (s.setWarp c k { w with flight := w.flight ++ [x] }) ∧
      Lands w x 1 1 (.sd (mStream o) (mStreamWord o)) .none ∧ x.scalar = w.s (mReg o) :=
  ⟨w.scalarLanding 1 1 (.sd (mStream o) (mStreamWord o)) .none (w.s (mReg o)) 0, exec_m_push hi rfl rfl hk (State.modWarp_of hi.2.1 _),
    ⟨rfl, rfl, rfl, rfl, rfl, rfl, rfl⟩, rfl⟩

/-- R169: `sdget`. -/
theorem sdget_clauses {s : State} {c k : Nat} {w : Warp} {o : MOp} (hi : Issues s c k w (.sdget o)) (hg : s.hasGrant c w = true) :
    ∃ x, exec (.sdget o) s = .next (s.setWarp c k { w with flight := w.flight ++ [x] }) ∧ Lands w x 1 8 (.s (mReg o)) .none ∧
      x.scalar = (s.core c).strm (mStream o) (mStreamWord o) :=
  ⟨w.scalarLanding 1 8 (.s (mReg o)) .none ((s.core c).strm (mStream o) (mStreamWord o)) 0,
    exec_m_push hi rfl rfl (grantCheck_granted hi.2.1 hg) (State.modWarp_of hi.2.1 _), ⟨rfl, rfl, rfl, rfl, rfl, rfl, rfl⟩, rfl⟩

/-! ## `sld` -/

/-- What a lane of `sld` reads: its bytes of the head tile, or 0 beyond the tile (R167). -/
def sldValue (s : State) (o : MOp) (c : Nat) (w : Warp) (l : Nat) : Nat :=
  if o.size.bytes * l + o.size.bytes ≤ (s.headTile c (mStream o)).2 then
    s.spGet w.block ((s.headTile c (mStream o)).1 + o.size.bytes * l) o.size.bytes
  else 0

/-- The head tile as the descriptor has it. -/
theorem headTile_eq (s : State) (c n : Nat) : s.headTile c n = (((s.core c).desc n).slotOff (ptrHead ((s.core c).strm n 2).toNat),
    ((s.core c).desc n).rows * ((s.core c).desc n).rb) := rfl

theorem wordAt_sldValue (s : State) (o : MOp) (c : Nat) (w : Warp) (l i : Nat) :
    wordAt (sldValue s o c w l) i =
      if o.size.bytes * l + o.size.bytes ≤ ((s.core c).desc (mStream o)).rows * ((s.core c).desc (mStream o)).rb then
        BitVec.ofNat 32 (s.spGet w.block (((s.core c).desc (mStream o)).slotOff (ptrHead ((s.core c).strm (mStream o) 2).toNat) + o.size.bytes * l)
          o.size.bytes / 2 ^ (32 * i))
      else 0 := by
  rw [sldValue, headTile_eq]
  by_cases h : o.size.bytes * l + o.size.bytes ≤ ((s.core c).desc (mStream o)).rows * ((s.core c).desc (mStream o)).rb
  · rw [if_pos h, if_pos h, wordAt]
  · rw [if_neg h, if_neg h, wordAt, Nat.zero_div]
    rfl

/-- Looking a lane up among the reads of `sld`. -/
theorem sldAccs_find {s : State} {o : MOp} {c : Nat} {w : Warp} {l : Nat} (hl : l ∈ w.lanesOf o.guard) :
    (sldAccs s o c w).find? (·.1 = l) = if o.size.bytes * l + o.size.bytes ≤ (s.headTile c (mStream o)).2 then
      some (l, (s.headTile c (mStream o)).1 + o.size.bytes * l) else none := by
  split
  · next h =>
    cases hf : (sldAccs s o c w).find? (·.1 = l) with
    | some p =>
      obtain ⟨j, _, rfl⟩ := List.mem_map.1 (List.mem_of_find?_eq_some hf)
      obtain rfl : j = l := of_decide_eq_true (List.find?_some (p := fun x : Nat × Nat => decide (x.1 = l)) hf)
      rfl
    | none =>
      have hm : (l, (s.headTile c (mStream o)).1 + o.size.bytes * l) ∈ sldAccs s o c w :=
        List.mem_map.2 ⟨l, List.mem_filter.2 ⟨hl, decide_eq_true h⟩, rfl⟩
      exact absurd (decide_eq_true rfl) (List.find?_eq_none.1 hf _ hm)
  · next h =>
    rw [List.find?_eq_none]
    intro p hp hpl
    obtain ⟨j, hj, rfl⟩ := List.mem_map.1 hp
    obtain rfl : j = l := of_decide_eq_true hpl
    exact h (of_decide_eq_true (List.mem_filter.1 hj).2)

theorem sldVals_eq (s : State) (o : MOp) (c : Nat) (w : Warp) :
    ((w.lanesOf o.guard).map fun l => (l, match (sldAccs s o c w).find? (·.1 = l) with
      | some p => s.spGet w.block p.2 o.size.bytes
      | none => 0)) = (w.lanesOf o.guard).map fun l => (l, sldValue s o c w l) := by
  refine List.map_congr_left fun l hl => ?_
  rw [sldAccs_find hl, sldValue]
  by_cases h : o.size.bytes * l + o.size.bytes ≤ (s.headTile c (mStream o)).2
  · simp only [if_pos h]
  · simp only [if_neg h]

theorem claim_warps (x : CoreSt) (n len m : Nat) : (x.claim n len m).2.warps = x.warps := setStrm_warps ..

theorem quiet_setCore {s : State} {d : Nat} {x : CoreSt} (h : x.warps = (s.core d).warps) (c k : Nat) : Quiet s (s.setCore d x) c k :=
  quiet_modCore (f := fun _ => x) h c k

/-- The ring after `sld` has claimed its head tile, and what gives the slot back (R167, R197). -/
def sldRelease (s : State) (o : MOp) (c : Nat) (w : Warp) : Landing :=
  w.scalarLanding 1 8 (.sd (mStream o) 4) .none
    (slotRelease ((s.core c).desc (mStream o)).len ((s.core c).claim (mStream o) ((s.core c).desc (mStream o)).len 1).1) 0

theorem effSld_of {s : State} {c k : Nat} {w : Warp} (hw : s.warp? c k = some w) (o : MOp) :
    effSld o c k s = (((s.setCore c ((s.core c).claim (mStream o) ((s.core c).desc (mStream o)).len 1).2).setWarp c k
      (w.pushAll (w.mLandings o 8 o.size.bytes ((w.lanesOf o.guard).map fun l => (l, sldValue s o c w l)) ++ [sldRelease s o c w]))).bankCount c w.pipe
        (spWords o.size.bytes (sldAccs s o c w))) := by
  rw [← sldVals_eq, effSld, State.onWarp_of hw]
  rfl

/-- The landings of `sld`: a word of each register, from the bytes of the tile (R143, R167). -/
theorem sld_landings {s : State} {o : MOp} {c : Nat} {w : Warp} {r : Fin 128} (hr : o.data = .v r) :
    let xs := w.mLandings o 8 o.size.bytes ((w.lanesOf o.guard).map fun l => (l, sldValue s o c w l))
    xs.length = (o.size.bytes + 3) / 4 ∧ ∀ i x, xs[i]? = some x → Lands w x 1 8 (.v (mReg o + i)) (if i = 0 then .lmd else .none) ∧
      LaneValues w x o.guard fun l y e => y = wordAt (sldValue s o c w l) i ∧ e = 0 := by
  intro xs
  have hxs : xs = _ := mLandings_vector hr ..
  refine ⟨by rw [hxs, List.length_map, List.length_range], fun i x hx => ?_⟩
  rw [hxs] at hx
  obtain rfl := getElem?_range_map hx
  refine ⟨⟨rfl, rfl, rfl, ?_, rfl, rfl, rfl⟩, laneValues_map ?_ rfl⟩
  · simp only [mReg, hr, Warp.vecLanding]
  · simp only [Warp.vecLanding, List.map_map]
    rfl

theorem sld_clauses {s : State} {c k : Nat} {w : Warp} {o : MOp} (hi : Issues s c k w (.sld o)) (hk : sldCheck o c k s = none)
    (hd : ∃ r, o.data = .v r) :
    let d := (s.core c).desc (mStream o)
    let first := d.slotOff (ptrHead ((s.core c).strm (mStream o) 2).toNat)
    ∃ t w' xs z, exec (.sld o) s = .next t ∧ t.warp? c k = some w' ∧ Frame s t c k ∧ t.blocks = s.blocks ∧ SameRegs w w' ∧ w'.flags = w.flags ∧
      w'.flight = w.flight ++ (xs ++ [z]) ∧ xs.length = (o.size.bytes + 3) / 4 ∧
      (∀ i x, xs[i]? = some x → Lands w x 1 8 (.v (mReg o + i)) (if i = 0 then .lmd else .none) ∧
        LaneValues w x o.guard fun l y e => e = 0 ∧ y = if o.size.bytes * l + o.size.bytes ≤ d.rows * d.rb
          then BitVec.ofNat 32 (s.spGet w.block (first + o.size.bytes * l) o.size.bytes / 2 ^ (32 * i)) else 0) ∧
      Lands w z 1 8 (.sd (mStream o) 4) .none ∧ z.scalar = slotRelease d.len ((s.core c).claim (mStream o) d.len 1).1 ∧
      (t.core c).streams = ((s.core c).claim (mStream o) d.len 1).2.streams := by
  intro d first
  have hw := hi.2.1
  obtain ⟨r, hr⟩ := hd
  let vals := (w.lanesOf o.guard).map fun l => (l, sldValue s o c w l)
  let xs := w.mLandings o 8 o.size.bytes vals
  let z := sldRelease s o c w
  let cl := ((s.core c).claim (mStream o) d.len 1).2
  let u := s.setCore c cl
  let t := (u.setWarp c k (w.pushAll (xs ++ [z]))).bankCount c w.pipe (spWords o.size.bytes (sldAccs s o c w))
  let n := sldFreeze o c k s
  have ht : effSld o c k s = t := effSld_of hw o
  have hu : Quiet s u c k := quiet_setCore (claim_warps ..) c k
  have hq : Quiet s t c k := quiet_trans hu (quiet_trans (quiet_setWarp u c k _) (quiet_bankCount ..))
  have hv : t.warp? c k = some (w.pushAll (xs ++ [z])) := (State.warp_modCore rfl c k).trans (State.warp_setWarp_self u c k _)
  obtain ⟨w', hw', hframe, hblocks, hregs, hflags, hflight⟩ := fixedLoad_frame (n := n) hq hv (sameRegs_refl w) rfl rfl
  obtain ⟨hlen, hlands⟩ := sld_landings (s := s) (c := c) (w := w) hr
  refine ⟨_, w', xs, z, ?_, hw', hframe, hblocks, hregs, hflags, hflight, hlen, fun i x hx => ?_, ⟨rfl, rfl, rfl, rfl, rfl, rfl, rfl⟩, rfl, ?_⟩
  · rw [exec_m hi rfl rfl rfl hk rfl (fun _ h => nomatch h), ← ht]
    rfl
  · obtain ⟨hl, hvals⟩ := hlands i x hx
    refine ⟨hl, fun l => ⟨fun ha => ?_, (hvals l).2⟩⟩
    obtain ⟨y, hy, hval, he⟩ := (hvals l).1 ha
    exact ⟨y, hy, he, hval.trans (wordAt_sldValue ..)⟩
  · obtain ⟨ws, hf⟩ := core_freezeBy t c k n
    obtain ⟨a, b, hb⟩ := core_bankCount (u.setWarp c k (w.pushAll (xs ++ [z]))) c w.pipe (spWords o.size.bytes (sldAccs s o c w))
    rw [hf, hb, State.core_setWarp, State.core_setCore_self]

/-- Settles O20. -/
theorem streamOperations : Obligations.StreamOperations := by
  refine ⟨fun o s c k w => sld_clauses, fun o s c k w => sdset_clauses, fun o s c k w => sdget_clauses, ?_, fun o s c k w => ringEmpty⟩
  simp only [List.forall_mem_cons, List.not_mem_nil, false_imp_iff, implies_true, and_true]
  refine ⟨fun o s c k w hi => ringMisuse hi rfl rfl fun h => ?_, fun o s c k w hi => ringMisuse hi rfl rfl fun h => ?_,
    fun o s c k w hi => ringMisuse hi rfl rfl fun h => h⟩
  · exact sldCheck_of_chkSld (by simp only [chkSld, h])
  · show chkSdset o c k s = some ⟨0x142, 0, 0⟩
    simp only [chkSdset, h]

end Sys2Proof.Machine
end

