-- ==== Sys2Proof/Proofs/AcceptedOperations.lean ====
section
/-! PROOFS. One rule for each step of accepting a memory operation: translations, program order, flags, markers, asynchronous operations and entries of
the release FIFO (R22, R142, R144, R157, R159 to R161). -/

namespace Sys2Proof.Machine
open Claim

/-! ## What an accepted operation adds -/

/-- From `s` to `t` the warp of slot `k` of core `c` became `v`, and the core has the further entries `es`, markers `ms` and asynchronous operations
`os`; memory, scratchpads and other warps are unchanged. -/
structure Accepted (s t : State) (c k : Nat) (v : Warp) (es : List FifoEntry) (ms : List Marker) (os : List AsyncOp) : Prop where
  quiet : Quiet s t c k
  warp : t.warp? c k = some v
  fifo : (t.core c).fifo = (s.core c).fifo ++ es
  markers : (t.core c).markers = (s.core c).markers ++ ms
  ops : (t.core c).ops = (s.core c).ops ++ os
  next : (s.core c).next ≤ (t.core c).next

theorem Accepted.trans {s t u : State} {c k : Nat} {v x : Warp} {es fs : List FifoEntry} {ms ns : List Marker} {os ps : List AsyncOp}
    (h : Accepted s t c k v es ms os) (g : Accepted t u c k x fs ns ps) : Accepted s u c k x (es ++ fs) (ms ++ ns) (os ++ ps) where
  quiet := quiet_trans h.quiet g.quiet
  warp := g.warp
  fifo := by rw [g.fifo, h.fifo, List.append_assoc]
  markers := by rw [g.markers, h.markers, List.append_assoc]
  ops := by rw [g.ops, h.ops, List.append_assoc]
  next := h.next.trans g.next

section
variable {s : State} {c k : Nat} {w : Warp}

/-- A change of the core that adds to its lists and keeps its warps. -/
theorem accepted_modCore {f : CoreSt → CoreSt} {es : List FifoEntry} {ms : List Marker} {os : List AsyncOp} (hw : s.warp? c k = some w)
    (hf : ∀ x, (f x).warps = x.warps ∧ (f x).fifo = x.fifo ++ es ∧ (f x).markers = x.markers ++ ms ∧ (f x).ops = x.ops ++ os ∧ x.next ≤ (f x).next) :
    Accepted s (s.modCore c f) c k w es ms os := by
  obtain ⟨hwarps, hfifo, hmarkers, hops, hnext⟩ := hf (s.core c)
  have hcore : (s.modCore c f).core c = f (s.core c) := State.core_setCore_self ..
  exact ⟨quiet_modCore hwarps c k, (State.warp_modCore hwarps c k).trans hw, hcore ▸ hfifo, hcore ▸ hmarkers, hcore ▸ hops, hcore ▸ hnext⟩

theorem accepted_setWarp (s : State) (c k : Nat) (v : Warp) : Accepted s (s.setWarp c k v) c k v [] [] [] := by
  refine ⟨quiet_setWarp s c k v, State.warp_setWarp_self s c k v, ?_, ?_, ?_, ?_⟩ <;> simp

theorem accepted_of_onlyTlb {t : State} (h : OnlyTlb s t) (hw : s.warp? c k = some w) : Accepted s t c k w [] [] [] := by
  obtain ⟨xs, hx⟩ := h.core c
  refine ⟨h.quiet c k, (h.warp c k).trans hw, ?_, ?_, ?_, ?_⟩ <;> simp [hx]

/-- R145, R352: translating the lanes adds nothing. -/
theorem accepted_places (hw : s.warp? c k = some w) (acc : AccKind) (xs : List (Nat × Nat)) :
    Accepted s (s.places c w acc xs).2 c k w [] [] [] :=
  accepted_of_onlyTlb (onlyTlb_places ..) hw

/-- R30: the operation takes its place in program order. -/
theorem accepted_takeSeq (hw : s.warp? c k = some w) : Accepted s (s.takeSeq c k).2 c k { w with seq := w.seq + 1 } [] [] [] := by
  rw [takeSeq_of hw]
  exact accepted_setWarp ..

theorem accepted_takeNum (hw : s.warp? c k = some w) : Accepted s (s.takeNum c).2 c k w [] [] [] :=
  accepted_modCore (f := fun x => { x with next := x.next + 1 }) hw fun x => by simp

/-- R22: the flag rises. -/
theorem accepted_flagInc (hw : s.warp? c k = some w) (f : Option (Fin 16)) : Accepted s (s.flagInc c k f) c k (w.raised f) [] [] [] := by
  rw [flagInc_of hw]
  exact accepted_setWarp ..

/-- R142, R159: a posted operation raises its flag; with no line it may leave an operation that lowers it. -/
theorem accepted_postFlag (hw : s.warp? c k = some w) (op : Nat) (f : Option (Fin 16)) (lines : Bool) (rel : Option Nat) :
    ∃ os, Accepted s (s.postFlag c k op f lines rel) c k (w.raised f) [] [] os := by
  cases f with
  | none => exact ⟨[], by simpa [State.postFlag, Warp.raised, State.setWarp_warp hw] using accepted_setWarp s c k w⟩
  | some f =>
    have h1 := accepted_flagInc hw (some f)
    simp only [State.postFlag, h1.warp]
    split
    · exact ⟨[], h1.trans (accepted_modCore h1.warp fun x => by simp)⟩
    · have h2 := h1.trans (accepted_takeNum h1.warp)
      exact ⟨_, h2.trans (accepted_modCore (es := []) (ms := []) h2.warp fun x => ⟨rfl, by simp, by simp, rfl, le_rfl⟩)⟩

/-- R161: a release marker behind every entry. -/
theorem accepted_placeMarker (hw : s.warp? c k = some w) (q : Nat) (sc : Scope) (op f : Option Nat) :
    Accepted s (s.placeMarker c k q sc op f).2 c k w [] [⟨(s.core c).next, k, q, sc, op, f⟩] [] ∧
      (s.placeMarker c k q sc op f).1 = (s.core c).next ∧ ((s.placeMarker c k q sc op f).2.core c).next = (s.core c).next + 1 := by
  have h1 := accepted_takeNum hw
  have h2 := accepted_modCore (f := fun x => { x with markers := x.markers ++ [⟨(s.core c).next, k, q, sc, op, f⟩] }) (es := [])
    (ms := [⟨(s.core c).next, k, q, sc, op, f⟩]) (os := []) h1.warp fun x => by simp
  exact ⟨h1.trans h2, rfl, by simp [State.placeMarker, State.takeNum, State.modCore]⟩

/-- The asynchronous operation that warp `w` of slot `k` starts with acceptance number `n` (R144). -/
def startedOp (k n : Nat) (w : Warp) (q : Nat) (kind : AsyncKind) (o : MOp) (size : Nat) (acq : Option Scope) (rel : Option Nat) (todo : List LaneAcc)
    (now : Nat) : AsyncOp :=
  { id := n, slot := k, seq := q, tick := w.tick, kind := kind, flag := o.flag.map (·.val), dest := mDest o, n := size, acq := acq, rel := rel
    todo := todo, got := [], err := none, addr := w.pc, dead := false, since := now }

/-- R144: an asynchronous operation starts and raises its flag. -/
theorem accepted_startAsync (hw : s.warp? c k = some w) (q : Nat) (kind : AsyncKind) (o : MOp) (n : Nat) (acq : Option Scope) (rel : Option Nat)
    (todo : List LaneAcc) :
    Accepted s (s.startAsync c k q kind o n acq rel todo).2 c k (w.raised o.flag) [] []
        [startedOp k (s.core c).next w q kind o n acq rel todo s.cycle] ∧ (s.startAsync c k q kind o n acq rel todo).1 = (s.core c).next := by
  have h1 := accepted_takeNum hw
  have h2 := h1.trans (accepted_setWarp (s.takeNum c).2 c k (w.raised o.flag))
  constructor
  · rw [startAsync_of hw]
    exact h2.trans (accepted_modCore h2.warp fun x => by simp [startedOp])
  · simp only [State.startAsync, h1.warp]
    rfl

/-- R155: dropping lines of the L1 adds nothing. -/
theorem accepted_dropLines (hw : s.warp? c k = some w) (ps : List Pa) : Accepted s (s.dropLines c ps) c k w [] [] [] :=
  accepted_modCore (f := fun x => { x with l1 := x.l1.filter fun l => !(ps.map Pa.line).contains l.pa }) hw fun x => by simp

end

/-! ## Entries, one for each line (R157) -/

/-- The entries of lines, numbered from `n` on. -/
def lineEntries (mk : Nat → Pa → FifoEntry) (n : Nat) : List Pa → List FifoEntry
  | [] => []
  | l :: ls => mk n l :: lineEntries mk (n + 1) ls

theorem mem_lineEntries {mk : Nat → Pa → FifoEntry} {n : Nat} {ls : List Pa} {e : FifoEntry} (h : e ∈ lineEntries mk n ls) :
    ∃ m l, n ≤ m ∧ l ∈ ls ∧ e = mk m l := by
  induction ls generalizing n with
  | nil => cases h
  | cons l ls ih =>
    rcases List.mem_cons.1 h with rfl | h
    · exact ⟨n, l, le_rfl, List.mem_cons_self .., rfl⟩
    · obtain ⟨m, a, hm, ha, rfl⟩ := ih h
      exact ⟨m, a, Nat.le_of_succ_le hm, List.mem_cons_of_mem _ ha, rfl⟩

theorem exists_lineEntry (mk : Nat → Pa → FifoEntry) (n : Nat) {ls : List Pa} {l : Pa} (h : l ∈ ls) : ∃ m, mk m l ∈ lineEntries mk n ls := by
  induction ls generalizing n with
  | nil => cases h
  | cons a ls ih =>
    rcases List.mem_cons.1 h with rfl | h
    · exact ⟨n, List.mem_cons_self ..⟩
    · obtain ⟨m, hm⟩ := ih (n + 1) h
      exact ⟨m, List.mem_cons_of_mem _ hm⟩

theorem lineEntries_lines {mk : Nat → Pa → FifoEntry} (h : ∀ n l, (mk n l).line = l) (n : Nat) (ls : List Pa) :
    (lineEntries mk n ls).map (·.line) = ls := by
  induction ls generalizing n with
  | nil => rfl
  | cons l ls ih => rw [lineEntries, List.map_cons, h, ih]

/-- Enter one entry for each line, numbered in order. -/
def State.enterLines (s : State) (c : Nat) (mk : Nat → Nat → Pa → FifoEntry) (ls : List Pa) : State :=
  ls.foldl (fun s l => (s.takeNum c).2.modCore c fun x => { x with fifo := x.fifo ++ [mk s.cycle (s.core c).next l] }) s

theorem accepted_enterLines {s : State} {c k : Nat} {w : Warp} (hw : s.warp? c k = some w) (mk : Nat → Nat → Pa → FifoEntry) (ls : List Pa) :
    Accepted s (s.enterLines c mk ls) c k w (lineEntries (mk s.cycle) (s.core c).next ls) [] [] := by
  induction ls generalizing s with
  | nil => exact ⟨quiet_refl s c k, hw, by simp [State.enterLines, lineEntries], by simp [State.enterLines], by simp [State.enterLines], le_rfl⟩
  | cons l ls ih =>
    have h1 := accepted_takeNum hw
    have h2 := h1.trans (accepted_modCore (f := fun x => { x with fifo := x.fifo ++ [mk s.cycle (s.core c).next l] }) (es := [mk s.cycle (s.core c).next l])
      (ms := []) (os := []) h1.warp fun x => by simp)
    have hn : (((s.takeNum c).2.modCore c fun x => { x with fifo := x.fifo ++ [mk s.cycle (s.core c).next l] }).core c).next = (s.core c).next + 1 := by
      simp [State.takeNum, State.modCore]
    have h3 := h2.trans (ih h2.warp)
    rw [hn, h2.quiet.1.cycle] at h3
    exact h3

theorem nodup_eraseDups {α : Type} [DecidableEq α] (xs : List α) : xs.eraseDups.Nodup := by
  induction hn : xs.length using Nat.strong_induction_on generalizing xs with
  | _ n ih =>
    cases xs with
    | nil => simp
    | cons a xs =>
      rw [List.eraseDups_cons, List.nodup_cons]
      refine ⟨by simp [List.mem_eraseDups], ih _ ?_ _ rfl⟩
      have := List.length_filter_le (fun b => !b == a) xs
      simp only [List.length_cons] at hn
      omega

/-! ## Entries of plain writes -/

/-- The bytes that the pieces of a line leave in its entry. -/
def lineBytes (xs : List (Place × Nat × Nat)) : List Host.Cell := xs.foldl (fun cs x => cellsPut cs x.1.pa.addr x.2.1 x.2.2) []

/-- The entry of line `l` for a plain write of pieces (R159). -/
def writeEntry (k op q : Nat) (spill : Bool) (xs : List (Place × Nat × Nat)) (now n : Nat) (l : Pa) : FifoEntry :=
  let mine := xs.zipIdx.filter fun x => x.1.1.pa.line = l
  let bytes := mine.foldl (fun cs x => cellsPut cs x.1.1.pa.addr x.1.2.1 x.1.2.2) []
  { seq := n, op := op, slot := k, wseq := q, line := l, ms := mine.any fun x => x.1.1.ms, kind := none, spill := spill, bytes := bytes
    lanes := mine.map fun x => ⟨x.2, x.1.1.pa, x.1.1.ms, x.1.2.1, x.1.2.2, 0⟩, sent := false, whole := bytes.length = 128, since := now }

theorem enterWrites_eq (s : State) (c k op q : Nat) (spill : Bool) (xs : List (Place × Nat × Nat)) :
    s.enterWrites c k op q spill xs =
      (s.dropLines c (xs.map fun x => x.1.pa.line).eraseDups).enterLines c (writeEntry k op q spill xs) (xs.map fun x => x.1.pa.line).eraseDups := rfl

/-- The pieces of a line among numbered ones. -/
theorem filter_zipIdx (xs : List (Place × Nat × Nat)) (l : Pa) (n : Nat) :
    ((xs.zipIdx n).filter fun x => x.1.1.pa.line = l).map (·.1) = xs.filter fun x => x.1.pa.line = l := by
  induction xs generalizing n with
  | nil => rfl
  | cons x xs ih =>
    rw [List.zipIdx_cons, List.filter_cons, List.filter_cons]
    by_cases h : x.1.pa.line = l
    · simp [h, ih]
    · simp [h, ih]

theorem writeEntry_bytes (k op q : Nat) (spill : Bool) (xs : List (Place × Nat × Nat)) (now n : Nat) (l : Pa) :
    (writeEntry k op q spill xs now n l).bytes = lineBytes (xs.filter fun x => x.1.pa.line = l) := by
  rw [← filter_zipIdx xs l 0, lineBytes, List.foldl_map]
  rfl

theorem writeEntry_lanes (k op q : Nat) (spill : Bool) (xs : List (Place × Nat × Nat)) (now n : Nat) (l : Pa) :
    (writeEntry k op q spill xs now n l).lanes.map (fun a => (a.pa, a.n, a.x)) =
      (xs.filter fun x => x.1.pa.line = l).map fun p => (p.1.pa, p.2.1, p.2.2) := by
  rw [← filter_zipIdx xs l 0, List.map_map]
  exact List.map_map

/-- Whether a piece covers an address. -/
def Covers (x : Place × Nat × Nat) (a : Nat) : Prop := x.1.pa.addr ≤ a ∧ a < x.1.pa.addr + x.2.1

theorem find_cellsPut (cs : List Host.Cell) (a n v b : Nat) : FMap.find (cellsPut cs a n v) b =
    if a ≤ b ∧ b < a + n then some (BitVec.ofNat 8 (v / 256 ^ (b - a))) else FMap.find cs b := by
  induction n with
  | zero =>
    rw [if_neg (by omega)]
    rfl
  | succ n ih =>
    have hstep : cellsPut cs a (n + 1) v = FMap.set (cellsPut cs a n v) (a + n) (BitVec.ofNat 8 (v / 256 ^ n)) := by
      simp only [cellsPut, List.range_succ, List.foldl_append, List.foldl_cons, List.foldl_nil]
    rw [hstep]
    by_cases hb : b = a + n
    · subst hb
      rw [FMap.find_set_self, if_pos (by omega), Nat.add_sub_cancel_left]
    · rw [FMap.find_set_ne _ _ hb, ih]
      have hiff : (a ≤ b ∧ b < a + (n + 1)) ↔ (a ≤ b ∧ b < a + n) := by omega
      simp only [hiff]

/-- R142: each byte of a line is that of the last piece that covers it. -/
theorem find_lineBytes {xs : List (Place × Nat × Nat)} {a : Nat} {v : Byte} (h : FMap.find (lineBytes xs) a = some v) :
    ∃ ys x zs, xs = ys ++ x :: zs ∧ Covers x a ∧ v = BitVec.ofNat 8 (x.2.2 / 256 ^ (a - x.1.pa.addr)) ∧ ∀ z ∈ zs, ¬Covers z a := by
  induction xs using List.reverseRecOn with
  | nil => cases h
  | append_singleton xs x ih =>
    rw [lineBytes, List.foldl_append, List.foldl_cons, List.foldl_nil, find_cellsPut] at h
    split at h
    · next hc => exact ⟨xs, x, [], rfl, hc, (Option.some.inj h).symm, fun z hz => nomatch hz⟩
    · next hc =>
      obtain ⟨ys, y, zs, rfl, hy, hv, hz⟩ := ih h
      refine ⟨ys, y, zs ++ [x], by simp, hy, hv, fun z hz' => ?_⟩
      rcases List.mem_append.1 hz' with hz' | hz'
      · exact hz z hz'
      · rw [List.mem_singleton] at hz'
        exact hz' ▸ hc

/-- Every byte of every piece of a line is in its entry. -/
theorem find_lineBytes_covered {xs : List (Place × Nat × Nat)} {x : Place × Nat × Nat} {a : Nat} (hx : x ∈ xs) (hc : Covers x a) :
    (FMap.find (lineBytes xs) a).isSome = true := by
  induction xs using List.reverseRecOn with
  | nil => cases hx
  | append_singleton xs y ih =>
    rw [lineBytes, List.foldl_append, List.foldl_cons, List.foldl_nil, find_cellsPut]
    split
    · rfl
    · next hy =>
      refine ih ((List.mem_append.1 hx).resolve_right fun h => hy ?_)
      rw [List.mem_singleton] at h
      exact h ▸ hc

end Sys2Proof.Machine
end

