-- ==== Sys2Proof/Proofs/GlobalStores.lean ====
section
/-! PROOFS. Global stores, with and without release, and spills: their entries of the release FIFO (R142, R157, R159, R161, R173, R175). -/

namespace Sys2Proof.Machine
open Claim

/-! ## The entries of a plain write -/

/-- The entries `es` of slot `k` are those of a plain write of pieces: one for each line, with its pieces. -/
structure WriteEntries (k : Nat) (spill : Bool) (xs : List (Place × Nat × Nat)) (es : List FifoEntry) : Prop where
  each : ∀ e ∈ es, e.slot = k ∧ e.kind = none ∧ e.spill = spill ∧ e.sent = false
  nodup : (es.map (·.line)).Nodup
  carries : Carries es xs
  lanes : ∀ e ∈ es, e.lanes.map (fun a => (a.pa, a.n, a.x)) = (xs.filter fun p => p.1.pa.line = e.line).map fun p => (p.1.pa, p.2.1, p.2.2)

/-- A byte of the entry of a line is that of the last piece of the line that covers it. -/
theorem lineBytes_last {xs : List (Place × Nat × Nat)} {l : Pa} {a : Nat} {v : Byte}
    (h : FMap.find (lineBytes (xs.filter fun x => x.1.pa.line = l)) a = some v) :
    ∃ (i : Nat) (x : Place × Nat × Nat), xs[i]? = some x ∧ x.1.pa.line = l ∧ x.1.pa.addr ≤ a ∧ a < x.1.pa.addr + x.2.1 ∧
      v.toNat = x.2.2 / 256 ^ (a - x.1.pa.addr) % 256 ∧
      ∀ (j : Nat) (y : Place × Nat × Nat), xs[j]? = some y → i < j → y.1.pa.line = l → a < y.1.pa.addr ∨ y.1.pa.addr + y.2.1 ≤ a := by
  obtain ⟨ys, x, zs, hsplit, hc, hv, hz⟩ := find_lineBytes h
  obtain ⟨us, vs, rfl, _, hvs⟩ := List.filter_eq_append_iff.1 hsplit
  obtain ⟨as, bs, rfl, _, hx, hbs⟩ := List.filter_eq_cons_iff.1 hvs
  refine ⟨(us ++ as).length, x, ?_, of_decide_eq_true hx, hc.1, hc.2, ?_, fun j y hj hlt hy => ?_⟩
  · rw [← List.append_assoc, List.getElem?_append_right le_rfl, Nat.sub_self]
    rfl
  · rw [hv, BitVec.toNat_ofNat]
  · rw [← List.append_assoc, List.getElem?_append_right (Nat.le_of_lt hlt)] at hj
    have hm : y ∈ bs := by
      obtain ⟨m, hm⟩ : ∃ m, j - (us ++ as).length = m + 1 := ⟨j - (us ++ as).length - 1, by omega⟩
      rw [hm, List.getElem?_cons_succ] at hj
      exact List.mem_of_getElem? hj
    have hnot := hz y (hbs ▸ List.mem_filter.2 ⟨hm, decide_eq_true hy⟩)
    unfold Covers at hnot
    omega

theorem writeEntries_of (k op q : Nat) (spill : Bool) (xs : List (Place × Nat × Nat)) (now n : Nat) :
    WriteEntries k spill xs (lineEntries (writeEntry k op q spill xs now) n (xs.map fun x => x.1.pa.line).eraseDups) where
  each e he := by
    obtain ⟨m, l, _, _, rfl⟩ := mem_lineEntries he
    exact ⟨rfl, rfl, rfl, rfl⟩
  nodup := by
    rw [lineEntries_lines fun _ _ => rfl]
    exact nodup_eraseDups _
  carries := by
    refine ⟨fun e he a v hv => ?_, fun x hx => ?_⟩
    · obtain ⟨m, l, _, _, rfl⟩ := mem_lineEntries he
      rw [writeEntry_bytes] at hv
      exact lineBytes_last hv
    · obtain ⟨m, hm⟩ := exists_lineEntry (writeEntry k op q spill xs now) n (List.mem_eraseDups.2 (List.mem_map_of_mem (f := fun x => x.1.pa.line) hx))
      refine ⟨_, hm, rfl, fun i hi => ?_⟩
      rw [writeEntry_bytes]
      exact find_lineBytes_covered (List.mem_filter.2 ⟨hx, decide_eq_true rfl⟩) ⟨Nat.le_add_right .., Nat.add_lt_add_left hi _⟩
  lanes e he := by
    obtain ⟨m, l, _, _, rfl⟩ := mem_lineEntries he
    exact writeEntry_lanes ..

theorem accepted_enterWrites {s : State} {c k : Nat} {w : Warp} (hw : s.warp? c k = some w) (op q : Nat) (spill : Bool)
    (xs : List (Place × Nat × Nat)) :
    ∃ es, Accepted s (s.enterWrites c k op q spill xs) c k w es [] [] ∧ WriteEntries k spill xs es ∧ ∀ e ∈ es, (s.core c).next ≤ e.seq := by
  have h1 := accepted_dropLines hw (xs.map fun x => x.1.pa.line).eraseDups
  have h2 := h1.trans (accepted_enterLines h1.warp (writeEntry k op q spill xs) (xs.map fun x => x.1.pa.line).eraseDups)
  refine ⟨_, h2, writeEntries_of .., fun e he => ?_⟩
  obtain ⟨m, l, hm, _, rfl⟩ := mem_lineEntries he
  exact h1.next.trans hm

/-! ## The accepted write -/

/-- The warp once an operation has taken its place in program order and raised its flag. -/
theorem loading_facts (w : Warp) (o : MOp) :
    SameRegs w (w.loading o) ∧ (w.loading o).flight = w.flight ∧ FlagUp w (w.loading o) (o.flag.map (·.val)) :=
  ⟨sameRegs_trans (sameRegs_seq w _) (raised_sameRegs _ o.flag), raised_flight _ o.flag, flagUp_raised { w with seq := w.seq + 1 } o.flag⟩

/-- A posted operation: translations, its place in program order, its number and its flag (R142, R159). -/
theorem accepted_posted {s : State} {c k : Nat} {w : Warp} (hw : s.warp? c k = some w) (acc : AccKind) (ys : List (Nat × Nat)) (o : MOp) (lines : Bool)
    (rel : Option Nat) : ∃ os, Accepted s ((((((s.places c w acc ys).2.takeSeq c k).2.takeNum c).2.postFlag c k
      (((s.places c w acc ys).2.takeSeq c k).2.takeNum c).1 o.flag lines rel))) c k (w.loading o) [] [] os := by
  have h1 := accepted_places hw acc ys
  have h2 := h1.trans (accepted_takeSeq h1.warp)
  have h3 := h2.trans (accepted_takeNum h2.warp)
  obtain ⟨os, h4⟩ := accepted_postFlag h3.warp (((s.places c w acc ys).2.takeSeq c k).2.takeNum c).1 o.flag lines rel
  exact ⟨os, h3.trans h4⟩

theorem places_storePieces (s : State) (c : Nat) (w : Warp) (o : MOp) :
    ((s.places c w .write (w.accs o false)).1.map fun p => (p.2, o.size.bytes, w.dataIn o p.1)) = storePieces s c w o := by
  simp only [State.places, State.placesOf, storePieces, List.map_filterMap, Option.map_map]
  rfl

/-- R159: a store enters its lines. -/
theorem accepted_storeEnter {s : State} {c k : Nat} {w : Warp} (hw : s.warp? c k = some w) (o : MOp) (rel : Option Nat) :
    ∃ es os, Accepted s (storeEnter o rel c k s) c k (w.loading o) es [] os ∧ WriteEntries k false (storePieces s c w o) es ∧
      ∀ e ∈ es, (s.core c).next ≤ e.seq := by
  obtain ⟨os, h1⟩ := accepted_posted hw .write (w.accs o false) o ((s.places c w .write (w.accs o false)).1 != []) rel
  obtain ⟨es, h2, hes, hnext⟩ := accepted_enterWrites h1.warp (((s.places c w .write (w.accs o false)).2.takeSeq c k).2.takeNum c).1
    ((s.places c w .write (w.accs o false)).2.takeSeq c k).1 false (storePieces s c w o)
  refine ⟨es, os, ?_, hes, fun e he => h1.next.trans (hnext e he)⟩
  have h := h1.trans h2
  rw [← places_storePieces] at h
  rw [storeEnter, State.onWarp_of hw]
  simpa only [List.nil_append, List.append_nil] using h

/-! ## Translations do not see the cores -/

theorem xlate_setCores {s : State} {c : Nat} {cs : FMap CoreSt} (h : (({ s with cores := cs } : State).core c).tlb = (s.core c).tlb) (asid view va : Nat)
    (acc : AccKind) (priv : Bool) : ({ s with cores := cs } : State).xlate c asid view va acc priv = s.xlate c asid view va acc priv := by
  have hwalk : ({ s with cores := cs } : State).walk (dieOf c) asid view va acc priv = s.walk (dieOf c) asid view va acc priv :=
    State.walk_congr rfl rfl rfl (fun _ _ _ _ => rfl) ..
  simp only [State.xlate, State.tlbFind, h, hwalk]

theorem place_setCores {s : State} {c : Nat} {cs : FMap CoreSt} (h : (({ s with cores := cs } : State).core c).tlb = (s.core c).tlb) {v w : Warp}
    (hb : v.block = w.block) (hp : v.priv = w.priv) (acc : AccKind) (a : Nat) :
    ({ s with cores := cs } : State).place c v acc a = s.place c w acc a := by
  have hctx : ({ s with cores := cs } : State).ctxOf v.block c = s.ctxOf w.block c := by
    rw [hb]
    rfl
  simp only [State.place, hctx, hp, xlate_setCores h]
  rfl

/-- The place in program order is no operand. -/
theorem dataIn_seq (w : Warp) (q : Nat) (o : MOp) (l : Nat) : ({ w with seq := q } : Warp).dataIn o l = w.dataIn o l := by
  have hv (r n : Nat) : ({ w with seq := q } : Warp).vgroup r l n = w.vgroup r l n := by
    induction n generalizing r with
    | zero => rfl
    | succ n ih => simp only [Warp.vgroup, ih]; rfl
  simp only [Warp.dataIn, hv]
  cases o.data <;> rfl

theorem storePieces_setCores {s : State} {c : Nat} {cs : FMap CoreSt} (h : (({ s with cores := cs } : State).core c).tlb = (s.core c).tlb) (w : Warp)
    (q : Nat) (o : MOp) : storePieces { s with cores := cs } c { w with seq := q } o = storePieces s c w o := by
  simp only [storePieces, dataIn_seq, place_setCores h (v := { w with seq := q }) (w := w) rfl rfl]
  rfl

/-! ## Stores -/

theorem stG_clauses {s : State} {c k : Nat} {w : Warp} {o : MOp} (hi : Issues s c k w (.stG o)) (hk : writeCheck .write .any o c k s = none)
    (ht : storeWait .write o c k s = none) (hr : Room w o.flag) :
    ∃ t es os, exec (.stG o) s = .next t ∧ Accepted s t c k (w.loading o) es [] os ∧ WriteEntries k false (storePieces s c w o) es := by
  obtain ⟨es, os, h, hes, _⟩ := accepted_storeEnter hi.2.1 o none
  exact ⟨_, es, os, exec_m hi rfl rfl rfl hk ht (room_of hr), h, hes⟩

theorem stGRel_clauses {s : State} {c k : Nat} {w : Warp} {o : MOp} (hi : Issues s c k w (.stGRel o)) (hk : writeCheck .write .any o c k s = none)
    (ht : storeWait .write o c k s = none) (hm : s.releaseWaits c k true o.scope = false) (hr : Room w o.flag) :
    ∃ t es os v m, exec (.stGRel o) s = .next t ∧ Accepted s t c k v es [m] os ∧ WriteEntries k false (storePieces s c w o) es ∧
      SameRegs w v ∧ v.flight = w.flight ∧ FlagUp w v (o.flag.map (·.val)) ∧ m.scope = o.scope ∧ m.slot = k ∧ ∀ e ∈ es, m.seq < e.seq := by
  have hw := hi.2.1
  let v : Warp := { w with seq := w.seq + 1 }
  let m : Marker := ⟨(s.core c).next, k, w.seq, o.scope, none, none⟩
  have h1 : Accepted s (s.setWarp c k v) c k v [] [] [] := accepted_setWarp ..
  obtain ⟨h2, hnum, hnext⟩ := accepted_placeMarker h1.warp w.seq o.scope none none
  let u := ((s.setWarp c k v).placeMarker c k w.seq o.scope none none).2
  have htlb : (u.core c).tlb = (s.core c).tlb := by simp [u, State.placeMarker, State.takeNum, State.modCore]
  have hpieces : storePieces u c v o = storePieces s c w o := storePieces_setCores (s := s) (cs := u.cores) htlb w (w.seq + 1) o
  obtain ⟨es, os, h3, hes, hseq⟩ := accepted_storeEnter h2.warp o (some (s.core c).next)
  rw [hpieces] at hes
  have hcore : ((s.setWarp c k v).core c).next = (s.core c).next := by rw [State.core_setWarp]
  have h := h1.trans (h2.trans h3)
  rw [hcore] at h hnum hnext
  obtain ⟨hregs, hflight, hflag⟩ := loading_facts v o
  have heff : effStGRel o c k s = storeEnter o (some (s.core c).next) c k u := by
    rw [← hnum, effStGRel, takeSeq_of hw]
  refine ⟨storeEnter o (some (s.core c).next) c k u, es, os, v.loading o, m, ?_, h, hes, sameRegs_trans (sameRegs_seq w _) hregs, hflight, hflag, rfl, rfl,
    fun e he => ?_⟩
  · rw [← heff]
    refine exec_m hi rfl rfl rfl hk ?_ (room_of hr)
    show relWait o c k s = none
    rw [relWait, hm]
    exact ht
  · have := hseq e he
    rw [hnext] at this
    exact this

/-- Settles O18. -/
theorem globalStores : Obligations.GlobalStores := by
  simp only [Obligations.GlobalStores, List.forall_mem_cons, List.not_mem_nil, false_imp_iff, implies_true, and_true]
  refine ⟨fun o s c k w hi hk ht _ hr => ?_, fun o s c k w hi hk ht hm hr => ?_⟩
  · obtain ⟨t, es, os, he, h, hes⟩ := stG_clauses hi hk ht hr
    obtain ⟨hregs, hflight, hflag⟩ := loading_facts w o
    exact ⟨t, w.loading o, es, he, h.warp, h.quiet.1, h.quiet.2, hregs, hflight, hflag, h.fifo, hes.each, hes.nodup, hes.carries, hes.lanes,
      fun _ => h.markers.trans (List.append_nil _), fun hf => nomatch hf⟩
  · obtain ⟨t, es, os, v, m, he, h, hes, hregs, hflight, hflag, hscope, hslot, hseq⟩ := stGRel_clauses hi hk ht (hm trivial) hr
    exact ⟨t, v, es, he, h.warp, h.quiet.1, h.quiet.2, hregs, hflight, hflag, h.fifo, hes.each, hes.nodup, hes.carries, hes.lanes,
      (fun hf => nomatch hf), fun _ => ⟨m, h.markers, hscope, hslot, hseq⟩⟩

end Sys2Proof.Machine
end

