-- ==== Sys2Proof/Proofs/GlobalAtomics.lean ====
section
/-! PROOFS. Global atomics, CAS and reductions: their entries of the release FIFO (R142, R157, R160, R165). -/

namespace Sys2Proof.Machine
open Claim

/-! ## The entries of an atomic -/

/-- The entry of line `l` for atomic lanes (R160). -/
def atomEntry (k op q : Nat) (kind : AtomicOp) (xs : List LaneAcc) (now n : Nat) (l : Pa) : FifoEntry :=
  let mine := xs.filter fun x => x.pa.line = l
  { seq := n, op := op, slot := k, wseq := q, line := l, ms := mine.any fun x => x.ms, kind := some kind, spill := false, bytes := [], lanes := mine
    sent := false, since := now }

theorem enterAtomics_eq (s : State) (c k op q : Nat) (kind : AtomicOp) (xs : List LaneAcc) :
    s.enterAtomics c k op q kind xs =
      (s.dropLines c (xs.map fun x => x.pa.line).eraseDups).enterLines c (atomEntry k op q kind xs) (xs.map fun x => x.pa.line).eraseDups := rfl

/-- R157, R160: one entry for each line, with the lanes on it in their order. -/
theorem holds_atomEntries (k op q : Nat) (kind : AtomicOp) (xs : List LaneAcc) (now n : Nat) :
    Holds (lineEntries (atomEntry k op q kind xs now) n (xs.map fun x => x.pa.line).eraseDups) xs := by
  refine ⟨?_, fun e he => ?_, fun x hx => ?_⟩
  · rw [lineEntries_lines fun _ _ => rfl]
    exact nodup_eraseDups _
  · obtain ⟨m, l, _, hl, rfl⟩ := mem_lineEntries he
    obtain ⟨x, hx, hxl⟩ := List.mem_map.1 (List.mem_eraseDups.1 hl)
    exact ⟨List.ne_nil_of_mem (List.mem_filter.2 ⟨hx, decide_eq_true hxl⟩), rfl⟩
  · obtain ⟨m, hm⟩ := exists_lineEntry (atomEntry k op q kind xs now) n (List.mem_eraseDups.2 (List.mem_map_of_mem (f := fun x => x.pa.line) hx))
    exact ⟨_, hm, rfl⟩

theorem accepted_enterAtomics {s : State} {c k : Nat} {w : Warp} (hw : s.warp? c k = some w) (op q : Nat) (kind : AtomicOp) (xs : List LaneAcc) :
    ∃ es, Accepted s (s.enterAtomics c k op q kind xs) c k w es [] [] ∧ Holds es xs ∧
      ∀ e ∈ es, e.slot = k ∧ e.kind = some kind ∧ e.op = op ∧ e.spill = false ∧ e.sent = false := by
  have h1 := accepted_dropLines hw (xs.map fun x => x.pa.line).eraseDups
  have h2 := h1.trans (accepted_enterLines h1.warp (atomEntry k op q kind xs) (xs.map fun x => x.pa.line).eraseDups)
  refine ⟨_, h2, holds_atomEntries .., fun e he => ?_⟩
  obtain ⟨m, l, _, _, rfl⟩ := mem_lineEntries he
  exact ⟨rfl, rfl, rfl, rfl, rfl⟩

theorem places_atomLanes (s : State) (c : Nat) (w : Warp) (acc : AccKind) (o : MOp) (x e : Nat → Nat) :
    atomLanes o w x e (s.places c w acc (w.accs o false)).1 = laneAccs s c w acc o false x e := by
  simp only [atomLanes, State.places, State.placesOf, laneAccs, List.map_filterMap, Option.map_map]
  rfl

/-! ## Atomics that return their old values -/

theorem accepted_atomReturn {s : State} {c k : Nat} {w : Warp} (hw : s.warp? c k = some w) (op : AtomicOp) (o : MOp) (x e : Warp → Nat → Nat) :
    ∃ es n q now, Accepted s (atomReturn op o x e c k s) c k (w.loading o) es []
        [startedOp k n { w with seq := w.seq + 1 } q .atomic o o.size.bytes none none [] now] ∧
      Holds es (laneAccs s c w .rmw o false (x w) (e w)) ∧
      ∀ y ∈ es, y.slot = k ∧ y.kind = some op ∧ y.op = n ∧ y.spill = false ∧ y.sent = false := by
  let u := (s.places c w .rmw (w.accs o false)).2.takeSeq c k
  have h1 := accepted_places hw .rmw (w.accs o false)
  have h2 := h1.trans (accepted_takeSeq h1.warp)
  obtain ⟨h3, hnum⟩ := accepted_startAsync h2.warp u.1 .atomic o o.size.bytes none none []
  have h4 := h2.trans h3
  obtain ⟨es, h5, hholds, heach⟩ := accepted_enterAtomics h4.warp (u.2.startAsync c k u.1 .atomic o o.size.bytes none none []).1 u.1 op
    (laneAccs s c w .rmw o false (x w) (e w))
  refine ⟨es, (u.2.core c).next, u.1, u.2.cycle, ?_, hholds, fun y hy => hnum ▸ heach y hy⟩
  have h := h4.trans h5
  rw [← places_atomLanes] at h
  simp only [List.nil_append, List.append_nil] at h
  rw [atomReturn, State.onWarp_of hw]
  exact h

/-- What instruction `i`, an atomic with operands `x` and expected values `e` by lane, answers. -/
def AtomEntered (s : State) (c k : Nat) (w : Warp) (i : Instr) (op : AtomicOp) (o : MOp) (x e : Nat → Nat) : Prop :=
  ∃ t w' es a, exec i s = .next t ∧ t.warp? c k = some w' ∧ Frame s t c k ∧ t.blocks = s.blocks ∧ SameRegs w w' ∧
    w'.flight = w.flight ∧ FlagUp w w' (o.flag.map (·.val)) ∧ (t.core c).fifo = (s.core c).fifo ++ es ∧
    (∀ e ∈ es, e.slot = k ∧ e.kind = some op ∧ e.op = a.id ∧ e.spill = false ∧ e.sent = false) ∧ Holds es (laneAccs s c w .rmw o false x e) ∧
    (t.core c).ops = (s.core c).ops ++ [a] ∧ a.slot = k ∧ a.kind = .atomic ∧ a.flag = o.flag.map (·.val) ∧ a.dest = mDest o ∧
    a.n = o.size.bytes ∧ a.tick = w.tick ∧ a.addr = w.pc ∧ a.todo = [] ∧ a.got = []

theorem atomReturn_clauses {s : State} {c k : Nat} {w : Warp} {i : Instr} {op : AtomicOp} {o : MOp} {x e : Warp → Nat → Nat} (hi : Issues s c k w i)
    (hn : slotNum i = some 1)
    (hf : slotFn i = some (mFn o (writeCheck .rmw .noHost o) (storeWait .rmw o) (fun _ _ _ => 0) (atomReturn op o x e)))
    (hk : writeCheck .rmw .noHost o c k s = none) (ht : storeWait .rmw o c k s = none) (hr : Room w o.flag) :
    AtomEntered s c k w i op o (x w) (e w) := by
  obtain ⟨es, n, q, now, h, hholds, heach⟩ := accepted_atomReturn hi.2.1 op o x e
  obtain ⟨hregs, hflight, hflag⟩ := loading_facts w o
  exact ⟨_, _, es, _, exec_m hi hn hf rfl hk ht (room_of hr), h.warp, h.quiet.1, h.quiet.2, hregs, hflight, hflag, h.fifo, heach, hholds, h.ops,
    rfl, rfl, rfl, rfl, rfl, rfl, rfl, rfl, rfl⟩

/-- `atom.g.op`. -/
theorem atomG_clauses {s : State} {c k : Nat} {w : Warp} {i : Instr} {op : AtomicOp} {o : MOp} (hi : Issues s c k w i) (hn : slotNum i = some 1)
    (hf : slotFn i = some (mFn o (writeCheck .rmw .noHost o) (storeWait .rmw o) (fun _ _ _ => 0) (atomG op o)))
    (hk : writeCheck .rmw .noHost o c k s = none) (ht : storeWait .rmw o c k s = none) (hr : Room w o.flag) :
    AtomEntered s c k w i op o (w.dataIn o) fun _ => 0 :=
  atomReturn_clauses (x := fun w l => w.dataIn o l) (e := fun _ _ => 0) hi hn hf hk ht hr

/-- `cas.g`. -/
theorem casG_clauses {s : State} {c k : Nat} {w : Warp} {o : MOp} (hi : Issues s c k w (.casG o))
    (hk : writeCheck .rmw .noHost o c k s = none) (ht : storeWait .rmw o c k s = none) (hr : Room w o.flag) :
    AtomEntered s c k w (.casG o) .cas o (fun l => (w.casIn o l).2) fun l => (w.casIn o l).1 :=
  atomReturn_clauses (x := fun w l => (w.casIn o l).2) (e := fun w l => (w.casIn o l).1) hi rfl rfl hk ht hr

/-! ## Reductions -/

theorem accepted_redG {s : State} {c k : Nat} {w : Warp} (hw : s.warp? c k = some w) (op : AtomicOp) (o : MOp) :
    ∃ es os, Accepted s (redG op o c k s) c k (w.loading o) es [] os ∧ Holds es (laneAccs s c w .write o false (w.dataIn o) fun _ => 0) ∧
      ∀ y ∈ es, y.slot = k ∧ y.kind = some op ∧ y.spill = false ∧ y.sent = false := by
  obtain ⟨os, h1⟩ := accepted_posted hw .write (w.accs o false) o ((s.places c w .write (w.accs o false)).1 != []) none
  obtain ⟨es, h2, hholds, heach⟩ := accepted_enterAtomics h1.warp (((s.places c w .write (w.accs o false)).2.takeSeq c k).2.takeNum c).1
    ((s.places c w .write (w.accs o false)).2.takeSeq c k).1 op (laneAccs s c w .write o false (w.dataIn o) fun _ => 0)
  refine ⟨es, os, ?_, hholds, fun y hy => ?_⟩
  · have h := h1.trans h2
    rw [← places_atomLanes] at h
    rw [redG, State.onWarp_of hw]
    simpa only [List.nil_append, List.append_nil] using h
  · obtain ⟨hslot, hkind, _, hspill, hsent⟩ := heach y hy
    exact ⟨hslot, hkind, hspill, hsent⟩

/-- `red.g.op`. -/
theorem redG_clauses {s : State} {c k : Nat} {w : Warp} {i : Instr} {op : AtomicOp} {o : MOp} (hi : Issues s c k w i) (hn : slotNum i = some 1)
    (hf : slotFn i = some (mFn o (writeCheck .write .noHost o) (storeWait .write o) (fun _ _ _ => 0) (redG op o)))
    (hk : writeCheck .write .noHost o c k s = none) (ht : storeWait .write o c k s = none) (hr : Room w o.flag) :
    ∃ t w' es, exec i s = .next t ∧ t.warp? c k = some w' ∧ Frame s t c k ∧ t.blocks = s.blocks ∧ SameRegs w w' ∧
      w'.flight = w.flight ∧ FlagUp w w' (o.flag.map (·.val)) ∧ (t.core c).fifo = (s.core c).fifo ++ es ∧
      (∀ e ∈ es, e.slot = k ∧ e.kind = some op ∧ e.spill = false ∧ e.sent = false) ∧
      Holds es (laneAccs s c w .write o false (w.dataIn o) fun _ => 0) := by
  obtain ⟨es, os, h, hholds, heach⟩ := accepted_redG hi.2.1 op o
  obtain ⟨hregs, hflight, hflag⟩ := loading_facts w o
  exact ⟨_, _, es, exec_m hi hn hf rfl hk ht (room_of hr), h.warp, h.quiet.1, h.quiet.2, hregs, hflight, hflag, h.fifo, heach, hholds⟩

/-- Settles O19. -/
theorem globalAtomics : Obligations.GlobalAtomics := by
  simp only [Obligations.GlobalAtomics, List.forall_mem_cons, List.not_mem_nil, false_imp_iff, implies_true, and_true, reduceCtorEq, if_true, if_false]
  refine ⟨⟨?_, ?_, ?_, ?_, ?_, ?_, ?_, ?_, ?_, ?_, fun o s c k w hi => casG_clauses hi⟩, ?_, ?_, ?_, ?_, ?_, ?_, ?_, ?_, ?_⟩
  case refine_11 | refine_12 | refine_13 | refine_14 | refine_15 | refine_16 | refine_17 | refine_18 | refine_19 =>
    exact fun o s c k w hi => redG_clauses hi rfl rfl
  all_goals exact fun o s c k w hi => atomG_clauses hi rfl rfl

end Sys2Proof.Machine
end

