-- ==== Sys2Proof/Proofs/SpillSlots.lean ====
section
/-! PROOFS. `vspill` and `vfill`, and that the image of a spill slot gives every lane back (R144, R173 to R175). -/

namespace Sys2Proof.Machine
open Claim

/-! ## Issue -/

theorem accepted_vspill {s : State} {c k : Nat} {w : Warp} (hw : s.warp? c k = some w) (o : MOp) :
    ∃ es os, Accepted s (effVspill o c k s) c k (w.loading o) es [] os ∧ WriteEntries k true (spillPieces s c w o) es := by
  let ys := (units16 (w.spillImage (mReg o)).1).map fun p => (p.1, (w.baseOff o + p.1) % 2 ^ 64)
  obtain ⟨os, h1⟩ := accepted_posted hw .write ys o true none
  obtain ⟨es, h2, hes, _⟩ := accepted_enterWrites h1.warp (((s.places c w .write ys).2.takeSeq c k).2.takeNum c).1
    ((s.places c w .write ys).2.takeSeq c k).1 true (spillPieces s c w o)
  refine ⟨es, os, ?_, hes⟩
  have h := h1.trans h2
  simp only [List.nil_append, List.append_nil] at h
  rw [effVspill, State.onWarp_of hw]
  exact h

theorem accepted_vfill {s : State} {c k : Nat} {w : Warp} (hw : s.warp? c k = some w) (o : MOp) :
    ∃ n q now, Accepted s (effVfill o c k s) c k (w.loading o) [] []
      [startedOp k n { w with seq := w.seq + 1 } q .fill o (32 * w.k) none none (fillAccs s c w o) now] := by
  let ys := (units16 w.slotBytes).map fun p => (p.1, (w.baseOff o + p.1) % 2 ^ 64)
  let u := (s.places c w .read ys).2.takeSeq c k
  have h1 := accepted_places hw .read ys
  have h2 := h1.trans (accepted_takeSeq h1.warp)
  have h := h2.trans (accepted_startAsync h2.warp u.1 .fill o (32 * w.k) none none (fillAccs s c w o)).1
  refine ⟨(u.2.core c).next, u.1, u.2.cycle, ?_⟩
  simp only [List.nil_append, List.append_nil] at h
  rw [effVfill, State.onWarp_of hw]
  exact h

/-! ## Signed fields -/

/-- A number that fits in a signed field is read back from it. -/
theorem signExt_toBits {n : Nat} (hn : 0 < n) {d : Int} (hlo : -2 ^ (n - 1) ≤ d) (hhi : d < 2 ^ (n - 1)) : signExt (toBits d n) n = d := by
  rw [signExt_eq_toInt hn, toBits_eq_toNat, BitVec.ofNat_toNat, BitVec.setWidth_eq, BitVec.toInt_ofInt_eq_self hn hlo hhi]

/-- A signed field is read from the low bits alone. -/
theorem signExt_mod (x n : Nat) : signExt (x % 2 ^ n) n = signExt x n := by
  rw [signExt, signExt, Nat.mod_mod]

/-- The signed difference of two lanes. -/
theorem signExt_word (x : Word) : signExt x.toNat 32 = x.toInt := by
  rw [signExt_eq_toInt (by norm_num), BitVec.ofNat_toNat, BitVec.setWidth_eq]

/-- A lane plus the signed difference to another is that other lane. -/
theorem toBits_add_delta (v x : Word) : toBits ((v.toNat : Int) + signExt (x - v).toNat 32) 32 = x.toNat := by
  rw [signExt_word, toBits_eq_toNat, BitVec.ofInt_add, BitVec.ofInt_toInt, BitVec.ofInt_natCast, BitVec.ofNat_toNat, BitVec.setWidth_eq,
    BitVec.add_comm, BitVec.sub_add_cancel]

/-! ## Images -/

/-- Place `i` of a number packed of fields of `n` bits. -/
theorem packed_field {α : Type} (g : α → Nat) {n : Nat} {xs : List α} (hx : ∀ a ∈ xs, g a < 2 ^ n) {i : Nat} {a : α} (ha : xs[i]? = some a) :
    xs.foldr (fun a v => g a + 2 ^ n * v) 0 / 2 ^ (n * i) % 2 ^ n = g a := by
  obtain ⟨y, hy⟩ := foldr_place g (by positivity) hx ha
  simp only [Nat.mul_comm (2 ^ n), pow_mul, hy, Nat.add_mul_mod_self_right]
  exact Nat.mod_eq_of_lt (hx a (List.mem_of_getElem? ha))

/-- The parts of a slot image: its format byte, its first word and its payload (R173). -/
theorem image_parts {f v p : Nat} (hf : f < 256) (hv : v < 2 ^ 32) :
    (f + v * 2 ^ 32 + p * 2 ^ 256) % 256 = f ∧ (f + v * 2 ^ 32 + p * 2 ^ 256) / 2 ^ 32 % 2 ^ 32 = v ∧ (f + v * 2 ^ 32 + p * 2 ^ 256) / 2 ^ 256 = p := by
  refine ⟨?_, ?_, ?_⟩ <;> omega

/-- The signed differences of the lanes of a register to its lane 0, from lane 1 on (R173). -/
def Warp.deltas (w : Warp) (r : Nat) : List Int := (((List.range w.width).map fun l => w.v r l).drop 1).map fun x => signExt (x - w.v r 0).toNat 32

theorem deltas_length (w : Warp) (r : Nat) : (w.deltas r).length = 32 * w.k - 1 := by
  simp [Warp.deltas, Warp.width]

theorem deltas_get (w : Warp) (r : Nat) {i : Nat} (h : i + 1 < 32 * w.k) : (w.deltas r)[i]? = some (signExt (w.v r (i + 1) - w.v r 0).toNat 32) := by
  have hl : i < w.width - 1 := by simp only [Warp.width]; omega
  simp [Warp.deltas, hl]

/-- An image of packed differences of `n` bits with format byte `f` (R173). -/
def Warp.packedImage (w : Warp) (r f n : Nat) : Nat × Nat :=
  (32 + ((w.deltas r).length * n + 7) / 8,
    f + (w.v r 0).toNat * 2 ^ 32 + (w.deltas r).foldr (fun d acc => toBits d n + 2 ^ n * acc) 0 * 2 ^ 256)

/-- An image of whole lanes (R173). -/
def Warp.fullImage (w : Warp) (r : Nat) : Nat × Nat :=
  (32 + 4 * w.width, 4 + ((List.range w.width).map fun l => w.v r l).foldr (fun x acc => x.toNat + 2 ^ 32 * acc) 0 * 2 ^ 256)

theorem spillImage_eq (w : Warp) (r : Nat) : w.spillImage r =
    if (w.deltas r).all (· = 0) then (32, (w.v r 0).toNat * 2 ^ 32)
    else if fitsIn 4 (w.deltas r) then w.packedImage r 1 4
    else if fitsIn 8 (w.deltas r) then w.packedImage r 2 8
    else if fitsIn 16 (w.deltas r) then w.packedImage r 3 16
    else w.fullImage r := rfl

/-! ## Rebuilding (R174) -/

/-- A slot image of a register: its length, its format, and that a fill gives every lane back. -/
def Rebuilds (w : Warp) (r : Nat) (i : Nat × Nat) : Prop :=
  32 ≤ i.1 ∧ i.1 ≤ 32 + 4 * (32 * w.k) ∧ i.2 % 256 < 5 ∧ fillBytes (i.2 % 256) (32 * w.k) = i.1 ∧
    ∀ l < 32 * w.k, fillLane i.2 l = (w.v r l).toNat

/-- What a fill makes of a lane from packed differences of `n` bits (R174). -/
def fillDelta (n img l : Nat) : Nat :=
  if l = 0 then img / 2 ^ 32 % 2 ^ 32 else toBits (((img / 2 ^ 32 % 2 ^ 32 : Nat) : Int) + signExt (img / 2 ^ 256 / 2 ^ (n * (l - 1))) n) 32

/-- All lanes equal: the word is rebuilt in each. -/
theorem rebuilds_same {w : Warp} {r : Nat} (h : (w.deltas r).all (· = 0) = true) : Rebuilds w r (32, (w.v r 0).toNat * 2 ^ 32) := by
  have hv := (w.v r 0).isLt
  obtain ⟨hf, hw, _⟩ := image_parts (f := 0) (p := 0) (by norm_num) hv
  simp only [Nat.zero_add, Nat.zero_mul, Nat.add_zero] at hf hw
  refine ⟨le_rfl, Nat.le_add_right .., by rw [hf]; norm_num, by rw [hf]; rfl, fun l hl => ?_⟩
  have hfill : fillLane ((w.v r 0).toNat * 2 ^ 32) l = (w.v r 0).toNat := by
    simp only [fillLane, hf]
    exact hw
  rw [hfill]
  cases l with
  | zero => rfl
  | succ l =>
    have hd : signExt (w.v r (l + 1) - w.v r 0).toNat 32 = 0 :=
      of_decide_eq_true (List.all_eq_true.1 h _ (List.mem_of_getElem? (deltas_get w r hl)))
    rw [← toBits_add_delta (w.v r 0) (w.v r (l + 1)), hd, Int.add_zero, toBits, Int.emod_eq_of_lt (by positivity) (by exact_mod_cast hv)]
    rfl

/-- Differences that fit in `n` bits: each lane is rebuilt from lane 0 and its difference. -/
theorem rebuilds_packed {w : Warp} {r f n : Nat} (hk : 1 ≤ w.k) (hn : 0 < n) (hn16 : n ≤ 16) (hf : f < 5) (h : fitsIn n (w.deltas r) = true)
    (hbytes : fillBytes f (32 * w.k) = 32 + ((32 * w.k - 1) * n + 7) / 8) (hlane : ∀ img l, img % 256 = f → fillLane img l = fillDelta n img l) :
    Rebuilds w r (w.packedImage r f n) := by
  obtain ⟨hform, hword, hpay⟩ := image_parts (f := f) (p := (w.deltas r).foldr (fun d acc => toBits d n + 2 ^ n * acc) 0) (by omega) (w.v r 0).isLt
  have hlen : (w.packedImage r f n).1 = 32 + ((32 * w.k - 1) * n + 7) / 8 := by rw [Warp.packedImage, deltas_length]
  have himg : (w.packedImage r f n).2 % 256 = f := hform
  have hsize : (32 * w.k - 1) * n ≤ (32 * w.k - 1) * 16 := Nat.mul_le_mul_left _ hn16
  refine ⟨by rw [hlen]; omega, by rw [hlen]; omega, by rw [himg]; exact hf, by rw [himg, hbytes, hlen], fun l hl => ?_⟩
  rw [hlane _ l himg, fillDelta, show (w.packedImage r f n).2 / 2 ^ 32 % 2 ^ 32 = (w.v r 0).toNat from hword]
  cases l with
  | zero => rfl
  | succ l =>
    rw [if_neg (Nat.succ_ne_zero l), Nat.succ_sub_one, show (w.packedImage r f n).2 / 2 ^ 256 = _ from hpay]
    have hbits (d : Int) : toBits d n < 2 ^ n := by
      rw [toBits_eq_toNat]
      exact BitVec.isLt _
    have hget := deltas_get w r hl
    obtain ⟨hlo, hhi⟩ : -2 ^ (n - 1) ≤ signExt (w.v r (l + 1) - w.v r 0).toNat 32 ∧ signExt (w.v r (l + 1) - w.v r 0).toNat 32 < 2 ^ (n - 1) :=
      of_decide_eq_true (List.all_eq_true.1 h _ (List.mem_of_getElem? hget))
    rw [← signExt_mod, packed_field (fun d => toBits d n) (fun d _ => hbits d) hget, signExt_toBits hn hlo hhi, toBits_add_delta]

/-- Whole lanes. -/
theorem rebuilds_full (w : Warp) (r : Nat) : Rebuilds w r (w.fullImage r) := by
  obtain ⟨hform, _, hpay⟩ := image_parts (f := 4) (v := 0) (p := ((List.range w.width).map fun l => w.v r l).foldr (fun x acc => x.toNat + 2 ^ 32 * acc) 0)
    (by norm_num) (by norm_num)
  rw [Nat.zero_mul, Nat.add_zero] at hform hpay
  have himg : (w.fullImage r).2 % 256 = 4 := hform
  refine ⟨Nat.le_add_right .., le_rfl, by rw [himg]; norm_num, by rw [himg]; rfl, fun l hl => ?_⟩
  have hget : ((List.range w.width).map fun l => w.v r l)[l]? = some (w.v r l) := by
    simp [show l < w.width from hl]
  have hfield := packed_field (fun x : Word => x.toNat) (fun x _ => x.isLt) hget
  simp only [fillLane, himg, show (w.fullImage r).2 / 2 ^ 256 = _ from hpay]
  exact hfield

theorem rebuilds_spillImage (w : Warp) (r : Nat) (hk : 1 ≤ w.k) : Rebuilds w r (w.spillImage r) := by
  rw [spillImage_eq]
  split
  · next h => exact rebuilds_same h
  · split
    · next h =>
      refine rebuilds_packed hk (by norm_num) (by norm_num) (by norm_num) h ?_ fun img l hi => ?_
      · simp only [fillBytes, Nat.mul_comm]
      · simp only [fillLane, hi, fillDelta]
    · split
      · next h =>
        refine rebuilds_packed hk (by norm_num) (by norm_num) (by norm_num) h ?_ fun img l hi => ?_
        · simp only [fillBytes]
          omega
        · simp only [fillLane, hi, fillDelta]
      · split
        · next h =>
          refine rebuilds_packed hk (by norm_num) (by norm_num) (by norm_num) h ?_ fun img l hi => ?_
          · simp only [fillBytes]
            omega
          · simp only [fillLane, hi, fillDelta]
        · exact rebuilds_full w r

/-- Settles O21. -/
theorem spillAndFill : Obligations.SpillAndFill := by
  refine ⟨fun o s c k w hi hk ht hr => ?_, fun o s c k w hi hk ht hr => ?_, fun w r hk => rebuilds_spillImage w r hk⟩
  · obtain ⟨es, os, h, hes⟩ := accepted_vspill hi.2.1 o
    obtain ⟨hregs, hflight, hflag⟩ := loading_facts w o
    exact ⟨_, _, es, exec_m hi rfl rfl rfl hk ht (room_of hr), h.warp, h.quiet.1, h.quiet.2, hregs, hflight, hflag, h.fifo, hes.each, hes.nodup,
      hes.carries, hes.lanes⟩
  · obtain ⟨n, q, now, h⟩ := accepted_vfill hi.2.1 o
    obtain ⟨hregs, hflight, hflag⟩ := loading_facts w o
    exact ⟨_, _, _, exec_m hi rfl rfl rfl hk ht (room_of hr), h.warp, h.quiet.1, h.quiet.2, hregs, hflight, hflag, h.fifo.trans (List.append_nil _),
      h.ops, rfl, rfl, rfl, rfl, rfl, rfl, rfl, rfl, rfl⟩

end Sys2Proof.Machine
end

