-- ==== Sys2Proof/Proofs/FencesAndArrivals.lean ====
section
/-! PROOFS. Fences, `l1inv`, `arrive` with the holds it ends, and `pfd` (R156, R161, R162, R171, R172, R176, R233). -/

namespace Sys2Proof.Machine
open Claim

/-! ## Fences -/

theorem fenceRel_clauses {s : State} {c k : Nat} {w : Warp} {o : MOp} (hi : Issues s c k w (.fenceRel o)) (ht : fenceWait true o c k s = none)
    (hr : Room w o.flag) :
    ∃ t n q, exec (.fenceRel o) s = .next t ∧ Accepted s t c k (w.loading o) [] [⟨n, k, q, o.scope, none, o.flag.map (·.val)⟩] [] := by
  have h1 := accepted_takeSeq hi.2.1
  have h2 := h1.trans (accepted_flagInc h1.warp o.flag)
  have h3 := h2.trans (accepted_placeMarker h2.warp (s.takeSeq c k).1 o.scope none (o.flag.map (·.val))).1
  exact ⟨_, _, _, exec_m hi rfl rfl rfl rfl ht (room_of hr), h3⟩

theorem fenceAcq_clauses {s : State} {c k : Nat} {w : Warp} {o : MOp} (hi : Issues s c k w (.fenceAcq o)) (ht : fenceWait false o c k s = none)
    (hr : Room w o.flag) :
    ∃ t n q now, exec (.fenceAcq o) s = .next t ∧
      Accepted s t c k (w.loading o) [] [] [startedOp k n { w with seq := w.seq + 1 } q .fence o 0 (some o.scope) none [] now] := by
  have h1 := accepted_takeSeq hi.2.1
  have h2 := h1.trans (accepted_startAsync h1.warp (s.takeSeq c k).1 .fence o 0 (some o.scope) none []).1
  exact ⟨_, _, _, _, exec_m hi rfl rfl rfl rfl ht (room_of hr), h2⟩

theorem fence_clauses {s : State} {c k : Nat} {w : Warp} {o : MOp} (hi : Issues s c k w (.fence o)) (ht : fenceWait true o c k s = none)
    (hr : Room w o.flag) :
    ∃ t m n q now, exec (.fence o) s = .next t ∧ m.scope = o.scope ∧ m.slot = k ∧
      Accepted s t c k (w.loading o) [] [m] [startedOp k n { w with seq := w.seq + 1 } q .fence o 0 (some o.scope) (some m.seq) [] now] := by
  have h1 := accepted_takeSeq hi.2.1
  have h2 := h1.trans (accepted_placeMarker h1.warp (s.takeSeq c k).1 o.scope none none).1
  have h3 := h2.trans (accepted_startAsync h2.warp (s.takeSeq c k).1 .fence o 0 (some o.scope) (some ((s.takeSeq c k).2.core c).next) []).1
  exact ⟨_, ⟨((s.takeSeq c k).2.core c).next, k, (s.takeSeq c k).1, o.scope, none, none⟩, _, _, _, exec_m hi rfl rfl rfl rfl ht (room_of hr), rfl, rfl, h3⟩

/-! ## `l1inv` -/

theorem l1inv_clauses {s : State} {c k : Nat} {w : Warp} {o : MOp} (hi : Issues s c k w (.l1inv o)) :
    ∃ t, exec (.l1inv o) s = .next t ∧ (t.core c).l1 = [] ∧ t.warp? c k = some w ∧ Frame s t c k ∧ t.blocks = s.blocks := by
  refine ⟨s.l1Invalidate c, exec_m hi rfl rfl rfl rfl rfl fun _ h => (nomatch h), ?_, (State.warp_modCore rfl c k).trans hi.2.1, ?_, rfl⟩
  · rw [State.l1Invalidate, State.core_modCore]
  · exact (quiet_modCore rfl c k).1

/-! ## `pfd` -/

/-- The lines that a `pfd` asks for (R176). -/
def pfdLines (s : State) (c : Nat) (w : Warp) (o : MOp) : List Pa :=
  (pfdLanes o c s w).filterMap fun p => match s.place c w .read p.2 with
    | some (q, _) => if q.ms then none else some q.pa.line
    | none => none

theorem mem_pfdLines {s : State} {c : Nat} {w : Warp} {o : MOp} {l : Pa} : l ∈ pfdLines s c w o ↔
    ∃ j q e, Active w o.guard j ∧ (s.tlbFind c (s.ctxOf w.block c).1 (s.ctxOf w.block c).2 (w.memAddr o j)).isSome = true ∧
      s.place c w .read (w.memAddr o j) = some (q, e) ∧ q.ms = false ∧ l = q.pa.line := by
  simp only [pfdLines, pfdLanes, accs_store, List.mem_filterMap, List.mem_filter, List.mem_map]
  constructor
  · rintro ⟨_, ⟨⟨j, hj, rfl⟩, hf⟩, hl⟩
    cases hp : s.place c w .read (w.memAddr o j) with
    | none => simp [hp] at hl
    | some r =>
      obtain ⟨q, e⟩ := r
      simp only [hp] at hl
      cases hms : q.ms with
      | true => simp [hms] at hl
      | false => exact ⟨j, q, e, (w.mem_lanesOf o.guard j).1 hj, hf, hp, hms, by simpa [hms] using hl.symm⟩
  · rintro ⟨j, q, e, hj, hf, hp, hms, rfl⟩
    exact ⟨_, ⟨⟨j, (w.mem_lanesOf o.guard j).2 hj, rfl⟩, hf⟩, by simp [hp, hms]⟩

theorem effPfd_of {s : State} {c k : Nat} {w : Warp} (hw : s.warp? c k = some w) (o : MOp) :
    effPfd o c k s = s.modCore c fun x => { x with
      l1want := x.l1want ++ ((pfdLines s c w o).eraseDups.filter fun l => !x.l1want.contains l && !x.l1.any fun y => y.pa = l) } := by
  rw [effPfd, State.onWarp_of hw]
  rfl

theorem pfd_clauses {s : State} {c k : Nat} {w : Warp} {o : MOp} (hi : Issues s c k w (.pfd o)) (ht : pfdWait o c k s = none) :
    ∃ t, exec (.pfd o) s = .next t ∧ t.warp? c k = some w ∧ Frame s t c k ∧ t.blocks = s.blocks ∧ (t.core c).l1 = (s.core c).l1 ∧
      (∀ l q e, Active w o.guard l → (s.tlbFind c (s.ctxOf w.block c).1 (s.ctxOf w.block c).2 (w.memAddr o l)).isSome = true →
        s.place c w .read (w.memAddr o l) = some (q, e) → q.ms = false →
        (∃ y ∈ (s.core c).l1, y.pa = q.pa.line) ∨ q.pa.line ∈ (t.core c).l1want) ∧
      ∀ p ∈ (t.core c).l1want, p ∈ (s.core c).l1want ∨ ∃ l q e, Active w o.guard l ∧ s.place c w .read (w.memAddr o l) = some (q, e) ∧
        q.ms = false ∧ p = q.pa.line := by
  have he := effPfd_of hi.2.1 o
  have hwant : ∀ p, p ∈ ((effPfd o c k s).core c).l1want ↔ p ∈ (s.core c).l1want ∨
      (p ∈ pfdLines s c w o ∧ p ∉ (s.core c).l1want ∧ ¬∃ y ∈ (s.core c).l1, y.pa = p) := by
    intro p
    rw [he, State.core_modCore]
    simp [List.mem_eraseDups]
  refine ⟨effPfd o c k s, exec_m hi rfl rfl rfl rfl ht fun _ h => (nomatch h), ?_, ?_, ?_, ?_, fun l q e ha hf hp hms => ?_, fun p hp => ?_⟩
  · rw [he]
    exact (State.warp_modCore rfl c k).trans hi.2.1
  · rw [he]
    exact (quiet_modCore rfl c k).1
  · rw [he]
    rfl
  · rw [he, State.core_modCore]
  · by_cases hl1 : ∃ y ∈ (s.core c).l1, y.pa = q.pa.line
    · exact .inl hl1
    · refine .inr ((hwant _).2 ?_)
      by_cases hw : q.pa.line ∈ (s.core c).l1want
      · exact .inl hw
      · exact .inr ⟨mem_pfdLines.2 ⟨l, q, e, ha, hf, hp, hms, rfl⟩, hw, hl1⟩
  · refine ((hwant p).1 hp).imp_right fun h => ?_
    obtain ⟨l, q, e, ha, _, hq, hms, rfl⟩ := mem_pfdLines.1 h.1
    exact ⟨l, q, e, ha, hq, hms, rfl⟩

/-! ## `arrive` -/

/-- An `await` of a warp that the GEN of its word has left ends; any other warp stays as it is (R233). -/
def Warp.wakeAt (w : Warp) (off gen now : Nat) : Warp :=
  if w.woken off gen then { w with stop := .mdone true, since := now, notBefore := now + 1, awaits := none } else w

theorem wakeAt_wakeAt (w : Warp) (off gen now : Nat) : (w.wakeAt off gen now).wakeAt off gen now = w.wakeAt off gen now := by
  by_cases h : w.woken off gen = true
  · simp only [Warp.wakeAt, h, if_true]
    rw [if_neg]
    simp [Warp.woken]
  · simp only [Warp.wakeAt, h, if_false, Bool.false_eq_true]

/-- What ending an `await` leaves: registers, flags and results in flight. -/
theorem wakeAt_keeps (w : Warp) (off gen now : Nat) :
    SameRegs w (w.wakeAt off gen now) ∧ (w.wakeAt off gen now).flags = w.flags ∧ (w.wakeAt off gen now).flight = w.flight := by
  unfold Warp.wakeAt
  split
  · exact ⟨⟨rfl, rfl, rfl, rfl, rfl, rfl, rfl, rfl, rfl, rfl, rfl, rfl, rfl, rfl, rfl, rfl, rfl⟩, rfl, rfl⟩
  · exact ⟨sameRegs_refl w, rfl, rfl⟩

/-- Change the warps of listed slots of a core, in order. -/
def State.modWarps (s : State) (c : Nat) (f : Nat → Warp → Warp) (ks : List Nat) : State := ks.foldl (fun s k => s.modWarp c k (f s.cycle)) s

theorem modWarps_keeps (s : State) (c : Nat) (f : Nat → Warp → Warp) (ks : List Nat) :
    (s.modWarps c f ks).hbm = s.hbm ∧ (s.modWarps c f ks).host = s.host ∧ (s.modWarps c f ks).cycle = s.cycle ∧
      (s.modWarps c f ks).blocks = s.blocks := by
  induction ks generalizing s with
  | nil => exact ⟨rfl, rfl, rfl, rfl⟩
  | cons k ks ih =>
    obtain ⟨h1, h2, h3, h4⟩ := ih (s.modWarp c k (f s.cycle))
    exact ⟨h1.trans (by simp), h2.trans (by simp), h3.trans (by simp), h4.trans (by simp)⟩

/-- Doing the same to a warp twice makes no difference, so each listed warp is changed once. -/
theorem warp_modWarps {f : Nat → Warp → Warp} (hf : ∀ n v, f n (f n v) = f n v) (s : State) (c : Nat) (ks : List Nat) (d j : Nat) :
    (s.modWarps c f ks).warp? d j = if d = c ∧ j ∈ ks then (s.warp? d j).map (f s.cycle) else s.warp? d j := by
  induction ks generalizing s with
  | nil => simp [State.modWarps]
  | cons k ks ih =>
    have hstep : s.modWarps c f (k :: ks) = (s.modWarp c k (f s.cycle)).modWarps c f ks := rfl
    have hcycle : (s.modWarp c k (f s.cycle)).cycle = s.cycle := by simp
    rw [hstep, ih, hcycle]
    by_cases hdj : (d, j) = (c, k)
    · obtain ⟨rfl, rfl⟩ := Prod.mk.inj hdj
      cases hw : s.warp? d j with
      | none =>
        rw [State.modWarp_none hw, hw]
        simp
      | some v =>
        rw [State.warp_modWarp hw]
        simp [hf]
    · rw [State.warp_modWarp_other s _ hdj]
      have hiff : (d = c ∧ j ∈ k :: ks) ↔ (d = c ∧ j ∈ ks) := by
        refine and_congr_right fun hd => ?_
        rw [List.mem_cons, or_iff_right]
        rintro rfl
        exact hdj (by rw [hd])
      simp only [hiff]

theorem wakeAwaits_of {s : State} {b : Nat} {x : Block} (hb : s.block? b = some x) (off : Nat) :
    s.wakeAwaits b off = s.modWarps x.core (fun now v => v.wakeAt off (bits (x.get off 16) 95 64) now) x.warps := by
  simp only [State.wakeAwaits, hb, State.modWarps, Warp.wakeAt]

theorem put_core (x : Block) (off n v : Nat) : (x.put off n v).core = x.core := rfl

theorem put_warps (x : Block) (off n v : Nat) : (x.put off n v).warps = x.warps := rfl

theorem get_put_self (x : Block) (off n v : Nat) : (x.put off n v).get off n = v % 256 ^ n := getBytes_putBytes ..

/-- GEN of a word of 16 bytes just written. -/
theorem gen_of_put (x : Block) (off v : Nat) : bits ((x.put off 16 v).get off 16) 95 64 = v / 2 ^ 64 % 2 ^ 32 := by
  rw [get_put_self, bits_eq_mod]
  omega

theorem wokenBy_listed {s : State} {b d j : Nat} {x : Block} (hb : s.block? b = some x) (h : d = x.core ∧ j ∈ x.warps) (off n : Nat) (v : Warp) :
    wokenBy s b off n d j v = v.wakeAt off (arriveAdd (s.spGet b off 16) n / 2 ^ 64 % 2 ^ 32) s.cycle := by
  simp only [wokenBy, hb, h, true_and, Warp.wakeAt]

theorem wokenBy_other {s : State} {b d j : Nat} {x : Block} (hb : s.block? b = some x) (h : ¬(d = x.core ∧ j ∈ x.warps)) (off n : Nat) (v : Warp) :
    wokenBy s b off n d j v = v := by
  simp only [wokenBy, hb]
  exact if_neg fun hc => h ⟨hc.1, hc.2.1⟩

theorem wokenBy_none {s : State} {b : Nat} (hb : s.block? b = none) (off n d j : Nat) (v : Warp) : wokenBy s b off n d j v = v := by
  simp only [wokenBy, hb]

/-- R233: the warps that the write of an arrival word wakes. -/
theorem warp_wakeAwaits {s u : State} {b off n : Nat} (hu : u = s.spPut b off 16 (arriveAdd (s.spGet b off 16) n)) (d j : Nat) :
    (u.wakeAwaits b off).warp? d j = (s.warp? d j).map (wokenBy s b off n d j) := by
  have hw : u.warp? d j = s.warp? d j := hu ▸ rfl
  have hc : u.cycle = s.cycle := hu ▸ rfl
  have hblocks : u.blocks = FMap.adjust s.blocks b fun y => y.put off 16 (arriveAdd (s.spGet b off 16) n) := hu ▸ rfl
  cases hb : s.block? b with
  | none =>
    have hub : u.block? b = none := by
      rw [State.block?, hblocks]
      exact FMap.find_adjust_none hb b _
    simp only [State.wakeAwaits, hub, hw, funext (wokenBy_none hb off n d j), Option.map_id']
  | some x =>
    have hub : u.block? b = some (x.put off 16 (arriveAdd (s.spGet b off 16) n)) := by
      rw [State.block?, hblocks]
      exact FMap.find_adjust_self hb _
    rw [wakeAwaits_of hub, gen_of_put, warp_modWarps (fun now v => wakeAt_wakeAt v off _ now), hw, hc, put_core, put_warps]
    by_cases h : d = x.core ∧ j ∈ x.warps
    · rw [if_pos h, funext (wokenBy_listed hb h off n)]
    · rw [if_neg h, funext (wokenBy_other hb h off n), Option.map_id']

/-- Ending `await` holds changes no memory and no scratchpad. -/
theorem wakeAwaits_keeps (u : State) (b off : Nat) : (u.wakeAwaits b off).hbm = u.hbm ∧ (u.wakeAwaits b off).host = u.host ∧
    (u.wakeAwaits b off).cycle = u.cycle ∧ (u.wakeAwaits b off).blocks = u.blocks := by
  cases hb : u.block? b with
  | none => simp only [State.wakeAwaits, hb, and_self]
  | some x =>
    rw [wakeAwaits_of hb]
    exact modWarps_keeps ..

/-- R171, R233: what an arrival update leaves: its word in the scratchpad, and the warps that it wakes. -/
theorem arriveUpdate_of (s : State) (b off n : Nat) :
    (s.arriveUpdate b off n).hbm = s.hbm ∧ (s.arriveUpdate b off n).host = s.host ∧ (s.arriveUpdate b off n).cycle = s.cycle ∧
      (s.arriveUpdate b off n).blocks = (s.spPut b off 16 (arriveAdd (s.spGet b off 16) n)).blocks ∧
      ∀ d j, (s.arriveUpdate b off n).warp? d j = (s.warp? d j).map (wokenBy s b off n d j) := by
  obtain ⟨hhbm, hhost, hcycle, hblocks⟩ := wakeAwaits_keeps (s.spPut b off 16 (arriveAdd (s.spGet b off 16) n)) b off
  exact ⟨hhbm, hhost, hcycle, hblocks, warp_wakeAwaits rfl⟩

/-- A warp that an arrival update wakes keeps its registers, its flags and what is in flight. -/
theorem wokenBy_keeps (s : State) (b off n d j : Nat) (v : Warp) :
    SameRegs v (wokenBy s b off n d j v) ∧ (wokenBy s b off n d j v).flags = v.flags ∧ (wokenBy s b off n d j v).flight = v.flight := by
  unfold wokenBy
  split
  · split
    · exact ⟨⟨rfl, rfl, rfl, rfl, rfl, rfl, rfl, rfl, rfl, rfl, rfl, rfl, rfl, rfl, rfl, rfl, rfl⟩, rfl, rfl⟩
    · exact ⟨sameRegs_refl v, rfl, rfl⟩
  · exact ⟨sameRegs_refl v, rfl, rfl⟩

theorem effArrive_idle {s : State} {c k : Nat} {w : Warp} {o : MOp} (hw : s.warp? c k = some w) (h : ∀ l, ¬Active w o.guard l) : effArrive o c k s = s := by
  rw [effArrive, State.onWarp_of hw, if_pos]
  exact List.eq_nil_iff_forall_not_mem.2 fun l hl => h l ((w.mem_lanesOf o.guard l).1 hl)

theorem effArrive_of {s : State} {c k l : Nat} {w : Warp} {o : MOp} (hw : s.warp? c k = some w) (h : Active w o.guard l) :
    effArrive o c k s = (s.arriveUpdate w.block (w.baseOff o) ((w.s (mReg o)).toNat % 2 ^ 32)).bankCount c w.pipe (spWords 16 [(0, w.baseOff o)]) := by
  rw [effArrive, State.onWarp_of hw, if_neg]
  exact List.ne_nil_of_mem ((w.mem_lanesOf o.guard l).2 h)

theorem arrive_clauses {s : State} {c k : Nat} {w : Warp} {o : MOp} (hi : Issues s c k w (.arrive o)) (hk : arriveCheck o c k s = none) :
    ∃ t w', exec (.arrive o) s = .next t ∧ t.warp? c k = some w' ∧ SameRegs w w' ∧ w'.flags = w.flags ∧ w'.flight = w.flight ∧
      t.hbm = s.hbm ∧ t.host = s.host ∧ t.cycle = s.cycle ∧
      ((∀ l, ¬ Active w o.guard l) → t.blocks = s.blocks ∧ ∀ d j, (d, j) ≠ (c, k) → t.warp? d j = s.warp? d j) ∧
      ((∃ l, Active w o.guard l) →
        let n := (w.s (mReg o)).toNat % 2 ^ 32
        t.blocks = (s.spPut w.block (w.baseOff o) 16 (arriveAdd (s.spGet w.block (w.baseOff o) 16) n)).blocks ∧
        ∀ d j, (d, j) ≠ (c, k) → t.warp? d j = (s.warp? d j).map (wokenBy s w.block (w.baseOff o) n d j)) := by
  have hw := hi.2.1
  have hexec : exec (.arrive o) s = .next ((effArrive o c k s).freezeBy c k (arriveFreeze o c k s)) :=
    exec_m hi rfl rfl rfl hk rfl fun _ h => (nomatch h)
  have hfreeze : Quiet (effArrive o c k s) ((effArrive o c k s).freezeBy c k (arriveFreeze o c k s)) c k := quiet_freezeBy ..
  by_cases h : ∃ l, Active w o.guard l
  · obtain ⟨l, hl⟩ := h
    let n := (w.s (mReg o)).toNat % 2 ^ 32
    let u := s.arriveUpdate w.block (w.baseOff o) n
    have he : effArrive o c k s = u.bankCount c w.pipe (spWords 16 [(0, w.baseOff o)]) := effArrive_of hw hl
    obtain ⟨hhbm, hhost, hcycle, hblocks, hwarps⟩ := arriveUpdate_of s w.block (w.baseOff o) n
    have hq : Quiet u (effArrive o c k s) c k := he ▸ quiet_bankCount ..
    have hv : (effArrive o c k s).warp? c k = some (wokenBy s w.block (w.baseOff o) n c k w) := by
      rw [he]
      refine (State.warp_modCore rfl c k).trans ((hwarps c k).trans ?_)
      rw [hw, Option.map_some]
    obtain ⟨w', hw', hregs, hflags, hflight⟩ := warp_freezeBy (n := arriveFreeze o c k s) hv
    obtain ⟨hregs0, hflags0, hflight0⟩ := wokenBy_keeps s w.block (w.baseOff o) n c k w
    obtain ⟨hf, hb⟩ := quiet_trans hq hfreeze
    exact ⟨_, w', hexec, hw', sameRegs_trans hregs0 hregs, hflags.trans hflags0, hflight.trans hflight0, hf.hbm.trans hhbm, hf.host.trans hhost,
      hf.cycle.trans hcycle, fun hno => absurd hl (hno l), fun _ => ⟨hb.trans hblocks, fun d j hdj => (hf.others d j hdj).trans (hwarps d j)⟩⟩
  · have hno : ∀ l, ¬Active w o.guard l := fun l hl => h ⟨l, hl⟩
    have he : effArrive o c k s = s := effArrive_idle hw hno
    rw [he] at hexec hfreeze
    obtain ⟨w', hw', hregs, hflags, hflight⟩ := warp_freezeBy (n := arriveFreeze o c k s) hw
    obtain ⟨hf, hb⟩ := hfreeze
    exact ⟨_, w', hexec, hw', hregs, hflags, hflight, hf.hbm, hf.host, hf.cycle, fun _ => ⟨hb, hf.others⟩, fun hl => absurd hl h⟩

/-- Settles O22. -/
theorem fencesAndHints : Obligations.FencesAndHints := by
  refine ⟨fun o s c k w hi ht hr => ?_, fun o s c k w hi ht hr => ?_, fun o s c k w hi ht hr => ?_, fun o s c k w => l1inv_clauses,
    fun o s c k w => arrive_clauses, fun o s c k w => pfd_clauses⟩
  · obtain ⟨t, n, q, he, h⟩ := fenceRel_clauses hi ht hr
    obtain ⟨hregs, hflight, hflag⟩ := loading_facts w o
    exact ⟨t, _, _, he, h.warp, h.quiet.1, h.quiet.2, hregs, hflight, hflag, h.fifo.trans (List.append_nil _), h.markers, rfl, rfl, rfl⟩
  · obtain ⟨t, n, q, now, he, h⟩ := fenceAcq_clauses hi ht hr
    obtain ⟨hregs, hflight, hflag⟩ := loading_facts w o
    exact ⟨t, _, _, he, h.warp, h.quiet.1, h.quiet.2, hregs, hflight, hflag, h.fifo.trans (List.append_nil _), h.ops, rfl, rfl, rfl, rfl, rfl, rfl⟩
  · obtain ⟨t, m, n, q, now, he, hscope, hslot, h⟩ := fence_clauses hi ht hr
    obtain ⟨hregs, hflight, hflag⟩ := loading_facts w o
    exact ⟨t, _, m, _, he, h.warp, h.quiet.1, h.quiet.2, hregs, hflight, hflag, h.fifo.trans (List.append_nil _), h.markers, hscope, hslot, h.ops,
      rfl, rfl, rfl, rfl, rfl, rfl⟩

end Sys2Proof.Machine
end

