-- ==== Sys2Proof/Proofs/WordWaits.lean ====
section
/-! PROOFS. `ainit`, `await` and `mwait` (R171, R216, R232 to R236): an arrival word is checked, then written or read; a hold before the
bundle either ends at once or keeps its warp, and `mwait` reads its bytes at their home. -/
namespace Sys2Proof.Machine
open Claim

/-! ## `ainit` -/

section
variable {s : State} {c k : Nat} {w : Warp} {o : CSOp}

/-- The bytes of an arrival word lie in a block. -/
theorem block_of_spFits {n a : Nat} (hn : 0 < n) (h : SpFits (s.allocOf w) n a) : (s.block? w.block).isSome := by
  obtain ⟨_, h0, h1⟩ := h
  cases hb : s.block? w.block with
  | some b => rfl
  | none =>
    rw [State.allocOf, hb] at h1
    dsimp only at h1
    omega

/-- R212: `ainit` without its guard does nothing. -/
theorem exec_ainit_off (hi : Issues s c k w (.ainit o)) (hg : ¬Guarded w o.guard) : exec (.ainit o) s = .next s := by
  rw [exec_c_eff (f := effAinit o) hi rfl rfl (guardedCheck_off hi.2.1 hg _), effAinit, guardedEff_off hi.2.1 hg]

/-- R147, R232: `ainit` of a word that is misaligned or out of bounds faults. -/
theorem exec_ainit_fail (hi : Issues s c k w (.ainit o)) (hg : Guarded w o.guard) (h : ¬SpFits (s.allocOf w) 16 (w.s o.a.val).toNat) :
    exec (.ainit o) s =
      .next (s.failWhole c k 8 ⟨if (w.s o.a.val).toNat % 16 ≠ 0 then 0x140 else 0x141, (w.s o.a.val).toNat, 0⟩ 3) :=
  exec_c_fail hi rfl rfl ((guardedCheck_of hi.2.1 hg _).trans (spFail_first (xs := []) (ys := []) (fun _ h => nomatch h) h))

/-- The target that `ainit` names (R213, R232). -/
def ainitTarget (o : CSOp) (w : Warp) : Nat := match o.imm with
  | some i => i.toNat
  | none => (w.s o.b.val).toNat % 2 ^ 32

theorem ainitTarget_lt (o : CSOp) (w : Warp) : ainitTarget o w < 2 ^ 32 := by
  unfold ainitTarget
  split
  · next i _ => exact lt_of_lt_of_le i.isLt (by decide)
  · exact Nat.mod_lt _ (by decide)

/-- R232: `ainit` writes its target into the word, every other byte of it 0. -/
theorem exec_ainit_of (hi : Issues s c k w (.ainit o)) (hg : Guarded w o.guard) (h : SpFits (s.allocOf w) 16 (w.s o.a.val).toNat) :
    exec (.ainit o) s = .next ((s.spPut w.block (w.s o.a.val).toNat 16 (ainitTarget o w)).bankCount c w.pipe (spWords 16 [(0, (w.s o.a.val).toNat)])) := by
  have hk : chkAinit o c k s = none := (guardedCheck_of hi.2.1 hg _).trans (spFail_none (by simpa using h))
  rw [exec_c_eff (f := effAinit o) hi rfl rfl hk, effAinit, guardedEff_of hi.2.1 hg]
  rfl

/-- The bytes of a number below 2^32. -/
theorem byte_of_lt_word {n : Nat} (h : n < 2 ^ 32) (i : Nat) : n / 256 ^ i % 256 = if i < 4 then n / 256 ^ i % 256 else 0 := by
  by_cases hi : i < 4
  · rw [if_pos hi]
  · have hp : (256 : Nat) ^ 4 ≤ 256 ^ i := Nat.pow_le_pow_right (by decide) (by omega)
    rw [if_neg hi, Nat.div_eq_of_lt (lt_of_lt_of_le h hp)]

theorem ainit_ok (hi : Issues s c k w (.ainit o)) (hg : Guarded w o.guard) (h : SpFits (s.allocOf w) 16 (w.s o.a.val).toNat) :
    ∃ t, exec (.ainit o) s = .next t ∧ t.warp? c k = some w ∧ Frame s t c k ∧
      (∀ i < 16, spByte t w.block ((w.s o.a.val).toNat + i) = if i < 4 then ainitTarget o w / 256 ^ i % 256 else 0) ∧
      ∀ b x, b ≠ w.block ∨ x < (w.s o.a.val).toNat ∨ (w.s o.a.val).toNat + 16 ≤ x → spByte t b x = spByte s b x := by
  refine ⟨_, exec_ainit_of hi hg h, (State.warp_modCore rfl c k).trans hi.2.1,
    frame_trans (frame_spPut s _ _ _ _ c k) (quiet_bankCount _ _ _ _ c k).1, fun i hj => ?_, fun b x hx => ?_⟩
  · rw [spByte_congr (quiet_bankCount _ _ _ _ c k).2, spByte_spPut_in (block_of_spFits (by decide) h) _ _ _ hj]
    exact byte_of_lt_word (ainitTarget_lt o w) i
  · rw [spByte_congr (quiet_bankCount _ _ _ _ c k).2, spByte_spPut_out s _ hx]

end

/-! ## Operations that hold before their bundle -/

/-- R212, R216: a C-slot operation whose guard is false does not hold, and its effect follows. -/
theorem runSlot_unheld {i : Instr} {s : State} {c k : Nat} {w : Warp} {f : SlotFn} (hn : slotNum i = some 3) (hf : slotFn i = some f)
    (hc : s.cur = some (c, k)) (hw : s.warp? c k = some w) (ho : opFail w i 3 = none) (hg : w.holds (some i) = false)
    (hk : f.check c k s = none) (ht : f.wait c k s = none) :
    runSlot i 3 s = .next (s.effects c k none none none (some i) false) := by
  rw [runSlot_run hc hw ho]
  simp only [State.runSlots, State.onWarp, hw, onlySlot, hn, hg, Bool.false_eq_true, if_false]
  rw [runChecked_ok hw] <;>
    simp only [chkOf_none, chkOf_some hf, hk, waitOf_none, waitOf_some hf, ht, flagsOf_none, flagRoom_nil, or_true]

theorem Warp.afterHold_of_run {w : Warp} (h : ∀ b, w.stop ≠ .mdone b) : w.afterHold = w := by
  unfold Warp.afterHold
  split
  · next b hb => exact (h b hb).elim
  · rfl

/-! ## `await` -/

section
variable {s : State} {c k : Nat} {w : Warp} {o : CSOp}

theorem awaitMet_iff (hg : Guarded w o.guard) : awaitMet o s w = true ↔
    s.spGet w.block (w.s o.a.val).toNat 16 / 2 ^ 64 % 2 ^ 32 ≠ (w.s o.b.val).toNat % 2 ^ 32 := by
  simp only [awaitMet, (w.guardS_iff _).2 hg, Bool.not_true, Bool.false_or, bne_iff_ne, bits_eq_mod]

/-- R212: an `await` without its guard does nothing. -/
theorem exec_await_off (hi : Issues s c k w (.await o)) (hg : ¬Guarded w o.guard) : exec (.await o) s = .next s := by
  have hc : awaitCheck o c k s = none := by
    simp only [awaitCheck, chkAwait, guardedCheck_off hi.2.1 hg]
  rw [exec_eq_runSlot rfl, runSlot_unheld rfl rfl hi.1 hi.2.1 (opFail_of_issues hi) ((w.guardS_false_iff _).2 hg) hc rfl, effects_plain rfl]
  exact congrArg _ (State.modWarp_id fun _ _ => rfl)

/-- The state once `await` has read its word (R361, R362). -/
def State.awaitRead (s : State) (c : Nat) (w : Warp) (o : CSOp) : State := s.bankCount c w.pipe (spWords 16 [(0, (w.s o.a.val).toNat)])

/-- R233: an `await` whose word has moved on completes. -/
theorem exec_await_met (hi : Issues s c k w (.await o)) (hd : ∀ b, w.stop ≠ .mdone b) (hc : awaitCheck o c k s = none) (hg : Guarded w o.guard)
    (hm : awaitMet o s w = true) : exec (.await o) s = .next ((s.awaitRead c w o).setWarp c k w) := by
  have hw' : (s.awaitRead c w o).warp? c k = some w := (State.warp_modCore rfl c k).trans hi.2.1
  rw [exec_eq_runSlot rfl, runSlot_held rfl rfl hi.1 hi.2.1 (opFail_of_issues hi) rfl ((w.guardS_iff _).2 hg) hd hc ?_ hw' rfl,
    effects_afterHold hw' rfl (State.modWarp_id fun _ _ => rfl), Warp.afterHold_of_run hd]
  simp only [holdAwait, State.holdWhile, hi.2.1, hm, if_true, guardedEff_of hi.2.1 hg, Bool.false_eq_true, if_false, State.awaitRead]

/-- Where a warp stands and what it waits for are not its registers. -/
theorem sameRegs_stood (w : Warp) (st : Stop) (since notBefore : Nat) (e : Option Bool) (aw : Option (Nat × Nat)) (op : Bool) (ct : Ctl) :
    SameRegs w { w with stop := st, since := since, notBefore := notBefore, ended := e, awaits := aw, opened := op, ctl := ct } :=
  ⟨rfl, rfl, rfl, rfl, rfl, rfl, rfl, rfl, rfl, rfl, rfl, rfl, rfl, rfl, rfl, rfl, rfl⟩

/-- The warp that an `await` holds (R216, R233). -/
def Warp.awaiting (w : Warp) (o : CSOp) (now : Nat) : Warp :=
  { w.holdBefore now with awaits := some ((w.s o.a.val).toNat, (w.s o.b.val).toNat % 2 ^ 32) }

theorem Warp.holdBefore_s (w : Warp) (now r : Nat) : (w.holdBefore now).s r = w.s r := by
  unfold Warp.holdBefore
  split <;> rfl

theorem Warp.holdBefore_guard (w : Warp) (now : Nat) (g : Guard) : Guarded (w.holdBefore now) g ↔ Guarded w g := by
  unfold Warp.holdBefore
  split <;> rfl

theorem Warp.holdBefore_pipe (w : Warp) (now : Nat) : (w.holdBefore now).pipe = w.pipe := by
  unfold Warp.holdBefore
  split <;> rfl

/-- R216, R233: an `await` whose word has not moved on holds its warp, which notes the word and its GEN. -/
theorem exec_await_unmet (hi : Issues s c k w (.await o)) (hd : ∀ b, w.stop ≠ .mdone b) (hc : awaitCheck o c k s = none) (hg : Guarded w o.guard)
    (hm : awaitMet o s w = false) : exec (.await o) s =
      .next (((s.setWarp c k (w.awaiting o s.cycle)).awaitRead c w o).setWarp c k { w.awaiting o s.cycle with opened := false, ctl := .none }) := by
  have hw' : ((s.setWarp c k (w.awaiting o s.cycle)).awaitRead c w o).warp? c k = some (w.awaiting o s.cycle) :=
    (State.warp_modCore rfl c k).trans (State.warp_setWarp_self ..)
  rw [exec_eq_runSlot rfl, runSlot_holds rfl rfl hi.1 hi.2.1 (opFail_of_issues hi) rfl ((w.guardS_iff _).2 hg) hd hc
    (s' := (s.setWarp c k (w.awaiting o s.cycle)).awaitRead c w o) ?_, State.modWarp_of hw']
  have hheld : (s.setWarp c k (w.holdBefore s.cycle)).warp? c k = some (w.holdBefore s.cycle) := State.warp_setWarp_self ..
  simp only [holdAwait, State.holdWhile, hi.2.1, hm, Bool.false_eq_true, if_false, if_true,
    guardedEff_of hheld ((w.holdBefore_guard _ _).2 hg), State.modWarp_of hheld, State.setWarp_setWarp, w.holdBefore_s, w.holdBefore_pipe]
  rfl

/-- R216, R233: an `await` whose hold has ended completes. -/
theorem exec_await_done {b : Bool} (hi : Issues s c k w (.await o)) (hd : w.stop = .mdone b) (hg : Guarded w o.guard) :
    exec (.await o) s = .next (s.setWarp c k { w with stop := .run }) := by
  have hrun : w.afterHold = { w with stop := .run } := by simp [Warp.afterHold, hd]
  rw [exec_eq_runSlot rfl, runSlot_afterHold rfl rfl hi.1 hi.2.1 (opFail_of_issues hi) rfl ((w.guardS_iff _).2 hg) hd rfl,
    effects_afterHold hi.2.1 rfl (State.modWarp_id fun _ _ => rfl), hrun]

theorem await_met (hi : Issues s c k w (.await o)) (hd : ∀ b, w.stop ≠ .mdone b) (hc : awaitCheck o c k s = none)
    (hm : ¬Guarded w o.guard ∨ s.spGet w.block (w.s o.a.val).toNat 16 / 2 ^ 64 % 2 ^ 32 ≠ (w.s o.b.val).toNat % 2 ^ 32) :
    ∃ t, exec (.await o) s = .next t ∧ t.warp? c k = some w ∧ Quiet s t c k := by
  by_cases hg : Guarded w o.guard
  · have hmet := (awaitMet_iff hg).2 (hm.resolve_left (not_not.2 hg))
    exact ⟨_, exec_await_met hi hd hc hg hmet, State.warp_setWarp_self .., quiet_trans (quiet_bankCount ..) (quiet_setWarp ..)⟩
  · exact ⟨s, exec_await_off hi hg, hi.2.1, quiet_refl ..⟩

theorem await_unmet (hi : Issues s c k w (.await o)) (hd : ∀ b, w.stop ≠ .mdone b) (hc : awaitCheck o c k s = none) (hg : Guarded w o.guard)
    (hm : s.spGet w.block (w.s o.a.val).toNat 16 / 2 ^ 64 % 2 ^ 32 = (w.s o.b.val).toNat % 2 ^ 32) :
    ∃ t w', exec (.await o) s = .next t ∧ HeldBefore t c k w ∧ Quiet s t c k ∧ t.warp? c k = some w' ∧
      w'.awaits = some ((w.s o.a.val).toNat, (w.s o.b.val).toNat % 2 ^ 32) := by
  have hmet : awaitMet o s w = false := Bool.eq_false_iff.2 fun h => (awaitMet_iff hg).1 h hm
  obtain ⟨hr, hf, hs⟩ := w.holdBefore_spec s.cycle
  exact ⟨_, _, exec_await_unmet hi hd hc hg hmet, ⟨_, State.warp_setWarp_self .., sameRegs_trans hr (sameRegs_stood ..), hf, rfl, rfl, hs⟩,
    quiet_trans (quiet_setWarp ..) (quiet_trans (quiet_bankCount ..) (quiet_setWarp ..)), State.warp_setWarp_self .., rfl⟩

end

/-! ## Reads at a home -/

/-- Of every warp, only where it stands may differ, as when a write that a slice logs ends its hold (R235, R371). -/
structure Roused (s t : State) : Prop where
  warp : ∀ d j w, s.warp? d j = some w → ∃ st a b, t.warp? d j = some { w with stop := st, since := a, notBefore := b }

theorem roused_same {s t : State} (h : t.cores = s.cores) : Roused s t :=
  ⟨fun d j w hw => ⟨w.stop, w.since, w.notBefore, by simpa only [State.warp?, State.core, h] using hw⟩⟩

theorem roused_refl (s : State) : Roused s s := roused_same rfl

theorem Roused.trans {s t u : State} (h : Roused s t) (g : Roused t u) : Roused s u := by
  refine ⟨fun d j w hw => ?_⟩
  obtain ⟨_, _, _, ht⟩ := h.warp d j w hw
  obtain ⟨st, a, b, hu⟩ := g.warp d j _ ht
  exact ⟨st, a, b, hu⟩

theorem Roused.after {s t u : State} (h : Roused t u) (hc : t.cores = s.cores) : Roused s u := (roused_same hc).trans h

theorem roused_ite {s t u : State} {p : Prop} [Decidable p] (h : Roused s t) (g : Roused s u) : Roused s (if p then t else u) := by
  split
  · exact h
  · exact g

theorem warp_endMwait {s : State} {c k : Nat} {w : Warp} (hw : s.warp? c k = some w) (p : Bool) :
    (s.endMwait c k p).warp? c k = some { w with stop := .mdone p, since := s.cycle, notBefore := s.cycle + 1 } :=
  (State.warp_modCore rfl c k).trans (State.warp_modWarp hw)

theorem roused_endMwait (s : State) (c k : Nat) (p : Bool) : Roused s (s.endMwait c k p) := by
  refine ⟨fun d j w hw => ?_⟩
  by_cases h : (d, j) = (c, k)
  · obtain ⟨rfl, rfl⟩ := Prod.mk.inj h
    exact ⟨_, _, _, warp_endMwait hw p⟩
  · exact ⟨w.stop, w.since, w.notBefore, (State.warp_modCore rfl d j).trans ((State.warp_modWarp_other s _ h).trans hw)⟩

theorem roused_evalMonitors (s : State) (a n : Nat) : Roused s (s.evalMonitors a n) := by
  unfold State.evalMonitors
  exact Roused.after (foldl_keeps roused_refl Roused.trans (fun s m => roused_endMwait ..) _ _) rfl

theorem roused_logRecord (s : State) (a n op req : Nat) (hit : Bool) : Roused s (s.logRecord a n op req hit) := by
  unfold State.logRecord
  refine roused_ite (roused_ite (roused_same rfl) ?_) (roused_refl s)
  refine Roused.trans (t := State.evalMonitors _ _ _) ?_ (roused_same rfl)
  exact Roused.after (roused_evalMonitors ..) rfl

theorem roused_l2Drop (s : State) (line req : Nat) : Roused s (s.l2Drop line req) := by
  unfold State.l2Drop
  split
  · exact roused_refl s
  · exact roused_ite (Roused.after (roused_logRecord ..) rfl) (roused_same rfl)

theorem roused_l2Room (s : State) (line req : Nat) : Roused s (s.l2Room line req) := by
  unfold State.l2Room
  refine roused_ite (roused_refl s) (roused_ite (roused_refl s) ?_)
  have hfree : Roused s s.freeVal.2 := roused_same rfl
  dsimp only
  split
  · exact hfree.trans (roused_l2Drop ..)
  · exact hfree

theorem roused_l2Touch (s : State) (line op req : Nat) : Roused s (s.l2Touch line op req).2 := by
  unfold State.l2Touch
  dsimp only
  split
  · exact roused_ite (roused_same rfl) (roused_refl s)
  · exact ((roused_l2Room ..).trans (roused_logRecord ..)).trans (roused_same rfl)

theorem roused_logAccess (s : State) (a n op req : Nat) : Roused s (s.logAccess a n op req) := by
  refine foldl_keeps roused_refl Roused.trans (fun s p => ?_) _ _
  unfold State.logLine
  exact roused_ite (roused_ite ((roused_l2Touch ..).trans (roused_logRecord ..)) (roused_logRecord ..)) (roused_refl s)

/-- A read at a home changes no register. -/
theorem roused_homeGet (s : State) (pa : Pa) (n op req : Nat) : Roused s (s.homeGet pa n op req).2.2 := by
  unfold State.homeGet
  split
  · next a _ =>
    have hcount : Roused s (if backed a n < n then s.count 16 else s) := roused_ite (roused_same rfl) (roused_refl s)
    exact roused_ite ((hcount.trans (roused_logAccess ..)).trans (roused_same rfl)) (hcount.trans (roused_logAccess ..))
  · split
    · exact roused_refl s
    · exact roused_same rfl
    · exact roused_same rfl

/-- Where a read at a home meets no log, it leaves the monitors and the time. -/
def ReadQuietly (s t : State) : Prop := t.monitors = s.monitors ∧ t.cycle = s.cycle ∧ Unlogged t

theorem OnlyL2.readQuietly {s t u : State} (h : OnlyL2 t u) (g : ReadQuietly s t) : ReadQuietly s u := by
  obtain ⟨_, _, rfl⟩ := h
  exact g

theorem readQuietly_homeGet {s : State} (hl : Unlogged s) (pa : Pa) (n op req : Nat) : ReadQuietly s (s.homeGet pa n op req).2.2 := by
  unfold State.homeGet
  split
  · next a _ =>
    have hcount : ReadQuietly s (if backed a n < n then s.count 16 else s) := by
      split
      · exact ⟨rfl, rfl, hl⟩
      · exact ⟨rfl, rfl, hl⟩
    have hlog : ReadQuietly s (State.logAccess (if backed a n < n then s.count 16 else s) a n op req) :=
      (onlyL2_logAccess hcount.2.2 a n op req).readQuietly hcount
    dsimp only
    split
    · exact hlog
    · exact hlog
  · split
    · exact ⟨rfl, rfl, hl⟩
    · exact ⟨rfl, rfl, hl⟩
    · exact ⟨rfl, rfl, hl⟩

/-- What a read at a home returns does not depend on the translations that are kept. -/
theorem homeGet_fst_congr (s : State) (xs : FMap CoreSt) (ys : FMap (List TlbEntry)) (pa : Pa) (n op req : Nat) :
    (({ s with cores := xs, l2tlb := ys } : State).homeGet pa n op req).1 = (s.homeGet pa n op req).1 := by
  have hl : ({ s with cores := xs, l2tlb := ys } : State).localAddr pa = s.localAddr pa := rfl
  have hc : ({ s with cores := xs, l2tlb := ys } : State).linkCause pa = s.linkCause pa := rfl
  unfold State.homeGet
  rw [hl, hc]
  cases s.localAddr pa with
  | some a => rfl
  | none => cases s.linkCause pa <;> cases pa.space <;> rfl

theorem learn_form (s : State) (c : Nat) (e : TlbEntry) : ∃ xs ys, s.learn c e = { s with cores := xs, l2tlb := ys } := by
  unfold State.learn
  dsimp only
  split
  · split
    · exact ⟨_, _, rfl⟩
    · exact ⟨_, _, rfl⟩
  · split
    · exact ⟨_, _, rfl⟩
    · exact ⟨_, _, rfl⟩

theorem homeGet_learn (s : State) (c : Nat) (e : TlbEntry) (pa : Pa) (n op req : Nat) :
    ((s.learn c e).homeGet pa n op req).1 = (s.homeGet pa n op req).1 := by
  obtain ⟨xs, ys, h⟩ := learn_form s c e
  rw [h, homeGet_fst_congr]

/-! ## `mwait` -/

/-- The hold that a read of `mwait` leaves its warp in (R234 to R236). -/
def State.mwaitHold (s : State) (c k : Nat) (dl : Option Nat) (interval poll : Nat) (armed : Bool) : State :=
  s.modWarp c k fun w => { w with
    stop := .before dl interval poll armed, ended := none, awaits := none, since := match w.stop with
      | .before .. => w.since
      | _ => s.cycle }

/-- Something of its own core stands before the read of `mwait` (R251). -/
def mwaitBehind (o : CSOp) (c k : Nat) (s : State) (w : Warp) (pa : Pa) : Prop :=
  (s.core c).fifoWrites pa.line (s.core c).next = true ∨ s.readsFirst c k w pa (mwaitN o) = true

/-- Until when `mwait` waits (R234). -/
def mwaitUntil (o : CSOp) (s : State) (w : Warp) : Option Nat :=
  if (w.s (o.a.val + 1)).toNat = 0 then none else some (s.cycle + (w.s (o.a.val + 1)).toNat)

/-- The state after the read of `mwait` at the home (R235, R352). -/
def State.mwaitSeen (s : State) (c : Nat) (e : TlbEntry) (pa : Pa) (n : Nat) : State := ((s.learn c e).homeGet pa n 0 (352 + c)).2.2

/-- One more monitor (R236). -/
def State.arm (s : State) (m : Monitor) : State := { s with monitors := s.monitors ++ [m] }

/-- The monitors of the slice of an address (R236). -/
def State.monitorsUsed (s : State) (a : Nat) : Nat := (s.monitors.filter fun m => sliceOf m.pa = sliceOf a).length

section
variable {s : State} {c k : Nat} {w : Warp} {o : CSOp} {q : Place} {e : TlbEntry}

theorem mwaitBehind_learn (pa : Pa) : mwaitBehind o c k (s.learn c e) w pa ↔ mwaitBehind o c k s w pa := by
  obtain ⟨xs, hx⟩ := (onlyTlb_learn s c e).core c
  simp only [mwaitBehind, State.readsFirst, State.acquireOpen, CoreSt.fifoWrites, hx]
  rfl

/-- R251: a read of `mwait` that something of its own core stands before is tried again. -/
theorem mwaitRead_behind (hw : s.warp? c k = some w) (hp : s.place c w .read (w.s o.a.val).toNat = some (q, e)) (dl : Option Nat) (interval : Nat)
    (h : mwaitBehind o c k s w q.pa) : mwaitRead o c k s dl interval = (s.learn c e).mwaitHold c k dl interval s.cycle false := by
  have hb : ((s.learn c e).core c).fifoWrites q.pa.line ((s.learn c e).core c).next || (s.learn c e).readsFirst c k w q.pa (mwaitN o) :=
    Bool.or_eq_true_iff.2 ((mwaitBehind_learn q.pa).2 h)
  simp only [mwaitRead, State.onWarp_of hw, hp, if_pos hb, (onlyTlb_learn s c e).cycle]
  simp only [State.mwaitHold, (onlyTlb_learn s c e).cycle] <;> rfl

/-- R235, R236: a read of `mwait` that nothing stands before ends the hold, arms a monitor, or waits for the next poll. -/
theorem mwaitRead_first (hw : s.warp? c k = some w) (hp : s.place c w .read (w.s o.a.val).toNat = some (q, e)) (dl : Option Nat) (interval : Nat)
    (h : ¬mwaitBehind o c k s w q.pa) : mwaitRead o c k s dl interval =
      if mwaitCond (o.sub.val % 8) (mwaitN o) (s.homeGet q.pa (mwaitN o) 0 (352 + c)).1 (w.s o.b.val).toNat then
        (s.mwaitSeen c e q.pa (mwaitN o)).endMwait c k true
      else if mayMonitor q && decide ((s.mwaitSeen c e q.pa (mwaitN o)).monitorsUsed q.pa.addr < Config.monitorEntries) then
        (((s.mwaitSeen c e q.pa (mwaitN o)).logAccess q.pa.addr (mwaitN o) 9 (352 + c)).arm
          ⟨c, k, q.pa.addr, mwaitN o, o.sub.val % 8, w.s o.b.val, dl⟩).mwaitHold c k dl interval 0 true
      else (s.mwaitSeen c e q.pa (mwaitN o)).mwaitHold c k dl (min (2 * interval) 65536) ((s.mwaitSeen c e q.pa (mwaitN o)).cycle + interval) false := by
  have hb : ¬(((s.learn c e).core c).fifoWrites q.pa.line ((s.learn c e).core c).next || (s.learn c e).readsFirst c k w q.pa (mwaitN o)) :=
    fun hb => h ((mwaitBehind_learn q.pa).1 (Bool.or_eq_true_iff.1 hb))
  simp only [mwaitRead, State.onWarp_of hw, hp, if_neg hb, homeGet_learn]
  rfl

/-- The warp that a read of `mwait` holds. -/
def Warp.heldMwait (w : Warp) (dl : Option Nat) (interval poll : Nat) (armed : Bool) (now : Nat) : Warp := { w with
  stop := .before dl interval poll armed, ended := none, awaits := none, since := match w.stop with
    | .before .. => w.since
    | _ => now }

theorem State.mwaitHold_of {u : State} {v : Warp} (hv : u.warp? c k = some v) (dl : Option Nat) (interval poll : Nat) (armed : Bool) :
    u.mwaitHold c k dl interval poll armed = u.setWarp c k (v.heldMwait dl interval poll armed u.cycle) := State.modWarp_of hv _

theorem holdMwait_of (hw : s.warp? c k = some w) (hd : w.stop = .run) (hg : Guarded w o.guard) :
    holdMwait o c k s = match (mwaitRead o c k s (mwaitUntil o s w) 256).warp? c k with
      | some v => (match v.stop with | .mdone _ => false | _ => true, mwaitRead o c k s (mwaitUntil o s w) 256)
      | none => (false, mwaitRead o c k s (mwaitUntil o s w) 256) := by
  simp only [holdMwait, hw, (w.guardS_iff _).2 hg, Bool.not_true, Bool.false_eq_true, if_false, hd]
  rfl

/-- R216: `mwait` holds its warp when its first read leaves it in a hold. -/
theorem exec_mwait_holds (hi : Issues s c k w (.mwait o)) (hc : chkMwait o c k s = none) (hd : w.stop = .run) (hg : Guarded w o.guard)
    {u : State} (hu : Roused s u) {interval poll : Nat} {armed : Bool}
    (hr : mwaitRead o c k s (mwaitUntil o s w) 256 = u.mwaitHold c k (mwaitUntil o s w) interval poll armed) :
    ∃ t w', exec (.mwait o) s = .next t ∧ HeldBefore t c k w ∧ t.warp? c k = some w' ∧
      w'.stop = .before (mwaitUntil o s w) interval poll armed ∧ t.monitors = u.monitors := by
  obtain ⟨st, a, b, hv⟩ := hu.warp c k w hi.2.1
  let v := ({ w with stop := st, since := a, notBefore := b } : Warp).heldMwait (mwaitUntil o s w) interval poll armed u.cycle
  have hr' : mwaitRead o c k s (mwaitUntil o s w) 256 = u.setWarp c k v := hr.trans (State.mwaitHold_of hv ..)
  have hwv : (u.setWarp c k v).warp? c k = some v := State.warp_setWarp_self ..
  have hh : holdMwait o c k s = (true, u.setWarp c k v) := by
    rw [holdMwait_of hi.2.1 hd hg, hr', hwv]
    rfl
  have hx := runSlot_holds (i := .mwait o) rfl rfl hi.1 hi.2.1 (opFail_of_issues hi) rfl ((w.guardS_iff _).2 hg) (fun b h => nomatch hd.symm.trans h) hc hh
  refine ⟨_, { v with opened := false, ctl := .none }, hx, ⟨_, State.warp_modWarp hwv, sameRegs_stood .., rfl, rfl, rfl, _, _, _, _, rfl⟩,
    State.warp_modWarp hwv, rfl, ?_⟩
  rw [State.modWarp_monitors, State.setWarp_monitors]

/-- R215: the effect of an operation that lets its warp run is all that its bundle does after its hold. -/
theorem effects_running {t : State} {i : Instr} {f : SlotFn} {v : Warp} (hf : slotFn i = some f) (he : f.eff c k t = t.setWarp c k v)
    (hv : v.stop = .run) : t.effects c k none none none (some i) true = t.setWarp c k v := by
  simp only [State.effects, effOf_none, effOf_some hf, freezeOf_none, he, if_true]
  refine State.modWarp_id fun w hw => ?_
  obtain rfl : v = w := Option.some.inj ((State.warp_setWarp_self t c k v).symm.trans hw)
  rw [hv]

/-- R235: `mwait` completes with 1 when its first read ends the hold. -/
theorem exec_mwait_ends (hi : Issues s c k w (.mwait o)) (hc : chkMwait o c k s = none) (hd : w.stop = .run) (hg : Guarded w o.guard)
    {u : State} (hu : Roused s u) (hr : mwaitRead o c k s (mwaitUntil o s w) 256 = u.endMwait c k true) :
    ∃ t w' y, exec (.mwait o) s = .next t ∧ t.warp? c k = some w' ∧ SameRegs w w' ∧ w'.stop = .run ∧ w'.flight = w.flight ++ [y] ∧
      Lands w y 3 1 (.sp (o.d.val % 8)) .none ∧ y.scalar = 1 ∧ (t.core c).l1 = [] := by
  obtain ⟨st, a, b, hv⟩ := hu.warp c k w hi.2.1
  let v := ({ w with stop := .mdone true, since := u.cycle, notBefore := u.cycle + 1 } : Warp)
  have hwv : (u.endMwait c k true).warp? c k = some v := warp_endMwait hv true
  have hh : holdMwait o c k s = (false, u.endMwait c k true) := by
    rw [holdMwait_of hi.2.1 hd hg, hr, hwv]
  have hl : ((u.endMwait c k true).core c).l1 = [] := by
    rw [State.endMwait, State.l1Invalidate, State.core_modCore]
  have hx := runSlot_held (i := .mwait o) rfl rfl hi.1 hi.2.1 (opFail_of_issues hi) rfl ((w.guardS_iff _).2 hg) (fun b h => nomatch hd.symm.trans h) hc hh
    hwv rfl
  have he : effMwait o c k (u.endMwait c k true) = (u.endMwait c k true).setWarp c k ({ v with stop := .run }.landCp (o.d.val % 8) true) :=
    guardedEff_of hwv hg _
  have hz : ({ v with stop := .run }.landCp (o.d.val % 8) true).stop = .run := rfl
  generalize hw1 : ({ v with stop := .run } : Warp).landCp (o.d.val % 8) true = w1 at he hz
  have heff : (u.endMwait c k true).effects c k none none none (some (.mwait o)) true = (u.endMwait c k true).setWarp c k w1 := by
    exact effects_running rfl he hz
  refine ⟨_, w1, (({ v with stop := .run } : Warp).scalarLanding 3 1 (.sp (o.d.val % 8)) .none 1 0), hx.trans (congrArg _ heff), State.warp_setWarp_self ..,
    hw1 ▸ ?_, hz, hw1 ▸ rfl, ⟨rfl, rfl, rfl, rfl, rfl, rfl, rfl⟩, rfl, ?_⟩
  · exact ⟨rfl, rfl, rfl, rfl, rfl, rfl, rfl, rfl, rfl, rfl, rfl, rfl, rfl, rfl, rfl, rfl, rfl⟩
  · rw [State.setWarp, State.core_modCore]
    exact hl

/-- R235: `mwait` whose hold has ended lands the predicate with which it ended. -/
theorem exec_mwait_done {b : Bool} (hi : Issues s c k w (.mwait o)) (hd : w.stop = .mdone b) (hg : Guarded w o.guard) :
    exec (.mwait o) s = .next (s.setWarp c k ({ w with stop := .run }.landCp (o.d.val % 8) b)) := by
  have he : effMwait o c k s = s.setWarp c k ({ w with stop := .run }.landCp (o.d.val % 8) b) := by
    rw [effMwait, guardedEff_of hi.2.1 hg, hd]
  rw [exec_eq_runSlot rfl, runSlot_afterHold rfl rfl hi.1 hi.2.1 (opFail_of_issues hi) rfl ((w.guardS_iff _).2 hg) hd rfl,
    effects_running rfl he rfl]

/-- R212: `mwait` without its guard does nothing. -/
theorem exec_mwait_off (hi : Issues s c k w (.mwait o)) (hg : ¬Guarded w o.guard) : exec (.mwait o) s = .next s := by
  rw [exec_eq_runSlot rfl, runSlot_unheld rfl rfl hi.1 hi.2.1 (opFail_of_issues hi) ((w.guardS_false_iff _).2 hg)
    (guardedCheck_off hi.2.1 hg _) rfl, effects_plain rfl]
  exact congrArg _ (guardedEff_off hi.2.1 hg _)

theorem roused_learn (s : State) (c : Nat) (e : TlbEntry) : Roused s (s.learn c e) :=
  ⟨fun d j w hw => ⟨w.stop, w.since, w.notBefore, ((onlyTlb_learn s c e).warp d j).trans hw⟩⟩

theorem learn_slices (s : State) (c : Nat) (e : TlbEntry) : (s.learn c e).slices = s.slices ∧ (s.learn c e).monitors = s.monitors := by
  obtain ⟨xs, ys, h⟩ := learn_form s c e
  rw [h]
  exact ⟨rfl, rfl⟩

theorem roused_arm (s : State) (m : Monitor) : Roused s (s.arm m) := roused_same rfl

theorem roused_mwaitSeen (s : State) (c : Nat) (e : TlbEntry) (pa : Pa) (n : Nat) : Roused s (s.mwaitSeen c e pa n) :=
  (roused_learn ..).trans (roused_homeGet ..)

theorem readQuietly_mwaitSeen {s : State} (hl : Unlogged s) (c : Nat) (e : TlbEntry) (pa : Pa) (n : Nat) : ReadQuietly s (s.mwaitSeen c e pa n) := by
  obtain ⟨hs, hm⟩ := learn_slices s c e
  have hl' : Unlogged (s.learn c e) := fun i => by
    have := hl i
    rwa [State.slice, hs]
  obtain ⟨h1, h2, h3⟩ := readQuietly_homeGet hl' pa n 0 (352 + c)
  exact ⟨h1.trans hm, h2.trans (onlyTlb_learn s c e).cycle, h3⟩

/-- R236: `mwait` whose condition does not hold arms a monitor, or waits for its next poll. -/
theorem mwait_unmet (hi : Issues s c k w (.mwait o)) (hc : chkMwait o c k s = none) (hd : w.stop = .run) (hg : Guarded w o.guard)
    (hp : s.place c w .read (w.s o.a.val).toNat = some (q, e)) (hb : ¬mwaitBehind o c k s w q.pa)
    (hm : mwaitCond (o.sub.val % 8) (mwaitN o) (s.homeGet q.pa (mwaitN o) 0 (352 + c)).1 (w.s o.b.val).toNat = false) :
    ∃ t, exec (.mwait o) s = .next t ∧ HeldBefore t c k w ∧
      (mayMonitor q = true → Unlogged s → s.monitorsUsed q.pa.addr < 256 →
        t.monitors = s.monitors ++ [⟨c, k, q.pa.addr, mwaitN o, o.sub.val % 8, w.s o.b.val, mwaitUntil o s w⟩]) ∧
      (Unlogged s → mayMonitor q = false ∨ 256 ≤ s.monitorsUsed q.pa.addr →
        t.monitors = s.monitors ∧ ∃ w', t.warp? c k = some w' ∧ w'.stop = .before (mwaitUntil o s w) 512 (s.cycle + 256) false) := by
  have hr := mwaitRead_first hi.2.1 hp (mwaitUntil o s w) 256 hb
  have hseen := roused_mwaitSeen s c e q.pa (mwaitN o)
  have hused : Unlogged s → (s.mwaitSeen c e q.pa (mwaitN o)).monitorsUsed q.pa.addr = s.monitorsUsed q.pa.addr := fun hl => by
    rw [State.monitorsUsed, (readQuietly_mwaitSeen hl c e q.pa (mwaitN o)).1]
    rfl
  rw [hm, if_neg Bool.false_ne_true] at hr
  by_cases ha : mayMonitor q && decide ((s.mwaitSeen c e q.pa (mwaitN o)).monitorsUsed q.pa.addr < Config.monitorEntries)
  · rw [if_pos ha] at hr
    obtain ⟨hmay, hlt⟩ := Bool.and_eq_true_iff.1 ha
    have hlt : (s.mwaitSeen c e q.pa (mwaitN o)).monitorsUsed q.pa.addr < 256 := of_decide_eq_true hlt
    obtain ⟨t, w', hx, hh, hw', hst, hmon⟩ := exec_mwait_holds hi hc hd hg ((hseen.trans (roused_logAccess ..)).trans (roused_arm ..)) hr
    refine ⟨t, hx, hh, fun _ hl _ => ?_, fun hl h => ?_⟩
    · have hq := readQuietly_mwaitSeen hl c e q.pa (mwaitN o)
      rw [hmon, State.arm, ((onlyL2_logAccess hq.2.2 ..).readQuietly hq).1]
    · rcases h with h | h
      · rw [hmay] at h
        exact absurd h (by decide)
      · rw [hused hl] at hlt
        omega
  · rw [if_neg ha] at hr
    obtain ⟨t, w', hx, hh, hw', hst, hmon⟩ := exec_mwait_holds hi hc hd hg hseen hr
    refine ⟨t, hx, hh, fun hmay hl hlt => absurd ?_ ha, fun hl _ => ?_⟩
    · rw [hused hl, hmay]
      exact decide_eq_true hlt
    · obtain ⟨hmo, hcy, _⟩ := readQuietly_mwaitSeen hl c e q.pa (mwaitN o)
      refine ⟨hmon.trans hmo, w', hw', ?_⟩
      rw [hst, hcy]
      rfl

end

/-- R234: the conditions of `mwait`. -/
theorem mwaitCond_iff (m n x v : Nat) : mwaitCond m n x v = true ↔ match m with
    | 0 => x = v % 2 ^ (8 * n)
    | 1 => x ≠ v % 2 ^ (8 * n)
    | 2 => signExt x (8 * n) < signExt (v % 2 ^ (8 * n)) (8 * n)
    | 3 => signExt (v % 2 ^ (8 * n)) (8 * n) ≤ signExt x (8 * n)
    | 4 => x < v % 2 ^ (8 * n)
    | _ => v % 2 ^ (8 * n) ≤ x := by
  unfold mwaitCond
  match m with
  | 0 | 1 | 2 | 3 | 4 | _ + 5 => exact decide_eq_true_iff

theorem mayMonitor_iff (q : Place) : mayMonitor q = true ↔ q.pa.space = .hbm ∧ q.ms = false ∧ q.pod = false := by
  simp only [mayMonitor, Bool.and_eq_true, decide_eq_true_eq, Bool.not_eq_true', and_assoc]

theorem homeGet_device {s : State} {pa : Pa} (h : s.localAddr pa = some pa.addr) (n op req : Nat) :
    (s.homeGet pa n op req).1 = s.devGet pa.addr n := by
  simp only [State.homeGet, h]

/-! ## The clauses -/

theorem ainit_clauses {s : State} {c k : Nat} {w : Warp} {o : CSOp} (hi : Issues s c k w (.ainit o)) (hg : Guarded w o.guard) :
    ((w.s o.a.val).toNat % 16 ≠ 0 → exec (.ainit o) s = .next (s.failWhole c k 8 ⟨0x140, (w.s o.a.val).toNat, 0⟩ 3)) ∧
      ((w.s o.a.val).toNat % 16 = 0 → signed64 (w.s o.a.val).toNat < 0 ∨ s.allocOf w < signed64 (w.s o.a.val).toNat + 16 →
        exec (.ainit o) s = .next (s.failWhole c k 8 ⟨0x141, (w.s o.a.val).toNat, 0⟩ 3)) := by
  refine ⟨fun ha => ?_, fun ha hb => ?_⟩
  · rw [exec_ainit_fail hi hg fun h => ha h.1, if_pos ha]
  · have hf : ¬SpFits (s.allocOf w) 16 (w.s o.a.val).toNat := fun h => by
      obtain ⟨_, h0, h1⟩ := h
      omega
    rw [exec_ainit_fail hi hg hf, if_neg (not_not.2 ha)]

/-- Settles O31: an arrival word is checked and written, a hold before the bundle ends or keeps its warp, and the read of `mwait` at the home decides
which. -/
theorem wordWaits : Obligations.WordWaits := by
  unfold Obligations.WordWaits
  refine ⟨⟨fun o s c k w hi => ⟨exec_ainit_off hi, fun hg => (ainit_clauses hi hg).1, fun hg => (ainit_clauses hi hg).2,
      fun hg ha h0 h1 => ainit_ok hi hg ⟨ha, h0, h1⟩⟩, fun o s c k w hi hd hc => ⟨await_met hi hd hc, fun hm => ?_⟩,
      fun o s c k w b hi hd hg => ⟨_, exec_await_done hi hd hg, State.warp_setWarp_self .., quiet_setWarp ..⟩⟩,
    fun o s c k w q e hi hc hd hg hp => ?_, fun o s c k w b hi hd hg => ?_, fun o s c k w hi _ hg => ⟨s, exec_mwait_off hi hg, hi.2.1, quiet_refl ..⟩⟩
  · obtain ⟨hg, hm⟩ := not_or.1 hm
    exact await_unmet hi hd hc (not_not.1 hg) (not_not.1 hm)
  · intro n dl first x v met used
    have hdev : s.localAddr q.pa = some q.pa.addr → x = s.devGet q.pa.addr n := fun h => homeGet_device h n 0 (352 + c)
    have hmet : mwaitCond (o.sub.val % 8) (mwaitN o) x (w.s o.b.val).toNat = true ↔ met := mwaitCond_iff ..
    by_cases hb : mwaitBehind o c k s w q.pa
    · obtain ⟨t, w', hx, hh, hw', hst, _⟩ := exec_mwait_holds hi hc hd hg (roused_learn s c e) (mwaitRead_behind hi.2.1 hp _ _ hb)
      exact ⟨t, hx, hdev, fun _ => ⟨hh, w', hw', hst⟩, fun h => absurd hb h, fun h => absurd hb h⟩
    · by_cases hm : met
      · have hr := (mwaitRead_first hi.2.1 hp (mwaitUntil o s w) 256 hb).trans (if_pos (hmet.2 hm))
        obtain ⟨t, w', y, hx, h⟩ := exec_mwait_ends hi hc hd hg (roused_mwaitSeen ..) hr
        exact ⟨t, hx, hdev, fun h => absurd h hb, fun _ _ => ⟨w', y, h⟩, fun _ h => absurd hm h⟩
      · obtain ⟨t, hx, hh, harm, hpoll⟩ := mwait_unmet hi hc hd hg hp hb (Bool.eq_false_iff.2 fun h => hm (hmet.1 h))
        refine ⟨t, hx, hdev, fun h => absurd h hb, fun _ h => absurd h hm, fun _ _ => ⟨hh, fun hq => harm ((mayMonitor_iff q).2 hq), fun hl h => ?_⟩⟩
        exact hpoll hl (h.imp_left fun h => Bool.eq_false_iff.2 fun hq => h ((mayMonitor_iff q).1 hq))
  · exact ⟨_, _, exec_mwait_done hi hd hg, State.warp_setWarp_self .., quiet_setWarp .., ⟨rfl, rfl, rfl, rfl, rfl, rfl, rfl⟩, rfl⟩

end Sys2Proof.Machine
end
